-- ==== Sys2Proof/Word.lean ====
section
/-! DEFINITION. The word types of the complex and the shape of its sparse arrays: plain types only. -/

namespace Sys2Proof

/-- One byte of memory or of a port. -/
abbrev Byte := BitVec 8

/-- The 64-bit word of registers, handles, keys and addresses (R9). -/
abbrev Word := BitVec 64

/-- An IEEE 754 binary32 pattern (R242, R259). -/
abbrev F32 := BitVec 32

/-- An array indexed by a number, written out sparsely: the indices rise strictly, and an index that is not
listed holds the array's default element (named where the array is read). Its operations are in Machine/Tab.lean. -/
abbrev Tab (α : Type) := List (Nat × α)

end Sys2Proof
end

