-- ==== Sys2Proof/Syntax.lean ====
section
/-! DEFINITION. The commands of the complex: one constructor for each row of the table of operations and events.
The table gives names and no operands. The operands are the model's own (log entry 10): they name the part of the
complex the row acts on and carry what the surroundings supply in that step. -/

namespace Sys2Proof

/-- How device memory answers a request (R37, R41, R42): `deadline` is a response that misses the 32 µs deadline. -/
inductive BusStatus where
  | ok | poison | decode | access | deadline
  deriving DecidableEq, Repr

/-- How device memory answers the requests of one step, by 64 B line number; a line that is not listed is answered OK.
An entry at 2^42 + l speaks of the writes of line l alone, and for them it stands over the entry at l. -/
abbrev Bus := List (Nat × BusStatus)

/-- A PCI Express function: host port and VF number, 0 for the PF (R71). -/
structure Fn where
  port : Nat
  vf   : Nat
  deriving DecidableEq, Repr

/-- The configuration of a function as the host's configuration writes leave it (R67, R72, R96, R102, R108; log entry 7):
`mps` is the code of Max Payload Size, `cto` the Completion Timeout Value in microseconds. -/
structure FnCfg where
  d3hot     : Bool
  busMaster : Bool
  enabled   : Bool
  pasidEn   : Bool
  aspmL1    : Bool
  msixEn    : Bool
  fnMask    : Bool
  mps       : BitVec 3
  cto       : Nat
  bar0      : Word
  bar2      : Word
  bar4      : Word
  deriving DecidableEq, Repr

/-- Where a register write of a host lands: the function, its BAR4 in place of BAR0, and the selective IDE stream that it
came on (R72, R103). -/
structure RegAt where
  fn     : Fn
  bar4   : Bool := false
  stream : Option Nat := none
  deriving DecidableEq, Repr

/-- The TDI states of a VF (R104). -/
inductive TdiState where
  | unlocked | locked | run | error
  deriving DecidableEq, Repr

/-- How a flush read completes (R96). -/
inductive FlushStatus where
  | ok | ur | ca
  deriving DecidableEq, Repr

/-- The users of the translation unit (R162). `ingest true` is a write on a measured path (R161). -/
inductive TrUser where
  | pooling | key | mover | ingest (measured : Bool) | core | service | engine
  deriving DecidableEq, Repr

/-- Access kinds, coded as in a fault record (R446): read 0, write 1, atomic 2. -/
inductive Access where
  | read | write | atomic
  deriving DecidableEq, Repr

/-- One slice's latency estimate in a Sloe window (R185): requests served, 99th-percentile latency. -/
structure SloeEst where
  slice  : Nat
  served : Nat
  p99    : Nat
  deriving DecidableEq, Repr

/-- The content of a TS flit (R276). -/
structure TsContent where
  port     : Nat
  width    : Nat
  rate     : BitVec 3
  manager  : Bool
  node     : BitVec 10
  assigned : Bool
  digest   : Word
  deriving DecidableEq, Repr

/-- An inter-board link of the manager graph (R285): the manager with digest `a` reaches `b` on its port; at `b` the link is
on port `back`. -/
structure MgrLink where
  a    : Word
  port : Nat
  b    : Word
  back : Nat
  deriving DecidableEq, Repr

/-- A live link within a board (R284, R288): the complex at position `a` reaches the one at position `b` on its port. -/
structure MeshLink where
  a    : Nat
  port : Nat
  b    : Nat
  deriving DecidableEq, Repr

/-- A board as the root learns of it (R285): the digest of its manager, the positions of its workers, and its links. -/
structure BoardMap where
  digest  : Word
  members : List Nat
  mesh    : List MeshLink
  deriving DecidableEq, Repr

/-- One route (R285 step 5): flits at a node for `dst` leave on a port. -/
structure RouteEnt where
  node : Nat
  dst  : Nat
  port : Nat
  deriving DecidableEq, Repr

/-- What discovery has gathered of the tree (R285, R291): the links between managers, and the boards. -/
structure Topology where
  links  : List MgrLink
  boards : List BoardMap
  deriving DecidableEq, Repr

/-- What a ROUTE carries for a board (R285 step 5): its links, and routes of its complexes. -/
structure RouteMap where
  mesh   : List MeshLink
  routes : List RouteEnt
  deriving DecidableEq, Repr

/-- A beat of the tile on a tile port (R44). -/
structure TileBeat where
  port : Nat
  beat : Nat
  deriving DecidableEq, Repr

/-- A KEY_INSTALL or KEY_NOTICE kind (R297, R298). -/
inductive NoticeKind where
  | lost | revoked
  deriving DecidableEq, Repr

/-- The per-hop fields that any flit carries back to the transmitter (R273, R279, R281). -/
structure HopFields where
  crdVc : BitVec 2
  crd   : Byte
  ack   : Option (BitVec 12)
  deriving DecidableEq, Repr

/-- The common fields of a CREQ (R369); `rsv` tells that a reserved bit or code was set. -/
structure CReq where
  txn  : Byte
  va   : Bool
  ctx  : BitVec 12
  addr : BitVec 57
  rsv  : Bool
  deriving DecidableEq, Repr

/-- A KEY_INSTALL message: the node that sent it, and the node that its key is for (R426; log entry 97). -/
structure KeyHop where
  src : BitVec 10
  dst : BitVec 10
  deriving DecidableEq, Repr

/-- The operation bits of a Wambe message that is authenticated (R418): sequence number, and whether its tag checks. -/
structure WAuth where
  seq   : BitVec 16
  tagOk : Bool
  deriving DecidableEq, Repr

/-- An event from a fault source (R439, R446). -/
structure Event where
  source     : BitVec 16
  quarantine : Bool := false
  address    : Word := 0
  access     : BitVec 2 := 3
  detail     : Byte := 0
  info       : BitVec 16 := 0
  ctx        : Option (BitVec 12) := none
  part       : Option (BitVec 3) := none
  queue      : BitVec 15 := 0x7FFF
  head       : BitVec 16 := 0
  deriving DecidableEq, Repr

/-- Sets of sibling slices that Sloe watches, with the INST of their source (R185, R439). -/
inductive SloeSet where
  | pageSlices | keySlices | quads | brambles
  deriving DecidableEq, Repr

/-- The commands, in the table's order. -/
inductive Instr where
  -- resets and the host ports
  | powerOnReset (suppliesRemoved : Bool) (role : Bool) (i3cAddr : BitVec 7) (entropy : BitVec 32)
  | complexReset
  | resetSequenceEnd (firmwareOk : Bool) (bus : Bus)
  | fuseReadTimeout
  | quinceHalt
  | hostPortReset (port : Nat)
  | flr (fn : Fn)
  | dStateChange (fn : Fn) (cfg : FnCfg)
  | linkPartnerNoFlit (port : Nat)
  | malformedTlp (port : Nat)
  | unexpectedCompletion (port : Nat)
  | receiverError (port : Nat)
  -- the ingest window
  | windowWrite (fn : Fn) (stream : Option Nat) (off : BitVec 36) (data : List Byte) (poisoned : Bool) (bus : Bus)
  | copyOnWriteDone (cow : Nat) (bus : Bus)
  | windowWriteCommit (ww : Nat) (st : BusStatus)
  | sealedRecord (port ap : Nat) (bus : Bus)
  | sealedFinalClose (port ap : Nat)
  | bar2Read (fn : Fn)
  | apertureEnable (port ap : Nat) (value : Word) (bus : Bus)
  | apertureDisable (port ap : Nat) (value : Word)
  | close (port ap : Nat) (value : Word)
  | measuredCloseDone (port ap : Nat)
  | vfCtxmapWrite (port vf entry : Nat) (value : BitVec 16)
  | ingestSyncRead (fn : Fn) (tag : Nat)
  | ingestSyncDone (port tag : Nat)
  | doorbellTail (fn : Fn) (stream : Option Nat) (page : Nat) (value : BitVec 32)
  | doorbellFenceClear (port : Nat) (bus : Bus)
  | doorbellCqHead (fn : Fn) (stream : Option Nat) (page : Nat) (value : BitVec 32)
  | doorbellSretHead (fn : Fn) (stream : Option Nat) (page : Nat) (value : BitVec 32)
  -- contexts, queues and commands
  | contextLoadDone (ctx : BitVec 12) (bus : Bus)
  | ringReadResponse (ctx : BitVec 12) (q : Nat) (bus : Bus)
  | dbBackoffReread (ctx : BitVec 12) (q : Nat)
  | dbPatienceExpire (ctx : BitVec 12) (q : Nat)
  | dispatch (bus : Bus)
  | nop (cmd : Nat)
  | writePips (cmd : Nat) (bus : Bus)
  | copy (cmd : Nat)
  | runChannel (cmd : Nat) (bus : Bus)
  | signal (cmd : Nat) (bus : Bus)
  | wait (cmd : Nat) (bus : Bus)
  | flush (cmd : Nat)
  | map (cmd : Nat) (bus : Bus)
  | unmap (cmd : Nat) (bus : Bus)
  | objectFree (cmd : Nat) (bus : Bus)
  | bagPool (cmd : Nat) (bus : Bus)
  | keyAdmit (cmd : Nat) (bus : Bus)
  | keyEvict (cmd : Nat) (bus : Bus)
  | keyCommandResume (cmd : Nat) (bus : Bus)
  | tableOpen (cmd : Nat) (bus : Bus)
  | tableAbort (cmd : Nat) (bus : Bus)
  | tableFlip (cmd : Nat) (bus : Bus)
  | flipTakeEffect (cmd : Nat) (bus : Bus)
  | retirement (obj : BitVec 32) (bus : Bus)
  | remoteWrite (cmd : Nat) (bus : Bus)
  | remoteSignal (cmd : Nat)
  | contextResume (cmd : Nat)
  | resumeRetryAll (cmd : Nat) (bus : Bus)
  | resumeAbortAll (cmd : Nat) (bus : Bus)
  | resumeRetrySlot (cmd : Nat) (bus : Bus)
  | resumeAbortSlot (cmd : Nat) (bus : Bus)
  | contextAbort (cmd : Nat) (bus : Bus)
  | commandEnd (cmd : Nat) (bus : Bus)
  | flushReadCompletion (port fl : Nat) (st : FlushStatus) (bus : Bus)
  | flushReadTimeout (port fl : Nat) (bus : Bus)
  | msiXUnmask (fn : Fn) (vector : Nat)
  | completionRingFullNote (ctx : BitVec 12) (q : Nat)
  | bounceRingFullNote (ctx : BitVec 12)
  | waitEvaluate (bus : Bus)
  | waitTimeout (cmd : Nat)
  | ctxEnable (ctx : BitVec 12) (bus : Bus)
  | ctxDisable (ctx : BitVec 12)
  | ctxDisableDone (ctx : BitVec 12) (bus : Bus)
  | ctxResume (ctx : BitVec 12)
  | ctxAbort (ctx : BitVec 12) (bus : Bus)
  | ctxAbortDone (ctx : BitVec 12) (bus : Bus)
  | ctxPin (ctx : BitVec 12) (bus : Bus)
  | ctxUnpin (ctx : BitVec 12)
  | objCreate (index : BitVec 32) (bus : Bus)
  | objFree (index : BitVec 32) (bus : Bus)
  | objectDrainEnd (index : BitVec 32) (bus : Bus)
  -- translation
  | pageWalk (user : TrUser) (ctx : BitVec 12) (va : Word) (acc : Access) (bus : Bus)
  | faultPatienceExpire (slot : Nat) (bus : Bus)
  | fltRetry (slot : BitVec 8) (bus : Bus)
  | fltAbort (slot : BitVec 8) (bus : Bus)
  | invAll (walk : Bool)
  | invPartition (part : BitVec 3) (walk : Bool)
  | invContext (ctx : BitVec 12) (walk : Bool)
  | invRange (ctx : BitVec 12) (walk : Bool)
  | invalidationDone
  | poolAllocProduce (part cls : Nat) (prod : BitVec 32)
  | poolReturnConsume (part cls : Nat) (cons : BitVec 32) (bus : Bus)
  | poolReturnWaitNote (part cls : Nat)
  | pageSliceRetire (mask : BitVec 16)
  | pageSliceRetireDone
  | tsRequest (port tag : Nat) (va : BitVec 57) (ctx : BitVec 12) (wr : Bool) (bus : Bus)
  | tsDone (port tag : Nat)
  | tsHoldTimeout (port tag : Nat)
  | sloeWindowEnd (set : SloeSet) (ests : List SloeEst)
  -- keys
  | keyLookup (cmd entry : Nat) (bus : Bus)
  | admitEventSignal (obj : BitVec 32) (bus : Bus)
  | keySliceRetire (mask : BitVec 32)
  | keySliceRetireDone
  | ktInvAll
  | ktInvTable (obj : BitVec 32)
  | ktInvDone
  -- pooling
  | segmentAccept (cmd bag seg : Nat) (bus : Bus)
  | rowFetchResponse (cmd entry : Nat) (st : BusStatus)
  | tileAccept (port : Nat) (bus : Bus)
  | tileStallTimeout (at_ : TileBeat)
  | quadRetire (mask : BitVec 12)
  | quadRetireDone
  -- Gweloty ports
  | gwelotyResponse (port tag : Nat) (st : BusStatus)
  | memoryResponseDeadline (port tag : Nat)
  -- mover channels
  | channelRunStart (ch : Nat) (bus : Bus)
  | move (ch : Nat) (bus : Bus)
  | loop (ch : Nat)
  | endloop (ch : Nat)
  | channelNop (ch : Nat)
  | channelWait (ch : Nat) (bus : Bus)
  | channelWaitTimeout (ch : Nat)
  | channelSignal (ch : Nat)
  | channelSignalSet (ch : Nat) (bus : Bus)
  | fence (ch : Nat)
  | stop (ch : Nat) (bus : Bus)
  -- remote operations
  | remoteWriteRequest (msg : Nat) (bus : Bus)
  | remoteReadRequest (msg : Nat) (bus : Bus)
  | remoteAtomicRequest (msg : Nat) (bus : Bus)
  | remoteSignalRequest (msg : Nat) (bus : Bus)
  | remotePoolRequest (msg : Nat) (bus : Bus)
  | readData (msg : Nat) (bus : Bus)
  | atomicResult (msg : Nat) (bus : Bus)
  | poolPartial (msg : Nat)
  | ack (msg : Nat) (bus : Bus)
  | nack (msg : Nat) (bus : Bus)
  | remotePatienceExpire (node : BitVec 10) (req : BitVec 12) (bus : Bus)
  -- Bramble links
  | dataFlit (port : Nat) (flit : BitVec 2048)
  | ts (port : Nat) (content : TsContent)
  | nak (port : Nat) (seq : BitVec 12)
  | credit (port : Nat) (c0 c1 c2 c3 : BitVec 16)
  | l1Req (port : Nat)
  | l1Ack (port : Nat)
  | safe (port : Nat) (bus : Bus)
  | ackTimer (port : Nat)
  | replayTimer (port : Nat)
  | laneLockLoss (port : Nat)
  | trainingTimeout (port : Nat) (bus : Bus)
  | trainingRetry (port : Nat)
  | linkTrained (port : Nat) (lanes : BitVec 16) (eq128 : Bool)
  | portEnable (port : Nat)
  | portDisable (port : Nat) (bus : Bus)
  | retrain (port : Nat)
  | portRetire (port : Nat)
  | portRestore (port : Nat)
  | rediscover
  | discoveryStart
  | rootElection (topo : Topology)
  | mgrAnnounce (port : Nat) (digest : Word)
  | assign (port : Nat) (node : BitVec 10)
  | route (board : BitVec 6) (body : RouteMap) (bus : Bus)
  | topoChange (topo : Topology)
  | keyInstall (hop : KeyHop) (blob : BitVec 512) (tagOk : Bool)
  | keyNotice (src : BitVec 10) (kind : NoticeKind) (keys : List Byte)
  | shardDir (src : BitVec 10) (slot : Nat) (hdr : BitVec 128) (entries : List (BitVec 128)) (map : List Byte) (bus : Bus)
  | publish (slot : BitVec 6) (bus : Bus)
  | withdraw (slot : BitVec 6)
  | jobkeyInstall (key : Byte) (bus : Bus)
  -- the coherence home
  | rdShared (core : Nat) (req : CReq) (bus : Bus)
  | rdUnique (core : Nat) (req : CReq) (bus : Bus)
  | upgrade (core : Nat) (req : CReq) (bus : Bus)
  | wb (core : Nat) (req : CReq) (keep : Bool) (data : List Byte) (bus : Bus)
  | rdNc (core : Nat) (req : CReq) (size : BitVec 3) (bus : Bus)
  | wrNc (core : Nat) (req : CReq) (size : BitVec 3) (data : List Byte) (bus : Bus)
  | atomic (core : Nat) (req : CReq) (size : BitVec 3) (aop : BitVec 4) (data : List Byte) (bus : Bus)
  | barrier (core : Nat) (req : CReq) (kind : BitVec 2)
  | miss (core : Nat) (sid : BitVec 10) (bus : Bus)
  | shared (core : Nat) (sid : BitVec 10) (bus : Bus)
  | accept (core : Nat) (sid : BitVec 10) (bus : Bus)
  | decline (core : Nat) (sid : BitVec 10) (bus : Bus)
  | snoopData (core : Nat) (sid : BitVec 10) (toO : Bool) (data : List Byte) (bus : Bus)
  | snoopDeadline (agent slice : Nat) (bus : Bus)
  | down (bus : Bus)
  | restore
  | restoreCreditsReceived
  | restoreCreditTimeout
  -- partitions
  | lock (part : BitVec 3)
  | unlock (part : BitVec 3)
  | teardown (part : BitVec 3) (bus : Bus)
  | teardownDrainDone (part : BitVec 3)
  | teardownQuiescenceTimeout (part : BitVec 3)
  | scrubComplete (part : BitVec 3) (bus : Bus)
  | partitionTableWrite (off : BitVec 24) (value : Word)
  -- the Wambe port and Quince
  | getStatus
  | getIdentity
  | sessionOpen (key : List Byte) (share : List Byte) (sigOk : Bool)
  | sessionClose (auth : WAuth)
  | setPower (auth : WAuth) (target : BitVec 2) (force : Bool) (macOk : Bool) (bus : Bus)
  | reset (auth : WAuth) (kind port : Byte)
  | lifecycle (auth : WAuth) (target : BitVec 2)
  | fuseProgram (auth : WAuth) (word : Byte) (bits : BitVec 32)
  | debugSet (auth : WAuth) (level : BitVec 2)
  | mgmtLock (auth : WAuth) (set clear : BitVec 4)
  | debugRead (auth : WAuth) (addr : BitVec 48) (len : Nat) (bus : Bus)
  | debugWrite (auth : WAuth) (addr : BitVec 48) (data : List Byte) (bus : Bus)
  | traceSet (auth : WAuth) (base : BitVec 48) (log2 : Nat) (sources : BitVec 4)
  | spdmRequest (fn : Fn) (body : List Byte)
  | ctxSecret (fn : Fn) (secured : Bool) (part : BitVec 3) (ctx : BitVec 12) (slot : BitVec 10) (secret : BitVec 256)
  | getReport (fn : Fn) (part : BitVec 3) (nonce : BitVec 256) (start : BitVec 32)
  | getMeasurements (fn : Fn)
  | ideKm (port stream : Nat) (secured : Bool) (part : Option (BitVec 3)) (key : BitVec 256)
  | tdiStateChange (fn : Fn) (st : TdiState) (bus : Bus)
  -- the fault collector
  | faultEvent (ev : Event)
  | errNPulseEnd
  | collectorSelfError
  | recordFree (mask : BitVec 32)
  | sourceClr (value : Word)
  | faultInject (value : Word)
  -- power, registers and the rest
  | powerP0
  | powerP1
  | powerP2
  | powerP3
  | powerP3Force (bus : Bus)
  | p3Entry (bus : Bus)
  | p3EntryTimeout
  | registerWrite (at_ : RegAt) (off : BitVec 28) (size : Nat) (value : Word) (bus : Bus)
  | hostLinkUp (port width : Nat) (rate : BitVec 3)
  | idleFlit (port : Nat) (hop : HopFields)
  | coreCreditReturn (core : Nat) (hsnp : Bool) (n : Nat)
  | shardDirAcknowledged (node : BitVec 10)
  | keyInstallAnswered (node : BitVec 10) (accepted : Bool)
  deriving DecidableEq, Repr

end Sys2Proof
end

