-- ==== Sys2Proof/Decode.lean ====
section
/-! DEFINITION. The command that a word spells. The table gives no row any bits: its rows are events and operations,
not words, so no word spells a command. -/

namespace Sys2Proof

/-- The command that a word of the table spells: none, since no row has bits (log entry 54). -/
def decodeTableWord (_nbits _w : Nat) : Option Instr := none

end Sys2Proof
end

