-- ==== Sys2Proof/Config.lean ====
section
/-! DEFINITION. What the spec leaves open or takes from outside it: free values with no body, and the secrets, draws,
signatures and images that the spec gives no value. A statement about one of them holds for every value it may have. -/

namespace Sys2Proof.Config

/-- A free 64-bit value, one for each count of the state's free-value counter and each place (log entry 6). -/
opaque freeWord : Nat → Nat → Word

/-- A free choice, one for each count and place (log entry 6). -/
opaque freeBit : Nat → Nat → Bool

/-- Whether a TLB, walk-cache or key-cache entry that was filled is still held when it is looked up: replacement is
left open (R163, R165, R199; log entry 11). The arguments are the free-value counter and the looked-up page or line. -/
opaque tlbHolds : Nat → Nat → Bool

/-- The sign of the zero from which a partial starts with DET clear: R260 does not say (log entry 12). -/
opaque partialStartNegative : Bool

/-- Master IDs carried in requests and fault records: the spec gives the field and no assignment (log entry 13).
The arguments are the unit and the instance. -/
opaque masterId : Nat → Nat → Byte

/-- The draws of Quince's random bit generator, numbered from power-up (R426; log entry 14). -/
opaque drbg : Nat → BitVec 256

/-- A signature by a private key of Quince over a message, 768 bits (R429; log entry 14). -/
opaque ecdsaSign : BitVec 256 → List Byte → BitVec 768

/-- The session key that an ECDHE exchange with a peer's share gives (R418; log entry 14). -/
opaque ecdhe : BitVec 256 → List Byte → BitVec 256

/-- The ECDH secret of the exchange keys of two nodes, by their node IDs (R426; log entry 14). -/
opaque exchangeSecret : Nat → Nat → List Byte

/-- The public half of a private key, as bytes (R424; log entry 14). -/
opaque publicKey : BitVec 256 → List Byte

/-- Certificates over a public key: their contents are not given (R424; log entry 14). -/
opaque certificate : List Byte → List Byte

/-- The SHA-384 digests of Quince's ROM and of its firmware image (R429): contents outside the spec (log entry 14). -/
opaque romDigest : BitVec 384
opaque firmwareDigest : BitVec 384

/-- The answer of Quince to an SPDM request that the spec does not define itself, from the certificates of slot 0 (R424), what
the interface report of the function lists (R104) and the request (R105; log entry 31). -/
opaque spdmAnswer : Nat → List Byte → List Byte → List Byte → List Byte

end Sys2Proof.Config
end

