-- ==== Sys2Proof/Machine/Bits.lean ====
section
/-! DEFINITION. Bit fields, byte order and small arithmetic over the spec's words. -/

namespace Sys2Proof

/-- Bits `hi` to `lo` of a 64-bit word, as a number. -/
def bits (w : Word) (hi lo : Nat) : Nat := (w.toNat >>> lo) % 2 ^ (hi + 1 - lo)

/-- Bit `i` of a 64-bit word. -/
def bit (w : Word) (i : Nat) : Bool := w.getLsbD i

/-- A number placed at bit `lo` of a word. -/
def field (v lo : Nat) : Nat := v <<< lo

/-- A flag placed at bit `lo`. -/
def flagAt (b : Bool) (lo : Nat) : Nat := if b then 1 <<< lo else 0

/-- `n` bytes of a number, little-endian (R9). -/
def leBytes : Nat → Nat → List Byte
  | 0, _ => []
  | n + 1, v => BitVec.ofNat 8 v :: leBytes n (v / 256)

/-- The number that little-endian bytes spell (R9). -/
def leNat : List Byte → Nat
  | [] => 0
  | b :: t => b.toNat + 256 * leNat t

/-- `n` bytes of a number, most significant first. -/
def beBytes (n v : Nat) : List Byte := (leBytes n v).reverse

/-- The little-endian number at byte offset `off`, `n` bytes long. -/
def leAt (bs : List Byte) (off n : Nat) : Nat := leNat ((bs.drop off).take n)

/-- Byte `i` of a list, zero beyond its end. -/
def byteAt (bs : List Byte) (i : Nat) : Nat := (bs.getD i 0).toNat

/-- A list brought to `n` elements, cut or filled with zero bytes. -/
def padTo (n : Nat) (bs : List Byte) : List Byte := bs.take n ++ List.replicate (n - bs.length) 0

/-- `a ÷ b` rounded up. -/
def ceilDiv (a b : Nat) : Nat := (a + b - 1) / b

/-- Numbers `lo` to `lo + n - 1`. -/
def range (lo n : Nat) : List Nat := (List.range n).map (lo + ·)

/-- The first `n` bits set. -/
def maskOf (n : Nat) : Nat := 2 ^ n - 1

/-- The indices below `n` of the bits set in `m`. -/
def setBits (n m : Nat) : List Nat := (List.range n).filter fun i => m.testBit i

/-- Add one to a counter that saturates at `top`. -/
def satInc (top n : Nat) : Nat := if n < top then n + 1 else top

/-- A signed 32-bit stride as an offset modulo 2^64 (R338). -/
def sext32 (w : BitVec 32) : Word := w.signExtend 64

/-- Replace `xs.length` bytes of `bs` from offset `off`. -/
def patch (bs : List Byte) (off : Nat) (xs : List Byte) : List Byte :=
  bs.take off ++ xs ++ bs.drop (off + xs.length)

/-- The next pass of a free-running 32-bit counter. -/
def inc32 (w : BitVec 32) : BitVec 32 := w + 1

/-- Saturating add for the 32-bit halves of HP_CNT_DROPPED: the spec gives no wrap, the halves wrap as words. -/
def addTo {n : Nat} (w : BitVec n) (k : Nat) : BitVec n := w + BitVec.ofNat n k

/-- Order of keys for a stable insertion into a list sorted by a measure. -/
def insertBy {α : Type} (le : α → α → Bool) (x : α) : List α → List α
  | [] => [x]
  | y :: t => if le x y then x :: y :: t else y :: insertBy le x t

/-- Sort a list by a measure, keeping the order of equals. -/
def sortBy {α : Type} (le : α → α → Bool) : List α → List α
  | [] => []
  | x :: t => insertBy le x (sortBy le t)

/-- Remove repeats of a sorted or unsorted list of numbers, keeping first occurrences. -/
def dedupNat : List Nat → List Nat
  | [] => []
  | x :: t => x :: (dedupNat t).filter (· != x)

/-- A fold that stops at the first error. -/
def foldE {σ α ε : Type} (f : σ → α → Except ε σ) : σ → List α → Except ε σ
  | s, [] => .ok s
  | s, a :: t => match f s a with
    | .ok s' => foldE f s' t
    | .error e => .error e

end Sys2Proof
end

