-- ==== Sys2Proof/Machine/Crc.lean ====
section
/-! DEFINITION. The two check codes of a flit, with the parameters that R274 gives, and the fields of a flit (R273). -/

namespace Sys2Proof

/-- One bit step of the reflected CRC-32C register. -/
def crc32cBit (r : Nat) : Nat := if r % 2 = 1 then (r >>> 1) ^^^ 0x82F63B78 else r >>> 1

/-- One byte into the CRC-32C register, least significant bit first (R274). -/
def crc32cByte (r : Nat) (b : Byte) : Nat :=
  (List.range 8).foldl (fun a _ => crc32cBit a) (r ^^^ b.toNat)

/-- CRC-32C of a byte string (R274). -/
def crc32c (bs : List Byte) : BitVec 32 :=
  BitVec.ofNat 32 (bs.foldl crc32cByte 0xFFFFFFFF ^^^ 0xFFFFFFFF)

/-- One bit step of the CRC-64 register. -/
def crc64Bit (r : Nat) : Nat :=
  if r.testBit 63 then ((r <<< 1) % 2 ^ 64) ^^^ 0x42F0E1EBA9EA3693 else (r <<< 1) % 2 ^ 64

/-- One byte into the CRC-64 register, most significant bit first (R274). -/
def crc64Byte (r : Nat) (b : Byte) : Nat :=
  (List.range 8).foldl (fun a _ => crc64Bit a) (r ^^^ (b.toNat <<< 56))

/-- CRC-64 ECMA-182 of a byte string (R274). -/
def crc64 (bs : List Byte) : BitVec 64 := BitVec.ofNat 64 (bs.foldl crc64Byte 0)

/-! ### The fields of a flit (R273, R275) -/

/-- The end-to-end fields: bytes 0 to 5. -/
def headBytes (ty : Nat) (e : Bool) (vc : Nat) (last : Bool) (op dst src plen key : Nat) : List Byte :=
  leBytes 1 (ty + flagAt e 3 + vc * 16 + flagAt last 6) ++ leBytes 1 op ++ leBytes 3 (dst + src * 2 ^ 10 + plen * 2 ^ 20) ++
    leBytes 1 key

/-- The end-to-end fields of a DATA flit. -/
def e2eBytes (e : Bool) (vc : Nat) (last : Bool) (op dst src plen key : Nat) : List Byte :=
  headBytes 1 e vc last op dst src plen key

def flitTtl (f : List Byte) : Nat := leAt f 8 2 / 2 ^ 12

/-- The per-hop fields of a transmission: SEQ, ACK and HOPCRC; credits go in CREDIT flits. -/
def stampFlit (f : List Byte) (seq : Nat) (ack : Option Nat) : List Byte :=
  let f := patch f 6 (leBytes 2 0 ++ leBytes 2 (seq + flitTtl f * 2 ^ 12) ++
    leBytes 2 (match ack with | some a => a + 2 ^ 12 | none => 0))
  patch f 12 (leBytes 4 (crc32c (f.take 12 ++ f.drop 16)).toNat)

/-- Bytes 16 to 255 of a flit with E = 0: payload, link CRC, zeros. -/
def plainBody (head payload : List Byte) : List Byte :=
  let body := padTo 224 payload
  body ++ leBytes 8 (crc64 (head ++ body)).toNat ++ leBytes 8 0

/-- A flit that concerns one link: IDLE is TYPE 0 with PLEN 0, CTRL is TYPE 2 with its payload in one unit of 16 B (log
entry 35). KEYID, E, DST, SRC, SEQ and TTL are 0. -/
def hopFlit (ty op : Nat) (payload : List Byte) (ack : Option Nat) : List Byte :=
  let head := headBytes ty false 0 false op 0 0 (if ty = 2 then 1 else 0) 0
  stampFlit (head ++ leBytes 10 0 ++ plainBody head payload) 0 ack

/-- A CTRL flit. -/
def ctrlFlit (op : Nat) (payload : List Byte) : List Byte := hopFlit 2 op payload none

/-- An IDLE flit that carries an ACK. -/
def idleFlit (ack : Nat) : List Byte := hopFlit 0 0 [] (some ack)

end Sys2Proof
end

