-- ==== Sys2Proof/Machine/Crypto.lean ====
section
/-! DEFINITION. The algorithms that the spec names and leaves to their standards (log entry 14): SHA-384 (FIPS 180-4),
HMAC and HKDF over it (RFC 5869), AES-256 (FIPS 197) and GCM with a nonce of 96 bits (SP 800-38D). -/

namespace Sys2Proof.Machine

open Sys2Proof

/-! ### SHA-384 -/

/-- The round constants. -/
def shaK : List Word :=
  [0x428A2F98D728AE22, 0x7137449123EF65CD, 0xB5C0FBCFEC4D3B2F, 0xE9B5DBA58189DBBC,
   0x3956C25BF348B538, 0x59F111F1B605D019, 0x923F82A4AF194F9B, 0xAB1C5ED5DA6D8118,
   0xD807AA98A3030242, 0x12835B0145706FBE, 0x243185BE4EE4B28C, 0x550C7DC3D5FFB4E2,
   0x72BE5D74F27B896F, 0x80DEB1FE3B1696B1, 0x9BDC06A725C71235, 0xC19BF174CF692694] ++
  [0xE49B69C19EF14AD2, 0xEFBE4786384F25E3, 0x0FC19DC68B8CD5B5, 0x240CA1CC77AC9C65,
   0x2DE92C6F592B0275, 0x4A7484AA6EA6E483, 0x5CB0A9DCBD41FBD4, 0x76F988DA831153B5,
   0x983E5152EE66DFAB, 0xA831C66D2DB43210, 0xB00327C898FB213F, 0xBF597FC7BEEF0EE4,
   0xC6E00BF33DA88FC2, 0xD5A79147930AA725, 0x06CA6351E003826F, 0x142929670A0E6E70] ++
  [0x27B70A8546D22FFC, 0x2E1B21385C26C926, 0x4D2C6DFC5AC42AED, 0x53380D139D95B3DF,
   0x650A73548BAF63DE, 0x766A0ABB3C77B2A8, 0x81C2C92E47EDAEE6, 0x92722C851482353B,
   0xA2BFE8A14CF10364, 0xA81A664BBC423001, 0xC24B8B70D0F89791, 0xC76C51A30654BE30,
   0xD192E819D6EF5218, 0xD69906245565A910, 0xF40E35855771202A, 0x106AA07032BBD1B8] ++
  [0x19A4C116B8D2D0C8, 0x1E376C085141AB53, 0x2748774CDF8EEB99, 0x34B0BCB5E19B48A8,
   0x391C0CB3C5C95A63, 0x4ED8AA4AE3418ACB, 0x5B9CCA4F7763E373, 0x682E6FF3D6B2B8A3,
   0x748F82EE5DEFB2FC, 0x78A5636F43172F60, 0x84C87814A1F0AB72, 0x8CC702081A6439EC,
   0x90BEFFFA23631E28, 0xA4506CEBDE82BDE9, 0xBEF9A3F7B2C67915, 0xC67178F2E372532B] ++
  [0xCA273ECEEA26619C, 0xD186B8C721C0C207, 0xEADA7DD6CDE0EB1E, 0xF57D4F7FEE6ED178,
   0x06F067AA72176FBA, 0x0A637DC5A2C898A6, 0x113F9804BEF90DAE, 0x1B710B35131C471B,
   0x28DB77F523047D84, 0x32CAAB7B40C72493, 0x3C9EBE0A15C9BEBC, 0x431D67C49C100D4C,
   0x4CC5D4BECB3E42B6, 0x597F299CFC657E2A, 0x5FCB6FAB3AD6FAEC, 0x6C44198C4A475817]

/-- The first chaining value. -/
def shaInit : List Word :=
  [0xCBBB9D5DC1059ED8, 0x629A292A367CD507, 0x9159015A3070DD17, 0x152FECD8F70E5939,
   0x67332667FFC00B31, 0x8EB44A8768581511, 0xDB0C2E0D64F98FA7, 0x47B5481DBEFA4FA4]

/-- The eight working words. -/
structure ShaRegs where
  a : Word
  b : Word
  c : Word
  d : Word
  e : Word
  f : Word
  g : Word
  h : Word
  deriving DecidableEq, Repr

/-- One round: the working words and the window of the next sixteen schedule words. -/
def shaRound (x : ShaRegs × List Word) (k : Word) : ShaRegs × List Word :=
  let r := x.1
  let w (i : Nat) : Word := x.2.getD i 0
  let s0 (v : Word) : Word := v.rotateRight 1 ^^^ v.rotateRight 8 ^^^ v >>> 7
  let s1 (v : Word) : Word := v.rotateRight 19 ^^^ v.rotateRight 61 ^^^ v >>> 6
  let b0 : Word := r.a.rotateRight 28 ^^^ r.a.rotateRight 34 ^^^ r.a.rotateRight 39
  let b1 : Word := r.e.rotateRight 14 ^^^ r.e.rotateRight 18 ^^^ r.e.rotateRight 41
  let ch : Word := (r.e &&& r.f) ^^^ (~~~r.e &&& r.g)
  let maj : Word := (r.a &&& r.b) ^^^ (r.a &&& r.c) ^^^ (r.b &&& r.c)
  let t1 : Word := r.h + b1 + ch + k + w 0
  (⟨t1 + b0 + maj, r.a, r.b, r.c, r.d + t1, r.e, r.f, r.g⟩, x.2.drop 1 ++ [s1 (w 14) + w 9 + s0 (w 1) + w 0])

/-- One block of 128 B, most significant byte of each word first. -/
def shaBlock (v : List Word) (block : List Byte) : List Word :=
  let w := (List.range 16).map fun i => BitVec.ofNat 64 (leNat ((block.drop (8 * i)).take 8).reverse)
  let g (i : Nat) : Word := v.getD i 0
  let r := (shaK.foldl shaRound (⟨g 0, g 1, g 2, g 3, g 4, g 5, g 6, g 7⟩, w)).1
  [g 0 + r.a, g 1 + r.b, g 2 + r.c, g 3 + r.d, g 4 + r.e, g 5 + r.f, g 6 + r.g, g 7 + r.h]

/-- A message with its padding: a set bit, zeros, and its length in bits. -/
def shaPad (m : List Byte) : List Byte :=
  m ++ [0x80] ++ List.replicate ((239 - m.length % 128) % 128) 0 ++ beBytes 16 (8 * m.length)

/-- SHA-384 of a byte string, its first byte most significant (R84, R428, R430, R435). -/
@[irreducible] def sha384 (m : List Byte) : BitVec 384 :=
  let p := shaPad m
  let v := (List.range (p.length / 128)).foldl (fun v i => shaBlock v ((p.drop (128 * i)).take 128)) shaInit
  BitVec.ofNat 384 ((v.take 6).foldl (fun a x => a * 2 ^ 64 + x.toNat) 0)

/-! ### HMAC and HKDF -/

/-- The 48 bytes of a digest. -/
def shaBytes (m : List Byte) : List Byte := beBytes 48 (sha384 m).toNat

/-- HMAC-SHA-384. -/
def hmac (key m : List Byte) : List Byte :=
  let k := padTo 128 (if 128 < key.length then shaBytes key else key)
  shaBytes (k.map (· ^^^ 0x5C) ++ shaBytes (k.map (· ^^^ 0x36) ++ m))

/-- HKDF-SHA-384 without a salt: 256 bits for a secret and an info string, first byte lowest (R426, "Keys"). -/
@[irreducible] def hkdf (secret info : List Byte) : BitVec 256 :=
  BitVec.ofNat 256 (leNat ((hmac (hmac (List.replicate 48 0) secret) (info ++ [1])).take 32))

/-! ### AES-256 -/

/-- The substitution box, sixteen entries a number, the first most significant. -/
def aesRows : List Nat :=
  [0x637C777BF26B6FC53001672BFED7AB76, 0xCA82C97DFA5947F0ADD4A2AF9CA472C0,
   0xB7FD9326363FF7CC34A5E5F171D83115, 0x04C723C31896059A071280E2EB27B275,
   0x09832C1A1B6E5AA0523BD6B329E32F84, 0x53D100ED20FCB15B6ACBBE394A4C58CF,
   0xD0EFAAFB434D338545F9027F503C9FA8, 0x51A3408F929D38F5BCB6DA2110FFF3D2,
   0xCD0C13EC5F974417C4A77E3D645D1973, 0x60814FDC222A908846EEB814DE5E0BDB,
   0xE0323A0A4906245CC2D3AC629195E479, 0xE7C8376D8DD54EA96C56F4EA657AAE08,
   0xBA78252E1CA6B4C6E8DD741F4BBD8B8A, 0x703EB5664803F60E613557B986C11D9E,
   0xE1F8981169D98E949B1E87E9CE5528DF, 0x8CA1890DBFE6426841992D0FB054BB16]

def aesSub (x : Nat) : Nat := (aesRows.getD (x / 16) 0 >>> (8 * (15 - x % 16))) % 256

/-- Multiplication by x in the field of AES. -/
def aesX (b : Nat) : Nat := if 128 ≤ b then (2 * b) ^^^ 0x11B else 2 * b

/-- One word of the key schedule: the last eight words, oldest first, and the index of the next. -/
def aesNext (w : List (List Nat)) (i : Nat) : List Nat :=
  let t := w.getD 7 []
  let t := if i % 8 = 0 then
      let r := (t.drop 1 ++ t.take 1).map aesSub
      (r.take 1).map (· ^^^ 2 ^ (i / 8 - 1)) ++ r.drop 1
    else if i % 8 = 4 then t.map aesSub else t
  List.zipWith (· ^^^ ·) (w.getD 0 []) t

/-- The fifteen round keys of 16 B. -/
def aesKeys (key : BitVec 256) : List (List Nat) :=
  let k := (leBytes 32 key.toNat).map BitVec.toNat
  let w0 := (List.range 8).map fun i => (k.drop (4 * i)).take 4
  let r := (range 8 52).foldl (fun (x : List (List Nat) × List Nat) i =>
    let n := aesNext x.1 i
    (x.1.drop 1 ++ [n], x.2 ++ n)) (w0, k)
  (List.range 15).map fun i => (r.2.drop (16 * i)).take 16

/-- Substitution and the shift of the rows; the state is held column by column. -/
def aesShift (s : List Nat) : List Nat :=
  let t := s.map aesSub
  (List.range 16).map fun i => t.getD (4 * ((i / 4 + i % 4) % 4) + i % 4) 0

/-- The mix of the columns. -/
def aesMix (s : List Nat) : List Nat :=
  (List.range 16).map fun i =>
    let g (k : Nat) : Nat := s.getD (i / 4 * 4 + (i + k) % 4) 0
    aesX (g 0) ^^^ aesX (g 1) ^^^ g 1 ^^^ g 2 ^^^ g 3

/-- One block under the round keys of `aesKeys`, blocks as numbers whose first byte is most significant. -/
def aesBlock (ks : List (List Nat)) (block : Nat) : Nat :=
  let add (s k : List Nat) : List Nat := List.zipWith (· ^^^ ·) s k
  let s := add ((beBytes 16 block).map BitVec.toNat) (ks.getD 0 [])
  let s := ((ks.drop 1).take 13).foldl (fun s k => add (aesMix (aesShift s)) k) s
  (add (aesShift s) (ks.getD 14 [])).foldl (fun a b => a * 256 + b) 0

/-! ### GCM -/

/-- The product in the field of GCM, whose first coefficient is the most significant bit. -/
def gcmMul (x h : Nat) : Nat :=
  ((List.range 128).foldl (fun (a : Nat × Nat) i =>
    (if x.testBit (127 - i) then a.1 ^^^ a.2 else a.1,
      if a.2 % 2 = 1 then (a.2 >>> 1) ^^^ (0xE1 * 2 ^ 120) else a.2 >>> 1)) (0, h)).1

/-- The number that bytes spell, most significant first. -/
def beNat (b : List Byte) : Nat := b.foldl (fun a x => a * 256 + x.toNat) 0

/-- Blocks of 16 B, the last one filled with zeros. -/
def gcmBlocks (b : List Byte) : List Nat :=
  (List.range ((b.length + 15) / 16)).map fun i => beNat (padTo 16 ((b.drop (16 * i)).take 16))

/-- Encrypt or decrypt in counter mode: block i is masked with counter i + 2. -/
def gcmCrypt (ks : List (List Nat)) (nonce : List Byte) (b : List Byte) : List Byte :=
  let mask := (List.range ((b.length + 15) / 16)).flatMap fun i => beBytes 16 (aesBlock ks (beNat nonce * 2 ^ 32 + (i + 2)))
  List.zipWith (· ^^^ ·) b mask

/-- The tag over additional data and ciphertext, its first byte lowest. -/
def gcmTag (ks : List (List Nat)) (nonce aad ct : List Byte) : BitVec 128 :=
  let h := aesBlock ks 0
  let y := (gcmBlocks aad ++ gcmBlocks ct ++ [8 * aad.length * 2 ^ 64 + 8 * ct.length]).foldl (fun y b => gcmMul (y ^^^ b) h) 0
  BitVec.ofNat 128 (leNat (beBytes 16 (y ^^^ aesBlock ks (beNat nonce * 2 ^ 32 + 1))))

/-- AES-256-GCM sealing: key, nonce, additional data and plaintext give ciphertext and tag; the numbers hold their first
byte lowest (R86, R97, R294, R427). -/
@[irreducible] def gcmSeal (key : BitVec 256) (nonce : BitVec 96) (aad plain : List Byte) : List Byte × BitVec 128 :=
  let ks := aesKeys key
  let n := leBytes 12 nonce.toNat
  let ct := gcmCrypt ks n plain
  (ct, gcmTag ks n aad ct)

/-- The plaintext of a ciphertext. -/
@[irreducible] def gcmPlain (key : BitVec 256) (nonce : BitVec 96) (ct : List Byte) : List Byte :=
  gcmCrypt (aesKeys key) (leBytes 12 nonce.toNat) ct

/-- A tag checks. -/
@[irreducible] def gcmChecks (key : BitVec 256) (nonce : BitVec 96) (aad ct : List Byte) (tag : Nat) : Bool :=
  decide ((gcmTag (aesKeys key) (leBytes 12 nonce.toNat) aad ct).toNat = tag)

end Sys2Proof.Machine
end

