-- ==== Sys2Proof/Machine/State.lean ====
section
/-! DEFINITION. The state of one complex, as plain data: every register, table, buffer, counter, mode and pin that
the spec gives it, grouped by unit, with the queue of commands that wait, and its value right after reset.
Arrays are sparse (`Tab`); the default of each is the `reset` value of its element type. -/

namespace Sys2Proof.Machine

open Sys2Proof

/-! ### The build -/

/-- One built host port: width, highest ln_rate code, VFs supported (R489). -/
structure HostBuild where
  width : Nat
  rate  : BitVec 3
  vfs   : Nat
  deriving DecidableEq, Repr

/-- The build parameters (R20) and the static inputs (R38, R53): fixed while the complex runs. `tagLimits` gives the
gw_tag_limit of each Gweloty port; a port that it does not list has 1024. -/
structure Build where
  hostPorts  : List HostBuild
  brambles   : List Nat
  pageSlices : Nat
  keySlices  : Nat
  lanes      : Nat
  channels   : Nat
  slots      : Nat
  corePorts  : Nat
  homeSlices : Nat
  partitions : Nat
  tsPorts    : Nat
  cpPresent  : BitVec 32
  tagLimits  : List Nat
  deriving DecidableEq, Repr

/-- The full build (R20), with a core at every near-core port and every tag allowed (log entries 1, 2). -/
def Build.full : Build :=
  { hostPorts := [⟨16, 6, 63⟩, ⟨16, 6, 63⟩], brambles := List.replicate 8 16, pageSlices := 16, keySlices := 32,
    lanes := 48, channels := 64, slots := 64, corePorts := 32, homeSlices := 4, partitions := 8, tsPorts := 16,
    cpPresent := 0xFFFFFFFF, tagLimits := [] }

/-- gw_tag_limit of a port (R38). -/
def Build.tagLimit (b : Build) (port : Nat) : Nat := b.tagLimits.getD port 1024

/-! ### Device memory and the Gweloty ports -/

/-- Device memory as the Gweloty ports show it: bytes (0 where nothing is listed, log entry 4), poisoned 64 B lines,
and the 8 B granules that failed writes left indeterminate, with the other values they may show (R503). -/
structure Memory where
  cells  : Tab Byte := []
  poison : Tab Unit := []
  indet  : Tab (List Word) := []
  deriving DecidableEq, Repr

/-- The operations of gw_req_op (R34). -/
inductive GwOp where
  | rd | wr | wrZero
  deriving DecidableEq, Repr

/-- What a tracked Gweloty request belongs to: a window write, a row of a bag, or a scrub (log entry 15). -/
inductive GwOwner where
  | window (id : Nat)
  | row (cmd entry : Nat)
  | scrub (part : Nat) (again : Bool)
  deriving DecidableEq, Repr

/-- An outstanding request: `lo` and `data` are the enabled bytes of a write; `clean` is how many of its bytes the beats
carry that were sent before the safe state was entered, where it was (R33). -/
structure GwReq where
  op     : GwOp
  addr   : Nat
  len    : Nat
  lo     : Nat
  data   : List Byte
  poison : Bool
  part   : BitVec 3
  owner  : GwOwner
  tick   : Nat
  clean  : Option Nat := none
  deriving DecidableEq, Repr

/-- A Gweloty port: outstanding tags, quarantined tags, late responses discarded (R38, R42). -/
structure GwPort where
  out  : Tab GwReq := []
  quar : Tab GwReq := []
  late : Word := 0
  deriving DecidableEq, Repr

/-! ### Host ports -/

/-- A vector of a function's MSI-X table: its message, its mask and pending bit (R102; masked after reset, log entry 7).
`via` is the port at which a pending message leaves (R101). -/
structure Vector where
  masked  : Bool := true
  pending : Bool := false
  via     : Nat := 0
  addr    : Word := 0
  data    : BitVec 32 := 0
  deriving DecidableEq, Repr

/-- A function of a host port: configuration, TDI state, MSI-X table (R67, R72, R102, R104). `mps` is the code of Max
Payload Size, `cto` the Completion Timeout Value in microseconds (R96); `flr` tells that an FLR waits for the window
writes with numbers below it (R107). -/
structure FnState where
  d3hot     : Bool := false
  busMaster : Bool := false
  enabled   : Bool := true
  pasidEn   : Bool := false
  aspmL1    : Bool := false
  msixEn    : Bool := false
  fnMask    : Bool := false
  mps       : BitVec 3 := 0
  cto       : Nat := 50000
  bar0      : Word := 0
  bar2      : Word := 0
  bar4      : Word := 0
  flr       : Option Nat := none
  tdi       : TdiState := .unlocked
  msix      : Tab Vector := []
  deriving DecidableEq, Repr

/-- Aperture states (HP_AP_STAT.STATE). -/
inductive ApState where
  | idle | opened | closed | failed
  deriving DecidableEq, Repr

/-- One aperture descriptor with its stream (R76 to R88, R499). `stream` holds the accepted bytes of a measured
stream, or the plaintext bytes of a sealed stream with MEAS, which the running digest covers; `buf` holds the bytes of
a sealed record that is not yet whole; `pos` is the stream position of the first byte of `buf`. -/
structure Aperture where
  en       : Bool := false
  mode     : BitVec 2 := 0
  meas     : Bool := false
  owner    : Byte := 0
  vslot    : BitVec 2 := 0
  ctx      : BitVec 12 := 0
  obj      : Word := 0
  base     : BitVec 42 := 0
  session  : BitVec 32 := 0
  err      : Byte := 0
  st       : ApState := .idle
  cursor   : BitVec 48 := 0
  stream   : List Byte := []
  buf      : List Byte := []
  pos      : Nat := 0
  seq      : Word := 0
  closing  : Bool := false
  clearEn  : Bool := false
  final    : Bool := false
  digestOk : Bool := false
  digest   : BitVec 384 := 0
  deriving DecidableEq, Repr

/-- An entry of HP_VF_CTXMAP. -/
structure CtxMapEnt where
  valid : Bool := false
  ctx   : BitVec 12 := 0
  deriving DecidableEq, Repr

/-- A selective IDE stream of a port: programmed key, and the partition it is bound to (R103). -/
structure IdeStream where
  active : Bool := false
  part   : Option (BitVec 3) := none
  key    : BitVec 256 := 0
  deriving DecidableEq, Repr

/-- The doorbell fields (R121). -/
inductive DbField where
  | tail | cqHead | sretHead
  deriving DecidableEq, Repr

/-- A doorbell held by the fence until the window writes received before it have ended (R90). -/
structure FencedDb where
  ctx    : BitVec 12
  q      : Nat
  fld    : DbField
  value  : BitVec 32
  before : Nat
  deriving DecidableEq, Repr

/-- A held read of HP_INGEST_SYNC (R91): of a function, or of a near core, as its port, transaction, first byte and size. -/
structure SyncRead where
  fn     : Fn
  tag    : Nat
  before : Nat
  core   : Option (Nat × Byte × Nat × Nat) := none
  deriving DecidableEq, Repr

/-- What a flush read serves (R94): a command, a mover channel, a served remote write, an admission ring. -/
inductive FlushFor where
  | cmd (id : Nat)
  | chan (c : Nat)
  | served (id : Nat)
  | admission (obj : Nat)
  deriving DecidableEq, Repr

/-- A flush read in flight: its address, function and PASID, the host writes of its port that were issued before it, when
it was issued, and the completions that it covers (R94, R96). -/
structure Flush where
  addr   : Word
  fn     : Fn
  pasid  : Option (BitVec 20)
  upto   : Nat
  tick   : Nat
  covers : List FlushFor
  deriving DecidableEq, Repr

/-- One host port with its ingest island. `sent` counts the host writes that it has issued. -/
structure HostPort where
  linkUp      : Bool := false
  flit        : Bool := false
  noFlit      : Bool := false
  width       : BitVec 6 := 0
  rate        : BitVec 3 := 0
  ideLink     : Bool := false
  linkL1      : Bool := false
  digestSel   : Byte := 0
  committed   : Word := 0
  dropRevoked : BitVec 32 := 0
  dropOther   : BitVec 32 := 0
  aps         : Tab Aperture := []
  ctxMap      : Tab CtxMapEnt := []
  fns         : Tab FnState := []
  streams     : Tab IdeStream := []
  fenced      : List FencedDb := []
  syncs       : List SyncRead := []
  flushes     : Tab Flush := []
  sent        : Nat := 0
  deriving DecidableEq, Repr

/-- Where a window write stands (R80, R230, R231): issued, with the requests that are out and the pieces that wait for a
tag; held at a fault slot; waiting for its table, an earlier write or a tag; waiting for a page copy; buffered in a
sealed record. -/
inductive WwState where
  | issued (left : Nat) (more : List (Nat × List Byte))
  | held (slot : Nat)
  | waitTable
  | waitCopy (cow : Nat)
  | buffered
  deriving DecidableEq, Repr

/-- A window write that has not yet committed or failed. `ends` lists the sealed chunks that end with it,
`endPos` is the stream position after a buffered sealed chunk. -/
structure WinWrite where
  port     : Nat
  vf       : Nat
  ap       : Nat
  ctx      : BitVec 12
  part     : BitVec 3
  obj      : BitVec 32
  off      : Nat
  data     : List Byte
  poisoned : Bool
  measured : Bool
  st       : WwState
  bad      : Option BusStatus
  ends     : List Nat
  endPos   : Nat
  deriving DecidableEq, Repr

/-- A user that holds a translation: a service tag (by its number), a window write, a bag entry's row fetch, a remote
request, a request at the home (R168). -/
inductive InvWait where
  | ts (id : Nat)
  | ww (id : Nat)
  | ent (cmd entry : Nat)
  | req (id : Nat)
  | home (port : Nat) (txn : Byte) (addr : Nat)
  deriving DecidableEq, Repr

/-- A page copy in progress (R231): `waits` are the users of the old translations, once both leaves are written. -/
structure Cow where
  port : Nat
  ap   : Nat
  obj  : BitVec 32
  ctx  : BitVec 12
  part : BitVec 3
  pend : Nat
  cur  : Nat
  cls  : Nat
  src  : Nat
  dst  : Nat
  waits : Option (List InvWait) := none
  deriving DecidableEq, Repr

/-! ### Contexts, queues and commands -/

/-- A queue descriptor as the queue engine holds it (R112). -/
structure QDesc where
  ringVa   : BitVec 57 := 0
  ringLog2 : BitVec 5 := 0
  en       : Bool := false
  cls      : BitVec 2 := 0
  ncore    : Bool := false
  quantum  : BitVec 16 := 0
  vector   : BitVec 11 := 0
  msi      : Bool := false
  cqLog2   : BitVec 5 := 0
  cqHost   : Bool := false
  cqAddr   : Word := 0
  deriving DecidableEq, Repr

/-- A command as read from a ring: its head entry and continuation entries, 64 B each, and its ring position. -/
structure RawCmd where
  head  : BitVec 16
  after : BitVec 16
  ent   : List Byte
  conts : List (List Byte)
  deriving DecidableEq, Repr

/-- A completion record that waits to be written (R151, R152), with the tick and the boot epoch of the completion. -/
structure CompRec where
  cmd      : Nat
  user     : BitVec 32
  opcode   : Byte
  status   : Byte
  progress : BitVec 32
  head     : BitVec 16
  detail   : BitVec 32
  irq      : Bool
  tick     : Nat
  epoch    : BitVec 32
  deriving DecidableEq, Repr

/-- The run-time state of a queue. `backoff` holds the delay and the tick of the next read (R124), `dirty` lists the host
ports that commands without CR wrote, with their last addresses (R136), `late` the doorbells that a near-core queue has
been given while the domain is not UP (R126). -/
structure QState where
  desc     : QDesc := {}
  head     : BitVec 16 := 0
  phase    : Bool := false
  tail     : BitVec 16 := 0
  cqTail   : BitVec 16 := 0
  cqPhase  : Bool := false
  cqHead   : BitVec 16 := 0
  dbPend   : Bool := false
  parked   : Bool := false
  reading  : Bool := false
  held     : Option Nat := none
  backoff  : Option (Nat × Nat) := none
  firstBad : Nat := 0
  deficit  : Nat := 0
  ready    : List RawCmd := []
  comps    : List CompRec := []
  cqHeld   : Option Nat := none
  dirty    : List (Nat × Word) := []
  late     : List (DbField × BitVec 32) := []
  session  : BitVec 32 := 0
  seq      : Word := 0
  deriving DecidableEq, Repr

/-- Context states (R114). -/
inductive CtxSt where
  | disabled | enabled | faulted | aborting
  deriving DecidableEq, Repr

/-- A context: its entry as loaded (R111) and its run-time state. `torn` tells that its write-back at an eviction failed
(R496). -/
structure Ctx where
  st       : CtxSt := .disabled
  disabling : Bool := false
  torn     : Bool := false
  conf     : Bool := false
  sret     : Bool := false
  ctrl     : Bool := false
  part     : BitVec 3 := 0
  fnVf     : BitVec 6 := 0
  fnPort   : Bool := false
  pasid    : BitVec 20 := 0
  pasidEn  : Bool := false
  roData   : Bool := false
  idoData  : Bool := false
  sretPort : Bool := false
  ttRoot   : Word := 0
  sretRing : Word := 0
  sretLog2 : BitVec 5 := 0
  keyRef   : Word := 0
  stale    : Word := 0
  commands : Word := 0
  faults   : BitVec 32 := 0
  dbParks  : BitVec 32 := 0
  slot     : Option Nat := none
  loading  : Bool := false
  pinned   : Bool := false
  used     : Nat := 0
  sretHead : BitVec 32 := 0
  sretTail : BitVec 32 := 0
  qs       : Tab QState := []
  deriving DecidableEq, Repr

/-- Where a row entry of a bag stands (R247, R252, R319): a held entry keeps the row that a lookup found. -/
inductive EntSt where
  | dropped
  | lookup
  | row (r : Nat)
  | fetching (left : Nat) (bad : Option (BitVec 16))
  | held (slot : Nat) (row : Option Nat)
  | vec (v : List F32)
  | merged
  | away
  deriving DecidableEq, Repr

/-- One entry of a bag's key list with its shard and its position in the shard part (R242, R319). `addr` is the
address of its row, `got` holds the fetched bytes by their address, `miss` marks the +0.0 vector of a miss, `port` and
`todo` are the port of its fetch and the requests not issued yet (row address, address, length), and `placed` says whether
its page has told on which node its row lies. -/
structure BagEnt where
  bag    : Nat
  key    : Word
  weight : F32
  shard  : Nat
  pos    : Nat
  addr   : Nat
  st     : EntSt
  miss   : Bool
  got    : List (Nat × List Byte)
  port   : Nat := 0
  todo   : List (Nat × Nat × Nat) := []
  placed : Bool := true
  deriving DecidableEq, Repr

/-- A segment of a bag's local part (R256, R257). -/
structure Seg where
  bag   : Nat
  seg   : Nat
  quad  : Nat
  size  : Nat
  taken : Bool
  got   : Nat
  acc   : Option (List F32)
  done  : Bool
  deriving DecidableEq, Repr

/-- A partial that has come home: the shard, piece, count and vector (R324, R325). -/
structure Piece where
  shard : Nat
  piece : Nat
  count : Nat
  vec   : List F32
  deriving DecidableEq, Repr

/-- The reduction of one bag at its home quad (R258 to R261): the segments and pieces that are still to come, whether
the merge partial is held, the partials reserved for pieces that were sent for, and the result once it is done. -/
structure BagAcc where
  segsLeft   : Nat
  piecesLeft : Nat
  home       : Nat
  merge      : Bool
  reserved   : Nat
  acc        : Option (List F32)
  pieces     : List Piece
  n          : Nat
  empty      : Bool
  done       : Bool
  deriving DecidableEq, Repr

/-- A record of a REMOTE_POOL: bag, piece, and the entries it carries (R320, R321). -/
structure PoolRec where
  bag   : Nat
  piece : Nat
  ents  : List Nat
  deriving DecidableEq, Repr

/-- A REMOTE_POOL request that the home has still to send. -/
structure PoolMsg where
  shard  : Nat
  node   : BitVec 10
  key    : Byte
  handle : Word
  recs   : List PoolRec
  deriving DecidableEq, Repr

/-- A BAG_POOL in flight (R241 to R268), or the pooling that an owner does for a REMOTE_POOL (R323), whose entries are
row addresses where `phys` is set. `q` and `h` route its segments, and `js` gives the bag index of each record of a served
request (R256, R323). -/
structure BagWork where
  part     : BitVec 3
  ctx      : BitVec 12
  owner    : BitVec 12
  q        : Nat
  h        : Nat
  user     : BitVec 32
  table    : BitVec 32
  keyed    : Bool
  phys     : Bool
  version  : Nat
  rows     : Nat
  rowBytes : Nat
  region   : Nat
  shard    : Nat
  reduce   : BitVec 2
  det      : Bool
  skip     : Bool
  inFmt    : BitVec 4
  outFmt   : BitVec 3
  dim      : Nat
  dst      : BitVec 48
  tport    : Nat
  tileRows : Nat
  bags     : Nat
  ents     : Tab BagEnt
  segs     : List Seg
  accs     : Tab BagAcc
  msgs     : List PoolMsg
  tile     : Nat
  sent     : Bool
  accepted : Nat
  js       : List Nat := []
  deriving DecidableEq, Repr

/-- A REMOTE_WRITE or REMOTE_SIGNAL in flight (R306, R310): the bytes sent, the messages not yet acknowledged by their
first byte, the source bytes at hand for the next message, and the remote read that they wait for. -/
structure RemWork where
  sent  : Nat
  acks  : List Nat
  got   : List Byte
  rd    : Option (Nat × Nat)
  deriving DecidableEq, Repr

/-- What a dispatched command is doing beyond its words. -/
inductive Work where
  | none
  | waiting (line : Nat) (addr : Nat) (target : Word) (deadline : Option Nat)
  | mover (ch : Nat)
  | bag (w : BagWork)
  | key (target : Nat) (paused : Bool)
  | remote (w : RemWork)
  | flipWait
  | opening (waits : List InvWait)
  | abortWait
  | abortInval (frames : List (Nat × Nat × Nat)) (waits : List InvWait)
  | mapping (left : List (Nat × Nat × Word))
  | invalidating (waits : List InvWait)
  deriving DecidableEq, Repr

/-- The life of a dispatched command: dispatched and able to run, held at a fault slot, running in a unit, finished
with its status, waiting for the host flushes of its data (the flush numbers), waiting to be recorded. -/
inductive Phase where
  | dispatched
  | held (slot : Nat)
  | running
  | finished
  | flushing (left : List Nat)
  deriving DecidableEq, Repr

/-- A dispatched command (R127 to R139). -/
structure Cmd where
  ctx      : BitVec 12
  q        : Nat
  part     : BitVec 3
  raw      : RawCmd
  phase    : Phase
  status   : Byte
  progress : Nat
  detail   : BitVec 32
  faultAddr : Word
  faultSrc : BitVec 16
  pins     : List Nat
  vpin     : Option (Nat × Bool)
  dir      : Option (Nat × Bool)
  ports    : List (Nat × Word)
  work     : Work
  deriving DecidableEq, Repr

/-- An operation register: BUSY and RESULT (the operand fields stand beside it). -/
structure OpReg where
  busy   : Bool := false
  result : Byte := 0
  deriving DecidableEq, Repr

/-- An event that CONTEXT_ABORT signals when its target is DISABLED (R137). -/
structure AbortSignal where
  target : BitVec 12
  event  : Word
  value  : Word
  part   : BitVec 3
  issuer : BitVec 12
  deriving DecidableEq, Repr

/-- An event signal of the complex itself that is not yet made, and the fault slot that holds it (R148). -/
structure LateSignal where
  event  : Word
  value  : Word
  part   : BitVec 3
  issuer : BitVec 12
  held   : Option Nat := none
  deriving DecidableEq, Repr

/-- The queue engine. `vdue` lists version pins, by object and slot, whose release could not reach the version line
yet; `sigs` the signals that wait, by number; `flips` the issuing context of the last flip of a table that has not
retired, by object (R148); `torn` the tables that are TORN because a write of their version line failed (R501). -/
structure Qe where
  ctxBase  : BitVec 27 := 0
  ctxOp    : OpReg := {}
  ctxOpCtx : BitVec 12 := 0
  statSel  : BitVec 12 := 0
  patience : BitVec 10 := 10
  objBase  : BitVec 36 := 0
  objLog2  : BitVec 5 := 0
  objOp    : OpReg := {}
  objIndex : BitVec 32 := 0
  objRes   : Word := 0
  tblSel   : BitVec 32 := 0
  ctxs     : Tab Ctx := []
  cmds     : Tab Cmd := []
  rr       : Tab Nat := []
  stamp    : Nat := 0
  aborts   : List AbortSignal := []
  vdue     : List (Nat × Bool) := []
  sigs     : Tab LateSignal := []
  flips    : Tab (BitVec 12) := []
  torn     : List Nat := []
  deriving DecidableEq, Repr

/-! ### Translation -/

/-- A TLB entry (R163). `sz` is the log2 of the page size; `slice` is the page slice for an L1 entry. -/
structure TlbEnt where
  slice : Nat
  ctx   : BitVec 12
  page  : Nat
  sz    : Nat
  pte   : Word
  deriving DecidableEq, Repr

/-- A walk-cache line (R166): tagged with its context. -/
structure WcLine where
  line : Nat
  ctx  : BitVec 12
  data : List Byte
  deriving DecidableEq, Repr

/-- What a held translation request belongs to. -/
inductive Owner where
  | cmd (id : Nat)
  | chan (c : Nat)
  | window (id : Nat)
  | service (port tag : Nat)
  | core (port : Nat) (txn : Byte)
  | ring (ctx : BitVec 12) (q : Nat)
  | comp (ctx : BitVec 12) (q : Nat)
  | served (id : Nat)
  | entry (cmd ent : Nat)
  | signal (id : Nat)
  | free
  deriving DecidableEq, Repr

/-- A translation request (R155, R162). -/
structure TrReq where
  owner : Owner
  user  : TrUser
  ctx   : BitVec 12
  va    : Word
  acc   : Access
  queue : BitVec 15 := 0x7FFF
  head  : BitVec 16 := 0
  deriving DecidableEq, Repr

/-- Fault slot states (TU_FLT.STATE). -/
inductive FltSt where
  | free | held | retried | aborted | expired
  deriving DecidableEq, Repr

/-- A fault slot: the fields of TU_FLT and the requests it holds (R178 to R181). -/
structure FltSlot where
  address  : Word := 0
  mid      : Byte := 0
  access   : BitVec 2 := 0
  source   : BitVec 16 := 0
  cls      : BitVec 3 := 0
  kind     : Byte := 0
  level    : BitVec 3 := 0
  st       : FltSt := .free
  ctx      : BitVec 12 := 0
  part     : BitVec 3 := 0
  seq      : BitVec 16 := 0
  count    : BitVec 31 := 0
  ovf      : Bool := false
  pte      : Word := 0
  tick     : Word := 0
  epoch    : BitVec 32 := 0
  queue    : BitVec 15 := 0
  head     : BitVec 16 := 0
  deadline : Nat := 0
  reqs     : List TrReq := []
  deriving DecidableEq, Repr

/-- The scopes of an invalidation (R168). -/
inductive InvScope where
  | all
  | partition (p : BitVec 3)
  | context (c : BitVec 12)
  | range (c : BitVec 12) (va len : Nat)
  deriving DecidableEq, Repr

/-- An invalidation in progress: its scope, and the users whose translations it waits for (R168). -/
structure Inv where
  scope : InvScope
  walk  : Bool
  waits : List InvWait
  deriving DecidableEq, Repr

/-- A pass over the pages of a freed object or of a retired version whose leaves are cleared: the frames that are pushed
once the users of the old translations have released them, as page slice, class and address (R176, R238). -/
structure PagePass where
  obj    : BitVec 32
  part   : BitVec 3
  frames : List (Nat × Nat × Nat)
  waits  : List InvWait
  retire : Bool
  deriving DecidableEq, Repr

/-- A frame pool's registers, and the frames whose push waits for space (R174 to R176). -/
structure Pool where
  base    : BitVec 36 := 0
  log2    : BitVec 5 := 0
  aProd   : BitVec 32 := 0
  aCons   : BitVec 32 := 0
  rProd   : BitVec 32 := 0
  rCons   : BitVec 32 := 0
  waiting : List Nat := []
  deriving DecidableEq, Repr

/-- A held translation-service tag (R47 to R49). -/
inductive TsState where
  | held (slot : Nat)
  | given (tick : Nat) (noted : Bool)
  deriving DecidableEq, Repr

structure TsTag where
  id    : Nat
  va    : Word
  ctx   : BitVec 12
  wr    : Bool
  st    : TsState
  page  : Nat
  sz    : Nat
  deriving DecidableEq, Repr

/-- The translation unit. -/
structure Tu where
  l1       : List TlbEnt := []
  l2       : List TlbEnt := []
  wc       : List WcLine := []
  retire   : BitVec 16 := 0
  retBusy  : Bool := false
  invVa    : BitVec 45 := 0
  invLen   : BitVec 46 := 0
  invOp    : OpReg := {}
  invCtx   : BitVec 12 := 0
  invPart  : BitVec 3 := 0
  invWalk  : Bool := false
  inv      : Option Inv := none
  fltOp    : OpReg := {}
  fltSlot  : Byte := 0
  noSlot   : BitVec 32 := 0
  slots    : Tab FltSlot := []
  pools    : Tab Pool := []
  tags     : Tab TsTag := []
  passes   : List PagePass := []
  deriving DecidableEq, Repr

/-- Sloe's memory of a slice: counted windows over threshold in a row, and whether it has been reported (R185). -/
structure SloeRun where
  runs     : Nat := 0
  reported : Bool := false
  deriving DecidableEq, Repr

/-! ### Key translation -/

/-- A cached bucket line (R199). -/
structure KeyLine where
  obj    : BitVec 32
  bucket : Nat
  data   : List Byte
  deriving DecidableEq, Repr

/-- A checked key index descriptor (R187). -/
structure KeyDesc where
  bucketVa  : Nat
  log2      : Nat
  policy    : BitVec 2
  admitHost : Bool
  hintEn    : Bool
  hintPort  : Nat
  defaultRow : Nat
  seed      : Word
  admitVa   : Word
  admitLog2 : Nat
  ctrlVa    : Nat
  event     : Word
  deriving DecidableEq, Repr

/-- An admission-filter entry (R214). -/
structure FilterEnt where
  obj  : BitVec 32
  key  : Word
  tick : Nat
  deriving DecidableEq, Repr

/-- What key translation keeps per table: whether it saw the pending version open and whether a command wrote a slot for
it (R211; a version that was open before a reset is swept), whether posting has stopped (R502), the posts not yet
signalled, the POSTED value that the flush read under way will signal and the tick of the last signal (R216), the tick of
the last drop fault (R215). -/
structure KeyTable where
  opened   : Bool := false
  wrote    : Bool := false
  stopped  : Bool := false
  unsent   : Bool := false
  flushVal : Word := 0
  lastSig  : Option Nat := none
  lastNote : Option Nat := none
  deriving DecidableEq, Repr

/-- Key translation. `invHeld` lists what an invalidation waits for: lookups (bag work and entry) and key commands that were
held in the middle when it began (R219). -/
structure Kt where
  retire    : BitVec 32 := 0
  retBusy   : Bool := false
  invOp     : OpReg := {}
  invIndex  : BitVec 32 := 0
  window    : BitVec 20 := 1000
  lookups   : Word := 0
  hits      : Word := 0
  reads     : Word := 0
  absent    : Word := 0
  posted    : Word := 0
  filtered  : Word := 0
  dropped   : Word := 0
  cache     : List KeyLine := []
  descs     : Tab KeyDesc := []
  invHeld   : List (Nat × Option Nat) := []
  filter    : Tab FilterEnt := []
  tables    : Tab KeyTable := []
  deriving DecidableEq, Repr

/-! ### Pooling array -/

/-- A tile in transfer (R44, R264): its command and context, its header and data beats, the rows with NaN and the saturated
elements that it carries, the list entries of its bags, and whether it is the last of its command. -/
structure Tile where
  cmd   : Nat
  ctx   : BitVec 12
  head  : List Byte
  data  : List Byte
  nans  : Nat
  sats  : Nat
  ents  : Nat
  last  : Bool
  deriving DecidableEq, Repr

/-- A tile port: the tile in transfer and the beat at which a stall was last reported (R44, R45). -/
structure TilePort where
  cur     : Option Tile := none
  stalled : Option Nat := none
  deriving DecidableEq, Repr

structure Pa where
  retire  : BitVec 12 := 0
  retBusy : Bool := false
  bags    : Word := 0
  rows    : Word := 0
  beats   : Word := 0
  nulls   : Word := 0
  empties : Word := 0
  tiles   : Word := 0
  sats    : Word := 0
  nans    : Word := 0
  tports  : Tab TilePort := []
  deriving DecidableEq, Repr

/-! ### Mover -/

/-- Channel states (MV_CH_STAT.STATE). -/
inductive ChSt where
  | idle | loading | running | waiting | ending | aborting
  deriving DecidableEq, Repr

/-- A status word (R359): state 0 NOT_RUN, 1 DONE, 2 BAD, 3 ABORTED. -/
structure StatWord where
  st    : BitVec 3 := 0
  cause : Byte := 0
  bads  : BitVec 16 := 0
  execs : BitVec 32 := 0
  deriving DecidableEq, Repr

/-- A loop in progress (R338): the word index of its body, COUNT, the index, the strides. -/
structure LoopFr where
  body  : Nat
  count : Nat
  idx   : Nat
  ss    : BitVec 32
  ds    : BitVec 32
  deriving DecidableEq, Repr

/-- A pending SIGNAL of a channel (R351, R352): the remote writes (by number) and the hinted lines that it waits for, its
flush reads, and the REMOTE_SIGNAL that it has sent. -/
structure PendSig where
  event  : Word
  value  : Word
  remote : Bool
  node   : Nat
  status : Bool
  after  : List Nat
  hints  : List Nat
  flush  : List Nat
  sent   : Option Nat
  deriving DecidableEq, Repr

/-- An execution of a MOVE (R340 to R349), or the load of a program or the writing of the status words: its words,
status word and addresses, the context of its reads; the bytes of earlier executions; how much of its stream has been
written and read; the holding register; the bytes that it has overwritten, with their values before it; the stage of an
ATOMIC (0 operand, 1 atomic, 2 write back); the fault slot that holds it; the remote read or atomic that it awaits, with
what has come; the remote writes not yet acknowledged, each with its first stream byte; the failed read that its
stream ends at; and whether it wrote host memory. -/
structure Exec where
  m     : Nat
  words : List Word
  rctx  : BitVec 12
  src   : Word
  dst   : Word
  base  : Nat := 0
  k     : Nat := 0
  kr    : Nat := 0
  buf   : List Byte := []
  old   : Tab Byte := []
  stage : Nat := 0
  held  : Option Nat := none
  rd    : Option Nat := none
  got   : Option (List Byte) := none
  acks  : List (Nat × Nat) := []
  bad   : Option (Byte × Byte × BitVec 32) := none
  host  : Bool := false
  deriving DecidableEq, Repr

/-- A pending WAIT of a channel: event index, address, TARGET, deadline (R354). -/
structure ChWait where
  event  : Nat
  addr   : Nat
  target : Word
  limit  : Option Nat
  deriving DecidableEq, Repr

/-- A channel run (R334 to R360). `cur` is the execution that is being issued, `io` the load of the program or the
writing of the status words, `wrote` tells that the last of these is done; `execs` are the executions that await remote
acknowledgements; `ports` and `hostMs` are the host port written since the last flush, with its last address, and the
status word of each execution that wrote it; `flushes` are the flush reads in flight, with the words they cover; `fence`
and `last` are the flushes that a FENCE and the STOP wait for; `fail` is the status with which the run ends. -/
structure Run where
  cmd       : Nat
  ctx       : BitVec 12
  prog      : List Word := []
  builtin   : Bool := false
  arg0      : Word := 0
  arg1      : Word := 0
  moves     : Nat := 0
  chanStat  : Bool := false
  stopOnBad : Bool := false
  statVa    : Nat := 0
  pc        : Nat := 0
  loops     : List LoopFr := []
  stat      : Tab StatWord := []
  cur       : Option Exec := none
  io        : Option Exec := none
  wrote     : Bool := false
  execs     : List Exec := []
  hints     : List Nat := []
  sigs      : List PendSig := []
  ports     : List (Nat × Word) := []
  hostMs    : List Nat := []
  flushes   : List (Nat × List Nat) := []
  fence     : Option (List Nat) := none
  last      : Option (List Nat) := none
  pins      : List Nat := []
  held      : Option Nat := none
  done      : Nat := 0
  wait      : Option ChWait := none
  fail      : Option (Byte × BitVec 32) := none
  flushBad  : Bool := false
  deriving DecidableEq, Repr

structure Channel where
  keyId : Byte := 0
  copy  : Bool := false
  share : BitVec 9 := 0x100
  st    : ChSt := .idle
  queue : List Nat := []
  run   : Option Run := none
  deriving DecidableEq, Repr

structure Mv where
  rdBytes     : Word := 0
  wrBytes     : Word := 0
  bad         : Word := 0
  aborted     : Word := 0
  hintDropped : Word := 0
  flushes     : Word := 0
  scrubBytes  : Word := 0
  chans       : Tab Channel := []
  deriving DecidableEq, Repr

/-! ### Bramble -/

/-- Link states with their codes (BL_PORT_STATUS.STATE). -/
inductive LinkSt where
  | disabled | detect | train | config | init | active | recovery | l1 | off | failed
  deriving DecidableEq, Repr

/-- A DATA flit that waits for its credit or, sent, stands in the replay buffer under its 12-bit SEQ. `origin` is the
port that a forwarded flit came in on, whose credit it holds until it leaves; `part` is the partition that a flit of this
complex belongs to (R298); `tries` counts its replays in a row (R278). -/
structure SentFlit where
  seq    : Nat := 0
  vc     : Nat
  key    : Byte
  origin : Option Nat
  flit   : List Byte
  part   : Option (BitVec 3) := none
  tries  : Nat := 0
  deriving DecidableEq, Repr

/-- A Bramble port (R272 to R283). `node` is the node ID that the peer is known to have, `stray` tells that it is a worker
of another board (R284). `ackAt` is when an ACK last advanced, `since` when its training started or failed; `l1Wait` holds
a peer's L1_REQ that is not answered, `l1Sent` tells that this side has asked. -/
structure BlPort where
  en       : Bool := true
  retire   : Bool := false
  retired  : Bool := false
  st       : LinkSt := .disabled
  width    : Byte := 0
  rate     : BitVec 3 := 0
  peerNode : BitVec 10 := 0
  peerRole : Bool := false
  peerAsgd : Bool := false
  peerId   : Word := 0
  node     : Option (BitVec 10) := none
  stray    : Bool := false
  fails    : Nat := 0
  txSeq    : Nat := 0
  rxSeq    : Nat := 0
  replay   : List SentFlit := []
  nakSent  : Bool := false
  unacked  : Nat := 0
  crd      : Tab Nat := []
  txq      : List SentFlit := []
  l1Wait   : Bool := false
  l1Sent   : Bool := false
  ackAt    : Nat := 0
  since    : Nat := 0
  toX4     : Bool := false
  safeSent : Bool := false
  waitRetry : Bool := false
  cnt      : Tab Word := []
  deriving DecidableEq, Repr

/-- Key slot states (BL_KEY.STATE). -/
inductive KeySt where
  | empty | active | revoked
  deriving DecidableEq, Repr

/-- A job-key slot (R293, R427): its material is never shown by a register. -/
structure KeySlot where
  st      : KeySt := .empty
  gen     : BitVec 32 := 0
  epoch   : BitVec 32 := 0
  key     : BitVec 256 := 0
  install : Option Nat := none
  deriving DecidableEq, Repr

/-- What an outstanding remote request belongs to (R301 to R312). -/
inductive ROwner where
  | write (cmd off : Nat)
  | signal (cmd : Nat)
  | fetch (cmd : Nat)
  | chWrite (ch : Nat) (k : Nat)
  | chRead (ch : Nat) (n : Nat)
  | chAtomic (ch : Nat)
  | chSignal (ch : Nat)
  | pool (cmd shard records : Nat)
  deriving DecidableEq, Repr

/-- An outstanding remote request: REQ_ID is its `id` modulo 4096. -/
structure RReq where
  id    : Nat
  node  : BitVec 10
  key   : Byte
  part  : BitVec 3
  owner : ROwner
  tick  : Nat
  deriving DecidableEq, Repr

/-- A whole message received (R301). -/
structure Msg where
  op      : BitVec 5
  src     : BitVec 10
  key     : Byte
  payload : List Byte
  deriving DecidableEq, Repr

/-- The flits so far of a message whose last flit has not come, by source and virtual channel; `drop` tells that its
flits are dropped (R298). -/
structure PartMsg where
  src     : BitVec 10
  vc      : Nat
  op      : BitVec 5
  key     : Byte
  payload : List Byte
  drop    : Bool
  deriving DecidableEq, Repr

/-- A request that this node serves as destination or owner (R307, R322): for a HOST write, its flush; for a
REMOTE_POOL, the bag it runs. -/
structure Served where
  src    : BitVec 10
  req    : BitVec 12
  key    : Byte
  part   : BitVec 3
  msg    : Msg
  bag    : Option BagWork
  vpin   : Option (Nat × Bool)
  held   : Option Nat
  deriving DecidableEq, Repr

/-- A directory slot (R316 to R318): its images lie in device memory; `holders` are the bags that hold each image. -/
structure DirSlot where
  valid : Bool := false
  cur   : Bool := false
  deriving DecidableEq, Repr

/-- A SHARD_DIR that waits for bags to release the image that it would replace (R317). -/
structure DirWait where
  src : BitVec 10
  img : List Byte
  deriving DecidableEq, Repr

/-- Routes that wait for the flits of the ports that they leave to be acknowledged (R290, R291); `install` tells that they
came with a route installation (R285). -/
structure NewRoutes where
  install : Bool
  routes  : Tab Nat
  deriving DecidableEq, Repr

/-- Bramble. `mesh` holds the links of the complex's own board; `newRoutes` are routes that are not yet in force. -/
structure Bl where
  ready     : Bool := false
  assigned  : Bool := false
  root      : Bool := false
  board     : BitVec 6 := 0
  pos       : BitVec 4 := 0
  nodeId    : BitVec 10 := 0
  discBusy  : Bool := false
  discRes   : Byte := 0
  epoch     : BitVec 16 := 0
  started   : Bool := false
  heard     : List Word := []
  assigners : List Nat := []
  routes    : Tab Nat := []
  newRoutes : Option NewRoutes := none
  mesh      : List MeshLink := []
  tree      : List (Word × Nat) := []
  shardBase : BitVec 26 := 0
  shardEn   : Bool := false
  shardOp   : OpReg := {}
  shardSlot : BitVec 6 := 0
  shardWait : List Nat := []
  dirs      : Tab DirSlot := []
  dirWait   : Tab DirWait := []
  patience  : BitVec 17 := 500
  timeouts  : Word := 0
  late      : Word := 0
  nackTx    : Word := 0
  nackRx    : Word := 0
  ports     : Tab BlPort := []
  keys      : Tab KeySlot := []
  nonces    : Tab Nat := []
  stopped   : Tab Unit := []
  reqs      : Tab RReq := []
  served    : Tab Served := []
  parts     : List PartMsg := []
  inbox     : Tab Msg := []
  deriving DecidableEq, Repr

/-! ### Coherence home -/

/-- Directory states with an entry (R366). -/
inductive DirSt where
  | shd | exc | own
  deriving DecidableEq, Repr

/-- A directory entry. The pointers name agents; `fwd` is the data an OWN line's owner last sent, which it cannot
change without a new request (R371, R372; log entry 16). `used` orders ways for R368. -/
structure DirEnt where
  st    : DirSt
  ptrs  : List Nat
  bcast : Bool
  fwd   : Option (List Byte)
  used  : Nat
  deriving DecidableEq, Repr

/-- The requests that the home serves, with the port (or `none` for the complex itself). -/
inductive HomeOp where
  | rdShared | rdUnique | upgrade
  | wb (keep : Bool) (data : List Byte)
  | rdNc (size : Nat)
  | wrNc (size : Nat) (data : List Byte)
  | atomic (size : Nat) (aop : Nat) (data : List Byte)
  | recall (inval : Bool)
  | hint (data : List Byte) (en : List Bool)
  | evict
  deriving DecidableEq, Repr

/-- A request at the home. `addr` is physical; a `direct` request is to a type that is not normal and is not snooped
(R374). -/
structure HomeReq where
  op     : HomeOp
  port   : Nat
  txn    : Byte
  addr   : Nat
  direct : Bool
  part   : Option (BitVec 3)
  deriving DecidableEq, Repr

/-- A transaction in progress on a line: the answers it awaits, as snoop IDs with their agents, the dirty data that
has come, whether the owner keeps the line dirty, whether a holder answered with a clean copy, whether its response
waits for an HRSP credit (R375), and the snoop ID of the STASH it sent (R369, R381). -/
structure Trans where
  req    : HomeReq
  awaits : List (Nat × Nat)
  data   : Option (List Byte)
  toO    : Bool
  kept   : Bool
  stash  : Bool
  resp   : Bool
  sid    : Nat
  deriving DecidableEq, Repr

/-- An outstanding snoop to a port: its line and kind (1 SNP_SHARED, 2 SNP_INV, 3 STASH). -/
structure Snoop where
  core : Nat
  line : Nat
  kind : Nat
  deriving DecidableEq, Repr

/-- A BARRIER that has not been answered: the transaction IDs it waits for (R395). -/
structure HeldBar where
  txn    : Byte
  waits  : List Byte
  deriving DecidableEq, Repr

/-- A near-core request that the home has accepted and not ended (for barriers and TXN uniqueness). -/
structure OpenReq where
  txn   : Byte
  store : Bool
  load  : Bool
  deriving DecidableEq, Repr

/-- A response on HRSP (R369): code, ID, STATUS, GRANT, LINE, data. -/
structure HResp where
  opc    : Nat
  id     : Nat
  status : Nat := 0
  grant  : Nat := 0
  line   : Nat := 0
  data   : List Byte := []
  deriving DecidableEq, Repr

/-- A near-core port at the home: its HSNP and HRSP credits, the snoops and the responses (with the line whose
transaction each ends) that wait for a credit, the open requests and the barriers not yet answered. -/
structure CorePort where
  hsnp  : Nat := 0
  hrsp  : Nat := 0
  hsnpQ : List (Nat × Snoop) := []
  hrspQ : List (HResp × Option Nat) := []
  opens : List OpenReq := []
  bars  : List HeldBar := []
  deriving DecidableEq, Repr

/-- A near-core request held on a translation fault: what is needed to serve it again, with the partition of the port and the
number at which it was admitted (R13). -/
structure CoreHeld where
  core : Nat
  op   : HomeOp
  req  : CReq
  part : BitVec 3
  born : Nat
  deriving DecidableEq, Repr

/-- A near-core request that came while READY is 0 and waits at the home (R470); one without `op` is a BARRIER of a
kind. -/
structure EarlyReq where
  core : Nat
  req  : CReq
  op   : Option HomeOp
  kind : BitVec 2
  deriving DecidableEq, Repr

/-- Coherent domain states (CH_DOMAIN.STATE). -/
inductive DomSt where
  | up | purging | down | restoring
  deriving DecidableEq, Repr

/-- The coherence home. `snaps` holds the snapshots of wide registers that near-core ports have captured, by port and
offset (R486). -/
structure Ch where
  busy     : Bool := false
  result   : Byte := 0
  agent    : Byte := 0
  st       : DomSt := .up
  attached : BitVec 32 := 0
  present  : BitVec 32 := 0
  hints    : Tab (Bool × BitVec 5) := []
  snoops   : Word := 0
  bcasts   : Word := 0
  evicts   : Word := 0
  ownData  : Word := 0
  atomics  : Word := 0
  stashAcc : Word := 0
  stashDec : Word := 0
  poisoned : Word := 0
  dir      : Tab DirEnt := []
  trans    : Tab Trans := []
  queue    : List HomeReq := []
  snps     : Tab Snoop := []
  ports    : Tab CorePort := []
  held     : List CoreHeld := []
  early    : List EarlyReq := []
  snaps    : Tab (List Byte) := []
  deriving DecidableEq, Repr

/-! ### Partitions, Quince and the Wambe port -/

/-- Partition states (PS_PART_STAT.STATE). -/
inductive PartSt where
  | opened | locked | closing | scrubbing | halted
  deriving DecidableEq, Repr

/-- A memory range in 2 MiB units (PS_PART_RANGE). -/
structure PRange where
  size : BitVec 28 := 0
  base : BitVec 27 := 0
  deriving DecidableEq, Repr

/-- A partition. `scrubQ` lists the 512 B blocks whose scrub write has failed once (R440), `closeAt` is the tick at which
step 3 of a teardown ended (R434), `stopped` tells that a forced entry into P3 has stopped its scrub (R437), `past` lists,
newest first, the ranges that a change replaced, with the number (`nextId`) from which the change counts: a request that was
numbered before completes under them (R13). -/
structure Part where
  ctxBase   : BitVec 12 := 0
  ctxCount  : BitVec 13 := 0
  slotBase  : BitVec 6 := 0
  slotCount : BitVec 7 := 0
  conf      : Bool := false
  ranges    : Tab PRange := []
  past      : List (Nat × Tab PRange) := []
  st        : PartSt := .opened
  teardowns : BitVec 16 := 0
  scrubTotal : BitVec 32 := 0
  scrubDone : BitVec 32 := 0
  digest    : BitVec 384 := 0
  scrubQ    : List Nat := []
  closeAt   : Nat := 0
  stopped   : Bool := false
  chain     : BitVec 384 := 0
  truncated : Bool := false
  total     : BitVec 32 := 0
  deriving DecidableEq, Repr

/-- A context-secret slot (R425) with the context's session counter (R87). -/
structure Secret where
  part   : BitVec 3
  ctx    : BitVec 12
  secret : BitVec 256
  count  : BitVec 32
  deriving DecidableEq, Repr

/-- A held measurement record (R428). -/
structure MRec where
  part   : BitVec 3
  handle : Word
  length : BitVec 48
  ctx    : BitVec 12
  kind   : BitVec 4
  digest : BitVec 384
  deriving DecidableEq, Repr

/-- Why Quince does not run, or that it does (R58, R421, R467). -/
inductive QuinceSt where
  | running | provisioning | fuseTimeout | firmware | halted
  deriving DecidableEq, Repr

/-- A Wambe session (R418, R421): its key, the lowest sequence number that is not old, the messages so far, and for a
provisional session the key whose digest it must fuse. -/
structure Session where
  key   : BitVec 256
  next  : Nat
  count : Nat
  prov  : Option (List Byte)
  deriving DecidableEq, Repr

/-- A key that this manager has passed on: the node it is for, and the node that awaits the answer (R426). -/
structure KeyRelay where
  node : Nat
  back : Nat
  deriving DecidableEq, Repr

structure Ps where
  partOp   : OpReg := {}
  partSel  : BitVec 3 := 0
  jobOp    : OpReg := {}
  jobKey   : Byte := 0
  jobWait  : List Nat := []
  jobBad   : Bool := false
  relays   : List KeyRelay := []
  jobNodes : BitVec 41 := 0
  lastKey  : Tab Nat := []
  nextGen  : Tab Nat := []
  parts    : Tab Part := []
  own      : Tab Word := []
  secrets  : Tab Secret := []
  log      : List MRec := []
  quince   : QuinceSt := .running
  draws    : Nat := 0
  session  : Option Session := none
  locks    : BitVec 4 := 0
  dbg      : BitVec 2 := 0
  inspSeen : Bool := false
  invSeen  : Bool := false
  traceBase : BitVec 48 := 0
  traceLog2 : Nat := 0
  traceSrc : BitVec 4 := 0
  tracePos : Nat := 0
  fuses    : Tab (BitVec 32) := []
  deriving DecidableEq, Repr

/-! ### Fault collector -/

/-- The settings and counting state of a source that differ from reset (R444, R445). -/
structure Src where
  w     : BitVec 32 := 1000000
  n     : Byte
  promo : BitVec 2 := 0
  limit : BitVec 2 := 2
  count : Byte := 0
  start : Nat := 0
  deriving DecidableEq, Repr

/-- A fault record (R446). -/
structure Rec where
  address : Word := 0
  mid     : Byte := 0
  access  : BitVec 2 := 0
  source  : BitVec 16 := 0
  cls     : BitVec 3 := 0
  scope   : BitVec 2 := 0
  detail  : Byte := 0
  info    : BitVec 16 := 0
  ctx     : BitVec 12 := 0
  part    : BitVec 3 := 0
  ctxv    : Bool := false
  partv   : Bool := false
  inj     : Bool := false
  count   : BitVec 31 := 0
  ovf     : Bool := false
  first   : Word := 0
  firstEp : BitVec 32 := 0
  last    : Word := 0
  lastEp  : BitVec 32 := 0
  queue   : BitVec 15 := 0
  head    : BitVec 16 := 0
  deriving DecidableEq, Repr

/-- The class of the collector (FC_STATUS.CLASS). -/
inductive FcClass where
  | run | fatal | terminal
  deriving DecidableEq, Repr

structure Fc where
  entrySrc   : BitVec 16 := 0
  resetClass : FcClass := .run
  cls        : FcClass := .run
  self       : Bool := false
  recs       : Tab Rec := []
  valid      : BitVec 32 := 0
  overflow   : Word := 0
  drive      : Bool := false
  pulseEnd   : Option Nat := none
  extLow     : Bool := false
  srcSel     : BitVec 16 := 0
  srcs       : Tab Src := []
  injClass   : BitVec 3 := 0
  injSrc     : BitVec 16 := 0
  sloeWindow : BitVec 24 := 100000
  sloeConsec : BitVec 4 := 0
  sloeFactor : Byte := 0x40
  sloe       : Tab SloeRun := []
  deriving DecidableEq, Repr

/-! ### Time and power -/

/-- Power states (TP_PWR.STATE). -/
inductive Pwr where
  | p0 | p1 | p2 | p3
  deriving DecidableEq, Repr

/-- A reset sequence in progress, by the value LAST_RESET will take (R465, TP_STATUS). -/
inductive ResetKind where
  | powerOn | pin | wambe | lifecycle | failedRestore
  deriving DecidableEq, Repr

/-- What P3 keeps in the save area (R475, R478; its layout is not given, log entry 17). -/
structure Saved where
  qe    : Qe
  ports : Tab HostPort
  kt    : Kt
  tu    : Tu
  pa    : Pa
  mv    : Mv
  bl    : Bl
  ch    : Ch
  deriving DecidableEq, Repr

structure Tp where
  ready     : Bool := false
  resetting : Option ResetKind := some .powerOn
  lastReset : BitVec 3 := 0
  pwrBusy   : Bool := false
  pwrResult : Byte := 0
  pwr       : Pwr := .p0
  draining  : Option Nat := none
  saveBase  : BitVec 28 := 0
  saved     : Option Saved := none
  quar      : Tab PRange := []
  overflow  : List PRange := []
  scrubbed  : Nat := 0
  held      : List Nat := []
  deriving DecidableEq, Repr

/-! ### What leaves the block -/

/-- The kinds of a posted write to host memory (R93). -/
inductive HostWr where
  | result | completion | admission | sealedRec
  deriving DecidableEq, Repr

/-- AER reports (R79, R106, R456). -/
inductive Aer where
  | unsupported | uncorrectable | poisoned | flushUr | flushCa | completionTimeout | unexpected | correctable | internal
  deriving DecidableEq, Repr

/-- The results of a Wambe message. -/
inductive WRes where
  | ok | auth | refused | format | state
  deriving DecidableEq, Repr

/-- The messages that the complex sends on Wambe by itself (R418). -/
inductive Notify where
  | scrubComplete (part : BitVec 3) (digest : BitVec 384)
  | teardownFailed (part : BitVec 3)
  | fatal (src : BitVec 16)
  | terminal (src : BitVec 16)
  deriving DecidableEq, Repr

/-- One transfer that left the block at a port, or a pin change (log entry 5). -/
inductive Out where
  | hostWrite (port : Nat) (vf : Nat) (kind : HostWr) (addr : Word) (data : List Byte) (pasid : Option (BitVec 20)) (ro ido : Bool)
  | flushRead (port : Nat) (vf : Nat) (fl : Nat) (addr : Word) (pasid : Option (BitVec 20))
  | msix (port : Nat) (fn : Fn) (vector : Nat) (addr : Word) (data : BitVec 32)
  | flrDone (fn : Fn)
  | aer (port : Nat) (kind : Aer)
  | readDone (fn : Fn) (tag : Nat) (value : Word)
  | readUr (fn : Fn)
  | tile (port : Nat) (header : List Byte) (data : List Byte)
  | tileAbort (port : Nat)
  | service (port tag : Nat) (status : BitVec 2) (frame : BitVec 46) (size mtype : BitVec 2) (remote : Bool)
  | hrsp (core : Nat) (r : HResp)
  | hsnp (core : Nat) (opc : Nat) (sid : Nat) (line : Nat)
  | homeCredits (core : Nat) (creq csrsp cdat : Nat)
  | flit (port : Nat) (bytes : List Byte)
  | mgmtSelf (op : Nat) (body : List Byte)
  | lnLpwr (port : Nat) (value : BitVec 2)
  | wambe (code : Nat) (res : WRes) (body : List Byte)
  | notify (n : Notify) (tick : Word) (epoch : BitVec 32)
  | doe (fn : Fn) (body : List Byte)
  | doeError (fn : Fn)
  | fuse (word : Byte) (bits : BitVec 32)
  | errN (low : Bool)
  | safePin (high : Bool)
  deriving DecidableEq, Repr

/-! ### The machine -/

/-- The state of the complex, with the queue of commands that wait, first in, first out. -/
structure State where
  pending : List Instr := []
  build   : Build := Build.full
  role    : Bool := false
  i3cAddr : BitVec 7 := 0
  tick    : Nat := 0
  epoch   : BitVec 32 := 1
  free    : Nat := 0
  nextId  : Nat := 1
  mem     : Memory := {}
  gw      : Tab GwPort := []
  hosts   : Tab HostPort := []
  wws     : Tab WinWrite := []
  cows    : Tab Cow := []
  qe      : Qe := {}
  tu      : Tu := {}
  kt      : Kt := {}
  pa      : Pa := {}
  mv      : Mv := {}
  bl      : Bl := {}
  ch      : Ch := {}
  ps      : Ps := {}
  fc      : Fc := {}
  tp      : Tp := {}
  out     : List Out := []
  deriving DecidableEq, Repr

/-- PS_OWN[k] after reset: every present resource belongs to partition 0 (R410). -/
def ownReset (b : Build) (k : Nat) : Word :=
  let present (n : Nat) : Bool :=
    if k < 8 then
      match b.hostPorts[k / 4]? with
      | some h => decide (16 * (k % 4) + n ≤ h.vfs)
      | none => false
    else if k < 12 then decide (16 * (k - 8) + n < b.channels)
    else if k < 14 then decide (16 * (k - 12) + n < b.corePorts)
    else if k = 14 then decide (n < b.tsPorts)
    else false
  BitVec.ofNat 64 ((List.range 16).foldl (fun a n => if present n then a + 8 * 16 ^ n else a) 0)

/-- The partition and security unit after reset: partition 0 owns every resource (R410). -/
def psReset (b : Build) : Ps :=
  { parts := [(0, { ctxCount := 4096, slotCount := BitVec.ofNat 7 b.slots, ranges := [(0, { size := 0x8000000 })] })]
    own := (List.range 15).filterMap fun k => if ownReset b k = 0 then none else some (k, ownReset b k) }

/-- The fuses of a provisioned PRODUCTION part: words 0 and 2 to 33 (log entry 8). -/
def fusesReset : Tab (BitVec 32) := (0, 3) :: (List.range 32).map fun i => (i + 2, 1)

/-- The complex right after the supplies come: inside the power-on reset sequence, every register at its reset value
and READY at 0 (R465; log entries 1 to 9). -/
def State.reset : State :=
  { ps := { psReset Build.full with fuses := fusesReset } }

/-- How the machine can stop. -/
inductive Fault where
  /-- Raised by a command in which the surroundings break a guarantee that the spec requires of the integrator
  (R38, R48, R371): R3 promises no outcome but fault reporting. Safe: the model stops where the complex may go on. -/
  | guaranteeBroken
  deriving DecidableEq, Repr

/-- Why a command has no meaning. -/
inductive Refusal where
  /-- Raised by the dispatch arm of a command that the model does not cover. Safe: the model stops. -/
  | notModelled (mnemonic : String)
  deriving DecidableEq, Repr

end Sys2Proof.Machine
end

