-- ==== Sys2Proof/Machine/Tab.lean ====
section
/-! DEFINITION. Operations on sparse arrays in canonical form: indices rise strictly and no entry holds the default. -/

namespace Sys2Proof

/-- The element at index `k`: the listed one, or the default `d`. -/
def Tab.get {α : Type} (d : α) : Tab α → Nat → α
  | [], _ => d
  | (i, v) :: t, k => if i = k then v else Tab.get d t k

/-- The array without an entry at index `k`. -/
def Tab.erase {α : Type} (t : Tab α) (k : Nat) : Tab α := t.filter fun e => !decide (e.1 = k)

/-- The array with `v` listed at index `k`. -/
def Tab.insert {α : Type} : Tab α → Nat → α → Tab α
  | [], k, v => [(k, v)]
  | (i, w) :: t, k, v =>
    if i = k then (k, v) :: t else if k < i then (k, v) :: (i, w) :: t else (i, w) :: Tab.insert t k v

/-- Write `v` at index `k`, keeping the canonical form: the default is not listed. -/
def Tab.set {α : Type} [DecidableEq α] (d : α) (t : Tab α) (k : Nat) (v : α) : Tab α :=
  if v = d then Tab.erase t k else Tab.insert t k v

/-- Change the element at index `k`. -/
def Tab.upd {α : Type} [DecidableEq α] (d : α) (t : Tab α) (k : Nat) (f : α → α) : Tab α :=
  Tab.set d t k (f (Tab.get d t k))

/-- Every listed index is above `lo` and the indices rise. -/
def Tab.above {α : Type} : Nat → Tab α → Bool
  | _, [] => true
  | lo, (i, _) :: t => decide (lo < i) && Tab.above i t

/-- The indices rise strictly: the form of an array in which presence itself is the state. -/
def Tab.rises {α : Type} : Tab α → Bool
  | [] => true
  | (i, _) :: r => Tab.above i r

/-- The canonical form: strictly rising indices and no default listed. -/
def Tab.wf {α : Type} [DecidableEq α] (d : α) (t : Tab α) : Bool :=
  Tab.rises t && t.all fun e => !decide (e.2 = d)

/-- The listed entry at index `k`, if any: for arrays in which presence itself is the state. -/
def Tab.find? {α : Type} : Tab α → Nat → Option α
  | [], _ => none
  | (i, v) :: t, k => if i = k then some v else Tab.find? t k

/-- Change the listed entry at index `k`, if there is one. -/
def Tab.modify {α : Type} (t : Tab α) (k : Nat) (f : α → α) : Tab α :=
  t.map fun e => if e.1 = k then (e.1, f e.2) else e

end Sys2Proof
end

