-- ==== Sys2Proof/Machine/Ops.lean ====
section
/-! DEFINITION. The operations that every unit shares: what leaves the block, free values, host messages, the fault
collector with the safe state, and device memory behind the Gweloty ports. -/

namespace Sys2Proof.Machine

open Sys2Proof

/-- The outcome of a command. -/
abbrev Res := Host.Outcome State Fault Refusal

/-! ### Small steps on the state -/

/-- Record one transfer that leaves the block (log entry 5). -/
def emit (s : State) (o : Out) : State := { s with out := s.out ++ [o] }

/-- A fresh operation number (log entry 6). -/
def fresh (s : State) : State × Nat := ({ s with nextId := s.nextId + 1 }, s.nextId)

/-- The tick as the 64-bit counter shows it (R481). -/
def tickWord (s : State) : Word := BitVec.ofNat 64 s.tick

/-- Let time reach a deadline (log entry 20). -/
def reach (s : State) (t : Nat) : State := { s with tick := max s.tick t }

/-- Fold a state change over a list. -/
def each {α : Type} (f : State → α → State) (s : State) (xs : List α) : State := xs.foldl f s

def hostPort (s : State) (p : Nat) : HostPort := Tab.get {} s.hosts p
def setHost (s : State) (p : Nat) (h : HostPort) : State := { s with hosts := Tab.set {} s.hosts p h }
def updHost (s : State) (p : Nat) (f : HostPort → HostPort) : State := setHost s p (f (hostPort s p))

def fnState (s : State) (fn : Fn) : FnState := Tab.get {} (hostPort s fn.port).fns fn.vf
def updFn (s : State) (fn : Fn) (f : FnState → FnState) : State :=
  updHost s fn.port fun h => { h with fns := Tab.upd {} h.fns fn.vf f }

/-- A function exists in the build (R67, R20). -/
def fnExists (s : State) (fn : Fn) : Bool :=
  match s.build.hostPorts[fn.port]? with
  | some h => decide (fn.vf ≤ h.vfs)
  | none => false

def aperture (s : State) (p n : Nat) : Aperture := Tab.get {} (hostPort s p).aps n
def updAp (s : State) (p n : Nat) (f : Aperture → Aperture) : State :=
  updHost s p fun h => { h with aps := Tab.upd {} h.aps n f }

def ctxOf (s : State) (c : BitVec 12) : Ctx := Tab.get {} s.qe.ctxs c.toNat
def updCtx (s : State) (c : BitVec 12) (f : Ctx → Ctx) : State :=
  { s with qe := { s.qe with ctxs := Tab.upd {} s.qe.ctxs c.toNat f } }
def queueOf (s : State) (c : BitVec 12) (q : Nat) : QState := Tab.get {} (ctxOf s c).qs q
def updQueue (s : State) (c : BitVec 12) (q : Nat) (f : QState → QState) : State :=
  updCtx s c fun x => { x with qs := Tab.upd {} x.qs q f }

def partOf (s : State) (p : BitVec 3) : Part := Tab.get {} s.ps.parts p.toNat
def updPart (s : State) (p : BitVec 3) (f : Part → Part) : State :=
  { s with ps := { s.ps with parts := Tab.upd {} s.ps.parts p.toNat f } }

def blPort (s : State) (p : Nat) : BlPort := Tab.get {} s.bl.ports p
def updBl (s : State) (p : Nat) (f : BlPort → BlPort) : State :=
  { s with bl := { s.bl with ports := Tab.upd {} s.bl.ports p f } }

def keySlot (s : State) (k : Nat) : KeySlot := Tab.get {} s.bl.keys k
def updKey (s : State) (k : Nat) (f : KeySlot → KeySlot) : State :=
  { s with bl := { s.bl with keys := Tab.upd {} s.bl.keys k f } }

def chan (s : State) (c : Nat) : Channel := Tab.get {} s.mv.chans c
def updChan (s : State) (c : Nat) (f : Channel → Channel) : State :=
  { s with mv := { s.mv with chans := Tab.upd {} s.mv.chans c f } }
def updRun (s : State) (c : Nat) (f : Run → Run) : State :=
  updChan s c fun ch => { ch with run := ch.run.map f }

def cmdOf (s : State) (id : Nat) : Option Cmd := Tab.find? s.qe.cmds id
def updCmd (s : State) (id : Nat) (f : Cmd → Cmd) : State :=
  { s with qe := { s.qe with cmds := Tab.modify s.qe.cmds id f } }

def corePort (s : State) (p : Nat) : CorePort := Tab.get {} s.ch.ports p
def updCore (s : State) (p : Nat) (f : CorePort → CorePort) : State :=
  { s with ch := { s.ch with ports := Tab.upd {} s.ch.ports p f } }

def gwPort (s : State) (p : Nat) : GwPort := Tab.get {} s.gw p
/-- The outstanding beats of a Gweloty port. -/
def portBeats (s : State) (port : Nat) : Nat := (gwPort s port).out.foldl (fun a e => a + ceilDiv e.2.len 128) 0

/-- Of `n` Gweloty ports from `base` on, the one with the fewest outstanding beats, as an offset. -/
def leastBusy (s : State) (base n : Nat) : Nat :=
  (List.range n).foldl (fun best l => if portBeats s (base + l) < portBeats s (base + best) then l else best) 0

def updGw (s : State) (p : Nat) (f : GwPort → GwPort) : State := { s with gw := Tab.upd {} s.gw p f }

/-! ### Ownership (R410) -/

/-- Nibble `n` of PS_OWN[k]. -/
def ownNibble (s : State) (k n : Nat) : Nat := bits (Tab.get 0 s.ps.own k) (4 * n + 3) (4 * n)

/-- The partition that a nibble of PS_OWN names, if it is valid. -/
def ownPart (s : State) (k n : Nat) : Option (BitVec 3) :=
  let v := ownNibble s (k + n / 16) (n % 16)
  if 8 ≤ v then some (BitVec.ofNat 3 v) else none

def fnPart (s : State) (fn : Fn) : Option (BitVec 3) := ownPart s (4 * fn.port) fn.vf
def chanPart (s : State) (c : Nat) : Option (BitVec 3) := ownPart s 8 c
def corePart (s : State) (p : Nat) : Option (BitVec 3) := ownPart s 12 p
def tsPart (s : State) (p : Nat) : Option (BitVec 3) := ownPart s 14 p
def keyPart (s : State) (k : Nat) : Option (BitVec 3) := ownPart s 15 k

/-- The partition that owns a context ID. -/
def ctxPart (s : State) (c : BitVec 12) : Option (BitVec 3) :=
  ((List.range s.build.partitions).find? fun p =>
    let x := Tab.get {} s.ps.parts p
    decide (x.ctxBase.toNat ≤ c.toNat ∧ c.toNat < x.ctxBase.toNat + x.ctxCount.toNat)).map (BitVec.ofNat 3)

/-- Bytes of a 2 MiB unit. -/
def unit2M : Nat := 0x200000

/-- A range covers byte address `a`. -/
def PRange.covers (r : PRange) (a : Nat) : Bool :=
  decide (r.base.toNat * unit2M ≤ a ∧ a < (r.base.toNat + r.size.toNat) * unit2M)

/-- Byte `a` lies in a range of partition `p` (R412). -/
def partCovers (s : State) (p : BitVec 3) (a : Nat) : Bool :=
  (partOf s p).ranges.any fun e => e.2.covers a

/-- The ranges of a partition in force when a request of a number was admitted, or now (R13). -/
def Part.rangesAt (x : Part) : Option Nat → Tab PRange
  | none => x.ranges
  | some b => ((x.past.filter fun e => decide (b < e.1)).getLast?.map (·.2)).getD x.ranges

/-- Byte `a` lies in a range of partition `p` as it was when a request was admitted. -/
def partCoversAt (s : State) (p : BitVec 3) (born : Option Nat) (a : Nat) : Bool :=
  ((partOf s p).rangesAt born).any fun e => e.2.covers a

/-- A partition is in teardown or halted (R434). -/
def partClosing (s : State) (p : BitVec 3) : Bool :=
  let st := (partOf s p).st
  decide (st = .closing ∨ st = .scrubbing ∨ st = .halted)

/-- Byte `a` is quarantined (R468). -/
def quarantined (s : State) (a : Nat) : Bool := s.tp.quar.any fun e => e.2.covers a

/-- The register window and the doorbell window of the near cores (R490). -/
def inRegWindow (a : Nat) : Bool := decide (0xFFFFF0000000 ≤ a ∧ a ≤ 0xFFFFF1FFFFFF)
def inDbWindow (a : Nat) : Bool := decide (0xFFFFE0000000 ≤ a ∧ a ≤ 0xFFFFE7FFFFFF)
def inWindow (a : Nat) : Bool := inRegWindow a || inDbWindow a

/-- No request for byte `a` goes to memory: it lies in a window, to which a range gives no access, or is quarantined
(R468, R492). -/
def offLimits (s : State) (a : Nat) : Bool := inWindow a || quarantined s a

/-- The safe state is in force (R456). -/
def safeState (s : State) : Bool := decide (s.fc.cls ≠ .run)

/-! ### Messages to the host -/

/-- A function can issue requests (R108). -/
def fnIssues (s : State) (fn : Fn) : Bool :=
  let f := fnState s fn
  f.busMaster && !f.d3hot && decide (s.tp.pwr ≠ .p3)

/-- Vectors of a function (R67). -/
def vectorsOf (fn : Fn) : Nat := if fn.vf = 0 then 2048 else 64

/-- The messages of a function stand back: MSI-X is off, Function Mask is set, or it issues no requests (R102, R108). -/
def msixOff (s : State) (fn : Fn) : Bool := !(fnState s fn).msixEn || (fnState s fn).fnMask || !fnIssues s fn

/-- Raise an MSI-X vector whose message leaves at a port: held by its mask or by its function as its pending bit (R102,
R108). -/
def msixAt (s : State) (port : Nat) (fn : Fn) (v : Nat) : State :=
  let x := Tab.get {} (fnState s fn).msix v
  if !fnExists s fn || safeState s || decide (vectorsOf fn ≤ v) then s
  else if x.masked || msixOff s fn then
    updFn s fn fun f => { f with msix := Tab.upd {} f.msix v fun x => { x with pending := true, via := port } }
  else emit s (.msix port fn v x.addr x.data)

/-- Raise an MSI-X vector at its function's own port. -/
def msix (s : State) (fn : Fn) (v : Nat) : State := msixAt s fn.port fn v

/-- The function of a context (R111). -/
def ctxFn (s : State) (c : BitVec 12) : Fn :=
  let x := ctxOf s c
  ⟨if x.fnPort then 1 else 0, x.fnVf.toNat⟩

/-- Vector 0 of every PF (R451). -/
def msixPfs (s : State) : State :=
  each (fun s p => msix s ⟨p, 0⟩ 0) s (List.range s.build.hostPorts.length)

/-- The PASID that a context's host requests carry (R111). -/
def ctxPasid (s : State) (c : BitVec 12) : Option (BitVec 20) :=
  let x := ctxOf s c
  if x.pasidEn && (fnState s (ctxFn s c)).pasidEn then some x.pasid else none

/-- Cut a byte string at an address at the multiples of `m`. -/
def cutsAt (m : Nat) : Nat → Nat → List Byte → List (Nat × List Byte)
  | 0, _, _ => []
  | fuel + 1, a, bs =>
    if bs = [] then [] else
      let k := m - a % m
      (a, bs.take k) :: cutsAt m fuel (a + k) (bs.drop k)

/-- Max Payload Size of a port in bytes, as function 0 of it sets it (R67). -/
def mpsBytes (s : State) (port : Nat) : Nat := 128 * 2 ^ min (fnState s ⟨port, 0⟩).mps.toNat 2

/-- The TLPs of a host write: a completion record is one write (R151), any other is cut at Max Payload Size. -/
def hostTlps (s : State) (port : Nat) (kind : HostWr) (addr : Word) (data : List Byte) : List (Word × List Byte) :=
  if kind = .completion then [(addr, data)]
  else (cutsAt (mpsBytes s port) (data.length / 128 + 2) addr.toNat data).map fun p => (BitVec.ofNat 64 p.1, p.2)

/-- A posted write to host memory for a context (R93). -/
def hostWrite (s : State) (c : BitVec 12) (port : Nat) (kind : HostWr) (addr : Word) (data : List Byte) : State :=
  let x := ctxOf s c
  let fn := ctxFn s c
  let data? := decide (kind = .result)
  let ps := ctxPasid s c
  each (fun s p => emit s (.hostWrite port fn.vf kind p.1 p.2 ps (x.roData && data?) (x.idoData && data?)))
    (updHost s port fun h => { h with sent := h.sent + 1 }) (hostTlps s port kind addr data)

/-! ### Function resets that wait (R107) -/

/-- An FLR of a function waits for a window write that was received before it. -/
def flrWaits (s : State) (fn : Fn) (before : Nat) : Bool :=
  s.wws.any fun w => decide (w.1 < before ∧ w.2.port = fn.port ∧ (fn.vf = 0 ∨ w.2.vf = fn.vf))

/-- The FLRs of a port whose window writes have all ended are complete. -/
def flrSettle (s : State) (port : Nat) : State :=
  each (fun s f =>
    match f.2.flr with
    | some n =>
      if flrWaits s ⟨port, f.1⟩ n then s else emit (updFn s ⟨port, f.1⟩ fun f => { f with flr := none }) (.flrDone ⟨port, f.1⟩)
    | none => s) s (hostPort s port).fns

/-! ### Sources of the fault collector -/

/-- A source ID (R438). -/
def srcId (unit inst kind : Nat) : BitVec 16 := BitVec.ofNat 16 (unit * 2048 + inst * 16 + kind)

/-- The kinds of each unit: base class and scope (R439). -/
def srcKinds : Nat → List (Nat × Nat)
  | 1 => [(0, 1), (0, 0), (0, 0), (2, 0), (0, 3), (1, 3), (2, 3), (0, 3)]
  | 2 => [(0, 0), (0, 0)]
  | 3 => [(0, 0), (0, 0), (0, 0), (0, 0), (2, 0), (3, 3)]
  | 4 => [(0, 0), (0, 1), (1, 3)]
  | 5 => [(0, 0), (0, 0), (1, 3)]
  | 6 => [(0, 0), (2, 3), (1, 3), (2, 0)]
  | 7 => [(0, 0), (1, 3), (3, 3)]
  | 8 => [(0, 3), (1, 3), (0, 3), (2, 3)]
  | 9 => [(0, 3), (0, 1)]
  | 10 => [(0, 0), (1, 3), (3, 3), (2, 2)]
  | 11 => [(2, 2), (0, 1)]
  | 12 => [(0, 1), (2, 3)]
  | 13 => [(2, 3)]
  | 14 => [(0, 3)]
  | 15 => [(3, 3), (0, 1), (3, 3)]
  | 16 => [(0, 3)]
  | 17 => [(4, 3)]
  | _ => []

/-- Gweloty ports of each class, in the class order of R34. -/
def gwCounts (b : Build) : List Nat :=
  [b.lanes, b.keySlices / 2, ceilDiv b.pageSlices 4, ceilDiv b.channels 16, ceilDiv b.channels 16,
    b.hostPorts.length, b.homeSlices]

/-- The first Gweloty port of a class: 0 pooling, 1 key, 2 walker, 3 mover read, 4 mover write, 5 ingest, 6 home. -/
def gwBase (b : Build) (cls : Nat) : Nat := ((gwCounts b).take cls).foldl (· + ·) 0

/-- All Gweloty ports. -/
def gwTotal (b : Build) : Nat := (gwCounts b).foldl (· + ·) 0

/-- The instance of a unit exists in the build (R438, R439). -/
def srcInst (b : Build) (unit inst : Nat) : Bool :=
  match unit with
  | 1 | 2 => decide (inst < b.hostPorts.length)
  | 4 => decide (inst < b.pageSlices)
  | 5 => decide (inst < b.keySlices / 2)
  | 6 => decide (inst < b.lanes / 4)
  | 7 => decide (inst < 2)
  | 8 => decide (inst < b.brambles.length)
  | 9 => decide (inst = 0 ∧ b.brambles ≠ [])
  | 10 => decide (inst < b.homeSlices)
  | 11 => decide (inst < b.corePorts)
  | 12 => decide (inst < b.tsPorts)
  | 13 => decide (inst < gwTotal b)
  | 14 => match inst with
    | 0 => decide (0 < b.pageSlices)
    | 1 => decide (0 < b.keySlices)
    | 2 => decide (0 < b.lanes)
    | 3 => decide (b.brambles ≠ [])
    | _ => false
  | 3 | 15 | 16 | 17 => decide (inst = 0)
  | _ => false

/-- Base class and scope of a source of the build. -/
def srcBase (b : Build) (src : BitVec 16) : Option (Nat × Nat) :=
  let v := src.toNat
  if srcInst b (v / 2048) (v / 16 % 128) then (srcKinds (v / 2048))[v % 16]? else none

/-- The settings of a source after reset (R445). -/
def srcReset (base : Nat) : Src := { n := if base = 1 then 0x40 else 0 }

/-- The settings and counting state of a source. -/
def srcOf (s : State) (base : Nat) (src : BitVec 16) : Src := Tab.get (srcReset base) s.fc.srcs src.toNat

def setSrc (s : State) (base : Nat) (src : BitVec 16) (x : Src) : State :=
  { s with fc := { s.fc with srcs := Tab.set (srcReset base) s.fc.srcs src.toNat x } }

/-- Counting and promotion of one event (R444): the source afterwards and the class reported. -/
def countEvent (x : Src) (base now : Nat) : Src × Nat :=
  let x1 := if x.count = 0 ∨ x.w.toNat ≤ now - x.start then { x with start := now, count := 0 } else x
  let x2 := { x1 with count := BitVec.ofNat 8 (min (x1.count.toNat + 1) 0xFF) }
  let x3 := if x2.n ≠ 0 ∧ x2.count = x2.n ∧ base + x2.promo.toNat < x2.limit.toNat
    then { x2 with promo := x2.promo + 1, count := 0 } else x2
  (x3, if x3.limit.toNat ≤ base then base else min (base + x3.promo.toNat) x3.limit.toNat)

/-! ### Records (R446 to R451) -/

def recValid (s : State) (n : Nat) : Bool := s.fc.valid.getLsbD n
def recAt (s : State) (n : Nat) : Rec := Tab.get {} s.fc.recs n

/-- The valid record of a source. -/
def recOf (s : State) (src : BitVec 16) : Option Nat :=
  (List.range 32).find? fun n => recValid s n && decide ((recAt s n).source = src)

/-- DETAIL of a BUS_ERROR completion (R151). -/
def recDetail (s : State) (src : BitVec 16) : BitVec 32 :=
  match recOf s src with
  | some n => BitVec.ofNat 32 n
  | none => 0xFFFFFFFF

def setRec (s : State) (n : Nat) (r : Rec) : State :=
  { s with fc := { s.fc with recs := Tab.set {} s.fc.recs n r, valid := s.fc.valid ||| (1#32 <<< n) } }

def bumpOverflow (s : State) : State := { s with fc := { s.fc with overflow := s.fc.overflow + 1 } }

/-- A fresh record of an event (R446, R448). -/
def newRec (s : State) (ev : Event) (cls scope : Nat) (inj : Bool) (mid : Byte) : Rec :=
  { address := ev.address, mid := mid, access := ev.access, source := ev.source, cls := BitVec.ofNat 3 cls
    scope := BitVec.ofNat 2 scope, detail := ev.detail, info := ev.info, ctx := ev.ctx.getD 0
    part := ev.part.getD 0, ctxv := ev.ctx.isSome, partv := ev.part.isSome, inj := inj, count := 1
    first := tickWord s, firstEp := s.epoch, last := tickWord s, lastEp := s.epoch, queue := ev.queue, head := ev.head }

/-- The valid record of class NOTE or CORRECTED with the oldest FIRST (R450). -/
def oldestMinor (s : State) : Option Nat :=
  (List.range 32).foldl (fun best n =>
    if recValid s n && decide ((recAt s n).cls.toNat ≤ 1) then
      match best with
      | none => some n
      | some m => if (recAt s n).first.toNat < (recAt s m).first.toNat then some n else some m
    else best) none

/-- Record an event of the given class: the state, and the record written or raised (R447 to R450). -/
def recordEvent (s : State) (ev : Event) (cls scope : Nat) (inj : Bool) (mid : Byte) : State × Option Nat :=
  match recOf s ev.source with
  | some n =>
    let r := recAt s n
    let top := decide (r.count.toNat + 1 ≥ 0x7FFFFFFF)
    let r1 := { r with count := if r.count.toNat < 0x7FFFFFFF then r.count + 1 else r.count, ovf := r.ovf || top
                       last := tickWord s, lastEp := s.epoch }
    if r.cls.toNat < cls then
      (setRec s n { r1 with cls := BitVec.ofNat 3 cls, scope := BitVec.ofNat 2 scope }, some n)
    else (setRec s n r1, none)
  | none =>
    match (List.range 32).find? fun n => !recValid s n with
    | some n => (setRec s n (newRec s ev cls scope inj mid), some n)
    | none =>
      if 3 ≤ cls then
        match oldestMinor s with
        | some n => (setRec (bumpOverflow s) n (newRec s ev cls scope inj mid), some n)
        | none => (bumpOverflow s, none)
      else (bumpOverflow s, none)

/-- The message that tells of a record (R451). -/
def recordMsix (s : State) (n : Nat) : State :=
  let r := recAt s n
  if r.ctxv then msix s (ctxFn s r.ctx) 0 else msixPfs s

/-! ### Device memory: bytes, poison, indeterminate granules (R37, R503) -/

/-- The canonical form of memory: addresses, poisoned lines and indeterminate granules rise strictly, and no byte is
listed with the value that an unlisted byte reads as. -/
def Memory.wf (m : Memory) : Bool := Tab.wf 0 m.cells && Tab.rises m.poison && Tab.wf [] m.indet

/-- The 8 B granule as it stands in the cells. -/
def Memory.granule (m : Memory) (g : Nat) : Word :=
  BitVec.ofNat 64 (leNat ((List.range 8).map fun i => Tab.get 0 m.cells (8 * g + i)))

/-- The value that a read sees in a granule: any of its values while it is indeterminate (R503). -/
def Memory.seen (m : Memory) (free : Nat) (g : Nat) : Word :=
  let alts := Tab.get [] m.indet g
  if alts = [] then m.granule g
  else (m.granule g :: alts).getD ((Config.freeWord free g).toNat % (alts.length + 1)) (m.granule g)

/-- One byte as a read sees it. -/
def Memory.byte (m : Memory) (free : Nat) (a : Nat) : Byte :=
  match Tab.find? m.indet (a / 8) with
  | none => Tab.get 0 m.cells a
  | some _ => BitVec.ofNat 8 ((m.seen free (a / 8)).toNat >>> (8 * (a % 8)))

/-- `n` bytes from `a` as a read sees them. -/
def Memory.bytes (m : Memory) (free : Nat) (a n : Nat) : List Byte := (range a n).map (m.byte free)

/-- Write byte `i` of a granule value. -/
def putByte (w : Word) (i : Nat) (b : Byte) : Word :=
  BitVec.ofNat 64 (leNat (patch (leBytes 8 w.toNat) i [b]))

/-- Keep an indeterminate granule only while it has a value other than the one in the cells. -/
def Memory.settle (m : Memory) (g : Nat) (alts : List Word) : Memory :=
  { m with indet := Tab.set [] m.indet g (alts.filter fun w => !decide (w = m.granule g)) }

/-- Write one byte: the cell and every other value of its granule take it. -/
def Memory.putByte (m : Memory) (a : Nat) (b : Byte) : Memory :=
  let m' := { m with cells := Tab.set 0 m.cells a b }
  match Tab.find? m.indet (a / 8) with
  | none => m'
  | some alts => m'.settle (a / 8) (alts.map fun w => Machine.putByte w (a % 8) b)

/-- Write a byte string. -/
def Memory.put (m : Memory) : Nat → List Byte → Memory
  | _, [] => m
  | a, b :: t => (m.putByte a b).put (a + 1) t

/-- A failed write (R503): each granule it touches may keep its values or show the value written. -/
def Memory.fail (m : Memory) (a : Nat) (bs : List Byte) : Memory :=
  let after := m.put a bs
  (dedupNat ((range a bs.length).map (· / 8))).foldl
    (fun x g => x.settle g (Tab.get [] m.indet g ++ after.granule g :: Tab.get [] after.indet g)) m

/-- Zero a range of bytes at once, with its poison and indeterminacy (WR_ZERO, R36). -/
def Memory.zero (m : Memory) (a n : Nat) : Memory :=
  { cells := m.cells.filter fun e => !decide (a ≤ e.1 ∧ e.1 < a + n)
    poison := m.poison.filter fun e => !decide (a ≤ 64 * e.1 ∧ 64 * e.1 + 64 ≤ a + n)
    indet := m.indet.filter fun e => !decide (a ≤ 8 * e.1 ∧ 8 * e.1 < a + n) }

/-- A clean write of a whole line clears its poison; a poisoned write sets it; a partial write leaves it. -/
def Memory.mark (m : Memory) (line n : Nat) (poison : Bool) : Memory :=
  if poison then { m with poison := Tab.insert m.poison line () }
  else if n = 64 then { m with poison := Tab.erase m.poison line }
  else m

/-- Write the bytes of one line with their poison flag. -/
def Memory.writeLine (m : Memory) (a : Nat) (bs : List Byte) (poison : Bool) : Memory :=
  (m.put a bs).mark (a / 64) bs.length poison

/-! ### The trace ring (R432) -/

/-- The first 16 bytes of a fault record (R446). -/
def recHead (r : Rec) : List Byte :=
  leBytes 8 r.address.toNat ++ [r.mid, r.access.setWidth 8] ++ leBytes 2 r.source.toNat ++
    [BitVec.ofNat 8 (r.cls.toNat + r.scope.toNat * 8), r.detail] ++ leBytes 2 r.info.toNat

/-- Write an entry into the trace ring, if its source is selected: 0 dispatch, 1 translation, 2 tile, 3 fault (log
entry 48). -/
def traceAdd (s : State) (k : Nat) (ctx : BitVec 12) (content : List Byte) : State :=
  let a := s.ps.traceBase.toNat + 32 * s.ps.tracePos
  if s.ps.traceSrc.getLsbD k && s.tp.ready && !safeState s && decide (s.tp.pwr ≠ .p3) && !offLimits s a then
    { s with
      mem := s.mem.put a (leBytes 8 s.tick ++ leBytes 4 s.epoch.toNat ++ leBytes 2 k ++ leBytes 2 ctx.toNat ++ content.take 16)
      ps := { s.ps with tracePos := (s.ps.tracePos + 1) % 2 ^ s.ps.traceLog2 } }
  else s

/-! ### The coherent domain and the safe state -/

/-- A line of device memory becomes poisoned (R384). -/
def poisonLine (s : State) (line : Nat) : State :=
  { s with mem := { s.mem with poison := Tab.insert s.mem.poison line () } }

/-- A directory entry names a near core as owner. -/
def DirEnt.coreOwned (e : DirEnt) : Bool :=
  decide (e.st ≠ .shd) && (match e.ptrs with | a :: _ => decide (a < 32) | [] => false)

/-- A hinted write that waits at the home for near cores goes to memory (R384 step 4). -/
def hintLands (s : State) (r : HomeReq) : State :=
  match r.op with
  | .hint data en =>
    let m := (List.range 64).foldl (fun (m : Memory) i =>
      if en.getD i false then m.putByte (r.addr / 64 * 64 + i) (data.getD i 0) else m) s.mem
    { s with mem := if (List.range 64).all fun i => en.getD i false then { m with poison := Tab.erase m.poison (r.addr / 64) } else m }
  | _ => s

/-- Take the coherent domain down (R384): poison the lines that near cores own, drop every line and every snoop. -/
def domainDown (s : State) (agent : Byte) : State :=
  if s.ch.st = .purging ∨ s.ch.st = .down then s else
  let owned := s.ch.dir.filter fun e => e.2.coreOwned
  let s := each (fun s e => poisonLine s e.1) s owned
  let s := each (fun s e => if e.2.stash then s else hintLands s e.2.req) s s.ch.trans
  let s := each hintLands s s.ch.queue
  { s with
    hosts := s.hosts.map fun e => (e.1, { e.2 with syncs := e.2.syncs.filter fun r => r.core.isNone })
    tu := { s.tu with wc := [] }
    ch := { s.ch with
      st := .down, agent := agent, busy := false, poisoned := s.ch.poisoned + BitVec.ofNat 64 owned.length
      dir := [], trans := [], queue := [], snps := [], held := []
      ports := s.ch.ports.map fun e => (e.1, { e.2 with hsnpQ := [], hrspQ := [], opens := [], bars := [] }) } }

/-- What entry into the safe state stops (R456): dispatched commands, window writes, copies, channel runs, bags,
remote operations, teardowns and scrubs. -/
def stopWork (s : State) : State :=
  { s with
    wws := [], cows := []
    hosts := s.hosts.map fun e => (e.1, { e.2 with fenced := [], flushes := [] })
    qe := { s.qe with cmds := [], ctxs := s.qe.ctxs.map fun e => (e.1, { e.2 with qs := e.2.qs.map fun q =>
              (q.1, { q.2 with ready := [], comps := [], reading := false }) }) }
    pa := { s.pa with tports := [] }
    mv := { s.mv with chans := s.mv.chans.map fun e => (e.1, { e.2 with st := .idle, queue := [], run := none }) }
    bl := { s.bl with reqs := [], served := [], parts := [], inbox := [] }
    ps := { s.ps with parts := s.ps.parts.map fun e =>
              (e.1, if e.2.st = .closing ∨ e.2.st = .scrubbing then { e.2 with st := .halted, scrubQ := [] } else e.2) } }

/-- Write data that is on its way at entry into the safe state carries poison in the beats not yet sent (R33); how many
beats were sent is free (log entry 78). -/
def poisonRest (s : State) : State :=
  { s with gw := s.gw.map fun p => (p.1, { p.2 with out := p.2.out.map fun e =>
      (e.1, if e.2.op = .wr then
        { e.2 with clean := some (128 * (1 + (Config.freeWord s.free (2 ^ 44 + 1024 * p.1 + e.1)).toNat % ceilDiv e.2.len 128)) }
      else e.2) }) }

/-- Link states in which a Bramble port is up. -/
def BlPort.live (p : BlPort) : Bool := decide (p.st = .active ∨ p.st = .l1)

/-- Each ACTIVE Bramble port sends one SAFE flit (R299). -/
def safeFlits (s : State) : State :=
  each (fun s p =>
    if (blPort s p).st = .active then emit (updBl s p fun b => { b with safeSent := true }) (.flit p (ctrlFlit 5 [])) else s) s
    (List.range s.build.brambles.length)

/-- Each host port reports an internal error (R456). -/
def safeAers (s : State) : State := each (fun s p => emit s (.aer p .internal)) s (List.range s.build.hostPorts.length)

/-- Enter the safe state from RUN (R456), with the class and the source that caused it. -/
def enterSafe (s : State) (c : FcClass) (src : BitVec 16) : State :=
  let s := { s with fc := { s.fc with cls := c, entrySrc := src } }
  let s := emit s (.safePin true)
  let s := safeAers (safeFlits (domainDown s 0xFF))
  let s := each flrSettle (poisonRest (stopWork s)) (List.range s.build.hostPorts.length)
  emit s (.notify (if c = .terminal then .terminal src else .fatal src) (tickWord s) s.epoch)

/-- A tile in transfer on a quad's port is aborted (R33, R46). -/
def abortTiles (s : State) : State :=
  each (fun s e => if e.2.cur.isSome then emit s (.tileAbort e.1) else s) s s.pa.tports

/-- The reaction to a class (R441, R450, R456). -/
def reactClass (s : State) (cls : Nat) (src : BitVec 16) : State :=
  if cls < 3 then s
  else match s.fc.cls with
    | .run => enterSafe (abortTiles s) (if cls = 3 then .fatal else .terminal) src
    | .fatal => if cls = 3 then s else { s with fc := { s.fc with cls := .terminal } }
    | .terminal => s

/-- The ERR_N pulse of an event at SEVERE or above (R455). -/
def pulse (s : State) (cls : Nat) : State :=
  if cls < 2 then s
  else match s.fc.pulseEnd with
    | some _ => s
    | none =>
      let s' := { s with fc := { s.fc with pulseEnd := some (s.tick + 1000200) } }
      if s.fc.drive then s' else emit s' (.errN true)

/-- Count an event at its source (R444): the state, and the class that it is reported at. -/
def countSource (s : State) (ev : Event) (base : Nat) : State × Nat :=
  let b := (srcBase s.build ev.source).elim 0 (·.1)
  let c := countEvent (srcOf s b ev.source) base s.tick
  (setSrc s b ev.source c.1, c.2)

/-- Record an event unless the records are frozen (R454). -/
def recordUnfrozen (s : State) (ev : Event) (cls scope : Nat) (inj : Bool) (mid : Byte) : State × Option Nat :=
  if s.fc.self then (s, none) else recordEvent s ev cls scope inj mid

/-- Put the record of a source into the trace ring (R432). -/
def traceRecord (s : State) (src : BitVec 16) : State :=
  match (if s.fc.self then none else recOf s src) with
  | some n => traceAdd s 3 (recAt s n).ctx (recHead (recAt s n))
  | none => s

/-- Send the message of a record that was written or raised (R451), outside the safe state. -/
def tellRecord (s : State) (n : Option Nat) : State :=
  match n with
  | some n => if safeState s then s else recordMsix s n
  | none => s

/-- Handle one event at a source with a base class and a scope (R444 to R458). -/
def collect (s : State) (ev : Event) (base scope : Nat) (inj : Bool) (mid : Byte) : State :=
  let c := countSource s ev base
  let r := recordUnfrozen c.1 ev c.2 scope inj mid
  tellRecord (reactClass (pulse (traceRecord r.1 ev.source) c.2) c.2 ev.source) r.2

/-- Report an event at the class and scope that the table of sources gives (R439). -/
def report (s : State) (ev : Event) (mid : Byte) : State :=
  match srcBase s.build ev.source with
  | none => s
  | some (base, scope) => collect s ev (if ev.quarantine then 3 else base) scope false mid

/-- Report an event that has no master ID. -/
def note (s : State) (ev : Event) : State := report s ev 0

/-! ### Device memory behind the Gweloty ports -/

/-- On whose behalf and where a request is issued: port, REQUEST source, partition, whether it reaches a system
structure (R413), the context that a report names (only R496 names one; log entry 23), and the agent of the complex that
holds the line at the home (R363); `born` is the number of the command, window write or message that it serves (R13). -/
structure Via where
  port : Nat
  src  : BitVec 16
  part : BitVec 3
  sys  : Bool
  ctx  : Option (BitVec 12)
  agent : Option Nat := none
  born  : Option Nat := none
  deriving DecidableEq, Repr

/-- The master ID of a Gweloty port (log entry 13). -/
def Via.mid (v : Via) : Byte := Config.masterId 13 v.port

/-- The 64 B lines of `n` bytes at `a`. -/
def linesOf (a n : Nat) : List Nat := if n = 0 then [] else range (a / 64) ((a + n - 1) / 64 + 1 - a / 64)

/-- How memory answers a read of a line in this step. -/
def busAt (bus : Bus) (line : Nat) : BusStatus :=
  match bus.find? fun e => e.1 = line with
  | some e => e.2
  | none => .ok

/-- How memory answers a write of a line in this step. -/
def busAtW (bus : Bus) (line : Nat) : BusStatus :=
  match bus.find? fun e => e.1 = 2 ^ 42 + line with
  | some e => e.2
  | none => busAt bus line

/-- The lines that the bus operand speaks of. -/
def busLines (bus : Bus) : List Nat := dedupNat (bus.map fun e => e.1 % 2 ^ 42)

/-- The requests that cover [a, hi): each of 64, 128, 256 or 512 B, aligned to its length (R35, R253). -/
def fetchPlan : Nat → Nat → Nat → List (Nat × Nat)
  | 0, _, _ => []
  | fuel + 1, lo, hi =>
    if hi ≤ lo then []
    else
      let fits (n : Nat) : Bool := decide (lo % n = 0 ∧ lo + n ≤ hi)
      let len := if fits 512 then 512 else if fits 256 then 256 else if fits 128 then 128 else 64
      (lo, len) :: fetchPlan fuel (lo + len) hi

def rowPlan (a n : Nat) : List (Nat × Nat) := fetchPlan (n / 64 + 2) (a / 64 * 64) ((a + n + 63) / 64 * 64)

/-- A request for a line may be issued (R412, R413, R468, R492). -/
def mayIssue (s : State) (v : Via) (line : Nat) : Bool :=
  decide (line < 2 ^ 42) && (v.sys || partCoversAt s v.part v.born (64 * line)) && !offLimits s (64 * line)

/-- The status of a read or write of a line: a read of a poisoned line answers POISON. -/
def lineStatus (s : State) (v : Via) (bus : Bus) (line : Nat) (rd : Bool) : BusStatus :=
  if !mayIssue s v line then .access
  else match (if rd then busAt bus line else busAtW bus line) with
    | .ok => if rd && (Tab.find? s.mem.poison line).isSome then .poison else .ok
    | st => st

/-- The event of a response that is not OK (R41). -/
def reqEvent (v : Via) (a : Nat) (access : BitVec 2) : Event :=
  { source := v.src, address := BitVec.ofNat 64 a, access := access, info := BitVec.ofNat 16 v.port, ctx := v.ctx
    part := if v.ctx.isSome then some v.part else none }

/-- The lowest tag of a port that is neither outstanding nor quarantined. -/
def freeTag (s : State) (port : Nat) : Option Nat :=
  let g := gwPort s port
  (List.range (s.build.tagLimit port)).find? fun t => (Tab.find? g.out t).isNone && (Tab.find? g.quar t).isNone

/-- A request misses the memory response deadline (R42): its tag is quarantined, the fault is reported once at the
DEADLINE source of the port, and the eighth quarantined tag raises FATAL there. -/
def quarantineTag (s : State) (port tag : Nat) (r : GwReq) (ev : Event) : State :=
  let s := updGw s port fun g => { g with out := Tab.erase g.out tag, quar := Tab.insert g.quar tag r }
  let e := { ev with source := srcId 13 port 0 }
  let s := report s e (Config.masterId 13 port)
  if (gwPort s port).quar.length = 8 then report s { e with quarantine := true } (Config.masterId 13 port) else s

/-- Report what follows from the status of one request: nothing for OK, DEADLINE for a missed deadline, else REQUEST. -/
def reportBus (s : State) (v : Via) (st : BusStatus) (a : Nat) (access : BitVec 2) : State :=
  match st with
  | .ok => s
  | .deadline =>
    match freeTag s v.port with
    | some t => quarantineTag s v.port t
        { op := if access = 0 then .rd else .wr, addr := a, len := 64, lo := 0, data := [], poison := false
          part := v.part, owner := .scrub 0 true, tick := s.tick } (reqEvent v a access)
    | none => report s { reqEvent v a access with source := srcId 13 v.port 0 } v.mid
  | _ => report s (reqEvent v a access) v.mid

/-- Read `n` bytes at `a`: the first status that is not OK, and the bytes (R37, R41). -/
def memRead (v : Via) (bus : Bus) (s : State) (a n : Nat) : State × BusStatus × List Byte :=
  let r := (linesOf a n).foldl (fun (x : State × BusStatus) l =>
    let st := lineStatus x.1 v bus l true
    (reportBus x.1 v st (64 * l) 0, if x.2 = .ok then st else x.2)) (s, BusStatus.ok)
  (r.1, r.2, s.mem.bytes s.free a n)

/-- The bytes of a string written at `a` that fall into a line. -/
def lineSlice (a : Nat) (bs : List Byte) (line : Nat) : Nat × List Byte :=
  let lo := max a (64 * line)
  (lo, (bs.drop (lo - a)).take (64 * line + 64 - lo))

/-- Write a byte string at `a`, line by line: the first status that is not OK. A request that is issued and fails
leaves its bytes indeterminate (R503; log entry 21). -/
def memWrite (v : Via) (bus : Bus) (s : State) (a : Nat) (bs : List Byte) (poison : Bool) : State × BusStatus :=
  (linesOf a bs.length).foldl (fun (x : State × BusStatus) l =>
    let s := x.1
    let sl := lineSlice a bs l
    let st := lineStatus s v bus l false
    let m := if st = .ok then s.mem.writeLine sl.1 sl.2 poison
      else if mayIssue s v l then s.mem.fail sl.1 sl.2 else s.mem
    (reportBus { s with mem := m } v st (64 * l) 1, if x.2 = .ok then st else x.2)) (s, BusStatus.ok)

end Sys2Proof.Machine
end

