-- ==== Sys2Proof/Machine/Operands.lean ====
section
/-! DEFINITION. The layouts of structures in memory and of command words: handles, object descriptors, context entries,
queue descriptors, table descriptors, version lines, page table entries, command entries. -/

namespace Sys2Proof.Machine

open Sys2Proof

/-! ### Handles (R140) -/

def hGen (h : Word) : Nat := bits h 63 48
def hPart (h : Word) : Nat := bits h 47 45
def hRsv (h : Word) : Nat := bits h 44 32
def hIndex (h : Word) : Nat := bits h 31 0
def mkHandle (gen part index : Nat) : Word := BitVec.ofNat 64 (gen * 2 ^ 48 + part * 2 ^ 45 + index)

/-! ### Object descriptors (R141) -/

/-- An object descriptor as read. -/
structure Obj where
  st   : Nat
  ty   : Nat
  ctx  : BitVec 12
  part : BitVec 3
  gen  : Nat
  va   : Nat
  size : Nat
  pins : Nat
  raw  : List Byte
  deriving DecidableEq, Repr

def objOf (bs : List Byte) : Obj :=
  let w := BitVec.ofNat 64 (leAt bs 0 8)
  { st := bits w 2 0, ty := bits w 7 4, ctx := BitVec.ofNat 12 (bits w 19 8), part := BitVec.ofNat 3 (bits w 22 20)
    gen := bits w 63 48, va := leAt bs 8 8 % 2 ^ 57, size := leAt bs 16 8, pins := leAt bs 24 4, raw := bs }

/-- The first word of a descriptor. -/
def Obj.word0 (o : Obj) : Nat :=
  o.st + o.ty * 2 ^ 4 + o.ctx.toNat * 2 ^ 8 + o.part.toNat * 2 ^ 20 + o.gen * 2 ^ 48

/-- The bytes of a descriptor after a change of its hardware fields. -/
def Obj.bytes (o : Obj) : List Byte :=
  patch (patch o.raw 0 (leBytes 8 (o.word0 + leAt o.raw 0 8 % 16 / 8 * 8 + leAt o.raw 0 6 / 2 ^ 23 * 2 ^ 23))) 24
    (leBytes 4 o.pins)

def stFree : Nat := 0
def stLive : Nat := 1
def stDraining : Nat := 2
def stTorn : Nat := 3
def tyBuffer : Nat := 0
def tyTable : Nat := 1
def tyEvent : Nat := 2
def tyProgram : Nat := 3

/-- A reserved bit of the common part of a descriptor is set (R141). -/
def objReserved (bs : List Byte) : Bool :=
  let w := BitVec.ofNat 64 (leAt bs 0 8)
  decide (bit w 3 = true ∨ bits w 47 23 ≠ 0 ∨ leAt bs 8 8 / 2 ^ 57 ≠ 0 ∨ leAt bs 28 4 ≠ 0)

/-! ### Table descriptors and version lines (R221, R225) -/

structure TableDesc where
  keyVa     : Nat
  regionVa  : Nat
  vlineVa   : Nat
  rows      : Nat
  rowBytes  : Nat
  regionLog2 : Nat
  deriving DecidableEq, Repr

def tableDesc (bs : List Byte) : TableDesc :=
  { keyVa := leAt bs 32 8 % 2 ^ 57, regionVa := leAt bs 40 8 % 2 ^ 57, vlineVa := leAt bs 48 8 % 2 ^ 57
    rows := leAt bs 56 4, rowBytes := leAt bs 60 2, regionLog2 := byteAt bs 62 % 64 }

/-- CREATE refuses a TABLE descriptor with FORMAT (R222), apart from what its version line needs. -/
def tableBad (bs : List Byte) : Bool :=
  let t := tableDesc bs
  decide (leAt bs 32 8 / 2 ^ 57 ≠ 0 ∨ leAt bs 40 8 / 2 ^ 57 ≠ 0 ∨ leAt bs 48 8 / 2 ^ 57 ≠ 0 ∨ byteAt bs 62 / 64 ≠ 0
    ∨ byteAt bs 63 ≠ 0 ∨ t.rows = 0 ∨ t.rowBytes < 16 ∨ 65520 < t.rowBytes ∨ t.rowBytes % 16 ≠ 0
    ∨ t.regionLog2 < 21 ∨ 45 < t.regionLog2 ∨ t.regionVa % 2 ^ t.regionLog2 ≠ 0 ∨ t.vlineVa % 64 ≠ 0
    ∨ leAt bs 8 8 ≠ t.regionVa ∨ leAt bs 16 8 ≠ t.rows * t.rowBytes ∨ 2 ^ t.regionLog2 < t.rows * t.rowBytes)

/-- A version line as read. -/
structure VLine where
  ver      : Nat
  slot     : Bool
  pending  : Bool
  draining : Bool
  opening  : Bool
  aborting : Bool
  pins0    : Nat
  pins1    : Nat
  cow      : Nat
  flips    : Nat
  retires  : Nat
  retEvent : Word
  retValue : Word
  deriving DecidableEq, Repr

def vlineOf (bs : List Byte) : VLine :=
  let f := byteAt bs 4
  { ver := leAt bs 0 4 % 2 ^ 30, slot := f.testBit 0, pending := f.testBit 1, draining := f.testBit 2
    opening := f.testBit 3, aborting := f.testBit 4, pins0 := leAt bs 8 4, pins1 := leAt bs 12 4, cow := leAt bs 16 8
    flips := leAt bs 24 8, retires := leAt bs 32 8, retEvent := BitVec.ofNat 64 (leAt bs 40 8)
    retValue := BitVec.ofNat 64 (leAt bs 48 8) }

def VLine.bytes (v : VLine) : List Byte :=
  leBytes 4 v.ver ++ leBytes 4 (flagAt v.slot 0 + flagAt v.pending 1 + flagAt v.draining 2 + flagAt v.opening 3 +
    flagAt v.aborting 4) ++ leBytes 4 v.pins0 ++ leBytes 4 v.pins1 ++ leBytes 8 v.cow ++ leBytes 8 v.flips ++
    leBytes 8 v.retires ++ leBytes 8 v.retEvent.toNat ++ leBytes 8 v.retValue.toNat ++ leBytes 8 0

def VLine.pins (v : VLine) (slot : Bool) : Nat := if slot then v.pins1 else v.pins0
def VLine.setPins (v : VLine) (slot : Bool) (n : Nat) : VLine :=
  if slot then { v with pins1 := n } else { v with pins0 := n }

/-- The floor of R194 (R225). -/
def VLine.floor (v : VLine) : Nat := if v.draining then v.ver - 1 else v.ver

/-! ### Context entries and queue descriptors (R111, R112) -/

/-- A reserved bit of a context entry is set (R111, R157, R425; log entry 24). -/
def entryReserved (bs : List Byte) : Bool :=
  let w := BitVec.ofNat 64 (leAt bs 0 8)
  decide (bit w 7 = true ∨ bit w 15 = true ∨ bits w 63 40 ≠ 0 ∨ byteAt bs 24 / 32 ≠ 0 ∨ leAt bs 25 7 ≠ 0
    ∨ bits (BitVec.ofNat 64 (leAt bs 8 8)) 11 1 ≠ 0 ∨ bits (BitVec.ofNat 64 (leAt bs 8 8)) 63 48 ≠ 0
    ∨ leAt bs 40 24 ≠ 0 ∨ bits (BitVec.ofNat 64 (leAt bs 32 8)) 62 10 ≠ 0)

/-- The complex's own mark of a write-back, in the first byte of the SAVE area (R113; log entry 25). -/
def saveMark : Byte := 0xA5

def entrySaved (bs : List Byte) : Bool := decide (bs.getD 344 0 = saveMark)

def qdescOf (b : List Byte) : QDesc :=
  { ringVa := BitVec.ofNat 57 (leAt b 0 8), ringLog2 := BitVec.ofNat 5 (byteAt b 8), en := (byteAt b 8).testBit 7
    cls := BitVec.ofNat 2 (byteAt b 9), ncore := (byteAt b 9).testBit 7, quantum := BitVec.ofNat 16 (leAt b 10 2)
    vector := BitVec.ofNat 11 (leAt b 12 2), msi := (leAt b 12 2).testBit 15, cqLog2 := BitVec.ofNat 5 (byteAt b 14)
    cqHost := (byteAt b 14).testBit 7, cqAddr := BitVec.ofNat 64 (leAt b 16 8) }

/-- ENABLE refuses a queue descriptor with FORMAT (R112, R115); bytes 24 to 31 of a fresh entry are ignored. -/
def qdescBad (b : List Byte) (saved : Bool) : Bool :=
  let q := qdescOf b
  let h := BitVec.ofNat 64 (leAt b 24 8)
  decide (leAt b 0 8 / 2 ^ 57 ≠ 0 ∨ byteAt b 8 / 32 % 4 ≠ 0 ∨ byteAt b 9 / 4 % 32 ≠ 0 ∨ leAt b 12 2 / 2 ^ 11 % 16 ≠ 0
      ∨ byteAt b 14 / 32 % 4 ≠ 0 ∨ byteAt b 15 ≠ 0 ∨ (saved = true ∧ (bits h 31 17 ≠ 0 ∨ bits h 63 49 ≠ 0))) ||
    (q.en && decide (q.ringLog2.toNat < 6 ∨ 16 < q.ringLog2.toNat ∨ q.cqLog2.toNat < 6 ∨ 16 < q.cqLog2.toNat
      ∨ q.quantum = 0 ∨ q.ringVa.toNat % 4096 ≠ 0 ∨ q.cqAddr.toNat % 4096 ≠ 0))

/-- Bytes of queue descriptor `i` in an entry. -/
def qdescBytes (bs : List Byte) (i : Nat) : List Byte := (bs.drop (64 + 32 * i)).take 32

/-- The bytes 24 to 31 of a descriptor: HEAD, PHASE, CQ_TAIL, CQ_PHASE. HEAD is that of the oldest command that is not
dispatched (log entry 26). -/
def qsaveBytes (q : QState) : List Byte :=
  let hd := match q.ready with
    | r :: _ => r.head
    | [] => q.head
  let ph := match q.ready with
    | r :: _ => if q.head.toNat < r.head.toNat then !q.phase else q.phase
    | [] => q.phase
  leBytes 8 (hd.toNat + flagAt ph 16 + q.cqTail.toNat * 2 ^ 32 + flagAt q.cqPhase 48)

/-- A queue as ENABLE starts it: from the saved fields, or fresh (R113). -/
def queueStart (b : List Byte) (saved : Bool) (session : BitVec 32) (seq : Word) : QState :=
  let h := BitVec.ofNat 64 (leAt b 24 8)
  if saved then
    { desc := qdescOf b, head := BitVec.ofNat 16 (bits h 15 0), phase := bit h 16, tail := BitVec.ofNat 16 (bits h 15 0)
      cqTail := BitVec.ofNat 16 (bits h 47 32), cqPhase := bit h 48, session := session, seq := seq }
  else { desc := qdescOf b, phase := true, cqPhase := true, session := session, seq := seq }

/-! ### Page table entries and TT_ROOT (R157, R158) -/

def pteV (p : Word) : Bool := bit p 0
def pteR (p : Word) : Bool := bit p 1
def pteW (p : Word) : Bool := bit p 2
def pteM (p : Word) : Bool := bit p 3
def pteMT (p : Word) : Nat := bits p 5 4
def pteRM (p : Word) : Bool := bit p 6
def pteLF (p : Word) : Bool := bit p 7
def pteVS (p : Word) : Bool := bit p 8
def ptePN (p : Word) : Bool := bit p 9
def pteFrame (p : Word) : Nat := bits p 57 12
def pteNode (p : Word) : Nat := bits p 57 48
def pteNext (p : Word) : Nat := bits p 47 12 * 4096

/-- Set or clear a bit of an entry. -/
def pteSet (p : Word) (i : Nat) (b : Bool) : Word :=
  if b then p ||| (1#64 <<< i) else p &&& ~~~(1#64 <<< i)

/-- log2 of the reach of an entry at a level. -/
def lvlLog2 (level : Nat) : Nat := 12 + 9 * level

/-- The frame-pool class of a page size (R173), 0 to 3. -/
def sizeClass (sz : Nat) : Nat := (sz - 12) / 9

/-! ### Command entries (R131 to R133) -/

def RawCmd.byte (c : RawCmd) (i : Nat) : Nat := byteAt c.ent i
def RawCmd.opcode (c : RawCmd) : Nat := c.byte 0
def RawCmd.flags (c : RawCmd) : Nat := c.byte 2
def RawCmd.cr (c : RawCmd) : Bool := c.flags.testBit 0
def RawCmd.irq (c : RawCmd) : Bool := c.flags.testBit 1
def RawCmd.barrier (c : RawCmd) : Bool := c.flags.testBit 2
def RawCmd.soft (c : RawCmd) : Bool := c.flags.testBit 3
def RawCmd.chain (c : RawCmd) : Nat := c.byte 3
def RawCmd.user (c : RawCmd) : BitVec 32 := BitVec.ofNat 32 (leAt c.ent 4 4)
/-- Word W`i`. -/
def RawCmd.w (c : RawCmd) (i : Nat) : Word := BitVec.ofNat 64 (leAt c.ent (8 * i) 8)
/-- The pips of a chain in byte format (R132). -/
def RawCmd.pips (c : RawCmd) : List Byte := (c.conts.map fun e => (e.drop 4).take 60).flatten
/-- The keys of a chain in key format (R132). -/
def RawCmd.keys (c : RawCmd) : List Word :=
  (c.conts.map fun e => (List.range 7).map fun i => BitVec.ofNat 64 (leAt e (8 + 8 * i) 8)).flatten

/-- The queue ID of a command (R151). -/
def queueId (ctx : BitVec 12) (q : Nat) : BitVec 15 := BitVec.ofNat 15 (ctx.toNat * 8 + q)

/-- The opcodes of R133. -/
def opNop : Nat := 0x00
def opWritePips : Nat := 0x01
def opCopy : Nat := 0x02
def opRunChannel : Nat := 0x03
def opSignal : Nat := 0x04
def opWait : Nat := 0x05
def opFlush : Nat := 0x06
def opMap : Nat := 0x08
def opUnmap : Nat := 0x09
def opObjectFree : Nat := 0x0A
def opBagPool : Nat := 0x10
def opKeyAdmit : Nat := 0x11
def opKeyEvict : Nat := 0x12
def opOpenVersion : Nat := 0x13
def opTableFlip : Nat := 0x14
def opRemoteWrite : Nat := 0x18
def opRemoteSignal : Nat := 0x19
def opResume : Nat := 0x1C
def opAbort : Nat := 0x1D

/-- Commands that are dispatched only behind every earlier command of their queue (R129). -/
def RawCmd.fenced (c : RawCmd) : Bool :=
  c.barrier || [opSignal, opWait, opFlush, opResume, opAbort].contains c.opcode

end Sys2Proof.Machine
end

