-- ==== Sys2Proof/Machine/Flags.lean ====
section
/-! DEFINITION. Status codes, result codes and the words that the operation registers read as. -/

namespace Sys2Proof.Machine

open Sys2Proof

/-! ### Command statuses (R138) -/

def stOk : Byte := 0x00
def stUnsupported : Byte := 0x01
def stBadOpcode : Byte := 0x02
def stBadChain : Byte := 0x03
def stBadField : Byte := 0x04
def stBadHandle : Byte := 0x05
def stStaleHandle : Byte := 0x06
def stTornObj : Byte := 0x07
def stTranslation : Byte := 0x08
def stBusError : Byte := 0x09
def stFlushFailed : Byte := 0x0A
def stRemote : Byte := 0x0B
def stTimeout : Byte := 0x0C
def stState : Byte := 0x0D
def stAborted : Byte := 0x0E
def stKeyFault : Byte := 0x0F
def stCtrl : Byte := 0x10

/-- Statuses that do not fault the issuing context (R138). -/
def harmless (st : Byte) : Bool := [stOk, stAborted, stFlushFailed].contains st

/-! ### Results of operation registers -/

def rOk : Byte := 0x00
def rState : Byte := 0x01
def rPartition : Byte := 0x02
def rFormat : Byte := 0x03
def rNoSlot : Byte := 0x04
def rExhausted : Byte := 0x04
def rNoCredits : Byte := 0x04
def rBus : Byte := 0x05
def rSystem : Byte := 0x05
def rDebug : Byte := 0x06
def rLifecycle : Byte := 0x07
def rMgmt : Byte := 0x08
def rNoRange : Byte := 0x09
def rRefused : Byte := 0x0A
def rBusy : Byte := 0x0B

/-- BUSY in bit 63 and RESULT in bits 55:48. -/
def OpReg.word (r : OpReg) : Nat := flagAt r.busy 63 + r.result.toNat * 2 ^ 48

def OpReg.done (r : Byte) : OpReg := ⟨false, r⟩
def OpReg.run : OpReg := ⟨true, 0⟩

/-! ### Aperture errors (HP_AP_STAT.ERR) -/

def aeOrder : Byte := 0x01
def aeBounds : Byte := 0x02
def aePoisoned : Byte := 0x03
def aeTag : Byte := 0x04
def aeSeq : Byte := 0x05
def aeSession : Byte := 0x06
def aeFormat : Byte := 0x07
def aeMeasured : Byte := 0x08
def aeTranslation : Byte := 0x09
def aeAbandoned : Byte := 0x0A
def aeRevoked : Byte := 0x0B
def aeEnable : Byte := 0x0C
def aeExhausted : Byte := 0x0D
def aeBus : Byte := 0x0E

/-! ### Fault kinds (R177) -/

def fkNotValid : Byte := 0x01
def fkPermission : Byte := 0x02
def fkFormat : Byte := 0x03
def fkShared : Byte := 0x04
def fkNoFrame : Byte := 0x05
def fkRemote : Byte := 0x06
def fkType : Byte := 0x07
def fkAddress : Byte := 0x08
def fkMeasured : Byte := 0x09
def fkWalkBus : Byte := 0x0A

/-! ### State codes that registers show -/

def ApState.code : ApState → Nat
  | .idle => 0 | .opened => 1 | .closed => 2 | .failed => 3
def CtxSt.code : CtxSt → Nat
  | .disabled => 0 | .enabled => 1 | .faulted => 2 | .aborting => 3
def FltSt.code : FltSt → Nat
  | .free => 0 | .held => 1 | .retried => 2 | .aborted => 3 | .expired => 4
def DomSt.code : DomSt → Nat
  | .up => 0 | .purging => 1 | .down => 2 | .restoring => 3
def PartSt.code : PartSt → Nat
  | .opened => 0 | .locked => 1 | .closing => 2 | .scrubbing => 3 | .halted => 4
def FcClass.code : FcClass → Nat
  | .run => 0 | .fatal => 1 | .terminal => 2
def Pwr.code : Pwr → Nat
  | .p0 => 0 | .p1 => 1 | .p2 => 2 | .p3 => 3
def KeySt.code : KeySt → Nat
  | .empty => 0 | .active => 1 | .revoked => 2

end Sys2Proof.Machine
end

