-- ==== Sys2Proof/Machine/Home.lean ====
section
/-! DEFINITION. The coherence home (spec file 12): directory, transactions, snoops and their answers, and the reads,
writes and atomics that the complex itself performs at the home. -/

namespace Sys2Proof.Machine

open Sys2Proof

/-! ### Slices, entries and agents -/

/-- The home slice of a line (R365). -/
def homeSlice (s : State) (line : Nat) : Nat :=
  ((line ^^^ (line >>> 12) ^^^ (line >>> 24)) % s.build.homeSlices)

/-- The route of a request of the home for a line. -/
def homeVia (s : State) (part : Option (BitVec 3)) (ctx : Option (BitVec 12)) (line : Nat) : Via :=
  let k := homeSlice s line
  { port := gwBase s.build 6 + k, src := srcId 10 k 0, part := part.getD 0, sys := part.isNone, ctx := ctx }

def dirEnt (s : State) (line : Nat) : Option DirEnt := Tab.find? s.ch.dir line

/-- Set or drop a directory entry, and note its use for R368. -/
def setDir (s : State) (line : Nat) (e : Option DirEnt) : State :=
  match e with
  | none => { s with ch := { s.ch with dir := Tab.erase s.ch.dir line } }
  | some e => { s with nextId := s.nextId + 1
                       ch := { s.ch with dir := Tab.insert s.ch.dir line { e with used := s.nextId } } }

/-- A near-core port takes part in coherence (R53). -/
def corePresent (s : State) (p : Nat) : Bool := decide (p < 32) && s.ch.present.getLsbD p

/-- The agents that a snoop of the entry reaches (R367). -/
def DirEnt.agents (e : DirEnt) (s : State) (but : Nat) : List Nat :=
  (if e.bcast then (List.range 32).filter (corePresent s) ++ [32, 33, 34] else e.ptrs).filter (· ≠ but)

/-- Name an agent as one more sharer (R366, R367). -/
def DirEnt.addSharer (e : DirEnt) (a : Nat) : DirEnt :=
  if e.ptrs.contains a then e
  else if e.ptrs.length < 3 then { e with ptrs := e.ptrs ++ [a] } else { e with bcast := true }

def excEnt (a : Nat) : DirEnt := ⟨.exc, [a], false, none, 0⟩
def shdEnt (l : List Nat) : Option DirEnt := if l = [] then none else some ⟨.shd, l, false, none, 0⟩

/-- The walk cache gives up a line (R166). -/
def dropWalkLine (s : State) (line : Nat) : State :=
  { s with tu := { s.tu with wc := s.tu.wc.filter fun w => w.line ≠ line } }

/-! ### Snoops and responses with their credits (R50, R377) -/

/-- The key of a snoop in the table of outstanding snoops. -/
def snoopKey (core sid : Nat) : Nat := core * 1024 + sid

/-- The lowest snoop ID that a port has free. -/
def freeSid (s : State) (core : Nat) : Nat :=
  ((List.range 1024).find? fun i => (Tab.find? s.ch.snps (snoopKey core i)).isNone).getD 0

/-- Send a snoop or a STASH offer, or let it wait for an HSNP credit. -/
def sendSnoop (s : State) (core line kind : Nat) (bcast : Bool) : State × Nat :=
  let sid := freeSid s core
  let sn : Snoop := ⟨core, line, kind⟩
  let s := { s with ch := { s.ch with
    snps := Tab.insert s.ch.snps (snoopKey core sid) sn, snoops := s.ch.snoops + 1
    bcasts := if bcast then s.ch.bcasts + 1 else s.ch.bcasts } }
  if 0 < (corePort s core).hsnp then
    (emit (updCore s core fun c => { c with hsnp := c.hsnp - 1 }) (.hsnp core kind sid line), sid)
  else (updCore s core fun c => { c with hsnpQ := c.hsnpQ ++ [(sid, sn)] }, sid)

/-- Answer every BARRIER of a port whose earlier requests have ended (R395). -/
def answerBarriers (s : State) (core : Nat) : State :=
  let c := corePort s core
  let done (b : HeldBar) : Bool := b.waits.all fun t => !(c.opens.any fun o => o.txn = t)
  let s := updCore s core fun c => { c with bars := c.bars.filter fun b => !done b }
  (c.bars.filter done).foldl (fun s b =>
    let r : HResp := { opc := 5, id := b.txn.toNat }
    if 0 < (corePort s core).hrsp then
      emit (updCore s core fun c => { c with hrsp := c.hrsp - 1 }) (.hrsp core r)
    else updCore s core fun c => { c with hrspQ := c.hrspQ ++ [(r, none)] }) s

/-- A request of a port has ended. -/
def closeReq (s : State) (core : Nat) (txn : Byte) : State :=
  answerBarriers (updCore s core fun c => { c with opens := c.opens.filter fun o => o.txn ≠ txn }) core

/-- The transaction of a line ends (R375). A hinted write is no request of the port it names, so it closes none. -/
def endTrans (s : State) (line : Nat) : State :=
  match Tab.find? s.ch.trans line with
  | none => s
  | some t =>
    let s := { s with ch := { s.ch with trans := Tab.erase s.ch.trans line } }
    match t.req.op with
    | .hint _ _ => s
    | _ => if t.req.port < 32 then closeReq s t.req.port t.req.txn else s

/-- Send the response that ends the transaction of a line, or let it wait for an HRSP credit. -/
def respond (s : State) (core line : Nat) (r : HResp) : State :=
  if 0 < (corePort s core).hrsp then
    endTrans (emit (updCore s core fun c => { c with hrsp := c.hrsp - 1 }) (.hrsp core r)) line
  else
    let s := updCore s core fun c => { c with hrspQ := c.hrspQ ++ [(r, some line)] }
    { s with ch := { s.ch with trans := Tab.modify s.ch.trans line fun t => { t with resp := true } } }

/-- A response to a request that has no transaction on a line. -/
def respondFree (s : State) (core : Nat) (r : HResp) : State :=
  let s := if 0 < (corePort s core).hrsp then
      emit (updCore s core fun c => { c with hrsp := c.hrsp - 1 }) (.hrsp core r)
    else updCore s core fun c => { c with hrspQ := c.hrspQ ++ [(r, none)] }
  closeReq s core (BitVec.ofNat 8 r.id)

/-! ### What a request needs and does -/

/-- A requester that the directory names as a sharer, or as the owner in O, of a line in SHD or OWN (R373). -/
def DirEnt.upgrades (e : DirEnt) (r : HomeReq) : Bool :=
  e.ptrs.contains r.port && decide (e.st ≠ DirSt.exc) && decide (r.op = HomeOp.upgrade)

/-- The agents that a SNP_SHARED reaches: the owner, or with BCAST set every agent but the requester (R367, R373). -/
def DirEnt.sharedTo (e : DirEnt) (s : State) (port : Nat) : List Nat :=
  if e.st = .shd then []
  else if e.bcast then (e.agents s 64).filter fun a => e.ptrs.head? = some a || decide (a ≠ port)
  else [e.ptrs.headD 64]

/-- The owner of a line in EXC or OWN (R366). -/
def DirEnt.owner (e : DirEnt) : Option Nat := if e.st = .shd then none else e.ptrs.head?

/-- The agents to snoop for a request, each with the kind of its snoop (R373, R374, R379, R368, R381). -/
def snoopPlan (s : State) (e : DirEnt) (r : HomeReq) : List (Nat × Nat) :=
  let share (l : List Nat) : List (Nat × Nat) := l.map fun a => (a, 1)
  let give (l : List Nat) : List (Nat × Nat) := l.map fun a => (a, 2)
  match r.op with
  | .rdShared => share (e.sharedTo s r.port)
  | .rdUnique | .upgrade => give (if e.upgrades r then e.agents s r.port else e.agents s 64)
  | .wb _ _ => []
  | .rdNc _ => if r.direct then [] else (e.agents s 64).map fun a => (a, if e.owner = some a then 1 else 2)
  | .wrNc _ _ => if r.direct then [] else give (e.agents s 64)
  | .atomic _ _ _ => give (e.agents s r.port)
  | .recall inval => if inval then give (e.agents s 64) else share (e.sharedTo s 64)
  | .hint _ _ => give (e.agents s r.port)
  | .evict => give (e.agents s 64)

/-- A request that takes a directory entry where none stands (R368). -/
def HomeOp.allocates : HomeOp → Bool
  | .rdShared | .rdUnique | .upgrade | .hint _ _ => true
  | _ => false

/-- Send the snoops of a plan; the complex's own agents answer at once. -/
def sendSnoops (s : State) (line : Nat) (e : DirEnt) (plan : List (Nat × Nat)) : State × List (Nat × Nat) :=
  plan.foldl (fun (x : State × List (Nat × Nat)) a =>
    if a.1 < 32 then
      let r := sendSnoop x.1 a.1 line a.2 e.bcast
      (r.1, x.2 ++ [(r.2, a.1)])
    else
      let c := { x.1.ch with snoops := x.1.ch.snoops + 1, bcasts := if e.bcast then x.1.ch.bcasts + 1 else x.1.ch.bcasts }
      (if a.2 = 2 ∧ a.1 = 32 then dropWalkLine { x.1 with ch := c } line else { x.1 with ch := c }, x.2)) (s, [])

/-- The atomic operations (R302, R379): 0 add, 1 and, 2 or, 3 xor, 4 smin, 5 smax, 6 umin, 7 umax, 8 swap, 9 CAS. -/
def atomicOp (aop : Nat) (old x cmp : Nat) (bits : Nat) : Nat :=
  let sg (v : Nat) : Int := if v < 2 ^ (bits - 1) then v else (v : Int) - 2 ^ bits
  match aop with
  | 0 => (old + x) % 2 ^ bits
  | 1 => old &&& x
  | 2 => old ||| x
  | 3 => old ^^^ x
  | 4 => if sg x < sg old then x else old
  | 5 => if sg old < sg x then x else old
  | 6 => min old x
  | 7 => max old x
  | 8 => x
  | _ => if old = cmp then x else old

/-- Merge a line under byte enables. -/
def mergeLine (old new : List Byte) (en : List Bool) : List Byte :=
  (List.range 64).map fun i => if en.getD i false then new.getD i 0 else old.getD i 0

/-- The line as the home sees it: the owner's data, or memory. -/
def lineData (s : State) (v : Via) (bus : Bus) (line : Nat) (d : Option (List Byte)) : State × BusStatus × List Byte :=
  match d with
  | some x => (s, .ok, x)
  | none => memRead v bus s (64 * line) 64

def countOwner (s : State) (d : Option (List Byte)) : State :=
  if d.isSome then { s with ch := { s.ch with ownData := s.ch.ownData + 1 } } else s

/-- The directory entry after an owner answered SNP_SHARED (R373). -/
def afterShared (e : Option DirEnt) (d : Option (List Byte)) (kept : Bool) : Option DirEnt :=
  match e with
  | none => none
  | some e =>
    if e.st = .shd then some e
    else match d with
      | some x => some { e with st := .own, fwd := some x }
      | none => if kept then shdEnt e.ptrs else if e.st = .own then some e else none

/-- The directory entry after RD_NC of normal memory: only an owner keeps the line (R374). -/
def afterUncached (e : Option DirEnt) (d : Option (List Byte)) (kept : Bool) : Option DirEnt :=
  match e with
  | none => none
  | some e =>
    match e.owner, d with
    | some a, some x => some ⟨.own, [a], false, some x, e.used⟩
    | some a, none => if kept then shdEnt [a] else none
    | none, _ => none

/-- End of a read for a line: a grant with data, or BUS_ERROR without one (R370). -/
def grantLine (core line : Nat) (txn : Byte) (res : State × BusStatus × List Byte) (grant : Nat)
    (e : Option DirEnt) : State :=
  if res.2.1 = .ok then
    respond (setDir res.1 line e) core line
      { opc := 1, id := txn.toNat, grant := grant, line := line, data := res.2.2 }
  else respond res.1 core line { opc := 2, id := txn.toNat, status := 3 }

/-- Offer a hinted line to its port (R381 steps 2 to 4). -/
def offerStash (s : State) (line core : Nat) : State :=
  let r := sendSnoop s core line 3 false
  { r.1 with ch := { r.1.ch with
    trans := Tab.modify r.1.ch.trans line fun t => { t with awaits := [(r.2, core)], stash := true, data := none, sid := r.2 } } }

/-- Finish the transaction of a line whose answers have all come (R373, R374, R379, R381). Its range was checked when it was
admitted (R13). -/
def finishTrans (s : State) (line : Nat) (t : Trans) (bus : Bus) : State :=
  let r := t.req
  let v : Via := { homeVia s r.part none line with sys := true }
  let e := dirEnt s line
  let off := r.addr % 64
  let id := r.txn.toNat
  let busSt (st : BusStatus) : Nat := if st = .ok then 0 else 3
  match r.op with
  | .rdShared =>
    match e with
    | none => grantLine r.port line r.txn (lineData s v bus line none) 2 (some (excEnt r.port))
    | some d =>
      if d.st = .shd then
        grantLine r.port line r.txn (lineData s v bus line none) 1 (some (d.addSharer r.port))
      else match afterShared e t.data t.kept with
        | none =>
          grantLine r.port line r.txn (lineData (setDir s line none) v bus line none) 2
            (some (excEnt r.port))
        | some d' =>
          grantLine r.port line r.txn
            (lineData (countOwner (setDir s line (some d')) t.data) v bus line t.data) 1 (some (d'.addSharer r.port))
  | .rdUnique | .upgrade =>
    let sharer := match e with
      | some d => d.upgrades r
      | none => false
    if sharer then
      let g := if (e.map DirEnt.st) = some DirSt.own then 3 else 2
      respond (setDir s line (some (excEnt r.port))) r.port line { opc := 2, id := id, grant := g, line := line }
    else
      let s := setDir s line none
      grantLine r.port line r.txn (lineData (countOwner s t.data) v bus line t.data)
        (if t.data.isSome then 3 else 2) (some (excEnt r.port))
  | .wb keep data =>
    match e with
    | some d =>
      if d.st ≠ .shd ∧ d.ptrs.head? = some r.port then
        let w := memWrite v bus s (64 * line) data false
        let e' := if d.st = .exc then (if keep then some (excEnt r.port) else none)
          else shdEnt (if keep then d.ptrs else d.ptrs.tail)
        respond (setDir w.1 line (e'.map fun x => if d.st = .exc then x else { x with bcast := d.bcast })) r.port line
          { opc := 3, id := id, status := busSt w.2 }
      else respond s r.port line { opc := 3, id := id }
    | none => respond s r.port line { opc := 3, id := id }
  | .rdNc size =>
    let s := if r.direct then s else countOwner (setDir s line (afterUncached e t.data t.kept)) t.data
    let res := match (if r.direct then none else t.data) with
      | some x => (s, BusStatus.ok, (x.drop off).take (2 ^ size))
      | none => memRead v bus s r.addr (2 ^ size)
    if res.2.1 = .ok then respond res.1 r.port line { opc := 1, id := id, data := res.2.2 }
    else respond res.1 r.port line { opc := 2, id := id, status := 3 }
  | .wrNc size data =>
    let w := match t.data with
      | some x => memWrite v bus s (64 * line) (patch x off (data.take (2 ^ size))) false
      | none => memWrite v bus s r.addr (data.take (2 ^ size)) false
    respond (if r.direct then w.1 else setDir w.1 line none) r.port line { opc := 2, id := id, status := busSt w.2 }
  | .atomic size aop data =>
    let n := 2 ^ size
    let s := setDir s line none
    let l := lineData s v bus line t.data
    if l.2.1 ≠ .ok then respond l.1 r.port line { opc := 2, id := id, status := 3 }
    else
      let old := leAt l.2.2 off n
      let new := atomicOp aop old (leAt data 0 n) (leAt data n n) (8 * n)
      let w := memWrite v bus l.1 (64 * line) (patch l.2.2 off (leBytes n new)) false
      let s := { w.1 with ch := { w.1.ch with atomics := w.1.ch.atomics + 1 } }
      if w.2 = .ok then respond s r.port line { opc := 4, id := id, data := leBytes n old }
      else respond s r.port line { opc := 2, id := id, status := 3 }
  | .recall inval =>
    if inval then
      let s := match t.data with
        | some x => (memWrite v bus s (64 * line) x false).1
        | none => s
      endTrans (setDir s line none) line
    else endTrans (setDir s line (afterShared e t.data t.kept)) line
  | .evict =>
    let s := match t.data with
      | some x => (memWrite v bus s (64 * line) x false).1
      | none => s
    let s := { s with ch := { s.ch with evicts := s.ch.evicts + 1 } }
    endTrans (setDir s line none) line
  | .hint data en =>
    if t.stash then
      if t.kept then
        let s := { s with ch := { s.ch with stashAcc := s.ch.stashAcc + 1 } }
        let s := setDir s line (some (excEnt r.port))
        respond s r.port line { opc := 6, id := t.sid, grant := 2, line := line
                                data := (List.range 64).map fun i => s.mem.byte s.free (64 * line + i) }
      else
        let s := { s with ch := { s.ch with stashDec := s.ch.stashDec + 1 } }
        endTrans (setDir s line none) line
    else
      let s := match t.data with
        | some x => (memWrite v bus s (64 * line) (mergeLine x data en) false).1
        | none =>
          let s := (List.range 64).foldl (fun s i =>
            if en.getD i false then { s with mem := s.mem.putByte (64 * line + i) (data.getD i 0) } else s) s
          if (List.range 64).all fun i => en.getD i false then
            { s with mem := { s.mem with poison := Tab.erase s.mem.poison line } }
          else s
      offerStash s line r.port

/-- Begin a transaction on a line that is not busy. -/
def beginTrans (s : State) (r : HomeReq) (bus : Bus) : State :=
  let line := r.addr / 64
  let plan := match dirEnt s line with
    | some e => sendSnoops s line e (snoopPlan s e r)
    | none => (s, [])
  let t : Trans := ⟨r, plan.2, none, false, false, false, false, 0⟩
  let s := { plan.1 with ch := { plan.1.ch with trans := Tab.insert plan.1.ch.trans line t } }
  if plan.2 = [] then finishTrans s line t bus else s

/-- The least recently used way of a full set whose line is not busy (R368). -/
def victimOf (s : State) (line : Nat) : Option Nat :=
  let ways := s.ch.dir.filter fun e => homeSlice s e.1 = homeSlice s line ∧ e.1 % 4096 = line % 4096
  ((sortBy (fun (a b : Nat × DirEnt) => decide (a.2.used ≤ b.2.used)) ways).find? fun e =>
    (Tab.find? s.ch.trans e.1).isNone).map (·.1)

/-- The set of a line has no free way. -/
def setFull (s : State) (line : Nat) : Bool :=
  decide (16 ≤ (s.ch.dir.filter fun e => homeSlice s e.1 = homeSlice s line ∧ e.1 % 4096 = line % 4096).length)

/-- A way of the set of a line is being freed (R368). -/
def evicting (s : State) (line : Nat) : Bool :=
  s.ch.trans.any fun t => decide (t.2.req.op = HomeOp.evict ∧ homeSlice s t.1 = homeSlice s line ∧ t.1 % 4096 = line % 4096)

/-- A request needs a way of a full set (R368). -/
def needsWay (s : State) (r : HomeReq) : Bool :=
  r.op.allocates && (dirEnt s (r.addr / 64)).isNone && setFull s (r.addr / 64)

/-- A write to bytes of a range that memory has not acknowledged yet. -/
def writePending (s : State) (a n : Nat) : Bool :=
  s.gw.any fun g => g.2.out.any fun r => decide (r.2.op ≠ .rd ∧ r.2.addr < a + n ∧ a < r.2.addr + r.2.len)

/-- An uncached read waits for the earlier writes to its bytes (R388). -/
def readWaits (s : State) (r : HomeReq) : Bool :=
  match r.op with
  | .rdNc n => writePending s r.addr (2 ^ n)
  | _ => false

/-- A request must wait: its line is busy, its set is full and no way can be freed yet, or an earlier write to the bytes
that it reads uncached is not acknowledged (R368, R375, R388). -/
def homeWaits (s : State) (r : HomeReq) : Bool :=
  (Tab.find? s.ch.trans (r.addr / 64)).isSome || readWaits s r ||
    (needsWay s r && (evicting s (r.addr / 64) || (victimOf s (r.addr / 64)).isNone))

/-- The oldest request that need not wait and follows no waiting request for its line (R375). -/
def nextFree (s : State) : List HomeReq → List Nat → Option HomeReq
  | [], _ => none
  | r :: t, behind =>
    if behind.contains (r.addr / 64) || homeWaits s r then nextFree s t ((r.addr / 64) :: behind) else some r

def evictReq (victim : Nat) : HomeReq := ⟨.evict, 63, 0, 64 * victim, false, none⟩

/-- Start the waiting requests that need not wait, oldest first (R375, R368). -/
def pumpHome (bus : Bus) : Nat → State → State
  | 0, s => s
  | fuel + 1, s =>
    match nextFree s s.ch.queue [] with
    | none => s
    | some r =>
      if needsWay s r then
        match victimOf s (r.addr / 64) with
        | none => s
        | some v => pumpHome bus fuel (beginTrans s (evictReq v) bus)
      else
        let s := { s with ch := { s.ch with queue := s.ch.queue.erase r } }
        pumpHome bus fuel (beginTrans s r bus)

/-- Start the requests whose wait has ended. -/
def wakeHome (bus : Bus) (s : State) : State := pumpHome bus (2 * s.ch.queue.length + 2) s

/-- A request reaches the home: it waits behind the requests for its line (R375). -/
def homeRequest (s : State) (r : HomeReq) (bus : Bus) : State :=
  wakeHome bus { s with ch := { s.ch with queue := s.ch.queue ++ [r] } }

/-- One answer to a snoop has come: dirty data, whether the core keeps the line dirty or clean. -/
def snoopAnswer (s : State) (core sid : Nat) (data : Option (List Byte)) (toO kept : Bool) (bus : Bus) : State :=
  match Tab.find? s.ch.snps (snoopKey core sid) with
  | none => s
  | some sn =>
    let s := { s with ch := { s.ch with snps := Tab.erase s.ch.snps (snoopKey core sid) } }
    match Tab.find? s.ch.trans sn.line with
    | none => s
    | some t =>
      let t := { t with
        awaits := t.awaits.filter fun a => a ≠ (sid, core)
        data := if data.isSome then data else t.data, toO := t.toO || toO, kept := t.kept || kept }
      let s := { s with ch := { s.ch with trans := Tab.modify s.ch.trans sn.line fun _ => t } }
      if t.awaits = [] then
        wakeHome bus (finishTrans s sn.line t bus)
      else s

/-! ### The complex's own accesses at the home -/

/-- A near core must answer before the complex may read (or, with `wr`, write) the line. -/
def lineBlocked (s : State) (line : Nat) (wr : Bool) : Bool :=
  (Tab.find? s.ch.trans line).isSome ||
    match dirEnt s line with
    | none => false
    | some e =>
      if wr then (e.agents s 64).any (· < 32)
      else decide (e.st = .exc) || (decide (e.st = .own) && e.fwd.isNone)

/-- Every line of an access is free of near-core copies that matter; those that are not are recalled, and the command
that needed them is to be sent again (log entry 22). -/
def homeReady (s : State) (a n : Nat) (wr : Bool) (part : Option (BitVec 3)) (bus : Bus) : State × Bool :=
  (linesOf a n).foldl (fun (x : State × Bool) line =>
    if lineBlocked x.1 line wr then
      if (Tab.find? x.1.ch.trans line).isSome then (x.1, false)
      else (homeRequest x.1 ⟨.recall wr, 63, 0, 64 * line, false, part⟩ bus, false)
    else x) (s, true)

/-- The directory names an agent of the complex as a holder of a line. -/
def holds (s : State) (agent line : Nat) : Bool :=
  match dirEnt s line with
  | some e => e.bcast || e.ptrs.contains agent
  | none => false

/-- An agent of the complex takes a line in S (R363, R364); a full directory set keeps it out. -/
def holdLine (s : State) (agent line : Nat) : State :=
  if holds s agent line then s
  else match dirEnt s line with
    | some e => setDir s line (some (e.addSharer agent))
    | none => if setFull s line then s else setDir s line (shdEnt [agent])

/-- Read through the home: the owner's last data where a near core holds a line in O, else memory. A read by an agent of
the complex leaves it the lines. -/
def homeRead (v : Via) (bus : Bus) (s : State) (a n : Nat) : State × BusStatus × List Byte :=
  let r := memRead v bus s a n
  let held := match v.agent with
    | some g => if r.2.1 = .ok then each (fun s l => holdLine s g l) r.1 (linesOf a n) else r.1
    | none => r.1
  (held, r.2.1, (range a n).map fun i =>
    match dirEnt s (i / 64) with
    | some e => match e.fwd with
      | some d => if e.st = .own then d.getD (i % 64) 0 else s.mem.byte s.free i
      | none => s.mem.byte s.free i
    | none => s.mem.byte s.free i)

/-- Count the snoops to the complex's own holders of a line, but for the agent that writes it itself. -/
def countOwn (s : State) (line : Nat) (but : Option Nat) : State :=
  match dirEnt s line with
  | some e =>
    { s with ch := { s.ch with snoops := s.ch.snoops + BitVec.ofNat 64 (e.ptrs.filter fun g => but ≠ some g).length } }
  | none => s

/-- The copies of a line that the complex's own agents hold are dropped by a write at the home (R166, R364). -/
def dropCopies (s : State) (a n : Nat) (but : Option Nat) : State :=
  each (fun s l => setDir (dropWalkLine (countOwn s l but) l) l none) s ((linesOf a n).filter fun l => (dirEnt s l).isSome)

/-- Write through the home. -/
def homeWrite (v : Via) (bus : Bus) (s : State) (a : Nat) (bs : List Byte) : State × BusStatus :=
  memWrite v bus (dropCopies s a bs.length v.agent) a bs false

/-- An 8 B read-modify-write at the home (R380): the state, the status and the old value. -/
def homeAtomic (v : Via) (bus : Bus) (s : State) (a : Nat) (f : Nat → Nat) : State × BusStatus × Nat :=
  let r := homeRead v bus s a 8
  if r.2.1 ≠ .ok then (r.1, r.2.1, 0)
  else
    let old := leNat r.2.2
    let w := homeWrite v bus r.1 a (leBytes 8 (f old))
    ({ w.1 with ch := { w.1.ch with atomics := w.1.ch.atomics + 1 } }, w.2, old)

end Sys2Proof.Machine
end

