-- ==== Sys2Proof/Machine/Translate.lean ====
section
/-! DEFINITION. The translation unit (spec file 05): routing, the walk, TLBs and walk cache, access checks, fault slots,
and reads and writes of byte ranges at device virtual addresses. -/

namespace Sys2Proof.Machine

open Sys2Proof

/-! ### Page slices (R184 to R186) -/

/-- The live page slices in ascending order. -/
def liveSlices (s : State) : List Nat :=
  (List.range s.build.pageSlices).filter fun i => !s.tu.retire.getLsbD i

/-- The hash that routes a request (R184). -/
def routeBucket (ctx : BitVec 12) (va : Word) : Nat :=
  let x := (va >>> 21) ^^^ ((ctx.setWidth 64) <<< 36)
  let x := x ^^^ (x >>> 17)
  ((x * 0xA3B195C47E2D0F6B) >>> 54).toNat

/-- The page slice of a request. -/
def pageSlice (s : State) (ctx : BitVec 12) (va : Word) : Nat :=
  let live := liveSlices s
  live.getD (routeBucket ctx va % live.length) 0

/-- The route of the walker of a slice. -/
def walkVia (s : State) (slice : Nat) (part : BitVec 3) : Via :=
  { port := gwBase s.build 2 + slice / 4, src := srcId 4 slice 0, part := part, sys := false, ctx := none }

/-! ### The walk (R158) -/

/-- How a walk ends: at a leaf, with a held kind, with a failed read, or waiting for a near core's table line. -/
inductive WalkRes where
  | leaf (pte : Word) (sz : Nat)
  | fault (kind : Byte) (level : Nat) (pte : Word)
  | bus (st : BusStatus)
  | wait
  deriving DecidableEq, Repr

/-- Keep a table line in the walk cache of 8192 lines, as agent 32 of the home (R165, R166); a full directory set keeps it
out. Which line makes room is the model's choice (log entry 11). -/
def keepWalkLine (s : State) (line : Nat) (ctx : BitVec 12) (data : List Byte) : State :=
  let add (s : State) : State :=
    { s with tu := { s.tu with
      wc := (⟨line, ctx, data⟩ :: s.tu.wc.filter fun w => !decide (w.line = line ∧ w.ctx = ctx)).take 8192 } }
  match dirEnt s line with
  | some e => add (setDir s line (some (e.addSharer 32)))
  | none => if setFull s line then s else add (setDir s line (shdEnt [32]))

/-- Read the 64 B table line that holds an entry: the walk cache for levels 4 to 1, else the walker's port (R159). -/
def readTable (v : Via) (bus : Bus) (s : State) (ctx : BitVec 12) (level line : Nat) :
    State × Option BusStatus × List Byte :=
  let hit := if 1 ≤ level then
    s.tu.wc.find? fun w => decide (w.line = line ∧ w.ctx = ctx) && Config.tlbHolds s.free (2 ^ 60 + line) else none
  match hit with
  | some w => (s, some .ok, w.data)
  | none =>
    let r := homeReady s (64 * line) 64 false (some v.part) bus
    if !r.2 then (r.1, none, [])
    else
      let d := homeRead v bus r.1 (64 * line) 64
      if d.2.1 = .ok ∧ 1 ≤ level then (keepWalkLine d.1 line ctx d.2.2, some .ok, d.2.2)
      else (d.1, some d.2.1, d.2.2)

/-- The checks of a leaf that do not depend on the access. -/
def leafFormat (s : State) (pte : Word) (level : Nat) : Bool :=
  let sz := lvlLog2 level
  let node := pteNode pte
  decide (pteMT pte = 3) || decide ((pteFrame pte * 4096) % 2 ^ sz ≠ 0)
    || (!pteRM pte && decide (node ≠ s.bl.nodeId.toNat))
    || (pteRM pte && (decide (node = s.bl.nodeId.toNat) || s.build.brambles.isEmpty))

/-- Walk from a table at a level downward. -/
def walkFrom (v : Via) (bus : Bus) (ctx : BitVec 12) (va : Nat) : Nat → Nat → State → State × WalkRes
  | level, table, s =>
    let a := table + 8 * ((va >>> lvlLog2 level) % 512)
    let r := readTable v bus s ctx level (a / 64)
    match r.2.1 with
    | none => (r.1, .wait)
    | some .ok =>
      let pte := BitVec.ofNat 64 (leAt r.2.2 (a % 64) 8)
      if !pteV pte then (r.1, .fault fkNotValid level pte)
      else if bits pte 11 10 ≠ 0 then (r.1, .fault fkFormat level pte)
      else if (level = 4 ∨ level = 0) ∧ pteLF pte = true then (r.1, .fault fkFormat level pte)
      else if level = 0 ∨ pteLF pte = true then
        if leafFormat r.1 pte level then (r.1, .fault fkFormat level pte)
        else (r.1, .leaf pte (lvlLog2 level))
      else match level with
        | 0 => (r.1, .leaf pte 12)
        | l + 1 => walkFrom v bus ctx va l (pteNext pte) r.1
    | some st => (r.1, .bus st)

/-- The number of the command, window write or message that a translation request serves. -/
def Owner.born (s : State) : Owner → Option Nat
  | .cmd id | .entry id _ | .served id | .window id | .signal id => some id
  | .chan c => ((Tab.find? s.mv.chans c).bind (·.run)).map (·.cmd)
  | _ => none

/-- The whole walk of a context's tables for a request of a number. -/
def walk (s : State) (bus : Bus) (ctx : BitVec 12) (va : Word) (born : Option Nat) : State × WalkRes :=
  let x := ctxOf s ctx
  let root := x.ttRoot
  if bits root 11 1 ≠ 0 ∨ bits root 63 48 ≠ 0 then (s, .fault fkFormat 4 0)
  else if !bit root 0 then (s, .fault fkNotValid 4 0)
  else walkFrom { walkVia s (pageSlice s ctx va) x.part with born := born } bus ctx va.toNat 4 (pteNext root) s

/-! ### TLBs (R163, R165) -/

/-- The TLB entry that serves a request, if one is still held (log entry 11). -/
def tlbFind (s : State) (ctx : BitVec 12) (va : Word) : Option TlbEnt :=
  let slice := pageSlice s ctx va
  let hit (e : TlbEnt) : Bool := decide (e.ctx = ctx ∧ va.toNat >>> e.sz = e.page) && Config.tlbHolds s.free e.page
  match s.tu.l1.find? fun e => hit e && decide (e.slice = slice) with
  | some e => some e
  | none => s.tu.l2.find? hit

/-- A walk result fills both TLBs, of 2048 entries a slice and of 65,536 (R163; which entry makes room: log entry 11). -/
def tlbFill (s : State) (ctx : BitVec 12) (va : Word) (pte : Word) (sz : Nat) : State :=
  let slice := pageSlice s ctx va
  let e : TlbEnt := ⟨slice, ctx, va.toNat >>> sz, sz, pte⟩
  let same (x : TlbEnt) : Bool := decide (x.ctx = ctx ∧ x.sz = sz ∧ x.page = e.page)
  { s with tu := { s.tu with
    l1 := e :: ((s.tu.l1.filter fun x => decide (x.slice = slice) && !same x).take 2047 ++
      s.tu.l1.filter fun x => decide (x.slice ≠ slice))
    l2 := (e :: s.tu.l2.filter fun x => !same x).take 65536 } }

/-! ### Access checks (R160 to R162) -/

/-- What the checks of a leaf say. -/
inductive Check where
  | pass
  | kind (k : Byte)
  | copy
  deriving DecidableEq, Repr

/-- Users that take no remote page. -/
def userLocalOnly : TrUser → Bool
  | .key | .ingest _ | .core | .engine => true
  | _ => false

/-- Users that take no device memory. -/
def userNormalOnly : TrUser → Bool
  | .pooling | .key | .engine => true
  | _ => false

def userIngests : TrUser → Bool
  | .ingest _ => true
  | _ => false

/-- The checks of a leaf for a user and an access (R160 to R162). A leaf that is both remote and of device type fails with
REMOTE: the spec gives no order of the two (DESIGN CHOICE, log entry 81). -/
def checkAccess (u : TrUser) (acc : Access) (pte : Word) : Check :=
  let needR := decide (acc ≠ .write)
  let needW := decide (acc ≠ .read)
  if (needR && !pteR pte) || (needW && !pteW pte) then .kind fkPermission
  else if needW && pteM pte && decide (u ≠ .ingest true) then .kind fkMeasured
  else if needW && pteVS pte then (if userIngests u then .copy else .kind fkShared)
  else if pteRM pte && userLocalOnly u then .kind fkRemote
  else if decide (pteMT pte = 1) && userNormalOnly u then .kind fkType
  else .pass

/-! ### Fault slots (R177 to R181) -/

def accessCode : Access → BitVec 2
  | .read => 0 | .write => 1 | .atomic => 2

/-- Kinds that are not held. -/
def unheldKind (k : Byte) : Bool := [fkAddress, fkMeasured, fkWalkBus].contains k

/-- How a translation answers its user. -/
inductive TrRes where
  | ok (pa : Nat) (pte : Word) (sz : Nat)
  | copy (pa : Nat) (pte : Word) (sz : Nat)
  | held (slot : Nat)
  | ended (st : Byte) (detail : BitVec 32) (kind : Byte)
  | wait
  deriving DecidableEq, Repr

/-- The master ID of a requester (log entry 13). -/
def userMid : TrUser → Byte
  | .pooling => Config.masterId 6 0
  | .key => Config.masterId 5 0
  | .mover => Config.masterId 7 0
  | .ingest _ => Config.masterId 2 0
  | .core => Config.masterId 11 0
  | .service => Config.masterId 12 0
  | .engine => Config.masterId 3 0

/-- A held fault joins a HELD slot of its context, page and kind, or takes the lowest free slot (R178, R181). -/
def holdFault (s : State) (r : TrReq) (kind : Byte) (level : Nat) (pte : Word) : State × TrRes :=
  let slotOf (n : Nat) : FltSlot := Tab.get {} s.tu.slots n
  let same (n : Nat) : Bool :=
    let f := slotOf n
    decide (f.st = .held ∧ f.ctx = r.ctx ∧ f.kind = kind ∧ f.address.toNat / 4096 = r.va.toNat / 4096)
  let put (s : State) (n : Nat) (f : FltSlot) : State := { s with tu := { s.tu with slots := Tab.set {} s.tu.slots n f } }
  match (List.range 256).find? same with
  | some n =>
    let f := slotOf n
    let full := decide (0x7FFFFFFF ≤ f.count.toNat + 1)
    (put s n { f with count := if f.count.toNat < 0x7FFFFFFF then f.count + 1 else f.count, ovf := f.ovf || full
                      reqs := f.reqs ++ [r] }, .held n)
  | none =>
    match (List.range 256).find? fun n => decide ((slotOf n).st ≠ .held) with
    | none =>
      ({ s with tu := { s.tu with noSlot := s.tu.noSlot + 1 } }, .ended stTranslation 0xFFFFFFFF kind)
    | some n =>
      let old := slotOf n
      let src := srcId 4 (pageSlice s r.ctx r.va) 0
      let part := (ctxOf s r.ctx).part
      let f : FltSlot :=
        { address := r.va, mid := userMid r.user, access := accessCode r.acc, source := src, cls := 0, kind := kind
          level := BitVec.ofNat 3 level, st := .held, ctx := r.ctx, part := part
          seq := if old.st = .free then old.seq else old.seq + 1, count := 1, pte := pte, tick := tickWord s
          epoch := s.epoch, queue := r.queue, head := r.head, deadline := s.tick + 100000, reqs := [r] }
      let s := put s n f
      let s := report s { source := src, address := r.va, access := accessCode r.acc, detail := kind
                          info := BitVec.ofNat 16 n, ctx := some r.ctx, part := some part, queue := r.queue, head := r.head }
        (userMid r.user)
      (msix s (ctxFn s r.ctx) 0, .held n)

/-- A translation that fails with a kind: held, or ended at once (R177). -/
def failTr (s : State) (r : TrReq) (kind : Byte) (level : Nat) (pte : Word) : State × TrRes :=
  if unheldKind kind then (s, .ended stTranslation 0xFFFFFFFF kind) else holdFault s r kind level pte

/-- The fabric address of a device virtual address under a leaf. -/
def fabricAddr (pte : Word) (sz : Nat) (va : Word) : Nat := pteFrame pte * 4096 + va.toNat % 2 ^ sz

/-- The address that a request is issued at: of a local leaf, bits 47:0 of the fabric address (R156). -/
def leafAddr (pte : Word) (sz : Nat) (va : Word) : Nat :=
  if pteRM pte then fabricAddr pte sz va else fabricAddr pte sz va % 2 ^ 48

/-- The trace entry of a translation: the virtual address and the fabric address (R432). -/
def traceVa (s : State) (r : TrReq) (pa : Nat) : State := traceAdd s 1 r.ctx (leBytes 8 r.va.toNat ++ leBytes 8 pa)

/-- DETAIL of a failed access by a route: the record at its port's DEADLINE source, or at its own source (R42, R151). -/
def busDetail (s : State) (v : Via) (st : BusStatus) : BitVec 32 :=
  recDetail s (if st = .deadline then srcId 13 v.port 0 else v.src)

/-- Translate one address (R155 to R165). -/
def translate (s : State) (bus : Bus) (r : TrReq) : State × TrRes :=
  if r.va.toNat / 2 ^ 57 ≠ 0 then (s, .ended stTranslation 0xFFFFFFFF fkAddress)
  else
    let hit := match tlbFind s r.ctx r.va with
      | some e => if checkAccess r.user r.acc e.pte = Check.pass then some e else none
      | none => none
    match hit with
    | some e => (traceVa s r (fabricAddr e.pte e.sz r.va), .ok (leafAddr e.pte e.sz r.va) e.pte e.sz)
    | none =>
      let w := walk s bus r.ctx r.va (r.owner.born s)
      match w.2 with
      | .wait => (w.1, .wait)
      | .bus st =>
        (w.1, .ended stBusError (busDetail w.1 (walkVia s (pageSlice s r.ctx r.va) (ctxOf s r.ctx).part) st) fkWalkBus)
      | .fault k l p => failTr w.1 r k l p
      | .leaf pte sz =>
        match checkAccess r.user r.acc pte with
        | .pass => (traceVa (tlbFill w.1 r.ctx r.va pte sz) r (fabricAddr pte sz r.va), .ok (leafAddr pte sz r.va) pte sz)
        | .copy => (w.1, .copy (leafAddr pte sz r.va) pte sz)
        | .kind k => failTr w.1 r k ((sz - 12) / 9) pte

/-! ### Byte ranges at device virtual addresses -/

/-- How an access to a range answers: the bytes done, and why it stopped, if it did. -/
inductive Stop where
  | held (slot : Nat)
  | ended (st : Byte) (detail : BitVec 32)
  | wait
  | remote (va : Nat) (pa : Nat)
  deriving DecidableEq, Repr

/-- Cut `n` bytes at `va` at 4 KiB boundaries: offset and length of each part, with fuel. -/
def pageCuts : Nat → Nat → Nat → Nat → List (Nat × Nat)
  | 0, _, _, _ => []
  | fuel + 1, va, off, n =>
    if n = 0 then []
    else
      let k := min n (4096 - (va + off) % 4096)
      (off, k) :: pageCuts fuel va (off + k) (n - k)

def cutsOf (va n : Nat) : List (Nat × Nat) := pageCuts (n / 4096 + 2) va 0 n

/-- Read a range; `home` reads go through the coherence home. -/
def vaRead (s : State) (bus : Bus) (r : TrReq) (n : Nat) (home : Bool) (via : State → Nat → Via) :
    State × Except Stop (List Byte) :=
  (cutsOf r.va.toNat n).foldl (fun (x : State × Except Stop (List Byte)) cut =>
    match x.2 with
    | .error e => (x.1, .error e)
    | .ok bs =>
      let t := translate x.1 bus { r with va := r.va + BitVec.ofNat 64 cut.1 }
      match t.2 with
      | .ok pa pte _ =>
        if pteRM pte then (t.1, .error (.remote (r.va.toNat + cut.1) pa))
        else
          let v := { via t.1 pa with born := r.owner.born s }
          let rdy := if home then homeReady t.1 pa cut.2 false (some v.part) bus else (t.1, true)
          if !rdy.2 then (rdy.1, .error .wait)
          else
            let d := if home then homeRead v bus rdy.1 pa cut.2 else memRead v bus rdy.1 pa cut.2
            if d.2.1 = .ok then (d.1, .ok (bs ++ d.2.2))
            else (d.1, .error (.ended stBusError (recDetail d.1
              (if d.2.1 = .deadline then srcId 13 v.port 0 else v.src))))
      | .copy pa _ _ => (t.1, .error (.ended stTranslation (BitVec.ofNat 32 pa)))
      | .held k => (t.1, .error (.held k))
      | .ended st d _ => (t.1, .error (.ended st d))
      | .wait => (t.1, .error .wait)) (s, .ok [])

/-- Write a range: the bytes written before it stopped. -/
def vaWrite (s : State) (bus : Bus) (r : TrReq) (data : List Byte) (home : Bool) (via : State → Nat → Via) :
    State × Nat × Option Stop :=
  (cutsOf r.va.toNat data.length).foldl (fun (x : State × Nat × Option Stop) cut =>
    match x.2.2 with
    | some _ => x
    | none =>
      let t := translate x.1 bus { r with va := r.va + BitVec.ofNat 64 cut.1 }
      let bs := (data.drop cut.1).take cut.2
      match t.2 with
      | .ok pa pte _ =>
        if pteRM pte then (t.1, x.2.1, some (.remote (r.va.toNat + cut.1) pa))
        else
          let v := { via t.1 pa with born := r.owner.born s }
          let rdy := if home then homeReady t.1 pa cut.2 true (some v.part) bus else (t.1, true)
          if !rdy.2 then (rdy.1, x.2.1, some .wait)
          else
            let w := if home then homeWrite v bus rdy.1 pa bs else memWrite v bus rdy.1 pa bs false
            if w.2 = .ok then (w.1, x.2.1 + cut.2, none)
            else (w.1, x.2.1, some (.ended stBusError (recDetail w.1
              (if w.2 = .deadline then srcId 13 v.port 0 else v.src))))
      | .copy _ _ _ => (t.1, x.2.1, some (.ended stTranslation 0xFFFFFFFF))
      | .held k => (t.1, x.2.1, some (.held k))
      | .ended st d _ => (t.1, x.2.1, some (.ended st d))
      | .wait => (t.1, x.2.1, some .wait)) (s, 0, none)

/-- The route of the queue engine's accesses to a context's structures: the home slice of the line (R34). -/
def engineVia (part : BitVec 3) (s : State) (pa : Nat) : Via :=
  { homeVia s (some part) none (pa / 64) with src := srcId 3 0 0 }

/-- The route of the version-line agent (R225, R363). -/
def versionVia (part : BitVec 3) (s : State) (pa : Nat) : Via := { engineVia part s pa with agent := some 34 }

/-! ### Invalidations (R168) -/

/-- A TLB entry lies in a scope. -/
def InvScope.hits (sc : InvScope) (s : State) (ctx : BitVec 12) (page sz : Nat) : Bool :=
  match sc with
  | .all => true
  | .partition p => decide (ctxPart s ctx = some p)
  | .context c => decide (ctx = c)
  | .range c va len => decide (ctx = c ∧ page * 2 ^ sz < va + len ∧ va < (page + 1) * 2 ^ sz)

/-- The lines of a table of a context that may hold entries: those in the walk cache, and those with bytes in memory. -/
def tableLines (s : State) (ctx : BitVec 12) (table : Nat) : List Nat :=
  let cached := (s.tu.wc.filter fun (w : WcLine) => decide (w.ctx = ctx)).map fun (w : WcLine) => w.line
  dedupNat ((cached ++ s.mem.cells.map fun (e : Host.Cell) => e.1 / 64).filter fun l => decide (table ≤ 64 * l ∧ 64 * l < table + 4096))

/-- What a walk may read as a table line: the walk cache's copy, or memory. -/
def lineCopies (s : State) (ctx : BitVec 12) (line : Nat) : List (List Byte) :=
  ((s.tu.wc.filter fun w => decide (w.ctx = ctx ∧ w.line = line)).map (·.data)) ++ [s.mem.bytes s.free (64 * line) 64]

/-- Every line that a walk of some address in the range may read, from a table downward. -/
def linesRead (s : State) (ctx : BitVec 12) (lo hi : Nat) : Nat → Nat → Nat → List Nat
  | 0, _, _ => []
  | level + 1, table, base =>
    let span := 2 ^ lvlLog2 (level + 1)
    (tableLines s ctx table).flatMap fun l =>
      let k := (64 * l - table) / 8
      (lineCopies s ctx l).flatMap fun d => (List.range 8).flatMap fun i =>
        let b := base + (k + i) * span
        if b < hi ∧ lo < b + span then
          let pte := BitVec.ofNat 64 (leAt d (8 * i) 8)
          l :: (if pteV pte && !pteLF pte then linesRead s ctx lo hi level (pteNext pte) b else [])
        else []

/-- A walk-cache line lies in a scope (R168). -/
def InvScope.line (sc : InvScope) (s : State) (w : WcLine) : Bool :=
  match sc with
  | .all => true
  | .partition p => decide (ctxPart s w.ctx = some p)
  | .context c => decide (w.ctx = c)
  | .range c va len =>
    decide (w.ctx = c) && (linesRead s c va (va + len) 4 (pteNext (ctxOf s c).ttRoot) 0).contains w.line

/-- Drop the entries of a scope. -/
def invDrop (s : State) (sc : InvScope) (wk : Bool) : State :=
  { s with tu := { s.tu with
    l1 := s.tu.l1.filter fun e => !sc.hits s e.ctx e.page e.sz
    l2 := s.tu.l2.filter fun e => !sc.hits s e.ctx e.page e.sz
    wc := if wk then s.tu.wc.filter fun w => !sc.line s w else s.tu.wc } }

/-- Drop everything tagged with a context (R164). -/
def dropCtxEntries (s : State) (ctx : BitVec 12) : State := invDrop s (.context ctx) true

end Sys2Proof.Machine
end

