-- ==== Sys2Proof/Machine/Act.lean ====
section
/-! DEFINITION. Actions on the state that can stop: at a fault slot, with a status, or for a near core's answer. -/

namespace Sys2Proof.Machine

open Sys2Proof

/-- An action: it changes the state and either answers or stops. -/
abbrev Act (α : Type) := EStateM Stop State α

/-- An action from a function that answers a state and a result. -/
def act {α : Type} (f : State → State × Except Stop α) : Act α := fun s =>
  match f s with
  | (s', .ok a) => .ok a s'
  | (s', .error e) => .error e s'

/-- End with a status. -/
def failWith {α : Type} (st : Byte) (detail : BitVec 32 := 0) : Act α := throw (.ended st detail)

/-- End with a status unless a condition holds. -/
def need (c : Bool) (st : Byte) : Act Unit := if c then pure () else failWith st

/-- Translate, and stop where the translation does not answer at once. -/
def trAct (bus : Bus) (r : TrReq) : Act (Nat × Word × Nat) := fun s =>
  let t := translate s bus r
  match t.2 with
  | .ok pa pte sz => .ok (pa, pte, sz) t.1
  | .copy pa pte sz => .ok (pa, pte, sz) t.1
  | .held k => .error (.held k) t.1
  | .ended st d _ => .error (.ended st d) t.1
  | .wait => .error .wait t.1

/-- Read through the home at a physical address, waiting for near cores. -/
def homeGet (v : Via) (bus : Bus) (a n : Nat) : Act (List Byte) := fun s =>
  let r := homeReady s a n false (some v.part) bus
  if !r.2 then .error .wait r.1
  else
    let d := homeRead v bus r.1 a n
    if d.2.1 = .ok then .ok d.2.2 d.1 else .error (.ended stBusError (busDetail d.1 v d.2.1)) d.1

/-- Write through the home at a physical address, waiting for near cores. -/
def homePut (v : Via) (bus : Bus) (a : Nat) (bs : List Byte) : Act Unit := fun s =>
  let r := homeReady s a bs.length true (some v.part) bus
  if !r.2 then .error .wait r.1
  else
    let w := homeWrite v bus r.1 a bs
    if w.2 = .ok then .ok () w.1 else .error (.ended stBusError (busDetail w.1 v w.2)) w.1

/-- Wait until no near core stands between the home and a range that is to be written. -/
def homeFree (bus : Bus) (a n : Nat) (part : BitVec 3) : Act Unit := fun s =>
  let r := homeReady s a n true (some part) bus
  if r.2 then .ok () r.1 else .error .wait r.1

/-- An 8 B atomic at the home, waiting for near cores: the old value. -/
def homeSwap (v : Via) (bus : Bus) (a : Nat) (f : Nat → Nat) : Act Nat := fun s =>
  let r := homeReady s a 8 true (some v.part) bus
  if !r.2 then .error .wait r.1
  else
    let d := homeAtomic v bus r.1 a f
    if d.2.1 = .ok then .ok d.2.2 d.1 else .error (.ended stBusError (busDetail d.1 v d.2.1)) d.1

/-- Read a range at a device virtual address through the home as the queue engine. -/
def engRead (bus : Bus) (r : TrReq) (part : BitVec 3) (n : Nat) : Act (List Byte) :=
  act fun s => vaRead s bus r n true (engineVia part)

/-- Write a range at a device virtual address, through the home or not, by the given routes. -/
def vaPut (bus : Bus) (r : TrReq) (bs : List Byte) (home : Bool) (via : State → Nat → Via) : Act Unit := fun s =>
  let w := vaWrite s bus r bs home via
  match w.2.2 with
  | none => .ok () w.1
  | some e => .error e w.1

/-- Write a range at a device virtual address through the home as the queue engine. -/
def engWrite (bus : Bus) (r : TrReq) (part : BitVec 3) (bs : List Byte) : Act Unit := vaPut bus r bs true (engineVia part)

/-- Read a version line (R225). -/
def lineRead (bus : Bus) (r : TrReq) (part : BitVec 3) : Act (List Byte) := act fun s => vaRead s bus r 64 true (versionVia part)

/-- Write a version line. -/
def lineWrite (bus : Bus) (r : TrReq) (part : BitVec 3) (bs : List Byte) : Act Unit := vaPut bus r bs true (versionVia part)

/-- What remains of a step that must be sent again: only the recalls it started (log entry 22). -/
def waitBack (s s' : State) : State := { s with ch := s'.ch, out := s'.out, nextId := s'.nextId }

/-- Run an action and keep its state; where it stops, `stop` says what follows. -/
def runAct {α : Type} (m : Act α) (s : State) (ok : State → α → State) (stop : State → Stop → State) : State :=
  match m s with
  | .ok a s' => ok s' a
  | .error .wait s' => waitBack s s'
  | .error e s' => stop s' e

/-- Try an action: its answer, or none where it ended with a status (what it did stands). -/
def attempt {α : Type} (m : Act α) : Act (Option α) := fun s =>
  match m s with
  | .ok a s' => .ok (some a) s'
  | .error (.ended _ _) s' => .ok none s'
  | .error e s' => .error e s'

/-- Where an action ends with a status, do something before that status goes on. -/
def onEnd {α : Type} (m : Act α) (f : Byte → Act Unit) : Act α := fun s =>
  match m s with
  | .ok a s' => .ok a s'
  | .error (.ended st d) s' =>
    match f st s' with
    | .ok _ s'' => .error (.ended st d) s''
    | .error .wait s'' => .error .wait s''
    | .error _ s'' => .error (.ended st d) s''
  | .error e s' => .error e s'

/-- An action that ends with a status ends with the given one instead. -/
def failAs {α : Type} (m : Act α) (st : Byte) : Act α := fun s =>
  match m s with
  | .error (.ended _ _) s' => .error (.ended st 0) s'
  | r => r

/-- An action that answers none where it ends with the given status. -/
def noneOn {α : Type} (m : Act α) (st : Byte) : Act (Option α) := fun s =>
  match m s with
  | .ok a s' => .ok (some a) s'
  | .error (.ended x d) s' => if x = st then .ok none s' else .error (.ended x d) s'
  | .error e s' => .error e s'

/-- Try an action that must hold nobody up: none where it was held or ended (what it did stands). -/
def tryPost {α : Type} (m : Act α) : Act (Option α) := fun s =>
  match m s with
  | .ok a s' => .ok (some a) s'
  | .error .wait s' => .error .wait s'
  | .error _ s' => .ok none s'

/-- Run an action over a list. -/
def forAll {α : Type} (f : α → Act Unit) : List α → Act Unit
  | [] => pure ()
  | x :: t => do
    f x
    forAll f t

/-- Map an action over a list. -/
def mapAll {α β : Type} (f : α → Act β) : List α → Act (List β)
  | [] => pure []
  | x :: t => do
    let y ← f x
    let ys ← mapAll f t
    pure (y :: ys)

end Sys2Proof.Machine
end

