-- ==== Sys2Proof/Machine/Queue.lean ====
section
/-! DEFINITION. What every command shares (spec file 04): the object table and handles, events, the end of a command,
completion records, sealed returns, and the context entry in memory. -/

namespace Sys2Proof.Machine

open Sys2Proof

/-! ### The object table (R141 to R146) -/

/-- The route of the queue engine to a system structure (R413). -/
def sysVia (s : State) (a : Nat) : Via := { homeVia s none none (a / 64) with src := srcId 3 0 0 }

/-- Descriptors in the object table: none with LOG2 0 (log entry 27). -/
def objCount (s : State) : Nat := if s.qe.objLog2 = 0 then 0 else 2 ^ s.qe.objLog2.toNat

def objAddr (s : State) (i : Nat) : Nat := s.qe.objBase.toNat * 4096 + 64 * i

def objGet (bus : Bus) (i : Nat) : Act Obj := do
  let s ← get
  let bs ← homeGet (sysVia s (objAddr s i)) bus (objAddr s i) 64
  pure (objOf bs)

/-- Write the hardware fields of a descriptor. -/
def objPut (bus : Bus) (i : Nat) (o : Obj) : Act Unit := do
  let s ← get
  homePut (sysVia s (objAddr s i)) bus (objAddr s i) (o.bytes.take 32)

/-- The handle check of R130: `tys` lists the types that the field takes; `free` is the reading of OBJECT_FREE. -/
def lookupHandle (bus : Bus) (h : Word) (tys : List Nat) (part : BitVec 3) (free : Bool) : Act Obj := do
  let s ← get
  need (decide (h ≠ 0 ∧ hRsv h = 0 ∧ hIndex h ≠ 0 ∧ hIndex h < objCount s)) stBadHandle
  let o ← objGet bus (hIndex h)
  need (decide (o.gen = hGen h)) stStaleHandle
  need (decide (o.st = stLive ∨ o.st = stTorn)) (if free then stState else stBadHandle)
  need (free || decide (o.st ≠ stTorn)) stTornObj
  need (tys.contains o.ty && decide (hPart h = part.toNat ∧ o.part = part)) stBadHandle
  pure o

/-- Take a pin on an object. -/
def pinObj (bus : Bus) (i : Nat) : Act Unit := do
  let o ← objGet bus i
  objPut bus i { o with pins := (o.pins + 1) % 2 ^ 32 }

/-- Release a pin on an object. -/
def unpinObj (bus : Bus) (i : Nat) : Act Unit := do
  let o ← objGet bus i
  objPut bus i { o with pins := o.pins - 1 }

/-- A LIVE object becomes TORN (R146). -/
def tearObj (bus : Bus) (i : Nat) : Act Unit := do
  let o ← objGet bus i
  if o.st = stLive then objPut bus i { o with st := stTorn }

/-! ### Version lines (R225, R500, R501) -/

/-- The request for the version line of a table, in its owning context. -/
def vlineReq (r : TrReq) (o : Obj) (acc : Access) : TrReq :=
  { r with user := .engine, ctx := o.ctx, va := BitVec.ofNat 64 (tableDesc o.raw).vlineVa, acc := acc }

def vlineGet (bus : Bus) (r : TrReq) (o : Obj) : Act VLine := do
  let bs ← lineRead bus (vlineReq r o .read) o.part
  pure (vlineOf bs)

/-- The version line of an object is bad from now on (R501). -/
def tornLine (s : State) (i : Nat) : State :=
  { s with qe := { s.qe with torn := if s.qe.torn.contains i then s.qe.torn else s.qe.torn ++ [i] } }

/-- Update a version line; a write that fails tears a LIVE table, and the line is bad (R501). -/
def vlinePut (bus : Bus) (r : TrReq) (i : Nat) (o : Obj) (v : VLine) : Act Unit :=
  onEnd (lineWrite bus (vlineReq r o .write) o.part v.bytes) fun st =>
    if st = stBusError then do
      modify fun s => tornLine s i
      tearObj bus i
    else pure ()

/-! ### Events (R147 to R150) -/

/-- Count an ignored signal of a context. -/
def staleSignal (s : State) (c : BitVec 12) : State := updCtx s c fun x => { x with stale := x.stale + 1 }

/-- The NOTE of an event that reached its maximum (R150). -/
def eventFull (s : State) (c : BitVec 12) (h : Word) : State :=
  note s { source := srcId 3 0 3, address := h, ctx := some c, part := some (ctxOf s c).part }

/-- Signal an event (R148, R150): one unsigned maximum at the home, translated in context `x`. `r` names the owner of the
request. -/
def signalIn (bus : Bus) (x : BitVec 12) (o : Obj) (h value : Word) (issuer : BitVec 12) (r : TrReq) : Act Unit := do
  let t ← trAct bus { r with user := .engine, ctx := x, va := BitVec.ofNat 64 o.va, acc := .atomic }
  let s ← get
  let old ← homeSwap { engineVia o.part s t.1 with born := r.owner.born s } bus t.1 (max value.toNat)
  if old = 2 ^ 64 - 1 ∨ value.toNat < old then modify fun s => staleSignal s issuer
  else if value.toNat = 2 ^ 64 - 1 then modify fun s => eventFull s issuer h

/-- Signal an event in the context that owns it. -/
def signalEvent (bus : Bus) (o : Obj) (h value : Word) (issuer : BitVec 12) (r : TrReq) : Act Unit :=
  signalIn bus o.ctx o h value issuer r

/-- Signal an event by its handle, checked as at dispatch; a bad one is ignored. -/
def signalHandle (bus : Bus) (h value : Word) (part : BitVec 3) (issuer : BitVec 12) (r : TrReq) : Act Unit := do
  let o ← attempt (lookupHandle bus h [tyEvent] part false)
  match o with
  | some o => signalEvent bus o h value issuer r
  | none => pure ()

/-- Try a signal of the complex that waits: held at a fault slot it goes on waiting, else it is made (R148). -/
def trySignal (s : State) (bus : Bus) (id : Nat) : State :=
  match Tab.find? s.qe.sigs id with
  | none => s
  | some g =>
    let gone (s : State) : State := { s with qe := { s.qe with sigs := Tab.erase s.qe.sigs id } }
    runAct (signalHandle bus g.event g.value g.part g.issuer
        { owner := .signal id, user := .engine, ctx := g.issuer, va := 0, acc := .atomic }) s
      (fun s _ => gone s)
      (fun s e => match e with
        | .held k => { s with qe := { s.qe with sigs := Tab.insert s.qe.sigs id { g with held := some k } } }
        | _ => gone s)

/-- Signal an event by its handle for the complex itself, now or once the signal can be made. -/
def postSignal (s : State) (bus : Bus) (event value : Word) (part : BitVec 3) (issuer : BitVec 12) : State :=
  let r := fresh s
  trySignal { r.1 with qe := { r.1.qe with sigs := Tab.insert r.1.qe.sigs r.2 ⟨event, value, part, issuer, none⟩ } } bus r.2

/-! ### The end of a command (R138, R139) -/

/-- The translation request of a command. -/
def cmdReq (id : Nat) (c : Cmd) (user : TrUser) (va : Word) (acc : Access) : TrReq :=
  { owner := .cmd id, user := user, ctx := c.ctx, va := va, acc := acc, queue := queueId c.ctx c.q, head := c.raw.head }

/-- A failed command moves its ENABLED context to FAULTED (R138). -/
def faultCtx (s : State) (c : BitVec 12) : State :=
  updCtx s c fun x => if x.st = .enabled then { x with st := .faulted } else x

/-- The fault record of a failing command (R138), at the source that R439 gives the rule it failed under. -/
def failRecord (s : State) (c : Cmd) (st : Byte) : State :=
  note s { source := c.faultSrc, address := c.faultAddr, detail := st, ctx := some c.ctx, part := some c.part
           queue := queueId c.ctx c.q, head := c.raw.head }

/-- A status faults the issuing context (R138). -/
def faults (c : Cmd) (st : Byte) : Bool := !harmless st && !(c.raw.soft && c.raw.cr)

/-- Opcodes that report a prefix in PROGRESS (R139). -/
def reportsProgress (op : Nat) : Bool := [opWritePips, opRemoteWrite, opCopy, opBagPool, opKeyAdmit, opKeyEvict].contains op

/-- A command ends with a status; its pins and completion follow at COMMAND_END. -/
def endCmd (s : State) (id : Nat) (st : Byte) (detail : BitVec 32) : State :=
  match cmdOf s id with
  | none => s
  | some c =>
    if c.phase = .finished then s else
    let s := updCmd s id fun c => { c with
      phase := .finished, status := st, work := .none
      detail := if [stTranslation, stBusError, stRemote].contains st then detail else 0
      progress := if reportsProgress c.raw.opcode then c.progress else 0 }
    if faults c st then
      updCtx (faultCtx (failRecord s c st) c.ctx) c.ctx fun x => { x with faults := x.faults + 1 }
    else s

def setProgress (s : State) (id n : Nat) : State := updCmd s id fun c => { c with progress := n }

/-- What a command does where an action of it stopped. -/
def stopCmd (id : Nat) (s : State) (e : Stop) : State :=
  match e with
  | .held k => updCmd s id fun c => { c with phase := .held k }
  | .ended st d => endCmd s id st d
  | .remote _ _ => endCmd s id stTranslation 0xFFFFFFFF
  | .wait => s

/-- The complex runs commands: no safe state, not in P3. -/
def runsWork (s : State) : Bool := s.tp.ready && !safeState s && decide (s.tp.pwr ≠ .p3)

/-- Run a command row: the command is dispatched with the given opcode and runs `m`, which ends it or leaves it
running. -/
def runCmd (s : State) (id op : Nat) (m : Cmd → Act Unit) : State :=
  match cmdOf s id with
  | none => s
  | some c =>
    if runsWork s ∧ c.phase = .dispatched ∧ c.raw.opcode = op then runAct (m c) s (fun s _ => s) (stopCmd id) else s

/-- A WAIT that has been dispatched and has not ended. -/
def Cmd.waits (c : Cmd) : Bool :=
  decide (c.raw.opcode = opWait) && (match c.phase with | .finished => false | .flushing _ => false | _ => true)

/-- The command ends OK. -/
def okCmd (id : Nat) : Act Unit := modify fun s => endCmd s id stOk 0

/-! ### Context keys and sealed records (R85, R97, R98, R425) -/

/-- The secret of a context, if it has a context key (R425). -/
def ctxSecretOf (s : State) (c : BitVec 12) : Option Secret :=
  let k := (ctxOf s c).keyRef
  if bit k 63 then
    match Tab.find? s.ps.secrets (bits k 9 0) with
    | some x => if x.ctx = c then some x else none
    | none => none
  else none

/-- The bytes of a text label. -/
def label (t : List Nat) : List Byte := t.map (BitVec.ofNat 8)
def labelIngest : List Byte := label [0x69, 0x6E, 0x67, 0x65, 0x73, 0x74]
def labelReturn : List Byte := label [0x72, 0x65, 0x74, 0x75, 0x72, 0x6E]

/-- A key of a context: HKDF of its secret with a label and the 2 B context ID. -/
def ctxKey (x : Secret) (lbl : List Byte) : BitVec 256 :=
  hkdf (leBytes 32 x.secret.toNat) (lbl ++ leBytes 2 x.ctx.toNat)

/-- The header of a record (R85). -/
def recHeader (ty len seq session off : Nat) : List Byte :=
  leBytes 4 ty ++ leBytes 4 len ++ leBytes 8 seq ++ leBytes 4 session ++ leBytes 4 0 ++ leBytes 8 off

/-- The nonce of a record: header bytes 8 to 19 (R86). -/
def recNonce (hdr : List Byte) : BitVec 96 := BitVec.ofNat 96 (leNat ((hdr.drop 8).take 12))

/-- A whole sealed record. -/
def sealRecord (key : BitVec 256) (hdr plain : List Byte) : List Byte :=
  let c := gcmSeal key (recNonce hdr) hdr plain
  hdr ++ padTo plain.length c.1 ++ leBytes 16 c.2.toNat ++ leBytes 16 0

/-- Units of 64 B in the bounce ring and those free (R100, R152). -/
def bounceUnits (x : Ctx) : Nat := 2 ^ x.sretLog2.toNat / 64
def bounceFree (x : Ctx) : Nat :=
  let n := bounceUnits x
  (x.sretHead.toNat % n + n - x.sretTail.toNat % n + n - 1) % n

/-- Write one sealed return record, if the ring has room and the function can issue (R97 to R100). -/
def sealedReturn (s : State) (c : BitVec 12) (q : Nat) (ty off : Nat) (plain : List Byte) : Option State :=
  let x := ctxOf s c
  let qs := queueOf s c q
  let port := if x.sretPort then 1 else 0
  let units := (plain.length + 64) / 64
  match ctxSecretOf s c with
  | none => none
  | some sec =>
    if bounceFree x < units ∨ fnIssues s (ctxFn s c) = false then none
    else
      let hdr := recHeader ty plain.length qs.seq.toNat qs.session.toNat off
      let body := sealRecord (ctxKey sec labelReturn) hdr plain
      let pos := x.sretTail.toNat % bounceUnits x * 64
      let first := min body.length (bounceUnits x * 64 - pos)
      let s := hostWrite s c port .sealedRec (x.sretRing + BitVec.ofNat 64 pos) (body.take first)
      let s := if first < body.length then hostWrite s c port .sealedRec x.sretRing (body.drop first) else s
      let s := updCtx s c fun x => { x with sretTail := BitVec.ofNat 32 ((x.sretTail.toNat + units) % bounceUnits x) }
      some (updQueue s c q fun y => { y with seq := y.seq + 1 })

/-! ### Completion records (R151, R152, R498) -/

/-- The 32 B record (R151). -/
def compBytes (c : BitVec 12) (q : Nat) (r : CompRec) (phase : Bool) : List Byte :=
  leBytes 4 r.user.toNat ++ leBytes 2 (queueId c q).toNat ++ [r.opcode, r.status] ++ leBytes 4 r.progress.toNat ++
    leBytes 2 r.head.toNat ++ leBytes 2 (flagAt phase 0) ++ leBytes 8 r.tick ++ leBytes 4 r.epoch.toNat ++
    leBytes 4 r.detail.toNat

/-- The ring has room: CQ_TAIL + 1 differs from the last CQ_HEAD (R152). -/
def compRoom (q : QState) : Bool :=
  decide ((q.cqTail.toNat + 1) % 2 ^ q.desc.cqLog2.toNat ≠ q.cqHead.toNat % 2 ^ q.desc.cqLog2.toNat)

/-- The port of a context's completion messages: the one that wrote the record (R99, R101). -/
def compPort (s : State) (c : BitVec 12) : Nat :=
  if (ctxOf s c).sret then (if (ctxOf s c).sretPort then 1 else 0) else (ctxFn s c).port

/-- After a record: CQ_TAIL and its phase advance, and the message follows. -/
def compAdvance (s : State) (c : BitVec 12) (q : Nat) (irq : Bool) : State :=
  let n := 2 ^ (queueOf s c q).desc.cqLog2.toNat
  let s := updQueue s c q fun y =>
    { y with comps := y.comps.tail, cqTail := BitVec.ofNat 16 ((y.cqTail.toNat + 1) % n)
             cqPhase := if (y.cqTail.toNat + 1) % n = 0 then !y.cqPhase else y.cqPhase }
  let d := (queueOf s c q).desc
  if irq && d.msi then msix s (ctxFn s c) d.vector.toNat else s

/-- The hint port of a partition's completion records, if it applies (R382). -/
def compHint (s : State) (p : BitVec 3) : Option Nat :=
  match Tab.find? s.ch.hints p.toNat with
  | some (true, n) => if s.ch.st = .up ∧ corePresent s n.toNat = true then some n.toNat else none
  | _ => none

/-- A record that could not be written is lost and the context moves to FAULTED (R498). -/
def compLost (s : State) (c : BitVec 12) (q : Nat) : State :=
  faultCtx (updQueue s c q fun y => { y with comps := y.comps.tail, cqHeld := none }) c

/-- Write the oldest waiting record of a queue: the state, and whether it went (or was lost). A sealed record leaves
CQ_TAIL and its phase as they are, so its PHASE bit stays the one that ENABLE gives: the spec does not say whether they
advance for a sealed-return queue (DESIGN CHOICE, log entry 79). -/
def compWrite (s : State) (bus : Bus) (c : BitVec 12) (q : Nat) : State × Bool :=
  let x := ctxOf s c
  let y := queueOf s c q
  match y.comps with
  | [] => (s, false)
  | r :: _ =>
    let bytes := compBytes c q r y.cqPhase
    let done (s : State) : State := compAdvance s c q r.irq
    if x.sret then
      match sealedReturn s c q 0x12 0 (padTo 64 bytes) with
      | none => (s, false)
      | some s' =>
        let s' := updQueue s' c q fun y => { y with comps := y.comps.tail }
        (if r.irq && y.desc.msi then msixAt s' (compPort s' c) (ctxFn s' c) y.desc.vector.toNat else s', true)
    else if !compRoom y || y.cqHeld.isSome then (s, false)
    else if y.desc.cqHost then
      if fnIssues s (ctxFn s c) then
        (done (hostWrite s c (ctxFn s c).port .completion (y.desc.cqAddr + BitVec.ofNat 64 (32 * y.cqTail.toNat)) bytes),
          true)
      else (s, false)
    else
      let va := y.desc.cqAddr + BitVec.ofNat 64 (32 * y.cqTail.toNat)
      let rq : TrReq := { owner := .comp c q, user := .engine, ctx := c, va := va, acc := .write }
      let t := translate s bus rq
      match t.2 with
      | .held k => (updQueue t.1 c q fun y => { y with cqHeld := some k }, false)
      | .wait => (waitBack s t.1, false)
      | .ok pa _ _ =>
        let v := engineVia x.part t.1 pa
        match (if y.desc.ncore then compHint t.1 x.part else none) with
        | some core =>
          if lineStatus t.1 v bus (pa / 64) false = .ok then
            let off := pa % 64
            (done (homeRequest t.1 ⟨.hint (List.replicate off 0 ++ bytes) (List.replicate off false ++ List.replicate 32 true),
              core, 0, pa / 64 * 64, false, some x.part⟩ bus), true)
          else
            let w := homeWrite v bus t.1 pa bytes
            (compLost w.1 c q, true)
        | none =>
          let rd := homeReady t.1 pa 32 true (some x.part) bus
          if !rd.2 then (waitBack s rd.1, false)
          else
            let w := homeWrite v bus rd.1 pa bytes
            if w.2 = .ok then (done w.1, true) else (compLost w.1 c q, true)
      | _ => (compLost t.1 c q, true)

/-- Write every waiting record that can go, in order. -/
def compPump (bus : Bus) (c : BitVec 12) (q : Nat) : Nat → State → State
  | 0, s => s
  | n + 1, s =>
    let r := compWrite s bus c q
    if r.2 then compPump bus c q n r.1 else r.1

def compFlow (s : State) (bus : Bus) (c : BitVec 12) (q : Nat) : State :=
  compPump bus c q (queueOf s c q).comps.length s

/-- PROGRESS of a completion record: what a command that failed had completed, and what a key command has processed; 0
otherwise (R139, R208). -/
def reportedProgress (c : Cmd) : BitVec 32 :=
  if c.status ≠ stOk ∨ c.raw.opcode = opKeyAdmit ∨ c.raw.opcode = opKeyEvict then BitVec.ofNat 32 c.progress else 0

/-- A command has completed: its record joins its queue's order, and the command is gone (R151). -/
def complete (s : State) (bus : Bus) (id : Nat) : State :=
  match cmdOf s id with
  | none => s
  | some c =>
    let s := { s with qe := { s.qe with cmds := Tab.erase s.qe.cmds id } }
    if c.raw.cr then
      let r : CompRec := ⟨id, c.raw.user, BitVec.ofNat 8 c.raw.opcode, c.status, reportedProgress c, c.raw.after,
        c.detail, c.raw.irq, s.tick, s.epoch⟩
      compFlow (updQueue s c.ctx c.q fun y => { y with comps := y.comps ++ [r] }) bus c.ctx c.q
    else s

/-- The flush read in flight on a port that a flush of a context can share: it has the same function and PASID, and the
port has issued no host write since (R94). -/
def flushShared (s : State) (c : BitVec 12) (port : Nat) : Option Nat :=
  (List.find? (fun e => decide (e.2.fn = ctxFn s c ∧ e.2.pasid = ctxPasid s c ∧ e.2.upto = (hostPort s port).sent))
    (hostPort s port).flushes).map (·.1)

/-- A flush read of a context on a host port for some completion (R94), sent now or shared: the state and its number. -/
def startFlush (s : State) (c : BitVec 12) (port : Nat) (addr : Word) (f : FlushFor) : State × Nat :=
  match flushShared s c port with
  | some k =>
    (updHost s port fun h => { h with flushes := Tab.modify h.flushes k fun x => { x with covers := x.covers ++ [f] } }, k)
  | none =>
    let r := fresh s
    let h := updHost r.1 port fun h =>
      { h with flushes := Tab.insert h.flushes r.2 ⟨addr, ctxFn s c, ctxPasid s c, h.sent, s.tick, [f]⟩ }
    (emit h (.flushRead port (ctxFn s c).vf r.2 addr (ctxPasid s c)), r.2)

/-- Note the last address that a command wrote through a host port (R94). -/
def usedPort (ports : List (Nat × Word)) (p : Nat) (a : Word) : List (Nat × Word) :=
  (ports.filter fun e => e.1 ≠ p) ++ [(p, a)]

/-! ### The context entry in memory (R110 to R113) -/

def ctxAddr (s : State) (c : BitVec 12) : Nat := s.qe.ctxBase.toNat * 0x200000 + 512 * c.toNat

/-- The route of a context load or write-back: reported at CTX_LOAD, naming the context (R496). -/
def loadVia (s : State) (c : BitVec 12) : Via :=
  { homeVia s none (some c) (ctxAddr s c / 64) with src := srcId 3 0 4, part := (ctxOf s c).part, sys := true }

/-- The bytes that a write-back puts at 320: counters, mark, sessions and sequence numbers, bounce-ring pointers
(R113; the layout of SAVE is the model's own, log entry 25). -/
def saveBytes (x : Ctx) : List Byte :=
  leBytes 8 x.stale.toNat ++ leBytes 8 x.commands.toNat ++ leBytes 4 x.faults.toNat ++ leBytes 4 x.dbParks.toNat ++
    (saveMark :: leBytes 7 0) ++
    ((List.range 8).flatMap fun i =>
      let q := Tab.get {} x.qs i
      leBytes 4 q.session.toNat ++ leBytes 8 q.seq.toNat) ++
    leBytes 4 x.sretTail.toNat ++ leBytes 4 x.sretHead.toNat

/-- One more write of a series: the state, and whether all of them succeeded so far. -/
def alsoOk (w : State × BusStatus) (ok : Bool) : State × Bool := (w.1, ok && decide (w.2 = .ok))

/-- Write back the saved fields of the queues, one descriptor after the other. -/
def writeQueues (s : State) (bus : Bus) (c : BitVec 12) : State × Bool :=
  (List.range 8).foldl (fun (r : State × Bool) i =>
    alsoOk (homeWrite (loadVia r.1 c) bus r.1 (ctxAddr s c + 64 + 32 * i + 24)
      (qsaveBytes (Tab.get {} (ctxOf s c).qs i))) r.2) (s, true)

/-- Write a context back (R113): false where a write failed. -/
def writeBack (s : State) (bus : Bus) (c : BitVec 12) : State × Bool :=
  let r := writeQueues s bus c
  alsoOk (homeWrite (loadVia r.1 c) bus r.1 (ctxAddr s c + 320) (saveBytes (ctxOf s c))) r.2

/-- A context as its entry describes it: the fields of R111, the counters and the queues as R113 starts them. -/
def ctxFromEntry (x : Ctx) (bs : List Byte) : Ctx :=
  let w := BitVec.ofNat 64 (leAt bs 0 8)
  let saved := entrySaved bs
  let old (i : Nat) : QState := Tab.get {} x.qs i
  let sess (i : Nat) : BitVec 32 := if saved then BitVec.ofNat 32 (leAt bs (352 + 12 * i) 4) else (old i).session
  let seq (i : Nat) : Word := if saved then BitVec.ofNat 64 (leAt bs (356 + 12 * i) 8) else (old i).seq
  { x with
    conf := bit w 1, sret := bit w 2, ctrl := bit w 3, part := BitVec.ofNat 3 (bits w 6 4)
    fnVf := BitVec.ofNat 6 (bits w 13 8), fnPort := bit w 14, pasid := BitVec.ofNat 20 (bits w 35 16), pasidEn := bit w 36
    roData := bit w 37, idoData := bit w 38, sretPort := bit w 39
    ttRoot := BitVec.ofNat 64 (leAt bs 8 8), sretRing := BitVec.ofNat 64 (leAt bs 16 8)
    sretLog2 := BitVec.ofNat 5 (byteAt bs 24), keyRef := BitVec.ofNat 64 (leAt bs 32 8)
    stale := BitVec.ofNat 64 (leAt bs 320 8), commands := BitVec.ofNat 64 (leAt bs 328 8)
    faults := BitVec.ofNat 32 (leAt bs 336 4), dbParks := BitVec.ofNat 32 (leAt bs 340 4)
    sretTail := if saved then BitVec.ofNat 32 (leAt bs 448 4) else x.sretTail
    sretHead := if saved then BitVec.ofNat 32 (leAt bs 452 4) else x.sretHead
    qs := (List.range 8).foldl (fun t i => Tab.set {} t i (queueStart (qdescBytes bs i) saved (sess i) (seq i))) [] }

end Sys2Proof.Machine
end

