-- ==== Sys2Proof/Machine/Rings.lean ====
section
/-! DEFINITION. Doorbells, ring reads, context loads and evictions (spec file 04, R117 to R126). -/

namespace Sys2Proof.Machine

open Sys2Proof

/-! ### Who may act -/

/-- Work is being drained for P3 (R475). -/
def draining (s : State) : Bool := s.tp.draining.isSome

/-- Count a dropped window write or doorbell (HP_CNT_DROPPED). -/
def dropOne (s : State) (port : Nat) (revoked : Bool) : State :=
  updHost s port fun h =>
    if revoked then { h with dropRevoked := h.dropRevoked + 1 } else { h with dropOther := h.dropOther + 1 }

/-- A host port of the build. -/
def hostExists (s : State) (p : Nat) : Bool := decide (p < s.build.hostPorts.length)

/-- An event of R106: its fault and its AER report. -/
def portEvent (s : State) (port kind : Nat) (a : Aer) : State :=
  if hostExists s port && decide (s.tp.pwr ≠ .p3) then emit (note s { source := srcId 1 port kind }) (.aer port a) else s

/-- The NOTE of a doorbell or window write aimed at another partition's context (R71). -/
def noteDropped (s : State) (port : Nat) (p : Option (BitVec 3)) : State :=
  note s { source := srcId 1 port 0, part := p }

/-- A function in TDISP RUN takes writes only on a selective stream bound to its partition (R103). -/
def ideOk (s : State) (fn : Fn) (stream : Option Nat) : Bool :=
  if fn.vf = 0 ∨ (fnState s fn).tdi ≠ .run then true
  else match stream with
    | none => false
    | some k =>
      match Tab.find? (hostPort s fn.port).streams k with
      | some x => x.active && decide (x.part = fnPart s fn) && x.part.isSome
      | none => false

/-! ### Reading rings -/

/-- A queue that near cores submit to while the domain is not UP: its doorbells are only recorded and its ring is not
read (R14, R126). -/
def coresAway (s : State) (y : QState) : Bool := y.desc.ncore && decide (s.ch.st ≠ .up)

/-- Start a read of a queue's ring where entries wait and nothing holds it. -/
def kick (s : State) (c : BitVec 12) (q : Nat) : State :=
  let x := ctxOf s c
  let y := queueOf s c q
  let ok := x.slot.isSome && decide (x.st = .enabled) && !x.disabling && y.desc.en && !y.parked && decide (y.head ≠ y.tail)
    && !y.reading && y.held.isNone && y.backoff.isNone && !coresAway s y && !draining s
    && !partClosing s x.part && runsWork s
  if ok then updQueue s c q fun y => { y with reading := true, dbPend := false } else s

def kickAll (s : State) (c : BitVec 12) : State := each (fun s q => kick s c q) s (List.range 8)

/-- Start the load of a context that is not resident (R117). -/
def startLoad (s : State) (c : BitVec 12) : State :=
  let x := ctxOf s c
  if x.slot.isNone ∧ (x.st = .enabled ∨ x.st = .faulted) ∧ runsWork s = true then
    updCtx s c fun x => { x with loading := true }
  else s

/-- Park a queue after doorbell patience or a bad TAIL: DB_PARKS counts and a NOTE is posted (R123, R124). -/
def parkQueue (s : State) (c : BitVec 12) (q : Nat) : State :=
  let s := updQueue s c q fun y => { y with parked := true, reading := false, backoff := none }
  let s := updCtx s c fun x => { x with dbParks := x.dbParks + 1 }
  note s { source := srcId 3 0 1, ctx := some c, part := some (ctxOf s c).part }

/-! ### Doorbells at the queue engine -/

/-- The context and queue accept a doorbell (R114). -/
def dbAccepted (s : State) (c : BitVec 12) (q : Nat) : Bool :=
  let x := ctxOf s c
  (decide (x.st = .enabled) || decide (x.st = .faulted)) && !x.disabling && (queueOf s c q).desc.en

/-- A doorbell that the queue engine acts on (R121 to R123); one with TAIL equal to HEAD has no effect (R122). -/
def dbAct (s : State) (bus : Bus) (c : BitVec 12) (q : Nat) (f : DbField) (value : BitVec 32) : State :=
  match f with
  | .tail =>
    let y := queueOf s c q
    let v := value.toNat % 65536
    if 2 ^ y.desc.ringLog2.toNat ≤ v then parkQueue s c q
    else if y.head.toNat = v then s
    else
      let s := updQueue s c q fun y => { y with tail := BitVec.ofNat 16 v, parked := false, dbPend := true }
      if (ctxOf s c).slot.isNone then (if draining s then s else startLoad s c) else kick s c q
  | .cqHead =>
    compFlow (updQueue s c q fun y => { y with cqHead := BitVec.ofNat 16 (value.toNat % 65536) }) bus c q
  | .sretHead =>
    if q = 0 then
      each (fun s i => compFlow s bus c i) (updCtx s c fun x => { x with sretHead := value }) (List.range 8)
    else s

/-- A doorbell at the queue engine: recorded while the near cores of its queue are away (R126). -/
def dbDeliver (s : State) (bus : Bus) (c : BitVec 12) (q : Nat) (f : DbField) (value : BitVec 32) : State :=
  if coresAway s (queueOf s c q) then updQueue s c q fun y => { y with late := y.late ++ [(f, value)] }
  else dbAct s bus c q f value

/-- The doorbells that a queue was given while its near cores were away are acted on, in order (R14, R126). -/
def dbLate (s : State) (bus : Bus) (c : BitVec 12) (q : Nat) : State :=
  each (fun s d => dbAct s bus c q d.1 d.2) (updQueue s c q fun y => { y with late := [] }) (queueOf s c q).late

/-- A doorbell past the fence of its port: dropped and counted where the context or queue takes none. -/
def dbArrive (s : State) (bus : Bus) (port : Nat) (c : BitVec 12) (q : Nat) (f : DbField) (value : BitVec 32) : State :=
  if dbAccepted s c q then dbDeliver s bus c q f value else dropOne s port false

/-- The context and queue that a doorbell page of a function names (R73, R74). -/
def dbTarget (s : State) (fn : Fn) (page : Nat) : Option (BitVec 12 × Nat) :=
  if fn.vf = 0 then
    if page < 32768 then some (BitVec.ofNat 12 (page / 8), page % 8) else none
  else
    let e := Tab.get {} (hostPort s fn.port).ctxMap (fn.vf * 64 + page / 8)
    if page < 512 ∧ e.valid = true then some (e.ctx, page % 8) else none

/-- A window write of a port has neither committed nor failed (R90). -/
def portBusy (s : State) (port before : Nat) : Bool :=
  s.wws.any fun w => decide (w.1 < before ∧ w.2.port = port)

/-- A host doorbell as its port receives it (R71, R74, R90, R92, R103). -/
def hostDoorbell (s : State) (fn : Fn) (stream : Option Nat) (page : Nat) (f : DbField) (value : BitVec 32) : State :=
  if !fnExists s fn || !s.tp.ready || decide (s.tp.pwr = .p3) then s
  else if safeState s then dropOne s fn.port false
  else
    match fnPart s fn with
    | none => dropOne s fn.port false
    | some p =>
      if partClosing s p then dropOne s fn.port true
      else if !ideOk s fn stream then dropOne s fn.port false
      else match dbTarget s fn page with
        | none => dropOne s fn.port false
        | some (c, q) =>
          if ctxPart s c ≠ some p then noteDropped (dropOne s fn.port false) fn.port (some p)
          else if portBusy s fn.port s.nextId || !(hostPort s fn.port).fenced.isEmpty then
            updHost s fn.port fun h => { h with fenced := h.fenced ++ [⟨c, q, f, value, s.nextId⟩] }
          else dbArrive s [] fn.port c q f value

def execDoorbellTail (fn : Fn) (stream : Option Nat) (page : Nat) (value : BitVec 32) (s : State) : Res :=
  .next (hostDoorbell s fn stream page .tail value)

def execDoorbellCqHead (fn : Fn) (stream : Option Nat) (page : Nat) (value : BitVec 32) (s : State) : Res :=
  .next (hostDoorbell s fn stream page .cqHead value)

def execDoorbellSretHead (fn : Fn) (stream : Option Nat) (page : Nat) (value : BitVec 32) (s : State) : Res :=
  .next (hostDoorbell s fn stream page .sretHead value)

/-- Pass the doorbells whose window writes have all ended, in the order received. -/
def fencePass (bus : Bus) (port : Nat) : Nat → State → State
  | 0, s => s
  | n + 1, s =>
    match (hostPort s port).fenced with
    | [] => s
    | d :: _ =>
      if portBusy s port d.before then s
      else
        let s := updHost s port fun h => { h with fenced := h.fenced.tail }
        fencePass bus port n (dbArrive s bus port d.ctx d.q d.fld d.value)

/-- DOORBELL_FENCE_CLEAR (R90). -/
def execDoorbellFenceClear (port : Nat) (bus : Bus) (s : State) : Res :=
  .next (fencePass bus port (hostPort s port).fenced.length s)

/-! ### Loads and evictions (R117, R118, R496) -/

/-- A context has a dispatched command other than a pending WAIT. -/
def ctxBusy (s : State) (c : BitVec 12) : Bool :=
  s.qe.cmds.any fun e => decide (e.2.ctx = c) &&
    !(match e.2.work with | .waiting _ _ _ _ => decide (e.2.phase = .running) | _ => false)

/-- The resident contexts with their slots. -/
def residents (s : State) : List (Nat × Nat × Ctx) :=
  s.qe.ctxs.filterMap fun e => e.2.slot.map fun k => (k, e.1, e.2)

/-- The slots of a partition, of those that the build has (R22). -/
def slotsOf (s : State) (p : BitVec 3) : List Nat :=
  (range (partOf s p).slotBase.toNat (partOf s p).slotCount.toNat).filter fun k => decide (k < s.build.slots)

/-- The slot that a load may take: a free one, or that of the least recently dispatched context that may be evicted. -/
def loadSlot (s : State) (p : BitVec 3) : Option (Nat × Option Nat) :=
  let rs := (residents s).filter fun r => (slotsOf s p).contains r.1
  match (slotsOf s p).find? fun k => !(rs.any fun r => r.1 = k) with
  | some k => some (k, none)
  | none =>
    let cand := rs.filter fun r => !r.2.2.pinned && !ctxBusy s (BitVec.ofNat 12 r.2.1)
    match sortBy (fun a b => decide (a.2.2.used ≤ b.2.2.used)) cand with
    | r :: _ => some (r.1, some r.2.1)
    | [] => none

/-- A queue of an evicted context: a ring read that had begun is a pending doorbell again (R118). -/
def QState.evicted (y : QState) : QState :=
  { y with reading := false, backoff := none, dbPend := y.dbPend || y.reading || y.backoff.isSome }

/-- A queue has a doorbell to act on, or commands that it has consumed and not dispatched. -/
def QState.waiting (y : QState) : Bool := y.dbPend || !y.ready.isEmpty

/-- Evict a context: write it back; a failed write-back moves it to FAULTED (R496). One with pending doorbells or with
consumed commands, which the queue engine keeps, loads again (R118; log entry 26). -/
def evict (s : State) (bus : Bus) (c : BitVec 12) : State :=
  let w := writeBack s bus c
  let s := updCtx w.1 c fun x =>
    let qs := x.qs.map fun q => (q.1, q.2.evicted)
    { x with slot := none, qs := qs, loading := w.2 && qs.any fun q => q.2.waiting }
  if w.2 then s else faultCtx (updCtx s c fun x => { x with torn := true }) c

/-- The queue of a loaded context: the position from the entry, the pending doorbells from the queue engine, as well as
the commands that it has consumed, with the position after them. What the queue engine has moved on since the write-back
(a record written, a key rotated) stands over the entry, unless that write-back failed. -/
def mergeQueue (torn : Bool) (old new : QState) : QState :=
  let y := { new with tail := old.tail, cqHead := old.cqHead, dbPend := old.dbPend, parked := old.parked, held := old.held
                      comps := old.comps, cqHeld := old.cqHeld, dirty := old.dirty, late := old.late }
  let y := if old.ready = [] then y else { y with ready := old.ready, head := old.head, phase := old.phase }
  if torn then y else { y with cqTail := old.cqTail, cqPhase := old.cqPhase, session := old.session, seq := old.seq }

/-- The slot of a load is free: its victim, if there is one, is evicted. -/
def freeSlot (s : State) (bus : Bus) (victim : Option Nat) : State :=
  match victim with
  | some v => evict s bus (BitVec.ofNat 12 v)
  | none => s

/-- A context as its entry and the queue engine describe it once it is loaded into slot `k`. -/
def loadedCtx (old : Ctx) (bs : List Byte) (k : Nat) : Ctx :=
  let ent := ctxFromEntry old bs
  let new := if old.torn then ent else { ent with
    stale := old.stale, commands := old.commands, faults := old.faults, dbParks := old.dbParks
    sretHead := old.sretHead, sretTail := old.sretTail }
  { new with
    loading := false, slot := some k, torn := false
    qs := (List.range 8).foldl (fun t i =>
      Tab.set {} t i (mergeQueue old.torn (Tab.get {} old.qs i) (Tab.get {} ent.qs i))) [] }

/-- Read the entry of a context into slot `k`; a failed load moves the context to FAULTED (R117, R496). -/
def loadEntry (s : State) (bus : Bus) (c : BitVec 12) (k : Nat) : State :=
  let d := homeRead (loadVia s c) bus s (ctxAddr s c) 512
  if d.2.1 ≠ .ok then faultCtx (updCtx d.1 c fun x => { x with loading := false }) c
  else kickAll (updCtx d.1 c fun x => loadedCtx x d.2.2 k) c

/-- CONTEXT_LOAD_DONE (R117, R118, R496). -/
def execContextLoadDone (c : BitVec 12) (bus : Bus) (s : State) : Res :=
  let x := ctxOf s c
  if !x.loading || !runsWork s then .next s
  else if x.st ≠ .enabled ∧ x.st ≠ .faulted then .next (updCtx s c fun x => { x with loading := false })
  else match loadSlot s x.part with
    | none => .next s
    | some (k, victim) =>
      let rdy := homeReady s (ctxAddr s c) 512 false none bus
      if !rdy.2 then .next rdy.1 else .next (loadEntry (freeSlot rdy.1 bus victim) bus c k)

/-! ### Consuming entries (R122, R124, R497) -/

/-- The phase that an entry at a ring position must carry. -/
def phaseAt (y : QState) (i : Nat) : Bool :=
  if y.head.toNat + i < 2 ^ y.desc.ringLog2.toNat then y.phase else !y.phase

/-- Read one ring entry. -/
def readEntry (bus : Bus) (c : BitVec 12) (q : Nat) (pos : Nat) : Act (List Byte) := do
  let s ← get
  let y := queueOf s c q
  let va := BitVec.ofNat 64 (y.desc.ringVa.toNat + 64 * (pos % 2 ^ y.desc.ringLog2.toNat))
  engRead bus { owner := .ring c q, user := .engine, ctx := c, va := va, acc := .read } (ctxOf s c).part 64

def entryPhase (e : List Byte) : Bool := (byteAt e 1).testBit 0

/-- Read the next command of a queue: none while an entry of it is not yet visible. -/
def readCommand (bus : Bus) (c : BitVec 12) (q : Nat) : Act (Option RawCmd) := do
  let s ← get
  let y := queueOf s c q
  let size := 2 ^ y.desc.ringLog2.toNat
  let run := (y.tail.toNat + size - y.head.toNat) % size
  let e ← readEntry bus c q y.head.toNat
  let n := if byteAt e 3 ≤ 16 then byteAt e 3 else 0
  if entryPhase e ≠ phaseAt y 0 ∨ run < 1 + n then pure none
  else do
    let conts ← mapAll (fun i => readEntry bus c q (y.head.toNat + i)) (range 1 n)
    if (range 1 n).all fun i => decide (entryPhase (conts.getD (i - 1) []) = phaseAt y i) then
      pure (some ⟨y.head, BitVec.ofNat 16 ((y.head.toNat + 1 + n) % size), e, conts⟩)
    else pure none

/-- Take a command out of the ring: HEAD advances and the phase flips at the wrap. -/
def consume (s : State) (c : BitVec 12) (q : Nat) (r : RawCmd) : State :=
  updQueue s c q fun y =>
    { y with ready := y.ready ++ [r], head := r.after, backoff := none
             phase := if y.head.toNat + 1 + r.conts.length < 2 ^ y.desc.ringLog2.toNat then y.phase else !y.phase }

/-- Back off after a read that found an entry not visible (R124): 0.25 µs, doubling up to 2 µs. -/
def backOff (s : State) (c : BitVec 12) (q : Nat) : State :=
  updQueue s c q fun y =>
    let d := match y.backoff with
      | none => 250
      | some (d, _) => min (2 * d) 2000
    { y with reading := false, backoff := some (d, s.tick + d), firstBad := if y.backoff.isNone then s.tick else y.firstBad }

/-- Consume commands until the run ends or a read stops. -/
def consumeLoop (bus : Bus) (c : BitVec 12) (q : Nat) : Nat → State → State
  | 0, s => updQueue s c q fun y => { y with reading := false }
  | fuel + 1, s =>
    let y := queueOf s c q
    if y.head = y.tail then updQueue s c q fun y => { y with reading := false, backoff := none }
    else match readCommand bus c q s with
      | .ok none s' => backOff s' c q
      | .ok (some r) s' => consumeLoop bus c q fuel (consume s' c q r)
      | .error (.held k) s' => updQueue s' c q fun y => { y with reading := false, held := some k }
      | .error .wait s' => waitBack s s'
      | .error _ s' => updQueue s' c q fun y => { y with reading := false, parked := true, backoff := none }

/-- A ring read that may not go on now is a pending doorbell again. -/
def readLater (s : State) (c : BitVec 12) (q : Nat) : State :=
  updQueue s c q fun y => { y with reading := false, dbPend := true }

/-- The ring read of a queue goes on where its context is resident and its near cores are there; else it waits. -/
def readAgain (s : State) (c : BitVec 12) (q : Nat) : State :=
  if coresAway s (queueOf s c q) then readLater s c q
  else if (ctxOf s c).slot.isNone then startLoad (readLater s c q) c
  else updQueue s c q fun y => { y with reading := true }

/-- RING_READ_RESPONSE (R122); nothing is consumed from a near-core queue while the domain is not UP (R14, R126). -/
def execRingReadResponse (c : BitVec 12) (q : Nat) (bus : Bus) (s : State) : Res :=
  if (queueOf s c q).reading && runsWork s then
    .next (if coresAway s (queueOf s c q) then readLater s c q else consumeLoop bus c q 65536 s)
  else .next s

/-- DB_BACKOFF_REREAD (R124): the delay expires and the ring is read again. -/
def execDbBackoffReread (c : BitVec 12) (q : Nat) (s : State) : Res :=
  match (queueOf s c q).backoff with
  | none => .next s
  | some (_, due) =>
    if (queueOf s c q).parked || !runsWork s || coresAway s (queueOf s c q) then .next s
    else .next (updQueue (reach s due) c q fun y => { y with reading := true })

/-- DB_PATIENCE_EXPIRE (R124). -/
def execDbPatienceExpire (c : BitVec 12) (q : Nat) (s : State) : Res :=
  let y := queueOf s c q
  if y.backoff.isSome && !y.parked && runsWork s then
    .next (parkQueue (reach s (y.firstBad + s.qe.patience.toNat * 1000)) c q)
  else .next s

end Sys2Proof.Machine
end

