-- ==== Sys2Proof/Machine/Mapping.lean ====
section
/-! DEFINITION. Changes of mappings (spec file 05, R166 to R176, R494, R495): frame pools, scans of leaves, MAP and UNMAP,
the pages of a freed object, and the users that an invalidation waits for. -/

namespace Sys2Proof.Machine

open Sys2Proof

/-! ### Frame pools (R173 to R175, R494) -/

def poolIdx (p : BitVec 3) (cls : Nat) : Nat := 4 * p.toNat + cls
def poolOf (s : State) (p : BitVec 3) (cls : Nat) : Pool := Tab.get {} s.tu.pools (poolIdx p cls)
def updPool (s : State) (p : BitVec 3) (cls : Nat) (f : Pool → Pool) : State :=
  { s with tu := { s.tu with pools := Tab.upd {} s.tu.pools (poolIdx p cls) f } }

/-- Bytes of a page of a class. -/
def clsBytes (cls : Nat) : Nat := 2 ^ (12 + 9 * cls)

/-- The route of the walker to a pool ring, a system structure (R413). -/
def poolVia (s : State) (slice : Nat) : Via := { walkVia s slice 0 with sys := true }

/-- The NOTE of a pool at a page slice (R175, R176, R494). -/
def poolNote (s : State) (slice : Nat) (p : BitVec 3) (a : Nat) : State :=
  note s { source := srcId 4 slice 1, address := BitVec.ofNat 64 a, part := some p }

/-- Every 2 MiB unit (or the one page) of a frame lies in the partition's ranges. -/
def frameInPart (s : State) (p : BitVec 3) (a n : Nat) : Bool :=
  (List.range (ceilDiv n unit2M)).all fun i => partCovers s p (a + i * unit2M)

/-- A frame that the alloc ring holds may be used (R175). -/
def frameGood (s : State) (p : BitVec 3) (cls : Nat) (w : Nat) : Bool :=
  decide (w / 2 ^ 48 = 0 ∧ w % clsBytes cls = 0) && frameInPart s p w (clsBytes cls)

/-- Entries of an alloc ring that a take may look at. -/
def poolFuel (s : State) (p : BitVec 3) (cls : Nat) : Nat :=
  ((poolOf s p cls).aProd - (poolOf s p cls).aCons).toNat + 1

/-- Take a frame from a pool, skipping bad entries; none where the ring is empty (R174, R175). A pool whose LOG2 is 0 counts
as empty: the spec says only what a return to such a pool does (DESIGN CHOICE, log entry 82). -/
def takeFrame (bus : Bus) (slice : Nat) (p : BitVec 3) (cls : Nat) : Nat → Act (Option Nat)
  | 0 => pure none
  | fuel + 1 => do
    let s ← get
    let x := poolOf s p cls
    if x.log2 = 0 ∨ x.aProd = x.aCons then pure none
    else do
      let w ← homeGet (poolVia s slice) bus (x.base.toNat * 4096 + 8 * (x.aCons.toNat % 2 ^ x.log2.toNat)) 8
      modify fun s => updPool s p cls fun x => { x with aCons := x.aCons + 1 }
      let s ← get
      if frameGood s p cls (leNat w) then pure (some (leNat w))
      else do
        modify fun s => poolNote s slice p (leNat w)
        takeFrame bus slice p cls fuel

/-- Room in a return ring. -/
def Pool.room (x : Pool) : Bool := decide ((x.rProd - x.rCons).toNat < 2 ^ x.log2.toNat)

/-- Put a frame onto a return ring that has room; a failed write leaves PROD and the frame behind (log entry 28). -/
def putFrame (s : State) (bus : Bus) (slice : Nat) (p : BitVec 3) (cls frame : Nat) : State :=
  let x := poolOf s p cls
  let a := x.base.toNat * 4096 + 8 * 2 ^ x.log2.toNat + 8 * (x.rProd.toNat % 2 ^ x.log2.toNat)
  let w := homeWrite (poolVia s slice) bus s a (leBytes 8 frame)
  if w.2 = .ok then updPool w.1 p cls fun x => { x with rProd := x.rProd + 1 } else w.1

/-- Return a frame to its pool: to no pool under R494, waiting while the ring is full (R176). -/
def pushFrame (s : State) (bus : Bus) (slice : Nat) (p : BitVec 3) (cls frame : Nat) : State :=
  let x := poolOf s p cls
  if x.log2 = 0 then poolNote s slice p frame
  else if x.waiting ≠ [] ∨ x.room = false then updPool s p cls fun x => { x with waiting := x.waiting ++ [frame] }
  else putFrame s bus slice p cls frame

/-- Put the frames that wait, while the ring has room. -/
def drainPool (bus : Bus) (p : BitVec 3) (cls : Nat) : Nat → State → State
  | 0, s => s
  | n + 1, s =>
    let x := poolOf s p cls
    match x.waiting with
    | [] => s
    | f :: t =>
      if x.room then
        drainPool bus p cls n (putFrame (updPool s p cls fun x => { x with waiting := t }) bus 0 p cls f)
      else s

/-- No frame of a partition waits for a return ring. -/
def poolsQuiet (s : State) (p : BitVec 3) : Bool := (List.range 4).all fun c => (poolOf s p c).waiting.isEmpty

/-! ### Scans of translation tables -/

/-- A leaf found in a context's tables. -/
structure Leaf where
  va    : Nat
  level : Nat
  addr  : Nat
  pte   : Word
  deriving DecidableEq, Repr

def Leaf.size (l : Leaf) : Nat := 2 ^ lvlLog2 l.level

/-- The partition of a context: of a DISABLED one, by the partition table. -/
def ctxPartNow (s : State) (ctx : BitVec 12) : BitVec 3 :=
  if (ctxOf s ctx).st = .disabled then (ctxPart s ctx).getD 0 else (ctxOf s ctx).part

/-- The route of the walker for a context's tables. -/
def tableVia (s : State) (ctx : BitVec 12) (va : Nat) : Via :=
  walkVia s (pageSlice s ctx (BitVec.ofNat 64 va)) (ctxPartNow s ctx)

/-- TT_ROOT of a context: of a DISABLED one, from its entry, if that is VALID (R176). -/
def rootOf (bus : Bus) (ctx : BitVec 12) : Act Word := do
  let s ← get
  if (ctxOf s ctx).st ≠ .disabled then pure (ctxOf s ctx).ttRoot
  else do
    let bs ← homeGet (sysVia s (ctxAddr s ctx)) bus (ctxAddr s ctx) 64
    pure (if (byteAt bs 0).testBit 0 then BitVec.ofNat 64 (leAt bs 8 8) else 0)

/-- Every valid leaf that overlaps [lo, hi), from a table downward. With `tol`, a line that cannot be read hides the
leaves below it (R495); otherwise it ends the scan. -/
def scanTable (tol : Bool) (bus : Bus) (ctx : BitVec 12) (lo hi : Nat) : Nat → Nat → Nat → Act (List Leaf)
  | 0, _, _ => pure []
  | level + 1, table, base => do
    let span := 2 ^ lvlLog2 level
    if hi ≤ base then pure []
    else do
      let first := (lo - base) / span
      let last := min 511 ((hi - 1 - base) / span)
      if last < first then pure []
      else do
        let found ← mapAll (fun line => do
          let s ← get
          let a := table + 64 * line
          let rd := homeGet (tableVia s ctx (base + 8 * line * span)) bus a 64
          let got ← if tol then attempt rd else (do let b ← rd; pure (some b))
          match got with
          | none => pure []
          | some bs => do
            let parts ← mapAll (fun i => do
              let idx := 8 * line + i
              let pte := BitVec.ofNat 64 (leAt bs (8 * i) 8)
              let va := base + idx * span
              if idx < first ∨ last < idx ∨ pteV pte = false then pure []
              else if level = 0 ∨ pteLF pte = true then pure [Leaf.mk va level (table + 8 * idx) pte]
              else scanTable tol bus ctx lo hi level (pteNext pte) va) (List.range 8)
            pure parts.flatten) (range (first / 8) (last / 8 - first / 8 + 1))
        pure found.flatten

/-- Every valid leaf of a context that overlaps a range. -/
def leavesOf (tol : Bool) (bus : Bus) (ctx : BitVec 12) (lo hi : Nat) : Act (List Leaf) := do
  let got ← if tol then attempt (rootOf bus ctx) else (do let w ← rootOf bus ctx; pure (some w))
  let root := got.getD 0
  if bit root 0 && decide (lo < hi) then scanTable tol bus ctx lo hi 5 (pteNext root) 0 else pure []

/-- What stands at a level for an address: nothing valid above or at it, a leaf in the way, or a table at that level. -/
inductive Spot where
  | free
  | leaf
  | table
  deriving DecidableEq, Repr

/-- Look for the entry of an address at a level. -/
def spotAt (bus : Bus) (ctx : BitVec 12) (va want : Nat) : Nat → Nat → Act Spot
  | 0, _ => pure .free
  | level + 1, table => do
    let s ← get
    let a := table + 8 * ((va >>> lvlLog2 level) % 512)
    let bs ← homeGet (tableVia s ctx va) bus a 8
    let pte := BitVec.ofNat 64 (leNat bs)
    if !pteV pte then pure .free
    else if level = 0 ∨ pteLF pte = true then pure .leaf
    else if level = want then pure .table
    else spotAt bus ctx va want level (pteNext pte)

/-- Write an entry of a translation table through the home (R166). -/
def putPte (bus : Bus) (ctx : BitVec 12) (va a : Nat) (pte : Word) : Act Unit := do
  let s ← get
  homePut (tableVia s ctx va) bus a (leBytes 8 pte.toNat)

/-- Zero a page that becomes a table. -/
def zeroTable (bus : Bus) (ctx : BitVec 12) (va a : Nat) : Act Unit := do
  let s ← get
  homePut (tableVia s ctx va) bus a (List.replicate 4096 0)

/-! ### Invalidations and the users they wait for (R168) -/

/-- The bag work of a number: of a command, or of a served REMOTE_POOL. -/
def bagOf (s : State) (id : Nat) : Option BagWork :=
  match cmdOf s id with
  | some c => match c.work with
    | .bag w => some w
    | _ => none
  | none => (Tab.find? s.bl.served id).bind (·.bag)

/-- Put the bag work of a number back. -/
def setBag (s : State) (id : Nat) (w : BagWork) : State :=
  match cmdOf s id with
  | some _ => updCmd s id fun c => { c with work := .bag w }
  | none => { s with bl := { s.bl with served := Tab.modify s.bl.served id fun x => { x with bag := some w } } }

/-- Every bag work with its number. -/
def allBags (s : State) : List (Nat × BagWork) :=
  (s.qe.cmds.filterMap fun e => match e.2.work with
    | .bag w => some (e.1, w)
    | _ => none) ++ s.bl.served.filterMap fun e => e.2.bag.map fun w => (e.1, w)

def EntSt.fetches : EntSt → Bool
  | .fetching _ _ => true
  | _ => false

/-- A user still holds its translation. -/
def waitHolds (s : State) : InvWait → Bool
  | .ts id => s.tu.tags.any fun e => decide (e.2.id = id)
  | .ww id => (Tab.find? s.wws id).isSome
  | .ent id e =>
    match bagOf s id with
    | some w => match Tab.find? w.ents e with
      | some x => x.st.fetches
      | none => false
    | none => false
  | .req id => s.bl.reqs.any fun e => decide (e.2.id = id)
  | .home port txn addr =>
    let is (r : HomeReq) : Bool := decide (r.port = port ∧ r.txn = txn ∧ r.addr = addr)
    s.ch.queue.any is || s.ch.trans.any fun t => is t.2.req

/-- The context of a remote request; of a REMOTE_POOL, that of the table. -/
def reqCtx (s : State) (r : RReq) : Option (BitVec 12) :=
  match r.owner with
  | .write c _ | .signal c | .fetch c => (cmdOf s c).map (·.ctx)
  | .pool c _ _ => (bagOf s c).map (·.owner)
  | .chWrite ch _ | .chRead ch _ | .chAtomic ch | .chSignal ch => (chan s ch).run.map (·.ctx)

/-- A context lies in a scope. -/
def InvScope.hasCtx (sc : InvScope) (s : State) (c : BitVec 12) : Bool :=
  match sc with
  | .all => true
  | .partition p => decide (ctxPart s c = some p)
  | .context d => decide (c = d)
  | .range d _ _ => decide (c = d)

/-- A partition lies in a scope. -/
def InvScope.hasPart (sc : InvScope) (s : State) (p : BitVec 3) : Bool :=
  match sc with
  | .all => true
  | .partition q => decide (p = q)
  | .context d => decide (ctxPart s d = some p)
  | .range d _ _ => decide (ctxPart s d = some p)

/-- The users that hold translations of a scope now. A remote request, a row fetch or a window write counts by its
context, a request of a partition that the home has not ended by its partition (log entry 29). -/
def invUsers (s : State) (sc : InvScope) : List InvWait :=
  (s.tu.tags.filterMap fun e => match e.2.st with
    | .given _ _ => if sc.hits s e.2.ctx e.2.page e.2.sz then some (.ts e.2.id) else none
    | .held _ => none) ++
  (s.wws.filterMap fun e => match e.2.st with
    | .issued _ _ => if sc.hasCtx s e.2.ctx then some (.ww e.1) else none
    | _ => none) ++
  ((allBags s).flatMap fun b => if sc.hasCtx s b.2.owner then
      b.2.ents.filterMap fun x => if x.2.st.fetches then some (InvWait.ent b.1 x.1) else none
    else []) ++
  (s.bl.reqs.filterMap fun e => match reqCtx s e.2 with
    | some c => if sc.hasCtx s c then some (.req e.2.id) else none
    | none => none) ++
  ((s.ch.queue ++ s.ch.trans.map (·.2.req)).filterMap fun r => match r.part with
    | some p => if sc.hasPart s p then some (.home r.port r.txn r.addr) else none
    | none => none)

/-- Begin an invalidation: entries go, and the users that it waits for are noted. -/
def invBegin (s : State) (sc : InvScope) (wk : Bool) : State × List InvWait := (invDrop s sc wk, invUsers s sc)

/-! ### MAP and UNMAP (R169 to R172) -/

/-- An earlier MAP or UNMAP of the context is still running (R169). -/
def mapBusy (s : State) (id : Nat) (c : Cmd) : Bool :=
  s.qe.cmds.any fun e => decide (e.1 < id ∧ e.2.ctx = c.ctx ∧ (e.2.raw.opcode = opMap ∨ e.2.raw.opcode = opUnmap)
    ∧ e.2.phase ≠ .finished)

/-- One piece that MAP makes: target address, level, the leaf to write. -/
structure Piece4 where
  va    : Nat
  level : Nat
  pte   : Word
  deriving DecidableEq, Repr

/-- The entry that MAP makes of a source leaf at an offset of it (R170). -/
def mapPte (src : Leaf) (off level : Nat) (attr : Nat) : Word :=
  let vs := pteVS src.pte
  BitVec.ofNat 64 (1 + flagAt (attr.testBit 1) 1 + flagAt (attr.testBit 2 && !vs) 2 + flagAt (pteM src.pte) 3 +
    (attr / 16 % 4) * 16 + flagAt (pteRM src.pte) 6 + flagAt (decide (0 < level)) 7 + flagAt vs 8 +
    flagAt (attr.testBit 9) 9 + (pteFrame src.pte + off / 4096) * 4096)

/-- The pieces that cover a source leaf, from an offset within the mapped range (R170). -/
def piecesOf (lo len va attr : Nat) (src : Leaf) : List Piece4 :=
  let from_ := max lo src.va
  let to_ := min (lo + len) (src.va + src.size)
  let tva := va + (from_ - lo)
  if from_ = src.va ∧ to_ = src.va + src.size ∧ tva % src.size = 0 then [⟨tva, src.level, mapPte src 0 src.level attr⟩]
  else (List.range ((to_ - from_) / 4096)).map fun i =>
    ⟨tva + 4096 * i, 0, mapPte src (from_ - src.va + 4096 * i) 0 attr⟩

/-- Split a piece where a table stands at its level (R170); a leaf in the way gives STATE (R171). -/
def fitPiece (bus : Bus) (ctx : BitVec 12) : Nat → Piece4 → Act (List Piece4)
  | 0, p => pure [p]
  | fuel + 1, p => do
    let s ← get
    let spot ← spotAt bus ctx p.va p.level 5 (pteNext (ctxOf s ctx).ttRoot)
    match spot with
    | .free => pure [p]
    | .leaf => failWith stState
    | .table => do
      let sub := (List.range 512).map fun i =>
        { p with va := p.va + i * 2 ^ lvlLog2 (p.level - 1), level := p.level - 1
                 pte := pteSet (p.pte + BitVec.ofNat 64 (i * 2 ^ lvlLog2 (p.level - 1))) 7 (decide (1 < p.level)) }
      let l ← mapAll (fitPiece bus ctx fuel) sub
      pure l.flatten

/-- The source leaves cover the whole range, without a hole (R171). -/
def covers (lo hi : Nat) : List Leaf → Bool
  | [] => decide (hi ≤ lo)
  | l :: t => decide (l.va ≤ lo) && covers (l.va + l.size) hi t

/-- Write one leaf, making the tables that are missing from the 4 KiB pool (R170, R171). -/
def placeLeaf (bus : Bus) (r : TrReq) (part : BitVec 3) (p : Piece4) : Nat → Nat → Act Unit
  | 0, _ => pure ()
  | level + 1, table => do
    let s ← get
    let a := table + 8 * ((p.va >>> lvlLog2 level) % 512)
    if level ≤ p.level then putPte bus r.ctx p.va a p.pte
    else do
      let bs ← homeGet (tableVia s r.ctx p.va) bus a 8
      let pte := BitVec.ofNat 64 (leNat bs)
      if pteV pte then placeLeaf bus r part p level (pteNext pte)
      else do
        let f ← takeFrame bus (pageSlice s r.ctx (BitVec.ofNat 64 p.va)) part 0 (poolFuel s part 0)
        match f with
        | none => act fun s =>
          match (holdFault s { r with va := BitVec.ofNat 64 p.va, acc := .write } fkNoFrame level pte) with
          | (s', .held k) => (s', .error (.held k))
          | (s', _) => (s', .error (.ended stTranslation 0xFFFFFFFF))
        | some f => do
          zeroTable bus r.ctx p.va f
          putPte bus r.ctx p.va a (BitVec.ofNat 64 (f + 1))
          placeLeaf bus r part p level f

/-- Write the pieces, noting those that are left. -/
def placeAll (bus : Bus) (id : Nat) (r : TrReq) (part : BitVec 3) : List Piece4 → Act Unit
  | [] => pure ()
  | p :: t => do
    let s ← get
    placeLeaf bus r part p 5 (pteNext (ctxOf s r.ctx).ttRoot)
    modify fun s => updCmd s id fun c => { c with work := .mapping (t.map fun x => (x.va, x.level, x.pte)) }
    placeAll bus id r part t

/-- The attribute bits that MAP takes: R, W, MT and PN, without the reserved MT (R170, R10). -/
def attrOk (attr : Nat) : Bool := decide (attr &&& 0xDC9 = 0 ∧ attr < 4096 ∧ attr / 16 % 4 ≠ 3)

/-- MAP (R170, R171): check the whole range, then write leaf by leaf. DETAIL of a MAP whose source is not mapped is 0: the
spec gives a TRANSLATION without a fault slot no DETAIL here (DESIGN CHOICE, log entry 83). -/
def mapAct (bus : Bus) (id : Nat) (c : Cmd) : Act Unit := do
  let r := cmdReq id c .engine 0 .write
  match c.work with
  | .mapping left => placeAll bus id r c.part (left.map fun x => ⟨x.1, x.2.1, x.2.2⟩)
  | _ => do
    let va := (c.raw.w 1).toNat
    let off := (c.raw.w 3).toNat
    let len := (c.raw.w 4).toNat
    let attr := (c.raw.w 5).toNat
    let o ← objGet bus (hIndex (c.raw.w 2))
    need (decide (va % 4096 = 0 ∧ off % 4096 = 0 ∧ len % 4096 = 0 ∧ len ≠ 0 ∧ off + len ≤ o.size ∧ o.va % 4096 = 0
      ∧ va + len ≤ 2 ^ 57) && attrOk attr) stBadField
    let s ← get
    need (bit (ctxOf s c.ctx).ttRoot 0) stState
    let there ← leavesOf false bus c.ctx va (va + len)
    need there.isEmpty stState
    let lo := o.va + off
    let src ← leavesOf false bus o.ctx lo (lo + len)
    need (covers lo (lo + len) src) stTranslation
    let fitted ← mapAll (fitPiece bus c.ctx 4) (src.map (piecesOf lo len va attr)).flatten
    placeAll bus id r c.part fitted.flatten
  okCmd id

def execMap (id : Nat) (bus : Bus) (s : State) : Res :=
  .next (match cmdOf s id with
    | some c => if mapBusy s id c then s else runCmd s id opMap (mapAct bus id)
    | none => s)

/-- UNMAP (R172): clear the leaves, then wait for the users of their translations. -/
def unmapAct (bus : Bus) (id : Nat) (c : Cmd) : Act Unit := do
  let va := (c.raw.w 1).toNat
  let len := (c.raw.w 2).toNat
  match c.work with
  | .invalidating ws => do
    let s ← get
    if ws.any (waitHolds s) then pure () else okCmd id
  | _ => do
    need (decide (va % 4096 = 0 ∧ len % 4096 = 0 ∧ len ≠ 0 ∧ va + len ≤ 2 ^ 57)) stBadField
    let ls ← leavesOf false bus c.ctx va (va + len)
    need (ls.all fun l => decide (va ≤ l.va ∧ l.va + l.size ≤ va + len)) stBadField
    forAll (fun l => putPte bus c.ctx l.va l.addr 0) ls
    let s ← get
    let r := invBegin s (.range c.ctx va len) false
    set r.1
    if r.2 = [] then okCmd id
    else modify fun s => updCmd s id fun c => { c with work := .invalidating r.2 }

def execUnmap (id : Nat) (bus : Bus) (s : State) : Res :=
  .next (match cmdOf s id with
    | some c => if mapBusy s id c then s else runCmd s id opUnmap (unmapAct bus id)
    | none => s)

/-! ### Passes over pages (R176, R237 to R240, R495) -/

/-- A frame to return: page slice, class, address. -/
abbrev Frame3 := Nat × Nat × Nat

/-- Clear one leaf; a failed write leaves it, and its frame is not returned (R495). Its frame is local and not pinned
where `give` says so. -/
def clearLeaf (bus : Bus) (ctx : BitVec 12) (give : Bool) (l : Leaf) : Act (List Frame3) := do
  let done ← attempt (putPte bus ctx l.va l.addr 0)
  match done with
  | none => pure []
  | some _ => do
    let s ← get
    if give && !pteRM l.pte then
      pure [(pageSlice s ctx (BitVec.ofNat 64 l.va), l.level, pteFrame l.pte * 4096 % 2 ^ 48)]
    else pure []

/-- The leaves of an object that is not a TABLE (R176): those wholly inside are cleared, but for PN. -/
def clearObject (bus : Bus) (o : Obj) : Act (List Frame3) := do
  let hi := o.va + o.size
  let ls ← leavesOf true bus o.ctx o.va hi
  let fs ← mapAll (fun l =>
    if o.va ≤ l.va ∧ l.va + l.size ≤ hi then
      if ptePN l.pte then pure [] else clearLeaf bus o.ctx true l
    else if o.va % 4096 = 0 ∧ o.size % 4096 = 0 then do
      modify fun s => poolNote s (pageSlice s o.ctx (BitVec.ofNat 64 l.va)) o.part l.va
      pure []
    else pure []) ls
  pure fs.flatten

/-- Begin a pass: the invalidation of the given scopes runs, and the frames wait for its users. -/
def beginPass (i : Nat) (part : BitVec 3) (scopes : List InvScope) (retire : Bool) (fs : List Frame3) : Act Unit := do
  let waits ← mapAll (fun sc => do
    let s ← get
    let r := invBegin s sc false
    set r.1
    pure r.2) scopes
  modify fun s =>
    let p : PagePass := ⟨BitVec.ofNat 32 i, part, fs, waits.flatten, retire⟩
    { s with tu := { s.tu with passes := s.tu.passes ++ [p] } }

/-- Push frames onto their return rings. -/
def pushAll (s : State) (bus : Bus) (part : BitVec 3) (fs : List Frame3) : State :=
  each (fun s f => pushFrame s bus f.1 part f.2.1 f.2.2) s fs

/-- Push the frames of every pass whose users have released their translations; a pass of a freed object then ends. -/
def pumpPasses (s : State) (bus : Bus) : State :=
  let ps := s.tu.passes
  let ripe (p : PagePass) : Bool := !p.waits.any (waitHolds s)
  let left := ps.filterMap fun p =>
    if ripe p then (if p.retire then some { p with frames := [], waits := [] } else none) else some p
  let s := { s with tu := { s.tu with passes := left } }
  each (fun s p => if ripe p then pushAll s bus p.part p.frames else s) s ps

end Sys2Proof.Machine
end

