-- ==== Sys2Proof/Machine/Ingest.lean ====
section
/-! DEFINITION. The ingest window (spec file 03, R76 to R92, R499; spec file 07, R230 to R232): apertures, window writes,
page copies, sealed records, and the reads that wait for window writes. -/

namespace Sys2Proof.Machine

open Sys2Proof

/-! ### Apertures -/

/-- BAR0 takes register writes (R456, R470; the host link is off in P3). -/
def barOk (s : State) : Bool := s.tp.ready && !safeState s && decide (s.tp.pwr ≠ .p3)

/-- Modes whose window is a ring over a stream. -/
def Aperture.stream? (a : Aperture) : Bool := decide (a.mode ≠ 0)

/-- An aperture of a stream fails: its digest is discarded (R83, R88). -/
def failAp (s : State) (port n : Nat) (err : Byte) : State :=
  let s := updAp s port n fun a => { a with st := .failed, err := err, stream := [], buf := [], digestOk := false
                                            digest := 0, closing := false }
  { s with wws := s.wws.filter fun w => !decide (w.2.port = port ∧ w.2.ap = n ∧ w.2.st = .buffered) }

/-- Set the last error of an aperture. -/
def setApErr (s : State) (port n : Nat) (err : Byte) : State := updAp s port n fun a => { a with err := err }

/-- The NOTE of ingest for a context (R82, R88, R80). -/
def ingestNote (s : State) (port : Nat) (ctx : BitVec 12) (err : Byte) : State :=
  note s { source := srcId 2 port 0, detail := err, ctx := some ctx, part := ctxPart s ctx }

/-- A TDI is frozen (R75, R104). -/
def tdiFrozen (s : State) (port vf : Nat) : Bool :=
  decide (vf ≠ 0) && (let t := (fnState s ⟨port, vf⟩).tdi; decide (t = .locked ∨ t = .run))

/-- The checks of R76 on the values that a write of EN sets; `none` where the enable is refused. -/
def enableAct (bus : Bus) (port n : Nat) (a : Aperture) : Act Unit := do
  let s ← get
  let h := a.obj
  need ((decide (a.owner = 0) || (decide (a.owner.toNat < 64) && fnExists s ⟨port, a.owner.toNat⟩ &&
    (fnState s ⟨port, a.owner.toNat⟩).enabled)) &&
    !(decide (a.owner ≠ 0) && (hostPort s port).aps.any fun e =>
      decide (e.1 ≠ n ∧ e.2.owner = a.owner ∧ e.2.vslot = a.vslot) && e.2.en) &&
    decide (ctxPart s a.ctx ≠ none ∧ ctxPart s a.ctx = fnPart s ⟨port, a.owner.toNat⟩) && decide (a.mode ≠ 3) &&
    decide (h ≠ 0 ∧ hRsv h = 0 ∧ hIndex h ≠ 0 ∧ hIndex h < objCount s ∧ some (BitVec.ofNat 3 (hPart h)) = ctxPart s a.ctx))
    aeEnable
  let o ← objGet bus (hIndex h)
  need (decide (o.st = stLive ∧ o.gen = hGen h)) aeEnable
  need (decide (a.mode ≠ 2) || ((ctxOf s a.ctx).conf && (ctxSecretOf s a.ctx).isSome)) aeEnable
  need (decide (a.mode ≠ 2) || !((ctxSecretOf s a.ctx).any fun x => decide (x.count = 0xFFFFFFFF))) aeExhausted

/-- Draw the next session value of a context (R87). -/
def drawSession (s : State) (c : BitVec 12) : State × BitVec 32 :=
  match ctxSecretOf s c with
  | none => (s, 0)
  | some x =>
    let k := bits (ctxOf s c).keyRef 9 0
    ({ s with ps := { s.ps with secrets := Tab.insert s.ps.secrets k { x with count := x.count + 1 } } }, x.count + 1)

/-- A refused enable (R76, R87). -/
def refuseEnable (s : State) (port n : Nat) (err : Byte) : State :=
  updAp s port n fun a => { a with en := false, st := .idle, err := err }

/-- An accepted enable. -/
def acceptEnable (s : State) (port n : Nat) : State :=
  let a := aperture s port n
  let r := if a.mode = 2 then drawSession s a.ctx else (s, a.session)
  updAp r.1 port n fun a =>
    { a with en := true, st := .opened, cursor := 0, session := r.2, stream := [], buf := [], pos := 0, seq := 0
             closing := false, clearEn := false, final := false, digestOk := false, digest := 0 }

/-- Clear EN (R78). -/
def clearEn (s : State) (port n : Nat) : State :=
  let a := aperture s port n
  let s := if a.stream? && decide (a.st = .opened) then failAp s port n aeAbandoned else s
  updAp s port n fun a =>
    { a with en := false, closing := false, st := if a.st = .failed then .failed else .idle }

/-- The fields of a value written to HP_AP_CFG. -/
def apFields (a : Aperture) (v : Word) : Aperture :=
  { a with ctx := BitVec.ofNat 12 (bits v 31 20), vslot := BitVec.ofNat 2 (bits v 17 16)
           owner := BitVec.ofNat 8 (bits v 15 8), meas := bit v 4, mode := BitVec.ofNat 2 (bits v 2 1) }

/-- A write of HP_AP_CFG that finds EN = 0 (R76, R77). -/
def apCfgClosed (s : State) (port n : Nat) (v : Word) (bus : Bus) : State :=
  let a := apFields (aperture s port n) v
  if tdiFrozen s port (aperture s port n).owner.toNat || (bit v 0 && tdiFrozen s port a.owner.toNat) then s
  else
    let s := updAp s port n fun _ => a
    if bit v 0 then
      match enableAct bus port n a s with
      | .ok _ s' => acceptEnable s' port n
      | .error .wait s' => waitBack s s'
      | .error (.ended e _) s' => refuseEnable s' port n (if e = aeExhausted then aeExhausted else aeEnable)
      | .error _ s' => refuseEnable s' port n aeEnable
    else s

/-- A write of HP_AP_CFG that finds EN = 1 (R77, R78, R82, R84, R88). Where one write sets CLOSE and clears EN on an OPEN
measured aperture and its stream fails before it is CLOSED, EN stays 1: R84 clears EN only once STATE reads CLOSED and
says nothing of this case (DESIGN CHOICE, log entry 86). -/
def apCfgOpen (s : State) (port n : Nat) (v : Word) : State :=
  let a := aperture s port n
  if tdiFrozen s port a.owner.toNat then s
  else
    let close := bit v 5
    if close && decide (a.mode = 1 ∧ a.st = .opened) then
      updAp s port n fun a => { a with closing := true, clearEn := a.clearEn || !bit v 0 }
    else
      let s := if close && decide (a.mode = 2) then failAp s port n aeAbandoned else s
      if bit v 0 then s
      else if a.closing then updAp s port n fun a => { a with clearEn := true }
      else clearEn s port n

/-- A write of HP_AP_CFG by the PF. -/
def apCfgWrite (s : State) (port n : Nat) (v : Word) (bus : Bus) : State :=
  if (aperture s port n).en then apCfgOpen s port n v else apCfgClosed s port n v bus

/-- The port and aperture exist. -/
def apExists (s : State) (port n : Nat) : Bool := decide (port < s.build.hostPorts.length ∧ n < 256)

/-- APERTURE_ENABLE (R76): the write of HP_AP_CFG that takes EN from 0 to 1. -/
def execApertureEnable (port ap : Nat) (value : Word) (bus : Bus) (s : State) : Res :=
  .next (if barOk s && apExists s port ap && !(aperture s port ap).en && bit value 0
    then apCfgWrite s port ap value bus else s)

/-- APERTURE_DISABLE (R78): the write of HP_AP_CFG that clears EN. -/
def execApertureDisable (port ap : Nat) (value : Word) (s : State) : Res :=
  .next (if barOk s && apExists s port ap && (aperture s port ap).en && !bit value 0
    then apCfgWrite s port ap value [] else s)

/-- CLOSE (R84, R88): the write of HP_AP_CFG with CLOSE set. -/
def execClose (port ap : Nat) (value : Word) (s : State) : Res :=
  .next (if barOk s && apExists s port ap && (aperture s port ap).en && bit value 5
    then apCfgWrite s port ap value [] else s)

/-! ### Measurement records (R428) -/

/-- The bytes of a record. -/
def MRec.bytes (r : MRec) : List Byte :=
  leBytes 8 r.handle.toNat ++ leBytes 6 r.length.toNat ++ leBytes 2 (r.ctx.toNat + r.kind.toNat * 2 ^ 12) ++
    beBytes 48 r.digest.toNat

/-- Append a record to a partition's log and extend its chain. -/
def appendRec (s : State) (r : MRec) : State :=
  let room := decide (s.ps.log.length < 4096)
  let s := updPart s r.part fun p =>
    { p with chain := sha384 (beBytes 48 p.chain.toNat ++ r.bytes), total := p.total + 1
             truncated := p.truncated || !room }
  if room then { s with ps := { s.ps with log := s.ps.log ++ [r] } } else s

/-- A window write of an aperture has not ended. -/
def apBusy (s : State) (port n : Nat) : Bool := s.wws.any fun w => decide (w.2.port = port ∧ w.2.ap = n)

/-- MEASURED_CLOSE_DONE (R84): every accepted write is acknowledged. -/
def execMeasuredCloseDone (port ap : Nat) (s : State) : Res :=
  let a := aperture s port ap
  if a.closing && decide (a.st = .opened) && !apBusy s port ap && runsWork s then
    let d := sha384 a.stream
    let s := updAp s port ap fun a =>
      { a with st := if a.clearEn then .idle else .closed, en := !a.clearEn, closing := false, clearEn := false
               digestOk := true, digest := d, stream := [] }
    .next (appendRec s ⟨(ctxPart s a.ctx).getD 0, a.obj, a.cursor, a.ctx, 1, d⟩)
  else .next s

/-! ### Window writes: where they land -/

def ingestVia (s : State) (port : Nat) (part : BitVec 3) : Via :=
  { port := gwBase s.build 5 + port, src := srcId 2 port 0, part := part, sys := false, ctx := none }

def wwOf (s : State) (id : Nat) : Option WinWrite := Tab.find? s.wws id
def updWw (s : State) (id : Nat) (f : WinWrite → WinWrite) : State := { s with wws := Tab.modify s.wws id f }
def dropWw (s : State) (id : Nat) : State := { s with wws := Tab.erase s.wws id }

/-- How many TLPs a window write stands for: itself, or the sealed chunks that end with it. -/
def WinWrite.tlps (w : WinWrite) : Nat := if w.ends = [] then 1 else w.ends.length

/-- A window write that ingest has not issued. -/
def WinWrite.unissued (w : WinWrite) : Bool :=
  match w.st with
  | .issued _ _ => false
  | _ => true

/-- Count dropped window writes in OTHER of HP_CNT_DROPPED. -/
def dropMany (s : State) (port n : Nat) : State :=
  updHost s port fun h => { h with dropOther := h.dropOther + BitVec.ofNat 32 n }

/-- A window write fails: the error of its aperture, FAILED in a stream, a NOTE in plain mode where R80 gives one. -/
def failWw (s : State) (id : Nat) (err : Byte) (tell : Bool) : State :=
  match wwOf s id with
  | none => s
  | some w =>
    let s := dropWw s id
    let s := { s with wws := s.wws.filter fun e => !w.ends.contains e.1 }
    let a := aperture s w.port w.ap
    let s := if a.stream? && decide (a.st = .opened) && decide (err ≠ aeMeasured) then failAp s w.port w.ap err
      else setApErr s w.port w.ap err
    let s := if err = aeMeasured then dropMany s w.port w.tlps else s
    if tell && !a.stream? then ingestNote s w.port w.ctx err else s

/-- A window write commits (R90): COMMITTED counts it and the sealed chunks that end with it. -/
def commitWw (s : State) (id : Nat) : State :=
  match wwOf s id with
  | none => s
  | some w =>
    let s := dropWw s id
    let s := { s with wws := s.wws.filter fun e => !w.ends.contains e.1 }
    updHost s w.port fun h => { h with committed := h.committed + BitVec.ofNat 64 w.tlps }

/-- An outstanding request of the port overlaps a byte range (R40). -/
def gwOverlap (s : State) (port a n : Nat) : Bool :=
  (gwPort s port).out.any fun e => decide (e.2.addr < a + n ∧ a < e.2.addr + e.2.len)

/-- Cut a byte range into the bytes that the requests of R35 carry. -/
def wwCut (p : Nat × List Byte) : List (Nat × List Byte) :=
  (rowPlan p.1 p.2.length).map fun q =>
    let lo := max p.1 q.1
    (lo, (p.2.drop (lo - p.1)).take (q.1 + q.2 - lo))

/-- Free tags of a port. -/
def tagRoom (s : State) (port : Nat) : Nat :=
  s.build.tagLimit port - (gwPort s port).out.length - (gwPort s port).quar.length

/-- Issue one tracked request. -/
def issueReq (s : State) (port : Nat) (r : GwReq) : State :=
  match freeTag s port with
  | none => s
  | some t => updGw s port fun g => { g with out := Tab.insert g.out t r }

/-- What a window write does next. -/
inductive WwNext where
  | go (pieces : List (Nat × List Byte))
  | wait
  | held (slot : Nat)
  | copy (va : Nat) (pte : Word) (sz : Nat)
  | fail (err : Byte)
  | drop
  deriving DecidableEq, Repr

/-- The base of the object's bytes for a window write: the object's VA, or the region that R230 names. -/
def wwBase (bus : Bus) (w : WinWrite) : Act (Option Nat) := do
  let o ← objGet bus w.obj.toNat
  if o.ty = tyTable then do
    let t := tableDesc o.raw
    let bs ← lineRead bus { owner := .free, user := .engine, ctx := o.ctx, va := BitVec.ofNat 64 t.vlineVa, acc := .read } o.part
    let v := vlineOf bs
    let slot := if v.pending then !v.slot else v.slot
    if v.aborting then failWith aeAbandoned
    else if v.opening ∨ (v.draining = true ∧ v.pending = false) then pure none
    else pure (some (t.regionVa + (if slot then 2 ^ t.regionLog2 else 0)))
  else pure (some o.va)

/-- Translate every page of a window write. -/
def wwTarget (s : State) (bus : Bus) (id : Nat) (w : WinWrite) (base : Nat) : State × WwNext :=
  (cutsOf (base + w.off) w.data.length).foldl (fun (x : State × WwNext) cut =>
    match x.2 with
    | .go ps =>
      let va := base + w.off + cut.1
      let t := translate x.1 bus { owner := .window id, user := .ingest w.measured, ctx := w.ctx, va := BitVec.ofNat 64 va
                                   acc := .write }
      match t.2 with
      | .ok pa _ _ => (t.1, .go (ps ++ [(pa, (w.data.drop cut.1).take cut.2)]))
      | .copy _ pte sz => (t.1, .copy va pte sz)
      | .held k => (t.1, .held k)
      | .wait => (waitBack x.1 t.1, .wait)
      | .ended st _ kind => (t.1, .fail (if kind = fkMeasured then aeMeasured else if st = stBusError then aeBus else aeTranslation))
    | _ => x) (s, .go [])

/-- Where the bytes of a window write lie now: in its context's address space (numbered from 1), and in device memory
(space 0) as far as they translate or wait to be issued. -/
def wwSpans (s : State) (bus : Bus) (id : Nat) (w : WinWrite) : List (Nat × Nat × Nat) :=
  match w.st with
  | .issued _ more => more.map fun p => (0, p.1, p.2.length)
  | _ =>
    match wwBase bus w s with
    | .ok (some base) s' =>
      (w.ctx.toNat + 1, base + w.off, w.data.length) ::
        (match (wwTarget s' bus id w base).2 with
          | .go ps => ps.map fun p => (0, p.1, p.2.length)
          | _ => [])
    | _ => []

/-- Two lists of spans share a byte. -/
def spansMeet (a b : List (Nat × Nat × Nat)) : Bool :=
  a.any fun x => b.any fun y => decide (x.1 = y.1 ∧ x.2.1 < y.2.1 + y.2.2 ∧ y.2.1 < x.2.1 + x.2.2)

/-- An earlier window write of the port to one of its bytes has not ended (R89): to the same bytes of the object, or, through
another object, to the same bytes of an address space or of device memory. One that is issued is met under R40. -/
def wwBehind (s : State) (bus : Bus) (id : Nat) (w : WinWrite) : Bool :=
  s.wws.any fun e => decide (e.1 < id ∧ e.2.port = w.port ∧ e.2.st ≠ .buffered) &&
    (if e.2.obj = w.obj then decide (e.2.off < w.off + w.data.length ∧ w.off < e.2.off + e.2.data.length)
      else spansMeet (wwSpans s bus e.1 e.2) (wwSpans s bus id w))

/-- The request of a piece of a window write. -/
def wwReq (s : State) (id : Nat) (w : WinWrite) (b : Nat × List Byte) : GwReq :=
  { op := .wr, addr := b.1 / 64 * 64, len := 64 * (linesOf b.1 b.2.length).length, lo := b.1, data := b.2
    poison := w.poisoned, part := w.part, owner := .window id, tick := s.tick }

/-- Issue the pieces of a window write in order, as far as the port has tags (R38, R43) and nothing outstanding overlaps
them (R40); `begun` tells that some have been issued, `left` how many are out. -/
def wwSend (id : Nat) (w : WinWrite) (begun : Bool) : Nat → List (Nat × List Byte) → State → State
  | left, [], s => updWw s id fun w => { w with st := .issued left [] }
  | left, b :: t, s =>
    let port := (ingestVia s w.port w.part).port
    if tagRoom s port = 0 ∨ gwOverlap s port b.1 b.2.length = true then
      updWw s id fun w => { w with st := if begun || decide (0 < left) then .issued left (b :: t) else .waitTable }
    else wwSend id w begun (left + 1) t (issueReq s port (wwReq s id w b))

/-- Issue the requests of a window write on its ingest port; a range that may not be issued answers ACCESS (R412). -/
def wwIssue (s : State) (id : Nat) (w : WinWrite) (pieces : List (Nat × List Byte)) : State :=
  let v := { ingestVia s w.port w.part with born := some id }
  let blocks := pieces.flatMap wwCut
  if blocks.any fun b => !(linesOf b.1 b.2.length).all fun l => mayIssue s v l then
    failWw (report s (reqEvent v (blocks.headD (0, [])).1 1) v.mid) id aeBus true
  else wwSend id w false 0 blocks s

/-! ### Page copies (R231) -/

/-- Move the bytes of a page: cells, poison and the values that indeterminate granules show. -/
def Memory.copyPage (m : Memory) (free src dst n : Nat) : Memory :=
  let cells := (m.cells.filter fun e => decide (src ≤ e.1 ∧ e.1 < src + n)).map fun e => (dst + (e.1 - src), m.byte free e.1)
  let pois := (m.poison.filter fun e => decide (src ≤ 64 * e.1 ∧ 64 * e.1 < src + n)).map fun e => dst / 64 + (e.1 - src / 64)
  let m1 := m.zero dst n
  let m2 := cells.foldl (fun x e => { x with cells := Tab.set 0 x.cells e.1 e.2 }) m1
  let m3 := (m.indet.filter fun e => decide (src ≤ 8 * e.1 ∧ 8 * e.1 < src + n)).foldl
    (fun x e => x.put (dst + (8 * e.1 - src)) (leBytes 8 (m.seen free e.1).toNat)) m2
  pois.foldl (fun x l => { x with poison := Tab.insert x.poison l () }) m3

/-- Whether a whole frame may be read or written for a partition. -/
def frameIssues (s : State) (p : BitVec 3) (a n : Nat) : Bool :=
  frameInPart s p a n && (List.range (ceilDiv n unit2M)).all fun i => !offLimits s (a + i * unit2M)

/-- The worst status that memory gives in this step over a frame, with POISON taken as OK for a copy's reads. -/
def frameStatus (bus : Bus) (a n : Nat) (rd : Bool) : Option (Nat × BusStatus) :=
  bus.find? fun e => decide (a ≤ 64 * e.1 ∧ 64 * e.1 < a + n ∧ e.2 ≠ .ok) && !(rd && decide (e.2 = .poison))

/-- The NOTE of a copy that fails (R175, R231). -/
def cowNote (s : State) (port : Nat) (ctx : BitVec 12) (part : BitVec 3) : State :=
  note s { source := srcId 2 port 1, ctx := some ctx, part := some part }

/-- Start the copy of a page for a window write (R231 step 1): find both leaves and take a frame. -/
def startCow (bus : Bus) (id : Nat) (w : WinWrite) (va : Nat) (pte : Word) (sz : Nat) : Act Nat := do
  let o ← objGet bus w.obj.toNat
  let t := tableDesc o.raw
  need (decide (o.ty = tyTable)) aeTranslation
  let half := 2 ^ t.regionLog2
  let pendVa := va / 2 ^ sz * 2 ^ sz
  let curVa := if pendVa < t.regionVa + half then pendVa + half else pendVa - half
  let pend ← leavesOf false bus o.ctx pendVa (pendVa + 1)
  let cur ← leavesOf false bus o.ctx curVa (curVa + 1)
  let p := pend.headD ⟨0, 0, 0, 0⟩
  let c := cur.headD ⟨0, 0, 0, 0⟩
  need (decide (pend ≠ [] ∧ cur ≠ [] ∧ p.level = c.level) && pteVS pte) aeTranslation
  let s ← get
  let f ← onEnd (takeFrame bus (pageSlice s o.ctx (BitVec.ofNat 64 va)) o.part p.level (poolFuel s o.part p.level))
    fun _ => modify fun s => cowNote s w.port o.ctx o.part
  match f with
  | none => act fun s =>
    let r : TrReq := { owner := .window id, user := .ingest w.measured, ctx := w.ctx, va := BitVec.ofNat 64 va, acc := .write }
    match (holdFault s r fkNoFrame p.level pte) with
    | (s', .held k) => (s', .error (.held k))
    | (s', _) => (s', .error (.ended aeTranslation 0))
  | some f => do
    let s ← get
    let cow : Cow := ⟨w.port, w.ap, w.obj, o.ctx, o.part, p.addr, c.addr, p.level, pteFrame p.pte * 4096 % 2 ^ 48, f, none⟩
    set { s with nextId := s.nextId + 1, cows := Tab.insert s.cows s.nextId cow }
    pure s.nextId

/-- The page that a copy is for, by the address of its pending leaf. -/
def cowFor (s : State) (obj : BitVec 32) (pend : Nat) : Option Nat :=
  (List.find? (fun e => decide (e.2.obj = obj ∧ e.2.pend = pend)) s.cows).map (·.1)

/-! ### Moving window writes on -/

/-- Take a window write as far as it goes now. -/
def wwAdvance (s : State) (bus : Bus) (id : Nat) : State :=
  match wwOf s id with
  | none => s
  | some w =>
    if wwBehind s bus id w then updWw s id fun w => { w with st := .waitTable }
    else match wwBase bus w s with
      | .error .wait s' => updWw (waitBack s s') id fun w => { w with st := .waitTable }
      | .error (.ended e _) s' =>
        if e = aeAbandoned then dropOne (dropWw s' id) w.port false else failWw s' id aeTranslation true
      | .error (.held k) s' => updWw s' id fun w => { w with st := .held k }
      | .error _ s' => failWw s' id aeTranslation true
      | .ok none s' => updWw s' id fun w => { w with st := .waitTable }
      | .ok (some base) s' =>
        let t := wwTarget s' bus id w base
        match t.2 with
        | .go ps => wwIssue t.1 id w ps
        | .wait => updWw t.1 id fun w => { w with st := .waitTable }
        | .held k => updWw t.1 id fun w => { w with st := .held k }
        | .fail e => failWw t.1 id e (decide (e = aeBus))
        | .drop => dropWw t.1 id
        | .copy va pte sz =>
          let found := match leavesOf false bus w.ctx va (va + 1) t.1 with
            | .ok (l :: _) _ => cowFor t.1 w.obj l.addr
            | _ => none
          match found with
          | some k => updWw t.1 id fun w => { w with st := .waitCopy k }
          | none => match startCow bus id w va pte sz t.1 with
            | .ok k s'' => updWw s'' id fun w => { w with st := .waitCopy k }
            | .error (.held k) s'' => updWw s'' id fun w => { w with st := .held k }
            | .error .wait s'' => updWw (waitBack t.1 s'') id fun w => { w with st := .waitTable }
            | .error _ s'' => failWw s'' id aeTranslation false

/-- Take a window write that waits for its table, an earlier write or a tag as far as it goes now. -/
def wwMove (s : State) (bus : Bus) (id : Nat) : State :=
  match wwOf s id with
  | some w =>
    match w.st with
    | .waitTable => wwAdvance s bus id
    | .issued left (b :: t) => wwSend id w true left (b :: t) s
    | _ => s
  | none => s

/-- Try every window write that waits, in order of arrival. -/
def wwPump (s : State) (bus : Bus) : State := each (fun s id => wwMove s bus id) s (s.wws.map (·.1))

/-- A window write enters: a new number, and the first move. -/
def wwEnter (s : State) (bus : Bus) (w : WinWrite) : State :=
  let r := fresh s
  wwAdvance { r.1 with wws := Tab.insert r.1.wws r.2 w } bus r.2

/-! ### WINDOW_WRITE (R79 to R83, R85, R499) -/

/-- The aperture that a window offset reaches (R75). -/
def apOfSlot (s : State) (fn : Fn) (off : Nat) : Option Nat :=
  let slot := off / 2 ^ 28
  if fn.vf = 0 then (if slot < 256 then some slot else none)
  else
    if slot < 4 then
      (List.find? (fun e => e.2.en && decide (e.2.owner.toNat = fn.vf ∧ e.2.vslot.toNat = slot)) (hostPort s fn.port).aps).map (·.1)
    else none

/-- Size of the object behind an aperture. -/
def apSize (bus : Bus) (a : Aperture) : Act Nat := do
  let o ← objGet bus (hIndex a.obj)
  pure o.size

/-- The poisoned TLP of R82 and R106. -/
def poisonTlp (s : State) (port : Nat) (ctx : BitVec 12) : State :=
  note (emit s (.aer port .poisoned)) { source := srcId 1 port 1, ctx := some ctx, part := ctxPart s ctx }

/-- A record's TLP joins the stream of a sealed aperture. -/
def sealedPiece (s : State) (fn : Fn) (n : Nat) (a : Aperture) (data : List Byte) : State :=
  let s := updAp s fn.port n fun a =>
    { a with buf := a.buf ++ data, cursor := a.cursor + BitVec.ofNat 48 data.length }
  let r := fresh s
  let w : WinWrite :=
    ⟨fn.port, fn.vf, n, a.ctx, (ctxPart s a.ctx).getD 0, BitVec.ofNat 32 (hIndex a.obj), 0, [], false, a.meas, .buffered, none,
      [], a.cursor.toNat + data.length⟩
  { r.1 with wws := Tab.insert r.1.wws r.2 w }

/-- A window write at an open aperture. -/
def apWrite (s : State) (fn : Fn) (n : Nat) (a : Aperture) (w : Nat) (data : List Byte) (poisoned : Bool) (bus : Bus) : State :=
  let part := (ctxPart s a.ctx).getD 0
  let s := if poisoned then poisonTlp s fn.port a.ctx else s
  let mk (off : Nat) : WinWrite :=
    ⟨fn.port, fn.vf, n, a.ctx, part, BitVec.ofNat 32 (hIndex a.obj), off, data, poisoned, decide (a.mode = 1), .waitTable, none, [], 0⟩
  let size := match apSize bus a s with
    | .ok k _ => k
    | .error _ _ => 0
  if a.mode = 0 then
    let off := a.base.toNat * 64 + w
    if size < off + data.length then
      ingestNote (setApErr (dropOne s fn.port false) fn.port n aeBounds) fn.port a.ctx aeBounds
    else wwEnter (if poisoned then setApErr s fn.port n aePoisoned else s) bus (mk off)
  else if w ≠ a.cursor.toNat % 2 ^ 28 then failAp s fn.port n aeOrder
  else if poisoned then failAp s fn.port n aePoisoned
  else if a.mode = 1 then
    let off := a.base.toNat * 64 + a.cursor.toNat
    if size < off + data.length then failAp s fn.port n aeBounds
    else
      wwEnter (updAp s fn.port n fun a =>
        { a with cursor := a.cursor + BitVec.ofNat 48 data.length, stream := a.stream ++ data }) bus (mk off)
  else sealedPiece s fn n a data

/-- WINDOW_WRITE (R79, R80, R106). A TLP longer than Max Payload Size is malformed (PRESUMED from PCI Express, log entry 7). -/
def windowWrite (s : State) (fn : Fn) (stream : Option Nat) (off : Nat) (data : List Byte) (poisoned : Bool) (bus : Bus) : State :=
  if !fnExists s fn || !s.tp.ready || decide (s.tp.pwr = .p3) || data.isEmpty then s
  else if safeState s || draining s then dropOne s fn.port false
  else if mpsBytes s fn.port < data.length then portEvent (dropOne s fn.port false) fn.port 6 .uncorrectable
  else
    let unmapped := noteDropped (emit (dropOne s fn.port false) (.aer fn.port .unsupported)) fn.port (fnPart s fn)
    match fnPart s fn with
    | none =>
      match apOfSlot s fn off with
      | none => unmapped
      | some n => if (aperture s fn.port n).en then dropOne s fn.port false else unmapped
    | some p =>
      if partClosing s p then dropOne s fn.port true
      else if !ideOk s fn stream then dropOne s fn.port false
      else
        match apOfSlot s fn off with
        | none => unmapped
        | some n =>
          let a := aperture s fn.port n
          if !a.en then unmapped
          else if ctxPart s a.ctx ≠ some p then noteDropped (dropOne s fn.port false) fn.port (some p)
          else if a.st = .failed ∨ a.st = .closed ∨ a.closing = true ∨ a.final = true then dropOne s fn.port false
          else apWrite s fn n a (off % 2 ^ 28) data poisoned bus

def execWindowWrite (fn : Fn) (stream : Option Nat) (off : BitVec 36) (data : List Byte) (poisoned : Bool) (bus : Bus)
    (s : State) : Res :=
  .next (windowWrite s fn stream off.toNat data poisoned bus)

/-- BAR2_READ (R74, R106). -/
def execBar2Read (fn : Fn) (s : State) : Res :=
  .next (if !fnExists s fn || decide (s.tp.pwr = .p3) then s
    else if !s.tp.ready then emit s (.readUr fn)
    else noteDropped (emit (emit s (.readUr fn)) (.aer fn.port .unsupported)) fn.port (fnPart s fn))

/-! ### Answers to window writes and copies -/

/-- One request of a window write is answered: its bytes are written, or its failure is kept until all are answered. -/
def wwAnswer (s : State) (bus : Bus) (id : Nat) (st : BusStatus) : State :=
  match wwOf s id with
  | none => s
  | some w =>
    match w.st with
    | .issued left more =>
      let bad := if st = .ok then w.bad else some (w.bad.getD st)
      if left ≤ 1 ∧ more = [] then
        let s := match bad with
          | none => commitWw s id
          | some _ => failWw s id aeBus true
        flrSettle (wwPump s bus) w.port
      else wwPump (updWw s id fun w => { w with st := .issued (left - 1) more, bad := bad }) bus
    | _ => s

/-- The memory side of an answer to a tracked write: its bytes are written, or left indeterminate. -/
def answerWrite (s : State) (port tag : Nat) (r : GwReq) (st : BusStatus) (v : Via) : State :=
  let s := updGw s port fun g => { g with out := Tab.erase g.out tag }
  if st = .ok then
    { s with mem := (linesOf r.lo r.data.length).foldl (fun m l =>
        let sl := lineSlice r.lo r.data l
        m.writeLine sl.1 sl.2 (r.poison || r.clean.any fun n => decide (r.addr + n ≤ 64 * l))) s.mem }
  else report { s with mem := s.mem.fail r.lo r.data } (reqEvent v r.addr 1) v.mid

/-- WINDOW_WRITE_COMMIT (R80, R90): every request left of a window write is answered with one status. -/
def execWindowWriteCommit (ww : Nat) (st : BusStatus) (s : State) : Res :=
  match wwOf s ww with
  | none => .next s
  | some w =>
    match w.st with
    | .issued _ _ =>
      let v := ingestVia s w.port w.part
      let mine := (gwPort s v.port).out.filter fun e => decide (e.2.owner = .window ww)
      let one (s : State) (e : Nat × GwReq) : State :=
        if st = .deadline then
          let s := quarantineTag s v.port e.1 e.2 (reqEvent v e.2.addr 1)
          wwAnswer { s with mem := s.mem.fail e.2.lo e.2.data } [] ww st
        else wwAnswer (answerWrite s v.port e.1 e.2 st v) [] ww st
      .next (each one s mine)
    | _ => .next s

/-- End a copy that failed: the frame goes back, unless `kept` says that a leaf still names it; the leaves stay, and the
first write fails with TRANSLATION (R231). -/
def failCow (s : State) (bus : Bus) (id : Nat) (c : Cow) (kept : Bool) : State :=
  let s := { s with cows := Tab.erase s.cows id }
  let s := if kept then s else pushFrame s bus 0 c.part c.cls c.dst
  let s := cowNote s c.port c.ctx c.part
  let waiting := (s.wws.filter fun e => decide (e.2.st = .waitCopy id)).map (·.1)
  let s := match waiting with
    | [] => s
    | w :: _ => failWw s w aeTranslation false
  each (fun s w => wwAdvance s bus w) s waiting.tail

/-- The new entry of the pending leaf: the copy's frame, on this node, with VS clear. -/
def cowPte (s : State) (c : Cow) (pte : Word) : Word :=
  pteSet (BitVec.ofNat 64 (pte.toNat - pteFrame pte * 4096 + c.dst + s.bl.nodeId.toNat * 2 ^ 48)) 8 false

/-- Put both leaves of a copied page and begin the invalidation (R231 steps 3 and 4): the users of the old translations,
or, where the current leaf could not be written, whether the pending leaf still names the copy (it is put back where it
can be; log entry 87). -/
def cowLeaves (bus : Bus) (c : Cow) : Act (Except Bool (List InvWait)) := do
  let o ← objGet bus c.obj.toNat
  let t := tableDesc o.raw
  let s ← get
  let pb ← homeGet (tableVia s c.ctx 0) bus c.pend 8
  let cb ← homeGet (tableVia s c.ctx 0) bus c.cur 8
  let pp := BitVec.ofNat 64 (leNat pb)
  let put ← attempt (putPte bus c.ctx 0 c.pend (cowPte s c pp))
  if put.isNone then pure (.error false)
  else do
    let done ← attempt (putPte bus c.ctx 0 c.cur (pteSet (BitVec.ofNat 64 (leNat cb)) 8 false))
    if done.isNone then do
      let back ← attempt (putPte bus c.ctx 0 c.pend pp)
      pure (.error back.isNone)
    else do
      let s ← get
      let b := invBegin s (.range o.ctx t.regionVa (2 * 2 ^ t.regionLog2)) false
      set b.1
      pure (.ok b.2)

/-- The request of the complex itself for a table's structures. -/
def selfReq : TrReq := { owner := .free, user := .engine, ctx := 0, va := 0, acc := .read }

/-- The invalidation of a copied page has completed: COW_PAGES counts it (R231 step 5). A version line that is bad counts
nothing (R501). -/
def cowCount (bus : Bus) (c : Cow) : Act Unit := do
  let o ← objGet bus c.obj.toNat
  let _ ← attempt (do
    let v ← vlineGet bus selfReq o
    vlinePut bus selfReq c.obj.toNat o { v with cow := v.cow + 1 })

/-- The last steps of a copy: once no user holds an old translation, the writes that waited on the page proceed. -/
def cowEnd (s : State) (bus : Bus) (id : Nat) (c : Cow) : State :=
  if (c.waits.getD []).any (waitHolds s) then s
  else runAct (cowCount bus c) s
    (fun s _ => each (fun s w => wwAdvance s bus w) { s with cows := Tab.erase s.cows id }
      ((s.wws.filter fun e => decide (e.2.st = .waitCopy id)).map (·.1)))
    (fun s _ => s)

/-- The lines of a copy's source that answer POISON: each is reported, and the copy of it is poisoned (R41, R231). -/
def cowPoison (s : State) (bus : Bus) (c : Cow) : List Nat :=
  let n := clsBytes c.cls
  dedupNat ((bus.filter fun e => decide (c.src ≤ 64 * e.1 ∧ 64 * e.1 < c.src + n ∧ e.2 = .poison)).map (·.1) ++
    (s.mem.poison.filter fun e => decide (c.src ≤ 64 * e.1 ∧ 64 * e.1 < c.src + n)).map (·.1))

/-- The bytes of a page are copied, poisoned lines as poisoned lines. -/
def cowCopy (s : State) (bus : Bus) (c : Cow) : State :=
  let m := s.mem.copyPage s.free c.src c.dst (clsBytes c.cls)
  let ls := cowPoison s bus c
  let s' := { s with mem := ls.foldl (fun m l => { m with poison := Tab.insert m.poison (c.dst / 64 + (l - c.src / 64)) () }) m }
  each (fun s l => reportBus s (ingestVia s c.port c.part) .poison (64 * l) 0) s' ls

/-- The writes of a copy that failed leave their bytes indeterminate (R503). -/
def cowFailed (s : State) (bus : Bus) (c : Cow) : State :=
  let n := clsBytes c.cls
  let bad := (busLines bus).filter fun l => decide (c.dst ≤ 64 * l ∧ 64 * l < c.dst + n ∧ busAtW bus l ≠ .ok)
  { s with mem := bad.foldl (fun m l => m.fail (64 * l) (s.mem.bytes s.free (c.src + (64 * l - c.dst)) 64)) s.mem }

/-- The first line of a frame that memory does not let a copy write in this step. -/
def frameWriteStatus (bus : Bus) (a n : Nat) : Option (Nat × BusStatus) :=
  ((busLines bus).find? fun l => decide (a ≤ 64 * l ∧ 64 * l < a + n ∧ busAtW bus l ≠ .ok)).map fun l => (l, busAtW bus l)

/-- COPY_ON_WRITE_DONE (R231): the page is copied on the ingest port and remapped, or the copy fails; sent again while users
hold old translations, it ends once they have released them. -/
def execCopyOnWriteDone (cow : Nat) (bus : Bus) (s : State) : Res :=
  match Tab.find? s.cows cow with
  | none => .next s
  | some c =>
    if !runsWork s then .next s
    else if c.waits.isSome then .next (cowEnd s bus cow c)
    else
      let n := clsBytes c.cls
      let v := ingestVia s c.port c.part
      if frameIssues s c.part c.src n = false then .next (failCow (report s (reqEvent v c.src 0) v.mid) bus cow c false)
      else match frameStatus bus c.src n true with
        | some (l, st) => .next (failCow (reportBus s v st (64 * l) 0) bus cow c false)
        | none =>
          match frameWriteStatus bus c.dst n with
          | some (l, st) => .next (failCow (reportBus (cowFailed s bus c) v st (64 * l) 1) bus cow c false)
          | none =>
            match cowLeaves bus c (cowCopy s bus c) with
            | .ok (.ok ws) s' =>
              let c' := { c with waits := some ws }
              .next (cowEnd { s' with cows := Tab.insert s'.cows cow c' } bus cow c')
            | .ok (.error kept) s' => .next (failCow s' bus cow c kept)
            | .error .wait s' => .next (waitBack s s')
            | .error _ s' => .next (failCow s' bus cow c false)

/-! ### Sealed records (R85 to R88) -/

/-- The error of a record's header, checked before its tag; none where it is good (log entry 30). -/
def recError (a : Aperture) (hdr : List Byte) (size : Nat) : Option Byte :=
  let ty := byteAt hdr 0
  let len := leAt hdr 4 4
  if leAt hdr 1 3 ≠ 0 ∨ leAt hdr 20 4 ≠ 0 ∨ (ty ≠ 1 ∧ ty ≠ 2) ∨ (ty = 1 ∧ (len % 64 ≠ 0 ∨ len < 64 ∨ 65536 < len))
      ∨ (ty = 2 ∧ len ≠ 0) ∨ leAt hdr 24 8 % 64 ≠ 0 then some aeFormat
  else if leAt hdr 8 8 ≠ a.seq.toNat then some aeSeq
  else if leAt hdr 16 4 ≠ a.session.toNat then some aeSession
  else if ty = 1 ∧ size < a.base.toNat * 64 + leAt hdr 24 8 + len then some aeBounds
  else none

/-- The tag of the record at the front of an aperture's buffer checks under the ingest key of its context, with the header
as additional data (R86). -/
def recTagOk (s : State) (a : Aperture) : Bool :=
  let hdr := a.buf.take 32
  let len := leAt hdr 4 4
  match ctxSecretOf s a.ctx with
  | some x => gcmChecks (ctxKey x labelIngest) (recNonce hdr) hdr ((a.buf.drop 32).take len) (leAt a.buf (len + 32) 16)
  | none => false

/-- The TLPs of an accepted FINAL record are committed. -/
def commitTlps (s : State) (port : Nat) (ended : List Nat) : State :=
  updHost { s with wws := s.wws.filter fun e => !ended.contains e.1 } port fun h =>
    { h with committed := h.committed + BitVec.ofNat 64 ended.length }

/-- What came after an accepted FINAL record is dropped and counted in OTHER (R499): the rest of the buffer. -/
def dropTail (s : State) (port n : Nat) : State :=
  let rest := (s.wws.filter fun e => decide (e.2.port = port ∧ e.2.ap = n ∧ e.2.st = .buffered)).map (·.1)
  dropMany (updAp { s with wws := s.wws.filter fun e => !rest.contains e.1 } port n fun a => { a with buf := [] }) port rest.length

/-- SEALED_RECORD (R88): the record at the front of the buffer is whole; it is verified and written, or fails. -/
def sealedRecord (s : State) (port n : Nat) (bus : Bus) : State :=
  let a := aperture s port n
  if !(a.en && decide (a.mode = 2 ∧ a.st = .opened ∧ 32 ≤ a.buf.length)) || a.final || !runsWork s then s
  else
    let size := match apSize bus a s with
      | .ok k _ => k
      | .error _ _ => 0
    let hdr := a.buf.take 32
    let len := leAt hdr 4 4
    let refuse (e : Byte) : State := ingestNote (failAp s port n e) port a.ctx e
    match recError a hdr size with
    | some e => refuse e
    | none =>
      if a.buf.length < len + 64 then s
      else if leAt a.buf (len + 48) 16 ≠ 0 then refuse aeFormat
      else if !recTagOk s a then refuse aeTag
      else
        let pos := a.pos + len + 64
        let plain := match ctxSecretOf s a.ctx with
          | some x => padTo len (gcmPlain (ctxKey x labelIngest) (recNonce hdr) ((a.buf.drop 32).take len))
          | none => List.replicate len 0
        let ended := (s.wws.filter fun e => decide (e.2.port = port ∧ e.2.ap = n ∧ e.2.st = .buffered ∧ e.2.endPos ≤ pos)).map (·.1)
        let s := updAp s port n fun a =>
          { a with buf := a.buf.drop (len + 64), pos := pos, seq := a.seq + 1, final := decide (byteAt hdr 0 = 2)
                   stream := if a.meas then a.stream ++ plain else a.stream }
        if byteAt hdr 0 = 2 then dropTail (commitTlps s port ended) port n
        else
          wwEnter s bus ⟨port, a.owner.toNat, n, a.ctx, (ctxPart s a.ctx).getD 0, BitVec.ofNat 32 (hIndex a.obj),
            a.base.toNat * 64 + leAt hdr 24 8, plain, false, a.meas, .waitTable, none, ended, 0⟩

def execSealedRecord (port ap : Nat) (bus : Bus) (s : State) : Res := .next (sealedRecord s port ap bus)

/-- SEALED_FINAL_CLOSE (R88): all earlier plaintext is acknowledged. -/
def execSealedFinalClose (port ap : Nat) (s : State) : Res :=
  let a := aperture s port ap
  if a.final && decide (a.mode = 2 ∧ a.st = .opened) && !apBusy s port ap && runsWork s then
    let s := updAp s port ap fun a => { a with st := .closed, stream := [] }
    if a.meas then
      .next (appendRec s ⟨(ctxPart s a.ctx).getD 0, a.obj, BitVec.ofNat 48 a.stream.length, a.ctx, 2, sha384 a.stream⟩)
    else .next s
  else .next s

/-! ### Context maps and HP_INGEST_SYNC (R75, R91) -/

/-- Write one entry of HP_VF_CTXMAP. -/
def ctxmapWrite (s : State) (port vf entry : Nat) (v : BitVec 16) : State :=
  if tdiFrozen s port vf then s
  else
    let c : BitVec 12 := v.setWidth 12
    let ok := v.getLsbD 15 && decide (ctxPart s c ≠ none ∧ ctxPart s c = fnPart s ⟨port, vf⟩)
    updHost s port fun h => { h with ctxMap := Tab.set {} h.ctxMap (vf * 64 + entry) ⟨ok, c⟩ }

def execVfCtxmapWrite (port vf entry : Nat) (value : BitVec 16) (s : State) : Res :=
  .next (if barOk s && fnExists s ⟨port, vf⟩ && decide (vf ≠ 0 ∧ entry < 64) then ctxmapWrite s port vf entry value else s)

/-- INGEST_SYNC_READ (R91): the read waits for the window writes received before it; before READY it reads 0 (R465). -/
def execIngestSyncRead (fn : Fn) (tag : Nat) (s : State) : Res :=
  .next (if !fnExists s fn || decide (s.tp.pwr = .p3) then s
    else if !s.tp.ready then emit s (.readDone fn tag 0)
    else updHost s fn.port fun h => { h with syncs := h.syncs ++ [⟨fn, tag, s.nextId, none⟩] })

/-- A near core's read of HP_INGEST_SYNC is held, under a tag beyond those of the host (R91, R487). -/
def coreSync (s : State) (port core : Nat) (txn : Byte) (lo n : Nat) : State :=
  updHost s port fun h =>
    { h with syncs := h.syncs ++ [⟨⟨port, 0⟩, 65536 + 256 * core + txn.toNat, s.nextId, some (core, txn, lo, n)⟩] }

/-- A held read of HP_INGEST_SYNC is answered: a host's, or a near core's. -/
def syncAnswer (s : State) (r : SyncRead) (v : Word) : State :=
  match r.core with
  | none => emit s (.readDone r.fn r.tag v)
  | some (core, txn, lo, n) => respondFree s core { opc := 1, id := txn.toNat, data := ((leBytes 8 v.toNat).drop lo).take n }

/-- INGEST_SYNC_DONE (R91). -/
def execIngestSyncDone (port tag : Nat) (s : State) : Res :=
  match (hostPort s port).syncs.find? fun r => decide (r.tag = tag) with
  | none => .next s
  | some r =>
    if portBusy s port r.before then .next s
    else .next (syncAnswer (updHost s port fun h => { h with syncs := h.syncs.filter fun x => !decide (x = r) }) r
      (hostPort s port).committed)

end Sys2Proof.Machine
end

