-- ==== Sys2Proof/Machine/Cores.lean ====
section
/-! DEFINITION. The near-core coherent ports (spec files 12 and 13): requests, snoop answers, credits, barriers, and
the coherent domain's way down and up. Register and doorbell windows are in `Windows`. -/

namespace Sys2Proof.Machine

open Sys2Proof

/-! ### Requests (R369, R370) -/

/-- Requests that are cached at the core. -/
def HomeOp.cached : HomeOp → Bool
  | .rdShared | .rdUnique | .upgrade | .wb _ _ => true
  | _ => false

/-- Uncached reads and writes. -/
def HomeOp.nc : HomeOp → Bool
  | .rdNc _ | .wrNc _ _ => true
  | _ => false

/-- The access that a request makes (R160; log entry 22). -/
def HomeOp.access : HomeOp → Access
  | .rdUnique | .upgrade | .wb _ _ | .wrNc _ _ => .write
  | .atomic _ _ _ => .atomic
  | _ => .read

/-- The classes of R393 that a request belongs to. -/
def HomeOp.loads : HomeOp → Bool
  | .rdShared | .rdNc _ | .atomic _ _ _ => true
  | _ => false
def HomeOp.stores : HomeOp → Bool
  | .rdShared | .rdNc _ => false
  | _ => true

/-- A request brings a CDAT beat with it. -/
def HomeOp.carries : HomeOp → Bool
  | .wb _ _ | .wrNc _ _ | .atomic _ _ _ => true
  | _ => false

/-- Bytes to which the address of a request must be aligned. -/
def HomeOp.align : HomeOp → Nat
  | .rdNc n => 2 ^ n
  | .wrNc n _ => 2 ^ n
  | .atomic n _ _ => 2 ^ n
  | _ => 64

/-- Sizes and operations that R369 and R379 allow. -/
def HomeOp.formed : HomeOp → Bool
  | .rdNc n => decide (n ≤ 6)
  | .wrNc n _ => decide (n ≤ 6)
  | .atomic n a _ => decide ((n = 3 ∧ a ≤ 9) ∨ (n = 4 ∧ a = 9))
  | _ => true

def hsOk : Nat := 0
def hsTranslation : Nat := 1
def hsDenied : Nat := 2
def hsBus : Nat := 3
def hsFormat : Nat := 4

/-- A request ends with a status that is not OK. -/
def coreFail (s : State) (core : Nat) (txn : Byte) (st : Nat) : State :=
  respondFree s core { opc := 2, id := txn.toNat, status := st }

/-- DENIED, raised at the port's source (R370, R491). -/
def coreDeny (s : State) (core : Nat) (txn : Byte) (a : Nat) : State :=
  coreFail (note s { source := srcId 11 core 1, address := BitVec.ofNat 64 a, part := corePart s core }) core txn hsDenied

/-- Note a request as outstanding. -/
def openReq (s : State) (core : Nat) (txn : Byte) (op : HomeOp) : State :=
  updCore s core fun c =>
    { c with opens := if c.opens.any (fun o => o.txn = txn) then c.opens else c.opens ++ [⟨txn, op.stores, op.loads⟩] }

/-- A request with a physical address and a memory type goes to the home. -/
def corePhys (s : State) (bus : Bus) (core : Nat) (txn : Byte) (op : HomeOp) (p : BitVec 3) (born pa mt : Nat) : State :=
  if !partCoversAt s p (some born) pa || inWindow pa then coreDeny s core txn pa
  else if mt ≠ 0 ∧ op.nc = false then coreFail s core txn hsFormat
  else homeRequest s ⟨op, core, txn, pa, decide (mt ≠ 0), some p⟩ bus

/-- Translate a request with a virtual address, admitted for a partition at a number, and hand it on (R370). -/
def coreTranslate (s : State) (bus : Bus) (core : Nat) (op : HomeOp) (req : CReq) (p : BitVec 3) (born : Nat) : State :=
  let t := translate s bus { owner := .core core req.txn, user := .core, ctx := req.ctx, va := req.addr.setWidth 64
                             acc := op.access }
  match t.2 with
  | .ok pa pte _ => corePhys t.1 bus core req.txn op p born (pa % 2 ^ 48) (pteMT pte)
  | .held _ => { t.1 with ch := { t.1.ch with held := t.1.ch.held ++ [⟨core, op, req, p, born⟩] } }
  | .wait => waitBack s t.1
  | .ended _ _ k => coreFail t.1 core req.txn (if k = fkWalkBus then hsBus else hsTranslation)
  | .copy _ _ _ => coreFail t.1 core req.txn hsTranslation

/-- Admit a request (R370, R13). A port of a partition in teardown is denied (R434). -/
def coreServe (s : State) (bus : Bus) (core : Nat) (op : HomeOp) (req : CReq) : State :=
  let o := openReq s core req.txn op
  match corePart s core with
  | none => if !req.va && inWindow req.addr.toNat && !op.nc then coreFail o core req.txn hsFormat
    else coreDeny o core req.txn req.addr.toNat
  | some p =>
    if partClosing s p then coreDeny o core req.txn req.addr.toNat
    else if !req.va then
      if inWindow req.addr.toNat && !op.nc then coreFail o core req.txn hsFormat
      else corePhys o bus core req.txn op p s.nextId req.addr.toNat 0
    else if ctxPart s req.ctx ≠ some p then coreDeny o core req.txn req.addr.toNat
    else coreTranslate o bus core op req p s.nextId

/-- The home takes beats of a port only while the port is present and the complex runs. -/
def coreHears (s : State) (core : Nat) : Bool := corePresent s core && s.tp.ready && decide (s.tp.pwr ≠ .p3)

/-- While READY is 0 a present port's requests wait at the home (R470). -/
def coreEarly (s : State) (core : Nat) : Bool := decide (core < 32) && s.build.cpPresent.getLsbD core && !s.tp.ready

/-- A TXN that is still outstanding (R369). -/
def txnOpen (s : State) (core : Nat) (txn : Byte) : Bool :=
  (corePort s core).opens.any (fun o => o.txn = txn) || (corePort s core).bars.any (fun b => b.txn = txn) ||
    s.ch.early.any fun e => e.core = core && e.req.txn = txn

/-- A request that comes before READY waits. -/
def waitReady (s : State) (e : EarlyReq) : Res :=
  if txnOpen s e.core e.req.txn then .fault .guaranteeBroken
  else .next { s with ch := { s.ch with early := s.ch.early ++ [e] } }

/-- A request that is not well formed (R369, R370, R379). -/
def badReq (req : CReq) (op : HomeOp) : Bool := req.rsv || !op.formed || decide (req.addr.toNat % op.align ≠ 0)

/-- A CREQ arrives: credits go back, and outside UP it is discarded (R384). `f` serves a well-formed one. -/
def coreReq (s : State) (core : Nat) (req : CReq) (op : HomeOp) (withData : Bool) (f : State → State) : Res :=
  if coreEarly s core then waitReady s ⟨core, req, some op, 0⟩
  else if !coreHears s core then .next s
  else
    let s1 := emit s (.homeCredits core 1 0 (if withData then 1 else 0))
    if s.ch.st ≠ .up then .next s1
    else if txnOpen s core req.txn then .fault .guaranteeBroken
    else if badReq req op then
      .next (coreFail (openReq s1 core req.txn op) core req.txn hsFormat)
    else .next (f s1)

def execRdShared (core : Nat) (req : CReq) (bus : Bus) (s : State) : Res :=
  coreReq s core req .rdShared false fun s => coreServe s bus core .rdShared req

def execRdUnique (core : Nat) (req : CReq) (bus : Bus) (s : State) : Res :=
  coreReq s core req .rdUnique false fun s => coreServe s bus core .rdUnique req

def execUpgrade (core : Nat) (req : CReq) (bus : Bus) (s : State) : Res :=
  coreReq s core req .upgrade false fun s => coreServe s bus core .upgrade req

def execWb (core : Nat) (req : CReq) (keep : Bool) (data : List Byte) (bus : Bus) (s : State) : Res :=
  coreReq s core req (.wb keep (padTo 64 data)) true fun s => coreServe s bus core (.wb keep (padTo 64 data)) req

/-- ATOMIC (R379): operand and compare value in the first bytes of its data. -/
def execAtomic (core : Nat) (req : CReq) (size : BitVec 3) (aop : BitVec 4) (data : List Byte) (bus : Bus) (s : State) : Res :=
  coreReq s core req (.atomic size.toNat aop.toNat (padTo 64 data)) true fun s =>
    coreServe s bus core (.atomic size.toNat aop.toNat (padTo 64 data)) req

/-- Take a BARRIER: it is answered once the earlier requests of its class have ended (R393, R395). -/
def takeBarrier (s : State) (core : Nat) (req : CReq) (kind : BitVec 2) : State :=
  if req.rsv || decide (kind = 3) then coreFail s core req.txn hsFormat
  else
    let ordered (o : OpenReq) : Bool := if kind = 0 then o.load else if kind = 1 then o.store else true
    answerBarriers (updCore s core fun c =>
      { c with bars := c.bars ++ [⟨req.txn, (c.opens.filter ordered).map (·.txn)⟩] }) core

/-- BARRIER (R395, R396). -/
def execBarrier (core : Nat) (req : CReq) (kind : BitVec 2) (s : State) : Res :=
  if coreEarly s core then waitReady s ⟨core, req, none, kind⟩
  else if !coreHears s core then .next s
  else
    let s1 := emit s (.homeCredits core 1 0 0)
    if s.ch.st ≠ .up then .next s1
    else if txnOpen s core req.txn then .fault .guaranteeBroken
    else .next (takeBarrier s1 core req kind)

/-- A held request is served again after a retry, under what admitted it (R13). -/
def coreResume (s : State) (bus : Bus) (core : Nat) (txn : Byte) : State :=
  match s.ch.held.find? fun h => h.core = core ∧ h.req.txn = txn with
  | some h => coreTranslate { s with ch := { s.ch with held := s.ch.held.erase h } } bus core h.op h.req h.part h.born
  | none => s

/-- A held request ends with TRANSLATION (R177, R370). -/
def coreAbort (s : State) (core : Nat) (txn : Byte) : State :=
  match s.ch.held.find? fun h => h.core = core ∧ h.req.txn = txn with
  | some h => coreFail { s with ch := { s.ch with held := s.ch.held.erase h } } core txn hsTranslation
  | none => s

/-! ### Answers to snoops (R371, R373, R376, R381) -/

/-- The kinds of answer to a snoop. -/
inductive SnoopAns where
  | miss | shared | accept | decline | data (toO : Bool)
  deriving DecidableEq, Repr

/-- The directory names an agent as the owner of a line. -/
def ownsLine (s : State) (core line : Nat) : Bool :=
  match dirEnt s line with
  | some e => decide (e.st ≠ .shd ∧ e.ptrs.head? = some core)
  | none => false

/-- An answer that R371 allows to a snoop of a kind, from the states that the directory leaves the agent. A teardown has
dropped the entry of a line that it invalidates (R434). -/
def answerFits (s : State) (sn : Snoop) (a : SnoopAns) : Bool :=
  let dirty := decide ((dirEnt s sn.line).map DirEnt.st = some DirSt.own) && ownsLine s sn.core sn.line
  let gone := decide (sn.kind = 2) && (dirEnt s sn.line).isNone
  match a with
  | .data toO => if sn.kind = 3 || gone then true else ownsLine s sn.core sn.line && decide (toO = decide (sn.kind = 1))
  | .miss => sn.kind = 3 || !dirty
  | .shared => sn.kind = 3 || (decide (sn.kind = 1) && !dirty)
  | .accept | .decline => sn.kind = 3

/-- An answer arrives. One to a snoop that is not outstanding, or that R371 does not allow, breaks the core's guarantee. -/
def coreAnswer (s : State) (core : Nat) (sid : BitVec 10) (a : SnoopAns) (data : List Byte) (bus : Bus) : Res :=
  if !coreHears s core then .next s
  else
    let withData := match a with
      | .data _ => true
      | _ => false
    let s1 := emit s (.homeCredits core 0 (if withData then 0 else 1) (if withData then 1 else 0))
    if s.ch.st ≠ .up then .next s1
    else match Tab.find? s.ch.snps (snoopKey core sid.toNat) with
      | none => .fault .guaranteeBroken
      | some sn =>
        if (corePort s core).hsnpQ.any (fun q => q.1 = sid.toNat) || !answerFits s sn a then .fault .guaranteeBroken
        else
          let stash := decide (sn.kind = 3)
          .next (snoopAnswer s1 core sid.toNat (if withData && !stash then some (padTo 64 data) else none)
            (decide (a = .data true) && !stash) (decide (a = .accept) || (decide (a = .shared) && !stash)) bus)

def execMiss (core : Nat) (sid : BitVec 10) (bus : Bus) (s : State) : Res := coreAnswer s core sid .miss [] bus

def execShared (core : Nat) (sid : BitVec 10) (bus : Bus) (s : State) : Res := coreAnswer s core sid .shared [] bus

def execAccept (core : Nat) (sid : BitVec 10) (bus : Bus) (s : State) : Res := coreAnswer s core sid .accept [] bus

def execDecline (core : Nat) (sid : BitVec 10) (bus : Bus) (s : State) : Res := coreAnswer s core sid .decline [] bus

def execSnoopData (core : Nat) (sid : BitVec 10) (toO : Bool) (data : List Byte) (bus : Bus) (s : State) : Res :=
  coreAnswer s core sid (.data toO) data bus

/-! ### Credits (R30, R50) -/

/-- Send what waits for HSNP credits. -/
def pumpSnoops (core : Nat) : Nat → State → State
  | 0, s => s
  | n + 1, s =>
    match (corePort s core).hsnpQ with
    | [] => s
    | (sid, sn) :: t =>
      if (corePort s core).hsnp = 0 then s
      else
        pumpSnoops core n (emit (updCore s core fun c => { c with hsnp := c.hsnp - 1, hsnpQ := t }) (.hsnp core sn.kind sid sn.line))

/-- Send what waits for HRSP credits; each ends its transaction (R375). -/
def pumpResponses (core : Nat) : Nat → State → State
  | 0, s => s
  | n + 1, s =>
    match (corePort s core).hrspQ with
    | [] => s
    | (r, line) :: t =>
      if (corePort s core).hrsp = 0 then s
      else
        let s := emit (updCore s core fun c => { c with hrsp := c.hrsp - 1, hrspQ := t }) (.hrsp core r)
        pumpResponses core n (match line with
          | some l => endTrans s l
          | none => s)

/-- CORE_CREDIT_RETURN: credits count, also those given before READY (R30, R50), and what waited for them goes. A port is ATTACHED once it has given at least the
credits of R50 on both channels. -/
def execCoreCreditReturn (core : Nat) (hsnp : Bool) (n : Nat) (s : State) : Res :=
  if !(coreHears s core || (coreEarly s core && decide (s.tp.pwr ≠ .p3))) ∨ s.ch.st = .down ∨ s.ch.st = .purging then .next s
  else
    let s := updCore s core fun c => if hsnp then { c with hsnp := c.hsnp + n } else { c with hrsp := c.hrsp + n }
    let c := corePort s core
    let s := if 4 ≤ c.hsnp ∧ 4 ≤ c.hrsp then { s with ch := { s.ch with attached := s.ch.attached ||| (1#32 <<< core) } } else s
    let s := pumpResponses core c.hrspQ.length (pumpSnoops core c.hsnpQ.length s)
    .next (wakeHome [] s)

/-! ### The coherent domain (R383 to R386) -/

/-- SNOOP_DEADLINE (R383): a port's own agent must have a snoop outstanding; agents 32 to 34 answer at once in the
model, so their miss is an event from outside it. -/
def execSnoopDeadline (agent slice : Nat) (_bus : Bus) (s : State) : Res :=
  if s.ch.st ≠ .up ∧ s.ch.st ≠ .restoring then .next s
  else if agent < 32 then
    match List.find? (fun e => decide (e.2.core = agent)) s.ch.snps with
    | some e =>
      let s := report s { source := srcId 11 agent 0, address := BitVec.ofNat 64 (64 * e.2.line), info := BitVec.ofNat 16 agent }
        (Config.masterId 11 agent)
      .next (domainDown s (BitVec.ofNat 8 agent))
    | none => .next s
  else if agent < 35 ∧ slice < s.build.homeSlices ∧ s.tp.ready = true then
    .next (domainDown (report s { source := srcId 10 slice 3, info := BitVec.ofNat 16 agent } (Config.masterId 10 slice))
      (BitVec.ofNat 8 agent))
  else .next s

def domainDone (s : State) (r : Byte) : State := { s with ch := { s.ch with busy := false, result := r } }

/-- Advertise the home's credits at the ports that the build has (R50). -/
def advertise (s : State) : State :=
  each (fun s p => emit s (.homeCredits p 16 8 8)) s ((List.range 32).filter fun p => s.build.cpPresent.getLsbD p)

/-- RESTORE (R386 steps 1 and 2). -/
def restoreDomain (s : State) : State :=
  advertise { s with ch := { s.ch with
    st := .restoring, busy := true, attached := 0
    ports := s.ch.ports.map fun e => (e.1, { e.2 with hsnp := 0, hrsp := 0 }) } }

/-- A write of CH_DOMAIN with an operation: 1 RESTORE, 2 DOWN. -/
def domainWrite (s : State) (op : Nat) : State :=
  if s.ch.busy then s
  else match op with
    | 1 => if s.ch.st = .down then restoreDomain s else domainDone s rState
    | 2 => if s.ch.st = .up then domainDone (domainDown s 0xFE) rOk else domainDone s rState
    | _ => domainDone s rFormat

def execDown (_bus : Bus) (s : State) : Res := .next (if barOk s then domainWrite s 2 else s)

def execRestore (s : State) : Res := .next (if barOk s then domainWrite s 1 else s)

/-- Every present core has advertised the credits of R50. -/
def coresReady (s : State) : Bool :=
  (List.range 32).all fun p => !corePresent s p || decide (4 ≤ (corePort s p).hsnp ∧ 4 ≤ (corePort s p).hrsp)

/-- RESTORE_CREDIT_TIMEOUT (R386): NO_CREDITS. -/
def execRestoreCreditTimeout (s : State) : Res :=
  .next (if s.ch.st = .restoring ∧ coresReady s = false then domainDone { s with ch := { s.ch with st := .down } } rNoCredits else s)

end Sys2Proof.Machine
end

