-- ==== Sys2Proof/Machine/Keys.lean ====
section
/-! DEFINITION. Key translation (spec file 06): version lines, key index descriptors, hashing, the key cache, lookups,
placement, KEY_ADMIT and KEY_EVICT, the admission queue, and the key slices. -/

namespace Sys2Proof.Machine

open Sys2Proof

/-! ### Hashing and routing (R190, R191) -/

def keyMix (x : Word) : Word :=
  let x := x ^^^ (x >>> 33)
  let x := x * 0x8F3AD26BE14790C5
  let x := x ^^^ (x >>> 29)
  let x := x * 0xA7C15E3D09B2F64B
  x ^^^ (x >>> 32)

/-- The first hash of a key. -/
def keyHash1 (seed key : Word) : Word := keyMix (key ^^^ seed)

/-- The candidate buckets of a key. -/
def keyBuckets (seed : Word) (log2 : Nat) (key : Word) : Nat × Nat :=
  let b1 := (keyHash1 seed key).toNat % 2 ^ log2
  let b2 := (keyMix (key ^^^ ((seed <<< 32) ||| (seed >>> 32)) ^^^ 0x5A5AC3C33C3CA5A5)).toNat % 2 ^ log2
  (b1, if b2 = b1 then b1 ^^^ 1 else b2)

/-- The live key slices in ascending order. -/
def liveKeySlices (s : State) : List Nat :=
  (List.range s.build.keySlices).filter fun i => !s.kt.retire.getLsbD i

def keyPairs (s : State) : Nat := s.build.keySlices / 2

/-- The key-slice pair that handles a key. -/
def keyPairOf (s : State) (h1 : Word) : Nat :=
  let live := liveKeySlices s
  live.getD ((h1 >>> 54).toNat % live.length) 0 / 2

/-- The bank, and with it the key port, of a bucket. -/
def bankOf (s : State) (b : Nat) : Nat := b % keyPairs s

/-- The route of a request on a key port. -/
def keyVia (pair : Nat) (part : BitVec 3) (s : State) (_ : Nat) : Via :=
  { port := gwBase s.build 1 + pair, src := srcId 5 pair 0, part := part, sys := false, ctx := none }

/-- Read on a key port under a context's translation. -/
def keyRead (bus : Bus) (r : TrReq) (pair : Nat) (part : BitVec 3) (n : Nat) : Act (List Byte) :=
  act fun s => vaRead s bus { r with user := .key, acc := .read } n false (keyVia pair part)

/-- Write on a key port under a context's translation. -/
def keyWrite (bus : Bus) (r : TrReq) (pair : Nat) (part : BitVec 3) (bs : List Byte) : Act Unit :=
  vaPut bus { r with user := .key, acc := .write } bs false (keyVia pair part)

/-! ### The key index descriptor (R187, R188) -/

def keyDescOf (bs : List Byte) : KeyDesc :=
  { bucketVa := leAt bs 0 8 % 2 ^ 57, log2 := byteAt bs 8 % 64, policy := BitVec.ofNat 2 (byteAt bs 9)
    admitHost := (byteAt bs 10).testBit 0, hintEn := (byteAt bs 10).testBit 1, hintPort := byteAt bs 11 % 32
    defaultRow := leAt bs 12 4, seed := BitVec.ofNat 64 (leAt bs 16 8), admitVa := BitVec.ofNat 64 (leAt bs 24 8)
    admitLog2 := byteAt bs 32 % 32, ctrlVa := leAt bs 40 8 % 2 ^ 57, event := BitVec.ofNat 64 (leAt bs 48 8) }

/-- The miss policies. -/
def polDefault : BitVec 2 := 0
def polZero : BitVec 2 := 1
def polFault : BitVec 2 := 2
def polAdmit : BitVec 2 := 3

/-- A descriptor fails the check; the admission fields, HINT_EN and ADMIT_HOST among them, count only under ADMIT (log entry 32). -/
def keyDescBad (s : State) (bs : List Byte) (conf : Bool) : Bool :=
  let d := keyDescOf bs
  decide (leAt bs 0 8 / 2 ^ 57 ≠ 0 ∨ byteAt bs 8 / 64 ≠ 0 ∨ byteAt bs 9 / 4 ≠ 0 ∨ byteAt bs 10 / 4 ≠ 0 ∨ byteAt bs 11 / 32 ≠ 0
    ∨ byteAt bs 32 / 32 ≠ 0 ∨ leAt bs 33 7 ≠ 0 ∨ leAt bs 40 8 / 2 ^ 57 ≠ 0 ∨ leAt bs 56 8 ≠ 0 ∨ d.bucketVa % 4096 ≠ 0
    ∨ d.log2 < 10 ∨ 32 < d.log2) ||
  (decide (d.policy = polAdmit) &&
    ((d.hintEn && !s.build.cpPresent.getLsbD d.hintPort) || (d.admitHost && conf) ||
      decide (d.admitVa.toNat % 4096 ≠ 0 ∨ (d.admitHost = false ∧ d.admitVa.toNat / 2 ^ 57 ≠ 0) ∨ d.admitLog2 < 8
        ∨ 20 < d.admitLog2 ∨ d.ctrlVa % 64 ≠ 0)))

/-- A keyed table in use: its object index, object and descriptor. -/
structure KeyUse where
  idx  : Nat
  obj  : Obj
  desc : KeyDesc
  deriving DecidableEq, Repr

/-- Take a keyed table into use: its descriptor from the cache, or read on the first key port and checked. An unkeyed
table is of the wrong type for its field (log entry 32). -/
def keyUse (bus : Bus) (r : TrReq) (i : Nat) : Act KeyUse := do
  let o ← objGet bus i
  let va := (tableDesc o.raw).keyVa
  need (decide (va ≠ 0)) stBadHandle
  let s ← get
  match Tab.find? s.kt.descs i with
  | some d => pure ⟨i, o, d⟩
  | none => do
    need (decide (va % 64 = 0)) stBadField
    let bs ← keyRead bus { r with ctx := o.ctx, va := BitVec.ofNat 64 va } 0 o.part 64
    let s ← get
    need (!keyDescBad s bs (ctxOf s o.ctx).conf) stBadField
    modify fun s => { s with kt := { s.kt with descs := Tab.insert s.kt.descs i (keyDescOf bs) } }
    pure ⟨i, o, keyDescOf bs⟩

/-! ### Buckets and slots (R192 to R194, R199) -/

structure KSlot where
  key  : Word
  row  : Nat
  ver  : Nat
  kind : Nat
  deriving DecidableEq, Repr

def nullKey : Word := 0xFFFFFFFFFFFFFFFF
def kLive : Nat := 1
def kDying : Nat := 2
def emptySlot : KSlot := ⟨nullKey, 0, 0, 0⟩

def slotAt (bucket : List Byte) (i : Nat) : KSlot :=
  let st := leAt bucket (16 * i + 12) 4
  ⟨BitVec.ofNat 64 (leAt bucket (16 * i) 8), leAt bucket (16 * i + 8) 4, st % 2 ^ 30, st / 2 ^ 30⟩

def KSlot.bytes (k : KSlot) : List Byte := leBytes 8 k.key.toNat ++ leBytes 4 k.row ++ leBytes 4 (k.ver + k.kind * 2 ^ 30)

/-- A slot answers a lookup at version `v` (R193). -/
def KSlot.visible (k : KSlot) (v : Nat) : Bool :=
  decide (k.key ≠ nullKey) &&
    (if k.kind = kLive then decide (k.ver ≤ v) else if k.kind = kDying then decide (v < k.ver) else false)

/-- A placement may reuse a slot at floor `f` (R194). -/
def KSlot.isFree (k : KSlot) (f : Nat) : Bool := decide (k.key = nullKey ∨ (k.kind = kDying ∧ k.ver ≤ f))

/-- A slot with a reserved KIND and a key (R193). -/
def KSlot.reserved (k : KSlot) : Bool := decide (k.key ≠ nullKey ∧ k.kind ≠ kLive ∧ k.kind ≠ kDying)

def freeIdx (f : Nat) (bucket : List Byte) : Option Nat := (List.range 8).find? fun i => (slotAt bucket i).isFree f

def matchIdx (v : Nat) (key : Word) (bucket : List Byte) : Option Nat :=
  (List.range 8).find? fun i => decide ((slotAt bucket i).key = key) && (slotAt bucket i).visible v

def bucketReq (u : KeyUse) (r : TrReq) (b : Nat) : TrReq :=
  { r with ctx := u.obj.ctx, va := BitVec.ofNat 64 (u.desc.bucketVa + 128 * b) }

def dropKeyLine (s : State) (i b : Nat) : State :=
  { s with kt := { s.kt with cache := s.kt.cache.filter fun l => !decide (l.obj.toNat = i ∧ l.bucket = b) } }

/-- Read a bucket: from its bank of the cache, or on the bank's key port (R199). -/
def bucketGet (bus : Bus) (u : KeyUse) (r : TrReq) (b : Nat) : Act (List Byte) := do
  let s ← get
  match s.kt.cache.find? fun l => decide (l.obj.toNat = u.idx ∧ l.bucket = b) && Config.tlbHolds s.free (2 ^ 61 + b) with
  | some l => do
    modify fun s => { s with kt := { s.kt with hits := s.kt.hits + 1 } }
    pure l.data
  | none => do
    let d ← keyRead bus (bucketReq u r b) (bankOf s b) u.obj.part 128
    modify fun s =>
      let s := dropKeyLine s u.idx b
      { s with kt := { s.kt with reads := s.kt.reads + 1, cache := ⟨BitVec.ofNat 32 u.idx, b, d⟩ :: s.kt.cache } }
    pure d

/-- Write a slot: its line in the cache and its bytes on the key port in one step (R199); a failed write drops the line. -/
def slotPut (bus : Bus) (u : KeyUse) (r : TrReq) (b i : Nat) (k : KSlot) : Act Unit := do
  let s ← get
  onEnd (keyWrite bus { bucketReq u r b with va := BitVec.ofNat 64 (u.desc.bucketVa + 128 * b + 16 * i) } (bankOf s b) u.obj.part
    k.bytes) fun _ => modify fun s => dropKeyLine s u.idx b
  modify fun s => { s with kt := { s.kt with cache := s.kt.cache.map fun l =>
    if l.obj.toNat = u.idx ∧ l.bucket = b then { l with data := patch l.data (16 * i) k.bytes } else l } }

/-- Take the translations that the writes of an entry need, so that no fault comes between them (R207). -/
def probeBucket (bus : Bus) (u : KeyUse) (r : TrReq) (b : Nat) : Act Unit := do
  let _ ← trAct bus { bucketReq u r b with user := .key, acc := .write }

/-! ### Lookup (R196, R197) -/

/-- The NOTEs of a bucket's reserved slots, naming the table and the bucket (R193). -/
def noteReserved (s : State) (u : KeyUse) (b : Nat) (data : List Byte) (pair : Nat) : State :=
  if (List.range 8).any fun i => (slotAt data i).reserved then
    note s { source := srcId 5 pair 0, address := BitVec.ofNat 64 (u.desc.bucketVa + 128 * b), info := BitVec.ofNat 16 u.idx
             ctx := some u.obj.ctx, part := some u.obj.part }
  else s

/-- Look a key up at a version: its row, or none where it is absent. -/
def keyFind (bus : Bus) (u : KeyUse) (r : TrReq) (ver : Nat) (key : Word) : Act (Option Nat) := do
  modify fun s => { s with kt := { s.kt with lookups := s.kt.lookups + 1 } }
  let bs := keyBuckets u.desc.seed u.desc.log2 key
  let s ← get
  let pair := keyPairOf s (keyHash1 u.desc.seed key)
  let d1 ← bucketGet bus u r bs.1
  modify fun s => noteReserved s u bs.1 d1 pair
  match matchIdx ver key d1 with
  | some i => pure (some (slotAt d1 i).row)
  | none => do
    let d2 ← bucketGet bus u r bs.2
    modify fun s => noteReserved s u bs.2 d2 pair
    match matchIdx ver key d2 with
    | some i => pure (some (slotAt d2 i).row)
    | none => do
      modify fun s => { s with kt := { s.kt with absent := s.kt.absent + 1 } }
      pure none

/-! ### Placement (R210) -/

/-- A path of moves from a candidate bucket: the slots to move, first hop first, and the bucket with a free slot. -/
abbrev Path := List (Nat × Nat) × Nat

/-- Buckets still to look at, each with the hops that lead to it, and the number seen. -/
abbrev Front := List (Nat × List (Nat × Nat)) × Nat

/-- The other candidate bucket of a key that stands in bucket `b`. -/
def otherBucket (u : KeyUse) (key : Word) (b : Nat) : Nat :=
  let bs := keyBuckets u.desc.seed u.desc.log2 key
  if bs.1 = b then bs.2 else bs.1

/-- Look at the slots of one bucket of the frontier. -/
def scanSlots (bus : Bus) (u : KeyUse) (r : TrReq) (f : Nat) (b : Nat) (hops : List (Nat × Nat)) (data : List Byte) :
    List Nat → Front → Act (Option Path × Front)
  | [], acc => pure (none, acc)
  | i :: t, acc => do
    let k := slotAt data i
    if k.key = nullKey ∨ k.reserved = true then scanSlots bus u r f b hops data t acc
    else do
      let a := otherBucket u k.key b
      let d ← bucketGet bus u r a
      let hops' := hops ++ [(b, i)]
      if (freeIdx f d).isSome then pure (some (hops', a), acc)
      else scanSlots bus u r f b hops data t (if acc.2 < 512 then (acc.1 ++ [(a, hops')], acc.2 + 1) else acc)

/-- Look at every bucket of a frontier. -/
def scanFront (bus : Bus) (u : KeyUse) (r : TrReq) (f : Nat) : List (Nat × List (Nat × Nat)) → Front → Act (Option Path × Front)
  | [], acc => pure (none, acc)
  | x :: t, acc => do
    let d ← bucketGet bus u r x.1
    let res ← scanSlots bus u r f x.1 x.2 d (List.range 8) acc
    match res.1 with
    | some p => pure (some p, res.2)
    | none => scanFront bus u r f t res.2

/-- Breadth-first search over at most `depth` moves. -/
def searchPath (bus : Bus) (u : KeyUse) (r : TrReq) (f : Nat) : Nat → List (Nat × List (Nat × Nat)) → Nat → Act (Option Path)
  | 0, _, _ => pure none
  | depth + 1, front, seen => do
    let res ← scanFront bus u r f front ([], seen)
    match res.1 with
    | some p => pure (some p)
    | none => searchPath bus u r f depth res.2.1 res.2.2

/-- The path of a new slot for a key. -/
def pathFor (bus : Bus) (u : KeyUse) (r : TrReq) (f : Nat) (key : Word) : Act (Option Path) := do
  let bs := keyBuckets u.desc.seed u.desc.log2 key
  let d1 ← bucketGet bus u r bs.1
  let d2 ← bucketGet bus u r bs.2
  if (freeIdx f d1).isSome then pure (some ([], bs.1))
  else if (freeIdx f d2).isSome then pure (some ([], bs.2))
  else searchPath bus u r f 4 [(bs.1, []), (bs.2, [])] 2

/-- Carry out the moves of a path, last first. -/
def movePath (bus : Bus) (u : KeyUse) (r : TrReq) (f : Nat) : List (Nat × Nat) → Nat → Act Unit
  | [], _ => pure ()
  | h :: t, last => do
    movePath bus u r f t last
    let dst := (t.head?.map (·.1)).getD last
    let ds ← bucketGet bus u r h.1
    let dd ← bucketGet bus u r dst
    slotPut bus u r dst ((freeIdx f dd).getD 0) (slotAt ds h.2)
    slotPut bus u r h.1 h.2 emptySlot

/-- Place a new slot: whether a free slot was reachable. -/
def placeKey (bus : Bus) (u : KeyUse) (r : TrReq) (f : Nat) (k : KSlot) : Act Bool := do
  let p ← pathFor bus u r f k.key
  match p with
  | none => pure false
  | some (hops, last) => do
    forAll (probeBucket bus u r) (hops.map (·.1) ++ [last])
    movePath bus u r f hops last
    let b0 := (hops.head?.map (·.1)).getD last
    let d ← bucketGet bus u r b0
    slotPut bus u r b0 ((freeIdx f d).getD 0) k
    pure true

/-! ### Entries and keys (R203 to R207, R211) -/

inductive KeyOp where
  | insert | upsert | evict
  deriving DecidableEq, Repr

/-- A key command wrote a slot for the pending version (R211). -/
def markWrote (s : State) (i tgt : Nat) (v : VLine) : State :=
  if v.pending && decide (tgt = v.ver + 1) then
    { s with kt := { s.kt with tables := Tab.upd {} s.kt.tables i fun t => { t with wrote := true } } }
  else s

/-- The slot visible at a version, with its bucket. -/
def visibleAt (bus : Bus) (u : KeyUse) (r : TrReq) (ver : Nat) (key : Word) : Act (Option (Nat × Nat × KSlot)) := do
  let bs := keyBuckets u.desc.seed u.desc.log2 key
  let d1 ← bucketGet bus u r bs.1
  match matchIdx ver key d1 with
  | some i => pure (some (bs.1, i, slotAt d1 i))
  | none => do
    let d2 ← bucketGet bus u r bs.2
    match matchIdx ver key d2 with
    | some i => pure (some (bs.2, i, slotAt d2 i))
    | none => pure none

/-- The slot that held `old` before a placement, wherever the placement moved it. -/
def findOld (bus : Bus) (u : KeyUse) (r : TrReq) (old : KSlot) : Act (Option (Nat × Nat)) := do
  let bs := keyBuckets u.desc.seed u.desc.log2 old.key
  let d1 ← bucketGet bus u r bs.1
  let d2 ← bucketGet bus u r bs.2
  match (List.range 8).find? fun i => slotAt d1 i = old with
  | some i => pure (some (bs.1, i))
  | none => pure (((List.range 8).find? fun i => slotAt d2 i = old).map fun i => (bs.2, i))

/-- Apply one entry or key: its RESULT, or none where it must wait for the floor (R206). -/
def applyKey (bus : Bus) (u : KeyUse) (r : TrReq) (tgt : Nat) (v : VLine) (op : KeyOp) (key : Word) (row : Nat) :
    Act (Option Byte) := do
  let vis ← visibleAt bus u r tgt key
  let new : KSlot := ⟨key, row, tgt, kLive⟩
  let waits := v.draining && decide (op ≠ .insert)
  match vis with
  | none =>
    if op = .evict then pure (some 0)
    else if waits then pure none
    else do
      let ok ← placeKey bus u r v.floor new
      if ok then modify fun s => markWrote s u.idx tgt v
      pure (some (if ok then 0x00 else 0x04))
  | some (b, i, old) =>
    if op = .insert then pure (some 0x01)
    else if op = .upsert ∧ old.row = row then pure (some 0x03)
    else if waits then pure none
    else do
      probeBucket bus u r b
      if old.kind = kLive ∧ old.ver = tgt then do
        slotPut bus u r b i (if op = .evict then emptySlot else new)
        modify fun s => markWrote s u.idx tgt v
        pure (some 0x02)
      else if op = .evict then do
        slotPut bus u r b i { old with ver := tgt, kind := kDying }
        modify fun s => markWrote s u.idx tgt v
        pure (some 0x02)
      else do
        let bs := keyBuckets u.desc.seed u.desc.log2 key
        forAll (probeBucket bus u r) [bs.1, bs.2]
        let ok ← placeKey bus u r v.floor new
        if !ok then pure (some 0x04)
        else do
          let o ← findOld bus u r old
          match o with
          | some (b, i) => slotPut bus u r b i { old with ver := tgt, kind := kDying }
          | none => pure ()
          modify fun s => markWrote s u.idx tgt v
          pure (some 0x02)

/-! ### The admission control line and posts (R212 to R217, R502) -/

/-- The admission control line. -/
structure CtrlLine where
  prod    : Nat
  cons    : Nat
  posted  : Nat
  dropped : Nat
  deriving DecidableEq, Repr

def ctrlOf (bs : List Byte) : CtrlLine := ⟨leAt bs 0 4, leAt bs 4 4, leAt bs 8 8, leAt bs 16 8⟩
def CtrlLine.bytes (c : CtrlLine) : List Byte :=
  leBytes 4 c.prod ++ leBytes 4 c.cons ++ leBytes 8 c.posted ++ leBytes 8 c.dropped

/-- The route of key translation at the home. -/
def keyHomeVia (pair : Nat) (part : BitVec 3) (s : State) (pa : Nat) : Via :=
  { homeVia s (some part) none (pa / 64) with src := srcId 5 pair 0 }

/-- The route of the admit-head agent, which holds the control line (R213, R363). -/
def headVia (pair : Nat) (part : BitVec 3) (s : State) (pa : Nat) : Via := { keyHomeVia pair part s pa with agent := some 33 }

def ctrlReq (u : KeyUse) (r : TrReq) (acc : Access) : TrReq :=
  { r with user := .key, ctx := u.obj.ctx, va := BitVec.ofNat 64 u.desc.ctrlVa, acc := acc }

def ctrlGet (bus : Bus) (u : KeyUse) (r : TrReq) (pair : Nat) : Act CtrlLine := do
  let bs ← act fun s => vaRead s bus (ctrlReq u r .read) 64 true (headVia pair u.obj.part)
  pure (ctrlOf bs)

def admitNote (s : State) (u : KeyUse) (pair : Nat) (key : Word) : State :=
  note s { source := srcId 5 pair 1, address := key, info := BitVec.ofNat 16 u.idx, ctx := some u.obj.ctx, part := some u.obj.part }

def updTable (s : State) (i : Nat) (f : KeyTable → KeyTable) : State :=
  { s with kt := { s.kt with tables := Tab.upd {} s.kt.tables i f } }

/-- Update the line; a write that fails raises the ADMIT NOTE and stops posting (R502). -/
def ctrlPut (bus : Bus) (u : KeyUse) (r : TrReq) (pair : Nat) (c : CtrlLine) : Act Unit :=
  onEnd (vaPut bus (ctrlReq u r .write) c.bytes true (headVia pair u.obj.part)) fun st =>
    if st = stBusError then
      modify fun s => updTable (admitNote s u pair 0) u.idx fun t => { t with stopped := true }
    else pure ()

/-- The bytes of an admission entry (R212). -/
def admitEntry (u : KeyUse) (c : CtrlLine) (key : Word) (ver : Nat) (ctx : BitVec 12) : List Byte :=
  leBytes 8 key.toNat ++ leBytes 4 ver ++ leBytes 2 ctx.toNat ++
    [if c.prod / 2 ^ u.desc.admitLog2 % 2 = 0 then 1 else 0, 0]

/-- Write an admission entry: through the home, with a hint where the descriptor asks for one, or to host memory (R215). -/
def putEntry (bus : Bus) (u : KeyUse) (r : TrReq) (pair : Nat) (c : CtrlLine) (bs : List Byte) : Act Unit := do
  let va := u.desc.admitVa + BitVec.ofNat 64 (16 * (c.prod % 2 ^ u.desc.admitLog2))
  if u.desc.admitHost then
    modify fun s => hostWrite s u.obj.ctx (ctxFn s u.obj.ctx).port .admission va bs
  else do
    let rq := { r with user := .key, ctx := u.obj.ctx, va := va, acc := .write }
    let s ← get
    if u.desc.hintEn && decide (s.ch.st = .up) && corePresent s u.desc.hintPort then do
      let t ← trAct bus rq
      let s ← get
      let v := keyHomeVia pair u.obj.part s t.1
      if lineStatus s v bus (t.1 / 64) false = .ok then do
        homeFree bus t.1 16 u.obj.part
        let off := t.1 % 64
        modify fun s => homeRequest s ⟨.hint (List.replicate off 0 ++ bs) (List.replicate off false ++ List.replicate 16 true),
          u.desc.hintPort, 0, t.1 / 64 * 64, false, some u.obj.part⟩ bus
      else homePut v bus t.1 bs
    else vaPut bus rq bs true (keyHomeVia pair u.obj.part)

/-- A post is dropped: counted, with a NOTE at most once per table and millisecond (R215). -/
def dropPost (s : State) (u : KeyUse) (pair : Nat) (key : Word) : State :=
  let s := { s with kt := { s.kt with dropped := s.kt.dropped + 1 } }
  let t : KeyTable := Tab.get {} s.kt.tables u.idx
  let quiet := match t.lastNote with
    | some k => decide (s.tick < k + 1000000)
    | none => false
  if quiet then s else admitNote (updTable s u.idx fun t => { t with lastNote := some s.tick }) u pair key

/-- Post a miss (R214, R215, R502). -/
def postMiss (bus : Bus) (u : KeyUse) (r0 : TrReq) (ver : Nat) (ctx : BitVec 12) (key : Word) : Act Unit := do
  let s ← get
  let r := { r0 with owner := .free }
  let h1 := keyHash1 u.desc.seed key
  let pair := keyPairOf s h1
  let slot := pair * 2048 + h1.toNat % 2048
  if (Tab.get {} s.kt.tables u.idx).stopped then
    modify fun s => { s with kt := { s.kt with dropped := s.kt.dropped + 1 } }
  else
    let young := match Tab.find? s.kt.filter slot with
      | some e => decide (e.obj.toNat = u.idx ∧ e.key = key ∧ s.tick < e.tick + s.kt.window.toNat * 1000)
      | none => false
    if young then modify fun s => { s with kt := { s.kt with filtered := s.kt.filtered + 1 } }
    else do
      modify fun s => { s with kt := { s.kt with filter := Tab.insert s.kt.filter slot ⟨BitVec.ofNat 32 u.idx, key, s.tick⟩ } }
      let line ← tryPost (ctrlGet bus u r pair)
      match line with
      | none => modify fun s => dropPost s u pair key
      | some c => do
        let sent ← if (c.prod + 2 ^ 32 - c.cons) % 2 ^ 32 < 2 ^ u.desc.admitLog2
          then tryPost (putEntry bus u r pair c (admitEntry u c key ver ctx)) else pure none
        match sent with
        | none => do
          let _ ← tryPost (ctrlPut bus u r pair { c with dropped := c.dropped + 1 })
          modify fun s => dropPost s u pair key
        | some _ => do
          let w ← tryPost (ctrlPut bus u r pair { c with prod := (c.prod + 1) % 2 ^ 32, posted := c.posted + 1 })
          match w with
          | none => modify fun s => { s with kt := { s.kt with dropped := s.kt.dropped + 1 } }
          | some _ => modify fun s =>
              updTable { s with kt := { s.kt with posted := s.kt.posted + 1 } } u.idx fun t =>
                { t with unsent := t.unsent || decide (u.desc.event ≠ 0) }

/-- ADVANCE (R217): only an ADMIT table has a control line. -/
def advanceCons (bus : Bus) (u : KeyUse) (r : TrReq) (adv : Nat) : Act Unit := do
  if adv ≠ 0 ∧ u.desc.policy = polAdmit then do
    let c ← ctrlGet bus u r 0
    let used := (c.prod + 2 ^ 32 - c.cons) % 2 ^ 32
    ctrlPut bus u r 0 { c with cons := (c.cons + min adv used) % 2 ^ 32 }

/-! ### KEY_ADMIT and KEY_EVICT (R202 to R209) -/

/-- Result of one KEY_ADMIT entry before the buckets are looked at (R203). The spec does not say which result an entry with two
errors gets: BAD_ENTRY goes before NULL_KEY, and NULL_KEY before BAD_ROW (DESIGN CHOICE, log entry 91). -/
def entryError (e : List Byte) : Option Byte :=
  if leAt e 13 3 ≠ 0 then some 0x07
  else if BitVec.ofNat 64 (leAt e 0 8) = nullKey then some 0x05
  else if leAt e 8 4 = 0xFFFFFFFF then some 0x06
  else none

/-- Apply the entries of a KEY_ADMIT from entry `k` on: false where one waits for the floor. The page of RESULT is translated
before the entry changes a slot, so that no fault comes between them. -/
def admitLoop (bus : Bus) (id : Nat) (c : Cmd) (u : KeyUse) (r : TrReq) (tgt : Nat) (v : VLine) (op : KeyOp) :
    Nat → Nat → Act Bool
  | 0, _ => pure true
  | n + 1, k => do
    let va := c.raw.w 2 + BitVec.ofNat 64 (16 * k)
    let e ← keyRead bus { r with ctx := c.ctx, va := va } 0 c.part 16
    let res ← match entryError e with
      | some x => pure (some x)
      | none => do
        let _ ← trAct bus { r with user := .key, ctx := c.ctx, va := va + 12, acc := .write }
        applyKey bus u r tgt v op (BitVec.ofNat 64 (leAt e 0 8)) (leAt e 8 4)
    match res with
    | none => pure false
    | some x => do
      keyWrite bus { r with ctx := c.ctx, va := va + 12 } 0 c.part [x]
      modify fun s => setProgress s id (k + 1)
      admitLoop bus id c u r tgt v op n (k + 1)

/-- Apply the keys of a KEY_EVICT from key `k` on. -/
def evictLoop (bus : Bus) (id : Nat) (c : Cmd) (u : KeyUse) (r : TrReq) (tgt : Nat) (v : VLine) : Nat → Nat → Act Bool
  | 0, _ => pure true
  | n + 1, k => do
    let key ← if c.raw.w 2 = 0 then pure (c.raw.keys.getD k nullKey)
      else do
        let bs ← keyRead bus { r with ctx := c.ctx, va := c.raw.w 2 + BitVec.ofNat 64 (8 * k) } 0 c.part 8
        pure (BitVec.ofNat 64 (leNat bs))
    let res ← if key = nullKey then pure (some 0) else applyKey bus u r tgt v .evict key 0
    match res with
    | none => pure false
    | some _ => do
      modify fun s => setProgress s id (k + 1)
      evictLoop bus id c u r tgt v n (k + 1)

/-- Run the entries of a key command for its target version. -/
def keyAct (bus : Bus) (id : Nat) (evict : Bool) (tgt : Nat) (v : VLine) (c : Cmd) : Act Unit := do
  let r := cmdReq id c .key 0 .read
  let u ← keyUse bus r (hIndex (c.raw.w 1))
  let n := (c.raw.w 3).toNat - c.progress
  let done ← if evict then evictLoop bus id c u r tgt v n c.progress
    else admitLoop bus id c u r tgt v (if bits (c.raw.w 4) 1 0 = 0 then .insert else .upsert) n c.progress
  if done then do
    if evict then pure () else advanceCons bus u r (bits (c.raw.w 4) 63 32)
    okCmd id
  else modify fun s => updCmd s id fun c => { c with work := .key tgt true, phase := .running }

/-- Run a key command: it waits while an OPEN or ABORT runs (R208), and takes its target version once. -/
def keyRun (bus : Bus) (id : Nat) (evict : Bool) (c : Cmd) : Act Unit := do
  let o ← objGet bus (hIndex (c.raw.w 1))
  let v ← vlineGet bus (cmdReq id c .key 0 .read) o
  match c.work with
  | .key t _ => keyAct bus id evict t v c
  | _ =>
    if v.opening || v.aborting then pure ()
    else do
      let t := if v.pending then v.ver + 1 else v.ver
      modify fun s => updCmd s id fun c => { c with work := .key t false }
      keyAct bus id evict t v c

def execKeyAdmit (id : Nat) (bus : Bus) (s : State) : Res := .next (runCmd s id opKeyAdmit (keyRun bus id false))

def execKeyEvict (id : Nat) (bus : Bus) (s : State) : Res := .next (runCmd s id opKeyEvict (keyRun bus id true))

/-- KEY_COMMAND_RESUME (R206): a command that waits for the floor goes on where it stopped. -/
def execKeyCommandResume (id : Nat) (bus : Bus) (s : State) : Res :=
  match cmdOf s id with
  | none => .next s
  | some c =>
    match c.work with
    | .key t true =>
      if c.phase = .running ∧ runsWork s = true then
        let s := updCmd s id fun c => { c with phase := .dispatched, work := .key t false }
        .next (runCmd s id c.raw.opcode (keyRun bus id (decide (c.raw.opcode = opKeyEvict))))
      else .next s
    | _ => .next s

/-! ### The sweep of an aborted version (R211) -/

/-- Rewrite the slots of one bucket that carry an aborted version. -/
def sweepBucket (bus : Bus) (u : KeyUse) (r : TrReq) (p b : Nat) : Act Unit := do
  let s ← get
  let d ← keyRead bus (bucketReq u r b) (bankOf s b) u.obj.part 128
  modify fun s => { s with kt := { s.kt with reads := s.kt.reads + 1 } }
  forAll (fun i =>
    let k := slotAt d i
    if k.key ≠ nullKey ∧ k.ver = p ∧ k.kind = kLive then slotPut bus u r b i emptySlot
    else if k.key ≠ nullKey ∧ k.ver = p ∧ k.kind = kDying then slotPut bus u r b i { k with ver := 0, kind := kLive }
    else pure ()) (List.range 8)

/-- The index of a table to sweep: none where it has no key descriptor, or one that no key command can have used. -/
def sweepUse (bus : Bus) (r : TrReq) (i : Nat) : Act (Option KeyUse) := do
  let o ← objGet bus i
  if (tableDesc o.raw).keyVa = 0 then pure none else noneOn (keyUse bus r i) stBadField

/-- Sweep the index of a table whose pending version `p` is aborted, if a key command wrote a slot for it. Whether one did
before a reset is not known: a version that was open then is swept (R211, R500). -/
def sweepTable (bus : Bus) (r : TrReq) (i p : Nat) : Act Unit := do
  let s ← get
  let t := Tab.get {} s.kt.tables i
  if t.wrote || !t.opened then do
    match ← sweepUse bus r i with
    | some u => forAll (sweepBucket bus u r p) (List.range (2 ^ u.desc.log2))
    | none => pure ()
    modify fun s => updTable s i fun t => { t with opened := true, wrote := false }

/-! ### ADMIT_EVENT_SIGNAL (R216) -/

/-- A keyed table whose posts are to be signalled, and its POSTED. -/
def admitPosted (bus : Bus) (i : Nat) : Act (KeyUse × Word) := do
  let r : TrReq := { owner := .free, user := .key, ctx := 0, va := 0, acc := .read }
  let u ← keyUse bus r i
  let c ← ctrlGet bus u r 0
  pure (u, BitVec.ofNat 64 c.posted)

/-- The posts of a table up to a value are signalled, or their flush read is under way. -/
def admitSent (s : State) (i : Nat) (posted : Word) : State :=
  updTable s i fun t => { t with unsent := false, lastSig := some s.tick, flushVal := posted }

/-- Signal ADMIT_EVENT with the value of POSTED that was read, or start the flush read that must go first in host mode, on the
port of the context's function (R216, R108). -/
def admitStart (bus : Bus) (i : Nat) (s : State) (x : KeyUse × Word) : State :=
  let ctx := x.1.obj.ctx
  if x.1.desc.admitHost then
    if fnIssues s (ctxFn s ctx) then
      (startFlush (admitSent s i x.2) ctx (ctxFn s ctx).port x.1.desc.admitVa (.admission i)).1
    else s
  else postSignal (admitSent s i x.2) bus x.1.desc.event x.2 x.1.obj.part ctx

/-- ADMIT_EVENT_SIGNAL (R216): posted entries of a table are not yet signalled, and a microsecond has passed. What cannot be
read now stays unsignalled. -/
def execAdmitEventSignal (obj : BitVec 32) (bus : Bus) (s : State) : Res :=
  let i := obj.toNat
  let t := Tab.get {} s.kt.tables i
  if !t.unsent || !runsWork s then .next s
  else
    let s := match t.lastSig with
      | some k => reach s (k + 1000)
      | none => s
    .next (runAct (admitPosted bus i) s (admitStart bus i) (fun s _ => s))

/-! ### Key slices and the cache (R218, R219, R201) -/

/-- Drop what key translation keeps of the tables in scope: one, or all. -/
def ktDrop (s : State) (scope : Option Nat) : State :=
  let hit (i : Nat) : Bool := scope.all (· = i)
  { s with kt := { s.kt with
    cache := s.kt.cache.filter fun l => !hit l.obj.toNat
    descs := s.kt.descs.filter fun e => !hit e.1
    filter := s.kt.filter.filter fun e => !hit e.2.obj.toNat
    tables := s.kt.tables.filterMap fun e =>
      let t : KeyTable := if hit e.1 then { e.2 with stopped := false } else e.2
      if t = ({} : KeyTable) then none else some (e.1, t) } }

/-- A lookup of an entry, or the command of a number, is held in the middle. -/
def keyHeld (s : State) (x : Nat × Option Nat) : Bool :=
  match x.2 with
  | none =>
    match cmdOf s x.1 with
    | some c => (match c.work, c.phase with | .key _ _, .held _ => true | _, _ => false)
    | none => false
  | some e =>
    match (bagOf s x.1).bind fun w => Tab.find? w.ents e with
    | some y => (match y.st with | .held _ none => true | _ => false)
    | none => false

/-- The lookups and placements on the tables in scope that have begun and are held. -/
def keyHeldIn (s : State) (scope : Option Nat) : List (Nat × Option Nat) :=
  let hit (i : Nat) : Bool := scope.all (· = i)
  let cmds := (s.qe.cmds.filter fun (e : Nat × Cmd) => hit (hIndex (e.2.raw.w 1))).map fun (e : Nat × Cmd) => (e.1, none)
  let ents (b : Nat × BagWork) : List (Nat × Option Nat) :=
    if b.2.keyed && hit b.2.table.toNat then b.2.ents.map fun (e : Nat × BagEnt) => (b.1, some e.1) else []
  (cmds ++ (allBags s).flatMap ents).filter (keyHeld s)

/-- Begin an invalidation: what is kept in scope is dropped, and what has begun there is noted. -/
def ktInvStart (s : State) (scope : Option Nat) : State :=
  ktDrop { s with kt := { s.kt with invOp := .run, invHeld := keyHeldIn s scope } } scope

/-- A write of KT_CACHE_INV (R219). -/
def ktInvWrite (s : State) (op : Nat) (index : BitVec 32) : State :=
  if s.kt.invOp.busy || s.build.keySlices = 0 then s
  else
    let s := { s with kt := { s.kt with invIndex := index } }
    if op = 1 then ktInvStart s none
    else if op = 2 then ktInvStart s (some index.toNat)
    else { s with kt := { s.kt with invOp := .done rFormat } }

def execKtInvAll (s : State) : Res := .next (if barOk s then ktInvWrite s 1 0 else s)

def execKtInvTable (obj : BitVec 32) (s : State) : Res := .next (if barOk s then ktInvWrite s 2 obj else s)

/-- KT_INV_DONE (R219): every lookup and placement in scope that had begun has ended. -/
def execKtInvDone (s : State) : Res :=
  .next (if s.kt.invOp.busy && !s.kt.invHeld.any (keyHeld s) then
    { s with kt := { s.kt with invOp := .done rOk, invHeld := [] } } else s)

/-- A write of KT_SLICE_RETIRE (R218). -/
def keyRetireWrite (s : State) (mask : Nat) : State :=
  let present := maskOf s.build.keySlices
  let new := mask &&& present
  if s.kt.retBusy || decide (new = present) then s
  else { s with kt := { s.kt with retire := BitVec.ofNat 32 new, retBusy := decide (new ≠ s.kt.retire.toNat) } }

def execKeySliceRetire (mask : BitVec 32) (s : State) : Res := .next (if barOk s then keyRetireWrite s mask.toNat else s)

def execKeySliceRetireDone (s : State) : Res :=
  .next (if s.kt.retBusy then { s with kt := { s.kt with retBusy := false } } else s)

end Sys2Proof.Machine
end

