-- ==== Sys2Proof/Machine/Tables.lean ====
section
/-! DEFINITION. Objects and table versions (spec file 04, R141 to R146; spec file 07): CREATE and FREE, opening,
aborting, flipping and retiring a version, and the pages of a table. -/

namespace Sys2Proof.Machine

open Sys2Proof

/-! ### Regions and leaves of a table -/

/-- Base of the region of a slot (R223). -/
def TableDesc.region (t : TableDesc) (slot : Bool) : Nat := t.regionVa + (if slot then 2 ^ t.regionLog2 else 0)

/-- Every valid leaf of a region. -/
def regionLeaves (tol : Bool) (bus : Bus) (o : Obj) (slot : Bool) : Act (List Leaf) :=
  let t := tableDesc o.raw
  leavesOf tol bus o.ctx (t.region slot) (t.region slot + 2 ^ t.regionLog2)

/-- The entry of an address at a level, from a table downward: none where a table is missing or a leaf stands above. -/
def entryAt (bus : Bus) (ctx : BitVec 12) (va want : Nat) : Nat → Nat → Act (Option (Nat × Word))
  | 0, _ => pure none
  | level + 1, table => do
    let s ← get
    let a := table + 8 * ((va >>> lvlLog2 level) % 512)
    let bs ← homeGet (tableVia s ctx va) bus a 8
    let pte := BitVec.ofNat 64 (leNat bs)
    if level ≤ want then pure (some (a, pte))
    else if pteV pte && !pteLF pte then entryAt bus ctx va want level (pteNext pte)
    else pure none

/-- The entry of the other region that matches a leaf. -/
def matching (bus : Bus) (o : Obj) (slot : Bool) (l : Leaf) : Act (Option (Nat × Word)) := do
  let t := tableDesc o.raw
  let root ← rootOf bus o.ctx
  entryAt bus o.ctx (l.va - t.region slot + t.region (!slot)) l.level 5 (pteNext root)

/-- Clear VS on the matching leaf of the other region, where there is one. -/
def unshare (bus : Bus) (o : Obj) (slot : Bool) (l : Leaf) : Act Unit := do
  let m ← matching bus o slot l
  match m with
  | some (a, pte) => if pteV pte && pteVS pte then putPte bus o.ctx l.va a (pteSet pte 8 false) else pure ()
  | none => pure ()

/-- Clear every leaf of a region (R237 step 1, R239): VS goes from the matching leaf of the other region, and the frames
of leaves with VS clear are given. -/
def clearRegion (bus : Bus) (o : Obj) (slot : Bool) : Act (List Frame3) := do
  let ls ← regionLeaves true bus o slot
  let fs ← mapAll (fun l =>
    if pteVS l.pte then do
      let done ← attempt (putPte bus o.ctx l.va l.addr 0)
      if done.isSome then do
        let _ ← attempt (unshare bus o slot l)
        pure []
      else pure []
    else clearLeaf bus o.ctx true l) ls
  pure fs.flatten

/-- Both regions of a table, as scopes of an invalidation. -/
def bothRegions (o : Obj) : List InvScope :=
  let t := tableDesc o.raw
  [.range o.ctx (t.region false) (2 ^ t.regionLog2), .range o.ctx (t.region true) (2 ^ t.regionLog2)]

/-- The leaves of a TABLE that becomes FREE (R240): every leaf of both regions is cleared, and each frame is given once:
every leaf with VS clear, and one leaf of each pair with VS set. -/
def clearTable (bus : Bus) (o : Obj) (cur : Bool) : Act (List Frame3) := do
  let a ← regionLeaves true bus o cur
  let b ← regionLeaves true bus o (!cur)
  let fa ← mapAll (clearLeaf bus o.ctx true) a
  let fb ← mapAll (fun l => clearLeaf bus o.ctx (!pteVS l.pte) l) b
  pure (fa.flatten ++ fb.flatten)

/-! ### Apertures, writes and copies of an object -/

/-- A handle names generation `gen` of object `i`. -/
def hNames (h : Word) (i gen : Nat) : Bool := decide (hIndex h = i ∧ hGen h = gen)

/-- Every enabled aperture on an object goes to FAILED with ABANDONED (R145, R239). -/
def failObjAps (s : State) (i gen : Nat) : State :=
  each (fun s p => each (fun s e => if e.2.en && hNames e.2.obj i gen then failAp s p e.1 aeAbandoned else s) s
    (hostPort s p).aps) s (List.range s.build.hostPorts.length)

/-- An enabled aperture names the object. -/
def objHasAp (s : State) (i gen : Nat) : Bool :=
  (List.range s.build.hostPorts.length).any fun p => (hostPort s p).aps.any fun e => e.2.en && hNames e.2.obj i gen

/-- The writes and copies of a table that a flip or an abort waits for: those accepted before it was dispatched (R234). -/
def tableBusy (s : State) (i before : Nat) : Bool :=
  (s.wws.any fun e => decide (e.1 < before ∧ e.2.obj.toNat = i)) || s.cows.any fun e => decide (e.2.obj.toNat = i)

/-- A key command of the table that was dispatched before has not completed (R208). -/
def keyCmdBusy (s : State) (i before : Nat) : Bool :=
  s.qe.cmds.any fun e => decide (e.1 < before ∧ (e.2.raw.opcode = opKeyAdmit ∨ e.2.raw.opcode = opKeyEvict)
    ∧ hIndex (e.2.raw.w 1) = i) && (match e.2.phase with | .finished => false | .flushing _ => false | _ => true)

/-! ### Objects that are freed (R143 to R145, R176, R201, R240) -/

/-- The version line of an object cannot be trusted (R501). -/
def badLine (s : State) (i : Nat) (o : Obj) : Bool := decide (o.st = stTorn) || s.qe.torn.contains i

/-- Release a version pin (R233, R323): of a table whose line is bad, it updates nothing (R501). -/
def releasePin (s : State) (bus : Bus) (pin : Option (Nat × Bool)) : State :=
  match pin with
  | none => s
  | some (i, slot) =>
    let m : Act Unit := do
      let o ← objGet bus i
      let s ← get
      if badLine s i o then pure ()
      else do
        let v ← vlineGet bus selfReq o
        vlinePut bus selfReq i o (v.setPins slot (v.pins slot - 1))
    let due (s : State) : State := { s with qe := { s.qe with vdue := s.qe.vdue ++ [(i, slot)] } }
    match m s with
    | .ok _ s' => s'
    | .error .wait s' => due (waitBack s s')
    | .error (.held _) s' => due s'
    | .error _ s' => s'

/-- Release again the version pins of an object that could not be released before (log entry 47). -/
def releaseDue (s : State) (bus : Bus) (i : Nat) : State :=
  let mine := s.qe.vdue.filter fun p => p.1 = i
  each (fun s p => releasePin s bus (some p)) { s with qe := { s.qe with vdue := s.qe.vdue.filter fun p => p.1 ≠ i } } mine

/-- The retire pass of a table, and its end. -/
def passOf (s : State) (i : Nat) : Option PagePass := s.tu.passes.find? fun p => p.retire && decide (p.obj.toNat = i)
def dropPass (s : State) (i : Nat) : State :=
  { s with tu := { s.tu with passes := s.tu.passes.filter fun p => !(p.retire && decide (p.obj.toNat = i)) } }

/-- The retire pass of a table that is freed goes on as a pass of the freed object: its frames are still returned. -/
def passToFree (s : State) (i : Nat) : State :=
  let free (p : PagePass) : PagePass := if p.retire && decide (p.obj.toNat = i) then { p with retire := false } else p
  { s with tu := { s.tu with passes := s.tu.passes.map free } }

/-- The pages of an object that has become FREE. -/
def freePages (bus : Bus) (i : Nat) (o : Obj) : Act Unit := do
  if o.ty = tyTable then do
    modify fun s => passToFree s i
    let s ← get
    let v ← if badLine s i o then pure none else tryPost (vlineGet bus selfReq o)
    let fs ← clearTable bus o (match v with | some x => x.slot | none => false)
    beginPass i o.part (bothRegions o) false fs
  else do
    let fs ← clearObject bus o
    beginPass i o.part [.range o.ctx o.va o.size] false fs
  modify fun s => pumpPasses s bus

/-- An object becomes FREE; `was` is the descriptor as it stood before the free. -/
def becomeFree (bus : Bus) (i : Nat) (o was : Obj) : Act Unit := do
  if o.ty = tyTable then modify fun s => ktDrop s (some i) else pure ()
  freePages bus i was
  objPut bus i { o with st := stFree }
  modify fun s => { s with qe := { s.qe with torn := s.qe.torn.filter (· ≠ i), flips := Tab.erase s.qe.flips i } }

/-- Every WAIT on a freed event ends with STALE_HANDLE (R145). -/
def endWaits (s : State) (i : Nat) : State :=
  let s := each (fun s e => if hIndex (e.2.raw.w 1) = i ∧ e.2.waits = true then endCmd s e.1 stStaleHandle 0 else s) s s.qe.cmds
  let ends (c : Channel) : Channel :=
    match c.run with
    | some r =>
      if (r.wait.map (·.event)) = some i then
        { c with st := .ending, run := some { r with wait := none, sigs := [], fail := some (stStaleHandle, 0) } }
      else c
    | none => c
  { s with mv := { s.mv with chans := s.mv.chans.map fun e => (e.1, ends e.2) } }

/-- A TABLE with window writes or copies that have not ended: its pending version is not lost before they have (R239,
R240). -/
def tableHeld (s : State) (i : Nat) (o : Obj) : Bool := decide (o.ty = tyTable) && tableBusy s i s.nextId

/-- Free a LIVE or TORN object: GEN steps at once, and it is FREE or DRAINING (R143). A TABLE is DRAINING also while its
window writes and copies last (R240; log entry 84). -/
def freeObj (bus : Bus) (i : Nat) (o : Obj) : Act Unit := do
  modify fun s => failObjAps s i o.gen
  if o.ty = tyEvent then modify fun s => endWaits s i else pure ()
  if o.st = stTorn then modify fun s => tornLine s i else pure ()
  let o' := { o with gen := (o.gen + 1) % 65536 }
  let s ← get
  if o.pins = 0 && !tableHeld s i o then becomeFree bus i o' o else objPut bus i { o' with st := stDraining }

/-- OBJECT_FREE (R143). -/
def objectFreeAct (bus : Bus) (id : Nat) (c : Cmd) : Act Unit := do
  let h := c.raw.w 1
  let o ← objGet bus (hIndex h)
  need (decide ((o.st = stLive ∨ o.st = stTorn) ∧ o.gen = hGen h)) stState
  freeObj bus (hIndex h) o
  okCmd id

def execObjectFree (id : Nat) (bus : Bus) (s : State) : Res := .next (runCmd s id opObjectFree (objectFreeAct bus id))

/-- OBJECT_DRAIN_END (R143): the pins of a DRAINING object have reached 0; passes that wait for users go on. -/
def execObjectDrainEnd (index : BitVec 32) (bus : Bus) (s : State) : Res :=
  if !runsWork s then .next s
  else
    let m : Act Unit := do
      if index.toNat < objCount s then do
        let o ← objGet bus index.toNat
        let s ← get
        if o.st = stDraining ∧ o.pins = 0 ∧ tableHeld s index.toNat o = false then becomeFree bus index.toNat o o else pure ()
      else pure ()
      modify fun s => pumpPasses s bus
    .next (runAct m s (fun s _ => s) (fun s _ => s))

/-! ### QE_OBJ_OP (R142, R143) -/

/-- The RESULT where the spec states none: a descriptor that cannot be read or written (log entry 33). -/
def openResult (s : State) : Byte := (Config.freeWord s.free 0).setWidth 8

/-- A CREATE ends: RESULT, and QE_OBJ_RES as 0 after a refusal. -/
def objDone (s : State) (r : Byte) (h : Word) : State :=
  { s with qe := { s.qe with objOp := .done r, objRes := h } }

/-- Where the version line of a new table lies: its address must translate to a local leaf of normal type with R and W
set (R222). -/
def vlineOk (bus : Bus) (o : Obj) : Act (Option Nat) := fun s =>
  let va := BitVec.ofNat 64 (tableDesc o.raw).vlineVa
  let w := walk s bus o.ctx va none
  match w.2 with
  | .leaf pte sz =>
    .ok (if pteR pte && pteW pte && !pteRM pte && decide (pteMT pte = 0) then some (leafAddr pte sz va) else none) w.1
  | .wait => .error .wait w.1
  | _ => .ok none w.1

/-- The checks of CREATE, in the order of R142 and R222; an ended action carries the RESULT. -/
def createAct (bus : Bus) (i : Nat) : Act Word := do
  let s ← get
  need (decide (i ≠ 0 ∧ i < objCount s)) rFormat
  let bs ← homeGet (sysVia s (objAddr s i)) bus (objAddr s i) 64
  let o := objOf bs
  need (decide (o.ty ≤ 3) && !objReserved bs) rFormat
  need (decide (o.ty = tyTable ∨ leAt bs 32 8 + leAt bs 40 8 + leAt bs 48 8 + leAt bs 56 8 = 0)) rFormat
  need (decide (o.ty ≠ tyEvent ∨ (o.size = 8 ∧ o.va % 8 = 0))) rFormat
  need (decide (o.ty ≠ tyTable) || !tableBad bs) rFormat
  need (decide (o.st = stFree)) rState
  let ent ← homeGet (sysVia s (ctxAddr s o.ctx)) bus (ctxAddr s o.ctx) 64
  need ((byteAt ent 0).testBit 0) rPartition
  need (decide (o.gen ≠ 0xFFFF)) rExhausted
  let part := BitVec.ofNat 3 (byteAt ent 0 / 16)
  if o.ty = tyTable then do
    let r ← vlineOk bus o
    let s ← get
    match r with
    | none => failWith rFormat
    | some pa => failAs (homePut (engineVia part s pa) bus pa (List.replicate 64 0)) rFormat
  else pure ()
  objPut bus i { o with st := stLive, part := part }
  pure (mkHandle o.gen part.toNat i)

/-- Where an action of an operation register ended: its RESULT, free where a memory response was not OK. -/
def endResult (s : State) : Stop → Byte
  | .ended e _ => if e = stBusError then openResult s else e
  | _ => openResult s

/-- A CREATE: each refusal's code is the status it ended with. -/
def objCreate (s : State) (i : Nat) (bus : Bus) : State :=
  runAct (createAct bus i) s (fun s h => objDone s rOk h) (fun s e => objDone s (endResult s e) 0)

/-- A FREE through QE_OBJ_OP. -/
def objFreeOp (s : State) (i : Nat) (bus : Bus) : State :=
  let m : Act Unit := do
    need (decide (i ≠ 0 ∧ i < objCount s)) rFormat
    let o ← objGet bus i
    need (decide (o.st = stLive ∨ o.st = stTorn)) rState
    freeObj bus i o
  runAct m s (fun s _ => { s with qe := { s.qe with objOp := .done rOk } })
    (fun s e => { s with qe := { s.qe with objOp := .done (endResult s e) } })

/-- A write of QE_OBJ_OP. -/
def objOpWrite (s : State) (op : Nat) (index : BitVec 32) (bus : Bus) : State :=
  if s.qe.objOp.busy then s
  else
    let s := { s with qe := { s.qe with objIndex := index } }
    if op = 1 then objCreate s index.toNat bus
    else if op = 2 then objFreeOp s index.toNat bus
    else { s with qe := { s.qe with objOp := .done rFormat } }

def execObjCreate (index : BitVec 32) (bus : Bus) (s : State) : Res :=
  .next (if barOk s then objOpWrite s 1 index bus else s)

def execObjFree (index : BitVec 32) (bus : Bus) (s : State) : Res :=
  .next (if barOk s then objOpWrite s 2 index bus else s)

/-! ### TABLE_OPEN_VERSION (R227 to R229, R239) -/

/-- The leaf of the pending region that matches a current leaf (R229 step 3). -/
def pendingPte (p : Word) : Word := pteSet (pteSet (pteSet (pteSet p 1 true) 2 true) 8 true) 9 false

/-- Steps 2 and 3 of an open: check every leaf of the current region, then share them. -/
def shareLeaves (bus : Bus) (o : Obj) (slot : Bool) : Act Unit := do
  let t := tableDesc o.raw
  let ls ← leavesOf false bus o.ctx (t.region slot) (t.region slot + t.rows * t.rowBytes)
  let ms ← mapAll (fun l => do
    need (!pteRM l.pte && !ptePN l.pte && decide (l.level ≤ 1)) stBadField
    let m ← matching bus o slot l
    match m with
    | some (a, pte) => do
      need (!pteV pte) stBadField
      pure (l, a)
    | none => failWith stBadField) ls
  forAll (fun x => do
    putPte bus o.ctx x.1.va x.2 (pendingPte x.1.pte)
    putPte bus o.ctx x.1.va x.1.addr (pteSet x.1.pte 8 true)) ms

/-- Step 5 of an open. -/
def openDone (bus : Bus) (id : Nat) (c : Cmd) (i : Nat) (o : Obj) : Act Unit := do
  let r := cmdReq id c .engine 0 .read
  let v ← vlineGet bus r o
  vlinePut bus r i o { v with cow := 0, pending := true, opening := false }
  modify fun s => updTable s i fun t => { t with opened := true, wrote := false }
  okCmd id
  modify fun s => wwPump s bus

/-- OPEN (R228, R229): a failure of step 2 or 3 clears OPENING (log entry 34). -/
def openAct (bus : Bus) (id : Nat) (c : Cmd) : Act Unit := do
  let i := hIndex (c.raw.w 1)
  let o ← objGet bus i
  let r := cmdReq id c .engine 0 .read
  match c.work with
  | .opening ws => do
    let s ← get
    if ws.any (waitHolds s) then pure () else openDone bus id c i o
  | _ => do
    let v ← vlineGet bus r o
    let w := c.raw.w 3
    need (!v.pending && !v.opening && !v.aborting && (!bit w 63 || decide (bits w 29 0 = v.ver)) && decide (v.ver ≠ 0x3FFFFFFF))
      stState
    if v.draining then pure ()
    else do
      vlinePut bus r i o { v with opening := true }
      onEnd (shareLeaves bus o v.slot) fun _ => do
        vlinePut bus r i o { v with opening := false }
        modify fun s => wwPump s bus
      let s ← get
      let t := tableDesc o.raw
      let b := invBegin s (.range o.ctx (t.region v.slot) (2 ^ t.regionLog2)) false
      set b.1
      if b.2 = [] then openDone bus id c i o
      else modify fun s => updCmd s id fun c => { c with work := .opening b.2 }

def execTableOpen (id : Nat) (bus : Bus) (s : State) : Res :=
  match cmdOf s id with
  | none => .next s
  | some c => if bits (c.raw.w 2) 1 0 = 0 then .next (runCmd s id opOpenVersion (openAct bus id)) else .next s

/-- The end of an abort, once no user holds a translation of either region: the frames are returned, once; then the index is
swept. -/
def abortDone (bus : Bus) (id : Nat) (c : Cmd) (i : Nat) (o : Obj) (fs : List Frame3) : Act Unit := do
  modify fun s => pushAll s bus o.part fs
  modify fun s => updCmd s id fun c => { c with work := .abortInval [] [] }
  let s ← get
  if poolsQuiet s o.part then do
    let r := cmdReq id c .engine 0 .read
    let v ← vlineGet bus r o
    sweepTable bus r i (v.ver + 1)
    vlinePut bus r i o { v with pending := false, aborting := false }
    okCmd id
    modify fun s => wwPump s bus
  else pure ()

/-- Another ABORT of the table runs. -/
def abortRuns (s : State) (id i : Nat) : Bool :=
  s.qe.cmds.any fun e => decide (e.1 ≠ id ∧ hIndex (e.2.raw.w 1) = i) &&
    (match e.2.work with | .abortWait => true | .abortInval _ _ => true | _ => false)

/-- An abort whose apertures have failed: the writes and copies of the table end, the pending leaves go (R239). -/
def abortGo (bus : Bus) (id : Nat) (c : Cmd) (i : Nat) (o : Obj) (v : VLine) : Act Unit := do
  let s ← get
  modify fun s => updCmd s id fun c => { c with work := .abortWait }
  if tableBusy s i id then pure ()
  else do
    let fs ← clearRegion bus o (!v.slot)
    let s ← get
    let a := invBegin s ((bothRegions o).headD .all) false
    let b := invBegin a.1 ((bothRegions o).getD 1 .all) false
    set b.1
    if a.2 ++ b.2 = [] then abortDone bus id c i o fs
    else modify fun s => updCmd s id fun c => { c with work := .abortInval fs (a.2 ++ b.2) }

/-- ABORT (R239): apertures fail, the writes and copies of the table end, the pending leaves go, the index is swept. -/
def abortAct (bus : Bus) (id : Nat) (c : Cmd) : Act Unit := do
  let i := hIndex (c.raw.w 1)
  let o ← objGet bus i
  let r := cmdReq id c .engine 0 .read
  let v ← vlineGet bus r o
  match c.work with
  | .abortInval fs ws => do
    let s ← get
    if ws.any (waitHolds s) then pure () else abortDone bus id c i o fs
  | .abortWait => abortGo bus id c i o v
  | _ => do
    let s ← get
    if v.aborting && abortRuns s id i then pure ()
    else do
      need (v.pending && !v.opening) stState
      vlinePut bus r i o { v with aborting := true }
      modify fun s => failObjAps s i o.gen
      modify fun s => wwPump s bus
      abortGo bus id c i o v

def execTableAbort (id : Nat) (bus : Bus) (s : State) : Res :=
  match cmdOf s id with
  | none => .next s
  | some c => if bits (c.raw.w 2) 1 0 = 1 then .next (runCmd s id opOpenVersion (abortAct bus id)) else .next s

/-! ### TABLE_FLIP (R234, R235) -/

/-- A flip may take effect on the line. -/
def flipOk (v : VLine) : Bool := v.pending && !v.opening && !v.aborting

/-- TABLE_FLIP: the checks; the command then waits. -/
def flipAct (bus : Bus) (id : Nat) (c : Cmd) : Act Unit := do
  let i := hIndex (c.raw.w 1)
  let o ← objGet bus i
  let v ← vlineGet bus (cmdReq id c .engine 0 .read) o
  let s ← get
  need (flipOk v && !objHasAp s i o.gen) stState
  modify fun s => updCmd s id fun c => { c with work := .flipWait, phase := .running }

def execTableFlip (id : Nat) (bus : Bus) (s : State) : Res := .next (runCmd s id opTableFlip (flipAct bus id))

/-- The flip in one access at the home (R235). -/
def takeEffect (bus : Bus) (id : Nat) (c : Cmd) : Act Unit := do
  let i := hIndex (c.raw.w 1)
  let o ← objGet bus i
  let r := cmdReq id c .engine 0 .read
  let v ← vlineGet bus r o
  need (flipOk v) stState
  vlinePut bus r i o { v with slot := !v.slot, ver := v.ver + 1, pending := false, draining := true, flips := v.flips + 1
                              retEvent := c.raw.w 2, retValue := c.raw.w 3 }
  modify fun s => { s with qe := { s.qe with flips := Tab.insert s.qe.flips i c.ctx } }
  okCmd id
  modify fun s => wwPump s bus

/-- FLIP_TAKE_EFFECT: the writes, copies and key commands that the flip waits for have ended. -/
def execFlipTakeEffect (id : Nat) (bus : Bus) (s : State) : Res :=
  match cmdOf s id with
  | none => .next s
  | some c =>
    let i := hIndex (c.raw.w 1)
    if c.work = .flipWait ∧ c.phase = .running ∧ runsWork s = true ∧ tableBusy s i id = false ∧ keyCmdBusy s i id = false then
      .next (runAct (takeEffect bus id c) s (fun s _ => s) (stopCmd id))
    else .next s

/-! ### RETIREMENT (R237, R238, R500) -/

/-- The context whose STALE_SIGNALS counts a stale RET_EVENT: the one that issued the flip (R148); after a reset, which
keeps nothing of it (R500), the table's owner (DESIGN CHOICE, log entry 85). -/
def flipIssuer (s : State) (i : Nat) (o : Obj) : BitVec 12 := (Tab.find? s.qe.flips i).getD o.ctx

/-- Steps 4 and 5, once every frame of the old version is on a return ring. -/
def retireDone (bus : Bus) (i : Nat) (o : Obj) (v : VLine) : Act Unit := do
  modify fun s => dropPass s i
  vlinePut bus selfReq i o { v with draining := false, retires := v.retires + 1 }
  modify fun s => if v.retEvent ≠ 0 then postSignal s bus v.retEvent v.retValue o.part (flipIssuer s i o) else s
  modify fun s => { s with qe := { s.qe with flips := Tab.erase s.qe.flips i } }
  modify fun s => wwPump s bus

/-- A retirement begins, or goes on where it waited for users or for a return ring. -/
def retireAct (bus : Bus) (i : Nat) : Act Unit := do
  let o ← objGet bus i
  if o.ty ≠ tyTable ∨ (o.st ≠ stLive ∧ o.st ≠ stDraining) then pure ()
  else do
    let v ← vlineGet bus selfReq o
    let s ← get
    if v.draining && decide (v.pins (!v.slot) = 0) && (passOf s i).isNone then do
      let fs ← clearRegion bus o (!v.slot)
      beginPass i o.part (bothRegions o) true fs
    else pure ()
    modify fun s => pumpPasses s bus
    let s ← get
    match passOf s i with
    | some p =>
      if p.frames = [] ∧ p.waits = [] ∧ poolsQuiet s o.part = true then retireDone bus i o v else pure ()
    | none => pure ()

def execRetirement (obj : BitVec 32) (bus : Bus) (s : State) : Res :=
  .next (if runsWork s && decide (obj.toNat < objCount s) then
    runAct (retireAct bus obj.toNat) (releaseDue s bus obj.toNat) (fun s _ => s) (fun s _ => s) else s)

end Sys2Proof.Machine
end

