-- ==== Sys2Proof/Machine/Flits.lean ====
section
/-! DEFINITION. Flits and messages (spec files 09 and 10): transmission with SEQ, credits and the replay buffer, encryption,
routes, and the requests and responses of remote operations. -/

namespace Sys2Proof.Machine

open Sys2Proof

/-! ### Ports -/

/-- Indices of BL_PCNT. -/
def cTx : Nat := 0
def cRx : Nat := 1
def cFwd : Nat := 2
def cReplays : Nat := 3
def cHopCrc : Nat := 4
def cTagFail : Nat := 5
def cLcrc : Nat := 6
def cRevoked : Nat := 7
def cStale : Nat := 8
def cTtl : Nat := 9
def cRecov : Nat := 10
def cFormat : Nat := 11

def bumpCnt (s : State) (p i n : Nat) : State :=
  updBl s p fun b => { b with cnt := Tab.upd 0 b.cnt i fun w => w + BitVec.ofNat 64 n }

/-! ### Identity (R420, R424, R276) -/

def fuseWord (s : State) (i : Nat) : BitVec 32 := Tab.get 0 s.ps.fuses i

/-- The lifecycle state: 0 BLANK, 1 DEVELOP, 2 PRODUCTION, 3 RETURNED. -/
def lifecycleOf (s : State) : Nat :=
  let w := fuseWord s 0
  if w.getLsbD 2 then 3 else if w.getLsbD 1 then 2 else if w.getLsbD 0 then 1 else 0

/-- The derivation label of a lifecycle state. -/
def lifeLabel (l : Nat) : List Byte :=
  match l with
  | 1 => label [0x64, 0x65, 0x76, 0x65, 0x6C, 0x6F, 0x70]
  | 2 => label [0x70, 0x72, 0x6F, 0x64, 0x75, 0x63, 0x74, 0x69, 0x6F, 0x6E]
  | 3 => label [0x72, 0x65, 0x74, 0x75, 0x72, 0x6E, 0x65, 0x64]
  | _ => []

/-- The identity key (log entry 14). -/
def identityKey (s : State) : BitVec 256 :=
  hkdf ((List.range 8).flatMap fun i => leBytes 4 (fuseWord s (2 + i)).toNat) (lifeLabel (lifecycleOf s))

/-- The first 8 B of the digest of the identity public key, first byte lowest. -/
def identityDigest (s : State) : Word :=
  BitVec.ofNat 64 (leNat ((beBytes 48 (sha384 (Config.publicKey (identityKey s))).toNat).take 8))

/-! ### Flits of one link (R275, R276, R278 to R281, R300) -/

def portExists (s : State) (p : Nat) : Bool := decide (p < s.build.brambles.length)
def portWidth (s : State) (p : Nat) : Nat := s.build.brambles.getD p 0

/-- Send a CTRL flit, named by its OP (R275). -/
def sendCtrl (s : State) (p op : Nat) (payload : List Byte) : State :=
  if safeState s then s else bumpCnt (emit s (.flit p (ctrlFlit op payload))) p cTx 1

/-- What a TS flit carries (R276; its layout is the model's, log entry 35): the port, the build width, the largest rate,
the role and ASSIGNED, the node ID, and the identity digest. -/
def tsPayload (s : State) (p : Nat) : List Byte :=
  leBytes 1 p ++ leBytes 1 (portWidth s p) ++ leBytes 1 6 ++ leBytes 1 (flagAt s.role 0 + flagAt s.bl.assigned 1) ++
    leBytes 2 s.bl.nodeId.toNat ++ leBytes 2 0 ++ leBytes 8 (identityDigest s).toNat

/-- Send TS; one stands for those that a training repeats. -/
def sendTs (s : State) (p : Nat) : State := sendCtrl s p 0 (tsPayload s p)

/-- Enter RECOVERY, with the replay buffer kept (R278); a link in L1 wakes (R300). -/
def enterRecovery (s : State) (p : Nat) : State :=
  let s := if (blPort s p).st = .l1 then emit s (.lnLpwr p 0) else s
  sendTs (bumpCnt (updBl s p fun b => { b with st := .recovery, since := s.tick, width := 0 }) p cRecov 1) p

/-- Return one credit of a virtual channel to a peer, in a CREDIT flit (R281); a link in L1 wakes for it, and INIT advertises
the credits anew. -/
def creditBack (s : State) (p vc : Nat) : State :=
  match (blPort s p).st with
  | .active => sendCtrl s p 2 (leBytes 8 (2 ^ (16 * vc)))
  | .l1 => if safeState s then s else enterRecovery s p
  | _ => s

/-- The credits that a receiver advertises (R281). -/
def fullCredits : Tab Nat := [(0, 448), (1, 448), (2, 128)]

/-! ### DATA flits (R273, R274) -/

/-- The nonce of an encrypted flit (R294). -/
def flitNonce (src dst vc ctr : Nat) : BitVec 96 :=
  BitVec.ofNat 96 (leNat (leBytes 2 src ++ leBytes 2 dst ++ leBytes 1 vc ++ leBytes 7 ctr))

/-- The index of a stream's counter, sent or received. -/
def nonceIdx (rx : Bool) (node vc key : Nat) : Nat := (if rx then 2 ^ 20 else 0) + (node * 4 + vc) * 256 + key

/-- Bytes 16 to 255 of a flit: payload and TAG field. -/
def flitBody (s : State) (head : List Byte) (dst vc key ctr : Nat) (payload : List Byte) : List Byte :=
  if key = 0 then plainBody head payload
  else
    let plain := padTo 224 payload
    let c := gcmSeal (keySlot s key).key (flitNonce s.bl.nodeId.toNat dst vc ctr) head plain
    padTo 224 c.1 ++ leBytes 16 c.2.toNat

/-- A flit as its source makes it: per-hop fields 0 but for TTL 15 (R289). -/
def makeFlit (s : State) (vc op dst key : Nat) (last : Bool) (ctr : Nat) (payload : List Byte) : List Byte :=
  let head := e2eBytes (decide (key ≠ 0)) vc last op dst s.bl.nodeId.toNat (payload.length / 16) key
  head ++ leBytes 2 0 ++ leBytes 2 (15 * 2 ^ 12) ++ leBytes 6 0 ++ flitBody s head dst vc key ctr payload

/-- The ACK that a port has to give. -/
def BlPort.ackNow (b : BlPort) : Option Nat := if b.unacked = 0 then none else some ((b.rxSeq + 4095) % 4096)

/-- Send a DATA flit that has its credit: it takes the next SEQ and stands in the replay buffer (R279). -/
def transmit (s : State) (p : Nat) (f : SentFlit) : State :=
  let b := blPort s p
  let seq := b.txSeq
  let s := emit s (.flit p (stampFlit f.flit seq b.ackNow))
  let s := updBl s p fun b =>
    { b with txSeq := (seq + 1) % 4096, unacked := 0, replay := b.replay ++ [{ f with seq := seq, origin := none }]
             crd := Tab.upd 0 b.crd f.vc (· - 1) }
  let s := bumpCnt s p cTx 1
  match f.origin with
  | some o => creditBack s o f.vc
  | none => s

/-- The destination of a flit. -/
def flitDst (f : List Byte) : Nat := leAt f 2 3 % 1024

/-- The port on which flits for a node leave. -/
def routeTo (s : State) (node : Nat) : Option Nat := Tab.find? s.bl.routes node

/-- A flit waits because the route of its destination is changing (R290, R291). -/
def flitWaits (s : State) (f : SentFlit) : Bool :=
  match s.bl.newRoutes with
  | some n => decide (f.vc ≠ 2 ∧ Tab.find? n.routes (flitDst f.flit) ≠ routeTo s (flitDst f.flit))
  | none => false

/-- The flit that a port sends next: the first that has a credit and need not wait. -/
def nextFlit (s : State) (b : BlPort) : Option SentFlit :=
  b.txq.find? fun f => decide (0 < Tab.get 0 b.crd f.vc) && !flitWaits s f

/-- Send the flits that wait and may go; one for a link in L1 wakes it through RECOVERY (R300). -/
def pumpTx (p : Nat) : Nat → State → State
  | 0, s => s
  | n + 1, s =>
    let b := blPort s p
    if safeState s then s
    else if b.st = .l1 ∧ b.txq ≠ [] then enterRecovery s p
    else if b.st ≠ .active ∨ 512 ≤ b.replay.length then s
    else match nextFlit s b with
      | none => s
      | some f => pumpTx p n (transmit (updBl s p fun b => { b with txq := b.txq.erase f }) p f)

def queueFlit (s : State) (p : Nat) (f : SentFlit) : State :=
  pumpTx p ((blPort s p).txq.length + 1) (updBl s p fun b => { b with txq := b.txq ++ [f] })

/-! ### Routes and messages (R286, R288, R293 to R296, R301) -/

/-- A message to a node can be sent now: routes are installed, the node is reachable, and the key is in force. -/
def canSend (s : State) (node key vc : Nat) : Bool :=
  s.bl.ready && s.bl.assigned && (routeTo s node).isSome && decide (node ≠ s.bl.nodeId.toNat) &&
    (decide (key = 0) || (decide ((keySlot s key).st = .active) && (Tab.find? s.bl.stopped (nonceIdx false node vc key)).isNone))

/-- Cut a payload into flits of 224 B. -/
def flitCuts : Nat → List Byte → List (List Byte)
  | 0, _ => []
  | fuel + 1, bs => if bs.length ≤ 224 then [bs] else bs.take 224 :: flitCuts fuel (bs.drop 224)

/-- Round a payload up to whole 16 B units. -/
def pad16 (bs : List Byte) : List Byte := padTo (16 * ceilDiv bs.length 16) bs

/-- Advance the counter of a stream; at its end the stream stops with a NOTE (R294). -/
def stepNonce (s : State) (node vc key : Nat) : State :=
  let i := nonceIdx false node vc key
  let n := Tab.get 0 s.bl.nonces i + 1
  let s := { s with bl := { s.bl with nonces := Tab.set 0 s.bl.nonces i n } }
  if n = 2 ^ 56 - 1 then
    note { s with bl := { s.bl with stopped := Tab.insert s.bl.stopped i () } }
      { source := srcId 9 0 1, part := keyPart s key, info := BitVec.ofNat 16 key }
  else s

/-- Send one flit of a message; once its stream has stopped no further flit of it goes out (R294). -/
def sendFlit (s : State) (node vc op key : Nat) (part : BitVec 3) (last : Bool) (payload : List Byte) : State :=
  match routeTo s node with
  | none => s
  | some p =>
    if key ≠ 0 ∧ (Tab.find? s.bl.stopped (nonceIdx false node vc key)).isSome then s
    else
    let ctr := Tab.get 0 s.bl.nonces (nonceIdx false node vc key)
    let f := makeFlit s vc op node key last ctr payload
    let s := if key = 0 then s else stepNonce s node vc key
    queueFlit s p { vc := vc, key := BitVec.ofNat 8 key, origin := none, flit := f, part := some part }

/-- The flits of a message, each with whether it is the last. -/
def msgCuts (payload : List Byte) : List (Bool × List Byte) :=
  let cuts := flitCuts (payload.length / 224 + 1) (pad16 payload)
  cuts.zipIdx.map fun x => (decide (x.2 + 1 = cuts.length), x.1)

/-- Send a message whose payload is given (R301). -/
def sendMsg (s : State) (node vc op key : Nat) (part : BitVec 3) (payload : List Byte) : State :=
  each (fun s x => sendFlit s node vc op key part x.1 x.2) s (msgCuts payload)

/-- The 32 B message header (R301). -/
def msgHeader (req part status len addr arg0 arg1 : Nat) : List Byte :=
  leBytes 2 req ++ leBytes 1 part ++ leBytes 1 status ++ leBytes 4 len ++ leBytes 8 addr ++ leBytes 8 arg0 ++ leBytes 8 arg1

/-- The OP codes of R275. -/
def opRWrite : Nat := 1
def opRRead : Nat := 2
def opRAtomic : Nat := 3
def opRPool : Nat := 4
def opRSignal : Nat := 5
def opReadData : Nat := 0x11
def opAtomicResult : Nat := 0x12
def opPoolPartial : Nat := 0x13
def opAck : Nat := 0x14
def opNack : Nat := 0x15

/-- How sending a request answers: sent, no REQ_ID free yet, or the node cannot be reached. -/
inductive Sent where
  | ok (s : State) (id : Nat)
  | full
  | fail

/-- A REQ_ID that no outstanding request to a node holds (R303). -/
def freeReqId (s : State) (node : Nat) : Option Nat :=
  (List.range 4096).find? fun k => (Tab.find? s.bl.reqs (node * 4096 + k)).isNone

/-- Send a request and hold it outstanding. From its revocation on no flit of a partition originates here (R298). -/
def sendRequest (s : State) (node op key : Nat) (part : BitVec 3) (owner : ROwner) (addr arg0 arg1 : Nat)
    (data : List Byte) : Sent :=
  if !canSend s node key 0 || partClosing s part then .fail
  else match freeReqId s node with
    | none => .full
    | some k =>
      let r : RReq := ⟨s.nextId, BitVec.ofNat 10 node, BitVec.ofNat 8 key, part, owner, s.tick⟩
      let s1 := { s with nextId := s.nextId + 1, bl := { s.bl with reqs := Tab.insert s.bl.reqs (node * 4096 + k) r } }
      .ok (sendMsg s1 node 0 op key part (msgHeader k part.toNat 0 data.length addr arg0 arg1 ++ data)) s.nextId

/-- A response can be sent. -/
def canAnswer (s : State) (node key : Nat) (part : BitVec 3) : Bool := canSend s node key 1 && !partClosing s part

/-- Answer a request; a response that cannot be sent is lost. -/
def sendResponse (s : State) (node op key req : Nat) (part : BitVec 3) (status arg0 arg1 : Nat) (data : List Byte) : State :=
  if canAnswer s node key part then
    sendMsg s node 1 op key part (msgHeader req part.toNat status data.length 0 arg0 arg1 ++ data)
  else s

def bumpNackTx (s : State) : State := { s with bl := { s.bl with nackTx := s.bl.nackTx + 1 } }

/-- Answer a request with a NACK; one that is sent is counted (R313). -/
def sendNack (s : State) (node key req : Nat) (part : BitVec 3) (code : Nat) : State :=
  if canAnswer s node key part then bumpNackTx (sendResponse s node opNack key req part code 0 0 []) else s

/-- A response names the outstanding request that it answers. -/
def reqOf (s : State) (m : Msg) : Option (Nat × RReq) :=
  let k := m.src.toNat * 4096 + leAt m.payload 0 2 % 4096
  (Tab.find? s.bl.reqs k).map fun r => (k, r)

def dropReq (s : State) (k : Nat) : State := { s with bl := { s.bl with reqs := Tab.erase s.bl.reqs k } }
def dropMsg (s : State) (m : Nat) : State := { s with bl := { s.bl with inbox := Tab.erase s.bl.inbox m } }

/-- A command of a partition may use a key ID (R295, R306). -/
def keyOk (s : State) (key : Nat) (ctx : BitVec 12) (part : BitVec 3) : Bool :=
  if key = 0 then !(ctxOf s ctx).conf && !(partOf s part).conf
  else decide ((keySlot s key).st = .active ∧ keyPart s key = some part)

/-- DETAIL of a REMOTE status: the node (R151). -/
def nodeDetail (node : Nat) : BitVec 32 := BitVec.ofNat 32 node

end Sys2Proof.Machine
end

