-- ==== Sys2Proof/Machine/Float.lean ====
section
/-! DEFINITION. The arithmetic of the pooling array: binary32 with round to nearest even, the row element formats
and the output formats (R249 to R262). Values are exact until the one rounding that the spec names. -/

namespace Sys2Proof

/-- A floating-point value: `fin neg m e` is ±m × 2^e. -/
inductive FVal where
  | nan
  | inf (neg : Bool)
  | fin (neg : Bool) (m : Nat) (e : Int)
  deriving DecidableEq, Repr

/-- A binary interchange format: fraction bits, exponent bits, bias. -/
structure FFmt where
  frac : Nat
  exp  : Nat
  bias : Nat
  deriving DecidableEq, Repr

def FFmt.f32 : FFmt := ⟨23, 8, 127⟩
def FFmt.bf16 : FFmt := ⟨7, 8, 127⟩
def FFmt.f16 : FFmt := ⟨10, 5, 15⟩
def FFmt.e4m3 : FFmt := ⟨3, 4, 7⟩
def FFmt.e5m2 : FFmt := ⟨2, 5, 15⟩
def FFmt.e3m2 : FFmt := ⟨2, 3, 3⟩
def FFmt.e2m3 : FFmt := ⟨3, 2, 1⟩
def FFmt.e2m1 : FFmt := ⟨1, 2, 1⟩

/-- The exponent of the last bit of a subnormal of the format. -/
def FFmt.minLsb (f : FFmt) : Int := 1 - (f.bias : Int) - (f.frac : Int)

/-- The finite reading of an encoding: subnormals at biased exponent 0. -/
def FFmt.decodeFin (f : FFmt) (w : Nat) : FVal :=
  let fr := w % 2 ^ f.frac
  let ex := (w >>> f.frac) % 2 ^ f.exp
  let neg := (w >>> (f.frac + f.exp)) % 2 = 1
  if ex = 0 then .fin neg fr f.minLsb
  else .fin neg (2 ^ f.frac + fr) (f.minLsb + ex - 1)

/-- An encoding with infinities and NaNs at the top exponent (IEEE 754). -/
def FFmt.decodeIeee (f : FFmt) (w : Nat) : FVal :=
  let fr := w % 2 ^ f.frac
  let ex := (w >>> f.frac) % 2 ^ f.exp
  if ex = 2 ^ f.exp - 1 then
    if fr = 0 then .inf ((w >>> (f.frac + f.exp)) % 2 = 1) else .nan
  else f.decodeFin w

/-- E4M3 has no infinity, and 0x7F and 0xFF are NaN (R251). -/
def decodeE4M3 (w : Nat) : FVal :=
  if w % 128 = 0x7F then .nan else FFmt.e4m3.decodeFin w

/-- The number of bits of a natural number. -/
def bitLen (m : Nat) : Nat := if m = 0 then 0 else m.log2 + 1

/-- m × 2^e rounded to nearest even at `p` bits with no bit below 2^lsb: mantissa and exponent. -/
def roundAt (p : Nat) (lsb : Int) (m : Nat) (e : Int) : Nat × Int :=
  let e0 := max (e + bitLen m - p) lsb
  if e0 ≤ e then (m <<< (e - e0).toNat, e0)
  else
    let sh := (e0 - e).toNat
    let q := m >>> sh
    let r := m % 2 ^ sh
    let half := 2 ^ (sh - 1)
    let q' := if r > half ∨ (r = half ∧ q % 2 = 1) then q + 1 else q
    if q' = 2 ^ p then (2 ^ (p - 1), e0 + 1) else (q', e0)

/-- The magnitude bits of a rounded mantissa in a format, without an overflow check. -/
def FFmt.pack (f : FFmt) (q : Nat) (e : Int) : Nat :=
  if q < 2 ^ f.frac then q
  else ((e - f.minLsb).toNat + 1) * 2 ^ f.frac + (q - 2 ^ f.frac)

/-- The magnitude bits of ±m × 2^e rounded into the format; they may run past its largest finite value. -/
def FFmt.roundMag (f : FFmt) (m : Nat) (e : Int) : Nat :=
  if m = 0 then 0 else
    let r := roundAt (f.frac + 1) f.minLsb m e
    f.pack r.1 r.2

/-- The magnitude bits of infinity in an IEEE format. -/
def FFmt.infMag (f : FFmt) : Nat := (2 ^ f.exp - 1) * 2 ^ f.frac

/-- A value in an IEEE format with the given NaN (R259, R262). -/
def FFmt.encodeIeee (f : FFmt) (nan : Nat) : FVal → Nat
  | .nan => nan
  | .inf neg => flagAt neg (f.frac + f.exp) + f.infMag
  | .fin neg m e => flagAt neg (f.frac + f.exp) + min (f.roundMag m e) f.infMag

/-- The one NaN of the array (R251). -/
def F32.nan : F32 := 0x7FC00000

/-- A value rounded once to binary32. -/
def toF32 (v : FVal) : F32 := BitVec.ofNat 32 (FFmt.f32.encodeIeee 0x7FC00000 v)

/-- The value of a binary32 pattern. -/
def ofF32 (w : F32) : FVal := FFmt.f32.decodeIeee w.toNat

/-- An integer as a value. -/
def ofInt (q : Int) : FVal := .fin (q < 0) q.natAbs 0

/-- The signed mantissa of a finite value. -/
def signedM (neg : Bool) (m : Nat) : Int := if neg then -(m : Int) else m

/-- The exact product. -/
def FVal.mul : FVal → FVal → FVal
  | .nan, _ => .nan
  | _, .nan => .nan
  | .inf a, .inf b => .inf (a != b)
  | .inf a, .fin b m _ => if m = 0 then .nan else .inf (a != b)
  | .fin a m _, .inf b => if m = 0 then .nan else .inf (a != b)
  | .fin a m e, .fin b n f => .fin (a != b) (m * n) (e + f)

/-- The exact sum; an exact zero is +0 unless both addends are −0. -/
def FVal.add : FVal → FVal → FVal
  | .nan, _ => .nan
  | _, .nan => .nan
  | .inf a, .inf b => if a = b then .inf a else .nan
  | .inf a, .fin .. => .inf a
  | .fin .., .inf b => .inf b
  | .fin a m e, .fin b n f =>
    let g := min e f
    let x := signedM a m * 2 ^ (e - g).toNat + signedM b n * 2 ^ (f - g).toNat
    if x = 0 then .fin (a && b) 0 g else .fin (x < 0) x.natAbs g

/-- fma with one rounding (R251, R260). -/
def fmaV (a b c : FVal) : F32 := toF32 ((a.mul b).add c)

/-- Binary32 fused multiply-add. -/
def F32.fma (a b c : F32) : F32 := fmaV (ofF32 a) (ofF32 b) (ofF32 c)

/-- Binary32 sum (R261). -/
def F32.add (a b : F32) : F32 := toF32 ((ofF32 a).add (ofF32 b))

/-- Binary32 product, `round(w × v)` of R261. -/
def F32.mul (a b : F32) : F32 := toF32 ((ofF32 a).mul (ofF32 b))

/-- Division of a binary32 by a positive integer, rounded once (R258 MEAN). -/
def F32.divNat (a : F32) (n : Nat) : F32 :=
  match ofF32 a with
  | .nan => F32.nan
  | .inf neg => toF32 (.inf neg)
  | .fin neg m e =>
    if m = 0 then toF32 (.fin neg 0 e)
    else
      let q := (m <<< 64) / n
      let sticky := if (m <<< 64) % n = 0 then 0 else 1
      toF32 (.fin neg (2 * q + sticky) (e - 65))

/-- Whether a pattern is a NaN. -/
def F32.isNan (a : F32) : Bool := decide (ofF32 a = .nan)

/-- The order of non-NaN patterns for MAX, with +0.0 above −0.0 (R258). -/
def F32.key (a : F32) : Int := if a.getLsbD 31 then -(a.toNat % 2 ^ 31 : Nat) - 1 else a.toNat

/-- The greater of two values, NaN if either is (R258). -/
def F32.max (a b : F32) : F32 :=
  if a.isNan || b.isNan then F32.nan else if a.key < b.key then b else a

/-- The formats of row elements, by IN_FMT (R249). -/
inductive InFmt where
  | fp32 | bf16 | fp16 | e4m3 | e5m2 | mx8e4m3 | mx8e5m2 | mx6e3m2 | mx6e2m3 | mx4 | int8 | int4
  deriving DecidableEq, Repr

def InFmt.ofCode : Nat → Option InFmt
  | 0 => some .fp32 | 1 => some .bf16 | 2 => some .fp16 | 3 => some .e4m3 | 4 => some .e5m2
  | 5 => some .mx8e4m3 | 6 => some .mx8e5m2 | 7 => some .mx6e3m2 | 8 => some .mx6e2m3 | 9 => some .mx4
  | 10 => some .int8 | 11 => some .int4 | _ => none

/-- Bits of one element. -/
def InFmt.width : InFmt → Nat
  | .fp32 => 32 | .bf16 | .fp16 => 16
  | .e4m3 | .e5m2 | .mx8e4m3 | .mx8e5m2 | .int8 => 8
  | .mx6e3m2 | .mx6e2m3 => 6
  | .mx4 | .int4 => 4

def InFmt.isMx : InFmt → Bool
  | .mx8e4m3 | .mx8e5m2 | .mx6e3m2 | .mx6e2m3 | .mx4 => true
  | _ => false

def InFmt.isInt : InFmt → Bool
  | .int8 | .int4 => true
  | _ => false

/-- Bytes of the elements of a row. -/
def InFmt.elemBytes (f : InFmt) (dim : Nat) : Nat := f.width * dim / 8

/-- The needed bytes of a row (R249). -/
def InFmt.needed (f : InFmt) (dim : Nat) : Nat :=
  f.elemBytes dim + (if f.isMx then dim / 32 else if f.isInt then 4 else 0)

/-- Element `i` of the row's bit stream (R250). -/
def InFmt.elemBits (f : InFmt) (row : List Byte) (i : Nat) : Nat :=
  let b := f.width * i
  (leAt row (b / 8) 5 >>> (b % 8)) % 2 ^ f.width

/-- A two's complement reading of `n` bits. -/
def twos (n w : Nat) : Int := if w < 2 ^ (n - 1) then w else (w : Int) - 2 ^ n

/-- Element `i` of a row dequantized to binary32 (R251). -/
def InFmt.dequant (f : InFmt) (dim : Nat) (row : List Byte) (i : Nat) : F32 :=
  let w := f.elemBits row i
  let e := f.elemBytes dim
  let mx (v : FVal) : F32 :=
    let s := byteAt row (e + i / 32)
    if s = 0xFF then F32.nan else toF32 (v.mul (.fin false 1 ((s : Int) - 127)))
  let intv (n : Nat) : F32 :=
    fmaV (ofInt (twos n w)) (FFmt.f16.decodeIeee (leAt row e 2)) (FFmt.f16.decodeIeee (leAt row (e + 2) 2))
  match f with
  | .fp32 => toF32 (FFmt.f32.decodeIeee w)
  | .bf16 => toF32 (FFmt.bf16.decodeIeee w)
  | .fp16 => toF32 (FFmt.f16.decodeIeee w)
  | .e4m3 => toF32 (decodeE4M3 w)
  | .e5m2 => toF32 (FFmt.e5m2.decodeIeee w)
  | .mx8e4m3 => mx (decodeE4M3 w)
  | .mx8e5m2 => mx (FFmt.e5m2.decodeIeee w)
  | .mx6e3m2 => mx (FFmt.e3m2.decodeFin w)
  | .mx6e2m3 => mx (FFmt.e2m3.decodeFin w)
  | .mx4 => mx (FFmt.e2m1.decodeFin w)
  | .int8 => intv 8
  | .int4 => intv 4

/-- The vector of a row: DIM elements (R251). -/
def InFmt.row (f : InFmt) (dim : Nat) (bytes : List Byte) : List F32 :=
  (List.range dim).map (f.dequant dim bytes)

/-- Bytes of an output element (R262). -/
def outSize (fmt : Nat) : Nat := if fmt = 0 then 4 else if fmt ≤ 2 then 2 else 1

/-- One FP8 output element: the code and whether it saturated (R262). -/
def outFp8 (f : FFmt) (maxMag nanCode : Nat) (v : FVal) : Nat × Bool :=
  match v with
  | .nan => (nanCode, false)
  | .inf neg => (flagAt neg 7 + maxMag, true)
  | .fin neg m e =>
    let g := f.roundMag m e
    if g > maxMag then (flagAt neg 7 + maxMag, true) else (flagAt neg 7 + g, false)

/-- One output element under OUT_FMT: its code and whether it saturated (R262). -/
def outElem (fmt : Nat) (x : F32) : Nat × Bool :=
  let v := ofF32 x
  if fmt = 0 then (FFmt.f32.encodeIeee 0x7FC00000 v, false)
  else if fmt = 1 then (FFmt.bf16.encodeIeee 0x7FC0 v, false)
  else if fmt = 2 then (FFmt.f16.encodeIeee 0x7E00 v, false)
  else if fmt = 3 then outFp8 FFmt.e4m3 0x7E 0x7F v
  else outFp8 FFmt.e5m2 0x7B 0x7E v

/-- Pointwise combination of two vectors. -/
def vecZip (f : F32 → F32 → F32) (a b : List F32) : List F32 := List.zipWith f a b

/-- The largest power of two below `n`, by doubling at most `fuel` times (R261). -/
def treeSplit : Nat → Nat → Nat → Nat
  | 0, m, _ => m
  | fuel + 1, m, n => if 2 * m < n then treeSplit fuel (2 * m) n else m

/-- The deterministic tree over a list of vectors (R261). -/
def treeSum (zero : List F32) : Nat → List (List F32) → List F32
  | 0, _ => zero
  | fuel + 1, xs =>
    match xs with
    | [] => zero
    | [x] => x
    | _ =>
      let m := treeSplit 40 1 xs.length
      vecZip F32.add (treeSum zero fuel (xs.take m)) (treeSum zero fuel (xs.drop m))

end Sys2Proof
end

