-- ==== Sys2Proof/Machine/Pooling.lean ====
section
/-! DEFINITION. The pooling array (spec file 08) with the split of a bag by shard and the requests to owners (spec file 10,
R319 to R325): segments, row fetches, reduction, and tiles. -/

namespace Sys2Proof.Machine

open Sys2Proof

/-! ### The fields of BAG_POOL (R241 to R245) -/

def RawCmd.bReduce (c : RawCmd) : Nat := bits (c.w 6) 1 0
def RawCmd.bDet (c : RawCmd) : Bool := bit (c.w 6) 2
def RawCmd.bSkip (c : RawCmd) : Bool := bit (c.w 6) 3
def RawCmd.bInline (c : RawCmd) : Bool := bit (c.w 6) 4
def RawCmd.bIn (c : RawCmd) : Nat := bits (c.w 6) 11 8
def RawCmd.bOut (c : RawCmd) : Nat := bits (c.w 6) 14 12
def RawCmd.bDim (c : RawCmd) : Nat := bits (c.w 6) 28 16
def RawCmd.bBags (c : RawCmd) : Nat := bits (c.w 6) 44 32
def RawCmd.bKeys (c : RawCmd) : Nat := bits (c.w 7) 24 0
def RawCmd.bDst (c : RawCmd) : Nat := bits (c.w 5) 47 0
def RawCmd.bTport (c : RawCmd) : Nat := bits (c.w 5) 51 48
def RawCmd.bTileRows (c : RawCmd) : Nat := bits (c.w 5) 60 52

/-- REDUCE codes. -/
def rdSum : Nat := 0
def rdWsum : Nat := 1
def rdMean : Nat := 2
def rdMax : Nat := 3

/-- Slots of an inline BAG_POOL for the keys, the weights and the offsets (R243). -/
def RawCmd.wSlots (c : RawCmd) : Nat := if c.bReduce = rdWsum then ceilDiv c.bKeys 2 else 0
def RawCmd.oSlots (c : RawCmd) : Nat := ceilDiv (c.bBags - 1) 4
def RawCmd.bSlots (c : RawCmd) : Nat := c.bKeys + c.wSlots + c.oSlots

/-- The inline offsets. -/
def RawCmd.bOffsets (c : RawCmd) : List Nat :=
  (List.range (c.bBags - 1)).map fun j =>
    ((c.keys.getD (c.bKeys + c.wSlots + j / 4) 0).toNat >>> (16 * (j % 4))) % 65536

/-- Offsets are nondecreasing and do not exceed KEYS (R246). -/
def offsetsOk (keys : Nat) : Nat → List Nat → Bool
  | _, [] => true
  | lo, o :: t => decide (lo ≤ o ∧ o ≤ keys) && offsetsOk keys o t

/-- Bits beyond the last value of an inline chain, and slots beyond the last slot, are reserved (R243). -/
def inlineReserved (c : RawCmd) : Bool :=
  let spare := c.keys.drop c.bSlots
  let halfW := decide (c.bReduce = rdWsum ∧ c.bKeys % 2 = 1) &&
    decide ((c.keys.getD (c.bKeys + c.wSlots - 1) 0).toNat / 2 ^ 32 ≠ 0)
  let k := (c.bBags - 1) % 4
  let halfO := decide (0 < c.oSlots ∧ k ≠ 0) && decide ((c.keys.getD (c.bSlots - 1) 0).toNat / 2 ^ (16 * k) ≠ 0)
  spare.any (· ≠ 0) || halfW || halfO || c.conts.any fun e => decide (leAt e 4 4 ≠ 0)

/-- BAG_POOL fails with BAD_FIELD at dispatch (R245, R246), apart from its handles. -/
def bagFieldsBad (s : State) (c : RawCmd) (rowBytes : Nat) : Bool :=
  let dim := c.bDim
  let fmt := InFmt.ofCode c.bIn
  decide (bits (c.w 4) 63 57 ≠ 0 ∨ bits (c.w 5) 63 61 ≠ 0 ∨ bits (c.w 6) 7 5 ≠ 0 ∨ bit (c.w 6) 15 = true
    ∨ bits (c.w 6) 31 29 ≠ 0 ∨ bits (c.w 6) 63 45 ≠ 0 ∨ bits (c.w 7) 63 25 ≠ 0 ∨ 16777216 < c.bKeys ∨ fmt = none ∨ 5 ≤ c.bOut
    ∨ dim < 8 ∨ 4096 < dim ∨ dim % 8 ≠ 0 ∨ c.bBags < 1 ∨ 4096 < c.bBags ∨ c.bTileRows < 1 ∨ 256 < c.bTileRows
    ∨ s.build.lanes / 4 ≤ c.bTport ∨ c.bDst % 256 ≠ 0) ||
  (match fmt with
    | some f => decide (f.isMx = true ∧ dim % 32 ≠ 0) || decide (rowBytes < f.needed dim)
    | none => false) ||
  (if c.bInline then decide (bits (c.w 4) 56 0 ≠ 0 ∨ 112 < c.bSlots) || inlineReserved c ||
      !offsetsOk c.bKeys 0 c.bOffsets
    else decide (bits (c.w 4) 56 0 = 0 ∨ bits (c.w 4) 56 0 % 8 ≠ 0))

/-! ### Quads, routes and space (R256, R257, R270) -/

def liveQuads (s : State) : List Nat := (List.range (s.build.lanes / 4)).filter fun i => !s.pa.retire.getLsbD i

/-- The quad that serves a segment (R256). -/
def quadOf (s : State) (t q h j seg : Nat) : Nat :=
  let x : Word := BitVec.ofNat 64 ((t <<< 32) ^^^ (q <<< 48) ^^^ (h <<< 16) ^^^ (j <<< 4) ^^^ seg)
  let x := x ^^^ (x >>> 17)
  let x := x * 0xA3B195C47E2D0F6B
  let live := liveQuads s
  live.getD ((x >>> 54).toNat % live.length) 0

def BagWork.quad (w : BagWork) (s : State) (bag seg : Nat) : Nat := quadOf s w.table.toNat w.q w.h (w.js.getD bag bag) seg

/-- A quad holds accepted segments that have not merged. -/
def quadBusy (s : State) (quad : Nat) : Bool :=
  (allBags s).any fun b => b.2.segs.any fun g => g.taken && !g.done && decide (g.quad = quad)

/-- Bytes of a partial in the accumulators. -/
def partBytes (dim : Nat) : Nat := 64 * ceilDiv (4 * dim) 64

/-- Bytes that one bag work holds in a quad: accepted segments that have not merged, merge partials, and partials
reserved for pieces. -/
def BagWork.holds (w : BagWork) (quad : Nat) : Nat :=
  let segs := (w.segs.filter fun g => g.taken && !g.done && decide (g.quad = quad)).length
  let accs := w.accs.foldl (fun a e =>
    if e.2.home = quad ∧ e.2.done = false then a + e.2.reserved + (if e.2.merge then 1 else 0) else a) 0
  (segs + accs) * partBytes w.dim

def quadUsed (s : State) (quad : Nat) : Nat := (allBags s).foldl (fun a b => a + b.2.holds quad) 0

/-- Accumulator bytes of a quad. -/
def quadBytes : Nat := 262144

/-- The route of a pooling port. -/
def laneVia (quad lane : Nat) (part : BitVec 3) (s : State) (_ : Nat) : Via :=
  { port := gwBase s.build 0 + 4 * quad + lane, src := srcId 6 quad 0, part := part, sys := false, ctx := none }

/-! ### The end of a bag that fails (R267, R326) -/

/-- The NACK code of a status at an owner (R304). -/
def nackCode (st : Byte) : Nat :=
  if st = stBadHandle then 3 else if st = stStaleHandle then 4 else if st = stState then 5 else if st = stTranslation then 6
  else if st = stBusError then 7 else if st = stKeyFault then 8 else if st = stTornObj then 0xA else 1

/-- Answer a served request with a NACK, and be done with it. -/
def nackServed (s : State) (id : Nat) (x : Served) (code : Nat) : State :=
  sendNack { s with bl := { s.bl with served := Tab.erase s.bl.served id } } x.src.toNat x.key.toNat x.req.toNat x.part code

/-- Requests to owners that a bag has outstanding are given up; their partials come late (R326). -/
def dropPoolReqs (s : State) (id : Nat) : State :=
  { s with bl := { s.bl with reqs := s.bl.reqs.filter fun e => match e.2.owner with
    | .pool b _ _ => !decide (b = id)
    | _ => true } }

/-- A bag fails with a status, at the address and source that its record names; a served one is answered NACK. -/
def bagFail (s : State) (bus : Bus) (id : Nat) (st : Byte) (detail : BitVec 32) (addr : Word) (src : BitVec 16) : State :=
  let s := dropPoolReqs s id
  match cmdOf s id with
  | some _ => endCmd (updCmd s id fun c => { c with faultAddr := addr, faultSrc := src }) id st detail
  | none =>
    match Tab.find? s.bl.served id with
    | none => s
    | some x => nackServed (releasePin s bus x.vpin) id x (nackCode st)

/-- The source at which the failure of a bag is reported: its home quad (R267, R439). -/
def BagWork.failSrc (w : BagWork) (bag : Nat) : BitVec 16 :=
  match Tab.find? w.accs bag with
  | some a => srcId 6 a.home 0
  | none => srcId 6 0 0

def setEnt (s : State) (id e : Nat) (f : BagEnt → BagEnt) : State :=
  match bagOf s id with
  | none => s
  | some w => setBag s id { w with ents := Tab.modify w.ents e f }

/-- Where the work on one entry stopped: the entry waits at a fault slot, or its bag fails. What needs a local row (a row of a
keyed table, the second page of a row, the referenced arrays) and meets a remote page ends with TRANSLATION and DETAIL
0xFFFFFFFF: R162 gives no case for it (DESIGN CHOICE, log entry 90). -/
def stopEnt (bus : Bus) (id e : Nat) (row : Option Nat) (s : State) (st : Stop) : State :=
  match bagOf s id with
  | none => s
  | some w =>
    let bag := ((Tab.find? w.ents e).map (·.bag)).getD 0
    match st with
    | .held k => setEnt s id e fun x => { x with st := .held k row }
    | .ended c d => bagFail s bus id c d 0 (w.failSrc bag)
    | .remote _ _ => bagFail s bus id stTranslation 0xFFFFFFFF 0 (w.failSrc bag)
    | .wait => s

/-- Run an action for one entry. -/
def entAct {α : Type} (bus : Bus) (id e : Nat) (row : Option Nat) (m : Act α) (s : State) (ok : State → α → State) : State :=
  runAct m s ok (stopEnt bus id e row)

/-! ### Reduction (R258 to R261) -/

def zeroVec (dim : Nat) : List F32 := List.replicate dim 0

/-- The value from which a partial starts with DET clear (log entry 12). -/
def startVec (dim : Nat) : List F32 := List.replicate dim (if Config.partialStartNegative then 0x80000000 else 0)

/-- Sum of partials that arrive. -/
def joinPartial (w : BagWork) (acc : Option (List F32)) (v : List F32) : List F32 :=
  if w.reduce.toNat = rdMax then (match acc with | none => v | some a => vecZip F32.max a v)
  else vecZip F32.add (acc.getD (startVec w.dim)) v

/-- One contribution into a segment's running partial, with DET clear. -/
def addRow (w : BagWork) (acc : Option (List F32)) (weight : F32) (v : List F32) : List F32 :=
  if w.reduce.toNat = rdMax then (match acc with | none => v | some a => vecZip F32.max a v)
  else List.zipWith (fun a x => F32.fma weight x a) (acc.getD (startVec w.dim)) v

def one32 : F32 := 0x3F800000

/-- The weight of a contribution: 1.0 but for the rows of WSUM; a miss is unweighted. -/
def BagWork.weightOf (w : BagWork) (x : BagEnt) : F32 :=
  if w.reduce.toNat = rdWsum ∧ x.miss = false then x.weight else one32

/-- A leaf of the deterministic tree. -/
def BagWork.leaf (w : BagWork) (x : BagEnt) (v : List F32) : List F32 :=
  if w.reduce.toNat = rdWsum ∧ x.miss = false then v.map (F32.mul x.weight) else v

/-- Combine vectors by the tree, or by the greatest for MAX. -/
def combine (w : BagWork) (xs : List (List F32)) : List F32 :=
  if w.reduce.toNat = rdMax then
    match xs with
    | [] => zeroVec w.dim
    | x :: t => t.foldl (vecZip F32.max) x
  else treeSum (zeroVec w.dim) 40 xs

/-- The distinct shards of pieces in ascending order. -/
def pieceShards (ps : List Piece) : List Nat := sortBy (fun a b => decide (a ≤ b)) (dedupNat (ps.map (·.shard)))

/-- The result of a bag whose parts have all come (R261, R258, R325). -/
def bagResult (w : BagWork) (served : Bool) (bag : Nat) (a : BagAcc) : List F32 :=
  let mean (v : List F32) : List F32 :=
    if w.reduce.toNat = rdMean ∧ served = false then v.map fun x => F32.divNat x a.n else v
  if a.empty then zeroVec w.dim
  else if w.det then
    let segs := sortBy (fun (x y : Seg) => decide (x.seg ≤ y.seg)) (w.segs.filter fun g => decide (g.bag = bag))
    let localPart := if segs = [] then [] else [(w.shard, combine w (segs.map fun g => g.acc.getD (zeroVec w.dim)))]
    let remote := (pieceShards a.pieces).map fun k =>
      (k, combine w ((sortBy (fun (x y : Piece) => decide (x.piece ≤ y.piece)) (a.pieces.filter fun p => decide (p.shard = k))).map
        (·.vec)))
    mean (combine w ((sortBy (fun (x y : Nat × List F32) => decide (x.1 ≤ y.1)) (localPart ++ remote)).map (·.2)))
  else mean (a.acc.getD (zeroVec w.dim))

/-! ### Tiles (R262 to R266) -/

def beatsPerRow (w : BagWork) : Nat := ceilDiv (w.dim * outSize w.outFmt.toNat) 256

/-- One output row: its bytes, whether it holds a NaN, its saturated elements. -/
def outRow (w : BagWork) (v : List F32) : List Byte × Bool × Nat :=
  let es := v.map (outElem w.outFmt.toNat)
  let bytes := es.flatMap fun e => leBytes (outSize w.outFmt.toNat) e.1
  (padTo (256 * beatsPerRow w) bytes, v.any F32.isNan, (es.filter (·.2)).length)

/-- Set bits of a list of flags. -/
def flagBits (l : List Bool) : Nat := (l.zipIdx).foldl (fun a x => if x.1 then a + 2 ^ x.2 else a) 0

/-- The next tile of a bag work (R264, R265). -/
def makeTile (id : Nat) (w : BagWork) : Tile :=
  let lo := w.tile * w.tileRows
  let n := min w.bags (lo + w.tileRows) - lo
  let p := beatsPerRow w
  let accs := (range lo n).map fun b => Tab.get ⟨0, 0, 0, false, 0, none, [], 0, true, true⟩ w.accs b
  let rows := accs.map fun a => outRow w (a.acc.getD (zeroVec w.dim))
  let valid := accs.map fun a => !a.empty
  let last := decide (w.bags ≤ lo + n)
  let head := leBytes 8 ((w.dst.toNat + 256 * p * lo) % 2 ^ 48) ++ leBytes 2 n ++ leBytes 1 w.outFmt.toNat ++
    leBytes 1 (flagAt w.skip 0 + flagAt w.det 1) ++ leBytes 2 w.dim ++ leBytes 1 p ++ leBytes 1 0 ++ leBytes 2 w.q ++
    leBytes 1 w.part.toNat ++ leBytes 1 0 ++ leBytes 4 w.user.toNat ++ leBytes 2 w.h ++ leBytes 2 w.tile ++
    leBytes 4 (if last then 1 else 0) ++ leBytes 32 (flagBits valid) ++ leBytes 32 (flagBits (rows.map (·.2.1))) ++
    leBytes 32 (flagBits (rows.map fun r => decide (0 < r.2.2))) ++ leBytes 128 0
  let data := (List.zip valid rows).flatMap fun x => if w.skip && !x.1 then [] else x.2.1
  { cmd := id, ctx := w.ctx, head := head, data := data, nans := (rows.filter (·.2.1)).length
    sats := rows.foldl (fun a r => a + r.2.2) 0
    ents := (w.ents.filter fun e => decide (lo ≤ e.2.bag ∧ e.2.bag < lo + n)).length, last := last }

/-- The next tile of a bag work may be started. -/
def tileReady (w : BagWork) : Bool :=
  !w.sent && decide (w.tile * w.tileRows < w.bags) &&
    (range (w.tile * w.tileRows) (min w.bags ((w.tile + 1) * w.tileRows) - w.tile * w.tileRows)).all fun b =>
      ((Tab.find? w.accs b).map (·.done)).getD false

/-- Start the next tile on a port that is free: that of the oldest command whose tile is ready (log entry 18). -/
def startTile (s : State) (port : Nat) : State :=
  if (Tab.get {} s.pa.tports port).cur.isSome then s
  else match s.qe.cmds.filterMap (fun e => match e.2.work with
      | .bag w => if w.tport = port ∧ tileReady w = true ∧ e.2.phase = .running then some (e.1, w) else none
      | _ => none) with
    | [] => s
    | (id, w) :: _ =>
      let s := setBag s id { w with sent := true }
      let s := traceAdd s 2 w.ctx ((makeTile id w).head.take 16)
      { s with pa := { s.pa with tports := Tab.set {} s.pa.tports port { cur := some (makeTile id w) } } }

/-! ### Requests to owners (R320, R321) -/

/-- The header words and data of a REMOTE_POOL. -/
def poolData (w : BagWork) (m : PoolMsg) : List Byte :=
  let ents := m.recs.flatMap (·.ents)
  let ent (i : Nat) : BagEnt := Tab.get ⟨0, 0, 0, 0, 0, 0, .dropped, false, [], 0, [], true⟩ w.ents i
  let word (i : Nat) : List Byte := if w.keyed then leBytes 8 (ent i).key.toNat else leBytes 8 (ent i).addr
  pad16 ((m.recs.flatMap fun r => leBytes 2 r.bag ++ leBytes 2 r.ents.length ++ leBytes 2 r.piece ++ leBytes 2 0) ++
    ents.flatMap word ++ (if w.reduce.toNat = rdWsum then ents.flatMap fun i => leBytes 4 (ent i).weight.toNat else []))

def poolArg0 (w : BagWork) : Nat :=
  w.reduce.toNat + flagAt w.det 2 + w.inFmt.toNat * 2 ^ 8 + w.dim * 2 ^ 16 + w.version * 2 ^ 32

/-- The home quad of a bag is the quad of its segment 0 (R256): by the route in force until the first partial is held there. -/
def BagWork.homeOf (w : BagWork) (s : State) (bag : Nat) (a : BagAcc) : Nat := if a.merge then a.home else w.quad s bag 0

/-- The home quads of a message have room for its records and for the merge partials they need (R321, R257). -/
def msgFits (s : State) (w : BagWork) (m : PoolMsg) : Bool :=
  let homes := m.recs.map fun r =>
    ((Tab.find? w.accs r.bag).map fun a => (w.homeOf s r.bag a, if a.merge then 1 else 2)).getD (0, 1)
  (dedupNat (homes.map (·.1))).all fun q =>
    decide (quadUsed s q + (homes.foldl (fun a x => if x.1 = q then a + x.2 else a) 0) * partBytes w.dim ≤ quadBytes)

/-- Send a request to an owner. One under a key that the partition may not use fails as an owner that cannot be reached does
(R295; log entry 94). -/
def sendPool (s : State) (id : Nat) (w : BagWork) (m : PoolMsg) : Sent :=
  if keyOk s m.key.toNat w.ctx w.part then
    sendRequest s m.node.toNat opRPool m.key.toNat w.part (.pool id m.shard m.recs.length) m.handle.toNat (poolArg0 w)
      ((m.recs.flatMap (·.ents)).length + m.recs.length * 2 ^ 16) (poolData w m)
  else .fail

/-- Send the requests that wait, while their reservations fit. -/
def pumpMsgs (bus : Bus) (id : Nat) : Nat → State → State
  | 0, s => s
  | n + 1, s =>
    match bagOf s id with
    | none => s
    | some w =>
      match w.msgs with
      | [] => s
      | m :: t =>
        if !msgFits s w m then s
        else
          match sendPool s id w m with
          | .full => s
          | .fail => bagFail s bus id stRemote (nodeDetail m.node.toNat) 0 (w.failSrc ((m.recs.head?.map (·.bag)).getD 0))
          | .ok s' _ =>
            let accs := m.recs.foldl (fun t r => Tab.modify t r.bag fun a =>
              { a with home := w.homeOf s r.bag a, merge := true, reserved := a.reserved + 1 }) w.accs
            pumpMsgs bus id n (setBag s' id { w with msgs := t, accs := accs })

def sendPools (s : State) (bus : Bus) (id : Nat) : State :=
  match bagOf s id with
  | none => s
  | some w => pumpMsgs bus id w.msgs.length s

/-! ### Bags that are done -/

/-- The vector and count of each record of a served request, and the answer once all are done (R323, R324). -/
def servedAnswer (s : State) (bus : Bus) (id : Nat) (w : BagWork) : State :=
  match Tab.find? s.bl.served id with
  | none => s
  | some x =>
    if w.accs.all fun e => e.2.done then
      let pl := x.msg.payload
      let one (b : Nat) : List Byte :=
        let a := Tab.get ⟨0, 0, 0, false, 0, none, [], 0, true, true⟩ w.accs b
        leBytes 2 (leAt pl (32 + 8 * b) 2) ++ leBytes 2 a.n ++ leBytes 2 (leAt pl (36 + 8 * b) 2) ++ leBytes 10 0 ++
          (a.acc.getD (zeroVec w.dim)).flatMap fun v => leBytes 4 v.toNat
      let s := releasePin s bus x.vpin
      let s := { s with bl := { s.bl with served := Tab.erase s.bl.served id } }
      sendResponse s x.src.toNat opPoolPartial x.key.toNat x.req.toNat x.part 0 0 (w.bags * 2 ^ 16)
        ((List.range w.bags).flatMap one)
    else s

/-- A bag whose parts have all come takes its result; its space is free. -/
def settleBag (s : State) (bus : Bus) (id bag : Nat) : State :=
  match bagOf s id with
  | none => s
  | some w =>
    match Tab.find? w.accs bag with
    | none => s
    | some a =>
      if a.segsLeft = 0 ∧ a.piecesLeft = 0 ∧ a.done = false then
        let served := (cmdOf s id).isNone
        let w := { w with accs := Tab.modify w.accs bag fun a =>
                     { a with acc := some (bagResult w served bag a), pieces := [], merge := false, reserved := 0, done := true } }
        let s := setBag s id w
        let s := if a.empty then s else { s with pa := { s.pa with bags := s.pa.bags + 1 } }
        if served then servedAnswer s bus id w else startTile s w.tport
      else s

/-- A segment has all its contributions: its partial merges into the bag. -/
def settleSeg (s : State) (bus : Bus) (id bag seg : Nat) : State :=
  match bagOf s id with
  | none => s
  | some w =>
    match w.segs.find? fun g => decide (g.bag = bag ∧ g.seg = seg) with
    | none => s
    | some g =>
      if g.got = g.size ∧ g.done = false then
        let mine := w.ents.filter fun e => decide (e.2.bag = bag ∧ e.2.shard = w.shard ∧ e.2.pos / 256 = seg)
        let leaves := (sortBy (fun (a b : Nat × BagEnt) => decide (a.2.pos ≤ b.2.pos)) mine).filterMap fun e =>
          match e.2.st with
          | .vec v => some (w.leaf e.2 v)
          | _ => none
        let acc := if w.det then combine w leaves else g.acc.getD (zeroVec w.dim)
        let w := { w with
          segs := w.segs.map fun x => if x.bag = bag ∧ x.seg = seg then { x with done := true, acc := some acc } else x
          ents := w.ents.map fun e =>
            if e.2.bag = bag ∧ e.2.shard = w.shard ∧ e.2.pos / 256 = seg ∧ e.2.st ≠ .dropped ∧ e.2.st ≠ .away then
              (e.1, { e.2 with st := if w.det then e.2.st else .merged, got := [] }) else e
          accs := Tab.modify w.accs bag fun a =>
            { a with segsLeft := a.segsLeft - 1, acc := if w.det then a.acc else some (joinPartial w a.acc acc) } }
        settleBag (setBag s id w) bus id bag
      else s

/-- A contribution has arrived at its segment (R260, R261). -/
def contribute (s : State) (bus : Bus) (id e : Nat) (v : List F32) : State :=
  match bagOf s id with
  | none => s
  | some w =>
    match Tab.find? w.ents e with
    | none => s
    | some x =>
      let seg := x.pos / 256
      let w := { w with
        ents := Tab.modify w.ents e fun x => { x with st := if w.det then .vec v else .merged, got := [] }
        segs := w.segs.map fun g => if g.bag = x.bag ∧ g.seg = seg then
          { g with got := g.got + 1, acc := if w.det then none else some (addRow w g.acc (w.weightOf x) v) } else g }
      settleSeg (setBag s id w) bus id x.bag seg

/-- A row of a bag work waits to be placed. -/
def BagWork.unplaced (w : BagWork) : Bool := w.ents.any fun e => !e.2.placed

/-- A piece of a shard has come home (R325). -/
def pieceArrive (s : State) (bus : Bus) (id bag : Nat) (p : Piece) : State :=
  match bagOf s id with
  | none => s
  | some w =>
    let w := { w with accs := Tab.modify w.accs bag fun a =>
      { a with piecesLeft := a.piecesLeft - 1, reserved := a.reserved - 1
               acc := if w.det then a.acc else some (joinPartial w a.acc p.vec)
               pieces := if w.det then a.pieces ++ [p] else a.pieces } }
    settleBag (setBag s id w) bus id bag

/-! ### Row fetches (R252 to R254) -/

/-- The beats of a plan. -/
def planBeats (l : List (Nat × Nat)) : Nat := l.foldl (fun a x => a + ceilDiv x.2 128) 0

/-- The lane of a quad with the fewest outstanding beats. -/
def laneOf (s : State) (quad : Nat) : Nat :=
  leastBusy s (gwBase s.build 0 + 4 * quad) 4

/-- The needed bytes of a row of a bag work. -/
def BagWork.needed (w : BagWork) : Nat := ((InFmt.ofCode w.inFmt.toNat).map fun f => f.needed w.dim).getD 0

/-- A translation on behalf of an entry. -/
def entReq (id e : Nat) (w : BagWork) (c : Option Cmd) (user : TrUser) (va : Word) : TrReq :=
  { owner := .entry id e, user := user, ctx := w.owner, va := va, acc := .read
    queue := (c.map fun c => queueId c.ctx c.q).getD 0x7FFF, head := (c.map (·.raw.head)).getD 0 }

/-- Translate the pages of a row: the fabric address of each 4 KiB page it touches. -/
def rowPages (bus : Bus) (id e : Nat) (w : BagWork) (c : Option Cmd) (a : Nat) : Act (List (Nat × Nat)) :=
  mapAll (fun cut => do
    let va := a + cut.1
    let t ← trAct bus (entReq id e w c .pooling (BitVec.ofNat 64 va))
    if pteRM t.2.1 then throw (.remote va t.1) else pure (va / 4096, t.1 / 4096)) (cutsOf a w.needed)

/-- Issue the requests of a row that are left, as far as tags allow (R38, R43, R253). -/
def issueMore (s : State) (id e : Nat) : State :=
  match bagOf s id with
  | none => s
  | some w =>
    match Tab.find? w.ents e with
    | none => s
    | some x =>
      let now := x.todo.take (tagRoom s x.port)
      let s := each (fun s q => issueReq s x.port
        { op := .rd, addr := q.2.1, len := q.2.2, lo := q.1, data := [], poison := false, part := w.part
          owner := .row id e, tick := s.tick }) s now
      setEnt s id e fun x => { x with todo := x.todo.drop now.length }

/-- Requests of rows that waited for tags are issued. -/
def pumpRows (s : State) : State :=
  each (fun s b => each (fun s e => if e.2.todo = [] then s else issueMore s b.1 e.1) s b.2.ents) s (allBags s)

/-- Issue the fetch of a row whose pages are known. -/
def issueRow (s : State) (bus : Bus) (id e : Nat) (w : BagWork) (x : BagEnt) (a : Nat) (pages : List (Nat × Nat)) : State :=
  let quad := ((w.segs.find? fun g => decide (g.bag = x.bag ∧ g.seg = x.pos / 256)).map (·.quad)).getD 0
  let lane := laneOf s quad
  let v := { laneVia quad lane w.part s 0 with born := some id }
  let plan := rowPlan a w.needed
  let pa (va : Nat) : Nat :=
    match pages.find? fun p => decide (p.1 = va / 4096) with
    | some p => p.2 * 4096 + va % 4096
    | none => va
  let bad := plan.find? fun q => !(linesOf (pa q.1) q.2).all fun l => mayIssue s v l
  match bad with
  | some q =>
    let s := report s (reqEvent v (pa q.1) 0) v.mid
    bagFail s bus id stBusError (recDetail s v.src) 0 (w.failSrc x.bag)
  | none =>
    let s := { s with pa := { s.pa with rows := s.pa.rows + 1, beats := s.pa.beats + BitVec.ofNat 64 (planBeats plan) } }
    let todo := plan.map fun q => (q.1, pa q.1, q.2)
    issueMore (setEnt s id e fun x => { x with st := .fetching plan.length none, addr := a, got := [], port := v.port, todo := todo }) id e

/-- Fetch the row of an entry whose row is known and whose segment is accepted. -/
def startRow (s : State) (bus : Bus) (id e : Nat) : State :=
  match bagOf s id with
  | none => s
  | some w =>
    match Tab.find? w.ents e with
    | none => s
    | some x =>
      match x.st with
      | .row r =>
        let taken := (w.segs.find? fun g => decide (g.bag = x.bag ∧ g.seg = x.pos / 256)).any (·.taken)
        if !taken then s
        else if w.phys then
          issueRow s bus id e w x x.addr (rowPlan x.addr w.needed |>.map fun q => (q.1 / 4096, q.1 / 4096))
        else if w.rows ≤ r then bagFail s bus id stBadField 0 (BitVec.ofNat 64 r) (w.failSrc x.bag)
        else
          let a := w.region + r * w.rowBytes
          entAct bus id e (some r) (rowPages bus id e w (cmdOf s id) a) s fun s pages =>
            match bagOf s id with
            | some w => issueRow s bus id e w x a pages
            | none => s
      | _ => s

/-- The bytes of a row from what was fetched. -/
def gather (got : List (Nat × List Byte)) (a n : Nat) : List Byte :=
  (range a n).map fun i =>
    match got.find? fun g => decide (g.1 ≤ i ∧ i < g.1 + g.2.length) with
    | some g => g.2.getD (i - g.1) 0
    | none => 0

/-- Every request of an entry's row is answered: dequantize it, or fail the bag by the record of `bad` (R251, R254). -/
def rowWhole (s : State) (bus : Bus) (id e : Nat) (w : BagWork) (x : BagEnt) (bad : Option (BitVec 16)) : State :=
  match bad with
  | some src => bagFail s bus id stBusError (recDetail s src) 0 (w.failSrc x.bag)
  | none =>
    match InFmt.ofCode w.inFmt.toNat with
    | some f => contribute s bus id e (f.row w.dim (gather x.got x.addr w.needed))
    | none => s

/-- The row of an entry, once no request of it is outstanding. -/
def rowDone (s : State) (bus : Bus) (id e : Nat) : State :=
  match bagOf s id with
  | none => s
  | some w =>
    match Tab.find? w.ents e with
    | none => s
    | some x =>
      match x.st with
      | .fetching 0 bad => rowWhole s bus id e w x bad
      | _ => s

/-- One request of a row is answered. After an answer that fails, the requests not issued yet are dropped; the record of the
failure is that of the request's source, or of its port's DEADLINE source (R42, R267). -/
def rowAnswer (s : State) (bus : Bus) (port tag : Nat) (r : GwReq) (id e : Nat) (st : BusStatus) : State :=
  let poisoned := decide (st = .ok) && (linesOf r.addr r.len).any fun l => (Tab.find? s.mem.poison l).isSome
  let st := if poisoned then .poison else st
  let src := srcId 6 ((port - gwBase s.build 0) / 4) 0
  let v : Via := ⟨port, src, r.part, false, none, none, none⟩
  let s := if st = .deadline then quarantineTag s port tag r (reqEvent v r.addr 0)
    else updGw s port fun g => { g with out := Tab.erase g.out tag }
  let s := if st = .ok ∨ st = .deadline then s else report s (reqEvent v r.addr 0) v.mid
  let data := if st = .ok then [(r.lo, s.mem.bytes s.free r.addr r.len)] else []
  let s := setEnt s id e fun x =>
    match x.st with
    | .fetching left bad =>
      if st = .ok then { x with st := .fetching (left - 1) bad, got := x.got ++ data }
      else { x with st := .fetching (left - 1 - x.todo.length) (some (bad.getD (if st = .deadline then srcId 13 port 0 else src)))
                    todo := [] }
    | _ => x
  pumpRows (rowDone s bus id e)

/-- The outstanding requests of an entry, with their ports. -/
def rowReqs (s : State) (id e : Nat) : List (Nat × Nat × GwReq) :=
  s.gw.flatMap fun g => g.2.out.filterMap fun t => if t.2.owner = .row id e then some (g.1, t.1, t.2) else none

/-- ROW_FETCH_RESPONSE (R253, R254): the requests of a row that are left are answered with one status. -/
def execRowFetchResponse (id entry : Nat) (st : BusStatus) (s : State) : Res :=
  let s := each (fun s x => rowAnswer s [] x.1 x.2.1 x.2.2 id entry st) s (rowReqs s id entry)
  .next (sendPools s [] id)

/-! ### SEGMENT_ACCEPT (R257) -/

/-- The entries of a segment of the local part. -/
def segEnts (w : BagWork) (bag seg : Nat) : List (Nat × BagEnt) :=
  w.ents.filter fun e => decide (e.2.bag = bag ∧ e.2.shard = w.shard ∧ e.2.pos / 256 = seg) &&
    decide (e.2.st ≠ .dropped ∧ e.2.st ≠ .away)

/-- Start what an accepted segment can: rows whose index is known are fetched, vectors of misses arrive. -/
def startSeg (s : State) (bus : Bus) (id bag seg : Nat) : State :=
  match bagOf s id with
  | none => s
  | some w => each (fun s e => match e.2.st with
      | .row _ => startRow s bus id e.1
      | .fetching _ _ => issueMore s id e.1
      | .vec v => if e.2.miss && !w.det then contribute s bus id e.1 v else s
      | _ => s) s (segEnts w bag seg)

/-- A quad accepts a segment when its partial, and the bag's merge partial, have space. Segment 0 brings the bag's home with
it: the partials merge at its quad (R256). -/
def segmentAccept (s : State) (bus : Bus) (id bag seg : Nat) : State :=
  match bagOf s id with
  | none => s
  | some w =>
    match w.segs.find? fun g => decide (g.bag = bag ∧ g.seg = seg), Tab.find? w.accs bag with
    | some g, some a =>
      if g.taken then startSeg s bus id bag seg
      else
        let quad := w.quad s bag seg
        let n := partBytes w.dim
        let home := if seg = 0 then quad else w.homeOf s bag a
        let homeNeed := if a.merge && decide (home = a.home) then 0 else (1 + a.reserved) * n
        let ok := if home = quad then decide (quadUsed s quad + n + homeNeed ≤ quadBytes)
          else decide (quadUsed s quad + n ≤ quadBytes ∧ quadUsed s home + homeNeed ≤ quadBytes)
        if ok then
          let ready := if w.det then (segEnts w bag seg).foldl (fun k e => match e.2.st with | .vec _ => k + 1 | _ => k) 0 else 0
          let w := { w with
            segs := w.segs.map fun x => if x.bag = bag ∧ x.seg = seg then { x with taken := true, quad := quad, got := ready } else x
            accs := Tab.modify w.accs bag fun a => { a with home := home, merge := true } }
          settleSeg (startSeg (setBag s id w) bus id bag seg) bus id bag seg
        else s
    | _, _ => s

def execSegmentAccept (id bag seg : Nat) (bus : Bus) (s : State) : Res :=
  .next (if runsWork s then sendPools (segmentAccept s bus id bag seg) bus id else s)

/-! ### KEY_LOOKUP (R196 to R198) -/

/-- The miss of a key contributes +0.0. -/
def missEnt (s : State) (bus : Bus) (id e : Nat) (w : BagWork) (x : BagEnt) : State :=
  let s := setEnt s id e fun x => { x with st := .vec (zeroVec w.dim), miss := true }
  match w.segs.find? fun g => decide (g.bag = x.bag ∧ g.seg = x.pos / 256) with
  | some g => if g.taken then contribute s bus id e (zeroVec w.dim) else s
  | none => s

/-- Look up the key of an entry. -/
def lookupEnt (bus : Bus) (id e : Nat) (w : BagWork) (x : BagEnt) (c : Option Cmd) : Act (Option Nat × KeyUse) := do
  let r := entReq id e w c .key 0
  let u ← keyUse bus r w.table.toNat
  let row ← keyFind bus u r w.version x.key
  match row with
  | some k => pure (some k, u)
  | none =>
    if u.desc.policy = polDefault then pure (some u.desc.defaultRow, u)
    else do
      if u.desc.policy = polAdmit then postMiss bus u r w.version w.ctx x.key
      pure (none, u)

def keyLookup (s : State) (bus : Bus) (id e : Nat) : State :=
  match bagOf s id with
  | none => s
  | some w =>
    match Tab.find? w.ents e with
    | none => s
    | some x =>
      if x.st ≠ .lookup then s
      else entAct bus id e none (lookupEnt bus id e w x (cmdOf s id)) s fun s r =>
        match r.1 with
        | some k => startRow (setEnt s id e fun x => { x with st := .row k }) bus id e
        | none =>
          if r.2.desc.policy = polFault then
            bagFail s bus id stKeyFault 0 x.key (srcId 5 (keyPairOf s (keyHash1 r.2.desc.seed x.key)) 0)
          else missEnt s bus id e w x

def execKeyLookup (id entry : Nat) (bus : Bus) (s : State) : Res :=
  .next (if runsWork s then sendPools (keyLookup s bus id entry) bus id else s)

/-- A held entry ends by an abort: its bag fails with TRANSLATION, or its served request is answered so. -/
def abortEnt (s : State) (bus : Bus) (id e slot : Nat) (st : Byte) : State :=
  match bagOf s id with
  | none => s
  | some w =>
    match Tab.find? w.ents e with
    | none => s
    | some x =>
      match x.st with
      | .held k _ => if k = slot then bagFail s bus id st (BitVec.ofNat 32 slot) 0 (w.failSrc x.bag) else s
      | _ => s

/-! ### BAG_POOL (R241 to R248, R315, R318 to R321) -/

/-- A shard of a directory image (R314). -/
structure Shard where
  handle : Word
  node   : Nat
  key    : Nat
  deriving DecidableEq, Repr

/-- The image of a directory slot. -/
def dirAddr (s : State) (slot : Nat) (img : Bool) : Nat :=
  s.bl.shardBase.toNat * 0x400000 + 0x8000 * slot + (if img then 0x4000 else 0)

def shardAt (img : List Byte) (k : Nat) : Shard :=
  ⟨BitVec.ofNat 64 (leAt img (4096 + 16 * k) 8), leAt img (4104 + 16 * k) 2 % 1024, byteAt img (4106 + 16 * k)⟩

def imgShards (img : List Byte) : Nat := leAt img 8 2 % 512

/-- The shard of a key (R315). -/
def shardOfKey (img : List Byte) (key : Word) : Nat :=
  byteAt img (8192 + (keyMix (key ^^^ BitVec.ofNat 64 (leAt img 0 8)) >>> 52).toNat)

/-- The arrays of a BAG_POOL: keys, weights, offsets. -/
structure Arrays where
  keys    : List Word
  weights : List F32
  offs    : List Nat
  deriving DecidableEq, Repr

/-- The referenced arrays, read on the pooling ports of a quad (R244). -/
def readArrays (bus : Bus) (id : Nat) (c : Cmd) (quad : Nat) : Act Arrays := do
  let k := c.raw.bKeys
  let nw := if c.raw.bReduce = rdWsum then k else 0
  let n := 8 * k + 4 * nw + 4 * (c.raw.bBags - 1)
  let va := bits (c.raw.w 4) 56 0
  let r := cmdReq id c .pooling (BitVec.ofNat 64 va) .read
  let s ← get
  let bs ← act fun s => vaRead s bus r n false (laneVia quad (laneOf s quad) c.part)
  let beats := if n = 0 then 0 else planBeats (rowPlan va n)
  set { (← get) with pa := { (← get).pa with beats := s.pa.beats + BitVec.ofNat 64 beats } }
  pure { keys := (List.range k).map fun i => BitVec.ofNat 64 (leAt bs (8 * i) 8)
         weights := (List.range nw).map fun i => BitVec.ofNat 32 (leAt bs (8 * k + 4 * i) 4)
         offs := (List.range (c.raw.bBags - 1)).map fun i => leAt bs (8 * k + 4 * nw + 4 * i) 4 }

/-- The arrays of an inline BAG_POOL (R243). -/
def inlineArrays (c : RawCmd) : Arrays :=
  { keys := c.keys.take c.bKeys
    weights := if c.bReduce = rdWsum then
        (List.range c.bKeys).map fun i => BitVec.ofNat 32 ((c.keys.getD (c.bKeys + i / 2) 0).toNat >>> (32 * (i % 2)))
      else []
    offs := c.bOffsets }

/-- The bag of a list index: the number of offsets at or below it. -/
def bagIdx (offs : List Nat) (i : Nat) : Nat := (offs.filter (· ≤ i)).length

/-- Give every entry of a bag and shard its position, in list order. -/
def setPos : List (Nat × BagEnt) → List ((Nat × Nat) × Nat) → List (Nat × BagEnt)
  | [], _ => []
  | (i, x) :: t, seen =>
    if x.st = .dropped then (i, x) :: setPos t seen
    else
      let k := (x.bag, x.shard)
      let n := ((seen.find? fun e => decide (e.1 = k)).map (·.2)).getD 0
      (i, { x with pos := n }) :: setPos t ((k, n + 1) :: seen.filter fun e => !decide (e.1 = k))

/-- The segments of the local parts. -/
def segsOf (s : State) (w : BagWork) : List Seg :=
  (List.range w.bags).flatMap fun b =>
    let n := (w.ents.filter fun e => decide (e.2.bag = b ∧ e.2.shard = w.shard ∧ e.2.st ≠ .dropped ∧ e.2.st ≠ .away)).length
    (List.range (ceilDiv n 256)).map fun g =>
      ⟨b, g, w.quad s b g, min 256 (n - 256 * g), false, 0, none, false⟩

/-- The records that carry a shard's entries of the whole command, in bag order (R321). -/
def recsOf (w : BagWork) (shard : Nat) : List PoolRec :=
  (List.range w.bags).flatMap fun b =>
    let es := (w.ents.filter fun e => decide (e.2.bag = b ∧ e.2.shard = shard ∧ e.2.st = .away)).map (·.1)
    (List.range (ceilDiv es.length 1024)).map fun p => ⟨b, p, (es.drop (1024 * p)).take 1024⟩

/-- Pack records into messages of at most 1024 entries and `most` records. -/
def packRecs (most : Nat) : List PoolRec → List PoolRec → List (List PoolRec)
  | [], cur => if cur = [] then [] else [cur]
  | r :: t, cur =>
    let n := (cur.flatMap (·.ents)).length
    if cur ≠ [] ∧ (1024 < n + r.ents.length ∨ most ≤ cur.length) then cur :: packRecs most t [r]
    else packRecs most t (cur ++ [r])

/-- The pieces of a bag that are to come: those of its requests, or one in place of them while a row is unplaced. -/
def bagPieces (w : BagWork) (b : Nat) : Nat :=
  if w.unplaced then (if w.ents.any fun e => decide (e.2.bag = b ∧ e.2.st = .away) then 1 else 0)
  else (w.msgs.flatMap fun m => m.recs.filter fun r => decide (r.bag = b)).length

/-- The accumulators of the bags once the entries are placed. -/
def accsOf (s : State) (w : BagWork) : Tab BagAcc :=
  (List.range w.bags).map fun b =>
    let n := (w.ents.filter fun e => decide (e.2.bag = b ∧ e.2.st ≠ .dropped)).length
    (b, ⟨(w.segs.filter fun g => decide (g.bag = b)).length,
        bagPieces w b, w.quad s b 0, false, 0, none, [], n,
        decide (n = 0), false⟩)

/-- Give the bag work its segments, requests and accumulators, and settle the empty bags, which count only as empty
(R248). -/
def launchBag (s : State) (bus : Bus) (id : Nat) (w : BagWork) : State :=
  let w := { w with segs := segsOf s w }
  let w := { w with accs := accsOf s w }
  let nulls := (w.ents.filter fun e => decide (e.2.st = .dropped) && w.accs.any fun a => decide (a.1 = e.2.bag) && !a.2.empty).length
  let empties := (w.accs.filter fun e => e.2.empty).length
  let s := { s with pa := { s.pa with nulls := s.pa.nulls + BitVec.ofNat 64 nulls
                                      empties := s.pa.empties + BitVec.ofNat 64 empties } }
  let s := setBag s id w
  let s := each (fun s b => settleBag s bus id b) s (List.range w.bags)
  sendPools s bus id

/-- The version of the pinned slot: the current one, or the one before it after a flip. -/
def pinnedVersion (v : VLine) (slot : Bool) : Nat := if v.slot = slot then v.ver else v.ver - 1

/-- The row of an unkeyed entry: on this node, or its node and address there (R255). -/
def placeRow (bus : Bus) (id e : Nat) (w : BagWork) (c : Option Cmd) (a : Nat) : Act (Option (Nat × Nat)) := do
  let t ← trAct bus (entReq id e w c .pooling (BitVec.ofNat 64 a))
  if pteRM t.2.1 then pure (some (t.1 / 2 ^ 48 % 1024, t.1 % 2 ^ 48)) else pure none

/-- The entry of an unkeyed row. Where a translation fault holds its page, the entry alone waits, as a row of this node until
the page tells otherwise (R254). -/
def placeEnt (bus : Bus) (id i : Nat) (w : BagWork) (c : Cmd) (ent : BagEnt) : Act BagEnt := fun s =>
  match placeRow bus id i w (some c) (w.region + ent.key.toNat * w.rowBytes) s with
  | .ok (some (node, a)) s' => .ok { ent with shard := node, addr := a, st := .away } s'
  | .ok none s' => .ok { ent with st := .row ent.key.toNat } s'
  | .error (.held k) s' => .ok { ent with st := .held k (some ent.key.toNat), placed := false } s'
  | .error e s' => .error e s'

/-- The entries of a command with their shards (R247, R252, R319). -/
def splitEnts (bus : Bus) (id : Nat) (c : Cmd) (w : BagWork) (arr : Arrays) (img : Option (List Byte))
    (own : Nat) : Act (List (Nat × BagEnt)) :=
  mapAll (fun x => do
    let i := x.2
    let ent : BagEnt := ⟨bagIdx arr.offs i, x.1, arr.weights.getD i 0, w.shard, 0, 0, .lookup, false, [], 0, [], true⟩
    if x.1 = nullKey then pure (i, { ent with st := .dropped })
    else match img with
      | some d =>
        let k := shardOfKey d x.1
        pure (i, { ent with shard := k, st := if (shardAt d k).node = own then .lookup else .away })
      | none =>
        if w.keyed then pure (i, ent)
        else if w.rows ≤ x.1.toNat then do
          modify fun s => updCmd s id fun c => { c with faultAddr := x.1, faultSrc := srcId 6 (w.quad s ent.bag 0) 0 }
          failWith stBadField
        else do
          let y ← placeEnt bus id i w c ent
          pure (i, y)) (arr.keys.zipIdx)

/-- The requests to owners: the key of a shard from its entry, 0 for an unkeyed table (log entry 36). -/
def msgsOf (w : BagWork) (img : Option (List Byte)) : List PoolMsg :=
  let shards := sortBy (fun a b => decide (a ≤ b))
    (dedupNat ((w.ents.filter fun e => decide (e.2.st = .away)).map fun e => e.2.shard))
  shards.flatMap fun k =>
    let sh : Shard := match img with
      | some d => shardAt d k
      | none => ⟨0, k, 0⟩
    (packRecs (max 1 (65536 / (16 + 4 * w.dim))) (recsOf w k) []).map fun rs =>
      ⟨k, BitVec.ofNat 10 sh.node, BitVec.ofNat 8 sh.key, sh.handle, rs⟩

/-- The local shard of an image. -/
def localShard (img : List Byte) (own : Nat) : Nat :=
  ((List.range (imgShards img)).find? fun k => decide ((shardAt img k).node = own)).getD 0

/-- Complete a BAG_POOL whose last tile is accepted: its event, then its end (R266). -/
def bagSignal (bus : Bus) (id : Nat) (c : Cmd) : Act Unit := do
  if c.raw.w 2 ≠ 0 then do
    let h := c.raw.w 2
    let o ← objGet bus (hIndex h)
    signalEvent bus o h (c.raw.w 3) c.ctx (cmdReq id c .engine 0 .atomic)
  okCmd id

/-- The version pin of a BAG_POOL (R233): the slot that is current, counted in its line, taken once. -/
def pinVersion (bus : Bus) (id : Nat) (c : Cmd) : Act Unit := do
  if c.vpin.isNone then do
    let i := hIndex (c.raw.w 1)
    let o ← objGet bus i
    let r := cmdReq id c .engine 0 .atomic
    let v ← vlineGet bus r o
    vlinePut bus r i o (v.setPins v.slot (v.pins v.slot + 1))
    modify fun s => updCmd s id fun c => { c with vpin := some (i, v.slot) }

/-- The segments of a bag with its entries renumbered: what its segments had taken stays. -/
def resegDet (w : BagWork) (b : Nat) : BagWork :=
  let w := { w with ents := setPos w.ents [] }
  let mine := w.ents.filter fun e => decide (e.2.bag = b ∧ e.2.shard = w.shard ∧ e.2.st ≠ .dropped ∧ e.2.st ≠ .away)
  let segs := (List.range (ceilDiv mine.length 256)).map fun g =>
    let got := (mine.filter fun e => decide (e.2.pos / 256 = g) && (match e.2.st with | .vec _ => true | _ => false)).length
    match w.segs.find? fun x => decide (x.bag = b ∧ x.seg = g) with
    | some x => { x with size := min 256 (mine.length - 256 * g), got := got, acc := none, done := false }
    | none => ⟨b, g, 0, min 256 (mine.length - 256 * g), false, got, none, false⟩
  { w with segs := (w.segs.filter fun x => !decide (x.bag = b)) ++ segs
           accs := Tab.modify w.accs b fun a => { a with segsLeft := segs.length } }

/-- The segment of an entry has one contribution less; one without any is no segment. -/
def resegAdd (w : BagWork) (b seg : Nat) : BagWork :=
  let segs := w.segs.map fun g => if g.bag = b ∧ g.seg = seg then { g with size := g.size - 1 } else g
  let gone := segs.any fun g => decide (g.bag = b ∧ g.seg = seg ∧ g.size = 0)
  { w with segs := segs.filter fun g => !decide (g.bag = b ∧ g.seg = seg ∧ g.size = 0)
           accs := if gone then Tab.modify w.accs b fun a => { a with segsLeft := a.segsLeft - 1 } else w.accs }

/-- Requests to owners leave once every row is placed: their records are numbered over the whole shard part (R320, R321). -/
def sendPlaced (w : BagWork) : BagWork :=
  let w := if w.unplaced then w else { w with msgs := msgsOf w none }
  { w with accs := w.accs.map fun a => (a.1, if a.2.done then a.2 else { a.2 with piecesLeft := bagPieces w a.1 }) }

/-- The page of a row that was held has told where the row lies: on this node it is fetched, else it joins the part of its
owner (R254, R255). -/
def latePlace (s : State) (bus : Bus) (id e : Nat) (w : BagWork) (x : BagEnt) (c : Option Cmd) : State :=
  let r := x.key.toNat
  entAct bus id e (some r) (placeRow bus id e w c (w.region + r * w.rowBytes)) s fun s p =>
    match p with
    | none =>
      let w := { w with ents := Tab.modify w.ents e fun x => { x with st := .row r, placed := true } }
      startRow (setBag s id (sendPlaced w)) bus id e
    | some (node, a) =>
      let w := { w with ents := Tab.modify w.ents e fun x => { x with st := .away, placed := true, shard := node, addr := a } }
      let w := sendPlaced (if w.det then resegDet w x.bag else resegAdd w x.bag (x.pos / 256))
      let s := each (fun s g => settleSeg s bus id x.bag g) (setBag s id w) (List.range (ceilDiv w.ents.length 256))
      settleBag s bus id x.bag

/-- A held entry goes on after a retry. -/
def resumeEnt (s : State) (bus : Bus) (id e slot : Nat) : State :=
  match bagOf s id with
  | none => s
  | some w =>
    match Tab.find? w.ents e with
    | none => s
    | some x =>
      match x.st with
      | .held k row =>
        if k ≠ slot then s
        else match row with
          | some r => if !x.placed then latePlace s bus id e w x (cmdOf s id) else startRow (setEnt s id e fun x => { x with st := .row r }) bus id e
          | none => keyLookup (setEnt s id e fun x => { x with st := .lookup }) bus id e
      | _ => s

/-- BAG_POOL: read the arrays, split the entries, and start. -/
def bagPoolAct (bus : Bus) (id : Nat) (c : Cmd) : Act Unit := do
  match c.work with
  | .bag w =>
    if w.bags ≤ w.tile * w.tileRows then bagSignal bus id c
    else modify fun s => updCmd s id fun c => { c with phase := .running }
  | _ => do
    pinVersion bus id c
    let i := hIndex (c.raw.w 1)
    let o ← objGet bus i
    let t := tableDesc o.raw
    let v ← vlineGet bus (cmdReq id c .engine 0 .read) o
    let s ← get
    let slot := (((cmdOf s id).bind (·.vpin)).map (·.2)).getD false
    let own := s.bl.nodeId.toNat
    let img ← match c.dir with
      | some (d, k) => do
        let bs ← homeGet (sysVia s (dirAddr s d k)) bus (dirAddr s d k) 16384
        pure (some bs)
      | none => pure none
    let keyed := decide (t.keyVa ≠ 0)
    let w : BagWork :=
      { part := c.part, ctx := c.ctx, owner := o.ctx, q := (queueId c.ctx c.q).toNat, h := c.raw.head.toNat, user := c.raw.user
        table := BitVec.ofNat 32 i, keyed := keyed, phys := false, version := pinnedVersion v slot, rows := t.rows
        rowBytes := t.rowBytes, region := t.region slot
        shard := match img with | some d => localShard d own | none => if keyed then 0 else own
        reduce := BitVec.ofNat 2 c.raw.bReduce, det := c.raw.bDet, skip := c.raw.bSkip, inFmt := BitVec.ofNat 4 c.raw.bIn
        outFmt := BitVec.ofNat 3 c.raw.bOut, dim := c.raw.bDim, dst := BitVec.ofNat 48 c.raw.bDst, tport := c.raw.bTport
        tileRows := c.raw.bTileRows, bags := c.raw.bBags, ents := [], segs := [], accs := [], msgs := [], tile := 0
        sent := false, accepted := 0 }
    let arr ← if c.raw.bInline then pure (inlineArrays c.raw) else readArrays bus id c (w.quad s 0 0)
    if !offsetsOk c.raw.bKeys 0 arr.offs then do
      modify fun s => updCmd s id fun c => { c with faultSrc := srcId 6 (w.quad s 0 0) 0 }
      failWith stBadField
    else pure ()
    let ents ← splitEnts bus id c w arr img own
    let w := { w with ents := setPos ents [] }
    let w := { w with msgs := if w.unplaced then [] else msgsOf w img }
    modify fun s => launchBag (updCmd s id fun c => { c with work := .bag w, phase := .running }) bus id w

def execBagPool (id : Nat) (bus : Bus) (s : State) : Res := .next (runCmd s id opBagPool (bagPoolAct bus id))

/-! ### TILE_ACCEPT and TILE_STALL_TIMEOUT (R44, R45, R266, R268) -/

/-- The last beat of the tile in transfer is accepted: the command goes on with its next tile, or signals and ends. The tile
of a command that has failed meanwhile is delivered and no longer counted in PROGRESS (R268). -/
def tileAccept (s : State) (bus : Bus) (port : Nat) : State :=
  match (Tab.get {} s.pa.tports port).cur with
  | none => s
  | some t =>
    let s := emit s (.tile port t.head t.data)
    let s := { s with pa := { s.pa with
      tiles := s.pa.tiles + 1, sats := s.pa.sats + BitVec.ofNat 64 t.sats, nans := s.pa.nans + BitVec.ofNat 64 t.nans
      tports := Tab.set {} s.pa.tports port {} } }
    let s := match cmdOf s t.cmd with
      | some c =>
        match c.work with
        | .bag w =>
          let s := setBag s t.cmd { w with tile := w.tile + 1, sent := false, accepted := w.accepted + t.ents }
          let s := setProgress s t.cmd (c.progress + t.ents)
          if t.last then
            runAct (bagSignal bus t.cmd c) (updCmd s t.cmd fun c => { c with phase := .dispatched }) (fun s _ => s) (stopCmd t.cmd)
          else s
        | _ => s
      | none => s
    startTile s port

def execTileAccept (port : Nat) (bus : Bus) (s : State) : Res :=
  .next (if runsWork s then tileAccept s bus port else s)

/-- TILE_STALL_TIMEOUT (R45): a port whose tile has stood still for 1 ms at a beat raises one SEVERE fault, and the tile keeps
waiting; a stall at a later beat of the tile is another one. -/
def execTileStallTimeout (at_ : TileBeat) (s : State) : Res :=
  let port := at_.port
  let beat := at_.beat
  let t : TilePort := Tab.get {} s.pa.tports port
  if t.cur.isSome && (match t.stalled with | none => true | some b => decide (b < beat)) then
    let s := { s with pa := { s.pa with tports := Tab.set {} s.pa.tports port { t with stalled := some beat } } }
    .next (note s { source := srcId 6 port 1, info := BitVec.ofNat 16 port })
  else .next s

/-! ### Quads (R270) -/

/-- A write of PA_QUAD_RETIRE. -/
def quadRetireWrite (s : State) (mask : Nat) : State :=
  let present := maskOf (s.build.lanes / 4)
  let new := mask &&& present
  if s.pa.retBusy || decide (new = present) then s
  else { s with pa := { s.pa with retire := BitVec.ofNat 12 new, retBusy := decide (new ≠ s.pa.retire.toNat) } }

def execQuadRetire (mask : BitVec 12) (s : State) : Res := .next (if barOk s then quadRetireWrite s mask.toNat else s)

/-- QUAD_RETIRE_DONE (R270, R186): BUSY clears once no retired quad holds an accepted segment; until then it stays. -/
def execQuadRetireDone (s : State) : Res :=
  let busy := (List.range (s.build.lanes / 4)).any fun q => s.pa.retire.getLsbD q && quadBusy s q
  .next (if s.pa.retBusy && !busy then { s with pa := { s.pa with retBusy := false } } else s)

end Sys2Proof.Machine
end

