-- ==== Sys2Proof/Machine/Mover.lean ====
section
/-! DEFINITION. The mover (spec file 11): channels and their runs, the load check, MOVE executions with packing, remote
reads and writes, loops, waits, signals, fences, status words, the end of a run and its abort. -/

namespace Sys2Proof.Machine

open Sys2Proof

/-! ### Requests of the mover ports -/

/-- A write whose request failed at these bytes (R503): each granule keeps its values or shows what was written. -/
def Memory.failMany (m : Memory) (bytes : List (Nat × Byte)) : Memory :=
  let after := bytes.foldl (fun m b => m.putByte b.1 b.2) m
  (dedupNat (bytes.map fun b => b.1 / 8)).foldl
    (fun x g => x.settle g (Tab.get [] m.indet g ++ after.granule g :: Tab.get [] after.indet g)) m

/-- The status of one request over its lines: the first that is not OK. -/
def reqStatus (s : State) (v : Via) (bus : Bus) (a n : Nat) (rd : Bool) : BusStatus :=
  (linesOf a n).foldl (fun st l => if st = .ok then lineStatus s v bus l rd else st) .ok

/-- One RD request: its status, reported once (R41). -/
def readReq (v : Via) (bus : Bus) (s : State) (a n : Nat) : State × BusStatus :=
  let st := reqStatus s v bus a n true
  (reportBus s v st a 0, st)

/-- One WR request with byte enables for the listed bytes. -/
def writeReq (v : Via) (bus : Bus) (s : State) (a n : Nat) (bytes : List (Nat × Byte)) : State × BusStatus :=
  let st := reqStatus s v bus a n false
  let issued := (linesOf a n).all fun l => mayIssue s v l
  let put := bytes.foldl (fun m b => m.putByte b.1 b.2) s.mem
  let whole (l : Nat) : Bool := decide ((bytes.filter fun b => decide (b.1 / 64 = l)).length = 64)
  let m := if st = .ok then (linesOf a n).foldl (fun m l => if whole l then m.mark l 64 false else m) put
    else if issued then s.mem.failMany bytes else s.mem
  (reportBus { s with mem := m } v st a 1, st)

/-- Requests of the mover read port of a channel (R328). The read engine is instance 0 (DEDUCED). -/
def mvReadVia (s : State) (ch : Nat) (part : BitVec 3) : Via :=
  { port := gwBase s.build 3 + ch / 16, src := srcId 7 0 0, part := part, sys := false, ctx := none }

/-- Requests of the mover write port of a channel. -/
def mvWriteVia (s : State) (ch : Nat) (part : BitVec 3) : Via :=
  { port := gwBase s.build 4 + ch / 16, src := srcId 7 1 0, part := part, sys := false, ctx := none }

def addRd (s : State) (n : Nat) : State := { s with mv := { s.mv with rdBytes := s.mv.rdBytes + BitVec.ofNat 64 n } }
def addWr (s : State) (n : Nat) : State := { s with mv := { s.mv with wrBytes := s.mv.wrBytes + BitVec.ofNat 64 n } }

/-! ### Programs (R332 to R339) -/

def mvOp (w : Word) : Nat := bits w 7 0

/-- Words of an instruction. -/
def mvLen (w : Word) : Nat :=
  match mvOp w with
  | 1 => if bits w 17 16 = 2 then 5 else 4
  | 2 => 2
  | 4 => 3
  | 5 => 3
  | _ => 1

/-- The bits that word 0 of each instruction names. -/
def mvMask (op : Nat) : Word :=
  match op with
  | 1 => 0xFFFFFFFF7FFFFFFF
  | 2 => 0xFFFFFFFF000000FF
  | 4 => 0xFFFFFFFF000009FF
  | 5 => 0x0000000003FF0FFF
  | 6 => 0x00000000000003FF
  | _ => 0x00000000000000FF

/-- The fields of a MOVE (R336). -/
def mMode (w : Word) : Nat := bits w 9 8
def mSw (w : Word) : Nat := 2 ^ bits w 12 10
def mDw (w : Word) : Nat := 2 ^ bits w 15 13
def mKind (w : Word) : Nat := bits w 17 16
def mHint (w : Word) : Bool := bit w 20
def mHintPort (w : Word) : Nat := bits w 25 21
def mAop (w : Word) : Nat := bits w 29 26
def mSize16 (w : Word) : Bool := bit w 30
def mLen (w : Word) : Nat := bits w 63 32

/-- The static rules of R337. `ws` starts at the MOVE. -/
def moveOk (s : State) (noHost : Bool) (ws : List Word) : Bool :=
  let w := ws.getD 0 0
  let sp := bits (ws.getD 3 0) 31 0
  let dp := bits (ws.getD 3 0) 63 32
  let zero := decide (mMode w = 1)
  decide (mMode w ≠ 3 ∧ mKind w ≠ 3 ∧ mDw w ≤ 64 ∧ mLen w ≠ 0 ∧ dp % mDw w = 0 ∧ mLen w % mDw w = 0) &&
  (if zero then decide (ws.getD 1 0 = 0) else decide (mSw w ≤ 64 ∧ sp % mSw w = 0 ∧ mLen w % mSw w = 0)) &&
  (if mMode w = 2 then decide (mKind w = 0 ∧ mSw w = 8 ∧ mDw w = 8 ∧ sp = 0 ∧ dp = 0 ∧ mAop w ≤ 9) && !mHint w &&
      decide (mLen w = if mSize16 w then 16 else 8) && (!mSize16 w || decide (mAop w = 9))
    else decide (mAop w = 0) && !mSize16 w) &&
  (!mHint w || (decide (mKind w = 0) && s.build.cpPresent.getLsbD (mHintPort w))) &&
  (!noHost || decide (mKind w = 0)) &&
  (decide (mKind w ≠ 2) || decide (ws.getD 4 0 &&& 0xFFFFFFFFF000FC00 = 0))

/-- The load check of R334 over the instructions: `depth` open loops, `moves` MOVEs so far, `last` the last opcode. -/
def progScan (s : State) (noHost : Bool) (want : Nat) : Nat → List Word → Nat → Nat → Nat → Bool
  | 0, _, _, _, _ => false
  | fuel + 1, ws, depth, moves, last =>
    match ws with
    | [] => decide (depth = 0 ∧ moves = want ∧ last = 7)
    | w :: _ =>
      let op := mvOp w
      if 8 ≤ op ∨ w &&& ~~~(mvMask op) ≠ 0 ∨ ws.length < mvLen w ∨ (op = 2 ∧ 4 ≤ depth) ∨ (op = 3 ∧ depth = 0)
          ∨ (op = 1 ∧ moveOk s noHost ws = false) then false
      else progScan s noHost want fuel (ws.drop (mvLen w)) (if op = 2 then depth + 1 else if op = 3 then depth - 1 else depth)
        (if op = 1 then moves + 1 else moves) op

/-- The local EVENT handles that a program names (R334, R339). -/
def progEvents : Nat → List Word → List Word
  | 0, _ => []
  | fuel + 1, ws =>
    match ws with
    | [] => []
    | w :: t =>
      let rest := progEvents fuel (ws.drop (mvLen w))
      if mvOp w = 4 ∨ (mvOp w = 5 ∧ bit w 9 = false) then t.headD 0 :: rest else rest

/-- The header of a program (R332) passes its checks. -/
def headerOk (hd : List Byte) (size : Nat) : Bool :=
  let words := leAt hd 0 4
  decide (1 ≤ words ∧ words ≤ 1024 ∧ leAt hd 4 2 ≤ 256 ∧ byteAt hd 6 < 4 ∧ byteAt hd 7 = 0 ∧ leAt hd 8 8 < 2 ^ 57
    ∧ leAt hd 8 8 % 8 = 0 ∧ 64 + 8 * words ≤ size) && (hd.drop 16).all (· = 0)

/-- The program that a COPY behaves as (R335). -/
def copyProg (src dst : Word) (host : Bool) : Nat → Nat → List Word
  | 0, _ => [7]
  | fuel + 1, len =>
    if len = 0 then [7]
    else
      let n := min len (2 ^ 31)
      BitVec.ofNat 64 (n * 2 ^ 32 + flagAt host 16 + 1) :: src :: dst :: 0 ::
        copyProg (src + BitVec.ofNat 64 n) (dst + BitVec.ofNat 64 n) host fuel (len - n)

/-! ### Streams (R347, R348) -/

def pitchOf (p w : Nat) : Nat := if p = 0 then w else p

/-- The address of stream byte `k`. -/
def strAddr (base : Word) (w p k : Nat) : Word := base + BitVec.ofNat 64 (k / w * p + k % w)

/-- The distance from stream byte `k` to stream byte `j` in memory. -/
def strOff (w p k j : Nat) : Nat := (j / w * p + j % w) - (k / w * p + k % w)

/-- The end of the stream bytes that share the 512 B block of stream byte `k`. -/
def blkEnd (base : Word) (w p len k : Nat) : Nat :=
  let room := 512 - (strAddr base w p k).toNat % 512
  min len (if p = w then k + room else (k / w + (room - w) / p + 1) * w)

/-- The end of the bytes that follow stream byte `k` without a gap in its block. -/
def runEnd (base : Word) (w p len k : Nat) : Nat :=
  if p = w then blkEnd base w p len k else min len ((k / w + 1) * w)

/-- How a part of an execution answers. -/
inductive IoRes where
  | done
  | held (slot : Nat)
  | wait
  | bad (cause : Byte) (st : Byte) (detail : BitVec 32)
  deriving DecidableEq, Repr

def mcTranslation : Byte := 1
def mcBus : Byte := 2
def mcRemote : Byte := 3
def mcAlign : Byte := 4
def mcFlush : Byte := 5
def mcTarget : Byte := 6

/-- What every part of a run needs to know. -/
structure MvCx where
  ch   : Nat
  ctx  : BitVec 12
  part : BitVec 3
  q    : BitVec 15
  head : BitVec 16
  cmd  : Nat
  deriving DecidableEq, Repr

def mvCx (s : State) (ch : Nat) (r : Run) : MvCx :=
  match cmdOf s r.cmd with
  | some c => ⟨ch, r.ctx, c.part, queueId c.ctx c.q, c.raw.head, r.cmd⟩
  | none => ⟨ch, r.ctx, (ctxOf s r.ctx).part, 0x7FFF, 0, r.cmd⟩

def MvCx.req (x : MvCx) (ctx : BitVec 12) (va : Word) (acc : Access) : TrReq :=
  { owner := .chan x.ch, user := .mover, ctx := ctx, va := va, acc := acc, queue := x.q, head := x.head }

/-- The channel's KEYID may be used (R343). -/
def mvKeyOk (s : State) (x : MvCx) : Bool :=
  let k := (chan s x.ch).keyId.toNat
  if k = 0 then !(partOf s x.part).conf
  else decide ((keySlot s k).st = .active ∧ keyPart s k = some x.part)

/-- Send a remote operation of a channel. -/
def mvSend (s : State) (x : MvCx) (node op : Nat) (owner : ROwner) (addr arg0 : Nat) (data : List Byte) : Sent :=
  if mvKeyOk s x then sendRequest s node op (chan s x.ch).keyId.toNat x.part owner addr arg0 0 data else .fail

def badTr (st : Byte) (d : BitVec 32) : Byte × Byte × BitVec 32 := (if st = stBusError then mcBus else mcTranslation, st, d)

/-- A source byte: where the execution has overwritten it, its line may show the value from before (R349). -/
def srcByte (s : State) (e : Exec) (pa : Nat) : Byte :=
  match Tab.find? e.old pa with
  | some v => if Config.freeBit s.free (pa / 64) then v else s.mem.byte s.free pa
  | none => s.mem.byte s.free pa

/-- The home has completed the hinted writes to these lines (R346). -/
def hintsDone (s : State) (lines : List Nat) : Bool :=
  let hinted (r : HomeReq) : Bool := match r.op with
    | .hint _ _ => lines.contains (r.addr / 64)
    | _ => false
  !(s.ch.trans.any fun t => hinted t.2.req) && !(s.ch.queue.any hinted)

/-- The home has completed the hinted writes of a channel's run to `n` bytes at `a`: what reads or writes them otherwise waits
for that (R346, R349). -/
def hintsClear (s : State) (ch a n : Nat) : Bool :=
  match (chan s ch).run with
  | some r => hintsDone s (r.hints.filter fun l => (linesOf a n).contains l)
  | none => true

/-- The first failed request of a plan of reads, with its address. -/
def readPlan (v : Via) (bus : Bus) : List (Nat × Nat) → State → State × Option (Nat × BusStatus)
  | [], s => (s, none)
  | r :: t, s =>
    let x := readReq v bus (addRd s r.2) r.1 r.2
    if x.2 = .ok then readPlan v bus t x.1 else (x.1, some (r.1, x.2))

/-- Read the next block of the source (R341, R348): the bytes join the holding register; a failure ends the stream where
it stands. -/
def pull (s : State) (bus : Bus) (x : MvCx) (busy : Bool) (e : Exec) (w p len : Nat) : State × Exec × IoRes :=
  let k := e.kr
  let k1 := blkEnd e.src w p len k
  let va := strAddr e.src w p k
  let n := strOff w p k (k1 - 1) + 1
  match e.got with
  | some bs =>
    (s, { e with got := none, kr := k1, buf := e.buf ++ (range k (k1 - k)).map fun j => bs.getD (strOff w p k j) 0 }, .done)
  | none =>
    let t := translate s bus (x.req e.rctx va .read)
    match t.2 with
    | .ok pa pte _ =>
      if pteRM pte then
        if busy then (s, e, .wait)
        else match mvSend t.1 x (pteNode pte) opRRead (.chRead x.ch k) pa n [] with
          | .ok s' id => (addRd s' n, { e with rd := some id }, .wait)
          | .full => (s, e, .wait)
          | .fail => (t.1, { e with bad := some (mcRemote, stRemote, nodeDetail (pteNode pte)) }, .done)
      else if !hintsClear t.1 x.ch pa n then (s, e, .wait)
      else
        let v := { mvReadVia t.1 x.ch x.part with born := some x.cmd }
        let r := readPlan v bus (rowPlan pa n) t.1
        let good (j : Nat) : Bool := match r.2 with
          | some f => decide (pa + strOff w p k j < f.1)
          | none => true
        let ks := (range k (k1 - k)).takeWhile good
        let e := { e with kr := k + ks.length, buf := e.buf ++ ks.map fun j => srcByte r.1 e (pa + strOff w p k j) }
        match r.2 with
        | some f => (r.1, { e with bad := some (mcBus, stBusError, busDetail r.1 v f.2) }, .done)
        | none => (r.1, e, .done)
    | .copy _ _ _ => (t.1, { e with bad := some (mcTranslation, stTranslation, 0xFFFFFFFF) }, .done)
    | .held h => (t.1, { e with held := some h }, .held h)
    | .ended st d _ => (t.1, { e with bad := some (badTr st d) }, .done)
    | .wait => (t.1, e, .wait)

/-- Note the values that bytes have before the execution writes them. -/
def keepOld (s : State) (e : Exec) (pas : List Nat) : Tab Byte :=
  pas.foldl (fun t a => if (Tab.find? t a).isSome then t else Tab.insert t a (s.mem.byte s.free a)) e.old

/-- Write a plan of requests: the address of the first that failed. -/
def writePlan (v : Via) (bus : Bus) (bytes : List (Nat × Byte)) : List (Nat × Nat) → State → State × Option (Nat × BusStatus)
  | [], s => (s, none)
  | r :: t, s =>
    let own := bytes.filter fun b => decide (r.1 ≤ b.1 ∧ b.1 < r.1 + r.2)
    let x := writeReq v bus s r.1 r.2 own
    if x.2 = .ok then writePlan v bus bytes t (addWr x.1 own.length) else (x.1, some (r.1, x.2))

/-- Write the lines of a block as hinted writes at the home (R346, R381). -/
def hintLines (bus : Bus) (x : MvCx) (port : Nat) (bytes : List (Nat × Byte)) : List Nat → State → State × Option (Nat × BusStatus)
  | [], s => (s, none)
  | l :: t, s =>
    let v := { homeVia s (some x.part) none l with born := some x.cmd }
    let own := bytes.filter fun b => decide (b.1 / 64 = l)
    let st := lineStatus s v bus l false
    if st = .ok then
      let at_ (i : Nat) : Option Byte := (own.find? fun b => decide (b.1 = 64 * l + i)).map (·.2)
      let data := (List.range 64).map fun i => (at_ i).getD 0
      let en := (List.range 64).map fun i => (at_ i).isSome
      let s := homeRequest s ⟨.hint data en, port, 0, 64 * l, false, some x.part⟩ bus
      hintLines bus x port bytes t (addWr (updRun s x.ch fun r => { r with hints := r.hints ++ [l] }) own.length)
    else
      let s := { s with mem := if mayIssue s v l then s.mem.failMany own else s.mem }
      (reportBus s v st (64 * l) 1, some (64 * l, st))

/-- Lines whose hint is dropped are counted (R346). -/
def dropHints (s : State) (w : Word) (n : Nat) : State :=
  if mHint w then { s with mv := { s.mv with hintDropped := s.mv.hintDropped + BitVec.ofNat 64 n } } else s

/-- Byte `k` of a stream lies in a line that the bytes before it have counted. -/
def lineBefore (d : Word) (w p k : Nat) : Nat :=
  if 0 < k ∧ (strAddr d w p (k - 1)).toNat / 64 = (strAddr d w p k).toNat / 64 then 1 else 0

/-- Write the next part of the stream that is at hand, at a device virtual address (R341, R344, R346, R348). -/
def pushVa (s : State) (bus : Bus) (x : MvCx) (e : Exec) (w p len : Nat) : State × Exec × IoRes :=
  let w0 := e.words.headD 0
  let k := e.k
  let va := strAddr e.dst w p k
  let kd := min (blkEnd e.dst w p len k) e.kr
  let t := translate s bus (x.req x.ctx va .write)
  match t.2 with
  | .ok pa pte _ =>
    if pteRM pte then
      let k2 := min (runEnd e.dst w p len k) e.kr
      match mvSend t.1 x (pteNode pte) opRWrite (.chWrite x.ch k) pa 0 (e.buf.take (k2 - k)) with
      | .ok s' id =>
        (dropHints (addWr s' (k2 - k)) w0 ((linesOf pa (k2 - k)).length - lineBefore e.dst w p k),
          { e with k := k2, buf := e.buf.drop (k2 - k), acks := e.acks ++ [(id, k)] }, .done)
      | .full => (s, e, .wait)
      | .fail => (t.1, e, .bad mcRemote stRemote (nodeDetail (pteNode pte)))
    else
      let bytes := (range k (kd - k)).map fun j => (pa + strOff w p k j, e.buf.getD (j - k) 0)
      let n := strOff w p k (kd - 1) + 1
      let old := keepOld t.1 e (bytes.map (·.1))
      let fin (s : State) (v : Via) (f : Option (Nat × BusStatus)) : State × Exec × IoRes :=
        match f with
        | none => (s, { e with k := kd, buf := e.buf.drop (kd - k), old := old }, .done)
        | some f =>
          let good := ((range k (kd - k)).takeWhile fun j => decide (pa + strOff w p k j < f.1)).length
          (s, { e with k := k + good, buf := e.buf.drop good, old := old }, .bad mcBus stBusError (busDetail s v f.2))
      if mHint w0 && decide (pteMT pte = 0 ∧ t.1.ch.st = .up) && corePresent t.1 (mHintPort w0) then
        let rd := homeReady t.1 pa n true (some x.part) bus
        if !rd.2 then (rd.1, e, .wait)
        else
          let r := hintLines bus x (mHintPort w0) bytes (dedupNat (bytes.map fun b => b.1 / 64)) rd.1
          fin r.1 (homeVia r.1 (some x.part) none (pa / 64)) r.2
      else if !hintsClear t.1 x.ch pa n then (s, e, .wait)
      else
        let v := { mvWriteVia t.1 x.ch x.part with born := some x.cmd }
        let r := writePlan v bus bytes (rowPlan pa n) (dropHints t.1 w0 ((dedupNat (bytes.map fun b => b.1 / 64)).length - lineBefore e.dst w p k))
        fin r.1 v r.2
  | .copy _ _ _ => (t.1, e, .bad mcTranslation stTranslation 0xFFFFFFFF)
  | .held h => (t.1, { e with held := some h }, .held h)
  | .ended st d _ => let b := badTr st d; (t.1, e, .bad b.1 b.2.1 b.2.2)
  | .wait => (t.1, e, .wait)

/-- The payload of a RESULT record that carries bytes for an offset of the tenant's buffer: whole 64 B units from a multiple
of 64, since OFFSET and LEN must be (R85). The bytes that fill up are free: the spec gives no value (log entry 88). -/
def resultPlain (s : State) (a : Nat) (data : List Byte) : List Byte :=
  let fill (lo n : Nat) : List Byte := (range lo n).map fun i => (Config.freeWord s.free (2 ^ 46 + i)).setWidth 8
  let lead := fill 0 (a % 64) ++ data
  lead ++ fill lead.length ((64 - lead.length % 64) % 64)

/-- Bytes that a sealed return needs in the bounce ring for stream bytes at an address, in units of 64 B. -/
def resultUnits (a n : Nat) : Nat := ceilDiv (a % 64 + n) 64 + 1

/-- Write the next part of the stream to the host of the context's function, or of another node (R342); of a context in
sealed-return mode, as a RESULT record of the command's queue (R97). -/
def pushHost (s : State) (x : MvCx) (e : Exec) (w p len : Nat) : State × Exec × IoRes :=
  let w0 := e.words.headD 0
  let k := e.k
  let a := strAddr e.dst w p k
  let k2 := min (runEnd e.dst w p len k) e.kr
  let data := e.buf.take (k2 - k)
  let on := { e with k := k2, buf := e.buf.drop (k2 - k) }
  if mKind w0 = 1 ∧ (ctxOf s x.ctx).sret = true then
    match sealedReturn s x.ctx (x.q.toNat % 8) 0x11 (a.toNat / 64 * 64) (resultPlain s a.toNat data) with
    | some s' => (addWr s' (k2 - k), { on with host := true }, .done)
    | none => (s, e, .wait)
  else if mKind w0 = 1 then
    if fnIssues s (ctxFn s x.ctx) then
      let port := (ctxFn s x.ctx).port
      let s := hostWrite s x.ctx port .result a data
      (addWr (updRun s x.ch fun r => { r with ports := usedPort r.ports port a }) (k2 - k), { on with host := true }, .done)
    else (s, e, .wait)
  else
    let w4 := e.words.getD 4 0
    match mvSend s x (bits w4 9 0) opRWrite (.chWrite x.ch k) a.toNat (1 + bits w4 27 16 * 2 ^ 16) data with
    | .ok s' id => (addWr s' (k2 - k), { on with acks := e.acks ++ [(id, k)] }, .done)
    | .full => (s, e, .wait)
    | .fail => (s, e, .bad mcRemote stRemote (nodeDetail (bits w4 9 0)))

/-- Take a COPY or ZERO execution as far as it goes. -/
def streamLoop (bus : Bus) (x : MvCx) (busy : Bool) : Nat → State → Exec → State × Exec × IoRes
  | 0, s, e => (s, e, .wait)
  | fuel + 1, s, e =>
    let w0 := e.words.headD 0
    let w3 := e.words.getD 3 0
    let len := mLen w0
    let dw := mDw w0
    let dp := pitchOf (bits w3 63 32) dw
    if e.k = len then (s, e, .done)
    else
      let k1 := if mKind w0 = 0 then blkEnd e.dst dw dp len e.k else runEnd e.dst dw dp len e.k
      if e.kr < k1 ∧ e.bad = none then
        if mMode w0 = 1 then
          streamLoop bus x busy fuel s { e with kr := k1, buf := e.buf ++ List.replicate (k1 - e.kr) 0 }
        else
          let r := pull s bus x busy e (mSw w0) (pitchOf (bits w3 31 0) (mSw w0)) len
          match r.2.2 with
          | .done => streamLoop bus x busy fuel r.1 r.2.1
          | _ => r
      else if e.k = e.kr then
        match e.bad with
        | some b => (s, e, .bad b.1 b.2.1 b.2.2)
        | none => (s, e, .wait)
      else
        let r := if mKind w0 = 0 then pushVa s bus x e dw dp len else pushHost s x e dw dp len
        match r.2.2 with
        | .done => streamLoop bus x busy fuel r.1 r.2.1
        | _ => r

/-- An atomic of `n` bytes at the home: the old value (R345, R379, R380). -/
def homeRmw (v : Via) (bus : Bus) (s : State) (a n aop opnd cmp : Nat) : State × BusStatus × Nat :=
  let r := homeRead v bus s a n
  if r.2.1 ≠ .ok then (r.1, r.2.1, 0)
  else
    let old := leNat r.2.2
    let w := homeWrite v bus r.1 a (leBytes n (atomicOp aop old opnd cmp (8 * n)))
    ({ w.1 with ch := { w.1.ch with atomics := w.1.ch.atomics + 1 } }, w.2, old)

/-- The middle of an ATOMIC: the operation at its target. -/
def atomicMid (s : State) (bus : Bus) (x : MvCx) (e : Exec) : State × Exec × IoRes :=
  let w0 := e.words.headD 0
  let n := mLen w0
  let back (old : List Byte) : Exec :=
    { e with stage := 2, got := none, k := 0, kr := n, buf := padTo n old, dst := e.src }
  match e.got with
  | some bs => (s, back bs, .done)
  | none =>
    let t := translate s bus (x.req x.ctx e.dst .atomic)
    match t.2 with
    | .ok pa pte _ =>
      if pteRM pte then
        match mvSend t.1 x (pteNode pte) opRAtomic (.chAtomic x.ch) pa (mAop w0 + flagAt (mSize16 w0) 4) e.buf with
        | .ok s' id => (s', { e with rd := some id }, .wait)
        | .full => (s, e, .wait)
        | .fail => (t.1, e, .bad mcRemote stRemote (nodeDetail (pteNode pte)))
      else if pteMT pte ≠ 0 then (t.1, e, .bad mcTarget stBadField 0)
      else
        let rd := homeReady t.1 pa n true (some x.part) bus
        if !rd.2 then (rd.1, e, .wait)
        else
          let v := { homeVia rd.1 (some x.part) none (pa / 64) with born := some x.cmd }
          let r := homeRmw v bus rd.1 pa n (mAop w0) (leAt e.buf 0 n) (leAt e.buf n n)
          if r.2.1 = .ok then (r.1, back (leBytes n r.2.2), .done)
          else (r.1, e, .bad mcBus stBusError (busDetail r.1 v r.2.1))
    | .copy _ _ _ => (t.1, e, .bad mcTranslation stTranslation 0xFFFFFFFF)
    | .held h => (t.1, { e with held := some h }, .held h)
    | .ended st d _ => let b := badTr st d; (t.1, e, .bad b.1 b.2.1 b.2.2)
    | .wait => (t.1, e, .wait)

/-- Take an ATOMIC execution as far as it goes (R345). -/
def atomicLoop (bus : Bus) (x : MvCx) (busy : Bool) : Nat → State → Exec → State × Exec × IoRes
  | 0, s, e => (s, e, .wait)
  | fuel + 1, s, e =>
    let w0 := e.words.headD 0
    let n := if mAop w0 = 9 then 2 * mLen w0 else mLen w0
    let r : State × Exec × IoRes :=
      if e.stage = 0 then
        match e.bad with
        | some b => (s, e, .bad b.1 b.2.1 b.2.2)
        | none =>
          if e.kr < n then pull s bus x busy e 1 1 n else (s, { e with stage := 1 }, .done)
      else if e.stage = 1 then atomicMid s bus x e
      else pushVa s bus x e 1 1 (mLen w0)
    match r.2.2 with
    | .done => if r.2.1.stage = 2 ∧ r.2.1.k = mLen w0 then r else atomicLoop bus x busy fuel r.1 r.2.1
    | _ => r

/-- Take an execution as far as it goes. -/
def runExec (bus : Bus) (x : MvCx) (busy : Bool) (s : State) (e : Exec) : State × Exec × IoRes :=
  if mMode (e.words.headD 0) = 2 then atomicLoop bus x busy 16 s e
  else streamLoop bus x busy (4 * mLen (e.words.headD 0) + 4) s e

/-! ### Runs -/

/-- A run ends with a status once its requests have been answered; its pending SIGNALs are not performed. -/
def failRun (s : State) (ch : Nat) (st : Byte) (d : BitVec 32) : State :=
  updChan s ch fun c =>
    match c.run with
    | some r =>
      if c.st = .aborting then c
      else { c with st := .ending, run := some { r with
        fail := if r.fail.isNone then some (st, d) else r.fail, sigs := [], cur := none, io := none, wait := none, held := none } }
    | none => c

def updStat (s : State) (ch m : Nat) (f : StatWord → StatWord) : State :=
  updRun s ch fun r => { r with stat := Tab.upd {} r.stat m f }

/-- An execution goes BAD (R357 to R359). -/
def markBad (s : State) (ch m : Nat) (cause : Byte) : State :=
  let s := updStat s ch m fun w =>
    { w with st := 2, cause := if w.st = 2 then w.cause else cause, bads := if w.bads.toNat < 0xFFFF then w.bads + 1 else w.bads }
  { s with mv := { s.mv with bad := s.mv.bad + 1 } }

/-- A BAD execution ends the run where STOP_ON_BAD is set (R358). `done` counts the bytes written before it. -/
def badExec (s : State) (ch : Nat) (e : Exec) (cause st : Byte) (d : BitVec 32) : State :=
  let s := markBad s ch e.m cause
  match (chan s ch).run with
  | some r =>
    if r.stopOnBad ∧ r.fail.isNone then
      failRun (updRun s ch fun r => { r with done := e.base + e.k }) ch st d
    else s
  | none => s

/-- An execution has finished. -/
def doneExec (s : State) (ch m : Nat) : State := updStat s ch m fun w => if w.st = 0 then { w with st := 1 } else w

/-- The next instruction. -/
def advance (r : Run) : Run := { r with pc := r.pc + mvLen (r.prog.getD r.pc 0) }

/-- Earlier executions of the run await remote acknowledgements (R349). -/
def Run.busy (r : Run) : Bool := r.execs.any fun e => e.acks ≠ []

/-- The current execution has been issued: the next instruction follows. -/
def closeCur (s : State) (ch : Nat) (e : Exec) : State :=
  updRun s ch fun r => { advance r with
    cur := none, hostMs := if e.host then r.hostMs ++ [e.m] else r.hostMs, done := r.done + e.k }

/-- Take the current execution as far as it goes. -/
def stepCur (s : State) (bus : Bus) (ch : Nat) : State :=
  match (chan s ch).run with
  | none => s
  | some r =>
    match r.cur with
    | none => s
    | some e =>
      if e.held.isSome ∨ e.rd.isSome then s
      else
        let o := runExec bus (mvCx s ch r) r.busy s e
        let e := o.2.1
        let s := o.1
        match o.2.2 with
        | .held _ | .wait => updRun s ch fun r => { r with cur := some e }
        | .bad c st d => badExec (closeCur s ch e) ch e c st d
        | .done =>
          let s := closeCur s ch e
          if e.acks = [] then doneExec s ch e.m else updRun s ch fun r => { r with execs := r.execs ++ [e] }

/-! ### Status words and the end of a run (R355, R358 to R361) -/

def StatWord.word (w : StatWord) : Nat :=
  w.st.toNat + w.cause.toNat * 2 ^ 8 + w.bads.toNat * 2 ^ 16 + w.execs.toNat * 2 ^ 32

/-- The execution that writes the status words (R359). -/
def statExec (ch : Nat) (r : Run) : Exec :=
  let bytes := (List.range r.moves).flatMap fun m => leBytes 8 (Tab.get {} r.stat m).word
  { m := 0, words := [BitVec.ofNat 64 (bytes.length * 2 ^ 32 + 1)], rctx := r.ctx, src := 0
    dst := BitVec.ofNat 64 (r.statVa + if r.chanStat then 8 * r.moves * ch else 0), kr := bytes.length, buf := bytes }

/-- No remote operation of a channel is outstanding. -/
def chQuiet (s : State) (ch : Nat) : Bool :=
  !s.bl.reqs.any fun e => match e.2.owner with
    | .chWrite c _ | .chRead c _ | .chAtomic c | .chSignal c => decide (c = ch)
    | _ => false

/-- Take the writing of the status words as far as it goes: none while it is under way, else how it ended. -/
def statStep (s : State) (bus : Bus) (ch : Nat) : State × Option (Option (Byte × BitVec 32)) :=
  match (chan s ch).run with
  | none => (s, none)
  | some r =>
    if r.statVa = 0 ∨ r.moves = 0 then (s, some none)
    else
      let e := r.io.getD (statExec ch r)
      if e.held.isSome then (s, none)
      else
        let o := runExec bus (mvCx s ch r) false s e
        match o.2.2 with
        | .held _ | .wait => (updRun o.1 ch fun r => { r with io := some o.2.1 }, none)
        | .bad _ st d => (updRun o.1 ch fun r => { r with io := none }, some (some (st, d)))
        | .done =>
          if o.2.1.acks = [] then (updRun o.1 ch fun r => { r with io := none }, some none)
          else (updRun o.1 ch fun r => { r with io := some o.2.1 }, none)

/-- The run is over: its pins go, its command ends, its channel is IDLE. -/
def finishRun (s : State) (bus : Bus) (ch : Nat) (r : Run) : State :=
  let ended (s : State) : State :=
    let ab := decide ((chan s ch).st = .aborting)
    let s := updCmd s r.cmd fun c => { c with ports := r.ports.foldl (fun l p => usedPort l p.1 p.2) c.ports }
    let s := if r.builtin then setProgress s r.cmd (r.done / 64) else s
    let s := if ab then { s with mv := { s.mv with aborted := s.mv.aborted + 1 } } else s
    let s := updChan s ch fun c => { c with st := .idle, run := none }
    if ab then endCmd s r.cmd stAborted 0
    else match r.fail with
      | some (st, d) => endCmd s r.cmd st d
      | none => endCmd s r.cmd (if r.flushBad then stFlushFailed else stOk) 0
  match forAll (fun i => do let _ ← attempt (unpinObj bus i)) r.pins s with
  | .ok _ s' => ended s'
  | .error .wait s' => waitBack s s'
  | .error _ s' => ended s'

/-- Take a run that is ending or aborting as far as it goes. -/
def settleRun (s : State) (bus : Bus) (ch : Nat) : State :=
  match (chan s ch).run with
  | none => s
  | some r =>
    if ¬((chan s ch).st = .ending ∨ (chan s ch).st = .aborting) ∨ r.held.isSome ∨ r.flushes ≠ []
        ∨ (r.io = none ∧ (chQuiet s ch = false ∨ hintsDone s r.hints = false)) then s
    else if r.fail.isNone ∧ (chan s ch).st = .ending ∧ (r.sigs ≠ [] ∨ r.last.isNone) then s
    else if r.wrote then finishRun s bus ch r
    else
      let w := statStep s bus ch
      match w.2 with
      | none => w.1
      | some f =>
        let s := updRun w.1 ch fun r => { r with wrote := true, fail := if r.fail.isNone then f else r.fail }
        match (chan s ch).run with
        | some r => finishRun s bus ch r
        | none => s

/-- ABORT of the issuing context (R360). -/
def abortRun (s : State) (bus : Bus) (ch : Nat) : State :=
  match (chan s ch).run with
  | none => s
  | some r =>
    let ms := (r.cur.toList ++ r.execs).map (·.m)
    let s := each (fun s m => updStat s ch m fun w => if w.st = 2 then w else { w with st := 3 }) s ms
    let s := updChan s ch fun c => { c with st := .aborting, run := c.run.map fun r =>
      { r with cur := none, io := none, execs := [], sigs := [], wait := none, held := none, fence := none, wrote := false } }
    settleRun s bus ch

/-- Teardown of the partition ends the run on a channel (R361): nothing more is written. Its pins and the host ports that it
used go with its command, whose record still waits for the flush reads of them (R27). -/
def killRun (s : State) (ch : Nat) : State :=
  match (chan s ch).run with
  | none => s
  | some r =>
    let s := updCmd s r.cmd fun c => { c with
      pins := c.pins ++ r.pins, ports := r.ports.foldl (fun l p => usedPort l p.1 p.2) c.ports }
    let s := { s with mv := { s.mv with aborted := s.mv.aborted + 1 } }
    endCmd (updChan s ch fun c => { c with st := .idle, run := none }) r.cmd stAborted 0

/-- A run that waits for its channel ends without starting (R360). -/
def dropWaitingRun (s : State) (id : Nat) : State :=
  let s := { s with mv := { s.mv with aborted := s.mv.aborted + 1, chans := s.mv.chans.map fun e =>
    (e.1, { e.2 with queue := e.2.queue.filter (· ≠ id) }) } }
  endCmd s id stAborted 0

/-! ### Answers to a run's requests -/

/-- A flush read of a channel is over (R351, R353, R357). -/
def chanFlushed (s : State) (bus : Bus) (ch fl : Nat) (ok : Bool) : State :=
  match (chan s ch).run with
  | none => s
  | some r =>
    match r.flushes.find? fun f => f.1 = fl with
    | none => s
    | some (_, ms) =>
      let s := updRun s ch fun r => { r with
        flushes := r.flushes.filter fun f => f.1 ≠ fl
        sigs := (if ok then r.sigs else r.sigs.filter fun g => !g.flush.contains fl).map fun g =>
          { g with flush := g.flush.filter (· ≠ fl) }
        fence := r.fence.map fun l => l.filter (· ≠ fl), last := r.last.map fun l => l.filter (· ≠ fl)
        flushBad := r.flushBad || !ok }
      let s := if ok then s else
        let s := each (fun s m => markBad s ch m mcFlush) s ms
        if r.stopOnBad then failRun s ch stFlushFailed 0 else s
      settleRun s bus ch

/-- A remote read or atomic of a channel has answered. -/
def chanData (s : State) (bus : Bus) (ch id : Nat) (data : List Byte) : State :=
  let give (e : Exec) : Exec := if e.rd = some id then { e with rd := none, got := some data } else e
  settleRun (stepCur (updRun s ch fun r => { r with cur := r.cur.map give, io := r.io.map give }) bus ch) bus ch

/-- A remote write of a channel has been acknowledged. -/
def chanAck (s : State) (bus : Bus) (ch id : Nat) : State :=
  let take (e : Exec) : Exec := { e with acks := e.acks.filter fun a => a.1 ≠ id }
  match (chan s ch).run with
  | none => s
  | some r =>
    let fin := r.execs.filter fun e => e.acks ≠ [] ∧ (take e).acks = []
    let s := updRun s ch fun r => { r with
      cur := r.cur.map take, io := r.io.map take, execs := (r.execs.map take).filter fun e => e.acks ≠ [] }
    settleRun (each (fun s e => doneExec s ch e.m) s fin) bus ch

/-- A REMOTE_SIGNAL of a channel has been acknowledged (R310, R351). -/
def chanSignalled (s : State) (bus : Bus) (ch id : Nat) (stale : Bool) : State :=
  match (chan s ch).run with
  | none => s
  | some r =>
    if r.sigs.any fun g => g.sent = some id then
      let s := if stale then staleSignal s r.ctx else s
      settleRun (updRun s ch fun r => { r with sigs := r.sigs.filter fun g => g.sent ≠ some id }) bus ch
    else s

/-- A remote operation of a channel has failed at a node (R353, R357). -/
def chanLost (s : State) (bus : Bus) (ch id node : Nat) : State :=
  let b : Byte × Byte × BitVec 32 := (mcRemote, stRemote, nodeDetail node)
  match (chan s ch).run with
  | none => s
  | some r =>
    let cut (e : Exec) : Option Nat := (e.acks.find? fun a => a.1 = id).map (·.2)
    let s :=
      if r.sigs.any fun g => g.sent = some id then failRun s ch stRemote (nodeDetail node)
      else match r.cur with
        | some e =>
          if e.rd = some id then
            if e.stage = 1 then badExec (updRun s ch fun r => { advance r with cur := none }) ch e mcRemote stRemote (nodeDetail node)
            else stepCur (updRun s ch fun r => { r with cur := some { e with rd := none, bad := some b } }) bus ch
          else match cut e with
            | some k => badExec (updRun s ch fun r => { advance r with cur := none }) ch { e with k := k } mcRemote stRemote (nodeDetail node)
            | none => s
        | none => s
    let s := match r.execs.find? fun e => (cut e).isSome with
      | some e =>
        badExec (updRun s ch fun r => { r with execs := r.execs.filter fun x => (cut x).isNone }) ch
          { e with k := (cut e).getD 0 } mcRemote stRemote (nodeDetail node)
      | none => s
    let s := match r.io with
      | some e =>
        if e.rd = some id ∨ (cut e).isSome then
          let s := updRun s ch fun r => { r with io := none, wrote := true }
          failRun s ch stRemote (nodeDetail node)
        else s
      | none => s
    settleRun s bus ch

/-! ### COPY and RUN_CHANNEL (R331, R333, R335, R416) -/

/-- Queue a run at a channel. -/
def queueRun (id ch : Nat) : Act Unit :=
  modify fun s => updCmd (updChan s ch fun c => { c with queue := c.queue ++ [id] }) id fun c =>
    { c with phase := .running, work := .mover ch }

def chanCount (s : State) : Nat := s.build.channels

/-- Runs that wait at or hold a channel. -/
def chanLoad (c : Channel) : Nat := c.queue.length

def copyAct (id : Nat) (c : Cmd) : Act Unit := do
  let s ← get
  let host := bit (c.raw.w 4) 0
  let x := ctxOf s c.ctx
  need (decide (bits (c.raw.w 3) 37 0 ≠ 0) && !(host && x.conf && !x.sret)) stBadField
  let cs := (List.range (chanCount s)).filter fun k => (chan s k).copy && decide (chanPart s k = some c.part)
  match sortBy (fun a b => decide (chanLoad (chan s a) ≤ chanLoad (chan s b))) cs with
  | k :: _ => queueRun id k
  | [] => failWith stState

def execCopy (id : Nat) (s : State) : Res := .next (runCmd s id opCopy (copyAct id))

/-- Every page of an object is mapped with M set (R416). -/
def allMeasured (bus : Bus) (o : Obj) : Act Bool := do
  let lo := o.va / 4096 * 4096
  let ls ← leavesOf false bus o.ctx lo (o.va + o.size)
  pure (covers lo (o.va + o.size) ls && ls.all fun l => pteM l.pte)

def runChannelAct (bus : Bus) (id : Nat) (c : Cmd) : Act Unit := do
  let s ← get
  let k := bits (c.raw.w 2) 5 0
  need (decide (k < chanCount s ∧ chanPart s k = some c.part)) stBadField
  if (ctxOf s c.ctx).conf then do
    let o ← objGet bus (hIndex (c.raw.w 1))
    let m ← allMeasured bus o
    need m stState
  queueRun id k

def execRunChannel (id : Nat) (bus : Bus) (s : State) : Res := .next (runCmd s id opRunChannel (runChannelAct bus id))

/-! ### CHANNEL_RUN_START (R334) -/

/-- The execution that loads `n` bytes of a program. -/
def loadExec (ctx : BitVec 12) (va n : Nat) : Exec :=
  { m := 0, words := [BitVec.ofNat 64 (n * 2 ^ 32 + 1)], rctx := ctx, src := BitVec.ofNat 64 va, dst := 0 }

/-- Read until the bytes of a load are at hand. -/
def loadLoop (bus : Bus) (x : MvCx) : Nat → State → Exec → State × Exec × IoRes
  | 0, s, e => (s, e, .wait)
  | fuel + 1, s, e =>
    match e.bad with
    | some b => (s, e, .bad b.1 b.2.1 b.2.2)
    | none =>
      if mLen (e.words.headD 0) ≤ e.kr then (s, e, .done)
      else
        let r := pull s bus x false e 1 1 (mLen (e.words.headD 0))
        match r.2.2 with
        | .done => loadLoop bus x fuel r.1 r.2.1
        | _ => r

/-- Pin the events of a loaded program, each under R130. -/
def pinEvents (bus : Bus) (ch : Nat) (part : BitVec 3) (hs : List Word) : Act Unit :=
  forAll (fun h => do
    let _ ← lookupHandle bus h [tyEvent] part false
    pinObj bus (hIndex h)
    modify fun s => updRun s ch fun r => { r with pins := r.pins ++ [hIndex h] }) hs

/-- The words of a loaded program. -/
def wordsOf (bs : List Byte) (n : Nat) : List Word := (List.range n).map fun i => BitVec.ofNat 64 (leAt bs (64 + 8 * i) 8)

/-- The program is at hand: check it, pin its events, and run. -/
def startProg (s : State) (bus : Bus) (ch : Nat) (r : Run) (size : Nat) (bs : List Byte) : State :=
  let n := leAt bs 0 4
  let ws := wordsOf bs n
  let x := ctxOf s r.ctx
  if !headerOk (bs.take 64) size ∨ !progScan s (x.sret || x.conf) (leAt bs 4 2) (n + 1) ws 0 0 0 then
    failRun (updRun s ch fun r => { r with wrote := true, io := none }) ch stBadField 0
  else
    let go (s : State) : State :=
      updChan s ch fun c => { c with st := .running, run := c.run.map fun r =>
        { r with io := none, prog := ws, moves := leAt bs 4 2, chanStat := (byteAt bs 6).testBit 0
                 stopOnBad := (byteAt bs 6).testBit 1, statVa := leAt bs 8 8 } }
    let s1 := updRun s ch fun r => { r with pins := [] }
    match pinEvents bus ch (mvCx s ch r).part (progEvents (n + 1) ws) s1 with
    | .ok _ s' => go s'
    | .error .wait s' => waitBack s s'
    | .error (.ended st d) s' => failRun (updRun s' ch fun r => { r with wrote := true, io := none }) ch st d
    | .error _ s' => s'

/-- Take the load of a program as far as it goes. -/
def loadRun (s : State) (bus : Bus) (ch : Nat) : State :=
  match (chan s ch).run with
  | none => s
  | some r =>
    match cmdOf s r.cmd with
    | none => s
    | some c =>
      if c.raw.opcode = opCopy then
        let len := bits (c.raw.w 3) 37 0
        let ws := copyProg (c.raw.w 1) (c.raw.w 2) (bit (c.raw.w 4) 0) 129 len
        updChan s ch fun c => { c with st := .running, run := c.run.map fun r =>
          { r with prog := ws, moves := (ws.length - 1) / 4, builtin := true, stopOnBad := true } }
      else
        let m : Act (Obj × Nat) := do
          let o ← objGet bus (hIndex (c.raw.w 1))
          pure (o, o.size)
        match m s with
        | .error .wait s' => waitBack s s'
        | .error (.ended st d) s' => failRun (updRun s' ch fun r => { r with wrote := true }) ch st d
        | .error _ s' => s'
        | .ok (o, size) s =>
          let e := r.io.getD (loadExec o.ctx o.va 64)
          if e.held.isSome ∨ e.rd.isSome then s
          else
            let step (s : State) (e : Exec) : State × Exec × IoRes := loadLoop bus (mvCx s ch r) (2 * mLen (e.words.headD 0) + 4) s e
            let o1 := step s e
            let want := min 8256 (64 + 8 * leAt o1.2.1.buf 0 4)
            let o2 := match o1.2.2 with
              | .done => if headerOk (o1.2.1.buf.take 64) size ∧ mLen (o1.2.1.words.headD 0) < want
                  then step o1.1 { o1.2.1 with words := [BitVec.ofNat 64 (want * 2 ^ 32 + 1)] } else o1
              | _ => o1
            let s := updRun o2.1 ch fun r => { r with io := some o2.2.1 }
            match o2.2.2 with
            | .held _ | .wait => s
            | .bad _ st d => failRun (updRun s ch fun r => { r with wrote := true, io := none }) ch st d
            | .done => startProg s bus ch r size o2.2.1.buf

def execChannelRunStart (ch : Nat) (bus : Bus) (s : State) : Res :=
  if !runsWork s then .next s
  else
    let c := chan s ch
    match c.st, c.queue with
    | .loading, _ => .next (settleRun (loadRun s bus ch) bus ch)
    | .idle, id :: t =>
      match cmdOf s id with
      | none => .next (updChan s ch fun c => { c with queue := t })
      | some cmd =>
        let r : Run := { cmd := id, ctx := cmd.ctx, arg0 := cmd.raw.w 3, arg1 := cmd.raw.w 4 }
        let s := updChan s ch fun c => { c with queue := t, st := .loading, run := some r }
        .next (settleRun (loadRun s bus ch) bus ch)
    | _, _ => .next s

/-! ### The instructions of a program -/

/-- Run an instruction row: the channel is RUNNING and its next instruction has this opcode. -/
def onInstr (s : State) (ch op : Nat) (f : Run → State) : State :=
  match (chan s ch).run with
  | none => s
  | some r =>
    if runsWork s ∧ (chan s ch).st = .running ∧ r.pc < r.prog.length ∧ mvOp (r.prog.getD r.pc 0) = op then f r else s

/-- The address of a side of a MOVE (R340). -/
def moveAddr (r : Run) (w : Word) (add : Bool) (arg : Word) (stride : LoopFr → BitVec 32) : Word :=
  r.loops.foldl (fun a l => a + BitVec.ofNat 64 l.idx * sext32 (stride l)) (w + if add then arg else 0)

/-- The number of MOVE instructions before a word of the program. -/
def moveIndex : Nat → List Word → Nat → Nat
  | 0, _, _ => 0
  | fuel + 1, ws, n =>
    match ws with
    | [] => 0
    | w :: _ => if n = 0 then 0 else (if mvOp w = 1 then 1 else 0) + moveIndex fuel (ws.drop (mvLen w)) (n - mvLen w)

/-- A MOVE whose addresses are not aligned as R345 and R347 ask. -/
def misaligned (e : Exec) : Bool :=
  let w0 := e.words.headD 0
  if mMode w0 = 2 then decide (e.src.toNat % mLen w0 ≠ 0 ∨ e.dst.toNat % mLen w0 ≠ 0)
  else decide (e.dst.toNat % mDw w0 ≠ 0) || (decide (mMode w0 = 0) && decide (e.src.toNat % mSw w0 ≠ 0))

/-- A new execution of the MOVE at the channel's pc. -/
def newExec (r : Run) : Exec :=
  let ws := (r.prog.drop r.pc).take 5
  let w0 := ws.headD 0
  { m := moveIndex (r.pc + 1) r.prog r.pc, words := ws, rctx := r.ctx, base := r.done
    src := moveAddr r (ws.getD 1 0) (bit w0 18) r.arg0 (·.ss), dst := moveAddr r (ws.getD 2 0) (bit w0 19) r.arg1 (·.ds) }

/-- MOVE (R336, R340 to R349, R357). -/
def execMove (ch : Nat) (bus : Bus) (s : State) : Res :=
  .next (settleRun (onInstr s ch 1 fun r =>
    match r.cur with
    | some _ => stepCur s bus ch
    | none =>
      if 8 ≤ r.execs.length then s
      else
        let e := newExec r
        let s := updStat s ch e.m fun w => { w with execs := if w.execs.toNat < 0xFFFFFFFF then w.execs + 1 else w.execs }
        if misaligned e then badExec (updRun s ch advance) ch e mcAlign stBadField 0
        else stepCur (updRun s ch fun r => { r with cur := some e }) bus ch) bus ch)

/-- The word after the ENDLOOP that matches a LOOP. -/
def skipLoop (ws : List Word) : Nat → Nat → Nat → Nat
  | 0, pc, _ => pc
  | fuel + 1, pc, depth =>
    let w := ws.getD pc 0
    let next := pc + mvLen w
    if ws.length ≤ pc then pc
    else if mvOp w = 3 then (if depth = 0 then next else skipLoop ws fuel next (depth - 1))
    else skipLoop ws fuel next (if mvOp w = 2 then depth + 1 else depth)

/-- LOOP (R338). -/
def execLoop (ch : Nat) (s : State) : Res :=
  .next (onInstr s ch 2 fun r =>
    let w := r.prog.getD r.pc 0
    let x := r.prog.getD (r.pc + 1) 0
    if bits w 63 32 = 0 then updRun s ch fun r => { r with pc := skipLoop r.prog r.prog.length (r.pc + 2) 0 }
    else updRun s ch fun r => { advance r with
      loops := ⟨r.pc + 2, bits w 63 32, 0, BitVec.ofNat 32 (bits x 31 0), BitVec.ofNat 32 (bits x 63 32)⟩ :: r.loops })

/-- ENDLOOP (R338). -/
def execEndloop (ch : Nat) (s : State) : Res :=
  .next (onInstr s ch 3 fun r =>
    match r.loops with
    | [] => updRun s ch advance
    | l :: t =>
      if l.idx + 1 < l.count then updRun s ch fun r => { r with pc := l.body, loops := { l with idx := l.idx + 1 } :: t }
      else updRun s ch fun r => { advance r with loops := t })

/-- The channel's NOP. -/
def execChannelNop (ch : Nat) (s : State) : Res := .next (onInstr s ch 0 fun _ => updRun s ch advance)

/-- TARGET or VALUE with its additions (R339). -/
def sigValue (r : Run) : Word :=
  let w := r.prog.getD r.pc 0
  let li := match r.loops with
    | l :: _ => l.idx
    | [] => 0
  r.prog.getD (r.pc + 2) 0 + (if bit w 8 then r.arg1 else 0) + (if bit w 11 then BitVec.ofNat 64 li else 0)

/-- The value of an event at a physical address, for a command. -/
def eventValue (bus : Bus) (part : BitVec 3) (cmd : Nat) (a : Nat) : Act Nat := do
  let s ← get
  let bs ← homeGet { engineVia part s a with born := some cmd } bus a 8
  pure (leNat bs)

/-- Where an action of a run stopped. -/
def stopRun (ch : Nat) (s : State) (e : Stop) : State :=
  match e with
  | .held k => updRun s ch fun r => { r with held := some k }
  | .ended st d => failRun s ch st d
  | .remote _ _ => failRun s ch stTranslation 0xFFFFFFFF
  | .wait => s

/-- The WAIT of a channel is satisfied: decoding goes on. -/
def waitMet (s : State) (ch : Nat) : State :=
  updChan s ch fun c => { c with st := .running, run := c.run.map fun r => { advance r with wait := none } }

/-- Look at a pending WAIT of a channel (R149, R354). -/
def chanEval (s : State) (bus : Bus) (ch : Nat) : State :=
  match (chan s ch).run with
  | none => s
  | some r =>
    match r.wait with
    | none => s
    | some w =>
      runAct (eventValue bus (mvCx s ch r).part r.cmd w.addr) s
        (fun s v => if w.target.toNat ≤ v then waitMet s ch else s) (stopRun ch)

/-- CHANNEL_WAIT (R354): the event is translated once, in the issuing context (R333), and decoding stops until it satisfies the
WAIT; one that would wait while its context is being disabled ends the run (R115; log entry 98). -/
def execChannelWait (ch : Nat) (bus : Bus) (s : State) : Res :=
  .next (settleRun (onInstr s ch 4 fun r =>
    if r.held.isSome then s
    else
      let w := r.prog.getD r.pc 0
      let ev := r.prog.getD (r.pc + 1) 0
      let m : Act (Nat × Nat) := do
        let o ← objGet bus (hIndex ev)
        let t ← trAct bus { (mvCx s ch r).req r.ctx (BitVec.ofNat 64 o.va) .read with user := .engine }
        let v ← eventValue bus o.part r.cmd t.1
        pure (t.1, v)
      runAct m s (fun s av =>
        if (sigValue r).toNat ≤ av.2 then waitMet s ch
        else if (ctxOf s r.ctx).disabling then failRun s ch stAborted 0
        else
          let cw : ChWait :=
            { event := hIndex ev, addr := av.1, target := sigValue r
              limit := if bits w 63 32 = 0 then none else some (s.tick + 1000 * bits w 63 32) }
          updChan s ch fun c => { c with st := .waiting, run := c.run.map fun r => { r with wait := some cw } })
        (stopRun ch)) bus ch)

/-- CHANNEL_WAIT_TIMEOUT (R149, R354): a WAIT that the event's value satisfies goes on; the run of another ends. -/
def execChannelWaitTimeout (ch : Nat) (s : State) : Res :=
  match (chan s ch).run with
  | none => .next s
  | some r =>
    match r.wait with
    | none => .next s
    | some w =>
      match w.limit with
      | none => .next s
      | some t =>
        .next (if runsWork s then
          settleRun (runAct (eventValue [] (mvCx s ch r).part r.cmd w.addr) (reach s t)
            (fun s v => if w.target.toNat ≤ v then waitMet s ch else failRun s ch stTimeout 0)
            (fun s _ => failRun s ch stTimeout 0)) [] ch
        else s)

/-- The flush reads of a channel must wait: the function of its context issues no requests (R108). -/
def flushWaits (s : State) (r : Run) : Bool := !r.ports.isEmpty && !fnIssues s (ctxFn s r.ctx)

/-- Send the flush reads that a SIGNAL, a FENCE or the STOP needs (R94, R351). -/
def chanFlush (s : State) (ch : Nat) : State × List Nat :=
  match (chan s ch).run with
  | none => (s, [])
  | some r =>
    let o := r.ports.foldl (fun (x : State × List Nat) p =>
      let f := startFlush x.1 r.ctx p.1 p.2 (.chan ch)
      ({ f.1 with mv := { f.1.mv with flushes := f.1.mv.flushes + 1 } }, x.2 ++ [f.2])) (s, [])
    (updRun o.1 ch fun r => { r with
      ports := [], hostMs := [], flushes := r.flushes ++ o.2.map fun f => (f, r.hostMs) }, o.2)

/-- CHANNEL_SIGNAL (R351, R352): the SIGNAL becomes pending, unless four are. -/
def execChannelSignal (ch : Nat) (s : State) : Res :=
  .next (onInstr s ch 5 fun r =>
    if 4 ≤ r.sigs.length ∨ flushWaits s r = true then s
    else
      let w := r.prog.getD r.pc 0
      let f := chanFlush s ch
      let sig : PendSig :=
        { event := r.prog.getD (r.pc + 1) 0, value := sigValue r, remote := bit w 9, node := bits w 25 16, status := bit w 10
          after := r.execs.flatMap fun e => e.acks.map (·.1), hints := r.hints, flush := f.2, sent := none }
      updRun f.1 ch fun r => { advance r with sigs := r.sigs ++ [sig] })

/-- Set the event of a SIGNAL whose conditions are met. -/
def setSignal (s : State) (bus : Bus) (ch : Nat) (r : Run) (g : PendSig) : State :=
  let x := mvCx s ch r
  if g.remote then
    match mvSend s x g.node opRSignal (.chSignal ch) g.event.toNat g.value.toNat [] with
    | .ok s' id => updRun s' ch fun r => { r with sigs := match r.sigs with
        | h :: t => { h with sent := some id } :: t
        | [] => [] }
    | .full => s
    | .fail => failRun s ch stRemote (nodeDetail g.node)
  else
    let m : Act Unit := do
      let o ← objGet bus (hIndex g.event)
      signalIn bus r.ctx o g.event g.value r.ctx (x.req r.ctx 0 .atomic)
    runAct m s (fun s _ => updRun s ch fun r => { r with sigs := r.sigs.tail }) (stopRun ch)

/-- CHANNEL_SIGNAL_SET (R351 to R353, R359). -/
def execChannelSignalSet (ch : Nat) (bus : Bus) (s : State) : Res :=
  match (chan s ch).run with
  | none => .next s
  | some r =>
    match r.sigs with
    | [] => .next s
    | g :: _ =>
      let open_ (id : Nat) : Bool := s.bl.reqs.any fun e => decide (e.2.id = id)
      if !runsWork s ∨ r.held.isSome ∨ g.sent.isSome ∨ g.flush ≠ [] ∨ g.after.any open_ ∨ hintsDone s g.hints = false
          ∨ (chan s ch).st = .aborting then .next s
      else if g.status then
        let w := statStep s bus ch
        match w.2 with
        | none => .next w.1
        | some (some f) => .next (settleRun (failRun (updRun w.1 ch fun r => { r with wrote := true }) ch f.1 f.2) bus ch)
        | some none =>
          let s := updRun w.1 ch fun r => { r with sigs := match r.sigs with
            | h :: t => { h with status := false } :: t
            | [] => [] }
          .next (settleRun (setSignal s bus ch r { g with status := false }) bus ch)
      else .next (settleRun (setSignal s bus ch r g) bus ch)

/-- Every write and atomic of the run so far is acknowledged (R350). -/
def acked (s : State) (r : Run) : Bool := r.execs.isEmpty && hintsDone s r.hints

/-- FENCE (R350): READ finds every earlier read returned; the others wait for the acknowledgements, HOST for its flush. -/
def execFence (ch : Nat) (s : State) : Res :=
  .next (onInstr s ch 6 fun r =>
    let mode := bits (r.prog.getD r.pc 0) 9 8
    if mode = 0 then updRun s ch advance
    else if !acked s r then s
    else if mode ≠ 3 then updRun s ch advance
    else match r.fence with
      | some [] => updRun s ch fun r => { advance r with fence := none }
      | some _ => s
      | none =>
        if flushWaits s r then s else
        let f := chanFlush s ch
        if f.2 = [] then updRun f.1 ch advance else updRun f.1 ch fun r => { r with fence := some f.2 })

/-- STOP (R355), and what is left of a run that ends or aborts: the row goes as far as the answers that have come allow. -/
def execStop (ch : Nat) (bus : Bus) (s : State) : Res :=
  if !runsWork s then .next s
  else
    let s := onInstr s ch 7 fun r =>
      if !acked s r || flushWaits s r then s
      else
        let f := chanFlush s ch
        updChan f.1 ch fun c => { c with st := .ending, run := c.run.map fun r => { r with last := some f.2 } }
    .next (settleRun s bus ch)

end Sys2Proof.Machine
end

