-- ==== Sys2Proof/Machine/Remote.lean ====
section
/-! DEFINITION. Remote operations (spec file 10): the commands REMOTE_WRITE and REMOTE_SIGNAL, the requests that this node
serves, the responses, and the requests that fail. -/

namespace Sys2Proof.Machine

open Sys2Proof

/-! ### The commands (R306, R310, R311) -/

def remOf (c : Cmd) : Option RemWork :=
  match c.work with
  | .remote w => some w
  | _ => none

/-- Change the remote work of a command; PROGRESS is the first byte that is not acknowledged (R306). -/
def updRem (s : State) (id : Nat) (f : RemWork → RemWork) : State :=
  updCmd s id fun c =>
    match c.work with
    | .remote w =>
      let w := f w
      { c with work := .remote w, progress := if c.raw.opcode = opRemoteWrite then w.acks.foldl min w.sent else c.progress }
    | _ => c

/-- The mover read port on which a command reads (DEDUCED: the first; the spec names none). -/
def cmdReadVia (s : State) (part : BitVec 3) : Via := mvReadVia s 0 part

def rwNode (c : Cmd) : Nat := bits (c.raw.w 1) 57 48
def rwKey (c : Cmd) : Nat := bits (c.raw.w 4) 7 0
def rwLen (c : Cmd) : Nat := (c.raw.w 3).toNat

/-- The source bytes of the next message, `need` of them: true once they are all at hand. -/
def remFill (bus : Bus) (id : Nat) (c : Cmd) (need : Nat) : Nat → Act Bool
  | 0 => pure false
  | fuel + 1 => do
    let s ← get
    match (cmdOf s id).bind remOf with
    | none => pure false
    | some w =>
      if w.rd.isSome then pure false
      else if need ≤ w.got.length then pure true
      else if c.raw.w 2 = 0 then do
        modify fun s => updRem s id fun w => { w with got := (c.raw.pips.drop w.sent).take need }
        pure true
      else do
        let va := c.raw.w 2 + BitVec.ofNat 64 (w.sent + w.got.length)
        let n := min (4096 - va.toNat % 4096) (need - w.got.length)
        let t ← trAct bus (cmdReq id c .mover va .read)
        if pteRM t.2.1 then do
          let s ← get
          match sendRequest s (pteNode t.2.1) opRRead (rwKey c) c.part (.fetch id) t.1 n 0 [] with
          | .ok s' rid => do
            set s'
            modify fun s => updRem s id fun w => { w with rd := some (rid, n) }
            pure false
          | .full => pure false
          | .fail => failWith stRemote (nodeDetail (pteNode t.2.1))
        else do
          let s ← get
          let v := cmdReadVia s c.part
          let r := memRead v bus s t.1 n
          set r.1
          if r.2.1 ≠ .ok then failWith stBusError (busDetail r.1 v r.2.1)
          modify fun s => updRem s id fun w => { w with got := w.got ++ r.2.2 }
          remFill bus id c need fuel

/-- Send the messages of a REMOTE_WRITE, each within a 4 KiB page of its destination (R303). -/
def remSend (bus : Bus) (id : Nat) (c : Cmd) : Nat → Act Unit
  | 0 => pure ()
  | fuel + 1 => do
    let s ← get
    match (cmdOf s id).bind remOf with
    | none => pure ()
    | some w =>
      if rwLen c ≤ w.sent then do
        modify fun s => updCmd s id fun c => { c with phase := .running }
        if w.acks = [] then okCmd id
      else do
        let dst := bits (c.raw.w 1) 57 0 + w.sent
        let n := min (4096 - dst % 4096) (rwLen c - w.sent)
        let rdy ← remFill bus id c n 4
        if rdy then do
          let s ← get
          let data := (((cmdOf s id).bind remOf).map (·.got)).getD []
          match sendRequest s (rwNode c) opRWrite (rwKey c) c.part (.write id w.sent) dst 0 0 data with
          | .ok s' _ => do
            set s'
            modify fun s => updRem s id fun w => { w with sent := w.sent + n, acks := w.acks ++ [w.sent], got := [] }
            remSend bus id c fuel
          | .full => pure ()
          | .fail => failWith stRemote (nodeDetail (rwNode c))
        else pure ()

def remStart : Work := .remote ⟨0, [], [], none⟩

/-- REMOTE_WRITE (R306). -/
def remoteWriteAct (bus : Bus) (id : Nat) (c : Cmd) : Act Unit := do
  let s ← get
  if (remOf c).isNone then do
    need (decide (1 ≤ rwLen c ∧ rwLen c ≤ 2 ^ 30 ∧ rwNode c ≠ s.bl.nodeId.toNat ∧ bits (c.raw.w 1) 63 58 = 0) &&
      decide (c.raw.w 2 = 0 → rwLen c ≤ 960) && keyOk s (rwKey c) c.ctx c.part) stBadField
    modify fun s => updCmd s id fun c => { c with work := remStart }
  remSend bus id c (rwLen c / 4096 + 3)

def execRemoteWrite (id : Nat) (bus : Bus) (s : State) : Res := .next (runCmd s id opRemoteWrite (remoteWriteAct bus id))

/-- An earlier REMOTE_WRITE of the queue to the node has not been sent to its end (R311). -/
def remBehind (s : State) (id : Nat) (c : Cmd) (node : Nat) : Bool :=
  s.qe.cmds.any fun e => decide (e.1 < id ∧ e.2.ctx = c.ctx ∧ e.2.q = c.q ∧ e.2.raw.opcode = opRemoteWrite ∧ rwNode e.2 = node) &&
    (match e.2.phase with
      | .dispatched | .held _ => true
      | _ => false)

/-- REMOTE_SIGNAL (R310). -/
def remoteSignalAct (id : Nat) (c : Cmd) : Act Unit := do
  let node := bits (c.raw.w 3) 9 0
  let key := bits (c.raw.w 3) 23 16
  let s ← get
  need (decide (node ≠ s.bl.nodeId.toNat) && keyOk s key c.ctx c.part) stBadField
  if remBehind s id c node then pure ()
  else
    match sendRequest s node opRSignal key c.part (.signal id) (c.raw.w 1).toNat (c.raw.w 2).toNat 0 [] with
    | .ok s' _ => set (updCmd s' id fun c => { c with work := remStart, phase := .running })
    | .full => pure ()
    | .fail => failWith stRemote (nodeDetail node)

def execRemoteSignal (id : Nat) (s : State) : Res := .next (runCmd s id opRemoteSignal (remoteSignalAct id))

/-! ### Requests that fail (R312) -/

/-- An outstanding request has failed: what it belongs to ends (R306, R312, R326, R353). -/
def reqLost (s : State) (bus : Bus) (r : RReq) (st : Byte) : State :=
  let node := r.node.toNat
  let d := if st = stRemote then nodeDetail node else 0
  match r.owner with
  | .write id _ | .signal id | .fetch id => endCmd s id stRemote (nodeDetail node)
  | .chWrite ch _ | .chRead ch _ | .chAtomic ch | .chSignal ch => chanLost s bus ch r.id node
  | .pool id _ _ =>
    match bagOf s id with
    | some w => bagFail s bus id st d 0 (w.failSrc 0)
    | none => s

/-- End every outstanding request that a condition picks. -/
def failReqs (s : State) (bus : Bus) (p : RReq → Bool) : State :=
  let lost := s.bl.reqs.filter fun e => p e.2
  let s := { s with bl := { s.bl with reqs := s.bl.reqs.filter fun e => !p e.2 } }
  each (fun s e => reqLost s bus e.2 stRemote) s lost

/-- REMOTE_PATIENCE_EXPIRE (R312). -/
def execRemotePatienceExpire (node : BitVec 10) (req : BitVec 12) (bus : Bus) (s : State) : Res :=
  let k := node.toNat * 4096 + req.toNat
  match Tab.find? s.bl.reqs k with
  | none => .next s
  | some r =>
    if !runsWork s then .next s
    else
      let s := reach s (r.tick + 1000 * s.bl.patience.toNat)
      let s := { s with bl := { s.bl with timeouts := s.bl.timeouts + 1 } }
      .next (reqLost (dropReq s k) bus r stRemote)

/-! ### Responses (R303, R304) -/

def late (s : State) : State := { s with bl := { s.bl with late := s.bl.late + 1 } }

/-- Take a response of a kind out of the inbox; one that answers no outstanding request is dropped and counted. -/
def onResponse (s : State) (m op : Nat) (f : State → Msg → Nat → RReq → Option State) : Res :=
  match Tab.find? s.bl.inbox m with
  | none => .next s
  | some msg =>
    if msg.op.toNat ≠ op ∨ runsWork s = false then .next s
    else
      let s := dropMsg s m
      match reqOf s msg with
      | none => .next (late s)
      | some (k, r) =>
        match f (dropReq s k) msg k r with
        | some s' => .next s'
        | none => .next (late s)

/-- The data of a message. -/
def Msg.data (m : Msg) : List Byte := (m.payload.drop 32).take (leAt m.payload 4 4)
def Msg.arg0 (m : Msg) : Nat := leAt m.payload 16 8
def Msg.arg1 (m : Msg) : Nat := leAt m.payload 24 8
def Msg.addr (m : Msg) : Nat := leAt m.payload 8 8
def Msg.part (m : Msg) : BitVec 3 := BitVec.ofNat 3 (byteAt m.payload 2)
def Msg.status (m : Msg) : Nat := byteAt m.payload 3
def Msg.req (m : Msg) : BitVec 12 := BitVec.ofNat 12 (leAt m.payload 0 2)
def Msg.len (m : Msg) : Nat := leAt m.payload 4 4

/-- READ_DATA (R308). -/
def execReadData (m : Nat) (bus : Bus) (s : State) : Res :=
  onResponse s m opReadData fun s msg _ r =>
    match r.owner with
    | .chRead ch _ => some (chanData s bus ch r.id msg.data)
    | .fetch id => some (updRem s id fun w =>
        match w.rd with
        | some (rid, n) => if rid = r.id then { w with rd := none, got := w.got ++ padTo n msg.data } else w
        | none => w)
    | _ => none

/-- ATOMIC_RESULT (R309). -/
def execAtomicResult (m : Nat) (bus : Bus) (s : State) : Res :=
  onResponse s m opAtomicResult fun s msg _ r =>
    match r.owner with
    | .chAtomic ch => some (chanData s bus ch r.id msg.data)
    | _ => none

/-- The records of a POOL_PARTIAL (R324). -/
def partials (shard dim : Nat) : Nat → List Byte → List (Nat × Piece)
  | 0, _ => []
  | n + 1, bs =>
    (leAt bs 0 2 % 4096,
      ⟨shard, leAt bs 4 2 % 2 ^ 14, leAt bs 2 2 % 2048, (List.range dim).map fun i => BitVec.ofNat 32 (leAt bs (16 + 4 * i) 4)⟩) ::
      partials shard dim n (bs.drop (16 + 4 * dim))

/-- POOL_PARTIAL (R324, R325). -/
def execPoolPartial (m : Nat) (s : State) : Res :=
  onResponse s m opPoolPartial fun s msg _ r =>
    match r.owner with
    | .pool id shard records =>
      match bagOf s id with
      | none => none
      | some w =>
        let s := each (fun s x => pieceArrive s [] id x.1 x.2) s (partials shard w.dim (min records (msg.arg1 / 2 ^ 16 % 2 ^ 16)) msg.data)
        some (sendPools s [] id)
    | _ => none

/-- The acknowledgement of one message of a command. -/
def cmdAck (s : State) (id off : Nat) : State :=
  let s := updRem s id fun w => { w with acks := w.acks.filter (· ≠ off) }
  match cmdOf s id with
  | some c =>
    match remOf c with
    | some w => if c.phase = .running ∧ w.acks = [] then endCmd s id stOk 0 else s
    | none => s
  | none => s

/-- ACK (R306, R307, R310). -/
def execAck (m : Nat) (bus : Bus) (s : State) : Res :=
  onResponse s m opAck fun s msg _ r =>
    let stale := decide (msg.arg0 % 2 = 1)
    match r.owner with
    | .write id off => some (cmdAck s id off)
    | .signal id =>
      match cmdOf s id with
      | some c => some (endCmd (if stale then staleSignal s c.ctx else s) id stOk 0)
      | none => some s
    | .chWrite ch _ => some (chanAck s bus ch r.id)
    | .chSignal ch => some (chanSignalled s bus ch r.id stale)
    | _ => none

/-- NACK (R304, R326). -/
def execNack (m : Nat) (bus : Bus) (s : State) : Res :=
  onResponse s m opNack fun s msg _ r =>
    let s := { s with bl := { s.bl with nackRx := s.bl.nackRx + 1 } }
    some (reqLost s bus r (if msg.status = 8 then stKeyFault else stRemote))

/-! ### Requests that this node serves (R305, R307 to R310) -/

/-- Answer a request with a NACK. -/
def nackMsg (s : State) (msg : Msg) (code : Nat) : State :=
  sendNack s msg.src.toNat msg.key.toNat msg.req.toNat msg.part code

/-- The common header of a request is well formed: its reserved fields and its length (R301). -/
def reqFormat (msg : Msg) : Bool :=
  decide (32 ≤ msg.payload.length ∧ leAt msg.payload 0 2 < 4096 ∧ byteAt msg.payload 2 < 8 ∧ msg.status = 0
    ∧ msg.payload.length = 32 + 16 * ceilDiv msg.len 16)

/-- Check 1 of R305. -/
def partChecks (s : State) (msg : Msg) : Bool :=
  if msg.key = 0 then decide (msg.part.toNat < s.build.partitions) && !(partOf s msg.part).conf
  else decide (keyPart s msg.key.toNat = some msg.part)

/-- Checks 2 and 3 of R305 over `n` bytes at a fabric address. -/
def rangeChecks (s : State) (m : Nat) (msg : Msg) (a n : Nat) : Bool :=
  decide (a / 2 ^ 48 = s.bl.nodeId.toNat) &&
    (linesOf (a % 2 ^ 48) n).all fun l => partCoversAt s msg.part (some m) (64 * l)

/-- The address range does not cross a 4 KiB boundary. -/
def inPage (a n : Nat) : Bool := decide (a % 4096 + n ≤ 4096)

/-- A write, read or signal that came earlier from the same source has not been served (R311). -/
def reqBehind (s : State) (m : Nat) (msg : Msg) : Bool :=
  s.bl.inbox.any (fun e => decide (e.1 < m ∧ e.2.src = msg.src) && [opRWrite, opRRead, opRSignal].contains e.2.op.toNat) ||
    (decide (msg.op.toNat = opRSignal) && s.bl.served.any fun e =>
      decide (e.1 < m ∧ e.2.src = msg.src ∧ e.2.msg.op.toNat = opRWrite))

/-- Serve a request of a kind from the inbox. -/
def onRequest (s : State) (m op : Nat) (f : Msg → State) : Res :=
  match Tab.find? s.bl.inbox m with
  | none => .next s
  | some msg => .next (if msg.op.toNat = op ∧ runsWork s = true ∧ reqBehind s m msg = false then f msg else s)

/-- The served request under a number. -/
def servedOf (msg : Msg) : Served := ⟨msg.src, msg.req, msg.key, msg.part, msg, none, none, none⟩

/-- A write to host memory (R307): it is answered when its flush read completes. -/
def serveHost (s : State) (m : Nat) (msg : Msg) : State :=
  let c := BitVec.ofNat 12 (msg.arg0 / 2 ^ 16 % 4096)
  let x := ctxOf s c
  if x.st ≠ .enabled ∨ x.part ≠ msg.part ∨ x.sret = true ∨ ctxPart s c ≠ some msg.part then nackMsg (dropMsg s m) msg 5
  else if !fnIssues s (ctxFn s c) then s
  else
    let port := (ctxFn s c).port
    let a := BitVec.ofNat 64 msg.addr
    let s := hostWrite (dropMsg s m) c port .result a msg.data
    let s := { s with bl := { s.bl with served := Tab.insert s.bl.served m (servedOf msg) } }
    (startFlush s c port a (.served m)).1

/-- The flush of a served host write is over. -/
def servedFlushed (s : State) (id : Nat) (ok : Bool) : State :=
  match Tab.find? s.bl.served id with
  | none => s
  | some x =>
    if ok then
      let s := { s with bl := { s.bl with served := Tab.erase s.bl.served id } }
      sendResponse s x.src.toNat opAck x.key.toNat x.req.toNat x.part 0 0 0 []
    else nackServed s id x 7

/-- REMOTE_WRITE_REQUEST (R302, R305, R307): it writes on the first mover write port (DEDUCED: R328 names none). -/
def execRemoteWriteRequest (m : Nat) (bus : Bus) (s : State) : Res :=
  onRequest s m opRWrite fun msg =>
    let host := decide (msg.arg0 % 2 = 1)
    let n := msg.len
    if !(reqFormat msg && decide (1 ≤ n ∧ n ≤ 4096 ∧ msg.arg1 = 0) && inPage msg.addr n &&
        decide (msg.arg0 = (if host then 1 + msg.arg0 / 2 ^ 16 % 4096 * 2 ^ 16 else 0))) then nackMsg (dropMsg s m) msg 1
    else if !partChecks s msg then nackMsg (dropMsg s m) msg 2
    else if host then serveHost s m msg
    else if !rangeChecks s m msg msg.addr n then nackMsg (dropMsg s m) msg 2
    else
      let v := { mvWriteVia s 0 msg.part with born := some m }
      let a := msg.addr % 2 ^ 48
      let r := writePlan v bus (msg.data.zipIdx.map fun x => (a + x.2, x.1)) (rowPlan a n) (dropMsg s m)
      let s := { r.1 with mv := { r.1.mv with wrBytes := s.mv.wrBytes } }
      match r.2 with
      | none => sendResponse s msg.src.toNat opAck msg.key.toNat msg.req.toNat msg.part 0 0 0 []
      | some _ => nackMsg s msg 7

/-- REMOTE_READ_REQUEST (R302, R305, R308): it reads on the mover read port with the fewest outstanding beats (R328). -/
def execRemoteReadRequest (m : Nat) (bus : Bus) (s : State) : Res :=
  onRequest s m opRRead fun msg =>
    let n := msg.arg0
    if !(reqFormat msg && decide (1 ≤ n ∧ n ≤ 4096 ∧ msg.arg1 = 0 ∧ msg.len = 0) && inPage msg.addr n) then
      nackMsg (dropMsg s m) msg 1
    else if !partChecks s msg || !rangeChecks s m msg msg.addr n then nackMsg (dropMsg s m) msg 2
    else
      let v := { mvReadVia s 0 msg.part with
        port := gwBase s.build 3 + leastBusy s (gwBase s.build 3) (ceilDiv s.build.channels 16), born := some m }
      let a := msg.addr % 2 ^ 48
      let r := readPlan v bus (rowPlan a n) (dropMsg s m)
      let s1 := { r.1 with mv := { r.1.mv with rdBytes := s.mv.rdBytes } }
      match r.2 with
      | none =>
        sendResponse s1 msg.src.toNat opReadData msg.key.toNat msg.req.toNat msg.part 0 0 0 (s1.mem.bytes s1.free a n)
      | some _ => nackMsg s1 msg 7

/-- REMOTE_ATOMIC_REQUEST (R302, R305, R309). -/
def execRemoteAtomicRequest (m : Nat) (bus : Bus) (s : State) : Res :=
  onRequest s m opRAtomic fun msg =>
    let aop := msg.arg0 % 16
    let wide := decide (msg.arg0 / 16 % 2 = 1)
    let n := if wide then 16 else 8
    if !(reqFormat msg && decide (msg.arg0 < 32 ∧ aop ≤ 9 ∧ (wide = true → aop = 9) ∧ msg.arg1 = 0 ∧ msg.addr % n = 0
        ∧ msg.len = if aop = 9 then 2 * n else n)) then nackMsg (dropMsg s m) msg 1
    else if !partChecks s msg || !rangeChecks s m msg msg.addr n then nackMsg (dropMsg s m) msg 2
    else
      let a := msg.addr % 2 ^ 48
      let rd := homeReady s a n true (some msg.part) bus
      if !rd.2 then rd.1
      else
        let v := { homeVia rd.1 (some msg.part) none (a / 64) with born := some m }
        let r := homeRmw v bus (dropMsg rd.1 m) a n aop (leAt msg.data 0 n) (leAt msg.data n n)
        if r.2.1 = .ok then
          sendResponse r.1 msg.src.toNat opAtomicResult msg.key.toNat msg.req.toNat msg.part 0 0 0 (leBytes n r.2.2)
        else nackMsg r.1 msg 7

/-- Where the service of a request stopped: it waits at a fault slot, or is answered with a NACK. -/
def stopServed (m : Nat) (msg : Msg) (s : State) (e : Stop) : State :=
  match e with
  | .held k => { s with bl := { s.bl with served := Tab.insert s.bl.served m { servedOf msg with held := some k } } }
  | .ended st _ => nackMsg (dropMsg s m) msg (nackCode st)
  | .remote _ _ => nackMsg (dropMsg s m) msg 6
  | .wait => s

/-- The request is being served or waits at a fault slot. -/
def inService (s : State) (m : Nat) : Bool := (Tab.find? s.bl.served m).isSome

/-- The translation request of a served message. -/
def servedReq (m : Nat) (ctx : BitVec 12) (user : TrUser) (va : Nat) (acc : Access) : TrReq :=
  { owner := .served m, user := user, ctx := ctx, va := BitVec.ofNat 64 va, acc := acc }

/-- The signal at its destination (R148, R150, R310): whether it was stale. -/
def signalHere (bus : Bus) (m : Nat) (msg : Msg) : Act Bool := do
  let h := BitVec.ofNat 64 msg.addr
  let value := msg.arg0
  let o ← lookupHandle bus h [tyEvent] msg.part false
  let t ← trAct bus (servedReq m o.ctx .engine o.va .atomic)
  let s ← get
  let old ← homeSwap { engineVia o.part s t.1 with born := some m } bus t.1 (max value)
  if old < value ∧ value = 2 ^ 64 - 1 then
    modify fun s => note s { source := srcId 3 0 3, address := h, part := some o.part }
  pure (decide (value < old ∨ old = 2 ^ 64 - 1))

/-- REMOTE_SIGNAL_REQUEST (R302, R305, R310). -/
def execRemoteSignalRequest (m : Nat) (bus : Bus) (s : State) : Res :=
  onRequest s m opRSignal fun msg =>
    if inService s m then s
    else if !(reqFormat msg && decide (msg.len = 0 ∧ msg.arg1 = 0)) then nackMsg (dropMsg s m) msg 1
    else if !partChecks s msg then nackMsg (dropMsg s m) msg 2
    else runAct (signalHere bus m msg) s
      (fun s stale => sendResponse (dropMsg s m) msg.src.toNat opAck msg.key.toNat msg.req.toNat msg.part 0
        (if stale then 1 else 0) 0 [])
      (stopServed m msg)

/-! ### REMOTE_POOL at its owner (R320 to R323) -/

/-- A bag record of the request. -/
def poolRecAt (bs : List Byte) (i : Nat) : Nat × Nat × Nat :=
  (leAt bs (8 * i) 2, leAt bs (8 * i + 2) 2, leAt bs (8 * i + 4) 2)

def poolKeys (msg : Msg) : Nat := msg.arg1 % 2 ^ 16
def poolBags (msg : Msg) : Nat := msg.arg1 / 2 ^ 16 % 2 ^ 16
def poolDim (msg : Msg) : Nat := msg.arg0 / 2 ^ 16 % 2 ^ 13
def poolFmt (msg : Msg) : Option InFmt := InFmt.ofCode (msg.arg0 / 2 ^ 8 % 16)

/-- The fields and lengths of a REMOTE_POOL (R320, R321). -/
def poolFormat (msg : Msg) : Bool :=
  let keys := poolKeys msg
  let bags := poolBags msg
  let dim := poolDim msg
  let bs := msg.data
  let wsum := decide (msg.arg0 % 4 = rdWsum)
  reqFormat msg && decide (msg.arg0 &&& 0xC0000000E000F0F0 = 0 ∧ msg.arg1 < 2 ^ 32 ∧ 1 ≤ keys ∧ keys ≤ 1024 ∧ 1 ≤ bags
    ∧ 8 ≤ dim ∧ dim ≤ 4096 ∧ dim % 8 = 0 ∧ bags * (16 + 4 * dim) ≤ 65536
    ∧ msg.len = 16 * ceilDiv (8 * bags + 8 * keys + if wsum then 4 * keys else 0) 16) &&
  (match poolFmt msg with
    | some f => !(f.isMx && decide (dim % 32 ≠ 0))
    | none => false) &&
  ((List.range bags).all fun i =>
    let r := poolRecAt bs i
    decide (r.1 < 4096 ∧ 1 ≤ r.2.1 ∧ r.2.1 ≤ 1024 ∧ r.2.2 < 2 ^ 14 ∧ leAt bs (8 * i + 6) 2 = 0)) &&
  decide (((List.range bags).foldl (fun a i => a + (poolRecAt bs i).2.1) 0) = keys)

/-- The entries of a request, by record and position: keys, or row addresses. -/
def poolEnts (msg : Msg) (phys : Bool) : List (Nat × BagEnt) :=
  let bs := msg.data
  let bags := poolBags msg
  let keys := poolKeys msg
  let recs := (List.range bags).flatMap fun b => (List.range (poolRecAt bs b).2.1).map fun p => (b, p)
  (recs.zipIdx).map fun x =>
    let e := leAt bs (8 * bags + 8 * x.2) 8
    let wt := BitVec.ofNat 32 (leAt bs (8 * bags + 8 * keys + 4 * x.2) 4)
    (x.2, ⟨x.1.1, BitVec.ofNat 64 e, if msg.arg0 % 4 = rdWsum then wt else 0, 0, x.1.2, e, if phys then .row 0 else .lookup, false, [], 0, [], true⟩)

/-- The bag work of a request, but for what its table gives. -/
def poolWork (msg : Msg) : BagWork :=
  { part := msg.part, ctx := 0, owner := 0, q := msg.src.toNat, h := msg.req.toNat, user := 0, table := 0, keyed := false
    phys := true, version := 0, rows := 0, rowBytes := 0, region := 0, shard := 0, reduce := BitVec.ofNat 2 (msg.arg0 % 4)
    det := decide (msg.arg0 / 4 % 2 = 1), skip := false, inFmt := BitVec.ofNat 4 (msg.arg0 / 2 ^ 8 % 16), outFmt := 0
    dim := poolDim msg, dst := 0, tport := 0, tileRows := 0, bags := poolBags msg, ents := poolEnts msg true, segs := []
    accs := [], msgs := [], tile := 0, sent := true, accepted := 0
    js := (List.range (poolBags msg)).map fun b => (poolRecAt msg.data b).1 }

/-- Bytes that one row of a request needs. -/
def poolNeed (msg : Msg) : Nat := ((poolFmt msg).map fun f => f.needed (poolDim msg)).getD 0

/-- What an owner does with a keyed request: it waits for a flip, or has the work and the pin (R322). -/
def poolTable (bus : Bus) (m : Nat) (msg : Msg) : Act (Option (BagWork × Nat × Bool)) := do
  let h := BitVec.ofNat 64 msg.addr
  let o ← lookupHandle bus h [tyTable] msg.part false
  let t := tableDesc o.raw
  need (decide (t.keyVa ≠ 0)) stBadHandle
  let s ← get
  let st := (ctxOf s o.ctx).st
  need (decide (st = .enabled ∨ st = .faulted)) stState
  need (decide (poolNeed msg ≤ t.rowBytes)) stBadField
  let rq := servedReq m o.ctx .engine 0 .read
  let v ← vlineGet bus rq o
  let ver := msg.arg0 / 2 ^ 32 % 2 ^ 30
  let exact := decide (msg.arg0 / 8 % 2 = 1)
  if exact && decide (v.ver ≠ ver) then
    if v.pending && decide (v.ver + 1 = ver) then pure none else failWith stOk
  else do
    vlinePut bus rq (hIndex h) o (v.setPins v.slot (v.pins v.slot + 1))
    pure (some ({ poolWork msg with
      ctx := o.ctx, owner := o.ctx, table := BitVec.ofNat 32 (hIndex h), keyed := true, phys := false, version := v.ver
      rows := t.rows, rowBytes := t.rowBytes, region := t.region v.slot, ents := poolEnts msg false }, hIndex h, v.slot))

/-- Start the work of a served request. -/
def servePool (s : State) (bus : Bus) (m : Nat) (msg : Msg) (w : BagWork) (pin : Option (Nat × Bool)) : State :=
  let s := dropMsg s m
  let s := { s with bl := { s.bl with served := Tab.insert s.bl.served m { servedOf msg with bag := some w, vpin := pin } } }
  launchBag s bus m w

/-- REMOTE_POOL_REQUEST (R305, R322, R323). -/
def execRemotePoolRequest (m : Nat) (bus : Bus) (s : State) : Res :=
  onRequest s m opRPool fun msg =>
    if inService s m then s
    else if !poolFormat msg then nackMsg (dropMsg s m) msg 1
    else if !partChecks s msg then nackMsg (dropMsg s m) msg 2
    else if msg.addr = 0 then
      let w := poolWork msg
      if !w.ents.all fun e => rangeChecks s m msg (s.bl.nodeId.toNat * 2 ^ 48 + e.2.addr) (poolNeed msg) then
        nackMsg (dropMsg s m) msg 2
      else servePool s bus m msg { w with rowBytes := poolNeed msg } none
    else runAct (poolTable bus m msg) s
      (fun s r => match r with
        | some (w, i, slot) => servePool s bus m msg w (some (i, slot))
        | none => s)
      (fun s e => match e with
        | .ended st d => if st = stOk then nackMsg (dropMsg s m) msg 9 else stopServed m msg s (.ended st d)
        | e => stopServed m msg s e)

end Sys2Proof.Machine
end

