-- ==== Sys2Proof/Machine/Service.lean ====
section
/-! DEFINITION. The translation service ports (spec file 02, R47 to R49). -/

namespace Sys2Proof.Machine

open Sys2Proof

/-- The key of a tag of a port. -/
def tsKey (port tag : Nat) : Nat := port * 64 + tag

def dropTag (s : State) (port tag : Nat) : State := { s with tu := { s.tu with tags := Tab.erase s.tu.tags (tsKey port tag) } }
def putTag (s : State) (port tag : Nat) (t : TsTag) : State :=
  { s with tu := { s.tu with tags := Tab.insert s.tu.tags (tsKey port tag) t } }

/-- An answer that gives no translation: ABORTED 1, DENIED 2. -/
def tsRefuse (s : State) (port tag : Nat) (st : BitVec 2) : State := emit (dropTag s port tag) (.service port tag st 0 0 0 false)

/-- Translate for a tag and answer it, or hold it (R47). -/
def tsServe (s : State) (bus : Bus) (port tag : Nat) (x : TsTag) : State :=
  let t := translate s bus { owner := .service port tag, user := .service, ctx := x.ctx, va := x.va
                             acc := if x.wr then .write else .read }
  match t.2 with
  | .ok pa pte sz =>
    emit (putTag t.1 port tag { x with st := .given t.1.tick false, page := x.va.toNat >>> sz, sz := sz })
      (.service port tag 0 (BitVec.ofNat 46 (pa / 4096)) (BitVec.ofNat 2 (sizeClass sz)) (BitVec.ofNat 2 (pteMT pte)) (pteRM pte))
  | .held k => putTag t.1 port tag { x with st := .held k }
  | .wait => waitBack s t.1
  | _ => tsRefuse t.1 port tag 1

/-- TS_REQUEST (R47, R48): a tag that is still held breaks the engine's guarantee. -/
def execTsRequest (port tag : Nat) (va : BitVec 57) (ctx : BitVec 12) (wr : Bool) (bus : Bus) (s : State) : Res :=
  if s.build.tsPorts ≤ port ∨ 64 ≤ tag ∨ runsWork s = false then .next s
  else if (Tab.find? s.tu.tags (tsKey port tag)).isSome then .fault .guaranteeBroken
  else if (tsPart s port).isNone ∨ ctxPart s ctx ≠ tsPart s port then
    .next (tsRefuse (note s { source := srcId 12 port 0, part := tsPart s port }) port tag 2)
  else
    let r := fresh s
    .next (tsServe r.1 bus port tag ⟨r.2, va.setWidth 64, ctx, wr, .held 0, 0, 0⟩)

/-- TS_DONE (R48, R49): a tag that holds no translation breaks the engine's guarantee. -/
def execTsDone (port tag : Nat) (s : State) : Res :=
  if s.build.tsPorts ≤ port ∨ 64 ≤ tag ∨ s.tp.ready = false then .next s
  else match Tab.find? s.tu.tags (tsKey port tag) with
    | some x => match x.st with
      | .given _ _ => .next (dropTag s port tag)
      | .held _ => .fault .guaranteeBroken
    | none => .fault .guaranteeBroken

/-- Every user that some invalidation waits for (R168): of TU_INV_OP, of a pass, of a page copy, of a command. -/
def invWaiters (s : State) : List InvWait :=
  (match s.tu.inv with
    | some i => i.waits
    | none => []) ++ (s.tu.passes.flatMap fun p => p.waits) ++ (s.cows.flatMap fun e => e.2.waits.getD []) ++
  s.qe.cmds.flatMap fun e => match e.2.work with
    | .opening ws => ws
    | .abortInval _ ws => ws
    | .invalidating ws => ws
    | _ => []

/-- TS_HOLD_TIMEOUT (R49): one SEVERE fault for a tag that an invalidation waits on. -/
def execTsHoldTimeout (port tag : Nat) (s : State) : Res :=
  match Tab.find? s.tu.tags (tsKey port tag) with
  | none => .next s
  | some x => match x.st with
    | .given t false =>
      if (invWaiters s).contains (.ts x.id) then
        let s := reach s (t + 100000)
        let s := report s { source := srcId 12 port 1, address := x.va, ctx := some x.ctx, part := tsPart s port }
          (Config.masterId 12 port)
        .next (putTag s port tag { x with st := .given t true })
      else .next s
    | _ => .next s

/-- A fault slot that held a tag's request is retried, or ended. -/
def tsResume (s : State) (bus : Bus) (port tag : Nat) : State :=
  match Tab.find? s.tu.tags (tsKey port tag) with
  | some x => tsServe s bus port tag x
  | none => s

end Sys2Proof.Machine
end

