-- ==== Sys2Proof/Machine/Slots.lean ====
section
/-! DEFINITION. Held translation faults (spec file 05, R177 to R183): retries, aborts and patience; the invalidation
registers; walks, frame pools, page slices and Sloe. -/

namespace Sys2Proof.Machine

open Sys2Proof

def fltSlot (s : State) (k : Nat) : FltSlot := Tab.get {} s.tu.slots k
def updSlot (s : State) (k : Nat) (f : FltSlot → FltSlot) : State :=
  { s with tu := { s.tu with slots := Tab.upd {} s.tu.slots k f } }

/-! ### Retries (R180) -/

/-- A channel's run that waits at a slot may go on. -/
def chanRetry (s : State) (ch k : Nat) : State :=
  let free (e : Exec) : Exec := if e.held = some k then { e with held := none } else e
  updRun s ch fun r =>
    { r with cur := r.cur.map free, io := r.io.map free, held := if r.held = some k then none else r.held }

/-- A served message goes back to its inbox. -/
def servedRetry (s : State) (id k : Nat) : State :=
  match Tab.find? s.bl.served id with
  | some x => if x.held = some k then { s with bl := { s.bl with served := Tab.erase s.bl.served id } } else s
  | none => s

/-- The request of a slot walks again. -/
def resumeReq (s : State) (bus : Bus) (k : Nat) (r : TrReq) : State :=
  match r.owner with
  | .cmd id => updCmd s id fun c => if c.phase = .held k then { c with phase := .dispatched } else c
  | .chan ch => chanRetry s ch k
  | .window id =>
    match wwOf s id with
    | some w => if w.st = .held k then wwPump (wwAdvance s bus id) bus else s
    | none => s
  | .service port tag =>
    match Tab.find? s.tu.tags (tsKey port tag) with
    | some x => if x.st = .held k then tsServe s bus port tag x else s
    | none => s
  | .core port txn => coreResume s bus port txn
  | .ring c q =>
    if (queueOf s c q).held = some k then readAgain (updQueue s c q fun y => { y with held := none }) c q else s
  | .comp c q =>
    if (queueOf s c q).cqHeld = some k then compFlow (updQueue s c q fun y => { y with cqHeld := none }) bus c q else s
  | .served id => servedRetry s id k
  | .entry id e => resumeEnt s bus id e k
  | .signal id => trySignal s bus id
  | .free => s

/-! ### Aborts (R177, R180) -/

/-- A channel's run at a slot that is aborted: an execution goes BAD (R357); a program read, a status word or an event
ends the run. -/
def chanAbortSlot (s : State) (bus : Bus) (ch k : Nat) : State :=
  match (chan s ch).run with
  | none => s
  | some r =>
    let d := BitVec.ofNat 32 k
    let s := match r.cur with
      | some e => if e.held = some k then badExec (closeCur s ch e) ch e mcTranslation stTranslation d else s
      | none => s
    let s := if (r.io.bind (·.held)) = some k ∨ r.held = some k then failRun s ch stTranslation d else s
    settleRun s bus ch

/-- A served message at a slot that is aborted is answered TRANSLATION (R305). -/
def servedAbort (s : State) (id k : Nat) : State :=
  match Tab.find? s.bl.served id with
  | some x =>
    if x.held = some k then
      nackMsg (dropMsg { s with bl := { s.bl with served := Tab.erase s.bl.served id } } id) x.msg (nackCode stTranslation)
    else s
  | none => s

/-- The request of a slot ends. -/
def abortReq (s : State) (bus : Bus) (k : Nat) (r : TrReq) : State :=
  match r.owner with
  | .cmd id =>
    match cmdOf s id with
    | some c => if c.phase = .held k then endCmd s id stTranslation (BitVec.ofNat 32 k) else s
    | none => s
  | .chan ch => chanAbortSlot s bus ch k
  | .window id =>
    match wwOf s id with
    | some w => if w.st = .held k then wwPump (failWw s id aeTranslation true) bus else s
    | none => s
  | .service port tag =>
    match Tab.find? s.tu.tags (tsKey port tag) with
    | some x => if x.st = .held k then tsRefuse s port tag 1 else s
    | none => s
  | .core port txn => coreAbort s port txn
  | .ring c q =>
    if (queueOf s c q).held = some k then
      updQueue s c q fun y => { y with held := none, reading := false, parked := true, backoff := none }
    else s
  | .comp c q => if (queueOf s c q).cqHeld = some k then compFlow (compLost s c q) bus c q else s
  | .served id => servedAbort s id k
  | .entry id e => abortEnt s bus id e k stTranslation
  | .signal id => { s with qe := { s.qe with sigs := Tab.erase s.qe.sigs id } }
  | .free => s

/-- Retry a slot: it becomes free, and every request of it walks again. -/
def retrySlot (s : State) (bus : Bus) (k : Nat) : State :=
  let f := fltSlot s k
  if f.st = .held then
    each (fun s r => resumeReq s bus k r) (updSlot s k fun f => { f with st := .retried, reqs := [] }) f.reqs
  else s

/-- End a slot, by an abort or by its patience. -/
def endSlot (s : State) (bus : Bus) (k : Nat) (st : FltSt) : State :=
  let f := fltSlot s k
  if f.st = .held then
    each (fun s r => abortReq s bus k r) (updSlot s k fun f => { f with st := st, reqs := [] }) f.reqs
  else s

/-- The HELD slots of a context. -/
def heldSlots (s : State) (c : BitVec 12) : List Nat :=
  (s.tu.slots.filter fun e => decide (e.2.st = .held ∧ e.2.ctx = c)).map (·.1)

def retryCtx (s : State) (bus : Bus) (c : BitVec 12) : State := each (fun s k => retrySlot s bus k) s (heldSlots s c)
def abortCtx (s : State) (bus : Bus) (c : BitVec 12) : State := each (fun s k => endSlot s bus k .aborted) s (heldSlots s c)

/-- FAULT_PATIENCE_EXPIRE (R179). -/
def execFaultPatienceExpire (slot : Nat) (bus : Bus) (s : State) : Res :=
  let f := fltSlot s slot
  .next (if f.st = .held ∧ runsWork s = true then endSlot (reach s f.deadline) bus slot .expired else s)

/-- A write of TU_FLT_OP with an operation: 1 RETRY, 2 ABORT. -/
def fltWrite (s : State) (bus : Bus) (op : Nat) (slot : BitVec 8) : State :=
  if s.tu.fltOp.busy then s
  else
    let done (s : State) (r : Byte) : State := { s with tu := { s.tu with fltOp := .done r, fltSlot := slot } }
    if op ≠ 1 ∧ op ≠ 2 then done s rFormat
    else if (fltSlot s slot.toNat).st ≠ .held then done s rState
    else if op = 1 then done (retrySlot s bus slot.toNat) rOk else done (endSlot s bus slot.toNat .aborted) rOk

def execFltRetry (slot : BitVec 8) (bus : Bus) (s : State) : Res := .next (if barOk s then fltWrite s bus 1 slot else s)

def execFltAbort (slot : BitVec 8) (bus : Bus) (s : State) : Res := .next (if barOk s then fltWrite s bus 2 slot else s)

/-! ### Walks and invalidations (R158, R168) -/

/-- PAGE_WALK: a request of a user is translated, which may fill the TLBs or take a fault slot (log entry 10). -/
def execPageWalk (user : TrUser) (ctx : BitVec 12) (va : Word) (acc : Access) (bus : Bus) (s : State) : Res :=
  if runsWork s then
    let t := translate s bus { owner := .free, user := user, ctx := ctx, va := va, acc := acc }
    .next (if t.2 = .wait then waitBack s t.1 else t.1)
  else .next s

/-- The scope that an operation of TU_INV_OP names: 1 ALL, 2 PARTITION, 3 CONTEXT, 4 RANGE. -/
def invScopeOf (s : State) (op : Nat) (ctx : BitVec 12) (part : BitVec 3) : Option InvScope :=
  match op with
  | 1 => some .all
  | 2 => some (.partition part)
  | 3 => some (.context ctx)
  | 4 => if s.tu.invLen = 0 then none else some (.range ctx (s.tu.invVa.toNat * 4096) (s.tu.invLen.toNat * 4096))
  | _ => none

/-- A write of TU_INV_OP. -/
def invWrite (s : State) (op : Nat) (ctx : BitVec 12) (part : BitVec 3) (wk : Bool) : State :=
  if s.tu.invOp.busy then s
  else
    let s := { s with tu := { s.tu with invCtx := ctx, invPart := part, invWalk := wk } }
    match invScopeOf s op ctx part with
    | none => { s with tu := { s.tu with invOp := .done rFormat } }
    | some sc =>
      let r := invBegin s sc wk
      { r.1 with tu := { r.1.tu with invOp := .run, inv := some ⟨sc, wk, r.2⟩ } }

def execInvAll (walk : Bool) (s : State) : Res := .next (if barOk s then invWrite s 1 s.tu.invCtx s.tu.invPart walk else s)

def execInvPartition (part : BitVec 3) (walk : Bool) (s : State) : Res :=
  .next (if barOk s then invWrite s 2 s.tu.invCtx part walk else s)

def execInvContext (ctx : BitVec 12) (walk : Bool) (s : State) : Res :=
  .next (if barOk s then invWrite s 3 ctx s.tu.invPart walk else s)

def execInvRange (ctx : BitVec 12) (walk : Bool) (s : State) : Res :=
  .next (if barOk s then invWrite s 4 ctx s.tu.invPart walk else s)

/-- INVALIDATION_DONE (R168): every translation in scope has been released; passes that wait for users go on. -/
def execInvalidationDone (s : State) : Res :=
  let s1 := match s.tu.inv with
    | some i =>
      if i.waits.any (waitHolds s) then s else { s with tu := { s.tu with inv := none, invOp := .done rOk } }
    | none => s
  .next (if runsWork s then pumpPasses s1 [] else s1)

/-! ### Frame pools (R174, R176) -/

/-- The register of a pool exists: its partition is in the build. -/
def poolExists (s : State) (part cls : Nat) : Bool := decide (part < s.build.partitions ∧ cls < 4)

/-- A write of PROD in TU_POOL_ALLOC. -/
def poolProduce (s : State) (part cls : Nat) (prod : BitVec 32) : State :=
  updPool s (BitVec.ofNat 3 part) cls fun x => { x with aProd := prod }

/-- A write of CONS in TU_POOL_RET: pushes that wait go on. -/
def poolConsume (s : State) (bus : Bus) (part cls : Nat) (cons : BitVec 32) : State :=
  let p := BitVec.ofNat 3 part
  let s := updPool s p cls fun x => { x with rCons := cons }
  drainPool bus p cls (poolOf s p cls).waiting.length s

def execPoolAllocProduce (part cls : Nat) (prod : BitVec 32) (s : State) : Res :=
  .next (if barOk s && poolExists s part cls then poolProduce s part cls prod else s)

def execPoolReturnConsume (part cls : Nat) (cons : BitVec 32) (bus : Bus) (s : State) : Res :=
  .next (if barOk s && poolExists s part cls then poolConsume s bus part cls cons else s)

/-- POOL_RETURN_WAIT_NOTE (R176): 1 ms of waiting, at the first live page slice (log entry 28). -/
def execPoolReturnWaitNote (part cls : Nat) (s : State) : Res :=
  let p := BitVec.ofNat 3 part
  .next (match (poolOf s p cls).waiting with
    | f :: _ => if runsWork s && poolExists s part cls then poolNote s ((liveSlices s).headD 0) p f else s
    | [] => s)

/-! ### Page slices (R186) -/

/-- A write of TU_SLICE_RETIRE: the route table follows at once, and every L1 TLB is dropped. -/
def pageRetireWrite (s : State) (mask : Nat) : State :=
  let present := maskOf s.build.pageSlices
  let new := mask &&& present
  if s.tu.retBusy || decide (new = present) || decide (new = s.tu.retire.toNat) then s
  else { s with tu := { s.tu with retire := BitVec.ofNat 16 new, retBusy := true, l1 := [] } }

def execPageSliceRetire (mask : BitVec 16) (s : State) : Res := .next (if barOk s then pageRetireWrite s mask.toNat else s)

/-- PAGE_SLICE_RETIRE_DONE: the retiring slice holds no request. -/
def execPageSliceRetireDone (s : State) : Res :=
  .next (if s.tu.retBusy then { s with tu := { s.tu with retBusy := false } } else s)

/-! ### Sloe (R185) -/

def sloeInst : SloeSet → Nat
  | .pageSlices => 0 | .keySlices => 1 | .quads => 2 | .brambles => 3

/-- The live slices of a set. -/
def sloeLive (s : State) : SloeSet → List Nat
  | .pageSlices => liveSlices s
  | .keySlices => liveKeySlices s
  | .quads => liveQuads s
  | .brambles => (List.range s.build.brambles.length).filter fun p => !(blPort s p).retired

/-- Twice the median of a list: the sum of the two middle values. -/
def median2 (l : List Nat) : Nat :=
  let t := sortBy (fun a b => decide (a ≤ b)) l
  t.getD ((t.length - 1) / 2) 0 + t.getD (t.length / 2) 0

/-- One slice at the end of a window. -/
def sloeSlice (s : State) (set : SloeSet) (ests : List SloeEst) (x : SloeEst) : State :=
  let others := ests.filter fun e => e.slice ≠ x.slice
  if x.served < 64 ∨ (others.filter fun e => decide (64 ≤ e.served)).length < 2 then s
  else
    let k := sloeInst set * 64 + x.slice
    let r := Tab.get {} s.fc.sloe k
    let put (s : State) (r : SloeRun) : State := { s with fc := { s.fc with sloe := Tab.set {} s.fc.sloe k r } }
    if s.fc.sloeFactor.toNat * median2 (others.map (·.p99)) ≤ 32 * x.p99 then
      let n := min (r.runs + 1) 16
      if s.fc.sloeConsec.toNat + 1 ≤ n ∧ r.reported = false then
        note (put s ⟨n, true⟩) { source := srcId 14 (sloeInst set) 0, info := BitVec.ofNat 16 x.slice }
      else put s { r with runs := n }
    else put s {}

/-- SLOE_WINDOW_END (R185). -/
def execSloeWindowEnd (set : SloeSet) (ests : List SloeEst) (s : State) : Res :=
  let live := ests.filter fun e => (sloeLive s set).contains e.slice
  .next (if s.tp.ready then each (fun s x => sloeSlice s set live x) s live else s)

end Sys2Proof.Machine
end

