-- ==== Sys2Proof/Machine/Contexts.lean ====
section
/-! DEFINITION. Context operations (spec file 04, R114 to R119, R137): the register QE_CTX_OP, and the ends of DISABLE
and ABORT. -/

namespace Sys2Proof.Machine

open Sys2Proof

/-! ### ENABLE (R113, R115, R98) -/

/-- FORMAT refuses an entry: VALID, reserved bits, queue descriptors, SRET without CONF. -/
def entryFormatBad (bs : List Byte) : Bool :=
  let w := BitVec.ofNat 64 (leAt bs 0 8)
  !bit w 0 || entryReserved bs || (bit w 2 && !bit w 1) ||
    (List.range 8).any fun i => qdescBad (qdescBytes bs i) (entrySaved bs)

/-- PARTITION refuses an entry: its partition, its function, or confidentiality against the partition (R115, R415, R417). -/
def entryPartBad (s : State) (c : BitVec 12) (x : Ctx) : Bool :=
  let fn : Fn := ⟨if x.fnPort then 1 else 0, x.fnVf.toNat⟩
  !decide (ctxPart s c = some x.part) || !fnExists s fn || !decide (fnPart s fn = some x.part)
    || decide (x.conf ≠ (partOf s x.part).conf) || (x.conf && decide ((partOf s x.part).st ≠ .locked))

/-- The enabled queues of a context, in ascending order. -/
def enabledQueues (x : Ctx) : List Nat := (List.range 8).filter fun i => (Tab.get {} x.qs i).desc.en

/-- The session counter of a sealed-return context has room for a draw per enabled queue (R98). -/
def sessionRoom (s : State) (x : Ctx) (c : BitVec 12) : Bool :=
  if !x.sret then true
  else match Tab.find? s.ps.secrets (bits x.keyRef 9 0) with
    | some k => !(bit x.keyRef 63 && decide (k.ctx = c)) || decide (k.count.toNat + (enabledQueues x).length ≤ 0xFFFFFFFF)
    | none => true

/-- Draw a session for every enabled queue of a sealed-return context and restart its SEQ (R98). -/
def drawReturns (s : State) (c : BitVec 12) : State :=
  if (ctxOf s c).sret then
    each (fun s q =>
      let d := drawSession s c
      updQueue d.1 c q fun y => { y with session := d.2, seq := 0 }) s (enabledQueues (ctxOf s c))
  else s

/-- What ENABLE makes of an entry: a result other than OK changes nothing. -/
def enableFrom (s : State) (c : BitVec 12) (bs : List Byte) : State × Byte :=
  let x := ctxFromEntry {} bs
  if entryFormatBad bs then (s, rFormat)
  else if entryPartBad s c x then (s, rPartition)
  else if !sessionRoom s x c then (s, rState)
  else (drawReturns (updCtx s c fun _ => { x with st := .enabled }) c, rOk)

/-- The answer of a context operation. -/
def ctxOpDone (s : State) (r : Byte) : State := { s with qe := { s.qe with ctxOp := OpReg.done r } }

/-- ENABLE (R115). While a near core holds a line of the entry dirty, BUSY stays and the row is sent again. -/
def ctxEnable (s : State) (bus : Bus) (c : BitVec 12) : State :=
  if (ctxOf s c).st ≠ .disabled then ctxOpDone s rState
  else
    let a := ctxAddr s c
    let rdy := homeReady s a 512 false none bus
    if !rdy.2 then { rdy.1 with qe := { rdy.1.qe with ctxOp := OpReg.run } }
    else
      let d := homeRead (sysVia s a) bus rdy.1 a 512
      if d.2.1 ≠ .ok then ctxOpDone d.1 rBus
      else
        let r := enableFrom d.1 c d.2.2
        ctxOpDone r.1 r.2

/-! ### DISABLE, RESUME, PIN, UNPIN (R115, R119) -/

/-- A channel waits at a WAIT of a run of a context. -/
def Channel.waitsFor (x : Channel) (c : BitVec 12) : Bool := x.run.any fun r => decide (r.ctx = c) && r.wait.isSome

/-- Every WAIT of a context that has not ended ends ABORTED (R115), one of a channel with its run (log entry 98). -/
def endCtxWaits (s : State) (c : BitVec 12) : State :=
  let s := each (fun s e => if e.2.ctx = c ∧ e.2.waits = true then endCmd s e.1 stAborted 0 else s) s s.qe.cmds
  each (fun s e => if e.2.waitsFor c then failRun s e.1 stAborted 0 else s) s s.mv.chans

def ctxDisable (s : State) (c : BitVec 12) : State × Byte :=
  let x := ctxOf s c
  if x.st = .enabled ∧ x.disabling = false then
    (endCtxWaits (updCtx s c fun x => { x with disabling := true, pinned := false }) c, rOk)
  else (s, rState)

def ctxResume (s : State) (c : BitVec 12) : State × Byte :=
  if (ctxOf s c).st = .faulted then (kickAll (updCtx s c fun x => { x with st := .enabled }) c, rOk) else (s, rState)

/-- The pinned contexts of a partition. -/
def pinnedIn (s : State) (p : BitVec 3) : Nat := (s.qe.ctxs.filter fun e => e.2.pinned && decide (e.2.part = p)).length

def ctxPin (s : State) (c : BitVec 12) : State × Byte :=
  let x := ctxOf s c
  if x.st = .disabled ∨ x.st = .aborting then (s, rState)
  else if x.pinned then (s, rOk)
  else if (slotsOf s x.part).length ≤ pinnedIn s x.part + 1 then (s, rNoSlot)
  else (startLoad (updCtx s c fun x => { x with pinned := true }) c, rOk)

def ctxUnpin (s : State) (c : BitVec 12) : State × Byte :=
  let x := ctxOf s c
  if x.st = .disabled ∨ x.st = .aborting then (s, rState) else (updCtx s c fun x => { x with pinned := false }, rOk)

/-! ### ABORT (R116) -/

/-- A bag ends: its requests, its storage (R267). -/
def abortBag (s : State) (id : Nat) : State := endCmd (dropPoolReqs s id) id stAborted 0

/-- The tiles of a context that are in transfer are aborted, also those of commands that have failed (R46). -/
def abortTilesOf (s : State) (c : BitVec 12) : State :=
  each (fun s e => match e.2.cur with
    | some t =>
      if t.ctx = c then
        startTile (emit { s with pa := { s.pa with tports := Tab.set {} s.pa.tports e.1 {} } } (.tileAbort e.1)) e.1
      else s
    | none => s) s s.pa.tports

/-- Frames that an abort of a version has taken still return once their users let go (log entry 46). -/
def keepFrames (s : State) (c : Cmd) (fs : List Frame3) (ws : List InvWait) : State :=
  let p : PagePass := ⟨BitVec.ofNat 32 (hIndex (c.raw.w 1)), c.part, fs, ws, false⟩
  { s with tu := { s.tu with passes := s.tu.passes ++ [p] } }

/-- A dispatched command ends ABORTED; one that waits for its flush reads takes that status and goes on waiting (R27), one
that has ended keeps its status. -/
def abortCmd (s : State) (bus : Bus) (id : Nat) : State :=
  match cmdOf s id with
  | none => s
  | some c =>
    match c.phase with
    | .finished => s
    | .flushing _ => updCmd s id fun c => { c with status := if c.status = stOk then stAborted else c.status }
    | _ =>
      match c.work with
      | .mover ch => if ((chan s ch).run.map (·.cmd)) = some id then abortRun s bus ch else dropWaitingRun s id
      | .bag _ => abortBag s id
      | .abortInval fs ws => endCmd (keepFrames s c fs ws) id stAborted 0
      | _ => endCmd s id stAborted 0

/-- The commands of a context. -/
def cmdsOf (s : State) (c : BitVec 12) : List Nat := (s.qe.cmds.filter fun e => decide (e.2.ctx = c)).map (·.1)

/-- Commands read from a ring and not dispatched are not consumed: HEAD stands at the first of them (log entry 26). -/
def unready (y : QState) : QState :=
  match y.ready with
  | r :: _ => { y with ready := [], head := r.head, phase := if y.head.toNat < r.head.toNat then !y.phase else y.phase }
  | [] => y

/-- ABORT: the context reads ABORTING, its commands end, its held faults are aborted. -/
def abortContext (s : State) (bus : Bus) (c : BitVec 12) : State :=
  let s := updCtx s c fun x => { x with
    st := .aborting, disabling := false, pinned := false, loading := false
    qs := x.qs.map fun q => (q.1, { unready q.2 with reading := false, held := none, backoff := none, cqHeld := none }) }
  let s := each (fun s id => abortCmd s bus id) s (cmdsOf s c)
  abortCtx (abortTilesOf s c) bus c

def ctxAbort (s : State) (bus : Bus) (c : BitVec 12) : State × Byte :=
  let x := ctxOf s c
  if x.st = .enabled ∨ x.st = .faulted then (abortContext s bus c, rOk) else (s, rState)

/-! ### QE_CTX_OP -/

/-- A write of QE_CTX_OP (R114, R115): 1 ENABLE, 2 DISABLE, 3 RESUME, 4 ABORT, 5 PIN, 6 UNPIN. -/
def ctxOpRun (s : State) (bus : Bus) (op : Nat) (c : BitVec 12) : State :=
  let put (r : State × Byte) : State := ctxOpDone r.1 r.2
  match op with
  | 1 => ctxEnable s bus c
  | 2 => put (ctxDisable s c)
  | 3 => put (ctxResume s c)
  | 4 => put (ctxAbort s bus c)
  | 5 => put (ctxPin s c)
  | 6 => put (ctxUnpin s c)
  | _ => ctxOpDone s rFormat

def ctxOpWrite (s : State) (bus : Bus) (op : Nat) (c : BitVec 12) : State :=
  if s.qe.ctxOp.busy then s else ctxOpRun { s with qe := { s.qe with ctxOpCtx := c } } bus op c

/-- CTX_ENABLE: the write, or the end of an ENABLE that waited for a near core. -/
def execCtxEnable (ctx : BitVec 12) (bus : Bus) (s : State) : Res :=
  if !barOk s then .next s
  else if s.qe.ctxOp.busy ∧ s.qe.ctxOpCtx = ctx then .next (ctxEnable s bus ctx)
  else .next (ctxOpWrite s bus 1 ctx)

def execCtxDisable (ctx : BitVec 12) (s : State) : Res := .next (if barOk s then ctxOpWrite s [] 2 ctx else s)

def execCtxResume (ctx : BitVec 12) (s : State) : Res := .next (if barOk s then ctxOpWrite s [] 3 ctx else s)

def execCtxAbort (ctx : BitVec 12) (bus : Bus) (s : State) : Res := .next (if barOk s then ctxOpWrite s bus 4 ctx else s)

def execCtxPin (ctx : BitVec 12) (bus : Bus) (s : State) : Res := .next (if barOk s then ctxOpWrite s bus 5 ctx else s)

def execCtxUnpin (ctx : BitVec 12) (s : State) : Res := .next (if barOk s then ctxOpWrite s [] 6 ctx else s)

/-! ### The ends of DISABLE and ABORT (R113, R115, R116, R137, R496) -/

/-- Write the context back, and leave it DISABLED with nothing in the machine: the write-back may fail (R496). -/
def toDisabled (s : State) (bus : Bus) (c : BitVec 12) : State :=
  let rdy := homeReady s (ctxAddr s c) 512 true none bus
  if !rdy.2 then waitBack s rdy.1
  else
    let s := (writeBack rdy.1 bus c).1
    updCtx (dropCtxEntries s c) c fun _ => {}

/-- No command of the context is dispatched, and no record of it waits. -/
def ctxDrained (s : State) (c : BitVec 12) : Bool :=
  (cmdsOf s c).isEmpty && (List.range 8).all fun q => (queueOf s c q).comps.isEmpty

/-- CTX_DISABLE_DONE (R115). -/
def execCtxDisableDone (ctx : BitVec 12) (bus : Bus) (s : State) : Res :=
  let x := ctxOf s ctx
  .next (if x.disabling && (decide (x.st = .enabled) || decide (x.st = .faulted)) && ctxDrained s ctx && runsWork s then
    toDisabled s bus ctx else s)

/-- Signal the events of CONTEXT_ABORT commands whose target is DISABLED (R137). -/
def abortSignals (s : State) (bus : Bus) (c : BitVec 12) : State :=
  each (fun s a =>
    let drop (s : State) : State := { s with qe := { s.qe with aborts := s.qe.aborts.filter fun b => !decide (b = a) } }
    postSignal (drop s) bus a.event a.value a.part a.issuer) s
    (s.qe.aborts.filter fun a => a.target = c)

/-- CTX_ABORT_DONE (R116): every dispatched command has ended; records that still wait for room are given up. -/
def execCtxAbortDone (ctx : BitVec 12) (bus : Bus) (s : State) : Res :=
  let x := ctxOf s ctx
  if !runsWork s then .next s
  else if x.st = .aborting ∧ cmdsOf s ctx = [] then
    let s := toDisabled s bus ctx
    .next (if (ctxOf s ctx).st = .disabled then abortSignals s bus ctx else s)
  else if x.st = .disabled then .next (abortSignals s bus ctx)
  else .next s

end Sys2Proof.Machine
end

