-- ==== Sys2Proof/Machine/Links.lean ====
section
/-! DEFINITION. Bramble links (spec file 09): training, replay, credits, the arrival of flits, discovery and routes, shard
directories, and job keys. -/

namespace Sys2Proof.Machine

open Sys2Proof

/-! ### Management messages (R275, R285, R291, R297) -/

/-- A port of a link that is up, for flits of VC 2 (R286, R292); a link between workers of different boards carries none (R284). -/
def linked (s : State) (p : Nat) : Bool :=
  let b := blPort s p
  portExists s p && (decide (b.st = .active ∨ b.st = .l1 ∨ b.st = .recovery)) && !b.stray

/-- A port carries traffic in routes. -/
def routable (s : State) (p : Nat) : Bool := linked s p && !(blPort s p).retire

/-- The position of a node ID on its board, and its board. -/
def posOf (n : Nat) : Nat := n % 16
def boardOf (n : Nat) : Nat := n / 16

/-- The body of a management message in whole units of 16 B, at least one (R273). -/
def mgmtBody (body : List Byte) : List Byte := if body = [] then List.replicate 16 0 else body

/-- Send a management message on a port, as flits of VC 2 under KEYID 0 (R275; log entry 5). -/
def sendMgmt (s : State) (p op dst : Nat) (body : List Byte) : State :=
  if safeState s then s
  else each (fun s x => queueFlit s p
    { vc := 2, key := 0, origin := none, flit := makeFlit s 2 op dst 0 x.1 0 x.2 }) s (msgCuts (mgmtBody body))

/-- The port on which a management message for a node leaves: its route's where that link is up, and else the lowest port
that is up towards another complex of the board, or, from a manager to another board, towards another manager (R291, R297;
log entry 37). -/
def mgmtPort (s : State) (dst : Nat) : Option Nat :=
  match (routeTo s dst).filter (linked s) with
  | some p => some p
  | none => (List.range s.build.brambles.length).find? fun p => linked s p &&
      (if s.role ∧ boardOf dst ≠ s.bl.board.toNat then (blPort s p).peerRole
       else ((blPort s p).node.any fun n => boardOf n.toNat = s.bl.board.toNat))

/-- Send a management message to a node; one to this node itself comes back as its own row (log entry 5). -/
def mgmtTo (s : State) (op dst : Nat) (body : List Byte) : State :=
  if dst = s.bl.nodeId.toNat ∧ s.bl.assigned = true then (if safeState s then s else emit s (.mgmtSelf op body))
  else match mgmtPort s dst with
    | some p => sendMgmt s p op dst body
    | none => s

/-- The OP codes of fabric management (R275). -/
def opAnnounce : Nat := 0x18
def opAssign : Nat := 0x19
def opRoute : Nat := 0x1A
def opKeyInstall : Nat := 0x1B
def opKeyNotice : Nat := 0x1C
def opTopo : Nat := 0x1D
def opShardDir : Nat := 0x1E

/-- The node ID of this complex's manager. -/
def managerNode (s : State) : Nat := 16 * s.bl.board.toNat

/-- Tell the root, node 0, of a change of topology (R291). At the root the change is in progress until TOPO_CHANGE. -/
def tellRoot (s : State) : State :=
  if s.bl.assigned = false then s
  else mgmtTo (if s.bl.root then { s with bl := { s.bl with discBusy := true } } else s) opTopo 0 []

/-! ### Routes (R286, R288, R290 to R292) -/

/-- Move queued flits of VC 0 and 1 to the ports that the routes now give; those without a route are lost. -/
def reroute (s : State) : State :=
  let ps := List.range s.build.brambles.length
  let all := ps.flatMap fun p => ((blPort s p).txq.filter fun f => f.vc ≠ 2).map fun f => (p, f)
  let s := each (fun s p => updBl s p fun b => { b with txq := b.txq.filter fun f => f.vc = 2 }) s ps
  let s := each (fun s x =>
    let f : SentFlit := x.2
    match routeTo s (flitDst f.flit) with
    | some q => updBl s q fun b => { b with txq := b.txq ++ [f] }
    | none => match f.origin with
      | some o => creditBack s o f.vc
      | none => s) s all
  each (fun s p => pumpTx p ((blPort s p).txq.length + 1) s) s ps

/-- Every flit sent on the ports that lose a route has been acknowledged (R290). -/
def routesFree (s : State) (new : Tab Nat) : Bool :=
  s.bl.routes.all fun e => decide (Tab.find? new e.1 = some e.2) || (blPort s e.2).replay.isEmpty

/-- A port that is to be retired is out of routes once none uses it (R292). -/
def pumpRetire (s : State) (p : Nat) : State :=
  let b := blPort s p
  if b.retire ∧ b.retired = false ∧ s.bl.newRoutes = none ∧ (s.bl.routes.all fun e => decide (e.2 ≠ p)) = true then
    updBl s p fun b => { b with retired := true }
  else s

/-- New routes are in force: operations to nodes that cannot be reached fail, and waiting flits go by the new routes (R288,
R291, R312). With an installation the complex is READY (R285 step 6). -/
def switchRoutes (s : State) (bus : Bus) (n : NewRoutes) : State :=
  let s := { s with bl := { s.bl with routes := n.routes, newRoutes := none } }
  let s := if n.install then
      { s with bl := { s.bl with ready := true, discBusy := false, epoch := s.bl.epoch + 1, heard := [] } }
    else s
  let s := failReqs s bus fun r => (Tab.find? n.routes r.node.toNat).isNone
  each pumpRetire (reroute s) (List.range s.build.brambles.length)

/-- Routes that wait are put in force once the ports that they leave are free (R290). -/
def pumpRoutes (s : State) (bus : Bus) : State :=
  match s.bl.newRoutes with
  | none => s
  | some n => if routesFree s n.routes then switchRoutes s bus n else s

/-- Take new routes. They replace routes that still wait. -/
def setRoutes (s : State) (bus : Bus) (install : Bool) (new : Tab Nat) : State :=
  let again := (s.bl.newRoutes.map (·.install)).getD false
  pumpRoutes { s with bl := { s.bl with newRoutes := some ⟨install || again, new⟩ } } bus

/-- The port of a complex towards another one of its board: direct, or by the lowest member with live links to both (R288). -/
def boardHop (mesh : List MeshLink) (i j : Nat) : Option Nat :=
  let port (a b : Nat) : Option Nat := (mesh.find? fun l => l.a = a ∧ l.b = b).map (·.port)
  match port i j with
  | some p => some p
  | none => ((List.range 9).find? fun k => (port i k).isSome && (port k j).isSome).bind (port i)

/-- The links of the board without those of this complex that its routes may not use. -/
def meshNow (s : State) : List MeshLink :=
  s.bl.mesh.filter fun l => decide (l.a ≠ s.bl.pos.toNat) || routable s l.port

/-- The position on this board that flits for a node go to first, where they stay on the board. -/
def aim (s : State) (dst : Nat) : Option Nat :=
  if boardOf dst = s.bl.board.toNat then some (posOf dst) else if s.role then none else some 0

/-- The routes without a port that carries no tree edge: what went by it goes by a relay (R292). -/
def routesWithout (s : State) (p : Nat) : Tab Nat :=
  s.bl.routes.filterMap fun e =>
    if e.2 = p then ((aim s e.1).bind (boardHop (meshNow s) s.bl.pos.toNat)).map fun q => (e.1, q) else some e

/-- The routes with a port back in them: its peer is reached directly. -/
def routesWith (s : State) (p : Nat) : Tab Nat :=
  match (blPort s p).node with
  | some n => s.bl.routes.map fun e =>
      if boardOf n.toNat = s.bl.board.toNat ∧ aim s e.1 = some (posOf n.toNat) then (e.1, p) else e
  | none => s.bl.routes

/-- A port carries a tree edge: it joins two managers, and traffic for another board goes by it (R288). -/
def treePort (s : State) (p : Nat) : Bool :=
  s.role && (blPort s p).peerRole && s.bl.routes.any fun e => decide (e.2 = p ∧ boardOf e.1 ≠ s.bl.board.toNat)

/-! ### Link states (R277, R278, R300) -/

/-- A port has left the states in which it trains or carries flits: nothing of the old link is kept. -/
def clearLink (b : BlPort) : BlPort :=
  { b with replay := [], crd := [], unacked := 0, nakSent := false, l1Wait := false, l1Sent := false, width := 0
           node := none, stray := false }

/-- A link goes DOWN (R291, R297): the fault, the notice of the keys whose flits are lost, and the word to the root. Routes that
waited for its flits go on after it (pumpRoutes). -/
def linkDown (s : State) (p : Nat) (st : LinkSt) : State :=
  let keys := dedupNat (((blPort s p).replay.map fun f => f.key.toNat).filter (· ≠ 0))
  let s := note s { source := srcId 8 p 3 }
  let s := updBl s p fun b => { clearLink b with st := st, since := s.tick }
  let s := if keys = [] then s else mgmtTo s opKeyNotice (managerNode s) (0 :: keys.map (BitVec.ofNat 8))
  tellRoot s

/-- Start training from DETECT. -/
def startTraining (s : State) (p : Nat) : State :=
  sendTs (updBl s p fun b => { clearLink b with st := .detect, since := s.tick, fails := 0, waitRetry := false }) p

/-- The link of a port is in L1: its lanes are idle (R300). -/
def toL1 (s : State) (p : Nat) : State :=
  emit (updBl s p fun b => { b with st := .l1, l1Wait := false, l1Sent := false }) (.lnLpwr p 1)

/-- In P2 a port with nothing to send asks for L1 (R300). -/
def askL1 (s : State) (p : Nat) : State :=
  let b := blPort s p
  if s.tp.pwr = .p2 ∧ b.st = .active ∧ b.replay = [] ∧ b.txq = [] ∧ b.l1Sent = false ∧ safeState s = false then
    sendCtrl (updBl s p fun b => { b with l1Sent := true }) p 3 []
  else s

/-- A peer that asked for L1 is answered once the queues for its link are empty (R300). -/
def answerL1 (s : State) (p : Nat) : State :=
  let b := blPort s p
  if b.l1Wait ∧ b.st = .active ∧ b.replay = [] ∧ b.txq = [] ∧ safeState s = false then toL1 (sendCtrl s p 4 []) p
  else s

/-! ### Acknowledgement, replay and credits (R279 to R281) -/

/-- The flits that an ACK of a sequence number leaves unacknowledged. -/
def unackedAfter (l : List SentFlit) (a : Nat) : List SentFlit :=
  if l.any fun f => f.seq = a then (l.dropWhile fun f => f.seq ≠ a).tail else l

/-- What may go on once a port's queues have moved. -/
def portMoves (s : State) (p : Nat) : State :=
  let s := pumpRoutes (pumpTx p ((blPort s p).txq.length + 1) s) []
  askL1 (answerL1 (pumpRetire s p) p) p

def takeAck (s : State) (p a : Nat) : State :=
  let b := blPort s p
  let left := unackedAfter b.replay a
  if left.length < b.replay.length then updBl s p fun b => { b with replay := left, ackAt := s.tick } else s

def takeCredits (s : State) (p vc n : Nat) : State :=
  if n = 0 then s else updBl s p fun b => { b with crd := Tab.upd 0 b.crd vc (· + n) }

/-- The counters and the CORRECTED fault of a replay of `n` flits (R280). -/
def replayNote (s : State) (p n : Nat) : State :=
  note (bumpCnt (bumpCnt s p cReplays n) p cTx n) { source := srcId 8 p 1 }

/-- Resend every unacknowledged flit (R280); the fourth time in a row for the same flit leads to RECOVERY (R278). -/
def replayAll (s : State) (p : Nat) : State :=
  let b := blPort s p
  if b.replay = [] ∨ b.st ≠ .active then s
  else
    let s := each (fun s f => emit s (.flit p (stampFlit f.flit f.seq b.ackNow))) s b.replay
    let s := replayNote s p b.replay.length
    let s := updBl s p fun b =>
      { b with replay := b.replay.map fun f => { f with tries := f.tries + 1 }, unacked := 0, ackAt := s.tick }
    if (blPort s p).replay.any fun f => decide (4 ≤ f.tries) then enterRecovery s p else s

/-- The ACK that a port owes goes in an IDLE flit. -/
def sendAck (s : State) (p : Nat) : State :=
  match (blPort s p).ackNow with
  | some a => if safeState s then s else emit (updBl s p fun b => { b with unacked := 0 }) (.flit p (idleFlit a))
  | none => s

/-- The port takes flits: it is ACTIVE and the complex is not in the safe state (R299). -/
def takes (s : State) (p : Nat) : Bool := portExists s p && decide ((blPort s p).st = .active) && !safeState s && s.tp.ready

/-- The per-hop fields of a flit that passed HOPCRC. -/
def takeHop (s : State) (p : Nat) (h : HopFields) : State :=
  let s := match h.ack with
    | some a => takeAck s p a.toNat
    | none => s
  portMoves (takeCredits s p h.crdVc.toNat h.crd.toNat) p

/-- IDLE_FLIT (R279, R281). -/
def execIdleFlit (port : Nat) (hop : HopFields) (s : State) : Res := .next (if takes s port then takeHop s port hop else s)

/-- CREDIT (R281). -/
def execCredit (port : Nat) (c0 c1 c2 c3 : BitVec 16) (s : State) : Res :=
  .next (if takes s port then
      portMoves (takeCredits (takeCredits (takeCredits (takeCredits s port 0 c0.toNat) port 1 c1.toNat) port 2 c2.toNat) port 3
        c3.toNat) port
    else s)

/-- NAK (R280). -/
def execNak (port : Nat) (seq : BitVec 12) (s : State) : Res :=
  .next (if takes s port then portMoves (replayAll (takeAck s port seq.toNat) port) port else s)

/-- ACK_TIMER (R279). -/
def execAckTimer (port : Nat) (s : State) : Res := .next (if takes s port then sendAck s port else s)

/-- REPLAY_TIMER (R280): 2 µs after an ACK last advanced. -/
def execReplayTimer (port : Nat) (s : State) : Res :=
  .next (if takes s port && !(blPort s port).replay.isEmpty then
      replayAll (reach s ((blPort s port).ackAt + 2000)) port
    else s)

/-! ### The arrival of a DATA flit (R273, R275, R279, R288, R289, R295, R296) -/

/-- The virtual channel that an OP belongs to. -/
def opVc (op : Nat) : Option Nat :=
  if 1 ≤ op ∧ op ≤ 5 then some 0
  else if 0x11 ≤ op ∧ op ≤ 0x15 then some 1
  else if 0x18 ≤ op ∧ op ≤ 0x1E then some 2
  else none

def rxDrop (s : State) (p : Nat) : State := note s { source := srcId 8 p 0 }

/-- A flit is dropped: the counter, the fault if there is one, and its credit. -/
def dropFlit (s : State) (p vc cnt : Nat) (tell : Bool) : State :=
  let s := bumpCnt s p cnt 1
  let s := if tell then rxDrop s p else s
  creditBack s p vc

/-- A flit under KEYID 0 belongs to a partition that is closing, by the header of its message (R298; log entry 92). -/
def flitClosing (s : State) (f payload : List Byte) : Bool :=
  decide (byteAt f 5 = 0 ∧ byteAt f 0 / 16 % 4 < 2) && partClosing s (BitVec.ofNat 3 (byteAt payload 2))

/-- A flit that this node is the destination of joins its message; the flits of a message for a partition that is closing
are dropped and counted. -/
def deliverFlit (s : State) (p : Nat) (f : List Byte) (payload : List Byte) : State :=
  let src := BitVec.ofNat 10 (leAt f 2 3 / 2 ^ 10)
  let vc := byteAt f 0 / 16 % 4
  let op := BitVec.ofNat 5 (byteAt f 1)
  let key := BitVec.ofNat 8 (byteAt f 5)
  let mine (x : PartMsg) : Bool := decide (x.src = src ∧ x.vc = vc)
  let old := (s.bl.parts.find? mine).filter fun x => decide (x.op = op ∧ x.key = key)
  let sofar := (old.map (·.payload)).getD []
  let drop := (old.map (·.drop)).getD (flitClosing s f payload)
  let s := bumpCnt s p (if drop then cRevoked else cRx) 1
  let rest := s.bl.parts.filter fun x => !mine x
  if vc = 2 then s
  else if (byteAt f 0).testBit 6 then
    if drop then { s with bl := { s.bl with parts := rest } }
    else
    let r := fresh s
    { r.1 with bl := { r.1.bl with parts := rest, inbox := Tab.insert r.1.bl.inbox r.2 ⟨op, src, key, sofar ++ payload⟩ } }
  else { s with bl := { s.bl with parts := rest ++ [⟨src, vc, op, key, sofar ++ payload, drop⟩] } }

/-- The TAG field of an encrypted flit checks: under its slot's key, the nonce that the destination expects next, and
bytes 0 to 5 as additional data (R294, R295). -/
def flitTagOk (s : State) (f : List Byte) : Bool :=
  let vc := byteAt f 0 / 16 % 4
  let key := byteAt f 5
  let src := leAt f 2 3 / 2 ^ 10 % 1024
  gcmChecks (keySlot s key).key (flitNonce src s.bl.nodeId.toNat vc (Tab.get 0 s.bl.nonces (nonceIdx true src vc key)))
    (f.take 6) ((f.drop 16).take 224) (leAt f 240 16)

/-- The destination's checks (R295, R296). -/
def localFlit (s : State) (p : Nat) (f : List Byte) : State :=
  let vc := byteAt f 0 / 16 % 4
  let key := byteAt f 5
  let enc := (byteAt f 0).testBit 3
  let plen := leAt f 2 3 / 2 ^ 20
  let src := leAt f 2 3 / 2 ^ 10 % 1024
  let k := keySlot s key
  if enc ≠ decide (key ≠ 0) ∨ plen = 0 ∨ 14 < plen then dropFlit s p vc cFormat true
  else if key ≠ 0 then
    if k.st = .revoked then dropFlit s p vc cRevoked false
    else if k.st = .empty then dropFlit s p vc cFormat true
    else if !flitTagOk s f then
      match k.install with
      | some t => if s.tick ≤ t + 100000 then dropFlit s p vc cStale false else dropFlit s p vc cTagFail true
      | none => dropFlit s p vc cTagFail true
    else
      let i := nonceIdx true src vc key
      let ctr := Tab.get 0 s.bl.nonces i
      let plain := gcmPlain k.key (flitNonce src s.bl.nodeId.toNat vc ctr) ((f.drop 16).take 224)
      let s := { s with bl := { s.bl with nonces := Tab.set 0 s.bl.nonces i (ctr + 1) } }
      creditBack (deliverFlit s p f (padTo (16 * plen) plain)) p vc
  else if leAt f 240 8 ≠ (crc64 (f.take 6 ++ (f.drop 16).take 224)).toNat then dropFlit s p vc cLcrc true
  else creditBack (deliverFlit s p f ((f.drop 16).take (16 * plen))) p vc

/-- Forward a flit (R288, R289). -/
def forwardFlit (s : State) (p : Nat) (f : List Byte) : State :=
  let vc := byteAt f 0 / 16 % 4
  if flitTtl f = 0 then dropFlit s p vc cTtl true
  else match routeTo s (flitDst f) with
    | none => creditBack s p vc
    | some q =>
      let f' := patch f 8 (leBytes 2 ((flitTtl f - 1) * 2 ^ 12))
      queueFlit (bumpCnt s p cFwd 1) q { vc := vc, key := BitVec.ofNat 8 (byteAt f 5), origin := some p, flit := f' }

/-- MGR_ANNOUNCE and ASSIGN are for the complex at the other end of the link (R285). -/
def nextHopOp (op : Nat) : Bool := decide (op = opAnnounce ∨ op = opAssign)

/-- An accepted flit: its OP, then its destination. -/
def acceptFlit (s : State) (p : Nat) (f : List Byte) : State :=
  let vc := byteAt f 0 / 16 % 4
  if byteAt f 0 % 8 ≠ 1 ∨ opVc (byteAt f 1) ≠ some vc then dropFlit s p vc cFormat true
  else if s.bl.assigned then
    if flitDst f = s.bl.nodeId.toNat ∨ nextHopOp (byteAt f 1) = true then localFlit s p f else forwardFlit s p f
  else if vc = 2 then localFlit s p f
  else creditBack s p vc

/-- DATA_FLIT (R279): HOPCRC, the per-hop fields, SEQ, and the flit itself. -/
def dataFlit (s : State) (p : Nat) (f : List Byte) : State :=
  if leAt f 12 4 ≠ (crc32c (f.take 12 ++ f.drop 16)).toNat then
    let s := bumpCnt s p cHopCrc 1
    if (blPort s p).nakSent then s
    else sendCtrl (updBl s p fun b => { b with nakSent := true }) p 1 (leBytes 2 (((blPort s p).rxSeq + 4095) % 4096))
  else
    let hop : HopFields :=
      { crdVc := BitVec.ofNat 2 (byteAt f 6), crd := BitVec.ofNat 8 (byteAt f 7)
        ack := if (leAt f 10 2).testBit 12 then some (BitVec.ofNat 12 (leAt f 10 2)) else none }
    let s := takeHop s p hop
    let b := blPort s p
    if leAt f 8 2 % 4096 ≠ b.rxSeq then s
    else
      let s := updBl s p fun b => { b with rxSeq := (b.rxSeq + 1) % 4096, nakSent := false, unacked := b.unacked + 1 }
      let s := acceptFlit s p f
      if 64 ≤ (blPort s p).unacked then sendAck s p else s

def execDataFlit (port : Nat) (flit : BitVec 2048) (s : State) : Res :=
  .next (if takes s port then dataFlit s port (leBytes 256 flit.toNat) else s)

/-! ### Training (R272, R276 to R278, R284, R291, R300) -/

/-- A port whose link is coming up. -/
def BlPort.comingUp (b : BlPort) : Bool :=
  decide (b.st = .detect ∨ b.st = .train ∨ b.st = .config ∨ b.st = .init) && !b.waitRetry

/-- TS (R276): the peer's values. Training goes from DETECT to TRAIN and on to CONFIG (R277); the port sends its own TS. -/
def execTs (port : Nat) (content : TsContent) (s : State) : Res :=
  .next (if portExists s port && ((blPort s port).comingUp || decide ((blPort s port).st = .recovery)) then
      sendTs (updBl s port fun b =>
        { b with st := if b.st = .detect then .train else if b.st = .train then .config else b.st
                 peerNode := content.node, peerRole := content.manager, peerAsgd := content.assigned, peerId := content.digest
                 node := if content.assigned then some content.node else none }) port
    else s)

/-- A link between workers of different boards carries no traffic and is reported (R284; the TRAIN source, DEDUCED). -/
def markStray (s : State) (p : Nat) : State :=
  if (blPort s p).stray then s else note (updBl s p fun b => { b with stray := true }) { source := srcId 8 p 2 }

/-- Both ends of a link that comes up are workers that have their boards. -/
def strayLink (s : State) (p : Nat) : State :=
  let b := blPort s p
  if !s.role && !b.peerRole && s.bl.assigned && (b.node.any fun n => decide (boardOf n.toNat ≠ s.bl.board.toNat)) then markStray s p
  else s

/-- INIT (R278, R281): SEQ starts at 0, credits are advertised, and what is unacknowledged is resent (log entry 35), but in
the safe state (R299). -/
def initLink (s : State) (p width : Nat) (rate : BitVec 3) : State :=
  let old := (blPort s p).replay
  let ren : List SentFlit := old.zipIdx.map fun x => { x.1 with seq := x.2, tries := 0 }
  let used (vc : Nat) : Nat := (ren.filter fun f => f.vc = vc).length
  let s := updBl s p fun b =>
    { b with st := .active, width := BitVec.ofNat 8 width, rate := rate, fails := 0, waitRetry := false, rxSeq := 0
             txSeq := ren.length, replay := ren, nakSent := false, unacked := 0, ackAt := s.tick
             crd := fullCredits.map fun c => (c.1, c.2 - used c.1), l1Wait := false, l1Sent := false }
  if ren = [] ∨ safeState s = true then s
  else replayNote (each (fun s f => emit s (.flit p (stampFlit f.flit f.seq none))) s ren) p ren.length

/-- The width at which a port trains: the largest of 16, 8 and 4 lanes that its build has and whose lanes 0 to width − 1 all
train (R272); in P1 it is 4 (R300). -/
def trainedWidth (s : State) (p : Nat) (lanes : BitVec 16) : Option Nat :=
  [16, 8, 4].find? fun w => decide (w ≤ portWidth s p ∧ ((blPort s p).toX4 = true → w = 4)) &&
    (List.range w).all fun i => lanes.getLsbD i

/-- LINK_TRAINED (R272, R277, R278): `lanes` are the lanes that train, after lane reversal, and `eq128` tells that equalization
at 128 GT/s succeeds; it runs at 64 GT/s if not. -/
def execLinkTrained (port : Nat) (lanes : BitVec 16) (eq128 : Bool) (s : State) : Res :=
  let b := blPort s port
  .next (if portExists s port && b.en && (b.comingUp || decide (b.st = .recovery)) then
      match trainedWidth s port lanes with
      | some w => portMoves (strayLink (initLink s port w (if eq128 then 6 else 5)) port) port
      | none => s
    else s)

/-- A training failure (R277): the third in a row makes the port FAILED. -/
def trainFail (s : State) (p : Nat) : State :=
  let n := (blPort s p).fails + 1
  let s := updBl s p fun b => { clearLink b with st := .detect, fails := n, waitRetry := true, since := s.tick }
  if 3 ≤ n then note (updBl s p fun b => { b with st := .failed, waitRetry := false }) { source := srcId 8 p 2 } else s

/-- TRAINING_TIMEOUT (R277, R278, R291). -/
def execTrainingTimeout (port : Nat) (_bus : Bus) (s : State) : Res :=
  let b := blPort s port
  if !portExists s port then .next s
  else if b.st = .recovery then
    .next (pumpRoutes (trainFail (linkDown (reach s (b.since + 1000000)) port .detect) port) [])
  else if b.comingUp then .next (let s := reach s (b.since + 20000000); trainFail s port)
  else .next s

/-- TRAINING_RETRY (R277): 1 ms after the failure. -/
def execTrainingRetry (port : Nat) (s : State) : Res :=
  let b := blPort s port
  .next (if b.waitRetry && decide (b.st = .detect) then
      let s := reach s (b.since + 1000000)
      sendTs (updBl s port fun b => { b with waitRetry := false, since := s.tick }) port
    else s)

/-- LANE_LOCK_LOSS (R278). -/
def execLaneLockLoss (port : Nat) (s : State) : Res :=
  .next (if portExists s port && decide ((blPort s port).st = .active) && !safeState s then enterRecovery s port else s)

/-- SAFE (R299, R312): the link counts as DOWN, and the operations outstanding through or to the sender fail. -/
def execSafe (port : Nat) (bus : Bus) (s : State) : Res :=
  let b := blPort s port
  .next (if portExists s port && b.live && !safeState s then
      let via := routeTo s
      pumpRoutes (failReqs (linkDown s port .detect) bus fun r =>
        decide (some r.node = b.node ∨ via r.node.toNat = some port)) bus
    else s)

/-- L1_REQ (R300). -/
def execL1Req (port : Nat) (s : State) : Res :=
  .next (if takes s port then answerL1 (updBl s port fun b => { b with l1Wait := true }) port else s)

/-- L1_ACK (R300). -/
def execL1Ack (port : Nat) (s : State) : Res :=
  let b := blPort s port
  .next (if takes s port && b.l1Sent && b.replay.isEmpty && b.txq.isEmpty then
      toL1 s port
    else updBl s port fun b => { b with l1Sent := false })

/-! ### BL_PORT_CTL (R277, R278, R292) -/

/-- EN from 0 to 1. -/
def portEnable (s : State) (p : Nat) : State :=
  if (blPort s p).en then s else startTraining (updBl s p fun b => { b with en := true }) p

/-- EN to 0. -/
def portDisable (s : State) (p : Nat) : State :=
  let b := blPort s p
  if !b.en then s
  else
    let s := updBl s p fun b => { b with en := false }
    pumpRoutes (if b.live || decide (b.st = .recovery) then linkDown s p .disabled
      else updBl s p fun b => { clearLink b with st := .disabled, waitRetry := false }) []

/-- RETRAIN written 1. -/
def portRetrain (s : State) (p : Nat) : State :=
  let b := blPort s p
  if b.st = .active then enterRecovery s p else if b.st = .failed then startTraining s p else s

/-- RETIRE from 0 to 1: the port leaves the routes, by way of the root where it carries a tree edge (R290, R292). -/
def portRetire (s : State) (p : Nat) : State :=
  if (blPort s p).retire then s
  else
    let s := updBl s p fun b => { b with retire := true }
    pumpRetire (if treePort s p then tellRoot s else setRoutes s [] false (routesWithout s p)) p

/-- RETIRE from 1 to 0: the peer is reached directly again. -/
def portRestore (s : State) (p : Nat) : State :=
  let b := blPort s p
  if !b.retire then s
  else
    let s := updBl s p fun b => { b with retire := false, retired := false }
    if b.peerRole ∧ s.role then tellRoot s
    else if routable s p then setRoutes s [] false (routesWith s p)
    else s

def onPort (s : State) (p : Nat) (f : State → Nat → State) : Res := .next (if barOk s && portExists s p then f s p else s)

def execPortEnable (port : Nat) (s : State) : Res := onPort s port portEnable
def execPortDisable (port : Nat) (_bus : Bus) (s : State) : Res := onPort s port portDisable
def execRetrain (port : Nat) (s : State) : Res := onPort s port portRetrain
def execPortRetire (port : Nat) (s : State) : Res := onPort s port portRetire
def execPortRestore (port : Nat) (s : State) : Res := onPort s port portRestore

/-! ### Discovery (R285, R286, R291) -/

/-- The inter-board links of a manager: live ports to managers. -/
def boardLinks (s : State) : List Nat :=
  (List.range s.build.brambles.length).filter fun p => linked s p && (blPort s p).peerRole

def digestBytes (d : Word) : List Byte := leBytes 8 d.toNat

/-- Flood an announcement. -/
def announce (s : State) (d : Word) (but : Nat) : State :=
  each (fun s p => if p = but then s else sendMgmt s p opAnnounce 0 (digestBytes d)) s (boardLinks s)

/-- Discovery, or a route change, is in progress (BL_DISC.BUSY). -/
def discRuns (s : State) : Bool := s.bl.discBusy || s.bl.newRoutes.isSome

/-- Start discovery on a manager; announcements that have come for it count. -/
def startDiscovery (s : State) : State :=
  let before := if s.bl.discBusy then s.bl.heard.filter (· ≠ identityDigest s) else []
  announce { s with bl := { s.bl with
    discBusy := true, discRes := 0, started := true, heard := identityDigest s :: before, tree := [] } } (identityDigest s) 0xFF

/-- DISCOVERY_START (R285 step 1). -/
def execDiscoveryStart (s : State) : Res :=
  .next (if s.role && s.tp.ready && !s.bl.started && !s.build.brambles.isEmpty && !safeState s then startDiscovery s else s)

/-- A write of BL_DISC with an OP. -/
def discWrite (s : State) (op : Nat) : State :=
  if discRuns s then s
  else if op ≠ 1 then { s with bl := { s.bl with discRes := rFormat } }
  else if !s.role then { s with bl := { s.bl with discRes := rState } }
  else startDiscovery s

/-- REDISCOVER (R285). -/
def execRediscover (s : State) : Res := .next (if barOk s && !s.build.brambles.isEmpty then discWrite s 1 else s)

/-- MGR_ANNOUNCE (R285): a digest that is new is flooded on. -/
def execMgrAnnounce (port : Nat) (digest : Word) (s : State) : Res :=
  .next (if s.role && s.tp.ready && linked s port && !safeState s && !s.bl.heard.contains digest then
      announce { s with bl := { s.bl with heard := s.bl.heard ++ [digest], discBusy := true } } digest port
    else s)

/-- A manager of the tree: its digest, board and depth, the board of its parent, the parent's port towards it (`port`), and
its own port towards the parent (`back`). -/
structure TreeNode where
  digest : Word
  board  : Nat
  depth  : Nat
  parent : Nat
  port   : Nat
  back   : Nat
  deriving DecidableEq, Repr

/-- The links of a manager in the order of R285 step 3. -/
def linksOfMgr (links : List MgrLink) (d : Word) : List MgrLink :=
  sortBy (fun a b => decide (a.port < b.port ∨ (a.port = b.port ∧ a.b.toNat ≤ b.b.toNat))) (links.filter fun l => l.a = d)

/-- The board number of a manager that joins the tree: the one it has, or the lowest that is free. -/
def boardFor (old : List (Word × Nat)) (tree : List TreeNode) (d : Word) : Nat :=
  match old.find? fun x => x.1 = d with
  | some x => x.2
  | none => ((List.range (64 + tree.length + 1)).find? fun n =>
      !(tree.any fun t => t.board = n) && !(old.any fun x => x.2 = n)).getD 64

/-- Breadth first from the root: the tree, and whether a board was left out. -/
def growTree (links : List MgrLink) (old : List (Word × Nat)) : Nat → List TreeNode → List TreeNode → Bool → List TreeNode × Bool
  | 0, _, tree, deep => (tree, deep)
  | fuel + 1, work, tree, deep =>
    match work with
    | [] => (tree, deep)
    | t :: rest =>
      let step (x : List TreeNode × List TreeNode × Bool) (l : MgrLink) : List TreeNode × List TreeNode × Bool :=
        if x.1.any fun n => n.digest = l.b then x
        else
          let b := boardFor old x.1 l.b
          if 6 ≤ t.depth ∨ 63 < b then (x.1, x.2.1, true)
          else
            let n : TreeNode := ⟨l.b, b, t.depth + 1, t.board, l.port, l.back⟩
            (x.1 ++ [n], x.2.1 ++ [n], x.2.2)
      let r := (linksOfMgr links t.digest).foldl step (tree, rest, deep)
      growTree links old fuel r.2.1 r.1 r.2.2

/-- The managers on the way from a board up to the root. -/
def upPath (tree : List TreeNode) : Nat → Nat → List TreeNode
  | 0, _ => []
  | n + 1, b => match tree.find? fun t => t.board = b with
    | some t => t :: (if t.depth = 0 then [] else upPath tree n t.parent)
    | none => []

/-- The port of the manager of board `b` along tree edges towards board `c` (R288). -/
def towards (tree : List TreeNode) (b c : Nat) : Option Nat :=
  match (upPath tree 8 c).find? fun t => t.depth ≠ 0 ∧ t.parent = b with
  | some t => some t.port
  | none => (tree.find? fun t => t.board = b).map (·.back)

/-- The worker ports of a manager, with the node IDs that they get. -/
def workerPorts (s : State) : List Nat :=
  (List.range s.build.brambles.length).filter fun p => linked s p && !(blPort s p).peerRole

/-- A board of the tree: for the root's own, its own links stand for what it knows of itself. -/
def boardMap (s : State) (boards : List BoardMap) (d : Word) : BoardMap :=
  let told := (boards.find? fun b => b.digest = d).getD ⟨d, [], []⟩
  if d = identityDigest s then
    { told with
      members := dedupNat ((workerPorts s).map (· + 1) ++ told.members)
      mesh := ((workerPorts s).filter (routable s)).map (fun p => (⟨0, p, p + 1⟩ : MeshLink)) ++ told.mesh.filter fun l => l.a ≠ 0 }
  else told

/-- The boards of a tree with their maps. -/
def treeMaps (s : State) (boards : List BoardMap) (tree : List TreeNode) : List (TreeNode × BoardMap) :=
  tree.map fun t => (t, boardMap s boards t.digest)

/-- The routes of the complex at position `i` of a board (R288): direct or by a relay within the board; between boards
by its manager, along the tree, and to the destination. A destination without such a path has no route. -/
def routesAt (tree : List TreeNode) (maps : List (TreeNode × BoardMap)) (me : TreeNode × BoardMap) (i : Nat) : List RouteEnt :=
  maps.flatMap fun y => (0 :: y.2.members).filterMap fun j =>
    let port :=
      if y.1.board = me.1.board then (if i = j then none else boardHop me.2.mesh i j)
      else if j ≠ 0 ∧ boardHop y.2.mesh 0 j = none then none
      else if i ≠ 0 then boardHop me.2.mesh i 0
      else towards tree me.1.board y.1.board
    port.map fun p => ⟨16 * me.1.board + i, 16 * y.1.board + j, p⟩

/-- The routes of every complex of a board. -/
def boardRoutes (tree : List TreeNode) (maps : List (TreeNode × BoardMap)) (me : TreeNode × BoardMap) : List RouteEnt :=
  (0 :: me.2.members).flatMap (routesAt tree maps me)

/-- The entries of a node, as its routes. -/
def routesOf (s : State) (node : Nat) (ents : List RouteEnt) : Tab Nat :=
  (ents.filter fun e => decide (e.node = node ∧ e.dst < 1024) && portExists s e.port).foldl (fun t e => Tab.insert t e.dst e.port) []

/-- The body of a ROUTE message (log entry 37): the manager's digest, the board, its links, and the entries. -/
def routeBody (d : Word) (board : Nat) (mesh : List MeshLink) (ents : List RouteEnt) : List Byte :=
  digestBytes d ++ leBytes 1 board ++ leBytes 1 mesh.length ++ mesh.flatMap (fun l => leBytes 1 l.a ++ leBytes 1 l.port ++ leBytes 1 l.b) ++
    leBytes 2 ents.length ++ ents.flatMap fun e => leBytes 2 e.node ++ leBytes 2 e.dst ++ leBytes 1 e.port

/-- A manager takes its board: its node ID, and ASSIGN to its workers (R285 step 4). -/
def takeBoard (s : State) (board : Nat) : State :=
  let s := { s with bl := { s.bl with
    board := BitVec.ofNat 6 board, pos := 0, nodeId := BitVec.ofNat 10 (16 * board), assigned := true } }
  each (fun s p =>
    let n := 16 * board + p + 1
    sendMgmt (updBl s p fun b => { b with node := some (BitVec.ofNat 10 n) }) p opAssign n (leBytes 2 n)) s
    (workerPorts s)

/-- A manager passes ROUTE on to its workers: to each the entries of its node (R285 step 5). -/
def passRoutes (s : State) (board : Nat) (mesh : List MeshLink) (ents : List RouteEnt) : State :=
  each (fun s p =>
    let n := 16 * board + p + 1
    sendMgmt s p opRoute n (routeBody (identityDigest s) board mesh (ents.filter fun e => e.node = n))) s (workerPorts s)

/-- The root builds the tree, numbers the boards, and installs and sends routes (R285 steps 3 to 6). -/
def buildTree (s : State) (links : List MgrLink) (boards : List BoardMap) (bus : Bus) : State :=
  let links := links.filter fun l => decide (l.a ≠ identityDigest s) || routable s l.port
  let me : TreeNode := ⟨identityDigest s, 0, 0, 0, 0, 0⟩
  let r := growTree links s.bl.tree (links.length + 2) [me] [me] false
  let maps := treeMaps s boards r.1
  let own := (me, boardMap s boards me.digest)
  let s := { s with bl := { s.bl with
    root := true, tree := r.1.map fun t => (t.digest, t.board), discRes := if r.2 then 2 else 0, mesh := own.2.mesh } }
  let s := takeBoard s 0
  let s := each (fun s x =>
    let t : TreeNode := x.1
    match towards r.1 0 t.board with
    | some p => sendMgmt s p opRoute (16 * t.board) (routeBody t.digest t.board x.2.mesh (boardRoutes r.1 maps x))
    | none => s) s (maps.filter fun x => x.1.depth ≠ 0)
  let ents := boardRoutes r.1 maps own
  setRoutes (passRoutes s 0 own.2.mesh ents) bus true (routesOf s 0 ents)

/-- ROOT_ELECTION (R285 steps 2 and 3): the lowest digest heard of is the root. The operands are the links between managers
and the boards, as discovery gathers them (log entry 37). -/
def execRootElection (topo : Topology) (s : State) : Res :=
  .next (if s.role && s.bl.discBusy && decide (s.bl.heard ≠ []) && !safeState s then
      if s.bl.heard.all fun d => decide ((identityDigest s).toNat ≤ d.toNat) then
        buildTree { s with bl := { s.bl with tree := [] } } topo.links topo.boards []
      else { s with bl := { s.bl with root := false } }
    else s)

/-- TOPO_CHANGE (R291): the root repeats steps 3 to 6; node IDs that still have a path keep their values. Another
complex passes the message on towards the root. -/
def execTopoChange (topo : Topology) (s : State) : Res :=
  .next (if safeState s then s
    else if s.bl.root then
      let old := s.bl.tree.filter fun x => decide (x.1 = identityDigest s) || topo.links.any fun l => decide (l.b = x.1)
      buildTree { s with bl := { s.bl with tree := old } } topo.links topo.boards []
    else if s.bl.assigned then mgmtTo s opTopo 0 [] else s)

/-- Two ports lead to one manager: they are one, or their peers have one identity digest. -/
def sameMgr (s : State) (p q : Nat) : Bool :=
  decide (p = q) || decide ((blPort s p).peerId ≠ 0 ∧ (blPort s p).peerId = (blPort s q).peerId)

/-- A worker that a second manager assigns takes none of them (R286): it has no routes, what it would send is dropped, and its
remote operations fail. -/
def refuseAssign (s : State) : State :=
  let s := { s with bl := { s.bl with
    assigned := false, ready := false, nodeId := 0, board := 0, pos := 0, routes := [], newRoutes := none, mesh := [] } }
  note (reroute (failReqs s [] fun _ => true)) { source := srcId 9 0 0 }

/-- ASSIGN (R285 step 4, R286). -/
def execAssign (port : Nat) (node : BitVec 10) (s : State) : Res :=
  if s.role || !portExists s port || safeState s || !s.tp.ready then .next s
  else
    let from_ := if s.bl.assigners.any (sameMgr s port) then s.bl.assigners else s.bl.assigners ++ [port]
    let s := { s with bl := { s.bl with assigners := from_ } }
    if 1 < from_.length then .next (refuseAssign s)
    else
      .next { s with bl := { s.bl with
        assigned := true, nodeId := node, board := BitVec.ofNat 6 (boardOf node.toNat), pos := BitVec.ofNat 4 (posOf node.toNat) } }

/-- A worker learns from the links of its board which node each of its ports leads to; a port to another worker that is none
of them is a stray link (R284). -/
def takeMesh (s : State) (mesh : List MeshLink) : State :=
  let s := { s with bl := { s.bl with mesh := mesh } }
  each (fun s p =>
    match mesh.find? fun l => decide (l.a = s.bl.pos.toNat ∧ l.port = p) with
    | some l => updBl s p fun b => { b with node := some (BitVec.ofNat 10 (managerNode s + l.b)), stray := false }
    | none => if linked s p ∧ (blPort s p).peerRole = false then markStray s p else s) s (List.range s.build.brambles.length)

/-- ROUTE (R285 steps 5 and 6, R290): the routes are put in force once the flits on the ports that they leave are
acknowledged. A manager that is not the root takes its board from it, and passes ROUTE on to its workers. -/
def execRoute (board : BitVec 6) (body : RouteMap) (bus : Bus) (s : State) : Res :=
  if safeState s || !s.tp.ready then .next s
  else if s.role then
    if s.bl.root then .next s
    else
      let s := takeBoard { s with bl := { s.bl with mesh := body.mesh } } board.toNat
      .next (setRoutes (passRoutes s board.toNat body.mesh body.routes) bus true (routesOf s (16 * board.toNat) body.routes))
  else if s.bl.assigned then .next (setRoutes (takeMesh s body.mesh) bus true (routesOf s s.bl.nodeId.toNat body.routes))
  else .next s

/-! ### Shard directories (R314 to R318) -/

/-- The complex may send or install directories at once: no unfinished bag holds the image. -/
def imageHeld (s : State) (slot : Nat) (img : Bool) : Bool :=
  s.qe.cmds.any fun e => decide (e.2.dir = some (slot, img) ∧ e.2.phase ≠ .finished)

def dirOf (s : State) (d : Nat) : DirSlot := Tab.get {} s.bl.dirs d
def updDir (s : State) (d : Nat) (f : DirSlot → DirSlot) : State :=
  { s with bl := { s.bl with dirs := Tab.upd {} s.bl.dirs d f } }

/-- The image as bytes. -/
def dirImage (hdr : BitVec 128) (entries : List (BitVec 128)) (map : List Byte) : List Byte :=
  padTo 4096 (leBytes 16 hdr.toNat) ++ padTo 4096 (entries.flatMap fun e => leBytes 16 e.toNat) ++ padTo 4096 map ++
    List.replicate 4096 0

/-- The entry of an image for a node. -/
def entryFor (img : List Byte) (node : Nat) : Option Shard :=
  ((List.range (imgShards img)).map (shardAt img)).find? fun x => decide (x.node = node)

/-- An entry is VALID and its reserved bits are clear. -/
def entryGood (e : BitVec 128) : Bool :=
  let v := e.toNat
  decide (v / 2 ^ 74 % 2 ^ 6 = 0 ∧ v / 2 ^ 88 % 2 ^ 8 = 1 ∧ v / 2 ^ 96 = 0)

/-- The install is refused (R317), but for the handle of another slot. -/
def dirBad (s : State) (img : List Byte) (entries : List (BitVec 128)) (map : List Byte) : Bool :=
  let n := imgShards img
  decide (n = 0 ∨ 256 < n ∨ entries.length ≠ n ∨ map.length ≠ 4096) || (map.any fun b => decide (n ≤ b.toNat)) ||
    (entries.any fun e => !entryGood e) ||
    decide (1 < (((List.range n).map (shardAt img)).filter fun x => decide (x.node = s.bl.nodeId.toNat)).length)

/-- A SHARD_DIR that comes, or a withdrawal, takes the place of one that waits for the slot. -/
def dropDirWait (s : State) (slot : Nat) : State := { s with bl := { s.bl with dirWait := Tab.erase s.bl.dirWait slot } }

def dirNote (s : State) : State := note s { source := srcId 9 0 0 }

/-- Another slot's current image already names the handle for the local node. -/
def handleTaken (bus : Bus) (slot : Nat) (h : Word) : List Nat → Act Bool
  | [] => pure false
  | d :: t => do
    let s ← get
    if d = slot ∨ (dirOf s d).valid = false then handleTaken bus slot h t
    else do
      let bs ← homeGet (sysVia s (dirAddr s d (dirOf s d).cur)) bus (dirAddr s d (dirOf s d).cur) 16384
      match entryFor bs s.bl.nodeId.toNat with
      | some x => if x.handle = h then pure true else handleTaken bus slot h t
      | none => handleTaken bus slot h t

/-- Install an image; a failed read or write refuses it (log entry 38). -/
def installDir (bus : Bus) (slot : Nat) (img : List Byte) : Act Bool := do
  let s ← get
  let taken ← match entryFor img s.bl.nodeId.toNat with
    | some x => handleTaken bus slot x.handle (List.range 64)
    | none => pure false
  if taken then pure false
  else do
    let s ← get
    let a := dirAddr s slot (!(dirOf s slot).cur)
    homePut (sysVia s a) bus a img
    modify fun s => updDir s slot fun d => { valid := true, cur := !d.cur }
    pure true

/-- The answer to a SHARD_DIR. -/
def dirAck (s : State) (src : Nat) : State := mgmtTo s opShardDir src [0xFF]

/-- Install a checked image beside the one in use and acknowledge it; where bags still hold its place, it waits for them (R316,
R317). -/
def placeImage (s : State) (bus : Bus) (src : BitVec 10) (slot : Nat) (img : List Byte) : State :=
  if imageHeld s slot (!(dirOf s slot).cur) then
    { s with bl := { s.bl with dirWait := Tab.insert s.bl.dirWait slot ⟨src, img⟩ } }
  else runAct (installDir bus slot img) (dropDirWait s slot) (fun s ok => dirAck (if ok then s else dirNote s) src.toNat)
    (fun s _ => dirAck (dirNote s) src.toNat)

/-- A new image of a directory is checked. -/
def takeImage (s : State) (bus : Bus) (src : BitVec 10) (slot : Nat) (img : List Byte) (bad : Bool) : State :=
  if bad then dirAck (dirNote s) src.toNat else placeImage s bus src slot img

/-- Images that waited for bags are installed (R317). -/
def pumpDirs (s : State) (bus : Bus) : State :=
  each (fun s e => placeImage s bus e.2.src e.1 e.2.img) s s.bl.dirWait

/-- SHARD_DIR (R316, R317). A message without entries and map is a WITHDRAW (log entry 38). -/
def execShardDir (src : BitVec 10) (slot : Nat) (hdr : BitVec 128) (entries : List (BitVec 128)) (map : List Byte) (bus : Bus)
    (s : State) : Res :=
  if !runsWork s || s.build.brambles.isEmpty || decide (64 ≤ slot) then .next s
  else if !s.bl.shardEn then .next (dirNote s)
  else if entries = [] ∧ map = [] then .next (dirAck (updDir (dropDirWait s slot) slot fun d => { d with valid := false }) src.toNat)
  else
    let img := dirImage hdr entries map
    .next (takeImage s bus src slot img (dirBad s img entries map))

/-- The READY nodes that this manager knows: itself and those that it has routes to. -/
def readyNodes (s : State) : List Nat := s.bl.nodeId.toNat :: s.bl.routes.map (·.1)

def shardDone (s : State) (r : Byte) : State := { s with bl := { s.bl with shardOp := OpReg.done r } }

/-- Send a SHARD_DIR to every READY node and wait for their acknowledgements. -/
def floodDir (s : State) (slot : Nat) (body : List Byte) : State :=
  let nodes := readyNodes s
  let s := each (fun s n => mgmtTo s opShardDir n (leBytes 1 slot ++ body)) s nodes
  { s with bl := { s.bl with shardOp := OpReg.run, shardWait := nodes } }

/-- PUBLISH (R316); an image whose SHARDS is out of range is sent too, and the nodes refuse it (R317). The RESULT where the
staging image cannot be read is open (log entry 33). -/
def publishAct (bus : Bus) (slot : Nat) : Act Unit := do
  let s ← get
  let stage := s.bl.shardBase.toNat * 0x400000 + 0x200000
  let bs ← homeGet (sysVia s stage) bus stage 16384
  let n := min 256 (imgShards bs)
  let s ← get
  let d := dirOf s slot
  let gen ← if d.valid then do
      let g ← homeGet (sysVia s (dirAddr s slot d.cur)) bus (dirAddr s slot d.cur + 12) 4
      pure (leNat g)
    else pure 0
  modify fun s => floodDir s slot (patch (bs.take 16) 12 (leBytes 4 ((gen + 1) % 2 ^ 32)) ++ (bs.drop 4096).take (16 * n) ++
    (bs.drop 8192).take 4096)

/-- A write of BL_SHARD_OP. -/
def shardWrite (s : State) (bus : Bus) (op slot : Nat) : State :=
  if s.bl.shardOp.busy then s
  else
    let s := { s with bl := { s.bl with shardSlot := BitVec.ofNat 6 slot } }
    if op ≠ 1 ∧ op ≠ 2 then shardDone s rFormat
    else if !(s.role && s.bl.ready) then shardDone s rState
    else if op = 2 then floodDir s slot []
    else runAct (publishAct bus slot) s (fun s _ => s)
      (fun s _ => shardDone s (BitVec.ofNat 8 (Config.freeWord s.free 0).toNat))

def execPublish (slot : BitVec 6) (bus : Bus) (s : State) : Res :=
  .next (if barOk s && !s.build.brambles.isEmpty then shardWrite s bus 1 slot.toNat else s)

def execWithdraw (slot : BitVec 6) (s : State) : Res :=
  .next (if barOk s && !s.build.brambles.isEmpty then shardWrite s [] 2 slot.toNat else s)

/-- SHARD_DIR_ACKNOWLEDGED (R316): BUSY clears at the last. -/
def execShardDirAcknowledged (node : BitVec 10) (s : State) : Res :=
  .next (if s.bl.shardOp.busy && s.bl.shardWait.contains node.toNat then
      let left := s.bl.shardWait.filter (· ≠ node.toNat)
      { s with bl := { s.bl with shardWait := left, shardOp := if left = [] then OpReg.done rOk else s.bl.shardOp } }
    else s)

/-! ### Job keys (R293, R294, R297, R426, R427) -/

def labelWrap : List Byte :=
  label [0x62, 0x72, 0x61, 0x6D, 0x62, 0x6C, 0x65, 0x20, 0x77, 0x72, 0x61, 0x70]

/-- The wrap key of a hop from one node to another (R426). -/
def wrapKey (src dst epoch : Nat) : BitVec 256 :=
  hkdf (Config.exchangeSecret src dst) (labelWrap ++ leBytes 2 src ++ leBytes 2 dst ++ leBytes 4 epoch)

/-- The additional data of a blob: its first 16 B. -/
def blobHead (gen key src epoch : Nat) : List Byte :=
  leBytes 4 gen ++ leBytes 1 key ++ leBytes 1 0 ++ leBytes 2 src ++ leBytes 4 epoch ++ leBytes 4 0

/-- A blob of 64 B. -/
def keyBlob (gen key src dst epoch : Nat) (k : BitVec 256) : List Byte :=
  let h := blobHead gen key src epoch
  let c := gcmSeal (wrapKey src dst epoch) (BitVec.ofNat 96 (leNat (h.take 12))) h (leBytes 32 k.toNat)
  h ++ padTo 32 c.1 ++ leBytes 16 c.2.toNat

/-- Both ends start the counters of a key at 0 when it is installed (R294). -/
def clearNonces (s : State) (key : Nat) : State :=
  { s with bl := { s.bl with nonces := s.bl.nonces.filter fun e => !decide (e.1 % 256 = key)
                             stopped := s.bl.stopped.filter fun e => !decide (e.1 % 256 = key) } }

def keyNote (s : State) (key : Nat) : State :=
  note s { source := srcId 9 0 1, part := keyPart s key, info := BitVec.ofNat 16 key }

/-- The node to which a KEY_INSTALL for a node goes next: one of another board gets it through the managers along the tree
(R426). -/
def keyHop (s : State) (n : Nat) : Nat :=
  if boardOf n = s.bl.board.toNat then n
  else match (mgmtPort s n).bind fun p => (blPort s p).node with
    | some h => h.toNat
    | none => n

/-- The next hop of a key for a node, and the body of its message: the blob under the wrap key of that hop, and the node
where it is another (R426; log entry 97). -/
def keyMsg (s : State) (gen key : Nat) (k : BitVec 256) (n : Nat) : Nat × List Byte :=
  let h := keyHop s n
  let blob := keyBlob gen key s.bl.nodeId.toNat h s.epoch.toNat k
  (h, if h = n then blob else blob ++ leBytes 2 n)

/-- The key of a blob from a node to this one, and whether its tag and its reserved fields are as they must be (R427). -/
def blobKey (s : State) (b : List Byte) : BitVec 256 :=
  BitVec.ofNat 256 (leNat (padTo 32 (gcmPlain (wrapKey (leAt b 6 2) s.bl.nodeId.toNat (leAt b 8 4))
    (BitVec.ofNat 96 (leNat (b.take 12))) ((b.drop 16).take 32))))

def blobFormed (b : List Byte) (tagOk : Bool) : Bool :=
  tagOk && decide (byteAt b 5 = 0 ∧ leAt b 6 2 / 1024 = 0 ∧ leAt b 12 4 = 0)

/-- Install a key in this complex (R293, R427); one for a revoked slot is refused (R437). -/
def takeKey (s : State) (src : Nat) (b : List Byte) (tagOk : Bool) : State :=
  let gen := leAt b 0 4
  let key := byteAt b 4
  let epoch := leAt b 8 4
  let rank := epoch * 2 ^ 32 + gen
  if key = 0 ∨ keyPart s key = none ∨ blobFormed b tagOk = false ∨ rank ≤ Tab.get 0 s.ps.lastKey key ∨
      (keySlot s key).st = .revoked then
    mgmtTo (keyNote s key) opKeyInstall src [1]
  else
    let k := blobKey s b
    let s := updKey s key fun _ =>
      { st := .active, gen := BitVec.ofNat 32 gen, epoch := BitVec.ofNat 32 epoch, key := k, install := some s.tick }
    let s := { s with ps := { s.ps with lastKey := Tab.set 0 s.ps.lastKey key rank } }
    mgmtTo (clearNonces s key) opKeyInstall src [0]

/-- A manager unwraps a key for another node and wraps it for the next hop (R426). -/
def relayKey (s : State) (src dst : Nat) (b : List Byte) (tagOk : Bool) : State :=
  let key := byteAt b 4
  if blobFormed b tagOk = false then mgmtTo (keyNote s key) opKeyInstall src ([1] ++ leBytes 2 dst)
  else
    let m := keyMsg s (leAt b 0 4) key (blobKey s b) dst
    mgmtTo { s with ps := { s.ps with relays := s.ps.relays ++ [⟨dst, src⟩] } } opKeyInstall m.1 m.2

/-- KEY_INSTALL (R293, R426, R427). -/
def execKeyInstall (hop : KeyHop) (blob : BitVec 512) (tagOk : Bool) (s : State) : Res :=
  let b := leBytes 64 blob.toNat
  .next (if !runsWork s || s.build.brambles.isEmpty || decide (s.ps.quince ≠ .running) then s
    else if hop.dst = s.bl.nodeId then takeKey s hop.src.toNat b tagOk
    else if s.role then relayKey s hop.src.toNat hop.dst.toNat b tagOk
    else s)

/-- KEY_NOTICE (R297): the manager may install a new key; the notice itself changes nothing. -/
def execKeyNotice (src : BitVec 10) (kind : NoticeKind) (keys : List Byte) (s : State) : Res :=
  match src, kind, keys with
  | _, _, _ => .next s

def jobDone (s : State) (r : Byte) : State := { s with ps := { s.ps with jobOp := OpReg.done r } }

/-- INSTALL: draw a key, take the next generation, and send a KEY_INSTALL to every node of the bitmap (R426). -/
def jobInstall (bus : Bus) (key : Nat) : Act Unit := do
  let s ← get
  let a := s.ps.jobNodes.toNat * 128
  let bs ← homeGet (sysVia s a) bus a 128
  let nodes := setBits 1024 (leNat bs)
  let k := Config.drbg s.ps.draws
  let gen := Tab.get 0 s.ps.nextGen key + 1
  modify fun s =>
    let s := { s with ps := { s.ps with
      draws := s.ps.draws + 1, nextGen := Tab.set 0 s.ps.nextGen key gen, jobWait := nodes, jobBad := false
      jobOp := if nodes = [] then OpReg.done rOk else OpReg.run } }
    each (fun s x => mgmtTo s opKeyInstall x.1 x.2) s (nodes.map (keyMsg s gen key k))

/-- A write of PS_JOBKEY_OP. -/
def jobWrite (s : State) (bus : Bus) (op key : Nat) : State :=
  if s.ps.jobOp.busy then s
  else
    let s := { s with ps := { s.ps with jobKey := BitVec.ofNat 8 key } }
    if op ≠ 1 ∨ key = 0 then jobDone s rFormat
    else if !(s.role && s.bl.ready) then jobDone s rState
    else if s.ps.locks.getLsbD 2 ∨ s.ps.quince ≠ .running then jobDone s rMgmt
    else runAct (jobInstall bus key) s (fun s _ => s) (fun s _ => jobDone s (BitVec.ofNat 8 (Config.freeWord s.free 0).toNat))

def execJobkeyInstall (key : Byte) (bus : Bus) (s : State) : Res := .next (if barOk s then jobWrite s bus 1 key.toNat else s)

/-- KEY_INSTALL_ANSWERED (R426): an answer of a node that this manager awaits itself, or one that it passes back towards
the manager that drew the key. -/
def execKeyInstallAnswered (node : BitVec 10) (accepted : Bool) (s : State) : Res :=
  .next (if s.ps.jobOp.busy && s.ps.jobWait.contains node.toNat then
      let left := s.ps.jobWait.filter (· ≠ node.toNat)
      let bad := s.ps.jobBad || !accepted
      { s with ps := { s.ps with
        jobWait := left, jobBad := bad, jobOp := if left = [] then OpReg.done (if bad then rRefused else rOk) else s.ps.jobOp } }
    else match s.ps.relays.find? fun r => r.node = node.toNat with
      | some r => mgmtTo { s with ps := { s.ps with relays := s.ps.relays.erase r } } opKeyInstall r.back
          ([if accepted then 0 else 1] ++ leBytes 2 node.toNat)
      | none => s)

/-- The key slots of a partition are revoked (R298, R312): its flits that wait go, the operations under its keys fail, and the
manager is told. -/
def revokeKeys (s : State) (bus : Bus) (p : BitVec 3) : State :=
  let ks := (List.range 256).filter fun k => decide (k ≠ 0 ∧ keyPart s k = some p)
  let s := each (fun s k => updKey s k fun x => { x with st := .revoked, key := 0 }) s ks
  let s := each (fun s q => updBl s q fun b => { b with txq := b.txq.filter fun f => f.part ≠ some p }) s
    (List.range s.build.brambles.length)
  let s := failReqs s bus fun r => ks.contains r.key.toNat
  let s := { s with bl := { s.bl with
    served := s.bl.served.filter fun e => !ks.contains e.2.key.toNat
    inbox := s.bl.inbox.filter fun e => !ks.contains e.2.key.toNat
    parts := s.bl.parts.filter fun x => !ks.contains x.key.toNat } }
  if s.bl.assigned && decide (ks ≠ []) then mgmtTo s opKeyNotice (managerNode s) (1 :: ks.map (BitVec.ofNat 8)) else s

end Sys2Proof.Machine
end

