-- ==== Sys2Proof/Machine/Commands.lean ====
section
/-! DEFINITION. Dispatch, the queue engine's own commands, the end of a command and the flushes that it waits for (spec
file 04, R127 to R138, R148 to R152; spec file 03, R94 to R96, R102). -/

namespace Sys2Proof.Machine

open Sys2Proof

/-! ### Which command goes next (R127 to R129) -/

/-- The commands of a queue that are dispatched and not complete: in flight, or with a record that waits. -/
def inFlight (s : State) (c : BitVec 12) (q : Nat) : List Nat :=
  (s.qe.cmds.filter fun e => decide (e.2.ctx = c ∧ e.2.q = q)).map (·.1) ++ (queueOf s c q).comps.map (·.cmd)

/-- R129 blocks a command of a queue. -/
def blocked (s : State) (c : BitVec 12) (q : Nat) (r : RawCmd) : Bool :=
  (r.fenced && !(inFlight s c q).isEmpty) ||
    s.qe.cmds.any fun e => decide (e.2.ctx = c ∧ e.2.q = q ∧ e.2.raw.opcode = opWait)

/-- The next command of a queue, if the queue is eligible. A command that a near-core queue has consumed before the domain
went down is dispatched all the same: R14 speaks only of entries not yet consumed (log entry 26). -/
def nextOf (s : State) (c : BitVec 12) (q : Nat) : Option RawCmd :=
  let x := ctxOf s c
  let y := queueOf s c q
  if x.slot.isSome && decide (x.st = .enabled) && !x.disabling && y.desc.en && !y.parked && !partClosing s x.part
      && decide ((inFlight s c q).length < 64) then
    match y.ready with
    | r :: _ => if blocked s c q r then none else some r
    | [] => none
  else none

/-- The eligible queues of a class, by queue ID, with the cost of their next command. -/
def eligible (s : State) (cls : Nat) : List (Nat × Nat) :=
  s.qe.ctxs.flatMap fun e => e.2.qs.filterMap fun q =>
    let c := BitVec.ofNat 12 e.1
    if q.2.desc.cls.toNat = cls then (nextOf s c q.1).map fun r => ((queueId c q.1).toNat, 1 + r.conts.length) else none

def qidCtx (k : Nat) : BitVec 12 := BitVec.ofNat 12 (k / 8)

/-- The round-robin register of a class: 0 before the first turn, else twice one more than the queue ID of the last
turn, plus 1 while that turn goes on. -/
def setTurn (s : State) (cls qid : Nat) (going : Bool) : State :=
  { s with qe := { s.qe with rr := Tab.set 0 s.qe.rr cls (2 * (qid + 1) + (if going then 1 else 0)) } }

/-- The first eligible queue after a queue ID, in round-robin order. -/
def afterQid (l : List (Nat × Nat)) (last : Option Nat) : Option (Nat × Nat) :=
  match last with
  | none => l.head?
  | some k => match l.find? fun e => k < e.1 with
    | some e => some e
    | none => l.head?

/-- Open turns until one can pay for its command (R127): the state and the queue. -/
def pickTurn (l : List (Nat × Nat)) (cls : Nat) : Nat → Option Nat → State → State × Option (Nat × Nat)
  | 0, _, s => (s, none)
  | fuel + 1, last, s =>
    match afterQid l last with
    | none => (s, none)
    | some e =>
      let c := qidCtx e.1
      let s := updQueue s c (e.1 % 8) fun y => { y with deficit := y.deficit + y.desc.quantum.toNat }
      if e.2 ≤ (queueOf s c (e.1 % 8)).deficit then (setTurn s cls e.1 true, some e)
      else pickTurn l cls fuel (some e.1) (setTurn s cls e.1 false)

/-- The queue that dispatches next in a class. -/
def pickQueue (s : State) (cls : Nat) : State × Option (Nat × Nat) :=
  let l := eligible s cls
  let r := Tab.get 0 s.qe.rr cls
  let last := if r = 0 then none else some (r / 2 - 1)
  match (if r % 2 = 1 then l.find? fun e => some e.1 = last else none) with
  | some e =>
    if e.2 ≤ (queueOf s (qidCtx e.1) (e.1 % 8)).deficit then (s, some e) else pickTurn l cls (18 * l.length + 1) last s
  | none => pickTurn l cls (18 * l.length + 1) last s

/-! ### The checks at dispatch (R130, R132 to R134) -/

def allBits : Word := 0xFFFFFFFFFFFFFFFF

/-- The bits of W1 to W7 that an opcode uses (R133); BAG_POOL checks its fields itself (R245). -/
def wordMasks : Nat → Option (List Word)
  | 0x00 => some [0, 0, 0, 0, 0, 0, 0]
  | 0x01 => some [allBits, 0xFFFF, 0, 0, 0, 0, 0]
  | 0x02 => some [allBits, allBits, 0x3FFFFFFFFF, 1, 0, 0, 0]
  | 0x03 => some [allBits, 0x3F, allBits, allBits, 0, 0, 0]
  | 0x04 => some [allBits, allBits, 0, 0, 0, 0, 0]
  | 0x05 => some [allBits, allBits, 0xFFFFFFFF, 0, 0, 0, 0]
  | 0x06 => some [1, 0, 0, 0, 0, 0, 0]
  | 0x08 => some [allBits, allBits, allBits, allBits, 0xFFF, 0, 0]
  | 0x09 => some [allBits, allBits, 0, 0, 0, 0, 0]
  | 0x0A => some [allBits, 0, 0, 0, 0, 0, 0]
  | 0x10 => some [allBits, allBits, allBits, allBits, allBits, allBits, allBits]
  | 0x11 => some [allBits, allBits, 0xFFFFFFFF, 0xFFFFFFFF00000003, 0, 0, 0]
  | 0x12 => some [allBits, allBits, 0xFFFFFFFF, 0, 0, 0, 0]
  | 0x13 => some [allBits, 3, 0x800000003FFFFFFF, 0, 0, 0, 0]
  | 0x14 => some [allBits, allBits, allBits, 0, 0, 0, 0]
  | 0x18 => some [allBits, allBits, allBits, 0xFF, 0, 0, 0]
  | 0x19 => some [allBits, allBits, 0xFF03FF, 0, 0, 0, 0]
  | 0x1C => some [0xFFF, 0xFF0000000F, 0, 0, 0, 0, 0]
  | 0x1D => some [0xFFF, allBits, allBits, 0, 0, 0, 0]
  | _ => none

/-- The chain length that the fields require: none where the field itself is out of range (R134). A REMOTE_WRITE whose chain
differs from it ends with BAD_CHAIN as every command does, where R306 names BAD_FIELD among others for its chain: the two
rules do not say which of them holds (DESIGN CHOICE, log entry 93). -/
def chainWant (r : RawCmd) : Option Nat :=
  let inline (n most per : Nat) : Option Nat := if 1 ≤ n ∧ n ≤ most then some (ceilDiv n per) else none
  if r.opcode = opWritePips then inline (bits (r.w 2) 15 0) 960 60
  else if r.opcode = opBagPool then
    if r.bInline then (if r.bSlots ≤ 112 then some (ceilDiv r.bSlots 7) else none) else some 0
  else if r.opcode = opKeyEvict then if r.w 2 = 0 then inline (bits (r.w 3) 31 0) 16777216 7 else some 0
  else if r.opcode = opRemoteWrite then if r.w 2 = 0 then inline (r.w 3).toNat 960 60 else some 0
  else some 0

/-- A continuation has its marker and position (R132). -/
def contOk (e : List Byte) (i : Nat) : Bool := decide (byteAt e 0 = 0xC0 ∧ byteAt e 2 = i + 1 ∧ byteAt e 3 = 0)

/-- A reserved bit of the head or of a continuation is set (R131 to R133). -/
def rawReserved (r : RawCmd) : Bool :=
  let keyFormat := [opBagPool, opKeyEvict].contains r.opcode
  decide (byteAt r.ent 1 / 2 ≠ 0 ∨ r.flags / 16 ≠ 0) ||
    (r.conts.any fun e => decide (byteAt e 1 / 2 ≠ 0) || (keyFormat && decide (leAt e 4 4 ≠ 0))) ||
    (match wordMasks r.opcode with
      | some ms => ms.zipIdx.any fun m => decide (r.w (m.2 + 1) &&& ~~~m.1 ≠ 0)
      | none => true)

/-- The command needs a unit that the build lacks (R7). -/
def unitAbsent (b : Build) (op : Nat) : Bool :=
  if op = opBagPool then decide (b.lanes = 0)
  else if op = opKeyAdmit ∨ op = opKeyEvict then decide (b.keySlices = 0)
  else if op = opCopy ∨ op = opRunChannel then decide (b.channels = 0)
  else if op = opRemoteWrite ∨ op = opRemoteSignal then b.brambles.isEmpty
  else false

/-- Values of OP and MODE that the masks leave (R182, R227). -/
def modeBad (r : RawCmd) : Bool :=
  if r.opcode = opOpenVersion then decide (2 ≤ bits (r.w 2) 1 0)
  else if r.opcode = opResume then decide (5 ≤ bits (r.w 2) 3 0)
  else false

/-- The first failure that the entries alone show (R134), none where they are well formed. -/
def entryFails (b : Build) (r : RawCmd) : Option Byte :=
  if (wordMasks r.opcode).isNone then some stBadOpcode
  else if unitAbsent b r.opcode then some stUnsupported
  else if 16 < r.chain then some stBadChain
  else match chainWant r with
    | none => some stBadField
    | some n =>
      if n ≠ r.chain ∨ (r.conts.zipIdx.all fun e => contOk e.1 e.2) = false then some stBadChain
      else if rawReserved r || modeBad r then some stBadField
      else none

/-- The handles of a command: word, types, and whether it may be null (R133). -/
def handlesOf (op : Nat) : List (Nat × List Nat × Bool) :=
  if op = opRunChannel then [(1, [tyProgram], false)]
  else if op = opObjectFree then [(1, [tyBuffer, tyTable, tyEvent, tyProgram], false)]
  else if op = opSignal ∨ op = opWait then [(1, [tyEvent], false)]
  else if op = opMap then [(2, [tyBuffer, tyProgram], false)]
  else if op = opBagPool ∨ op = opTableFlip then [(1, [tyTable], false), (2, [tyEvent], true)]
  else if op = opKeyAdmit ∨ op = opKeyEvict ∨ op = opOpenVersion then [(1, [tyTable], false)]
  else if op = opAbort then [(2, [tyEvent], true)]
  else []

/-- Check and pin the handles of a command in word order. -/
def pinHandles (bus : Bus) (id : Nat) (c : Cmd) : List (Nat × List Nat × Bool) → Act Unit
  | [] => pure ()
  | (w, tys, nullable) :: t => do
    let h := c.raw.w w
    if nullable && decide (h = 0) then pure ()
    else do
      let _ ← lookupHandle bus h tys c.part (decide (c.raw.opcode = opObjectFree))
      pinObj bus (hIndex h)
      modify fun s => updCmd s id fun c => { c with pins := c.pins ++ [hIndex h] }
    pinHandles bus id c t

/-- The fields that the owning chapters check at dispatch, once the handles are good (R202, R205, R245). -/
def fieldsBad (s : State) (r : RawCmd) (rowBytes : Nat) : Bool :=
  if r.opcode = opKeyAdmit then
    decide (16777216 < bits (r.w 3) 31 0 ∨ (r.w 2).toNat % 16 ≠ 0 ∨ 2 ≤ bits (r.w 4) 1 0)
  else if r.opcode = opKeyEvict then
    decide (bits (r.w 3) 31 0 < 1 ∨ 16777216 < bits (r.w 3) 31 0 ∨ (r.w 2).toNat % 8 ≠ 0)
  else if r.opcode = opBagPool then bagFieldsBad s r rowBytes
  else false

/-- The directory image that names a table for this node (R318). -/
def findDir (bus : Bus) (h : Word) : List Nat → Act (Option (Nat × Bool))
  | [] => pure none
  | d :: t => do
    let s ← get
    if !s.bl.shardEn || !(dirOf s d).valid then findDir bus h t
    else do
      let a := dirAddr s d (dirOf s d).cur
      let bs ← homeGet (sysVia s a) bus a 16384
      match entryFor bs s.bl.nodeId.toNat with
      | some x => if x.handle = h then pure (some (d, (dirOf s d).cur)) else findDir bus h t
      | none => findDir bus h t

/-- Everything that dispatch does to a command it has taken (R130, R233, R318). -/
def dispatchAct (bus : Bus) (id : Nat) (c : Cmd) : Act Unit := do
  let s ← get
  match entryFails s.build c.raw with
  | some st => failWith st
  | none => do
    pinHandles bus id c (handlesOf c.raw.opcode)
    if c.raw.opcode = opBagPool then do
      let o ← objGet bus (hIndex (c.raw.w 1))
      let t := tableDesc o.raw
      need (decide (t.keyVa = 0 ∨ s.build.keySlices ≠ 0)) stUnsupported
      need (!fieldsBad s c.raw t.rowBytes) stBadField
      if t.keyVa ≠ 0 then do
        let d ← findDir bus (c.raw.w 1) (List.range 64)
        modify fun s => updCmd s id fun c => { c with dir := d }
      pinVersion bus id c
    else need (!fieldsBad s c.raw 0) stBadField

/-- Take the next command of a queue and dispatch it. -/
def dispatchFrom (s : State) (bus : Bus) (c : BitVec 12) (q : Nat) (r : RawCmd) : State :=
  let x := ctxOf s c
  let n := fresh s
  let s := updQueue n.1 c q fun y =>
    { y with ready := y.ready.tail
             deficit := if y.ready.tail = [] then 0 else y.deficit - (1 + r.conts.length) }
  let s := { s with qe := { s.qe with stamp := s.qe.stamp + 1 } }
  let s := updCtx s c fun x => { x with commands := x.commands + 1, used := s.qe.stamp }
  let cmd : Cmd :=
    { ctx := c, q := q, part := x.part, raw := r, phase := .dispatched, status := stOk, progress := 0, detail := 0
      faultAddr := 0, faultSrc := srcId 3 0 0, pins := [], vpin := none, dir := none, ports := [], work := .none }
  let s := { s with qe := { s.qe with cmds := Tab.insert s.qe.cmds n.2 cmd } }
  let s := traceAdd s 0 c ((r.ent.take 16))
  match dispatchAct bus n.2 cmd s with
  | .ok _ s' => s'
  | .error e s' => stopCmd n.2 s' e

/-- Whether the dispatch of the command must wait for near cores: only its recalls stand. -/
def dispatchWaits (s : State) (bus : Bus) (c : BitVec 12) (q : Nat) (r : RawCmd) : Option State :=
  let cmd : Cmd :=
    { ctx := c, q := q, part := (ctxOf s c).part, raw := r, phase := .dispatched, status := stOk, progress := 0, detail := 0
      faultAddr := 0, faultSrc := srcId 3 0 0, pins := [], vpin := none, dir := none, ports := [], work := .none }
  match dispatchAct bus s.nextId cmd { s with qe := { s.qe with cmds := Tab.insert s.qe.cmds s.nextId cmd } } with
  | .error .wait s' => some (waitBack s s')
  | _ => none

/-- Dispatch one command of the highest class that has an eligible queue. -/
def dispatchClass (bus : Bus) : List Nat → State → State
  | [], s => s
  | cls :: t, s =>
    match pickQueue s cls with
    | (s', some e) =>
      let c := qidCtx e.1
      match nextOf s' c (e.1 % 8) with
      | some r =>
        match dispatchWaits s' bus c (e.1 % 8) r with
        | some w => w
        | none => dispatchFrom s' bus c (e.1 % 8) r
      | none => s'
    | (_, none) => dispatchClass bus t s

/-- DISPATCH (R127). -/
def execDispatch (bus : Bus) (s : State) : Res :=
  .next (if runsWork s && !draining s then dispatchClass bus [0, 1, 2, 3] s else s)

/-! ### NOP, WRITE_PIPS, SIGNAL, WAIT, FLUSH (R135, R136, R148, R149) -/

def execNop (cmd : Nat) (s : State) : Res := .next (runCmd s cmd opNop fun _ => okCmd cmd)

/-- WRITE_PIPS: the bytes written so far stay written. R162 has no row for it; its writes are checked as the queue engine's
(DESIGN CHOICE, log entry 89). -/
def writePipsAct (bus : Bus) (id : Nat) (c : Cmd) : Act Unit := fun s =>
  let data := (c.raw.pips.take (bits (c.raw.w 2) 15 0)).drop c.progress
  let r := cmdReq id c .engine (c.raw.w 1 + BitVec.ofNat 64 c.progress) .write
  let w := vaWrite s bus r data true (engineVia c.part)
  let s' := setProgress w.1 id (c.progress + w.2.1)
  match w.2.2 with
  | none => okCmd id s'
  | some e => .error e s'

def execWritePips (cmd : Nat) (bus : Bus) (s : State) : Res := .next (runCmd s cmd opWritePips (writePipsAct bus cmd))

def signalAct (bus : Bus) (id : Nat) (c : Cmd) : Act Unit := do
  let o ← objGet bus (hIndex (c.raw.w 1))
  signalEvent bus o (c.raw.w 1) (c.raw.w 2) c.ctx (cmdReq id c .engine 0 .atomic)
  okCmd id

def execSignal (cmd : Nat) (bus : Bus) (s : State) : Res := .next (runCmd s cmd opSignal (signalAct bus cmd))

/-- WAIT: the address is translated once, then the line is watched. -/
def waitAct (bus : Bus) (id : Nat) (c : Cmd) : Act Unit := do
  let o ← objGet bus (hIndex (c.raw.w 1))
  let t ← trAct bus { cmdReq id c .engine (BitVec.ofNat 64 o.va) .read with ctx := o.ctx }
  let v ← eventValue bus o.part id t.1
  let limit := bits (c.raw.w 3) 31 0
  if (c.raw.w 2).toNat ≤ v then okCmd id
  else modify fun s => updCmd s id fun c => { c with
    phase := .running
    work := .waiting (t.1 / 64) t.1 (c.raw.w 2) (if limit = 0 then none else some (s.tick + limit * 1000)) }

def execWait (cmd : Nat) (bus : Bus) (s : State) : Res := .next (runCmd s cmd opWait (waitAct bus cmd))

/-- Look at one pending WAIT of a command: satisfied, it ends, and its context loads if it is not resident (R117). -/
def waitEval (s : State) (bus : Bus) (id : Nat) : State :=
  match cmdOf s id with
  | none => s
  | some c =>
    match c.phase, c.work with
    | .running, .waiting _ a target _ =>
      runAct (eventValue bus c.part id a) s
        (fun s v => if target.toNat ≤ v then startLoad (endCmd s id stOk 0) c.ctx else s) (stopCmd id)
    | _, _ => s

/-- WAIT_EVALUATE (R148, R149, R354): signals of the complex that wait for a near core are tried again, and every pending
wait, of commands and of channels, is looked at. -/
def execWaitEvaluate (bus : Bus) (s : State) : Res :=
  if !runsWork s then .next s
  else
    let s := each (fun s e => if e.2.held.isNone then trySignal s bus e.1 else s) s s.qe.sigs
    let s := each (fun s e => waitEval s bus e.1) s s.qe.cmds
    .next (each (fun s e => settleRun (chanEval s bus e.1) bus e.1) s s.mv.chans)

/-- WAIT_TIMEOUT (R149): a WAIT whose event has reached TARGET by then ends OK, any other TIMEOUT. -/
def execWaitTimeout (cmd : Nat) (s : State) : Res :=
  match cmdOf s cmd with
  | none => .next s
  | some c =>
    match c.phase, c.work with
    | .running, .waiting _ a target (some t) =>
      .next (if runsWork s then
        runAct (eventValue [] c.part cmd a) (reach s t)
          (fun s v => if target.toNat ≤ v then startLoad (endCmd s cmd stOk 0) c.ctx else endCmd s cmd stTimeout 0)
          (fun s _ => endCmd s cmd stTimeout 0)
      else s)
    | _, _ => .next s

/-- A command of the context that was dispatched before has not completed. -/
def earlierLeft (s : State) (c : BitVec 12) (id : Nat) : Bool :=
  (s.qe.cmds.any fun e => decide (e.1 < id ∧ e.2.ctx = c)) ||
    (List.range 8).any fun q => (queueOf s c q).comps.any fun r => decide (r.cmd < id)

/-- The host ports that commands without CR wrote, of a queue or of every queue, become the flush's own. -/
def takeDirty (s : State) (id : Nat) (c : BitVec 12) (qs : List Nat) : State :=
  each (fun s q =>
    let d := (queueOf s c q).dirty
    updCmd (updQueue s c q fun y => { y with dirty := [] }) id fun c =>
      { c with ports := d.foldl (fun l p => usedPort l p.1 p.2) c.ports }) s qs

/-- FLUSH (R136); the flush reads follow at COMMAND_END. -/
def flushAct (id : Nat) (c : Cmd) : Act Unit := do
  let s ← get
  let all := bit (c.raw.w 1) 0
  if all && earlierLeft s c.ctx id then pure ()
  else do
    modify fun s => takeDirty s id c.ctx (if all then List.range 8 else [c.q])
    okCmd id

def execFlush (cmd : Nat) (s : State) : Res := .next (runCmd s cmd opFlush (flushAct cmd))

/-! ### CONTEXT_RESUME and CONTEXT_ABORT (R137, R182) -/

def targetOf (c : Cmd) : BitVec 12 := BitVec.ofNat 12 (bits (c.raw.w 1) 11 0)

/-- The issuing context may name the target (R137). -/
def ctrlOk (c : Cmd) : Act Unit := do
  let s ← get
  need ((ctxOf s c.ctx).ctrl && decide (ctxPart s (targetOf c) = some c.part)) stCtrl

/-- Run a CONTEXT_RESUME row of one MODE. -/
def resumeCmd (s : State) (id mode : Nat) (m : Cmd → Act Unit) : State :=
  runCmd s id opResume fun c => if bits (c.raw.w 2) 3 0 = mode then do
    ctrlOk c
    m c
    okCmd id
  else pure ()

/-- MODE 0: the target goes on after its failed command. -/
def resumeTarget (c : Cmd) : Act Unit := do
  let s ← get
  let r := ctxResume s (targetOf c)
  need (decide (r.2 = rOk)) stState
  set r.1

def execContextResume (cmd : Nat) (s : State) : Res := .next (resumeCmd s cmd 0 resumeTarget)

def execResumeRetryAll (cmd : Nat) (bus : Bus) (s : State) : Res :=
  .next (resumeCmd s cmd 1 fun c => modify fun s => retryCtx s bus (targetOf c))

def execResumeAbortAll (cmd : Nat) (bus : Bus) (s : State) : Res :=
  .next (resumeCmd s cmd 2 fun c => modify fun s => abortCtx s bus (targetOf c))

/-- The slot that MODE names: it must be HELD and of the target. -/
def namedSlot (c : Cmd) : Act Nat := do
  let s ← get
  let k := bits (c.raw.w 2) 39 32
  need (decide ((fltSlot s k).st = .held ∧ (fltSlot s k).ctx = targetOf c)) stState
  pure k

def execResumeRetrySlot (cmd : Nat) (bus : Bus) (s : State) : Res :=
  .next (resumeCmd s cmd 3 fun c => do
    let k ← namedSlot c
    modify fun s => retrySlot s bus k)

def execResumeAbortSlot (cmd : Nat) (bus : Bus) (s : State) : Res :=
  .next (resumeCmd s cmd 4 fun c => do
    let k ← namedSlot c
    modify fun s => endSlot s bus k .aborted)

/-- CONTEXT_ABORT: the target aborts; its event follows when the target is DISABLED. -/
def contextAbortAct (bus : Bus) (id : Nat) (c : Cmd) : Act Unit := do
  ctrlOk c
  let s ← get
  let r := ctxAbort s bus (targetOf c)
  need (decide (r.2 = rOk)) stState
  let sig : AbortSignal := ⟨targetOf c, c.raw.w 2, c.raw.w 3, c.part, c.ctx⟩
  set (if c.raw.w 2 = 0 then r.1 else { r.1 with qe := { r.1.qe with aborts := r.1.qe.aborts ++ [sig] } })
  okCmd id

def execContextAbort (cmd : Nat) (bus : Bus) (s : State) : Res :=
  .next (runCmd s cmd opAbort (contextAbortAct bus cmd))

/-! ### COMMAND_END (R27, R94, R95, R130, R151) -/

/-- Release the pins of a command that has ended. -/
def releasePins (bus : Bus) (id : Nat) (c : Cmd) : Act Unit := do
  forAll (fun i => do
    let _ ← attempt (unpinObj bus i)) c.pins
  modify fun s => releasePin s bus c.vpin
  modify fun s => updCmd s id fun c => { c with pins := [], vpin := none, dir := none }

/-- The host ports whose flush a command's completion waits for. -/
def flushPorts (s : State) (c : Cmd) : List (Nat × Word) :=
  if (c.raw.cr || c.raw.opcode = opFlush) && !(ctxOf s c.ctx).sret then c.ports else []

/-- After its pins: flush reads, or the completion. -/
def afterPins (s : State) (bus : Bus) (id : Nat) : State :=
  match cmdOf s id with
  | none => s
  | some c =>
    let ps := flushPorts s c
    if ps ≠ [] then
      if fnIssues s (ctxFn s c.ctx) then
        let r := ps.foldl (fun (r : State × List Nat) p =>
          let f := startFlush r.1 c.ctx p.1 p.2 (.cmd id)
          (f.1, r.2 ++ [f.2])) (s, [])
        updCmd r.1 id fun c => { c with phase := .flushing r.2 }
      else s
    else
      complete (updQueue s c.ctx c.q fun y => { y with dirty := c.ports.foldl (fun l p => usedPort l p.1 p.2) y.dirty }) bus id

/-- The queues in which the record of a command that has completed stands first. -/
def recordQueues (s : State) (id : Nat) : List (BitVec 12 × Nat) :=
  s.qe.ctxs.flatMap fun e => e.2.qs.filterMap fun q =>
    if (q.2.comps.map (·.cmd)).head? = some id then some (BitVec.ofNat 12 e.1, q.1) else none

/-- COMMAND_END; sent again for a command whose record waits for a line that a near core holds, it writes the record (log
entry 22). -/
def execCommandEnd (cmd : Nat) (bus : Bus) (s : State) : Res :=
  match cmdOf s cmd with
  | none => .next (if runsWork s then each (fun s e => compFlow s bus e.1 e.2) s (recordQueues s cmd) else s)
  | some c =>
    .next (if c.phase = .finished ∧ runsWork s = true then
      runAct (releasePins bus cmd c) s (fun s _ => pumpDirs (afterPins s bus cmd) bus) (fun s _ => s) else s)

/-! ### Flush reads (R94 to R96) -/

/-- A flush read that a command waits for is over. -/
def cmdFlushed (s : State) (bus : Bus) (id fl : Nat) (ok : Bool) : State :=
  match cmdOf s id with
  | none => s
  | some c =>
    match c.phase with
    | .flushing l =>
      let left := l.filter (· ≠ fl)
      let s := updCmd s id fun c => { c with
        phase := .flushing left
        status := if !ok && decide (c.status = stOk) then stFlushFailed else c.status }
      if left = [] then complete s bus id else s
    | _ => s

/-- The event of an admission ring follows its flush, with the value of POSTED that it covers (R216); one that could not be
flushed or signalled is tried again. -/
def admitFlushed (s : State) (bus : Bus) (obj : Nat) (ok : Bool) : State :=
  let again (s : State) : State := updTable s obj fun t => { t with unsent := true }
  if !ok then again s
  else match keyUse bus { owner := .free, user := .key, ctx := 0, va := 0, acc := .read } obj s with
    | .ok u s' => postSignal s' bus u.desc.event (Tab.get {} s.kt.tables obj).flushVal u.obj.part u.obj.ctx
    | .error .wait s' => again (waitBack s s')
    | .error _ s' => again s'

/-- A flush read that served a completion is over. -/
def coverOver (s : State) (bus : Bus) (fl : Nat) (ok : Bool) : FlushFor → State
  | .cmd id => cmdFlushed s bus id fl ok
  | .chan ch => chanFlushed s bus ch fl ok
  | .served id => servedFlushed s id ok
  | .admission o => admitFlushed s bus o ok

/-- A flush read of a port is over, with every completion that it covers (R94, R96). -/
def flushOver (s : State) (bus : Bus) (port fl : Nat) (ok : Bool) : State :=
  match Tab.find? (hostPort s port).flushes fl with
  | none => s
  | some f =>
    let s := updHost s port fun h => { h with flushes := Tab.erase h.flushes fl }
    each (fun s c => coverOver s bus fl ok c) s f.covers

/-- The context whose data a flush covers: that of the first completion it covers. -/
def flushCtx (s : State) (f : Flush) : Option (BitVec 12) :=
  match f.covers.head? with
  | some (.cmd id) => (cmdOf s id).map (·.ctx)
  | some (.chan ch) => ((chan s ch).run).map (·.ctx)
  | _ => none

/-- The fault of a flush read that fails: 2 FLUSH, 3 FLUSH_TIMEOUT (R96). -/
def flushNote (s : State) (port fl kind : Nat) : State :=
  match Tab.find? (hostPort s port).flushes fl with
  | none => s
  | some f =>
    let c := flushCtx s f
    note s { source := srcId 1 port kind, address := f.addr, access := 0, ctx := c, part := c.map fun c => (ctxOf s c).part }

/-- A flush read of the port is in flight. -/
def flushing (s : State) (port fl : Nat) : Bool := (Tab.find? (hostPort s port).flushes fl).isSome

/-- FLUSH_READ_COMPLETION. R96 names no AER message for a read that ends in Unsupported Request or Completer Abort; the
model reports each as itself (DESIGN CHOICE, log entry 80). -/
def execFlushReadCompletion (port fl : Nat) (st : FlushStatus) (bus : Bus) (s : State) : Res :=
  if !flushing s port fl then .next s
  else match st with
    | .ok => .next (flushOver s bus port fl true)
    | .ur => .next (flushOver (emit (flushNote s port fl 2) (.aer port .flushUr)) bus port fl false)
    | .ca => .next (flushOver (emit (flushNote s port fl 2) (.aer port .flushCa)) bus port fl false)

/-- The Completion Timeout Value of the function that sent a flush read passes (R96). -/
def flushLate (s : State) (port fl : Nat) : State :=
  match Tab.find? (hostPort s port).flushes fl with
  | some f => reach s (f.tick + 1000 * (fnState s f.fn).cto)
  | none => s

/-- FLUSH_READ_TIMEOUT. -/
def execFlushReadTimeout (port fl : Nat) (bus : Bus) (s : State) : Res :=
  if !flushing s port fl then .next s
  else .next (flushOver (emit (flushNote (flushLate s port fl) port fl 3) (.aer port .completionTimeout)) bus port fl false)

/-! ### MSI-X and waiting records (R100, R102, R152) -/

/-- Send the pending message of a vector that is neither masked nor held by its function. -/
def msixSend (s : State) (fn : Fn) (v : Nat) : State :=
  let x := Tab.get {} (fnState s fn).msix v
  if x.pending && !x.masked && !msixOff s fn && !safeState s then
    emit (updFn s fn fun f => { f with msix := Tab.upd {} f.msix v fun x => { x with pending := false, via := 0 } })
      (.msix x.via fn v x.addr x.data)
  else s

/-- MSI_X_UNMASK. -/
def execMsiXUnmask (fn : Fn) (vector : Nat) (s : State) : Res :=
  if fnExists s fn ∧ vector < vectorsOf fn then
    .next (msixSend (updFn s fn fun f => { f with msix := Tab.upd {} f.msix vector fun x => { x with masked := false } }) fn vector)
  else .next s

/-- The NOTE of 1 ms of waiting (R100, R152). -/
def ringWaitNote (s : State) (c : BitVec 12) (q : Option Nat) : State :=
  note s { source := srcId 3 0 2, ctx := some c, part := some (ctxOf s c).part
           queue := (q.map (queueId c)).getD 0x7FFF }

/-- COMPLETION_RING_FULL_NOTE. -/
def execCompletionRingFullNote (ctx : BitVec 12) (q : Nat) (s : State) : Res :=
  let y := queueOf s ctx q
  .next (if runsWork s && !(ctxOf s ctx).sret && !y.comps.isEmpty && !compRoom y then ringWaitNote s ctx (some q) else s)

/-- Units of the bounce ring that the next RESULT record of a run needs, where bytes for the host are at hand. -/
def runWants (r : Run) : Option Nat :=
  match r.cur with
  | some e =>
    let w0 := e.words.headD 0
    let dw := mDw w0
    let dp := pitchOf (bits (e.words.getD 3 0) 63 32) dw
    if mKind w0 = 1 ∧ e.k < e.kr then
      some (resultUnits (strAddr e.dst dw dp e.k).toNat (min (runEnd e.dst dw dp (mLen w0) e.k) e.kr - e.k))
    else none
  | none => none

/-- BOUNCE_RING_FULL_NOTE: a completion record or a result of the context waits for bounce-ring space (R100, R152). -/
def execBounceRingFullNote (ctx : BitVec 12) (s : State) : Res :=
  let x := ctxOf s ctx
  let comp := decide (bounceFree x < 2) && (List.range 8).any fun q => !(queueOf s ctx q).comps.isEmpty
  let run := s.mv.chans.any fun e => match e.2.run with
    | some r => decide (r.ctx = ctx) && (runWants r).any fun n => decide (bounceFree x < n)
    | none => false
  .next (if runsWork s && x.sret && (comp || run) then ringWaitNote s ctx none else s)

end Sys2Proof.Machine
end

