-- ==== Sys2Proof/Machine/Host.lean ====
section
/-! DEFINITION. Events of the host ports (spec file 03): links, function resets, D-states, AER events, TDI states (R67,
R68, R104, R106 to R109). -/

namespace Sys2Proof.Machine

open Sys2Proof

/-! ### Links (R67, R68, R106) -/

/-- A host link in P2 is in L1 where the function 0 of its port enables ASPM L1 (R109, R472). -/
def settleL1 (s : State) (p : Nat) : State :=
  updHost s p fun h => { h with linkL1 := h.linkUp && decide (s.tp.pwr = .p2) && (Tab.get {} h.fns 0).aspmL1 }

/-- HOST_LINK_UP: the link trains in Flit Mode within the width and rate that the build has for the port. -/
def execHostLinkUp (port width : Nat) (rate : BitVec 3) (s : State) : Res :=
  match s.build.hostPorts[port]? with
  | none => .next s
  | some b =>
    if [1, 2, 4, 8, 16].contains width && decide (width ≤ b.width ∧ rate.toNat ≤ b.rate.toNat ∧ s.tp.pwr ≠ .p3)
        && !s.tp.held.contains port then
      .next (settleL1 (updHost s port fun h =>
        { h with linkUp := true, flit := true, noFlit := false, width := BitVec.ofNat 6 width, rate := rate }) port)
    else .next s

/-- LINK_PARTNER_NO_FLIT. -/
def execLinkPartnerNoFlit (port : Nat) (s : State) : Res :=
  let h := hostPort s port
  if hostExists s port && !h.linkUp && !h.noFlit && decide (s.tp.pwr ≠ .p3) then
    .next (note (updHost s port fun h => { h with noFlit := true }) { source := srcId 1 port 7 })
  else .next s

def execMalformedTlp (port : Nat) (s : State) : Res := .next (portEvent s port 6 .uncorrectable)

def execUnexpectedCompletion (port : Nat) (s : State) : Res := .next (portEvent s port 4 .unexpected)

def execReceiverError (port : Nat) (s : State) : Res := .next (portEvent s port 5 .correctable)

/-! ### What a function reaches (R71, R107) -/

/-- The contexts of a function: those whose entry names it, and those in its context map. -/
def fnCtxs (s : State) (fn : Fn) : List (BitVec 12) :=
  let mapped := (hostPort s fn.port).ctxMap.filterMap fun e =>
    if fn.vf ≠ 0 ∧ e.1 / 64 = fn.vf ∧ e.2.valid = true then some e.2.ctx.toNat else none
  (s.qe.ctxs.filter fun e => decide (e.2.st ≠ .disabled) &&
    (decide (ctxFn s (BitVec.ofNat 12 e.1) = fn) || mapped.contains e.1)).map fun e => BitVec.ofNat 12 e.1

/-- The apertures of a function go to FAILED with ABANDONED. -/
def abandonAps (s : State) (fn : Fn) : State :=
  each (fun s e => if e.2.en && decide (e.2.owner.toNat = fn.vf) then failAp s fn.port e.1 aeAbandoned else s) s
    (hostPort s fn.port).aps

/-- Abort every context of a function. -/
def abortFnCtxs (s : State) (bus : Bus) (fn : Fn) : State := each (fun s c => (ctxAbort s bus c).1) s (fnCtxs s fn)

/-! ### Function resets (R107, R463) -/

/-- The reset of one function; its configuration returns to its reset values, but for Max Payload Size (log entry 7). A
host link in P2 returns to L0 where function 0 no longer enables ASPM L1 (R109). -/
def resetFn (s : State) (fn : Fn) : State :=
  let s := abandonAps (abortFnCtxs s [] fn) fn
  let s := { s with wws := s.wws.filter fun w => !(w.2.unissued && decide (w.2.port = fn.port ∧ w.2.vf = fn.vf)) }
  settleL1 (updFn s fn fun f => { enabled := f.enabled, tdi := f.tdi, mps := f.mps, flr := f.flr }) fn.port

/-- The functions that an FLR reaches. -/
def flrScope (s : State) (fn : Fn) : List Fn :=
  if fn.vf = 0 then (List.range (((s.build.hostPorts[fn.port]?).map (·.vfs)).getD 0 + 1)).map fun v => ⟨fn.port, v⟩ else [fn]

def flrOf (s : State) (fn : Fn) : State := wwPump (each resetFn s (flrScope s fn)) []

/-- FLR: it is complete once the window writes that ingest had issued have ended (R107). -/
def execFlr (fn : Fn) (s : State) : Res :=
  .next (if fnExists s fn && s.tp.ready && decide (s.tp.pwr ≠ .p3) then
    flrSettle (updFn (flrOf s fn) fn fun f => { f with flr := some s.nextId }) fn.port else s)

/-- The reset of a host port (R463): its link, and its functions as a PF FLR; IDE and TDISP state goes too. -/
def portReset (s : State) (port : Nat) : State :=
  let s := if s.tp.ready then flrOf s ⟨port, 0⟩ else s
  updHost s port fun h => { h with
    linkUp := false, flit := false, noFlit := false, width := 0, rate := 0, ideLink := false, linkL1 := false
    streams := [], syncs := [], fns := [] }

/-- A host port reset: ignored in TERMINAL (R464); during a complex reset the port is held until both have ended. Any reset
ends the Wambe session (R418). -/
def hostReset (s : State) (port : Nat) : State :=
  if !hostExists s port || decide (s.fc.cls = .terminal) then s
  else
    let s := portReset { s with ps := { s.ps with session := none } } port
    if s.tp.resetting.isSome then { s with tp := { s.tp with held := port :: s.tp.held.filter (· ≠ port) } } else s

def execHostPortReset (port : Nat) (s : State) : Res := .next (hostReset s port)

/-! ### D-states (R102, R108) -/

/-- The records and messages of a function that waited go out. -/
def fnResume (s : State) (fn : Fn) : State :=
  let s := each (fun s e => msixSend s fn e.1) s (fnState s fn).msix
  each (fun s e =>
    let c := BitVec.ofNat 12 e.1
    if ctxFn s c = fn then each (fun s q => compFlow s [] c q) s (List.range 8) else s) s s.qe.ctxs

/-- The configuration of a function as the host writes it; a TDI that is CONFIG_LOCKED or in RUN keeps its BARs (R104). -/
def putCfg (frozen : Bool) (cfg : FnCfg) (f : FnState) : FnState :=
  { f with
    d3hot := cfg.d3hot, busMaster := cfg.busMaster, enabled := cfg.enabled, pasidEn := cfg.pasidEn, aspmL1 := cfg.aspmL1
    msixEn := cfg.msixEn, fnMask := cfg.fnMask, mps := cfg.mps, cto := cfg.cto
    bar0 := if frozen then f.bar0 else cfg.bar0, bar2 := if frozen then f.bar2 else cfg.bar2
    bar4 := if frozen then f.bar4 else cfg.bar4 }

/-- D_STATE_CHANGE: the configuration of a function changes. -/
def execDStateChange (fn : Fn) (cfg : FnCfg) (s : State) : Res :=
  if !fnExists s fn then .next s
  else
    let s := settleL1 (updFn s fn (putCfg (tdiFrozen s fn.port fn.vf) cfg)) fn.port
    .next (if fnIssues s fn && !safeState s then fnResume s fn else s)

/-! ### TDIs (R104) -/

/-- The transitions of a TDI that TDISP has. -/
def tdiMoves : TdiState → TdiState → Bool
  | .unlocked, .locked => true
  | .locked, .run => true
  | .locked, .error => true
  | .run, .error => true
  | .locked, .unlocked => true
  | .run, .unlocked => true
  | .error, .unlocked => true
  | _, _ => false

/-- TDI_STATE_CHANGE: a TDI that enters ERROR loses its apertures and its contexts. -/
def execTdiStateChange (fn : Fn) (st : TdiState) (bus : Bus) (s : State) : Res :=
  if fn.vf ≠ 0 ∧ fnExists s fn = true ∧ s.tp.ready = true ∧ s.tp.pwr ≠ .p3 ∧ tdiMoves (fnState s fn).tdi st = true then
    let s := updFn s fn fun f => { f with tdi := st }
    .next (if st = .error then wwPump (abortFnCtxs (abandonAps s fn) bus fn) bus else s)
  else .next s

end Sys2Proof.Machine
end

