-- ==== Sys2Proof/Machine/Partitions.lean ====
section
/-! DEFINITION. Partitions (spec file 14, R410 to R415, R434 to R437): the partition table, LOCK and UNLOCK, teardown and
its scrub. -/

namespace Sys2Proof.Machine

open Sys2Proof

/-! ### System structures (R413) -/

/-- The system structures that the registers name, as address and size. A base register that names nothing yet counts for
none (log entry 49). -/
def sysStructs (s : State) : List (Nat × Nat) :=
  let pools := s.tu.pools.filterMap fun e =>
    if e.2.log2 = 0 then none else some (e.2.base.toNat * 4096, 16 * 2 ^ e.2.log2.toNat)
  let one (c : Bool) (a n : Nat) : List (Nat × Nat) := if c then [(a, n)] else []
  (s.qe.ctxBase.toNat * 0x200000, 0x200000) ::
    (one (s.qe.objLog2 ≠ 0) (s.qe.objBase.toNat * 4096) (64 * objCount s) ++ pools ++
      one s.bl.shardEn (s.bl.shardBase.toNat * 0x400000) 0x204000 ++
      one (s.tp.saveBase ≠ 0) (s.tp.saveBase.toNat * 0x100000) 0x100000 ++
      one (s.ps.jobNodes ≠ 0) (s.ps.jobNodes.toNat * 128) 128 ++
      one (s.ps.traceSrc ≠ 0) s.ps.traceBase.toNat (32 * 2 ^ s.ps.traceLog2))

/-- The byte range of an entry of PS_PART_RANGE. -/
def PRange.lo (r : PRange) : Nat := r.base.toNat * unit2M
def PRange.hi (r : PRange) : Nat := (r.base.toNat + r.size.toNat) * unit2M

/-- The ranges in use of a partition, in ascending index. -/
def rangesOf (s : State) (p : BitVec 3) : List PRange := (partOf s p).ranges.filterMap fun e => if e.2.size = 0 then none else some e.2

/-- A byte range meets a range of a partition. -/
def meetsPart (s : State) (p : BitVec 3) (a n : Nat) : Bool := (rangesOf s p).any fun r => decide (r.lo < a + n ∧ a < r.hi)

/-- The partitions of the build. -/
def allParts (s : State) : List (BitVec 3) := (List.range s.build.partitions).map (BitVec.ofNat 3)

/-- A structure may be placed at an address: it meets no range of a LOCKED confidential partition (R413). -/
def placeOk (s : State) (a n : Nat) : Bool :=
  (allParts s).all fun p => !((partOf s p).conf && decide ((partOf s p).st = .locked) && meetsPart s p a n)

/-! ### The partition table (R410, R411) -/

/-- PS_PART_CFG as a word. -/
def Part.cfgWord (x : Part) : Nat :=
  x.ctxCount.toNat * 2 ^ 48 + x.ctxBase.toNat * 2 ^ 32 + x.slotCount.toNat * 2 ^ 18 + x.slotBase.toNat * 2 ^ 10 + flagAt x.conf 0

/-- PS_PART_RANGE as a word. -/
def PRange.word (r : PRange) : Nat := r.size.toNat * 2 ^ 27 + r.base.toNat

/-- Two index ranges meet. -/
def meets (a n b m : Nat) : Bool := decide (0 < n ∧ 0 < m ∧ a < b + m ∧ b < a + n)

/-- Some context of a partition is not DISABLED. -/
def partLive (s : State) (p : BitVec 3) : Bool :=
  s.qe.ctxs.any fun e => decide (e.2.st ≠ .disabled ∧ ctxPart s (BitVec.ofNat 12 e.1) = some p)

/-- A write of PS_PART_CFG. -/
def cfgWrite (s : State) (p : BitVec 3) (v : Word) : State :=
  let x := partOf s p
  if x.st ≠ .opened then s
  else
    let y : Part := { x with
      ctxCount := BitVec.ofNat 13 (bits v 60 48), ctxBase := BitVec.ofNat 12 (bits v 43 32)
      slotCount := BitVec.ofNat 7 (bits v 24 18), slotBase := BitVec.ofNat 6 (bits v 15 10), conf := bit v 0 }
    let moved := decide (y.ctxCount ≠ x.ctxCount ∨ y.ctxBase ≠ x.ctxBase ∨ y.slotCount ≠ x.slotCount ∨ y.slotBase ≠ x.slotBase)
    let clash := (allParts s).any fun q => decide (q ≠ p) &&
      (meets y.ctxBase.toNat y.ctxCount.toNat (partOf s q).ctxBase.toNat (partOf s q).ctxCount.toNat ||
        meets y.slotBase.toNat y.slotCount.toNat (partOf s q).slotBase.toNat (partOf s q).slotCount.toNat)
    if clash || decide (4096 < y.ctxCount.toNat ∨ 64 < y.slotCount.toNat) then s
    else if moved && partLive s p then updPart s p fun x => { x with conf := y.conf }
    else updPart s p fun _ => y

/-- A write of PS_PART_RANGE. What was admitted before completes under the ranges that admitted it (R13). -/
def rangeWrite (s : State) (p : BitVec 3) (r : Nat) (v : Word) : State :=
  let x := partOf s p
  let y : PRange := ⟨BitVec.ofNat 28 (bits v 54 27), BitVec.ofNat 27 (bits v 26 0)⟩
  let clash := (allParts s).any fun q => decide (q ≠ p) &&
    (rangesOf s q).any fun z => meets y.base.toNat y.size.toNat z.base.toNat z.size.toNat
  if x.st ≠ .opened ∨ clash = true ∨ 2 ^ 27 < y.size.toNat then s
  else updPart s p fun x => { x with ranges := Tab.set {} x.ranges r y, past := (s.nextId, x.ranges) :: x.past }

/-- A partition may take or give a resource. -/
def partOpen (s : State) (p : Nat) : Bool := decide (p < s.build.partitions) && decide ((partOf s (BitVec.ofNat 3 p)).st = .opened)

/-- The new value of one nibble of PS_OWN (R411): the old one where the change has no effect. -/
def nibbleWrite (s : State) (k n old new : Nat) : Nat :=
  let key := 16 * (k - 15) + n
  if k < 15 then
    if old < 8 then old
    else if new % 8 ≠ old % 8 ∧ partOpen s (old % 8) = true ∧ partOpen s (new % 8) = true then 8 + new % 8 else old
  else if key = 0 then 0
  else
    let stays := decide (old < 8 ∧ new < 8)
    let open? := (decide (old < 8) || partOpen s (old % 8)) && (decide (new < 8) || partOpen s (new % 8))
    if old = new then old
    else if stays || (open? && decide ((keySlot s key).st ≠ .active)) then new
    else old

/-- A job key ID that moves leaves its slot EMPTY. -/
def keyMoved (s : State) (k n old new : Nat) : State :=
  if 15 ≤ k ∧ old ≠ new ∧ (8 ≤ old ∨ 8 ≤ new) then updKey s (16 * (k - 15) + n) fun x => { x with st := .empty, key := 0 } else s

/-- A write of PS_OWN[k]. -/
def ownWrite (s : State) (k : Nat) (v : Word) : State :=
  (List.range 16).foldl (fun s n =>
    let old := ownNibble s k n
    let new := nibbleWrite s k n old (bits v (4 * n + 3) (4 * n))
    let w := Tab.get 0 s.ps.own k
    let s := { s with ps := { s.ps with own := Tab.set 0 s.ps.own k (w - BitVec.ofNat 64 (old * 16 ^ n) + BitVec.ofNat 64 (new * 16 ^ n)) } }
    keyMoved s k n old new) s

/-- A write into the partition table's registers, by its offset in BAR0. -/
def tableWrite (s : State) (off : Nat) (v : Word) : State :=
  if s.ps.locks.getLsbD 0 then s
  else if 0x161000 ≤ off ∧ off < 0x1610F8 ∧ off % 8 = 0 then ownWrite s ((off - 0x161000) / 8) v
  else if 0x160100 ≤ off ∧ off < 0x160500 ∧ (off - 0x160100) / 0x80 < s.build.partitions ∧ off % 8 = 0 then
    let p := BitVec.ofNat 3 ((off - 0x160100) / 0x80)
    let o := (off - 0x160100) % 0x80
    if o = 0 then cfgWrite s p v
    else if 0x40 ≤ o then rangeWrite s p ((o - 0x40) / 8) v
    else s
  else s

def execPartitionTableWrite (off : BitVec 24) (value : Word) (s : State) : Res :=
  .next (if barOk s then tableWrite s off.toNat value else s)

/-! ### LOCK and UNLOCK (R414) -/

/-- The refusals of LOCK, in the order of R414. -/
def lockRefusal (s : State) (p : BitVec 3) : Byte :=
  let x := partOf s p
  if x.st ≠ .opened then rState
  else if s.ps.locks.getLsbD 0 then rMgmt
  else if !x.conf then rOk
  else if rangesOf s p = [] ∨ x.ctxCount = 0 then rNoRange
  else if (sysStructs s).any fun e => meetsPart s p e.1 e.2 then rSystem
  else if s.ps.invSeen then rDebug
  else if lifecycleOf s = 0 ∨ lifecycleOf s = 3 then rLifecycle
  else rOk

def lockPart (s : State) (p : BitVec 3) : State × Byte :=
  let r := lockRefusal s p
  if r = rOk then (updPart s p fun x => { x with st := .locked }, rOk) else (s, r)

def unlockPart (s : State) (p : BitVec 3) : State × Byte :=
  let x := partOf s p
  if x.st ≠ .locked ∨ x.conf = true then (s, rState)
  else if s.ps.locks.getLsbD 0 then (s, rMgmt)
  else (updPart s p fun x => { x with st := .opened }, rOk)

/-! ### Teardown, steps 1 to 3 (R434, R92, R298, R361) -/

/-- The apertures of a partition fail with REVOKED; a sealed record that is held is dropped and counted. -/
def revokeAps (s : State) (p : BitVec 3) : State :=
  each (fun s port =>
    each (fun s e =>
      if e.2.en && decide (ctxPart s e.2.ctx = some p) then
        let s := if e.2.mode = 2 ∧ e.2.buf ≠ [] then dropOne s port true else s
        failAp s port e.1 aeRevoked
      else s) s (hostPort s port).aps) s (List.range s.build.hostPorts.length)

/-- The window writes of a partition that ingest has not issued, and its doorbells that the fence holds, are dropped and
counted in REVOKED (R92). -/
def revokeHost (s : State) (p : BitVec 3) : State :=
  each (fun s port =>
    let mine (w : WinWrite) : Bool := decide (w.port = port ∧ w.part = p) && w.unissued
    let gone := s.wws.filter fun e => mine e.2
    let held := (hostPort s port).fenced.filter fun d => decide (ctxPart s d.ctx = some p)
    let n := gone.foldl (fun n e => n + e.2.tlps) held.length
    updHost { s with wws := s.wws.filter fun e => !mine e.2 } port fun h =>
      { h with fenced := h.fenced.filter fun d => !decide (ctxPart s d.ctx = some p), dropRevoked := h.dropRevoked + BitVec.ofNat 32 n })
    s (List.range s.build.hostPorts.length)

/-- The TDIs of a partition in CONFIG_LOCKED or RUN enter ERROR. -/
def errorTdis (s : State) (p : BitVec 3) : State :=
  each (fun s port =>
    each (fun s f =>
      if decide (f.1 ≠ 0 ∧ fnPart s ⟨port, f.1⟩ = some p ∧ (f.2.tdi = .locked ∨ f.2.tdi = .run)) then
        updFn s ⟨port, f.1⟩ fun f => { f with tdi := .error }
      else s) s (hostPort s port).fns) s (List.range s.build.hostPorts.length)

/-- Every channel of a partition aborts: nothing more is written. -/
def killChannels (s : State) (p : BitVec 3) : State :=
  each (fun s ch =>
    let s := killRun s ch
    each dropWaitingRun s (chan s ch).queue) s
    ((List.range s.build.channels).filter fun ch => decide (chanPart s ch = some p))

/-- The contexts of a partition. -/
def ctxsOf (s : State) (p : BitVec 3) : List (BitVec 12) :=
  (s.qe.ctxs.filter fun e => decide (e.2.part = p)).map fun e => BitVec.ofNat 12 e.1

/-- The contexts of a partition that requests held at fault slots name. -/
def heldCtxs (s : State) (p : BitVec 3) : List (BitVec 12) :=
  (s.tu.slots.filter fun e => decide (e.2.st = .held ∧ ctxPart s e.2.ctx = some p)).map fun e => e.2.ctx

/-- Remote work for a partition ends: what it has outstanding, and what it serves. -/
def dropRemote (s : State) (bus : Bus) (p : BitVec 3) : State :=
  let s := failReqs s bus fun r => decide (r.part = p)
  { s with bl := { s.bl with
    served := s.bl.served.filter fun e => !decide (e.2.part = p)
    inbox := s.bl.inbox.filter fun e => !decide (e.2.op.toNat ≤ 5 ∧ e.2.part = p) } }

/-- TEARDOWN steps 1 to 3. Held slots are aborted also of contexts whose abort had begun before (R183). -/
def teardown (s : State) (bus : Bus) (p : BitVec 3) : State × Byte :=
  let x := partOf s p
  if (x.st ≠ .opened ∧ x.st ≠ .locked) ∨ s.build.partitions ≤ p.toNat then (s, rState)
  else
    let s := updPart s p fun x => { x with st := .closing }
    let s := errorTdis (revokeHost (revokeAps s p) p) p
    let s := { s with ps := { s.ps with secrets := s.ps.secrets.filter fun e => !decide (e.2.part = p) } }
    let s := killChannels s p
    let s := each (fun s c => (ctxAbort s bus c).1) s (ctxsOf s p)
    let s := each (fun s c => abortCtx s bus c) s (heldCtxs s p)
    let s := dropRemote (revokeKeys s bus p) bus p
    (updPart s p fun x => { x with st := .closing, closeAt := s.tick, scrubQ := [] }, rOk)

/-- A write of PS_PART_OP: 1 LOCK, 2 UNLOCK, 3 TEARDOWN. -/
def partOpWrite (s : State) (bus : Bus) (op : Nat) (p : BitVec 3) : State :=
  let put (r : State × Byte) : State := { r.1 with ps := { r.1.ps with partOp := OpReg.done r.2 } }
  let s := { s with ps := { s.ps with partSel := p } }
  match op with
  | 1 => put (if s.build.partitions ≤ p.toNat then (s, rState) else lockPart s p)
  | 2 => put (unlockPart s p)
  | 3 => put (teardown s bus p)
  | _ => put (s, rFormat)

def execLock (part : BitVec 3) (s : State) : Res := .next (if barOk s then partOpWrite s [] 1 part else s)

def execUnlock (part : BitVec 3) (s : State) : Res := .next (if barOk s then partOpWrite s [] 2 part else s)

def execTeardown (part : BitVec 3) (bus : Bus) (s : State) : Res := .next (if barOk s then partOpWrite s bus 3 part else s)

/-! ### Step 4: the drain (R434) -/

/-- Nothing of a partition is in flight: no tracked request, no home transaction, no context that is not DISABLED. -/
def partQuiet (s : State) (p : BitVec 3) : Bool :=
  !(s.gw.any fun g => g.2.out.any fun r => decide (r.2.part = p)) &&
    !(s.ch.trans.any fun t => decide (t.2.req.part = some p)) && !(s.ch.queue.any fun r => decide (r.part = some p)) &&
    !(s.qe.ctxs.any fun e => decide (e.2.part = p ∧ e.2.st ≠ .disabled)) &&
    !(s.wws.any fun w => decide (w.2.part = p)) && !(s.cows.any fun w => decide (w.2.part = p))

/-- The home invalidates the directory entries of a partition's ranges: holders get SNP_INV, and what they give back is
discarded (log entry 50). -/
def purgeDir (s : State) (p : BitVec 3) : State :=
  let mine := s.ch.dir.filter fun e => partCovers s p (64 * e.1)
  each (fun s e =>
    let s := each (fun s a => (sendSnoop s a e.1 2 false).1) s ((e.2.agents s 64).filter (corePresent s))
    setDir (dropWalkLine s e.1) e.1 none) s mine

/-- TEARDOWN_DRAIN_DONE: step 5 begins. -/
def execTeardownDrainDone (part : BitVec 3) (s : State) : Res :=
  if (partOf s part).st = .closing ∧ partQuiet s part = true ∧ runsWork s = true then
    let s := purgeDir s part
    let total := (rangesOf s part).foldl (fun a r => a + r.size.toNat) 0
    let s := { s with ps := { s.ps with log := s.ps.log.filter fun r => !decide (r.part = part) } }
    .next (updPart s part fun x => { x with
      st := .scrubbing, scrubTotal := BitVec.ofNat 32 total, scrubDone := 0, scrubQ := [], chain := 0, truncated := false
      total := 0 })
  else .next s

/-- The teardown fails: HALTED, and FATAL at the TEARDOWN source (R434, R440). -/
def haltPart (s : State) (p : BitVec 3) : State :=
  let s := updPart s p fun x => { x with st := .halted, scrubQ := [] }
  let s := emit s (.notify (.teardownFailed p) (tickWord s) s.epoch)
  note s { source := srcId 15 0 0, part := some p }

/-- TEARDOWN_QUIESCENCE_TIMEOUT: 200 µs after step 3. -/
def execTeardownQuiescenceTimeout (part : BitVec 3) (s : State) : Res :=
  if (partOf s part).st = .closing ∧ partQuiet s part = false then
    .next (haltPart (reach s ((partOf s part).closeAt + 200000)) part)
  else .next s

/-! ### Steps 5 and 6: the scrub (R362, R435, R440) -/

/-- The mover write port of a 512 B block (R362). -/
def scrubVia (s : State) (p : BitVec 3) (block : Nat) : Via :=
  let n := (gwCounts s.build).getD 4 1
  { port := gwBase s.build 4 + block / 8 % max 1 n, src := srcId 7 1 0, part := p, sys := true, ctx := none }

/-- The status of the scrub write of a block: the first of its lines that is not OK. -/
def blockStatus (bus : Bus) (block : Nat) : BusStatus :=
  (range (8 * block) 8).foldl (fun st l => if st = .ok then busAtW bus l else st) .ok

/-- The blocks whose scrub write fails in this step. -/
def badBlocks (s : State) (bus : Bus) (p : BitVec 3) : List Nat :=
  dedupNat (((busLines bus).filter fun l => decide (busAtW bus l ≠ .ok) && partCovers s p (64 * l) && !inWindow (64 * l)).map (· / 8))

/-- Granules are indeterminate, each with the values given. -/
def Memory.reopen (m : Memory) (l : List (Nat × List Word)) : Memory :=
  { m with indet := l.foldl (fun t e => Tab.set [] t e.1 e.2) m.indet }

/-- Lines of a block are poisoned where they were. -/
def Memory.repoison (m old : Memory) (b : Nat) : Memory :=
  { m with poison := (range (8 * b) 8).foldl (fun t l => if (Tab.find? old.poison l).isSome then Tab.insert t l () else t) m.poison }

/-- Block `b` of a memory whose write of zeros failed: each granule may show what it could show before (`old`), or zero (R503). -/
def scrubFailed (old m : Memory) (b : Nat) : Memory :=
  let was := (range (512 * b) 512).map fun i => Tab.get 0 old.cells i
  let vals := old.indet.filter fun e => decide (64 * b ≤ e.1 ∧ e.1 < 64 * b + 64)
  ((((m.put (512 * b) was).reopen vals).fail (512 * b) (List.replicate 512 0)).repoison old b)

/-- Zero a range at once, all but some blocks, whose write failed. -/
def scrubRange (m : Memory) (bad : List Nat) (a n : Nat) : Memory :=
  (bad.filter fun b => decide (a ≤ 512 * b ∧ 512 * b < a + n)).foldl (scrubFailed m) (m.zero a n)

/-- Report the scrub writes that failed. -/
def reportScrub (s : State) (bus : Bus) (p : BitVec 3) (bad : List Nat) : State :=
  each (fun s b => reportBus s (scrubVia s p b) (blockStatus bus b) (512 * b) 1) s bad

/-- What is left of a list of unit ranges once one range is taken away. -/
def cutRange (l : List (Nat × Nat)) (b n : Nat) : List (Nat × Nat) :=
  l.flatMap fun e =>
    if meets e.1 (e.2 - e.1) b n then
      (if e.1 < b then [(e.1, b)] else []) ++ (if b + n < e.2 then [(b + n, e.2)] else [])
    else [e]

/-- A range lies wholly in ranges. -/
def coveredBy (r : PRange) (l : List PRange) : Bool :=
  (l.foldl (fun x z => cutRange x z.base.toNat z.size.toNat) [(r.base.toNat, r.base.toNat + r.size.toNat)]).isEmpty

/-- The bytes that the scrub digest covers (R435). -/
def scrubBytes (s : State) (p : BitVec 3) : List Byte :=
  leBytes 1 p.toNat ++ leBytes 3 0 ++ leBytes 4 s.epoch.toNat ++ leBytes 8 s.tick ++
    (rangesOf s p).flatMap fun r => leBytes 8 r.lo ++ leBytes 8 (r.size.toNat * unit2M)

/-- Step 6. -/
def scrubDone (s : State) (p : BitVec 3) : State :=
  let d := sha384 (scrubBytes s p)
  let rs := rangesOf s p
  let s := note s { source := srcId 15 0 1, part := some p }
  let s := emit s (.notify (.scrubComplete p d) (tickWord s) s.epoch)
  let s := { s with tp := { s.tp with quar := s.tp.quar.filter fun e => !coveredBy e.2 rs } }
  updPart s p fun x => { x with
    st := .opened, conf := false, teardowns := x.teardowns + 1, digest := d, scrubDone := x.scrubTotal, scrubQ := [], past := [] }

def addScrub (s : State) (n : Nat) : State :=
  { s with mv := { s.mv with scrubBytes := s.mv.scrubBytes + BitVec.ofNat 64 n } }

/-- The first pass of a scrub. -/
def scrubFirst (s : State) (bus : Bus) (p : BitVec 3) : State :=
  let bad := badBlocks s bus p
  let rs := rangesOf s p
  let total := rs.foldl (fun a r => a + r.size.toNat) 0
  let s := { s with mem := rs.foldl (fun m r => scrubRange m bad r.lo (r.size.toNat * unit2M)) s.mem }
  let s := addScrub (reportScrub s bus p bad) (total * unit2M - 512 * bad.length)
  if bad = [] then scrubDone s p
  else updPart s p fun x => { x with
    scrubQ := bad, scrubDone := BitVec.ofNat 32 (total - (dedupNat (bad.map (· / 4096))).length) }

/-- The blocks that failed are written once more; one that fails again ends the teardown. -/
def scrubAgain (s : State) (bus : Bus) (p : BitVec 3) (blocks : List Nat) : State :=
  let bad := blocks.filter fun b => blockStatus bus b ≠ .ok
  let good := blocks.filter fun b => blockStatus bus b = .ok
  let s := { s with mem := good.foldl (fun m b => m.zero (512 * b) 512) s.mem }
  let s := addScrub (reportScrub s bus p bad) (512 * good.length)
  if bad = [] then scrubDone s p else haltPart s p

/-- SCRUB_COMPLETE: every scrub write has been answered (R434, R440). Writes that failed are issued once more, and the row
is sent again. -/
def execScrubComplete (part : BitVec 3) (bus : Bus) (s : State) : Res :=
  if (partOf s part).st = .scrubbing ∧ (partOf s part).stopped = false ∧ runsWork s = true then
    match (partOf s part).scrubQ with
    | [] => .next (scrubFirst s bus part)
    | l => .next (scrubAgain s bus part l)
  else .next s

end Sys2Proof.Machine
end

