-- ==== Sys2Proof/Machine/Power.lean ====
section
/-! DEFINITION. Resets, bring-up and power (spec file 16): reset kinds, the sequence to READY, the quarantine list, the
power states, and what P3 saves and restores. -/

namespace Sys2Proof.Machine

open Sys2Proof

/-! ### The quarantine list (R468, R469) -/

/-- An entry covers a range whole. -/
def PRange.inside (r z : PRange) : Bool := decide (z.lo ≤ r.lo ∧ r.hi ≤ z.hi)

/-- Put a range into the quarantine list: not again where an entry covers it; onto the overflow list where none is free. -/
def quarantineRange (t : Tp) (r : PRange) : Tp :=
  if t.quar.any fun e => r.inside e.2 then t
  else match (List.range 64).find? fun i => (Tab.find? t.quar i).isNone with
    | some i => { t with quar := Tab.insert t.quar i r }
    | none => if t.overflow.any fun z => r.inside z then t else { t with overflow := t.overflow ++ [r] }

/-- The quarantine list after a reset begins: each range in use of each confidential partition is added (R468). -/
def quarantineConf (s : State) : Tp :=
  ((allParts s).filter fun p => (partOf s p).conf).foldl (fun t p => (rangesOf s p).foldl quarantineRange t) s.tp

/-! ### The collector at a reset (R445, R461, R462) -/

/-- ERR_N is driven low. -/
def Fc.errLow (f : Fc) : Bool := f.drive || f.pulseEnd.isSome

/-- Put a new collector state in force: the pins follow. -/
def setFc (s : State) (f : Fc) : State :=
  let s1 := if s.fc.errLow && !f.errLow then emit s (.errN false) else if !s.fc.errLow && f.errLow then emit s (.errN true) else s
  let s2 := if safeState s && decide (f.cls = .run) then emit s1 (.safePin false) else s1
  { s2 with fc := f }

/-- The collector after a complex reset: CLASS becomes RUN, RESET_CLASS keeps it, PROMO, COUNT and the pulse are cleared. -/
def fcComplex (f : Fc) : Fc :=
  { f with resetClass := f.cls, cls := .run, pulseEnd := none
           srcs := f.srcs.map fun e => (e.1, { e.2 with promo := 0, count := 0 }) }

/-! ### Resets (R463 to R466, R480, R482) -/

/-- The value of LAST_RESET that a reset leaves. -/
def ResetKind.code : ResetKind → BitVec 3
  | .powerOn => 1
  | .pin => 2
  | .wambe => 3
  | .lifecycle => 4
  | .failedRestore => 5

/-- A write that memory has not acknowledged when a reset begins may or may not have landed (R471, R503). -/
def cutWrites (s : State) : Memory :=
  s.gw.foldl (fun m g => g.2.out.foldl (fun (m : Memory) r =>
    if r.2.op = .wr then m.fail r.2.lo r.2.data
    else if r.2.op = .wrZero then m.fail r.2.addr (List.replicate r.2.len 0) else m) m) s.mem

/-- The complex inside a reset sequence: every register and every on-chip memory that the reset reaches at its reset
value. What is named beside `State.reset` fields is kept: the time base, the collector, the fuses, and what belongs to
the always-on group or lasts from power-up (R419, R426, R427, R431). -/
def wiped (s : State) (k : ResetKind) (tp : Tp) : State :=
  { pending := s.pending, build := s.build, role := s.role, i3cAddr := s.i3cAddr, tick := s.tick, epoch := s.epoch
    free := s.free, nextId := s.nextId, mem := cutWrites s, fc := s.fc, out := s.out
    ps := { psReset s.build with
      fuses := s.ps.fuses, locks := s.ps.locks, dbg := s.ps.dbg, inspSeen := s.ps.inspSeen, invSeen := s.ps.invSeen
      draws := s.ps.draws, lastKey := s.ps.lastKey, nextGen := s.ps.nextGen }
    tp := { resetting := some k, quar := tp.quar, overflow := tp.overflow, held := tp.held } }

/-- The sequence that a reset starts: a complex reset inside that of a power-on reset restarts the wider one (R464). -/
def widerKind (s : State) (k : ResetKind) : ResetKind := if s.tp.resetting = some .powerOn then .powerOn else k

/-- A complex reset (R463, R465): ignored in TERMINAL (R462). The home then advertises its credits (R50). -/
def complexResetOf (s : State) (k : ResetKind) : State :=
  if s.fc.cls = .terminal then s else advertise (wiped (setFc s (fcComplex s.fc)) (widerKind s k) (quarantineConf s))

/-- COMPLEX_RESET. -/
def execComplexReset (s : State) : Res := .next (complexResetOf s .pin)

/-- The boot epoch after a power-on reset (R482). -/
def nextEpoch (old : BitVec 32) (removed : Bool) (entropy : BitVec 32) : BitVec 32 :=
  let e := if removed then entropy else old + 1
  if e = 0 then 1 else e

/-- POWER_ON_RESET (R62, R463, R481, R482): TERMINAL ignores one with the supplies kept on. -/
def execPowerOnReset (suppliesRemoved : Bool) (role : Bool) (i3cAddr : BitVec 7) (entropy : BitVec 32) (s : State) : Res :=
  if s.fc.cls = .terminal ∧ suppliesRemoved = false then .next s
  else
    let tp := if suppliesRemoved then {} else quarantineConf s
    let w := wiped (setFc s { extLow := s.fc.extLow }) .powerOn tp
    .next <| advertise { w with
      role := role, i3cAddr := i3cAddr, tick := 0, epoch := nextEpoch s.epoch suppliesRemoved entropy
      mem := if suppliesRemoved then {} else w.mem
      ps := { w.ps with locks := 0, dbg := 0, inspSeen := false, invSeen := false, lastKey := [], nextGen := [] } }

/-- FUSE_READ_TIMEOUT (R58): Quince halts boot, and READY never becomes 1. -/
def execFuseReadTimeout (s : State) : Res :=
  .next (if s.tp.resetting.isSome ∧ s.ps.quince = .running then { s with ps := { s.ps with quince := .fuseTimeout } } else s)

/-- QUINCE_HALT (R467): after READY it raises QUINCE at FATAL. -/
def execQuinceHalt (s : State) : Res :=
  .next (if s.tp.ready ∧ s.ps.quince = .running then
      note { s with ps := { s.ps with quince := .halted } } { source := srcId 15 0 2 }
    else s)

/-! ### The end of the sequence (R421, R465, R467, R469) -/

/-- Words of the fuse array are all zero. -/
def fusesBlank (s : State) (lo n : Nat) : Bool := (range lo n).all fun i => fuseWord s i = 0

/-- The blocks of a range whose scrub write fails in this step. -/
def badIn (bus : Bus) (r : PRange) : List Nat :=
  dedupNat (((busLines bus).filter fun l => decide (busAtW bus l ≠ .ok ∧ r.lo ≤ 64 * l ∧ 64 * l < r.hi)).map (· / 8))

/-- Zero the ranges for which the quarantine list had no room; one with a write that failed is left for the next time. -/
def scrubOverflow (s : State) (bus : Bus) : State :=
  s.tp.overflow.foldl (fun s r =>
    let bad := badIn bus r
    let s := { s with mem := scrubRange s.mem bad r.lo (r.size.toNat * unit2M) }
    let s := reportScrub s bus 0 bad
    if bad = [] then
      { s with tp := { s.tp with overflow := s.tp.overflow.erase r, scrubbed := s.tp.scrubbed + 1 } }
    else s) s

/-- READY becomes 1: the ports come up (R272, R465). -/
def comeUp (s : State) (k : ResetKind) : State :=
  let s := { s with
    tp := { s.tp with ready := true, resetting := none, lastReset := k.code, held := [] }
    ch := { s.ch with present := s.build.cpPresent } }
  each (fun s p => if (blPort s p).en then startTraining s p else s) s (List.range s.build.brambles.length)

/-! ### P0, P1 and P2 (R19, R109, R300, R474) -/

/-- A Bramble port follows a change of the power state. -/
def portPower (s : State) (was new : Pwr) (p : Nat) : State :=
  let b := blPort s p
  let s := match new with
    | .p0 => updBl s p fun b => { b with toX4 := false }
    | .p1 => updBl s p fun b => { b with toX4 := true }
    | _ => s
  let narrow := decide (new = .p1 ∧ b.width ≠ 4)
  let widen := decide (new = .p0) && b.toX4 && decide (portWidth s p ≠ 4)
  if b.st = .active ∧ (narrow = true ∨ widen = true) then enterRecovery s p
  else if b.st = .l1 ∧ was = .p2 ∧ new ≠ .p2 then enterRecovery s p
  else askL1 s p

/-- A change among P0, P1 and P2 takes effect. -/
def setPwr (s : State) (new : Pwr) : State :=
  let was := s.tp.pwr
  let s := { s with tp := { s.tp with pwr := new } }
  let s := each (fun s p => portPower s was new p) s (List.range s.build.brambles.length)
  each settleL1 s (List.range s.build.hostPorts.length)

/-! ### Into P3 (R475 to R477) -/

/-- Every dispatched command has ended, every buffer of R472 is empty, and no partition is CLOSING or SCRUBBING. -/
def p3Quiet (s : State) : Bool :=
  s.qe.cmds.isEmpty && (s.qe.ctxs.all fun e => e.2.qs.all fun q => q.2.comps.isEmpty) &&
    s.wws.isEmpty && s.cows.isEmpty && (s.hosts.all fun h => h.2.flushes.isEmpty && h.2.aps.all fun a => a.2.buf.isEmpty) &&
    (s.gw.all fun g => g.2.out.isEmpty) && (s.mv.chans.all fun c => c.2.run.isNone && c.2.queue.isEmpty) &&
    (s.pa.tports.all fun t => t.2.cur.isNone) && s.tu.passes.isEmpty && s.ch.trans.isEmpty && s.ch.queue.isEmpty &&
    (s.bl.ports.all fun b => b.2.txq.isEmpty && b.2.replay.isEmpty) && s.bl.served.isEmpty && s.bl.inbox.isEmpty &&
    (s.ps.parts.all fun p => decide (p.2.st ≠ .closing ∧ p.2.st ≠ .scrubbing))

/-- Every measured or sealed aperture that is OPEN fails with ABANDONED. -/
def abandonStreams (s : State) : State :=
  each (fun s p => each (fun s a =>
    if a.2.en && decide (a.2.st = .opened ∧ (a.2.mode = 1 ∨ a.2.mode = 2)) then failAp s p a.1 aeAbandoned else s) s
    (hostPort s p).aps) s (List.range s.build.hostPorts.length)

/-- Every context leaves its slot (R113); ring reads in progress become pending doorbells. -/
def evictAll (s : State) (bus : Bus) : State :=
  let s := each (fun s e =>
    updCtx s (BitVec.ofNat 12 e.1) fun x => { x with
      loading := false
      qs := x.qs.map fun q => (q.1, { q.2.evicted with
        held := none, cqHeld := none, dbPend := q.2.evicted.dbPend || q.2.held.isSome }) }) s s.qe.ctxs
  each (fun s r => evict s bus (BitVec.ofNat 12 r.2.1)) s (residents s)

/-- Every job-key slot becomes EMPTY, and the manager is told which keys are lost. -/
def loseKeys (s : State) : State :=
  let ks := (List.range 256).filter fun k => decide ((keySlot s k).st ≠ .empty)
  let s := { s with bl := { s.bl with keys := [] } }
  if s.bl.assigned ∧ ks ≠ [] then mgmtTo s opKeyNotice (managerNode s) (0 :: ks.map (BitVec.ofNat 8)) else s

/-- Bytes of the save area. -/
def saveSize : Nat := 0x100000

/-- Write the save area: its layout is not given, so each byte of it may show any value (log entry 17). Bytes that may
not be addressed stay. -/
def writeSave (s : State) (bus : Bus) : State :=
  let a := s.tp.saveBase.toNat * saveSize
  let lo := s.mem.cells.filter fun e => decide (e.1 < a)
  let hi := s.mem.cells.filter fun e => decide (a + saveSize ≤ e.1)
  let block := (range a saveSize).filterMap fun i =>
    let b := if offLimits s i then Tab.get 0 s.mem.cells i
      else BitVec.ofNat 8 ((Config.freeWord s.free (i / 8)).toNat >>> (8 * (i % 8)))
    if b = 0 then none else some (i, b)
  let z := s.mem.zero a saveSize
  let s := { s with mem := { z with cells := lo ++ block ++ hi } }
  let bad := (busLines bus).filter fun l => decide (busAtW bus l ≠ .ok ∧ a ≤ 64 * l ∧ 64 * l < a + saveSize)
  each (fun s l => reportBus s (sysVia s (64 * l)) (busAtW bus l) (64 * l) 1) s bad

/-- Only the always-on group, the partition table and device memory keep their state (R66; log entry 17). -/
def powerOff (s : State) : State :=
  let s := each (fun s p => emit s (.lnLpwr p 2)) s (List.range s.build.brambles.length)
  let ports := s.bl.ports.map fun e => (e.1, { clearLink e.2 with st := .off, txq := [] })
  let hosts := s.hosts.map fun e => (e.1, { e.2 with
    linkUp := false, flit := false, noFlit := false, width := 0, rate := 0, ideLink := false, linkL1 := false
    streams := [], syncs := [], flushes := [] })
  let slots := s.tu.slots.map fun e => (e.1, if e.2.st = .held then { e.2 with st := .aborted, reqs := [] } else e.2)
  let saved : Saved := {
    qe := { s.qe with cmds := [] }
    ports := hosts
    kt := { s.kt with cache := [], descs := [], filter := [] }
    tu := { s.tu with l1 := [], l2 := [], wc := [], tags := [], slots := slots }
    pa := { s.pa with tports := [] }
    mv := s.mv
    bl := { s.bl with ports := ports, reqs := [], served := [], parts := [], inbox := [], nonces := [], stopped := [], dirWait := [] }
    ch := { s.ch with dir := [], trans := [], queue := [], snps := [], held := [], snaps := []
                      ports := s.ch.ports.map fun e => (e.1, { e.2 with hsnpQ := [], hrspQ := [], opens := [], bars := [] }) } }
  { s with
    qe := {}, hosts := [], wws := [], cows := [], gw := [], kt := {}, tu := {}, pa := {}, mv := {}, bl := {}, ch := {}
    tp := { s.tp with pwr := .p3, pwrBusy := false, pwrResult := rOk, draining := none, saved := some saved } }

/-- Step 4 of R475. -/
def enterP3 (s : State) (bus : Bus) : State := powerOff (writeSave (loseKeys (evictAll (abandonStreams s) bus)) bus)

/-- Begin an entry into P3: intake and dispatch stop. -/
def beginP3 (s : State) : State :=
  { s with tp := { s.tp with pwrBusy := true, draining := some s.tick } }

/-! ### Forced entry (R472, R476) -/

/-- The objects that a discarded buffer of a command tears. -/
def tornBy (c : Cmd) : List Nat :=
  let op := c.raw.opcode
  let idx := hIndex (c.raw.w 1)
  match c.work with
  | .mover _ => c.pins
  | .key _ _ => [idx]
  | .mapping _ => c.pins
  | .opening _ => [idx]
  | .abortInval _ _ => [idx]
  | .flipWait => [idx]
  | _ => if op = opRunChannel ∧ c.phase ≠ .dispatched then c.pins else []

/-- The objects whose buffered stores are discarded: of apertures with window writes or a held record, of mover runs,
key commands, maps, version changes, and page copies and passes. -/
def tornObjs (s : State) : List Nat :=
  let open? (c : Cmd) : Bool := match c.phase with | .finished => false | .flushing _ => false | _ => true
  dedupNat (
    (s.wws.map fun w => w.2.obj.toNat) ++
    (s.hosts.flatMap fun h => (h.2.aps.filter fun a => !a.2.buf.isEmpty).map fun a => hIndex a.2.obj) ++
    (s.qe.cmds.flatMap fun e => if open? e.2 then tornBy e.2 else []) ++
    (s.mv.chans.flatMap fun e => (e.2.run.map (·.pins)).getD []) ++
    (s.cows.map fun c => c.2.obj.toNat) ++ (s.tu.passes.map fun p => p.obj.toNat))

/-- A LIVE object becomes TORN (R146); one that cannot be reached stays. -/
def tear (s : State) (bus : Bus) (i : Nat) : State := runAct (tearObj bus i) s (fun s _ => s) (fun s _ => s)

/-- Dispatched commands end without a record, event or message; their pins are released (R476). -/
def cutCmds (s : State) (bus : Bus) : State :=
  let ids := s.qe.cmds.map (·.1)
  let s := each (fun s e => match e.2.run with
    | some r => updCmd s r.cmd fun c => { c with pins := c.pins ++ r.pins }
    | none => s) s s.mv.chans
  let s := { s with mv := { s.mv with chans := s.mv.chans.map fun e => (e.1, { e.2 with st := .idle, queue := [], run := none }) } }
  let s := each (fun s id => match cmdOf s id with
    | some c => runAct (releasePins bus id c) s (fun s _ => s) (fun s _ => s)
    | none => s) s ids
  { s with qe := { s.qe with cmds := [] } }

/-- The NOTE of a context with a command cut short, and its state FAULTED. -/
def cutCtx (s : State) (c : BitVec 12) : State :=
  faultCtx (note s { source := srcId 16 0 0, ctx := some c, part := some (ctxOf s c).part }) c

/-- What FORCE discards. -/
def forceCut (s : State) (bus : Bus) : State :=
  let cut := dedupNat (s.qe.cmds.map fun e => e.2.ctx.toNat)
  let torn := tornObjs s
  let s := cutCmds s bus
  let s := each (fun s i => tear s bus i) s torn
  let s := each (fun s c => cutCtx s (BitVec.ofNat 12 c)) s cut
  { s with
    mem := cutWrites s, wws := [], cows := []
    gw := s.gw.map fun g => (g.1, { g.2 with out := [] })
    hosts := s.hosts.map fun h => (h.1, { h.2 with flushes := [], aps := h.2.aps.map fun a => (a.1, { a.2 with buf := [] }) })
    qe := { s.qe with ctxs := s.qe.ctxs.map fun e => (e.1, { e.2 with qs := e.2.qs.map fun q => (q.1, { q.2 with comps := [] }) }) }
    tu := { s.tu with passes := [] }
    ps := { s.ps with parts := s.ps.parts.map fun p => (p.1, if p.2.st = .scrubbing then { p.2 with stopped := true } else p.2) } }

/-! ### TP_PWR (R473, R480) -/

/-- The power state that a TARGET names. -/
def pwrOf : Nat → Option Pwr
  | 1 => some .p0
  | 2 => some .p1
  | 3 => some .p2
  | 4 => some .p3
  | _ => none

def pwrDone (s : State) (r : Byte) : State := { s with tp := { s.tp with pwrBusy := false, pwrResult := r } }

/-- A change that is allowed begins. -/
def changePwr (s : State) (bus : Bus) (new : Pwr) (force : Bool) : State :=
  match new with
  | .p3 =>
    if s.tp.saveBase = 0 then pwrDone s rState
    else if force then enterP3 (forceCut s bus) bus
    else beginP3 s
  | p => pwrDone (setPwr s p) rOk

/-- A write of TP_PWR. -/
def pwrWrite (s : State) (bus : Bus) (target : Nat) (force : Bool) : State :=
  if s.tp.pwrBusy then s
  else match pwrOf target with
    | none => pwrDone s rFormat
    | some p => if s.ps.locks.getLsbD 1 then pwrDone s rMgmt else changePwr s bus p force

def execPowerP0 (s : State) : Res := .next (if barOk s then pwrWrite s [] 1 false else s)

def execPowerP1 (s : State) : Res := .next (if barOk s then pwrWrite s [] 2 false else s)

def execPowerP2 (s : State) : Res := .next (if barOk s then pwrWrite s [] 3 false else s)

def execPowerP3 (s : State) : Res := .next (if barOk s then pwrWrite s [] 4 false else s)

def execPowerP3Force (bus : Bus) (s : State) : Res := .next (if barOk s then pwrWrite s bus 4 true else s)

/-- P3_ENTRY: the complex has drained in time. -/
def execP3Entry (bus : Bus) (s : State) : Res :=
  .next (if s.tp.draining.isSome ∧ p3Quiet s = true ∧ runsWork s = true then enterP3 s bus else s)

/-- Dispatch and ring reads resume, and doorbells that were recorded are acted on. -/
def resumeWork (s : State) : State :=
  each (fun s e =>
    let c := BitVec.ofNat 12 e.1
    let s := if e.2.slot.isNone ∧ (e.2.qs.any fun q => q.2.waiting) then startLoad s c else s
    kickAll s c) s s.qe.ctxs

/-- P3_ENTRY_TIMEOUT: 1 ms after the start, RESULT becomes BUSY. -/
def execP3EntryTimeout (s : State) : Res :=
  match s.tp.draining with
  | none => .next s
  | some t =>
    .next (if p3Quiet s = true ∧ runsWork s = true then s
      else
        let s := reach s (t + 1000000)
        resumeWork (pwrDone { s with tp := { s.tp with draining := none } } rBusy))

/-! ### Out of P3 (R478, R479) -/

/-- The restore: the saved state, with the links to train again. -/
def restoreSaved (s : State) (x : Saved) (new : Pwr) : State :=
  let s := { s with
    qe := x.qe, hosts := x.ports, kt := x.kt, tu := x.tu, pa := x.pa, mv := x.mv, bl := x.bl, ch := x.ch
    tp := { s.tp with pwr := .p0, saved := none, lastReset := 6, pwrBusy := false, pwrResult := rOk } }
  let s := each (fun s p =>
    let s := emit s (.lnLpwr p 0)
    if (blPort s p).en then startTraining s p else updBl s p fun b => { b with st := .disabled }) s
    (List.range s.build.brambles.length)
  resumeWork (setPwr s new)

/-- Leave P3 for another state: the MAC of the save area decides. -/
def leaveP3 (s : State) (new : Pwr) (macOk : Bool) : State :=
  match s.tp.saved with
  | some x => if macOk then restoreSaved s x new else complexResetOf s .failedRestore
  | none => complexResetOf s .failedRestore

end Sys2Proof.Machine
end

