-- ==== Sys2Proof/Machine/Collector.lean ====
section
/-! DEFINITION. The fault collector's own commands (spec file 15): events from outside the units, ERR_N, the collector's
own error, and its registers. -/

namespace Sys2Proof.Machine

open Sys2Proof

/-! ### Events and ERR_N (R444, R455) -/

/-- The source of the collector itself (R453). -/
def selfSource : BitVec 16 := 0x8800

/-- The collector's own error (R453, R454): TERMINAL at once, and the records are frozen. -/
def selfError (s : State) : State :=
  if s.fc.self then s
  else
    let s := { s with fc := { s.fc with self := true } }
    let s := pulse s 4
    let s := reactClass s 4 selfSource
    { s with fc := { s.fc with entrySrc := selfSource } }

def execCollectorSelfError (s : State) : Res := .next (selfError s)

/-- FAULT_EVENT: an event from a source of the build. -/
def execFaultEvent (ev : Event) (s : State) : Res :=
  let v := ev.source.toNat
  .next (if ev.source = selfSource then selfError s
    else report s ev (if v / 2048 = 13 then Config.masterId 13 (v / 16 % 128) else 0))

/-- ERR_N_PULSE_END: 1,000,200 ticks after its start. -/
def execErrNPulseEnd (s : State) : Res :=
  match s.fc.pulseEnd with
  | none => .next s
  | some t => let s := reach s t; .next (setFc s { s.fc with pulseEnd := none })

/-! ### Register words -/

/-- FC_STATUS. -/
def fcStatus (s : State) : Nat :=
  let valid := (List.range 32).filter (recValid s)
  let top := valid.foldl (fun m n => max m (recAt s n).cls.toNat) 0
  s.fc.entrySrc.toNat * 2 ^ 48 + s.fc.resetClass.code * 2 ^ 38 + s.fc.cls.code * 2 ^ 36 + flagAt (safeState s) 35 +
    flagAt s.fc.self 34 + flagAt (decide (valid.length = 32)) 33 + top * 2 ^ 24 + valid.length

/-- FC_ERRN. -/
def fcErrn (s : State) : Nat :=
  flagAt s.fc.pulseEnd.isSome 2 + flagAt (s.fc.errLow || s.fc.extLow) 1 + flagAt s.fc.drive 0

/-- FC_SRC_CFG: the settings of the selected source. -/
def srcCfg (s : State) : Nat :=
  match srcBase s.build s.fc.srcSel with
  | none => 0
  | some (b, _) =>
    let x := srcOf s b s.fc.srcSel
    x.w.toNat * 2 ^ 32 + x.n.toNat * 2 ^ 24 + x.promo.toNat * 2 ^ 20 + x.limit.toNat * 2 ^ 16 + 2 ^ 15 + x.count.toNat

/-- FC_INJECT. -/
def fcInject (s : State) : Nat := s.fc.injClass.toNat * 2 ^ 16 + s.fc.injSrc.toNat

/-- FC_SLOE_CFG. -/
def fcSloe (s : State) : Nat := s.fc.sloeWindow.toNat * 2 ^ 16 + s.fc.sloeConsec.toNat * 2 ^ 8 + s.fc.sloeFactor.toNat

/-- The 64 B of a fault record (R446). -/
def recBytes (r : Rec) : List Byte :=
  recHead r ++ leBytes 2 (r.ctx.toNat + r.part.toNat * 2 ^ 12 + flagAt r.ctxv 15) ++
    leBytes 2 (flagAt r.partv 0 + flagAt r.inj 1) ++ leBytes 4 (r.count.toNat + flagAt r.ovf 31) ++
    leBytes 8 r.first.toNat ++ leBytes 4 r.firstEp.toNat ++ leBytes 8 r.last.toNat ++ leBytes 4 r.lastEp.toNat ++
    leBytes 2 r.queue.toNat ++ leBytes 2 r.head.toNat ++ leBytes 12 0

/-! ### Register writes -/

/-- FC_VALID and FC_ERRN take writes in the safe state too (R456). -/
def fcBarOk (s : State) : Bool := s.tp.ready && decide (s.tp.pwr ≠ .p3)

/-- A write of FC_VALID frees records and clears none of their fields (R452). -/
def freeRecs (s : State) (mask : BitVec 32) : State := { s with fc := { s.fc with valid := s.fc.valid &&& ~~~mask } }

def execRecordFree (mask : BitVec 32) (s : State) : Res := .next (if fcBarOk s then freeRecs s mask else s)

/-- A write of FC_ERRN. -/
def errnWrite (s : State) (v : Word) : State := setFc s { s.fc with drive := bit v 0 }

/-- A write of FC_SRC_CFG (R445). -/
def srcCfgWrite (s : State) (v : Word) : State :=
  match srcBase s.build s.fc.srcSel with
  | none => s
  | some (b, _) =>
    let x := srcOf s b s.fc.srcSel
    let lim := bits v 17 16
    let y : Src := { x with
      w := if bits v 63 32 = 0 then x.w else BitVec.ofNat 32 (bits v 63 32)
      n := BitVec.ofNat 8 (bits v 31 24)
      limit := if lim = 2 ∨ lim = 3 then BitVec.ofNat 2 lim else x.limit }
    setSrc s b s.fc.srcSel (if bit v 8 then { y with promo := 0, count := 0 } else y)

/-- SOURCE_CLR: a write of FC_SRC_CFG with CLR set. -/
def execSourceClr (value : Word) (s : State) : Res := .next (if barOk s && bit value 8 then srcCfgWrite s value else s)

/-- GO of FC_INJECT is heard (R460). -/
def injectOk (s : State) : Bool :=
  decide (1 ≤ s.ps.dbg.toNat ∧ s.fc.injSrc ≠ selfSource ∧ s.fc.injClass.toNat ≤ 3)
    && (srcBase s.build s.fc.injSrc).isSome

/-- A write of FC_INJECT. -/
def injectWrite (s : State) (v : Word) : State :=
  let s := { s with fc := { s.fc with injClass := BitVec.ofNat 3 (bits v 18 16), injSrc := BitVec.ofNat 16 (bits v 15 0) } }
  if bit v 63 && injectOk s then
    collect s { source := s.fc.injSrc } s.fc.injClass.toNat ((srcBase s.build s.fc.injSrc).elim 0 (·.2)) true 0
  else s

/-- FAULT_INJECT: a write of FC_INJECT with GO set. -/
def execFaultInject (value : Word) (s : State) : Res := .next (if barOk s && bit value 63 then injectWrite s value else s)

/-- A write of FC_SLOE_CFG (R185). -/
def sloeWrite (s : State) (v : Word) : State :=
  let w := bits v 39 16
  let f := bits v 7 0
  { s with fc := { s.fc with
    sloeWindow := if w < 10000 then s.fc.sloeWindow else BitVec.ofNat 24 w
    sloeConsec := BitVec.ofNat 4 (bits v 11 8)
    sloeFactor := if f < 0x18 then s.fc.sloeFactor else BitVec.ofNat 8 f } }

end Sys2Proof.Machine
end

