-- ==== Sys2Proof/Machine/Gweloty.lean ====
section
/-! DEFINITION. Responses on the Gweloty ports (spec file 02, R37 to R42). -/

namespace Sys2Proof.Machine

open Sys2Proof

/-- What the owner of a tracked request does at its answer. -/
def answerOwner (s : State) (port tag : Nat) (r : GwReq) (st : BusStatus) : State :=
  match r.owner with
  | .window id =>
    let v : Via := { ingestVia s 0 r.part with port := port, src := srcId 2 (port - gwBase s.build 5) 0 }
    if st = .deadline then
      let s := quarantineTag s port tag r (reqEvent v r.addr 1)
      wwAnswer { s with mem := s.mem.fail r.lo r.data } [] id st
    else wwAnswer (answerWrite s port tag r st v) [] id st
  | .row id e => sendPools (rowAnswer s [] port tag r id e st) [] id
  | .scrub _ _ => updGw s port fun g => { g with out := Tab.erase g.out tag }

/-- A tracked request is answered, by a response or by its missed deadline. -/
def answerReq (s : State) (port tag : Nat) (r : GwReq) (st : BusStatus) : State := wakeHome [] (answerOwner s port tag r st)

/-- GWELOTY_RESPONSE: a response to an outstanding tag, or a late one to a quarantined tag, which is discarded and counted
(R42). Any other response breaks the integrator's guarantee (R38). -/
def execGwelotyResponse (port tag : Nat) (st : BusStatus) (s : State) : Res :=
  match Tab.find? (gwPort s port).out tag with
  | some r => if st = .deadline then .next s else .next (answerReq s port tag r st)
  | none =>
    match Tab.find? (gwPort s port).quar tag with
    | some _ => .next (updGw s port fun g => { g with quar := Tab.erase g.quar tag, late := g.late + 1 })
    | none => .fault .guaranteeBroken

/-- MEMORY_RESPONSE_DEADLINE (R42). -/
def execMemoryResponseDeadline (port tag : Nat) (s : State) : Res :=
  match Tab.find? (gwPort s port).out tag with
  | some r => .next (answerReq (reach s (r.tick + 32000)) port tag r .deadline)
  | none => .next s

end Sys2Proof.Machine
end

