-- ==== Sys2Proof/Machine/Quince.lean ====
section
/-! DEFINITION. The Wambe port and Quince (spec file 14, R417 to R433): management sessions and messages, fuses, lifecycle,
debug, and what Quince answers over DOE. -/

namespace Sys2Proof.Machine

open Sys2Proof

/-! ### The capability table (R5, R153, R489) -/

/-- One entry of 16 B. -/
def capEntry (ty index value : Nat) : List Byte := leBytes 2 ty ++ [1, 0] ++ leBytes 4 index ++ leBytes 8 value

/-- The entries before the end entry. -/
def capEntries (b : Build) : List (List Byte) :=
  (b.hostPorts.zipIdx.map fun x => capEntry 1 x.2 (x.1.width + x.1.rate.toNat * 2 ^ 8 + x.1.vfs * 2 ^ 16)) ++
  (b.brambles.zipIdx.map fun x => capEntry 2 x.2 x.1) ++
  [capEntry 3 0 b.pageSlices, capEntry 4 0 b.keySlices, capEntry 5 0 b.lanes, capEntry 6 0 b.channels, capEntry 7 0 b.slots,
    capEntry 8 0 b.corePorts, capEntry 9 0 b.homeSlices, capEntry 10 0 b.partitions] ++
  ((gwCounts b).zipIdx.map fun x => capEntry 11 x.2 x.1) ++
  [capEntry 12 0 (b.lanes / 4), capEntry 13 0 b.tsPorts, capEntry 14 0 (4096 + 8 * 2 ^ 16), capEntry 15 0 2000]

/-- The table with its end entry. -/
def capTable (b : Build) : List Byte := (capEntries b).flatten ++ List.replicate 16 0

/-! ### Keys of Quince (R424, R429) -/

/-- The security version of the firmware: fuse words 34 to 37. -/
def securityVersion (s : State) : List Byte := (range 34 4).flatMap fun i => leBytes 4 (fuseWord s i).toNat

/-- The alias key (log entry 14). -/
def aliasKey (s : State) : BitVec 256 :=
  hkdf (leBytes 32 (identityKey s).toNat) (beBytes 48 Config.firmwareDigest.toNat ++ securityVersion s)

/-- The digest of the identity public key. -/
def identityFull (s : State) : List Byte := beBytes 48 (sha384 (Config.publicKey (identityKey s))).toNat

/-- The alias certificate chain: the identity certificate, then the alias certificate. -/
def certChain (s : State) : List Byte :=
  Config.certificate (Config.publicKey (identityKey s)) ++ Config.certificate (Config.publicKey (aliasKey s))

/-- Quince holds an identity: it runs firmware, and the part is not BLANK. -/
def hasIdentity (s : State) : Bool := decide (s.ps.quince = .running ∧ lifecycleOf s ≠ 0)

/-! ### Wambe: answers and sessions (R418, R421) -/

/-- An answer on the Wambe port. -/
def reply (s : State) (code : Nat) (r : WRes) (body : List Byte) : State := emit s (.wambe code r body)

/-- The words that hold the digest of the management key. -/
def mgmtDigest (s : State) : List (BitVec 32) := (range 10 12).map (fuseWord s)

/-- The twelve words of a key's digest (log entry 8). -/
def digestWords (key : List Byte) : List (BitVec 32) :=
  (List.range 12).map fun i => BitVec.ofNat 32 ((sha384 key).toNat >>> (32 * i))

/-- Take an authenticated message: the state with the session moved on, or `none` where it is refused with AUTH. A
provisional session takes only messages that it allows. -/
def wambeTake (s : State) (a : WAuth) (provOk : Bool) : Option (State × Session) :=
  match s.ps.session with
  | none => none
  | some x =>
    if !a.tagOk || decide (a.seq.toNat < x.next) || (x.prov.isSome && !provOk) then none
    else
      let y : Session := { x with next := a.seq.toNat + 1, count := x.count + 1 }
      some ({ s with ps := { s.ps with session := if 0xFFFF ≤ y.count then none else some y } }, x)

/-- Serve an authenticated message. -/
def withAuth (s : State) (code : Nat) (a : WAuth) (provOk : Bool) (f : State → Session → State) : State :=
  match wambeTake s a provOk with
  | none => reply s code .auth []
  | some r => f r.1 r.2

/-- The boot status of GET_STATUS (log entry 51): 0 READY, 1 in reset, 2 PROVISIONING, 3 FUSE_TIMEOUT, 4 FIRMWARE, 5
halted. -/
def bootStatus (s : State) : Nat :=
  match s.ps.quince with
  | .running => if s.tp.ready then 0 else 1
  | .provisioning => 2
  | .fuseTimeout => 3
  | .firmware => 4
  | .halted => 5

/-- The body of GET_STATUS (log entry 51). -/
def statusBody (s : State) : List Byte :=
  [BitVec.ofNat 8 (lifecycleOf s), BitVec.ofNat 8 s.tp.pwr.code, s.ps.locks.setWidth 8,
    BitVec.ofNat 8 (s.ps.dbg.toNat + flagAt s.ps.inspSeen 2 + flagAt s.ps.invSeen 3), BitVec.ofNat 8 (bootStatus s)] ++
    leBytes 8 (fcStatus s) ++ leBytes 4 s.tp.scrubbed ++ leBytes 4 (fuseWord s 0).toNat ++
    (range 64 192).flatMap fun i => leBytes 4 (fuseWord s i).toNat

def execGetStatus (s : State) : Res := .next (reply s 0x01 .ok (statusBody s))

/-- GET_IDENTITY: refused with STATE where Quince holds no identity (log entry 51). -/
def execGetIdentity (s : State) : Res :=
  .next (if hasIdentity s then reply s 0x02 .ok (identityFull s ++ certChain s) else reply s 0x02 .state [])

/-- SESSION_OPEN: signed by the fused key, or by any key while none is fused. -/
def execSessionOpen (key : List Byte) (share : List Byte) (sigOk : Bool) (s : State) : Res :=
  let blank := fusesBlank s 10 12
  if !sigOk || !(blank || decide (mgmtDigest s = digestWords key)) then .next (reply s 0x03 .auth [])
  else
    let d := Config.drbg s.ps.draws
    let x : Session := { key := Config.ecdhe d share, next := 0, count := 0, prov := if blank then some key else none }
    .next (reply { s with ps := { s.ps with session := some x, draws := s.ps.draws + 1 } } 0x03 .ok (Config.publicKey d))

def execSessionClose (auth : WAuth) (s : State) : Res :=
  .next (withAuth s 0x04 auth true fun s _ => reply { s with ps := { s.ps with session := none } } 0x04 .ok [])

/-! ### Power and reset (R463, R473, R478, R480) -/

/-- The power state that SET_POWER names. -/
def wambePwr (t : BitVec 2) : Pwr := if t = 0 then .p0 else if t = 1 then .p1 else if t = 2 then .p2 else .p3

/-- SET_POWER; the only way out of P3. -/
def execSetPower (auth : WAuth) (target : BitVec 2) (force macOk : Bool) (bus : Bus) (s : State) : Res :=
  .next (withAuth s 0x10 auth false fun s _ =>
    let new := wambePwr target
    if safeState s || !s.tp.ready || s.tp.pwrBusy then reply s 0x10 .state []
    else if s.tp.pwr = .p3 then
      if new = .p3 then reply s 0x10 .ok [] else leaveP3 (reply s 0x10 .ok []) new macOk
    else if new = .p3 ∧ s.tp.saveBase = 0 then reply (pwrDone s rState) 0x10 .state []
    else changePwr (reply s 0x10 .ok []) bus new force)

/-- RESET: ignored in TERMINAL (R462). -/
def execReset (auth : WAuth) (kind port : Byte) (s : State) : Res :=
  .next (withAuth s 0x11 auth false fun s _ =>
    if s.fc.cls = .terminal then s
    else if kind = 1 then complexResetOf (reply s 0x11 .ok []) .wambe
    else if kind = 2 ∧ hostExists s port.toNat = true then hostReset (reply s 0x11 .ok []) port.toNat
    else reply s 0x11 .format [])

/-! ### Fuses and lifecycle (R420 to R423) -/

/-- Blow bits of a fuse word (R59). -/
def blow (s : State) (w : Nat) (v : BitVec 32) : State :=
  emit { s with ps := { s.ps with fuses := Tab.upd 0 s.ps.fuses w fun x => x ||| v } } (.fuse (BitVec.ofNat 8 w) v)

/-- The row of a fuse word allows FUSE_PROGRAM (R420). -/
def fuseAllowed (s : State) (w : Nat) : Bool :=
  let l := lifecycleOf s
  if 2 ≤ w ∧ w ≤ 9 then decide (l = 0)
  else if 10 ≤ w ∧ w ≤ 21 then decide ((l = 0 ∨ l = 1) ∧ fuseWord s w = 0)
  else if 22 ≤ w ∧ w ≤ 33 then decide (l = 0)
  else if 34 ≤ w ∧ w ≤ 37 then true
  else if 64 ≤ w then decide (l ≠ 3)
  else false

/-- A provisional session must fuse the digest of its own key before anything else (R421). -/
def provAllows (s : State) (x : Session) (w : Nat) (v : BitVec 32) : Bool :=
  match x.prov with
  | none => true
  | some k => decide (mgmtDigest s = digestWords k)
    || (decide (10 ≤ w ∧ w ≤ 21) && decide (some v = (digestWords k)[w - 10]?))

def execFuseProgram (auth : WAuth) (word : Byte) (bits : BitVec 32) (s : State) : Res :=
  .next (withAuth s 0x13 auth true fun s x =>
    if !provAllows s x word.toNat bits then reply s 0x13 .auth []
    else if !fuseAllowed s word.toNat then reply s 0x13 .refused []
    else reply (blow s word.toNat bits) 0x13 .ok [])

/-- A lifecycle change is allowed (R422). -/
def lifeMoves (s : State) (l t : Nat) : Bool :=
  (decide (l = 0 ∧ t = 1) && !fusesBlank s 10 12) || (decide (l = 1 ∧ t = 2) && !fusesBlank s 2 8 && !fusesBlank s 22 12) ||
    decide (l = 1 ∧ t = 3) || decide (l = 2 ∧ t = 3)

/-- Quince confirms: it serves fuse reads, the change is allowed, and every partition is OPEN (R423). -/
def lifeConfirmed (s : State) (t : Nat) : Bool :=
  decide (s.ps.quince = .running ∨ s.ps.quince = .provisioning) && lifeMoves s (lifecycleOf s) t &&
    (allParts s).all fun p => decide ((partOf s p).st = .opened)

/-- LIFECYCLE: the bit is blown, and the complex resets with the wipe; in TERMINAL no reset follows, so it is refused. -/
def execLifecycle (auth : WAuth) (target : BitVec 2) (s : State) : Res :=
  .next (withAuth s 0x12 auth false fun s _ =>
    if lifeConfirmed s target.toNat && !safeState s then
      complexResetOf (reply (blow s 0 (1#32 <<< (target.toNat - 1))) 0x12 .ok []) .lifecycle
    else reply s 0x12 .refused [])

/-! ### Locks, debug and trace (R419, R431 to R433) -/

def execMgmtLock (auth : WAuth) (set clear : BitVec 4) (s : State) : Res :=
  .next (withAuth s 0x15 auth false fun s _ =>
    reply { s with ps := { s.ps with locks := (s.ps.locks ||| set) &&& ~~~clear } } 0x15 .ok [])

/-- A confidential partition that is not OPEN. -/
def shielded (s : State) (p : BitVec 3) : Bool := (partOf s p).conf && decide ((partOf s p).st ≠ .opened)

/-- A debug level is refused (R419, R431). -/
def debugRefused (s : State) (l : Nat) : Bool :=
  (decide (1 ≤ l) && s.ps.locks.getLsbD 3) || (decide (l = 2) && (decide (lifecycleOf s = 2) || (allParts s).any (shielded s)))

def execDebugSet (auth : WAuth) (level : BitVec 2) (s : State) : Res :=
  .next (withAuth s 0x14 auth false fun s _ =>
    if level = 3 then reply s 0x14 .format []
    else if debugRefused s level.toNat then reply s 0x14 .refused []
    else reply { s with ps := { s.ps with
      dbg := level, inspSeen := s.ps.inspSeen || decide (1 ≤ level.toNat), invSeen := s.ps.invSeen || decide (level = 2) } }
        0x14 .ok [])

/-- The complex reaches device memory. -/
def memoryUp (s : State) : Bool := s.tp.ready && !safeState s && decide (s.tp.pwr ≠ .p3)

/-- The route of DEBUG accesses: the home's Gweloty ports, with no snoop (log entry 51). -/
def debugVia (s : State) (a : Nat) : Via := sysVia s a

/-- A granule lies in a range of a shielded partition. -/
def shieldedAt (s : State) (a n : Nat) : Bool := (allParts s).any fun p => shielded s p && meetsPart s p a n

/-- One granule of a DEBUG_READ: 8 B and the poison flag (R433). A read that memory refuses shows a free value, poisoned. -/
def debugGranule (bus : Bus) (x : State × List Byte) (a : Nat) : State × List Byte :=
  if shieldedAt x.1 a 8 then (x.1, x.2 ++ List.replicate 8 0xFF ++ [1])
  else
    let r := memRead (debugVia x.1 a) bus x.1 a 8
    let v := if r.2.1 = .ok ∨ r.2.1 = .poison then r.2.2 else leBytes 8 (Config.freeWord x.1.free (a / 8)).toNat
    (r.1, x.2 ++ v ++ [if r.2.1 = .ok then 0 else 1])

/-- The refusals that DEBUG_READ and DEBUG_WRITE share. -/
def debugBad (s : State) (a n : Nat) : Option WRes :=
  if s.ps.dbg = 0 then some .refused
  else if a % 8 ≠ 0 ∨ n % 8 ≠ 0 ∨ 2 ^ 48 < a + n then some .format
  else if !memoryUp s then some .state
  else none

def execDebugRead (auth : WAuth) (addr : BitVec 48) (len : Nat) (bus : Bus) (s : State) : Res :=
  .next (withAuth s 0x16 auth false fun s _ =>
    match debugBad s addr.toNat len with
    | some r => reply s 0x16 r []
    | none =>
      let r := ((List.range (len / 8)).map fun i => addr.toNat + 8 * i).foldl (debugGranule bus) (s, [])
      reply r.1 0x16 .ok r.2)

def execDebugWrite (auth : WAuth) (addr : BitVec 48) (data : List Byte) (bus : Bus) (s : State) : Res :=
  .next (withAuth s 0x17 auth false fun s _ =>
    match debugBad s addr.toNat data.length with
    | some r => reply s 0x17 r []
    | none =>
      if shieldedAt s addr.toNat data.length then reply s 0x17 .refused []
      else
        let r := memWrite (debugVia s addr.toNat) bus s addr.toNat data false
        reply r.1 0x17 (if r.2 = .ok then .ok else .state) [])

/-- TRACE_SET: a ring of 2^log2 entries of 32 B; one that would lie in a LOCKED confidential range is refused (R413). -/
def execTraceSet (auth : WAuth) (base : BitVec 48) (log2 : Nat) (sources : BitVec 4) (s : State) : Res :=
  .next (withAuth s 0x18 auth false fun s _ =>
    let n := 32 * 2 ^ log2
    if base.toNat % 32 ≠ 0 ∨ 43 < log2 ∨ 2 ^ 48 < base.toNat + n then reply s 0x18 .format []
    else if !placeOk s base.toNat n then reply s 0x18 .refused []
    else reply { s with ps := { s.ps with traceBase := base, traceLog2 := log2, traceSrc := sources, tracePos := 0 } } 0x18 .ok [])

/-! ### DOE (R103, R105, R424, R425, R429, R430) -/

/-- Quince answers a DOE request, or with an SPDM ERROR: in the safe state, while it holds no identity. -/
def doeServe (s : State) (fn : Fn) (f : State → Option (State × List Byte)) : State :=
  if !fnExists s fn || decide (s.tp.pwr = .p3) || !(s.tp.ready || decide (s.ps.quince = .provisioning)) then s
  else if safeState s || !hasIdentity s then emit s (.doeError fn)
  else match f s with
    | some r => emit r.1 (.doe fn r.2)
    | none => emit s (.doeError fn)

/-- HP_AP_CFG. -/
def Aperture.cfgWord (a : Aperture) : Nat :=
  a.ctx.toNat * 2 ^ 20 + a.vslot.toNat * 2 ^ 16 + a.owner.toNat * 2 ^ 8 + flagAt a.meas 4 + a.mode.toNat * 2 + flagAt a.en 0

/-- A context-map entry as a word. -/
def CtxMapEnt.word (e : CtxMapEnt) : Nat := flagAt e.valid 15 + e.ctx.toNat

/-- What the interface report of a VF lists (R104): its aperture descriptors and its context-map entries. -/
def ifaceReport (s : State) (fn : Fn) : List Byte :=
  ((hostPort s fn.port).aps.filter fun e => decide (fn.vf ≠ 0 ∧ e.2.owner.toNat = fn.vf)).flatMap (fun e =>
    leBytes 8 e.1 ++ leBytes 8 e.2.cfgWord ++ leBytes 8 e.2.obj.toNat ++ leBytes 8 (e.2.base.toNat * 64)) ++
  ((hostPort s fn.port).ctxMap.filter fun e => decide (fn.vf ≠ 0 ∧ e.1 / 64 = fn.vf)).flatMap fun e =>
    leBytes 8 (e.1 % 64) ++ leBytes 8 e.2.word

/-- Quince's answer to a request that the spec does not define itself: the SPDM and TDISP standards' framing, over the
certificates of slot 0 (R424) and what the interface report lists (log entry 31). -/
def spdmReply (s : State) (fn : Fn) (body : List Byte) : List Byte :=
  Config.spdmAnswer s.free (certChain s) (ifaceReport s fn) body

/-- SPDM_REQUEST (R104, R105): served at once, so that no mailbox shows Busy between steps (log entry 31). -/
def execSpdmRequest (fn : Fn) (body : List Byte) (s : State) : Res :=
  .next (doeServe s fn fun s => if 65536 < body.length then none else some (s, spdmReply s fn body))

/-- Quince accepts a context secret (R425). -/
def secretOk (s : State) (part : BitVec 3) (ctx : BitVec 12) (slot : Nat) : Bool :=
  (partOf s part).conf && decide ((partOf s part).st = .locked) && decide (ctxPart s ctx = some part) &&
    !s.ps.locks.getLsbD 2 && (match Tab.find? s.ps.secrets slot with
      | some x => decide (x.ctx = ctx)
      | none => true)

/-- Install a context secret: an install in place rotates the context key (R87, R98). -/
def installSecret (s : State) (part : BitVec 3) (ctx : BitVec 12) (slot : Nat) (secret : BitVec 256) : State :=
  let rotates := (Tab.find? s.ps.secrets slot).isSome
  let s := { s with ps := { s.ps with secrets := Tab.insert s.ps.secrets slot ⟨part, ctx, secret, 0⟩ } }
  let s := appendRec s ⟨part, 0, 0, ctx, 3, sha384 (leBytes 2 ctx.toNat ++ leBytes 32 secret.toNat)⟩
  let x := ctxOf s ctx
  if rotates && bit x.keyRef 63 && decide (bits x.keyRef 9 0 = slot ∧ x.st ≠ .disabled) then drawReturns s ctx else s

/-- CTX_SECRET. -/
def execCtxSecret (fn : Fn) (secured : Bool) (part : BitVec 3) (ctx : BitVec 12) (slot : BitVec 10) (secret : BitVec 256)
    (s : State) : Res :=
  .next (doeServe s fn fun s =>
    if secured && secretOk s part ctx slot.toNat then
      some (installSecret s part ctx slot.toNat secret, spdmReply s fn [])
    else none)

/-- The copy of PS_OWN[k] that LAYOUT hashes: only the valid nibbles of the partition. -/
def ownOf (s : State) (p : BitVec 3) (k : Nat) : Nat :=
  (List.range 16).foldl (fun a n => if ownNibble s k n = 8 + p.toNat then a + (8 + p.toNat) * 16 ^ n else a) 0

/-- LAYOUT (R430). -/
def layoutDigest (s : State) (p : BitVec 3) : BitVec 384 :=
  sha384 (leBytes 8 (partOf s p).cfgWord ++
    ((List.range 8).flatMap fun r => leBytes 8 (Tab.get {} (partOf s p).ranges r).word) ++
    (List.range 31).flatMap fun k => leBytes 8 (ownOf s p k))

/-- The DEBUG byte. -/
def debugByte (s : State) : Byte := BitVec.ofNat 8 (s.ps.dbg.toNat + flagAt s.ps.inspSeen 2 + flagAt s.ps.invSeen 3)

/-- The report of a partition before its signature (R429). -/
def reportBody (s : State) (p : BitVec 3) (nonce : BitVec 256) (start : Nat) : List Byte :=
  let x := partOf s p
  let held := s.ps.log.filter fun r => r.part = p
  let recs := (held.drop start).take 1017
  let flags := flagAt x.conf 0 + flagAt (decide (x.st = .locked)) 1 + flagAt x.truncated 2 +
    flagAt (decide (start + recs.length < held.length)) 3
  leBytes 2 1 ++ [p.setWidth 8, BitVec.ofNat 8 flags] ++ leBytes 4 0x040000 ++ leBytes 8 s.tick ++ leBytes 4 s.epoch.toNat ++
    [BitVec.ofNat 8 (lifecycleOf s), debugByte s] ++ leBytes 2 recs.length ++ leBytes 4 start ++ leBytes 4 x.total.toNat ++
    leBytes 32 nonce.toNat ++ beBytes 48 (sha384 (capTable s.build)).toNat ++ beBytes 48 Config.romDigest.toNat ++
    beBytes 48 Config.firmwareDigest.toNat ++ beBytes 48 (layoutDigest s p).toNat ++ (recs.flatMap MRec.bytes) ++
    beBytes 48 x.chain.toNat

/-- GET_REPORT. -/
def execGetReport (fn : Fn) (part : BitVec 3) (nonce : BitVec 256) (start : BitVec 32) (s : State) : Res :=
  .next (doeServe s fn fun s =>
    if s.build.partitions ≤ part.toNat then none
    else
      let b := reportBody s part nonce start.toNat
      some (s, b ++ beBytes 96 (Config.ecdsaSign (aliasKey s) b).toNat))

/-- GET_MEASUREMENTS: indices 1 to 4; the framing is that of the DMTF format (log entry 31). -/
def execGetMeasurements (fn : Fn) (s : State) : Res :=
  .next (doeServe s fn fun s =>
    some (s, [1] ++ beBytes 48 (sha384 (capTable s.build)).toNat ++ [2] ++ beBytes 48 Config.romDigest.toNat ++
      [3] ++ beBytes 48 Config.firmwareDigest.toNat ++ [4, BitVec.ofNat 8 (lifecycleOf s), debugByte s]))

/-- IDE_KM (R103): streams 0 to 7 are selective, 8 stands for the link stream (log entry 10). -/
def execIdeKm (port stream : Nat) (secured : Bool) (part : Option (BitVec 3)) (key : BitVec 256) (s : State) : Res :=
  .next (doeServe s ⟨port, 0⟩ fun s =>
    if !secured || decide (8 < stream) then none
    else if stream = 8 then some (updHost s port fun h => { h with ideLink := true }, spdmReply s ⟨port, 0⟩ [])
    else some (updHost s port fun h => { h with streams := Tab.insert h.streams stream ⟨true, part, key⟩ }, spdmReply s ⟨port, 0⟩ []))

end Sys2Proof.Machine
end

