-- ==== Sys2Proof/Machine/Registers.lean ====
section
/-! DEFINITION. The register map (spec file 17): what BAR0 and the near-core register window show, the writes that set
registers, the doorbell window, and the access rules (R484 to R492). -/

namespace Sys2Proof.Machine

open Sys2Proof

/-! ### What a register shows -/

/-- A register or array element: its offset, its width in bytes, its value, first byte lowest. -/
structure Reg where
  base  : Nat
  width : Nat
  value : Nat
  deriving DecidableEq, Repr

def r4 (base v : Nat) : Option Reg := some ⟨base, 4, v⟩
def r8 (base v : Nat) : Option Reg := some ⟨base, 8, v⟩
/-- A digest: its first byte at the lowest offset. -/
def r48 (base : Nat) (d : BitVec 384) : Option Reg := some ⟨base, 48, leNat (beBytes 48 d.toNat)⟩

/-- One of a row of 64-bit counters from `lo`. -/
def counterAt (lo o : Nat) (l : List Word) : Option Reg := (l[(o - lo) / 8]?).bind fun w => r8 (o / 8 * 8) w.toNat

/-- An operation register whose operand fields are given. -/
def opWord (r : OpReg) (operands : Nat) : Nat := r.word + operands

/-- The identity block and the capability table (R5, R489). -/
def idRegs (s : State) (fn : Fn) (o : Nat) : Option Reg :=
  if o < 0x1000 then
    match o / 8 with
    | 0 => r8 0 0x4A4F525000170000
    | 1 => r4 8 0x40000
    | 2 => r4 0x10 (fn.port * 2 ^ 8 + flagAt (decide (fn.vf ≠ 0)) 7 + fn.vf)
    | 3 => r4 0x18 (capEntries s.build).length
    | _ => none
  else if o < 0x2000 then some ⟨o / 16 * 16, 16, leNat (((capEntries s.build)[(o - 0x1000) / 16]?).getD [])⟩
  else none


/-- The host-port block of the port of a function (R487). Sixteen-bit entries are read and written as whole entries of
the row of their VF (log entry 52). -/
def hpRegs (s : State) (fn : Fn) (o : Nat) : Option Reg :=
  let h := hostPort s fn.port
  if o < 0x2000 then
    match o / 8 with
    | 0 => r4 0x10000 (flagAt h.ideLink 15 + flagAt h.noFlit 14 + h.width.toNat * 2 ^ 8 + h.rate.toNat * 4 + flagAt h.flit 1 +
        flagAt h.linkUp 0)
    | 1 => r8 0x10008 h.committed.toNat
    | 0x20 => r4 0x10100 h.digestSel.toNat
    | 0x28 => r8 0x10140 (h.dropRevoked.toNat * 2 ^ 32 + h.dropOther.toNat)
    | k =>
      let a := aperture s fn.port h.digestSel.toNat
      if 0x21 ≤ k ∧ k < 0x27 then r48 0x10108 (if a.digestOk then a.digest else 0) else none
  else if o < 0x4000 then
    let a := aperture s fn.port ((o - 0x2000) / 0x20)
    match o % 0x20 / 8 with
    | 0 => r8 (0x10000 + o / 8 * 8) a.cfgWord
    | 1 => r8 (0x10000 + o / 8 * 8) a.obj.toNat
    | 2 => r8 (0x10000 + o / 8 * 8) (a.base.toNat * 64)
    | _ => none
  else if o < 0x5000 then
    let a := aperture s fn.port ((o - 0x4000) / 0x10)
    r8 (0x10000 + o / 8 * 8)
      (if o % 16 < 8 then a.session.toNat * 2 ^ 32 + a.err.toNat * 2 ^ 8 + a.st.code else a.cursor.toNat)
  else
    let v := (o - 0x8000) / 0x80 + 1
    if 0x8000 ≤ o ∧ v ≤ 63 ∧ fnExists s ⟨fn.port, v⟩ = true then
      some ⟨0x18000 + 0x80 * (v - 1), 0x80,
        (List.range 64).foldl (fun n c => n + (Tab.get {} h.ctxMap (v * 64 + c)).word * 2 ^ (16 * c)) 0⟩
    else none

/-- A WAIT of a queue is pending. -/
def waitPending (s : State) (c : BitVec 12) (q : Nat) : Bool :=
  s.qe.cmds.any fun e => decide (e.2.ctx = c ∧ e.2.q = q) && (match e.2.phase, e.2.work with
    | .running, .waiting _ _ _ _ => true
    | _, _ => false)

/-- QE_QVIEW of a queue. `ent` is the context entry as read, for a DISABLED context. -/
def qviewWord (s : State) (ent : List Byte) (c : BitVec 12) (q : Nat) : Nat :=
  let x := ctxOf s c
  if x.st = .disabled then
    let y := Tab.get {} (ctxFromEntry {} ent).qs q
    flagAt y.cqPhase 49 + flagAt y.phase 48 + y.cqTail.toNat * 2 ^ 32 + y.head.toNat
  else
    let y := queueOf s c q
    flagAt (decide (x.st = .faulted)) 52 + flagAt (waitPending s c q) 51 + flagAt y.parked 50 + flagAt y.cqPhase 49 +
      flagAt y.phase 48 + y.cqTail.toNat * 2 ^ 32 + y.tail.toNat * 2 ^ 16 + y.head.toNat

/-- The context and queue that QE_QVIEW[k] names for a function. -/
def qviewOf (s : State) (fn : Fn) (k : Nat) : Option (BitVec 12 × Nat) :=
  if fn.vf = 0 then (if k < 8 then some (s.qe.statSel, k) else none)
  else
    let e := Tab.get {} (hostPort s fn.port).ctxMap (fn.vf * 64 + k / 8)
    if e.valid then some (e.ctx, k % 8) else none

/-- QE_CTX_STAT. -/
def ctxStatWord (s : State) : Nat :=
  let x := ctxOf s s.qe.statSel
  (List.range 8).foldl (fun n i => n + flagAt (Tab.get {} x.qs i).parked (32 + i)) 0 + flagAt x.pinned 31 +
    flagAt x.slot.isSome 30 + (x.slot.getD 0) % 64 * 2 ^ 24 + x.st.code * 2 ^ 16 + s.qe.statSel.toNat

/-- The queue-engine block. `mem` is what a register that shows memory has read. -/
def qeRegs (s : State) (fn : Fn) (mem : List Byte) (o : Nat) : Option Reg :=
  if o < 0x1000 then
    match o / 8 with
    | 0 => r8 0x20000 (s.qe.ctxBase.toNat * 2 ^ 21)
    | 1 => r8 0x20008 (opWord s.qe.ctxOp s.qe.ctxOpCtx.toNat)
    | 2 => r8 0x20010 (ctxStatWord s)
    | 3 => r4 0x20018 s.qe.patience.toNat
    | 4 => r8 0x20020 (s.qe.objBase.toNat * 2 ^ 12 + s.qe.objLog2.toNat)
    | 5 => r8 0x20028 (opWord s.qe.objOp s.qe.objIndex.toNat)
    | 6 => r8 0x20030 s.qe.objRes.toNat
    | 8 => r8 0x20040 s.qe.tblSel.toNat
    | k => if 0x10 ≤ k ∧ k < 0x18 then some ⟨0x20080, 64, leNat mem⟩ else none
  else if o < 0x2000 then
    r8 (0x20000 + o / 8 * 8) (match qviewOf s fn ((o - 0x1000) / 8) with
      | some (c, q) => qviewWord s mem c q
      | none => 0)
  else none

/-- The 64 B of a fault slot. -/
def FltSlot.bytes (f : FltSlot) : List Byte :=
  leBytes 8 f.address.toNat ++ [f.mid, f.access.setWidth 8] ++ leBytes 2 f.source.toNat ++
    [f.cls.setWidth 8, f.kind, f.level.setWidth 8, BitVec.ofNat 8 f.st.code] ++
    leBytes 2 (f.ctx.toNat + f.part.toNat * 2 ^ 12) ++ leBytes 2 f.seq.toNat ++
    leBytes 4 (f.count.toNat + flagAt f.ovf 31) ++ leBytes 8 f.pte.toNat ++ leBytes 8 f.tick.toNat ++ leBytes 4 f.epoch.toNat ++
    leBytes 4 0 ++ leBytes 2 f.queue.toNat ++ leBytes 2 f.head.toNat ++ leBytes 4 0 ++ leBytes 8 f.deadline

/-- A function may read a record of a context (R179, R446). -/
def seesCtx (s : State) (fn : Fn) (c : BitVec 12) : Bool :=
  decide (fn.vf = 0) || (List.range 64).any fun i =>
    let e := Tab.get {} (hostPort s fn.port).ctxMap (fn.vf * 64 + i)
    e.valid && decide (e.ctx = c)

/-- The live set beside the built set. -/
def liveWord (present retired width : Nat) : Nat := (present &&& (maskOf width - retired)) * 2 ^ width + present

/-- The translation block. -/
def tuRegs (s : State) (fn : Fn) (o : Nat) : Option Reg :=
  if o < 0x1000 then
    match o / 8 with
    | 0 => r8 0x40000 (liveWord (maskOf s.build.pageSlices) s.tu.retire.toNat 16)
    | 1 => r8 0x40008 (flagAt s.tu.retBusy 63 + s.tu.retire.toNat)
    | 4 => r8 0x40020 (s.tu.invVa.toNat * 2 ^ 12)
    | 5 => r8 0x40028 (s.tu.invLen.toNat * 2 ^ 12)
    | 6 => r8 0x40030 (opWord s.tu.invOp (s.tu.invCtx.toNat * 2 ^ 36 + s.tu.invPart.toNat * 2 ^ 33 + flagAt s.tu.invWalk 32))
    | 8 => r8 0x40040 (opWord s.tu.fltOp s.tu.fltSlot.toNat)
    | 9 => r8 0x40048 (s.tu.noSlot.toNat * 2 ^ 32 + ((List.range 256).filter fun k => (fltSlot s k).st = .held).length)
    | _ => none
  else if o < 0x1400 then
    let p := (o - 0x1000) / 0x80
    let x := poolOf s (BitVec.ofNat 3 p) ((o - 0x1000) / 0x20 % 4)
    let b := 0x40000 + o / 8 * 8
    if s.build.partitions ≤ p then none
    else match o % 0x20 / 8 with
      | 0 => r8 b (x.base.toNat * 2 ^ 12 + x.log2.toNat)
      | 1 => r8 b (x.aProd.toNat * 2 ^ 32 + x.aCons.toNat)
      | 2 => r8 b (x.rProd.toNat * 2 ^ 32 + x.rCons.toNat)
      | _ => none
  else if 0x8000 ≤ o ∧ o < 0xC000 then
    let f := fltSlot s ((o - 0x8000) / 64)
    some ⟨0x40000 + o / 64 * 64, 64, if seesCtx s fn f.ctx then leNat f.bytes else 0⟩
  else none

/-- The key-translation block. -/
def ktRegs (s : State) (o : Nat) : Option Reg :=
  if s.build.keySlices = 0 then none
  else match o / 8 with
    | 0 => r8 0x80000 (liveWord (maskOf s.build.keySlices) s.kt.retire.toNat 32)
    | 1 => r8 0x80008 (flagAt s.kt.retBusy 63 + s.kt.retire.toNat)
    | 2 => r8 0x80010 (opWord s.kt.invOp s.kt.invIndex.toNat)
    | 3 => r8 0x80018 s.kt.window.toNat
    | _ =>
      if 0x40 ≤ o then
        (counterAt 0x40 o [s.kt.lookups, s.kt.hits, s.kt.reads, s.kt.absent, s.kt.posted, s.kt.filtered, s.kt.dropped]).map
          fun r => { r with base := 0x80000 + r.base }
      else none

/-- The pooling block. -/
def paRegs (s : State) (o : Nat) : Option Reg :=
  if s.build.lanes = 0 then none
  else match o / 8 with
    | 0 => r8 0xA0000 ((maskOf (s.build.lanes / 4) &&& (maskOf 12 - s.pa.retire.toNat)) * 2 ^ 16 + maskOf (s.build.lanes / 4))
    | 1 => r8 0xA0008 (flagAt s.pa.retBusy 63 + s.pa.retire.toNat)
    | _ =>
      if 0x40 ≤ o then
        (counterAt 0x40 o [s.pa.bags, s.pa.rows, s.pa.beats, s.pa.nulls, s.pa.empties, s.pa.tiles, s.pa.sats, s.pa.nans]).map
          fun r => { r with base := 0xA0000 + r.base }
      else none

def ChSt.code : ChSt → Nat
  | .idle => 0 | .loading => 1 | .running => 2 | .waiting => 3 | .ending => 4 | .aborting => 5

/-- MV_CH_STAT. -/
def chStatWord (s : State) (c : Nat) : Nat :=
  let x := chan s c
  min 255 x.queue.length * 2 ^ 56 + (x.run.map (·.ctx.toNat)).getD 0 * 2 ^ 44 + (x.run.map (·.pc)).getD 0 % 1024 * 2 ^ 34 +
    x.st.code * 2 ^ 31 + ((chanPart s c).getD 0).toNat * 2 ^ 28

/-- The mover block. -/
def mvRegs (s : State) (o : Nat) : Option Reg :=
  if s.build.channels = 0 then none
  else if 0x1000 ≤ o then
    let c := (o - 0x1000) / 0x40
    let x := chan s c
    if s.build.channels ≤ c then none
    else match o % 0x40 / 8 with
      | 0 => r8 (0xC0000 + o / 8 * 8) (x.keyId.toNat * 2 ^ 16 + flagAt x.copy 9 + x.share.toNat)
      | 1 => r8 (0xC0000 + o / 8 * 8) (chStatWord s c)
      | _ => none
  else if 0x40 ≤ o then
    (counterAt 0x40 o [s.mv.rdBytes, s.mv.wrBytes, s.mv.bad, s.mv.aborted, s.mv.hintDropped, s.mv.flushes, s.mv.scrubBytes]).map
      fun r => { r with base := 0xC0000 + r.base }
  else none

def LinkSt.code : LinkSt → Nat
  | .disabled => 0 | .detect => 1 | .train => 2 | .config => 3 | .init => 4 | .active => 5 | .recovery => 6 | .l1 => 7
  | .off => 8 | .failed => 9

/-- BL_PORT_STATUS. -/
def blStatusWord (b : BlPort) : Nat :=
  b.peerNode.toNat * 2 ^ 38 + flagAt b.peerRole 37 + flagAt b.peerAsgd 36 +
    (if b.st = .active then b.width.toNat * 2 ^ 16 else 0) + b.rate.toNat * 2 ^ 13 + flagAt b.retired 12 + b.st.code

/-- BL_SHARD_VIEW of a slot; `img` is its current image as read. -/
def shardViewWord (s : State) (img : List Byte) (d : Nat) : Nat :=
  if !(dirOf s d).valid then 0
  else
    let n := imgShards img
    let own := (List.range n).find? fun k => (shardAt img k).node = s.bl.nodeId.toNat
    2 ^ 63 + n * 2 ^ 49 + (own.getD 0) * 2 ^ 41 + flagAt own.isSome 40 + leAt img 12 4

/-- BL_NODE. -/
def blNodeWord (s : State) : Nat :=
  flagAt s.bl.ready 63 + flagAt s.bl.assigned 62 + flagAt s.bl.root 61 + flagAt s.role 60 + s.bl.board.toNat * 2 ^ 20 +
    s.bl.pos.toNat * 2 ^ 16 + s.bl.nodeId.toNat

/-- BL_KEY. -/
def blKeyWord (s : State) (k : Nat) : Nat :=
  if k = 0 then 0
  else
    let x := keySlot s k
    x.gen.toNat * 2 ^ 32 + ((keyPart s k).getD 0).toNat * 2 ^ 8 + x.st.code

/-- The Bramble block. -/
def blRegs (s : State) (mem : List Byte) (o : Nat) : Option Reg :=
  let b := 0x100000 + o / 8 * 8
  if s.build.brambles = [] then none
  else if o < 0x100 then
    match o / 8 with
    | 0 => r8 b (blNodeWord s)
    | 1 => r8 b (flagAt (discRuns s) 63 + s.bl.discRes.toNat * 2 ^ 48 + s.bl.epoch.toNat)
    | 2 => r8 b (s.bl.shardBase.toNat * 2 ^ 22 + flagAt s.bl.shardEn 0)
    | 3 => r8 b (opWord s.bl.shardOp s.bl.shardSlot.toNat)
    | 4 => r4 b s.bl.patience.toNat
    | 8 => r8 b s.bl.timeouts.toNat
    | 9 => r8 b s.bl.late.toNat
    | 10 => r8 b s.bl.nackTx.toNat
    | 11 => r8 b s.bl.nackRx.toNat
    | _ => none
  else if o < 0x300 then
    let p := (o - 0x100) / 0x40
    if !portExists s p then none
    else match o % 0x40 / 8 with
      | 0 => r4 b (flagAt (blPort s p).retire 3 + flagAt (blPort s p).en 0)
      | 1 => r8 b (blStatusWord (blPort s p))
      | 2 => r8 b (blPort s p).peerId.toNat
      | _ => none
  else if 0x400 ≤ o ∧ o < 0x600 then r8 b (shardViewWord s mem ((o - 0x400) / 8))
  else if 0x1000 ≤ o ∧ o < 0x1800 then r8 b (blKeyWord s ((o - 0x1000) / 8))
  else if 0x2000 ≤ o ∧ o < 0x2400 then
    let p := (o - 0x2000) / 0x80
    let i := o % 0x80 / 8
    if portExists s p ∧ i < 12 then r8 b (Tab.get 0 (blPort s p).cnt i).toNat else none
  else none

/-- The coherence block. -/
def chRegs (s : State) (o : Nat) : Option Reg :=
  if 0x100 ≤ o then
    let p := (o - 0x100) / 8
    let h := Tab.get (false, 0) s.ch.hints p
    if p < s.build.partitions then r4 (0x140000 + o / 8 * 8) (flagAt h.1 7 + h.2.toNat) else none
  else match o / 8 with
    | 0 => r8 0x140000 (flagAt s.ch.busy 63 + s.ch.result.toNat * 2 ^ 48 + s.ch.agent.toNat * 2 ^ 32 + s.ch.st.code)
    | 1 => r8 0x140008 (s.ch.attached.toNat * 2 ^ 32 + s.ch.present.toNat)
    | _ =>
      if 0x40 ≤ o then
        (counterAt 0x40 o [s.ch.snoops, s.ch.bcasts, s.ch.evicts, s.ch.ownData, s.ch.atomics, s.ch.stashAcc, s.ch.stashDec,
          s.ch.poisoned]).map fun r => { r with base := 0x140000 + r.base }
      else none

/-- The partition block. -/
def psRegs (s : State) (o : Nat) : Option Reg :=
  let b := 0x160000 + o / 8 * 8
  if o < 0x100 then
    match o / 8 with
    | 0 => r8 b (opWord s.ps.partOp s.ps.partSel.toNat)
    | 1 => r8 b (opWord s.ps.jobOp s.ps.jobKey.toNat)
    | 3 => r8 b (s.ps.jobNodes.toNat * 2 ^ 7)
    | _ => none
  else if o < 0x500 then
    let p := (o - 0x100) / 0x80
    let x := partOf s (BitVec.ofNat 3 p)
    let i := (o - 0x100) % 0x80
    if s.build.partitions ≤ p then none
    else if 0x40 ≤ i then r8 b (Tab.get {} x.ranges ((i - 0x40) / 8)).word
    else match i / 8 with
      | 0 => r8 b x.cfgWord
      | 1 => r8 b (x.teardowns.toNat * 2 ^ 16 + x.st.code)
      | 2 => r8 b (x.scrubTotal.toNat * 2 ^ 32 + x.scrubDone.toNat)
      | _ => none
  else if 0x800 ≤ o ∧ o < 0xA00 then
    let p := (o - 0x800) / 0x40
    if p < s.build.partitions ∧ o % 0x40 < 48 then r48 (0x160000 + o / 0x40 * 0x40) (partOf s (BitVec.ofNat 3 p)).digest else none
  else if 0x1000 ≤ o ∧ o < 0x10F8 then r8 b (Tab.get 0 s.ps.own ((o - 0x1000) / 8)).toNat
  else none

/-- A record as a function reads it (R446). -/
def recView (s : State) (fn : Fn) (n : Nat) : Nat :=
  let r := recAt s n
  if fn.vf = 0 ∨ (r.ctxv && seesCtx s fn r.ctx) = true then leNat (recBytes r) else 0

/-- FC_VALID as a function reads it. -/
def validView (s : State) (fn : Fn) : Nat :=
  (List.range 32).foldl (fun v n =>
    let r := recAt s n
    if recValid s n && (decide (fn.vf = 0) || (r.ctxv && seesCtx s fn r.ctx)) then v + 2 ^ n else v) 0

/-- The fault-collector block. -/
def fcRegs (s : State) (fn : Fn) (o : Nat) : Option Reg :=
  if 0x1000 ≤ o ∧ o < 0x1800 then some ⟨0x170000 + o / 64 * 64, 64, recView s fn ((o - 0x1000) / 64)⟩
  else match o / 8 with
    | 0 => r8 0x170000 (fcStatus s)
    | 1 => r8 0x170008 (validView s fn)
    | 2 => r8 0x170010 s.fc.overflow.toNat
    | 3 => r4 0x170018 (fcErrn s)
    | 4 => r4 0x170020 s.fc.srcSel.toNat
    | 5 => r8 0x170028 (srcCfg s)
    | 6 => r8 0x170030 (fcInject s)
    | 0x100 => r8 0x170800 (fcSloe s)
    | _ => none

/-- TP_STATUS. -/
def tpStatus (s : State) : Nat := flagAt s.tp.ready 63 + flagAt (!s.tp.quar.isEmpty) 62 + s.tp.lastReset.toNat * 2 ^ 56

/-- The time and power block. -/
def tpRegs (s : State) (o : Nat) : Option Reg :=
  if 0x100 ≤ o ∧ o < 0x300 then
    r8 (0x180000 + o / 8 * 8) (match Tab.find? s.tp.quar ((o - 0x100) / 8) with
      | some r => 2 ^ 63 + r.word
      | none => 0)
  else match o / 8 with
    | 0 => r8 0x180000 (tpStatus s)
    | 1 => r8 0x180008 (flagAt s.tp.pwrBusy 63 + s.tp.pwrResult.toNat * 2 ^ 48 + s.tp.pwr.code)
    | 2 => r8 0x180010 (s.tp.saveBase.toNat * 2 ^ 20)
    | 4 => r8 0x180020 (s.tick % 2 ^ 64)
    | 5 => r4 0x180028 s.epoch.toNat
    | _ => none

/-- The register at an offset of a function's BAR0, if one lies there. -/
def regAt (s : State) (fn : Fn) (mem : List Byte) (off : Nat) : Option Reg :=
  let o := off % 0x10000
  match off / 0x10000 with
  | 0x00 => idRegs s fn o
  | 0x01 => hpRegs s fn o
  | 0x02 => qeRegs s fn mem o
  | 0x04 => tuRegs s fn o
  | 0x08 => ktRegs s o
  | 0x0A => paRegs s o
  | 0x0C => mvRegs s o
  | 0x10 => blRegs s mem o
  | 0x14 => chRegs s o
  | 0x16 => psRegs s o
  | 0x17 => fcRegs s fn o
  | 0x18 => tpRegs s o
  | _ => none

/-- The registers that a VF has (R488). -/
def vfSees (base : Nat) : Bool :=
  decide (base < 0x2000 ∨ base = 0x10008 ∨ (0x21000 ≤ base ∧ base < 0x22000) ∨ (0x48000 ≤ base ∧ base < 0x4C000) ∨
    base = 0x170000 ∨ base = 0x170008 ∨ (0x171000 ≤ base ∧ base < 0x171800) ∨ base = 0x180000 ∨ base = 0x180020 ∨ base = 0x180028)

/-- The registers wider than 64 bits, which are read as snapshots (R486). -/
def regWide (base : Nat) : Bool :=
  decide (base = 0x10108 ∨ base = 0x20080 ∨ (0x48000 ≤ base ∧ base < 0x4C000) ∨ (0x160800 ≤ base ∧ base < 0x160A00) ∨
    (0x171000 ≤ base ∧ base < 0x171800))

/-! ### Registers that show memory (R226, R114, R317) -/

/-- The version line of the selected table: 0 where it is not a TABLE, or is FREE. -/
def tableView (bus : Bus) (i : Nat) : Act (List Byte) := do
  let s ← get
  if objCount s ≤ i then pure []
  else do
    let o ← objGet bus i
    if o.ty ≠ tyTable ∨ o.st = stFree then pure [] else engRead bus (vlineReq selfReq o .read) o.part 64

/-- What a read of the register at an offset has to read from memory. -/
def regMem (bus : Bus) (fn : Fn) (off : Nat) : Act (List Byte) := do
  let s ← get
  if 0x20080 ≤ off ∧ off < 0x200C0 then tableView bus s.qe.tblSel.toNat
  else if 0x21000 ≤ off ∧ off < 0x22000 then
    match qviewOf s fn ((off - 0x21000) / 8) with
    | some (c, _) => if (ctxOf s c).st = .disabled then homeGet (loadVia s c) bus (ctxAddr s c) 512 else pure []
    | none => pure []
  else if 0x100400 ≤ off ∧ off < 0x100600 then do
    let d := (off - 0x100400) / 8
    if (dirOf s d).valid then homeGet (sysVia s (dirAddr s d (dirOf s d).cur)) bus (dirAddr s d (dirOf s d).cur) 16384 else pure []
  else pure []

/-- The bytes that a register shows where its read of memory failed: no value is stated (log entry 52). -/
def regLost (s : State) : List Byte :=
  (List.range 512).map fun i => BitVec.ofNat 8 ((Config.freeWord s.free (i / 8)).toNat >>> (8 * (i % 8)))

/-- Memory as a register read sees it: the state, the bytes, and whether the read has to be made again once near cores
have answered. -/
def regFetch (s : State) (bus : Bus) (fn : Fn) (off : Nat) : State × List Byte × Bool :=
  match regMem bus fn off s with
  | .ok b s' => (s', b, false)
  | .error .wait s' => (waitBack s s', [], true)
  | .error _ s' => (s', regLost s, false)

/-! ### Reads (R484 to R488) -/

/-- The value of a read of `size` bytes of a function's BAR0. -/
def readValue (s : State) (fn : Fn) (mem : List Byte) (off size : Nat) : List Byte :=
  match regAt s fn mem off with
  | none => leBytes size 0
  | some r =>
    if off % size ≠ 0 ∨ r.base + r.width < off + size ∨ (fn.vf ≠ 0 ∧ vfSees r.base = false) then leBytes size 0
    else leBytes size (r.value >>> (8 * (off - r.base)))

/-- The key of a near-core port's snapshot of a wide register. -/
def snapKey (core base : Nat) : Nat := core * 2 ^ 24 + base

/-- A read by a near-core port: wide registers through its snapshot. -/
def coreRead (s : State) (core : Nat) (fn : Fn) (mem : List Byte) (off size : Nat) : State × List Byte :=
  match regAt s fn mem off with
  | none => (s, leBytes size 0)
  | some r =>
    if regWide r.base && decide (off % size = 0 ∧ off + size ≤ r.base + r.width) then
      let k := snapKey core (fn.port * 2 ^ 30 + r.base)
      let snap := match Tab.find? s.ch.snaps k with
        | some b => if off - r.base < 8 then leBytes r.width r.value else b
        | none => leBytes r.width r.value
      ({ s with ch := { s.ch with snaps := Tab.insert s.ch.snaps k snap } }, (snap.drop (off - r.base)).take size)
    else (s, readValue s fn mem off size)

/-! ### Writes (R484, R485, R487) -/

/-- Some object of the table is not FREE, as device memory holds it. -/
def objsInUse (s : State) : Bool :=
  let lo := s.qe.objBase.toNat * 4096
  s.mem.cells.any fun e => decide (lo ≤ e.1 ∧ e.1 < lo + 64 * objCount s ∧ (e.1 - lo) % 64 = 0) && decide (e.2.toNat % 8 ≠ 0)

/-- A write of QE_OBJ_BASE: LOG2 outside 10 to 26 leaves the register unchanged (log entry 27). -/
def objBaseWrite (s : State) (v : Word) : State :=
  let n := bits v 4 0
  if objsInUse s || decide (n < 10 ∨ 26 < n) || !placeOk s (bits v 47 12 * 4096) (64 * 2 ^ n) then s
  else { s with qe := { s.qe with objBase := BitVec.ofNat 36 (bits v 47 12), objLog2 := BitVec.ofNat 5 n } }

/-- Writes of the queue-engine block. -/
def qeWrite (s : State) (bus : Bus) (o : Nat) (v : Word) : State :=
  match o with
  | 0x00 =>
    if (s.qe.ctxs.any fun e => decide (e.2.st ≠ .disabled)) || !placeOk s (bits v 47 21 * 0x200000) 0x200000 then s
    else { s with qe := { s.qe with ctxBase := BitVec.ofNat 27 (bits v 47 21) } }
  | 0x08 => ctxOpWrite s bus (bits v 19 16) (BitVec.ofNat 12 (bits v 11 0))
  | 0x10 => { s with qe := { s.qe with statSel := BitVec.ofNat 12 (bits v 11 0) } }
  | 0x18 =>
    let n := bits v 9 0
    if 1 ≤ n ∧ n ≤ 1000 then { s with qe := { s.qe with patience := BitVec.ofNat 10 n } } else s
  | 0x20 => objBaseWrite s v
  | 0x28 => objOpWrite s (bits v 35 32) (BitVec.ofNat 32 (bits v 31 0)) bus
  | 0x40 => { s with qe := { s.qe with tblSel := BitVec.ofNat 32 (bits v 31 0) } }
  | _ => s

/-- A write of TU_POOL_BASE: LOG2 takes 0 and 9 to 24. -/
def poolBaseWrite (s : State) (part cls : Nat) (v : Word) : State :=
  let p := BitVec.ofNat 3 part
  let n := bits v 4 0
  let old := (poolOf s p cls).log2.toNat
  let log2 := if n = 0 ∨ (9 ≤ n ∧ n ≤ 24) then n else old
  if placeOk s (bits v 47 12 * 4096) (if log2 = 0 then 0 else 16 * 2 ^ log2) then
    updPool s p cls fun x => { x with base := BitVec.ofNat 36 (bits v 47 12), log2 := BitVec.ofNat 5 log2 }
  else s

/-- Writes of the translation block. -/
def tuWrite (s : State) (bus : Bus) (o : Nat) (v : Word) : State :=
  if 0x1000 ≤ o ∧ o < 0x1400 then
    let p := (o - 0x1000) / 0x80
    let cls := (o - 0x1000) / 0x20 % 4
    if !poolExists s p cls then s
    else match o % 0x20 with
      | 0x00 => poolBaseWrite s p cls v
      | 0x08 => poolProduce s p cls (BitVec.ofNat 32 (bits v 63 32))
      | 0x10 => poolConsume s bus p cls (BitVec.ofNat 32 (bits v 31 0))
      | _ => s
  else match o with
    | 0x08 => pageRetireWrite s (bits v 15 0)
    | 0x20 => { s with tu := { s.tu with invVa := BitVec.ofNat 45 (bits v 56 12) } }
    | 0x28 => { s with tu := { s.tu with invLen := BitVec.ofNat 46 (bits v 57 12) } }
    | 0x30 => invWrite s (bits v 19 16) (BitVec.ofNat 12 (bits v 47 36)) (BitVec.ofNat 3 (bits v 35 33)) (bit v 32)
    | 0x40 => fltWrite s bus (bits v 19 16) (BitVec.ofNat 8 (bits v 7 0))
    | _ => s

/-- Writes of the key-translation block. -/
def ktWrite (s : State) (o : Nat) (v : Word) : State :=
  if s.build.keySlices = 0 then s
  else match o with
    | 0x08 => keyRetireWrite s (bits v 31 0)
    | 0x10 => ktInvWrite s (bits v 35 32) (BitVec.ofNat 32 (bits v 31 0))
    | 0x18 => { s with kt := { s.kt with window := BitVec.ofNat 20 (bits v 19 0) } }
    | _ => s

/-- Writes of the mover block: MV_CH_CFG. -/
def mvWrite (s : State) (o : Nat) (v : Word) : State :=
  let c := (o - 0x1000) / 0x40
  if 0x1000 ≤ o ∧ o % 0x40 = 0 ∧ c < s.build.channels ∧ (Tab.get {} s.mv.chans c).st = .idle then
    let sh := bits v 8 0
    updChan s c fun x => { x with
      keyId := BitVec.ofNat 8 (bits v 23 16), copy := bit v 9
      share := if sh = 0 ∨ 256 < sh then x.share else BitVec.ofNat 9 sh }
  else s

/-- A write of BL_PORT_CTL: EN, RETIRE and RETRAIN in this order (log entry 52). -/
def portCtlWrite (s : State) (p : Nat) (v : Word) : State :=
  let s := if bit v 0 then portEnable s p else portDisable s p
  let s := if bit v 3 then portRetire s p else portRestore s p
  if bit v 2 then portRetrain s p else s

/-- A write of BL_SHARD_BASE: EN, and BASE where no slot is valid and the place may be used. -/
def shardBaseWrite (s : State) (v : Word) : State :=
  let keep := (s.bl.dirs.any fun d => d.2.valid) || !placeOk s (bits v 47 22 * 0x400000) 0x400000
  { s with bl := { s.bl with
    shardBase := if keep then s.bl.shardBase else BitVec.ofNat 26 (bits v 47 22), shardEn := bit v 0 } }

/-- Writes of the Bramble block. -/
def blWrite (s : State) (bus : Bus) (o : Nat) (v : Word) : State :=
  if s.build.brambles = [] then s
  else if 0x100 ≤ o ∧ o < 0x300 then
    let p := (o - 0x100) / 0x40
    if o % 0x40 = 0 ∧ portExists s p = true then portCtlWrite s p v else s
  else match o with
    | 0x08 => discWrite s (bits v 19 16)
    | 0x10 => shardBaseWrite s v
    | 0x18 => shardWrite s bus (bits v 19 16) (bits v 5 0)
    | 0x20 =>
      let n := bits v 16 0
      if 50 ≤ n ∧ n ≤ 100000 then { s with bl := { s.bl with patience := BitVec.ofNat 17 n } } else s
    | _ => s

/-- Writes of the coherence block: a hint to a port that is not present reads back without EN. -/
def chWrite (s : State) (o : Nat) (v : Word) : State :=
  if 0x100 ≤ o then
    let p := (o - 0x100) / 8
    let port := bits v 4 0
    if p < s.build.partitions ∧ o % 8 = 0 then
      { s with ch := { s.ch with hints := Tab.set (false, 0) s.ch.hints p (bit v 7 && corePresent s port, BitVec.ofNat 5 port) } }
    else s
  else if o = 0 then domainWrite s (bits v 19 16)
  else s

/-- Writes of the partition block. -/
def psWrite (s : State) (bus : Bus) (o : Nat) (v : Word) : State :=
  match o with
  | 0x00 => partOpWrite s bus (bits v 19 16) (BitVec.ofNat 3 (bits v 2 0))
  | 0x08 => jobWrite s bus (bits v 19 16) (bits v 7 0)
  | 0x18 =>
    if placeOk s (bits v 47 7 * 128) 128 then { s with ps := { s.ps with jobNodes := BitVec.ofNat 41 (bits v 47 7) } } else s
  | o => tableWrite s (0x160000 + o) v

/-- Writes of the collector block outside the safe state. -/
def fcWrite (s : State) (o : Nat) (v : Word) : State :=
  match o with
  | 0x08 => freeRecs s (BitVec.ofNat 32 (bits v 31 0))
  | 0x18 => errnWrite s v
  | 0x20 => { s with fc := { s.fc with srcSel := BitVec.ofNat 16 (bits v 15 0) } }
  | 0x28 => srcCfgWrite s v
  | 0x30 => injectWrite s v
  | 0x800 => sloeWrite s v
  | _ => s

/-- Writes of the time and power block. -/
def tpWrite (s : State) (bus : Bus) (o : Nat) (v : Word) : State :=
  match o with
  | 0x08 => pwrWrite s bus (bits v 19 16) (bit v 8)
  | 0x10 =>
    if placeOk s (bits v 47 20 * 0x100000) 0x100000 then { s with tp := { s.tp with saveBase := BitVec.ofNat 28 (bits v 47 20) } } else s
  | _ => s

/-- Writes of the host-port block of a port (R75, R77). -/
def hpWrite (s : State) (bus : Bus) (port o : Nat) (v : Word) : State :=
  if 0x2000 ≤ o ∧ o < 0x4000 then
    let n := (o - 0x2000) / 0x20
    let a := aperture s port n
    let frozen := tdiFrozen s port a.owner.toNat
    match o % 0x20 with
    | 0x00 => apCfgWrite s port n v bus
    | 0x08 => if a.en || frozen then s else updAp s port n fun a => { a with obj := v }
    | 0x10 =>
      if (a.en && decide (a.mode ≠ 0)) || frozen then s
      else updAp s port n fun a => { a with base := BitVec.ofNat 42 (bits v 47 6) }
    | _ => s
  else if o = 0x100 then updHost s port fun h => { h with digestSel := BitVec.ofNat 8 (bits v 7 0) }
  else s

/-- Whole context-map entries that a write covers (log entry 52). -/
def ctxmapWords (s : State) (port o size : Nat) (v : Word) : State :=
  let vf := (o - 0x8000) / 0x80 + 1
  if vf ≤ 63 ∧ fnExists s ⟨port, vf⟩ = true then
    (List.range (size / 2)).foldl (fun s i =>
      ctxmapWrite s port vf (o % 0x80 / 2 + i) (BitVec.ofNat 16 (bits v (16 * i + 15) (16 * i)))) s
  else s

/-- A write whose size and offset fit its register, by block. -/
def regWriteAt (s : State) (bus : Bus) (port off : Nat) (v : Word) : State :=
  let o := off % 0x10000
  match off / 0x10000 with
  | 0x01 => hpWrite s bus port o v
  | 0x02 => qeWrite s bus o v
  | 0x04 => tuWrite s bus o v
  | 0x08 => ktWrite s o v
  | 0x0A => if o = 0x08 ∧ s.build.lanes ≠ 0 then quadRetireWrite s (bits v 11 0) else s
  | 0x0C => mvWrite s o v
  | 0x10 => blWrite s bus o v
  | 0x14 => chWrite s o v
  | 0x16 => psWrite s bus o v
  | 0x17 => fcWrite s o v
  | 0x18 => tpWrite s bus o v
  | _ => s

/-- In the safe state only FC_VALID and FC_ERRN take a write (R456). -/
def safeWrites (off : Nat) : Bool := decide (off = 0x170008 ∨ off = 0x170018)

/-- A write with the rights of a port's PF: naturally aligned, of the register's own size (R484). -/
def regWrite (s : State) (bus : Bus) (port off size : Nat) (v : Word) : State :=
  let v := if size = 4 then BitVec.ofNat 64 (bits v 31 0) else v
  if !fcBarOk s || (safeState s && !safeWrites off) || decide ((size ≠ 4 ∧ size ≠ 8) ∨ off % size ≠ 0) then s
  else if 0x18000 ≤ off ∧ off < 0x20000 then ctxmapWords s port (off - 0x10000) size v
  else match regAt s ⟨port, 0⟩ [] off with
    | some r => if r.base = off ∧ r.width = size then regWriteAt s bus port off v else s
    | none => s

/-! ### BAR4 beyond the doorbells: the MSI-X table and the PBA (R72 to R74, R102) -/

def msixBase (fn : Fn) : Nat := if fn.vf = 0 then 0x8000000 else 0x200000
def pbaBase (fn : Fn) : Nat := if fn.vf = 0 then 0x8010000 else 0x201000

/-- An entry of the MSI-X table (PRESUMED: the layout is that of PCI Express, log entry 7). -/
def Vector.bytes (x : Vector) : List Byte := leBytes 8 x.addr.toNat ++ leBytes 4 x.data.toNat ++ leBytes 4 (flagAt x.masked 0)

/-- What a host reads at an offset of BAR4 (R74): a doorbell page reads 0. -/
def bar4Value (s : State) (fn : Fn) (off size : Nat) : Nat :=
  let n := vectorsOf fn
  let vec (v : Nat) : Vector := Tab.get {} (fnState s fn).msix v
  if msixBase fn ≤ off ∧ off < msixBase fn + 16 * n then
    leNat (((vec ((off - msixBase fn) / 16)).bytes.drop (off % 16)).take size)
  else if pbaBase fn ≤ off ∧ off < pbaBase fn + n / 8 then
    (List.range (8 * size)).foldl (fun a i => a + flagAt (vec (8 * (off - pbaBase fn) + i)).pending i) 0
  else 0

/-- A host write into BAR4 beyond the doorbells: the MSI-X table takes it, and a vector that it unmasks sends its pending
message. -/
def bar4Write (s : State) (fn : Fn) (off size : Nat) (value : Word) : State :=
  if msixBase fn ≤ off ∧ off < msixBase fn + 16 * vectorsOf fn then
    let v := (off - msixBase fn) / 16
    msixSend (updFn s fn fun f => { f with msix := Tab.upd {} f.msix v fun x =>
      let bs := patch x.bytes (off % 16) (leBytes size value.toNat)
      { x with addr := BitVec.ofNat 64 (leAt bs 0 8), data := BitVec.ofNat 32 (leAt bs 8 4), masked := bit (BitVec.ofNat 64 (leAt bs 12 4)) 0 } }) fn v
  else s

/-- REGISTER_WRITE: a write by a host into BAR0 or BAR4 of a function. Registers that a PF writes take effect; those of a VF
take none, and off the stream of a TDI in RUN the write is dropped and counted (R103, R488). -/
def execRegisterWrite (at_ : RegAt) (off : BitVec 28) (size : Nat) (value : Word) (bus : Bus) (s : State) : Res :=
  .next (if !fnExists s at_.fn || decide (s.tp.pwr = .p3) then s
    else if at_.bar4 then bar4Write s at_.fn off.toNat size value
    else if at_.fn.vf ≠ 0 then (if s.tp.ready && !ideOk s at_.fn at_.stream then dropOne s at_.fn.port false else s)
    else regWrite s bus at_.fn.port off.toNat size value)

/-! ### Near-core windows (R490 to R492) -/

/-- The port of the register window's half, and the offset in its BAR0. -/
def windowReg (a : Nat) : Nat × Nat := ((a - 0xFFFFF0000000) / 2 ^ 24, a % 2 ^ 24)

/-- A near-core port may use the window at an address: partition 0 for registers, the owner of the queue's context for a
doorbell page. -/
def windowAllows (s : State) (core a : Nat) : Bool :=
  if inRegWindow a then decide (corePart s core = some 0)
  else (corePart s core).isSome && decide (ctxPart s (BitVec.ofNat 12 ((a - 0xFFFFE0000000) / 4096 / 8)) = corePart s core)

/-- A response with data. -/
def coreData (s : State) (core : Nat) (txn : Byte) (data : List Byte) : State :=
  respondFree s core { opc := 1, id := txn.toNat, data := data }

/-- A doorbell that a near core writes (R121, R491): the page's offset names the field. -/
def coreDoorbell (s : State) (bus : Bus) (a size : Nat) (v : Word) : State :=
  let page := (a - 0xFFFFE0000000) / 4096
  let c := BitVec.ofNat 12 (page / 8)
  let q := page % 8
  let fld : Option DbField := match a % 4096 with
    | 0x000 => some .tail
    | 0x008 => some .cqHead
    | 0x010 => some .sretHead
    | _ => none
  match fld with
  | some f => if dbAccepted s c q ∧ (size = 4 ∨ size = 8) then dbDeliver s bus c q f (BitVec.ofNat 32 (bits v 31 0)) else s
  | none => s

/-- RD_NC of a window: one of HP_INGEST_SYNC is held until the window writes before it are over (R91). -/
def windowRead (s : State) (bus : Bus) (core : Nat) (req : CReq) (size : Nat) : State :=
  let a := req.addr.toNat
  let o := openReq s core req.txn (.rdNc size)
  if (corePart s core).any (partClosing s) || !windowAllows s core a then coreDeny o core req.txn a
  else if size ≠ 2 ∧ size ≠ 3 then coreFail o core req.txn hsFormat
  else if inDbWindow a then coreData o core req.txn (leBytes (2 ^ size) 0)
  else
    let r := windowReg a
    if !hostExists s r.1 then coreData o core req.txn (leBytes (2 ^ size) 0)
    else if r.2 / 8 = 0x2001 ∧ s.tp.ready = true then coreSync o r.1 core req.txn (r.2 % 8) (2 ^ size)
    else
      let m := regFetch o bus ⟨r.1, 0⟩ r.2
      if m.2.2 then waitBack s m.1
      else
        let x := coreRead m.1 core ⟨r.1, 0⟩ m.2.1 r.2 (2 ^ size)
        coreData x.1 core req.txn x.2

/-- WR_NC of a window: COMP once the write has taken effect (R388, R401). -/
def windowWriteNc (s : State) (bus : Bus) (core : Nat) (req : CReq) (size : Nat) (data : List Byte) : State :=
  let a := req.addr.toNat
  let o := openReq s core req.txn (.wrNc size data)
  let v : Word := BitVec.ofNat 64 (leNat (data.take (2 ^ size)))
  if (corePart s core).any (partClosing s) || !windowAllows s core a then coreDeny o core req.txn a
  else if size ≠ 2 ∧ size ≠ 3 then coreFail o core req.txn hsFormat
  else if inDbWindow a then respondFree (coreDoorbell o bus a (2 ^ size) v) core { opc := 2, id := req.txn.toNat }
  else
    let r := windowReg a
    respondFree (if hostExists s r.1 then regWrite o bus r.1 r.2 (2 ^ size) v else o) core { opc := 2, id := req.txn.toNat }

/-- RD_NC (R369, R374, R491). -/
def execRdNc (core : Nat) (req : CReq) (size : BitVec 3) (bus : Bus) (s : State) : Res :=
  coreReq s core req (.rdNc size.toNat) false fun s =>
    if !req.va && inWindow req.addr.toNat then windowRead s bus core req size.toNat
    else coreServe s bus core (.rdNc size.toNat) req

/-- WR_NC (R369, R374, R491). -/
def execWrNc (core : Nat) (req : CReq) (size : BitVec 3) (data : List Byte) (bus : Bus) (s : State) : Res :=
  let d := padTo 64 data
  coreReq s core req (.wrNc size.toNat d) true fun s =>
    if !req.va && inWindow req.addr.toNat then windowWriteNc s bus core req size.toNat d
    else coreServe s bus core (.wrNc size.toNat d) req

/-! ### READY (R465, R470) -/

/-- Serve a request that waited for READY; the credits of its beats go back (R30). -/
def earlyReq (s : State) (bus : Bus) (e : EarlyReq) : State :=
  match e.op with
  | none => takeBarrier (emit s (.homeCredits e.core 1 0 0)) e.core e.req e.kind
  | some op =>
    let s := emit s (.homeCredits e.core 1 0 (if op.carries then 1 else 0))
    if badReq e.req op then coreFail (openReq s e.core e.req.txn op) e.core e.req.txn hsFormat
    else if !e.req.va && inWindow e.req.addr.toNat then
      match op with
      | .rdNc size => windowRead s bus e.core e.req size
      | .wrNc size data => windowWriteNc s bus e.core e.req size data
      | _ => coreServe s bus e.core op e.req
    else coreServe s bus e.core op e.req

/-- The near-core requests that waited for READY are served in the order in which they came. -/
def serveEarly (s : State) (bus : Bus) : State :=
  each (fun s e => earlyReq s bus e) { s with ch := { s.ch with early := [] } } s.ch.early

/-- RESET_SEQUENCE_END: Quince has booted, and every range that had to be scrubbed is acknowledged. -/
def execResetSequenceEnd (firmwareOk : Bool) (bus : Bus) (s : State) : Res :=
  match s.tp.resetting with
  | none => .next s
  | some k =>
    if s.ps.quince ≠ .running then .next s
    else if fusesBlank s 22 12 then .next { s with ps := { s.ps with quince := .provisioning } }
    else if !firmwareOk then .next { s with ps := { s.ps with quince := .firmware } }
    else
      let s := scrubOverflow s bus
      .next (if s.tp.overflow = [] then serveEarly (comeUp s k) bus else s)

/-- The queues of a context that near cores feed are read again, and a context with a pending doorbell loads (R14, R117,
R126). -/
def coresBack (s : State) (c : BitVec 12) : State :=
  let s := kickAll (each (fun s q => dbLate s [] c q) s (List.range 8)) c
  if (ctxOf s c).qs.any fun q => q.2.waiting then startLoad s c else s

/-- RESTORE_CREDITS_RECEIVED (R386): the domain is UP, and queues that near cores feed are read again. -/
def execRestoreCreditsReceived (s : State) : Res :=
  .next (if s.ch.st = .restoring ∧ coresReady s = true then
      let s := domainDone { s with ch := { s.ch with st := .up } } rOk
      each (fun s e => coresBack s (BitVec.ofNat 12 e.1)) s s.qe.ctxs
    else s)

end Sys2Proof.Machine
end

