-- ==== Sys2Proof/Machine/Dispatch.lean ====
section
/-! DEFINITION. The dispatch of a command to its meaning: one arm for each row of the table. -/

namespace Sys2Proof.Machine

def exec (i : Instr) (s : State) : Host.Outcome State Fault Refusal :=
  match i with
  -- resets and the host ports
  | .powerOnReset suppliesRemoved role i3cAddr entropy => Sys2Proof.Machine.execPowerOnReset suppliesRemoved role i3cAddr entropy s
  | .complexReset => Sys2Proof.Machine.execComplexReset s
  | .resetSequenceEnd firmwareOk bus => Sys2Proof.Machine.execResetSequenceEnd firmwareOk bus s
  | .fuseReadTimeout => Sys2Proof.Machine.execFuseReadTimeout s
  | .quinceHalt => Sys2Proof.Machine.execQuinceHalt s
  | .hostPortReset port => Sys2Proof.Machine.execHostPortReset port s
  | .flr fn => Sys2Proof.Machine.execFlr fn s
  | .dStateChange fn cfg => Sys2Proof.Machine.execDStateChange fn cfg s
  | .linkPartnerNoFlit port => Sys2Proof.Machine.execLinkPartnerNoFlit port s
  | .malformedTlp port => Sys2Proof.Machine.execMalformedTlp port s
  | .unexpectedCompletion port => Sys2Proof.Machine.execUnexpectedCompletion port s
  | .receiverError port => Sys2Proof.Machine.execReceiverError port s
  -- the ingest window
  | .windowWrite fn stream off data poisoned bus => Sys2Proof.Machine.execWindowWrite fn stream off data poisoned bus s
  | .copyOnWriteDone cow bus => Sys2Proof.Machine.execCopyOnWriteDone cow bus s
  | .windowWriteCommit ww st => Sys2Proof.Machine.execWindowWriteCommit ww st s
  | .sealedRecord port ap bus => Sys2Proof.Machine.execSealedRecord port ap bus s
  | .sealedFinalClose port ap => Sys2Proof.Machine.execSealedFinalClose port ap s
  | .bar2Read fn => Sys2Proof.Machine.execBar2Read fn s
  | .apertureEnable port ap value bus => Sys2Proof.Machine.execApertureEnable port ap value bus s
  | .apertureDisable port ap value => Sys2Proof.Machine.execApertureDisable port ap value s
  | .close port ap value => Sys2Proof.Machine.execClose port ap value s
  | .measuredCloseDone port ap => Sys2Proof.Machine.execMeasuredCloseDone port ap s
  | .vfCtxmapWrite port vf entry value => Sys2Proof.Machine.execVfCtxmapWrite port vf entry value s
  | .ingestSyncRead fn tag => Sys2Proof.Machine.execIngestSyncRead fn tag s
  | .ingestSyncDone port tag => Sys2Proof.Machine.execIngestSyncDone port tag s
  | .doorbellTail fn stream page value => Sys2Proof.Machine.execDoorbellTail fn stream page value s
  | .doorbellFenceClear port bus => Sys2Proof.Machine.execDoorbellFenceClear port bus s
  | .doorbellCqHead fn stream page value => Sys2Proof.Machine.execDoorbellCqHead fn stream page value s
  | .doorbellSretHead fn stream page value => Sys2Proof.Machine.execDoorbellSretHead fn stream page value s
  -- contexts, queues and commands
  | .contextLoadDone ctx bus => Sys2Proof.Machine.execContextLoadDone ctx bus s
  | .ringReadResponse ctx q bus => Sys2Proof.Machine.execRingReadResponse ctx q bus s
  | .dbBackoffReread ctx q => Sys2Proof.Machine.execDbBackoffReread ctx q s
  | .dbPatienceExpire ctx q => Sys2Proof.Machine.execDbPatienceExpire ctx q s
  | .dispatch bus => Sys2Proof.Machine.execDispatch bus s
  | .nop cmd => Sys2Proof.Machine.execNop cmd s
  | .writePips cmd bus => Sys2Proof.Machine.execWritePips cmd bus s
  | .copy cmd => Sys2Proof.Machine.execCopy cmd s
  | .runChannel cmd bus => Sys2Proof.Machine.execRunChannel cmd bus s
  | .signal cmd bus => Sys2Proof.Machine.execSignal cmd bus s
  | .wait cmd bus => Sys2Proof.Machine.execWait cmd bus s
  | .flush cmd => Sys2Proof.Machine.execFlush cmd s
  | .map cmd bus => Sys2Proof.Machine.execMap cmd bus s
  | .unmap cmd bus => Sys2Proof.Machine.execUnmap cmd bus s
  | .objectFree cmd bus => Sys2Proof.Machine.execObjectFree cmd bus s
  | .bagPool cmd bus => Sys2Proof.Machine.execBagPool cmd bus s
  | .keyAdmit cmd bus => Sys2Proof.Machine.execKeyAdmit cmd bus s
  | .keyEvict cmd bus => Sys2Proof.Machine.execKeyEvict cmd bus s
  | .keyCommandResume cmd bus => Sys2Proof.Machine.execKeyCommandResume cmd bus s
  | .tableOpen cmd bus => Sys2Proof.Machine.execTableOpen cmd bus s
  | .tableAbort cmd bus => Sys2Proof.Machine.execTableAbort cmd bus s
  | .tableFlip cmd bus => Sys2Proof.Machine.execTableFlip cmd bus s
  | .flipTakeEffect cmd bus => Sys2Proof.Machine.execFlipTakeEffect cmd bus s
  | .retirement obj bus => Sys2Proof.Machine.execRetirement obj bus s
  | .remoteWrite cmd bus => Sys2Proof.Machine.execRemoteWrite cmd bus s
  | .remoteSignal cmd => Sys2Proof.Machine.execRemoteSignal cmd s
  | .contextResume cmd => Sys2Proof.Machine.execContextResume cmd s
  | .resumeRetryAll cmd bus => Sys2Proof.Machine.execResumeRetryAll cmd bus s
  | .resumeAbortAll cmd bus => Sys2Proof.Machine.execResumeAbortAll cmd bus s
  | .resumeRetrySlot cmd bus => Sys2Proof.Machine.execResumeRetrySlot cmd bus s
  | .resumeAbortSlot cmd bus => Sys2Proof.Machine.execResumeAbortSlot cmd bus s
  | .contextAbort cmd bus => Sys2Proof.Machine.execContextAbort cmd bus s
  | .commandEnd cmd bus => Sys2Proof.Machine.execCommandEnd cmd bus s
  | .flushReadCompletion port fl st bus => Sys2Proof.Machine.execFlushReadCompletion port fl st bus s
  | .flushReadTimeout port fl bus => Sys2Proof.Machine.execFlushReadTimeout port fl bus s
  | .msiXUnmask fn vector => Sys2Proof.Machine.execMsiXUnmask fn vector s
  | .completionRingFullNote ctx q => Sys2Proof.Machine.execCompletionRingFullNote ctx q s
  | .bounceRingFullNote ctx => Sys2Proof.Machine.execBounceRingFullNote ctx s
  | .waitEvaluate bus => Sys2Proof.Machine.execWaitEvaluate bus s
  | .waitTimeout cmd => Sys2Proof.Machine.execWaitTimeout cmd s
  | .ctxEnable ctx bus => Sys2Proof.Machine.execCtxEnable ctx bus s
  | .ctxDisable ctx => Sys2Proof.Machine.execCtxDisable ctx s
  | .ctxDisableDone ctx bus => Sys2Proof.Machine.execCtxDisableDone ctx bus s
  | .ctxResume ctx => Sys2Proof.Machine.execCtxResume ctx s
  | .ctxAbort ctx bus => Sys2Proof.Machine.execCtxAbort ctx bus s
  | .ctxAbortDone ctx bus => Sys2Proof.Machine.execCtxAbortDone ctx bus s
  | .ctxPin ctx bus => Sys2Proof.Machine.execCtxPin ctx bus s
  | .ctxUnpin ctx => Sys2Proof.Machine.execCtxUnpin ctx s
  | .objCreate index bus => Sys2Proof.Machine.execObjCreate index bus s
  | .objFree index bus => Sys2Proof.Machine.execObjFree index bus s
  | .objectDrainEnd index bus => Sys2Proof.Machine.execObjectDrainEnd index bus s
  -- translation
  | .pageWalk user ctx va acc bus => Sys2Proof.Machine.execPageWalk user ctx va acc bus s
  | .faultPatienceExpire slot bus => Sys2Proof.Machine.execFaultPatienceExpire slot bus s
  | .fltRetry slot bus => Sys2Proof.Machine.execFltRetry slot bus s
  | .fltAbort slot bus => Sys2Proof.Machine.execFltAbort slot bus s
  | .invAll walk => Sys2Proof.Machine.execInvAll walk s
  | .invPartition part walk => Sys2Proof.Machine.execInvPartition part walk s
  | .invContext ctx walk => Sys2Proof.Machine.execInvContext ctx walk s
  | .invRange ctx walk => Sys2Proof.Machine.execInvRange ctx walk s
  | .invalidationDone => Sys2Proof.Machine.execInvalidationDone s
  | .poolAllocProduce part cls prod => Sys2Proof.Machine.execPoolAllocProduce part cls prod s
  | .poolReturnConsume part cls cons bus => Sys2Proof.Machine.execPoolReturnConsume part cls cons bus s
  | .poolReturnWaitNote part cls => Sys2Proof.Machine.execPoolReturnWaitNote part cls s
  | .pageSliceRetire mask => Sys2Proof.Machine.execPageSliceRetire mask s
  | .pageSliceRetireDone => Sys2Proof.Machine.execPageSliceRetireDone s
  | .tsRequest port tag va ctx wr bus => Sys2Proof.Machine.execTsRequest port tag va ctx wr bus s
  | .tsDone port tag => Sys2Proof.Machine.execTsDone port tag s
  | .tsHoldTimeout port tag => Sys2Proof.Machine.execTsHoldTimeout port tag s
  | .sloeWindowEnd set ests => Sys2Proof.Machine.execSloeWindowEnd set ests s
  -- keys
  | .keyLookup cmd entry bus => Sys2Proof.Machine.execKeyLookup cmd entry bus s
  | .admitEventSignal obj bus => Sys2Proof.Machine.execAdmitEventSignal obj bus s
  | .keySliceRetire mask => Sys2Proof.Machine.execKeySliceRetire mask s
  | .keySliceRetireDone => Sys2Proof.Machine.execKeySliceRetireDone s
  | .ktInvAll => Sys2Proof.Machine.execKtInvAll s
  | .ktInvTable obj => Sys2Proof.Machine.execKtInvTable obj s
  | .ktInvDone => Sys2Proof.Machine.execKtInvDone s
  -- pooling
  | .segmentAccept cmd bag seg bus => Sys2Proof.Machine.execSegmentAccept cmd bag seg bus s
  | .rowFetchResponse cmd entry st => Sys2Proof.Machine.execRowFetchResponse cmd entry st s
  | .tileAccept port bus => Sys2Proof.Machine.execTileAccept port bus s
  | .tileStallTimeout at_ => Sys2Proof.Machine.execTileStallTimeout at_ s
  | .quadRetire mask => Sys2Proof.Machine.execQuadRetire mask s
  | .quadRetireDone => Sys2Proof.Machine.execQuadRetireDone s
  -- Gweloty ports
  | .gwelotyResponse port tag st => Sys2Proof.Machine.execGwelotyResponse port tag st s
  | .memoryResponseDeadline port tag => Sys2Proof.Machine.execMemoryResponseDeadline port tag s
  -- mover channels
  | .channelRunStart ch bus => Sys2Proof.Machine.execChannelRunStart ch bus s
  | .move ch bus => Sys2Proof.Machine.execMove ch bus s
  | .loop ch => Sys2Proof.Machine.execLoop ch s
  | .endloop ch => Sys2Proof.Machine.execEndloop ch s
  | .channelNop ch => Sys2Proof.Machine.execChannelNop ch s
  | .channelWait ch bus => Sys2Proof.Machine.execChannelWait ch bus s
  | .channelWaitTimeout ch => Sys2Proof.Machine.execChannelWaitTimeout ch s
  | .channelSignal ch => Sys2Proof.Machine.execChannelSignal ch s
  | .channelSignalSet ch bus => Sys2Proof.Machine.execChannelSignalSet ch bus s
  | .fence ch => Sys2Proof.Machine.execFence ch s
  | .stop ch bus => Sys2Proof.Machine.execStop ch bus s
  -- remote operations
  | .remoteWriteRequest msg bus => Sys2Proof.Machine.execRemoteWriteRequest msg bus s
  | .remoteReadRequest msg bus => Sys2Proof.Machine.execRemoteReadRequest msg bus s
  | .remoteAtomicRequest msg bus => Sys2Proof.Machine.execRemoteAtomicRequest msg bus s
  | .remoteSignalRequest msg bus => Sys2Proof.Machine.execRemoteSignalRequest msg bus s
  | .remotePoolRequest msg bus => Sys2Proof.Machine.execRemotePoolRequest msg bus s
  | .readData msg bus => Sys2Proof.Machine.execReadData msg bus s
  | .atomicResult msg bus => Sys2Proof.Machine.execAtomicResult msg bus s
  | .poolPartial msg => Sys2Proof.Machine.execPoolPartial msg s
  | .ack msg bus => Sys2Proof.Machine.execAck msg bus s
  | .nack msg bus => Sys2Proof.Machine.execNack msg bus s
  | .remotePatienceExpire node req bus => Sys2Proof.Machine.execRemotePatienceExpire node req bus s
  -- Bramble links
  | .dataFlit port flit => Sys2Proof.Machine.execDataFlit port flit s
  | .ts port content => Sys2Proof.Machine.execTs port content s
  | .nak port seq => Sys2Proof.Machine.execNak port seq s
  | .credit port c0 c1 c2 c3 => Sys2Proof.Machine.execCredit port c0 c1 c2 c3 s
  | .l1Req port => Sys2Proof.Machine.execL1Req port s
  | .l1Ack port => Sys2Proof.Machine.execL1Ack port s
  | .safe port bus => Sys2Proof.Machine.execSafe port bus s
  | .ackTimer port => Sys2Proof.Machine.execAckTimer port s
  | .replayTimer port => Sys2Proof.Machine.execReplayTimer port s
  | .laneLockLoss port => Sys2Proof.Machine.execLaneLockLoss port s
  | .trainingTimeout port bus => Sys2Proof.Machine.execTrainingTimeout port bus s
  | .trainingRetry port => Sys2Proof.Machine.execTrainingRetry port s
  | .linkTrained port lanes eq128 => Sys2Proof.Machine.execLinkTrained port lanes eq128 s
  | .portEnable port => Sys2Proof.Machine.execPortEnable port s
  | .portDisable port bus => Sys2Proof.Machine.execPortDisable port bus s
  | .retrain port => Sys2Proof.Machine.execRetrain port s
  | .portRetire port => Sys2Proof.Machine.execPortRetire port s
  | .portRestore port => Sys2Proof.Machine.execPortRestore port s
  | .rediscover => Sys2Proof.Machine.execRediscover s
  | .discoveryStart => Sys2Proof.Machine.execDiscoveryStart s
  | .rootElection topo => Sys2Proof.Machine.execRootElection topo s
  | .mgrAnnounce port digest => Sys2Proof.Machine.execMgrAnnounce port digest s
  | .assign port node => Sys2Proof.Machine.execAssign port node s
  | .route board body bus => Sys2Proof.Machine.execRoute board body bus s
  | .topoChange topo => Sys2Proof.Machine.execTopoChange topo s
  | .keyInstall hop blob tagOk => Sys2Proof.Machine.execKeyInstall hop blob tagOk s
  | .keyNotice src kind keys => Sys2Proof.Machine.execKeyNotice src kind keys s
  | .shardDir src slot hdr entries map bus => Sys2Proof.Machine.execShardDir src slot hdr entries map bus s
  | .publish slot bus => Sys2Proof.Machine.execPublish slot bus s
  | .withdraw slot => Sys2Proof.Machine.execWithdraw slot s
  | .jobkeyInstall key bus => Sys2Proof.Machine.execJobkeyInstall key bus s
  -- the coherence home
  | .rdShared core req bus => Sys2Proof.Machine.execRdShared core req bus s
  | .rdUnique core req bus => Sys2Proof.Machine.execRdUnique core req bus s
  | .upgrade core req bus => Sys2Proof.Machine.execUpgrade core req bus s
  | .wb core req keep data bus => Sys2Proof.Machine.execWb core req keep data bus s
  | .rdNc core req size bus => Sys2Proof.Machine.execRdNc core req size bus s
  | .wrNc core req size data bus => Sys2Proof.Machine.execWrNc core req size data bus s
  | .atomic core req size aop data bus => Sys2Proof.Machine.execAtomic core req size aop data bus s
  | .barrier core req kind => Sys2Proof.Machine.execBarrier core req kind s
  | .miss core sid bus => Sys2Proof.Machine.execMiss core sid bus s
  | .shared core sid bus => Sys2Proof.Machine.execShared core sid bus s
  | .accept core sid bus => Sys2Proof.Machine.execAccept core sid bus s
  | .decline core sid bus => Sys2Proof.Machine.execDecline core sid bus s
  | .snoopData core sid toO data bus => Sys2Proof.Machine.execSnoopData core sid toO data bus s
  | .snoopDeadline agent slice bus => Sys2Proof.Machine.execSnoopDeadline agent slice bus s
  | .down bus => Sys2Proof.Machine.execDown bus s
  | .restore => Sys2Proof.Machine.execRestore s
  | .restoreCreditsReceived => Sys2Proof.Machine.execRestoreCreditsReceived s
  | .restoreCreditTimeout => Sys2Proof.Machine.execRestoreCreditTimeout s
  -- partitions
  | .lock part => Sys2Proof.Machine.execLock part s
  | .unlock part => Sys2Proof.Machine.execUnlock part s
  | .teardown part bus => Sys2Proof.Machine.execTeardown part bus s
  | .teardownDrainDone part => Sys2Proof.Machine.execTeardownDrainDone part s
  | .teardownQuiescenceTimeout part => Sys2Proof.Machine.execTeardownQuiescenceTimeout part s
  | .scrubComplete part bus => Sys2Proof.Machine.execScrubComplete part bus s
  | .partitionTableWrite off value => Sys2Proof.Machine.execPartitionTableWrite off value s
  -- the Wambe port and Quince
  | .getStatus => Sys2Proof.Machine.execGetStatus s
  | .getIdentity => Sys2Proof.Machine.execGetIdentity s
  | .sessionOpen key share sigOk => Sys2Proof.Machine.execSessionOpen key share sigOk s
  | .sessionClose auth => Sys2Proof.Machine.execSessionClose auth s
  | .setPower auth target force macOk bus => Sys2Proof.Machine.execSetPower auth target force macOk bus s
  | .reset auth kind port => Sys2Proof.Machine.execReset auth kind port s
  | .lifecycle auth target => Sys2Proof.Machine.execLifecycle auth target s
  | .fuseProgram auth word bits => Sys2Proof.Machine.execFuseProgram auth word bits s
  | .debugSet auth level => Sys2Proof.Machine.execDebugSet auth level s
  | .mgmtLock auth set clear => Sys2Proof.Machine.execMgmtLock auth set clear s
  | .debugRead auth addr len bus => Sys2Proof.Machine.execDebugRead auth addr len bus s
  | .debugWrite auth addr data bus => Sys2Proof.Machine.execDebugWrite auth addr data bus s
  | .traceSet auth base log2 sources => Sys2Proof.Machine.execTraceSet auth base log2 sources s
  | .spdmRequest fn body => Sys2Proof.Machine.execSpdmRequest fn body s
  | .ctxSecret fn secured part ctx slot secret => Sys2Proof.Machine.execCtxSecret fn secured part ctx slot secret s
  | .getReport fn part nonce start => Sys2Proof.Machine.execGetReport fn part nonce start s
  | .getMeasurements fn => Sys2Proof.Machine.execGetMeasurements fn s
  | .ideKm port stream secured part key => Sys2Proof.Machine.execIdeKm port stream secured part key s
  | .tdiStateChange fn st bus => Sys2Proof.Machine.execTdiStateChange fn st bus s
  -- the fault collector
  | .faultEvent ev => Sys2Proof.Machine.execFaultEvent ev s
  | .errNPulseEnd => Sys2Proof.Machine.execErrNPulseEnd s
  | .collectorSelfError => Sys2Proof.Machine.execCollectorSelfError s
  | .recordFree mask => Sys2Proof.Machine.execRecordFree mask s
  | .sourceClr value => Sys2Proof.Machine.execSourceClr value s
  | .faultInject value => Sys2Proof.Machine.execFaultInject value s
  -- power, registers and the rest
  | .powerP0 => Sys2Proof.Machine.execPowerP0 s
  | .powerP1 => Sys2Proof.Machine.execPowerP1 s
  | .powerP2 => Sys2Proof.Machine.execPowerP2 s
  | .powerP3 => Sys2Proof.Machine.execPowerP3 s
  | .powerP3Force bus => Sys2Proof.Machine.execPowerP3Force bus s
  | .p3Entry bus => Sys2Proof.Machine.execP3Entry bus s
  | .p3EntryTimeout => Sys2Proof.Machine.execP3EntryTimeout s
  | .registerWrite at_ off size value bus => Sys2Proof.Machine.execRegisterWrite at_ off size value bus s
  | .hostLinkUp port width rate => Sys2Proof.Machine.execHostLinkUp port width rate s
  | .idleFlit port hop => Sys2Proof.Machine.execIdleFlit port hop s
  | .coreCreditReturn core hsnp n => Sys2Proof.Machine.execCoreCreditReturn core hsnp n s
  | .shardDirAcknowledged node => Sys2Proof.Machine.execShardDirAcknowledged node s
  | .keyInstallAnswered node accepted => Sys2Proof.Machine.execKeyInstallAnswered node accepted s

end Sys2Proof.Machine
end

