-- ==== Sys2Proof/Machine/Step.lean ====
section
/-! DEFINITION. One step of the complex: the command at the front of the queue, or a tick where none waits. -/

namespace Sys2Proof.Machine

/-- The state with the front command taken: the queue keeps `rest`, and the free-value counter moves on, so that the
command meets free values of its own (log entry 6). -/
def State.take (s : State) (rest : List Instr) : State :=
  { s with pending := rest, free := s.free + 1 }

/-- One step: the front command with the queue's rest; on an empty queue one tick of the time base passes (R7; log
entry 53). -/
def step (s : State) : Host.Outcome State Fault Refusal :=
  match s.pending with
  | [] => .next { s with tick := s.tick + 1 }
  | c :: rest => exec c (s.take rest)

/-- The state with the command that a word spells at the front of its queue. -/
def State.withFetchWord (s : State) (nbits w : Nat) : State :=
  match decodeTableWord nbits w with
  | some c => { s with pending := c :: s.pending }
  | none => s

end Sys2Proof.Machine
end

