-- ==== Sys2Proof/Safety.lean ====
section
/-! DEFINITION. What a safe run is: one that the surroundings never break a guarantee in, so that no step stops; and the
hypotheses that several statements share. -/

namespace Sys2Proof.Machine

/-- The first `n` steps from a state all complete. -/
def runsSafely (n : Nat) (s : State) : Prop := ∃ t, Sys2Proof.core.run n s = .next t

/-- A command completes: its step neither faults nor is refused. -/
def completes (c : Instr) (s : State) : Prop := ∃ t, exec c s = .next t

/-- A request of a near-core port reuses a transaction ID that is still outstanding (R369). -/
def reusesTxn (s : State) (core : Nat) (req : CReq) : Bool :=
  (coreEarly s core || (coreHears s core && decide (s.ch.st = .up))) && txnOpen s core req.txn

/-- An answer of a near core meets no outstanding snoop, or one that R371 does not let it give. -/
def answersWrongly (s : State) (core : Nat) (sid : BitVec 10) (a : SnoopAns) : Bool :=
  coreHears s core && decide (s.ch.st = .up) &&
    match Tab.find? s.ch.snps (snoopKey core sid.toNat) with
    | none => true
    | some sn => (corePort s core).hsnpQ.any (fun q => q.1 = sid.toNat) || !answerFits s sn a

/-- The surroundings break a guarantee by sending this command in this state: a Gweloty response to a tag that is
neither outstanding nor quarantined (R38), a service tag that is reused or given back unheld (R48), a near core's
transaction ID reused (R369) or a snoop answered as it may not be (R371). -/
def breaksGuarantee (c : Instr) (s : State) : Bool :=
  match c with
  | .gwelotyResponse port tag _ => (Tab.find? (gwPort s port).out tag).isNone && (Tab.find? (gwPort s port).quar tag).isNone
  | .tsRequest port tag _ _ _ _ =>
    decide (port < s.build.tsPorts ∧ tag < 64) && runsWork s && (Tab.find? s.tu.tags (tsKey port tag)).isSome
  | .tsDone port tag =>
    decide (port < s.build.tsPorts ∧ tag < 64) && s.tp.ready &&
      match (Tab.find? s.tu.tags (tsKey port tag)).map TsTag.st with
      | some (.given _ _) => false
      | _ => true
  | .rdShared core req _ => reusesTxn s core req
  | .rdUnique core req _ => reusesTxn s core req
  | .upgrade core req _ => reusesTxn s core req
  | .wb core req _ _ _ => reusesTxn s core req
  | .rdNc core req _ _ => reusesTxn s core req
  | .wrNc core req _ _ _ => reusesTxn s core req
  | .atomic core req _ _ _ _ => reusesTxn s core req
  | .barrier core req _ => reusesTxn s core req
  | .miss core sid _ => answersWrongly s core sid .miss
  | .shared core sid _ => answersWrongly s core sid .shared
  | .accept core sid _ => answersWrongly s core sid .accept
  | .decline core sid _ => answersWrongly s core sid .decline
  | .snoopData core sid toO _ _ => answersWrongly s core sid (.data toO)
  | _ => false

/-! ### What the statements assume of a state -/

/-- What P3 leaves of the complex: every unit that lost its supply at its reset value, and of the saved host ports no
link up and no IDE stream. -/
structure P3Holds (t : State) (x : Saved) : Prop where
  pwr   : t.tp.pwr = .p3
  busy  : t.tp.pwrBusy = false
  res   : t.tp.pwrResult = 0x00
  qe    : t.qe = {}
  tu    : t.tu = {}
  kt    : t.kt = {}
  pa    : t.pa = {}
  mv    : t.mv = {}
  bl    : t.bl = {}
  ch    : t.ch = {}
  hosts : t.hosts = []
  wws   : t.wws = []
  cows  : t.cows = []
  links : ∀ h ∈ x.ports, h.2.linkUp = false ∧ h.2.ideLink = false ∧ h.2.streams = []

/-- A near-core port may send a request for a physical address: the home hears it, the domain is UP, its transaction ID
is free, the request names no reserved bit and no register window, and its partition is at work and covers the address
(R369, R370, R412, R434). -/
structure CoreMayAsk (s : State) (core : Nat) (req : CReq) (p : BitVec 3) : Prop where
  hears  : coreHears s core = true
  up     : s.ch.st = .up
  free   : txnOpen s core req.txn = false
  rsv    : req.rsv = false
  pa     : req.va = false
  window : inWindow req.addr.toNat = false
  owner  : corePart s core = some p
  open_  : partClosing s p = false
  covers : partCoversAt s p (some s.nextId) req.addr.toNat = true

/-- The home is idle, a response credit is at hand, and device memory answers a line of the partition. -/
structure LineAtRest (s : State) (core : Nat) (p : BitVec 3) (line : Nat) : Prop where
  queue  : s.ch.queue = []
  trans  : Tab.find? s.ch.trans line = none
  credit : 0 < (corePort s core).hrsp
  issue  : mayIssue s { homeVia s (some p) none line with sys := true } line = true
  clean  : Tab.find? s.mem.poison line = none

/-- A window write of a function reaches an open aperture: the complex runs, the function's partition is at work and owns
the aperture's context, and the aperture is enabled and neither closed, closing nor failed (R71, R75, R80, R103). -/
structure WindowReaches (s : State) (fn : Fn) (stream : Option Nat) (off n : Nat) (p : BitVec 3) : Prop where
  fn_   : fnExists s fn = true
  works : runsWork s = true
  drain : draining s = false
  part  : fnPart s fn = some p
  open_ : partClosing s p = false
  ide   : ideOk s fn stream = true
  slot  : apOfSlot s fn off = some n
  en    : (aperture s fn.port n).en = true
  owner : ctxPart s (aperture s fn.port n).ctx = some p
  st    : (aperture s fn.port n).st = .opened
  close : (aperture s fn.port n).closing = false
  final : (aperture s fn.port n).final = false

/-- A host doorbell reaches a queue: the complex runs, the function's partition is at work and owns the context that the
page names, and the queue takes doorbells (R71, R73, R74, R103, R114). -/
structure DoorbellReaches (s : State) (fn : Fn) (stream : Option Nat) (page : Nat) (c : BitVec 12) (q : Nat) (p : BitVec 3) :
    Prop where
  fn_    : fnExists s fn = true
  works  : runsWork s = true
  part   : fnPart s fn = some p
  open_  : partClosing s p = false
  ide    : ideOk s fn stream = true
  target : dbTarget s fn page = some (c, q)
  owner  : ctxPart s c = some p
  takes  : dbAccepted s c q = true

/-- A command stands dispatched with an opcode while the complex runs (R27). -/
structure Dispatched (s : State) (id op : Nat) (c : Cmd) : Prop where
  cmd    : cmdOf s id = some c
  works  : runsWork s = true
  phase  : c.phase = .dispatched
  opcode : c.raw.opcode = op

/-- What one answer does to an entry whose row is being fetched (R253, R254): one request fewer is left, and its bytes are kept;
after one that fails, the requests not issued yet are dropped, and the first record of a failure is kept (R42). -/
def rowAnswered (ok : Bool) (src : BitVec 16) (got : List Byte) (lo : Nat) (x : BagEnt) : BagEnt :=
  match x.st with
  | .fetching left bad =>
    if ok then { x with st := .fetching (left - 1) bad, got := x.got ++ [(lo, got)] }
    else { x with st := .fetching (left - 1 - x.todo.length) (some (bad.getD src)), todo := [] }
  | _ => x

/-- A channel is RUNNING a program at an instruction with this opcode while the complex runs (R329, R334). -/
structure ChannelAt (s : State) (ch op : Nat) (r : Run) : Prop where
  works : runsWork s = true
  st    : (chan s ch).st = .running
  run   : (chan s ch).run = some r
  pc    : r.pc < r.prog.length
  op    : mvOp (r.prog.getD r.pc 0) = op

/-- A request of a kind stands in the inbox, nothing of its source comes before it, and the complex runs (R302, R311). -/
structure RequestAt (s : State) (m op : Nat) (msg : Msg) : Prop where
  works : runsWork s = true
  inbox : Tab.find? s.bl.inbox m = some msg
  op    : msg.op.toNat = op
  first : reqBehind s m msg = false

/-- A response of a kind stands in the inbox, and the complex runs (R304). -/
structure ResponseAt (s : State) (m op : Nat) (msg : Msg) : Prop where
  works : runsWork s = true
  inbox : Tab.find? s.bl.inbox m = some msg
  op    : msg.op.toNat = op

/-- A response answers an outstanding request (R303). -/
structure Answers (s : State) (msg : Msg) (k : Nat) (r : RReq) : Prop where
  key : k = msg.src.toNat * 4096 + leAt msg.payload 0 2 % 4096
  req : Tab.find? s.bl.reqs k = some r

/-- The state once a response has been taken out of the inbox and its request is no longer outstanding. -/
def answered (s : State) (m k : Nat) : State := dropReq (dropMsg s m) k

/-! ### Flits that have been given to a port (R279) -/

/-- A flit with these bytes waits at a port, or stands in its replay buffer. -/
def flitOn (s : State) (p : Nat) (f : List Byte) : Prop :=
  ∃ x ∈ (blPort s p).txq ++ (blPort s p).replay, x.flit = f

/-- Every flit of a management message has been given to a port. -/
def mgmtOn (s : State) (p op dst : Nat) (body : List Byte) : Prop :=
  ∀ x ∈ msgCuts (mgmtBody body), flitOn s p (makeFlit s 2 op dst 0 x.1 0 x.2)

/-- A management message for a node that left in `s` stands in `t`: it has been given to the port towards the node, or has come
back to this node. -/
def mgmtGiven (s t : State) (op dst : Nat) (body : List Byte) : Prop :=
  (dst = s.bl.nodeId.toNat → s.bl.assigned = true → Out.mgmtSelf op body ∈ t.out) ∧
  (∀ p, ¬ (dst = s.bl.nodeId.toNat ∧ s.bl.assigned = true) → mgmtPort s dst = some p → mgmtOn t p op dst body)

end Sys2Proof.Machine
end

