-- ==== Sys2Proof/Certificates/Slice0/Obligations.lean ====
section
/-! DEFINITION. The statements, in the words of the spec's rules. -/

open Sys2Proof Sys2Proof.Machine

/-- A step with a command at the front of the queue is exec of that command on the state with the rest of the queue
and the model's free-value counter stepped; the queue is the model's own (log entry 53). -/
def Obligations.StepRunsFront : Prop :=
  ∀ (c : Instr) (rest : List Instr) (s : State),
    step { s with pending := c :: rest } = exec c (s.take rest)

/-- With no command waiting, a step lets one tick of the time base pass and changes nothing else (the model's
choice, log entry 53). -/
def Obligations.IdleStepTicks : Prop :=
  ∀ s : State, s.pending = [] → step s = .next { s with tick := s.tick + 1 }

/-- Every command answers a next state, in every state, unless it is one that the integrator guarantees not to send
(a response to a tag that is neither outstanding nor quarantined, a translation tag in use, a transaction ID in
use, an answer that no snoop waits for); those stop with guaranteeBroken. -/
def Obligations.CompletesUnlessGuaranteeBroken : Prop :=
  ∀ (c : Instr) (s : State),
    (breaksGuarantee c s = false → completes c s) ∧
    (breaksGuarantee c s = true → exec c s = .fault .guaranteeBroken)

/-- The memory of the reset state lists addresses in rising order and no byte that an unlisted address reads as
(the form is the model's, log entry 4). -/
def Obligations.ResetMemoryCanonical : Prop :=
  State.reset.mem.wf = true

/-- From every state whose memory is in canonical form, a step that answers a next state leaves memory in canonical
form (the form is the model's, log entry 4). -/
def Obligations.MemoryStaysCanonical : Prop :=
  ∀ s t : State, s.mem.wf = true → step s = .next t → t.mem.wf = true

/-- A power-on reset samples the straps (R62), starts time at 0 and steps the boot epoch, or draws it when the
supplies were removed (R482). No other command changes the straps or the epoch, and none takes the time base
back. -/
def Obligations.OnlyPowerOnResetSetsStrapsAndTime : Prop :=
  (∀ (removed role : Bool) (addr : BitVec 7) (entropy : BitVec 32) (s : State), s.fc.cls ≠ .terminal ∨ removed = true →
    ∃ t, exec (.powerOnReset removed role addr entropy) s = .next t ∧ t.role = role ∧ t.i3cAddr = addr ∧ t.tick = 0 ∧
      (removed = false → t.epoch = if s.epoch = 0xFFFFFFFF then 1 else s.epoch + 1) ∧
      (removed = true → entropy ≠ 0 → t.epoch = entropy) ∧ t.epoch ≠ 0) ∧
  ∀ (c : Instr) (s t : State), exec c s = .next t →
    (∃ removed role addr entropy, c = .powerOnReset removed role addr entropy) ∨
    t.role = s.role ∧ t.i3cAddr = s.i3cAddr ∧ s.tick ≤ t.tick ∧ t.epoch = s.epoch

/-- Whatever a command does, the commands that wait behind it and the build of the chip are as before (the queue is
the model's own, log entry 53; the build, log entry 1). -/
def Obligations.CommandsKeepQueueAndBuild : Prop :=
  ∀ (c : Instr) (s t : State), exec c s = .next t → t.pending = s.pending ∧ t.build = s.build

/-- The fuses are as before after every command but the messages FUSE_PROGRAM and LIFECYCLE (R59). -/
def Obligations.FusesChangeOnlyByProgramming : Prop :=
  ∀ (c : Instr) (s t : State), exec c s = .next t →
    (∃ auth word bits, c = .fuseProgram auth word bits) ∨ (∃ auth target, c = .lifecycle auth target) ∨
    t.ps.fuses = s.ps.fuses

/-- The events of R106 that a host port meets by itself reach the collector, at their kind of the port's source,
and AER. A host link comes up in Flit Mode, at a width and rate that its build has (R67), and is in L1 only
where the complex is in P2 and function 0 of the port enables ASPM L1 (R109); with a partner that has no Flit
Mode it stays down, NO_FLIT is set and the port reports a NOTE (R68). -/
def Obligations.HostLinksAndErrors : Prop :=
  (∀ (p : Nat) (s : State), p < s.build.hostPorts.length → s.tp.pwr ≠ .p3 →
     exec (.malformedTlp p) s = .next (emit (note s { source := srcId 1 p 6 }) (.aer p .uncorrectable)) ∧
     exec (.unexpectedCompletion p) s = .next (emit (note s { source := srcId 1 p 4 }) (.aer p .unexpected)) ∧
     exec (.receiverError p) s = .next (emit (note s { source := srcId 1 p 5 }) (.aer p .correctable))) ∧
  ((∀ (p width : Nat) (rate : BitVec 3) (b : HostBuild) (s : State), s.build.hostPorts[p]? = some b →
     width ∈ [1, 2, 4, 8, 16] → width ≤ b.width → rate.toNat ≤ b.rate.toNat → s.tp.pwr ≠ .p3 → p ∉ s.tp.held →
     exec (.hostLinkUp p width rate) s = .next (settleL1 (updHost s p fun h =>
       { h with linkUp := true, flit := true, noFlit := false, width := BitVec.ofNat 6 width, rate := rate }) p)) ∧
   (∀ (p : Nat) (s : State), p < s.build.hostPorts.length → (hostPort s p).linkUp = false →
     (hostPort s p).noFlit = false → s.tp.pwr ≠ .p3 →
     exec (.linkPartnerNoFlit p) s =
       .next (note (updHost s p fun h => { h with noFlit := true }) { source := srcId 1 p 7 })))

/-- A function reset resets a VF alone, and from a PF every function of its port, lets ingest go on, and is
answered as complete once no window write that it has to wait for is left (R107); what the reset of one
function leaves: its MSI-X state and its configuration cleared, but for Max Payload Size (log entry 7), and
none of its window writes that ingest has not issued. The reset of a host port takes its link, its IDE streams,
its held reads and the state of its functions, ends the Wambe session, and holds the port where a complex reset
is under way (R418, R463, R464). The configuration of a function changes as the host writes it, but for the
BARs of a TDI that is CONFIG_LOCKED or in RUN (R102, R104, R108), a host link in P2 follows ASPM L1 of function
0 (R109), and what waited for a function that issues goes out; a function that is in D3hot, or has Bus Master
Enable clear, sends no message. A TDI takes each move that TDISP has, and one that enters ERROR loses its
apertures and its contexts (R104). -/
def Obligations.FunctionsChangeAndReset : Prop :=
  ((∀ (fn : Fn) (s : State), fnExists s fn = true → s.tp.ready = true → s.tp.pwr ≠ .p3 →
     exec (.flr fn) s = .next (flrSettle (updFn (wwPump (each resetFn s (if fn.vf = 0 then
         (List.range (((s.build.hostPorts[fn.port]?).map (·.vfs)).getD 0 + 1)).map fun v => ⟨fn.port, v⟩
       else [fn])) []) fn fun f => { f with flr := some s.nextId }) fn.port)) ∧
   (∀ (fn : Fn) (f : FnState) (n : Nat) (s : State), (hostPort s fn.port).fns = [(fn.vf, f)] → f.flr = some n →
     ((∃ w ∈ s.wws, w.1 < n ∧ w.2.port = fn.port ∧ (fn.vf = 0 ∨ w.2.vf = fn.vf)) → flrSettle s fn.port = s) ∧
     ((∀ w ∈ s.wws, w.1 < n → w.2.port = fn.port → fn.vf ≠ 0 ∧ w.2.vf ≠ fn.vf) →
       flrSettle s fn.port = emit (updFn s fn fun f => { f with flr := none }) (.flrDone fn))) ∧
   (∀ (fn : Fn) (s : State),
     fnState (resetFn s fn) fn = { (fnState (resetFn s fn) fn) with
       msix := [], busMaster := false, d3hot := false, pasidEn := false, aspmL1 := false, msixEn := false, fnMask := false
       cto := 50000, bar0 := 0, bar2 := 0, bar4 := 0 } ∧
     ∀ w ∈ (resetFn s fn).wws, w.2.port = fn.port → w.2.vf = fn.vf → w.2.unissued = false) ∧
   (∀ (p : Nat) (s : State), p < s.build.hostPorts.length → s.fc.cls ≠ .terminal →
     ∃ t, exec (.hostPortReset p) s = .next t ∧ (hostPort t p).linkUp = false ∧ (hostPort t p).flit = false ∧
       (hostPort t p).noFlit = false ∧ (hostPort t p).streams = [] ∧ (hostPort t p).syncs = [] ∧ (hostPort t p).fns = [] ∧
       (s.tp.ready = false → t.ps.session = none ∧ (s.tp.resetting.isSome = true → p ∈ t.tp.held)))) ∧
  ((∀ (fn : Fn) (cfg : FnCfg) (s : State), fnExists s fn = true →
     let frozen := tdiFrozen s fn.port fn.vf
     let t := settleL1 (updFn s fn fun f => { f with
       d3hot := cfg.d3hot, busMaster := cfg.busMaster, enabled := cfg.enabled, pasidEn := cfg.pasidEn
       aspmL1 := cfg.aspmL1, msixEn := cfg.msixEn, fnMask := cfg.fnMask, mps := cfg.mps, cto := cfg.cto
       bar0 := if frozen then f.bar0 else cfg.bar0, bar2 := if frozen then f.bar2 else cfg.bar2
       bar4 := if frozen then f.bar4 else cfg.bar4 }) fn.port
     exec (.dStateChange fn cfg) s = .next (if fnIssues t fn = true ∧ s.fc.cls = .run then fnResume t fn else t) ∧
     (cfg.d3hot = true ∨ cfg.busMaster = false → fnIssues t fn = false ∧ ∀ v, (msix t fn v).out = t.out)) ∧
   (∀ (fn : Fn) (st : TdiState) (bus : Bus) (s : State), fn.vf ≠ 0 → fnExists s fn = true → s.tp.ready = true →
     s.tp.pwr ≠ .p3 → tdiMoves (fnState s fn).tdi st = true →
     exec (.tdiStateChange fn st bus) s = .next (if st = .error then
         wwPump (abortFnCtxs (abandonAps (updFn s fn fun f => { f with tdi := st }) fn) bus fn) bus
       else updFn s fn fun f => { f with tdi := st })))

/-- What a write of device memory leaves: where every request is issued and answered OK, and no byte written lies
in an indeterminate granule, each byte reads back as written, and every other byte reads as before (R37). -/
def Obligations.AcknowledgedWritesReadBack : Prop :=
  ∀ (v : Via) (s : State) (a : Nat) (bs : List Byte) (f : Nat),
    (∀ l ∈ linesOf a bs.length, mayIssue s v l = true) →
    (∀ i < bs.length, Tab.find? s.mem.indet ((a + i) / 8) = none) →
    ∃ t, memWrite v [] s a bs false = (t, .ok) ∧
      (∀ i < bs.length, t.mem.byte f (a + i) = bs.getD i 0) ∧
      (∀ c, c < a ∨ a + bs.length ≤ c → t.mem.byte f c = s.mem.byte f c)

/-- A write that fails at the deadline leaves each naturally aligned 8 B showing the value from before the write or
the value that the write carried (R503), or, where earlier failed writes left more values than one, one of
those or what the write makes of it; the cells and the poison stay as they were. -/
def Obligations.FailedWritesShowOldOrNew : Prop :=
  ∀ (m : Memory) (a : Nat) (bs : List Byte) (g f : Nat),
    (Tab.find? m.indet g = none →
      (m.fail a bs).seen f g = m.granule g ∨ (m.fail a bs).seen f g = (m.put a bs).granule g) ∧
    (m.fail a bs).seen f g ∈ (m.granule g :: Tab.get [] m.indet g) ++
      (m.put a bs).granule g :: Tab.get [] (m.put a bs).indet g ∧
    (m.fail a bs).cells = m.cells ∧ (m.fail a bs).poison = m.poison

/-- A response to a quarantined tag is discarded and counted, and frees the tag (R42). A response to an outstanding
tag goes to its owner and frees the tag: the bytes of a window write are in memory where it is OK, and are left
indeterminate and reported where it is not (R41, R503); the row of a bag takes its bytes. A response deadline
that passes is answered once time has reached it: the tag is quarantined, and a fault of the port's DEADLINE
source is reported, a second one with the eighth quarantined tag (R42). -/
def Obligations.GwelotyResponsesReachTheirOwner : Prop :=
  (∀ (port tag : Nat) (st : BusStatus) (r : GwReq) (s : State), Tab.find? (gwPort s port).out tag = none →
    Tab.find? (gwPort s port).quar tag = some r →
    exec (.gwelotyResponse port tag st) s =
      .next (updGw s port fun g => { g with quar := Tab.erase g.quar tag, late := g.late + 1 })) ∧
  (∀ (port tag : Nat) (st : BusStatus) (r : GwReq) (s : State), Tab.find? (gwPort s port).out tag = some r →
    st ≠ .deadline →
    let u := updGw s port fun g => { g with out := Tab.erase g.out tag }
    (∀ id, r.owner = .window id →
      (st = .ok → exec (.gwelotyResponse port tag st) s = .next (wakeHome [] (wwAnswer { u with
        mem := (linesOf r.lo r.data.length).foldl (fun m l =>
          let sl := lineSlice r.lo r.data l
          m.writeLine sl.1 sl.2 (r.poison || r.clean.any fun n => decide (r.addr + n ≤ 64 * l))) s.mem } [] id .ok))) ∧
      (st ≠ .ok → exec (.gwelotyResponse port tag st) s = .next (wakeHome [] (wwAnswer
        (report { u with mem := s.mem.fail r.lo r.data }
          (reqEvent ⟨port, srcId 2 (port - gwBase s.build 5) 0, r.part, false, none, none, none⟩ r.addr 1)
          (Config.masterId 13 port)) [] id st)))) ∧
    (∀ id e, r.owner = .row id e → exec (.gwelotyResponse port tag st) s =
      .next (wakeHome [] (sendPools (rowAnswer s [] port tag r id e st) [] id))) ∧
    (∀ p again, r.owner = .scrub p again → exec (.gwelotyResponse port tag st) s = .next (wakeHome [] u))) ∧
  (∀ (port tag id : Nat) (r : GwReq) (s : State), Tab.find? (gwPort s port).out tag = some r → r.owner = .window id →
    let w := quarantineTag (reach s (r.tick + 32000)) port tag r
      (reqEvent ⟨port, srcId 2 (port - gwBase s.build 5) 0, r.part, false, none, none, none⟩ r.addr 1)
    exec (.memoryResponseDeadline port tag) s =
      .next (wakeHome [] (wwAnswer { w with mem := w.mem.fail r.lo r.data } [] id .deadline)) ∧
    r.tick + 32000 ≤ (reach s (r.tick + 32000)).tick) ∧
  (∀ (port tag id e : Nat) (r : GwReq) (s : State), Tab.find? (gwPort s port).out tag = some r → r.owner = .row id e →
    exec (.memoryResponseDeadline port tag) s = .next (wakeHome []
      (sendPools (rowAnswer (reach s (r.tick + 32000)) [] port tag r id e .deadline) [] id))) ∧
  (∀ (port tag : Nat) (r : GwReq) (ev : Event) (s : State),
    let v := report (updGw s port fun g => { g with out := Tab.erase g.out tag, quar := Tab.insert g.quar tag r })
      { ev with source := srcId 13 port 0 } (Config.masterId 13 port)
    quarantineTag s port tag r ev = if (gwPort v port).quar.length = 8
      then report v { ev with source := srcId 13 port 0, quarantine := true } (Config.masterId 13 port) else v)

/-- An event merges into the valid record of its source, which keeps its first values (R447); without one it takes
the lowest free record and writes every field (R448); with none free it only counts in FC_OVERFLOW below FATAL
(R449). The collector's own error makes it TERMINAL with ENTRY_SRC 0x8800 and starts the pulse (R453); the
records are then frozen: no event merges into them or writes a new one, and FC_OVERFLOW stops (R454). -/
def Obligations.EventsTakeRecords : Prop :=
  (∀ (ev : Event) (base scope : Nat) (s : State), srcBase s.build ev.source = some (base, scope) →
     ev.source ≠ selfSource → s.fc.self = false →
     ∃ t, exec (.faultEvent ev) s = .next t ∧ t.fc.self = false ∧
       let cls := (countEvent (srcOf s base ev.source) (if ev.quarantine then 3 else base) s.tick).2
       (∀ n, recOf s ev.source = some n →
         recAt t n = { recAt s n with
           count := if (recAt s n).count.toNat < 0x7FFFFFFF then (recAt s n).count + 1 else (recAt s n).count
           ovf := (recAt s n).ovf || decide (0x7FFFFFFF ≤ (recAt s n).count.toNat + 1)
           last := tickWord s, lastEp := s.epoch
           cls := if (recAt s n).cls.toNat < cls then BitVec.ofNat 3 cls else (recAt s n).cls
           scope := if (recAt s n).cls.toNat < cls then BitVec.ofNat 2 scope else (recAt s n).scope } ∧
         (∀ m, m ≠ n → recAt t m = recAt s m) ∧ t.fc.overflow = s.fc.overflow) ∧
       (∀ n, recOf s ev.source = none → ((List.range 32).find? fun n => !recValid s n) = some n →
         recAt t n = newRec s ev cls scope false (recAt t n).mid ∧ t.fc.valid = s.fc.valid ||| (1#32 <<< n) ∧
         (∀ m, m ≠ n → recAt t m = recAt s m) ∧ t.fc.overflow = s.fc.overflow) ∧
       (recOf s ev.source = none → ((List.range 32).find? fun n => !recValid s n) = none → cls < 3 →
         t.fc.recs = s.fc.recs ∧ t.fc.valid = s.fc.valid ∧ t.fc.overflow = s.fc.overflow + 1)) ∧
  ((∀ s : State, s.fc.self = false →
     ∃ t, exec .collectorSelfError s = .next t ∧ t.fc.self = true ∧ t.fc.cls = .terminal ∧ t.fc.entrySrc = 0x8800 ∧
       t.fc.pulseEnd.isSome = true ∧ t.fc.recs = s.fc.recs ∧ t.fc.valid = s.fc.valid ∧ t.fc.drive = s.fc.drive) ∧
   ∀ (ev : Event) (s : State), s.fc.self = true →
     ∃ t, exec (.faultEvent ev) s = .next t ∧ t.fc.recs = s.fc.recs ∧ t.fc.valid = s.fc.valid ∧
       t.fc.overflow = s.fc.overflow ∧ t.fc.self = true)

/-- Software frees records without clearing a field of one (R452), the pulse of ERR_N ends 1,000,200 ticks after
its start with DRIVE kept (R455), SOURCE_CLR clears PROMO and COUNT of the selected source (R445), and GO of
FC_INJECT reports one event with INJ set where R460 lets it. -/
def Obligations.CollectorRegisterOperations : Prop :=
  (∀ (mask : BitVec 32) (s : State), s.tp.ready = true → s.tp.pwr ≠ .p3 →
    exec (.recordFree mask) s = .next { s with fc := { s.fc with valid := s.fc.valid &&& ~~~mask } }) ∧
  (∀ (e : Nat) (s : State), s.fc.pulseEnd = some e →
    ∃ t, exec .errNPulseEnd s = .next t ∧ e ≤ t.tick ∧ t.fc = { s.fc with pulseEnd := none }) ∧
  (∀ (v : Word) (base scope : Nat) (s : State), barOk s = true → bit v 8 = true →
    srcBase s.build s.fc.srcSel = some (base, scope) →
    ∃ t, exec (.sourceClr v) s = .next t ∧ (srcOf t base s.fc.srcSel).promo = 0 ∧ (srcOf t base s.fc.srcSel).count = 0 ∧
      t.fc.recs = s.fc.recs ∧ t.mem = s.mem ∧ t.qe = s.qe ∧ t.out = s.out) ∧
  (∀ (v : Word) (base scope : Nat) (s : State), barOk s = true → bit v 63 = true → 1 ≤ s.ps.dbg.toNat →
    bits v 18 16 ≤ 3 → BitVec.ofNat 16 (bits v 15 0) ≠ selfSource →
    srcBase s.build (BitVec.ofNat 16 (bits v 15 0)) = some (base, scope) →
    exec (.faultInject v) s = .next (collect { s with fc := { s.fc with
        injClass := BitVec.ofNat 3 (bits v 18 16), injSrc := BitVec.ofNat 16 (bits v 15 0) } }
      { source := BitVec.ofNat 16 (bits v 15 0), access := 3, ctx := none, part := none } (bits v 18 16) scope true 0)) ∧
  (∀ (v : Word) (s : State), barOk s = true → bit v 63 = true →
    s.ps.dbg = 0 ∨ bits v 18 16 = 4 ∨ BitVec.ofNat 16 (bits v 15 0) = selfSource ∨
      srcBase s.build (BitVec.ofNat 16 (bits v 15 0)) = none →
    exec (.faultInject v) s = .next { s with fc := { s.fc with
        injClass := BitVec.ofNat 3 (bits v 18 16), injSrc := BitVec.ofNat 16 (bits v 15 0) } })

/-- The first FATAL or TERMINAL event puts the complex into the safe state and is named in ENTRY_SRC (R450, R456):
the dispatched commands, window writes, page copies, channel runs and remote requests stop, and the coherent
domain is not UP. In the safe state a FATAL event enters nothing again, and a TERMINAL one in FATAL raises the
class alone. -/
def Obligations.SafeStateIsEnteredOnce : Prop :=
  (∀ (cls : Nat) (src : BitVec 16) (s : State), 3 ≤ cls → s.fc.cls = .run →
    let t := reactClass s cls src
    t.fc.cls = (if cls = 3 then .fatal else .terminal) ∧ t.fc.entrySrc = src ∧ t.qe.cmds = [] ∧ t.wws = [] ∧
    t.cows = [] ∧ t.bl.reqs = [] ∧ (∀ e ∈ t.mv.chans, e.2.run = none) ∧ (s.ch.st = .up → t.ch.st = .down)) ∧
  (∀ (src : BitVec 16) (s : State), s.fc.cls = .fatal →
    reactClass s 3 src = s ∧ reactClass s 4 src = { s with fc := { s.fc with cls := .terminal } }) ∧
  (∀ (cls : Nat) (src : BitVec 16) (s : State), s.fc.cls = .terminal → reactClass s cls src = s)

/-- A complex reset is ignored in TERMINAL (R462). Otherwise READY falls, and every on-chip state that the reset
reaches is at its reset value (R463, R466). What stays is named: the commands that wait, the build, the role
and the straps, the time base and the boot epoch, the model's two counters of free values, the fuses, the
management locks, the debug level and what was seen since power-up (R419, R426, R427, R431), and of the
collector everything but CLASS, RESET_CLASS, the promotion and count of each source and the pulse (R462). The
confidential ranges are quarantined (R468), inside a power-on sequence the wider sequence restarts (R464), the
home advertises its credits (R50), and device memory is as it was where no write was outstanding. The reset
sequence ends once Quince runs, its firmware is good and no range is left to scrub (R465, R469): READY is then
1, LAST_RESET names the sequence's kind, the Bramble ports that are enabled train, and the near-core requests
that waited are served (R470). The ranges that the quarantine list had no room for are scrubbed first, and
while one is left the sequence goes on. Firmware that fails halts Quince, and a part that is not provisioned
waits (R467, R421); with Quince not running the sequence does not end. A fuse read that misses its bound while
a sequence runs halts boot (R58). A halt after READY raises QUINCE at FATAL (R467). -/
def Obligations.ComplexResetAndBoot : Prop :=
  ((∀ s : State, s.fc.cls = .terminal → exec .complexReset s = .next s) ∧
   ∀ s : State, s.fc.cls ≠ .terminal →
     ∃ t, exec .complexReset s = .next t ∧
       t = { pending := s.pending, build := s.build, role := s.role, i3cAddr := s.i3cAddr, tick := s.tick, epoch := s.epoch,
             free := s.free, nextId := s.nextId, mem := t.mem, fc := t.fc, ps := t.ps, tp := t.tp, out := t.out } ∧
       t.fc = { s.fc with
         cls := .run, resetClass := s.fc.cls, pulseEnd := none
         srcs := s.fc.srcs.map fun e => (e.1, { e.2 with promo := 0, count := 0 }) } ∧
       t.ps = { psReset s.build with
         fuses := s.ps.fuses, locks := s.ps.locks, dbg := s.ps.dbg, inspSeen := s.ps.inspSeen, invSeen := s.ps.invSeen
         draws := s.ps.draws, lastKey := s.ps.lastKey, nextGen := s.ps.nextGen } ∧
       t.tp = { resetting := some (if s.tp.resetting = some .powerOn then .powerOn else .pin)
                quar := (quarantineConf s).quar, overflow := (quarantineConf s).overflow, held := (quarantineConf s).held } ∧
       t.tp.ready = false ∧ t.qe = {} ∧ t.bl = {} ∧ t.gw = [] ∧ t.ps.secrets = [] ∧ t.ps.log = [] ∧
       (∀ p < 32, s.build.cpPresent.getLsbD p = true → .homeCredits p 16 8 8 ∈ t.out) ∧
       ((∀ g ∈ s.gw, g.2.out = []) → t.mem = s.mem)) ∧
  ((∀ (k : ResetKind) (bus : Bus) (s : State), s.tp.resetting = some k → s.ps.quince = .running →
     fusesBlank s 22 12 = false →
     let u := scrubOverflow s bus
     (u.tp.overflow = [] → exec (.resetSequenceEnd true bus) s = .next (serveEarly (comeUp u k) bus)) ∧
     (u.tp.overflow ≠ [] → exec (.resetSequenceEnd true bus) s = .next u) ∧
     exec (.resetSequenceEnd false bus) s = .next { s with ps := { s.ps with quince := .firmware } }) ∧
   (∀ (k : ResetKind) (bus : Bus) (s : State), s.tp.resetting = some k → s.ps.quince = .running →
     fusesBlank s 22 12 = false → s.tp.overflow = [] → s.ch.early = [] →
     ∃ t, exec (.resetSequenceEnd true bus) s = .next t ∧ t.tp.ready = true ∧ t.tp.resetting = none ∧
       t.tp.lastReset = k.code ∧ t.ch.present = s.build.cpPresent ∧ t.mem = s.mem ∧
       ∀ p < s.build.brambles.length, (blPort s p).en = true → (blPort t p).st = .detect) ∧
   (∀ (ok : Bool) (k : ResetKind) (bus : Bus) (s : State), s.tp.resetting = some k → s.ps.quince = .running →
     fusesBlank s 22 12 = true →
     exec (.resetSequenceEnd ok bus) s = .next { s with ps := { s.ps with quince := .provisioning } }) ∧
   (∀ (ok : Bool) (bus : Bus) (s : State), s.ps.quince ≠ .running ∨ s.tp.resetting = none →
     exec (.resetSequenceEnd ok bus) s = .next s) ∧
   (∀ s : State, s.tp.resetting.isSome = true → s.ps.quince = .running →
     exec .fuseReadTimeout s = .next { s with ps := { s.ps with quince := .fuseTimeout } }) ∧
   (∀ s : State, s.tp.ready = true → s.ps.quince = .running →
     exec .quinceHalt s = .next (note { s with ps := { s.ps with quince := .halted } } { source := srcId 15 0 2 })))

/-- TP_PWR changes among P0, P1 and P2 at once with RESULT OK (R473, R474); a change to P3 waits with BUSY for the
complex to drain, and ends with BUSY after 1 ms (R475), and POWER_LOCK refuses every write of TP_PWR (R473).
While the save area has no base, P3 is refused with STATE, by TP_PWR and by SET_POWER (R477). P3 is entered
once the complex is quiet, or by force at once (R475, R476): only the always-on group, the partition table and
device memory keep their state outside the save area, and no host link is up in what was saved (R66). -/
def Obligations.PowerStateChanges : Prop :=
  ((∀ s : State, barOk s = true → s.tp.pwrBusy = false → s.ps.locks.getLsbD 1 = false →
     exec .powerP0 s = .next (pwrDone (setPwr s .p0) 0x00) ∧ exec .powerP1 s = .next (pwrDone (setPwr s .p1) 0x00) ∧
     exec .powerP2 s = .next (pwrDone (setPwr s .p2) 0x00)) ∧
   (∀ (new : Pwr) (s : State), (setPwr s new).tp = { s.tp with pwr := new }) ∧
   (∀ s : State, barOk s = true → s.tp.pwrBusy = false → s.ps.locks.getLsbD 1 = false → s.tp.saveBase ≠ 0 →
     exec .powerP3 s = .next { s with tp := { s.tp with pwrBusy := true, draining := some s.tick } }) ∧
   (∀ (b : Nat) (s : State), s.tp.draining = some b → p3Quiet s = false →
     ∃ u, exec .p3EntryTimeout s = .next (resumeWork u) ∧ b + 1000000 ≤ u.tick ∧
       u.tp = { s.tp with draining := none, pwrBusy := false, pwrResult := 0x0B }) ∧
   (∀ s : State, barOk s = true → s.tp.pwrBusy = false → s.ps.locks.getLsbD 1 = true →
     ∀ c ∈ [Instr.powerP0, .powerP1, .powerP2, .powerP3, .powerP3Force []],
       exec c s = .next { s with tp := { s.tp with pwrResult := 0x08 } }) ∧
   (∀ (bus : Bus) (s : State), barOk s = true → s.tp.pwrBusy = false → s.ps.locks.getLsbD 1 = false → s.tp.saveBase = 0 →
     exec .powerP3 s = .next { s with tp := { s.tp with pwrResult := 0x01 } } ∧
     exec (.powerP3Force bus) s = .next { s with tp := { s.tp with pwrResult := 0x01 } }) ∧
   (∀ (a : WAuth) (force mac : Bool) (bus : Bus) (u s : State) (x : Session), wambeTake s a false = some (u, x) →
     u.tp.pwr ≠ .p3 →
     (u.tp.saveBase = 0 → exec (.setPower a 3 force mac bus) s =
       .next (reply (if safeState u = true ∨ u.tp.ready = false ∨ u.tp.pwrBusy = true then u else pwrDone u 0x01) 0x10 .state [])) ∧
     (u.tp.saveBase ≠ 0 → safeState u = false → u.tp.ready = true → u.tp.pwrBusy = false →
       exec (.setPower a 3 false mac bus) s =
         .next (reply { u with tp := { u.tp with pwrBusy := true, draining := some u.tick } } 0x10 .ok [])))) ∧
  ((∀ (bus : Bus) (s : State), s.tp.draining.isSome = true → p3Quiet s = true → runsWork s = true →
     ∃ t x, exec (.p3Entry bus) s = .next t ∧ t.tp.saved = some x ∧ P3Holds t x) ∧
   (∀ (bus : Bus) (s : State), barOk s = true → s.tp.pwrBusy = false → s.ps.locks.getLsbD 1 = false →
     s.tp.saveBase ≠ 0 →
     ∃ t x, exec (.powerP3Force bus) s = .next t ∧ t.tp.saved = some x ∧ P3Holds t x))

/-- LOCK moves an OPEN partition to LOCKED where R414 does not refuse it, UNLOCK makes a LOCKED one that is not
confidential OPEN again, and neither changes another partition or anything outside the partition unit. UNLOCK
of a confidential LOCKED partition answers STATE and changes no partition. A range of an OPEN partition is
written where it meets no range of another (R411), and the ranges that the table held stand for the requests it
has admitted (R13); while the partition is not OPEN, or the management lock of the table is set, a write
changes nothing. -/
def Obligations.PartitionsAndTheirTable : Prop :=
  ((∀ (p : BitVec 3) (s : State), barOk s = true → p.toNat < s.build.partitions → (partOf s p).st = .opened →
     s.ps.locks.getLsbD 0 = false →
     (partOf s p).conf = false ∨
       (rangesOf s p ≠ [] ∧ (partOf s p).ctxCount ≠ 0 ∧ (∀ e ∈ sysStructs s, meetsPart s p e.1 e.2 = false) ∧
         s.ps.invSeen = false ∧ lifecycleOf s ≠ 0 ∧ lifecycleOf s ≠ 3) →
     ∃ t, exec (.lock p) s = .next t ∧ partOf t p = { partOf s p with st := .locked } ∧ t.ps.partOp = ⟨false, 0x00⟩ ∧
       (∀ q, q ≠ p → partOf t q = partOf s q) ∧ t = { s with ps := t.ps }) ∧
   (∀ (p : BitVec 3) (s : State), barOk s = true → (partOf s p).st = .locked → (partOf s p).conf = false →
     s.ps.locks.getLsbD 0 = false →
     ∃ t, exec (.unlock p) s = .next t ∧ partOf t p = { partOf s p with st := .opened } ∧ t.ps.partOp = ⟨false, 0x00⟩ ∧
       (∀ q, q ≠ p → partOf t q = partOf s q) ∧ t = { s with ps := t.ps }) ∧
   (∀ (p : BitVec 3) (s : State), barOk s = true → (partOf s p).st = .locked → (partOf s p).conf = true →
     exec (.unlock p) s = .next { s with ps := { s.ps with partSel := p, partOp := ⟨false, 0x01⟩ } })) ∧
  ((∀ (p : BitVec 3) (r : Nat) (v : Word) (s : State), barOk s = true → s.ps.locks.getLsbD 0 = false →
     p.toNat < s.build.partitions → r < 8 → (partOf s p).st = .opened → bits v 54 27 ≤ 2 ^ 27 →
     (∀ q ∈ allParts s, q ≠ p → ∀ z ∈ rangesOf s q,
       meets (bits v 26 0) (bits v 54 27) z.base.toNat z.size.toNat = false) →
     exec (.partitionTableWrite (BitVec.ofNat 24 (0x160140 + 0x80 * p.toNat + 8 * r)) v) s =
       .next (updPart s p fun x => { x with
         past := (s.nextId, x.ranges) :: x.past
         ranges := Tab.set {} x.ranges r ⟨BitVec.ofNat 28 (bits v 54 27), BitVec.ofNat 27 (bits v 26 0)⟩ })) ∧
   (∀ (p : BitVec 3) (off : BitVec 24) (v : Word) (s : State), p.toNat < s.build.partitions →
     0x160100 + 0x80 * p.toNat ≤ off.toNat → off.toNat < 0x160180 + 0x80 * p.toNat → (partOf s p).st ≠ .opened →
     exec (.partitionTableWrite off v) s = .next s) ∧
   (∀ (off : BitVec 24) (v : Word) (s : State), s.ps.locks.getLsbD 0 = true → exec (.partitionTableWrite off v) s = .next s))

/-- A teardown of an OPEN or LOCKED partition leaves it CLOSING, and is refused with STATE from any other state
(R434). Once nothing of the partition is in flight its measurement log is cleared and its scrub begins; a
partition that does not drain is HALTED after 200 µs, and the operator is told. A scrub whose writes are all
acknowledged zeroes every byte of the partition's ranges and clears their poison, then opens the partition
without CONF and records the digest of R435 (R434 step 6). -/
def Obligations.TeardownScrubsAndOpens : Prop :=
  ((∀ (p : BitVec 3) (bus : Bus) (s : State), barOk s = true → p.toNat < s.build.partitions →
     (partOf s p).st = .opened ∨ (partOf s p).st = .locked →
     ∃ t, exec (.teardown p bus) s = .next t ∧ t.ps.partOp = ⟨false, 0x00⟩ ∧ (partOf t p).st = .closing ∧
       (partOf t p).closeAt = t.tick ∧ (partOf t p).scrubQ = []) ∧
   (∀ (p : BitVec 3) (bus : Bus) (s : State), barOk s = true → (partOf s p).st ≠ .opened → (partOf s p).st ≠ .locked →
     exec (.teardown p bus) s = .next { s with ps := { s.ps with partSel := p, partOp := ⟨false, 0x01⟩ } }) ∧
   (∀ (p : BitVec 3) (s : State), (partOf s p).st = .closing → partQuiet s p = true → runsWork s = true →
     ∃ t, exec (.teardownDrainDone p) s = .next t ∧ (partOf t p).st = .scrubbing ∧ (partOf t p).scrubDone = 0 ∧
       (partOf t p).chain = 0 ∧ (partOf t p).total = 0 ∧ ∀ r ∈ t.ps.log, r.part ≠ p) ∧
   (∀ (p : BitVec 3) (s : State), (partOf s p).st = .closing → partQuiet s p = false →
     exec (.teardownQuiescenceTimeout p) s = .next (haltPart (reach s ((partOf s p).closeAt + 200000)) p))) ∧
  (∀ (p : BitVec 3) (s : State), (partOf s p).st = .scrubbing → (partOf s p).stopped = false → runsWork s = true →
     (partOf s p).scrubQ = [] →
     ∃ u t, exec (.scrubComplete p []) s = .next t ∧ t = scrubDone u p ∧
       (∀ r ∈ rangesOf s p, ∀ a f, r.lo ≤ a → a < r.hi → u.mem.byte f a = 0 ∧ Tab.find? u.mem.poison (a / 64) = none) ∧
       (∀ a, (∀ r ∈ rangesOf s p, ¬(r.lo ≤ a ∧ a < r.hi)) → Tab.get 0 u.mem.cells a = Tab.get 0 s.mem.cells a) ∧
       (partOf t p).st = .opened ∧ (partOf t p).conf = false ∧ (partOf t p).scrubQ = [] ∧
       (partOf t p).digest = sha384 (scrubBytes u p))

/-- An authenticated message is taken only in an open session, with a tag that checks and a sequence number that is
not old, and it is refused with AUTH otherwise, with no other effect; a session ends at 0xFFFF messages (R418).
A provisional session takes only FUSE_PROGRAM and SESSION_CLOSE (R421). A session opens with the fused key's
signature, or provisionally while no digest is fused, and replaces the old one; it is refused with AUTH
otherwise. GET_STATUS is answered at any time, GET_IDENTITY where Quince holds an identity and else with STATE
(log entry 51), and SESSION_CLOSE ends the session (R418). -/
def Obligations.WambeMessagesAndSessions : Prop :=
  ((∀ (a : WAuth) (prov : Bool) (x : Session) (s : State), s.ps.session = some x → a.tagOk = true →
     x.next ≤ a.seq.toNat → (x.prov = none ∨ prov = true) →
     wambeTake s a prov = some ({ s with ps := { s.ps with
       session := if 0xFFFF ≤ x.count + 1 then none else some { x with next := a.seq.toNat + 1, count := x.count + 1 } } }, x)) ∧
   (∀ (a : WAuth) (prov : Bool) (s : State),
     (∀ x, s.ps.session = some x → a.tagOk = false ∨ a.seq.toNat < x.next ∨ (x.prov.isSome = true ∧ prov = false)) →
     wambeTake s a prov = none) ∧
   ∀ (a : WAuth) (s : State),
     (wambeTake s a true = none →
       exec (.sessionClose a) s = .next (reply s 0x04 .auth []) ∧
       ∀ w v, exec (.fuseProgram a w v) s = .next (reply s 0x13 .auth [])) ∧
     (wambeTake s a false = none →
       (∀ t f m b, exec (.setPower a t f m b) s = .next (reply s 0x10 .auth [])) ∧
       (∀ k p, exec (.reset a k p) s = .next (reply s 0x11 .auth [])) ∧
       (∀ t, exec (.lifecycle a t) s = .next (reply s 0x12 .auth [])) ∧
       (∀ l, exec (.debugSet a l) s = .next (reply s 0x14 .auth [])) ∧
       (∀ x y, exec (.mgmtLock a x y) s = .next (reply s 0x15 .auth [])) ∧
       (∀ x n b, exec (.debugRead a x n b) s = .next (reply s 0x16 .auth [])) ∧
       (∀ x d b, exec (.debugWrite a x d b) s = .next (reply s 0x17 .auth [])) ∧
       ∀ b l k, exec (.traceSet a b l k) s = .next (reply s 0x18 .auth []))) ∧
  ((∀ (key share : List Byte) (s : State), fusesBlank s 10 12 = true ∨ mgmtDigest s = digestWords key →
     exec (.sessionOpen key share true) s = .next (reply { s with ps := { s.ps with
       session := some { key := Config.ecdhe (Config.drbg s.ps.draws) share, next := 0, count := 0
                         prov := if fusesBlank s 10 12 then some key else none }
       draws := s.ps.draws + 1 } } 0x03 .ok (Config.publicKey (Config.drbg s.ps.draws)))) ∧
   (∀ (key share : List Byte) (sigOk : Bool) (s : State),
     sigOk = false ∨ (fusesBlank s 10 12 = false ∧ mgmtDigest s ≠ digestWords key) →
     exec (.sessionOpen key share sigOk) s = .next (reply s 0x03 .auth [])) ∧
   (∀ (a : WAuth) (u s : State) (x : Session), wambeTake s a true = some (u, x) →
     exec (.sessionClose a) s = .next (reply { u with ps := { u.ps with session := none } } 0x04 .ok [])) ∧
   (∀ s : State, exec .getStatus s = .next (reply s 0x01 .ok (statusBody s)) ∧
     (hasIdentity s = true → exec .getIdentity s = .next (reply s 0x02 .ok (identityFull s ++ certChain s))) ∧
     (hasIdentity s = false → exec .getIdentity s = .next (reply s 0x02 .state []))))

/-- What the operator's messages do once they are taken. MGMT_LOCK sets and clears locks (R419). DEBUG_SET sets the
level and remembers that INSPECT or INVASIVE was in force, or is refused (R419, R431). TRACE_SET places the
trace ring, or is refused (R432, R413). A confirmed LIFECYCLE blows its bit and resets the complex, any other
is refused (R422, R423). RESET resets the complex or one host port, and is ignored in TERMINAL (R462, R480).
SET_POWER changes the power state, is the way out of P3 (R478), and answers STATE where R473 lets nothing
change. FUSE_PROGRAM sets bits of a word that its row allows and clears none (R59, R420). -/
def Obligations.OperatorMessages : Prop :=
  (∀ (a : WAuth) (u s : State) (x : Session), wambeTake s a false = some (u, x) →
     (∀ (set clear : BitVec 4), exec (.mgmtLock a set clear) s =
       .next (reply { u with ps := { u.ps with locks := (u.ps.locks ||| set) &&& ~~~clear } } 0x15 .ok [])) ∧
     (∀ level : BitVec 2, level ≠ 3 →
       (debugRefused u level.toNat = false → exec (.debugSet a level) s = .next (reply { u with ps := { u.ps with
         dbg := level, inspSeen := u.ps.inspSeen || decide (1 ≤ level.toNat), invSeen := u.ps.invSeen || decide (level = 2) } }
           0x14 .ok [])) ∧
       (debugRefused u level.toNat = true → exec (.debugSet a level) s = .next (reply u 0x14 .refused []))) ∧
     (∀ (base : BitVec 48) (log2 : Nat) (src : BitVec 4), base.toNat % 32 = 0 → log2 ≤ 43 →
       base.toNat + 32 * 2 ^ log2 ≤ 2 ^ 48 →
       (placeOk u base.toNat (32 * 2 ^ log2) = true → exec (.traceSet a base log2 src) s = .next (reply { u with ps := { u.ps with
         traceBase := base, traceLog2 := log2, traceSrc := src, tracePos := 0 } } 0x18 .ok [])) ∧
       (placeOk u base.toNat (32 * 2 ^ log2) = false → exec (.traceSet a base log2 src) s = .next (reply u 0x18 .refused []))) ∧
     (∀ target : BitVec 2,
       (lifeConfirmed u target.toNat = true → safeState u = false → exec (.lifecycle a target) s =
         .next (complexResetOf (reply (blow u 0 (1#32 <<< (target.toNat - 1))) 0x12 .ok []) .lifecycle)) ∧
       (lifeConfirmed u target.toNat = false ∨ safeState u = true →
         exec (.lifecycle a target) s = .next (reply u 0x12 .refused []))) ∧
     (∀ port : Byte, u.fc.cls ≠ .terminal →
       exec (.reset a 1 port) s = .next (complexResetOf (reply u 0x11 .ok []) .wambe) ∧
       (hostExists u port.toNat = true → exec (.reset a 2 port) s = .next (hostReset (reply u 0x11 .ok []) port.toNat))) ∧
     (∀ kind port : Byte, u.fc.cls = .terminal → exec (.reset a kind port) s = .next u) ∧
     (∀ (target : BitVec 2) (force mac : Bool) (bus : Bus),
       (safeState u = true ∨ u.tp.ready = false ∨ u.tp.pwrBusy = true →
         exec (.setPower a target force mac bus) s = .next (reply u 0x10 .state [])) ∧
       (safeState u = false → u.tp.ready = true → u.tp.pwrBusy = false → target ≠ 3 →
         (u.tp.pwr ≠ .p3 → exec (.setPower a target force mac bus) s =
           .next (pwrDone (setPwr (reply u 0x10 .ok []) (wambePwr target)) 0x00)) ∧
         (u.tp.pwr = .p3 → exec (.setPower a target force mac bus) s =
           .next (leaveP3 (reply u 0x10 .ok []) (wambePwr target) mac))))) ∧
  (∀ (a : WAuth) (w : Byte) (v : BitVec 32) (u s : State) (x : Session), wambeTake s a true = some (u, x) →
     provAllows u x w.toNat v = true → fuseAllowed u w.toNat = true →
     ∃ t, exec (.fuseProgram a w v) s = .next t ∧ Tab.get 0 t.ps.fuses w.toNat = Tab.get 0 u.ps.fuses w.toNat ||| v ∧
       (∀ j, j ≠ w.toNat → Tab.get 0 t.ps.fuses j = Tab.get 0 u.ps.fuses j) ∧
       t.out = u.out ++ [.fuse w v, .wambe 0x13 .ok []] ∧ t = { u with ps := t.ps, out := t.out })

/-- A DEBUG_READ and a DEBUG_WRITE are refused where the level, the alignment or the state of the complex forbids
them (R433). A read goes granule by granule: a granule of 8 B in a range of a confidential partition that is
not OPEN is never read and shows all ones with the poison flag, and one that memory holds clean shows its bytes
with the flag clear. A write that meets such a range is refused whole; any other goes to memory. Quince answers
over DOE while it holds an identity and the complex is not in the safe state (R105, R456). A request of at most
64 KiB is answered over the interface report of the function (R104), a longer one with an error. A tenant's
secret is installed only in a secured session and where R425 allows it. A report and the measurements are
answers that change nothing (R429, R430). IDE_KM programs the key of a selective stream, or the link stream, in
a secured session (R103). The text of the answers that the spec leaves to its standards is free (log entry 31). -/
def Obligations.DebugAndDoeAreGuarded : Prop :=
  (∀ (a : WAuth) (addr : BitVec 48) (bus : Bus) (u s : State) (x : Session), wambeTake s a false = some (u, x) →
     (∀ (n : Nat) (w : WRes), debugBad u addr.toNat n = some w → exec (.debugRead a addr n bus) s = .next (reply u 0x16 w [])) ∧
     (∀ (data : List Byte) (w : WRes), debugBad u addr.toNat data.length = some w →
       exec (.debugWrite a addr data bus) s = .next (reply u 0x17 w [])) ∧
     (∀ n : Nat, debugBad u addr.toNat n = none →
       let r := ((List.range (n / 8)).map fun i => addr.toNat + 8 * i).foldl (debugGranule bus) (u, [])
       exec (.debugRead a addr n bus) s = .next (reply r.1 0x16 .ok r.2)) ∧
     (∀ (y : State × List Byte) (g : Nat), shieldedAt y.1 g 8 = true →
       debugGranule bus y g = (y.1, y.2 ++ List.replicate 8 0xFF ++ [1])) ∧
     (∀ (y : State × List Byte) (g : Nat), shieldedAt y.1 g 8 = false → g % 8 = 0 → g < 2 ^ 48 →
       offLimits y.1 (g / 64 * 64) = false → Tab.find? y.1.mem.poison (g / 64) = none →
       debugGranule [] y g = (y.1, y.2 ++ y.1.mem.bytes y.1.free g 8 ++ [0])) ∧
     (∀ data : List Byte, debugBad u addr.toNat data.length = none →
       (shieldedAt u addr.toNat data.length = true → exec (.debugWrite a addr data bus) s = .next (reply u 0x17 .refused [])) ∧
       (shieldedAt u addr.toNat data.length = false →
         let w := memWrite (debugVia u addr.toNat) bus u addr.toNat data false
         exec (.debugWrite a addr data bus) s = .next (reply w.1 0x17 (if w.2 = .ok then .ok else .state) [])))) ∧
  (∀ (fn : Fn) (s : State), fnExists s fn = true → s.tp.pwr ≠ .p3 → s.tp.ready = true → safeState s = false →
     hasIdentity s = true →
     (∀ body : List Byte,
       (body.length ≤ 65536 → exec (.spdmRequest fn body) s =
         .next (emit s (.doe fn (Config.spdmAnswer s.free (certChain s) (ifaceReport s fn) body)))) ∧
       (65536 < body.length → exec (.spdmRequest fn body) s = .next (emit s (.doeError fn)))) ∧
     (∀ (part : BitVec 3) (nonce : BitVec 256) (start : BitVec 32), part.toNat < s.build.partitions →
       exec (.getReport fn part nonce start) s = .next (emit s (.doe fn (reportBody s part nonce start.toNat ++
         beBytes 96 (Config.ecdsaSign (aliasKey s) (reportBody s part nonce start.toNat)).toNat)))) ∧
     exec (.getMeasurements fn) s = .next (emit s (.doe fn ([1] ++ beBytes 48 (sha384 (capTable s.build)).toNat ++
       [2] ++ beBytes 48 Config.romDigest.toNat ++ [3] ++ beBytes 48 Config.firmwareDigest.toNat ++
       [4, BitVec.ofNat 8 (lifecycleOf s), debugByte s]))) ∧
     (∀ (secured : Bool) (part : BitVec 3) (ctx : BitVec 12) (slot : BitVec 10) (secret : BitVec 256),
       (secured = true ∧ secretOk s part ctx slot.toNat = true →
         exec (.ctxSecret fn secured part ctx slot secret) s =
           .next (emit (installSecret s part ctx slot.toNat secret) (.doe fn (Config.spdmAnswer s.free (certChain s) (ifaceReport s fn) [])))) ∧
       (secured = false ∨ secretOk s part ctx slot.toNat = false →
         exec (.ctxSecret fn secured part ctx slot secret) s = .next (emit s (.doeError fn)))) ∧
     (∀ (stream : Nat) (part : Option (BitVec 3)) (key : BitVec 256), fn.vf = 0 →
       let answer : Out := .doe fn (Config.spdmAnswer s.free (certChain s) (ifaceReport s fn) [])
       (stream < 8 → exec (.ideKm fn.port stream true part key) s = .next (emit (updHost s fn.port fun h =>
         { h with streams := Tab.insert h.streams stream ⟨true, part, key⟩ }) answer)) ∧
       exec (.ideKm fn.port 8 true part key) s = .next (emit (updHost s fn.port fun h => { h with ideLink := true }) answer) ∧
       exec (.ideKm fn.port stream false part key) s = .next (emit s (.doeError fn))))

/-- A read for a line that no agent holds gives the memory's data with an exclusive grant, makes the port the
line's exclusive holder, and leaves memory (R366, R373); UPGRADE without a copy is served as RD_UNIQUE. A
write-back by a line's owner goes to memory (R373): an exclusive line is dropped unless it is kept, and of one
in OWN the sharers stay, with the owner among them where it is kept. One by a port that is not the owner is
acknowledged and writes nothing. -/
def Obligations.CachedReadsAndWriteBacks : Prop :=
  (∀ (core : Nat) (req : CReq) (p : BitVec 3) (s : State), CoreMayAsk s core req p →
     LineAtRest s core p (req.addr.toNat / 64) → req.addr.toNat % 64 = 0 →
     dirEnt s (req.addr.toNat / 64) = none → setFull s (req.addr.toNat / 64) = false →
     ∀ c ∈ [Instr.rdShared core req [], .rdUnique core req [], .upgrade core req []],
       ∃ t, exec c s = .next t ∧ t.mem = s.mem ∧
         (dirEnt t (req.addr.toNat / 64)).map (fun e => (e.st, e.ptrs, e.bcast)) = some (.exc, [core], false) ∧
         .hrsp core { opc := 1, id := req.txn.toNat, grant := 2, line := req.addr.toNat / 64
                      data := s.mem.bytes s.free req.addr.toNat 64 } ∈ t.out) ∧
  (∀ (core : Nat) (req : CReq) (keep : Bool) (data : List Byte) (p : BitVec 3) (s : State),
     CoreMayAsk s core req p → LineAtRest s core p (req.addr.toNat / 64) → req.addr.toNat % 64 = 0 →
     (∀ d, dirEnt s (req.addr.toNat / 64) = some d → d.st ≠ .shd → d.ptrs.head? = some core →
       ∃ t, exec (.wb core req keep data []) s = .next t ∧
         t.mem = s.mem.writeLine req.addr.toNat (padTo 64 data) false ∧
         (d.st = .exc → (dirEnt t (req.addr.toNat / 64)).map (fun e => (e.st, e.ptrs, e.bcast)) =
           if keep then some (.exc, [core], false) else none) ∧
         (d.st = .own → (dirEnt t (req.addr.toNat / 64)).map (fun e => (e.st, e.ptrs, e.bcast)) =
           (shdEnt (if keep then d.ptrs else d.ptrs.tail)).map fun e => (e.st, e.ptrs, d.bcast)) ∧
         .hrsp core { opc := 3, id := req.txn.toNat } ∈ t.out) ∧
     ((∀ d, dirEnt s (req.addr.toNat / 64) = some d → d.st = .shd ∨ d.ptrs.head? ≠ some core) →
       ∃ t, exec (.wb core req keep data []) s = .next t ∧ t.mem = s.mem ∧ t.ch.dir = s.ch.dir ∧
         .hrsp core { opc := 3, id := req.txn.toNat } ∈ t.out))

/-- An uncached read returns the bytes, an uncached write stores exactly its bytes and an atomic, of 8 B or a
compare and swap of 16 B, returns the old value and stores the new one, where no agent holds the line and, for
the read, every earlier write to its bytes is acknowledged (R374, R379, R388). A request that is not well
formed is answered with FORMAT, and one of a port that no partition owns, whose partition is in teardown, or
whose partition does not cover the address, with DENIED, raised at the port's source; outside UP a request
gives its credits back and is discarded (R370, R384, R412); while READY is 0 it waits (R470). -/
def Obligations.UncachedAccessesAndRefusals : Prop :=
  (∀ (core : Nat) (req : CReq) (p : BitVec 3) (s : State), CoreMayAsk s core req p →
     LineAtRest s core p (req.addr.toNat / 64) → dirEnt s (req.addr.toNat / 64) = none →
     (∀ size : BitVec 3, size.toNat ≤ 6 → req.addr.toNat % 2 ^ size.toNat = 0 →
       writePending s req.addr.toNat (2 ^ size.toNat) = false →
        ∃ t, exec (.rdNc core req size []) s = .next t ∧ t.mem = s.mem ∧ t.ch.dir = s.ch.dir ∧
         .hrsp core { opc := 1, id := req.txn.toNat, data := s.mem.bytes s.free req.addr.toNat (2 ^ size.toNat) } ∈ t.out) ∧
     (∀ (size : BitVec 3) (data : List Byte), size.toNat ≤ 6 → req.addr.toNat % 2 ^ size.toNat = 0 →
       ∃ t, exec (.wrNc core req size data []) s = .next t ∧
         t.mem = s.mem.writeLine req.addr.toNat ((padTo 64 data).take (2 ^ size.toNat)) false ∧
         .hrsp core { opc := 2, id := req.txn.toNat } ∈ t.out) ∧
     (∀ (size : BitVec 3) (aop : BitVec 4) (data : List Byte), (size = 3 ∧ aop.toNat ≤ 9) ∨ (size = 4 ∧ aop = 9) →
       req.addr.toNat % 2 ^ size.toNat = 0 →
       let n := 2 ^ size.toNat
       let bytes := s.mem.bytes s.free (64 * (req.addr.toNat / 64)) 64
       let old := leAt bytes (req.addr.toNat % 64) n
       let new := atomicOp aop.toNat old (leAt (padTo 64 data) 0 n) (leAt (padTo 64 data) n n) (8 * n)
       ∃ t, exec (.atomic core req size aop data []) s = .next t ∧
         t.mem = s.mem.writeLine (64 * (req.addr.toNat / 64)) (patch bytes (req.addr.toNat % 64) (leBytes n new)) false ∧
         .hrsp core { opc := 4, id := req.txn.toNat, data := leBytes n old } ∈ t.out)) ∧
  (∀ (core : Nat) (req : CReq) (keep : Bool) (size : BitVec 3) (aop : BitVec 4) (data : List Byte) (bus : Bus) (s : State),
     ∀ c ∈ [(Instr.rdShared core req bus, HomeOp.rdShared, 0), (.rdUnique core req bus, .rdUnique, 0),
         (.upgrade core req bus, .upgrade, 0), (.wb core req keep data bus, .wb keep (padTo 64 data), 1),
         (.rdNc core req size bus, .rdNc size.toNat, 0), (.wrNc core req size data bus, .wrNc size.toNat (padTo 64 data), 1),
         (.atomic core req size aop data bus, .atomic size.toNat aop.toNat (padTo 64 data), 1)],
       let bad := req.rsv = true ∨ c.2.1.formed = false ∨ req.addr.toNat % c.2.1.align ≠ 0
       let u := openReq (emit s (.homeCredits core 1 0 c.2.2)) core req.txn c.2.1
       (coreHears s core = true → s.ch.st ≠ .up → exec c.1 s = .next (emit s (.homeCredits core 1 0 c.2.2))) ∧
       (coreHears s core = true → s.ch.st = .up → txnOpen s core req.txn = false → bad →
         exec c.1 s = .next (coreFail u core req.txn 4)) ∧
       (coreHears s core = true → s.ch.st = .up → txnOpen s core req.txn = false → ¬ bad → req.va = false →
         inWindow req.addr.toNat = false →
         (∀ p, corePart s core = some p → partClosing s p = true ∨ partCoversAt s p (some s.nextId) req.addr.toNat = false) →
         exec c.1 s = .next (coreFail (note u { source := srcId 11 core 1, address := BitVec.ofNat 64 req.addr.toNat, part := corePart s core }) core req.txn 2)) ∧
       (s.tp.ready = false → core < 32 → s.build.cpPresent.getLsbD core = true → txnOpen s core req.txn = false →
         exec c.1 s = .next { s with ch := { s.ch with early := s.ch.early ++ [⟨core, req, some c.2.1, 0⟩] } }))

/-- A BARRIER waits for the earlier requests of its class (R393, R395): for the loads, the stores, or all of them.
With none outstanding it is answered at once; otherwise it is held with exactly those transaction IDs. One with
a reserved bit or kind is answered with FORMAT (R370); outside UP it gives its credit back and receives no
answer (R396). -/
def Obligations.BarriersWaitForTheirClass : Prop :=
  ∀ (core : Nat) (req : CReq) (kind : BitVec 2) (s : State), coreHears s core = true →
    (s.ch.st ≠ .up → exec (.barrier core req kind) s = .next (emit s (.homeCredits core 1 0 0))) ∧
    (s.ch.st = .up → txnOpen s core req.txn = false → req.rsv = true ∨ kind = 3 →
      exec (.barrier core req kind) s = .next (coreFail (emit s (.homeCredits core 1 0 0)) core req.txn 4)) ∧
    (s.ch.st = .up → txnOpen s core req.txn = false → req.rsv = false → kind ≠ 3 →
      (∀ b ∈ (corePort s core).bars, ∃ x ∈ b.waits, ∃ q ∈ (corePort s core).opens, q.txn = x) →
      let ordered := (corePort s core).opens.filter fun o => if kind = 0 then o.load else if kind = 1 then o.store else true
      (ordered = [] → 0 < (corePort s core).hrsp →
        ∃ t, exec (.barrier core req kind) s = .next t ∧ (corePort t core).bars = (corePort s core).bars ∧
          .hrsp core { opc := 5, id := req.txn.toNat } ∈ t.out ∧ t.mem = s.mem ∧ t.ch.dir = s.ch.dir ∧
          t.ch.trans = s.ch.trans) ∧
      (ordered ≠ [] →
        ∃ t, exec (.barrier core req kind) s = .next t ∧
          (corePort t core).bars = (corePort s core).bars ++ [⟨req.txn, ordered.map (·.txn)⟩] ∧
          t.out = s.out ++ [.homeCredits core 1 0 0] ∧ t.mem = s.mem ∧ t.ch.dir = s.ch.dir))

/-- An answer that R371 allows, while another agent has still to answer, ends that agent's snoop, keeps the data of
a dirty one, and leaves memory and the directory. The answer to a STASH offer (R381): ACCEPT makes the port the
line's exclusive owner and answers it with the line's data; DECLINE leaves the line with no holder. Memory is
as it was. Dirty data of the owner answers another agent's RD_SHARED without a memory write: the owner keeps
the line in OWN, the requester becomes a sharer and receives the data (R373). -/
def Obligations.SnoopsStashesAndForwards : Prop :=
  (∀ (core other : Nat) (sid : BitVec 10) (oid : Nat) (toO : Bool) (data : List Byte) (bus : Bus) (sn : Snoop) (tr : Trans)
     (s : State),
     coreHears s core = true → s.ch.st = .up → Tab.find? s.ch.snps (snoopKey core sid.toNat) = some sn → sn.kind ≠ 3 →
     (corePort s core).hsnpQ.any (fun q => q.1 = sid.toNat) = false → Tab.find? s.ch.trans sn.line = some tr →
     (oid, other) ∈ tr.awaits → (oid, other) ≠ (sid.toNat, core) →
     ∀ c ∈ [(Instr.miss core sid bus, SnoopAns.miss), (.shared core sid bus, .shared),
         (.snoopData core sid toO data bus, .data toO)],
       answerFits s sn c.2 = true →
       ∃ t x, exec c.1 s = .next t ∧ t.mem = s.mem ∧ t.ch.dir = s.ch.dir ∧
         Tab.find? t.ch.snps (snoopKey core sid.toNat) = none ∧ Tab.find? t.ch.trans sn.line = some x ∧
         x.awaits = tr.awaits.filter (fun a => a ≠ (sid.toNat, core)) ∧
         x.data = (if c.2 = .data toO then some (padTo 64 data) else tr.data)) ∧
  (∀ (core : Nat) (sid : BitVec 10) (bus : Bus) (line : Nat) (tr : Trans) (data : List Byte) (en : List Bool) (s : State),
     coreHears s core = true → s.ch.st = .up → Tab.find? s.ch.snps (snoopKey core sid.toNat) = some ⟨core, line, 3⟩ →
     (corePort s core).hsnpQ.any (fun q => q.1 = sid.toNat) = false → Tab.find? s.ch.trans line = some tr →
     tr.req.op = .hint data en → tr.req.port = core → tr.stash = true → tr.kept = false → tr.awaits = [(sid.toNat, core)] →
     s.ch.queue = [] → 0 < (corePort s core).hrsp →
     (∃ t, exec (.accept core sid bus) s = .next t ∧ t.mem = s.mem ∧
       (dirEnt t line).map (fun e => (e.st, e.ptrs, e.bcast)) = some (.exc, [core], false) ∧
       .hrsp core { opc := 6, id := tr.sid, grant := 2, line := line, data := s.mem.bytes s.free (64 * line) 64 } ∈ t.out) ∧
     (∃ t, exec (.decline core sid bus) s = .next t ∧ t.mem = s.mem ∧ dirEnt t line = none ∧
       Tab.find? t.ch.trans line = none)) ∧
  (∀ (owner : Nat) (sid : BitVec 10) (data : List Byte) (bus : Bus) (line : Nat) (tr : Trans) (s : State),
     coreHears s owner = true → s.ch.st = .up → Tab.find? s.ch.snps (snoopKey owner sid.toNat) = some ⟨owner, line, 1⟩ →
     (corePort s owner).hsnpQ.any (fun q => q.1 = sid.toNat) = false → Tab.find? s.ch.trans line = some tr →
     tr.req.op = .rdShared → tr.req.port ≠ owner → tr.awaits = [(sid.toNat, owner)] → s.ch.queue = [] →
     (dirEnt s line).map (fun e => (e.st, e.ptrs, e.bcast)) = some (.exc, [owner], false) →
     0 < (corePort s tr.req.port).hrsp →
     ∃ t, exec (.snoopData owner sid true data bus) s = .next t ∧ t.mem = s.mem ∧
       (dirEnt t line).map (fun e => (e.st, e.ptrs, e.bcast)) = some (.own, [owner, tr.req.port], false) ∧
       .hrsp tr.req.port { opc := 1, id := tr.req.txn.toNat, grant := 1, line := line, data := padTo 64 data } ∈ t.out)

/-- The coherent domain's way down and up (R383, R384, R386): a missed snoop deadline and DOWN empty the directory
and drop every request and snoop; RESTORE advertises the home's credits to the present cores; the domain is UP
once every core has advertised its own, and DOWN again with NO_CREDITS where that is late. When it is UP, each
context's near-core queues act on the doorbells they were given meanwhile, in order, and are read again (R14,
R126). Credits that a core returns, before READY too, are counted where nothing waits for them, and a port that
has given the credits of R50 on both channels is attached. A domain that is DOWN or PURGING counts none. -/
def Obligations.CoherentDomainAndCredits : Prop :=
  ((∀ (agent slice : Nat) (bus : Bus) (e : Nat × Snoop) (s : State), s.ch.st = .up → agent < 32 →
     List.find? (fun e : Nat × Snoop => decide (e.2.core = agent)) s.ch.snps = some e →
     ∃ t, exec (.snoopDeadline agent slice bus) s = .next t ∧ t.ch.dir = [] ∧ t.ch.trans = [] ∧ t.ch.snps = [] ∧
       t.ch.queue = [] ∧ t.ch.st = .down) ∧
   (∀ (bus : Bus) (s : State), barOk s = true → s.ch.busy = false → s.ch.st = .up →
     ∃ t, exec (.down bus) s = .next t ∧ t.ch.st = .down ∧ t.ch.agent = 0xFE ∧ t.ch.result = 0x00 ∧ t.ch.dir = [] ∧
       t.ch.trans = [] ∧ t.ch.snps = [] ∧ t.fc = s.fc) ∧
   (∀ s : State, barOk s = true → s.ch.busy = false → s.ch.st = .down →
     ∃ t, exec .restore s = .next t ∧ t.ch.st = .restoring ∧ t.ch.busy = true ∧ t.ch.attached = 0 ∧ t.mem = s.mem ∧
       ∀ p < 32, s.build.cpPresent.getLsbD p = true → .homeCredits p 16 8 8 ∈ t.out) ∧
   (∀ s : State, s.ch.st = .restoring → coresReady s = true →
     ∃ u, exec .restoreCreditsReceived s = .next (each (fun s e => coresBack s (BitVec.ofNat 12 e.1)) u s.qe.ctxs) ∧
       u = { s with ch := { s.ch with st := .up, busy := false, result := 0x00 } }) ∧
   (∀ s : State, s.ch.st = .restoring → coresReady s = false →
     ∃ t, exec .restoreCreditTimeout s = .next t ∧ t.ch.st = .down ∧ t.ch.busy = false ∧ t.ch.result = 0x04 ∧ t.mem = s.mem)) ∧
  (∀ (core n : Nat) (hsnp : Bool) (s : State),
     coreHears s core = true ∨ (coreEarly s core = true ∧ s.tp.pwr ≠ .p3) →
     (s.ch.st = .down ∨ s.ch.st = .purging → exec (.coreCreditReturn core hsnp n) s = .next s) ∧
     (s.ch.st = .up ∨ s.ch.st = .restoring → (corePort s core).hsnpQ = [] → (corePort s core).hrspQ = [] → s.ch.queue = [] →
       ∃ t, exec (.coreCreditReturn core hsnp n) s = .next t ∧ t.mem = s.mem ∧ t.out = s.out ∧
         (corePort t core).hsnp = (corePort s core).hsnp + (if hsnp then n else 0) ∧
         (corePort t core).hrsp = (corePort s core).hrsp + (if hsnp then 0 else n) ∧
         (4 ≤ (corePort t core).hsnp → 4 ≤ (corePort t core).hrsp → core < 32 → t.ch.attached.getLsbD core = true)))

/-- A write of BAR0 by the PF that is not naturally aligned, of 4 or 8 bytes, or at an offset without a register
does nothing, and in the safe state one of any register but FC_VALID and FC_ERRN (R456, R484, R485). Writes of
five plain registers (SHARED_BASE, SHARED_LIMIT, FC_SRCSEL, HP_DIGEST_SEL and KT_WINDOW) read back in their
fields, with the reserved bits 0 (R487). A write of BAR0 by a VF changes no register; off the stream that its
TDI is bound to it is counted (R103, R488). In BAR4 the MSI-X table takes a write (its entry's address and its
mask are shown), and nothing outside it does. -/
def Obligations.RegisterWritesReadBack : Prop :=
  (∀ (port size : Nat) (stream : Option Nat) (off : BitVec 28) (v : Word) (bus : Bus) (s : State),
    (size ≠ 4 ∧ size ≠ 8) ∨ off.toNat % size ≠ 0 ∨
      (¬(0x18000 ≤ off.toNat ∧ off.toNat < 0x20000) ∧ regAt s ⟨port, 0⟩ [] off.toNat = none) ∨
      (s.fc.cls ≠ .run ∧ off.toNat ≠ 0x170008 ∧ off.toNat ≠ 0x170018) →
    exec (.registerWrite ⟨⟨port, 0⟩, false, stream⟩ off size v bus) s = .next s) ∧
  (∀ (port : Nat) (stream : Option Nat) (v : Word) (bus : Bus) (s : State), port < s.build.hostPorts.length → barOk s = true →
    (∃ t, exec (.registerWrite ⟨⟨port, 0⟩, false, stream⟩ 0x40020 8 v bus) s = .next t ∧
      readValue t ⟨port, 0⟩ [] 0x40020 8 = leBytes 8 (bits v 56 12 * 2 ^ 12) ∧ t.mem = s.mem ∧ t.out = s.out) ∧
    (∃ t, exec (.registerWrite ⟨⟨port, 0⟩, false, stream⟩ 0x40028 8 v bus) s = .next t ∧
      readValue t ⟨port, 0⟩ [] 0x40028 8 = leBytes 8 (bits v 57 12 * 2 ^ 12) ∧ t.mem = s.mem ∧ t.out = s.out) ∧
    (∃ t, exec (.registerWrite ⟨⟨port, 0⟩, false, stream⟩ 0x170020 4 v bus) s = .next t ∧
      readValue t ⟨port, 0⟩ [] 0x170020 4 = leBytes 4 (bits v 15 0) ∧ t.mem = s.mem ∧ t.out = s.out) ∧
    (∃ t, exec (.registerWrite ⟨⟨port, 0⟩, false, stream⟩ 0x10100 4 v bus) s = .next t ∧
      readValue t ⟨port, 0⟩ [] 0x10100 4 = leBytes 4 (bits v 7 0) ∧ t.mem = s.mem ∧ t.out = s.out) ∧
    (s.build.keySlices ≠ 0 → ∃ t, exec (.registerWrite ⟨⟨port, 0⟩, false, stream⟩ 0x80018 8 v bus) s = .next t ∧
      readValue t ⟨port, 0⟩ [] 0x80018 8 = leBytes 8 (bits v 19 0) ∧ t.mem = s.mem ∧ t.out = s.out)) ∧
  (∀ (port vf size : Nat) (stream : Option Nat) (off : BitVec 28) (v : Word) (bus : Bus) (s : State),
    fnExists s ⟨port, vf⟩ = true → s.tp.pwr ≠ .p3 → vf ≠ 0 →
    exec (.registerWrite ⟨⟨port, vf⟩, false, stream⟩ off size v bus) s =
      .next (if s.tp.ready = true ∧ ideOk s ⟨port, vf⟩ stream = false then dropOne s port false else s)) ∧
  (∀ (fn : Fn) (stream : Option Nat) (n : Nat) (v : Word) (bus : Bus) (s : State), fnExists s fn = true → s.tp.pwr ≠ .p3 →
    n < vectorsOf fn →
    (∃ t, exec (.registerWrite ⟨fn, true, stream⟩ (BitVec.ofNat 28 (msixBase fn + 16 * n)) 8 v bus) s = .next t ∧
      (Tab.get {} (fnState t fn).msix n).addr = v ∧ t.mem = s.mem) ∧
    (∃ t, exec (.registerWrite ⟨fn, true, stream⟩ (BitVec.ofNat 28 (msixBase fn + 16 * n + 12)) 4 v bus) s = .next t ∧
      (Tab.get {} (fnState t fn).msix n).masked = bit v 0 ∧ t.mem = s.mem)) ∧
  (∀ (fn : Fn) (stream : Option Nat) (off : BitVec 28) (size : Nat) (v : Word) (bus : Bus) (s : State),
    ¬(msixBase fn ≤ off.toNat ∧ off.toNat < msixBase fn + 16 * vectorsOf fn) →
    exec (.registerWrite ⟨fn, true, stream⟩ off size v bus) s = .next s)

/-- A window write within the object's bounds goes in at the aperture's base plus its offset (R81), or, in a
measured stream, at the cursor, which it advances while its bytes join the stream (R83); a sealed stream only
buffers it (R85). In a stream a write anywhere but at the cursor fails the aperture with ORDER, and its digest
is gone (R83). A poisoned write goes in as one in plain mode, with POISONED in ERR, and fails a stream (R82,
R83). One beyond the object's size is dropped with BOUNDS in plain mode, and fails a measured stream (R81,
R83). Once the last request of a window write is answered OK, its bytes are in memory and the port counts it as
committed (R80, R90). A page copy that memory lets run is written to its frame and puts its two leaves, and
then waits for the users of the old translations; sent again it ends once they have released them, and the
writes that waited for it go on (R231). -/
def Obligations.WindowWritesEnterAndCommit : Prop :=
  (∀ (fn : Fn) (stream : Option Nat) (off : BitVec 36) (data : List Byte) (bus : Bus) (n size : Nat) (p : BitVec 3)
     (s s' : State),
     WindowReaches s fn stream off.toNat n p → data ≠ [] → data.length ≤ mpsBytes s fn.port →
     apSize bus (aperture s fn.port n) s = .ok size s' →
     let a := aperture s fn.port n
     let w (at_ : Nat) (bad m : Bool) : WinWrite :=
       ⟨fn.port, fn.vf, n, a.ctx, p, BitVec.ofNat 32 (hIndex a.obj), at_, data, bad, m, .waitTable, none, [], 0⟩
     (a.mode = 0 → a.base.toNat * 64 + off.toNat % 2 ^ 28 + data.length ≤ size →
       exec (.windowWrite fn stream off data false bus) s =
         .next (wwEnter s bus (w (a.base.toNat * 64 + off.toNat % 2 ^ 28) false false))) ∧
     (a.mode = 0 → size < a.base.toNat * 64 + off.toNat % 2 ^ 28 + data.length →
       exec (.windowWrite fn stream off data false bus) s =
         .next (ingestNote (setApErr (dropOne s fn.port false) fn.port n aeBounds) fn.port a.ctx aeBounds)) ∧
     (∀ (k : Nat) (s'' : State), a.mode = 0 → apSize bus a (poisonTlp s fn.port a.ctx) = .ok k s'' →
       a.base.toNat * 64 + off.toNat % 2 ^ 28 + data.length ≤ k →
       exec (.windowWrite fn stream off data true bus) s =
         .next (wwEnter (setApErr (poisonTlp s fn.port a.ctx) fn.port n aePoisoned) bus
           (w (a.base.toNat * 64 + off.toNat % 2 ^ 28) true false))) ∧
     (a.mode ≠ 0 → off.toNat % 2 ^ 28 = a.cursor.toNat % 2 ^ 28 →
       exec (.windowWrite fn stream off data true bus) s = .next (failAp (poisonTlp s fn.port a.ctx) fn.port n aePoisoned)) ∧
     (a.mode = 1 → off.toNat % 2 ^ 28 = a.cursor.toNat % 2 ^ 28 → size < a.base.toNat * 64 + a.cursor.toNat + data.length →
       exec (.windowWrite fn stream off data false bus) s = .next (failAp s fn.port n aeBounds)) ∧
     (a.mode = 1 → off.toNat % 2 ^ 28 = a.cursor.toNat % 2 ^ 28 → a.base.toNat * 64 + a.cursor.toNat + data.length ≤ size →
       exec (.windowWrite fn stream off data false bus) s = .next (wwEnter (updAp s fn.port n fun a =>
         { a with cursor := a.cursor + BitVec.ofNat 48 data.length, stream := a.stream ++ data }) bus
         (w (a.base.toNat * 64 + a.cursor.toNat) false true))) ∧
     (a.mode = 2 → off.toNat % 2 ^ 28 = a.cursor.toNat % 2 ^ 28 →
       ∃ t, exec (.windowWrite fn stream off data false bus) s = .next t ∧ t.mem = s.mem ∧ t.gw = s.gw ∧
         (aperture t fn.port n).buf = a.buf ++ data ∧
         (aperture t fn.port n).cursor = a.cursor + BitVec.ofNat 48 data.length) ∧
     (a.mode ≠ 0 → off.toNat % 2 ^ 28 ≠ a.cursor.toNat % 2 ^ 28 →
       ∃ t, exec (.windowWrite fn stream off data false bus) s = .next t ∧ t.mem = s.mem ∧
         (aperture t fn.port n).st = .failed ∧ (aperture t fn.port n).err = aeOrder ∧
         (aperture t fn.port n).digestOk = false)) ∧
  ((∀ (ww tag : Nat) (w : WinWrite) (r : GwReq) (f : Nat) (s : State),
     s.wws = [(ww, w)] → w.st = .issued 1 [] → w.bad = none → w.ends = [] →
     (gwPort s (gwBase s.build 5 + w.port)).out = [(tag, r)] → r.owner = .window ww → r.poison = false → r.clean = none →
     (∀ i < r.data.length, Tab.find? s.mem.indet ((r.lo + i) / 8) = none) →
     ∃ t, exec (.windowWriteCommit ww .ok) s = .next t ∧ t.wws = [] ∧
       (hostPort t w.port).committed = (hostPort s w.port).committed + 1 ∧
       (gwPort t (gwBase s.build 5 + w.port)).out = [] ∧
       (∀ i < r.data.length, t.mem.byte f (r.lo + i) = r.data.getD i 0) ∧
       ∀ c, c < r.lo ∨ r.lo + r.data.length ≤ c → t.mem.byte f c = s.mem.byte f c) ∧
   (∀ (cow : Nat) (c : Cow) (bus : Bus) (s : State), Tab.find? s.cows cow = some c → runsWork s = true → c.waits = none →
     frameIssues s c.part c.src (clsBytes c.cls) = true → frameStatus bus c.src (clsBytes c.cls) true = none →
     frameWriteStatus bus c.dst (clsBytes c.cls) = none →
     exec (.copyOnWriteDone cow bus) s = .next
       (match cowLeaves bus c (cowCopy s bus c) with
        | .ok (.ok ws) s' => cowEnd { s' with cows := Tab.insert s'.cows cow { c with waits := some ws } } bus cow { c with waits := some ws }
        | .ok (.error kept) s' => failCow s' bus cow c kept
        | .error .wait s' => waitBack s s'
        | .error _ s' => failCow s' bus cow c false)) ∧
   (∀ (cow : Nat) (c : Cow) (ws : List InvWait) (bus : Bus) (s : State), Tab.find? s.cows cow = some c → runsWork s = true →
     c.waits = some ws →
     exec (.copyOnWriteDone cow bus) s = .next (if ws.any (waitHolds s) then s
       else runAct (cowCount bus c) s
         (fun s _ => each (fun s w => wwAdvance s bus w) { s with cows := Tab.erase s.cows cow }
           ((s.wws.filter fun e => decide (e.2.st = .waitCopy cow)).map (·.1)))
         (fun s _ => s))))

/-- A sealed record is taken from the front of the buffer and counted (R85, R87, R88): with a good tag its
plaintext enters as a write at its offset from the aperture's base, and a final record only ends the stream's
writes, with what follows it dropped (R499); with a bad tag the aperture fails with TAG, and nothing of it is
written. The last write ended, a final record closes the stream, and a measured one takes a record with the
digest of its plaintext (R84, R428). -/
def Obligations.SealedRecordsAreOpened : Prop :=
  (∀ (port ap size : Nat) (bus : Bus) (x : Secret) (s s' : State),
    let a := aperture s port ap
    let len := leAt (a.buf.take 32) 4 4
    a.en = true → a.mode = 2 → a.st = .opened → 32 ≤ a.buf.length → a.final = false → runsWork s = true →
    apSize bus a s = .ok size s' → recError a (a.buf.take 32) size = none → len + 64 ≤ a.buf.length →
    leAt a.buf (len + 48) 16 = 0 → ctxSecretOf s a.ctx = some x →
    (recTagOk s a = true → byteAt (a.buf.take 32) 0 = 2 →
      ∃ t, exec (.sealedRecord port ap bus) s = .next t ∧ (aperture t port ap).final = true ∧
        (aperture t port ap).seq = a.seq + 1 ∧ (aperture t port ap).buf = [] ∧ t.mem = s.mem ∧
        ∀ e ∈ t.wws, e ∈ s.wws ∧ ¬(e.2.port = port ∧ e.2.ap = ap ∧ e.2.st = .buffered)) ∧
    (recTagOk s a = true → byteAt (a.buf.take 32) 0 = 1 →
      exec (.sealedRecord port ap bus) s = .next (wwEnter (updAp s port ap fun b => { b with
          buf := a.buf.drop (len + 64), pos := a.pos + len + 64, seq := a.seq + 1, final := false
          stream := if a.meas then a.stream ++ padTo len (gcmPlain (ctxKey x labelIngest) (recNonce (a.buf.take 32))
            ((a.buf.drop 32).take len)) else a.stream }) bus
        ⟨port, a.owner.toNat, ap, a.ctx, (ctxPart s a.ctx).getD 0, BitVec.ofNat 32 (hIndex a.obj),
          a.base.toNat * 64 + leAt (a.buf.take 32) 24 8,
          padTo len (gcmPlain (ctxKey x labelIngest) (recNonce (a.buf.take 32)) ((a.buf.drop 32).take len)), false,
          a.meas, .waitTable, none,
          (s.wws.filter fun e => decide (e.2.port = port ∧ e.2.ap = ap ∧ e.2.st = .buffered ∧ e.2.endPos ≤ a.pos + len + 64)).map (·.1),
          0⟩)) ∧
    (recTagOk s a = false → exec (.sealedRecord port ap bus) s = .next (ingestNote (failAp s port ap aeTag) port a.ctx aeTag))) ∧
  (∀ (port ap : Nat) (s : State), (aperture s port ap).final = true → (aperture s port ap).mode = 2 →
    (aperture s port ap).st = .opened → apBusy s port ap = false → runsWork s = true →
    ∃ t, exec (.sealedFinalClose port ap) s = .next t ∧ (aperture t port ap).st = .closed ∧ t.mem = s.mem ∧
      (s.ps.log.length < 4096 → t.ps.log = s.ps.log ++ (if (aperture s port ap).meas then
        [⟨(ctxPart s (aperture s port ap).ctx).getD 0, (aperture s port ap).obj, BitVec.ofNat 48 (aperture s port ap).stream.length,
          (aperture s port ap).ctx, 2, sha384 (aperture s port ap).stream⟩] else [])))

/-- An aperture is enabled by a write that passes the checks of R76, with its cursor, sequence and stream cleared;
a refused one leaves EN clear and names ENABLE. A write that clears EN disables a plain aperture and abandons
an open stream (R78). CLOSE of a measured stream takes its digest once every write has ended, with one record
in the log (R84); CLOSE of a sealed stream abandons it (R88). -/
def Obligations.AperturesOpenAndClose : Prop :=
  (∀ (port ap : Nat) (v : Word) (bus : Bus) (s s' : State), barOk s = true → apExists s port ap = true →
    (aperture s port ap).en = false → bit v 0 = true →
    tdiFrozen s port (aperture s port ap).owner.toNat = false → tdiFrozen s port (bits v 15 8) = false →
    enableAct bus port ap (apFields (aperture s port ap) v) (updAp s port ap fun _ => apFields (aperture s port ap) v) = .ok () s' →
    ∃ t, exec (.apertureEnable port ap v bus) s = .next t ∧ (aperture t port ap).en = true ∧
      (aperture t port ap).st = .opened ∧ (aperture t port ap).cursor = 0 ∧ (aperture t port ap).seq = 0 ∧
      (aperture t port ap).stream = [] ∧ t.mem = s'.mem) ∧
  (∀ (port ap : Nat) (v : Word) (bus : Bus) (d : BitVec 32) (s s' : State), barOk s = true → apExists s port ap = true →
    (aperture s port ap).en = false → bit v 0 = true →
    tdiFrozen s port (aperture s port ap).owner.toNat = false → tdiFrozen s port (bits v 15 8) = false →
    enableAct bus port ap (apFields (aperture s port ap) v) (updAp s port ap fun _ => apFields (aperture s port ap) v) =
      .error (.ended aeEnable d) s' →
    ∃ t, exec (.apertureEnable port ap v bus) s = .next t ∧ (aperture t port ap).en = false ∧
      (aperture t port ap).err = aeEnable) ∧
  (∀ (port ap : Nat) (v : Word) (s : State), barOk s = true → apExists s port ap = true →
    (aperture s port ap).en = true → (aperture s port ap).closing = false → bit v 0 = false → bit v 5 = false →
    tdiFrozen s port (aperture s port ap).owner.toNat = false →
    ∃ t, exec (.apertureDisable port ap v) s = .next t ∧ (aperture t port ap).en = false ∧
      ((aperture s port ap).mode ≠ 0 → (aperture s port ap).st = .opened →
        (aperture t port ap).st = .failed ∧ (aperture t port ap).err = aeAbandoned) ∧ t.mem = s.mem) ∧
  (∀ (port ap : Nat) (v : Word) (s : State), barOk s = true → apExists s port ap = true →
    (aperture s port ap).en = true → (aperture s port ap).mode = 1 → (aperture s port ap).st = .opened → bit v 5 = true →
    bit v 0 = true → tdiFrozen s port (aperture s port ap).owner.toNat = false →
    exec (.close port ap v) s = .next (updAp s port ap fun a => { a with closing := true })) ∧
  (∀ (port ap : Nat) (v : Word) (s : State), barOk s = true → apExists s port ap = true →
    (aperture s port ap).en = true → (aperture s port ap).mode = 2 → bit v 5 = true →
    bit v 0 = true → tdiFrozen s port (aperture s port ap).owner.toNat = false →
    exec (.close port ap v) s = .next (failAp s port ap aeAbandoned)) ∧
  (∀ (port ap : Nat) (s : State), (aperture s port ap).closing = true → (aperture s port ap).st = .opened →
    apBusy s port ap = false → runsWork s = true →
    ∃ t, exec (.measuredCloseDone port ap) s = .next t ∧
      (aperture t port ap).st = (if (aperture s port ap).clearEn = true then .idle else .closed) ∧ (aperture t port ap).digestOk = true ∧
      (aperture t port ap).digest = sha384 (aperture s port ap).stream ∧
      (aperture t port ap).en = (!(aperture s port ap).clearEn) ∧ (aperture t port ap).closing = false ∧
      (s.ps.log.length < 4096 → t.ps.log = s.ps.log ++ [⟨(ctxPart s (aperture s port ap).ctx).getD 0, (aperture s port ap).obj,
        (aperture s port ap).cursor, (aperture s port ap).ctx, 1, sha384 (aperture s port ap).stream⟩]))

/-- A read of HP_INGEST_SYNC by a host or a near core is answered once no window write that its port took before it
is left, with the port's count of committed writes (R91), and a host's read before READY reads 0 (R465); a
context-map entry takes a context of the VF's own partition only (R75); a read of the window is refused with
UR, reported from READY on (R74, R106). -/
def Obligations.IngestReadsAndMaps : Prop :=
  (∀ (fn : Fn) (tag : Nat) (s : State), fnExists s fn = true → s.tp.pwr ≠ .p3 → s.tp.ready = true →
    exec (.ingestSyncRead fn tag) s = .next (updHost s fn.port fun h => { h with syncs := h.syncs ++ [⟨fn, tag, s.nextId, none⟩] })) ∧
  (∀ (fn : Fn) (tag : Nat) (s : State), fnExists s fn = true → s.tp.pwr ≠ .p3 → s.tp.ready = false →
    exec (.ingestSyncRead fn tag) s = .next (emit s (.readDone fn tag 0))) ∧
  (∀ (port tag : Nat) (r : SyncRead) (s : State),
    List.find? (fun r => decide (r.tag = tag)) (hostPort s port).syncs = some r →
    (∀ e ∈ s.wws, e.1 < r.before → e.2.port ≠ port) →
    exec (.ingestSyncDone port tag) s = .next (
      let u := updHost s port fun h => { h with syncs := h.syncs.filter fun x => !decide (x = r) }
      match r.core with
      | none => emit u (.readDone r.fn tag (hostPort s port).committed)
      | some (core, txn, lo, n) => respondFree u core
          { opc := 1, id := txn.toNat, data := ((leBytes 8 (hostPort s port).committed.toNat).drop lo).take n })) ∧
  (∀ (port tag : Nat) (r : SyncRead) (e : Nat × WinWrite) (s : State),
    List.find? (fun r => decide (r.tag = tag)) (hostPort s port).syncs = some r →
    e ∈ s.wws → e.1 < r.before → e.2.port = port → exec (.ingestSyncDone port tag) s = .next s) ∧
  (∀ (port vf entry : Nat) (v : BitVec 16) (s : State), barOk s = true → fnExists s ⟨port, vf⟩ = true → vf ≠ 0 → entry < 64 →
    tdiFrozen s port vf = false →
    ∃ t, exec (.vfCtxmapWrite port vf entry v) s = .next t ∧
      (Tab.get {} (hostPort t port).ctxMap (vf * 64 + entry)).ctx = v.setWidth 12 ∧
      ((Tab.get {} (hostPort t port).ctxMap (vf * 64 + entry)).valid = true →
        ctxPart s (v.setWidth 12) = fnPart s ⟨port, vf⟩ ∧ ctxPart s (v.setWidth 12) ≠ none) ∧
      (ctxPart s (v.setWidth 12) ≠ none → ctxPart s (v.setWidth 12) = fnPart s ⟨port, vf⟩ → v.getLsbD 15 = true →
        (Tab.get {} (hostPort t port).ctxMap (vf * 64 + entry)).valid = true)) ∧
  (∀ (fn : Fn) (s : State), fnExists s fn = true → s.tp.pwr ≠ .p3 →
    exec (.bar2Read fn) s = .next (if s.tp.ready = true
      then noteDropped (emit (emit s (.readUr fn)) (.aer fn.port .unsupported)) fn.port (fnPart s fn)
      else emit s (.readUr fn)))

/-- A doorbell sets TAIL, CQ_HEAD or SRET_HEAD of its queue (R121, R123), and the completions that the new head
makes room for go on; a TAIL outside the ring parks the queue (R123), one equal to HEAD has no effect (R122),
and SRET_HEAD has one in page 0 only. While the near cores of its queue are away it is only recorded (R126).
While a window write of its port has not ended, or an earlier doorbell waits, it waits behind it, and the
waiting doorbells pass in order, each once its own fence clears (R90). -/
def Obligations.DoorbellsSetTheirField : Prop :=
  (∀ (fn : Fn) (stream : Option Nat) (page : Nat) (v : BitVec 32) (c : BitVec 12) (q : Nat) (p : BitVec 3) (s : State),
    DoorbellReaches s fn stream page c q p → portBusy s fn.port s.nextId = false → (hostPort s fn.port).fenced = [] →
    coresAway s (queueOf s c q) = false →
    (v.toNat % 65536 < 2 ^ (queueOf s c q).desc.ringLog2.toNat → (queueOf s c q).head.toNat ≠ v.toNat % 65536 →
      ∃ t, exec (.doorbellTail fn stream page v) s = .next t ∧ (queueOf t c q).tail.toNat = v.toNat % 65536 ∧
        (queueOf t c q).parked = false ∧ t.mem = s.mem ∧ t.out = s.out) ∧
    (v.toNat % 65536 < 2 ^ (queueOf s c q).desc.ringLog2.toNat → (queueOf s c q).head.toNat = v.toNat % 65536 →
      exec (.doorbellTail fn stream page v) s = .next s) ∧
    (2 ^ (queueOf s c q).desc.ringLog2.toNat ≤ v.toNat % 65536 →
      exec (.doorbellTail fn stream page v) s = .next (parkQueue s c q)) ∧
    exec (.doorbellCqHead fn stream page v) s = .next (compFlow
      (updQueue s c q fun y => { y with cqHead := BitVec.ofNat 16 (v.toNat % 65536) }) [] c q) ∧
    (q = 0 → exec (.doorbellSretHead fn stream page v) s = .next (each (fun s i => compFlow s [] c i)
      (updCtx s c fun x => { x with sretHead := v }) (List.range 8))) ∧
    (q ≠ 0 → exec (.doorbellSretHead fn stream page v) s = .next s)) ∧
  (∀ (fn : Fn) (stream : Option Nat) (page : Nat) (v : BitVec 32) (c : BitVec 12) (q : Nat) (p : BitVec 3) (s : State),
    DoorbellReaches s fn stream page c q p → portBusy s fn.port s.nextId = false → (hostPort s fn.port).fenced = [] →
    coresAway s (queueOf s c q) = true →
    let late (f : DbField) : State := updQueue s c q fun y => { y with late := y.late ++ [(f, v)] }
    exec (.doorbellTail fn stream page v) s = .next (late .tail) ∧
    exec (.doorbellCqHead fn stream page v) s = .next (late .cqHead) ∧
    exec (.doorbellSretHead fn stream page v) s = .next (late .sretHead)) ∧
  (∀ (fn : Fn) (stream : Option Nat) (page : Nat) (v : BitVec 32) (c : BitVec 12) (q : Nat) (p : BitVec 3) (s : State),
    DoorbellReaches s fn stream page c q p →
    (portBusy s fn.port s.nextId = true ∨ (hostPort s fn.port).fenced ≠ []) →
    let fence (f : DbField) : State := updHost s fn.port fun h => { h with fenced := h.fenced ++ [⟨c, q, f, v, s.nextId⟩] }
    exec (.doorbellTail fn stream page v) s = .next (fence .tail) ∧
    exec (.doorbellCqHead fn stream page v) s = .next (fence .cqHead) ∧
    exec (.doorbellSretHead fn stream page v) s = .next (fence .sretHead)) ∧
  (∀ (port : Nat) (d : FencedDb) (l : List FencedDb) (bus : Bus) (s : State), (hostPort s port).fenced = d :: l →
    portBusy s port d.before = false →
    exec (.doorbellFenceClear port bus) s = .next (fencePass bus port l.length
      (dbArrive (updHost s port fun h => { h with fenced := l }) bus port d.ctx d.q d.fld d.value))) ∧
  (∀ (port : Nat) (d : FencedDb) (l : List FencedDb) (bus : Bus) (s : State), (hostPort s port).fenced = d :: l →
    portBusy s port d.before = true → exec (.doorbellFenceClear port bus) s = .next s)

/-- A context that loads takes a slot of its partition, evicting the context that R118 names where none is free,
and its queues are read (R117); with no slot to take it goes on waiting. A ring read takes a command that is
visible and moves HEAD past it (R122), and backs off from one that is not: 0.25 µs, doubling up to 2 µs (R124);
held at a fault slot it waits there, and while the near cores of its queue are away it consumes nothing (R126).
The re-read comes when the delay is over; doorbell patience parks the queue and counts in DB_PARKS (R124). -/
def Obligations.RingReadsAndLoads : Prop :=
  (∀ (c : BitVec 12) (k : Nat) (bus : Bus) (victim : Option Nat) (s s' : State), (ctxOf s c).loading = true →
    runsWork s = true → (ctxOf s c).st = .enabled ∨ (ctxOf s c).st = .faulted →
    loadSlot s (ctxOf s c).part = some (k, victim) → homeReady s (ctxAddr s c) 512 false none bus = (s', true) →
    exec (.contextLoadDone c bus) s = .next (loadEntry (freeSlot s' bus victim) bus c k)) ∧
  (∀ (c : BitVec 12) (bus : Bus) (s : State), (ctxOf s c).loading = true → runsWork s = true →
    (ctxOf s c).st = .enabled ∨ (ctxOf s c).st = .faulted → loadSlot s (ctxOf s c).part = none →
    exec (.contextLoadDone c bus) s = .next s) ∧
  (∀ (c : BitVec 12) (k : Nat) (bus : Bus) (s : State), (homeRead (loadVia s c) bus s (ctxAddr s c) 512).2.1 = .ok →
    let d := homeRead (loadVia s c) bus s (ctxAddr s c) 512
    loadEntry s bus c k = kickAll (updCtx d.1 c fun x => loadedCtx x d.2.2 k) c ∧
    (loadedCtx (ctxOf s c) d.2.2 k).slot = some k ∧ (loadedCtx (ctxOf s c) d.2.2 k).loading = false) ∧
  (∀ (c : BitVec 12) (q : Nat) (bus : Bus) (s s' : State), (queueOf s c q).reading = true → runsWork s = true →
    coresAway s (queueOf s c q) = false →
    (queueOf s c q).head ≠ (queueOf s c q).tail → readCommand bus c q s = .ok none s' →
    exec (.ringReadResponse c q bus) s = .next (backOff s' c q)) ∧
  (∀ (c : BitVec 12) (q : Nat) (bus : Bus) (r : RawCmd) (s s' : State), (queueOf s c q).reading = true →
    runsWork s = true → coresAway s (queueOf s c q) = false →
    (queueOf s c q).head ≠ (queueOf s c q).tail → readCommand bus c q s = .ok (some r) s' →
    (queueOf s' c q).tail = r.after →
    ∃ t, exec (.ringReadResponse c q bus) s = .next t ∧ (queueOf t c q).ready = (queueOf s' c q).ready ++ [r] ∧
      (queueOf t c q).head = r.after ∧ (queueOf t c q).reading = false ∧ t.mem = s'.mem) ∧
  (∀ (c : BitVec 12) (q k : Nat) (bus : Bus) (s s' : State), (queueOf s c q).reading = true →
    runsWork s = true → coresAway s (queueOf s c q) = false →
    (queueOf s c q).head ≠ (queueOf s c q).tail → readCommand bus c q s = .error (.held k) s' →
    exec (.ringReadResponse c q bus) s = .next (updQueue s' c q fun y => { y with reading := false, held := some k })) ∧
  (∀ (c : BitVec 12) (q : Nat) (bus : Bus) (s : State), (queueOf s c q).reading = true → runsWork s = true →
    coresAway s (queueOf s c q) = true →
    exec (.ringReadResponse c q bus) s = .next (updQueue s c q fun y => { y with reading := false, dbPend := true })) ∧
  (∀ (c : BitVec 12) (q : Nat) (s : State),
    (queueOf (backOff s c q) c q).backoff = some (match (queueOf s c q).backoff with
      | none => (250, s.tick + 250)
      | some (d, _) => (min (2 * d) 2000, s.tick + min (2 * d) 2000))) ∧
  (∀ (c : BitVec 12) (q d due : Nat) (s : State), (queueOf s c q).backoff = some (d, due) → (queueOf s c q).parked = false →
    runsWork s = true → coresAway s (queueOf s c q) = false →
    ∃ t, exec (.dbBackoffReread c q) s = .next t ∧ due ≤ t.tick ∧ (queueOf t c q).reading = true ∧ t.mem = s.mem) ∧
  (∀ (c : BitVec 12) (q : Nat) (s : State), (queueOf s c q).backoff.isSome = true → (queueOf s c q).parked = false →
    runsWork s = true →
    exec (.dbPatienceExpire c q) s = .next (parkQueue (reach s ((queueOf s c q).firstBad + s.qe.patience.toNat * 1000)) c q) ∧
    parkQueue s c q = note (updCtx (updQueue s c q fun y => { y with parked := true, reading := false, backoff := none }) c
      fun x => { x with dbParks := x.dbParks + 1 })
      { source := srcId 3 0 1, ctx := some c, part := some (ctxOf s c).part })

/-- DISPATCH takes the next command of the queue that its turn names (R127): it leaves the ring's front, counts in
COMMANDS and stands under a new number. A NOP passes every check and stands dispatched; a command that fails a
check of its entries alone (R134) ends with that check's status; one whose dispatch needs a line that a near
core holds waits for it. With no eligible queue nothing happens. The queue engine's own commands end OK once
their effect has happened: NOP at once, WRITE_PIPS when its bytes are written, SIGNAL when its event is, a WAIT
when the event has reached its value, FLUSH when the ports that its queue, or with ALL its context's queues,
wrote are its own (R135, R136, R148, R149). A WRITE_PIPS that stops keeps the bytes it has written in PROGRESS.
A WAIT that is not satisfied stays pending until it is, or until its limit, when it ends by the value that the
event then has; a FLUSH with ALL waits for every earlier command of its context. -/
def Obligations.DispatchAndEngineCommands : Prop :=
  ((∀ (bus : Bus) (e : Nat × Nat) (r : RawCmd) (s s' : State), runsWork s = true → draining s = false →
     pickQueue s 0 = (s', some e) → nextOf s' (qidCtx e.1) (e.1 % 8) = some r →
     (r.opcode = opNop → entryFails s'.build r = none →
       ∃ t c, exec (.dispatch bus) s = .next t ∧ cmdOf t s'.nextId = some c ∧ c.raw = r ∧ c.phase = .dispatched ∧
         c.ctx = qidCtx e.1 ∧ c.q = e.1 % 8 ∧
         (queueOf t (qidCtx e.1) (e.1 % 8)).ready = (queueOf s' (qidCtx e.1) (e.1 % 8)).ready.tail ∧
         (ctxOf t (qidCtx e.1)).commands = (ctxOf s' (qidCtx e.1)).commands + 1) ∧
     (∀ st, entryFails s'.build r = some st →
       ∃ t c, exec (.dispatch bus) s = .next (endCmd t s'.nextId st 0) ∧ cmdOf t s'.nextId = some c ∧ c.raw = r ∧
         c.phase = .dispatched) ∧
     (∀ w, dispatchWaits s' bus (qidCtx e.1) (e.1 % 8) r = some w → exec (.dispatch bus) s = .next w) ∧
     (dispatchWaits s' bus (qidCtx e.1) (e.1 % 8) r = none →
       exec (.dispatch bus) s = .next (dispatchFrom s' bus (qidCtx e.1) (e.1 % 8) r))) ∧
   (∀ (bus : Bus) (s : State), runsWork s = true → (∀ cls < 4, (pickQueue s cls).2 = none) →
     exec (.dispatch bus) s = .next s)) ∧
  ((∀ (id : Nat) (c : Cmd) (s : State), Dispatched s id opNop c →
     ∃ t x, exec (.nop id) s = .next t ∧ cmdOf t id = some x ∧ x.phase = .finished ∧ x.status = stOk ∧
       t.mem = s.mem ∧ t.out = s.out ∧ t.qe.ctxs = s.qe.ctxs ∧ t.fc = s.fc) ∧
   (∀ (id n : Nat) (c : Cmd) (bus : Bus) (e : Option Stop) (s s' : State), Dispatched s id opWritePips c →
     vaWrite s bus (cmdReq id c .engine (c.raw.w 1 + BitVec.ofNat 64 c.progress) .write)
       ((c.raw.pips.take (bits (c.raw.w 2) 15 0)).drop c.progress) true (engineVia c.part) = (s', n, e) →
     (e = none → exec (.writePips id bus) s = .next (endCmd (setProgress s' id (c.progress + n)) id stOk 0)) ∧
     (∀ k, e = some k → k ≠ .wait →
       exec (.writePips id bus) s = .next (stopCmd id (setProgress s' id (c.progress + n)) k))) ∧
   (∀ (id : Nat) (c : Cmd) (bus : Bus) (o : Obj) (s s1 s2 : State), Dispatched s id opSignal c →
     objGet bus (hIndex (c.raw.w 1)) s = .ok o s1 →
     signalEvent bus o (c.raw.w 1) (c.raw.w 2) c.ctx (cmdReq id c .engine 0 .atomic) s1 = .ok () s2 →
     exec (.signal id bus) s = .next (endCmd s2 id stOk 0)) ∧
   (∀ (id v : Nat) (c : Cmd) (bus : Bus) (o : Obj) (t : Nat × Word × Nat) (s s1 s2 s3 : State), Dispatched s id opWait c →
     objGet bus (hIndex (c.raw.w 1)) s = .ok o s1 →
     trAct bus { cmdReq id c .engine (BitVec.ofNat 64 o.va) .read with ctx := o.ctx } s1 = .ok t s2 →
     eventValue bus o.part id t.1 s2 = .ok v s3 →
     exec (.wait id bus) s = .next (if (c.raw.w 2).toNat ≤ v then endCmd s3 id stOk 0
       else updCmd s3 id fun x => { x with
         phase := .running
         work := .waiting (t.1 / 64) t.1 (x.raw.w 2)
           (if bits (c.raw.w 3) 31 0 = 0 then none else some (s3.tick + bits (c.raw.w 3) 31 0 * 1000)) })) ∧
   (∀ (id l a v : Nat) (target : Word) (lim : Option Nat) (c : Cmd) (bus : Bus) (s s' : State), runsWork s = true →
     s.qe.sigs = [] → s.qe.cmds = [(id, c)] → s.mv.chans = [] → c.phase = .running → c.work = .waiting l a target lim →
     eventValue bus c.part id a s = .ok v s' → s'.mv.chans = [] →
     exec (.waitEvaluate bus) s =
       .next (if target.toNat ≤ v then startLoad (endCmd s' id stOk 0) c.ctx else s')) ∧
   (∀ (id l a n v : Nat) (target : Word) (c : Cmd) (s s' : State), runsWork s = true → cmdOf s id = some c →
     c.phase = .running → c.work = .waiting l a target (some n) → eventValue [] c.part id a (reach s n) = .ok v s' →
     exec (.waitTimeout id) s = .next (if target.toNat ≤ v then startLoad (endCmd s' id stOk 0) c.ctx
       else endCmd s' id stTimeout 0)) ∧
   (∀ (id : Nat) (c : Cmd) (s : State), Dispatched s id opFlush c → bit (c.raw.w 1) 0 = false →
     exec (.flush id) s = .next (endCmd (takeDirty s id c.ctx [c.q]) id stOk 0)) ∧
   (∀ (id : Nat) (c : Cmd) (s : State), Dispatched s id opFlush c → bit (c.raw.w 1) 0 = true →
     exec (.flush id) s = .next (if earlierLeft s c.ctx id = true then s
       else endCmd (takeDirty s id c.ctx (List.range 8)) id stOk 0)))

/-- COMMAND_END sends a flush read for a host port that the command's completion must follow, or shares one in
flight that covers the same writes (R94, R95), or completes the command at once; sent again for a command that
has completed, it writes the records that wait. The answered read completes the command (R94); one that fails
or times out is reported and ends each completion it covers (R96). A vector that is unmasked sends its pending
message (R102), and a full ring that has waited 1 ms posts a NOTE (R100, R152). -/
def Obligations.CommandsCompleteBehindTheirFlush : Prop :=
  (∀ (id : Nat) (c : Cmd) (bus : Bus) (s : State), cmdOf s id = some c → c.phase = .finished → runsWork s = true →
    c.pins = [] → c.vpin = none → c.ports = [] → c.raw.cr = true → (ctxOf s c.ctx).sret = false →
    (queueOf s c.ctx c.q).comps = [] → compRoom (queueOf s c.ctx c.q) = true → (queueOf s c.ctx c.q).cqHeld = none →
    (queueOf s c.ctx c.q).desc.cqHost = true → fnIssues s (ctxFn s c.ctx) = true →
    ∃ t, exec (.commandEnd id bus) s = .next (pumpDirs t bus) ∧ cmdOf t id = none ∧ t.mem = s.mem ∧
      (queueOf t c.ctx c.q).comps = [] ∧
      (queueOf t c.ctx c.q).cqTail =
        BitVec.ofNat 16 (((queueOf s c.ctx c.q).cqTail.toNat + 1) % 2 ^ (queueOf s c.ctx c.q).desc.cqLog2.toNat) ∧
      .hostWrite (ctxFn s c.ctx).port (ctxFn s c.ctx).vf .completion
        ((queueOf s c.ctx c.q).desc.cqAddr + BitVec.ofNat 64 (32 * (queueOf s c.ctx c.q).cqTail.toNat))
        (compBytes c.ctx c.q ⟨id, c.raw.user, BitVec.ofNat 8 c.raw.opcode, c.status, reportedProgress c, c.raw.after,
          c.detail, c.raw.irq, s.tick, s.epoch⟩ (queueOf s c.ctx c.q).cqPhase) (ctxPasid s c.ctx) false false ∈ t.out) ∧
  (∀ (id port : Nat) (a : Word) (c : Cmd) (bus : Bus) (s : State), cmdOf s id = some c → c.phase = .finished →
    runsWork s = true → c.pins = [] → c.vpin = none → c.ports = [(port, a)] → c.raw.cr = true → (ctxOf s c.ctx).sret = false →
    fnIssues s (ctxFn s c.ctx) = true →
    (flushShared s c.ctx port = none →
      ∃ t x, exec (.commandEnd id bus) s = .next (pumpDirs t bus) ∧ cmdOf t id = some x ∧ x.phase = .flushing [s.nextId] ∧
        Tab.find? (hostPort t port).flushes s.nextId =
          some ⟨a, ctxFn s c.ctx, ctxPasid s c.ctx, (hostPort s port).sent, s.tick, [.cmd id]⟩ ∧ t.mem = s.mem ∧
        .flushRead port (ctxFn s c.ctx).vf s.nextId a (ctxPasid s c.ctx) ∈ t.out) ∧
    (∀ k f, flushShared s c.ctx port = some k → Tab.find? (hostPort s port).flushes k = some f →
      ∃ t x, exec (.commandEnd id bus) s = .next (pumpDirs t bus) ∧ cmdOf t id = some x ∧ x.phase = .flushing [k] ∧
        Tab.find? (hostPort t port).flushes k = some { f with covers := f.covers ++ [.cmd id] } ∧ t.mem = s.mem ∧
        t.out = s.out)) ∧
  (∀ (id : Nat) (bus : Bus) (s : State), cmdOf s id = none → runsWork s = true →
    exec (.commandEnd id bus) s = .next (each (fun s e => compFlow s bus e.1 e.2) s (recordQueues s id))) ∧
  (∀ (port fl id : Nat) (f : Flush) (c : Cmd) (bus : Bus) (s : State),
    Tab.find? (hostPort s port).flushes fl = some f → f.covers = [.cmd id] → cmdOf s id = some c →
    c.phase = .flushing [fl] → c.raw.cr = false →
    ∃ t, exec (.flushReadCompletion port fl .ok bus) s = .next t ∧ cmdOf t id = none ∧
      Tab.find? (hostPort t port).flushes fl = none) ∧
  (∀ (port fl : Nat) (f : Flush) (bus : Bus) (s : State), Tab.find? (hostPort s port).flushes fl = some f →
    exec (.flushReadCompletion port fl .ur bus) s =
      .next (flushOver (emit (flushNote s port fl 2) (.aer port .flushUr)) bus port fl false) ∧
    exec (.flushReadCompletion port fl .ca bus) s =
      .next (flushOver (emit (flushNote s port fl 2) (.aer port .flushCa)) bus port fl false) ∧
    exec (.flushReadTimeout port fl bus) s = .next (flushOver (emit (flushNote
      (reach s (f.tick + 1000 * (fnState s f.fn).cto)) port fl 3) (.aer port .completionTimeout)) bus port fl false)) ∧
  (∀ (port fl : Nat) (f : Flush) (bus : Bus) (ok : Bool) (s : State), Tab.find? (hostPort s port).flushes fl = some f →
    flushOver s bus port fl ok = each (fun s c => coverOver s bus fl ok c)
      (updHost s port fun h => { h with flushes := Tab.erase h.flushes fl }) f.covers) ∧
  (∀ (fn : Fn) (v : Nat) (s : State), fnExists s fn = true → v < (if fn.vf = 0 then 2048 else 64) →
    ∃ t, exec (.msiXUnmask fn v) s = .next t ∧ (Tab.get {} (fnState t fn).msix v).masked = false ∧ t.mem = s.mem ∧
      ((Tab.get {} (fnState s fn).msix v).pending = true → msixOff s fn = false → s.fc.cls = .run →
        .msix (Tab.get {} (fnState s fn).msix v).via fn v (Tab.get {} (fnState s fn).msix v).addr
          (Tab.get {} (fnState s fn).msix v).data ∈ t.out ∧ (Tab.get {} (fnState t fn).msix v).pending = false)) ∧
  (∀ (c : BitVec 12) (q : Nat) (s : State), runsWork s = true → (ctxOf s c).sret = false → (queueOf s c q).comps ≠ [] →
    compRoom (queueOf s c q) = false →
    exec (.completionRingFullNote c q) s = .next (note s
      { source := srcId 3 0 2, ctx := some c, part := some (ctxOf s c).part, queue := queueId c q })) ∧
  (∀ (c : BitVec 12) (s : State), runsWork s = true → (ctxOf s c).sret = true →
    ((∃ q < 8, (queueOf s c q).comps ≠ []) ∧ bounceFree (ctxOf s c) < 2 ∨
      ∃ e ∈ s.mv.chans, ∃ r n, e.2.run = some r ∧ r.ctx = c ∧ runWants r = some n ∧ bounceFree (ctxOf s c) < n) →
    exec (.bounceRingFullNote c) s = .next (note s
      { source := srcId 3 0 2, ctx := some c, part := some (ctxOf s c).part, queue := 0x7FFF }))

/-- Context operations (R114, R115, R116). ENABLE of a DISABLED context with a good entry leaves it ENABLED; of
another it answers STATE and changes no context. DISABLE marks an ENABLED context as ending and unpins it.
RESUME makes a FAULTED context ENABLED. ABORT ends the commands, the tiles and the held faults of an ENABLED or
FAULTED context; where it has neither command, tile in transfer nor held fault, it reads ABORTING at once. PIN
and UNPIN of an ENABLED context pin and unpin it. Each answers OK in QE_CTX_OP. A context that is being
disabled or aborted and has nothing left in the machine is written back and reads DISABLED, with nothing of it
kept outside its entry (R113, R115, R116). -/
def Obligations.ContextOperationsAnswer : Prop :=
  ((∀ (c : BitVec 12) (s s' : State), barOk s = true → s.qe.ctxOp.busy = false → (ctxOf s c).st = .disabled →
     homeReady { s with qe := { s.qe with ctxOpCtx := c } } (ctxAddr s c) 512 false none [] =
       ({ s with qe := { s.qe with ctxOpCtx := c } }, true) →
     (homeRead (sysVia s (ctxAddr s c)) [] { s with qe := { s.qe with ctxOpCtx := c } } (ctxAddr s c) 512).2.1 = .ok →
     enableFrom (homeRead (sysVia s (ctxAddr s c)) [] { s with qe := { s.qe with ctxOpCtx := c } } (ctxAddr s c) 512).1 c
       (homeRead (sysVia s (ctxAddr s c)) [] { s with qe := { s.qe with ctxOpCtx := c } } (ctxAddr s c) 512).2.2 = (s', rOk) →
     ∃ t, exec (.ctxEnable c []) s = .next t ∧ (ctxOf t c).st = .enabled ∧ t.qe.ctxOp = .done rOk) ∧
   (∀ (c : BitVec 12) (s : State), barOk s = true → s.qe.ctxOp.busy = false → (ctxOf s c).st = .enabled →
     (ctxOf s c).disabling = false →
     ∃ t, exec (.ctxDisable c) s = .next t ∧ (ctxOf t c).disabling = true ∧ (ctxOf t c).pinned = false ∧
       t.qe.ctxOp = .done rOk ∧ t.mem = s.mem) ∧
   (∀ (c : BitVec 12) (s : State), barOk s = true → s.qe.ctxOp.busy = false → (ctxOf s c).st = .faulted →
     ∃ t, exec (.ctxResume c) s = .next t ∧ (ctxOf t c).st = .enabled ∧ t.qe.ctxOp = .done rOk ∧ t.mem = s.mem) ∧
   (∀ (c : BitVec 12) (bus : Bus) (s : State), barOk s = true → s.qe.ctxOp.busy = false →
     (ctxOf s c).st = .enabled ∨ (ctxOf s c).st = .faulted →
     exec (.ctxAbort c bus) s = .next (ctxOpDone (abortContext { s with qe := { s.qe with ctxOpCtx := c } } bus c) rOk) ∧
     (cmdsOf s c = [] → heldSlots s c = [] → (∀ e ∈ s.pa.tports, ∀ x, e.2.cur = some x → x.ctx ≠ c) →
       ∃ t, exec (.ctxAbort c bus) s = .next t ∧ (ctxOf t c).st = .aborting ∧ t.qe.ctxOp = .done rOk ∧ t.mem = s.mem)) ∧
   (∀ (c : BitVec 12) (bus : Bus) (s : State), barOk s = true → s.qe.ctxOp.busy = false → (ctxOf s c).st = .enabled →
     (ctxOf s c).pinned = false → pinnedIn s (ctxOf s c).part + 1 < (slotsOf s (ctxOf s c).part).length →
     ∃ t, exec (.ctxPin c bus) s = .next t ∧ (ctxOf t c).pinned = true ∧ t.qe.ctxOp = .done rOk ∧ t.mem = s.mem) ∧
   (∀ (c : BitVec 12) (s : State), barOk s = true → s.qe.ctxOp.busy = false → (ctxOf s c).st = .enabled →
     ∃ t, exec (.ctxUnpin c) s = .next t ∧ (ctxOf t c).pinned = false ∧ t.qe.ctxOp = .done rOk ∧ t.mem = s.mem) ∧
   (∀ (c : BitVec 12) (s : State), barOk s = true → s.qe.ctxOp.busy = false → (ctxOf s c).st ≠ .disabled →
     ∃ t, exec (.ctxEnable c []) s = .next t ∧ t.qe.ctxs = s.qe.ctxs ∧ t.qe.ctxOp = .done rState)) ∧
  ((∀ (c : BitVec 12) (s : State), (ctxOf s c).disabling = true → (ctxOf s c).st = .enabled → ctxDrained s c = true →
     runsWork s = true → homeReady s (ctxAddr s c) 512 true none [] = (s, true) →
     ∃ t, exec (.ctxDisableDone c []) s = .next t ∧ ctxOf t c = {} ∧ t.mem = (writeBack s [] c).1.mem) ∧
   (∀ (c : BitVec 12) (s : State), (ctxOf s c).st = .aborting → cmdsOf s c = [] → runsWork s = true →
     homeReady s (ctxAddr s c) 512 true none [] = (s, true) →
     (dropCtxEntries (writeBack s [] c).1 c).qe.aborts = [] →
     ∃ t, exec (.ctxAbortDone c []) s = .next t ∧ ctxOf t c = {} ∧ t.mem = (writeBack s [] c).1.mem))

/-- CONTEXT_RESUME and CONTEXT_ABORT act on a context of the issuer's partition where the issuer has CTRL (R137,
R182): they resume it, retry or end its held faults, one or all, or abort it; without CTRL they end with CTRL.
A held fault ends by RETRY, ABORT or its patience (R177, R179, R180): its slot takes the new state and keeps no
request; a command that waits there walks again, or ends with TRANSLATION and the slot in DETAIL. -/
def Obligations.ControlCommandsAndFaultSlots : Prop :=
  ((∀ (id : Nat) (c : Cmd) (bus : Bus) (s : State), Dispatched s id opResume c → (ctxOf s c.ctx).ctrl = true →
     ctxPart s (targetOf c) = some c.part →
     (bits (c.raw.w 2) 3 0 = 0 → (ctxOf s (targetOf c)).st = .faulted →
       exec (.contextResume id) s = .next (endCmd (ctxResume s (targetOf c)).1 id stOk 0)) ∧
     (bits (c.raw.w 2) 3 0 = 1 →
       exec (.resumeRetryAll id bus) s = .next (endCmd (retryCtx s bus (targetOf c)) id stOk 0)) ∧
     (bits (c.raw.w 2) 3 0 = 2 →
       exec (.resumeAbortAll id bus) s = .next (endCmd (abortCtx s bus (targetOf c)) id stOk 0)) ∧
     (bits (c.raw.w 2) 3 0 = 3 → (fltSlot s (bits (c.raw.w 2) 39 32)).st = .held →
       (fltSlot s (bits (c.raw.w 2) 39 32)).ctx = targetOf c →
       exec (.resumeRetrySlot id bus) s = .next (endCmd (retrySlot s bus (bits (c.raw.w 2) 39 32)) id stOk 0)) ∧
     (bits (c.raw.w 2) 3 0 = 4 → (fltSlot s (bits (c.raw.w 2) 39 32)).st = .held →
       (fltSlot s (bits (c.raw.w 2) 39 32)).ctx = targetOf c →
       exec (.resumeAbortSlot id bus) s = .next (endCmd (endSlot s bus (bits (c.raw.w 2) 39 32) .aborted) id stOk 0))) ∧
   (∀ (id : Nat) (c : Cmd) (bus : Bus) (s : State), Dispatched s id opAbort c → (ctxOf s c.ctx).ctrl = true →
     ctxPart s (targetOf c) = some c.part → (ctxOf s (targetOf c)).st = .enabled → c.raw.w 2 = 0 →
     exec (.contextAbort id bus) s = .next (endCmd (abortContext s bus (targetOf c)) id stOk 0)) ∧
   (∀ (id : Nat) (c : Cmd) (bus : Bus) (s : State), Dispatched s id opAbort c → (ctxOf s c.ctx).ctrl = false →
     exec (.contextAbort id bus) s = .next (endCmd s id stCtrl 0))) ∧
  ((∀ (k : BitVec 8) (bus : Bus) (id : Nat) (c : Cmd) (r : TrReq) (s : State), barOk s = true → s.tu.fltOp.busy = false →
     (fltSlot s k.toNat).st = .held → (fltSlot s k.toNat).reqs = [r] → r.owner = .cmd id → cmdOf s id = some c →
     c.phase = .held k.toNat →
     (∃ t x, exec (.fltRetry k bus) s = .next t ∧ (fltSlot t k.toNat).st = .retried ∧ (fltSlot t k.toNat).reqs = [] ∧
       cmdOf t id = some x ∧ x.phase = .dispatched ∧ t.tu.fltOp = .done rOk ∧ t.mem = s.mem) ∧
     (∃ t, exec (.fltAbort k bus) s = .next t ∧ t.tu.fltOp = .done rOk ∧
       t = { endCmd (updSlot s k.toNat fun f => { f with st := .aborted, reqs := [] }) id stTranslation
               (BitVec.ofNat 32 k.toNat) with
             tu := { (endCmd (updSlot s k.toNat fun f => { f with st := .aborted, reqs := [] }) id stTranslation
               (BitVec.ofNat 32 k.toNat)).tu with fltOp := .done rOk, fltSlot := k } })) ∧
   (∀ (slot : Nat) (bus : Bus) (s : State), (fltSlot s slot).st = .held → (fltSlot s slot).reqs = [] → runsWork s = true →
     ∃ t, exec (.faultPatienceExpire slot bus) s = .next t ∧ (fltSlot t slot).st = .expired ∧
       (fltSlot s slot).deadline ≤ t.tick ∧ t.mem = s.mem) ∧
   (∀ (k : BitVec 8) (bus : Bus) (s : State), barOk s = true → s.tu.fltOp.busy = false → (fltSlot s k.toNat).st ≠ .held →
     ∃ t, exec (.fltRetry k bus) s = .next t ∧ exec (.fltAbort k bus) s = .next t ∧ t.tu.fltOp = .done rState ∧
       t.tu.slots = s.tu.slots))

/-- CREATE and FREE of an object (R142, R143): a CREATE that passes its checks answers the handle, one with an
index that no descriptor has answers FORMAT; a FREE or OBJECT_FREE steps GEN at once, so that no handle made
before names the object, and an object with pins stays DRAINING until they are gone, and a table until its
window writes and copies are too. -/
def Obligations.ObjectsAreCreatedAndFreed : Prop :=
  (∀ (i : BitVec 32) (bus : Bus) (h : Word) (s s' : State), barOk s = true → s.qe.objOp.busy = false →
    createAct bus i.toNat { s with qe := { s.qe with objIndex := i } } = .ok h s' →
    exec (.objCreate i bus) s = .next { s' with qe := { s'.qe with objOp := .done rOk, objRes := h } }) ∧
  (∀ (i : BitVec 32) (bus : Bus) (s : State), barOk s = true → s.qe.objOp.busy = false → i = 0 ∨ objCount s ≤ i.toNat →
    exec (.objCreate i bus) s =
      .next { s with qe := { s.qe with objIndex := i, objOp := .done rFormat, objRes := 0 } }) ∧
  (∀ (i : BitVec 32) (bus : Bus) (o : Obj) (s s' s'' : State), barOk s = true → s.qe.objOp.busy = false → i ≠ 0 →
    i.toNat < objCount s → objGet bus i.toNat { s with qe := { s.qe with objIndex := i } } = .ok o s' → o.st = stLive ∨ o.st = stTorn →
    freeObj bus i.toNat o s' = .ok () s'' →
    exec (.objFree i bus) s = .next { s'' with qe := { s''.qe with objOp := .done rOk } }) ∧
  (∀ (id : Nat) (c : Cmd) (bus : Bus) (o : Obj) (s s' s'' : State), Dispatched s id opObjectFree c →
    objGet bus (hIndex (c.raw.w 1)) s = .ok o s' → o.st = stLive ∨ o.st = stTorn → o.gen = hGen (c.raw.w 1) →
    freeObj bus (hIndex (c.raw.w 1)) o s' = .ok () s'' →
    exec (.objectFree id bus) s = .next (endCmd s'' id stOk 0)) ∧
  (∀ (bus : Bus) (i : Nat) (o : Obj) (s : State), o.ty ≠ tyEvent → o.st = stLive →
    o.pins ≠ 0 ∨ tableHeld (failObjAps s i o.gen) i o = true →
    freeObj bus i o s = objPut bus i { o with gen := (o.gen + 1) % 65536, st := stDraining } (failObjAps s i o.gen)) ∧
  (∀ (i : BitVec 32) (bus : Bus) (o : Obj) (s s' s'' : State), runsWork s = true → i.toNat < objCount s →
    objGet bus i.toNat s = .ok o s' → o.st = stDraining → o.pins = 0 →
    tableHeld s' i.toNat o = false → becomeFree bus i.toNat o o s' = .ok () s'' →
    exec (.objectDrainEnd i bus) s = .next (pumpPasses s'' bus)) ∧
  (∀ (i : BitVec 32) (bus : Bus) (o : Obj) (s s' : State), runsWork s = true → i.toNat < objCount s →
    objGet bus i.toNat s = .ok o s' → o.st = stDraining → o.pins ≠ 0 ∨ tableHeld s' i.toNat o = true →
    exec (.objectDrainEnd i bus) s = .next (pumpPasses s' bus))

/-- MAP checks its whole range before it writes a leaf, and ends OK once every leaf stands (R170, R171), also where
it was held on the way; UNMAP clears the leaves of its range, drops their translations and ends OK once no user
holds one (R172); both refuse a range that is not made of 4 KiB pages with BAD_FIELD. -/
def Obligations.MapAndUnmapChangeLeaves : Prop :=
  (∀ (id : Nat) (c : Cmd) (bus : Bus) (o : Obj) (src : List Leaf) (fit : List (List Piece4)) (s s1 s2 s3 s4 s5 : State),
    Dispatched s id opMap c → mapBusy s id c = false → c.work = .none → objGet bus (hIndex (c.raw.w 2)) s = .ok o s1 →
    let va := (c.raw.w 1).toNat
    let off := (c.raw.w 3).toNat
    let len := (c.raw.w 4).toNat
    va % 4096 = 0 ∧ off % 4096 = 0 ∧ len % 4096 = 0 ∧ len ≠ 0 ∧ off + len ≤ o.size ∧ o.va % 4096 = 0 ∧ va + len ≤ 2 ^ 57 →
    attrOk (c.raw.w 5).toNat = true → bit (ctxOf s1 c.ctx).ttRoot 0 = true →
    leavesOf false bus c.ctx va (va + len) s1 = .ok [] s2 →
    leavesOf false bus o.ctx (o.va + off) (o.va + off + len) s2 = .ok src s3 → covers (o.va + off) (o.va + off + len) src = true →
    mapAll (fitPiece bus c.ctx 4) (src.map (piecesOf (o.va + off) len va (c.raw.w 5).toNat)).flatten s3 = .ok fit s4 →
    placeAll bus id (cmdReq id c .engine 0 .write) c.part fit.flatten s4 = .ok () s5 →
    exec (.map id bus) s = .next (endCmd s5 id stOk 0)) ∧
  (∀ (id : Nat) (c : Cmd) (bus : Bus) (ls : List Leaf) (s s1 s2 : State),
    Dispatched s id opUnmap c → mapBusy s id c = false → c.work = .none →
    let va := (c.raw.w 1).toNat
    let len := (c.raw.w 2).toNat
    va % 4096 = 0 ∧ len % 4096 = 0 ∧ len ≠ 0 ∧ va + len ≤ 2 ^ 57 →
    leavesOf false bus c.ctx va (va + len) s = .ok ls s1 → (∀ l ∈ ls, va ≤ l.va ∧ l.va + l.size ≤ va + len) →
    forAll (fun l => putPte bus c.ctx l.va l.addr 0) ls s1 = .ok () s2 → invUsers s2 (.range c.ctx va len) = [] →
    exec (.unmap id bus) s = .next (endCmd (invDrop s2 (.range c.ctx va len) false) id stOk 0)) ∧
  (∀ (id : Nat) (c : Cmd) (bus : Bus) (ls : List Leaf) (s s1 s2 : State),
    Dispatched s id opUnmap c → mapBusy s id c = false → c.work = .none →
    let va := (c.raw.w 1).toNat
    let len := (c.raw.w 2).toNat
    va % 4096 = 0 ∧ len % 4096 = 0 ∧ len ≠ 0 ∧ va + len ≤ 2 ^ 57 →
    leavesOf false bus c.ctx va (va + len) s = .ok ls s1 → (∀ l ∈ ls, va ≤ l.va ∧ l.va + l.size ≤ va + len) →
    forAll (fun l => putPte bus c.ctx l.va l.addr 0) ls s1 = .ok () s2 → invUsers s2 (.range c.ctx va len) ≠ [] →
    exec (.unmap id bus) s = .next (updCmd (invDrop s2 (.range c.ctx va len) false) id fun x =>
      { x with work := .invalidating (invUsers s2 (.range c.ctx va len)) })) ∧
  (∀ (id : Nat) (c : Cmd) (ws : List InvWait) (bus : Bus) (s : State), Dispatched s id opUnmap c →
    mapBusy s id c = false → c.work = .invalidating ws →
    exec (.unmap id bus) s = .next (if ws.any (waitHolds s) then s else endCmd s id stOk 0)) ∧
  (∀ (id : Nat) (c : Cmd) (left : List (Nat × Nat × Word)) (bus : Bus) (s s' : State), Dispatched s id opMap c →
    mapBusy s id c = false → c.work = .mapping left →
    placeAll bus id (cmdReq id c .engine 0 .write) c.part (left.map fun x => ⟨x.1, x.2.1, x.2.2⟩) s = .ok () s' →
    exec (.map id bus) s = .next (endCmd s' id stOk 0)) ∧
  (∀ (id : Nat) (c : Cmd) (bus : Bus) (o : Obj) (s s1 : State), Dispatched s id opMap c → mapBusy s id c = false →
    c.work = .none → objGet bus (hIndex (c.raw.w 2)) s = .ok o s1 →
    (c.raw.w 1).toNat % 4096 ≠ 0 ∨ (c.raw.w 3).toNat % 4096 ≠ 0 ∨ (c.raw.w 4).toNat % 4096 ≠ 0 ∨ c.raw.w 4 = 0 →
    exec (.map id bus) s = .next (endCmd s1 id stBadField 0)) ∧
  (∀ (id : Nat) (c : Cmd) (bus : Bus) (s : State), Dispatched s id opUnmap c → mapBusy s id c = false → c.work = .none →
    (c.raw.w 1).toNat % 4096 ≠ 0 ∨ (c.raw.w 2).toNat % 4096 ≠ 0 ∨ c.raw.w 2 = 0 →
    exec (.unmap id bus) s = .next (endCmd s id stBadField 0))

/-- A translation that is granted lies below 2^57 and its leaf has R for a read and W for a write; no write is
granted to a measured page but of a measured stream (R155, R160, R161). PAGE_WALK makes one, which may fill the
TLBs; where it needs a table line that a near core holds, it only recalls the line. -/
def Obligations.TranslationsObeyTheirLeaf : Prop :=
  (∀ (bus : Bus) (r : TrReq) (pa sz : Nat) (pte : Word) (s : State), (translate s bus r).2 = .ok pa pte sz →
    r.va.toNat < 2 ^ 57 ∧ (r.acc ≠ .write → pteR pte = true) ∧ (r.acc ≠ .read → pteW pte = true) ∧
    (r.acc ≠ .read → pteM pte = true → r.user = .ingest true) ∧ pa = leafAddr pte sz r.va) ∧
  (∀ (user : TrUser) (ctx : BitVec 12) (va : Word) (acc : Access) (bus : Bus) (s : State), runsWork s = true →
    let t := translate s bus { owner := .free, user := user, ctx := ctx, va := va, acc := acc }
    (t.2 ≠ .wait → exec (.pageWalk user ctx va acc bus) s = .next t.1) ∧
    (t.2 = .wait → exec (.pageWalk user ctx va acc bus) s = .next (waitBack s t.1)))

/-- An invalidation drops every translation of its scope at once and keeps the others (R168): all, a partition's, a
context's, or those of a range of TU_INV_VA and TU_INV_LEN; TU_INV_OP is busy until no user holds one, and then
reads OK, and the frames of passes whose users have let go are returned. A RANGE of length 0 reads FORMAT.
Frame pools and page slices by their registers (R174, R176, R186), and the note of a return ring that stays
full. A retiring slice is out of the route table at once, and every L1 TLB is dropped; it never is the last
one. -/
def Obligations.InvalidationsPoolsAndSlices : Prop :=
  ((∀ (walk : Bool) (part : BitVec 3) (ctx : BitVec 12) (s : State), barOk s = true → s.tu.invOp.busy = false →
     ∀ x ∈ [(Instr.invAll walk, InvScope.all), (.invPartition part walk, .partition part), (.invContext ctx walk, .context ctx),
         (.invRange ctx walk, .range ctx (s.tu.invVa.toNat * 4096) (s.tu.invLen.toNat * 4096))],
       (x.1 = .invRange ctx walk → s.tu.invLen ≠ 0) →
       ∃ t, exec x.1 s = .next t ∧ t.tu.invOp = .run ∧ t.mem = s.mem ∧
         (∀ e, e ∈ t.tu.l1 ↔ e ∈ s.tu.l1 ∧ x.2.hits s e.ctx e.page e.sz = false) ∧
         (∀ e, e ∈ t.tu.l2 ↔ e ∈ s.tu.l2 ∧ x.2.hits s e.ctx e.page e.sz = false) ∧
         (walk = false → t.tu.wc = s.tu.wc)) ∧
   (∀ (walk : Bool) (ctx : BitVec 12) (s : State), barOk s = true → s.tu.invOp.busy = false → s.tu.invLen = 0 →
     ∃ t, exec (.invRange ctx walk) s = .next t ∧ t.tu.invOp = .done rFormat ∧ t.tu.l1 = s.tu.l1 ∧ t.tu.l2 = s.tu.l2) ∧
   (∀ (i : Inv) (s : State), s.tu.inv = some i → (∀ w ∈ i.waits, waitHolds s w = false) →
     exec .invalidationDone s = .next (
       let t := { s with tu := { s.tu with inv := none, invOp := .done rOk } }
       if runsWork s = true then pumpPasses t [] else t)) ∧
   (∀ (i : Inv) (w : InvWait) (s : State), s.tu.inv = some i → w ∈ i.waits → waitHolds s w = true →
     exec .invalidationDone s = .next (if runsWork s = true then pumpPasses s [] else s))) ∧
  ((∀ (part cls : Nat) (v : BitVec 32) (s : State), barOk s = true → part < s.build.partitions → cls < 4 →
     ∃ t, exec (.poolAllocProduce part cls v) s = .next t ∧ (poolOf t (BitVec.ofNat 3 part) cls).aProd = v ∧
       (poolOf t (BitVec.ofNat 3 part) cls).aCons = (poolOf s (BitVec.ofNat 3 part) cls).aCons ∧ t.mem = s.mem) ∧
   (∀ (part cls : Nat) (v : BitVec 32) (bus : Bus) (s : State), barOk s = true → part < s.build.partitions → cls < 4 →
     (poolOf s (BitVec.ofNat 3 part) cls).waiting = [] →
     ∃ t, exec (.poolReturnConsume part cls v bus) s = .next t ∧ (poolOf t (BitVec.ofNat 3 part) cls).rCons = v ∧
       (poolOf t (BitVec.ofNat 3 part) cls).rProd = (poolOf s (BitVec.ofNat 3 part) cls).rProd ∧ t.mem = s.mem) ∧
   (∀ (part cls : Nat) (v : BitVec 32) (bus : Bus) (s : State), barOk s = true → part < s.build.partitions → cls < 4 →
     exec (.poolReturnConsume part cls v bus) s = .next (poolConsume s bus part cls v)) ∧
   (∀ (part cls f : Nat) (l : List Nat) (s : State), runsWork s = true → part < s.build.partitions → cls < 4 →
     (poolOf s (BitVec.ofNat 3 part) cls).waiting = f :: l →
     exec (.poolReturnWaitNote part cls) s = .next (note s { source := srcId 4 ((liveSlices s).headD 0) 1
                                                             address := BitVec.ofNat 64 f, part := some (BitVec.ofNat 3 part) })) ∧
   (∀ (mask : BitVec 16) (s : State), barOk s = true → s.tu.retBusy = false →
     mask.toNat &&& maskOf s.build.pageSlices ≠ maskOf s.build.pageSlices →
     mask.toNat &&& maskOf s.build.pageSlices ≠ s.tu.retire.toNat → s.build.pageSlices ≤ 16 →
     ∃ t, exec (.pageSliceRetire mask) s = .next t ∧ t.tu.retBusy = true ∧ t.tu.l1 = [] ∧ t.tu.l2 = s.tu.l2 ∧
       ∀ i < s.build.pageSlices, i ∈ liveSlices t ↔ mask.getLsbD i = false) ∧
   (∀ (mask : BitVec 16) (s : State), mask.toNat &&& maskOf s.build.pageSlices = maskOf s.build.pageSlices →
     exec (.pageSliceRetire mask) s = .next s) ∧
   (∀ s : State, s.tu.retBusy = true →
     exec .pageSliceRetireDone s = .next { s with tu := { s.tu with retBusy := false } }))

/-- A service port answers a translation at once where it is granted, keeps the tag until TS_DONE, holds the
request where its page faults and refuses a context of another partition with DENIED and a NOTE (R47, R48); a
tag that an invalidation waits for beyond 100 µs posts one SEVERE fault (R49). Sloe reports a slice once its
99th percentile has stood out for the set number of windows (R185). -/
def Obligations.ServicePortsAndSloe : Prop :=
  (∀ (port tag : Nat) (va : BitVec 57) (ctx : BitVec 12) (wr : Bool) (bus : Bus) (pa sz : Nat) (pte : Word) (s s' : State),
    port < s.build.tsPorts → tag < 64 → runsWork s = true → Tab.find? s.tu.tags (tsKey port tag) = none →
    (tsPart s port).isSome = true → ctxPart s ctx = tsPart s port →
    translate (fresh s).1 bus { owner := .service port tag, user := .service, ctx := ctx, va := va.setWidth 64
                                acc := if wr then .write else .read } = (s', .ok pa pte sz) →
    ∃ t, exec (.tsRequest port tag va ctx wr bus) s = .next t ∧ t.mem = s'.mem ∧
      (Tab.find? t.tu.tags (tsKey port tag)).map (fun x => (x.ctx, x.st, x.page, x.sz)) =
        some (ctx, .given s'.tick false, va.toNat >>> sz, sz) ∧
      .service port tag 0 (BitVec.ofNat 46 (pa / 4096)) (BitVec.ofNat 2 (sizeClass sz)) (BitVec.ofNat 2 (pteMT pte)) (pteRM pte)
        ∈ t.out) ∧
  (∀ (port tag : Nat) (va : BitVec 57) (ctx : BitVec 12) (wr : Bool) (bus : Bus) (s : State),
    port < s.build.tsPorts → tag < 64 → runsWork s = true → Tab.find? s.tu.tags (tsKey port tag) = none →
    (tsPart s port).isNone = true ∨ ctxPart s ctx ≠ tsPart s port →
    exec (.tsRequest port tag va ctx wr bus) s = .next (emit
      (dropTag (note s { source := srcId 12 port 0, part := tsPart s port }) port tag) (.service port tag 2 0 0 0 false))) ∧
  (∀ (port tag k : Nat) (va : BitVec 57) (ctx : BitVec 12) (wr : Bool) (bus : Bus) (s s' : State),
    port < s.build.tsPorts → tag < 64 → runsWork s = true → Tab.find? s.tu.tags (tsKey port tag) = none →
    (tsPart s port).isSome = true → ctxPart s ctx = tsPart s port →
    translate (fresh s).1 bus { owner := .service port tag, user := .service, ctx := ctx, va := va.setWidth 64
                                acc := if wr then .write else .read } = (s', .held k) →
    exec (.tsRequest port tag va ctx wr bus) s =
      .next (putTag s' port tag ⟨s.nextId, va.setWidth 64, ctx, wr, .held k, 0, 0⟩)) ∧
  (∀ (port tag n : Nat) (b : Bool) (x : TsTag) (s : State), port < s.build.tsPorts → tag < 64 → s.tp.ready = true →
    Tab.find? s.tu.tags (tsKey port tag) = some x → x.st = .given n b →
    ∃ t, exec (.tsDone port tag) s = .next t ∧ Tab.find? t.tu.tags (tsKey port tag) = none ∧ t.mem = s.mem ∧ t.out = s.out) ∧
  (∀ (port tag n : Nat) (x : TsTag) (s : State), Tab.find? s.tu.tags (tsKey port tag) = some x → x.st = .given n false →
    (invWaiters s).contains (.ts x.id) = true →
    exec (.tsHoldTimeout port tag) s = .next (putTag (report (reach s (n + 100000))
      { source := srcId 12 port 1, address := x.va, ctx := some x.ctx, part := tsPart s port } (Config.masterId 12 port))
      port tag { x with st := .given n true })) ∧
  (∀ (set : SloeSet) (a b x : SloeEst) (s : State), s.tp.ready = true → sloeLive s set = [x.slice, a.slice, b.slice] →
    x.slice ≠ a.slice → x.slice ≠ b.slice → a.slice ≠ b.slice → 64 ≤ x.served → 64 ≤ a.served → 64 ≤ b.served →
    a.p99 = b.p99 → s.fc.sloeFactor.toNat * (2 * a.p99) ≤ 32 * x.p99 → s.fc.sloeConsec = 0 →
    (Tab.get {} s.fc.sloe (sloeInst set * 64 + x.slice)).reported = false →
    ∃ t u, exec (.sloeWindowEnd set [x, a, b]) s = .next t ∧
      u = note { s with fc := { s.fc with sloe := (Tab.set {} s.fc.sloe (sloeInst set * 64 + x.slice)
          ⟨min ((Tab.get {} s.fc.sloe (sloeInst set * 64 + x.slice)).runs + 1) 16, true⟩) } }
        { source := srcId 14 (sloeInst set) 0, info := BitVec.ofNat 16 x.slice } ∧
      t = sloeSlice (sloeSlice u set [x, a, b] a) set [x, a, b] b)

/-- A lookup finds the row of the first slot, in slot order, that is visible at its version, in the first candidate
bucket and then in the second, and no row where neither has one (R196); a KEY_LOOKUP that finds none gives the
policy's effect (R197). What one entry of KEY_ADMIT or one key of KEY_EVICT does at its target version (R204,
R205, R206): an absent key is inserted, or is FULL; a visible slot stays under INSERT, or under UPSERT with its
row; before a change an UPSERT or EVICT waits while a version retires; a slot LIVE at the target is rewritten
or emptied in place, EVICT makes any other DYING, and UPSERT places the new row beside it, or is FULL, and then
makes the old slot DYING. -/
def Obligations.KeysAreFoundAndChanged : Prop :=
  ((∀ (bus : Bus) (u : KeyUse) (r : TrReq) (ver i : Nat) (key : Word) (d1 : List Byte) (s s1 : State), i < 8 →
     bucketGet bus u r (keyBuckets u.desc.seed u.desc.log2 key).1 { s with kt := { s.kt with lookups := s.kt.lookups + 1 } } =
       .ok d1 s1 →
     (slotAt d1 i).key = key → (slotAt d1 i).visible ver = true →
     (∀ j < i, (slotAt d1 j).key ≠ key ∨ (slotAt d1 j).visible ver = false) →
     keyFind bus u r ver key s = .ok (some (slotAt d1 i).row)
       (noteReserved s1 u (keyBuckets u.desc.seed u.desc.log2 key).1 d1 (keyPairOf s (keyHash1 u.desc.seed key)))) ∧
   (∀ (bus : Bus) (u : KeyUse) (r : TrReq) (ver i : Nat) (key : Word) (d1 d2 : List Byte) (s s1 s2 : State), i < 8 →
     bucketGet bus u r (keyBuckets u.desc.seed u.desc.log2 key).1 { s with kt := { s.kt with lookups := s.kt.lookups + 1 } } =
       .ok d1 s1 →
     bucketGet bus u r (keyBuckets u.desc.seed u.desc.log2 key).2
       (noteReserved s1 u (keyBuckets u.desc.seed u.desc.log2 key).1 d1 (keyPairOf s (keyHash1 u.desc.seed key))) = .ok d2 s2 →
     (∀ j < 8, (slotAt d1 j).key ≠ key ∨ (slotAt d1 j).visible ver = false) →
     ((slotAt d2 i).key = key → (slotAt d2 i).visible ver = true →
       (∀ j < i, (slotAt d2 j).key ≠ key ∨ (slotAt d2 j).visible ver = false) →
       ∃ t, keyFind bus u r ver key s = .ok (some (slotAt d2 i).row) t) ∧
     ((∀ j < 8, (slotAt d2 j).key ≠ key ∨ (slotAt d2 j).visible ver = false) →
       ∃ t, keyFind bus u r ver key s = .ok none t)) ∧
   (∀ (id e : Nat) (bus : Bus) (w : BagWork) (x : BagEnt) (row : Option Nat) (u : KeyUse) (s s' : State), runsWork s = true →
     bagOf s id = some w → Tab.find? w.ents e = some x → x.st = .lookup →
     lookupEnt bus id e w x (cmdOf s id) s = .ok (row, u) s' →
     (∀ k, row = some k → exec (.keyLookup id e bus) s =
       .next (sendPools (startRow (setEnt s' id e fun x => { x with st := .row k }) bus id e) bus id)) ∧
     (row = none → u.desc.policy = polFault → exec (.keyLookup id e bus) s =
       .next (sendPools (bagFail s' bus id stKeyFault 0 x.key (srcId 5 (keyPairOf s' (keyHash1 u.desc.seed x.key)) 0)) bus id)) ∧
     (row = none → u.desc.policy ≠ polFault → exec (.keyLookup id e bus) s =
       .next (sendPools (missEnt s' bus id e w x) bus id)))) ∧
  (∀ (bus : Bus) (u : KeyUse) (r : TrReq) (tgt row : Nat) (v : VLine) (key : Word) (s s1 : State),
   (visibleAt bus u r tgt key s = .ok none s1 →
     applyKey bus u r tgt v .evict key row s = .ok (some 0) s1 ∧
     (v.draining = true → applyKey bus u r tgt v .upsert key row s = .ok none s1) ∧
     applyKey bus u r tgt v .insert key row s = match placeKey bus u r v.floor ⟨key, row, tgt, kLive⟩ s1 with
       | .ok true s2 => .ok (some 0x00) (markWrote s2 u.idx tgt v)
       | .ok false s2 => .ok (some 0x04) s2
       | .error e s2 => .error e s2) ∧
   (∀ (b i : Nat) (old : KSlot), visibleAt bus u r tgt key s = .ok (some (b, i, old)) s1 →
     let change (slot : KSlot) : EStateM.Result Stop State (Option Byte) := match probeBucket bus u r b s1 with
       | .ok _ s2 => match slotPut bus u r b i slot s2 with
         | .ok _ s3 => .ok (some 0x02) (markWrote s3 u.idx tgt v)
         | .error e s3 => .error e s3
       | .error e s2 => .error e s2
     applyKey bus u r tgt v .insert key row s = .ok (some 0x01) s1 ∧
     (old.row = row → applyKey bus u r tgt v .upsert key row s = .ok (some 0x03) s1) ∧
     (v.draining = true → applyKey bus u r tgt v .evict key row s = .ok none s1 ∧
       (old.row ≠ row → applyKey bus u r tgt v .upsert key row s = .ok none s1)) ∧
     (v.draining = false → old.kind = kLive ∧ old.ver = tgt →
       applyKey bus u r tgt v .evict key row s = change emptySlot ∧
       (old.row ≠ row → applyKey bus u r tgt v .upsert key row s = change ⟨key, row, tgt, kLive⟩)) ∧
     (v.draining = false → ¬(old.kind = kLive ∧ old.ver = tgt) →
       applyKey bus u r tgt v .evict key row s = change { old with ver := tgt, kind := kDying } ∧
       ∀ s2 s3 s4, old.row ≠ row → probeBucket bus u r b s1 = .ok () s2 →
         forAll (probeBucket bus u r) [(keyBuckets u.desc.seed u.desc.log2 key).1, (keyBuckets u.desc.seed u.desc.log2 key).2] s2 =
           .ok () s3 →
         (placeKey bus u r v.floor ⟨key, row, tgt, kLive⟩ s3 = .ok false s4 →
           applyKey bus u r tgt v .upsert key row s = .ok (some 0x04) s4) ∧
         (∀ b' i' s5 s6, placeKey bus u r v.floor ⟨key, row, tgt, kLive⟩ s3 = .ok true s4 →
           findOld bus u r old s4 = .ok (some (b', i')) s5 →
           slotPut bus u r b' i' { old with ver := tgt, kind := kDying } s5 = .ok () s6 →
           applyKey bus u r tgt v .upsert key row s = .ok (some 0x02) (markWrote s6 u.idx tgt v)))))

/-- KEY_ADMIT and KEY_EVICT take their target version once, the pending one where there is one (R208), run their
entries from the first that is left and end OK; at an entry that waits for the floor they stop, and
KEY_COMMAND_RESUME takes them on with their target (R206). Neither takes its target while a version opens or is
aborted (R208). An invalidation of key translation drops the bucket lines, descriptors and filter entries of
its scope at once, keeps those of the other tables, and completes once no lookup or placement that had begun in
its scope is held (R219); retiring key slices leaves the caches and cannot take the last one (R218); the signal
of ADMIT_EVENT carries POSTED, and follows a flush read where the entries lie in host memory (R216). Without
key slices nothing is invalidated (R7). -/
def Obligations.KeyCommandsAndCaches : Prop :=
  ((∀ (id tgt : Nat) (c : Cmd) (bus : Bus) (o : Obj) (v : VLine) (u : KeyUse) (done : Bool) (s s1 s2 s2' s3 s4 : State),
     Dispatched s id opKeyAdmit c → objGet bus (hIndex (c.raw.w 1)) s = .ok o s1 →
     let r := cmdReq id c .key 0 .read
     vlineGet bus r o s1 = .ok v s2 →
     (c.work = .none ∧ v.opening = false ∧ v.aborting = false ∧ tgt = (if v.pending then v.ver + 1 else v.ver) ∧
         s2' = updCmd s2 id (fun c => { c with work := .key tgt false })) ∨
       (c.work = .key tgt false ∧ s2' = s2) →
     keyUse bus r (hIndex (c.raw.w 1)) s2' = .ok u s3 →
     admitLoop bus id c u r tgt v (if bits (c.raw.w 4) 1 0 = 0 then .insert else .upsert) ((c.raw.w 3).toNat - c.progress)
       c.progress s3 = .ok done s4 →
     (∀ s5, done = true → advanceCons bus u r (bits (c.raw.w 4) 63 32) s4 = .ok () s5 →
       exec (.keyAdmit id bus) s = .next (endCmd s5 id stOk 0)) ∧
     (done = false → exec (.keyAdmit id bus) s = .next (updCmd s4 id fun c => { c with work := .key tgt true, phase := .running }))) ∧
   (∀ (id tgt : Nat) (c : Cmd) (bus : Bus) (o : Obj) (v : VLine) (u : KeyUse) (done : Bool) (s s1 s2 s2' s3 s4 : State),
     Dispatched s id opKeyEvict c → objGet bus (hIndex (c.raw.w 1)) s = .ok o s1 →
     let r := cmdReq id c .key 0 .read
     vlineGet bus r o s1 = .ok v s2 →
     (c.work = .none ∧ v.opening = false ∧ v.aborting = false ∧ tgt = (if v.pending then v.ver + 1 else v.ver) ∧
         s2' = updCmd s2 id (fun c => { c with work := .key tgt false })) ∨
       (c.work = .key tgt false ∧ s2' = s2) →
     keyUse bus r (hIndex (c.raw.w 1)) s2' = .ok u s3 →
     evictLoop bus id c u r tgt v ((c.raw.w 3).toNat - c.progress) c.progress s3 = .ok done s4 →
     exec (.keyEvict id bus) s = .next (if done = true then endCmd s4 id stOk 0
       else updCmd s4 id fun c => { c with work := .key tgt true, phase := .running })) ∧
   (∀ (id op tgt : Nat) (c : Cmd) (bus : Bus) (s : State), (op = opKeyAdmit ∨ op = opKeyEvict) →
     cmdOf s id = some c → runsWork s = true → c.phase = .running → c.work = .key tgt true → c.raw.opcode = op →
     exec (.keyCommandResume id bus) s = exec (if op = opKeyAdmit then .keyAdmit id bus else .keyEvict id bus)
         (updCmd s id fun c => { c with phase := .dispatched, work := .key tgt false }) ∧
       ∃ t, exec (.keyCommandResume id bus) s = .next t) ∧
   (∀ (id op : Nat) (c : Cmd) (bus : Bus) (o : Obj) (v : VLine) (s s1 s2 : State), (op = opKeyAdmit ∨ op = opKeyEvict) →
     Dispatched s id op c → c.work = .none → objGet bus (hIndex (c.raw.w 1)) s = .ok o s1 →
     vlineGet bus (cmdReq id c .key 0 .read) o s1 = .ok v s2 → v.opening = true ∨ v.aborting = true →
     exec (if op = opKeyAdmit then .keyAdmit id bus else .keyEvict id bus) s = .next s2)) ∧
  ((∀ s : State, barOk s = true → s.kt.invOp.busy = false → s.build.keySlices ≠ 0 →
     ∃ t, exec .ktInvAll s = .next t ∧ t.kt.invOp = .run ∧ t.kt.cache = [] ∧ t.kt.descs = [] ∧ t.kt.filter = [] ∧ t.mem = s.mem) ∧
   (∀ (obj : BitVec 32) (s : State), barOk s = true → s.kt.invOp.busy = false → s.build.keySlices ≠ 0 →
     ∃ t, exec (.ktInvTable obj) s = .next t ∧ t.kt.invOp = .run ∧ t.kt.invIndex = obj ∧ t.mem = s.mem ∧
       (∀ l, l ∈ t.kt.cache ↔ l ∈ s.kt.cache ∧ l.obj ≠ obj) ∧
       (∀ e, e ∈ t.kt.descs ↔ e ∈ s.kt.descs ∧ e.1 ≠ obj.toNat) ∧
       (∀ e, e ∈ t.kt.filter ↔ e ∈ s.kt.filter ∧ e.2.obj ≠ obj)) ∧
   (∀ (obj : BitVec 32) (s : State), s.build.keySlices = 0 →
     exec .ktInvAll s = .next s ∧ exec (.ktInvTable obj) s = .next s) ∧
   (∀ s : State, s.kt.invOp.busy = true →
     ((∀ x ∈ s.kt.invHeld, keyHeld s x = false) →
       exec .ktInvDone s = .next { s with kt := { s.kt with invOp := .done rOk, invHeld := [] } }) ∧
     (∀ x ∈ s.kt.invHeld, keyHeld s x = true → exec .ktInvDone s = .next s)) ∧
   (∀ (mask : BitVec 32) (s : State), barOk s = true → s.kt.retBusy = false → s.build.keySlices ≤ 32 →
     mask.toNat &&& maskOf s.build.keySlices ≠ maskOf s.build.keySlices →
     ∃ t, exec (.keySliceRetire mask) s = .next t ∧ t.kt.cache = s.kt.cache ∧ t.kt.filter = s.kt.filter ∧
       (∀ i < s.build.keySlices, i ∈ liveKeySlices t ↔ mask.getLsbD i = false)) ∧
   (∀ (mask : BitVec 32) (s : State), mask.toNat &&& maskOf s.build.keySlices = maskOf s.build.keySlices →
     exec (.keySliceRetire mask) s = .next s) ∧
   (∀ s : State, s.kt.retBusy = true →
     exec .keySliceRetireDone s = .next { s with kt := { s.kt with retBusy := false } }) ∧
   (∀ (obj : BitVec 32) (bus : Bus) (u : KeyUse) (posted : Word) (s s' : State),
     (Tab.get {} s.kt.tables obj.toNat).unsent = true → runsWork s = true →
     admitPosted bus obj.toNat (match (Tab.get {} s.kt.tables obj.toNat).lastSig with
       | some k => reach s (k + 1000)
       | none => s) = .ok (u, posted) s' →
     let t := updTable s' obj.toNat fun t => { t with unsent := false, lastSig := some s'.tick, flushVal := posted }
     (u.desc.admitHost = false → exec (.admitEventSignal obj bus) s =
       .next (postSignal t bus u.desc.event posted u.obj.part u.obj.ctx)) ∧
     (u.desc.admitHost = true → fnIssues s' (ctxFn s' u.obj.ctx) = true → exec (.admitEventSignal obj bus) s =
       .next (startFlush t u.obj.ctx (ctxFn s' u.obj.ctx).port u.desc.admitVa (.admission obj.toNat)).1) ∧
     (u.desc.admitHost = true → fnIssues s' (ctxFn s' u.obj.ctx) = false → exec (.admitEventSignal obj bus) s = .next s')) ∧
   (∀ (bus : Bus) (i : Nat) (u : KeyUse) (c : CtrlLine) (s s1 s2 : State),
     keyUse bus { owner := .free, user := .key, ctx := 0, va := 0, acc := .read } i s = .ok u s1 →
     ctrlGet bus u { owner := .free, user := .key, ctx := 0, va := 0, acc := .read } 0 s1 = .ok c s2 →
     admitPosted bus i s = .ok (u, BitVec.ofNat 64 c.posted) s2))

/-- TABLE_OPEN_VERSION opens a pending version (R228, R229): it marks the line OPENING and shares the leaves, and
the line reads PENDING once no user holds a translation of the current region, at once or when the command is
sent again; it ends with STATE where a version is pending, opening or aborting already, or the version that the
command expects is another. Its ABORT marks the line ABORTING and fails the apertures (R239); once the table's
writes and copies have ended it clears the pending region, and once no user holds a translation of either
region it returns the frames, sweeps the index and leaves no version pending. TABLE_FLIP is checked at its
dispatch and then waits (R234). Once the writes, the copies and the key commands that it waits for have ended,
FLIP_TAKE_EFFECT makes one update of the line, which swaps the slots, steps the version, clears PENDING, sets
DRAINING and keeps the event, and ends the command OK (R235). A retirement of a slot without pins clears the
old region and, once no user holds a translation and every frame is on a return ring, ends DRAINING and signals
the event of the flip (R237, R238), counted on the context that issued the flip (R148). -/
def Obligations.VersionsOpenFlipAndRetire : Prop :=
  ((∀ (id : Nat) (c : Cmd) (bus : Bus) (o : Obj) (v v' : VLine) (s s1 s2 s3 s4 s5 s6 : State),
     Dispatched s id opOpenVersion c → bits (c.raw.w 2) 1 0 = 0 → c.work = .none →
     let i := hIndex (c.raw.w 1)
     let r := cmdReq id c .engine 0 .read
     let t := tableDesc o.raw
     let ra := InvScope.range o.ctx (t.region v.slot) (2 ^ t.regionLog2)
     objGet bus i s = .ok o s1 → vlineGet bus r o s1 = .ok v s2 →
     v.pending = false ∧ v.opening = false ∧ v.aborting = false ∧ v.draining = false ∧ v.ver ≠ 0x3FFFFFFF →
     bit (c.raw.w 3) 63 = false ∨ bits (c.raw.w 3) 29 0 = v.ver →
     vlinePut bus r i o { v with opening := true } s2 = .ok () s3 → shareLeaves bus o v.slot s3 = .ok () s4 →
     (invUsers s4 ra = [] → vlineGet bus r o (invDrop s4 ra false) = .ok v' s5 →
       vlinePut bus r i o { v' with cow := 0, pending := true, opening := false } s5 = .ok () s6 →
       exec (.tableOpen id bus) s =
         .next (wwPump (endCmd (updTable s6 i fun t => { t with opened := true, wrote := false }) id stOk 0) bus)) ∧
     (invUsers s4 ra ≠ [] → exec (.tableOpen id bus) s =
       .next (updCmd (invDrop s4 ra false) id fun c => { c with work := .opening (invUsers s4 ra) }))) ∧
   (∀ (id : Nat) (c : Cmd) (bus : Bus) (o : Obj) (v : VLine) (ws : List InvWait) (s s1 s5 s6 : State),
     Dispatched s id opOpenVersion c → bits (c.raw.w 2) 1 0 = 0 → c.work = .opening ws →
     let i := hIndex (c.raw.w 1)
     let r := cmdReq id c .engine 0 .read
     objGet bus i s = .ok o s1 →
     (ws.any (waitHolds s1) = false → vlineGet bus r o s1 = .ok v s5 →
       vlinePut bus r i o { v with cow := 0, pending := true, opening := false } s5 = .ok () s6 →
       exec (.tableOpen id bus) s =
         .next (wwPump (endCmd (updTable s6 i fun t => { t with opened := true, wrote := false }) id stOk 0) bus)) ∧
     (ws.any (waitHolds s1) = true → exec (.tableOpen id bus) s = .next s1)) ∧
   (∀ (id : Nat) (c : Cmd) (bus : Bus) (o : Obj) (v : VLine) (s s1 s2 : State),
     Dispatched s id opOpenVersion c → bits (c.raw.w 2) 1 0 = 0 → c.work = .none → objGet bus (hIndex (c.raw.w 1)) s = .ok o s1 →
     vlineGet bus (cmdReq id c .engine 0 .read) o s1 = .ok v s2 →
     v.pending = true ∨ v.opening = true ∨ v.aborting = true ∨ v.ver = 0x3FFFFFFF ∨
       (bit (c.raw.w 3) 63 = true ∧ bits (c.raw.w 3) 29 0 ≠ v.ver) →
     exec (.tableOpen id bus) s = .next (endCmd s2 id stState 0)) ∧
   (∀ (id : Nat) (c : Cmd) (bus : Bus) (o : Obj) (v v' : VLine) (fs : List Frame3) (s s1 s2 s3 s4 s5 s6 s7 : State),
     Dispatched s id opOpenVersion c → bits (c.raw.w 2) 1 0 = 1 → c.work = .none →
     let i := hIndex (c.raw.w 1)
     let r := cmdReq id c .engine 0 .read
     let ra := InvScope.range o.ctx ((tableDesc o.raw).region false) (2 ^ (tableDesc o.raw).regionLog2)
     let rb := InvScope.range o.ctx ((tableDesc o.raw).region true) (2 ^ (tableDesc o.raw).regionLog2)
     let u := wwPump (failObjAps s3 i o.gen) bus
     let w := updCmd u id fun c => { c with work := .abortWait }
     let d := invDrop (invDrop s4 ra false) rb false
     let e := updCmd (pushAll d bus o.part fs) id fun c => { c with work := .abortInval [] [] }
     objGet bus i s = .ok o s1 → vlineGet bus r o s1 = .ok v s2 → v.pending = true → v.opening = false → v.aborting = false →
     vlinePut bus r i o { v with aborting := true } s2 = .ok () s3 →
     (tableBusy u i id = true → exec (.tableAbort id bus) s = .next w) ∧
     (tableBusy u i id = false → clearRegion bus o (!v.slot) w = .ok fs s4 →
       (invUsers s4 ra = [] → invUsers (invDrop s4 ra false) rb = [] → poolsQuiet e o.part = true →
         vlineGet bus r o e = .ok v' s5 → sweepTable bus r i (v'.ver + 1) s5 = .ok () s6 →
         vlinePut bus r i o { v' with pending := false, aborting := false } s6 = .ok () s7 →
         exec (.tableAbort id bus) s = .next (wwPump (endCmd s7 id stOk 0) bus)) ∧
       (invUsers s4 ra ++ invUsers (invDrop s4 ra false) rb ≠ [] → exec (.tableAbort id bus) s =
         .next (updCmd d id fun c => { c with work := .abortInval fs (invUsers s4 ra ++ invUsers (invDrop s4 ra false) rb) })))) ∧
   (∀ (id : Nat) (c : Cmd) (bus : Bus) (o : Obj) (v v' : VLine) (fs : List Frame3) (ws : List InvWait)
       (s s1 s2 s5 s6 s7 : State),
     Dispatched s id opOpenVersion c → bits (c.raw.w 2) 1 0 = 1 → c.work = .abortInval fs ws →
     let i := hIndex (c.raw.w 1)
     let r := cmdReq id c .engine 0 .read
     let e := updCmd (pushAll s2 bus o.part fs) id fun c => { c with work := .abortInval [] [] }
     objGet bus i s = .ok o s1 → vlineGet bus r o s1 = .ok v s2 →
     (ws.any (waitHolds s2) = true → exec (.tableAbort id bus) s = .next s2) ∧
     (ws.any (waitHolds s2) = false → poolsQuiet e o.part = true →
       vlineGet bus r o e = .ok v' s5 → sweepTable bus r i (v'.ver + 1) s5 = .ok () s6 →
       vlinePut bus r i o { v' with pending := false, aborting := false } s6 = .ok () s7 →
       exec (.tableAbort id bus) s = .next (wwPump (endCmd s7 id stOk 0) bus)))) ∧
  ((∀ (id : Nat) (c : Cmd) (bus : Bus) (o : Obj) (v : VLine) (s s1 s2 : State), Dispatched s id opTableFlip c →
     objGet bus (hIndex (c.raw.w 1)) s = .ok o s1 → vlineGet bus (cmdReq id c .engine 0 .read) o s1 = .ok v s2 →
     (v.pending = true ∧ v.opening = false ∧ v.aborting = false ∧ objHasAp s2 (hIndex (c.raw.w 1)) o.gen = false →
       exec (.tableFlip id bus) s = .next (updCmd s2 id fun c => { c with work := .flipWait, phase := .running })) ∧
     (v.pending = false ∨ v.opening = true ∨ v.aborting = true ∨ objHasAp s2 (hIndex (c.raw.w 1)) o.gen = true →
       exec (.tableFlip id bus) s = .next (endCmd s2 id stState 0))) ∧
   (∀ (id : Nat) (c : Cmd) (bus : Bus) (o : Obj) (v : VLine) (s s1 s2 s3 : State), cmdOf s id = some c → c.work = .flipWait →
     c.phase = .running → runsWork s = true →
     let i := hIndex (c.raw.w 1)
     let r := cmdReq id c .engine 0 .read
     (tableBusy s i id = true ∨ keyCmdBusy s i id = true → exec (.flipTakeEffect id bus) s = .next s) ∧
     (tableBusy s i id = false → keyCmdBusy s i id = false → objGet bus i s = .ok o s1 → vlineGet bus r o s1 = .ok v s2 →
       v.pending = true → v.opening = false → v.aborting = false →
       vlinePut bus r i o { v with slot := !v.slot, ver := v.ver + 1, pending := false, draining := true, flips := v.flips + 1
                                   retEvent := c.raw.w 2, retValue := c.raw.w 3 } s2 = .ok () s3 →
       exec (.flipTakeEffect id bus) s =
         .next (wwPump (endCmd { s3 with qe := { s3.qe with flips := Tab.insert s3.qe.flips i c.ctx } } id stOk 0) bus))) ∧
   (∀ (obj : BitVec 32) (bus : Bus) (o : Obj) (v : VLine) (fs : List Frame3) (p : PagePass) (s s1 s2 s3 s4 s5 : State),
     let i := obj.toNat
     let x := pumpPasses s4 bus
     runsWork s = true → i < objCount s → objGet bus i (releaseDue s bus i) = .ok o s1 → o.ty = tyTable →
     o.st = stLive ∨ o.st = stDraining → vlineGet bus selfReq o s1 = .ok v s2 → v.draining = true → v.pins (!v.slot) = 0 →
     passOf s2 i = none → clearRegion bus o (!v.slot) s2 = .ok fs s3 →
     beginPass i o.part (bothRegions o) true fs s3 = .ok () s4 → passOf x i = some p →
     (p.frames ≠ [] ∨ p.waits ≠ [] ∨ poolsQuiet x o.part = false → exec (.retirement obj bus) s = .next x) ∧
     (p.frames = [] → p.waits = [] → poolsQuiet x o.part = true →
       vlinePut bus selfReq i o { v with draining := false, retires := v.retires + 1 } (dropPass x i) = .ok () s5 →
       let y := if v.retEvent ≠ 0 then postSignal s5 bus v.retEvent v.retValue o.part (flipIssuer s5 i o) else s5
       exec (.retirement obj bus) s = .next (wwPump { y with qe := { y.qe with flips := Tab.erase y.qe.flips i } } bus))))

/-- A BAG_POOL pins the version, reads the directory image of a sharded table and its arrays, and starts with its
entries placed (R233, R243, R244, R246, R319); after its last tile it signals its event and ends OK (R266). A
segment is accepted when its quad has room for its partial, and the bag's home quad for the merge partial; else
it waits (R257); one that is accepted already starts what it can. An answer to a row's only request of the
moment: OK and nothing left, the row contributes (R251, R260); OK with requests left, it waits for them; not OK
or poisoned, its bag fails with BUS_ERROR (R254), the record being that of the request's source, or of the
port's DEADLINE source (R42, R267). -/
def Obligations.BagsRunBySegmentAndRow : Prop :=
  (∀ (id : Nat) (c : Cmd) (bus : Bus) (o : Obj) (v : VLine) (img : Option (List Byte)) (s s1 s2 s3 s4 : State),
    Dispatched s id opBagPool c → (∀ w, c.work ≠ .bag w) →
    pinVersion bus id c s = .ok () s1 → objGet bus (hIndex (c.raw.w 1)) s1 = .ok o s2 →
    vlineGet bus (cmdReq id c .engine 0 .read) o s2 = .ok v s3 →
    (c.dir = none ∧ img = none ∧ s4 = s3 ∨ ∃ d k bs, c.dir = some (d, k) ∧ img = some bs ∧
      homeGet (sysVia s3 (dirAddr s3 d k)) bus (dirAddr s3 d k) 16384 s3 = .ok bs s4) →
    ∃ w : BagWork, w.bags = c.raw.bBags ∧ w.dim = c.raw.bDim ∧ w.owner = o.ctx ∧ w.rows = (tableDesc o.raw).rows ∧ w.ents = [] ∧
      ∀ (arr : Arrays) (es : List (Nat × BagEnt)) (s5 s6 : State),
      (c.raw.bInline = true ∧ arr = inlineArrays c.raw ∧ s5 = s4 ∨
        c.raw.bInline = false ∧ readArrays bus id c (w.quad s3 0 0) s4 = .ok arr s5) →
      offsetsOk c.raw.bKeys 0 arr.offs = true → splitEnts bus id c w arr img s3.bl.nodeId.toNat s5 = .ok es s6 →
      let w1 : BagWork := { w with ents := setPos es [] }
      let w2 : BagWork := { w1 with msgs := if w1.unplaced then [] else msgsOf w1 img }
      exec (.bagPool id bus) s = .next (launchBag
        (updCmd s6 id fun c => { c with work := .bag w2, phase := .running }) bus id w2)) ∧
  (∀ (id : Nat) (c : Cmd) (bus : Bus) (w : BagWork) (s : State), Dispatched s id opBagPool c → c.work = .bag w →
    (w.tile * w.tileRows < w.bags →
      exec (.bagPool id bus) s = .next (updCmd s id fun c => { c with phase := .running })) ∧
    (w.bags ≤ w.tile * w.tileRows → c.raw.w 2 = 0 → exec (.bagPool id bus) s = .next (endCmd s id stOk 0)) ∧
    (∀ o s1 s2, w.bags ≤ w.tile * w.tileRows → c.raw.w 2 ≠ 0 → objGet bus (hIndex (c.raw.w 2)) s = .ok o s1 →
      signalEvent bus o (c.raw.w 2) (c.raw.w 3) c.ctx (cmdReq id c .engine 0 .atomic) s1 = .ok () s2 →
      exec (.bagPool id bus) s = .next (endCmd s2 id stOk 0))) ∧
  (∀ (id bag seg : Nat) (bus : Bus) (w : BagWork) (g : Seg) (a : BagAcc) (s : State), runsWork s = true →
    bagOf s id = some w → w.segs.find? (fun g => decide (g.bag = bag ∧ g.seg = seg)) = some g → Tab.find? w.accs bag = some a →
    let n := partBytes w.dim
    let quad := w.quad s bag seg
    let home := if seg = 0 then quad else w.homeOf s bag a
    let need := if a.merge = true ∧ home = a.home then 0 else (1 + a.reserved) * n
    let fits := if home = quad then quadUsed s quad + n + need ≤ 262144
      else quadUsed s quad + n ≤ 262144 ∧ quadUsed s home + need ≤ 262144
    (g.taken = false → fits → ∃ ready, (w.det = false → ready = 0) ∧
      exec (.segmentAccept id bag seg bus) s = .next (sendPools (settleSeg (startSeg (setBag s id { w with
        segs := w.segs.map fun x => if x.bag = bag ∧ x.seg = seg then { x with taken := true, quad := quad, got := ready } else x
        accs := Tab.modify w.accs bag fun a => { a with home := home, merge := true } }) bus id bag seg) bus id bag seg) bus id)) ∧
    (g.taken = false → ¬ fits → exec (.segmentAccept id bag seg bus) s = .next (sendPools s bus id)) ∧
    (g.taken = true → exec (.segmentAccept id bag seg bus) s = .next (sendPools (startSeg s bus id bag seg) bus id))) ∧
  (∀ (id e port tag k : Nat) (st : BusStatus) (r : GwReq) (c : Cmd) (w : BagWork) (x : BagEnt) (f : InFmt) (s : State),
    rowReqs s id e = [(port, tag, r)] → cmdOf s id = some c → c.work = .bag w → Tab.find? w.ents e = some x →
    x.st = .fetching (k + 1) none → InFmt.ofCode w.inFmt.toNat = some f →
    let bad := (linesOf r.addr r.len).any (fun l => (Tab.find? s.mem.poison l).isSome)
    let s1 := updGw s port fun g => { g with out := Tab.erase g.out tag }
    let src := srcId 6 ((port - gwBase s.build 0) / 4) 0
    let v : Via := ⟨port, src, r.part, false, none, none, none⟩
    let s2 := report s1 (reqEvent v r.addr 0) v.mid
    let s3 := quarantineTag s port tag r (reqEvent v r.addr 0)
    let data := s.mem.bytes s.free r.addr r.len
    let lost (u : State) (src : BitVec 16) : State := setEnt u id e (rowAnswered false src data r.lo)
    (st = .ok → bad = false → k = 0 → exec (.rowFetchResponse id e st) s = .next (sendPools (pumpRows (contribute
      (setEnt s1 id e (rowAnswered true src data r.lo)) [] id e
      (f.row w.dim (gather (x.got ++ [(r.lo, data)]) x.addr w.needed)))) [] id)) ∧
    (st = .ok → bad = false → k ≠ 0 → exec (.rowFetchResponse id e st) s =
      .next (sendPools (pumpRows (setEnt s1 id e (rowAnswered true src data r.lo))) [] id)) ∧
    ((st = .ok ∧ bad = true ∨ st ≠ .ok ∧ st ≠ .deadline) → cmdOf s2 id = some c → k = x.todo.length →
      exec (.rowFetchResponse id e st) s = .next (sendPools (pumpRows (bagFail (lost s2 src) [] id stBusError
        (recDetail (lost s2 src) src) 0 (w.failSrc x.bag))) [] id)) ∧
    (st = .deadline → cmdOf s3 id = some c → k = x.todo.length →
      exec (.rowFetchResponse id e st) s = .next (sendPools (pumpRows (bagFail (lost s3 (srcId 13 port 0)) [] id stBusError
        (recDetail (lost s3 (srcId 13 port 0)) (srcId 13 port 0)) 0 (w.failSrc x.bag))) [] id)))

/-- A tile is a 256 B header and, with EMPTY_SKIP clear, P beats of 256 B for each of its rows in bag order, row b
holding the output row of its bag (R263, R264, R265). A tile is accepted with its header and data, in tile
order, and the command signals its event and ends after its last one (R44, R264, R266); the tile of a command
that has ended is delivered all the same (R268). A stall of 1 ms at a beat raises one fault and keeps the tile;
a stall at a later beat is another, and one at the same beat is not (R45). Quads retire but for the last; BUSY
clears once no retired quad holds an accepted segment (R270). -/
def Obligations.TilesAndQuads : Prop :=
  (∀ (id : Nat) (w : BagWork), w.tile * w.tileRows < w.bags → w.skip = false →
     let n := min w.bags (w.tile * w.tileRows + w.tileRows) - w.tile * w.tileRows
     let p := beatsPerRow w
     (makeTile id w).head.length = 256 ∧ (makeTile id w).data.length = 256 * p * n ∧
     (w.bags ≤ w.tile * w.tileRows + w.tileRows → (makeTile id w).last = true) ∧
     (w.tile * w.tileRows + w.tileRows < w.bags → (makeTile id w).last = false) ∧
     ∀ b < n, ∀ a, Tab.find? w.accs (w.tile * w.tileRows + b) = some a →
       ((makeTile id w).data.drop (256 * p * b)).take (256 * p) = (outRow w (a.acc.getD (zeroVec w.dim))).1) ∧
  ((∀ (port : Nat) (bus : Bus) (tp : TilePort) (t : Tile) (c : Cmd) (w : BagWork) (s : State), runsWork s = true →
     Tab.get {} s.pa.tports port = tp → tp.cur = some t → cmdOf s t.cmd = some c → c.work = .bag w →
     ∃ u, cmdOf u t.cmd = some { c with work := .bag { w with tile := w.tile + 1, sent := false, accepted := w.accepted + t.ents }
                                        progress := c.progress + t.ents } ∧
       .tile port t.head t.data ∈ u.out ∧ u.mem = s.mem ∧ u.pa.tiles = s.pa.tiles + 1 ∧ Tab.get {} u.pa.tports port = {} ∧
       (t.last = false → exec (.tileAccept port bus) s = .next (startTile u port)) ∧
       let y := updCmd u t.cmd fun c => { c with phase := .dispatched }
       (t.last = true → c.raw.w 2 = 0 → exec (.tileAccept port bus) s = .next (startTile (endCmd y t.cmd stOk 0) port)) ∧
       (∀ o s1 s2, t.last = true → c.raw.w 2 ≠ 0 → objGet bus (hIndex (c.raw.w 2)) y = .ok o s1 →
         signalEvent bus o (c.raw.w 2) (c.raw.w 3) c.ctx (cmdReq t.cmd c .engine 0 .atomic) s1 = .ok () s2 →
         exec (.tileAccept port bus) s = .next (startTile (endCmd s2 t.cmd stOk 0) port))) ∧
   (∀ (port : Nat) (bus : Bus) (t : Tile) (s : State), runsWork s = true →
     (Tab.get {} s.pa.tports port).cur = some t → (∀ c, cmdOf s t.cmd = some c → ∀ w, c.work ≠ .bag w) →
     ∃ u, exec (.tileAccept port bus) s = .next (startTile u port) ∧
       .tile port t.head t.data ∈ u.out ∧ u.qe = s.qe ∧ u.mem = s.mem ∧ u.pa.tiles = s.pa.tiles + 1 ∧ Tab.get {} u.pa.tports port = {}) ∧
   (∀ (port : Nat) (bus : Bus) (s : State), runsWork s = false → exec (.tileAccept port bus) s = .next s) ∧
   (∀ (port beat : Nat) (tp : TilePort) (s : State), Tab.get {} s.pa.tports port = tp →
     (tp.cur.isSome = true → (∀ b, tp.stalled = some b → b < beat) → exec (.tileStallTimeout ⟨port, beat⟩) s = .next (note
       { s with pa := { s.pa with tports := Tab.set {} s.pa.tports port { tp with stalled := some beat } } }
       { source := srcId 6 port 1, info := BitVec.ofNat 16 port })) ∧
     ((tp.cur = none ∨ ∃ b, tp.stalled = some b ∧ beat ≤ b) → exec (.tileStallTimeout ⟨port, beat⟩) s = .next s)) ∧
   (∀ (mask : BitVec 12) (s : State), s.build.lanes / 4 ≤ 12 →
     let p := s.build.lanes / 4
     (barOk s = true → s.pa.retBusy = false → mask.toNat &&& maskOf p ≠ maskOf p →
       ∃ t, exec (.quadRetire mask) s = .next t ∧ t.pa.tports = s.pa.tports ∧ t.qe = s.qe ∧
         (t.pa.retBusy = true ↔ t.pa.retire ≠ s.pa.retire) ∧
         ∀ i < p, i ∈ liveQuads t ↔ mask.getLsbD i = false) ∧
     (barOk s = false ∨ s.pa.retBusy = true ∨ mask.toNat &&& maskOf p = maskOf p → exec (.quadRetire mask) s = .next s)) ∧
   (∀ s : State,
     (s.pa.retBusy = true → (∀ q < s.build.lanes / 4, s.pa.retire.getLsbD q = true → quadBusy s q = false) →
       exec .quadRetireDone s = .next { s with pa := { s.pa with retBusy := false } }) ∧
     (s.pa.retBusy = false ∨ (∃ q < s.build.lanes / 4, s.pa.retire.getLsbD q = true ∧ quadBusy s q = true) →
       exec .quadRetireDone s = .next s)))

/-- COPY waits at the channel of its partition with COPY set that has the fewest waiting runs, the lowest-numbered
on a tie, and ends with STATE where there is none (R335), and with BAD_FIELD for no bytes or for host results
of a confidential context that seals none (R135, R416). RUN_CHANNEL waits at the channel it names, which its
partition must own (R331); for a confidential context every page of the program must be measured (R416). A run
starts where the channel is IDLE, in order, and loads its program; a COPY that starts runs MOVEs that cover its
bytes in order and ends with STOP. -/
def Obligations.ChannelsTakeRuns : Prop :=
  (∀ (id : Nat) (c : Cmd) (s : State), Dispatched s id opCopy c → bits (c.raw.w 3) 37 0 ≠ 0 →
    bit (c.raw.w 4) 0 = false ∨ (ctxOf s c.ctx).sret = true ∨ (ctxOf s c.ctx).conf = false →
    let own := fun k => k < s.build.channels ∧ (chan s k).copy = true ∧ chanPart s k = some c.part
    (∀ k, own k → (∀ j, own j → (chan s k).queue.length < (chan s j).queue.length ∨
        ((chan s k).queue.length = (chan s j).queue.length ∧ k ≤ j)) →
      exec (.copy id) s = .next (updCmd (updChan s k fun c => { c with queue := c.queue ++ [id] }) id fun c =>
        { c with phase := .running, work := .mover k })) ∧
    ((∀ k, ¬ own k) → exec (.copy id) s = .next (endCmd s id stState 0))) ∧
  (∀ (id : Nat) (c : Cmd) (s : State), Dispatched s id opCopy c → bits (c.raw.w 3) 37 0 = 0 ∨
    bit (c.raw.w 4) 0 = true ∧ (ctxOf s c.ctx).sret = false ∧ (ctxOf s c.ctx).conf = true →
    exec (.copy id) s = .next (endCmd s id stBadField 0)) ∧
  (∀ (id : Nat) (c : Cmd) (bus : Bus) (s : State), Dispatched s id opRunChannel c →
    let k := bits (c.raw.w 2) 5 0
    (k < s.build.channels → chanPart s k = some c.part → (ctxOf s c.ctx).conf = false →
      exec (.runChannel id bus) s = .next (updCmd (updChan s k fun c => { c with queue := c.queue ++ [id] }) id fun c =>
        { c with phase := .running, work := .mover k })) ∧
    (∀ o m s1 s2, k < s.build.channels → chanPart s k = some c.part → (ctxOf s c.ctx).conf = true →
      objGet bus (hIndex (c.raw.w 1)) s = .ok o s1 → allMeasured bus o s1 = .ok m s2 →
      exec (.runChannel id bus) s = .next (if m then updCmd (updChan s2 k fun c => { c with queue := c.queue ++ [id] }) id fun c =>
        { c with phase := .running, work := .mover k } else endCmd s2 id stState 0)) ∧
    (s.build.channels ≤ k ∨ chanPart s k ≠ some c.part →
      exec (.runChannel id bus) s = .next (endCmd s id stBadField 0))) ∧
  (∀ (ch : Nat) (bus : Bus) (s : State),
    (runsWork s = true → (chan s ch).st = .loading →
      exec (.channelRunStart ch bus) s = .next (settleRun (loadRun s bus ch) bus ch)) ∧
    (∀ id t c, runsWork s = true → (chan s ch).st = .idle → (chan s ch).queue = id :: t → cmdOf s id = some c →
      exec (.channelRunStart ch bus) s = .next (settleRun (loadRun (updChan s ch fun x => { x with
        queue := t, st := .loading, run := some { cmd := id, ctx := c.ctx, arg0 := c.raw.w 3, arg1 := c.raw.w 4 } }) bus ch) bus ch)) ∧
    (runsWork s = false ∨ (chan s ch).st = .idle ∧ (chan s ch).queue = [] ∨
        ((chan s ch).st ≠ .idle ∧ (chan s ch).st ≠ .loading) →
      exec (.channelRunStart ch bus) s = .next s)) ∧
  (∀ (ch id : Nat) (t : List Nat) (c : Cmd) (bus : Bus) (s : State), runsWork s = true → (chan s ch).st = .idle →
    (chan s ch).queue = id :: t → cmdOf s id = some c → c.raw.opcode = opCopy →
    ∃ u, exec (.channelRunStart ch bus) s = .next u ∧ (chan u ch).st = .running ∧ (chan u ch).queue = t ∧ u.mem = s.mem ∧
      ∃ r, (chan u ch).run = some r ∧ r.cmd = id ∧ r.ctx = c.ctx ∧ r.pc = 0 ∧ r.stopOnBad = true ∧
        r.prog = copyProg (c.raw.w 1) (c.raw.w 2) (bit (c.raw.w 4) 0) 129 (bits (c.raw.w 3) 37 0)) ∧
  (∀ (src dst : Word) (host : Bool) (len : Nat), 0 < len → len ≤ 2 ^ 31 →
    copyProg src dst host 129 len = [BitVec.ofNat 64 (len * 2 ^ 32 + flagAt host 16 + 1), src, dst, 0, 7]) ∧
  (∀ (src dst : Word) (host : Bool) (fuel len : Nat), 2 ^ 31 < len →
    copyProg src dst host (fuel + 1) len = BitVec.ofNat 64 (2 ^ 31 * 2 ^ 32 + flagAt host 16 + 1) :: src :: dst :: 0 ::
      copyProg (src + BitVec.ofNat 64 (2 ^ 31)) (dst + BitVec.ofNat 64 (2 ^ 31)) host fuel (len - 2 ^ 31))

/-- Loops, NOPs and fences of a program (R338, R350): a LOOP enters its body or skips it where COUNT is 0, an
ENDLOOP goes back to it until COUNT passes are done, and a FENCE but READ waits until every earlier write is
acknowledged. A HOST fence whose writes used host ports sends their flush reads, where the function issues
requests (R108), and passes once they are answered. MOVE, WAIT, SIGNAL and STOP of a program. An execution is
carried out and counted; one that waits stays current, one whose remote writes are not acknowledged stays open,
at most eight (R349); a misaligned or failed one goes BAD (R357, R358). A WAIT goes on once the event is at its
target; it ends the run with TIMEOUT where its value is not there in time (R149, R354), and ABORTED where the
context is being disabled (R115; log entry 98). At most four SIGNALs are pending, each after the flush reads of
the host ports used before it; one is set, here or at its node, when its conditions hold, after the status
words where it asks for them (R351, R352, R359). STOP sends its flush reads and ends the run: with nothing left
to answer its channel is IDLE and its command ends (R355). -/
def Obligations.ProgramsRun : Prop :=
  ((∀ (ch : Nat) (r : Run) (s : State), ChannelAt s ch 2 r →
     let w := r.prog.getD r.pc 0
     let x := r.prog.getD (r.pc + 1) 0
     ∃ t, exec (.loop ch) s = .next t ∧ t.mem = s.mem ∧ (chan t ch).st = .running ∧
       (bits w 63 32 ≠ 0 → (chan t ch).run = some { r with
         pc := r.pc + 2
         loops := ⟨r.pc + 2, bits w 63 32, 0, BitVec.ofNat 32 (bits x 31 0), BitVec.ofNat 32 (bits x 63 32)⟩ :: r.loops }) ∧
       (bits w 63 32 = 0 → (chan t ch).run = some { r with pc := skipLoop r.prog r.prog.length (r.pc + 2) 0 })) ∧
   (∀ (ch : Nat) (r : Run) (l : LoopFr) (ls : List LoopFr) (s : State), ChannelAt s ch 3 r → r.loops = l :: ls →
     ∃ t, exec (.endloop ch) s = .next t ∧ t.mem = s.mem ∧ (chan t ch).st = .running ∧
       (l.idx + 1 < l.count → (chan t ch).run = some { r with pc := l.body, loops := { l with idx := l.idx + 1 } :: ls }) ∧
       (l.count ≤ l.idx + 1 → (chan t ch).run = some { r with pc := r.pc + 1, loops := ls })) ∧
   (∀ (ch : Nat) (r : Run) (s : State), ChannelAt s ch 0 r →
     ∃ t, exec (.channelNop ch) s = .next t ∧ t.mem = s.mem ∧ (chan t ch).st = .running ∧
       (chan t ch).run = some { r with pc := r.pc + 1 }) ∧
   (∀ (ch : Nat) (r : Run) (s : State), ChannelAt s ch 6 r →
     let mode := bits (r.prog.getD r.pc 0) 9 8
     (mode = 0 ∨ (mode ≠ 3 ∧ r.execs = [] ∧ hintsDone s r.hints = true) →
       ∃ t, exec (.fence ch) s = .next t ∧ t.mem = s.mem ∧ (chan t ch).run = some { r with pc := r.pc + 1 }) ∧
     (mode = 3 → r.execs = [] → hintsDone s r.hints = true → r.fence = none → r.ports = [] →
       ∃ t, exec (.fence ch) s = .next t ∧ t.mem = s.mem ∧ (chan t ch).run = some { r with pc := r.pc + 1, hostMs := [] }) ∧
     (mode = 3 → r.execs = [] → hintsDone s r.hints = true → r.fence = none → r.ports ≠ [] →
       (fnIssues s (ctxFn s r.ctx) = false → exec (.fence ch) s = .next s) ∧
       (fnIssues s (ctxFn s r.ctx) = true → (chanFlush s ch).2 ≠ [] → exec (.fence ch) s =
         .next (updRun (chanFlush s ch).1 ch fun r => { r with fence := some (chanFlush s ch).2 }))) ∧
     (mode = 3 → r.execs = [] → hintsDone s r.hints = true →
       (r.fence = some [] → ∃ t, exec (.fence ch) s = .next t ∧ t.mem = s.mem ∧
         (chan t ch).run = some { r with pc := r.pc + 1, fence := none }) ∧
       (∀ f fs, r.fence = some (f :: fs) → exec (.fence ch) s = .next s)) ∧
     (mode ≠ 0 → r.execs ≠ [] ∨ hintsDone s r.hints = false → exec (.fence ch) s = .next s))) ∧
  ((∀ (ch : Nat) (r : Run) (bus : Bus) (s : State), ChannelAt s ch 1 r →
     (r.cur.isSome = true → exec (.move ch bus) s = .next (settleRun (stepCur s bus ch) bus ch)) ∧
     (r.cur = none → 8 ≤ r.execs.length → exec (.move ch bus) s = .next s)) ∧
   (∀ (ch : Nat) (r : Run) (bus : Bus) (s u : State) (e' : Exec) (res : IoRes), ChannelAt s ch 1 r → r.cur = none → r.execs.length < 8 →
     let e := newExec r
     let s1 := updStat s ch e.m fun w => { w with execs := if w.execs.toNat < 0xFFFFFFFF then w.execs + 1 else w.execs }
     (misaligned e = true → exec (.move ch bus) s =
       .next (settleRun (badExec (updRun s1 ch advance) ch e mcAlign stBadField 0) bus ch)) ∧
     (misaligned e = false → ∀ r1, (chan (updRun s1 ch fun r => { r with cur := some e }) ch).run = some r1 →
       runExec bus (mvCx (updRun s1 ch fun r => { r with cur := some e }) ch r1) r1.busy
         (updRun s1 ch fun r => { r with cur := some e }) e = (u, e', res) →
       (res = .done → e'.acks = [] →
         exec (.move ch bus) s = .next (settleRun (doneExec (closeCur u ch e') ch e'.m) bus ch)) ∧
       (res = .done → e'.acks ≠ [] → exec (.move ch bus) s =
         .next (settleRun (updRun (closeCur u ch e') ch fun r => { r with execs := r.execs ++ [e'] }) bus ch)) ∧
       (res = .wait ∨ (∃ k, res = .held k) →
         exec (.move ch bus) s = .next (settleRun (updRun u ch fun r => { r with cur := some e' }) bus ch)) ∧
       (∀ c st d, res = .bad c st d →
         exec (.move ch bus) s = .next (settleRun (badExec (closeCur u ch e') ch e' c st d) bus ch)))) ∧
   (∀ (ch a v : Nat) (r : Run) (o : Obj) (pte : Word) (sz : Nat) (bus : Bus) (s s1 s2 s3 : State), ChannelAt s ch 4 r →
     r.held = none → objGet bus (hIndex (r.prog.getD (r.pc + 1) 0)) s = .ok o s1 →
     translate s1 bus { (mvCx s ch r).req r.ctx (BitVec.ofNat 64 o.va) .read with user := .engine } = (s2, .ok a pte sz) →
     eventValue bus o.part r.cmd a s2 = .ok v s3 → chan s3 ch = chan s ch →
     ((sigValue r).toNat ≤ v → ∃ t, exec (.channelWait ch bus) s = .next t ∧ t.mem = s3.mem ∧ (chan t ch).st = .running ∧
       (chan t ch).run = some { r with pc := r.pc + 3, wait := none }) ∧
     (v < (sigValue r).toNat → (ctxOf s3 r.ctx).disabling = false → ∃ t, exec (.channelWait ch bus) s = .next t ∧
       t.mem = s3.mem ∧ (chan t ch).st = .waiting ∧
       ∃ w, (chan t ch).run = some { r with wait := some w } ∧ w.target = sigValue r ∧ w.addr = a) ∧
     (v < (sigValue r).toNat → (ctxOf s3 r.ctx).disabling = true →
       exec (.channelWait ch bus) s = .next (settleRun (failRun s3 ch stAborted 0) bus ch))) ∧
   (∀ (ch t v : Nat) (r : Run) (w : ChWait) (s u : State), (chan s ch).run = some r → r.wait = some w → w.limit = some t →
     (runsWork s = false → exec (.channelWaitTimeout ch) s = .next s) ∧
     (runsWork s = true → eventValue [] (mvCx s ch r).part r.cmd w.addr (reach s t) = .ok v u →
       (w.target.toNat ≤ v → exec (.channelWaitTimeout ch) s = .next (settleRun (waitMet u ch) [] ch)) ∧
       (v < w.target.toNat → exec (.channelWaitTimeout ch) s = .next (settleRun (failRun u ch stTimeout 0) [] ch))) ∧
     (∀ e, runsWork s = true → eventValue [] (mvCx s ch r).part r.cmd w.addr (reach s t) = .error e u →
       (e ≠ .wait → exec (.channelWaitTimeout ch) s = .next (settleRun (failRun u ch stTimeout 0) [] ch)) ∧
       (e = .wait → exec (.channelWaitTimeout ch) s = .next (settleRun (waitBack (reach s t) u) [] ch)))) ∧
   (∀ (ch : Nat) (r : Run) (s : State), ChannelAt s ch 5 r →
     (4 ≤ r.sigs.length → exec (.channelSignal ch) s = .next s) ∧
     (r.sigs.length < 4 → r.ports = [] → ∃ t g, exec (.channelSignal ch) s = .next t ∧ t.mem = s.mem ∧
       (chan t ch).run = some { r with pc := r.pc + 3, hostMs := [], sigs := r.sigs ++ [g] } ∧
       g.event = r.prog.getD (r.pc + 1) 0 ∧ g.value = sigValue r ∧ g.sent = none) ∧
     (r.sigs.length < 4 → r.ports ≠ [] → fnIssues s (ctxFn s r.ctx) = false → exec (.channelSignal ch) s = .next s) ∧
     (r.sigs.length < 4 → r.ports ≠ [] → fnIssues s (ctxFn s r.ctx) = true → ∃ g,
       exec (.channelSignal ch) s = .next (updRun (chanFlush s ch).1 ch fun r =>
         { r with pc := r.pc + mvLen (r.prog.getD r.pc 0), sigs := r.sigs ++ [g] }) ∧
       g.event = r.prog.getD (r.pc + 1) 0 ∧ g.value = sigValue r ∧ g.sent = none ∧ g.flush = (chanFlush s ch).2)) ∧
   (∀ (ch : Nat) (r : Run) (g : PendSig) (gs : List PendSig) (bus : Bus) (s : State), runsWork s = true →
     (chan s ch).run = some r → (chan s ch).st ≠ .aborting → r.sigs = g :: gs → r.held = none → g.sent = none → g.flush = [] →
     (g.after.any fun id => s.bl.reqs.any fun e => decide (e.2.id = id)) = false → hintsDone s g.hints = true →
     (∀ o s1 s2, g.status = false → g.remote = false → objGet bus (hIndex g.event) s = .ok o s1 →
       signalIn bus r.ctx o g.event g.value r.ctx ((mvCx s ch r).req r.ctx 0 .atomic) s1 = .ok () s2 →
       exec (.channelSignalSet ch bus) s = .next (settleRun (updRun s2 ch fun r => { r with sigs := r.sigs.tail }) bus ch)) ∧
     (∀ s1 id, g.status = false → g.remote = true →
       mvSend s (mvCx s ch r) g.node opRSignal (.chSignal ch) g.event.toNat g.value.toNat [] = .ok s1 id →
       ∃ u, exec (.channelSignalSet ch bus) s = .next (settleRun u bus ch) ∧ u = updRun s1 ch fun r =>
         { r with sigs := (r.sigs.take 1).map (fun h : PendSig => { h with sent := some id }) ++ r.sigs.tail }) ∧
     (g.status = false → g.remote = true →
       mvSend s (mvCx s ch r) g.node opRSignal (.chSignal ch) g.event.toNat g.value.toNat [] = .fail →
       exec (.channelSignalSet ch bus) s = .next (settleRun (failRun s ch stRemote (nodeDetail g.node)) bus ch)) ∧
     (∀ s1, g.status = true → statStep s bus ch = (s1, none) → exec (.channelSignalSet ch bus) s = .next s1) ∧
     (∀ s1 st d, g.status = true → statStep s bus ch = (s1, some (some (st, d))) → exec (.channelSignalSet ch bus) s =
       .next (settleRun (failRun (updRun s1 ch fun r => { r with wrote := true }) ch st d) bus ch)) ∧
     (∀ s1, g.status = true → statStep s bus ch = (s1, some none) → exec (.channelSignalSet ch bus) s =
       .next (settleRun (setSignal (updRun s1 ch fun r =>
         { r with sigs := (r.sigs.take 1).map (fun h : PendSig => { h with status := false }) ++ r.sigs.tail }) bus ch r { g with status := false }) bus ch))) ∧
   (∀ (ch : Nat) (r : Run) (g : PendSig) (gs : List PendSig) (bus : Bus) (s : State), (chan s ch).run = some r → r.sigs = g :: gs →
     (runsWork s = false ∨ r.held.isSome = true ∨ g.sent.isSome = true ∨ g.flush ≠ [] ∨ (chan s ch).st = .aborting ∨
       (g.after.any fun id => s.bl.reqs.any fun e => decide (e.2.id = id)) = true ∨ hintsDone s g.hints = false) →
     exec (.channelSignalSet ch bus) s = .next s) ∧
   (∀ (ch : Nat) (r : Run) (bus : Bus) (s : State), ChannelAt s ch 7 r →
     (r.execs ≠ [] ∨ hintsDone s r.hints = false ∨ r.ports ≠ [] ∧ fnIssues s (ctxFn s r.ctx) = false →
       exec (.stop ch bus) s = .next s) ∧
     (r.execs = [] → hintsDone s r.hints = true → r.ports = [] ∨ fnIssues s (ctxFn s r.ctx) = true →
       exec (.stop ch bus) s = .next (settleRun (updChan (chanFlush s ch).1 ch fun c => { c with
         st := .ending, run := c.run.map fun r => { r with last := some (chanFlush s ch).2 } }) bus ch))) ∧
   (∀ (ch : Nat) (r : Run) (bus : Bus) (s : State), ChannelAt s ch 7 r → r.execs = [] → hintsDone s r.hints = true →
     r.ports = [] → r.sigs = [] → r.flushes = [] → r.held = none → r.io = none → r.statVa = 0 → r.pins = [] →
     r.fail = none → r.flushBad = false → r.builtin = false → r.wrote = false → chQuiet s ch = true →
     ∃ u, exec (.stop ch bus) s = .next (endCmd u r.cmd stOk 0) ∧ (chan u ch).st = .idle ∧ (chan u ch).run = none ∧
       u.mem = s.mem))

/-- REMOTE_WRITE ends with BAD_FIELD, and has no other effect, where a field, the node or the key is not allowed
(R306). Otherwise it sends its messages in order, each within a 4 KiB page of its destination (the model's
remSend). One whose destination lies in one page sends, once its source bytes are at hand (at once where they
stand in the command), one message with exactly these bytes, and then runs on until the one acknowledgement; it
ends with REMOTE and the node where that message cannot be sent (R312). REMOTE_SIGNAL is checked likewise,
waits while an earlier REMOTE_WRITE of its queue to the node has not sent all its messages (R311), and sends
its message (R310). A request whose patience ends is counted in TIMEOUTS and ends its REMOTE_WRITE with REMOTE
and the node (R312). -/
def Obligations.RemoteCommandsSend : Prop :=
  (∀ (id : Nat) (c : Cmd) (bus : Bus) (s : State), Dispatched s id opRemoteWrite c → c.work = .none →
    let len := (c.raw.w 3).toNat
    let node := bits (c.raw.w 1) 57 48
    let key := bits (c.raw.w 4) 7 0
    let dst := bits (c.raw.w 1) 57 0
    let good := 1 ≤ len ∧ len ≤ 2 ^ 30 ∧ node ≠ s.bl.nodeId.toNat ∧ bits (c.raw.w 1) 63 58 = 0 ∧
      (c.raw.w 2 = 0 → len ≤ 960) ∧ keyOk s key c.ctx c.part = true
    let u := updCmd s id fun c => { c with work := .remote ⟨0, [], [], none⟩ }
    (¬good → exec (.remoteWrite id bus) s = .next (endCmd s id stBadField 0)) ∧
    (good → ∀ t, remSend bus id c (len / 4096 + 3) u = .ok () t → exec (.remoteWrite id bus) s = .next t) ∧
    (good → ∀ t, remSend bus id c (len / 4096 + 3) u = .error .wait t → exec (.remoteWrite id bus) s = .next (waitBack s t)) ∧
    (good → ∀ e t, e ≠ .wait → remSend bus id c (len / 4096 + 3) u = .error e t →
      exec (.remoteWrite id bus) s = .next (stopCmd id t e)) ∧
    (c.raw.w 2 = 0 → 0 < len →
      remFill bus id c len 4 u = .ok true (updRem u id fun w => { w with got := (c.raw.pips.drop w.sent).take len })) ∧
    (∀ (x : Cmd) (data : List Byte) (v : State), good → dst % 4096 + len ≤ 4096 → remFill bus id c len 4 u = .ok true v →
      cmdOf v id = some x → x.work = .remote ⟨0, [], data, none⟩ →
      let sent := sendRequest v node opRWrite key c.part (.write id 0) dst 0 0 data
      (∀ s' rid, sent = .ok s' rid → key = 0 ∨ cmdOf s' id = cmdOf v id →
        ∃ t y, exec (.remoteWrite id bus) s = .next t ∧ cmdOf t id = some y ∧ y.phase = .running ∧
          y.work = .remote ⟨len, [0], [], none⟩ ∧ t.bl = s'.bl ∧ t.out = s'.out ∧ t.mem = s'.mem) ∧
      (sent = .fail → exec (.remoteWrite id bus) s = .next (endCmd v id stRemote (nodeDetail node))))) ∧
  (∀ (id : Nat) (c : Cmd) (s : State), Dispatched s id opRemoteSignal c →
    let node := bits (c.raw.w 3) 9 0
    let key := bits (c.raw.w 3) 23 16
    let sent := sendRequest s node opRSignal key c.part (.signal id) (c.raw.w 1).toNat (c.raw.w 2).toNat 0 []
    (node = s.bl.nodeId.toNat ∨ keyOk s key c.ctx c.part = false →
      exec (.remoteSignal id) s = .next (endCmd s id stBadField 0)) ∧
    (node ≠ s.bl.nodeId.toNat → keyOk s key c.ctx c.part = true →
      (remBehind s id c node = true ∨ sent = .full → exec (.remoteSignal id) s = .next s) ∧
      (remBehind s id c node = false →
        (∀ s' rid, sent = .ok s' rid → exec (.remoteSignal id) s =
          .next (updCmd s' id fun c => { c with work := .remote ⟨0, [], [], none⟩, phase := .running })) ∧
        (sent = .fail → exec (.remoteSignal id) s = .next (endCmd s id stRemote (nodeDetail node)))))) ∧
  (∀ (node : BitVec 10) (req : BitVec 12) (id off : Nat) (r : RReq) (bus : Bus) (s : State), runsWork s = true →
    Tab.find? s.bl.reqs (node.toNat * 4096 + req.toNat) = some r → r.owner = .write id off →
    ∃ u, exec (.remotePatienceExpire node req bus) s = .next (endCmd u id stRemote (nodeDetail r.node.toNat)) ∧
      u.bl.timeouts = s.bl.timeouts + 1 ∧ Tab.find? u.bl.reqs (node.toNat * 4096 + req.toNat) = none ∧
      r.tick + 1000 * s.bl.patience.toNat ≤ u.tick)

/-- A response goes to the request it answers, which is outstanding no longer (R303, R304). READ_DATA goes to the
channel or the REMOTE_WRITE that reads, ATOMIC_RESULT to its channel, the records of a POOL_PARTIAL to their
bag. An ACK takes its message off a REMOTE_WRITE, which ends OK with the last one, ends a REMOTE_SIGNAL OK, or
goes to its channel. A NACK is counted and ends its command or its channel's instruction, with REMOTE and the
node, or, for a bag, with KEY_FAULT at code 8. A response that answers no outstanding request is dropped and
counted in LATE. -/
def Obligations.ResponsesAnswerTheirRequests : Prop :=
  (∀ (m k ch kb : Nat) (bus : Bus) (msg : Msg) (r : RReq) (s : State), ResponseAt s m opReadData msg → Answers s msg k r →
    r.owner = .chRead ch kb →
    exec (.readData m bus) s = .next (chanData (answered s m k) bus ch r.id ((msg.payload.drop 32).take (leAt msg.payload 4 4)))) ∧
  (∀ (m k id n : Nat) (bus : Bus) (msg : Msg) (r : RReq) (c : Cmd) (w : RemWork) (s : State), ResponseAt s m opReadData msg →
    Answers s msg k r → r.owner = .fetch id → cmdOf s id = some c → c.work = .remote w → w.rd = some (r.id, n) →
    ∃ t x, exec (.readData m bus) s = .next t ∧ cmdOf t id = some x ∧ x.phase = c.phase ∧ t.mem = s.mem ∧
      x.work = .remote { w with rd := none, got := w.got ++ padTo n ((msg.payload.drop 32).take (leAt msg.payload 4 4)) }) ∧
  (∀ (m k ch : Nat) (bus : Bus) (msg : Msg) (r : RReq) (s : State), ResponseAt s m opAtomicResult msg → Answers s msg k r →
    r.owner = .chAtomic ch → exec (.atomicResult m bus) s =
      .next (chanData (answered s m k) bus ch r.id ((msg.payload.drop 32).take (leAt msg.payload 4 4)))) ∧
  (∀ (m k id shard records : Nat) (msg : Msg) (r : RReq) (w : BagWork) (s : State), ResponseAt s m opPoolPartial msg →
    Answers s msg k r → r.owner = .pool id shard records → bagOf (answered s m k) id = some w →
    exec (.poolPartial m) s = .next (sendPools (each (fun s x => pieceArrive s [] id x.1 x.2) (answered s m k)
      (partials shard w.dim (min records (msg.arg1 / 2 ^ 16 % 2 ^ 16)) msg.data)) [] id)) ∧
  (∀ (m k id off : Nat) (bus : Bus) (msg : Msg) (r : RReq) (c : Cmd) (w : RemWork) (s : State), ResponseAt s m opAck msg →
    Answers s msg k r → r.owner = .write id off → cmdOf s id = some c → c.work = .remote w → c.phase = .running →
    ∃ u, cmdOf u id = some { c with work := .remote { w with acks := w.acks.filter (· ≠ off) }
                                    progress := if c.raw.opcode = opRemoteWrite then
                                      (w.acks.filter (· ≠ off)).foldl min w.sent else c.progress } ∧
      u.mem = s.mem ∧ u.out = s.out ∧
      ((w.acks.filter (· ≠ off)) = [] → exec (.ack m bus) s = .next (endCmd u id stOk 0)) ∧
      ((w.acks.filter (· ≠ off)) ≠ [] → exec (.ack m bus) s = .next u)) ∧
  (∀ (m k id : Nat) (bus : Bus) (msg : Msg) (r : RReq) (c : Cmd) (s : State), ResponseAt s m opAck msg →
    Answers s msg k r → r.owner = .signal id → cmdOf s id = some c →
    exec (.ack m bus) s = .next (endCmd
      (if msg.arg0 % 2 = 1 then staleSignal (answered s m k) c.ctx else answered s m k) id stOk 0)) ∧
  (∀ (m k ch off : Nat) (bus : Bus) (msg : Msg) (r : RReq) (s : State), ResponseAt s m opAck msg → Answers s msg k r →
    (r.owner = .chWrite ch off → exec (.ack m bus) s = .next (chanAck (answered s m k) bus ch r.id)) ∧
    (r.owner = .chSignal ch → exec (.ack m bus) s =
      .next (chanSignalled (answered s m k) bus ch r.id (decide (msg.arg0 % 2 = 1))))) ∧
  (∀ (m k id off x y : Nat) (w : BagWork) (bus : Bus) (msg : Msg) (r : RReq) (s : State), ResponseAt s m opNack msg →
    Answers s msg k r →
    let u := { answered s m k with bl := { (answered s m k).bl with nackRx := s.bl.nackRx + 1 } }
    (r.owner = .write id off ∨ r.owner = .signal id ∨ r.owner = .fetch id →
      exec (.nack m bus) s = .next (endCmd u id stRemote (nodeDetail r.node.toNat))) ∧
    (r.owner = .chWrite id off ∨ r.owner = .chRead id off ∨ r.owner = .chAtomic id ∨ r.owner = .chSignal id →
      exec (.nack m bus) s = .next (chanLost u bus id r.id r.node.toNat)) ∧
    (r.owner = .pool id x y → bagOf u id = some w → exec (.nack m bus) s = .next (bagFail u bus id
      (if msg.status = 8 then stKeyFault else stRemote) (if msg.status = 8 then 0 else nodeDetail r.node.toNat) 0 (w.failSrc 0)))) ∧
  (∀ (m : Nat) (bus : Bus) (msg : Msg) (s : State),
    ∀ x ∈ [(opReadData, Instr.readData m bus), (opAtomicResult, .atomicResult m bus), (opPoolPartial, .poolPartial m),
        (opAck, .ack m bus), (opNack, .nack m bus)], ResponseAt s m x.1 msg →
      Tab.find? s.bl.reqs (msg.src.toNat * 4096 + leAt msg.payload 0 2 % 4096) = none →
      exec x.2 s = .next { dropMsg s m with bl := { (dropMsg s m).bl with late := s.bl.late + 1 } })

/-- A request that this node serves is answered by the response of its kind once its access is done: a write to
device memory with ACK, a read with its bytes, an atomic at the home with the old value (R307 to R309), a
signal with ACK and whether it was stale (R310). A write to host memory goes out and is answered when its flush
read completes (R307). A REMOTE_POOL runs as bag work of its owner, over addresses or over the table it names
(R322, R323). A request whose header is not well formed is answered by NACK with FORMAT, and a write whose
range is not its partition's by NACK with PARTITION (R304, R305). -/
def Obligations.RequestsAreServed : Prop :=
  (∀ (m : Nat) (bus : Bus) (msg : Msg) (s u : State), RequestAt s m opRWrite msg → reqFormat msg = true →
    1 ≤ msg.len → msg.len ≤ 4096 → msg.addr % 4096 + msg.len ≤ 4096 → msg.arg0 = 0 → msg.arg1 = 0 → partChecks s msg = true →
    (rangeChecks s m msg msg.addr msg.len = true →
      writePlan { mvWriteVia s 0 msg.part with born := some m } bus (msg.data.zipIdx.map fun x => (msg.addr % 2 ^ 48 + x.2, x.1))
        (rowPlan (msg.addr % 2 ^ 48) msg.len) (dropMsg s m) = (u, none) →
      exec (.remoteWriteRequest m bus) s = .next (sendResponse { u with mv := { u.mv with wrBytes := s.mv.wrBytes } }
        msg.src.toNat opAck msg.key.toNat msg.req.toNat msg.part 0 0 0 [])) ∧
    (rangeChecks s m msg msg.addr msg.len = false →
      exec (.remoteWriteRequest m bus) s = .next (nackMsg (dropMsg s m) msg 2))) ∧
  (∀ (m : Nat) (bus : Bus) (msg : Msg) (s : State), RequestAt s m opRWrite msg → reqFormat msg = true →
    1 ≤ msg.len → msg.len ≤ 4096 → msg.addr % 4096 + msg.len ≤ 4096 →
    msg.arg0 = 1 + msg.arg0 / 2 ^ 16 % 4096 * 2 ^ 16 → msg.arg1 = 0 → partChecks s msg = true →
    exec (.remoteWriteRequest m bus) s = .next (serveHost s m msg)) ∧
  (∀ (m : Nat) (bus : Bus) (msg : Msg) (s u : State), RequestAt s m opRRead msg → reqFormat msg = true →
    1 ≤ msg.arg0 → msg.arg0 ≤ 4096 → msg.addr % 4096 + msg.arg0 ≤ 4096 → msg.arg1 = 0 → msg.len = 0 →
    partChecks s msg = true → rangeChecks s m msg msg.addr msg.arg0 = true →
    readPlan { mvReadVia s 0 msg.part with
      port := gwBase s.build 3 + leastBusy s (gwBase s.build 3) (ceilDiv s.build.channels 16), born := some m } bus (rowPlan (msg.addr % 2 ^ 48) msg.arg0) (dropMsg s m) = (u, none) →
    exec (.remoteReadRequest m bus) s = .next (sendResponse { u with mv := { u.mv with rdBytes := s.mv.rdBytes } }
      msg.src.toNat opReadData msg.key.toNat msg.req.toNat msg.part 0 0 0
      (u.mem.bytes u.free (msg.addr % 2 ^ 48) msg.arg0))) ∧
  (∀ (m aop old : Nat) (bus : Bus) (msg : Msg) (s s1 u : State), RequestAt s m opRAtomic msg → reqFormat msg = true →
    msg.arg0 = aop → aop < 9 → msg.arg1 = 0 → msg.addr % 8 = 0 → msg.len = 8 → partChecks s msg = true →
    rangeChecks s m msg msg.addr 8 = true →
    let a := msg.addr % 2 ^ 48
    homeReady s a 8 true (some msg.part) bus = (s1, true) →
    homeRmw { homeVia s1 (some msg.part) none (a / 64) with born := some m } bus (dropMsg s1 m) a 8 aop (leAt msg.data 0 8) (leAt msg.data 8 8) =
      (u, .ok, old) →
    exec (.remoteAtomicRequest m bus) s = .next (sendResponse u msg.src.toNat opAtomicResult msg.key.toNat msg.req.toNat
      msg.part 0 0 0 (leBytes 8 old))) ∧
  (∀ (m : Nat) (bus : Bus) (msg : Msg) (stale : Bool) (s u : State), RequestAt s m opRSignal msg → reqFormat msg = true →
    msg.len = 0 → msg.arg1 = 0 → partChecks s msg = true → inService s m = false →
    signalHere bus m msg s = .ok stale u →
    exec (.remoteSignalRequest m bus) s = .next (sendResponse (dropMsg u m) msg.src.toNat opAck msg.key.toNat msg.req.toNat
      msg.part 0 (if stale then 1 else 0) 0 [])) ∧
  (∀ (m i : Nat) (slot : Bool) (bus : Bus) (msg : Msg) (w : BagWork) (s u : State), RequestAt s m opRPool msg →
    inService s m = false → poolFormat msg = true → partChecks s msg = true →
    (msg.addr = 0 → (∀ e ∈ poolEnts msg true, rangeChecks s m msg (s.bl.nodeId.toNat * 2 ^ 48 + e.2.addr) (poolNeed msg) = true) →
      exec (.remotePoolRequest m bus) s =
        .next (servePool s bus m msg { poolWork msg with rowBytes := poolNeed msg } none)) ∧
    (msg.addr ≠ 0 → poolTable bus m msg s = .ok (some (w, i, slot)) u →
      exec (.remotePoolRequest m bus) s = .next (servePool u bus m msg w (some (i, slot)))) ∧
    (msg.addr ≠ 0 → poolTable bus m msg s = .ok none u → exec (.remotePoolRequest m bus) s = .next u)) ∧
  (∀ (m : Nat) (bus : Bus) (msg : Msg) (s : State), reqFormat msg = false →
    (RequestAt s m opRWrite msg → exec (.remoteWriteRequest m bus) s = .next (nackMsg (dropMsg s m) msg 1)) ∧
    (RequestAt s m opRRead msg → exec (.remoteReadRequest m bus) s = .next (nackMsg (dropMsg s m) msg 1)) ∧
    (RequestAt s m opRAtomic msg → exec (.remoteAtomicRequest m bus) s = .next (nackMsg (dropMsg s m) msg 1)) ∧
    (RequestAt s m opRSignal msg → inService s m = false →
      exec (.remoteSignalRequest m bus) s = .next (nackMsg (dropMsg s m) msg 1)) ∧
    (RequestAt s m opRPool msg → inService s m = false →
      exec (.remotePoolRequest m bus) s = .next (nackMsg (dropMsg s m) msg 1)))

/-- A port trains with its peer (R276 to R278): TS gives the peer's values and is answered with the port's own; a
link whose lanes train comes up at the largest width whose lanes all train, in P1 at x4 (R272, R300), ACTIVE
with SEQ from 0 and the advertised credits, and resends what was not acknowledged (R281; the numbering, log
entry 35) unless the complex is in the safe state (R299). A training that fails waits 1 ms, and the third in a
row makes the port FAILED; a lane that loses lock and RETRAIN lead to RECOVERY with the replay buffer and the
queues kept; EN starts and ends a link. -/
def Obligations.LinksTrain : Prop :=
  ∀ (p : Nat) (s : State), portExists s p = true →
    let b := blPort s p
    let up := b.comingUp = true ∨ b.st = .recovery
    (∀ c : TsContent,
      (up → ∃ t cnt, exec (.ts p c) s = .next t ∧
        blPort t p = { b with st := if b.st = .detect then .train else if b.st = .train then .config else b.st
                              peerNode := c.node, peerRole := c.manager, peerAsgd := c.assigned, peerId := c.digest
                              node := if c.assigned then some c.node else none, cnt := cnt } ∧
        (safeState s = false → Out.flit p (ctrlFlit 0 (tsPayload s p)) ∈ t.out)) ∧
      (¬ up → exec (.ts p c) s = .next s)) ∧
    (∀ (lanes : BitVec 16) (eq128 : Bool),
      let trains (w : Nat) : Prop := (w = 4 ∨ w = 8 ∨ w = 16) ∧ w ≤ portWidth s p ∧ (b.toX4 = true → w = 4) ∧
        ∀ i < w, lanes.getLsbD i = true
      (∀ w, up → b.en = true → trains w → (∀ w', trains w' → w' ≤ w) →
        ∃ u, exec (.linkTrained p lanes eq128) s = .next (portMoves u p) ∧ (blPort u p).st = .active ∧
          (blPort u p).width = BitVec.ofNat 8 w ∧ (blPort u p).rate = (if eq128 then 6 else 5) ∧ (blPort u p).rxSeq = 0 ∧
          (blPort u p).txSeq = b.replay.length ∧
          (blPort u p).replay = b.replay.zipIdx.map (fun x => { x.1 with seq := x.2, tries := 0 }) ∧
          (∀ vc < 3, Tab.get 0 (blPort u p).crd vc =
            (if vc = 2 then 128 else 448) - (b.replay.filter fun f => f.vc = vc).length) ∧
          (safeState s = false → ∀ x ∈ b.replay.zipIdx, Out.flit p (stampFlit x.1.flit x.2 none) ∈ u.out)) ∧
      (¬ up ∨ b.en = false ∨ (∀ w, ¬ trains w) → exec (.linkTrained p lanes eq128) s = .next s)) ∧
    (∀ bus : Bus,
      (up → ∃ u, exec (.trainingTimeout p bus) s = .next (if b.st = .recovery then pumpRoutes u [] else u) ∧
        b.since + (if b.st = .recovery then 1000000 else 20000000) ≤ u.tick ∧
        (b.fails < 2 → (blPort u p).st = .detect ∧ (blPort u p).waitRetry = true ∧ (blPort u p).fails = b.fails + 1 ∧
          (blPort u p).replay = []) ∧
        (2 ≤ b.fails → ∃ v, u = note v { source := srcId 8 p 2 } ∧ (blPort v p).st = .failed ∧ (blPort v p).replay = [])) ∧
      (¬ up → exec (.trainingTimeout p bus) s = .next s)) ∧
    (b.st = .detect → b.waitRetry = true → ∃ t, exec (.trainingRetry p) s = .next t ∧ (blPort t p).comingUp = true ∧
      b.since + 1000000 ≤ t.tick) ∧
    (b.st ≠ .detect ∨ b.waitRetry = false → exec (.trainingRetry p) s = .next s) ∧
    (b.st = .active → safeState s = false → ∃ t, exec (.laneLockLoss p) s = .next t ∧ (blPort t p).st = .recovery ∧
      (blPort t p).replay = b.replay ∧ (blPort t p).txq = b.txq) ∧
    (b.st ≠ .active ∨ safeState s = true → exec (.laneLockLoss p) s = .next s) ∧
    (barOk s = true → ∀ bus : Bus,
      (b.en = false → ∃ t, exec (.portEnable p) s = .next t ∧ (blPort t p).en = true ∧ (blPort t p).st = .detect ∧
        (blPort t p).fails = 0) ∧
      (b.en = true → exec (.portEnable p) s = .next s) ∧
      (b.en = true → ∃ u, exec (.portDisable p bus) s = .next (pumpRoutes u []) ∧ (blPort u p).en = false ∧
        (blPort u p).st = .disabled ∧ (blPort u p).replay = []) ∧
      (b.en = false → exec (.portDisable p bus) s = .next s) ∧
      (b.st = .active → ∃ t, exec (.retrain p) s = .next t ∧ (blPort t p).st = .recovery ∧ (blPort t p).replay = b.replay ∧
        (blPort t p).txq = b.txq) ∧
      (b.st = .failed → ∃ t, exec (.retrain p) s = .next t ∧ (blPort t p).st = .detect ∧ (blPort t p).fails = 0) ∧
      (b.st ≠ .active → b.st ≠ .failed → exec (.retrain p) s = .next s))

/-- An ACTIVE port takes a flit's ACK and credits first; it answers a bad HOPCRC with one NAK that names the last
good SEQ, discards a flit with another SEQ than the expected one, and takes the next one in (R279, R281); a NAK
and 2 µs without progress make it resend every unacknowledged flit, a flit's fourth time in a row through
RECOVERY (R280, R278); it sends the ACK it owes; SAFE takes the link down and fails what was outstanding
through it (R299, R312); L1 is entered once nothing is queued (R300). A port that is not ACTIVE, and any port
in the safe state, takes none of these flits (R299). -/
def Obligations.FlitsAreAcknowledgedAndReplayed : Prop :=
  ∀ (p : Nat) (s : State),
    let b := blPort s p
    (takes s p = true →
      (∀ hop : HopFields, ∃ u, exec (.idleFlit p hop) s = .next (portMoves u p) ∧
        (blPort u p).replay = (match hop.ack with | some a => unackedAfter b.replay a.toNat | none => b.replay) ∧
        ∀ vc, Tab.get 0 (blPort u p).crd vc = Tab.get 0 b.crd vc + if vc = hop.crdVc.toNat then hop.crd.toNat else 0) ∧
      (∀ c0 c1 c2 c3 : BitVec 16, ∃ u, exec (.credit p c0 c1 c2 c3) s = .next (portMoves u p) ∧
        Tab.get 0 (blPort u p).crd 0 = Tab.get 0 b.crd 0 + c0.toNat ∧
        Tab.get 0 (blPort u p).crd 1 = Tab.get 0 b.crd 1 + c1.toNat ∧
        Tab.get 0 (blPort u p).crd 2 = Tab.get 0 b.crd 2 + c2.toNat ∧
        Tab.get 0 (blPort u p).crd 3 = Tab.get 0 b.crd 3 + c3.toNat) ∧
      (∀ seq : BitVec 12,
        let left := unackedAfter b.replay seq.toNat
        (left ≠ [] → ∃ u, exec (.nak p seq) s = .next (portMoves u p) ∧
          (blPort u p).replay = left.map (fun f => { f with tries := f.tries + 1 }) ∧
          (∀ f ∈ left, Out.flit p (stampFlit f.flit f.seq b.ackNow) ∈ u.out) ∧
          ((∀ f ∈ left, f.tries < 3) → (blPort u p).st = .active) ∧
          ((∃ f ∈ left, 3 ≤ f.tries) → (blPort u p).st = .recovery)) ∧
        (left = [] → ∃ u, exec (.nak p seq) s = .next (portMoves u p) ∧ (blPort u p).replay = [] ∧ u.out = s.out)) ∧
      (b.replay ≠ [] → ∃ t, exec (.replayTimer p) s = .next t ∧ b.ackAt + 2000 ≤ t.tick ∧
        (blPort t p).replay = b.replay.map (fun f => { f with tries := f.tries + 1 }) ∧
        (∀ f ∈ b.replay, Out.flit p (stampFlit f.flit f.seq b.ackNow) ∈ t.out) ∧
        ((∀ f ∈ b.replay, f.tries < 3) → (blPort t p).st = .active) ∧
        ((∃ f ∈ b.replay, 3 ≤ f.tries) → (blPort t p).st = .recovery)) ∧
      (b.replay = [] → exec (.replayTimer p) s = .next s) ∧
      (b.unacked ≠ 0 → ∃ t, exec (.ackTimer p) s = .next t ∧ (blPort t p).unacked = 0 ∧
        t.out = s.out ++ [Out.flit p (idleFlit ((b.rxSeq + 4095) % 4096))]) ∧
      (b.unacked = 0 → exec (.ackTimer p) s = .next s) ∧
      (∀ (flit : BitVec 2048),
        let f := leBytes 256 flit.toNat
        (leAt f 12 4 ≠ (crc32c (f.take 12 ++ f.drop 16)).toNat →
          ∃ t, exec (.dataFlit p flit) s = .next t ∧ (blPort t p).rxSeq = b.rxSeq ∧ (blPort t p).nakSent = true ∧
            t.out = if b.nakSent then s.out else s.out ++ [Out.flit p (ctrlFlit 1 (leBytes 2 ((b.rxSeq + 4095) % 4096)))]) ∧
        (∀ hop : HopFields, leAt f 12 4 = (crc32c (f.take 12 ++ f.drop 16)).toNat →
          hop.crdVc = BitVec.ofNat 2 (byteAt f 6) → hop.crd = BitVec.ofNat 8 (byteAt f 7) →
          hop.ack = (if (leAt f 10 2).testBit 12 then some (BitVec.ofNat 12 (leAt f 10 2)) else none) →
          let h := takeHop s p hop
          (leAt f 8 2 % 4096 ≠ (blPort h p).rxSeq → exec (.dataFlit p flit) s = .next h) ∧
          (leAt f 8 2 % 4096 = (blPort h p).rxSeq → ∃ u, (blPort u p).rxSeq = ((blPort h p).rxSeq + 1) % 4096 ∧
            (blPort u p).nakSent = false ∧ (blPort u p).unacked = (blPort h p).unacked + 1 ∧ u.out = h.out ∧
            let a := acceptFlit u p f
            exec (.dataFlit p flit) s = .next (if 64 ≤ (blPort a p).unacked then sendAck a p else a)))) ∧
      (b.replay = [] → b.txq = [] → ∃ t, exec (.l1Req p) s = .next t ∧ (blPort t p).st = .l1 ∧
        Out.flit p (ctrlFlit 4 []) ∈ t.out ∧ Out.lnLpwr p 1 ∈ t.out) ∧
      (b.replay ≠ [] ∨ b.txq ≠ [] → ∃ t, exec (.l1Req p) s = .next t ∧ blPort t p = { b with l1Wait := true }) ∧
      (b.l1Sent = true → b.replay = [] → b.txq = [] → ∃ t, exec (.l1Ack p) s = .next t ∧ (blPort t p).st = .l1 ∧
        Out.lnLpwr p 1 ∈ t.out)) ∧
    (takes s p = false → (∀ hop, exec (.idleFlit p hop) s = .next s) ∧ (∀ c0 c1 c2 c3, exec (.credit p c0 c1 c2 c3) s = .next s) ∧
      (∀ seq, exec (.nak p seq) s = .next s) ∧ exec (.replayTimer p) s = .next s ∧ exec (.ackTimer p) s = .next s ∧
      (∀ flit, exec (.dataFlit p flit) s = .next s) ∧ exec (.l1Req p) s = .next s) ∧
    (takes s p = false ∨ b.l1Sent = false ∨ b.replay ≠ [] ∨ b.txq ≠ [] →
      ∃ t, exec (.l1Ack p) s = .next t ∧ blPort t p = { b with l1Sent := false }) ∧
    (portExists s p = true → b.live = true → safeState s = false → ∀ bus : Bus, ∃ u, exec (.safe p bus) s =
      .next (pumpRoutes (failReqs u bus fun r => decide (some r.node = b.node ∨ routeTo s r.node.toNat = some p)) bus) ∧
        (blPort u p).st = .detect ∧ (blPort u p).replay = []) ∧
    (b.live = false ∨ safeState s = true → ∀ bus : Bus, exec (.safe p bus) s = .next s)

/-- What an accepted flit does (R288, R289, R295, R296): a flit of VC and OP that do not belong together, one whose
E bit and KEYID disagree or whose length is out of range, and one whose LCRC is wrong are dropped and counted;
so is one under a revoked or an empty key, and one whose tag fails, as stale within 100 µs of the key's
install; a good one is delivered, decrypted under its key with the next nonce of its stream. A flit for another
node goes to the port of its route with its TTL lowered, and is dropped where the TTL is used up; MGR_ANNOUNCE
and ASSIGN are taken by the next complex (R285). A node without an ID takes VC 2 alone (R286). -/
def Obligations.FlitsAreCheckedAndForwarded : Prop :=
  ∀ (s : State) (p : Nat) (f : List Byte),
    let vc := byteAt f 0 / 16 % 4
    let key := byteAt f 5
    let dst := leAt f 2 3 % 1024
    let src := leAt f 2 3 / 2 ^ 10 % 1024
    let units := leAt f 2 3 / 2 ^ 20
    let hop := byteAt f 1 = 0x18 ∨ byteAt f 1 = 0x19
    (byteAt f 0 % 8 ≠ 1 ∨ opVc (byteAt f 1) ≠ some vc → acceptFlit s p f = dropFlit s p vc cFormat true) ∧
    (byteAt f 0 % 8 = 1 → opVc (byteAt f 1) = some vc →
      (s.bl.assigned = false → vc ≠ 2 → acceptFlit s p f = creditBack s p vc) ∧
      (s.bl.assigned = true → dst ≠ s.bl.nodeId.toNat → ¬ hop → flitTtl f = 0 → acceptFlit s p f = dropFlit s p vc cTtl true) ∧
      (s.bl.assigned = true → dst ≠ s.bl.nodeId.toNat → ¬ hop → flitTtl f ≠ 0 → routeTo s dst = none →
        acceptFlit s p f = creditBack s p vc) ∧
      (∀ q, s.bl.assigned = true → dst ≠ s.bl.nodeId.toNat → ¬ hop → flitTtl f ≠ 0 → routeTo s dst = some q →
        acceptFlit s p f = queueFlit (bumpCnt s p cFwd 1) q
          { vc := vc, key := BitVec.ofNat 8 key, origin := some p, flit := patch f 8 (leBytes 2 ((flitTtl f - 1) * 2 ^ 12)) }) ∧
      (s.bl.assigned = true ∧ (dst = s.bl.nodeId.toNat ∨ hop) ∨ s.bl.assigned = false ∧ vc = 2 →
        ((byteAt f 0).testBit 3 ≠ decide (key ≠ 0) ∨ units = 0 ∨ 14 < units →
          acceptFlit s p f = dropFlit s p vc cFormat true) ∧
        ((byteAt f 0).testBit 3 = decide (key ≠ 0) → 1 ≤ units → units ≤ 14 →
          (key ≠ 0 → (keySlot s key).st = .revoked → acceptFlit s p f = dropFlit s p vc cRevoked false) ∧
          (key ≠ 0 → (keySlot s key).st = .empty → acceptFlit s p f = dropFlit s p vc cFormat true) ∧
          (key ≠ 0 → (keySlot s key).st = .active → flitTagOk s f = false → acceptFlit s p f =
            if ∃ t, (keySlot s key).install = some t ∧ s.tick ≤ t + 100000 then dropFlit s p vc cStale false
            else dropFlit s p vc cTagFail true) ∧
          (key ≠ 0 → (keySlot s key).st = .active → flitTagOk s f = true →
            let i := nonceIdx true src vc key
            let n := Tab.get 0 s.bl.nonces i
            acceptFlit s p f = creditBack (deliverFlit { s with bl := { s.bl with nonces := Tab.set 0 s.bl.nonces i (n + 1) } } p f
              (padTo (16 * units) (gcmPlain (keySlot s key).key (flitNonce src s.bl.nodeId.toNat vc n) ((f.drop 16).take 224)))) p vc) ∧
          (key = 0 → leAt f 240 8 ≠ (crc64 (f.take 6 ++ (f.drop 16).take 224)).toNat →
            acceptFlit s p f = dropFlit s p vc cLcrc true) ∧
          (key = 0 → leAt f 240 8 = (crc64 (f.take 6 ++ (f.drop 16).take 224)).toNat →
            acceptFlit s p f = creditBack (deliverFlit s p f ((f.drop 16).take (16 * units))) p vc))))

/-- Discovery (R285 to R287; the message layouts and the operands that stand for what discovery gathers, log entry
37): a manager starts with its own digest, passes on each digest that is new, and is the root where no digest
heard of is lower. The root takes board 0 and node 0, gives every other manager of the tree its board and its
board's routes on the port towards it and every worker its node and its routes, and puts its own routes in
force; it does so again at a change of topology, which another complex passes on to it. A worker takes the node
of an ASSIGN, and none where two managers sent one: then it has no routes and its remote operations fail.
Routes (R288, R290 to R292): a worker takes the routes of a ROUTE for its node and the links of its board; a
manager that is not the root takes its board from it, assigns its workers and passes their routes on (R285).
New routes are in force once the flits of the ports that lose a route are acknowledged; then operations to
nodes without a route fail, and waiting flits go by the new routes. A port that is retired leaves the routes,
by way of the root where it carries a tree edge, and is RETIRED once no route uses it; one that is restored
reaches its peer directly again. A link that goes DOWN is reported, the keys of its lost flits are named to the
manager, and the root is told (R291, R297); a message for a node goes to the port towards it. -/
def Obligations.DiscoveryAndRoutes : Prop :=
  ((∀ s : State, s.role = true → s.build.brambles.isEmpty = false →
     let starts (t : State) : Prop :=
       t.bl.heard = identityDigest s :: (if s.bl.discBusy then s.bl.heard.filter (· ≠ identityDigest s) else []) ∧
       t.bl.discBusy = true ∧ t.bl.started = true ∧ t.bl.discRes = 0 ∧ ∀ p ∈ boardLinks s, p ≠ 0xFF → safeState s = false →
         mgmtOn t p opAnnounce 0 (digestBytes (identityDigest s))
     (s.tp.ready = true → s.bl.started = false → safeState s = false → ∃ t, exec .discoveryStart s = .next t ∧ starts t) ∧
     (s.tp.ready = false ∨ s.bl.started = true ∨ safeState s = true → exec .discoveryStart s = .next s) ∧
     (barOk s = true → discRuns s = false → ∃ t, exec .rediscover s = .next t ∧ starts t)) ∧
   (∀ s : State, (s.role = false → exec .discoveryStart s = .next s) ∧
     (barOk s = true → s.build.brambles.isEmpty = false →
       (s.role = false → discRuns s = false → exec .rediscover s = .next { s with bl := { s.bl with discRes := rState } }) ∧
       (discRuns s = true → exec .rediscover s = .next s))) ∧
   (∀ (port : Nat) (d : Word) (s : State),
     (s.role = true → s.tp.ready = true → linked s port = true → safeState s = false → d ∉ s.bl.heard →
       ∃ t, exec (.mgrAnnounce port d) s = .next t ∧ t.bl.heard = s.bl.heard ++ [d] ∧ t.bl.discBusy = true ∧
         ∀ p ∈ boardLinks s, p ≠ port → mgmtOn t p opAnnounce 0 (digestBytes d)) ∧
     (s.role = false ∨ d ∈ s.bl.heard → exec (.mgrAnnounce port d) s = .next s)) ∧
   (∀ (links : List MgrLink) (boards : List BoardMap) (s : State),
     (s.role = true → s.bl.discBusy = true → s.bl.heard ≠ [] → safeState s = false →
       exec (.rootElection ⟨links, boards⟩) s = .next (if ∀ d ∈ s.bl.heard, (identityDigest s).toNat ≤ d.toNat
         then buildTree { s with bl := { s.bl with tree := [] } } links boards []
         else { s with bl := { s.bl with root := false } })) ∧
     (s.role = false ∨ s.bl.discBusy = false ∨ s.bl.heard = [] ∨ safeState s = true →
       exec (.rootElection ⟨links, boards⟩) s = .next s)) ∧
   (∀ (links : List MgrLink) (boards : List BoardMap) (s : State), safeState s = false →
     (s.bl.root = true → exec (.topoChange ⟨links, boards⟩) s = .next (buildTree { s with bl := { s.bl with
       tree := s.bl.tree.filter fun x => decide (x.1 = identityDigest s) || links.any fun l => decide (l.b = x.1) } } links boards [])) ∧
     (s.bl.root = false → s.bl.assigned = true → exec (.topoChange ⟨links, boards⟩) s = .next (mgmtTo s opTopo 0 [])) ∧
     (s.bl.root = false → s.bl.assigned = false → exec (.topoChange ⟨links, boards⟩) s = .next s)) ∧
   (∀ (links : List MgrLink) (boards : List BoardMap) (bus : Bus) (s : State), safeState s = false →
     let me : TreeNode := ⟨identityDigest s, 0, 0, 0, 0, 0⟩
     let used := links.filter fun l => decide (l.a ≠ identityDigest s) || routable s l.port
     let r := growTree used s.bl.tree (used.length + 2) [me] [me] false
     let maps := treeMaps s boards r.1
     let own := (me, boardMap s boards me.digest)
     let ents := boardRoutes r.1 maps own
     ∃ u, buildTree s links boards bus = setRoutes u bus true (routesOf s 0 ents) ∧ u.bl.root = true ∧ u.bl.assigned = true ∧
       u.bl.nodeId = 0 ∧ u.bl.board = 0 ∧ u.bl.tree = r.1.map (fun t => (t.digest, t.board)) ∧
       u.bl.discRes = (if r.2 then 2 else 0) ∧ u.bl.mesh = own.2.mesh ∧
       (∀ x ∈ maps, x.1.depth ≠ 0 → ∀ p, towards r.1 0 x.1.board = some p → mgmtOn u p opRoute (16 * x.1.board)
         (routeBody x.1.digest x.1.board x.2.mesh (boardRoutes r.1 maps x))) ∧
       ∀ p ∈ workerPorts s, mgmtOn u p opAssign (p + 1) (leBytes 2 (p + 1)) ∧
         mgmtOn u p opRoute (p + 1) (routeBody (identityDigest s) 0 own.2.mesh (ents.filter fun e => e.node = p + 1))) ∧
   (∀ (port : Nat) (node : BitVec 10) (s : State), s.role = false → portExists s port = true → safeState s = false →
     s.tp.ready = true →
     let from_ := if s.bl.assigners.any (sameMgr s port) then s.bl.assigners else s.bl.assigners ++ [port]
     (from_.length ≤ 1 → exec (.assign port node) s = .next { s with bl := { s.bl with
       assigners := from_, assigned := true, nodeId := node, board := BitVec.ofNat 6 (node.toNat / 16)
       pos := BitVec.ofNat 4 (node.toNat % 16) } }) ∧
     (1 < from_.length → ∃ u, exec (.assign port node) s =
       .next (note (reroute (failReqs u [] fun _ => true)) { source := srcId 9 0 0 }) ∧ u.bl.assigned = false ∧ u.bl.ready = false ∧
         u.bl.routes = [] ∧ u.bl.newRoutes = none ∧ u.bl.assigners = from_)) ∧
   (∀ (port : Nat) (node : BitVec 10) (s : State), s.role = true ∨ portExists s port = false ∨ safeState s = true ∨ s.tp.ready = false →
     exec (.assign port node) s = .next s)) ∧
  ((∀ (board : BitVec 6) (mesh : List MeshLink) (routes : List RouteEnt) (bus : Bus) (s : State), safeState s = false →
     s.tp.ready = true →
     let c := Instr.route board ⟨mesh, routes⟩ bus
     (s.role = false → s.bl.assigned = true →
       exec c s = .next (setRoutes (takeMesh s mesh) bus true (routesOf s s.bl.nodeId.toNat routes))) ∧
     (s.role = false → s.bl.assigned = false → exec c s = .next s) ∧
     (s.role = true → s.bl.root = true → exec c s = .next s) ∧
     (s.role = true → s.bl.root = false → ∃ u, exec c s = .next (setRoutes u bus true (routesOf s (16 * board.toNat) routes)) ∧
       u.bl.board = board ∧ u.bl.assigned = true ∧ u.bl.nodeId = BitVec.ofNat 10 (16 * board.toNat) ∧ u.bl.mesh = mesh ∧
       ∀ p ∈ workerPorts s, mgmtOn u p opAssign (16 * board.toNat + p + 1) (leBytes 2 (16 * board.toNat + p + 1)) ∧
         mgmtOn u p opRoute (16 * board.toNat + p + 1) (routeBody (identityDigest s) board.toNat mesh
           (routes.filter fun e => e.node = 16 * board.toNat + p + 1)))) ∧
   (∀ (board : BitVec 6) (mesh : List MeshLink) (routes : List RouteEnt) (bus : Bus) (s : State),
     safeState s = true ∨ s.tp.ready = false → exec (.route board ⟨mesh, routes⟩ bus) s = .next s) ∧
   (∀ (s : State) (bus : Bus) (install : Bool) (rs : Tab Nat),
     let n : NewRoutes := ⟨install || (s.bl.newRoutes.map (·.install)).getD false, rs⟩
     let v := { s with bl := { s.bl with newRoutes := some n } }
     ((∀ e ∈ s.bl.routes, Tab.find? rs e.1 = some e.2 ∨ (blPort s e.2).replay = []) →
       setRoutes s bus install rs = switchRoutes v bus n) ∧
     (¬ (∀ e ∈ s.bl.routes, Tab.find? rs e.1 = some e.2 ∨ (blPort s e.2).replay = []) → setRoutes s bus install rs = v)) ∧
   (∀ (s : State) (bus : Bus) (n : NewRoutes), ∃ u, switchRoutes s bus n =
       each pumpRetire (reroute (failReqs u bus fun r => (Tab.find? n.routes r.node.toNat).isNone)) (List.range s.build.brambles.length) ∧
     u.bl.routes = n.routes ∧ u.bl.newRoutes = none ∧ u.bl.ports = s.bl.ports ∧ u.bl.reqs = s.bl.reqs ∧
     (n.install = true → u.bl.ready = true ∧ u.bl.discBusy = false ∧ u.bl.epoch = s.bl.epoch + 1) ∧
     (n.install = false → u.bl.ready = s.bl.ready ∧ u.bl.discBusy = s.bl.discBusy ∧ u.bl.epoch = s.bl.epoch)) ∧
   (∀ (p : Nat) (s : State),
     let b := blPort s p
     let out := b.retire = true ∧ b.retired = false ∧ s.bl.newRoutes = none ∧ ∀ e ∈ s.bl.routes, e.2 ≠ p
     (out → pumpRetire s p = updBl s p fun b => { b with retired := true }) ∧ (¬ out → pumpRetire s p = s)) ∧
   (∀ (p : Nat) (s : State), barOk s = true → portExists s p = true →
     let b := blPort s p
     (b.retire = false → let u := updBl s p fun b => { b with retire := true }
       (treePort s p = true → exec (.portRetire p) s = .next (pumpRetire (tellRoot u) p)) ∧
       (treePort s p = false → exec (.portRetire p) s = .next (pumpRetire (setRoutes u [] false (routesWithout u p)) p))) ∧
     (b.retire = true → exec (.portRetire p) s = .next s) ∧
     (b.retire = true → let u := updBl s p fun b => { b with retire := false, retired := false }
       (b.peerRole = true → s.role = true → exec (.portRestore p) s = .next (tellRoot u)) ∧
       (b.peerRole = false ∨ s.role = false →
         (linked s p = true → exec (.portRestore p) s = .next (setRoutes u [] false (routesWith u p))) ∧
         (linked s p = false → exec (.portRestore p) s = .next u))) ∧
     (b.retire = false → exec (.portRestore p) s = .next s)) ∧
   (∀ (p : Nat) (st : LinkSt) (s : State),
     let keys := dedupNat (((blPort s p).replay.map fun f => f.key.toNat).filter (· ≠ 0))
     let u := updBl (note s { source := srcId 8 p 3 }) p fun b =>
       { clearLink b with st := st, since := (note s { source := srcId 8 p 3 }).tick }
     linkDown s p st = tellRoot (if keys = [] then u else mgmtTo u opKeyNotice (managerNode u) (0 :: keys.map (BitVec.ofNat 8)))) ∧
   (∀ s : State, (s.bl.assigned = false → tellRoot s = s) ∧ (s.bl.assigned = true → tellRoot s =
     mgmtTo (if s.bl.root then { s with bl := { s.bl with discBusy := true } } else s) opTopo 0 [])) ∧
   (∀ (s : State) (op dst : Nat) (body : List Byte), safeState s = false → mgmtGiven s (mgmtTo s op dst body) op dst body))

/-- Job keys (R293, R294, R297, R426, R427, R437): a blob that is good, newer than any installed before, whose key
the partition table assigns and whose slot is not REVOKED makes its slot ACTIVE with its counters at 0, and is
answered; any other is refused with a NOTE fault. A manager that gets a key for another node unwraps it, wraps
it for the next hop, and passes the answer back (log entry 97). A manager draws a key, takes the next
generation and sends the blob towards every node of the bitmap, and is done at the last answer; a KEY_NOTICE
changes nothing by itself (log entry 35). -/
def Obligations.JobKeysAreInstalled : Prop :=
  (∀ (hop : KeyHop) (blob : BitVec 512) (tagOk : Bool) (s : State), runsWork s = true → s.build.brambles.isEmpty = false →
    s.ps.quince = .running →
    let b := leBytes 64 blob.toNat
    let key := byteAt b 4
    let rank := leAt b 8 4 * 2 ^ 32 + leAt b 0 4
    let formed := tagOk = true ∧ byteAt b 5 = 0 ∧ leAt b 6 2 < 1024 ∧ leAt b 12 4 = 0
    let good := formed ∧ key ≠ 0 ∧ keyPart s key ≠ none ∧ Tab.get 0 s.ps.lastKey key < rank ∧ (keySlot s key).st ≠ .revoked
    (hop.dst = s.bl.nodeId →
      (good → ∃ u, exec (.keyInstall hop blob tagOk) s = .next (mgmtTo u opKeyInstall hop.src.toNat [0]) ∧
        (keySlot u key).st = .active ∧ (keySlot u key).gen = BitVec.ofNat 32 (leAt b 0 4) ∧
        (keySlot u key).epoch = BitVec.ofNat 32 (leAt b 8 4) ∧ (keySlot u key).install = some s.tick ∧
        (keySlot u key).key = BitVec.ofNat 256 (leNat (padTo 32 (gcmPlain (wrapKey (leAt b 6 2) s.bl.nodeId.toNat (leAt b 8 4))
          (BitVec.ofNat 96 (leNat (b.take 12))) ((b.drop 16).take 32)))) ∧
        (∀ e ∈ u.bl.nonces, e.1 % 256 ≠ key) ∧ Tab.get 0 u.ps.lastKey key = rank) ∧
      (¬ good → exec (.keyInstall hop blob tagOk) s = .next (mgmtTo (keyNote s key) opKeyInstall hop.src.toNat [1]))) ∧
    (hop.dst ≠ s.bl.nodeId → s.role = true →
      (formed → let h := keyHop s hop.dst.toNat
        let on := keyBlob (leAt b 0 4) key s.bl.nodeId.toNat h s.epoch.toNat (blobKey s b)
        exec (.keyInstall hop blob tagOk) s = .next (mgmtTo
          { s with ps := { s.ps with relays := s.ps.relays ++ [⟨hop.dst.toNat, hop.src.toNat⟩] } } opKeyInstall h
          (if h = hop.dst.toNat then on else on ++ leBytes 2 hop.dst.toNat))) ∧
      (¬ formed → exec (.keyInstall hop blob tagOk) s =
        .next (mgmtTo (keyNote s key) opKeyInstall hop.src.toNat ([1] ++ leBytes 2 hop.dst.toNat)))) ∧
    (hop.dst ≠ s.bl.nodeId → s.role = false → exec (.keyInstall hop blob tagOk) s = .next s)) ∧
  (∀ (src : BitVec 10) (kind : NoticeKind) (keys : List Byte) (s : State), exec (.keyNotice src kind keys) s = .next s) ∧
  (∀ (key : Byte) (bus : Bus) (s : State), barOk s = true →
    let v := { s with ps := { s.ps with jobKey := key } }
    (s.ps.jobOp.busy = true → exec (.jobkeyInstall key bus) s = .next s) ∧
    (s.ps.jobOp.busy = false → key = 0 → exec (.jobkeyInstall key bus) s = .next (jobDone v rFormat)) ∧
    (s.ps.jobOp.busy = false → key ≠ 0 →
      (s.role = false ∨ s.bl.ready = false → exec (.jobkeyInstall key bus) s = .next (jobDone v rState)) ∧
      (s.role = true → s.bl.ready = true →
        (s.ps.locks.getLsbD 2 = true ∨ s.ps.quince ≠ .running →
          exec (.jobkeyInstall key bus) s = .next (jobDone v rMgmt)) ∧
        (∀ bs u, s.ps.locks.getLsbD 2 = false → s.ps.quince = .running →
          homeGet (sysVia v (s.ps.jobNodes.toNat * 128)) bus (s.ps.jobNodes.toNat * 128) 128 v = .ok bs u →
          let nodes := setBits 1024 (leNat bs)
          let gen := Tab.get 0 s.ps.nextGen key.toNat + 1
          ∃ t, exec (.jobkeyInstall key bus) s = .next t ∧ t.ps.draws = u.ps.draws + 1 ∧
            Tab.get 0 t.ps.nextGen key.toNat = gen ∧ t.ps.jobWait = nodes ∧
            (nodes = [] → t.ps.jobOp = OpReg.done rOk) ∧ (nodes ≠ [] → t.ps.jobOp.busy = true) ∧
            ∀ n ∈ nodes, safeState u = false →
              let h := keyHop u n
              let blob := keyBlob gen key.toNat u.bl.nodeId.toNat h u.epoch.toNat (Config.drbg s.ps.draws)
              mgmtGiven u t opKeyInstall h (if h = n then blob else blob ++ leBytes 2 n))))) ∧
  (∀ (node : BitVec 10) (accepted : Bool) (s : State),
    (s.ps.jobOp.busy = true → node.toNat ∈ s.ps.jobWait →
      ∃ t, exec (.keyInstallAnswered node accepted) s = .next t ∧ t.ps.jobWait = s.ps.jobWait.filter (· ≠ node.toNat) ∧
        ((∃ n ∈ s.ps.jobWait, n ≠ node.toNat) → t.ps.jobOp = s.ps.jobOp) ∧
        ((∀ n ∈ s.ps.jobWait, n = node.toNat) →
          t.ps.jobOp = OpReg.done (if s.ps.jobBad = true ∨ accepted = false then rRefused else rOk))) ∧
    (s.ps.jobOp.busy = false ∨ node.toNat ∉ s.ps.jobWait →
      (∀ r, s.ps.relays.find? (fun r => r.node = node.toNat) = some r → exec (.keyInstallAnswered node accepted) s =
        .next (mgmtTo { s with ps := { s.ps with relays := s.ps.relays.erase r } } opKeyInstall r.back
          ([if accepted then 0 else 1] ++ leBytes 2 node.toNat))) ∧
      (s.ps.relays.find? (fun r => r.node = node.toNat) = none → exec (.keyInstallAnswered node accepted) s = .next s)))

/-- Shard directories (R314 to R317): a good image goes beside the one in use and becomes current; a bad one, and
one that names a handle of another slot, is refused with a NOTE fault, and one whose place a bag still holds is
kept until the bag has ended; a withdrawal makes the slot invalid; each but the waiting one is acknowledged.
PUBLISH sends the staged image with the next generation to every READY node, WITHDRAW sends a withdrawal, and
BUSY clears at the last acknowledgement. -/
def Obligations.ShardDirectoriesAreInstalled : Prop :=
  (∀ (src : BitVec 10) (slot : Nat) (hdr : BitVec 128) (entries : List (BitVec 128)) (map : List Byte) (bus : Bus) (s : State),
    runsWork s = true → s.build.brambles.isEmpty = false → slot < 64 →
    let img := dirImage hdr entries map
    let c := Instr.shardDir src slot hdr entries map bus
    (s.bl.shardEn = false → exec c s = .next (dirNote s)) ∧
    (s.bl.shardEn = true →
      (entries = [] → map = [] → ∃ u, exec c s = .next (dirAck u src.toNat) ∧
        dirOf u slot = { dirOf s slot with valid := false } ∧ Tab.find? u.bl.dirWait slot = none) ∧
      (entries ≠ [] ∨ map ≠ [] →
        (dirBad s img entries map = true → exec c s = .next (dirAck (dirNote s) src.toNat)) ∧
        (dirBad s img entries map = false → exec c s = .next (placeImage s bus src slot img))))) ∧
  (∀ (src : BitVec 10) (slot : Nat) (img : List Byte) (bus : Bus) (s : State),
    (imageHeld s slot (!(dirOf s slot).cur) = true → placeImage s bus src slot img =
      { s with bl := { s.bl with dirWait := Tab.insert s.bl.dirWait slot ⟨src, img⟩ } }) ∧
    (imageHeld s slot (!(dirOf s slot).cur) = false →
      let v := dropDirWait s slot
      (∀ x u, entryFor img v.bl.nodeId.toNat = some x → handleTaken bus slot x.handle (List.range 64) v = .ok true u →
        placeImage s bus src slot img = dirAck (dirNote u) src.toNat) ∧
      (∀ u w, (∀ x, entryFor img v.bl.nodeId.toNat = some x → handleTaken bus slot x.handle (List.range 64) v = .ok false u) →
        (entryFor img v.bl.nodeId.toNat = none → u = v) →
        homePut (sysVia u (dirAddr u slot (!(dirOf u slot).cur))) bus (dirAddr u slot (!(dirOf u slot).cur)) img u = .ok () w →
        ∃ y, placeImage s bus src slot img = dirAck y src.toNat ∧ dirOf y slot = { valid := true, cur := !(dirOf w slot).cur } ∧
          y.mem = w.mem))) ∧
  (∀ (s : State) (bus : Bus), pumpDirs s bus = each (fun s e => placeImage s bus e.2.src e.1 e.2.img) s s.bl.dirWait) ∧
  (∀ (slot : BitVec 6) (bus : Bus) (s : State), barOk s = true → s.build.brambles.isEmpty = false →
    (s.bl.shardOp.busy = true → exec (.publish slot bus) s = .next s ∧ exec (.withdraw slot) s = .next s) ∧
    (s.bl.shardOp.busy = false →
      (s.role = false ∨ s.bl.ready = false → ∃ t, exec (.publish slot bus) s = .next t ∧ exec (.withdraw slot) s = .next t ∧
        t.bl.shardOp = OpReg.done rState) ∧
      (s.role = true → s.bl.ready = true →
        (∃ t, exec (.withdraw slot) s = .next t ∧ t.bl.shardOp.busy = true ∧ t.bl.shardWait = readyNodes s ∧
          ∀ n ∈ readyNodes s, safeState s = false → mgmtGiven s t opShardDir n (leBytes 1 slot.toNat)) ∧
        (∀ a bs u, a = s.bl.shardBase.toNat * 0x400000 + 0x200000 →
          let v := { s with bl := { s.bl with shardSlot := slot } }
          homeGet (sysVia v a) bus a 16384 v = .ok bs u →
          let n := min 256 (imgShards bs)
          let d := dirAddr u slot.toNat (dirOf u slot.toNat).cur
          let sends (gen : Nat) (w : State) : Prop := ∃ t, exec (.publish slot bus) s = .next t ∧ t.bl.shardOp.busy = true ∧
            t.bl.shardWait = readyNodes w ∧ ∀ k ∈ readyNodes w, safeState w = false →
              mgmtGiven w t opShardDir k (leBytes 1 slot.toNat ++ (patch (bs.take 16) 12 (leBytes 4 (gen % 2 ^ 32)) ++
                (bs.drop 4096).take (16 * n) ++ (bs.drop 8192).take 4096))
          ((dirOf u slot.toNat).valid = false → sends 1 u) ∧
          (∀ g w, (dirOf u slot.toNat).valid = true → homeGet (sysVia u d) bus (d + 12) 4 u = .ok g w →
            sends (leNat g + 1) w))))) ∧
  (∀ (node : BitVec 10) (s : State),
    (s.bl.shardOp.busy = true → node.toNat ∈ s.bl.shardWait →
      ∃ t, exec (.shardDirAcknowledged node) s = .next t ∧ t.bl.shardWait = s.bl.shardWait.filter (· ≠ node.toNat) ∧
        ((∃ n ∈ s.bl.shardWait, n ≠ node.toNat) → t.bl.shardOp = s.bl.shardOp) ∧
        ((∀ n ∈ s.bl.shardWait, n = node.toNat) → t.bl.shardOp = OpReg.done rOk)) ∧
    (s.bl.shardOp.busy = false ∨ node.toNat ∉ s.bl.shardWait → exec (.shardDirAcknowledged node) s = .next s))
end

