-- ==== Sys2Proof/Laws/Tab.lean ====
section
/-! SUPPORT. Sparse arrays and device memory: reading after writing, and that every operation keeps the canonical form. -/

namespace Sys2Proof

/-! ### Sparse arrays -/

theorem Tab.above_mono {α : Type} {lo lo' : Nat} (h : lo' ≤ lo) : ∀ {t : Tab α}, Tab.above lo t = true → Tab.above lo' t = true
  | [], _ => rfl
  | (i, _) :: _, k => by
    simp only [Tab.above, Bool.and_eq_true, decide_eq_true_eq] at k ⊢
    exact ⟨by omega, k.2⟩

theorem Tab.rises_of_above {α : Type} {lo : Nat} : ∀ {t : Tab α}, Tab.above lo t = true → Tab.rises t = true
  | [], _ => rfl
  | (i, _) :: _, k => by
    simp only [Tab.above, Bool.and_eq_true] at k
    exact k.2

theorem Tab.above_insert {α : Type} {lo k : Nat} {v : α} (hk : lo < k) :
    ∀ {t : Tab α}, Tab.above lo t = true → Tab.above lo (Tab.insert t k v) = true
  | [], _ => by simp [Tab.insert, Tab.above, hk]
  | (i, w) :: t, h => by
    simp only [Tab.above, Bool.and_eq_true, decide_eq_true_eq] at h
    unfold Tab.insert
    split
    · rename_i e; subst e
      simp only [Tab.above, Bool.and_eq_true, decide_eq_true_eq]; exact h
    · split
      · simp only [Tab.above, Bool.and_eq_true, decide_eq_true_eq]; exact ⟨hk, by omega, h.2⟩
      · simp only [Tab.above, Bool.and_eq_true, decide_eq_true_eq]
        exact ⟨h.1, Tab.above_insert (by omega) h.2⟩

theorem Tab.rises_insert {α : Type} {k : Nat} {v : α} :
    ∀ {t : Tab α}, Tab.rises t = true → Tab.rises (Tab.insert t k v) = true
  | [], _ => rfl
  | (i, w) :: t, h => by
    unfold Tab.insert
    split
    · rename_i e; subst e; exact h
    · split
      · simp only [Tab.rises, Tab.above, Bool.and_eq_true, decide_eq_true_eq]; exact ⟨by omega, h⟩
      · exact Tab.above_insert (by omega) h

theorem Tab.rises_filter {α : Type} (p : Nat × α → Bool) {t : Tab α} (h : Tab.rises t = true) :
    Tab.rises (List.filter p t) = true := by
  have key : ∀ (t : Tab α) (lo : Nat), Tab.above lo t = true → Tab.above lo (List.filter p t) = true := by
    intro t
    induction t with
    | nil => intro lo _; rfl
    | cons e t ih =>
      intro lo h
      simp only [Tab.above, Bool.and_eq_true, decide_eq_true_eq] at h
      rw [List.filter_cons]
      split
      · simp only [Tab.above, Bool.and_eq_true, decide_eq_true_eq]; exact ⟨h.1, ih _ h.2⟩
      · exact Tab.above_mono (by omega) (ih _ h.2)
  cases t with
  | nil => rfl
  | cons e t =>
    rw [List.filter_cons]
    split
    · exact key t _ h
    · exact Tab.rises_of_above (key t _ h)

theorem Tab.rises_erase {α : Type} {k : Nat} {t : Tab α} (h : Tab.rises t = true) : Tab.rises (Tab.erase t k) = true :=
  Tab.rises_filter _ h

theorem Tab.mem_erase {α : Type} {k : Nat} {e : Nat × α} {t : Tab α} (h : e ∈ Tab.erase t k) : e ∈ t :=
  (List.mem_filter.1 h).1

theorem Tab.mem_insert {α : Type} {k : Nat} {v : α} {e : Nat × α} :
    ∀ {t : Tab α}, e ∈ Tab.insert t k v → e = (k, v) ∨ e ∈ t
  | [], h => by
    simp only [Tab.insert, List.mem_singleton] at h; exact Or.inl h
  | (i, w) :: t, h => by
    unfold Tab.insert at h
    split at h
    · rcases List.mem_cons.1 h with h | h
      · exact Or.inl h
      · exact Or.inr (List.mem_cons_of_mem _ h)
    · split at h
      · rcases List.mem_cons.1 h with h | h
        · exact Or.inl h
        · exact Or.inr h
      · rcases List.mem_cons.1 h with h | h
        · exact Or.inr (h ▸ List.mem_cons_self)
        · rcases Tab.mem_insert h with h | h
          · exact Or.inl h
          · exact Or.inr (List.mem_cons_of_mem _ h)

/-- The canonical form in words: rising indices and no default. -/
theorem Tab.wf_iff {α : Type} [DecidableEq α] {d : α} {t : Tab α} :
    Tab.wf d t = true ↔ Tab.rises t = true ∧ ∀ e ∈ t, e.2 ≠ d := by
  simp [Tab.wf]

theorem Tab.wf_set {α : Type} [DecidableEq α] {d v : α} {t : Tab α} {k : Nat} (h : Tab.wf d t = true) :
    Tab.wf d (Tab.set d t k v) = true := by
  rw [Tab.wf_iff] at h ⊢
  unfold Tab.set
  split
  · exact ⟨Tab.rises_erase h.1, fun e he => h.2 e (Tab.mem_erase he)⟩
  · rename_i hv
    refine ⟨Tab.rises_insert h.1, fun e he => ?_⟩
    rcases Tab.mem_insert he with he | he
    · subst he; exact hv
    · exact h.2 e he

theorem Tab.wf_filter {α : Type} [DecidableEq α] {d : α} (p : Nat × α → Bool) {t : Tab α} (h : Tab.wf d t = true) :
    Tab.wf d (List.filter p t) = true := by
  rw [Tab.wf_iff] at h ⊢
  exact ⟨Tab.rises_filter p h.1, fun e he => h.2 e (List.mem_filter.1 he).1⟩

theorem Tab.rises_iff {α : Type} {t : Tab α} : Tab.rises t = true ↔ List.Pairwise (fun a b => a.1 < b.1) t := by
  have key : ∀ (t : Tab α) (lo : Nat),
      Tab.above lo t = true ↔ (∀ e ∈ t, lo < e.1) ∧ List.Pairwise (fun a b => a.1 < b.1) t := by
    intro t
    induction t with
    | nil => intro lo; simp [Tab.above]
    | cons e t ih =>
      intro lo
      simp only [Tab.above, Bool.and_eq_true, decide_eq_true_eq, List.pairwise_cons, List.mem_cons, ih]
      constructor
      · rintro ⟨h1, h2, h3⟩
        refine ⟨?_, h2, h3⟩
        rintro x (rfl | hx)
        · exact h1
        · exact Nat.lt_trans h1 (h2 x hx)
      · rintro ⟨h1, h2, h3⟩
        exact ⟨h1 e (Or.inl rfl), h2, h3⟩
  cases t with
  | nil => simp [Tab.rises]
  | cons e t =>
    simp only [Tab.rises, key, List.pairwise_cons]

/-- Reading back what was inserted. -/
@[simp] theorem Tab.get_insert_same {α : Type} {d v : α} {k : Nat} : ∀ {t : Tab α}, Tab.get d (Tab.insert t k v) k = v
  | [] => by simp [Tab.insert, Tab.get]
  | (i, w) :: t => by
    unfold Tab.insert
    split
    · simp [Tab.get]
    · split
      · simp [Tab.get]
      · rename_i h1 h2
        simp only [Tab.get, if_neg h1]
        exact Tab.get_insert_same

theorem Tab.get_insert_other {α : Type} {d v : α} {k j : Nat} (h : j ≠ k) :
    ∀ {t : Tab α}, Tab.get d (Tab.insert t k v) j = Tab.get d t j
  | [] => by simp only [Tab.insert, Tab.get, if_neg (Ne.symm h)]
  | (i, w) :: t => by
    unfold Tab.insert
    split
    · rename_i e; subst e
      simp only [Tab.get, if_neg (Ne.symm h)]
    · split
      · simp only [Tab.get, if_neg (Ne.symm h)]
      · simp only [Tab.get, Tab.get_insert_other h]

@[simp] theorem Tab.get_erase_same {α : Type} {d : α} {k : Nat} : ∀ {t : Tab α}, Tab.get d (Tab.erase t k) k = d
  | [] => rfl
  | (i, w) :: t => by
    unfold Tab.erase
    rw [List.filter_cons]
    by_cases hi : i = k
    · simp only [hi, decide_true, Bool.not_true, Bool.false_eq_true, if_false]
      exact Tab.get_erase_same
    · simp only [hi, decide_false, Bool.not_false, if_true, Tab.get, if_false]
      exact Tab.get_erase_same

theorem Tab.get_erase_other {α : Type} {d : α} {k j : Nat} (h : j ≠ k) :
    ∀ {t : Tab α}, Tab.get d (Tab.erase t k) j = Tab.get d t j
  | [] => rfl
  | (i, w) :: t => by
    have ih := Tab.get_erase_other (d := d) h (t := t)
    unfold Tab.erase at ih ⊢
    rw [List.filter_cons]
    by_cases hi : i = k
    · simp only [hi, decide_true, Bool.not_true, Bool.false_eq_true, if_false, Tab.get, if_neg (Ne.symm h)]
      exact ih
    · simp only [hi, decide_false, Bool.not_false, if_true, Tab.get, ih]

@[simp] theorem Tab.find_insert_same {α : Type} {v : α} {k : Nat} : ∀ {t : Tab α}, Tab.find? (Tab.insert t k v) k = some v
  | [] => by simp [Tab.insert, Tab.find?]
  | (i, w) :: t => by
    unfold Tab.insert
    split
    · simp [Tab.find?]
    · split
      · simp [Tab.find?]
      · rename_i h1 h2
        simp only [Tab.find?, if_neg h1]
        exact Tab.find_insert_same

theorem Tab.find_insert_other {α : Type} {v : α} {k j : Nat} (h : j ≠ k) :
    ∀ {t : Tab α}, Tab.find? (Tab.insert t k v) j = Tab.find? t j
  | [] => by simp only [Tab.insert, Tab.find?, if_neg (Ne.symm h)]
  | (i, w) :: t => by
    unfold Tab.insert
    split
    · rename_i e; subst e
      simp only [Tab.find?, if_neg (Ne.symm h)]
    · split
      · simp only [Tab.find?, if_neg (Ne.symm h)]
      · simp only [Tab.find?, Tab.find_insert_other h]

@[simp] theorem Tab.find_erase_same {α : Type} {k : Nat} : ∀ {t : Tab α}, Tab.find? (Tab.erase t k) k = none
  | [] => rfl
  | (i, w) :: t => by
    unfold Tab.erase
    rw [List.filter_cons]
    by_cases hi : i = k
    · simp only [hi, decide_true, Bool.not_true, Bool.false_eq_true, if_false]
      exact Tab.find_erase_same
    · simp only [hi, decide_false, Bool.not_false, if_true, Tab.find?, if_false]
      exact Tab.find_erase_same

theorem Tab.find_erase_other {α : Type} {k j : Nat} (h : j ≠ k) :
    ∀ {t : Tab α}, Tab.find? (Tab.erase t k) j = Tab.find? t j
  | [] => rfl
  | (i, w) :: t => by
    have ih := Tab.find_erase_other h (t := t)
    unfold Tab.erase at ih ⊢
    rw [List.filter_cons]
    by_cases hi : i = k
    · simp only [hi, decide_true, Bool.not_true, Bool.false_eq_true, if_false, Tab.find?, if_neg (Ne.symm h)]
      exact ih
    · simp only [hi, decide_false, Bool.not_false, if_true, Tab.find?, ih]

/-- An array reads back what was written. -/
@[simp] theorem Tab.get_set_same {α : Type} [DecidableEq α] {d v : α} {t : Tab α} {k : Nat} :
    Tab.get d (Tab.set d t k v) k = v := by
  unfold Tab.set
  split
  · rename_i e; rw [e]; exact Tab.get_erase_same
  · exact Tab.get_insert_same

/-- Writing one element leaves the others. -/
theorem Tab.get_set_other {α : Type} [DecidableEq α] {d v : α} {t : Tab α} {k j : Nat} (hj : j ≠ k) :
    Tab.get d (Tab.set d t k v) j = Tab.get d t j := by
  unfold Tab.set
  split
  · exact Tab.get_erase_other hj
  · exact Tab.get_insert_other hj

/-- An element reads as its listed entry, or as the default where none is listed. -/
theorem Tab.get_eq_find {α : Type} {d : α} {k : Nat} : ∀ {t : Tab α}, Tab.get d t k = (Tab.find? t k).getD d
  | [] => rfl
  | (i, v) :: t => by
    unfold Tab.get Tab.find?
    split
    · rfl
    · exact Tab.get_eq_find

/-- Writing one element leaves what the others list. -/
theorem Tab.find_set_other {α : Type} [DecidableEq α] {d v : α} {t : Tab α} {k j : Nat} (hj : j ≠ k) :
    Tab.find? (Tab.set d t k v) j = Tab.find? t j := by
  unfold Tab.set
  split
  · exact Tab.find_erase_other hj
  · exact Tab.find_insert_other hj

@[simp] theorem Tab.get_upd_same {α : Type} [DecidableEq α] {d : α} {t : Tab α} {k : Nat} {f : α → α} :
    Tab.get d (Tab.upd d t k f) k = f (Tab.get d t k) := Tab.get_set_same

theorem Tab.get_upd_other {α : Type} [DecidableEq α] {d : α} {t : Tab α} {k j : Nat} {f : α → α} (hj : j ≠ k) :
    Tab.get d (Tab.upd d t k f) j = Tab.get d t j := Tab.get_set_other hj

/-- A listed entry that is changed reads back changed. -/
@[simp] theorem Tab.find_modify_same {α : Type} {k : Nat} {f : α → α} :
    ∀ {t : Tab α}, Tab.find? (Tab.modify t k f) k = (Tab.find? t k).map f
  | [] => rfl
  | (i, w) :: t => by
    have ih := Tab.find_modify_same (k := k) (f := f) (t := t)
    unfold Tab.modify at ih ⊢
    by_cases hi : i = k
    · simp [hi, Tab.find?]
    · simp only [List.map_cons, if_neg hi, Tab.find?, ih]

theorem Tab.find_modify_other {α : Type} {k j : Nat} {f : α → α} (h : j ≠ k) :
    ∀ {t : Tab α}, Tab.find? (Tab.modify t k f) j = Tab.find? t j
  | [] => rfl
  | (i, w) :: t => by
    have ih := Tab.find_modify_other (f := f) h (t := t)
    unfold Tab.modify at ih ⊢
    by_cases hi : i = k
    · simp only [List.map_cons, hi, if_true, Tab.find?, if_neg (Ne.symm h), ih]
    · simp only [List.map_cons, if_neg hi, Tab.find?, ih]

end Sys2Proof

namespace Sys2Proof.Machine

/-! ### Device memory -/

theorem Memory.wf_iff {m : Memory} :
    m.wf = true ↔ Tab.wf 0 m.cells = true ∧ Tab.rises m.poison = true ∧ Tab.wf [] m.indet = true := by
  simp [Memory.wf, and_assoc]

theorem Memory.wf_settle {m : Memory} {g : Nat} {l : List Word} (h : m.wf = true) : (m.settle g l).wf = true := by
  rw [Memory.wf_iff] at h ⊢
  exact ⟨h.1, h.2.1, Tab.wf_set h.2.2⟩

theorem Memory.wf_putByte {m : Memory} {a : Nat} {b : Byte} (h : m.wf = true) : (m.putByte a b).wf = true := by
  have h' : ({ m with cells := Tab.set 0 m.cells a b } : Memory).wf = true := by
    rw [Memory.wf_iff] at h ⊢
    exact ⟨Tab.wf_set h.1, h.2⟩
  unfold Memory.putByte
  dsimp only
  split
  · exact h'
  · exact Memory.wf_settle h'

theorem Memory.wf_put : ∀ {bs : List Byte} {m : Memory} {a : Nat}, m.wf = true → (m.put a bs).wf = true
  | [], _, _, h => h
  | b :: bs, m, a, h => by
    rw [Memory.put]
    exact Memory.wf_put (Memory.wf_putByte h)

theorem Memory.wf_foldl {α : Type} {f : Memory → α → Memory} (hf : ∀ m x, m.wf = true → (f m x).wf = true) :
    ∀ {l : List α} {m : Memory}, m.wf = true → (l.foldl f m).wf = true
  | [], _, h => h
  | x :: l, m, h => by
    rw [List.foldl_cons]
    exact Memory.wf_foldl hf (hf m x h)

theorem Memory.wf_fail {m : Memory} {a : Nat} {bs : List Byte} (h : m.wf = true) : (m.fail a bs).wf = true := by
  unfold Memory.fail
  exact Memory.wf_foldl (fun _ _ hm => Memory.wf_settle hm) h

theorem Memory.wf_zero {m : Memory} {a n : Nat} (h : m.wf = true) : (m.zero a n).wf = true := by
  rw [Memory.wf_iff] at h ⊢
  exact ⟨Tab.wf_filter _ h.1, Tab.rises_filter _ h.2.1, Tab.wf_filter _ h.2.2⟩

theorem Memory.wf_poison {m : Memory} {line : Nat} (h : m.wf = true) :
    ({ m with poison := Tab.insert m.poison line () } : Memory).wf = true := by
  rw [Memory.wf_iff] at h ⊢
  exact ⟨h.1, Tab.rises_insert h.2.1, h.2.2⟩

theorem Memory.wf_unpoison {m : Memory} {line : Nat} (h : m.wf = true) :
    ({ m with poison := Tab.erase m.poison line } : Memory).wf = true := by
  rw [Memory.wf_iff] at h ⊢
  exact ⟨h.1, Tab.rises_erase h.2.1, h.2.2⟩

theorem Memory.wf_mark {m : Memory} {line n : Nat} {p : Bool} (h : m.wf = true) : (m.mark line n p).wf = true := by
  unfold Memory.mark
  split
  · exact Memory.wf_poison h
  · split
    · exact Memory.wf_unpoison h
    · exact h

theorem Memory.wf_writeLine {m : Memory} {a : Nat} {bs : List Byte} {p : Bool} (h : m.wf = true) :
    (m.writeLine a bs p).wf = true := Memory.wf_mark (Memory.wf_put h)

/-- A byte reads back as it was written, where its granule is not indeterminate. -/
theorem Memory.byte_putByte_same {m : Memory} {f a : Nat} {b : Byte} (hd : Tab.find? m.indet (a / 8) = none) :
    (m.putByte a b).byte f a = b := by
  unfold Memory.putByte
  rw [hd]
  simp only [Memory.byte, hd]
  exact Tab.get_set_same

/-- Writing a byte leaves every byte of every other granule. -/
theorem Memory.byte_putByte_other {m : Memory} {f a c : Nat} {b : Byte} (hc : c ≠ a)
    (hd : Tab.find? m.indet (a / 8) = none) (hd' : Tab.find? m.indet (c / 8) = none) :
    (m.putByte a b).byte f c = m.byte f c := by
  unfold Memory.putByte
  rw [hd]
  simp only [Memory.byte, hd']
  exact Tab.get_set_other hc

end Sys2Proof.Machine
end

