-- ==== Sys2Proof/Laws/State.lean ====
section
/-! SUPPORT. The updates of the state: what each leaves alone, field by field, and what is read back after it. -/

open Sys2Proof

namespace Sys2Proof.Machine

/-! ### Fields that an update does not write -/

@[simp] theorem emit_pending (s : State) (o : Out) : (emit s o).pending = s.pending := rfl
@[simp] theorem emit_build (s : State) (o : Out) : (emit s o).build = s.build := rfl
@[simp] theorem emit_role (s : State) (o : Out) : (emit s o).role = s.role := rfl
@[simp] theorem emit_i3cAddr (s : State) (o : Out) : (emit s o).i3cAddr = s.i3cAddr := rfl
@[simp] theorem emit_tick (s : State) (o : Out) : (emit s o).tick = s.tick := rfl
@[simp] theorem emit_epoch (s : State) (o : Out) : (emit s o).epoch = s.epoch := rfl
@[simp] theorem emit_free (s : State) (o : Out) : (emit s o).free = s.free := rfl
@[simp] theorem emit_nextId (s : State) (o : Out) : (emit s o).nextId = s.nextId := rfl
@[simp] theorem emit_mem (s : State) (o : Out) : (emit s o).mem = s.mem := rfl
@[simp] theorem emit_gw (s : State) (o : Out) : (emit s o).gw = s.gw := rfl
@[simp] theorem emit_hosts (s : State) (o : Out) : (emit s o).hosts = s.hosts := rfl
@[simp] theorem emit_wws (s : State) (o : Out) : (emit s o).wws = s.wws := rfl
@[simp] theorem emit_cows (s : State) (o : Out) : (emit s o).cows = s.cows := rfl
@[simp] theorem emit_qe (s : State) (o : Out) : (emit s o).qe = s.qe := rfl
@[simp] theorem emit_tu (s : State) (o : Out) : (emit s o).tu = s.tu := rfl
@[simp] theorem emit_kt (s : State) (o : Out) : (emit s o).kt = s.kt := rfl
@[simp] theorem emit_pa (s : State) (o : Out) : (emit s o).pa = s.pa := rfl
@[simp] theorem emit_mv (s : State) (o : Out) : (emit s o).mv = s.mv := rfl
@[simp] theorem emit_bl (s : State) (o : Out) : (emit s o).bl = s.bl := rfl
@[simp] theorem emit_ch (s : State) (o : Out) : (emit s o).ch = s.ch := rfl
@[simp] theorem emit_ps (s : State) (o : Out) : (emit s o).ps = s.ps := rfl
@[simp] theorem emit_fc (s : State) (o : Out) : (emit s o).fc = s.fc := rfl
@[simp] theorem emit_tp (s : State) (o : Out) : (emit s o).tp = s.tp := rfl

@[simp] theorem reach_pending (s : State) (n : Nat) : (reach s n).pending = s.pending := rfl
@[simp] theorem reach_build (s : State) (n : Nat) : (reach s n).build = s.build := rfl
@[simp] theorem reach_role (s : State) (n : Nat) : (reach s n).role = s.role := rfl
@[simp] theorem reach_i3cAddr (s : State) (n : Nat) : (reach s n).i3cAddr = s.i3cAddr := rfl
@[simp] theorem reach_epoch (s : State) (n : Nat) : (reach s n).epoch = s.epoch := rfl
@[simp] theorem reach_free (s : State) (n : Nat) : (reach s n).free = s.free := rfl
@[simp] theorem reach_nextId (s : State) (n : Nat) : (reach s n).nextId = s.nextId := rfl
@[simp] theorem reach_mem (s : State) (n : Nat) : (reach s n).mem = s.mem := rfl
@[simp] theorem reach_gw (s : State) (n : Nat) : (reach s n).gw = s.gw := rfl
@[simp] theorem reach_hosts (s : State) (n : Nat) : (reach s n).hosts = s.hosts := rfl
@[simp] theorem reach_wws (s : State) (n : Nat) : (reach s n).wws = s.wws := rfl
@[simp] theorem reach_cows (s : State) (n : Nat) : (reach s n).cows = s.cows := rfl
@[simp] theorem reach_qe (s : State) (n : Nat) : (reach s n).qe = s.qe := rfl
@[simp] theorem reach_tu (s : State) (n : Nat) : (reach s n).tu = s.tu := rfl
@[simp] theorem reach_kt (s : State) (n : Nat) : (reach s n).kt = s.kt := rfl
@[simp] theorem reach_pa (s : State) (n : Nat) : (reach s n).pa = s.pa := rfl
@[simp] theorem reach_mv (s : State) (n : Nat) : (reach s n).mv = s.mv := rfl
@[simp] theorem reach_bl (s : State) (n : Nat) : (reach s n).bl = s.bl := rfl
@[simp] theorem reach_ch (s : State) (n : Nat) : (reach s n).ch = s.ch := rfl
@[simp] theorem reach_ps (s : State) (n : Nat) : (reach s n).ps = s.ps := rfl
@[simp] theorem reach_fc (s : State) (n : Nat) : (reach s n).fc = s.fc := rfl
@[simp] theorem reach_tp (s : State) (n : Nat) : (reach s n).tp = s.tp := rfl
@[simp] theorem reach_out (s : State) (n : Nat) : (reach s n).out = s.out := rfl

@[simp] theorem setHost_pending (s : State) (p : Nat) (h : HostPort) : (setHost s p h).pending = s.pending := rfl
@[simp] theorem setHost_build (s : State) (p : Nat) (h : HostPort) : (setHost s p h).build = s.build := rfl
@[simp] theorem setHost_role (s : State) (p : Nat) (h : HostPort) : (setHost s p h).role = s.role := rfl
@[simp] theorem setHost_i3cAddr (s : State) (p : Nat) (h : HostPort) : (setHost s p h).i3cAddr = s.i3cAddr := rfl
@[simp] theorem setHost_tick (s : State) (p : Nat) (h : HostPort) : (setHost s p h).tick = s.tick := rfl
@[simp] theorem setHost_epoch (s : State) (p : Nat) (h : HostPort) : (setHost s p h).epoch = s.epoch := rfl
@[simp] theorem setHost_free (s : State) (p : Nat) (h : HostPort) : (setHost s p h).free = s.free := rfl
@[simp] theorem setHost_nextId (s : State) (p : Nat) (h : HostPort) : (setHost s p h).nextId = s.nextId := rfl
@[simp] theorem setHost_mem (s : State) (p : Nat) (h : HostPort) : (setHost s p h).mem = s.mem := rfl
@[simp] theorem setHost_gw (s : State) (p : Nat) (h : HostPort) : (setHost s p h).gw = s.gw := rfl
@[simp] theorem setHost_wws (s : State) (p : Nat) (h : HostPort) : (setHost s p h).wws = s.wws := rfl
@[simp] theorem setHost_cows (s : State) (p : Nat) (h : HostPort) : (setHost s p h).cows = s.cows := rfl
@[simp] theorem setHost_qe (s : State) (p : Nat) (h : HostPort) : (setHost s p h).qe = s.qe := rfl
@[simp] theorem setHost_tu (s : State) (p : Nat) (h : HostPort) : (setHost s p h).tu = s.tu := rfl
@[simp] theorem setHost_kt (s : State) (p : Nat) (h : HostPort) : (setHost s p h).kt = s.kt := rfl
@[simp] theorem setHost_pa (s : State) (p : Nat) (h : HostPort) : (setHost s p h).pa = s.pa := rfl
@[simp] theorem setHost_mv (s : State) (p : Nat) (h : HostPort) : (setHost s p h).mv = s.mv := rfl
@[simp] theorem setHost_bl (s : State) (p : Nat) (h : HostPort) : (setHost s p h).bl = s.bl := rfl
@[simp] theorem setHost_ch (s : State) (p : Nat) (h : HostPort) : (setHost s p h).ch = s.ch := rfl
@[simp] theorem setHost_ps (s : State) (p : Nat) (h : HostPort) : (setHost s p h).ps = s.ps := rfl
@[simp] theorem setHost_fc (s : State) (p : Nat) (h : HostPort) : (setHost s p h).fc = s.fc := rfl
@[simp] theorem setHost_tp (s : State) (p : Nat) (h : HostPort) : (setHost s p h).tp = s.tp := rfl
@[simp] theorem setHost_out (s : State) (p : Nat) (h : HostPort) : (setHost s p h).out = s.out := rfl

@[simp] theorem updHost_pending (s : State) (p : Nat) (f : HostPort → HostPort) : (updHost s p f).pending = s.pending := rfl
@[simp] theorem updHost_build (s : State) (p : Nat) (f : HostPort → HostPort) : (updHost s p f).build = s.build := rfl
@[simp] theorem updHost_role (s : State) (p : Nat) (f : HostPort → HostPort) : (updHost s p f).role = s.role := rfl
@[simp] theorem updHost_i3cAddr (s : State) (p : Nat) (f : HostPort → HostPort) : (updHost s p f).i3cAddr = s.i3cAddr := rfl
@[simp] theorem updHost_tick (s : State) (p : Nat) (f : HostPort → HostPort) : (updHost s p f).tick = s.tick := rfl
@[simp] theorem updHost_epoch (s : State) (p : Nat) (f : HostPort → HostPort) : (updHost s p f).epoch = s.epoch := rfl
@[simp] theorem updHost_free (s : State) (p : Nat) (f : HostPort → HostPort) : (updHost s p f).free = s.free := rfl
@[simp] theorem updHost_nextId (s : State) (p : Nat) (f : HostPort → HostPort) : (updHost s p f).nextId = s.nextId := rfl
@[simp] theorem updHost_mem (s : State) (p : Nat) (f : HostPort → HostPort) : (updHost s p f).mem = s.mem := rfl
@[simp] theorem updHost_gw (s : State) (p : Nat) (f : HostPort → HostPort) : (updHost s p f).gw = s.gw := rfl
@[simp] theorem updHost_wws (s : State) (p : Nat) (f : HostPort → HostPort) : (updHost s p f).wws = s.wws := rfl
@[simp] theorem updHost_cows (s : State) (p : Nat) (f : HostPort → HostPort) : (updHost s p f).cows = s.cows := rfl
@[simp] theorem updHost_qe (s : State) (p : Nat) (f : HostPort → HostPort) : (updHost s p f).qe = s.qe := rfl
@[simp] theorem updHost_tu (s : State) (p : Nat) (f : HostPort → HostPort) : (updHost s p f).tu = s.tu := rfl
@[simp] theorem updHost_kt (s : State) (p : Nat) (f : HostPort → HostPort) : (updHost s p f).kt = s.kt := rfl
@[simp] theorem updHost_pa (s : State) (p : Nat) (f : HostPort → HostPort) : (updHost s p f).pa = s.pa := rfl
@[simp] theorem updHost_mv (s : State) (p : Nat) (f : HostPort → HostPort) : (updHost s p f).mv = s.mv := rfl
@[simp] theorem updHost_bl (s : State) (p : Nat) (f : HostPort → HostPort) : (updHost s p f).bl = s.bl := rfl
@[simp] theorem updHost_ch (s : State) (p : Nat) (f : HostPort → HostPort) : (updHost s p f).ch = s.ch := rfl
@[simp] theorem updHost_ps (s : State) (p : Nat) (f : HostPort → HostPort) : (updHost s p f).ps = s.ps := rfl
@[simp] theorem updHost_fc (s : State) (p : Nat) (f : HostPort → HostPort) : (updHost s p f).fc = s.fc := rfl
@[simp] theorem updHost_tp (s : State) (p : Nat) (f : HostPort → HostPort) : (updHost s p f).tp = s.tp := rfl
@[simp] theorem updHost_out (s : State) (p : Nat) (f : HostPort → HostPort) : (updHost s p f).out = s.out := rfl

@[simp] theorem updFn_pending (s : State) (fn : Fn) (f : FnState → FnState) : (updFn s fn f).pending = s.pending := rfl
@[simp] theorem updFn_build (s : State) (fn : Fn) (f : FnState → FnState) : (updFn s fn f).build = s.build := rfl
@[simp] theorem updFn_role (s : State) (fn : Fn) (f : FnState → FnState) : (updFn s fn f).role = s.role := rfl
@[simp] theorem updFn_i3cAddr (s : State) (fn : Fn) (f : FnState → FnState) : (updFn s fn f).i3cAddr = s.i3cAddr := rfl
@[simp] theorem updFn_tick (s : State) (fn : Fn) (f : FnState → FnState) : (updFn s fn f).tick = s.tick := rfl
@[simp] theorem updFn_epoch (s : State) (fn : Fn) (f : FnState → FnState) : (updFn s fn f).epoch = s.epoch := rfl
@[simp] theorem updFn_free (s : State) (fn : Fn) (f : FnState → FnState) : (updFn s fn f).free = s.free := rfl
@[simp] theorem updFn_nextId (s : State) (fn : Fn) (f : FnState → FnState) : (updFn s fn f).nextId = s.nextId := rfl
@[simp] theorem updFn_mem (s : State) (fn : Fn) (f : FnState → FnState) : (updFn s fn f).mem = s.mem := rfl
@[simp] theorem updFn_gw (s : State) (fn : Fn) (f : FnState → FnState) : (updFn s fn f).gw = s.gw := rfl
@[simp] theorem updFn_wws (s : State) (fn : Fn) (f : FnState → FnState) : (updFn s fn f).wws = s.wws := rfl
@[simp] theorem updFn_cows (s : State) (fn : Fn) (f : FnState → FnState) : (updFn s fn f).cows = s.cows := rfl
@[simp] theorem updFn_qe (s : State) (fn : Fn) (f : FnState → FnState) : (updFn s fn f).qe = s.qe := rfl
@[simp] theorem updFn_tu (s : State) (fn : Fn) (f : FnState → FnState) : (updFn s fn f).tu = s.tu := rfl
@[simp] theorem updFn_kt (s : State) (fn : Fn) (f : FnState → FnState) : (updFn s fn f).kt = s.kt := rfl
@[simp] theorem updFn_pa (s : State) (fn : Fn) (f : FnState → FnState) : (updFn s fn f).pa = s.pa := rfl
@[simp] theorem updFn_mv (s : State) (fn : Fn) (f : FnState → FnState) : (updFn s fn f).mv = s.mv := rfl
@[simp] theorem updFn_bl (s : State) (fn : Fn) (f : FnState → FnState) : (updFn s fn f).bl = s.bl := rfl
@[simp] theorem updFn_ch (s : State) (fn : Fn) (f : FnState → FnState) : (updFn s fn f).ch = s.ch := rfl
@[simp] theorem updFn_ps (s : State) (fn : Fn) (f : FnState → FnState) : (updFn s fn f).ps = s.ps := rfl
@[simp] theorem updFn_fc (s : State) (fn : Fn) (f : FnState → FnState) : (updFn s fn f).fc = s.fc := rfl
@[simp] theorem updFn_tp (s : State) (fn : Fn) (f : FnState → FnState) : (updFn s fn f).tp = s.tp := rfl
@[simp] theorem updFn_out (s : State) (fn : Fn) (f : FnState → FnState) : (updFn s fn f).out = s.out := rfl

@[simp] theorem updAp_pending (s : State) (p n : Nat) (f : Aperture → Aperture) : (updAp s p n f).pending = s.pending := rfl
@[simp] theorem updAp_build (s : State) (p n : Nat) (f : Aperture → Aperture) : (updAp s p n f).build = s.build := rfl
@[simp] theorem updAp_role (s : State) (p n : Nat) (f : Aperture → Aperture) : (updAp s p n f).role = s.role := rfl
@[simp] theorem updAp_i3cAddr (s : State) (p n : Nat) (f : Aperture → Aperture) : (updAp s p n f).i3cAddr = s.i3cAddr := rfl
@[simp] theorem updAp_tick (s : State) (p n : Nat) (f : Aperture → Aperture) : (updAp s p n f).tick = s.tick := rfl
@[simp] theorem updAp_epoch (s : State) (p n : Nat) (f : Aperture → Aperture) : (updAp s p n f).epoch = s.epoch := rfl
@[simp] theorem updAp_free (s : State) (p n : Nat) (f : Aperture → Aperture) : (updAp s p n f).free = s.free := rfl
@[simp] theorem updAp_nextId (s : State) (p n : Nat) (f : Aperture → Aperture) : (updAp s p n f).nextId = s.nextId := rfl
@[simp] theorem updAp_mem (s : State) (p n : Nat) (f : Aperture → Aperture) : (updAp s p n f).mem = s.mem := rfl
@[simp] theorem updAp_gw (s : State) (p n : Nat) (f : Aperture → Aperture) : (updAp s p n f).gw = s.gw := rfl
@[simp] theorem updAp_wws (s : State) (p n : Nat) (f : Aperture → Aperture) : (updAp s p n f).wws = s.wws := rfl
@[simp] theorem updAp_cows (s : State) (p n : Nat) (f : Aperture → Aperture) : (updAp s p n f).cows = s.cows := rfl
@[simp] theorem updAp_qe (s : State) (p n : Nat) (f : Aperture → Aperture) : (updAp s p n f).qe = s.qe := rfl
@[simp] theorem updAp_tu (s : State) (p n : Nat) (f : Aperture → Aperture) : (updAp s p n f).tu = s.tu := rfl
@[simp] theorem updAp_kt (s : State) (p n : Nat) (f : Aperture → Aperture) : (updAp s p n f).kt = s.kt := rfl
@[simp] theorem updAp_pa (s : State) (p n : Nat) (f : Aperture → Aperture) : (updAp s p n f).pa = s.pa := rfl
@[simp] theorem updAp_mv (s : State) (p n : Nat) (f : Aperture → Aperture) : (updAp s p n f).mv = s.mv := rfl
@[simp] theorem updAp_bl (s : State) (p n : Nat) (f : Aperture → Aperture) : (updAp s p n f).bl = s.bl := rfl
@[simp] theorem updAp_ch (s : State) (p n : Nat) (f : Aperture → Aperture) : (updAp s p n f).ch = s.ch := rfl
@[simp] theorem updAp_ps (s : State) (p n : Nat) (f : Aperture → Aperture) : (updAp s p n f).ps = s.ps := rfl
@[simp] theorem updAp_fc (s : State) (p n : Nat) (f : Aperture → Aperture) : (updAp s p n f).fc = s.fc := rfl
@[simp] theorem updAp_tp (s : State) (p n : Nat) (f : Aperture → Aperture) : (updAp s p n f).tp = s.tp := rfl
@[simp] theorem updAp_out (s : State) (p n : Nat) (f : Aperture → Aperture) : (updAp s p n f).out = s.out := rfl

@[simp] theorem updCtx_pending (s : State) (c : BitVec 12) (f : Ctx → Ctx) : (updCtx s c f).pending = s.pending := rfl
@[simp] theorem updCtx_build (s : State) (c : BitVec 12) (f : Ctx → Ctx) : (updCtx s c f).build = s.build := rfl
@[simp] theorem updCtx_role (s : State) (c : BitVec 12) (f : Ctx → Ctx) : (updCtx s c f).role = s.role := rfl
@[simp] theorem updCtx_i3cAddr (s : State) (c : BitVec 12) (f : Ctx → Ctx) : (updCtx s c f).i3cAddr = s.i3cAddr := rfl
@[simp] theorem updCtx_tick (s : State) (c : BitVec 12) (f : Ctx → Ctx) : (updCtx s c f).tick = s.tick := rfl
@[simp] theorem updCtx_epoch (s : State) (c : BitVec 12) (f : Ctx → Ctx) : (updCtx s c f).epoch = s.epoch := rfl
@[simp] theorem updCtx_free (s : State) (c : BitVec 12) (f : Ctx → Ctx) : (updCtx s c f).free = s.free := rfl
@[simp] theorem updCtx_nextId (s : State) (c : BitVec 12) (f : Ctx → Ctx) : (updCtx s c f).nextId = s.nextId := rfl
@[simp] theorem updCtx_mem (s : State) (c : BitVec 12) (f : Ctx → Ctx) : (updCtx s c f).mem = s.mem := rfl
@[simp] theorem updCtx_gw (s : State) (c : BitVec 12) (f : Ctx → Ctx) : (updCtx s c f).gw = s.gw := rfl
@[simp] theorem updCtx_hosts (s : State) (c : BitVec 12) (f : Ctx → Ctx) : (updCtx s c f).hosts = s.hosts := rfl
@[simp] theorem updCtx_wws (s : State) (c : BitVec 12) (f : Ctx → Ctx) : (updCtx s c f).wws = s.wws := rfl
@[simp] theorem updCtx_cows (s : State) (c : BitVec 12) (f : Ctx → Ctx) : (updCtx s c f).cows = s.cows := rfl
@[simp] theorem updCtx_tu (s : State) (c : BitVec 12) (f : Ctx → Ctx) : (updCtx s c f).tu = s.tu := rfl
@[simp] theorem updCtx_kt (s : State) (c : BitVec 12) (f : Ctx → Ctx) : (updCtx s c f).kt = s.kt := rfl
@[simp] theorem updCtx_pa (s : State) (c : BitVec 12) (f : Ctx → Ctx) : (updCtx s c f).pa = s.pa := rfl
@[simp] theorem updCtx_mv (s : State) (c : BitVec 12) (f : Ctx → Ctx) : (updCtx s c f).mv = s.mv := rfl
@[simp] theorem updCtx_bl (s : State) (c : BitVec 12) (f : Ctx → Ctx) : (updCtx s c f).bl = s.bl := rfl
@[simp] theorem updCtx_ch (s : State) (c : BitVec 12) (f : Ctx → Ctx) : (updCtx s c f).ch = s.ch := rfl
@[simp] theorem updCtx_ps (s : State) (c : BitVec 12) (f : Ctx → Ctx) : (updCtx s c f).ps = s.ps := rfl
@[simp] theorem updCtx_fc (s : State) (c : BitVec 12) (f : Ctx → Ctx) : (updCtx s c f).fc = s.fc := rfl
@[simp] theorem updCtx_tp (s : State) (c : BitVec 12) (f : Ctx → Ctx) : (updCtx s c f).tp = s.tp := rfl
@[simp] theorem updCtx_out (s : State) (c : BitVec 12) (f : Ctx → Ctx) : (updCtx s c f).out = s.out := rfl

@[simp] theorem updQueue_pending (s : State) (c : BitVec 12) (q : Nat) (f : QState → QState) : (updQueue s c q f).pending = s.pending := rfl
@[simp] theorem updQueue_build (s : State) (c : BitVec 12) (q : Nat) (f : QState → QState) : (updQueue s c q f).build = s.build := rfl
@[simp] theorem updQueue_role (s : State) (c : BitVec 12) (q : Nat) (f : QState → QState) : (updQueue s c q f).role = s.role := rfl
@[simp] theorem updQueue_i3cAddr (s : State) (c : BitVec 12) (q : Nat) (f : QState → QState) : (updQueue s c q f).i3cAddr = s.i3cAddr := rfl
@[simp] theorem updQueue_tick (s : State) (c : BitVec 12) (q : Nat) (f : QState → QState) : (updQueue s c q f).tick = s.tick := rfl
@[simp] theorem updQueue_epoch (s : State) (c : BitVec 12) (q : Nat) (f : QState → QState) : (updQueue s c q f).epoch = s.epoch := rfl
@[simp] theorem updQueue_free (s : State) (c : BitVec 12) (q : Nat) (f : QState → QState) : (updQueue s c q f).free = s.free := rfl
@[simp] theorem updQueue_nextId (s : State) (c : BitVec 12) (q : Nat) (f : QState → QState) : (updQueue s c q f).nextId = s.nextId := rfl
@[simp] theorem updQueue_mem (s : State) (c : BitVec 12) (q : Nat) (f : QState → QState) : (updQueue s c q f).mem = s.mem := rfl
@[simp] theorem updQueue_gw (s : State) (c : BitVec 12) (q : Nat) (f : QState → QState) : (updQueue s c q f).gw = s.gw := rfl
@[simp] theorem updQueue_hosts (s : State) (c : BitVec 12) (q : Nat) (f : QState → QState) : (updQueue s c q f).hosts = s.hosts := rfl
@[simp] theorem updQueue_wws (s : State) (c : BitVec 12) (q : Nat) (f : QState → QState) : (updQueue s c q f).wws = s.wws := rfl
@[simp] theorem updQueue_cows (s : State) (c : BitVec 12) (q : Nat) (f : QState → QState) : (updQueue s c q f).cows = s.cows := rfl
@[simp] theorem updQueue_tu (s : State) (c : BitVec 12) (q : Nat) (f : QState → QState) : (updQueue s c q f).tu = s.tu := rfl
@[simp] theorem updQueue_kt (s : State) (c : BitVec 12) (q : Nat) (f : QState → QState) : (updQueue s c q f).kt = s.kt := rfl
@[simp] theorem updQueue_pa (s : State) (c : BitVec 12) (q : Nat) (f : QState → QState) : (updQueue s c q f).pa = s.pa := rfl
@[simp] theorem updQueue_mv (s : State) (c : BitVec 12) (q : Nat) (f : QState → QState) : (updQueue s c q f).mv = s.mv := rfl
@[simp] theorem updQueue_bl (s : State) (c : BitVec 12) (q : Nat) (f : QState → QState) : (updQueue s c q f).bl = s.bl := rfl
@[simp] theorem updQueue_ch (s : State) (c : BitVec 12) (q : Nat) (f : QState → QState) : (updQueue s c q f).ch = s.ch := rfl
@[simp] theorem updQueue_ps (s : State) (c : BitVec 12) (q : Nat) (f : QState → QState) : (updQueue s c q f).ps = s.ps := rfl
@[simp] theorem updQueue_fc (s : State) (c : BitVec 12) (q : Nat) (f : QState → QState) : (updQueue s c q f).fc = s.fc := rfl
@[simp] theorem updQueue_tp (s : State) (c : BitVec 12) (q : Nat) (f : QState → QState) : (updQueue s c q f).tp = s.tp := rfl
@[simp] theorem updQueue_out (s : State) (c : BitVec 12) (q : Nat) (f : QState → QState) : (updQueue s c q f).out = s.out := rfl

@[simp] theorem updCmd_pending (s : State) (id : Nat) (f : Cmd → Cmd) : (updCmd s id f).pending = s.pending := rfl
@[simp] theorem updCmd_build (s : State) (id : Nat) (f : Cmd → Cmd) : (updCmd s id f).build = s.build := rfl
@[simp] theorem updCmd_role (s : State) (id : Nat) (f : Cmd → Cmd) : (updCmd s id f).role = s.role := rfl
@[simp] theorem updCmd_i3cAddr (s : State) (id : Nat) (f : Cmd → Cmd) : (updCmd s id f).i3cAddr = s.i3cAddr := rfl
@[simp] theorem updCmd_tick (s : State) (id : Nat) (f : Cmd → Cmd) : (updCmd s id f).tick = s.tick := rfl
@[simp] theorem updCmd_epoch (s : State) (id : Nat) (f : Cmd → Cmd) : (updCmd s id f).epoch = s.epoch := rfl
@[simp] theorem updCmd_free (s : State) (id : Nat) (f : Cmd → Cmd) : (updCmd s id f).free = s.free := rfl
@[simp] theorem updCmd_nextId (s : State) (id : Nat) (f : Cmd → Cmd) : (updCmd s id f).nextId = s.nextId := rfl
@[simp] theorem updCmd_mem (s : State) (id : Nat) (f : Cmd → Cmd) : (updCmd s id f).mem = s.mem := rfl
@[simp] theorem updCmd_gw (s : State) (id : Nat) (f : Cmd → Cmd) : (updCmd s id f).gw = s.gw := rfl
@[simp] theorem updCmd_hosts (s : State) (id : Nat) (f : Cmd → Cmd) : (updCmd s id f).hosts = s.hosts := rfl
@[simp] theorem updCmd_wws (s : State) (id : Nat) (f : Cmd → Cmd) : (updCmd s id f).wws = s.wws := rfl
@[simp] theorem updCmd_cows (s : State) (id : Nat) (f : Cmd → Cmd) : (updCmd s id f).cows = s.cows := rfl
@[simp] theorem updCmd_tu (s : State) (id : Nat) (f : Cmd → Cmd) : (updCmd s id f).tu = s.tu := rfl
@[simp] theorem updCmd_kt (s : State) (id : Nat) (f : Cmd → Cmd) : (updCmd s id f).kt = s.kt := rfl
@[simp] theorem updCmd_pa (s : State) (id : Nat) (f : Cmd → Cmd) : (updCmd s id f).pa = s.pa := rfl
@[simp] theorem updCmd_mv (s : State) (id : Nat) (f : Cmd → Cmd) : (updCmd s id f).mv = s.mv := rfl
@[simp] theorem updCmd_bl (s : State) (id : Nat) (f : Cmd → Cmd) : (updCmd s id f).bl = s.bl := rfl
@[simp] theorem updCmd_ch (s : State) (id : Nat) (f : Cmd → Cmd) : (updCmd s id f).ch = s.ch := rfl
@[simp] theorem updCmd_ps (s : State) (id : Nat) (f : Cmd → Cmd) : (updCmd s id f).ps = s.ps := rfl
@[simp] theorem updCmd_fc (s : State) (id : Nat) (f : Cmd → Cmd) : (updCmd s id f).fc = s.fc := rfl
@[simp] theorem updCmd_tp (s : State) (id : Nat) (f : Cmd → Cmd) : (updCmd s id f).tp = s.tp := rfl
@[simp] theorem updCmd_out (s : State) (id : Nat) (f : Cmd → Cmd) : (updCmd s id f).out = s.out := rfl

@[simp] theorem updPart_pending (s : State) (p : BitVec 3) (f : Part → Part) : (updPart s p f).pending = s.pending := rfl
@[simp] theorem updPart_build (s : State) (p : BitVec 3) (f : Part → Part) : (updPart s p f).build = s.build := rfl
@[simp] theorem updPart_role (s : State) (p : BitVec 3) (f : Part → Part) : (updPart s p f).role = s.role := rfl
@[simp] theorem updPart_i3cAddr (s : State) (p : BitVec 3) (f : Part → Part) : (updPart s p f).i3cAddr = s.i3cAddr := rfl
@[simp] theorem updPart_tick (s : State) (p : BitVec 3) (f : Part → Part) : (updPart s p f).tick = s.tick := rfl
@[simp] theorem updPart_epoch (s : State) (p : BitVec 3) (f : Part → Part) : (updPart s p f).epoch = s.epoch := rfl
@[simp] theorem updPart_free (s : State) (p : BitVec 3) (f : Part → Part) : (updPart s p f).free = s.free := rfl
@[simp] theorem updPart_nextId (s : State) (p : BitVec 3) (f : Part → Part) : (updPart s p f).nextId = s.nextId := rfl
@[simp] theorem updPart_mem (s : State) (p : BitVec 3) (f : Part → Part) : (updPart s p f).mem = s.mem := rfl
@[simp] theorem updPart_gw (s : State) (p : BitVec 3) (f : Part → Part) : (updPart s p f).gw = s.gw := rfl
@[simp] theorem updPart_hosts (s : State) (p : BitVec 3) (f : Part → Part) : (updPart s p f).hosts = s.hosts := rfl
@[simp] theorem updPart_wws (s : State) (p : BitVec 3) (f : Part → Part) : (updPart s p f).wws = s.wws := rfl
@[simp] theorem updPart_cows (s : State) (p : BitVec 3) (f : Part → Part) : (updPart s p f).cows = s.cows := rfl
@[simp] theorem updPart_qe (s : State) (p : BitVec 3) (f : Part → Part) : (updPart s p f).qe = s.qe := rfl
@[simp] theorem updPart_tu (s : State) (p : BitVec 3) (f : Part → Part) : (updPart s p f).tu = s.tu := rfl
@[simp] theorem updPart_kt (s : State) (p : BitVec 3) (f : Part → Part) : (updPart s p f).kt = s.kt := rfl
@[simp] theorem updPart_pa (s : State) (p : BitVec 3) (f : Part → Part) : (updPart s p f).pa = s.pa := rfl
@[simp] theorem updPart_mv (s : State) (p : BitVec 3) (f : Part → Part) : (updPart s p f).mv = s.mv := rfl
@[simp] theorem updPart_bl (s : State) (p : BitVec 3) (f : Part → Part) : (updPart s p f).bl = s.bl := rfl
@[simp] theorem updPart_ch (s : State) (p : BitVec 3) (f : Part → Part) : (updPart s p f).ch = s.ch := rfl
@[simp] theorem updPart_fc (s : State) (p : BitVec 3) (f : Part → Part) : (updPart s p f).fc = s.fc := rfl
@[simp] theorem updPart_tp (s : State) (p : BitVec 3) (f : Part → Part) : (updPart s p f).tp = s.tp := rfl
@[simp] theorem updPart_out (s : State) (p : BitVec 3) (f : Part → Part) : (updPart s p f).out = s.out := rfl

@[simp] theorem updBl_pending (s : State) (p : Nat) (f : BlPort → BlPort) : (updBl s p f).pending = s.pending := rfl
@[simp] theorem updBl_build (s : State) (p : Nat) (f : BlPort → BlPort) : (updBl s p f).build = s.build := rfl
@[simp] theorem updBl_role (s : State) (p : Nat) (f : BlPort → BlPort) : (updBl s p f).role = s.role := rfl
@[simp] theorem updBl_i3cAddr (s : State) (p : Nat) (f : BlPort → BlPort) : (updBl s p f).i3cAddr = s.i3cAddr := rfl
@[simp] theorem updBl_tick (s : State) (p : Nat) (f : BlPort → BlPort) : (updBl s p f).tick = s.tick := rfl
@[simp] theorem updBl_epoch (s : State) (p : Nat) (f : BlPort → BlPort) : (updBl s p f).epoch = s.epoch := rfl
@[simp] theorem updBl_free (s : State) (p : Nat) (f : BlPort → BlPort) : (updBl s p f).free = s.free := rfl
@[simp] theorem updBl_nextId (s : State) (p : Nat) (f : BlPort → BlPort) : (updBl s p f).nextId = s.nextId := rfl
@[simp] theorem updBl_mem (s : State) (p : Nat) (f : BlPort → BlPort) : (updBl s p f).mem = s.mem := rfl
@[simp] theorem updBl_gw (s : State) (p : Nat) (f : BlPort → BlPort) : (updBl s p f).gw = s.gw := rfl
@[simp] theorem updBl_hosts (s : State) (p : Nat) (f : BlPort → BlPort) : (updBl s p f).hosts = s.hosts := rfl
@[simp] theorem updBl_wws (s : State) (p : Nat) (f : BlPort → BlPort) : (updBl s p f).wws = s.wws := rfl
@[simp] theorem updBl_cows (s : State) (p : Nat) (f : BlPort → BlPort) : (updBl s p f).cows = s.cows := rfl
@[simp] theorem updBl_qe (s : State) (p : Nat) (f : BlPort → BlPort) : (updBl s p f).qe = s.qe := rfl
@[simp] theorem updBl_tu (s : State) (p : Nat) (f : BlPort → BlPort) : (updBl s p f).tu = s.tu := rfl
@[simp] theorem updBl_kt (s : State) (p : Nat) (f : BlPort → BlPort) : (updBl s p f).kt = s.kt := rfl
@[simp] theorem updBl_pa (s : State) (p : Nat) (f : BlPort → BlPort) : (updBl s p f).pa = s.pa := rfl
@[simp] theorem updBl_mv (s : State) (p : Nat) (f : BlPort → BlPort) : (updBl s p f).mv = s.mv := rfl
@[simp] theorem updBl_ch (s : State) (p : Nat) (f : BlPort → BlPort) : (updBl s p f).ch = s.ch := rfl
@[simp] theorem updBl_ps (s : State) (p : Nat) (f : BlPort → BlPort) : (updBl s p f).ps = s.ps := rfl
@[simp] theorem updBl_fc (s : State) (p : Nat) (f : BlPort → BlPort) : (updBl s p f).fc = s.fc := rfl
@[simp] theorem updBl_tp (s : State) (p : Nat) (f : BlPort → BlPort) : (updBl s p f).tp = s.tp := rfl
@[simp] theorem updBl_out (s : State) (p : Nat) (f : BlPort → BlPort) : (updBl s p f).out = s.out := rfl

@[simp] theorem updKey_pending (s : State) (k : Nat) (f : KeySlot → KeySlot) : (updKey s k f).pending = s.pending := rfl
@[simp] theorem updKey_build (s : State) (k : Nat) (f : KeySlot → KeySlot) : (updKey s k f).build = s.build := rfl
@[simp] theorem updKey_role (s : State) (k : Nat) (f : KeySlot → KeySlot) : (updKey s k f).role = s.role := rfl
@[simp] theorem updKey_i3cAddr (s : State) (k : Nat) (f : KeySlot → KeySlot) : (updKey s k f).i3cAddr = s.i3cAddr := rfl
@[simp] theorem updKey_tick (s : State) (k : Nat) (f : KeySlot → KeySlot) : (updKey s k f).tick = s.tick := rfl
@[simp] theorem updKey_epoch (s : State) (k : Nat) (f : KeySlot → KeySlot) : (updKey s k f).epoch = s.epoch := rfl
@[simp] theorem updKey_free (s : State) (k : Nat) (f : KeySlot → KeySlot) : (updKey s k f).free = s.free := rfl
@[simp] theorem updKey_nextId (s : State) (k : Nat) (f : KeySlot → KeySlot) : (updKey s k f).nextId = s.nextId := rfl
@[simp] theorem updKey_mem (s : State) (k : Nat) (f : KeySlot → KeySlot) : (updKey s k f).mem = s.mem := rfl
@[simp] theorem updKey_gw (s : State) (k : Nat) (f : KeySlot → KeySlot) : (updKey s k f).gw = s.gw := rfl
@[simp] theorem updKey_hosts (s : State) (k : Nat) (f : KeySlot → KeySlot) : (updKey s k f).hosts = s.hosts := rfl
@[simp] theorem updKey_wws (s : State) (k : Nat) (f : KeySlot → KeySlot) : (updKey s k f).wws = s.wws := rfl
@[simp] theorem updKey_cows (s : State) (k : Nat) (f : KeySlot → KeySlot) : (updKey s k f).cows = s.cows := rfl
@[simp] theorem updKey_qe (s : State) (k : Nat) (f : KeySlot → KeySlot) : (updKey s k f).qe = s.qe := rfl
@[simp] theorem updKey_tu (s : State) (k : Nat) (f : KeySlot → KeySlot) : (updKey s k f).tu = s.tu := rfl
@[simp] theorem updKey_kt (s : State) (k : Nat) (f : KeySlot → KeySlot) : (updKey s k f).kt = s.kt := rfl
@[simp] theorem updKey_pa (s : State) (k : Nat) (f : KeySlot → KeySlot) : (updKey s k f).pa = s.pa := rfl
@[simp] theorem updKey_mv (s : State) (k : Nat) (f : KeySlot → KeySlot) : (updKey s k f).mv = s.mv := rfl
@[simp] theorem updKey_ch (s : State) (k : Nat) (f : KeySlot → KeySlot) : (updKey s k f).ch = s.ch := rfl
@[simp] theorem updKey_ps (s : State) (k : Nat) (f : KeySlot → KeySlot) : (updKey s k f).ps = s.ps := rfl
@[simp] theorem updKey_fc (s : State) (k : Nat) (f : KeySlot → KeySlot) : (updKey s k f).fc = s.fc := rfl
@[simp] theorem updKey_tp (s : State) (k : Nat) (f : KeySlot → KeySlot) : (updKey s k f).tp = s.tp := rfl
@[simp] theorem updKey_out (s : State) (k : Nat) (f : KeySlot → KeySlot) : (updKey s k f).out = s.out := rfl

@[simp] theorem updChan_pending (s : State) (c : Nat) (f : Channel → Channel) : (updChan s c f).pending = s.pending := rfl
@[simp] theorem updChan_build (s : State) (c : Nat) (f : Channel → Channel) : (updChan s c f).build = s.build := rfl
@[simp] theorem updChan_role (s : State) (c : Nat) (f : Channel → Channel) : (updChan s c f).role = s.role := rfl
@[simp] theorem updChan_i3cAddr (s : State) (c : Nat) (f : Channel → Channel) : (updChan s c f).i3cAddr = s.i3cAddr := rfl
@[simp] theorem updChan_tick (s : State) (c : Nat) (f : Channel → Channel) : (updChan s c f).tick = s.tick := rfl
@[simp] theorem updChan_epoch (s : State) (c : Nat) (f : Channel → Channel) : (updChan s c f).epoch = s.epoch := rfl
@[simp] theorem updChan_free (s : State) (c : Nat) (f : Channel → Channel) : (updChan s c f).free = s.free := rfl
@[simp] theorem updChan_nextId (s : State) (c : Nat) (f : Channel → Channel) : (updChan s c f).nextId = s.nextId := rfl
@[simp] theorem updChan_mem (s : State) (c : Nat) (f : Channel → Channel) : (updChan s c f).mem = s.mem := rfl
@[simp] theorem updChan_gw (s : State) (c : Nat) (f : Channel → Channel) : (updChan s c f).gw = s.gw := rfl
@[simp] theorem updChan_hosts (s : State) (c : Nat) (f : Channel → Channel) : (updChan s c f).hosts = s.hosts := rfl
@[simp] theorem updChan_wws (s : State) (c : Nat) (f : Channel → Channel) : (updChan s c f).wws = s.wws := rfl
@[simp] theorem updChan_cows (s : State) (c : Nat) (f : Channel → Channel) : (updChan s c f).cows = s.cows := rfl
@[simp] theorem updChan_qe (s : State) (c : Nat) (f : Channel → Channel) : (updChan s c f).qe = s.qe := rfl
@[simp] theorem updChan_tu (s : State) (c : Nat) (f : Channel → Channel) : (updChan s c f).tu = s.tu := rfl
@[simp] theorem updChan_kt (s : State) (c : Nat) (f : Channel → Channel) : (updChan s c f).kt = s.kt := rfl
@[simp] theorem updChan_pa (s : State) (c : Nat) (f : Channel → Channel) : (updChan s c f).pa = s.pa := rfl
@[simp] theorem updChan_bl (s : State) (c : Nat) (f : Channel → Channel) : (updChan s c f).bl = s.bl := rfl
@[simp] theorem updChan_ch (s : State) (c : Nat) (f : Channel → Channel) : (updChan s c f).ch = s.ch := rfl
@[simp] theorem updChan_ps (s : State) (c : Nat) (f : Channel → Channel) : (updChan s c f).ps = s.ps := rfl
@[simp] theorem updChan_fc (s : State) (c : Nat) (f : Channel → Channel) : (updChan s c f).fc = s.fc := rfl
@[simp] theorem updChan_tp (s : State) (c : Nat) (f : Channel → Channel) : (updChan s c f).tp = s.tp := rfl
@[simp] theorem updChan_out (s : State) (c : Nat) (f : Channel → Channel) : (updChan s c f).out = s.out := rfl

@[simp] theorem updRun_pending (s : State) (c : Nat) (f : Run → Run) : (updRun s c f).pending = s.pending := rfl
@[simp] theorem updRun_build (s : State) (c : Nat) (f : Run → Run) : (updRun s c f).build = s.build := rfl
@[simp] theorem updRun_role (s : State) (c : Nat) (f : Run → Run) : (updRun s c f).role = s.role := rfl
@[simp] theorem updRun_i3cAddr (s : State) (c : Nat) (f : Run → Run) : (updRun s c f).i3cAddr = s.i3cAddr := rfl
@[simp] theorem updRun_tick (s : State) (c : Nat) (f : Run → Run) : (updRun s c f).tick = s.tick := rfl
@[simp] theorem updRun_epoch (s : State) (c : Nat) (f : Run → Run) : (updRun s c f).epoch = s.epoch := rfl
@[simp] theorem updRun_free (s : State) (c : Nat) (f : Run → Run) : (updRun s c f).free = s.free := rfl
@[simp] theorem updRun_nextId (s : State) (c : Nat) (f : Run → Run) : (updRun s c f).nextId = s.nextId := rfl
@[simp] theorem updRun_mem (s : State) (c : Nat) (f : Run → Run) : (updRun s c f).mem = s.mem := rfl
@[simp] theorem updRun_gw (s : State) (c : Nat) (f : Run → Run) : (updRun s c f).gw = s.gw := rfl
@[simp] theorem updRun_hosts (s : State) (c : Nat) (f : Run → Run) : (updRun s c f).hosts = s.hosts := rfl
@[simp] theorem updRun_wws (s : State) (c : Nat) (f : Run → Run) : (updRun s c f).wws = s.wws := rfl
@[simp] theorem updRun_cows (s : State) (c : Nat) (f : Run → Run) : (updRun s c f).cows = s.cows := rfl
@[simp] theorem updRun_qe (s : State) (c : Nat) (f : Run → Run) : (updRun s c f).qe = s.qe := rfl
@[simp] theorem updRun_tu (s : State) (c : Nat) (f : Run → Run) : (updRun s c f).tu = s.tu := rfl
@[simp] theorem updRun_kt (s : State) (c : Nat) (f : Run → Run) : (updRun s c f).kt = s.kt := rfl
@[simp] theorem updRun_pa (s : State) (c : Nat) (f : Run → Run) : (updRun s c f).pa = s.pa := rfl
@[simp] theorem updRun_bl (s : State) (c : Nat) (f : Run → Run) : (updRun s c f).bl = s.bl := rfl
@[simp] theorem updRun_ch (s : State) (c : Nat) (f : Run → Run) : (updRun s c f).ch = s.ch := rfl
@[simp] theorem updRun_ps (s : State) (c : Nat) (f : Run → Run) : (updRun s c f).ps = s.ps := rfl
@[simp] theorem updRun_fc (s : State) (c : Nat) (f : Run → Run) : (updRun s c f).fc = s.fc := rfl
@[simp] theorem updRun_tp (s : State) (c : Nat) (f : Run → Run) : (updRun s c f).tp = s.tp := rfl
@[simp] theorem updRun_out (s : State) (c : Nat) (f : Run → Run) : (updRun s c f).out = s.out := rfl

@[simp] theorem updCore_pending (s : State) (p : Nat) (f : CorePort → CorePort) : (updCore s p f).pending = s.pending := rfl
@[simp] theorem updCore_build (s : State) (p : Nat) (f : CorePort → CorePort) : (updCore s p f).build = s.build := rfl
@[simp] theorem updCore_role (s : State) (p : Nat) (f : CorePort → CorePort) : (updCore s p f).role = s.role := rfl
@[simp] theorem updCore_i3cAddr (s : State) (p : Nat) (f : CorePort → CorePort) : (updCore s p f).i3cAddr = s.i3cAddr := rfl
@[simp] theorem updCore_tick (s : State) (p : Nat) (f : CorePort → CorePort) : (updCore s p f).tick = s.tick := rfl
@[simp] theorem updCore_epoch (s : State) (p : Nat) (f : CorePort → CorePort) : (updCore s p f).epoch = s.epoch := rfl
@[simp] theorem updCore_free (s : State) (p : Nat) (f : CorePort → CorePort) : (updCore s p f).free = s.free := rfl
@[simp] theorem updCore_nextId (s : State) (p : Nat) (f : CorePort → CorePort) : (updCore s p f).nextId = s.nextId := rfl
@[simp] theorem updCore_mem (s : State) (p : Nat) (f : CorePort → CorePort) : (updCore s p f).mem = s.mem := rfl
@[simp] theorem updCore_gw (s : State) (p : Nat) (f : CorePort → CorePort) : (updCore s p f).gw = s.gw := rfl
@[simp] theorem updCore_hosts (s : State) (p : Nat) (f : CorePort → CorePort) : (updCore s p f).hosts = s.hosts := rfl
@[simp] theorem updCore_wws (s : State) (p : Nat) (f : CorePort → CorePort) : (updCore s p f).wws = s.wws := rfl
@[simp] theorem updCore_cows (s : State) (p : Nat) (f : CorePort → CorePort) : (updCore s p f).cows = s.cows := rfl
@[simp] theorem updCore_qe (s : State) (p : Nat) (f : CorePort → CorePort) : (updCore s p f).qe = s.qe := rfl
@[simp] theorem updCore_tu (s : State) (p : Nat) (f : CorePort → CorePort) : (updCore s p f).tu = s.tu := rfl
@[simp] theorem updCore_kt (s : State) (p : Nat) (f : CorePort → CorePort) : (updCore s p f).kt = s.kt := rfl
@[simp] theorem updCore_pa (s : State) (p : Nat) (f : CorePort → CorePort) : (updCore s p f).pa = s.pa := rfl
@[simp] theorem updCore_mv (s : State) (p : Nat) (f : CorePort → CorePort) : (updCore s p f).mv = s.mv := rfl
@[simp] theorem updCore_bl (s : State) (p : Nat) (f : CorePort → CorePort) : (updCore s p f).bl = s.bl := rfl
@[simp] theorem updCore_ps (s : State) (p : Nat) (f : CorePort → CorePort) : (updCore s p f).ps = s.ps := rfl
@[simp] theorem updCore_fc (s : State) (p : Nat) (f : CorePort → CorePort) : (updCore s p f).fc = s.fc := rfl
@[simp] theorem updCore_tp (s : State) (p : Nat) (f : CorePort → CorePort) : (updCore s p f).tp = s.tp := rfl
@[simp] theorem updCore_out (s : State) (p : Nat) (f : CorePort → CorePort) : (updCore s p f).out = s.out := rfl

@[simp] theorem updGw_pending (s : State) (p : Nat) (f : GwPort → GwPort) : (updGw s p f).pending = s.pending := rfl
@[simp] theorem updGw_build (s : State) (p : Nat) (f : GwPort → GwPort) : (updGw s p f).build = s.build := rfl
@[simp] theorem updGw_role (s : State) (p : Nat) (f : GwPort → GwPort) : (updGw s p f).role = s.role := rfl
@[simp] theorem updGw_i3cAddr (s : State) (p : Nat) (f : GwPort → GwPort) : (updGw s p f).i3cAddr = s.i3cAddr := rfl
@[simp] theorem updGw_tick (s : State) (p : Nat) (f : GwPort → GwPort) : (updGw s p f).tick = s.tick := rfl
@[simp] theorem updGw_epoch (s : State) (p : Nat) (f : GwPort → GwPort) : (updGw s p f).epoch = s.epoch := rfl
@[simp] theorem updGw_free (s : State) (p : Nat) (f : GwPort → GwPort) : (updGw s p f).free = s.free := rfl
@[simp] theorem updGw_nextId (s : State) (p : Nat) (f : GwPort → GwPort) : (updGw s p f).nextId = s.nextId := rfl
@[simp] theorem updGw_mem (s : State) (p : Nat) (f : GwPort → GwPort) : (updGw s p f).mem = s.mem := rfl
@[simp] theorem updGw_hosts (s : State) (p : Nat) (f : GwPort → GwPort) : (updGw s p f).hosts = s.hosts := rfl
@[simp] theorem updGw_wws (s : State) (p : Nat) (f : GwPort → GwPort) : (updGw s p f).wws = s.wws := rfl
@[simp] theorem updGw_cows (s : State) (p : Nat) (f : GwPort → GwPort) : (updGw s p f).cows = s.cows := rfl
@[simp] theorem updGw_qe (s : State) (p : Nat) (f : GwPort → GwPort) : (updGw s p f).qe = s.qe := rfl
@[simp] theorem updGw_tu (s : State) (p : Nat) (f : GwPort → GwPort) : (updGw s p f).tu = s.tu := rfl
@[simp] theorem updGw_kt (s : State) (p : Nat) (f : GwPort → GwPort) : (updGw s p f).kt = s.kt := rfl
@[simp] theorem updGw_pa (s : State) (p : Nat) (f : GwPort → GwPort) : (updGw s p f).pa = s.pa := rfl
@[simp] theorem updGw_mv (s : State) (p : Nat) (f : GwPort → GwPort) : (updGw s p f).mv = s.mv := rfl
@[simp] theorem updGw_bl (s : State) (p : Nat) (f : GwPort → GwPort) : (updGw s p f).bl = s.bl := rfl
@[simp] theorem updGw_ch (s : State) (p : Nat) (f : GwPort → GwPort) : (updGw s p f).ch = s.ch := rfl
@[simp] theorem updGw_ps (s : State) (p : Nat) (f : GwPort → GwPort) : (updGw s p f).ps = s.ps := rfl
@[simp] theorem updGw_fc (s : State) (p : Nat) (f : GwPort → GwPort) : (updGw s p f).fc = s.fc := rfl
@[simp] theorem updGw_tp (s : State) (p : Nat) (f : GwPort → GwPort) : (updGw s p f).tp = s.tp := rfl
@[simp] theorem updGw_out (s : State) (p : Nat) (f : GwPort → GwPort) : (updGw s p f).out = s.out := rfl

@[simp] theorem setSrc_pending (s : State) (base : Nat) (src : BitVec 16) (x : Src) : (setSrc s base src x).pending = s.pending := rfl
@[simp] theorem setSrc_build (s : State) (base : Nat) (src : BitVec 16) (x : Src) : (setSrc s base src x).build = s.build := rfl
@[simp] theorem setSrc_role (s : State) (base : Nat) (src : BitVec 16) (x : Src) : (setSrc s base src x).role = s.role := rfl
@[simp] theorem setSrc_i3cAddr (s : State) (base : Nat) (src : BitVec 16) (x : Src) : (setSrc s base src x).i3cAddr = s.i3cAddr := rfl
@[simp] theorem setSrc_tick (s : State) (base : Nat) (src : BitVec 16) (x : Src) : (setSrc s base src x).tick = s.tick := rfl
@[simp] theorem setSrc_epoch (s : State) (base : Nat) (src : BitVec 16) (x : Src) : (setSrc s base src x).epoch = s.epoch := rfl
@[simp] theorem setSrc_free (s : State) (base : Nat) (src : BitVec 16) (x : Src) : (setSrc s base src x).free = s.free := rfl
@[simp] theorem setSrc_nextId (s : State) (base : Nat) (src : BitVec 16) (x : Src) : (setSrc s base src x).nextId = s.nextId := rfl
@[simp] theorem setSrc_mem (s : State) (base : Nat) (src : BitVec 16) (x : Src) : (setSrc s base src x).mem = s.mem := rfl
@[simp] theorem setSrc_gw (s : State) (base : Nat) (src : BitVec 16) (x : Src) : (setSrc s base src x).gw = s.gw := rfl
@[simp] theorem setSrc_hosts (s : State) (base : Nat) (src : BitVec 16) (x : Src) : (setSrc s base src x).hosts = s.hosts := rfl
@[simp] theorem setSrc_wws (s : State) (base : Nat) (src : BitVec 16) (x : Src) : (setSrc s base src x).wws = s.wws := rfl
@[simp] theorem setSrc_cows (s : State) (base : Nat) (src : BitVec 16) (x : Src) : (setSrc s base src x).cows = s.cows := rfl
@[simp] theorem setSrc_qe (s : State) (base : Nat) (src : BitVec 16) (x : Src) : (setSrc s base src x).qe = s.qe := rfl
@[simp] theorem setSrc_tu (s : State) (base : Nat) (src : BitVec 16) (x : Src) : (setSrc s base src x).tu = s.tu := rfl
@[simp] theorem setSrc_kt (s : State) (base : Nat) (src : BitVec 16) (x : Src) : (setSrc s base src x).kt = s.kt := rfl
@[simp] theorem setSrc_pa (s : State) (base : Nat) (src : BitVec 16) (x : Src) : (setSrc s base src x).pa = s.pa := rfl
@[simp] theorem setSrc_mv (s : State) (base : Nat) (src : BitVec 16) (x : Src) : (setSrc s base src x).mv = s.mv := rfl
@[simp] theorem setSrc_bl (s : State) (base : Nat) (src : BitVec 16) (x : Src) : (setSrc s base src x).bl = s.bl := rfl
@[simp] theorem setSrc_ch (s : State) (base : Nat) (src : BitVec 16) (x : Src) : (setSrc s base src x).ch = s.ch := rfl
@[simp] theorem setSrc_ps (s : State) (base : Nat) (src : BitVec 16) (x : Src) : (setSrc s base src x).ps = s.ps := rfl
@[simp] theorem setSrc_tp (s : State) (base : Nat) (src : BitVec 16) (x : Src) : (setSrc s base src x).tp = s.tp := rfl
@[simp] theorem setSrc_out (s : State) (base : Nat) (src : BitVec 16) (x : Src) : (setSrc s base src x).out = s.out := rfl

@[simp] theorem setRec_pending (s : State) (n : Nat) (r : Rec) : (setRec s n r).pending = s.pending := rfl
@[simp] theorem setRec_build (s : State) (n : Nat) (r : Rec) : (setRec s n r).build = s.build := rfl
@[simp] theorem setRec_role (s : State) (n : Nat) (r : Rec) : (setRec s n r).role = s.role := rfl
@[simp] theorem setRec_i3cAddr (s : State) (n : Nat) (r : Rec) : (setRec s n r).i3cAddr = s.i3cAddr := rfl
@[simp] theorem setRec_tick (s : State) (n : Nat) (r : Rec) : (setRec s n r).tick = s.tick := rfl
@[simp] theorem setRec_epoch (s : State) (n : Nat) (r : Rec) : (setRec s n r).epoch = s.epoch := rfl
@[simp] theorem setRec_free (s : State) (n : Nat) (r : Rec) : (setRec s n r).free = s.free := rfl
@[simp] theorem setRec_nextId (s : State) (n : Nat) (r : Rec) : (setRec s n r).nextId = s.nextId := rfl
@[simp] theorem setRec_mem (s : State) (n : Nat) (r : Rec) : (setRec s n r).mem = s.mem := rfl
@[simp] theorem setRec_gw (s : State) (n : Nat) (r : Rec) : (setRec s n r).gw = s.gw := rfl
@[simp] theorem setRec_hosts (s : State) (n : Nat) (r : Rec) : (setRec s n r).hosts = s.hosts := rfl
@[simp] theorem setRec_wws (s : State) (n : Nat) (r : Rec) : (setRec s n r).wws = s.wws := rfl
@[simp] theorem setRec_cows (s : State) (n : Nat) (r : Rec) : (setRec s n r).cows = s.cows := rfl
@[simp] theorem setRec_qe (s : State) (n : Nat) (r : Rec) : (setRec s n r).qe = s.qe := rfl
@[simp] theorem setRec_tu (s : State) (n : Nat) (r : Rec) : (setRec s n r).tu = s.tu := rfl
@[simp] theorem setRec_kt (s : State) (n : Nat) (r : Rec) : (setRec s n r).kt = s.kt := rfl
@[simp] theorem setRec_pa (s : State) (n : Nat) (r : Rec) : (setRec s n r).pa = s.pa := rfl
@[simp] theorem setRec_mv (s : State) (n : Nat) (r : Rec) : (setRec s n r).mv = s.mv := rfl
@[simp] theorem setRec_bl (s : State) (n : Nat) (r : Rec) : (setRec s n r).bl = s.bl := rfl
@[simp] theorem setRec_ch (s : State) (n : Nat) (r : Rec) : (setRec s n r).ch = s.ch := rfl
@[simp] theorem setRec_ps (s : State) (n : Nat) (r : Rec) : (setRec s n r).ps = s.ps := rfl
@[simp] theorem setRec_tp (s : State) (n : Nat) (r : Rec) : (setRec s n r).tp = s.tp := rfl
@[simp] theorem setRec_out (s : State) (n : Nat) (r : Rec) : (setRec s n r).out = s.out := rfl

@[simp] theorem bumpOverflow_pending (s : State) : (bumpOverflow s).pending = s.pending := rfl
@[simp] theorem bumpOverflow_build (s : State) : (bumpOverflow s).build = s.build := rfl
@[simp] theorem bumpOverflow_role (s : State) : (bumpOverflow s).role = s.role := rfl
@[simp] theorem bumpOverflow_i3cAddr (s : State) : (bumpOverflow s).i3cAddr = s.i3cAddr := rfl
@[simp] theorem bumpOverflow_tick (s : State) : (bumpOverflow s).tick = s.tick := rfl
@[simp] theorem bumpOverflow_epoch (s : State) : (bumpOverflow s).epoch = s.epoch := rfl
@[simp] theorem bumpOverflow_free (s : State) : (bumpOverflow s).free = s.free := rfl
@[simp] theorem bumpOverflow_nextId (s : State) : (bumpOverflow s).nextId = s.nextId := rfl
@[simp] theorem bumpOverflow_mem (s : State) : (bumpOverflow s).mem = s.mem := rfl
@[simp] theorem bumpOverflow_gw (s : State) : (bumpOverflow s).gw = s.gw := rfl
@[simp] theorem bumpOverflow_hosts (s : State) : (bumpOverflow s).hosts = s.hosts := rfl
@[simp] theorem bumpOverflow_wws (s : State) : (bumpOverflow s).wws = s.wws := rfl
@[simp] theorem bumpOverflow_cows (s : State) : (bumpOverflow s).cows = s.cows := rfl
@[simp] theorem bumpOverflow_qe (s : State) : (bumpOverflow s).qe = s.qe := rfl
@[simp] theorem bumpOverflow_tu (s : State) : (bumpOverflow s).tu = s.tu := rfl
@[simp] theorem bumpOverflow_kt (s : State) : (bumpOverflow s).kt = s.kt := rfl
@[simp] theorem bumpOverflow_pa (s : State) : (bumpOverflow s).pa = s.pa := rfl
@[simp] theorem bumpOverflow_mv (s : State) : (bumpOverflow s).mv = s.mv := rfl
@[simp] theorem bumpOverflow_bl (s : State) : (bumpOverflow s).bl = s.bl := rfl
@[simp] theorem bumpOverflow_ch (s : State) : (bumpOverflow s).ch = s.ch := rfl
@[simp] theorem bumpOverflow_ps (s : State) : (bumpOverflow s).ps = s.ps := rfl
@[simp] theorem bumpOverflow_tp (s : State) : (bumpOverflow s).tp = s.tp := rfl
@[simp] theorem bumpOverflow_out (s : State) : (bumpOverflow s).out = s.out := rfl

/-! ### Reads of other state -/

@[simp] theorem hostPort_emit (s : State) (o : Out) (p1 : Nat) : hostPort (emit s o) p1 = hostPort s p1 := rfl
@[simp] theorem fnState_emit (s : State) (o : Out) (fn1 : Fn) : fnState (emit s o) fn1 = fnState s fn1 := rfl
@[simp] theorem aperture_emit (s : State) (o : Out) (p1 n1 : Nat) : aperture (emit s o) p1 n1 = aperture s p1 n1 := rfl
@[simp] theorem ctxOf_emit (s : State) (o : Out) (c1 : BitVec 12) : ctxOf (emit s o) c1 = ctxOf s c1 := rfl
@[simp] theorem queueOf_emit (s : State) (o : Out) (c1 : BitVec 12) (q1 : Nat) : queueOf (emit s o) c1 q1 = queueOf s c1 q1 := rfl
@[simp] theorem cmdOf_emit (s : State) (o : Out) (id1 : Nat) : cmdOf (emit s o) id1 = cmdOf s id1 := rfl
@[simp] theorem partOf_emit (s : State) (o : Out) (p1 : BitVec 3) : partOf (emit s o) p1 = partOf s p1 := rfl
@[simp] theorem blPort_emit (s : State) (o : Out) (p1 : Nat) : blPort (emit s o) p1 = blPort s p1 := rfl
@[simp] theorem keySlot_emit (s : State) (o : Out) (k1 : Nat) : keySlot (emit s o) k1 = keySlot s k1 := rfl
@[simp] theorem chan_emit (s : State) (o : Out) (c1 : Nat) : chan (emit s o) c1 = chan s c1 := rfl
@[simp] theorem corePort_emit (s : State) (o : Out) (p1 : Nat) : corePort (emit s o) p1 = corePort s p1 := rfl
@[simp] theorem gwPort_emit (s : State) (o : Out) (p1 : Nat) : gwPort (emit s o) p1 = gwPort s p1 := rfl
@[simp] theorem recAt_emit (s : State) (o : Out) (n1 : Nat) : recAt (emit s o) n1 = recAt s n1 := rfl
@[simp] theorem recValid_emit (s : State) (o : Out) (n1 : Nat) : recValid (emit s o) n1 = recValid s n1 := rfl
@[simp] theorem safeState_emit (s : State) (o : Out) : safeState (emit s o) = safeState s := rfl
@[simp] theorem tickWord_emit (s : State) (o : Out) : tickWord (emit s o) = tickWord s := rfl

@[simp] theorem hostPort_reach (s : State) (n : Nat) (p1 : Nat) : hostPort (reach s n) p1 = hostPort s p1 := rfl
@[simp] theorem fnState_reach (s : State) (n : Nat) (fn1 : Fn) : fnState (reach s n) fn1 = fnState s fn1 := rfl
@[simp] theorem aperture_reach (s : State) (n : Nat) (p1 n1 : Nat) : aperture (reach s n) p1 n1 = aperture s p1 n1 := rfl
@[simp] theorem ctxOf_reach (s : State) (n : Nat) (c1 : BitVec 12) : ctxOf (reach s n) c1 = ctxOf s c1 := rfl
@[simp] theorem queueOf_reach (s : State) (n : Nat) (c1 : BitVec 12) (q1 : Nat) : queueOf (reach s n) c1 q1 = queueOf s c1 q1 := rfl
@[simp] theorem cmdOf_reach (s : State) (n : Nat) (id1 : Nat) : cmdOf (reach s n) id1 = cmdOf s id1 := rfl
@[simp] theorem partOf_reach (s : State) (n : Nat) (p1 : BitVec 3) : partOf (reach s n) p1 = partOf s p1 := rfl
@[simp] theorem blPort_reach (s : State) (n : Nat) (p1 : Nat) : blPort (reach s n) p1 = blPort s p1 := rfl
@[simp] theorem keySlot_reach (s : State) (n : Nat) (k1 : Nat) : keySlot (reach s n) k1 = keySlot s k1 := rfl
@[simp] theorem chan_reach (s : State) (n : Nat) (c1 : Nat) : chan (reach s n) c1 = chan s c1 := rfl
@[simp] theorem corePort_reach (s : State) (n : Nat) (p1 : Nat) : corePort (reach s n) p1 = corePort s p1 := rfl
@[simp] theorem gwPort_reach (s : State) (n : Nat) (p1 : Nat) : gwPort (reach s n) p1 = gwPort s p1 := rfl
@[simp] theorem recAt_reach (s : State) (n : Nat) (n1 : Nat) : recAt (reach s n) n1 = recAt s n1 := rfl
@[simp] theorem recValid_reach (s : State) (n : Nat) (n1 : Nat) : recValid (reach s n) n1 = recValid s n1 := rfl
@[simp] theorem safeState_reach (s : State) (n : Nat) : safeState (reach s n) = safeState s := rfl

@[simp] theorem ctxOf_setHost (s : State) (p : Nat) (h : HostPort) (c1 : BitVec 12) : ctxOf (setHost s p h) c1 = ctxOf s c1 := rfl
@[simp] theorem queueOf_setHost (s : State) (p : Nat) (h : HostPort) (c1 : BitVec 12) (q1 : Nat) : queueOf (setHost s p h) c1 q1 = queueOf s c1 q1 := rfl
@[simp] theorem cmdOf_setHost (s : State) (p : Nat) (h : HostPort) (id1 : Nat) : cmdOf (setHost s p h) id1 = cmdOf s id1 := rfl
@[simp] theorem partOf_setHost (s : State) (p : Nat) (h : HostPort) (p1 : BitVec 3) : partOf (setHost s p h) p1 = partOf s p1 := rfl
@[simp] theorem blPort_setHost (s : State) (p : Nat) (h : HostPort) (p1 : Nat) : blPort (setHost s p h) p1 = blPort s p1 := rfl
@[simp] theorem keySlot_setHost (s : State) (p : Nat) (h : HostPort) (k1 : Nat) : keySlot (setHost s p h) k1 = keySlot s k1 := rfl
@[simp] theorem chan_setHost (s : State) (p : Nat) (h : HostPort) (c1 : Nat) : chan (setHost s p h) c1 = chan s c1 := rfl
@[simp] theorem corePort_setHost (s : State) (p : Nat) (h : HostPort) (p1 : Nat) : corePort (setHost s p h) p1 = corePort s p1 := rfl
@[simp] theorem gwPort_setHost (s : State) (p : Nat) (h : HostPort) (p1 : Nat) : gwPort (setHost s p h) p1 = gwPort s p1 := rfl
@[simp] theorem recAt_setHost (s : State) (p : Nat) (h : HostPort) (n1 : Nat) : recAt (setHost s p h) n1 = recAt s n1 := rfl
@[simp] theorem recValid_setHost (s : State) (p : Nat) (h : HostPort) (n1 : Nat) : recValid (setHost s p h) n1 = recValid s n1 := rfl
@[simp] theorem safeState_setHost (s : State) (p : Nat) (h : HostPort) : safeState (setHost s p h) = safeState s := rfl
@[simp] theorem tickWord_setHost (s : State) (p : Nat) (h : HostPort) : tickWord (setHost s p h) = tickWord s := rfl

@[simp] theorem ctxOf_updHost (s : State) (p : Nat) (f : HostPort → HostPort) (c1 : BitVec 12) : ctxOf (updHost s p f) c1 = ctxOf s c1 := rfl
@[simp] theorem queueOf_updHost (s : State) (p : Nat) (f : HostPort → HostPort) (c1 : BitVec 12) (q1 : Nat) : queueOf (updHost s p f) c1 q1 = queueOf s c1 q1 := rfl
@[simp] theorem cmdOf_updHost (s : State) (p : Nat) (f : HostPort → HostPort) (id1 : Nat) : cmdOf (updHost s p f) id1 = cmdOf s id1 := rfl
@[simp] theorem partOf_updHost (s : State) (p : Nat) (f : HostPort → HostPort) (p1 : BitVec 3) : partOf (updHost s p f) p1 = partOf s p1 := rfl
@[simp] theorem blPort_updHost (s : State) (p : Nat) (f : HostPort → HostPort) (p1 : Nat) : blPort (updHost s p f) p1 = blPort s p1 := rfl
@[simp] theorem keySlot_updHost (s : State) (p : Nat) (f : HostPort → HostPort) (k1 : Nat) : keySlot (updHost s p f) k1 = keySlot s k1 := rfl
@[simp] theorem chan_updHost (s : State) (p : Nat) (f : HostPort → HostPort) (c1 : Nat) : chan (updHost s p f) c1 = chan s c1 := rfl
@[simp] theorem corePort_updHost (s : State) (p : Nat) (f : HostPort → HostPort) (p1 : Nat) : corePort (updHost s p f) p1 = corePort s p1 := rfl
@[simp] theorem gwPort_updHost (s : State) (p : Nat) (f : HostPort → HostPort) (p1 : Nat) : gwPort (updHost s p f) p1 = gwPort s p1 := rfl
@[simp] theorem recAt_updHost (s : State) (p : Nat) (f : HostPort → HostPort) (n1 : Nat) : recAt (updHost s p f) n1 = recAt s n1 := rfl
@[simp] theorem recValid_updHost (s : State) (p : Nat) (f : HostPort → HostPort) (n1 : Nat) : recValid (updHost s p f) n1 = recValid s n1 := rfl
@[simp] theorem safeState_updHost (s : State) (p : Nat) (f : HostPort → HostPort) : safeState (updHost s p f) = safeState s := rfl
@[simp] theorem tickWord_updHost (s : State) (p : Nat) (f : HostPort → HostPort) : tickWord (updHost s p f) = tickWord s := rfl

@[simp] theorem ctxOf_updFn (s : State) (fn : Fn) (f : FnState → FnState) (c1 : BitVec 12) : ctxOf (updFn s fn f) c1 = ctxOf s c1 := rfl
@[simp] theorem queueOf_updFn (s : State) (fn : Fn) (f : FnState → FnState) (c1 : BitVec 12) (q1 : Nat) : queueOf (updFn s fn f) c1 q1 = queueOf s c1 q1 := rfl
@[simp] theorem cmdOf_updFn (s : State) (fn : Fn) (f : FnState → FnState) (id1 : Nat) : cmdOf (updFn s fn f) id1 = cmdOf s id1 := rfl
@[simp] theorem partOf_updFn (s : State) (fn : Fn) (f : FnState → FnState) (p1 : BitVec 3) : partOf (updFn s fn f) p1 = partOf s p1 := rfl
@[simp] theorem blPort_updFn (s : State) (fn : Fn) (f : FnState → FnState) (p1 : Nat) : blPort (updFn s fn f) p1 = blPort s p1 := rfl
@[simp] theorem keySlot_updFn (s : State) (fn : Fn) (f : FnState → FnState) (k1 : Nat) : keySlot (updFn s fn f) k1 = keySlot s k1 := rfl
@[simp] theorem chan_updFn (s : State) (fn : Fn) (f : FnState → FnState) (c1 : Nat) : chan (updFn s fn f) c1 = chan s c1 := rfl
@[simp] theorem corePort_updFn (s : State) (fn : Fn) (f : FnState → FnState) (p1 : Nat) : corePort (updFn s fn f) p1 = corePort s p1 := rfl
@[simp] theorem gwPort_updFn (s : State) (fn : Fn) (f : FnState → FnState) (p1 : Nat) : gwPort (updFn s fn f) p1 = gwPort s p1 := rfl
@[simp] theorem recAt_updFn (s : State) (fn : Fn) (f : FnState → FnState) (n1 : Nat) : recAt (updFn s fn f) n1 = recAt s n1 := rfl
@[simp] theorem recValid_updFn (s : State) (fn : Fn) (f : FnState → FnState) (n1 : Nat) : recValid (updFn s fn f) n1 = recValid s n1 := rfl
@[simp] theorem safeState_updFn (s : State) (fn : Fn) (f : FnState → FnState) : safeState (updFn s fn f) = safeState s := rfl
@[simp] theorem tickWord_updFn (s : State) (fn : Fn) (f : FnState → FnState) : tickWord (updFn s fn f) = tickWord s := rfl

@[simp] theorem ctxOf_updAp (s : State) (p n : Nat) (f : Aperture → Aperture) (c1 : BitVec 12) : ctxOf (updAp s p n f) c1 = ctxOf s c1 := rfl
@[simp] theorem queueOf_updAp (s : State) (p n : Nat) (f : Aperture → Aperture) (c1 : BitVec 12) (q1 : Nat) : queueOf (updAp s p n f) c1 q1 = queueOf s c1 q1 := rfl
@[simp] theorem cmdOf_updAp (s : State) (p n : Nat) (f : Aperture → Aperture) (id1 : Nat) : cmdOf (updAp s p n f) id1 = cmdOf s id1 := rfl
@[simp] theorem partOf_updAp (s : State) (p n : Nat) (f : Aperture → Aperture) (p1 : BitVec 3) : partOf (updAp s p n f) p1 = partOf s p1 := rfl
@[simp] theorem blPort_updAp (s : State) (p n : Nat) (f : Aperture → Aperture) (p1 : Nat) : blPort (updAp s p n f) p1 = blPort s p1 := rfl
@[simp] theorem keySlot_updAp (s : State) (p n : Nat) (f : Aperture → Aperture) (k1 : Nat) : keySlot (updAp s p n f) k1 = keySlot s k1 := rfl
@[simp] theorem chan_updAp (s : State) (p n : Nat) (f : Aperture → Aperture) (c1 : Nat) : chan (updAp s p n f) c1 = chan s c1 := rfl
@[simp] theorem corePort_updAp (s : State) (p n : Nat) (f : Aperture → Aperture) (p1 : Nat) : corePort (updAp s p n f) p1 = corePort s p1 := rfl
@[simp] theorem gwPort_updAp (s : State) (p n : Nat) (f : Aperture → Aperture) (p1 : Nat) : gwPort (updAp s p n f) p1 = gwPort s p1 := rfl
@[simp] theorem recAt_updAp (s : State) (p n : Nat) (f : Aperture → Aperture) (n1 : Nat) : recAt (updAp s p n f) n1 = recAt s n1 := rfl
@[simp] theorem recValid_updAp (s : State) (p n : Nat) (f : Aperture → Aperture) (n1 : Nat) : recValid (updAp s p n f) n1 = recValid s n1 := rfl
@[simp] theorem safeState_updAp (s : State) (p n : Nat) (f : Aperture → Aperture) : safeState (updAp s p n f) = safeState s := rfl
@[simp] theorem tickWord_updAp (s : State) (p n : Nat) (f : Aperture → Aperture) : tickWord (updAp s p n f) = tickWord s := rfl

@[simp] theorem hostPort_updCtx (s : State) (c : BitVec 12) (f : Ctx → Ctx) (p1 : Nat) : hostPort (updCtx s c f) p1 = hostPort s p1 := rfl
@[simp] theorem fnState_updCtx (s : State) (c : BitVec 12) (f : Ctx → Ctx) (fn1 : Fn) : fnState (updCtx s c f) fn1 = fnState s fn1 := rfl
@[simp] theorem aperture_updCtx (s : State) (c : BitVec 12) (f : Ctx → Ctx) (p1 n1 : Nat) : aperture (updCtx s c f) p1 n1 = aperture s p1 n1 := rfl
@[simp] theorem partOf_updCtx (s : State) (c : BitVec 12) (f : Ctx → Ctx) (p1 : BitVec 3) : partOf (updCtx s c f) p1 = partOf s p1 := rfl
@[simp] theorem blPort_updCtx (s : State) (c : BitVec 12) (f : Ctx → Ctx) (p1 : Nat) : blPort (updCtx s c f) p1 = blPort s p1 := rfl
@[simp] theorem keySlot_updCtx (s : State) (c : BitVec 12) (f : Ctx → Ctx) (k1 : Nat) : keySlot (updCtx s c f) k1 = keySlot s k1 := rfl
@[simp] theorem chan_updCtx (s : State) (c : BitVec 12) (f : Ctx → Ctx) (c1 : Nat) : chan (updCtx s c f) c1 = chan s c1 := rfl
@[simp] theorem corePort_updCtx (s : State) (c : BitVec 12) (f : Ctx → Ctx) (p1 : Nat) : corePort (updCtx s c f) p1 = corePort s p1 := rfl
@[simp] theorem gwPort_updCtx (s : State) (c : BitVec 12) (f : Ctx → Ctx) (p1 : Nat) : gwPort (updCtx s c f) p1 = gwPort s p1 := rfl
@[simp] theorem recAt_updCtx (s : State) (c : BitVec 12) (f : Ctx → Ctx) (n1 : Nat) : recAt (updCtx s c f) n1 = recAt s n1 := rfl
@[simp] theorem recValid_updCtx (s : State) (c : BitVec 12) (f : Ctx → Ctx) (n1 : Nat) : recValid (updCtx s c f) n1 = recValid s n1 := rfl
@[simp] theorem safeState_updCtx (s : State) (c : BitVec 12) (f : Ctx → Ctx) : safeState (updCtx s c f) = safeState s := rfl
@[simp] theorem tickWord_updCtx (s : State) (c : BitVec 12) (f : Ctx → Ctx) : tickWord (updCtx s c f) = tickWord s := rfl

@[simp] theorem hostPort_updQueue (s : State) (c : BitVec 12) (q : Nat) (f : QState → QState) (p1 : Nat) : hostPort (updQueue s c q f) p1 = hostPort s p1 := rfl
@[simp] theorem fnState_updQueue (s : State) (c : BitVec 12) (q : Nat) (f : QState → QState) (fn1 : Fn) : fnState (updQueue s c q f) fn1 = fnState s fn1 := rfl
@[simp] theorem aperture_updQueue (s : State) (c : BitVec 12) (q : Nat) (f : QState → QState) (p1 n1 : Nat) : aperture (updQueue s c q f) p1 n1 = aperture s p1 n1 := rfl
@[simp] theorem partOf_updQueue (s : State) (c : BitVec 12) (q : Nat) (f : QState → QState) (p1 : BitVec 3) : partOf (updQueue s c q f) p1 = partOf s p1 := rfl
@[simp] theorem blPort_updQueue (s : State) (c : BitVec 12) (q : Nat) (f : QState → QState) (p1 : Nat) : blPort (updQueue s c q f) p1 = blPort s p1 := rfl
@[simp] theorem keySlot_updQueue (s : State) (c : BitVec 12) (q : Nat) (f : QState → QState) (k1 : Nat) : keySlot (updQueue s c q f) k1 = keySlot s k1 := rfl
@[simp] theorem chan_updQueue (s : State) (c : BitVec 12) (q : Nat) (f : QState → QState) (c1 : Nat) : chan (updQueue s c q f) c1 = chan s c1 := rfl
@[simp] theorem corePort_updQueue (s : State) (c : BitVec 12) (q : Nat) (f : QState → QState) (p1 : Nat) : corePort (updQueue s c q f) p1 = corePort s p1 := rfl
@[simp] theorem gwPort_updQueue (s : State) (c : BitVec 12) (q : Nat) (f : QState → QState) (p1 : Nat) : gwPort (updQueue s c q f) p1 = gwPort s p1 := rfl
@[simp] theorem recAt_updQueue (s : State) (c : BitVec 12) (q : Nat) (f : QState → QState) (n1 : Nat) : recAt (updQueue s c q f) n1 = recAt s n1 := rfl
@[simp] theorem recValid_updQueue (s : State) (c : BitVec 12) (q : Nat) (f : QState → QState) (n1 : Nat) : recValid (updQueue s c q f) n1 = recValid s n1 := rfl
@[simp] theorem safeState_updQueue (s : State) (c : BitVec 12) (q : Nat) (f : QState → QState) : safeState (updQueue s c q f) = safeState s := rfl
@[simp] theorem tickWord_updQueue (s : State) (c : BitVec 12) (q : Nat) (f : QState → QState) : tickWord (updQueue s c q f) = tickWord s := rfl

@[simp] theorem hostPort_updCmd (s : State) (id : Nat) (f : Cmd → Cmd) (p1 : Nat) : hostPort (updCmd s id f) p1 = hostPort s p1 := rfl
@[simp] theorem fnState_updCmd (s : State) (id : Nat) (f : Cmd → Cmd) (fn1 : Fn) : fnState (updCmd s id f) fn1 = fnState s fn1 := rfl
@[simp] theorem aperture_updCmd (s : State) (id : Nat) (f : Cmd → Cmd) (p1 n1 : Nat) : aperture (updCmd s id f) p1 n1 = aperture s p1 n1 := rfl
@[simp] theorem partOf_updCmd (s : State) (id : Nat) (f : Cmd → Cmd) (p1 : BitVec 3) : partOf (updCmd s id f) p1 = partOf s p1 := rfl
@[simp] theorem blPort_updCmd (s : State) (id : Nat) (f : Cmd → Cmd) (p1 : Nat) : blPort (updCmd s id f) p1 = blPort s p1 := rfl
@[simp] theorem keySlot_updCmd (s : State) (id : Nat) (f : Cmd → Cmd) (k1 : Nat) : keySlot (updCmd s id f) k1 = keySlot s k1 := rfl
@[simp] theorem chan_updCmd (s : State) (id : Nat) (f : Cmd → Cmd) (c1 : Nat) : chan (updCmd s id f) c1 = chan s c1 := rfl
@[simp] theorem corePort_updCmd (s : State) (id : Nat) (f : Cmd → Cmd) (p1 : Nat) : corePort (updCmd s id f) p1 = corePort s p1 := rfl
@[simp] theorem gwPort_updCmd (s : State) (id : Nat) (f : Cmd → Cmd) (p1 : Nat) : gwPort (updCmd s id f) p1 = gwPort s p1 := rfl
@[simp] theorem recAt_updCmd (s : State) (id : Nat) (f : Cmd → Cmd) (n1 : Nat) : recAt (updCmd s id f) n1 = recAt s n1 := rfl
@[simp] theorem recValid_updCmd (s : State) (id : Nat) (f : Cmd → Cmd) (n1 : Nat) : recValid (updCmd s id f) n1 = recValid s n1 := rfl
@[simp] theorem safeState_updCmd (s : State) (id : Nat) (f : Cmd → Cmd) : safeState (updCmd s id f) = safeState s := rfl
@[simp] theorem tickWord_updCmd (s : State) (id : Nat) (f : Cmd → Cmd) : tickWord (updCmd s id f) = tickWord s := rfl

@[simp] theorem hostPort_updPart (s : State) (p : BitVec 3) (f : Part → Part) (p1 : Nat) : hostPort (updPart s p f) p1 = hostPort s p1 := rfl
@[simp] theorem fnState_updPart (s : State) (p : BitVec 3) (f : Part → Part) (fn1 : Fn) : fnState (updPart s p f) fn1 = fnState s fn1 := rfl
@[simp] theorem aperture_updPart (s : State) (p : BitVec 3) (f : Part → Part) (p1 n1 : Nat) : aperture (updPart s p f) p1 n1 = aperture s p1 n1 := rfl
@[simp] theorem ctxOf_updPart (s : State) (p : BitVec 3) (f : Part → Part) (c1 : BitVec 12) : ctxOf (updPart s p f) c1 = ctxOf s c1 := rfl
@[simp] theorem queueOf_updPart (s : State) (p : BitVec 3) (f : Part → Part) (c1 : BitVec 12) (q1 : Nat) : queueOf (updPart s p f) c1 q1 = queueOf s c1 q1 := rfl
@[simp] theorem cmdOf_updPart (s : State) (p : BitVec 3) (f : Part → Part) (id1 : Nat) : cmdOf (updPart s p f) id1 = cmdOf s id1 := rfl
@[simp] theorem blPort_updPart (s : State) (p : BitVec 3) (f : Part → Part) (p1 : Nat) : blPort (updPart s p f) p1 = blPort s p1 := rfl
@[simp] theorem keySlot_updPart (s : State) (p : BitVec 3) (f : Part → Part) (k1 : Nat) : keySlot (updPart s p f) k1 = keySlot s k1 := rfl
@[simp] theorem chan_updPart (s : State) (p : BitVec 3) (f : Part → Part) (c1 : Nat) : chan (updPart s p f) c1 = chan s c1 := rfl
@[simp] theorem corePort_updPart (s : State) (p : BitVec 3) (f : Part → Part) (p1 : Nat) : corePort (updPart s p f) p1 = corePort s p1 := rfl
@[simp] theorem gwPort_updPart (s : State) (p : BitVec 3) (f : Part → Part) (p1 : Nat) : gwPort (updPart s p f) p1 = gwPort s p1 := rfl
@[simp] theorem recAt_updPart (s : State) (p : BitVec 3) (f : Part → Part) (n1 : Nat) : recAt (updPart s p f) n1 = recAt s n1 := rfl
@[simp] theorem recValid_updPart (s : State) (p : BitVec 3) (f : Part → Part) (n1 : Nat) : recValid (updPart s p f) n1 = recValid s n1 := rfl
@[simp] theorem safeState_updPart (s : State) (p : BitVec 3) (f : Part → Part) : safeState (updPart s p f) = safeState s := rfl
@[simp] theorem tickWord_updPart (s : State) (p : BitVec 3) (f : Part → Part) : tickWord (updPart s p f) = tickWord s := rfl

@[simp] theorem hostPort_updBl (s : State) (p : Nat) (f : BlPort → BlPort) (p1 : Nat) : hostPort (updBl s p f) p1 = hostPort s p1 := rfl
@[simp] theorem fnState_updBl (s : State) (p : Nat) (f : BlPort → BlPort) (fn1 : Fn) : fnState (updBl s p f) fn1 = fnState s fn1 := rfl
@[simp] theorem aperture_updBl (s : State) (p : Nat) (f : BlPort → BlPort) (p1 n1 : Nat) : aperture (updBl s p f) p1 n1 = aperture s p1 n1 := rfl
@[simp] theorem ctxOf_updBl (s : State) (p : Nat) (f : BlPort → BlPort) (c1 : BitVec 12) : ctxOf (updBl s p f) c1 = ctxOf s c1 := rfl
@[simp] theorem queueOf_updBl (s : State) (p : Nat) (f : BlPort → BlPort) (c1 : BitVec 12) (q1 : Nat) : queueOf (updBl s p f) c1 q1 = queueOf s c1 q1 := rfl
@[simp] theorem cmdOf_updBl (s : State) (p : Nat) (f : BlPort → BlPort) (id1 : Nat) : cmdOf (updBl s p f) id1 = cmdOf s id1 := rfl
@[simp] theorem partOf_updBl (s : State) (p : Nat) (f : BlPort → BlPort) (p1 : BitVec 3) : partOf (updBl s p f) p1 = partOf s p1 := rfl
@[simp] theorem chan_updBl (s : State) (p : Nat) (f : BlPort → BlPort) (c1 : Nat) : chan (updBl s p f) c1 = chan s c1 := rfl
@[simp] theorem corePort_updBl (s : State) (p : Nat) (f : BlPort → BlPort) (p1 : Nat) : corePort (updBl s p f) p1 = corePort s p1 := rfl
@[simp] theorem gwPort_updBl (s : State) (p : Nat) (f : BlPort → BlPort) (p1 : Nat) : gwPort (updBl s p f) p1 = gwPort s p1 := rfl
@[simp] theorem recAt_updBl (s : State) (p : Nat) (f : BlPort → BlPort) (n1 : Nat) : recAt (updBl s p f) n1 = recAt s n1 := rfl
@[simp] theorem recValid_updBl (s : State) (p : Nat) (f : BlPort → BlPort) (n1 : Nat) : recValid (updBl s p f) n1 = recValid s n1 := rfl
@[simp] theorem safeState_updBl (s : State) (p : Nat) (f : BlPort → BlPort) : safeState (updBl s p f) = safeState s := rfl
@[simp] theorem tickWord_updBl (s : State) (p : Nat) (f : BlPort → BlPort) : tickWord (updBl s p f) = tickWord s := rfl

@[simp] theorem hostPort_updKey (s : State) (k : Nat) (f : KeySlot → KeySlot) (p1 : Nat) : hostPort (updKey s k f) p1 = hostPort s p1 := rfl
@[simp] theorem fnState_updKey (s : State) (k : Nat) (f : KeySlot → KeySlot) (fn1 : Fn) : fnState (updKey s k f) fn1 = fnState s fn1 := rfl
@[simp] theorem aperture_updKey (s : State) (k : Nat) (f : KeySlot → KeySlot) (p1 n1 : Nat) : aperture (updKey s k f) p1 n1 = aperture s p1 n1 := rfl
@[simp] theorem ctxOf_updKey (s : State) (k : Nat) (f : KeySlot → KeySlot) (c1 : BitVec 12) : ctxOf (updKey s k f) c1 = ctxOf s c1 := rfl
@[simp] theorem queueOf_updKey (s : State) (k : Nat) (f : KeySlot → KeySlot) (c1 : BitVec 12) (q1 : Nat) : queueOf (updKey s k f) c1 q1 = queueOf s c1 q1 := rfl
@[simp] theorem cmdOf_updKey (s : State) (k : Nat) (f : KeySlot → KeySlot) (id1 : Nat) : cmdOf (updKey s k f) id1 = cmdOf s id1 := rfl
@[simp] theorem partOf_updKey (s : State) (k : Nat) (f : KeySlot → KeySlot) (p1 : BitVec 3) : partOf (updKey s k f) p1 = partOf s p1 := rfl
@[simp] theorem chan_updKey (s : State) (k : Nat) (f : KeySlot → KeySlot) (c1 : Nat) : chan (updKey s k f) c1 = chan s c1 := rfl
@[simp] theorem corePort_updKey (s : State) (k : Nat) (f : KeySlot → KeySlot) (p1 : Nat) : corePort (updKey s k f) p1 = corePort s p1 := rfl
@[simp] theorem gwPort_updKey (s : State) (k : Nat) (f : KeySlot → KeySlot) (p1 : Nat) : gwPort (updKey s k f) p1 = gwPort s p1 := rfl
@[simp] theorem recAt_updKey (s : State) (k : Nat) (f : KeySlot → KeySlot) (n1 : Nat) : recAt (updKey s k f) n1 = recAt s n1 := rfl
@[simp] theorem recValid_updKey (s : State) (k : Nat) (f : KeySlot → KeySlot) (n1 : Nat) : recValid (updKey s k f) n1 = recValid s n1 := rfl
@[simp] theorem safeState_updKey (s : State) (k : Nat) (f : KeySlot → KeySlot) : safeState (updKey s k f) = safeState s := rfl
@[simp] theorem tickWord_updKey (s : State) (k : Nat) (f : KeySlot → KeySlot) : tickWord (updKey s k f) = tickWord s := rfl

@[simp] theorem hostPort_updChan (s : State) (c : Nat) (f : Channel → Channel) (p1 : Nat) : hostPort (updChan s c f) p1 = hostPort s p1 := rfl
@[simp] theorem fnState_updChan (s : State) (c : Nat) (f : Channel → Channel) (fn1 : Fn) : fnState (updChan s c f) fn1 = fnState s fn1 := rfl
@[simp] theorem aperture_updChan (s : State) (c : Nat) (f : Channel → Channel) (p1 n1 : Nat) : aperture (updChan s c f) p1 n1 = aperture s p1 n1 := rfl
@[simp] theorem ctxOf_updChan (s : State) (c : Nat) (f : Channel → Channel) (c1 : BitVec 12) : ctxOf (updChan s c f) c1 = ctxOf s c1 := rfl
@[simp] theorem queueOf_updChan (s : State) (c : Nat) (f : Channel → Channel) (c1 : BitVec 12) (q1 : Nat) : queueOf (updChan s c f) c1 q1 = queueOf s c1 q1 := rfl
@[simp] theorem cmdOf_updChan (s : State) (c : Nat) (f : Channel → Channel) (id1 : Nat) : cmdOf (updChan s c f) id1 = cmdOf s id1 := rfl
@[simp] theorem partOf_updChan (s : State) (c : Nat) (f : Channel → Channel) (p1 : BitVec 3) : partOf (updChan s c f) p1 = partOf s p1 := rfl
@[simp] theorem blPort_updChan (s : State) (c : Nat) (f : Channel → Channel) (p1 : Nat) : blPort (updChan s c f) p1 = blPort s p1 := rfl
@[simp] theorem keySlot_updChan (s : State) (c : Nat) (f : Channel → Channel) (k1 : Nat) : keySlot (updChan s c f) k1 = keySlot s k1 := rfl
@[simp] theorem corePort_updChan (s : State) (c : Nat) (f : Channel → Channel) (p1 : Nat) : corePort (updChan s c f) p1 = corePort s p1 := rfl
@[simp] theorem gwPort_updChan (s : State) (c : Nat) (f : Channel → Channel) (p1 : Nat) : gwPort (updChan s c f) p1 = gwPort s p1 := rfl
@[simp] theorem recAt_updChan (s : State) (c : Nat) (f : Channel → Channel) (n1 : Nat) : recAt (updChan s c f) n1 = recAt s n1 := rfl
@[simp] theorem recValid_updChan (s : State) (c : Nat) (f : Channel → Channel) (n1 : Nat) : recValid (updChan s c f) n1 = recValid s n1 := rfl
@[simp] theorem safeState_updChan (s : State) (c : Nat) (f : Channel → Channel) : safeState (updChan s c f) = safeState s := rfl
@[simp] theorem tickWord_updChan (s : State) (c : Nat) (f : Channel → Channel) : tickWord (updChan s c f) = tickWord s := rfl

@[simp] theorem hostPort_updRun (s : State) (c : Nat) (f : Run → Run) (p1 : Nat) : hostPort (updRun s c f) p1 = hostPort s p1 := rfl
@[simp] theorem fnState_updRun (s : State) (c : Nat) (f : Run → Run) (fn1 : Fn) : fnState (updRun s c f) fn1 = fnState s fn1 := rfl
@[simp] theorem aperture_updRun (s : State) (c : Nat) (f : Run → Run) (p1 n1 : Nat) : aperture (updRun s c f) p1 n1 = aperture s p1 n1 := rfl
@[simp] theorem ctxOf_updRun (s : State) (c : Nat) (f : Run → Run) (c1 : BitVec 12) : ctxOf (updRun s c f) c1 = ctxOf s c1 := rfl
@[simp] theorem queueOf_updRun (s : State) (c : Nat) (f : Run → Run) (c1 : BitVec 12) (q1 : Nat) : queueOf (updRun s c f) c1 q1 = queueOf s c1 q1 := rfl
@[simp] theorem cmdOf_updRun (s : State) (c : Nat) (f : Run → Run) (id1 : Nat) : cmdOf (updRun s c f) id1 = cmdOf s id1 := rfl
@[simp] theorem partOf_updRun (s : State) (c : Nat) (f : Run → Run) (p1 : BitVec 3) : partOf (updRun s c f) p1 = partOf s p1 := rfl
@[simp] theorem blPort_updRun (s : State) (c : Nat) (f : Run → Run) (p1 : Nat) : blPort (updRun s c f) p1 = blPort s p1 := rfl
@[simp] theorem keySlot_updRun (s : State) (c : Nat) (f : Run → Run) (k1 : Nat) : keySlot (updRun s c f) k1 = keySlot s k1 := rfl
@[simp] theorem corePort_updRun (s : State) (c : Nat) (f : Run → Run) (p1 : Nat) : corePort (updRun s c f) p1 = corePort s p1 := rfl
@[simp] theorem gwPort_updRun (s : State) (c : Nat) (f : Run → Run) (p1 : Nat) : gwPort (updRun s c f) p1 = gwPort s p1 := rfl
@[simp] theorem recAt_updRun (s : State) (c : Nat) (f : Run → Run) (n1 : Nat) : recAt (updRun s c f) n1 = recAt s n1 := rfl
@[simp] theorem recValid_updRun (s : State) (c : Nat) (f : Run → Run) (n1 : Nat) : recValid (updRun s c f) n1 = recValid s n1 := rfl
@[simp] theorem safeState_updRun (s : State) (c : Nat) (f : Run → Run) : safeState (updRun s c f) = safeState s := rfl
@[simp] theorem tickWord_updRun (s : State) (c : Nat) (f : Run → Run) : tickWord (updRun s c f) = tickWord s := rfl

@[simp] theorem hostPort_updCore (s : State) (p : Nat) (f : CorePort → CorePort) (p1 : Nat) : hostPort (updCore s p f) p1 = hostPort s p1 := rfl
@[simp] theorem fnState_updCore (s : State) (p : Nat) (f : CorePort → CorePort) (fn1 : Fn) : fnState (updCore s p f) fn1 = fnState s fn1 := rfl
@[simp] theorem aperture_updCore (s : State) (p : Nat) (f : CorePort → CorePort) (p1 n1 : Nat) : aperture (updCore s p f) p1 n1 = aperture s p1 n1 := rfl
@[simp] theorem ctxOf_updCore (s : State) (p : Nat) (f : CorePort → CorePort) (c1 : BitVec 12) : ctxOf (updCore s p f) c1 = ctxOf s c1 := rfl
@[simp] theorem queueOf_updCore (s : State) (p : Nat) (f : CorePort → CorePort) (c1 : BitVec 12) (q1 : Nat) : queueOf (updCore s p f) c1 q1 = queueOf s c1 q1 := rfl
@[simp] theorem cmdOf_updCore (s : State) (p : Nat) (f : CorePort → CorePort) (id1 : Nat) : cmdOf (updCore s p f) id1 = cmdOf s id1 := rfl
@[simp] theorem partOf_updCore (s : State) (p : Nat) (f : CorePort → CorePort) (p1 : BitVec 3) : partOf (updCore s p f) p1 = partOf s p1 := rfl
@[simp] theorem blPort_updCore (s : State) (p : Nat) (f : CorePort → CorePort) (p1 : Nat) : blPort (updCore s p f) p1 = blPort s p1 := rfl
@[simp] theorem keySlot_updCore (s : State) (p : Nat) (f : CorePort → CorePort) (k1 : Nat) : keySlot (updCore s p f) k1 = keySlot s k1 := rfl
@[simp] theorem chan_updCore (s : State) (p : Nat) (f : CorePort → CorePort) (c1 : Nat) : chan (updCore s p f) c1 = chan s c1 := rfl
@[simp] theorem gwPort_updCore (s : State) (p : Nat) (f : CorePort → CorePort) (p1 : Nat) : gwPort (updCore s p f) p1 = gwPort s p1 := rfl
@[simp] theorem recAt_updCore (s : State) (p : Nat) (f : CorePort → CorePort) (n1 : Nat) : recAt (updCore s p f) n1 = recAt s n1 := rfl
@[simp] theorem recValid_updCore (s : State) (p : Nat) (f : CorePort → CorePort) (n1 : Nat) : recValid (updCore s p f) n1 = recValid s n1 := rfl
@[simp] theorem safeState_updCore (s : State) (p : Nat) (f : CorePort → CorePort) : safeState (updCore s p f) = safeState s := rfl
@[simp] theorem tickWord_updCore (s : State) (p : Nat) (f : CorePort → CorePort) : tickWord (updCore s p f) = tickWord s := rfl

@[simp] theorem hostPort_updGw (s : State) (p : Nat) (f : GwPort → GwPort) (p1 : Nat) : hostPort (updGw s p f) p1 = hostPort s p1 := rfl
@[simp] theorem fnState_updGw (s : State) (p : Nat) (f : GwPort → GwPort) (fn1 : Fn) : fnState (updGw s p f) fn1 = fnState s fn1 := rfl
@[simp] theorem aperture_updGw (s : State) (p : Nat) (f : GwPort → GwPort) (p1 n1 : Nat) : aperture (updGw s p f) p1 n1 = aperture s p1 n1 := rfl
@[simp] theorem ctxOf_updGw (s : State) (p : Nat) (f : GwPort → GwPort) (c1 : BitVec 12) : ctxOf (updGw s p f) c1 = ctxOf s c1 := rfl
@[simp] theorem queueOf_updGw (s : State) (p : Nat) (f : GwPort → GwPort) (c1 : BitVec 12) (q1 : Nat) : queueOf (updGw s p f) c1 q1 = queueOf s c1 q1 := rfl
@[simp] theorem cmdOf_updGw (s : State) (p : Nat) (f : GwPort → GwPort) (id1 : Nat) : cmdOf (updGw s p f) id1 = cmdOf s id1 := rfl
@[simp] theorem partOf_updGw (s : State) (p : Nat) (f : GwPort → GwPort) (p1 : BitVec 3) : partOf (updGw s p f) p1 = partOf s p1 := rfl
@[simp] theorem blPort_updGw (s : State) (p : Nat) (f : GwPort → GwPort) (p1 : Nat) : blPort (updGw s p f) p1 = blPort s p1 := rfl
@[simp] theorem keySlot_updGw (s : State) (p : Nat) (f : GwPort → GwPort) (k1 : Nat) : keySlot (updGw s p f) k1 = keySlot s k1 := rfl
@[simp] theorem chan_updGw (s : State) (p : Nat) (f : GwPort → GwPort) (c1 : Nat) : chan (updGw s p f) c1 = chan s c1 := rfl
@[simp] theorem corePort_updGw (s : State) (p : Nat) (f : GwPort → GwPort) (p1 : Nat) : corePort (updGw s p f) p1 = corePort s p1 := rfl
@[simp] theorem recAt_updGw (s : State) (p : Nat) (f : GwPort → GwPort) (n1 : Nat) : recAt (updGw s p f) n1 = recAt s n1 := rfl
@[simp] theorem recValid_updGw (s : State) (p : Nat) (f : GwPort → GwPort) (n1 : Nat) : recValid (updGw s p f) n1 = recValid s n1 := rfl
@[simp] theorem safeState_updGw (s : State) (p : Nat) (f : GwPort → GwPort) : safeState (updGw s p f) = safeState s := rfl
@[simp] theorem tickWord_updGw (s : State) (p : Nat) (f : GwPort → GwPort) : tickWord (updGw s p f) = tickWord s := rfl

@[simp] theorem hostPort_setSrc (s : State) (base : Nat) (src : BitVec 16) (x : Src) (p1 : Nat) : hostPort (setSrc s base src x) p1 = hostPort s p1 := rfl
@[simp] theorem fnState_setSrc (s : State) (base : Nat) (src : BitVec 16) (x : Src) (fn1 : Fn) : fnState (setSrc s base src x) fn1 = fnState s fn1 := rfl
@[simp] theorem aperture_setSrc (s : State) (base : Nat) (src : BitVec 16) (x : Src) (p1 n1 : Nat) : aperture (setSrc s base src x) p1 n1 = aperture s p1 n1 := rfl
@[simp] theorem ctxOf_setSrc (s : State) (base : Nat) (src : BitVec 16) (x : Src) (c1 : BitVec 12) : ctxOf (setSrc s base src x) c1 = ctxOf s c1 := rfl
@[simp] theorem queueOf_setSrc (s : State) (base : Nat) (src : BitVec 16) (x : Src) (c1 : BitVec 12) (q1 : Nat) : queueOf (setSrc s base src x) c1 q1 = queueOf s c1 q1 := rfl
@[simp] theorem cmdOf_setSrc (s : State) (base : Nat) (src : BitVec 16) (x : Src) (id1 : Nat) : cmdOf (setSrc s base src x) id1 = cmdOf s id1 := rfl
@[simp] theorem partOf_setSrc (s : State) (base : Nat) (src : BitVec 16) (x : Src) (p1 : BitVec 3) : partOf (setSrc s base src x) p1 = partOf s p1 := rfl
@[simp] theorem blPort_setSrc (s : State) (base : Nat) (src : BitVec 16) (x : Src) (p1 : Nat) : blPort (setSrc s base src x) p1 = blPort s p1 := rfl
@[simp] theorem keySlot_setSrc (s : State) (base : Nat) (src : BitVec 16) (x : Src) (k1 : Nat) : keySlot (setSrc s base src x) k1 = keySlot s k1 := rfl
@[simp] theorem chan_setSrc (s : State) (base : Nat) (src : BitVec 16) (x : Src) (c1 : Nat) : chan (setSrc s base src x) c1 = chan s c1 := rfl
@[simp] theorem corePort_setSrc (s : State) (base : Nat) (src : BitVec 16) (x : Src) (p1 : Nat) : corePort (setSrc s base src x) p1 = corePort s p1 := rfl
@[simp] theorem gwPort_setSrc (s : State) (base : Nat) (src : BitVec 16) (x : Src) (p1 : Nat) : gwPort (setSrc s base src x) p1 = gwPort s p1 := rfl
@[simp] theorem tickWord_setSrc (s : State) (base : Nat) (src : BitVec 16) (x : Src) : tickWord (setSrc s base src x) = tickWord s := rfl

@[simp] theorem hostPort_setRec (s : State) (n : Nat) (r : Rec) (p1 : Nat) : hostPort (setRec s n r) p1 = hostPort s p1 := rfl
@[simp] theorem fnState_setRec (s : State) (n : Nat) (r : Rec) (fn1 : Fn) : fnState (setRec s n r) fn1 = fnState s fn1 := rfl
@[simp] theorem aperture_setRec (s : State) (n : Nat) (r : Rec) (p1 n1 : Nat) : aperture (setRec s n r) p1 n1 = aperture s p1 n1 := rfl
@[simp] theorem ctxOf_setRec (s : State) (n : Nat) (r : Rec) (c1 : BitVec 12) : ctxOf (setRec s n r) c1 = ctxOf s c1 := rfl
@[simp] theorem queueOf_setRec (s : State) (n : Nat) (r : Rec) (c1 : BitVec 12) (q1 : Nat) : queueOf (setRec s n r) c1 q1 = queueOf s c1 q1 := rfl
@[simp] theorem cmdOf_setRec (s : State) (n : Nat) (r : Rec) (id1 : Nat) : cmdOf (setRec s n r) id1 = cmdOf s id1 := rfl
@[simp] theorem partOf_setRec (s : State) (n : Nat) (r : Rec) (p1 : BitVec 3) : partOf (setRec s n r) p1 = partOf s p1 := rfl
@[simp] theorem blPort_setRec (s : State) (n : Nat) (r : Rec) (p1 : Nat) : blPort (setRec s n r) p1 = blPort s p1 := rfl
@[simp] theorem keySlot_setRec (s : State) (n : Nat) (r : Rec) (k1 : Nat) : keySlot (setRec s n r) k1 = keySlot s k1 := rfl
@[simp] theorem chan_setRec (s : State) (n : Nat) (r : Rec) (c1 : Nat) : chan (setRec s n r) c1 = chan s c1 := rfl
@[simp] theorem corePort_setRec (s : State) (n : Nat) (r : Rec) (p1 : Nat) : corePort (setRec s n r) p1 = corePort s p1 := rfl
@[simp] theorem gwPort_setRec (s : State) (n : Nat) (r : Rec) (p1 : Nat) : gwPort (setRec s n r) p1 = gwPort s p1 := rfl
@[simp] theorem tickWord_setRec (s : State) (n : Nat) (r : Rec) : tickWord (setRec s n r) = tickWord s := rfl

@[simp] theorem hostPort_bumpOverflow (s : State) (p1 : Nat) : hostPort (bumpOverflow s) p1 = hostPort s p1 := rfl
@[simp] theorem fnState_bumpOverflow (s : State) (fn1 : Fn) : fnState (bumpOverflow s) fn1 = fnState s fn1 := rfl
@[simp] theorem aperture_bumpOverflow (s : State) (p1 n1 : Nat) : aperture (bumpOverflow s) p1 n1 = aperture s p1 n1 := rfl
@[simp] theorem ctxOf_bumpOverflow (s : State) (c1 : BitVec 12) : ctxOf (bumpOverflow s) c1 = ctxOf s c1 := rfl
@[simp] theorem queueOf_bumpOverflow (s : State) (c1 : BitVec 12) (q1 : Nat) : queueOf (bumpOverflow s) c1 q1 = queueOf s c1 q1 := rfl
@[simp] theorem cmdOf_bumpOverflow (s : State) (id1 : Nat) : cmdOf (bumpOverflow s) id1 = cmdOf s id1 := rfl
@[simp] theorem partOf_bumpOverflow (s : State) (p1 : BitVec 3) : partOf (bumpOverflow s) p1 = partOf s p1 := rfl
@[simp] theorem blPort_bumpOverflow (s : State) (p1 : Nat) : blPort (bumpOverflow s) p1 = blPort s p1 := rfl
@[simp] theorem keySlot_bumpOverflow (s : State) (k1 : Nat) : keySlot (bumpOverflow s) k1 = keySlot s k1 := rfl
@[simp] theorem chan_bumpOverflow (s : State) (c1 : Nat) : chan (bumpOverflow s) c1 = chan s c1 := rfl
@[simp] theorem corePort_bumpOverflow (s : State) (p1 : Nat) : corePort (bumpOverflow s) p1 = corePort s p1 := rfl
@[simp] theorem gwPort_bumpOverflow (s : State) (p1 : Nat) : gwPort (bumpOverflow s) p1 = gwPort s p1 := rfl
@[simp] theorem tickWord_bumpOverflow (s : State) : tickWord (bumpOverflow s) = tickWord s := rfl

/-! ### Reading back -/

@[simp] theorem emit_out (s : State) (o : Out) : (emit s o).out = s.out ++ [o] := rfl
@[simp] theorem hostPort_setHost (s : State) (p : Nat) (h : HostPort) : hostPort (setHost s p h) p = h := Tab.get_set_same
@[simp] theorem hostPort_updHost (s : State) (p : Nat) (f : HostPort → HostPort) :
    hostPort (updHost s p f) p = f (hostPort s p) := Tab.get_set_same
@[simp] theorem fnState_updFn (s : State) (fn : Fn) (f : FnState → FnState) : fnState (updFn s fn f) fn = f (fnState s fn) := by
  unfold fnState updFn
  rw [hostPort_updHost]
  exact Tab.get_upd_same
@[simp] theorem aperture_updAp (s : State) (p n : Nat) (f : Aperture → Aperture) :
    aperture (updAp s p n f) p n = f (aperture s p n) := by
  unfold aperture updAp
  rw [hostPort_updHost]
  exact Tab.get_upd_same
@[simp] theorem ctxOf_updCtx (s : State) (c : BitVec 12) (f : Ctx → Ctx) : ctxOf (updCtx s c f) c = f (ctxOf s c) :=
  Tab.get_upd_same
@[simp] theorem queueOf_updQueue (s : State) (c : BitVec 12) (q : Nat) (f : QState → QState) :
    queueOf (updQueue s c q f) c q = f (queueOf s c q) := by
  unfold queueOf updQueue
  rw [ctxOf_updCtx]
  exact Tab.get_upd_same
@[simp] theorem cmdOf_updCmd (s : State) (id : Nat) (f : Cmd → Cmd) : cmdOf (updCmd s id f) id = (cmdOf s id).map f :=
  Tab.find_modify_same
@[simp] theorem partOf_updPart (s : State) (p : BitVec 3) (f : Part → Part) : partOf (updPart s p f) p = f (partOf s p) :=
  Tab.get_upd_same
@[simp] theorem blPort_updBl (s : State) (p : Nat) (f : BlPort → BlPort) : blPort (updBl s p f) p = f (blPort s p) :=
  Tab.get_upd_same
@[simp] theorem keySlot_updKey (s : State) (k : Nat) (f : KeySlot → KeySlot) : keySlot (updKey s k f) k = f (keySlot s k) :=
  Tab.get_upd_same
@[simp] theorem chan_updChan (s : State) (c : Nat) (f : Channel → Channel) : chan (updChan s c f) c = f (chan s c) :=
  Tab.get_upd_same
@[simp] theorem chan_updRun (s : State) (c : Nat) (f : Run → Run) :
    chan (updRun s c f) c = { chan s c with run := (chan s c).run.map f } := chan_updChan _ _ _
@[simp] theorem corePort_updCore (s : State) (p : Nat) (f : CorePort → CorePort) :
    corePort (updCore s p f) p = f (corePort s p) := Tab.get_upd_same
@[simp] theorem gwPort_updGw (s : State) (p : Nat) (f : GwPort → GwPort) : gwPort (updGw s p f) p = f (gwPort s p) :=
  Tab.get_upd_same
@[simp] theorem srcOf_setSrc (s : State) (base : Nat) (src : BitVec 16) (x : Src) : srcOf (setSrc s base src x) base src = x :=
  Tab.get_set_same
@[simp] theorem recAt_setRec (s : State) (n : Nat) (r : Rec) : recAt (setRec s n r) n = r := Tab.get_set_same

theorem hostPort_updHost_other {s : State} {p j : Nat} {f : HostPort → HostPort} (h : j ≠ p) :
    hostPort (updHost s p f) j = hostPort s j := Tab.get_set_other h
theorem ctxOf_updCtx_other {s : State} {c j : BitVec 12} {f : Ctx → Ctx} (h : j ≠ c) :
    ctxOf (updCtx s c f) j = ctxOf s j := Tab.get_upd_other fun e => h (BitVec.eq_of_toNat_eq e)
theorem cmdOf_updCmd_other {s : State} {id j : Nat} {f : Cmd → Cmd} (h : j ≠ id) : cmdOf (updCmd s id f) j = cmdOf s j :=
  Tab.find_modify_other h
theorem partOf_updPart_other {s : State} {p j : BitVec 3} {f : Part → Part} (h : j ≠ p) :
    partOf (updPart s p f) j = partOf s j := Tab.get_upd_other fun e => h (BitVec.eq_of_toNat_eq e)
theorem blPort_updBl_other {s : State} {p j : Nat} {f : BlPort → BlPort} (h : j ≠ p) :
    blPort (updBl s p f) j = blPort s j := Tab.get_upd_other h
theorem keySlot_updKey_other {s : State} {k j : Nat} {f : KeySlot → KeySlot} (h : j ≠ k) :
    keySlot (updKey s k f) j = keySlot s j := Tab.get_upd_other h
theorem chan_updChan_other {s : State} {c j : Nat} {f : Channel → Channel} (h : j ≠ c) :
    chan (updChan s c f) j = chan s j := Tab.get_upd_other h
theorem corePort_updCore_other {s : State} {p j : Nat} {f : CorePort → CorePort} (h : j ≠ p) :
    corePort (updCore s p f) j = corePort s j := Tab.get_upd_other h
theorem gwPort_updGw_other {s : State} {p j : Nat} {f : GwPort → GwPort} (h : j ≠ p) :
    gwPort (updGw s p f) j = gwPort s j := Tab.get_upd_other h

/-! ### Time -/

theorem reach_tick (s : State) (n : Nat) : (reach s n).tick = max s.tick n := rfl
theorem reach_waits {s : State} {n : Nat} : n ≤ (reach s n).tick := Nat.le_max_right _ _

end Sys2Proof.Machine
end

