-- ==== Sys2Proof/Laws/Act.lean ====
section
/-! SUPPORT. The actions that meanings are made of, run step by step. -/

open Sys2Proof

namespace Sys2Proof.Machine

/-- A dispatched command whose meaning runs through: its state. -/
theorem runCmd_ok {s : State} {id op c m s'} (h : Dispatched s id op c) (hm : m c s = .ok () s') : runCmd s id op m = s' := by
  unfold runCmd
  rw [h.cmd]
  dsimp only
  rw [if_pos ⟨h.works, h.phase, h.opcode⟩]
  unfold runAct
  rw [hm]

/-- A dispatched command whose meaning ends it: with that status. -/
theorem runCmd_ended {s : State} {id op c} {m : Cmd → Act Unit} {st d s'} (h : Dispatched s id op c) (hm : m c s = .error (.ended st d) s') : runCmd s id op m = endCmd s' id st d := by
  unfold runCmd
  rw [h.cmd]
  dsimp only
  rw [if_pos ⟨h.works, h.phase, h.opcode⟩]
  unfold runAct
  rw [hm]
  rfl

/-- An action goes on from what an earlier one left. -/
theorem act_bind_ok {α β : Type} {m : Act α} {f : α → Act β} {a s s'} (h : m s = .ok a s') : (m >>= f) s = f a s' := by
  show EStateM.bind m f s = _
  unfold EStateM.bind; rw [h]

/-- An action that stops stops what follows it. -/
theorem act_bind_error {α β : Type} {m : Act α} {f : α → Act β} {e s s'} (h : m s = .error e s') : (m >>= f) s = .error e s' := by
  show EStateM.bind m f s = _
  unfold EStateM.bind; rw [h]

/-- A check that holds passes. -/
theorem act_need_holds {c : Bool} {st s} (h : c = true) : need c st s = .ok () s := by unfold need; rw [if_pos h]; rfl

/-- A check that fails ends the command with its status. -/
theorem act_need_fails {c : Bool} {st s} (h : c = false) : need c st s = .error (.ended st 0) s := by unfold need; rw [if_neg (by simp [h])]; rfl

theorem act_get {s : State} : (get : Act State) s = .ok s s := rfl

theorem act_modify {s : State} {f} : (modify f : Act Unit) s = .ok () (f s) := rfl

theorem act_set {s s' : State} : (set s' : Act Unit) s = .ok () s' := rfl

theorem onEnd_ok {α : Type} {m : Act α} {f} {a s s'} (h : m s = .ok a s') : onEnd m f s = .ok a s' := by unfold onEnd; rw [h]

theorem tryPost_ok {α : Type} {m : Act α} {a s s'} (h : m s = .ok a s') : tryPost m s = .ok (some a) s' := by unfold tryPost; rw [h]

/-- An action that runs through is continued. -/
theorem runAct_ok {α : Type} {m : Act α} {s s' : State} {a ok stop} (h : m s = .ok a s') : runAct m s ok stop = ok s' a := by
  unfold runAct; rw [h]

/-- A command that ends OK is finished. -/
theorem endCmd_ok_finishes {s : State} {id c} (h : cmdOf s id = some c) (hp : c.phase ≠ .finished) : ∃ x, cmdOf (endCmd s id stOk 0) id = some x ∧ x.phase = .finished ∧ x.status = stOk ∧
    (endCmd s id stOk 0).mem = s.mem ∧ (endCmd s id stOk 0).out = s.out ∧ (endCmd s id stOk 0).qe.ctxs = s.qe.ctxs ∧ (endCmd s id stOk 0).fc = s.fc := by
  unfold endCmd
  rw [h]
  dsimp only
  rw [if_neg hp, if_neg (by simp [faults, harmless, stOk])]
  refine ⟨_, by rw [cmdOf_updCmd, h]; rfl, rfl, rfl, rfl, rfl, rfl, rfl⟩

end Sys2Proof.Machine
end

