-- ==== Sys2Proof/Laws/Completes.lean ====
section
/-! SUPPORT. Commands that complete in every state: one lemma for each whose meaning decides between states. A command
whose meaning is `.next` of a state needs none. -/

namespace Sys2Proof.Machine

theorem completes_onRequest {s m op f} : ∃ t, onRequest s m op f = .next t := by
  unfold onRequest
  split <;> exact ⟨_, rfl⟩

theorem completes_onResponse {s m op f} : ∃ t, onResponse s m op f = .next t := by
  unfold onResponse
  repeat' (first | exact ⟨_, rfl⟩ | split | dsimp only)

theorem completes_execPowerOnReset {suppliesRemoved role i3cAddr entropy s} : ∃ t, execPowerOnReset suppliesRemoved role i3cAddr entropy s = .next t := by
  unfold execPowerOnReset
  repeat' (first | exact ⟨_, rfl⟩ | split | dsimp only)

theorem completes_execResetSequenceEnd {firmwareOk bus s} : ∃ t, execResetSequenceEnd firmwareOk bus s = .next t := by
  unfold execResetSequenceEnd
  repeat' (first | exact ⟨_, rfl⟩ | split | dsimp only)

theorem completes_execDStateChange {fn cfg s} : ∃ t, execDStateChange fn cfg s = .next t := by
  unfold execDStateChange
  repeat' (first | exact ⟨_, rfl⟩ | split | dsimp only)

theorem completes_execLinkPartnerNoFlit {port s} : ∃ t, execLinkPartnerNoFlit port s = .next t := by
  unfold execLinkPartnerNoFlit
  repeat' (first | exact ⟨_, rfl⟩ | split | dsimp only)

theorem completes_execCopyOnWriteDone {cow bus s} : ∃ t, execCopyOnWriteDone cow bus s = .next t := by
  unfold execCopyOnWriteDone
  repeat' (first | exact ⟨_, rfl⟩ | split | dsimp only)

theorem completes_execWindowWriteCommit {ww st s} : ∃ t, execWindowWriteCommit ww st s = .next t := by
  unfold execWindowWriteCommit
  repeat' (first | exact ⟨_, rfl⟩ | split | dsimp only)

theorem completes_execSealedFinalClose {port ap s} : ∃ t, execSealedFinalClose port ap s = .next t := by
  unfold execSealedFinalClose
  repeat' (first | exact ⟨_, rfl⟩ | split | dsimp only)

theorem completes_execMeasuredCloseDone {port ap s} : ∃ t, execMeasuredCloseDone port ap s = .next t := by
  unfold execMeasuredCloseDone
  repeat' (first | exact ⟨_, rfl⟩ | split | dsimp only)

theorem completes_execIngestSyncDone {port tag s} : ∃ t, execIngestSyncDone port tag s = .next t := by
  unfold execIngestSyncDone
  repeat' (first | exact ⟨_, rfl⟩ | split | dsimp only)

theorem completes_execContextLoadDone {ctx bus s} : ∃ t, execContextLoadDone ctx bus s = .next t := by
  unfold execContextLoadDone
  repeat' (first | exact ⟨_, rfl⟩ | split | dsimp only)

theorem completes_execRingReadResponse {ctx q bus s} : ∃ t, execRingReadResponse ctx q bus s = .next t := by
  unfold execRingReadResponse
  repeat' (first | exact ⟨_, rfl⟩ | split | dsimp only)

theorem completes_execDbBackoffReread {ctx q s} : ∃ t, execDbBackoffReread ctx q s = .next t := by
  unfold execDbBackoffReread
  repeat' (first | exact ⟨_, rfl⟩ | split | dsimp only)

theorem completes_execDbPatienceExpire {ctx q s} : ∃ t, execDbPatienceExpire ctx q s = .next t := by
  unfold execDbPatienceExpire
  repeat' (first | exact ⟨_, rfl⟩ | split | dsimp only)

theorem completes_execKeyCommandResume {cmd bus s} : ∃ t, execKeyCommandResume cmd bus s = .next t := by
  unfold execKeyCommandResume
  repeat' (first | exact ⟨_, rfl⟩ | split | dsimp only)

theorem completes_execTableOpen {cmd bus s} : ∃ t, execTableOpen cmd bus s = .next t := by
  unfold execTableOpen
  repeat' (first | exact ⟨_, rfl⟩ | split | dsimp only)

theorem completes_execTableAbort {cmd bus s} : ∃ t, execTableAbort cmd bus s = .next t := by
  unfold execTableAbort
  repeat' (first | exact ⟨_, rfl⟩ | split | dsimp only)

theorem completes_execFlipTakeEffect {cmd bus s} : ∃ t, execFlipTakeEffect cmd bus s = .next t := by
  unfold execFlipTakeEffect
  repeat' (first | exact ⟨_, rfl⟩ | split | dsimp only)

theorem completes_execCommandEnd {cmd bus s} : ∃ t, execCommandEnd cmd bus s = .next t := by
  unfold execCommandEnd
  repeat' (first | exact ⟨_, rfl⟩ | split | dsimp only)

theorem completes_execFlushReadCompletion {port fl st bus s} : ∃ t, execFlushReadCompletion port fl st bus s = .next t := by
  unfold execFlushReadCompletion
  repeat' (first | exact ⟨_, rfl⟩ | split | dsimp only)

theorem completes_execFlushReadTimeout {port fl bus s} : ∃ t, execFlushReadTimeout port fl bus s = .next t := by
  unfold execFlushReadTimeout
  repeat' (first | exact ⟨_, rfl⟩ | split | dsimp only)

theorem completes_execMsiXUnmask {fn vector s} : ∃ t, execMsiXUnmask fn vector s = .next t := by
  unfold execMsiXUnmask
  repeat' (first | exact ⟨_, rfl⟩ | split | dsimp only)

theorem completes_execWaitEvaluate {bus s} : ∃ t, execWaitEvaluate bus s = .next t := by
  unfold execWaitEvaluate
  repeat' (first | exact ⟨_, rfl⟩ | split | dsimp only)

theorem completes_execWaitTimeout {cmd s} : ∃ t, execWaitTimeout cmd s = .next t := by
  unfold execWaitTimeout
  repeat' (first | exact ⟨_, rfl⟩ | split | dsimp only)

theorem completes_execCtxEnable {ctx bus s} : ∃ t, execCtxEnable ctx bus s = .next t := by
  unfold execCtxEnable
  repeat' (first | exact ⟨_, rfl⟩ | split | dsimp only)

theorem completes_execCtxAbortDone {ctx bus s} : ∃ t, execCtxAbortDone ctx bus s = .next t := by
  unfold execCtxAbortDone
  repeat' (first | exact ⟨_, rfl⟩ | split | dsimp only)

theorem completes_execObjectDrainEnd {index bus s} : ∃ t, execObjectDrainEnd index bus s = .next t := by
  unfold execObjectDrainEnd
  repeat' (first | exact ⟨_, rfl⟩ | split | dsimp only)

theorem completes_execPageWalk {user ctx va acc bus s} : ∃ t, execPageWalk user ctx va acc bus s = .next t := by
  unfold execPageWalk
  repeat' (first | exact ⟨_, rfl⟩ | split | dsimp only)

theorem completes_execTsHoldTimeout {port tag s} : ∃ t, execTsHoldTimeout port tag s = .next t := by
  unfold execTsHoldTimeout
  repeat' (first | exact ⟨_, rfl⟩ | split | dsimp only)

theorem completes_execAdmitEventSignal {obj bus s} : ∃ t, execAdmitEventSignal obj bus s = .next t := by
  unfold execAdmitEventSignal
  repeat' (first | exact ⟨_, rfl⟩ | split | dsimp only)

theorem completes_execTileStallTimeout {at_ s} : ∃ t, execTileStallTimeout at_ s = .next t := by
  unfold execTileStallTimeout
  repeat' (first | exact ⟨_, rfl⟩ | split | dsimp only)

theorem completes_execMemoryResponseDeadline {port tag s} : ∃ t, execMemoryResponseDeadline port tag s = .next t := by
  unfold execMemoryResponseDeadline
  repeat' (first | exact ⟨_, rfl⟩ | split | dsimp only)

theorem completes_execChannelRunStart {ch bus s} : ∃ t, execChannelRunStart ch bus s = .next t := by
  unfold execChannelRunStart
  repeat' (first | exact ⟨_, rfl⟩ | split | dsimp only)

theorem completes_execChannelWaitTimeout {ch s} : ∃ t, execChannelWaitTimeout ch s = .next t := by
  unfold execChannelWaitTimeout
  repeat' (first | exact ⟨_, rfl⟩ | split | dsimp only)

theorem completes_execChannelSignalSet {ch bus s} : ∃ t, execChannelSignalSet ch bus s = .next t := by
  unfold execChannelSignalSet
  repeat' (first | exact ⟨_, rfl⟩ | split | dsimp only)

theorem completes_execStop {ch bus s} : ∃ t, execStop ch bus s = .next t := by
  unfold execStop
  repeat' (first | exact ⟨_, rfl⟩ | split | dsimp only)

theorem completes_execRemoteWriteRequest {msg bus s} : ∃ t, execRemoteWriteRequest msg bus s = .next t := by
  unfold execRemoteWriteRequest
  exact completes_onRequest

theorem completes_execRemoteReadRequest {msg bus s} : ∃ t, execRemoteReadRequest msg bus s = .next t := by
  unfold execRemoteReadRequest
  exact completes_onRequest

theorem completes_execRemoteAtomicRequest {msg bus s} : ∃ t, execRemoteAtomicRequest msg bus s = .next t := by
  unfold execRemoteAtomicRequest
  exact completes_onRequest

theorem completes_execRemoteSignalRequest {msg bus s} : ∃ t, execRemoteSignalRequest msg bus s = .next t := by
  unfold execRemoteSignalRequest
  exact completes_onRequest

theorem completes_execRemotePoolRequest {msg bus s} : ∃ t, execRemotePoolRequest msg bus s = .next t := by
  unfold execRemotePoolRequest
  exact completes_onRequest

theorem completes_execReadData {msg bus s} : ∃ t, execReadData msg bus s = .next t := by
  unfold execReadData
  exact completes_onResponse

theorem completes_execAtomicResult {msg bus s} : ∃ t, execAtomicResult msg bus s = .next t := by
  unfold execAtomicResult
  exact completes_onResponse

theorem completes_execPoolPartial {msg s} : ∃ t, execPoolPartial msg s = .next t := by
  unfold execPoolPartial
  exact completes_onResponse

theorem completes_execAck {msg bus s} : ∃ t, execAck msg bus s = .next t := by
  unfold execAck
  exact completes_onResponse

theorem completes_execNack {msg bus s} : ∃ t, execNack msg bus s = .next t := by
  unfold execNack
  exact completes_onResponse

theorem completes_execRemotePatienceExpire {node req bus s} : ∃ t, execRemotePatienceExpire node req bus s = .next t := by
  unfold execRemotePatienceExpire
  repeat' (first | exact ⟨_, rfl⟩ | split | dsimp only)

theorem completes_execTrainingTimeout {port bus s} : ∃ t, execTrainingTimeout port bus s = .next t := by
  unfold execTrainingTimeout
  repeat' (first | exact ⟨_, rfl⟩ | split | dsimp only)

theorem completes_execAssign {port node s} : ∃ t, execAssign port node s = .next t := by
  unfold execAssign
  repeat' (first | exact ⟨_, rfl⟩ | split | dsimp only)

theorem completes_execRoute {board body bus s} : ∃ t, execRoute board body bus s = .next t := by
  unfold execRoute
  repeat' (first | exact ⟨_, rfl⟩ | split | dsimp only)

theorem completes_execKeyInstall {hop blob tagOk s} : ∃ t, execKeyInstall hop blob tagOk s = .next t := ⟨_, rfl⟩

theorem completes_execShardDir {src slot hdr entries map bus s} : ∃ t, execShardDir src slot hdr entries map bus s = .next t := by
  unfold execShardDir
  repeat' (first | exact ⟨_, rfl⟩ | split | dsimp only)

theorem completes_execSnoopDeadline {agent slice bus s} : ∃ t, execSnoopDeadline agent slice bus s = .next t := by
  unfold execSnoopDeadline
  repeat' (first | exact ⟨_, rfl⟩ | split | dsimp only)

theorem completes_execTeardownDrainDone {part s} : ∃ t, execTeardownDrainDone part s = .next t := by
  unfold execTeardownDrainDone
  repeat' (first | exact ⟨_, rfl⟩ | split | dsimp only)

theorem completes_execTeardownQuiescenceTimeout {part s} : ∃ t, execTeardownQuiescenceTimeout part s = .next t := by
  unfold execTeardownQuiescenceTimeout
  repeat' (first | exact ⟨_, rfl⟩ | split | dsimp only)

theorem completes_execScrubComplete {part bus s} : ∃ t, execScrubComplete part bus s = .next t := by
  unfold execScrubComplete
  repeat' (first | exact ⟨_, rfl⟩ | split | dsimp only)

theorem completes_execSessionOpen {key share sigOk s} : ∃ t, execSessionOpen key share sigOk s = .next t := by
  unfold execSessionOpen
  repeat' (first | exact ⟨_, rfl⟩ | split | dsimp only)

theorem completes_execTdiStateChange {fn st bus s} : ∃ t, execTdiStateChange fn st bus s = .next t := by
  unfold execTdiStateChange
  repeat' (first | exact ⟨_, rfl⟩ | split | dsimp only)

theorem completes_execErrNPulseEnd { s} : ∃ t, execErrNPulseEnd  s = .next t := by
  unfold execErrNPulseEnd
  repeat' (first | exact ⟨_, rfl⟩ | split | dsimp only)

theorem completes_execP3EntryTimeout { s} : ∃ t, execP3EntryTimeout  s = .next t := by
  unfold execP3EntryTimeout
  repeat' (first | exact ⟨_, rfl⟩ | split | dsimp only)

theorem completes_execHostLinkUp {port width rate s} : ∃ t, execHostLinkUp port width rate s = .next t := by
  unfold execHostLinkUp
  repeat' (first | exact ⟨_, rfl⟩ | split | dsimp only)

theorem completes_execCoreCreditReturn {core hsnp n s} : ∃ t, execCoreCreditReturn core hsnp n s = .next t := by
  unfold execCoreCreditReturn
  repeat' (first | exact ⟨_, rfl⟩ | split | dsimp only)

end Sys2Proof.Machine
end

