-- ==== Sys2Proof/Laws/Kept.lean ====
section
/-! SUPPORT. What commands leave alone: the queue, the build, the straps, the boot epoch, memory's canonical form, and
time, which never goes back. -/

namespace Sys2Proof.Machine

/-- What a state keeps of an earlier state `o`: the queue, the build, the straps (R62), the boot epoch (R481); its tick
is not before, its memory is canonical if `o`'s is, and with `fz` set its fuses are those of `o` (R59). -/
structure Kept (fz : Bool) (o s : State) : Prop where
  pending : s.pending = o.pending
  build   : s.build = o.build
  role    : s.role = o.role
  i3cAddr : s.i3cAddr = o.i3cAddr
  epoch   : s.epoch = o.epoch
  tick    : o.tick ≤ s.tick
  fuses   : fz = true → s.ps.fuses = o.ps.fuses
  mem     : o.mem.wf = true → s.mem.wf = true

theorem Kept.refl (fz : Bool) (o : State) : Kept fz o o :=
  ⟨rfl, rfl, rfl, rfl, rfl, Nat.le_refl _, fun _ => rfl, id⟩

theorem Kept.trans {fz : Bool} {a b c : State} (h : Kept fz a b) (k : Kept fz b c) : Kept fz a c :=
  ⟨k.1.trans h.1, k.2.trans h.2, k.3.trans h.3, k.4.trans h.4, k.5.trans h.5, Nat.le_trans h.6 k.6,
    fun f => (k.7 f).trans (h.7 f), fun m => k.8 (h.8 m)⟩

theorem Kept.weaken {fz : Bool} {a b : State} (h : Kept true a b) : Kept fz a b :=
  ⟨h.1, h.2, h.3, h.4, h.5, h.6, fun _ => h.7 rfl, h.8⟩

/-- A record update of other fields keeps all of it. -/
theorem Kept.upd {fz : Bool} {o s : State} {xfree xnextId xgw xhosts xwws xcows xqe xtu xkt xpa xmv xbl xch xps xfc xtp xout} (hf : xps.fuses = s.ps.fuses) (h : Kept fz o s) :
    Kept fz o { s with free := xfree, nextId := xnextId, gw := xgw, hosts := xhosts, wws := xwws, cows := xcows, qe := xqe, tu := xtu, kt := xkt, pa := xpa, mv := xmv, bl := xbl, ch := xch, ps := xps, fc := xfc, tp := xtp, out := xout } :=
  h.trans ⟨rfl, rfl, rfl, rfl, rfl, Nat.le_refl _, fun _ => hf, id⟩

/-- A record update that may change the fuses too. -/
theorem Kept.upd0 {o s : State} {xfree xnextId xgw xhosts xwws xcows xqe xtu xkt xpa xmv xbl xch xps xfc xtp xout} (h : Kept false o s) :
    Kept false o { s with free := xfree, nextId := xnextId, gw := xgw, hosts := xhosts, wws := xwws, cows := xcows, qe := xqe, tu := xtu, kt := xkt, pa := xpa, mv := xmv, bl := xbl, ch := xch, ps := xps, fc := xfc, tp := xtp, out := xout } :=
  h.trans ⟨rfl, rfl, rfl, rfl, rfl, Nat.le_refl _, fun f => (by cases f), id⟩

/-- A record update that also changes memory. -/
theorem Kept.updMem {fz : Bool} {o s : State} {xfree xnextId xgw xhosts xwws xcows xqe xtu xkt xpa xmv xbl xch xps xfc xtp xout xmem} (hf : xps.fuses = s.ps.fuses)
    (hm : s.mem.wf = true → xmem.wf = true) (h : Kept fz o s) :
    Kept fz o { s with free := xfree, nextId := xnextId, gw := xgw, hosts := xhosts, wws := xwws, cows := xcows, qe := xqe, tu := xtu, kt := xkt, pa := xpa, mv := xmv, bl := xbl, ch := xch, ps := xps, fc := xfc, tp := xtp, out := xout, mem := xmem } :=
  h.trans ⟨rfl, rfl, rfl, rfl, rfl, Nat.le_refl _, fun _ => hf, hm⟩

theorem Kept.cut {fz : Bool} {o : State} {p : Prop} (s : State) (h : Kept fz o s) (k : Kept fz o s → p) : p := k h

/-- A fold of state changes. -/
theorem kept_each {α : Type} {fz : Bool} {o s : State} {f : State → α → State} {l : List α}
    (hf : ∀ s x, Kept fz o s → Kept fz o (f s x)) (h : Kept fz o s) : Kept fz o (each f s l) := by
  unfold each
  induction l generalizing s with
  | nil => exact h
  | cons x l ih => rw [List.foldl_cons]; exact ih (hf s x h)

theorem kept_foldl {α : Type} {fz : Bool} {o s : State} {f : State → α → State} {l : List α}
    (hf : ∀ s x, Kept fz o s → Kept fz o (f s x)) (h : Kept fz o s) : Kept fz o (l.foldl f s) := kept_each hf h

theorem kept_foldl1 {α β : Type} {fz : Bool} {o : State} {f : State × β → α → State × β} {l : List α} {x : State × β}
    (hf : ∀ y a, Kept fz o y.1 → Kept fz o (f y a).1) (h : Kept fz o x.1) : Kept fz o (l.foldl f x).1 := by
  induction l generalizing x with
  | nil => exact h
  | cons a l ih => rw [List.foldl_cons]; exact ih (hf x a h)

theorem kept_ite {fz : Bool} {o a b : State} {c : Prop} [Decidable c] (ha : c → Kept fz o a) (hb : ¬c → Kept fz o b) :
    Kept fz o (if c then a else b) := by
  split
  · exact ha ‹_›
  · exact hb ‹_›

theorem kept_ite1 {β : Type} {fz : Bool} {o : State} {a b : State × β} {c : Prop} [Decidable c] (ha : c → Kept fz o a.1)
    (hb : ¬c → Kept fz o b.1) : Kept fz o (if c then a else b).1 := by
  split
  · exact ha ‹_›
  · exact hb ‹_›

theorem kept_reach {fz : Bool} {o s : State} {t : Nat} (h : Kept fz o s) : Kept fz o (reach s t) :=
  h.trans ⟨rfl, rfl, rfl, rfl, rfl, Nat.le_max_left _ _, fun _ => rfl, id⟩

theorem kept_pair {β : Type} {fz : Bool} {o a : State} {b : β} (h : Kept fz o a) : Kept fz o (a, b).1 := h

theorem kept_ofP {β : Type} {fz : Bool} {o t : State} {b : β} {p : State × β} (h : Kept fz o p.1) (e : p = (t, b)) :
    Kept fz o t := by
  rw [e] at h
  exact h

/-! ### Outcomes -/

/-- The next state of an outcome, if it has one, keeps what `o` says. -/
structure KeptR (fz : Bool) (o : State) (r : Res) : Prop where
  next : ∀ t, r = .next t → Kept fz o t

theorem keptR_next {fz : Bool} {o s : State} (h : Kept fz o s) : KeptR fz o (.next s) := by
  refine ⟨fun t e => ?_⟩
  cases e
  exact h

theorem keptR_fault {fz : Bool} {o : State} {f : Fault} : KeptR fz o (.fault f) := by
  refine ⟨fun t e => ?_⟩
  cases e

theorem keptR_ite {fz : Bool} {o : State} {a b : Res} {c : Prop} [Decidable c] (ha : c → KeptR fz o a)
    (hb : ¬c → KeptR fz o b) : KeptR fz o (if c then a else b) := by
  split
  · exact ha ‹_›
  · exact hb ‹_›

/-- A state that may be answered keeps what `o` says. -/
structure KeptO (fz : Bool) (o : State) (x : Option State) : Prop where
  val : ∀ t, x = some t → Kept fz o t

theorem keptO_none {fz : Bool} {o : State} : KeptO fz o none := ⟨fun _ e => by cases e⟩

theorem keptO_some {fz : Bool} {o s : State} (h : Kept fz o s) : KeptO fz o (some s) :=
  ⟨fun _ e => by cases e; exact h⟩

theorem keptO_ite {fz : Bool} {o : State} {a b : Option State} {c : Prop} [Decidable c] (ha : c → KeptO fz o a)
    (hb : ¬c → KeptO fz o b) : KeptO fz o (if c then a else b) := by
  split
  · exact ha ‹_›
  · exact hb ‹_›

theorem kept_ofO {fz : Bool} {o t : State} {x : Option State} (h : KeptO fz o x) (e : x = some t) : Kept fz o t := h.val t e

/-- A state that may be answered with a value keeps what `o` says. -/
structure KeptQ {β : Type} (fz : Bool) (o : State) (x : Option (State × β)) : Prop where
  val : ∀ t b, x = some (t, b) → Kept fz o t

theorem keptQ_none {β : Type} {fz : Bool} {o : State} : KeptQ fz o (none : Option (State × β)) := ⟨fun _ _ e => by cases e⟩

theorem keptQ_some {β : Type} {fz : Bool} {o : State} {p : State × β} (h : Kept fz o p.1) : KeptQ fz o (some p) :=
  ⟨fun _ _ e => by cases e; exact h⟩

theorem keptQ_ite {β : Type} {fz : Bool} {o : State} {a b : Option (State × β)} {c : Prop} [Decidable c]
    (ha : c → KeptQ fz o a) (hb : ¬c → KeptQ fz o b) : KeptQ fz o (if c then a else b) := by
  split
  · exact ha ‹_›
  · exact hb ‹_›

theorem kept_ofQ {β : Type} {fz : Bool} {o t : State} {b : β} {x : Option (State × β)} (h : KeptQ fz o x)
    (e : x = some (t, b)) : Kept fz o t := h.val t b e

theorem kept_ofQ1 {β : Type} {fz : Bool} {o : State} {p : State × β} {x : Option (State × β)} (h : KeptQ fz o x)
    (e : x = some p) : Kept fz o p.1 := h.val p.1 p.2 e

/-! ### Actions -/

/-- The state that an action ends in. -/
def endState {α : Type} : EStateM.Result Stop State α → State
  | .ok _ s => s
  | .error _ s => s

/-- An action keeps what `o` says, however it ends. -/
structure KeptA {α : Type} (fz : Bool) (o : State) (m : Act α) : Prop where
  ends : ∀ s, Kept fz o s → Kept fz o (endState (m s))

theorem keptA_pure {α : Type} {fz : Bool} {o : State} {a : α} : KeptA fz o (pure a : Act α) := ⟨fun _ h => h⟩

theorem keptA_throw {α : Type} {fz : Bool} {o : State} {e : Stop} : KeptA fz o (throw e : Act α) := ⟨fun _ h => h⟩

theorem keptA_get {fz : Bool} {o : State} : KeptA fz o (get : Act State) := ⟨fun _ h => h⟩

theorem keptA_set {fz : Bool} {o s : State} (h : Kept fz o s) : KeptA fz o (set s : Act PUnit) := ⟨fun _ _ => h⟩

theorem keptA_modify {fz : Bool} {o : State} {f : State → State} (hf : ∀ s, Kept fz o s → Kept fz o (f s)) :
    KeptA fz o (modify f : Act PUnit) := ⟨fun s h => hf s h⟩

theorem keptA_bind {α β : Type} {fz : Bool} {o : State} {m : Act α} {f : α → Act β} (hm : KeptA fz o m)
    (hf : ∀ a, KeptA fz o (f a)) : KeptA fz o (m >>= f) := by
  refine ⟨fun s h => ?_⟩
  have k := hm.ends s h
  simp only [bind, EStateM.bind]
  cases hr : m s with
  | ok a s' => rw [hr] at k; exact (hf a).ends s' k
  | error e s' => rw [hr] at k; exact k

theorem keptA_bind_get {β : Type} {fz : Bool} {o : State} {f : State → Act β} (hf : ∀ s, Kept fz o s → KeptA fz o (f s)) :
    KeptA fz o ((get : Act State) >>= f) := ⟨fun s h => (hf s h).ends s h⟩

theorem keptA_ite {α : Type} {fz : Bool} {o : State} {a b : Act α} {c : Prop} [Decidable c] (ha : c → KeptA fz o a)
    (hb : ¬c → KeptA fz o b) : KeptA fz o (if c then a else b) := by
  split
  · exact ha ‹_›
  · exact hb ‹_›

/-- An action given by its function. -/
theorem keptA_fun {α : Type} {fz : Bool} {o : State} {m : Act α} (h : ∀ s, Kept fz o s → Kept fz o (endState (m s))) :
    KeptA fz o m := ⟨h⟩

theorem kept_endOk {α : Type} {fz : Bool} {o s : State} {a : α} (h : Kept fz o s) :
    Kept fz o (endState (EStateM.Result.ok a s : EStateM.Result Stop State α)) := h

theorem kept_endError {α : Type} {fz : Bool} {o s : State} {e : Stop} (h : Kept fz o s) :
    Kept fz o (endState (EStateM.Result.error e s : EStateM.Result Stop State α)) := h

theorem kept_endIte {α : Type} {fz : Bool} {o : State} {a b : EStateM.Result Stop State α} {c : Prop} [Decidable c]
    (ha : c → Kept fz o (endState a)) (hb : ¬c → Kept fz o (endState b)) : Kept fz o (endState (if c then a else b)) := by
  split
  · exact ha ‹_›
  · exact hb ‹_›

theorem keptA_ok {α : Type} {fz : Bool} {o s t : State} {m : Act α} {a : α} (hm : KeptA fz o m) (h : Kept fz o s)
    (e : m s = .ok a t) : Kept fz o t := by
  have k := hm.ends s h
  rw [e] at k
  exact k

theorem keptA_error {α : Type} {fz : Bool} {o s t : State} {m : Act α} {x : Stop} (hm : KeptA fz o m) (h : Kept fz o s)
    (e : m s = .error x t) : Kept fz o t := by
  have k := hm.ends s h
  rw [e] at k
  exact k

theorem keptA_act {α : Type} {fz : Bool} {o : State} {f : State → State × Except Stop α}
    (hf : ∀ s, Kept fz o s → Kept fz o (f s).1) : KeptA fz o (act f) := by
  refine ⟨fun s h => ?_⟩
  have k := hf s h
  unfold act
  cases hr : f s with
  | mk s' r =>
    rw [hr] at k
    cases r with
    | ok a => exact k
    | error e => exact k

theorem keptA_failWith {α : Type} {fz : Bool} {o : State} {st : Byte} {d : BitVec 32} : KeptA fz o (failWith st d : Act α) :=
  ⟨fun _ h => h⟩

theorem keptA_need {fz : Bool} {o : State} {c : Bool} {st : Byte} : KeptA fz o (need c st) := by
  unfold need
  split
  · exact keptA_pure
  · exact keptA_failWith

/-- What an action leaves where it has to be sent again. -/
theorem kept_waitBack {fz : Bool} {o s s' : State} (h : Kept fz o s) : Kept fz o (waitBack s s') := by
  unfold waitBack
  exact Kept.upd rfl h

theorem kept_runAct {α : Type} {fz : Bool} {o s : State} {m : Act α} {ok : State → α → State} {stop : State → Stop → State}
    (hm : KeptA fz o m) (hok : ∀ s a, Kept fz o s → Kept fz o (ok s a)) (hstop : ∀ s e, Kept fz o s → Kept fz o (stop s e))
    (h : Kept fz o s) : Kept fz o (runAct m s ok stop) := by
  have k := hm.ends s h
  unfold runAct
  cases hr : m s with
  | ok a s' => rw [hr] at k; exact hok _ _ k
  | error e s' =>
    rw [hr] at k
    cases e with
    | wait => exact kept_waitBack h
    | held n => exact hstop _ _ k
    | remote a b => exact hstop _ _ k
    | ended a b => exact hstop _ _ k

theorem keptA_attempt {α : Type} {fz : Bool} {o : State} {m : Act α} (hm : KeptA fz o m) : KeptA fz o (attempt m) := by
  refine ⟨fun s h => ?_⟩
  have k := hm.ends s h
  unfold attempt
  cases hr : m s with
  | ok a s' => rw [hr] at k; exact k
  | error e s' => rw [hr] at k; cases e <;> exact k

theorem keptA_onEnd {α : Type} {fz : Bool} {o : State} {m : Act α} {f : Byte → Act Unit} (hm : KeptA fz o m)
    (hf : ∀ b, KeptA fz o (f b)) : KeptA fz o (onEnd m f) := by
  refine ⟨fun s h => ?_⟩
  have k := hm.ends s h
  unfold onEnd
  cases hr : m s with
  | ok a s' => rw [hr] at k; exact k
  | error e s' =>
    rw [hr] at k
    cases e with
    | wait => exact k
    | held n => exact k
    | remote a b => exact k
    | ended st d =>
      have k2 := (hf st).ends s' k
      dsimp only
      cases hr2 : f st s' with
      | ok a s2 => rw [hr2] at k2; exact k2
      | error e2 s2 => rw [hr2] at k2; cases e2 <;> exact k2

theorem keptA_failAs {α : Type} {fz : Bool} {o : State} {m : Act α} {st : Byte} (hm : KeptA fz o m) :
    KeptA fz o (failAs m st) := by
  refine ⟨fun s h => ?_⟩
  have k := hm.ends s h
  unfold failAs
  cases hr : m s with
  | ok a s' => rw [hr] at k; exact k
  | error e s' => rw [hr] at k; cases e <;> exact k

theorem keptA_noneOn {α : Type} {fz : Bool} {o : State} {m : Act α} {st : Byte} (hm : KeptA fz o m) :
    KeptA fz o (noneOn m st) := by
  refine ⟨fun s h => ?_⟩
  have k := hm.ends s h
  unfold noneOn
  cases hr : m s with
  | ok a s' => rw [hr] at k; exact k
  | error e s' =>
    rw [hr] at k
    cases e with
    | ended x d => dsimp only; split <;> exact k
    | _ => exact k

theorem keptA_tryPost {α : Type} {fz : Bool} {o : State} {m : Act α} (hm : KeptA fz o m) : KeptA fz o (tryPost m) := by
  refine ⟨fun s h => ?_⟩
  have k := hm.ends s h
  unfold tryPost
  cases hr : m s with
  | ok a s' => rw [hr] at k; exact k
  | error e s' => rw [hr] at k; cases e <;> exact k

theorem keptA_forAll {α : Type} {fz : Bool} {o : State} {f : α → Act Unit} (hf : ∀ x, KeptA fz o (f x)) :
    ∀ {l : List α}, KeptA fz o (forAll f l)
  | [] => keptA_pure
  | x :: _ => keptA_bind (hf x) fun _ => keptA_forAll hf

theorem keptA_mapAll {α β : Type} {fz : Bool} {o : State} {f : α → Act β} (hf : ∀ x, KeptA fz o (f x)) :
    ∀ {l : List α}, KeptA fz o (mapAll f l)
  | [] => keptA_pure
  | x :: _ => keptA_bind (hf x) fun _ => keptA_bind (keptA_mapAll hf) fun _ => keptA_pure

end Sys2Proof.Machine
end

