-- ==== Sys2Proof/Laws/KeptOps.lean ====
section
/-! SUPPORT. What the definitions of Machine/Ops.lean keep (`Kept`). -/

namespace Sys2Proof.Machine

theorem kept_setSrc {fz o} {s a1 a2 a3} (h : Kept fz o s) :
    Kept fz o (setSrc s a1 a2 a3) := by
  unfold setSrc
  try dsimp only
  repeat' first
    | with_reducible assumption
    | intro _
    | dsimp only
    | with_reducible first | apply kept_each | apply kept_foldl | apply kept_foldl1 | apply kept_ite | apply kept_ite1 | apply Memory.wf_put | apply Memory.wf_putByte | apply Memory.wf_fail | apply Memory.wf_zero | apply Memory.wf_poison | apply Memory.wf_unpoison | apply Memory.wf_mark | apply Memory.wf_writeLine | apply Memory.wf_foldl | apply Memory.wf_settle
    | with_reducible (refine Kept.upd rfl ?_; first | assumption)

theorem kept_countSource {fz o} {s a1 a2} (h : Kept fz o s) :
    Kept fz o (countSource s a1 a2).1 := by
  unfold countSource
  try dsimp only
  repeat' first
    | with_reducible assumption
    | intro _
    | dsimp only
    | with_reducible first | apply kept_setSrc

theorem kept_updGw {fz o} {s a1 a2} (h : Kept fz o s) :
    Kept fz o (updGw s a1 a2) := by
  unfold updGw
  try dsimp only
  repeat' first
    | with_reducible assumption
    | intro _
    | dsimp only
    | with_reducible first | apply kept_each | apply kept_foldl | apply kept_foldl1 | apply kept_ite | apply kept_ite1 | apply Memory.wf_put | apply Memory.wf_putByte | apply Memory.wf_fail | apply Memory.wf_zero | apply Memory.wf_poison | apply Memory.wf_unpoison | apply Memory.wf_mark | apply Memory.wf_writeLine | apply Memory.wf_foldl | apply Memory.wf_settle
    | with_reducible (refine Kept.upd rfl ?_; first | assumption)

theorem kept_setRec {fz o} {s a1 a2} (h : Kept fz o s) :
    Kept fz o (setRec s a1 a2) := by
  unfold setRec
  try dsimp only
  repeat' first
    | with_reducible assumption
    | intro _
    | dsimp only
    | with_reducible first | apply kept_each | apply kept_foldl | apply kept_foldl1 | apply kept_ite | apply kept_ite1 | apply Memory.wf_put | apply Memory.wf_putByte | apply Memory.wf_fail | apply Memory.wf_zero | apply Memory.wf_poison | apply Memory.wf_unpoison | apply Memory.wf_mark | apply Memory.wf_writeLine | apply Memory.wf_foldl | apply Memory.wf_settle
    | with_reducible (refine Kept.upd rfl ?_; first | assumption)

theorem kept_bumpOverflow {fz o} {s} (h : Kept fz o s) :
    Kept fz o (bumpOverflow s) := by
  unfold bumpOverflow
  try dsimp only
  repeat' first
    | with_reducible assumption
    | intro _
    | dsimp only
    | with_reducible first | apply kept_each | apply kept_foldl | apply kept_foldl1 | apply kept_ite | apply kept_ite1 | apply Memory.wf_put | apply Memory.wf_putByte | apply Memory.wf_fail | apply Memory.wf_zero | apply Memory.wf_poison | apply Memory.wf_unpoison | apply Memory.wf_mark | apply Memory.wf_writeLine | apply Memory.wf_foldl | apply Memory.wf_settle
    | with_reducible (refine Kept.upd rfl ?_; first | assumption)

theorem kept_recordEvent {fz o} {s a1 a2 a3 a4 a5} (h : Kept fz o s) :
    Kept fz o (recordEvent s a1 a2 a3 a4 a5).1 := by
  unfold recordEvent
  try dsimp only
  repeat' first
    | with_reducible assumption
    | intro _
    | dsimp only
    | with_reducible first | apply kept_setRec | apply kept_bumpOverflow | apply kept_each | apply kept_foldl | apply kept_foldl1 | apply kept_ite | apply kept_ite1 | apply Memory.wf_put | apply Memory.wf_putByte | apply Memory.wf_fail | apply Memory.wf_zero | apply Memory.wf_poison | apply Memory.wf_unpoison | apply Memory.wf_mark | apply Memory.wf_writeLine | apply Memory.wf_foldl | apply Memory.wf_settle
    | with_reducible (refine Kept.upd rfl ?_; first | assumption | apply kept_setRec | apply kept_bumpOverflow | apply kept_each | apply kept_foldl | apply kept_foldl1 | apply kept_ite | apply kept_ite1)
    | with_reducible (refine Kept.updMem rfl ?_ ?_; rotate_left; first | assumption | apply kept_setRec | apply kept_bumpOverflow | apply kept_each | apply kept_foldl | apply kept_foldl1 | apply kept_ite | apply kept_ite1)
    | split

theorem kept_recordUnfrozen {fz o} {s a1 a2 a3 a4 a5} (h : Kept fz o s) :
    Kept fz o (recordUnfrozen s a1 a2 a3 a4 a5).1 := by
  unfold recordUnfrozen
  try dsimp only
  repeat' first
    | with_reducible assumption
    | intro _
    | dsimp only
    | with_reducible first | apply kept_recordEvent | apply kept_each | apply kept_foldl | apply kept_foldl1 | apply kept_ite | apply kept_ite1

theorem kept_setHost {fz o} {s a1 a2} (h : Kept fz o s) :
    Kept fz o (setHost s a1 a2) := by
  unfold setHost
  try dsimp only
  repeat' first
    | with_reducible assumption
    | intro _
    | dsimp only
    | with_reducible first | apply kept_each | apply kept_foldl | apply kept_foldl1 | apply kept_ite | apply kept_ite1 | apply Memory.wf_put | apply Memory.wf_putByte | apply Memory.wf_fail | apply Memory.wf_zero | apply Memory.wf_poison | apply Memory.wf_unpoison | apply Memory.wf_mark | apply Memory.wf_writeLine | apply Memory.wf_foldl | apply Memory.wf_settle
    | with_reducible (refine Kept.upd rfl ?_; first | assumption)

theorem kept_updHost {fz o} {s a1 a2} (h : Kept fz o s) :
    Kept fz o (updHost s a1 a2) := by
  unfold updHost
  try dsimp only
  repeat' first
    | with_reducible assumption
    | intro _
    | dsimp only
    | with_reducible first | apply kept_setHost

theorem kept_updFn {fz o} {s a1 a2} (h : Kept fz o s) :
    Kept fz o (updFn s a1 a2) := by
  unfold updFn
  try dsimp only
  repeat' first
    | with_reducible assumption
    | intro _
    | dsimp only
    | with_reducible first | apply kept_updHost

theorem kept_emit {fz o} {s a1} (h : Kept fz o s) :
    Kept fz o (emit s a1) := by
  unfold emit
  try dsimp only
  repeat' first
    | with_reducible assumption
    | intro _
    | dsimp only
    | with_reducible first | apply kept_each | apply kept_foldl | apply kept_foldl1 | apply kept_ite | apply kept_ite1 | apply Memory.wf_put | apply Memory.wf_putByte | apply Memory.wf_fail | apply Memory.wf_zero | apply Memory.wf_poison | apply Memory.wf_unpoison | apply Memory.wf_mark | apply Memory.wf_writeLine | apply Memory.wf_foldl | apply Memory.wf_settle
    | with_reducible (refine Kept.upd rfl ?_; first | assumption)

theorem kept_msixAt {fz o} {s a1 a2 a3} (h : Kept fz o s) :
    Kept fz o (msixAt s a1 a2 a3) := by
  unfold msixAt
  try dsimp only
  repeat' first
    | with_reducible assumption
    | intro _
    | dsimp only
    | with_reducible first | apply kept_updFn | apply kept_emit | apply kept_each | apply kept_foldl | apply kept_foldl1 | apply kept_ite | apply kept_ite1 | apply Memory.wf_put | apply Memory.wf_putByte | apply Memory.wf_fail | apply Memory.wf_zero | apply Memory.wf_poison | apply Memory.wf_unpoison | apply Memory.wf_mark | apply Memory.wf_writeLine | apply Memory.wf_foldl | apply Memory.wf_settle
    | with_reducible (refine Kept.upd rfl ?_; first | assumption | apply kept_updFn | apply kept_emit | apply kept_each | apply kept_foldl | apply kept_foldl1 | apply kept_ite | apply kept_ite1)
    | with_reducible (refine Kept.updMem rfl ?_ ?_; rotate_left; first | assumption | apply kept_updFn | apply kept_emit | apply kept_each | apply kept_foldl | apply kept_foldl1 | apply kept_ite | apply kept_ite1)
    | split

theorem kept_msix {fz o} {s a1 a2} (h : Kept fz o s) :
    Kept fz o (msix s a1 a2) := by
  unfold msix
  try dsimp only
  repeat' first
    | with_reducible assumption
    | intro _
    | dsimp only
    | with_reducible first | apply kept_msixAt | apply kept_each | apply kept_foldl | apply kept_foldl1 | apply kept_ite | apply kept_ite1 | apply Memory.wf_put | apply Memory.wf_putByte | apply Memory.wf_fail | apply Memory.wf_zero | apply Memory.wf_poison | apply Memory.wf_unpoison | apply Memory.wf_mark | apply Memory.wf_writeLine | apply Memory.wf_foldl | apply Memory.wf_settle
    | with_reducible (refine Kept.upd rfl ?_; first | assumption | apply kept_msixAt | apply kept_each | apply kept_foldl | apply kept_foldl1 | apply kept_ite | apply kept_ite1)
    | with_reducible (refine Kept.updMem rfl ?_ ?_; rotate_left; first | assumption | apply kept_msixAt | apply kept_each | apply kept_foldl | apply kept_foldl1 | apply kept_ite | apply kept_ite1)
    | split

theorem kept_msixPfs {fz o} {s} (h : Kept fz o s) :
    Kept fz o (msixPfs s) := by
  unfold msixPfs
  try dsimp only
  repeat' first
    | with_reducible assumption
    | intro _
    | dsimp only
    | with_reducible first | apply kept_msix | apply kept_each

theorem kept_recordMsix {fz o} {s a1} (h : Kept fz o s) :
    Kept fz o (recordMsix s a1) := by
  unfold recordMsix
  try dsimp only
  repeat' first
    | with_reducible assumption
    | intro _
    | dsimp only
    | with_reducible first | apply kept_msix | apply kept_msixPfs | apply kept_each | apply kept_foldl | apply kept_foldl1 | apply kept_ite

theorem kept_tellRecord {fz o} {s a1} (h : Kept fz o s) :
    Kept fz o (tellRecord s a1) := by
  unfold tellRecord
  try dsimp only
  repeat' first
    | with_reducible assumption
    | intro _
    | dsimp only
    | with_reducible first | apply kept_recordMsix | apply kept_each | apply kept_foldl | apply kept_foldl1 | apply kept_ite | apply kept_ite1 | apply Memory.wf_put | apply Memory.wf_putByte | apply Memory.wf_fail | apply Memory.wf_zero | apply Memory.wf_poison | apply Memory.wf_unpoison | apply Memory.wf_mark | apply Memory.wf_writeLine | apply Memory.wf_foldl | apply Memory.wf_settle
    | with_reducible (refine Kept.upd rfl ?_; first | assumption | apply kept_recordMsix | apply kept_each | apply kept_foldl | apply kept_foldl1 | apply kept_ite | apply kept_ite1)
    | with_reducible (refine Kept.updMem rfl ?_ ?_; rotate_left; first | assumption | apply kept_recordMsix | apply kept_each | apply kept_foldl | apply kept_foldl1 | apply kept_ite | apply kept_ite1)
    | split

theorem kept_safeAers {fz o} {s} (h : Kept fz o s) :
    Kept fz o (safeAers s) := by
  unfold safeAers
  try dsimp only
  repeat' first
    | with_reducible assumption
    | intro _
    | dsimp only
    | with_reducible first | apply kept_emit | apply kept_each | apply kept_foldl | apply kept_foldl1 | apply kept_ite | apply kept_ite1 | apply Memory.wf_put | apply Memory.wf_putByte | apply Memory.wf_fail | apply Memory.wf_zero | apply Memory.wf_poison | apply Memory.wf_unpoison | apply Memory.wf_mark | apply Memory.wf_writeLine | apply Memory.wf_foldl | apply Memory.wf_settle
    | with_reducible (refine Kept.upd rfl ?_; first | assumption | apply kept_emit | apply kept_each | apply kept_foldl | apply kept_foldl1 | apply kept_ite | apply kept_ite1)
    | with_reducible (refine Kept.updMem rfl ?_ ?_; rotate_left; first | assumption | apply kept_emit | apply kept_each | apply kept_foldl | apply kept_foldl1 | apply kept_ite | apply kept_ite1)
    | split

theorem kept_updBl {fz o} {s a1 a2} (h : Kept fz o s) :
    Kept fz o (updBl s a1 a2) := by
  unfold updBl
  try dsimp only
  repeat' first
    | with_reducible assumption
    | intro _
    | dsimp only
    | with_reducible first | apply kept_each | apply kept_foldl | apply kept_foldl1 | apply kept_ite | apply kept_ite1 | apply Memory.wf_put | apply Memory.wf_putByte | apply Memory.wf_fail | apply Memory.wf_zero | apply Memory.wf_poison | apply Memory.wf_unpoison | apply Memory.wf_mark | apply Memory.wf_writeLine | apply Memory.wf_foldl | apply Memory.wf_settle
    | with_reducible (refine Kept.upd rfl ?_; first | assumption)

theorem kept_safeFlits {fz o} {s} (h : Kept fz o s) :
    Kept fz o (safeFlits s) := by
  unfold safeFlits
  try dsimp only
  repeat' first
    | with_reducible assumption
    | intro _
    | dsimp only
    | with_reducible first | apply kept_emit | apply kept_updBl | apply kept_each | apply kept_foldl | apply kept_foldl1 | apply kept_ite | apply kept_ite1 | apply Memory.wf_put | apply Memory.wf_putByte | apply Memory.wf_fail | apply Memory.wf_zero | apply Memory.wf_poison | apply Memory.wf_unpoison | apply Memory.wf_mark | apply Memory.wf_writeLine | apply Memory.wf_foldl | apply Memory.wf_settle
    | with_reducible (refine Kept.upd rfl ?_; first | assumption | apply kept_emit | apply kept_updBl | apply kept_each | apply kept_foldl | apply kept_foldl1 | apply kept_ite | apply kept_ite1)
    | with_reducible (refine Kept.updMem rfl ?_ ?_; rotate_left; first | assumption | apply kept_emit | apply kept_updBl | apply kept_each | apply kept_foldl | apply kept_foldl1 | apply kept_ite | apply kept_ite1)
    | split

theorem kept_poisonLine {fz o} {s a1} (h : Kept fz o s) :
    Kept fz o (poisonLine s a1) := by
  unfold poisonLine
  try dsimp only
  repeat' first
    | with_reducible assumption
    | intro _
    | dsimp only
    | with_reducible first | apply kept_each | apply kept_foldl | apply kept_foldl1 | apply kept_ite | apply kept_ite1 | apply Memory.wf_put | apply Memory.wf_putByte | apply Memory.wf_fail | apply Memory.wf_zero | apply Memory.wf_poison | apply Memory.wf_unpoison | apply Memory.wf_mark | apply Memory.wf_writeLine | apply Memory.wf_foldl | apply Memory.wf_settle
    | with_reducible (refine Kept.upd rfl ?_; first | assumption | apply kept_each | apply kept_foldl | apply kept_foldl1 | apply kept_ite | apply kept_ite1)
    | with_reducible (refine Kept.updMem rfl ?_ ?_; rotate_left; first | assumption)

theorem kept_hintLands {fz o} {s a1} (h : Kept fz o s) :
    Kept fz o (hintLands s a1) := by
  unfold hintLands
  try dsimp only
  repeat' first
    | with_reducible assumption
    | intro _
    | dsimp only
    | with_reducible first | apply kept_each | apply kept_foldl | apply kept_foldl1 | apply kept_ite | apply kept_ite1 | apply Memory.wf_put | apply Memory.wf_putByte | apply Memory.wf_fail | apply Memory.wf_zero | apply Memory.wf_poison | apply Memory.wf_unpoison | apply Memory.wf_mark | apply Memory.wf_writeLine | apply Memory.wf_foldl | apply Memory.wf_settle
    | with_reducible (refine Kept.upd rfl ?_; first | assumption | apply kept_each | apply kept_foldl | apply kept_foldl1 | apply kept_ite | apply kept_ite1)
    | with_reducible (refine Kept.updMem rfl ?_ ?_; rotate_left; first | assumption | apply kept_each | apply kept_foldl | apply kept_foldl1 | apply kept_ite | apply kept_ite1)
    | split

theorem kept_domainDown {fz o} {s a1} (h : Kept fz o s) :
    Kept fz o (domainDown s a1) := by
  unfold domainDown
  try dsimp only
  repeat' first
    | with_reducible assumption
    | intro _
    | dsimp only
    | with_reducible first | apply kept_poisonLine | apply kept_hintLands | apply kept_each | apply kept_foldl | apply kept_foldl1 | apply kept_ite | apply kept_ite1 | apply Memory.wf_put | apply Memory.wf_putByte | apply Memory.wf_fail | apply Memory.wf_zero | apply Memory.wf_poison | apply Memory.wf_unpoison | apply Memory.wf_mark | apply Memory.wf_writeLine | apply Memory.wf_foldl | apply Memory.wf_settle
    | with_reducible (refine Kept.upd rfl ?_; first | assumption | apply kept_poisonLine | apply kept_hintLands | apply kept_each)

theorem kept_flrSettle {fz o} {s a1} (h : Kept fz o s) :
    Kept fz o (flrSettle s a1) := by
  unfold flrSettle
  try dsimp only
  repeat' first
    | with_reducible assumption
    | intro _
    | dsimp only
    | with_reducible first | apply kept_emit | apply kept_updFn | apply kept_each | apply kept_foldl | apply kept_foldl1 | apply kept_ite | apply kept_ite1 | apply Memory.wf_put | apply Memory.wf_putByte | apply Memory.wf_fail | apply Memory.wf_zero | apply Memory.wf_poison | apply Memory.wf_unpoison | apply Memory.wf_mark | apply Memory.wf_writeLine | apply Memory.wf_foldl | apply Memory.wf_settle
    | with_reducible (refine Kept.upd rfl ?_; first | assumption | apply kept_emit | apply kept_updFn | apply kept_each | apply kept_foldl | apply kept_foldl1 | apply kept_ite | apply kept_ite1)
    | with_reducible (refine Kept.updMem rfl ?_ ?_; rotate_left; first | assumption | apply kept_emit | apply kept_updFn | apply kept_each | apply kept_foldl | apply kept_foldl1 | apply kept_ite | apply kept_ite1)
    | split

theorem kept_poisonRest {fz o} {s} (h : Kept fz o s) :
    Kept fz o (poisonRest s) := by
  unfold poisonRest
  try dsimp only
  repeat' first
    | with_reducible assumption
    | intro _
    | dsimp only
    | with_reducible first | apply kept_each | apply kept_foldl | apply kept_foldl1 | apply kept_ite | apply kept_ite1 | apply Memory.wf_put | apply Memory.wf_putByte | apply Memory.wf_fail | apply Memory.wf_zero | apply Memory.wf_poison | apply Memory.wf_unpoison | apply Memory.wf_mark | apply Memory.wf_writeLine | apply Memory.wf_foldl | apply Memory.wf_settle
    | with_reducible (refine Kept.upd rfl ?_; first | assumption | apply kept_each | apply kept_foldl | apply kept_foldl1 | apply kept_ite | apply kept_ite1)
    | with_reducible (refine Kept.updMem rfl ?_ ?_; rotate_left; first | assumption | apply kept_each | apply kept_foldl | apply kept_foldl1 | apply kept_ite | apply kept_ite1)
    | split

theorem kept_stopWork {fz o} {s} (h : Kept fz o s) :
    Kept fz o (stopWork s) := by
  unfold stopWork
  try dsimp only
  repeat' first
    | with_reducible assumption
    | intro _
    | dsimp only
    | with_reducible first | apply kept_each | apply kept_foldl | apply kept_foldl1 | apply kept_ite | apply kept_ite1 | apply Memory.wf_put | apply Memory.wf_putByte | apply Memory.wf_fail | apply Memory.wf_zero | apply Memory.wf_poison | apply Memory.wf_unpoison | apply Memory.wf_mark | apply Memory.wf_writeLine | apply Memory.wf_foldl | apply Memory.wf_settle
    | with_reducible (refine Kept.upd rfl ?_; first | assumption)

theorem kept_enterSafe {fz o} {s a1 a2} (h : Kept fz o s) :
    Kept fz o (enterSafe s a1 a2) := by
  unfold enterSafe
  try dsimp only
  repeat' first
    | with_reducible assumption
    | intro _
    | dsimp only
    | with_reducible first | apply kept_emit | apply kept_safeAers | apply kept_safeFlits | apply kept_domainDown | apply kept_flrSettle | apply kept_poisonRest | apply kept_stopWork | apply kept_each | apply kept_foldl | apply kept_foldl1 | apply kept_ite | apply kept_ite1 | apply Memory.wf_put | apply Memory.wf_putByte | apply Memory.wf_fail | apply Memory.wf_zero | apply Memory.wf_poison | apply Memory.wf_unpoison | apply Memory.wf_mark | apply Memory.wf_writeLine | apply Memory.wf_foldl | apply Memory.wf_settle
    | with_reducible (refine Kept.upd rfl ?_; first | assumption | apply kept_emit | apply kept_safeAers | apply kept_safeFlits | apply kept_domainDown | apply kept_flrSettle | apply kept_poisonRest | apply kept_stopWork | apply kept_each | apply kept_foldl | apply kept_foldl1 | apply kept_ite | apply kept_ite1)
    | with_reducible (refine Kept.updMem rfl ?_ ?_; rotate_left; first | assumption | apply kept_emit | apply kept_safeAers | apply kept_safeFlits | apply kept_domainDown | apply kept_flrSettle | apply kept_poisonRest | apply kept_stopWork | apply kept_each | apply kept_foldl | apply kept_foldl1 | apply kept_ite | apply kept_ite1)
    | split

theorem kept_abortTiles {fz o} {s} (h : Kept fz o s) :
    Kept fz o (abortTiles s) := by
  unfold abortTiles
  try dsimp only
  repeat' first
    | with_reducible assumption
    | intro _
    | dsimp only
    | with_reducible first | apply kept_emit | apply kept_each | apply kept_foldl | apply kept_foldl1 | apply kept_ite

theorem kept_reactClass {fz o} {s a1 a2} (h : Kept fz o s) :
    Kept fz o (reactClass s a1 a2) := by
  unfold reactClass
  try dsimp only
  repeat' first
    | with_reducible assumption
    | intro _
    | dsimp only
    | with_reducible first | apply kept_enterSafe | apply kept_abortTiles | apply kept_each | apply kept_foldl | apply kept_foldl1 | apply kept_ite | apply kept_ite1 | apply Memory.wf_put | apply Memory.wf_putByte | apply Memory.wf_fail | apply Memory.wf_zero | apply Memory.wf_poison | apply Memory.wf_unpoison | apply Memory.wf_mark | apply Memory.wf_writeLine | apply Memory.wf_foldl | apply Memory.wf_settle
    | with_reducible (refine Kept.upd rfl ?_; first | assumption | apply kept_enterSafe | apply kept_abortTiles | apply kept_each | apply kept_foldl | apply kept_foldl1 | apply kept_ite | apply kept_ite1)
    | with_reducible (refine Kept.updMem rfl ?_ ?_; rotate_left; first | assumption | apply kept_enterSafe | apply kept_abortTiles | apply kept_each | apply kept_foldl | apply kept_foldl1 | apply kept_ite | apply kept_ite1)
    | split

theorem kept_pulse {fz o} {s a1} (h : Kept fz o s) :
    Kept fz o (pulse s a1) := by
  unfold pulse
  try dsimp only
  repeat' first
    | with_reducible assumption
    | intro _
    | dsimp only
    | with_reducible first | apply kept_emit | apply kept_each | apply kept_foldl | apply kept_foldl1 | apply kept_ite | apply kept_ite1 | apply Memory.wf_put | apply Memory.wf_putByte | apply Memory.wf_fail | apply Memory.wf_zero | apply Memory.wf_poison | apply Memory.wf_unpoison | apply Memory.wf_mark | apply Memory.wf_writeLine | apply Memory.wf_foldl | apply Memory.wf_settle
    | with_reducible (refine Kept.upd rfl ?_; first | assumption | apply kept_emit | apply kept_each | apply kept_foldl | apply kept_foldl1 | apply kept_ite | apply kept_ite1)
    | with_reducible (refine Kept.updMem rfl ?_ ?_; rotate_left; first | assumption | apply kept_emit | apply kept_each | apply kept_foldl | apply kept_foldl1 | apply kept_ite | apply kept_ite1)
    | split

theorem kept_traceAdd {fz o} {s a1 a2 a3} (h : Kept fz o s) :
    Kept fz o (traceAdd s a1 a2 a3) := by
  unfold traceAdd
  try dsimp only
  repeat' first
    | with_reducible assumption
    | intro _
    | dsimp only
    | with_reducible first | apply kept_each | apply kept_foldl | apply kept_foldl1 | apply kept_ite | apply kept_ite1 | apply Memory.wf_put | apply Memory.wf_putByte | apply Memory.wf_fail | apply Memory.wf_zero | apply Memory.wf_poison | apply Memory.wf_unpoison | apply Memory.wf_mark | apply Memory.wf_writeLine | apply Memory.wf_foldl | apply Memory.wf_settle
    | with_reducible (refine Kept.upd rfl ?_; first | assumption | apply kept_each | apply kept_foldl | apply kept_foldl1 | apply kept_ite | apply kept_ite1)
    | with_reducible (refine Kept.updMem rfl ?_ ?_; rotate_left; first | assumption)

theorem kept_traceRecord {fz o} {s a1} (h : Kept fz o s) :
    Kept fz o (traceRecord s a1) := by
  unfold traceRecord
  try dsimp only
  repeat' first
    | with_reducible assumption
    | intro _
    | dsimp only
    | with_reducible first | apply kept_traceAdd | apply kept_each | apply kept_foldl | apply kept_foldl1 | apply kept_ite | apply kept_ite1 | apply Memory.wf_put | apply Memory.wf_putByte | apply Memory.wf_fail | apply Memory.wf_zero | apply Memory.wf_poison | apply Memory.wf_unpoison | apply Memory.wf_mark | apply Memory.wf_writeLine | apply Memory.wf_foldl | apply Memory.wf_settle
    | with_reducible (refine Kept.upd rfl ?_; first | assumption | apply kept_traceAdd | apply kept_each | apply kept_foldl | apply kept_foldl1 | apply kept_ite | apply kept_ite1)
    | with_reducible (refine Kept.updMem rfl ?_ ?_; rotate_left; first | assumption | apply kept_traceAdd | apply kept_each | apply kept_foldl | apply kept_foldl1 | apply kept_ite | apply kept_ite1)
    | split

theorem kept_collect {fz o} {s a1 a2 a3 a4 a5} (h : Kept fz o s) :
    Kept fz o (collect s a1 a2 a3 a4 a5) := by
  unfold collect
  try dsimp only
  repeat' first
    | with_reducible assumption
    | intro _
    | dsimp only
    | with_reducible first | apply kept_countSource | apply kept_recordUnfrozen | apply kept_tellRecord | apply kept_reactClass | apply kept_pulse | apply kept_traceRecord

theorem kept_report {fz o} {s a1 a2} (h : Kept fz o s) :
    Kept fz o (report s a1 a2) := by
  unfold report
  try dsimp only
  repeat' first
    | with_reducible assumption
    | intro _
    | dsimp only
    | with_reducible first | apply kept_collect | apply kept_each | apply kept_foldl | apply kept_foldl1 | apply kept_ite | apply kept_ite1 | apply Memory.wf_put | apply Memory.wf_putByte | apply Memory.wf_fail | apply Memory.wf_zero | apply Memory.wf_poison | apply Memory.wf_unpoison | apply Memory.wf_mark | apply Memory.wf_writeLine | apply Memory.wf_foldl | apply Memory.wf_settle
    | with_reducible (refine Kept.upd rfl ?_; first | assumption | apply kept_collect | apply kept_each | apply kept_foldl | apply kept_foldl1 | apply kept_ite | apply kept_ite1)
    | with_reducible (refine Kept.updMem rfl ?_ ?_; rotate_left; first | assumption | apply kept_collect | apply kept_each | apply kept_foldl | apply kept_foldl1 | apply kept_ite | apply kept_ite1)
    | split

theorem kept_quarantineTag {fz o} {s a1 a2 a3 a4} (h : Kept fz o s) :
    Kept fz o (quarantineTag s a1 a2 a3 a4) := by
  unfold quarantineTag
  try dsimp only
  repeat' first
    | with_reducible assumption
    | intro _
    | dsimp only
    | with_reducible first | apply kept_updGw | apply kept_report | apply kept_each | apply kept_foldl | apply kept_foldl1 | apply kept_ite

theorem kept_reportBus {fz o} {s a1 a2 a3 a4} (h : Kept fz o s) :
    Kept fz o (reportBus s a1 a2 a3 a4) := by
  unfold reportBus
  try dsimp only
  repeat' first
    | with_reducible assumption
    | intro _
    | dsimp only
    | with_reducible first | apply kept_quarantineTag | apply kept_report | apply kept_each | apply kept_foldl | apply kept_foldl1 | apply kept_ite | apply kept_ite1 | apply Memory.wf_put | apply Memory.wf_putByte | apply Memory.wf_fail | apply Memory.wf_zero | apply Memory.wf_poison | apply Memory.wf_unpoison | apply Memory.wf_mark | apply Memory.wf_writeLine | apply Memory.wf_foldl | apply Memory.wf_settle
    | with_reducible (refine Kept.upd rfl ?_; first | assumption | apply kept_quarantineTag | apply kept_report | apply kept_each | apply kept_foldl | apply kept_foldl1 | apply kept_ite | apply kept_ite1)
    | with_reducible (refine Kept.updMem rfl ?_ ?_; rotate_left; first | assumption | apply kept_quarantineTag | apply kept_report | apply kept_each | apply kept_foldl | apply kept_foldl1 | apply kept_ite | apply kept_ite1)
    | split

theorem kept_memRead {fz o} {a0 a1 s a3 a4} (h : Kept fz o s) :
    Kept fz o (memRead a0 a1 s a3 a4).1 := by
  unfold memRead
  try dsimp only
  repeat' first
    | with_reducible assumption
    | intro _
    | dsimp only
    | with_reducible first | apply kept_reportBus | apply kept_each | apply kept_foldl | apply kept_foldl1

theorem kept_note {fz o} {s a1} (h : Kept fz o s) :
    Kept fz o (note s a1) := by
  unfold note
  try dsimp only
  repeat' first
    | with_reducible assumption
    | intro _
    | dsimp only
    | with_reducible first | apply kept_report

theorem kept_hostWrite {fz o} {s a1 a2 a3 a4 a5} (h : Kept fz o s) :
    Kept fz o (hostWrite s a1 a2 a3 a4 a5) := by
  unfold hostWrite
  try dsimp only
  repeat' first
    | with_reducible assumption
    | intro _
    | dsimp only
    | with_reducible first | apply kept_emit | apply kept_updHost | apply kept_each | apply kept_foldl | apply kept_foldl1 | apply kept_ite | apply kept_ite1 | apply Memory.wf_put | apply Memory.wf_putByte | apply Memory.wf_fail | apply Memory.wf_zero | apply Memory.wf_poison | apply Memory.wf_unpoison | apply Memory.wf_mark | apply Memory.wf_writeLine | apply Memory.wf_foldl | apply Memory.wf_settle
    | with_reducible (refine Kept.upd rfl ?_; first | assumption | apply kept_emit | apply kept_updHost | apply kept_each | apply kept_foldl | apply kept_foldl1 | apply kept_ite | apply kept_ite1)
    | with_reducible (refine Kept.updMem rfl ?_ ?_; rotate_left; first | assumption | apply kept_emit | apply kept_updHost | apply kept_each | apply kept_foldl | apply kept_foldl1 | apply kept_ite | apply kept_ite1)
    | split

theorem kept_updKey {fz o} {s a1 a2} (h : Kept fz o s) :
    Kept fz o (updKey s a1 a2) := by
  unfold updKey
  try dsimp only
  repeat' first
    | with_reducible assumption
    | intro _
    | dsimp only
    | with_reducible first | apply kept_each | apply kept_foldl | apply kept_foldl1 | apply kept_ite | apply kept_ite1 | apply Memory.wf_put | apply Memory.wf_putByte | apply Memory.wf_fail | apply Memory.wf_zero | apply Memory.wf_poison | apply Memory.wf_unpoison | apply Memory.wf_mark | apply Memory.wf_writeLine | apply Memory.wf_foldl | apply Memory.wf_settle
    | with_reducible (refine Kept.upd rfl ?_; first | assumption)

theorem kept_updCmd {fz o} {s a1 a2} (h : Kept fz o s) :
    Kept fz o (updCmd s a1 a2) := by
  unfold updCmd
  try dsimp only
  repeat' first
    | with_reducible assumption
    | intro _
    | dsimp only
    | with_reducible first | apply kept_each | apply kept_foldl | apply kept_foldl1 | apply kept_ite | apply kept_ite1 | apply Memory.wf_put | apply Memory.wf_putByte | apply Memory.wf_fail | apply Memory.wf_zero | apply Memory.wf_poison | apply Memory.wf_unpoison | apply Memory.wf_mark | apply Memory.wf_writeLine | apply Memory.wf_foldl | apply Memory.wf_settle
    | with_reducible (refine Kept.upd rfl ?_; first | assumption)

theorem kept_updCtx {fz o} {s a1 a2} (h : Kept fz o s) :
    Kept fz o (updCtx s a1 a2) := by
  unfold updCtx
  try dsimp only
  repeat' first
    | with_reducible assumption
    | intro _
    | dsimp only
    | with_reducible first | apply kept_each | apply kept_foldl | apply kept_foldl1 | apply kept_ite | apply kept_ite1 | apply Memory.wf_put | apply Memory.wf_putByte | apply Memory.wf_fail | apply Memory.wf_zero | apply Memory.wf_poison | apply Memory.wf_unpoison | apply Memory.wf_mark | apply Memory.wf_writeLine | apply Memory.wf_foldl | apply Memory.wf_settle
    | with_reducible (refine Kept.upd rfl ?_; first | assumption)

theorem kept_updQueue {fz o} {s a1 a2 a3} (h : Kept fz o s) :
    Kept fz o (updQueue s a1 a2 a3) := by
  unfold updQueue
  try dsimp only
  repeat' first
    | with_reducible assumption
    | intro _
    | dsimp only
    | with_reducible first | apply kept_updCtx

theorem kept_updAp {fz o} {s a1 a2 a3} (h : Kept fz o s) :
    Kept fz o (updAp s a1 a2 a3) := by
  unfold updAp
  try dsimp only
  repeat' first
    | with_reducible assumption
    | intro _
    | dsimp only
    | with_reducible first | apply kept_updHost

theorem kept_updChan {fz o} {s a1 a2} (h : Kept fz o s) :
    Kept fz o (updChan s a1 a2) := by
  unfold updChan
  try dsimp only
  repeat' first
    | with_reducible assumption
    | intro _
    | dsimp only
    | with_reducible first | apply kept_each | apply kept_foldl | apply kept_foldl1 | apply kept_ite | apply kept_ite1 | apply Memory.wf_put | apply Memory.wf_putByte | apply Memory.wf_fail | apply Memory.wf_zero | apply Memory.wf_poison | apply Memory.wf_unpoison | apply Memory.wf_mark | apply Memory.wf_writeLine | apply Memory.wf_foldl | apply Memory.wf_settle
    | with_reducible (refine Kept.upd rfl ?_; first | assumption)

theorem kept_updRun {fz o} {s a1 a2} (h : Kept fz o s) :
    Kept fz o (updRun s a1 a2) := by
  unfold updRun
  try dsimp only
  repeat' first
    | with_reducible assumption
    | intro _
    | dsimp only
    | with_reducible first | apply kept_updChan

theorem kept_updCore {fz o} {s a1 a2} (h : Kept fz o s) :
    Kept fz o (updCore s a1 a2) := by
  unfold updCore
  try dsimp only
  repeat' first
    | with_reducible assumption
    | intro _
    | dsimp only
    | with_reducible first | apply kept_each | apply kept_foldl | apply kept_foldl1 | apply kept_ite | apply kept_ite1 | apply Memory.wf_put | apply Memory.wf_putByte | apply Memory.wf_fail | apply Memory.wf_zero | apply Memory.wf_poison | apply Memory.wf_unpoison | apply Memory.wf_mark | apply Memory.wf_writeLine | apply Memory.wf_foldl | apply Memory.wf_settle
    | with_reducible (refine Kept.upd rfl ?_; first | assumption)

theorem kept_fresh {fz o} {s} (h : Kept fz o s) :
    Kept fz o (fresh s).1 := by
  unfold fresh
  try dsimp only
  repeat' first
    | with_reducible assumption
    | intro _
    | dsimp only
    | with_reducible first | apply kept_each | apply kept_foldl | apply kept_foldl1 | apply kept_ite | apply kept_ite1 | apply Memory.wf_put | apply Memory.wf_putByte | apply Memory.wf_fail | apply Memory.wf_zero | apply Memory.wf_poison | apply Memory.wf_unpoison | apply Memory.wf_mark | apply Memory.wf_writeLine | apply Memory.wf_foldl | apply Memory.wf_settle
    | with_reducible (refine Kept.upd rfl ?_; first | assumption)

theorem kept_memWrite {fz o} {a0 a1 s a3 a4 a5} (h : Kept fz o s) :
    Kept fz o (memWrite a0 a1 s a3 a4 a5).1 := by
  unfold memWrite
  try dsimp only
  repeat' first
    | with_reducible assumption
    | intro _
    | dsimp only
    | with_reducible first | apply kept_reportBus | apply kept_each | apply kept_foldl | apply kept_foldl1 | apply kept_ite | apply kept_ite1 | apply Memory.wf_put | apply Memory.wf_putByte | apply Memory.wf_fail | apply Memory.wf_zero | apply Memory.wf_poison | apply Memory.wf_unpoison | apply Memory.wf_mark | apply Memory.wf_writeLine | apply Memory.wf_foldl | apply Memory.wf_settle
    | with_reducible (refine Kept.upd rfl ?_; first | assumption | apply kept_reportBus | apply kept_each | apply kept_foldl | apply kept_foldl1 | apply kept_ite | apply kept_ite1)
    | with_reducible (refine Kept.updMem rfl ?_ ?_; rotate_left; first | assumption)
    | split

theorem kept_updPart {fz o} {s a1 a2} (h : Kept fz o s) :
    Kept fz o (updPart s a1 a2) := by
  unfold updPart
  try dsimp only
  repeat' first
    | with_reducible assumption
    | intro _
    | dsimp only
    | with_reducible first | apply kept_each | apply kept_foldl | apply kept_foldl1 | apply kept_ite | apply kept_ite1 | apply Memory.wf_put | apply Memory.wf_putByte | apply Memory.wf_fail | apply Memory.wf_zero | apply Memory.wf_poison | apply Memory.wf_unpoison | apply Memory.wf_mark | apply Memory.wf_writeLine | apply Memory.wf_foldl | apply Memory.wf_settle
    | with_reducible (refine Kept.upd rfl ?_; first | assumption)

end Sys2Proof.Machine
end

