-- ==== Sys2Proof/Laws/Ops.lean ====
section
/-! SUPPORT. What the shared operations do to the state that later statements read: device memory by byte, the
collector's records, and the safe state. -/

open Sys2Proof

namespace Sys2Proof.Machine

/-! ### Folds over the state -/

/-- A reading of the state that no step of a fold changes. -/
theorem each_reads {α β : Type} {g : State → β} {f : State → α → State} (h : ∀ s x, g (f s x) = g s) :
    ∀ {l : List α} {s : State}, g (each f s l) = g s
  | [], _ => rfl
  | x :: l, s => by
    have := each_reads h (l := l) (s := f s x)
    unfold each at this ⊢
    rw [List.foldl_cons, this, h]

/-! ### The collector (R444 to R456) -/

theorem msix_fc (s : State) (fn : Fn) (v : Nat) : (msix s fn v).fc = s.fc := by
  unfold msix msixAt
  dsimp only
  split
  · rfl
  · split <;> rfl

theorem recordMsix_fc (s : State) (n : Nat) : (recordMsix s n).fc = s.fc := by
  unfold recordMsix msixPfs
  dsimp only
  split
  · exact msix_fc _ _ _
  · exact each_reads (fun s x => msix_fc s _ _)

theorem traceAdd_fc (s : State) (k : Nat) (ctx : BitVec 12) (b : List Byte) : (traceAdd s k ctx b).fc = s.fc := by
  unfold traceAdd
  dsimp only
  split <;> rfl

theorem abortTiles_fc (s : State) : (abortTiles s).fc = s.fc := by
  unfold abortTiles
  exact each_reads (fun s x => by split <;> rfl)

theorem hintLands_fc (s : State) (r : HomeReq) : (hintLands s r).fc = s.fc := by
  unfold hintLands
  split <;> rfl

theorem domainDown_fc (s : State) (a : Byte) : (domainDown s a).fc = s.fc := by
  unfold domainDown
  split
  · rfl
  · dsimp only
    refine (each_reads (g := State.fc) ?_).trans ((each_reads (g := State.fc) ?_).trans (each_reads (g := State.fc) ?_))
    · exact fun s x => hintLands_fc s x
    · intro s x
      split
      · rfl
      · exact hintLands_fc _ _
    · exact fun s x => rfl

theorem safeFlits_fc (s : State) : (safeFlits s).fc = s.fc :=
  each_reads (g := State.fc) fun s x => by split <;> rfl

theorem safeAers_fc (s : State) : (safeAers s).fc = s.fc := by
  unfold safeAers
  refine each_reads (g := State.fc) ?_
  intro x p
  rfl

theorem flrSettle_fc (s : State) (p : Nat) : (flrSettle s p).fc = s.fc :=
  each_reads (g := State.fc) fun s x => by
    split
    · split <;> rfl
    · rfl

/-- What settling the FLRs of a port leaves: everything but the functions of the ports and what was sent. -/
theorem flrSettle_frame (s : State) (p : Nat) : ∃ h o, flrSettle s p = { s with hosts := h, out := o } := by
  unfold flrSettle
  have key : ∀ (l : List (Nat × FnState)) (x : State), (∃ h o, x = { s with hosts := h, out := o }) →
      ∃ h o, each (fun s f => match f.2.flr with
        | some n => if flrWaits s ⟨p, f.1⟩ n then s
          else emit (updFn s ⟨p, f.1⟩ fun f => { f with flr := none }) (.flrDone ⟨p, f.1⟩)
        | none => s) x l = { s with hosts := h, out := o } := by
    intro l
    induction l with
    | nil => exact fun x h => h
    | cons f l ih =>
      intro x hx
      refine ih _ ?_
      obtain ⟨h, o, rfl⟩ := hx
      dsimp only
      split
      · split
        · exact ⟨_, _, rfl⟩
        · exact ⟨_, _, rfl⟩
      · exact ⟨_, _, rfl⟩
  exact key _ s ⟨_, _, rfl⟩

theorem each_flrSettle_frame : ∀ (l : List Nat) (s : State), ∃ h o, each flrSettle s l = { s with hosts := h, out := o }
  | [], s => ⟨_, _, rfl⟩
  | p :: l, s => by
    obtain ⟨h, o, e⟩ := flrSettle_frame s p
    obtain ⟨h', o', e'⟩ := each_flrSettle_frame l (flrSettle s p)
    refine ⟨h', o', ?_⟩
    unfold each at e' ⊢
    rw [List.foldl_cons, e', e]

/-- What entry into the safe state stops (R456): the dispatched commands, window writes, page copies, channel runs and
remote requests are gone, and a coherent domain that was up is down. -/
theorem enterSafe_stops (s : State) (c : FcClass) (src : BitVec 16) :
    let t := enterSafe s c src
    t.qe.cmds = [] ∧ t.wws = [] ∧ t.cows = [] ∧ t.bl.reqs = [] ∧ (∀ e ∈ t.mv.chans, e.2.run = none) ∧
    (s.ch.st = .up → t.ch.st = .down) := by
  have stop : ∀ (X : State) (L : List Nat) (o : Out), let t := emit (each flrSettle (poisonRest (stopWork X)) L) o
      t.qe.cmds = [] ∧ t.wws = [] ∧ t.cows = [] ∧ t.bl.reqs = [] ∧ (∀ e ∈ t.mv.chans, e.2.run = none) ∧ t.ch = X.ch := by
    intro X L o t
    obtain ⟨h, u, e⟩ := each_flrSettle_frame L (poisonRest (stopWork X))
    have ht : t = emit { poisonRest (stopWork X) with hosts := h, out := u } o := congrArg (emit · o) e
    clear_value t
    subst ht
    refine ⟨rfl, rfl, rfl, rfl, ?_, rfl⟩
    intro e he
    obtain ⟨x, -, rfl⟩ := List.mem_map.1 he
    rfl
  have shape : ∃ X L o, enterSafe s c src = emit (each flrSettle (poisonRest (stopWork X)) L) o ∧
      (s.ch.st = .up → X.ch.st = .down) := by
    unfold enterSafe
    refine ⟨_, _, _, rfl, fun hup => ?_⟩
    have hd : ∀ x : State, x.ch.st = .up → ∀ a, (domainDown x a).ch.st = .down := by
      intro x hx a; unfold domainDown; rw [if_neg (by simp [hx])]
    have h1 : ∀ x : State, (safeAers x).ch = x.ch := by
      intro x
      unfold safeAers
      refine each_reads (g := State.ch) ?_
      intro s p
      rfl
    have h2 : ∀ x : State, (safeFlits x).ch = x.ch := by
      intro x
      unfold safeFlits
      refine each_reads (g := State.ch) (fun s p => ?_)
      split <;> rfl
    rw [h1, h2]
    apply hd
    exact hup
  obtain ⟨X, L, o, e, hx⟩ := shape
  rw [e]
  obtain ⟨a1, a2, a3, a4, a5, a6⟩ := stop X L o
  exact ⟨a1, a2, a3, a4, a5, fun hup => by rw [a6]; exact hx hup⟩


/-- Entry into the safe state sets the class and names the source, and changes nothing else of the collector. -/
theorem enterSafe_fc (s : State) (c : FcClass) (src : BitVec 16) :
    (enterSafe s c src).fc = { s.fc with cls := c, entrySrc := src } := by
  unfold enterSafe
  dsimp only
  have h1 : ∀ (x : State) (o : Out), (emit x o).fc = x.fc := fun _ _ => rfl
  have h2 : ∀ x : State, (poisonRest (stopWork x)).fc = x.fc := fun _ => rfl
  rw [h1, each_reads (g := State.fc) flrSettle_fc, h2, safeAers_fc, safeFlits_fc, domainDown_fc, h1]

/-- What the reaction to a class does to the collector's own state. -/
theorem reactClass_fc (s : State) (cls : Nat) (src : BitVec 16) :
    (reactClass s cls src).fc = if cls < 3 then s.fc else match s.fc.cls with
      | .run => { s.fc with cls := if cls = 3 then .fatal else .terminal, entrySrc := src }
      | .fatal => if cls = 3 then s.fc else { s.fc with cls := .terminal }
      | .terminal => s.fc := by
  unfold reactClass
  split
  · rfl
  · split
    · rename_i h; simp only [enterSafe_fc, abortTiles_fc, h]
    · rename_i h; simp only [h]; split <;> rfl
    · rename_i h; simp only [h]

theorem pulse_fc (s : State) (cls : Nat) :
    (pulse s cls).fc = if cls < 2 then s.fc else
      { s.fc with pulseEnd := some (s.fc.pulseEnd.getD (s.tick + 1000200)) } := by
  unfold pulse
  split
  · rfl
  · split
    · rename_i h
      simp only [h, Option.getD_some]
      rw [← h]
    · rename_i h
      simp only [h, Option.getD_none]
      split <;> rfl

/-- The reactions to a class leave the records, the sources and the counters of the collector. -/
theorem reactPulse_fc (s : State) (cls : Nat) (src : BitVec 16) :
    (reactClass (pulse s cls) cls src).fc.recs = s.fc.recs ∧ (reactClass (pulse s cls) cls src).fc.valid = s.fc.valid ∧
    (reactClass (pulse s cls) cls src).fc.overflow = s.fc.overflow ∧
    (reactClass (pulse s cls) cls src).fc.srcs = s.fc.srcs ∧
    (reactClass (pulse s cls) cls src).fc.self = s.fc.self ∧ (reactClass (pulse s cls) cls src).fc.drive = s.fc.drive := by
  rw [reactClass_fc, pulse_fc]
  refine ⟨?_, ?_, ?_, ?_, ?_, ?_⟩ <;> (repeat' split) <;> simp_all

theorem tellRecord_fc (s : State) (n : Option Nat) : (tellRecord s n).fc = s.fc := by
  unfold tellRecord
  split
  · split
    · rfl
    · exact recordMsix_fc _ _
  · rfl

theorem traceRecord_fc (s : State) (src : BitVec 16) : (traceRecord s src).fc = s.fc := by
  unfold traceRecord
  split
  · exact traceAdd_fc _ _ _ _
  · rfl

/-- What an event does to the collector's own state: what counting and recording it do, and the reactions to its class. -/
theorem collect_fc (s : State) (ev : Event) (base scope : Nat) (inj : Bool) (mid : Byte) :
    (collect s ev base scope inj mid).fc =
      (reactClass (pulse (traceRecord (recordUnfrozen (countSource s ev base).1 ev (countSource s ev base).2 scope inj mid).1
        ev.source) (countSource s ev base).2) (countSource s ev base).2 ev.source).fc := tellRecord_fc _ _

/-- An event writes the collector's records as counting and recording it do: its reactions leave them. -/
theorem collect_recs (s : State) (ev : Event) (base scope : Nat) (inj : Bool) (mid : Byte) :
    let r := (recordUnfrozen (countSource s ev base).1 ev (countSource s ev base).2 scope inj mid).1
    let t := collect s ev base scope inj mid
    t.fc.recs = r.fc.recs ∧ t.fc.valid = r.fc.valid ∧ t.fc.overflow = r.fc.overflow ∧ t.fc.srcs = r.fc.srcs ∧
    t.fc.self = r.fc.self ∧ t.fc.drive = r.fc.drive := by
  intro r t
  have hr : (traceRecord r ev.source).fc = r.fc := traceRecord_fc _ _
  rw [show t.fc = _ from collect_fc s ev base scope inj mid, ← hr]
  exact reactPulse_fc _ _ _

end Sys2Proof.Machine
end

