-- ==== Sys2Proof/Laws/Reports.lean ====
section
/-! SUPPORT. What reporting an event leaves alone: what was sent, the links, and the coherent domain where it does not go down. -/

open Sys2Proof

namespace Sys2Proof.Machine

/-- Nothing that was sent is taken back. -/
def KeepsOut (s t : State) : Prop := ∀ o ∈ s.out, o ∈ t.out

theorem KeepsOut.rfl' {s t : State} (h : t.out = s.out) : KeepsOut s t := fun _ ho => h ▸ ho

theorem KeepsOut.tr {a b c : State} (h : KeepsOut a b) (k : KeepsOut b c) : KeepsOut a c := fun _ ho => k _ (h _ ho)

theorem KeepsOut.emit (s : State) (o : Out) : KeepsOut s (emit s o) := fun _ hx => List.mem_append_left _ hx

theorem KeepsOut.each {α} {f : State → α → State} (h : ∀ s x, KeepsOut s (f s x)) : ∀ (l : List α) (s : State), KeepsOut s (each f s l)
  | [], _ => fun _ h => h
  | x :: l, s => by unfold Machine.each; rw [List.foldl_cons]; exact (h s x).tr (KeepsOut.each h l _)

theorem KeepsOut.msix (s : State) (fn : Fn) (v : Nat) : KeepsOut s (msix s fn v) := by
  unfold Machine.msix msixAt; dsimp only
  split
  · exact .rfl' rfl
  · split
    · exact .rfl' rfl
    · exact KeepsOut.emit _ _

theorem KeepsOut.tell (s : State) (n) : KeepsOut s (tellRecord s n) := by
  unfold tellRecord; split
  · split
    · exact .rfl' rfl
    · unfold recordMsix msixPfs; dsimp only; split
      · exact KeepsOut.msix _ _ _
      · exact KeepsOut.each (fun s x => KeepsOut.msix s _ _) _ _
  · exact .rfl' rfl

theorem KeepsOut.traceAdd (s : State) (k : Nat) (c : BitVec 12) (b : List Byte) : KeepsOut s (traceAdd s k c b) := by
  unfold Machine.traceAdd; dsimp only; split <;> exact .rfl' rfl

theorem KeepsOut.traceRecord (s : State) (src) : KeepsOut s (traceRecord s src) := by
  unfold Machine.traceRecord; split
  · exact .traceAdd _ _ _ _
  · exact .rfl' rfl

theorem KeepsOut.pulse (s : State) (c) : KeepsOut s (pulse s c) := by
  unfold Machine.pulse; split
  · exact .rfl' rfl
  · split
    · exact .rfl' rfl
    · dsimp only; split
      · exact .rfl' rfl
      · intro o h; simp [emit_out]; exact .inl h

theorem KeepsOut.rec (s : State) (ev c sc i m) : KeepsOut s (recordUnfrozen s ev c sc i m).1 := by
  unfold recordUnfrozen; split
  · exact .rfl' rfl
  · unfold recordEvent bumpOverflow; dsimp only; repeat' split
    all_goals exact .rfl' rfl

theorem KeepsOut.abortTiles (s : State) : KeepsOut s (abortTiles s) := by
  unfold Machine.abortTiles; refine KeepsOut.each ?_ _ _; intro s x; split
  · exact KeepsOut.emit _ _
  · exact .rfl' rfl

theorem KeepsOut.domainDown (s : State) (a : Byte) : KeepsOut s (domainDown s a) := by
  have hh : ∀ (s : State) r, KeepsOut s (hintLands s r) := by
    intro s r; unfold hintLands; split <;> exact .rfl' rfl
  unfold Machine.domainDown; split
  · exact .rfl' rfl
  · dsimp only
    refine (KeepsOut.each ?_ _ _).tr ((KeepsOut.each ?_ _ _).tr (KeepsOut.each (f := hintLands) hh _ _))
    · intro s x; exact .rfl' rfl
    · intro s x; split
      · exact .rfl' rfl
      · exact hh _ _

theorem KeepsOut.safeFlits (s : State) : KeepsOut s (safeFlits s) := by
  unfold Machine.safeFlits; refine KeepsOut.each ?_ _ _; intro s p; split
  · exact KeepsOut.tr (b := updBl s p _) (.rfl' rfl) (KeepsOut.emit _ _)
  · exact .rfl' rfl

theorem KeepsOut.flrSettle (s : State) (p : Nat) : KeepsOut s (flrSettle s p) := by
  unfold Machine.flrSettle; refine KeepsOut.each ?_ _ _; intro s f; split
  · split
    · exact .rfl' rfl
    · exact KeepsOut.tr (b := updFn s _ _) (.rfl' rfl) (KeepsOut.emit _ _)
  · exact .rfl' rfl

theorem KeepsOut.safeAers (s : State) : KeepsOut s (safeAers s) := by
  unfold Machine.safeAers
  exact KeepsOut.each (fun s p => KeepsOut.emit _ _) _ _

theorem KeepsOut.stopped (s : State) : KeepsOut s (poisonRest (Machine.stopWork s)) := (.rfl' rfl)

theorem KeepsOut.enterSafe (s : State) (c src) : KeepsOut s (enterSafe s c src) := by
  unfold Machine.enterSafe; dsimp only
  have h0 : KeepsOut s (Machine.emit { s with fc := { s.fc with cls := c, entrySrc := src } } (.safePin true)) := fun o h => List.mem_append_left _ h
  generalize (Machine.emit { s with fc := { s.fc with cls := c, entrySrc := src } } (.safePin true)) = y at h0 ⊢
  have h1 := h0.tr ((KeepsOut.domainDown y 0xFF).tr ((KeepsOut.safeFlits _).tr ((KeepsOut.safeAers _).tr (KeepsOut.stopped _))))
  generalize poisonRest (Machine.stopWork (Machine.safeAers (Machine.safeFlits (Machine.domainDown y 0xFF)))) = z at h1 ⊢
  have h2 := h1.tr (KeepsOut.each KeepsOut.flrSettle (List.range (Machine.safeAers (Machine.safeFlits (Machine.domainDown y 0xFF))).build.hostPorts.length) z)
  exact h2.tr (KeepsOut.emit _ _)

theorem KeepsOut.react (s : State) (c src) : KeepsOut s (reactClass s c src) := by
  unfold reactClass
  split
  · exact .rfl' rfl
  · split
    · exact (KeepsOut.abortTiles s).tr (KeepsOut.enterSafe _ _ _)
    · split <;> exact .rfl' rfl
    · exact .rfl' rfl

theorem KeepsOut.collect (s : State) (ev b sc i m) : KeepsOut s (collect s ev b sc i m) := by
  unfold Machine.collect; dsimp only
  refine KeepsOut.tr ?_ (KeepsOut.tell _ _)
  refine KeepsOut.tr ?_ (KeepsOut.react _ _ _)
  refine KeepsOut.tr ?_ (KeepsOut.pulse _ _)
  refine KeepsOut.tr ?_ (KeepsOut.traceRecord _ _)
  refine KeepsOut.tr ?_ (KeepsOut.rec _ _ _ _ _ _)
  exact .rfl' rfl

theorem KeepsOut.report (s : State) (ev m) : KeepsOut s (report s ev m) := by
  unfold Machine.report; split
  · exact .rfl' rfl
  · exact KeepsOut.collect _ _ _ _ _ _

/-- The links are as before, but for the mark that SAFE was sent and what the safe state discards. -/
def KeepsLinks (s t : State) : Prop :=
  (∀ p, { blPort t p with safeSent := false } = { blPort s p with safeSent := false }) ∧
    { t.bl with ports := [], reqs := [], served := [], parts := [], inbox := [] } =
      { s.bl with ports := [], reqs := [], served := [], parts := [], inbox := [] }

theorem KeepsLinks.rfl' {s t : State} (h : t.bl = s.bl) : KeepsLinks s t :=
  ⟨fun p => by unfold blPort; rw [h], by rw [h]⟩

theorem KeepsLinks.tr {a b c : State} (h : KeepsLinks a b) (k : KeepsLinks b c) : KeepsLinks a c :=
  ⟨fun p => (k.1 p).trans (h.1 p), k.2.trans h.2⟩

theorem KeepsLinks.each {α} {f : State → α → State} (h : ∀ s x, KeepsLinks s (f s x)) : ∀ (l : List α) (s : State), KeepsLinks s (each f s l)
  | [], _ => .rfl' rfl
  | x :: l, s => by unfold Machine.each; rw [List.foldl_cons]; exact (h s x).tr (KeepsLinks.each h l _)

theorem blPort_updBl_at (s : State) (p f) : blPort (updBl s p f) p = f (blPort s p) := Tab.get_upd_same

theorem blPort_updBl_apart (s : State) (p q f) (h : q ≠ p) : blPort (updBl s p f) q = blPort s q := Tab.get_upd_other h

theorem KeepsLinks.safe (s : State) (p) (o) : KeepsLinks s (Machine.emit (updBl s p fun b => { b with safeSent := true }) o) := by
  refine ⟨fun q => ?_, rfl⟩
  show { blPort (updBl s p _) q with safeSent := false } = _
  by_cases h : q = p
  · subst h; rw [blPort_updBl_at]
  · rw [blPort_updBl_apart _ _ _ _ h]

theorem KeepsLinks.msix (s : State) (fn : Fn) (v : Nat) : KeepsLinks s (msix s fn v) := by
  unfold Machine.msix msixAt; dsimp only
  split
  · exact .rfl' rfl
  · split <;> exact .rfl' rfl

theorem KeepsLinks.tell (s : State) (n) : KeepsLinks s (tellRecord s n) := by
  unfold tellRecord; split
  · split
    · exact .rfl' rfl
    · unfold recordMsix msixPfs; dsimp only; split
      · exact KeepsLinks.msix _ _ _
      · exact KeepsLinks.each (fun s x => KeepsLinks.msix s _ _) _ _
  · exact .rfl' rfl

theorem KeepsLinks.traceRecord (s : State) (src) : KeepsLinks s (traceRecord s src) := by
  unfold Machine.traceRecord; split
  · unfold Machine.traceAdd; dsimp only; split <;> exact .rfl' rfl
  · exact .rfl' rfl

theorem KeepsLinks.pulse (s : State) (c) : KeepsLinks s (pulse s c) := by
  unfold Machine.pulse; split
  · exact .rfl' rfl
  · split
    · exact .rfl' rfl
    · dsimp only; split <;> exact .rfl' rfl

theorem KeepsLinks.rec (s : State) (ev c sc i m) : KeepsLinks s (recordUnfrozen s ev c sc i m).1 := by
  unfold recordUnfrozen; split
  · exact .rfl' rfl
  · unfold recordEvent bumpOverflow; dsimp only; repeat' split
    all_goals exact .rfl' rfl

theorem KeepsLinks.abortTiles (s : State) : KeepsLinks s (abortTiles s) := by
  unfold Machine.abortTiles; refine KeepsLinks.each ?_ _ _; intro s x; split <;> exact .rfl' rfl

theorem KeepsLinks.domainDown (s : State) (a : Byte) : KeepsLinks s (domainDown s a) := by
  have hh : ∀ (s : State) r, KeepsLinks s (hintLands s r) := by
    intro s r; unfold hintLands; split <;> exact .rfl' rfl
  unfold Machine.domainDown; split
  · exact .rfl' rfl
  · dsimp only
    refine (KeepsLinks.each ?_ _ _).tr ((KeepsLinks.each ?_ _ _).tr (KeepsLinks.each (f := hintLands) hh _ _))
    · intro s x; exact .rfl' rfl
    · intro s x; split
      · exact .rfl' rfl
      · exact hh _ _

theorem KeepsLinks.safeFlits (s : State) : KeepsLinks s (safeFlits s) := by
  unfold Machine.safeFlits; refine KeepsLinks.each ?_ _ _; intro s p; split
  · exact .safe _ _ _
  · exact .rfl' rfl

theorem KeepsLinks.flrSettle (s : State) (p : Nat) : KeepsLinks s (flrSettle s p) := by
  unfold Machine.flrSettle; refine KeepsLinks.each ?_ _ _; intro s f; split
  · split <;> exact .rfl' rfl
  · exact .rfl' rfl

theorem KeepsLinks.safeAers (s : State) : KeepsLinks s (safeAers s) := by
  unfold Machine.safeAers
  exact KeepsLinks.each (f := fun s p => Machine.emit s (.aer p .internal)) (fun s p => .rfl' rfl) _ _

theorem KeepsLinks.stopped (s : State) : KeepsLinks s (poisonRest (Machine.stopWork s)) := ⟨fun _ => rfl, rfl⟩

theorem KeepsLinks.downed (s : State) : KeepsLinks s (Machine.safeAers (Machine.safeFlits (Machine.domainDown s 0xFF))) :=
  (KeepsLinks.domainDown s 0xFF).tr ((KeepsLinks.safeFlits _).tr (KeepsLinks.safeAers _))

theorem KeepsLinks.settled (s : State) (l : List Nat) : KeepsLinks s (Machine.each Machine.flrSettle (poisonRest (Machine.stopWork s)) l) :=
  (KeepsLinks.stopped s).tr (KeepsLinks.each KeepsLinks.flrSettle l _)

theorem KeepsLinks.emitted (s : State) (o) : KeepsLinks s (Machine.emit s o) := .rfl' rfl

theorem KeepsLinks.enterSafe (s : State) (c src) : KeepsLinks s (enterSafe s c src) := by
  unfold Machine.enterSafe; dsimp only
  refine KeepsLinks.tr ?_ (KeepsLinks.emitted _ _)
  refine KeepsLinks.tr ?_ (KeepsLinks.settled _ _)
  refine KeepsLinks.tr ?_ (KeepsLinks.downed _)
  exact ⟨fun _ => rfl, rfl⟩

theorem KeepsLinks.react (s : State) (c src) : KeepsLinks s (reactClass s c src) := by
  unfold reactClass
  split
  · exact .rfl' rfl
  · split
    · exact (KeepsLinks.abortTiles s).tr (KeepsLinks.enterSafe _ _ _)
    · split <;> exact .rfl' rfl
    · exact .rfl' rfl

theorem KeepsLinks.collect (s : State) (ev b sc i m) : KeepsLinks s (collect s ev b sc i m) := by
  unfold Machine.collect; dsimp only
  refine KeepsLinks.tr ?_ (KeepsLinks.tell _ _)
  refine KeepsLinks.tr ?_ (KeepsLinks.react _ _ _)
  refine KeepsLinks.tr ?_ (KeepsLinks.pulse _ _)
  refine KeepsLinks.tr ?_ (KeepsLinks.traceRecord _ _)
  refine KeepsLinks.tr ?_ (KeepsLinks.rec _ _ _ _ _ _)
  exact .rfl' rfl

theorem KeepsLinks.report (s : State) (ev m) : KeepsLinks s (report s ev m) := by
  unfold Machine.report; split
  · exact .rfl' rfl
  · exact KeepsLinks.collect _ _ _ _ _ _

theorem KeepsLinks.note (s : State) (ev) : KeepsLinks s (note s ev) := KeepsLinks.report _ _ _

theorem traceAdd_ch (s : State) (k : Nat) (c : BitVec 12) (b : List Byte) : (traceAdd s k c b).ch = s.ch := by
  unfold traceAdd; dsimp only; split <;> rfl

theorem traceRecord_ch (s : State) (src) : (traceRecord s src).ch = s.ch := by
  unfold traceRecord; split
  · exact traceAdd_ch _ _ _ _
  · rfl

theorem msix_ch (s : State) (fn : Fn) (v : Nat) : (msix s fn v).ch = s.ch := by
  unfold msix msixAt; dsimp only
  split
  · rfl
  · split <;> rfl

theorem tellRecord_ch (s : State) (n) : (tellRecord s n).ch = s.ch := by
  unfold tellRecord; split
  · split
    · rfl
    · unfold recordMsix msixPfs; dsimp only; split
      · exact msix_ch _ _ _
      · exact each_reads (fun s x => msix_ch s _ _)
  · rfl

theorem pulse_ch (s : State) (c) : (pulse s c).ch = s.ch := by
  unfold pulse; split
  · rfl
  · split
    · rfl
    · dsimp only; split <;> rfl

theorem recordUnfrozen_ch (s : State) (ev c sc i m) : (recordUnfrozen s ev c sc i m).1.ch = s.ch := by
  unfold recordUnfrozen; split
  · rfl
  · unfold recordEvent bumpOverflow; dsimp only; repeat' split
    all_goals rfl
/-- The domain's state is empty and down. -/

structure Downed (c : Ch) : Prop where
  st : c.st = .down
  dir : c.dir = []
  trans : c.trans = []
  snps : c.snps = []
  queue : c.queue = []

theorem domainDown_downed (s : State) (a : Byte) (h : s.ch.st ≠ .down ∧ s.ch.st ≠ .purging) : Downed (domainDown s a).ch := by
  unfold domainDown; rw [if_neg (by simp [h.1, h.2])]; exact ⟨rfl, rfl, rfl, rfl, rfl⟩

theorem safeFlits_ch (s : State) : (safeFlits s).ch = s.ch := by
  unfold safeFlits; refine each_reads (g := State.ch) ?_; intro x p; split <;> rfl

theorem safeAers_ch (s : State) : (safeAers s).ch = s.ch := by
  unfold safeAers; refine each_reads (g := State.ch) ?_; intro x p; rfl

theorem flrSettle_ch (s : State) (p : Nat) : (flrSettle s p).ch = s.ch := by
  unfold flrSettle; refine each_reads (g := State.ch) ?_; intro x f; split
  · split <;> rfl
  · rfl

theorem enterSafe_ch (s : State) (c src) (h : s.ch.st ≠ .down ∧ s.ch.st ≠ .purging) : Downed (enterSafe s c src).ch := by
  unfold enterSafe; dsimp only
  have h1 : ∀ (x : State) (o : Out), (emit x o).ch = x.ch := fun _ _ => rfl
  have h2 : ∀ x : State, (poisonRest (Machine.stopWork x)).ch = x.ch := fun _ => rfl
  rw [h1, each_reads (g := State.ch) flrSettle_ch, h2, safeAers_ch, safeFlits_ch]
  exact domainDown_downed _ _ (by rw [h1]; exact h)

theorem reactClass_ch (s : State) (c src) (h : s.ch.st ≠ .down ∧ s.ch.st ≠ .purging) : (reactClass s c src).ch = s.ch ∨ Downed (reactClass s c src).ch := by
  unfold reactClass
  split
  · exact .inl rfl
  · split
    · right
      have at_ : (abortTiles s).ch = s.ch := each_reads (g := State.ch) (fun s x => by split <;> rfl)
      exact enterSafe_ch _ _ _ (by rw [at_]; exact h)
    · split
      · exact .inl rfl
      · exact .inl rfl
    · exact .inl rfl

theorem collect_ch (s : State) (ev b sc i m) (h : s.ch.st ≠ .down ∧ s.ch.st ≠ .purging) : (collect s ev b sc i m).ch = s.ch ∨ Downed (collect s ev b sc i m).ch := by
  unfold collect
  dsimp only
  rw [tellRecord_ch]
  have e : ∀ c src i, (pulse (traceRecord (recordUnfrozen (countSource s ev b).1 ev c sc i m).1 src) c).ch = s.ch := by
    intro c src i; rw [pulse_ch, traceRecord_ch, recordUnfrozen_ch]; rfl
  have := reactClass_ch (pulse (traceRecord (recordUnfrozen (countSource s ev b).1 ev (countSource s ev b).2 sc i m).1 ev.source) (countSource s ev b).2) (countSource s ev b).2 ev.source (by rw [e]; exact h)
  rw [e] at this; exact this

theorem report_ch (s : State) (ev m) (h : s.ch.st ≠ .down ∧ s.ch.st ≠ .purging) : (report s ev m).ch = s.ch ∨ Downed (report s ev m).ch := by
  unfold report
  split
  · exact .inl rfl
  · exact collect_ch _ _ _ _ _ _ h

theorem domainDown_of_downed {s : State} (a) (h : Downed s.ch) : domainDown s a = s := by
  unfold domainDown; rw [if_pos (by simp [h.st])]

end Sys2Proof.Machine
end

