-- ==== Sys2Proof/Laws/Fabric.lean ====
section
/-! SUPPORT. Bramble links and the fabric: what each shared operation does to a port and sends; requests, responses and channels at their turn. -/

open Sys2Proof

namespace Sys2Proof.Machine

theorem blPort_bumpCnt (s : State) (p i n) : blPort (bumpCnt s p i n) p = { blPort s p with cnt := Tab.upd 0 (blPort s p).cnt i fun w => w + BitVec.ofNat 64 n } := blPort_updBl_at _ _ _

theorem note_keeps_link_state (s : State) (p ev) : (blPort (note s ev) p).st = (blPort s p).st := by
  have := (KeepsLinks.note s ev).1 p
  have := congrArg BlPort.st this
  exact this

theorem note_keeps_time (s : State) (ev) : s.tick ≤ (note s ev).tick := (kept_note (fz := true) (Kept.refl true s)).tick

theorem each_keeps {α : Type} {P : State → Prop} {f : State → α → State} (h : ∀ s x, P s → P (f s x)) : ∀ (l : List α) (s : State), P s → P (each f s l)
  | [], _, hs => hs
  | x :: l, s, hs => by
    have := each_keeps h l (f s x) (h s x hs)
    unfold each at this ⊢
    rw [List.foldl_cons]; exact this

/-! ### What sending does (R279, R281, R300) -/

/-- A port as it is apart from what sending moves: its state is the same, or L1 has become RECOVERY. -/
def SamePort (a b : BlPort) : Prop :=
  (b.st = a.st ∨ (a.st = .l1 ∧ b.st = .recovery)) ∧
    { b with st := a.st, since := a.since, width := a.width, txSeq := a.txSeq, replay := a.replay, unacked := a.unacked
             crd := a.crd, txq := a.txq, cnt := a.cnt } = a

theorem SamePort.refl (a : BlPort) : SamePort a a := ⟨.inl rfl, rfl⟩

theorem SamePort.trans {a b c : BlPort} (h : SamePort a b) (k : SamePort b c) : SamePort a c := by
  refine ⟨?_, ?_⟩
  · rcases h.1 with h1 | ⟨h1, h2⟩ <;> rcases k.1 with k1 | ⟨k1, k2⟩
    · exact .inl (k1.trans h1)
    · exact .inr ⟨h1 ▸ k1, k2⟩
    · exact .inr ⟨h1, k1.trans h2⟩
    · rw [h2] at k1; cases k1
  · have e := congrArg (fun x : BlPort => { x with st := a.st, since := a.since, width := a.width, txSeq := a.txSeq
                                                   replay := a.replay, unacked := a.unacked, crd := a.crd, txq := a.txq, cnt := a.cnt }) k.2
    exact e.trans h.2

/-- What sending flits does to the state: ports move flits and credits, the rest is as it was; no flit given to a port is
lost, and nothing that went out is taken back. -/
structure Sends (s t : State) : Prop where
  frame : t = { s with bl := { s.bl with ports := t.bl.ports }, out := t.out }
  port  : ∀ p, SamePort (blPort s p) (blPort t p)
  flits : ∀ p f, flitOn s p f → flitOn t p f
  out   : KeepsOut s t

theorem Sends.refl (s : State) : Sends s s := ⟨rfl, fun _ => .refl _, fun _ _ h => h, .rfl' rfl⟩

theorem Sends.trans {a b c : State} (h : Sends a b) (k : Sends b c) : Sends a c := by
  refine ⟨?_, fun p => (h.port p).trans (k.port p), fun p f x => k.flits p f (h.flits p f x), h.out.tr k.out⟩
  have e := k.frame
  rw [h.frame] at e
  exact e

theorem Sends.ite {s a b : State} {c : Prop} [Decidable c] (ha : c → Sends s a) (hb : ¬c → Sends s b) : Sends s (if c then a else b) := by
  split
  · exact ha ‹_›
  · exact hb ‹_›

theorem Sends.emit (s : State) (o : Out) : Sends s (emit s o) := ⟨rfl, fun _ => .refl _, fun _ _ h => h, KeepsOut.emit _ _⟩

/-- A change of one port that keeps its flits is a sending. -/
theorem Sends.upd {s : State} {p : Nat} {g : BlPort → BlPort} (hp : SamePort (blPort s p) (g (blPort s p)))
    (hf : ∀ x ∈ (blPort s p).txq ++ (blPort s p).replay, ∃ y ∈ (g (blPort s p)).txq ++ (g (blPort s p)).replay, y.flit = x.flit) :
    Sends s (updBl s p g) := by
  refine ⟨rfl, fun q => ?_, fun q f h => ?_, .rfl' rfl⟩
  · by_cases hq : q = p
    · subst hq; rw [blPort_updBl_at]; exact hp
    · rw [blPort_updBl_apart _ _ _ _ hq]; exact .refl _
  · by_cases hq : q = p
    · subst hq
      obtain ⟨x, hx, rfl⟩ := h
      obtain ⟨y, hy, e⟩ := hf x hx
      exact ⟨y, by rw [blPort_updBl_at]; exact hy, e⟩
    · unfold flitOn; rw [blPort_updBl_apart _ _ _ _ hq]; exact h

theorem Sends.bump (s : State) (p i n) : Sends s (bumpCnt s p i n) := .upd ⟨.inl rfl, rfl⟩ fun x hx => ⟨x, hx, rfl⟩

theorem Sends.ctrl (s : State) (p op b) : Sends s (sendCtrl s p op b) := by
  unfold sendCtrl
  exact .ite (fun _ => .refl _) fun _ => (Sends.emit _ _).trans (.bump _ _ _ _)

/-- A link in L1 wakes (R300). -/
theorem Sends.wake {s : State} {p : Nat} (h : (blPort s p).st = .l1) : Sends s (enterRecovery s p) := by
  unfold enterRecovery sendTs
  dsimp only
  rw [if_pos h]
  have e := Sends.emit s (.lnLpwr p 0)
  have h' : (blPort (Machine.emit s (.lnLpwr p 0)) p).st = .l1 := h
  generalize Machine.emit s (.lnLpwr p 0) = z at e h' ⊢
  have u : Sends z (updBl z p fun b => { b with st := .recovery, since := z.tick, width := 0 }) :=
    Sends.upd ⟨.inr ⟨h', rfl⟩, rfl⟩ fun x hx => ⟨x, hx, rfl⟩
  exact e.trans (u.trans ((Sends.bump _ _ _ _).trans (.ctrl _ _ _ _)))

theorem Sends.credit (s : State) (p vc) : Sends s (creditBack s p vc) := by
  unfold creditBack
  split
  · exact .ctrl _ _ _ _
  · exact .ite (fun _ => .refl _) fun _ => .wake ‹_›
  · exact .refl _

theorem Sends.transmit (s : State) (p : Nat) (f : SentFlit) (hf : f ∈ (blPort s p).txq) :
    Sends s (transmit (updBl s p fun b => { b with txq := b.txq.erase f }) p f) := by
  unfold Machine.transmit
  dsimp only
  have key : ∀ (o : Out) (g : BlPort → BlPort), (∀ b : BlPort, SamePort b (g b) ∧ (g b).txq = b.txq ∧ ∃ n, (g b).replay = b.replay ++ [{ f with seq := n, origin := none }]) →
      Sends s (updBl (Machine.emit (updBl s p fun b => { b with txq := b.txq.erase f }) o) p g) := by
    intro o g hg
    have hb : blPort (updBl (Machine.emit (updBl s p fun b => { b with txq := b.txq.erase f }) o) p g) p = g { blPort s p with txq := (blPort s p).txq.erase f } := by
      rw [blPort_updBl_at]
      show g (blPort (updBl s p _) p) = _
      rw [blPort_updBl_at]
    have ho : ∀ q, q ≠ p → blPort (updBl (Machine.emit (updBl s p fun b => { b with txq := b.txq.erase f }) o) p g) q = blPort s q := by
      intro q hq
      rw [blPort_updBl_apart _ _ _ _ hq]
      show blPort (updBl s p _) q = _
      rw [blPort_updBl_apart _ _ _ _ hq]
    obtain ⟨h1, h2, n, h3⟩ := hg { blPort s p with txq := (blPort s p).txq.erase f }
    refine ⟨rfl, fun q => ?_, fun q x hx => ?_, fun x hx => List.mem_append_left _ hx⟩
    · by_cases hq : q = p
      · subst hq; rw [hb]
        have m : SamePort (blPort s q) { blPort s q with txq := (blPort s q).txq.erase f } := ⟨.inl rfl, rfl⟩
        exact m.trans h1
      · rw [ho q hq]; exact .refl _
    · by_cases hq : q = p
      · subst hq
        obtain ⟨y, hy, rfl⟩ := hx
        unfold flitOn
        rw [hb, h2, h3]
        rcases List.mem_append.1 hy with hy | hy
        · by_cases hyf : y = f
          · subst hyf
            exact ⟨_, List.mem_append_right _ (List.mem_append_right _ (List.mem_singleton.2 rfl)), rfl⟩
          · exact ⟨y, List.mem_append_left _ ((List.mem_erase_of_ne hyf).2 hy), rfl⟩
        · exact ⟨y, List.mem_append_right _ (List.mem_append_left _ hy), rfl⟩
      · unfold flitOn; rw [ho q hq]; exact hx
  split
  · refine Sends.trans (Sends.trans (key _ _ ?_) (.bump _ _ _ _)) (.credit _ _ _)
    exact fun b => ⟨⟨.inl rfl, rfl⟩, rfl, _, rfl⟩
  · refine Sends.trans (key _ _ ?_) (.bump _ _ _ _)
    exact fun b => ⟨⟨.inl rfl, rfl⟩, rfl, _, rfl⟩

theorem Sends.pump (p : Nat) : ∀ (n : Nat) (s : State), Sends s (pumpTx p n s)
  | 0, s => .refl _
  | n + 1, s => by
    unfold pumpTx
    dsimp only
    split
    · exact .refl _
    · split
      · exact .wake (‹_ ∧ _›).1
      · split
        · exact .refl _
        · split
          · exact .refl _
          · rename_i f hf
            exact (Sends.transmit s p f (List.mem_of_find?_eq_some hf)).trans (Sends.pump p n _)

/-- A flit that is queued has been given to its port. -/
theorem Sends.queue (s : State) (p : Nat) (f : SentFlit) : Sends s (queueFlit s p f) ∧ flitOn (queueFlit s p f) p f.flit := by
  unfold queueFlit
  have h : Sends s (updBl s p fun b => { b with txq := b.txq ++ [f] }) :=
    .upd ⟨.inl rfl, rfl⟩ fun x hx => by
      refine ⟨x, ?_, rfl⟩
      rcases List.mem_append.1 hx with hx | hx
      · exact List.mem_append_left _ (List.mem_append_left _ hx)
      · exact List.mem_append_right _ hx
  have hp := Sends.pump p ((blPort s p).txq.length + 1) (updBl s p fun b => { b with txq := b.txq ++ [f] })
  refine ⟨h.trans hp, hp.flits _ _ ⟨f, ?_, rfl⟩⟩
  rw [blPort_updBl_at]
  exact List.mem_append_left _ (List.mem_append_right _ (List.mem_singleton.2 rfl))

theorem Sends.each {α : Type} {f : State → α → State} (h : ∀ s x, Sends s (f s x)) (l : List α) (s : State) : Sends s (each f s l) :=
  each_keeps (P := fun y => Sends s y) (fun y x hy => hy.trans (h y x)) l s (.refl _)

/-- A fold over sendings reaches what the step of one of its items reaches. -/
theorem Sends.each_reaches {α : Type} {f : State → α → State} {P : State → Prop} {l : List α} (x : α) (hx : x ∈ l)
    (hf : ∀ s x, Sends s (f s x)) (hP : ∀ s t, Sends s t → P s → P t) :
    ∀ s : State, (∀ y, Sends s y → P (f y x)) → P (Machine.each f s l) := by
  induction l with
  | nil => cases hx
  | cons y l ih =>
    intro s ho
    unfold Machine.each
    rw [List.foldl_cons]
    rcases List.mem_cons.1 hx with rfl | hx
    · exact hP _ _ (Sends.each hf l _) (ho s (.refl _))
    · exact ih hx (f s y) fun z hz => ho z ((hf s y).trans hz)

theorem Sends.fields {s t : State} (h : Sends s t) : { t.bl with ports := [] } = { s.bl with ports := [] } ∧ t.ps = s.ps ∧ t.mem = s.mem ∧
    t.fc = s.fc ∧ t.build = s.build ∧ t.role = s.role ∧ t.epoch = s.epoch ∧ t.tick = s.tick ∧ t.tp = s.tp := by
  rw [h.frame]; exact ⟨rfl, rfl, rfl, rfl, rfl, rfl, rfl, rfl, rfl⟩

theorem Sends.safe {s t : State} (h : Sends s t) : safeState t = safeState s := by rw [h.frame]; rfl
theorem Sends.nodeId {s t : State} (h : Sends s t) : t.bl.nodeId = s.bl.nodeId := by rw [h.frame]
theorem Sends.assigned {s t : State} (h : Sends s t) : t.bl.assigned = s.bl.assigned := by rw [h.frame]
theorem Sends.board {s t : State} (h : Sends s t) : t.bl.board = s.bl.board := by rw [h.frame]

theorem Sends.portFields {s t : State} (h : Sends s t) (p : Nat) : (blPort t p).stray = (blPort s p).stray ∧
    (blPort t p).peerRole = (blPort s p).peerRole ∧ (blPort t p).node = (blPort s p).node ∧ (blPort t p).retire = (blPort s p).retire := by
  have e := (h.port p).2
  refine ⟨?_, ?_, ?_, ?_⟩
  · have := congrArg BlPort.stray e; exact this
  · have := congrArg BlPort.peerRole e; exact this
  · have := congrArg BlPort.node e; exact this
  · have := congrArg BlPort.retire e; exact this

theorem Sends.linked {s t : State} (h : Sends s t) (p : Nat) : linked t p = linked s p := by
  unfold Machine.linked portExists
  dsimp only
  rw [(h.portFields p).1, show t.build = s.build by rw [h.frame]]
  rcases (h.port p).1 with e | ⟨e, e'⟩
  · rw [e]
  · rw [e, e']; simp

theorem Sends.route {s t : State} (h : Sends s t) (n : Nat) : routeTo t n = routeTo s n := by
  unfold routeTo; rw [h.frame]

theorem Sends.mgmtPort {s t : State} (h : Sends s t) (n : Nat) : mgmtPort t n = mgmtPort s n := by
  unfold Machine.mgmtPort
  have hl : Machine.linked t = Machine.linked s := funext h.linked
  have hp : ∀ p, (blPort t p).peerRole = (blPort s p).peerRole := fun p => (h.portFields p).2.1
  have hn : ∀ p, (blPort t p).node = (blPort s p).node := fun p => (h.portFields p).2.2.1
  rw [hl, h.route, h.board, show t.role = s.role by rw [h.frame], show t.build = s.build by rw [h.frame]]
  split
  · rfl
  · simp only [hp, hn]

theorem makeFlit_plain {s t : State} (h : t.bl.nodeId = s.bl.nodeId) (vc op dst last ctr pl) :
    makeFlit t vc op dst 0 last ctr pl = makeFlit s vc op dst 0 last ctr pl := by
  unfold makeFlit flitBody; dsimp only; rw [if_pos rfl, if_pos rfl, h]

theorem mgmtOn_mono {s t : State} (hn : t.bl.nodeId = s.bl.nodeId) {p : Nat} (hf : ∀ f, flitOn s p f → flitOn t p f) {op dst body}
    (h : mgmtOn s p op dst body) : mgmtOn t p op dst body := by
  intro x hx
  rw [makeFlit_plain hn]
  exact hf _ (h x hx)

theorem Sends.mgmtOn {s t : State} (h : Sends s t) {p op dst body} (k : mgmtOn s p op dst body) : mgmtOn t p op dst body :=
  mgmtOn_mono h.nodeId (fun f => h.flits p f) k

/-- A management message is given to its port, flit by flit (R275). -/
theorem sendMgmt_sends (s : State) (p op dst body) : Sends s (sendMgmt s p op dst body) ∧
    (safeState s = false → mgmtOn (sendMgmt s p op dst body) p op dst body) := by
  unfold sendMgmt
  refine ⟨.ite (fun _ => .refl _) fun _ => Sends.each (fun s x => (Sends.queue s p _).1) _ _, fun hs => ?_⟩
  rw [hs]
  intro x hx
  have key := Sends.each_reaches (f := fun s x => queueFlit s p { vc := 2, key := 0, origin := none, flit := makeFlit s 2 op dst 0 x.1 0 x.2 })
    (P := fun t => flitOn t p (makeFlit s 2 op dst 0 x.1 0 x.2)) (l := msgCuts (mgmtBody body)) x hx (fun s x => (Sends.queue s p _).1)
    (fun a b h k => h.flits _ _ k) s (fun y hy => by
      rw [← makeFlit_plain hy.nodeId]
      exact (Sends.queue y p _).2)
  have hn : (Machine.each (fun s x => queueFlit s p { vc := 2, key := 0, origin := none, flit := makeFlit s 2 op dst 0 x.1 0 x.2 }) s (msgCuts (mgmtBody body))).bl.nodeId = s.bl.nodeId :=
    (Sends.each (fun s x => (Sends.queue s p _).1) _ _).nodeId
  show flitOn (Machine.each _ _ _) p (makeFlit (Machine.each _ _ _) 2 op dst 0 x.1 0 x.2)
  rw [makeFlit_plain hn]
  exact key

theorem mgmtTo_sends (s : State) (op dst body) : Sends s (mgmtTo s op dst body) := by
  unfold mgmtTo
  split
  · exact .ite (fun _ => .refl _) fun _ => .emit _ _
  · split
    · exact (sendMgmt_sends _ _ _ _ _).1
    · exact .refl _

/-- A management message leaves on the port towards its node; one to this node comes back (R275). -/
theorem mgmtTo_gives {s : State} {op dst body} (hs : safeState s = false) :
    (dst = s.bl.nodeId.toNat → s.bl.assigned = true → Out.mgmtSelf op body ∈ (mgmtTo s op dst body).out) ∧
    (∀ p, ¬ (dst = s.bl.nodeId.toNat ∧ s.bl.assigned = true) → mgmtPort s dst = some p → mgmtOn (mgmtTo s op dst body) p op dst body) := by
  refine ⟨fun h1 h2 => ?_, fun p h1 h2 => ?_⟩
  · unfold mgmtTo
    rw [if_pos ⟨h1, h2⟩, hs]
    exact List.mem_append_right _ (List.mem_singleton.2 rfl)
  · unfold mgmtTo
    rw [if_neg h1, h2]
    exact (sendMgmt_sends _ _ _ _ _).2 hs

theorem tellRoot_sends (s : State) : ∃ b, Sends { s with bl := { s.bl with discBusy := b } } (tellRoot s) := by
  unfold tellRoot
  split
  · exact ⟨s.bl.discBusy, .refl _⟩
  · split
    · exact ⟨true, mgmtTo_sends _ _ _ _⟩
    · exact ⟨s.bl.discBusy, mgmtTo_sends _ _ _ _⟩

/-- Sending on other ports does not touch a port that is not up. -/
theorem sendCtrl_apart {s : State} {p q op b} (e : p ≠ q) : blPort (sendCtrl s q op b) p = blPort s p := by
  unfold sendCtrl; split
  · rfl
  · exact blPort_updBl_apart _ _ _ _ e

theorem enterRecovery_apart {s : State} {p q} (e : p ≠ q) : blPort (enterRecovery s q) p = blPort s p := by
  have key : ∀ z : State, blPort z p = blPort s p → blPort (sendTs (bumpCnt (updBl z q fun b => { b with st := .recovery, since := z.tick, width := 0 }) q cRecov 1) q) p = blPort s p := by
    intro z hz
    unfold sendTs
    rw [sendCtrl_apart e]
    unfold bumpCnt
    rw [blPort_updBl_apart _ _ _ _ e, blPort_updBl_apart _ _ _ _ e, hz]
  unfold enterRecovery
  dsimp only
  split
  · exact key _ rfl
  · exact key _ rfl

theorem creditBack_apart {s : State} {p q vc} (h : (blPort s p).st ≠ .active ∧ (blPort s p).st ≠ .l1) :
    blPort (creditBack s q vc) p = blPort s p := by
  unfold creditBack
  by_cases e : p = q
  · subst e
    split
    · exact absurd ‹_› h.1
    · exact absurd ‹_› h.2
    · rfl
  · split
    · exact sendCtrl_apart e
    · split
      · rfl
      · exact enterRecovery_apart e
    · rfl

theorem pumpTx_apart {p q : Nat} (e : p ≠ q) : ∀ (n : Nat) {s : State}, (blPort s p).st ≠ .active ∧ (blPort s p).st ≠ .l1 →
    blPort (pumpTx q n s) p = blPort s p
  | 0, s, _ => rfl
  | n + 1, s, h => by
    unfold pumpTx
    dsimp only
    split
    · rfl
    · split
      · exact enterRecovery_apart e
      · split
        · rfl
        · split
          · rfl
          · rename_i f hf
            have hb : ∀ (o : Out) (g g' : BlPort → BlPort) (i k), blPort (bumpCnt (updBl (emit (updBl s q g) o) q g') q i k) p = blPort s p := by
              intro o g g' i k
              unfold bumpCnt
              rw [blPort_updBl_apart _ _ _ _ e, blPort_updBl_apart _ _ _ _ e]
              exact blPort_updBl_apart _ _ _ _ e
            have ht : blPort (transmit (updBl s q fun b => { b with txq := b.txq.erase f }) q f) p = blPort s p := by
              unfold transmit
              dsimp only
              split
              · rw [creditBack_apart (by rw [hb]; exact h), hb]
              · exact hb _ _ _ _ _
            rw [pumpTx_apart e n (by rw [ht]; exact h), ht]

theorem queueFlit_apart {s : State} {p q f} (e : p ≠ q) (h : (blPort s p).st ≠ .active ∧ (blPort s p).st ≠ .l1) :
    blPort (queueFlit s q f) p = blPort s p := by
  unfold queueFlit
  have hb : blPort (updBl s q fun b => { b with txq := b.txq ++ [f] }) p = blPort s p := blPort_updBl_apart _ _ _ _ e
  rw [pumpTx_apart e _ (by rw [hb]; exact h), hb]

theorem sendMgmt_apart {s : State} {p q op dst body} (e : p ≠ q) (h : (blPort s p).st ≠ .active ∧ (blPort s p).st ≠ .l1) :
    blPort (sendMgmt s q op dst body) p = blPort s p := by
  unfold sendMgmt
  split
  · rfl
  · refine each_keeps (P := fun y => blPort y p = blPort s p) (fun y x hy => ?_) _ _ rfl
    rw [queueFlit_apart e (by rw [hy]; exact h), hy]

theorem mgmtPort_linked {s : State} {n p} (h : mgmtPort s n = some p) : linked s p = true := by
  unfold mgmtPort at h
  split at h
  · cases h
    rename_i hr
    obtain ⟨_, _⟩ := Option.filter_eq_some_iff.1 hr
    assumption
  · have := List.find?_some h
    simp only [Bool.and_eq_true] at this
    exact this.1

/-- A port that is down is left alone by messages. -/
theorem mgmtTo_apart {s : State} {p op dst body} (h : (blPort s p).st ≠ .active ∧ (blPort s p).st ≠ .l1 ∧ (blPort s p).st ≠ .recovery) :
    blPort (mgmtTo s op dst body) p = blPort s p := by
  unfold mgmtTo
  split
  · split <;> rfl
  · split
    · rename_i q hq
      refine sendMgmt_apart (fun e => ?_) ⟨h.1, h.2.1⟩
      subst e
      have := mgmtPort_linked hq
      unfold linked at this
      simp [h.1, h.2.1, h.2.2] at this
    · rfl

theorem tellRoot_apart {s : State} {p} (h : (blPort s p).st ≠ .active ∧ (blPort s p).st ≠ .l1 ∧ (blPort s p).st ≠ .recovery) :
    blPort (tellRoot s) p = blPort s p := by
  unfold tellRoot
  split
  · rfl
  · split
    · exact mgmtTo_apart (s := { s with bl := { s.bl with discBusy := true } }) h
    · exact mgmtTo_apart h

theorem tellRoot_tick (s : State) : (tellRoot s).tick = s.tick := by
  obtain ⟨b, h⟩ := tellRoot_sends s
  exact h.fields.2.2.2.2.2.2.2.1

/-- A link that goes down keeps nothing of its queues (R291). -/
theorem linkDown_clears_port (s : State) (p st) (hst : st ≠ .active ∧ st ≠ .l1 ∧ st ≠ .recovery) :
    (∃ c n, blPort (linkDown s p st) p = { clearLink { blPort s p with safeSent := c } with st := st, since := n }) ∧ s.tick ≤ (linkDown s p st).tick := by
  unfold linkDown
  dsimp only
  have hn := (KeepsLinks.note s { source := srcId 8 p 3 }).1 p
  have ht := note_keeps_time s { source := srcId 8 p 3 }
  generalize note s { source := srcId 8 p 3 } = y at hn ht
  have h1 : blPort y p = { blPort s p with safeSent := (blPort y p).safeSent } := by
    have := congrArg (fun b : BlPort => { b with safeSent := (blPort y p).safeSent }) hn
    exact this
  have h2 : blPort (updBl y p fun b => { clearLink b with st := st, since := y.tick }) p = { clearLink { blPort s p with safeSent := (blPort y p).safeSent } with st := st, since := y.tick } := by
    rw [blPort_updBl_at, h1]
  have h3 : y.tick ≤ (updBl y p fun b => { clearLink b with st := st, since := y.tick }).tick := Nat.le_refl _
  generalize (updBl y p fun b => { clearLink b with st := st, since := y.tick }) = z at h2 h3
  have hz : (blPort z p).st = st := by rw [h2]
  have key : ∀ w : State, blPort w p = blPort z p → z.tick ≤ w.tick → (∃ c n, blPort (tellRoot w) p = { clearLink { blPort s p with safeSent := c } with st := st, since := n }) ∧ s.tick ≤ (tellRoot w).tick := by
    intro w a b
    have e := tellRoot_apart (s := w) (p := p) (by rw [a, hz]; exact hst)
    exact ⟨⟨_, _, e.trans (a.trans h2)⟩, by rw [tellRoot_tick]; omega⟩
  split
  · exact key _ rfl (Nat.le_refl _)
  · exact key _ (mgmtTo_apart (by rw [hz]; exact hst)) (by exact Nat.le_of_eq (mgmtTo_sends _ _ _ _).fields.2.2.2.2.2.2.2.1.symm)

/-- A training failure counts, and the third makes the port FAILED (R277). -/
theorem trainFail_port (s : State) (p) : ∃ u, (if 3 ≤ (blPort s p).fails + 1 then trainFail s p = note u { source := srcId 8 p 2 } ∧ (blPort u p).st = .failed
    else trainFail s p = u ∧ (blPort u p).st = .detect ∧ (blPort u p).waitRetry = true) ∧ (blPort u p).fails = (blPort s p).fails + 1 ∧ (blPort u p).replay = [] ∧ u.tick = s.tick := by
  unfold trainFail
  dsimp only
  split
  · refine ⟨_, ⟨rfl, ?_⟩, ?_, ?_, rfl⟩ <;> rw [blPort_updBl_at, blPort_updBl_at] <;> rfl
  · refine ⟨_, ⟨rfl, ?_, ?_⟩, ?_, ?_, rfl⟩ <;> rw [blPort_updBl_at] <;> rfl

theorem each_emit_out {α : Type} (g : α → Out) : ∀ (l : List α) (s : State), each (fun s x => emit s (g x)) s l = { s with out := s.out ++ l.map g }
  | [], s => by unfold each; simp
  | x :: l, s => by
    have := each_emit_out g l (emit s (g x))
    unfold each at this ⊢
    rw [List.foldl_cons, this]
    simp [emit]

theorem fullCredits_less (vc : Nat) (h : vc < 3) (f : Nat → Nat) : Tab.get 0 (fullCredits.map fun c => (c.1, c.2 - f c.1)) vc = (if vc = 2 then 128 else 448) - f vc := by
  have : vc = 0 ∨ vc = 1 ∨ vc = 2 := by omega
  rcases this with rfl | rfl | rfl <;> rfl

/-- The flits of a replay buffer as INIT numbers them (R278). -/
def renumbered (l : List SentFlit) : List SentFlit := l.zipIdx.map fun x => { x.1 with seq := x.2, tries := 0 }

theorem filter_renumbered (vc : Nat) : ∀ (l : List SentFlit) (k : Nat), (((l.zipIdx k).map fun x => { x.1 with seq := x.2, tries := 0 }).filter fun f => f.vc = vc).length = (l.filter fun f => f.vc = vc).length
  | [], _ => rfl
  | x :: l, k => by
    simp only [List.zipIdx_cons, List.map_cons, List.filter_cons]
    have := filter_renumbered vc l (k + 1)
    split <;> simp [this]

theorem replayNote_port (s : State) (p n) : (∃ c d, blPort (replayNote s p n) p = { blPort s p with cnt := c, safeSent := d }) ∧
    KeepsOut s (replayNote s p n) ∧ s.tick ≤ (replayNote s p n).tick := by
  unfold replayNote
  have ho : KeepsOut s (bumpCnt (bumpCnt s p cReplays n) p cTx n) := .rfl' rfl
  have hb : ∃ c, blPort (bumpCnt (bumpCnt s p cReplays n) p cTx n) p = { blPort s p with cnt := c } := by
    rw [blPort_bumpCnt, blPort_bumpCnt]; exact ⟨_, rfl⟩
  have htk : (bumpCnt (bumpCnt s p cReplays n) p cTx n).tick = s.tick := rfl
  generalize bumpCnt (bumpCnt s p cReplays n) p cTx n = y at ho hb htk ⊢
  have hl := (KeepsLinks.note y { source := srcId 8 p 1 }).1 p
  have hk : KeepsOut y (note y { source := srcId 8 p 1 }) := KeepsOut.report _ _ _
  have ht := note_keeps_time y { source := srcId 8 p 1 }
  generalize note y { source := srcId 8 p 1 } = z at hl hk ht ⊢
  obtain ⟨c, hb⟩ := hb
  refine ⟨⟨c, (blPort z p).safeSent, ?_⟩, ho.tr hk, by omega⟩
  have := congrArg (fun b : BlPort => { b with safeSent := (blPort z p).safeSent }) hl
  rw [hb] at this
  exact this

/-- What INIT leaves of a port (R278, R281). -/
theorem initLink_port (s : State) (p width rate) :
    let b := blPort s p
    let u := initLink s p width rate
    (blPort u p).st = .active ∧
        (blPort u p).width = BitVec.ofNat 8 width ∧ (blPort u p).rate = rate ∧ (blPort u p).rxSeq = 0 ∧
        (blPort u p).txSeq = b.replay.length ∧
        (blPort u p).replay = b.replay.zipIdx.map (fun x => { x.1 with seq := x.2, tries := 0 }) ∧
        (∀ vc < 3, Tab.get 0 (blPort u p).crd vc =
          (if vc = 2 then 128 else 448) - (b.replay.filter fun f => f.vc = vc).length) ∧
        (safeState s = false → ∀ x ∈ b.replay.zipIdx, Out.flit p (stampFlit x.1.flit x.2 none) ∈ u.out) := by
  intro b u
  let ren := b.replay.zipIdx.map fun x => { x.1 with seq := x.2, tries := 0 }
  let used (vc : Nat) : Nat := (ren.filter fun f => f.vc = vc).length
  let g : BlPort → BlPort := fun b =>
    { b with st := .active, width := BitVec.ofNat 8 width, rate := rate, fails := 0, waitRetry := false, rxSeq := 0
             txSeq := ren.length, replay := ren, nakSent := false, unacked := 0, ackAt := s.tick
             crd := fullCredits.map fun c => (c.1, c.2 - used c.1), l1Wait := false, l1Sent := false }
  have hu : u = if ren = [] ∨ safeState (updBl s p g) = true then updBl s p g
      else replayNote { updBl s p g with out := (updBl s p g).out ++ ren.map fun f => Out.flit p (stampFlit f.flit f.seq none) } p ren.length := by
    show (if ren = [] ∨ safeState (updBl s p g) = true then updBl s p g
      else replayNote (each _ (updBl s p g) ren) p ren.length) = _
    rw [each_emit_out]
  have hb0 : blPort (updBl s p g) p = g b := blPort_updBl_at s p g
  have hb : ∃ c d, blPort u p = { g b with cnt := c, safeSent := d } := by
    rw [hu]
    split
    · exact ⟨b.cnt, b.safeSent, hb0⟩
    · obtain ⟨c, d, e⟩ := (replayNote_port { updBl s p g with out := (updBl s p g).out ++ ren.map fun f => Out.flit p (stampFlit f.flit f.seq none) } p ren.length).1
      refine ⟨c, d, e.trans ?_⟩
      rw [show blPort { updBl s p g with out := (updBl s p g).out ++ ren.map fun f => Out.flit p (stampFlit f.flit f.seq none) } p = g b from hb0]
  have hlen : ren.length = b.replay.length := by simp [ren]
  have ho : safeState s = false → ∀ x ∈ b.replay.zipIdx, Out.flit p (stampFlit x.1.flit x.2 none) ∈ u.out := by
    intro hs x hx
    rw [hu, if_neg]
    · apply (replayNote_port _ _ _).2.1
      apply List.mem_append_right
      simp only [ren, List.map_map]
      exact List.mem_map.2 ⟨x, hx, rfl⟩
    · rintro (h | h)
      · have : b.replay = [] := List.length_eq_zero_iff.1 (by rw [← hlen, h]; rfl)
        rw [this] at hx; cases hx
      · have : safeState s = true := h
        rw [hs] at this; cases this
  obtain ⟨c, d, hb⟩ := hb
  rw [hb]
  refine ⟨rfl, rfl, rfl, rfl, hlen, rfl, ?_, ho⟩
  intro vc hv
  show Tab.get 0 (fullCredits.map fun c => (c.1, c.2 - used c.1)) vc = _
  rw [fullCredits_less vc hv used]
  show _ - (List.filter _ (List.map _ _)).length = _
  rw [filter_renumbered]

theorem strayLink_keeps_ports (s : State) (p) : ∃ u d, strayLink s p = u ∧ { blPort u p with safeSent := false } = { blPort s p with safeSent := false, stray := d } ∧ KeepsOut s u := by
  unfold strayLink markStray
  dsimp only
  split
  · split
    · exact ⟨_, (blPort s p).stray, rfl, rfl, .rfl' rfl⟩
    · have hb : blPort (updBl s p fun b => { b with stray := true }) p = { blPort s p with stray := true } := blPort_updBl_at _ _ _
      have ho : KeepsOut s (updBl s p fun b => { b with stray := true }) := .rfl' rfl
      generalize updBl s p (fun b => { b with stray := true }) = y at hb ho ⊢
      refine ⟨_, true, rfl, ?_, ho.tr (KeepsOut.report _ _ _)⟩
      have := (KeepsLinks.note y { source := srcId 8 p 2 }).1 p
      rw [hb] at this
      exact this
  · exact ⟨_, (blPort s p).stray, rfl, rfl, .rfl' rfl⟩

/-- Credits are added to their virtual channel (R281). -/
theorem takeCredits_port (s : State) (p vc n) : ∃ c, blPort (takeCredits s p vc n) p = { blPort s p with crd := c } ∧ (takeCredits s p vc n).out = s.out ∧ (takeCredits s p vc n).tick = s.tick ∧
    ∀ v, Tab.get 0 c v = Tab.get 0 (blPort s p).crd v + if v = vc then n else 0 := by
  unfold takeCredits
  split
  · rename_i h
    refine ⟨(blPort s p).crd, rfl, rfl, rfl, fun v => ?_⟩
    split <;> omega
  · rw [blPort_updBl_at]
    refine ⟨_, rfl, rfl, rfl, fun v => ?_⟩
    by_cases h : v = vc
    · subst h; rw [Tab.get_upd_same, if_pos rfl]
    · rw [Tab.get_upd_other h, if_neg h]; rfl

theorem unackedAfter_length (l : List SentFlit) (a) : (unackedAfter l a).length ≤ l.length ∧ (¬ (unackedAfter l a).length < l.length → unackedAfter l a = l) := by
  unfold unackedAfter
  split
  · rename_i h
    have h1 : (l.dropWhile fun f => decide (f.seq ≠ a)).length ≤ l.length := (List.dropWhile_suffix _).length_le
    have : l ≠ [] := by rintro rfl; simp at h
    have h2 := List.length_pos_iff.2 this
    simp only [List.length_tail]
    refine ⟨by omega, fun hn => absurd (by omega) hn⟩
  · exact ⟨Nat.le_refl _, fun _ => rfl⟩

/-- An ACK takes flits from the replay buffer (R279). -/
theorem takeAck_port (s : State) (p a) : ∃ n, blPort (takeAck s p a) p = { blPort s p with replay := unackedAfter (blPort s p).replay a, ackAt := n } ∧ (takeAck s p a).out = s.out := by
  unfold takeAck
  dsimp only
  have h := unackedAfter_length (blPort s p).replay a
  by_cases hl : (unackedAfter (blPort s p).replay a).length < (blPort s p).replay.length
  · rw [if_pos hl, blPort_updBl_at]; exact ⟨_, rfl, rfl⟩
  · rw [if_neg hl, h.2 hl]; exact ⟨(blPort s p).ackAt, rfl, rfl⟩

/-- RECOVERY keeps the replay buffer (R278). -/
theorem enterRecovery_port (y : State) (p) : (∃ c n, blPort (enterRecovery y p) p = { blPort y p with st := .recovery, since := n, width := 0, cnt := c }) ∧ KeepsOut y (enterRecovery y p) ∧ (enterRecovery y p).tick = y.tick := by
  have key : ∀ z : State, blPort z p = blPort y p → KeepsOut y z → z.tick = y.tick → (∃ c n, blPort (sendTs (bumpCnt (updBl z p fun b => { b with st := .recovery, since := z.tick, width := 0 }) p cRecov 1) p) p = { blPort y p with st := .recovery, since := n, width := 0, cnt := c }) ∧
      KeepsOut y (sendTs (bumpCnt (updBl z p fun b => { b with st := .recovery, since := z.tick, width := 0 }) p cRecov 1) p) ∧ (sendTs (bumpCnt (updBl z p fun b => { b with st := .recovery, since := z.tick, width := 0 }) p cRecov 1) p).tick = y.tick := by
    intro z hb ho ht
    have h1 : ∃ c, blPort (bumpCnt (updBl z p fun b => { b with st := .recovery, since := z.tick, width := 0 }) p cRecov 1) p = { blPort y p with st := .recovery, since := z.tick, width := 0, cnt := c } := by
      rw [blPort_bumpCnt, blPort_updBl_at, hb]; exact ⟨_, rfl⟩
    have h2 : KeepsOut y (bumpCnt (updBl z p fun b => { b with st := .recovery, since := z.tick, width := 0 }) p cRecov 1) := ho.tr (.rfl' rfl)
    have h3 : (bumpCnt (updBl z p fun b => { b with st := .recovery, since := z.tick, width := 0 }) p cRecov 1).tick = y.tick := ht
    generalize bumpCnt (updBl z p fun b => { b with st := .recovery, since := z.tick, width := 0 }) p cRecov 1 = w at h1 h2 h3 ⊢
    obtain ⟨c, h1⟩ := h1
    unfold sendTs sendCtrl
    split
    · exact ⟨⟨c, _, h1⟩, h2, h3⟩
    · rw [blPort_bumpCnt]
      have e : blPort (emit w (.flit p (ctrlFlit 0 (tsPayload w p)))) p = blPort w p := rfl
      rw [e, h1]
      exact ⟨⟨_, z.tick, rfl⟩, h2.tr ((KeepsOut.emit _ _).tr (.rfl' rfl)), h3⟩
  unfold enterRecovery
  dsimp only
  split
  · exact key _ rfl (KeepsOut.emit _ _) rfl
  · exact key _ rfl (.rfl' rfl) rfl

/-- TS goes out with the complex's own values (R276). -/
theorem sendTs_sends (s : State) (p) : (∃ c, blPort (sendTs s p) p = { blPort s p with cnt := c }) ∧ KeepsOut s (sendTs s p) ∧ (sendTs s p).tick = s.tick ∧
    (safeState s = false → Out.flit p (ctrlFlit 0 (tsPayload s p)) ∈ (sendTs s p).out) := by
  unfold sendTs sendCtrl
  split
  · rename_i h
    exact ⟨⟨_, rfl⟩, .rfl' rfl, rfl, fun k => by rw [h] at k; cases k⟩
  · rw [blPort_bumpCnt]
    exact ⟨⟨_, rfl⟩, (KeepsOut.emit _ _).tr (.rfl' rfl), rfl, fun _ => List.mem_append_right _ (List.mem_singleton.2 rfl)⟩

theorem updBl_keeps_out_tick (y : State) (p f) : (updBl y p f).out = y.out ∧ (updBl y p f).tick = y.tick := ⟨rfl, rfl⟩

/-- A replay resends every flit; one that is replayed the fourth time in a row leads to RECOVERY (R280, R278). -/
theorem replayAll_resends (s : State) (p) (h : (blPort s p).replay ≠ []) (ha : (blPort s p).st = .active) :
    let u := replayAll s p
    let b := blPort s p
    (blPort u p).replay = b.replay.map (fun f => { f with tries := f.tries + 1 }) ∧
      (∀ f ∈ b.replay, Out.flit p (stampFlit f.flit f.seq b.ackNow) ∈ u.out) ∧
      ((∀ f ∈ b.replay, f.tries < 3) → (blPort u p).st = .active) ∧
      ((∃ f ∈ b.replay, 3 ≤ f.tries) → (blPort u p).st = .recovery) ∧ s.tick ≤ u.tick := by
  intro u b
  have hu : u = replayAll s p := rfl
  unfold replayAll at hu
  dsimp only at hu
  rw [if_neg (by simp [h, ha]), each_emit_out] at hu
  obtain ⟨⟨c, d, h1⟩, h2, h3⟩ := replayNote_port { s with out := s.out ++ (blPort s p).replay.map fun f => Out.flit p (stampFlit f.flit f.seq (blPort s p).ackNow) } p (blPort s p).replay.length
  generalize replayNote { s with out := s.out ++ (blPort s p).replay.map fun f => Out.flit p (stampFlit f.flit f.seq (blPort s p).ackNow) } p (blPort s p).replay.length = y at hu h1 h2 h3
  have h1' : blPort y p = { b with cnt := c, safeSent := d } := h1
  have hout : ∀ f ∈ b.replay, Out.flit p (stampFlit f.flit f.seq b.ackNow) ∈ y.out := by
    intro f hf
    exact h2 _ (List.mem_append_right _ (List.mem_map.2 ⟨f, hf, rfl⟩))
  obtain ⟨k1, k2⟩ := updBl_keeps_out_tick y p (fun b => { b with replay := b.replay.map fun f => { f with tries := f.tries + 1 }, unacked := 0, ackAt := y.tick })
  have k3 := blPort_updBl_at y p (fun b => { b with replay := b.replay.map fun f => { f with tries := f.tries + 1 }, unacked := 0, ackAt := y.tick })
  generalize (updBl y p fun b => { b with replay := b.replay.map fun f => { f with tries := f.tries + 1 }, unacked := 0, ackAt := y.tick }) = z at hu k1 k2 k3
  have hz : (blPort z p).replay = b.replay.map (fun f => { f with tries := f.tries + 1 }) := by rw [k3, h1']
  have hzs : (blPort z p).st = .active := by rw [k3, h1']; exact ha
  have hany : ((blPort z p).replay.any fun f => decide (4 ≤ f.tries)) = true ↔ ∃ f ∈ b.replay, 3 ≤ f.tries := by
    rw [hz]; simp
  by_cases hc : ∃ f ∈ b.replay, 3 ≤ f.tries
  · rw [if_pos (hany.2 hc)] at hu
    rw [hu]
    obtain ⟨⟨c, n, l1⟩, l2, l3⟩ := enterRecovery_port z p
    rw [l1]
    refine ⟨hz, fun f hf => l2 _ (by rw [k1]; exact hout f hf), fun k => ?_, fun _ => rfl, ?_⟩
    · obtain ⟨f, hf, hf'⟩ := hc
      have := k f hf
      omega
    · rw [l3, k2]; exact h3
  · rw [if_neg (fun k => hc (hany.1 k))] at hu
    rw [hu]
    exact ⟨hz, fun f hf => by rw [k1]; exact hout f hf, fun _ => hzs, fun k => absurd k hc, by rw [k2]; exact h3⟩

theorem takes_means {s : State} {p} (h : takes s p = true) : portExists s p = true ∧ (blPort s p).st = .active ∧ safeState s = false ∧ s.tp.ready = true := by
  unfold takes at h
  simp only [Bool.and_eq_true, decide_eq_true_eq, Bool.not_eq_true'] at h
  exact ⟨h.1.1.1, h.1.1.2, h.1.2, h.2⟩

theorem sendCtrl_sends {s : State} {p op b} (h : safeState s = false) : sendCtrl s p op b = bumpCnt (emit s (.flit p (ctrlFlit op b))) p cTx 1 := by
  unfold sendCtrl; rw [h]; rfl

/-- An announcement goes out on every other inter-board link (R285). -/
theorem announce_floods (s : State) (d but) : Sends s (announce s d but) ∧
    ∀ p ∈ boardLinks s, p ≠ but → safeState s = false → mgmtOn (announce s d but) p opAnnounce 0 (digestBytes d) := by
  have hf : ∀ (y : State) (x : Nat), Sends y (if x = but then y else sendMgmt y x opAnnounce 0 (digestBytes d)) :=
    fun y x => .ite (fun _ => .refl _) fun _ => (sendMgmt_sends _ _ _ _ _).1
  unfold announce
  refine ⟨Sends.each hf _ _, fun p hp hb hs => ?_⟩
  refine Sends.each_reaches (f := fun s p => if p = but then s else sendMgmt s p opAnnounce 0 (digestBytes d))
    (P := fun t => mgmtOn t p opAnnounce 0 (digestBytes d)) p hp hf (fun a b h k => h.mgmtOn k) s fun y hy => ?_
  rw [if_neg hb]
  exact (sendMgmt_sends _ _ _ _ _).2 (by rw [hy.safe]; exact hs)

/-- Discovery starts with the own digest and those that have come (R285). -/
theorem startDiscovery_floods (s : State) : let t := startDiscovery s
    t.bl.heard = identityDigest s :: (if s.bl.discBusy then s.bl.heard.filter (· ≠ identityDigest s) else []) ∧
      t.bl.discBusy = true ∧ t.bl.started = true ∧
      t.bl.discRes = 0 ∧ ∀ p ∈ boardLinks s, p ≠ 0xFF → safeState s = false →
        mgmtOn t p opAnnounce 0 (digestBytes (identityDigest s)) := by
  intro t
  have h := announce_floods { s with bl := { s.bl with discBusy := true, discRes := 0, started := true, heard := identityDigest s :: (if s.bl.discBusy then s.bl.heard.filter (· ≠ identityDigest s) else []), tree := [] } } (identityDigest s) 0xFF
  have ht : t = announce { s with bl := { s.bl with discBusy := true, discRes := 0, started := true, heard := identityDigest s :: (if s.bl.discBusy then s.bl.heard.filter (· ≠ identityDigest s) else []), tree := [] } } (identityDigest s) 0xFF := rfl
  have hb := h.1.fields.1
  rw [← ht] at hb h
  exact ⟨congrArg Bl.heard hb, congrArg Bl.discBusy hb, congrArg Bl.started hb, congrArg Bl.discRes hb, h.2⟩

/-- A message for each item is given to its port. -/
theorem each_sendMgmt_sends {α : Type} (g : α → Nat) (o : α → Nat) (d : α → Nat) (b : State → α → List Byte) (l : List α) (s : State)
    (hb : ∀ y x, Sends s y → b y x = b s x) :
    let t := each (fun s x => sendMgmt s (g x) (o x) (d x) (b s x)) s l
    Sends s t ∧ ∀ x ∈ l, safeState s = false → mgmtOn t (g x) (o x) (d x) (b s x) := by
  intro t
  have hf : ∀ (y : State) (x : α), Sends y (sendMgmt y (g x) (o x) (d x) (b y x)) := fun y x => (sendMgmt_sends _ _ _ _ _).1
  refine ⟨Sends.each hf l s, fun x hx hs => ?_⟩
  refine Sends.each_reaches (f := fun s x => sendMgmt s (g x) (o x) (d x) (b s x)) (P := fun t => mgmtOn t (g x) (o x) (d x) (b s x))
    x hx hf (fun a b h k => h.mgmtOn k) s fun y hy => ?_
  have := (sendMgmt_sends y (g x) (o x) (d x) (b y x)).2 (by rw [hy.safe]; exact hs)
  rw [hb y x hy] at this
  rw [hb y x hy]
  exact this

/-- A manager takes its board and assigns its workers (R285). -/
theorem takeBoard_assigns (s : State) (n : Nat) : let t := takeBoard s n
    { t.bl with ports := [] } = { { s.bl with board := BitVec.ofNat 6 n, pos := 0, nodeId := BitVec.ofNat 10 (16 * n), assigned := true } with ports := [] } ∧
    safeState t = safeState s ∧ t.build = s.build ∧ t.role = s.role ∧ t.ps = s.ps ∧ KeepsOut s t ∧ (∀ p, linked t p = linked s p ∧ (blPort t p).peerRole = (blPort s p).peerRole) ∧
    ∀ p ∈ workerPorts s, safeState s = false → mgmtOn t p opAssign (16 * n + p + 1) (leBytes 2 (16 * n + p + 1)) := by
  intro t
  let y : State := { s with bl := { s.bl with board := BitVec.ofNat 6 n, pos := 0, nodeId := BitVec.ofNat 10 (16 * n), assigned := true } }
  let f : State → Nat → State := fun s p => sendMgmt (updBl s p fun b => { b with node := some (BitVec.ofNat 10 (16 * n + p + 1)) }) p opAssign (16 * n + p + 1) (leBytes 2 (16 * n + p + 1))
  have ht : t = each f y (workerPorts y) := rfl
  let Q : State → State → Prop := fun a b => { b.bl with ports := [] } = { a.bl with ports := [] } ∧ safeState b = safeState a ∧ b.build = a.build ∧ b.role = a.role ∧ b.ps = a.ps ∧ KeepsOut a b ∧
    (∀ p, linked b p = linked a p ∧ (blPort b p).peerRole = (blPort a p).peerRole) ∧ (∀ p g, flitOn a p g → flitOn b p g)
  have qt : ∀ {a b c}, Q a b → Q b c → Q a c := fun h k => ⟨k.1.trans h.1, k.2.1.trans h.2.1, k.2.2.1.trans h.2.2.1, k.2.2.2.1.trans h.2.2.2.1, k.2.2.2.2.1.trans h.2.2.2.2.1, h.2.2.2.2.2.1.tr k.2.2.2.2.2.1,
    fun p => ⟨(k.2.2.2.2.2.2.1 p).1.trans (h.2.2.2.2.2.2.1 p).1, (k.2.2.2.2.2.2.1 p).2.trans (h.2.2.2.2.2.2.1 p).2⟩, fun p g x => k.2.2.2.2.2.2.2 p g (h.2.2.2.2.2.2.2 p g x)⟩
  have qs : ∀ {a b}, Sends a b → Q a b := fun h => ⟨h.fields.1, h.safe, h.fields.2.2.2.2.1, h.fields.2.2.2.2.2.1, h.fields.2.1, h.out, fun p => ⟨h.linked p, (h.portFields p).2.1⟩, h.flits⟩
  have qu : ∀ (a : State) (p : Nat) (v), Q a (updBl a p fun b => { b with node := v }) := by
    intro a p v
    have hb : ∀ q, { blPort (updBl a p fun b => { b with node := v }) q with node := none } = { blPort a q with node := none } := by
      intro q
      by_cases e : q = p
      · subst e; rw [blPort_updBl_at]
      · rw [blPort_updBl_apart _ _ _ _ e]
    refine ⟨rfl, rfl, rfl, rfl, rfl, .rfl' rfl, fun q => ⟨?_, by have := congrArg BlPort.peerRole (hb q); exact this⟩, fun q g hx => ?_⟩
    · unfold linked
      dsimp only
      rw [show (blPort (updBl a p fun b => { b with node := v }) q).st = (blPort a q).st by have := congrArg BlPort.st (hb q); exact this,
        show (blPort (updBl a p fun b => { b with node := v }) q).stray = (blPort a q).stray by have := congrArg BlPort.stray (hb q); exact this]
      rfl
    · unfold flitOn
      rw [show (blPort (updBl a p fun b => { b with node := v }) q).txq = (blPort a q).txq by have := congrArg BlPort.txq (hb q); exact this,
        show (blPort (updBl a p fun b => { b with node := v }) q).replay = (blPort a q).replay by have := congrArg BlPort.replay (hb q); exact this]
      exact hx
  have qf : ∀ a p, Q a (f a p) := fun a p => qt (qu a p _) (qs (sendMgmt_sends _ _ _ _ _).1)
  have q0 : Q y y := ⟨rfl, rfl, rfl, rfl, rfl, .rfl' rfl, fun _ => ⟨rfl, rfl⟩, fun _ _ h => h⟩
  have qe := fun l => each_keeps (P := fun z => Q y z) (f := f) (fun a x h => qt h (qf a x)) l y q0
  have hq := qe (workerPorts y)
  rw [← ht] at hq
  refine ⟨hq.1, hq.2.1, hq.2.2.1, hq.2.2.2.1, hq.2.2.2.2.1, KeepsOut.tr (b := y) (.rfl' rfl) hq.2.2.2.2.2.1, hq.2.2.2.2.2.2.1, ?_⟩
  intro p hp hs
  have key : ∀ (l : List Nat) (a : State), p ∈ l → safeState a = false → mgmtOn (each f a l) p opAssign (16 * n + p + 1) (leBytes 2 (16 * n + p + 1)) := by
    intro l
    induction l with
    | nil => intro a h; cases h
    | cons x l ih =>
      intro a h ha
      unfold each
      rw [List.foldl_cons]
      rcases List.mem_cons.1 h with rfl | h
      · have h1 := (sendMgmt_sends (updBl a p fun b => { b with node := some (BitVec.ofNat 10 (16 * n + p + 1)) }) p opAssign (16 * n + p + 1) (leBytes 2 (16 * n + p + 1))).2 ha
        have h2 := each_keeps (P := fun z => Q (f a p) z) (f := f) (fun b x h => qt h (qf b x)) l (f a p) ⟨rfl, rfl, rfl, rfl, rfl, .rfl' rfl, fun _ => ⟨rfl, rfl⟩, fun _ _ h => h⟩
        exact mgmtOn_mono (by have := congrArg Bl.nodeId h2.1; exact this) (h2.2.2.2.2.2.2.2 p) h1
      · exact ih (f a x) h (by rw [(qf a x).2.1]; exact ha)
  rw [ht]
  exact key _ y hp hs

/-- A message for each node is given to the port towards it; one for this node comes back. -/
theorem each_mgmtTo_sends {α : Type} (o : Nat) (d : α → Nat) (b : State → α → List Byte) (l : List α) (s : State)
    (hb : ∀ y x, Sends s y → b y x = b s x) :
    let t := each (fun s x => mgmtTo s o (d x) (b s x)) s l
    Sends s t ∧ ∀ x ∈ l, safeState s = false →
      (d x = s.bl.nodeId.toNat → s.bl.assigned = true → Out.mgmtSelf o (b s x) ∈ t.out) ∧
      (∀ p, ¬ (d x = s.bl.nodeId.toNat ∧ s.bl.assigned = true) → mgmtPort s (d x) = some p → mgmtOn t p o (d x) (b s x)) := by
  intro t
  have hf : ∀ (y : State) (x : α), Sends y (mgmtTo y o (d x) (b y x)) := fun y x => mgmtTo_sends _ _ _ _
  refine ⟨Sends.each hf l s, fun n hn hs => ⟨fun h1 h2 => ?_, fun p h1 h2 => ?_⟩⟩
  · refine Sends.each_reaches (f := fun s x => mgmtTo s o (d x) (b s x)) (P := fun t => Out.mgmtSelf o (b s n) ∈ t.out) n hn hf (fun a b h k => h.out _ k) s fun y hy => ?_
    have := (mgmtTo_gives (s := y) (op := o) (dst := d n) (body := b y n) (by rw [hy.safe]; exact hs)).1 (by rw [hy.nodeId]; exact h1) (by rw [hy.assigned]; exact h2)
    rw [hb y n hy] at this
    rw [hb y n hy]
    exact this
  · refine Sends.each_reaches (f := fun s x => mgmtTo s o (d x) (b s x)) (P := fun t => mgmtOn t p o (d n) (b s n)) n hn hf (fun a b h k => h.mgmtOn k) s fun y hy => ?_
    have := (mgmtTo_gives (s := y) (op := o) (dst := d n) (body := b y n) (by rw [hy.safe]; exact hs)).2 p (by rw [hy.nodeId, hy.assigned]; exact h1) (by rw [hy.mgmtPort]; exact h2)
    rw [hb y n hy] at this
    rw [hb y n hy]
    exact this

/-- A key that is installed starts its counters at 0 (R294). -/
theorem clearNonces_install (s : State) (key : Nat) (x : KeySlot) (rank : Nat) :
    let y := updKey s key fun _ => x
    let u := clearNonces { y with ps := { y.ps with lastKey := Tab.set 0 y.ps.lastKey key rank } } key
    keySlot u key = x ∧ (∀ e ∈ u.bl.nonces, e.1 % 256 ≠ key) ∧ Tab.get 0 u.ps.lastKey key = rank := by
  intro y u
  refine ⟨?_, fun e he => ?_, ?_⟩
  · show keySlot y key = x
    exact keySlot_updKey _ _ _
  · have := (List.mem_filter.1 he).2
    simpa using this
  · exact Tab.get_set_same

/-- A directory goes to every READY node (R316). -/
theorem floodDir_sends (s : State) (slot : Nat) (body : List Byte) : let t := floodDir s slot body
    t.bl.shardOp.busy = true ∧ t.bl.shardWait = readyNodes s ∧ ∀ n ∈ readyNodes s, safeState s = false →
      (n = s.bl.nodeId.toNat → s.bl.assigned = true → Out.mgmtSelf opShardDir (leBytes 1 slot ++ body) ∈ t.out) ∧
      (∀ p, ¬ (n = s.bl.nodeId.toNat ∧ s.bl.assigned = true) → mgmtPort s n = some p → mgmtOn t p opShardDir n (leBytes 1 slot ++ body)) := by
  intro t
  have h := each_mgmtTo_sends opShardDir id (fun _ _ => leBytes 1 slot ++ body) (readyNodes s) s (fun _ _ _ => rfl)
  exact ⟨rfl, rfl, h.2⟩

theorem dirOf_updDir (s : State) (d f) : dirOf (updDir s d f) d = f (dirOf s d) := Tab.get_upd_same

/-- A request at the head of its source is served. -/
theorem onRequest_serves {s m op msg f} (h : RequestAt s m op msg) : onRequest s m op f = .next (f msg) := by
  unfold onRequest
  rw [h.inbox]
  dsimp only
  rw [if_pos ⟨h.op, h.works, h.first⟩]

/-- A response is given to the request that it answers. -/
theorem onResponse_answers {s m op msg k r f} (h : ResponseAt s m op msg) (ha : Answers s msg k r) :
    onResponse s m op f = match f (answered s m k) msg k r with | some s' => .next s' | none => .next (late (dropMsg s m)) := by
  unfold onResponse
  rw [h.inbox]
  dsimp only
  rw [if_neg (by simp [h.op, h.works])]
  have : reqOf (dropMsg s m) msg = some (k, r) := by
    unfold reqOf
    show Option.map _ (Tab.find? s.bl.reqs _) = _
    rw [← ha.key, ha.req]
    rfl
  rw [this]
  rfl

/-- A response that answers nothing counts in LATE (R303). -/
theorem onResponse_late {s m op msg f} (h : ResponseAt s m op msg) (ha : Tab.find? s.bl.reqs (msg.src.toNat * 4096 + leAt msg.payload 0 2 % 4096) = none) :
    onResponse s m op f = .next (late (dropMsg s m)) := by
  unfold onResponse
  rw [h.inbox]
  dsimp only
  rw [if_neg (by simp [h.op, h.works])]
  have : reqOf (dropMsg s m) msg = none := by
    unfold reqOf
    show Option.map _ (Tab.find? s.bl.reqs _) = _
    rw [ha]
    rfl
  rw [this]

theorem settleRun_at_work (s : State) (bus ch) (h : (chan s ch).st = .running ∨ (chan s ch).st = .waiting) : settleRun s bus ch = s := by
  unfold settleRun
  split
  · rfl
  · rw [if_pos]
    left
    rcases h with h | h <;> simp [h]

theorem onInstr_runs {s : State} {ch op r f} (h : ChannelAt s ch op r) : onInstr s ch op f = f r := by
  unfold onInstr
  rw [h.run]
  dsimp only
  rw [if_pos ⟨h.works, h.st, h.pc, h.op⟩]

theorem updRun_keeps_state (s : State) (ch f) : (chan (updRun s ch f) ch).run = (chan s ch).run.map f ∧ (chan (updRun s ch f) ch).st = (chan s ch).st := by
  unfold updRun; rw [chan_updChan]; exact ⟨rfl, rfl⟩

end Sys2Proof.Machine
end

