-- ==== Sys2Proof/Laws/Home.lean ====
section
/-! SUPPORT. The home on lines that no agent holds, and what its answers leave alone. -/

open Sys2Proof

namespace Sys2Proof.Machine

theorem answerBarriers_keeps_out {o : Out} (core : Nat) : ∀ (l : List HeldBar) (s : State), o ∈ s.out → o ∈ (l.foldl (fun s b =>
    let r : HResp := { opc := 5, id := b.txn.toNat }
    if 0 < (corePort s core).hrsp then
      emit (updCore s core fun c => { c with hrsp := c.hrsp - 1 }) (.hrsp core r)
    else updCore s core fun c => { c with hrspQ := c.hrspQ ++ [(r, none)] }) s).out := by
  intro l
  induction l with
  | nil => intro s h; exact h
  | cons b l ih =>
    intro s h
    rw [List.foldl_cons]
    apply ih
    dsimp only
    split
    · simp only [emit_out, updCore_out, List.mem_append]; exact .inl h
    · exact h

/-- What answering a near core leaves: memory, the directory, the queue, and what was sent. -/
structure HomeKeeps (s t : State) : Prop where
  mem : t.mem = s.mem
  dir : t.ch.dir = s.ch.dir
  queue : t.ch.queue = s.ch.queue
  out : ∀ o ∈ s.out, o ∈ t.out

theorem HomeKeeps.trans {a b c : State} (h : HomeKeeps a b) (k : HomeKeeps b c) : HomeKeeps a c :=
  ⟨k.1.trans h.1, k.2.trans h.2, k.3.trans h.3, fun o ho => k.4 o (h.4 o ho)⟩

theorem HomeKeeps.after {a b c : State} (k : HomeKeeps b c) (h : HomeKeeps a b) : HomeKeeps a c := h.trans k

theorem answerBarriers_fold_keeps (core : Nat) : ∀ (l : List HeldBar) (s : State), HomeKeeps s (l.foldl (fun s b =>
    let r : HResp := { opc := 5, id := b.txn.toNat }
    if 0 < (corePort s core).hrsp then
      emit (updCore s core fun c => { c with hrsp := c.hrsp - 1 }) (.hrsp core r)
    else updCore s core fun c => { c with hrspQ := c.hrspQ ++ [(r, none)] }) s) := by
  intro l
  induction l with
  | nil => intro s; exact ⟨rfl, rfl, rfl, fun _ h => h⟩
  | cons b l ih =>
    intro s
    rw [List.foldl_cons]
    refine (ih _).after ?_
    dsimp only
    split
    · exact ⟨rfl, rfl, rfl, fun o h => by simp only [emit_out, updCore_out, List.mem_append]; exact .inl h⟩
    · exact ⟨rfl, rfl, rfl, fun o h => h⟩

theorem answerBarriers_keeps (s : State) (core : Nat) : HomeKeeps s (answerBarriers s core) := by
  unfold answerBarriers
  dsimp only
  exact (answerBarriers_fold_keeps core _ _).after ⟨rfl, rfl, rfl, fun _ h => h⟩

theorem closeReq_keeps (s : State) (core : Nat) (txn : Byte) : HomeKeeps s (closeReq s core txn) := by
  unfold closeReq
  exact (answerBarriers_keeps _ _).after ⟨rfl, rfl, rfl, fun _ h => h⟩

theorem endTrans_keeps (s : State) (line : Nat) : HomeKeeps s (endTrans s line) := by
  unfold endTrans
  split
  · exact ⟨rfl, rfl, rfl, fun _ h => h⟩
  · dsimp only
    repeat' split
    all_goals first
      | exact ⟨rfl, rfl, rfl, fun _ h => h⟩
      | exact (closeReq_keeps _ _ _).after ⟨rfl, rfl, rfl, fun _ h => h⟩

theorem respond_answers (s : State) (core line : Nat) (r : HResp) (h : 0 < (corePort s core).hrsp) :
    HomeKeeps s (respond s core line r) ∧ .hrsp core r ∈ (respond s core line r).out := by
  unfold respond
  rw [if_pos h]
  have k := endTrans_keeps (emit (updCore s core fun c => { c with hrsp := c.hrsp - 1 }) (.hrsp core r)) line
  refine ⟨k.after ⟨rfl, rfl, rfl, fun o h => ?_⟩, k.out _ ?_⟩
  · simp only [emit_out, updCore_out, List.mem_append]; exact .inl h
  · simp only [emit_out, updCore_out, List.mem_append, List.mem_singleton]; exact .inr trivial

theorem memRead_one_line {v : Via} {s : State} {a n : Nat} (hn : 0 < n) (hl : a / 64 = (a + n - 1) / 64) (hi : mayIssue s v (a / 64) = true)
    (hp : Tab.find? s.mem.poison (a / 64) = none) : memRead v [] s a n = (s, .ok, s.mem.bytes s.free a n) := by
  have e : linesOf a n = [a / 64] := by
    unfold linesOf
    rw [if_neg (by omega), show (a + n - 1) / 64 + 1 - a / 64 = 1 by omega]
    simp [range]
  have st : lineStatus s v [] (a / 64) true = .ok := by simp [lineStatus, hi, busAt, hp]
  unfold memRead
  simp [e, st, reportBus]

theorem memWrite_one_line {v : Via} {s : State} {a : Nat} {bs : List Byte} (hn : 0 < bs.length) (hl : a / 64 = (a + bs.length - 1) / 64) (hi : mayIssue s v (a / 64) = true) :
    memWrite v [] s a bs false = ({ s with mem := s.mem.writeLine a bs false }, .ok) := by
  have e : linesOf a bs.length = [a / 64] := by
    unfold linesOf
    rw [if_neg (by omega), show (a + bs.length - 1) / 64 + 1 - a / 64 = 1 by omega]
    simp [range]
  have st : lineStatus s v [] (a / 64) false = .ok := by simp [lineStatus, hi, busAt, busAtW]
  have sl : lineSlice a bs (a / 64) = (a, bs) := by
    unfold lineSlice
    have hm : max a (64 * (a / 64)) = a := by omega
    rw [hm]
    simp only [Nat.sub_self, List.drop_zero]
    rw [List.take_of_length_le (by omega)]
  unfold memWrite
  simp [e, st, reportBus, sl]
-- the request's path to the home

theorem openReq_keeps_mem (s : State) (core : Nat) (txn : Byte) (op : HomeOp) : (openReq s core txn op).mem = s.mem := rfl

theorem pumpHome_empty (bus : Bus) (n : Nat) (s : State) (h : s.ch.queue = []) : pumpHome bus n s = s := by
  cases n with
  | zero => rfl
  | succ n => unfold pumpHome; rw [h]; rfl
/-- State in which the home starts the request. -/

def started (s : State) (core : Nat) (txn : Byte) (op : HomeOp) (d : Nat) : State :=
  openReq (emit s (.homeCredits core 1 0 d)) core txn op

theorem openReq_keeps_credit {s : State} {core : Nat} {txn op} : (corePort (openReq s core txn op) core).hrsp = (corePort s core).hrsp := by
  unfold openReq; rw [corePort_updCore]

theorem homeRequest_unheld {s : State} {r : HomeReq} (hq : s.ch.queue = []) (ht : Tab.find? s.ch.trans (r.addr / 64) = none)
    (hf : needsWay s r = false) (hr : readWaits s r = false)
    (hpl : ∀ e, dirEnt s (r.addr / 64) = some e → sendSnoops s (r.addr / 64) e (snoopPlan s e r) = (s, [])) :
    homeRequest s r [] = pumpHome [] 3 (finishTrans { s with ch := { s.ch with trans := Tab.insert s.ch.trans (r.addr / 64) ⟨r, [], none, false, false, false, false, 0⟩, queue := [] } } (r.addr / 64) ⟨r, [], none, false, false, false, false, 0⟩ []) := by
  unfold homeRequest wakeHome
  simp only [hq, List.nil_append, List.length_singleton]
  rw [show 2 * 1 + 2 = 3 + 1 from rfl, pumpHome]
  have e2 : needsWay { s with ch := { s.ch with queue := [r] } } r = needsWay s r := rfl
  have e3 : readWaits { s with ch := { s.ch with queue := [r] } } r = readWaits s r := rfl
  have e1 : nextFree ({ s with ch := { s.ch with queue := [r] } } : State) [r] [] = some r := by
    simp [nextFree, homeWaits, e2, e3, hf, hr, ht]
  simp only [e1, e2, hf]
  have e4 : ([r].erase r : List HomeReq) = [] := by simp
  have es : ({ s with ch := { s.ch with queue := [] } } : State) = s := by
    have : s.ch = { s.ch with queue := [] } := by rw [← hq]
    rw [← this]
  simp only [e4, Bool.false_eq_true, if_false]
  rw [es]
  have ek : s.ch = { s.ch with queue := [] } := by rw [← hq]
  unfold beginTrans
  dsimp only
  cases hd : dirEnt s (r.addr / 64) with
  | none => simp only [if_true, hq]
  | some e => simp only [hpl e hd, if_true, hq]

/-- A port that the home hears no longer waits for READY. -/
theorem coreEarly_of_hears {s core} (h : coreHears s core = true) : coreEarly s core = false := by
  unfold coreHears at h
  simp only [Bool.and_eq_true] at h
  simp [coreEarly, h.1.2]

theorem coreReq_serves {s core req op w f p} (h : CoreMayAsk s core req p) (hf : op.formed = true) (ha : req.addr.toNat % op.align = 0) :
    coreReq s core req op w f = .next (f (emit s (.homeCredits core 1 0 (if w then 1 else 0)))) := by
  unfold coreReq
  rw [if_neg (by simp [coreEarly_of_hears h.hears]), if_neg (by simp [h.hears]), if_neg (by simp [h.up]),
    if_neg (by simp [h.free]), if_neg (by simp [badReq, h.rsv, hf, ha])]

theorem coreServe_asks_home {s core req op p} (h : CoreMayAsk s core req p) :
    coreServe s [] core op req = homeRequest (openReq s core req.txn op) ⟨op, core, req.txn, req.addr.toNat, false, some p⟩ [] := by
  unfold coreServe
  have o1 : ∀ x, partClosing (openReq s core req.txn op) x = partClosing s x := fun _ => rfl
  simp only [h.owner, Option.any_some, h.open_, Bool.false_eq_true, if_false, h.pa, Bool.not_false, if_true, h.window, Bool.false_and]
  unfold corePhys
  have o3 : partCoversAt (openReq s core req.txn op) p (some s.nextId) req.addr.toNat = true := h.covers
  rw [if_neg (by simp [o3, h.window]), if_neg (by simp)]
  rfl

theorem CoreMayAsk.emit {s core req p o} (h : CoreMayAsk s core req p) : CoreMayAsk (emit s o) core req p :=
  ⟨h.1, h.2, h.3, h.4, h.5, h.6, h.7, h.8, h.9⟩

theorem line_base (a : Nat) (h : a % 64 = 0) : 64 * (a / 64) = a := by omega

theorem grantLine_answers {core line txn grant e} {x : State} {b : List Byte} (h : 0 < (corePort x core).hrsp) :
    HomeKeeps (setDir x line e) (grantLine core line txn (x, .ok, b) grant e) ∧
    .hrsp core { opc := 1, id := txn.toNat, grant := grant, line := line, data := b } ∈ (grantLine core line txn (x, .ok, b) grant e).out := by
  unfold grantLine
  rw [if_pos rfl]
  refine respond_answers _ _ _ _ ?_
  cases e <;> exact h

theorem LineAtRest.open {s : State} {core p line req op d} (h : LineAtRest s core p line) :
    LineAtRest (openReq (emit s (.homeCredits core 1 0 d)) core req op) core p line :=
  ⟨h.queue, h.trans, by rw [openReq_keeps_credit]; exact h.credit, h.issue, h.clean⟩

/-- The home's advertisement of its credits (R50) sends one beat to each port that the build has, and changes nothing else. -/
theorem advertise_sends (s : State) : ∃ o, advertise s = { s with out := s.out ++ o } ∧
    ∀ p < 32, s.build.cpPresent.getLsbD p = true → Out.homeCredits p 16 8 8 ∈ o := by
  unfold advertise
  have key : ∀ (l : List Nat) (s : State), ∃ o, each (fun s p => emit s (.homeCredits p 16 8 8)) s l = { s with out := s.out ++ o } ∧
      ∀ p ∈ l, Out.homeCredits p 16 8 8 ∈ o := by
    intro l
    induction l with
    | nil => exact fun s => ⟨[], by simp [each], by simp⟩
    | cons x l ih =>
      intro s
      obtain ⟨o, h1, h2⟩ := ih (emit s (.homeCredits x 16 8 8))
      refine ⟨.homeCredits x 16 8 8 :: o, ?_, ?_⟩
      · unfold each at h1 ⊢
        rw [List.foldl_cons, h1]
        simp [emit]
      · intro p hp
        rcases List.mem_cons.1 hp with rfl | hp
        · exact List.mem_cons_self ..
        · exact List.mem_cons_of_mem _ (h2 p hp)
  obtain ⟨o, h1, h2⟩ := key _ s
  exact ⟨o, h1, fun p hp hb => h2 p (by simp [hp, hb])⟩

end Sys2Proof.Machine
end

