-- ==== Sys2Proof/Laws/KeptHome.lean ====
section
/-! SUPPORT. What the definitions of Machine/Home.lean keep (`Kept`). -/

namespace Sys2Proof.Machine

theorem kept_sendSnoop {fz o} {s a1 a2 a3 a4} (h : Kept fz o s) :
    Kept fz o (sendSnoop s a1 a2 a3 a4).1 := by
  unfold sendSnoop
  try dsimp only
  repeat' first
    | with_reducible assumption
    | intro _
    | dsimp only
    | with_reducible first | apply kept_emit | apply kept_updCore | apply kept_each | apply kept_foldl | apply kept_foldl1 | apply kept_ite | apply kept_ite1 | apply Memory.wf_put | apply Memory.wf_putByte | apply Memory.wf_fail | apply Memory.wf_zero | apply Memory.wf_poison | apply Memory.wf_unpoison | apply Memory.wf_mark | apply Memory.wf_writeLine | apply Memory.wf_foldl | apply Memory.wf_settle
    | with_reducible (refine Kept.upd rfl ?_; first | assumption)

theorem kept_dropWalkLine {fz o} {s a1} (h : Kept fz o s) :
    Kept fz o (dropWalkLine s a1) := by
  unfold dropWalkLine
  try dsimp only
  repeat' first
    | with_reducible assumption
    | intro _
    | dsimp only
    | with_reducible first | apply kept_each | apply kept_foldl | apply kept_foldl1 | apply kept_ite | apply kept_ite1 | apply Memory.wf_put | apply Memory.wf_putByte | apply Memory.wf_fail | apply Memory.wf_zero | apply Memory.wf_poison | apply Memory.wf_unpoison | apply Memory.wf_mark | apply Memory.wf_writeLine | apply Memory.wf_foldl | apply Memory.wf_settle
    | with_reducible (refine Kept.upd rfl ?_; first | assumption)

theorem kept_sendSnoops {fz o} {s a1 a2 a3} (h : Kept fz o s) :
    Kept fz o (sendSnoops s a1 a2 a3).1 := by
  unfold sendSnoops
  try dsimp only
  repeat' first
    | with_reducible assumption
    | intro _
    | dsimp only
    | with_reducible first | apply kept_sendSnoop | apply kept_dropWalkLine | apply kept_each | apply kept_foldl | apply kept_foldl1 | apply kept_ite | apply kept_ite1 | apply Memory.wf_put | apply Memory.wf_putByte | apply Memory.wf_fail | apply Memory.wf_zero | apply Memory.wf_poison | apply Memory.wf_unpoison | apply Memory.wf_mark | apply Memory.wf_writeLine | apply Memory.wf_foldl | apply Memory.wf_settle
    | with_reducible (refine Kept.upd rfl ?_; first | assumption | refine kept_ofP ?_ (by assumption))

theorem kept_answerBarriers {fz o} {s a1} (h : Kept fz o s) :
    Kept fz o (answerBarriers s a1) := by
  unfold answerBarriers
  try dsimp only
  repeat' first
    | with_reducible assumption
    | intro _
    | dsimp only
    | with_reducible first | apply kept_updCore | apply kept_emit | apply kept_each | apply kept_foldl | apply kept_foldl1 | apply kept_ite

theorem kept_closeReq {fz o} {s a1 a2} (h : Kept fz o s) :
    Kept fz o (closeReq s a1 a2) := by
  unfold closeReq
  try dsimp only
  repeat' first
    | with_reducible assumption
    | intro _
    | dsimp only
    | with_reducible first | apply kept_answerBarriers | apply kept_updCore

theorem kept_endTrans {fz o} {s a1} (h : Kept fz o s) :
    Kept fz o (endTrans s a1) := by
  unfold endTrans
  try dsimp only
  repeat' first
    | with_reducible assumption
    | intro _
    | dsimp only
    | with_reducible first | apply kept_closeReq | apply kept_each | apply kept_foldl | apply kept_foldl1 | apply kept_ite | apply kept_ite1 | apply Memory.wf_put | apply Memory.wf_putByte | apply Memory.wf_fail | apply Memory.wf_zero | apply Memory.wf_poison | apply Memory.wf_unpoison | apply Memory.wf_mark | apply Memory.wf_writeLine | apply Memory.wf_foldl | apply Memory.wf_settle
    | with_reducible (refine Kept.upd rfl ?_; first | assumption | apply kept_closeReq | apply kept_each | apply kept_foldl | apply kept_foldl1 | apply kept_ite | apply kept_ite1)
    | with_reducible (refine Kept.updMem rfl ?_ ?_; rotate_left; first | assumption | apply kept_closeReq | apply kept_each | apply kept_foldl | apply kept_foldl1 | apply kept_ite | apply kept_ite1)
    | split

theorem kept_respond {fz o} {s a1 a2 a3} (h : Kept fz o s) :
    Kept fz o (respond s a1 a2 a3) := by
  unfold respond
  try dsimp only
  repeat' first
    | with_reducible assumption
    | intro _
    | dsimp only
    | with_reducible first | apply kept_endTrans | apply kept_emit | apply kept_updCore | apply kept_each | apply kept_foldl | apply kept_foldl1 | apply kept_ite | apply kept_ite1 | apply Memory.wf_put | apply Memory.wf_putByte | apply Memory.wf_fail | apply Memory.wf_zero | apply Memory.wf_poison | apply Memory.wf_unpoison | apply Memory.wf_mark | apply Memory.wf_writeLine | apply Memory.wf_foldl | apply Memory.wf_settle
    | with_reducible (refine Kept.upd rfl ?_; first | assumption | apply kept_endTrans | apply kept_emit | apply kept_updCore)

theorem kept_setDir {fz o} {s a1 a2} (h : Kept fz o s) :
    Kept fz o (setDir s a1 a2) := by
  unfold setDir
  try dsimp only
  repeat' first
    | with_reducible assumption
    | intro _
    | dsimp only
    | with_reducible first | apply kept_each | apply kept_foldl | apply kept_foldl1 | apply kept_ite | apply kept_ite1 | apply Memory.wf_put | apply Memory.wf_putByte | apply Memory.wf_fail | apply Memory.wf_zero | apply Memory.wf_poison | apply Memory.wf_unpoison | apply Memory.wf_mark | apply Memory.wf_writeLine | apply Memory.wf_foldl | apply Memory.wf_settle
    | with_reducible (refine Kept.upd rfl ?_; first | assumption | apply kept_each | apply kept_foldl | apply kept_foldl1 | apply kept_ite | apply kept_ite1)
    | with_reducible (refine Kept.updMem rfl ?_ ?_; rotate_left; first | assumption | apply kept_each | apply kept_foldl | apply kept_foldl1 | apply kept_ite | apply kept_ite1)
    | split

theorem kept_grantLine {fz o} {a0 a1 a2 a3 a4 a5} (h3 : Kept fz o a3.1) :
    Kept fz o (grantLine a0 a1 a2 a3 a4 a5) := by
  unfold grantLine
  try dsimp only
  repeat' first
    | with_reducible assumption
    | intro _
    | dsimp only
    | with_reducible first | apply kept_respond | apply kept_setDir | apply kept_each | apply kept_foldl | apply kept_foldl1 | apply kept_ite

theorem kept_lineData {fz o} {s a1 a2 a3 a4} (h : Kept fz o s) :
    Kept fz o (lineData s a1 a2 a3 a4).1 := by
  unfold lineData
  try dsimp only
  repeat' first
    | with_reducible assumption
    | intro _
    | dsimp only
    | with_reducible first | apply kept_memRead | apply kept_each | apply kept_foldl | apply kept_foldl1 | apply kept_ite | apply kept_ite1 | apply Memory.wf_put | apply Memory.wf_putByte | apply Memory.wf_fail | apply Memory.wf_zero | apply Memory.wf_poison | apply Memory.wf_unpoison | apply Memory.wf_mark | apply Memory.wf_writeLine | apply Memory.wf_foldl | apply Memory.wf_settle
    | with_reducible (refine Kept.upd rfl ?_; first | assumption | apply kept_memRead | apply kept_each | apply kept_foldl | apply kept_foldl1 | apply kept_ite | apply kept_ite1 | refine kept_ofP ?_ (by assumption))
    | with_reducible (refine Kept.updMem rfl ?_ ?_; rotate_left; first | assumption | apply kept_memRead | apply kept_each | apply kept_foldl | apply kept_foldl1 | apply kept_ite | apply kept_ite1 | refine kept_ofP ?_ (by assumption))
    | refine kept_ofP ?_ (by assumption)
    | split

theorem kept_countOwner {fz o} {s a1} (h : Kept fz o s) :
    Kept fz o (countOwner s a1) := by
  unfold countOwner
  try dsimp only
  repeat' first
    | with_reducible assumption
    | intro _
    | dsimp only
    | with_reducible first | apply kept_each | apply kept_foldl | apply kept_foldl1 | apply kept_ite | apply kept_ite1 | apply Memory.wf_put | apply Memory.wf_putByte | apply Memory.wf_fail | apply Memory.wf_zero | apply Memory.wf_poison | apply Memory.wf_unpoison | apply Memory.wf_mark | apply Memory.wf_writeLine | apply Memory.wf_foldl | apply Memory.wf_settle
    | with_reducible (refine Kept.upd rfl ?_; first | assumption)

theorem kept_offerStash {fz o} {s a1 a2} (h : Kept fz o s) :
    Kept fz o (offerStash s a1 a2) := by
  unfold offerStash
  try dsimp only
  repeat' first
    | with_reducible assumption
    | intro _
    | dsimp only
    | with_reducible first | apply kept_sendSnoop | apply kept_each | apply kept_foldl | apply kept_foldl1 | apply kept_ite | apply kept_ite1 | apply Memory.wf_put | apply Memory.wf_putByte | apply Memory.wf_fail | apply Memory.wf_zero | apply Memory.wf_poison | apply Memory.wf_unpoison | apply Memory.wf_mark | apply Memory.wf_writeLine | apply Memory.wf_foldl | apply Memory.wf_settle
    | with_reducible (refine Kept.upd rfl ?_; first | assumption | apply kept_sendSnoop | refine kept_ofP ?_ (by assumption))

theorem kept_finishTrans {fz o} {s a1 a2 a3} (h : Kept fz o s) :
    Kept fz o (finishTrans s a1 a2 a3) := by
  unfold finishTrans
  try dsimp only
  repeat' first
    | with_reducible assumption
    | intro _
    | dsimp only
    | with_reducible first | apply kept_grantLine | apply kept_lineData | apply kept_setDir | apply kept_countOwner | apply kept_respond | apply kept_memWrite | apply kept_memRead | apply kept_endTrans | apply kept_offerStash | apply kept_each | apply kept_foldl | apply kept_foldl1 | apply kept_ite | apply kept_ite1 | apply Memory.wf_put | apply Memory.wf_putByte | apply Memory.wf_fail | apply Memory.wf_zero | apply Memory.wf_poison | apply Memory.wf_unpoison | apply Memory.wf_mark | apply Memory.wf_writeLine | apply Memory.wf_foldl | apply Memory.wf_settle
    | with_reducible (refine Kept.upd rfl ?_; first | assumption | apply kept_grantLine | apply kept_lineData | apply kept_setDir | apply kept_countOwner | apply kept_respond | apply kept_memWrite | apply kept_memRead | apply kept_endTrans | apply kept_offerStash | apply kept_each | apply kept_foldl | apply kept_foldl1 | apply kept_ite | apply kept_ite1 | refine kept_ofP ?_ (by assumption))
    | with_reducible (refine Kept.updMem rfl ?_ ?_; rotate_left; first | assumption | apply kept_grantLine | apply kept_lineData | apply kept_setDir | apply kept_countOwner | apply kept_respond | apply kept_memWrite | apply kept_memRead | apply kept_endTrans | apply kept_offerStash | apply kept_each | apply kept_foldl | apply kept_foldl1 | apply kept_ite | apply kept_ite1 | refine kept_ofP ?_ (by assumption))
    | refine kept_ofP ?_ (by assumption)
    | split

theorem kept_beginTrans {fz o} {s a1 a2} (h : Kept fz o s) :
    Kept fz o (beginTrans s a1 a2) := by
  unfold beginTrans
  try dsimp only
  repeat' first
    | with_reducible assumption
    | intro _
    | dsimp only
    | with_reducible first | apply kept_sendSnoops | apply kept_finishTrans | apply kept_each | apply kept_foldl | apply kept_foldl1 | apply kept_ite | apply kept_ite1 | apply Memory.wf_put | apply Memory.wf_putByte | apply Memory.wf_fail | apply Memory.wf_zero | apply Memory.wf_poison | apply Memory.wf_unpoison | apply Memory.wf_mark | apply Memory.wf_writeLine | apply Memory.wf_foldl | apply Memory.wf_settle
    | with_reducible (refine Kept.upd rfl ?_; first | assumption | apply kept_sendSnoops | apply kept_finishTrans | apply kept_each | apply kept_foldl | apply kept_foldl1 | apply kept_ite | apply kept_ite1 | refine kept_ofP ?_ (by assumption))
    | with_reducible (refine Kept.updMem rfl ?_ ?_; rotate_left; first | assumption | apply kept_sendSnoops | apply kept_finishTrans | apply kept_each | apply kept_foldl | apply kept_foldl1 | apply kept_ite | apply kept_ite1 | refine kept_ofP ?_ (by assumption))
    | refine kept_ofP ?_ (by assumption)
    | split

theorem kept_pumpHome {fz o} {a0 a1 s} (h : Kept fz o s) :
    Kept fz o (pumpHome a0 a1 s) := by
  induction a1 generalizing s with
  | zero =>
    unfold pumpHome
    try dsimp only
    repeat' first
      | with_reducible assumption
  | succ n ih =>
    unfold pumpHome
    try dsimp only
    repeat' first
      | with_reducible assumption
      | intro _
      | dsimp only
      | with_reducible first | apply kept_beginTrans | apply ih | apply kept_each | apply kept_foldl | apply kept_foldl1 | apply kept_ite | apply kept_ite1 | apply Memory.wf_put | apply Memory.wf_putByte | apply Memory.wf_fail | apply Memory.wf_zero | apply Memory.wf_poison | apply Memory.wf_unpoison | apply Memory.wf_mark | apply Memory.wf_writeLine | apply Memory.wf_foldl | apply Memory.wf_settle
      | with_reducible (refine Kept.upd rfl ?_; first | assumption | apply kept_beginTrans | apply ih | apply kept_each | apply kept_foldl | apply kept_foldl1 | apply kept_ite | apply kept_ite1)
      | with_reducible (refine Kept.updMem rfl ?_ ?_; rotate_left; first | assumption | apply kept_beginTrans | apply ih | apply kept_each | apply kept_foldl | apply kept_foldl1 | apply kept_ite | apply kept_ite1)
      | split

theorem kept_wakeHome {fz o} {a0 s} (h : Kept fz o s) : Kept fz o (wakeHome a0 s) := kept_pumpHome h

theorem kept_snoopAnswer {fz o} {s a1 a2 a3 a4 a5 a6} (h : Kept fz o s) :
    Kept fz o (snoopAnswer s a1 a2 a3 a4 a5 a6) := by
  unfold snoopAnswer
  try dsimp only
  repeat' first
    | with_reducible assumption
    | intro _
    | dsimp only
    | with_reducible first | apply kept_finishTrans | apply kept_wakeHome | apply kept_pumpHome | apply kept_each | apply kept_foldl | apply kept_foldl1 | apply kept_ite | apply kept_ite1 | apply Memory.wf_put | apply Memory.wf_putByte | apply Memory.wf_fail | apply Memory.wf_zero | apply Memory.wf_poison | apply Memory.wf_unpoison | apply Memory.wf_mark | apply Memory.wf_writeLine | apply Memory.wf_foldl | apply Memory.wf_settle
    | with_reducible (refine Kept.upd rfl ?_; first | assumption | apply kept_finishTrans | apply kept_wakeHome | apply kept_pumpHome | apply kept_each | apply kept_foldl | apply kept_foldl1 | apply kept_ite | apply kept_ite1)
    | with_reducible (refine Kept.updMem rfl ?_ ?_; rotate_left; first | assumption | apply kept_finishTrans | apply kept_wakeHome | apply kept_pumpHome | apply kept_each | apply kept_foldl | apply kept_foldl1 | apply kept_ite | apply kept_ite1)
    | split

theorem kept_holdLine {fz o} {s a1 a2} (h : Kept fz o s) : Kept fz o (holdLine s a1 a2) := by
  unfold holdLine
  split
  · exact h
  · split
    · exact kept_setDir h
    · split
      · exact h
      · exact kept_setDir h

theorem kept_countOwn {fz o} {s a1 a2} (h : Kept fz o s) : Kept fz o (countOwn s a1 a2) := by
  unfold countOwn
  split
  · exact Kept.upd rfl h
  · exact h

theorem kept_dropCopies {fz o} {s a1 a2 a3} (h : Kept fz o s) :
    Kept fz o (dropCopies s a1 a2 a3) := by
  unfold dropCopies
  exact kept_each (fun _ _ k => kept_setDir (kept_dropWalkLine (kept_countOwn k))) h

theorem kept_homeWrite {fz o} {a0 a1 s a3 a4} (h : Kept fz o s) :
    Kept fz o (homeWrite a0 a1 s a3 a4).1 := by
  unfold homeWrite
  try dsimp only
  repeat' first
    | with_reducible assumption
    | intro _
    | dsimp only
    | with_reducible first | apply kept_memWrite | apply kept_dropCopies

theorem kept_homeRead {fz o} {a0 a1 s a3 a4} (h : Kept fz o s) :
    Kept fz o (homeRead a0 a1 s a3 a4).1 := by
  unfold homeRead
  dsimp only
  split
  · split
    · exact kept_each (fun _ _ k => kept_holdLine k) (kept_memRead h)
    · exact kept_memRead h
  · exact kept_memRead h

theorem kept_homeAtomic {fz o} {a0 a1 s a3 a4} (h : Kept fz o s) :
    Kept fz o (homeAtomic a0 a1 s a3 a4).1 := by
  unfold homeAtomic
  try dsimp only
  repeat' first
    | with_reducible assumption
    | intro _
    | dsimp only
    | with_reducible first | apply kept_homeRead | apply kept_homeWrite | apply kept_each | apply kept_foldl | apply kept_foldl1 | apply kept_ite | apply kept_ite1 | apply Memory.wf_put | apply Memory.wf_putByte | apply Memory.wf_fail | apply Memory.wf_zero | apply Memory.wf_poison | apply Memory.wf_unpoison | apply Memory.wf_mark | apply Memory.wf_writeLine | apply Memory.wf_foldl | apply Memory.wf_settle
    | with_reducible (refine Kept.upd rfl ?_; first | assumption | apply kept_homeRead | apply kept_homeWrite | refine kept_ofP ?_ (by assumption))

theorem kept_respondFree {fz o} {s a1 a2} (h : Kept fz o s) :
    Kept fz o (respondFree s a1 a2) := by
  unfold respondFree
  try dsimp only
  repeat' first
    | with_reducible assumption
    | intro _
    | dsimp only
    | with_reducible first | apply kept_emit | apply kept_updCore | apply kept_closeReq | apply kept_each | apply kept_foldl | apply kept_foldl1 | apply kept_ite

theorem kept_homeRequest {fz o} {s a1 a2} (h : Kept fz o s) :
    Kept fz o (homeRequest s a1 a2) := by
  unfold homeRequest
  try dsimp only
  repeat' first
    | with_reducible assumption
    | intro _
    | dsimp only
    | with_reducible first | apply kept_wakeHome | apply kept_pumpHome | apply kept_each | apply kept_foldl | apply kept_foldl1 | apply kept_ite | apply kept_ite1 | apply Memory.wf_put | apply Memory.wf_putByte | apply Memory.wf_fail | apply Memory.wf_zero | apply Memory.wf_poison | apply Memory.wf_unpoison | apply Memory.wf_mark | apply Memory.wf_writeLine | apply Memory.wf_foldl | apply Memory.wf_settle
    | with_reducible (refine Kept.upd rfl ?_; first | assumption)

theorem kept_homeReady {fz o} {s a1 a2 a3 a4 a5} (h : Kept fz o s) :
    Kept fz o (homeReady s a1 a2 a3 a4 a5).1 := by
  unfold homeReady
  try dsimp only
  repeat' first
    | with_reducible assumption
    | intro _
    | dsimp only
    | with_reducible first | apply kept_homeRequest | apply kept_each | apply kept_foldl | apply kept_foldl1 | apply kept_ite | apply kept_ite1

end Sys2Proof.Machine
end

