-- ==== Sys2Proof/Laws/KeptTranslate.lean ====
section
/-! SUPPORT. What the definitions of Machine/Translate.lean keep (`Kept`). -/

namespace Sys2Proof.Machine

theorem kept_keepWalkLine {fz o} {s a1 a2 a3} (h : Kept fz o s) :
    Kept fz o (keepWalkLine s a1 a2 a3) := by
  unfold keepWalkLine
  try dsimp only
  repeat' first
    | with_reducible assumption
    | intro _
    | dsimp only
    | with_reducible first | apply kept_setDir | apply kept_each | apply kept_foldl | apply kept_foldl1 | apply kept_ite | apply kept_ite1
    | with_reducible (refine Kept.upd rfl ?_; first | assumption | apply kept_setDir | apply kept_each | apply kept_foldl | apply kept_foldl1 | apply kept_ite | apply kept_ite1)
    | split

theorem kept_readTable {fz o} {a0 a1 s a3 a4 a5} (h : Kept fz o s) :
    Kept fz o (readTable a0 a1 s a3 a4 a5).1 := by
  unfold readTable
  try dsimp only
  repeat' first
    | with_reducible assumption
    | intro _
    | dsimp only
    | with_reducible first | apply kept_homeReady | apply kept_homeRead | apply kept_keepWalkLine | apply kept_each | apply kept_foldl | apply kept_foldl1 | apply kept_ite | apply kept_ite1
    | with_reducible (refine Kept.upd rfl ?_; first | assumption | apply kept_homeReady | apply kept_homeRead | apply kept_keepWalkLine | apply kept_each | apply kept_foldl | apply kept_foldl1 | apply kept_ite | apply kept_ite1 | refine kept_ofP ?_ (by assumption))
    | refine kept_ofP ?_ (by assumption)
    | split

theorem kept_traceVa {fz o} {s a1 a2} (h : Kept fz o s) :
    Kept fz o (traceVa s a1 a2) := by
  unfold traceVa
  try dsimp only
  repeat' first
    | with_reducible assumption
    | intro _
    | dsimp only
    | with_reducible first | apply kept_traceAdd

theorem kept_invDrop {fz o} {s a1 a2} (h : Kept fz o s) :
    Kept fz o (invDrop s a1 a2) := by
  unfold invDrop
  try dsimp only
  repeat' first
    | with_reducible assumption
    | intro _
    | dsimp only
    | with_reducible first | apply kept_each | apply kept_foldl | apply kept_foldl1 | apply kept_ite | apply kept_ite1
    | with_reducible (refine Kept.upd rfl ?_; first | assumption)

theorem kept_walkFrom {fz o} {a0 a1 a2 a3 a4 a5 s} (h : Kept fz o s) :
    Kept fz o (walkFrom a0 a1 a2 a3 a4 a5 s).1 := by
  induction a4 generalizing a5 s with
  | zero =>
    unfold walkFrom
    try dsimp only
    repeat' first
      | with_reducible assumption
      | intro _
      | dsimp only
      | with_reducible first | apply kept_readTable | apply kept_each | apply kept_foldl | apply kept_foldl1 | apply kept_ite | apply kept_ite1
      | with_reducible (refine Kept.upd rfl ?_; first | assumption | apply kept_readTable | apply kept_each | apply kept_foldl | apply kept_foldl1 | apply kept_ite | apply kept_ite1 | refine kept_ofP ?_ (by assumption))
      | refine kept_ofP ?_ (by assumption)
      | split
  | succ n ih =>
    unfold walkFrom
    try dsimp only
    repeat' first
      | with_reducible assumption
      | intro _
      | dsimp only
      | with_reducible first | apply kept_readTable | apply ih | apply kept_each | apply kept_foldl | apply kept_foldl1 | apply kept_ite | apply kept_ite1
      | with_reducible (refine Kept.upd rfl ?_; first | assumption | apply kept_readTable | apply ih | apply kept_each | apply kept_foldl | apply kept_foldl1 | apply kept_ite | apply kept_ite1 | refine kept_ofP ?_ (by assumption))
      | refine kept_ofP ?_ (by assumption)
      | split

theorem kept_walk {fz o} {s a1 a2 a3 a4} (h : Kept fz o s) :
    Kept fz o (walk s a1 a2 a3 a4).1 := by
  unfold walk
  try dsimp only
  repeat' first
    | with_reducible assumption
    | intro _
    | dsimp only
    | with_reducible first | apply kept_walkFrom | apply kept_each | apply kept_foldl | apply kept_foldl1 | apply kept_ite | apply kept_ite1
    | with_reducible (refine Kept.upd rfl ?_; first | assumption | apply kept_walkFrom | apply kept_each | apply kept_foldl | apply kept_foldl1 | apply kept_ite | apply kept_ite1 | refine kept_ofP ?_ (by assumption))
    | refine kept_ofP ?_ (by assumption)
    | split

theorem kept_holdFault {fz o} {s a1 a2 a3 a4} (h : Kept fz o s) :
    Kept fz o (holdFault s a1 a2 a3 a4).1 := by
  unfold holdFault
  try dsimp only
  repeat' first
    | with_reducible assumption
    | intro _
    | dsimp only
    | with_reducible first | apply kept_report | apply kept_msix | apply kept_each | apply kept_foldl | apply kept_foldl1 | apply kept_ite | apply kept_ite1
    | with_reducible (refine Kept.upd rfl ?_; first | assumption | apply kept_report | apply kept_msix | apply kept_each | apply kept_foldl | apply kept_foldl1 | apply kept_ite | apply kept_ite1)
    | split

theorem kept_failTr {fz o} {s a1 a2 a3 a4} (h : Kept fz o s) :
    Kept fz o (failTr s a1 a2 a3 a4).1 := by
  unfold failTr
  try dsimp only
  repeat' first
    | with_reducible assumption
    | intro _
    | dsimp only
    | with_reducible first | apply kept_holdFault | apply kept_each | apply kept_foldl | apply kept_foldl1 | apply kept_ite | apply kept_ite1

theorem kept_tlbFill {fz o} {s a1 a2 a3 a4} (h : Kept fz o s) :
    Kept fz o (tlbFill s a1 a2 a3 a4) := by
  unfold tlbFill
  try dsimp only
  repeat' first
    | with_reducible assumption
    | intro _
    | dsimp only
    | with_reducible first | apply kept_each | apply kept_foldl | apply kept_foldl1 | apply kept_ite | apply kept_ite1
    | with_reducible (refine Kept.upd rfl ?_; first | assumption)

theorem kept_translate {fz o} {s a1 a2} (h : Kept fz o s) :
    Kept fz o (translate s a1 a2).1 := by
  unfold translate
  try dsimp only
  repeat' first
    | with_reducible assumption
    | intro _
    | dsimp only
    | with_reducible first | apply kept_traceVa | apply kept_walk | apply kept_failTr | apply kept_tlbFill | apply kept_each | apply kept_foldl | apply kept_foldl1 | apply kept_ite | apply kept_ite1
    | with_reducible (refine Kept.upd rfl ?_; first | assumption | apply kept_traceVa | apply kept_walk | apply kept_failTr | apply kept_tlbFill | apply kept_each | apply kept_foldl | apply kept_foldl1 | apply kept_ite | apply kept_ite1 | refine kept_ofP ?_ (by assumption))
    | refine kept_ofP ?_ (by assumption)
    | split

theorem kept_vaRead {fz o} {s a1 a2 a3 a4 a5} (h : Kept fz o s) :
    Kept fz o (vaRead s a1 a2 a3 a4 a5).1 := by
  unfold vaRead
  try dsimp only
  repeat' first
    | with_reducible assumption
    | intro _
    | dsimp only
    | with_reducible first | apply kept_translate | apply kept_homeReady | apply kept_homeRead | apply kept_memRead | apply kept_each | apply kept_foldl | apply kept_foldl1 | apply kept_ite | apply kept_ite1
    | with_reducible (refine Kept.upd rfl ?_; first | assumption | apply kept_translate | apply kept_homeReady | apply kept_homeRead | apply kept_memRead | apply kept_each | apply kept_foldl | apply kept_foldl1 | apply kept_ite | apply kept_ite1 | refine kept_ofP ?_ (by assumption))
    | refine kept_ofP ?_ (by assumption)
    | split

theorem kept_dropCtxEntries {fz o} {s a1} (h : Kept fz o s) :
    Kept fz o (dropCtxEntries s a1) := by
  unfold dropCtxEntries
  try dsimp only
  repeat' first
    | with_reducible assumption
    | intro _
    | dsimp only
    | with_reducible first | apply kept_invDrop

theorem kept_vaWrite {fz o} {s a1 a2 a3 a4 a5} (h : Kept fz o s) :
    Kept fz o (vaWrite s a1 a2 a3 a4 a5).1 := by
  unfold vaWrite
  try dsimp only
  repeat' first
    | with_reducible assumption
    | intro _
    | dsimp only
    | with_reducible first | apply kept_translate | apply kept_homeReady | apply kept_homeWrite | apply kept_memWrite | apply kept_each | apply kept_foldl | apply kept_foldl1 | apply kept_ite | apply kept_ite1
    | with_reducible (refine Kept.upd rfl ?_; first | assumption | apply kept_translate | apply kept_homeReady | apply kept_homeWrite | apply kept_memWrite | apply kept_each | apply kept_foldl | apply kept_foldl1 | apply kept_ite | apply kept_ite1 | refine kept_ofP ?_ (by assumption))
    | refine kept_ofP ?_ (by assumption)
    | split

end Sys2Proof.Machine
end

