-- ==== Sys2Proof/Laws/KeptAct.lean ====
section
/-! SUPPORT. What the definitions of Machine/Act.lean keep (`Kept`). -/

namespace Sys2Proof.Machine

theorem keptA_homePut {fz o} {a0 a1 a2 a3}  :
    KeptA fz o (homePut a0 a1 a2 a3) := by
  unfold homePut
  try dsimp only
  repeat' first
    | with_reducible assumption
    | intro _
    | dsimp only
    | with_reducible first | apply kept_homeReady | apply kept_homeWrite | apply kept_each | apply kept_foldl | apply kept_foldl1 | apply keptA_pure | apply keptA_bind_get | apply keptA_bind | apply keptA_modify | apply keptA_throw | apply keptA_get | apply keptA_set | apply keptA_ite | apply keptA_act | apply kept_endOk | apply kept_endError | apply kept_endIte | apply kept_ite | apply kept_ite1
    | with_reducible (refine Kept.upd rfl ?_; first | assumption | apply kept_homeReady | apply kept_homeWrite | apply kept_each | apply kept_foldl | apply kept_foldl1 | apply kept_ite | apply kept_ite1 | refine keptA_ok ?_ ?_ (by assumption) | refine keptA_error ?_ ?_ (by assumption) | refine kept_ofP ?_ (by assumption))
    | refine keptA_ok ?_ ?_ (by assumption)
    | refine keptA_error ?_ ?_ (by assumption)
    | refine kept_ofP ?_ (by assumption)
    | split
    | refine keptA_fun ?_

theorem keptA_homeSwap {fz o} {a0 a1 a2 a3}  :
    KeptA fz o (homeSwap a0 a1 a2 a3) := by
  unfold homeSwap
  try dsimp only
  repeat' first
    | with_reducible assumption
    | intro _
    | dsimp only
    | with_reducible first | apply kept_homeReady | apply kept_homeAtomic | apply kept_each | apply kept_foldl | apply kept_foldl1 | apply keptA_pure | apply keptA_bind_get | apply keptA_bind | apply keptA_modify | apply keptA_throw | apply keptA_get | apply keptA_set | apply keptA_ite | apply keptA_act | apply kept_endOk | apply kept_endError | apply kept_endIte | apply kept_ite | apply kept_ite1
    | with_reducible (refine Kept.upd rfl ?_; first | assumption | apply kept_homeReady | apply kept_homeAtomic | apply kept_each | apply kept_foldl | apply kept_foldl1 | apply kept_ite | apply kept_ite1 | refine keptA_ok ?_ ?_ (by assumption) | refine keptA_error ?_ ?_ (by assumption) | refine kept_ofP ?_ (by assumption))
    | refine keptA_ok ?_ ?_ (by assumption)
    | refine keptA_error ?_ ?_ (by assumption)
    | refine kept_ofP ?_ (by assumption)
    | split
    | refine keptA_fun ?_

theorem keptA_lineRead {fz o} {a0 a1 a2} : KeptA fz o (lineRead a0 a1 a2) := by
  unfold lineRead
  exact keptA_act fun _ k => kept_vaRead k

theorem keptA_engRead {fz o} {a0 a1 a2 a3}  :
    KeptA fz o (engRead a0 a1 a2 a3) := by
  unfold engRead
  try dsimp only
  repeat' first
    | with_reducible assumption
    | intro _
    | dsimp only
    | with_reducible first | apply kept_vaRead | apply kept_each | apply kept_foldl | apply kept_foldl1 | apply keptA_pure | apply keptA_bind_get | apply keptA_bind | apply keptA_modify | apply keptA_throw | apply keptA_get | apply keptA_set | apply keptA_ite | apply keptA_act

theorem keptA_homeFree {fz o} {a0 a1 a2 a3}  :
    KeptA fz o (homeFree a0 a1 a2 a3) := by
  unfold homeFree
  try dsimp only
  repeat' first
    | with_reducible assumption
    | intro _
    | dsimp only
    | with_reducible first | apply kept_homeReady | apply kept_each | apply kept_foldl | apply kept_foldl1 | apply keptA_pure | apply keptA_bind_get | apply keptA_bind | apply keptA_modify | apply keptA_throw | apply keptA_get | apply keptA_set | apply keptA_ite | apply keptA_act | apply kept_endOk | apply kept_endError | apply kept_endIte | apply kept_ite | apply kept_ite1
    | with_reducible (refine Kept.upd rfl ?_; first | assumption | apply kept_homeReady | apply kept_each | apply kept_foldl | apply kept_foldl1 | apply kept_ite | apply kept_ite1 | refine keptA_ok ?_ ?_ (by assumption) | refine keptA_error ?_ ?_ (by assumption) | refine kept_ofP ?_ (by assumption))
    | refine keptA_ok ?_ ?_ (by assumption)
    | refine keptA_error ?_ ?_ (by assumption)
    | refine kept_ofP ?_ (by assumption)
    | split
    | refine keptA_fun ?_
    | with_reducible apply KeptA.ends

theorem keptA_vaPut {fz o} {a0 a1 a2 a3 a4}  :
    KeptA fz o (vaPut a0 a1 a2 a3 a4) := by
  unfold vaPut
  try dsimp only
  repeat' first
    | with_reducible assumption
    | intro _
    | dsimp only
    | with_reducible first | apply kept_vaWrite | apply kept_each | apply kept_foldl | apply kept_foldl1 | apply keptA_pure | apply keptA_bind_get | apply keptA_bind | apply keptA_modify | apply keptA_throw | apply keptA_get | apply keptA_set | apply keptA_ite | apply keptA_act | apply kept_endOk | apply kept_endError | apply kept_endIte | apply kept_ite | apply kept_ite1
    | with_reducible (refine Kept.upd rfl ?_; first | assumption | apply kept_vaWrite | apply kept_each | apply kept_foldl | apply kept_foldl1 | apply kept_ite | apply kept_ite1 | refine keptA_ok ?_ ?_ (by assumption) | refine keptA_error ?_ ?_ (by assumption) | refine kept_ofP ?_ (by assumption))
    | refine keptA_ok ?_ ?_ (by assumption)
    | refine keptA_error ?_ ?_ (by assumption)
    | refine kept_ofP ?_ (by assumption)
    | split
    | refine keptA_fun ?_

theorem keptA_trAct {fz o} {a0 a1}  :
    KeptA fz o (trAct a0 a1) := by
  unfold trAct
  try dsimp only
  repeat' first
    | with_reducible assumption
    | intro _
    | dsimp only
    | with_reducible first | apply kept_translate | apply kept_each | apply kept_foldl | apply kept_foldl1 | apply keptA_pure | apply keptA_bind_get | apply keptA_bind | apply keptA_modify | apply keptA_throw | apply keptA_get | apply keptA_set | apply keptA_ite | apply keptA_act | apply kept_endOk | apply kept_endError | apply kept_endIte | apply kept_ite | apply kept_ite1
    | with_reducible (refine Kept.upd rfl ?_; first | assumption | apply kept_translate | apply kept_each | apply kept_foldl | apply kept_foldl1 | apply kept_ite | apply kept_ite1 | refine keptA_ok ?_ ?_ (by assumption) | refine keptA_error ?_ ?_ (by assumption) | refine kept_ofP ?_ (by assumption))
    | refine keptA_ok ?_ ?_ (by assumption)
    | refine keptA_error ?_ ?_ (by assumption)
    | refine kept_ofP ?_ (by assumption)
    | split
    | refine keptA_fun ?_

theorem keptA_homeGet {fz o} {a0 a1 a2 a3}  :
    KeptA fz o (homeGet a0 a1 a2 a3) := by
  unfold homeGet
  try dsimp only
  repeat' first
    | with_reducible assumption
    | intro _
    | dsimp only
    | with_reducible first | apply kept_homeReady | apply kept_homeRead | apply kept_each | apply kept_foldl | apply kept_foldl1 | apply keptA_pure | apply keptA_bind_get | apply keptA_bind | apply keptA_modify | apply keptA_throw | apply keptA_get | apply keptA_set | apply keptA_ite | apply keptA_act | apply kept_endOk | apply kept_endError | apply kept_endIte | apply kept_ite | apply kept_ite1
    | with_reducible (refine Kept.upd rfl ?_; first | assumption | apply kept_homeReady | apply kept_homeRead | apply kept_each | apply kept_foldl | apply kept_foldl1 | apply kept_ite | apply kept_ite1 | refine keptA_ok ?_ ?_ (by assumption) | refine keptA_error ?_ ?_ (by assumption) | refine kept_ofP ?_ (by assumption))
    | refine keptA_ok ?_ ?_ (by assumption)
    | refine keptA_error ?_ ?_ (by assumption)
    | refine kept_ofP ?_ (by assumption)
    | split
    | refine keptA_fun ?_

theorem keptA_lineWrite {fz o} {a0 a1 a2 a3} : KeptA fz o (lineWrite a0 a1 a2 a3) := by
  unfold lineWrite
  exact keptA_vaPut

theorem keptA_engWrite {fz o} {a0 a1 a2 a3}  :
    KeptA fz o (engWrite a0 a1 a2 a3) := by
  unfold engWrite
  try dsimp only
  repeat' first
    | with_reducible assumption
    | intro _
    | dsimp only
    | with_reducible first | apply keptA_vaPut

end Sys2Proof.Machine
end

