-- ==== Sys2Proof/Laws/KeptQueue.lean ====
section
/-! SUPPORT. What the definitions of Machine/Queue.lean keep (`Kept`). -/

namespace Sys2Proof.Machine

theorem kept_setProgress {fz o} {s a1 a2} (h : Kept fz o s) :
    Kept fz o (setProgress s a1 a2) := by
  unfold setProgress
  try dsimp only
  repeat' first
    | with_reducible assumption
    | intro _
    | dsimp only
    | with_reducible first | apply kept_updCmd

theorem keptA_objGet {fz o} {a0 a1}  :
    KeptA fz o (objGet a0 a1) := by
  unfold objGet
  try dsimp only
  repeat' first
    | with_reducible assumption
    | intro _
    | dsimp only
    | with_reducible first | apply keptA_homeGet | apply kept_each | apply kept_foldl | apply kept_foldl1 | apply keptA_pure | apply keptA_bind_get | apply keptA_bind

theorem keptA_lookupHandle {fz o} {a0 a1 a2 a3 a4}  :
    KeptA fz o (lookupHandle a0 a1 a2 a3 a4) := by
  unfold lookupHandle
  try dsimp only
  repeat' first
    | with_reducible assumption
    | intro _
    | dsimp only
    | with_reducible first | apply keptA_need | apply keptA_objGet | apply kept_each | apply kept_foldl | apply kept_foldl1 | apply keptA_pure | apply keptA_bind_get | apply keptA_bind

theorem kept_staleSignal {fz o} {s a1} (h : Kept fz o s) :
    Kept fz o (staleSignal s a1) := by
  unfold staleSignal
  try dsimp only
  repeat' first
    | with_reducible assumption
    | intro _
    | dsimp only
    | with_reducible first | apply kept_updCtx

theorem kept_eventFull {fz o} {s a1 a2} (h : Kept fz o s) :
    Kept fz o (eventFull s a1 a2) := by
  unfold eventFull
  try dsimp only
  repeat' first
    | with_reducible assumption
    | intro _
    | dsimp only
    | with_reducible first | apply kept_note

theorem keptA_signalIn {fz o} {a0 a1 a2 a3 a4 a5 a6}  :
    KeptA fz o (signalIn a0 a1 a2 a3 a4 a5 a6) := by
  unfold signalIn
  try dsimp only
  repeat' first
    | with_reducible assumption
    | intro _
    | dsimp only
    | with_reducible first | apply keptA_trAct | apply keptA_homeSwap | apply kept_staleSignal | apply kept_eventFull | apply kept_each | apply kept_foldl | apply kept_foldl1 | apply keptA_pure | apply keptA_bind_get | apply keptA_bind | apply keptA_modify | apply keptA_throw | apply keptA_get | apply keptA_set | apply keptA_ite

theorem keptA_signalEvent {fz o} {a0 a1 a2 a3 a4 a5}  :
    KeptA fz o (signalEvent a0 a1 a2 a3 a4 a5) := keptA_signalIn

theorem keptA_signalHandle {fz o} {a0 a1 a2 a3 a4 a5}  :
    KeptA fz o (signalHandle a0 a1 a2 a3 a4 a5) := by
  unfold signalHandle
  try dsimp only
  repeat' first
    | with_reducible assumption
    | intro _
    | dsimp only
    | with_reducible first | apply keptA_attempt | apply keptA_lookupHandle | apply keptA_signalEvent | apply kept_each | apply kept_foldl | apply kept_foldl1 | apply keptA_pure | apply keptA_bind_get | apply keptA_bind | apply keptA_modify | apply keptA_throw | apply keptA_get | apply keptA_set | apply keptA_ite | apply keptA_act | apply kept_endOk | apply kept_endError | apply kept_endIte | apply kept_ite | apply kept_ite1
    | with_reducible (refine Kept.upd rfl ?_; first | assumption | apply keptA_attempt | apply keptA_lookupHandle | apply keptA_signalEvent | apply kept_each | apply kept_foldl | apply kept_foldl1 | apply kept_ite | apply kept_ite1 | refine keptA_ok ?_ ?_ (by assumption) | refine keptA_error ?_ ?_ (by assumption))
    | refine keptA_ok ?_ ?_ (by assumption)
    | refine keptA_error ?_ ?_ (by assumption)
    | split

theorem kept_trySignal {fz o} {s a1 a2} (h : Kept fz o s) :
    Kept fz o (trySignal s a1 a2) := by
  unfold trySignal
  try dsimp only
  repeat' first
    | with_reducible assumption
    | intro _
    | dsimp only
    | with_reducible first | apply kept_runAct | apply keptA_signalHandle | apply kept_each | apply kept_foldl | apply kept_foldl1 | apply keptA_pure | apply keptA_bind_get | apply keptA_bind | apply keptA_modify | apply keptA_throw | apply keptA_get | apply keptA_set | apply keptA_ite | apply keptA_act | apply kept_endOk | apply kept_endError | apply kept_endIte | apply kept_ite | apply kept_ite1
    | with_reducible (refine Kept.upd rfl ?_; first | assumption | apply kept_runAct | apply keptA_signalHandle | apply kept_each | apply kept_foldl | apply kept_foldl1 | apply kept_ite | apply kept_ite1 | refine keptA_ok ?_ ?_ (by assumption) | refine keptA_error ?_ ?_ (by assumption))
    | refine keptA_ok ?_ ?_ (by assumption)
    | refine keptA_error ?_ ?_ (by assumption)
    | split
    | refine keptA_fun ?_
    | with_reducible apply KeptA.ends

theorem kept_alsoOk {fz o} {a0 a1} (h0 : Kept fz o a0.1) :
    Kept fz o (alsoOk a0 a1).1 := by
  unfold alsoOk
  try dsimp only
  repeat' first
    | with_reducible assumption

theorem keptA_objPut {fz o} {a0 a1 a2}  :
    KeptA fz o (objPut a0 a1 a2) := by
  unfold objPut
  try dsimp only
  repeat' first
    | with_reducible assumption
    | intro _
    | dsimp only
    | with_reducible first | apply keptA_homePut | apply kept_each | apply kept_foldl | apply kept_foldl1 | apply keptA_pure | apply keptA_bind_get

theorem kept_writeQueues {fz o} {s a1 a2} (h : Kept fz o s) :
    Kept fz o (writeQueues s a1 a2).1 := by
  unfold writeQueues
  try dsimp only
  repeat' first
    | with_reducible assumption
    | intro _
    | dsimp only
    | with_reducible first | apply kept_alsoOk | apply kept_homeWrite | apply kept_each | apply kept_foldl | apply kept_foldl1

theorem kept_faultCtx {fz o} {s a1} (h : Kept fz o s) :
    Kept fz o (faultCtx s a1) := by
  unfold faultCtx
  try dsimp only
  repeat' first
    | with_reducible assumption
    | intro _
    | dsimp only
    | with_reducible first | apply kept_updCtx

theorem kept_failRecord {fz o} {s a1 a2} (h : Kept fz o s) :
    Kept fz o (failRecord s a1 a2) := by
  unfold failRecord
  try dsimp only
  repeat' first
    | with_reducible assumption
    | intro _
    | dsimp only
    | with_reducible first | apply kept_note

theorem kept_endCmd {fz o} {s a1 a2 a3} (h : Kept fz o s) :
    Kept fz o (endCmd s a1 a2 a3) := by
  unfold endCmd
  try dsimp only
  repeat' first
    | with_reducible assumption
    | intro _
    | dsimp only
    | with_reducible first | apply kept_updCmd | apply kept_updCtx | apply kept_faultCtx | apply kept_failRecord | apply kept_each | apply kept_foldl | apply kept_foldl1 | apply kept_ite | apply kept_ite1
    | with_reducible (refine Kept.upd rfl ?_; first | assumption | apply kept_updCmd | apply kept_updCtx | apply kept_faultCtx | apply kept_failRecord | apply kept_each | apply kept_foldl | apply kept_foldl1 | apply kept_ite | apply kept_ite1)
    | split

theorem kept_tornLine {fz o} {s a1} (h : Kept fz o s) :
    Kept fz o (tornLine s a1) := by
  unfold tornLine
  try dsimp only
  repeat' first
    | with_reducible assumption
    | intro _
    | dsimp only
    | with_reducible first | apply kept_each | apply kept_foldl | apply kept_foldl1 | apply kept_ite | apply kept_ite1
    | with_reducible (refine Kept.upd rfl ?_; first | assumption | apply kept_each | apply kept_foldl | apply kept_foldl1 | apply kept_ite | apply kept_ite1)
    | split

theorem keptA_tearObj {fz o} {a0 a1}  :
    KeptA fz o (tearObj a0 a1) := by
  unfold tearObj
  try dsimp only
  repeat' first
    | with_reducible assumption
    | intro _
    | dsimp only
    | with_reducible first | apply keptA_objGet | apply keptA_objPut | apply kept_each | apply kept_foldl | apply kept_foldl1 | apply keptA_pure | apply keptA_bind_get | apply keptA_bind | apply keptA_modify | apply keptA_throw | apply keptA_get | apply keptA_set | apply keptA_ite

theorem keptA_vlinePut {fz o} {a0 a1 a2 a3 a4}  :
    KeptA fz o (vlinePut a0 a1 a2 a3 a4) := by
  unfold vlinePut
  try dsimp only
  repeat' first
    | with_reducible assumption
    | intro _
    | dsimp only
    | with_reducible first | apply keptA_onEnd | apply keptA_lineWrite | apply kept_tornLine | apply keptA_tearObj | apply kept_each | apply kept_foldl | apply kept_foldl1 | apply keptA_pure | apply keptA_bind_get | apply keptA_bind | apply keptA_modify | apply keptA_throw | apply keptA_get | apply keptA_set | apply keptA_ite | apply keptA_act | apply kept_endOk | apply kept_endError | apply kept_endIte | apply kept_ite | apply kept_ite1
    | with_reducible (refine Kept.upd rfl ?_; first | assumption | apply keptA_onEnd | apply keptA_lineWrite | apply kept_tornLine | apply keptA_tearObj | apply kept_each | apply kept_foldl | apply kept_foldl1 | apply kept_ite | apply kept_ite1 | refine keptA_ok ?_ ?_ (by assumption) | refine keptA_error ?_ ?_ (by assumption))
    | refine keptA_ok ?_ ?_ (by assumption)
    | refine keptA_error ?_ ?_ (by assumption)
    | split
    | refine keptA_fun ?_
    | with_reducible apply KeptA.ends

theorem kept_compAdvance {fz o} {s a1 a2 a3} (h : Kept fz o s) :
    Kept fz o (compAdvance s a1 a2 a3) := by
  unfold compAdvance
  try dsimp only
  repeat' first
    | with_reducible assumption
    | intro _
    | dsimp only
    | with_reducible first | apply kept_updQueue | apply kept_msix | apply kept_each | apply kept_foldl | apply kept_foldl1 | apply kept_ite

theorem keptO_sealedReturn {fz o} {s a1 a2 a3 a4 a5} (h : Kept fz o s) :
    KeptO fz o (sealedReturn s a1 a2 a3 a4 a5) := by
  unfold sealedReturn
  try dsimp only
  repeat' first
    | with_reducible assumption
    | intro _
    | dsimp only
    | with_reducible first | apply kept_hostWrite | apply kept_updCtx | apply kept_updQueue | apply keptO_none | apply keptO_some | apply keptO_ite | apply keptQ_none | apply keptQ_some | apply keptQ_ite | apply kept_each | apply kept_foldl | apply kept_foldl1 | apply kept_ite | apply kept_ite1
    | with_reducible (refine Kept.upd rfl ?_; first | assumption | apply kept_hostWrite | apply kept_updCtx | apply kept_updQueue | apply kept_each | apply kept_foldl | apply kept_foldl1 | apply kept_ite | apply kept_ite1)
    | split

theorem kept_compLost {fz o} {s a1 a2} (h : Kept fz o s) :
    Kept fz o (compLost s a1 a2) := by
  unfold compLost
  try dsimp only
  repeat' first
    | with_reducible assumption
    | intro _
    | dsimp only
    | with_reducible first | apply kept_faultCtx | apply kept_updQueue

theorem kept_compWrite {fz o} {s a1 a2 a3} (h : Kept fz o s) :
    Kept fz o (compWrite s a1 a2 a3).1 := by
  unfold compWrite
  try dsimp only
  repeat' first
    | with_reducible assumption
    | intro _
    | dsimp only
    | with_reducible first | apply kept_compAdvance | apply keptO_sealedReturn | apply kept_updQueue | apply kept_msixAt | apply kept_hostWrite | apply kept_translate | apply kept_waitBack | apply kept_homeRequest | apply kept_homeWrite | apply kept_compLost | apply kept_homeReady | apply kept_each | apply kept_foldl | apply kept_foldl1 | apply kept_ite | apply kept_ite1
    | with_reducible (refine Kept.upd rfl ?_; first | assumption | apply kept_compAdvance | apply keptO_sealedReturn | apply kept_updQueue | apply kept_msixAt | apply kept_hostWrite | apply kept_translate | apply kept_waitBack | apply kept_homeRequest | apply kept_homeWrite | apply kept_compLost | apply kept_homeReady | apply kept_each | apply kept_foldl | apply kept_foldl1 | apply kept_ite | apply kept_ite1 | refine kept_ofP ?_ (by assumption) | refine kept_ofO ?_ (by assumption) | refine kept_ofQ ?_ (by assumption))
    | refine kept_ofO ?_ (by assumption)
    | refine kept_ofQ ?_ (by assumption)
    | refine kept_ofQ1 ?_ (by assumption)
    | refine kept_ofP ?_ (by assumption)
    | split

theorem kept_compPump {fz o} {a0 a1 a2 a3 s} (h : Kept fz o s) :
    Kept fz o (compPump a0 a1 a2 a3 s) := by
  induction a3 generalizing s with
  | zero =>
    unfold compPump
    try dsimp only
    repeat' first
      | with_reducible assumption
  | succ n ih =>
    unfold compPump
    try dsimp only
    repeat' first
      | with_reducible assumption
      | intro _
      | dsimp only
      | with_reducible first | apply kept_compWrite | apply ih | apply kept_each | apply kept_foldl | apply kept_foldl1 | apply kept_ite

theorem kept_compFlow {fz o} {s a1 a2 a3} (h : Kept fz o s) :
    Kept fz o (compFlow s a1 a2 a3) := by
  unfold compFlow
  try dsimp only
  repeat' first
    | with_reducible assumption
    | intro _
    | dsimp only
    | with_reducible first | apply kept_compPump

theorem kept_startFlush {fz o} {s a1 a2 a3 a4} (h : Kept fz o s) :
    Kept fz o (startFlush s a1 a2 a3 a4).1 := by
  unfold startFlush
  try dsimp only
  repeat' first
    | with_reducible assumption
    | intro _
    | dsimp only
    | with_reducible first | apply kept_updHost | apply kept_fresh | apply kept_emit | apply kept_each | apply kept_foldl | apply kept_foldl1 | apply kept_ite | apply kept_ite1
    | with_reducible (refine Kept.upd rfl ?_; first | assumption | apply kept_updHost | apply kept_fresh | apply kept_emit | apply kept_each | apply kept_foldl | apply kept_foldl1 | apply kept_ite | apply kept_ite1 | refine kept_ofP ?_ (by assumption))
    | refine kept_ofP ?_ (by assumption)
    | split

theorem kept_writeBack {fz o} {s a1 a2} (h : Kept fz o s) :
    Kept fz o (writeBack s a1 a2).1 := by
  unfold writeBack
  try dsimp only
  repeat' first
    | with_reducible assumption
    | intro _
    | dsimp only
    | with_reducible first | apply kept_writeQueues | apply kept_alsoOk | apply kept_homeWrite

theorem keptA_vlineGet {fz o} {a0 a1 a2}  :
    KeptA fz o (vlineGet a0 a1 a2) := by
  unfold vlineGet
  try dsimp only
  repeat' first
    | with_reducible assumption
    | intro _
    | dsimp only
    | with_reducible first | apply keptA_lineRead | apply kept_each | apply kept_foldl | apply kept_foldl1 | apply keptA_pure | apply keptA_bind_get | apply keptA_bind | apply keptA_modify | apply keptA_throw | apply keptA_get | apply keptA_set | apply keptA_ite | apply keptA_act | apply kept_endOk | apply kept_endError | apply kept_endIte | apply kept_ite | apply kept_ite1
    | with_reducible (refine Kept.upd rfl ?_; first | assumption | apply keptA_lineRead | apply kept_each | apply kept_foldl | apply kept_foldl1 | apply kept_ite | apply kept_ite1 | refine keptA_ok ?_ ?_ (by assumption) | refine keptA_error ?_ ?_ (by assumption))
    | refine keptA_ok ?_ ?_ (by assumption)
    | refine keptA_error ?_ ?_ (by assumption)
    | split
    | refine keptA_fun ?_
    | with_reducible apply KeptA.ends

theorem keptA_pinObj {fz o} {a0 a1}  :
    KeptA fz o (pinObj a0 a1) := by
  unfold pinObj
  try dsimp only
  repeat' first
    | with_reducible assumption
    | intro _
    | dsimp only
    | with_reducible first | apply keptA_objGet | apply keptA_objPut | apply kept_each | apply kept_foldl | apply kept_foldl1 | apply keptA_pure | apply keptA_bind_get | apply keptA_bind

theorem kept_postSignal {fz o} {s a1 a2 a3 a4 a5} (h : Kept fz o s) :
    Kept fz o (postSignal s a1 a2 a3 a4 a5) := by
  unfold postSignal
  try dsimp only
  repeat' first
    | with_reducible assumption
    | intro _
    | dsimp only
    | with_reducible first | apply kept_fresh | apply kept_trySignal | apply kept_each | apply kept_foldl | apply kept_foldl1 | apply kept_ite | apply kept_ite1
    | with_reducible (refine Kept.upd rfl ?_; first | assumption | apply kept_fresh | apply kept_trySignal | apply kept_each | apply kept_foldl | apply kept_foldl1 | apply kept_ite | apply kept_ite1 | refine kept_ofP ?_ (by assumption))
    | refine kept_ofP ?_ (by assumption)
    | split

theorem kept_stopCmd {fz o} {a0 s a2} (h : Kept fz o s) :
    Kept fz o (stopCmd a0 s a2) := by
  unfold stopCmd
  try dsimp only
  repeat' first
    | with_reducible assumption
    | intro _
    | dsimp only
    | with_reducible first | apply kept_updCmd | apply kept_endCmd | apply kept_each | apply kept_foldl | apply kept_foldl1 | apply kept_ite | apply kept_ite1
    | with_reducible (refine Kept.upd rfl ?_; first | assumption | apply kept_updCmd | apply kept_endCmd | apply kept_each | apply kept_foldl | apply kept_foldl1 | apply kept_ite | apply kept_ite1)
    | split

theorem kept_complete {fz o} {s a1 a2} (h : Kept fz o s) :
    Kept fz o (complete s a1 a2) := by
  unfold complete
  try dsimp only
  repeat' first
    | with_reducible assumption
    | intro _
    | dsimp only
    | with_reducible first | apply kept_compFlow | apply kept_updQueue | apply kept_each | apply kept_foldl | apply kept_foldl1 | apply kept_ite | apply kept_ite1
    | with_reducible (refine Kept.upd rfl ?_; first | assumption | apply kept_compFlow | apply kept_updQueue | apply kept_each | apply kept_foldl | apply kept_foldl1 | apply kept_ite | apply kept_ite1)
    | split

theorem keptA_unpinObj {fz o} {a0 a1}  :
    KeptA fz o (unpinObj a0 a1) := by
  unfold unpinObj
  try dsimp only
  repeat' first
    | with_reducible assumption
    | intro _
    | dsimp only
    | with_reducible first | apply keptA_objGet | apply keptA_objPut | apply kept_each | apply kept_foldl | apply kept_foldl1 | apply keptA_pure | apply keptA_bind_get | apply keptA_bind

theorem kept_runCmd {fz o} {s a1 a2 a3} (h : Kept fz o s) (h3 : ∀ x0, KeptA fz o (a3 x0)) :
    Kept fz o (runCmd s a1 a2 a3) := by
  unfold runCmd
  try dsimp only
  repeat' first
    | with_reducible assumption
    | intro _
    | dsimp only
    | with_reducible first | apply kept_runAct | apply kept_stopCmd | apply h3 | apply kept_each | apply kept_foldl | apply kept_foldl1 | apply keptA_pure | apply keptA_bind_get | apply keptA_bind | apply keptA_modify | apply keptA_throw | apply keptA_get | apply keptA_set | apply keptA_ite | apply keptA_act | apply kept_endOk | apply kept_endError | apply kept_endIte | apply kept_ite | apply kept_ite1
    | with_reducible (refine Kept.upd rfl ?_; first | assumption | apply kept_runAct | apply kept_stopCmd | apply h3 | apply kept_each | apply kept_foldl | apply kept_foldl1 | apply kept_ite | apply kept_ite1 | refine keptA_ok ?_ ?_ (by assumption) | refine keptA_error ?_ ?_ (by assumption))
    | refine keptA_ok ?_ ?_ (by assumption)
    | refine keptA_error ?_ ?_ (by assumption)
    | split

theorem keptA_okCmd {fz o} {a0}  :
    KeptA fz o (okCmd a0) := by
  unfold okCmd
  try dsimp only
  repeat' first
    | with_reducible assumption
    | intro _
    | dsimp only
    | with_reducible first | apply kept_endCmd | apply kept_each | apply kept_foldl | apply kept_foldl1 | apply keptA_pure | apply keptA_bind_get | apply keptA_bind | apply keptA_modify

end Sys2Proof.Machine
end

