-- ==== Sys2Proof/Laws/KeptRings.lean ====
section
/-! SUPPORT. What the definitions of Machine/Rings.lean keep (`Kept`). -/

namespace Sys2Proof.Machine

theorem kept_parkQueue {fz o} {s a1 a2} (h : Kept fz o s) :
    Kept fz o (parkQueue s a1 a2) := by
  unfold parkQueue
  try dsimp only
  repeat' first
    | with_reducible assumption
    | intro _
    | dsimp only
    | with_reducible first | apply kept_updQueue | apply kept_updCtx | apply kept_note

theorem kept_startLoad {fz o} {s a1} (h : Kept fz o s) :
    Kept fz o (startLoad s a1) := by
  unfold startLoad
  try dsimp only
  repeat' first
    | with_reducible assumption
    | intro _
    | dsimp only
    | with_reducible first | apply kept_updCtx | apply kept_each | apply kept_foldl | apply kept_foldl1 | apply kept_ite

theorem kept_kick {fz o} {s a1 a2} (h : Kept fz o s) :
    Kept fz o (kick s a1 a2) := by
  unfold kick
  try dsimp only
  repeat' first
    | with_reducible assumption
    | intro _
    | dsimp only
    | with_reducible first | apply kept_updQueue | apply kept_each | apply kept_foldl | apply kept_foldl1 | apply kept_ite

theorem kept_dbAct {fz o} {s a1 a2 a3 a4 a5} (h : Kept fz o s) :
    Kept fz o (dbAct s a1 a2 a3 a4 a5) := by
  unfold dbAct
  try dsimp only
  repeat' first
    | with_reducible assumption
    | intro _
    | dsimp only
    | with_reducible first | apply kept_parkQueue | apply kept_updQueue | apply kept_startLoad | apply kept_kick | apply kept_compFlow | apply kept_updCtx | apply kept_each | apply kept_foldl | apply kept_foldl1 | apply kept_ite | apply kept_ite1
    | with_reducible (refine Kept.upd rfl ?_; first | assumption | apply kept_parkQueue | apply kept_updQueue | apply kept_startLoad | apply kept_kick | apply kept_compFlow | apply kept_updCtx | apply kept_each | apply kept_foldl | apply kept_foldl1 | apply kept_ite | apply kept_ite1)
    | split

theorem kept_dbDeliver {fz o} {s a1 a2 a3 a4 a5} (h : Kept fz o s) :
    Kept fz o (dbDeliver s a1 a2 a3 a4 a5) := by
  unfold dbDeliver
  try dsimp only
  repeat' first
    | with_reducible assumption
    | intro _
    | dsimp only
    | with_reducible first | apply kept_updQueue | apply kept_dbAct | apply kept_each | apply kept_foldl | apply kept_foldl1 | apply kept_ite | apply kept_ite1
    | with_reducible (refine Kept.upd rfl ?_; first | assumption | apply kept_updQueue | apply kept_dbAct | apply kept_each | apply kept_foldl | apply kept_foldl1 | apply kept_ite | apply kept_ite1)
    | split

theorem kept_dropOne {fz o} {s a1 a2} (h : Kept fz o s) :
    Kept fz o (dropOne s a1 a2) := by
  unfold dropOne
  try dsimp only
  repeat' first
    | with_reducible assumption
    | intro _
    | dsimp only
    | with_reducible first | apply kept_updHost

theorem kept_dbArrive {fz o} {s a1 a2 a3 a4 a5 a6} (h : Kept fz o s) :
    Kept fz o (dbArrive s a1 a2 a3 a4 a5 a6) := by
  unfold dbArrive
  try dsimp only
  repeat' first
    | with_reducible assumption
    | intro _
    | dsimp only
    | with_reducible first | apply kept_dbDeliver | apply kept_dropOne | apply kept_each | apply kept_foldl | apply kept_foldl1 | apply kept_ite

theorem kept_fencePass {fz o} {a0 a1 a2 s} (h : Kept fz o s) :
    Kept fz o (fencePass a0 a1 a2 s) := by
  induction a2 generalizing s with
  | zero =>
    unfold fencePass
    try dsimp only
    repeat' first
      | with_reducible assumption
  | succ n ih =>
    unfold fencePass
    try dsimp only
    repeat' first
      | with_reducible assumption
      | intro _
      | dsimp only
      | with_reducible first | apply kept_updHost | apply kept_dbArrive | apply ih | apply kept_each | apply kept_foldl | apply kept_foldl1 | apply kept_ite | apply kept_ite1
      | with_reducible (refine Kept.upd rfl ?_; first | assumption | apply kept_updHost | apply kept_dbArrive | apply ih | apply kept_each | apply kept_foldl | apply kept_foldl1 | apply kept_ite | apply kept_ite1)
      | split

theorem keptR_execDoorbellFenceClear {fz o} {a0 a1 s} (h : Kept fz o s) :
    KeptR fz o (execDoorbellFenceClear a0 a1 s) := by
  unfold execDoorbellFenceClear
  try dsimp only
  repeat' first
    | with_reducible assumption
    | intro _
    | dsimp only
    | with_reducible first | apply kept_fencePass | apply kept_each | apply kept_foldl | apply kept_foldl1 | apply keptR_next

theorem kept_noteDropped {fz o} {s a1 a2} (h : Kept fz o s) :
    Kept fz o (noteDropped s a1 a2) := by
  unfold noteDropped
  try dsimp only
  repeat' first
    | with_reducible assumption
    | intro _
    | dsimp only
    | with_reducible first | apply kept_note

theorem kept_dbLate {fz o} {s a1 a2 a3} (h : Kept fz o s) :
    Kept fz o (dbLate s a1 a2 a3) := by
  unfold dbLate
  try dsimp only
  repeat' first
    | with_reducible assumption
    | intro _
    | dsimp only
    | with_reducible first | apply kept_dbAct | apply kept_updQueue | apply kept_each | apply kept_foldl | apply kept_foldl1 | apply kept_ite | apply kept_ite1
    | with_reducible (refine Kept.upd rfl ?_; first | assumption | apply kept_dbAct | apply kept_updQueue | apply kept_each | apply kept_foldl | apply kept_foldl1 | apply kept_ite | apply kept_ite1)
    | split

theorem kept_hostDoorbell {fz o} {s a1 a2 a3 a4 a5} (h : Kept fz o s) :
    Kept fz o (hostDoorbell s a1 a2 a3 a4 a5) := by
  unfold hostDoorbell
  try dsimp only
  repeat' first
    | with_reducible assumption
    | intro _
    | dsimp only
    | with_reducible first | apply kept_dropOne | apply kept_noteDropped | apply kept_updHost | apply kept_dbArrive | apply kept_each | apply kept_foldl | apply kept_foldl1 | apply kept_ite | apply kept_ite1
    | with_reducible (refine Kept.upd rfl ?_; first | assumption | apply kept_dropOne | apply kept_noteDropped | apply kept_updHost | apply kept_dbArrive | apply kept_each | apply kept_foldl | apply kept_foldl1 | apply kept_ite | apply kept_ite1)
    | split

theorem keptR_execDoorbellSretHead {fz o} {a0 a1 a2 a3 s} (h : Kept fz o s) :
    KeptR fz o (execDoorbellSretHead a0 a1 a2 a3 s) := by
  unfold execDoorbellSretHead
  try dsimp only
  repeat' first
    | with_reducible assumption
    | intro _
    | dsimp only
    | with_reducible first | apply kept_hostDoorbell | apply kept_each | apply kept_foldl | apply kept_foldl1 | apply keptR_next

theorem keptA_readEntry {fz o} {a0 a1 a2 a3}  :
    KeptA fz o (readEntry a0 a1 a2 a3) := by
  unfold readEntry
  try dsimp only
  repeat' first
    | with_reducible assumption
    | intro _
    | dsimp only
    | with_reducible first | apply keptA_engRead | apply kept_each | apply kept_foldl | apply kept_foldl1 | apply keptA_pure | apply keptA_bind_get

theorem keptA_readCommand {fz o} {a0 a1 a2}  :
    KeptA fz o (readCommand a0 a1 a2) := by
  unfold readCommand
  try dsimp only
  repeat' first
    | with_reducible assumption
    | intro _
    | dsimp only
    | with_reducible first | apply keptA_readEntry | apply keptA_mapAll | apply kept_each | apply kept_foldl | apply kept_foldl1 | apply keptA_pure | apply keptA_bind_get | apply keptA_bind | apply keptA_modify | apply keptA_throw | apply keptA_get | apply keptA_set | apply keptA_ite

theorem kept_backOff {fz o} {s a1 a2} (h : Kept fz o s) :
    Kept fz o (backOff s a1 a2) := by
  unfold backOff
  try dsimp only
  repeat' first
    | with_reducible assumption
    | intro _
    | dsimp only
    | with_reducible first | apply kept_updQueue

theorem kept_consume {fz o} {s a1 a2 a3} (h : Kept fz o s) :
    Kept fz o (consume s a1 a2 a3) := by
  unfold consume
  try dsimp only
  repeat' first
    | with_reducible assumption
    | intro _
    | dsimp only
    | with_reducible first | apply kept_updQueue

theorem kept_consumeLoop {fz o} {a0 a1 a2 a3 s} (h : Kept fz o s) :
    Kept fz o (consumeLoop a0 a1 a2 a3 s) := by
  induction a3 generalizing s with
  | zero =>
    unfold consumeLoop
    try dsimp only
    repeat' first
      | with_reducible assumption
      | intro _
      | dsimp only
      | with_reducible first | apply kept_updQueue
  | succ n ih =>
    unfold consumeLoop
    try dsimp only
    repeat' first
      | with_reducible assumption
      | intro _
      | dsimp only
      | with_reducible first | apply kept_updQueue | apply keptA_readCommand | apply kept_backOff | apply kept_consume | apply kept_waitBack | apply ih | apply kept_each | apply kept_foldl | apply kept_foldl1 | apply keptA_pure | apply keptA_bind_get | apply keptA_bind | apply keptA_modify | apply keptA_throw | apply keptA_get | apply keptA_set | apply keptA_ite | apply keptA_act | apply kept_endOk | apply kept_endError | apply kept_endIte | apply kept_ite | apply kept_ite1
      | with_reducible (refine Kept.upd rfl ?_; first | assumption | apply kept_updQueue | apply keptA_readCommand | apply kept_backOff | apply kept_consume | apply kept_waitBack | apply ih | apply kept_each | apply kept_foldl | apply kept_foldl1 | apply kept_ite | apply kept_ite1 | refine keptA_ok ?_ ?_ (by assumption) | refine keptA_error ?_ ?_ (by assumption))
      | refine keptA_ok ?_ ?_ (by assumption)
      | refine keptA_error ?_ ?_ (by assumption)
      | split

theorem kept_kickAll {fz o} {s a1} (h : Kept fz o s) :
    Kept fz o (kickAll s a1) := by
  unfold kickAll
  try dsimp only
  repeat' first
    | with_reducible assumption
    | intro _
    | dsimp only
    | with_reducible first | apply kept_kick | apply kept_each

theorem kept_loadEntry {fz o} {s a1 a2 a3} (h : Kept fz o s) :
    Kept fz o (loadEntry s a1 a2 a3) := by
  unfold loadEntry
  try dsimp only
  repeat' first
    | with_reducible assumption
    | intro _
    | dsimp only
    | with_reducible first | apply kept_homeRead | apply kept_faultCtx | apply kept_updCtx | apply kept_kickAll | apply kept_each | apply kept_foldl | apply kept_foldl1 | apply kept_ite

theorem kept_evict {fz o} {s a1 a2} (h : Kept fz o s) :
    Kept fz o (evict s a1 a2) := by
  unfold evict
  try dsimp only
  repeat' first
    | with_reducible assumption
    | intro _
    | dsimp only
    | with_reducible first | apply kept_writeBack | apply kept_updCtx | apply kept_faultCtx | apply kept_each | apply kept_foldl | apply kept_foldl1 | apply kept_ite

theorem kept_freeSlot {fz o} {s a1 a2} (h : Kept fz o s) :
    Kept fz o (freeSlot s a1 a2) := by
  unfold freeSlot
  try dsimp only
  repeat' first
    | with_reducible assumption
    | intro _
    | dsimp only
    | with_reducible first | apply kept_evict | apply kept_each | apply kept_foldl | apply kept_foldl1 | apply kept_ite | apply kept_ite1
    | with_reducible (refine Kept.upd rfl ?_; first | assumption | apply kept_evict | apply kept_each | apply kept_foldl | apply kept_foldl1 | apply kept_ite | apply kept_ite1)
    | split

theorem keptR_execContextLoadDone {fz o} {a0 a1 s} (h : Kept fz o s) :
    KeptR fz o (execContextLoadDone a0 a1 s) := by
  unfold execContextLoadDone
  try dsimp only
  repeat' first
    | with_reducible assumption
    | intro _
    | dsimp only
    | with_reducible first | apply kept_updCtx | apply kept_homeReady | apply kept_loadEntry | apply kept_freeSlot | apply kept_each | apply kept_foldl | apply kept_foldl1 | apply keptR_next | apply keptR_fault | apply keptR_ite | apply kept_ite | apply kept_ite1
    | with_reducible (refine Kept.upd rfl ?_; first | assumption | apply kept_updCtx | apply kept_homeReady | apply kept_loadEntry | apply kept_freeSlot | apply kept_each | apply kept_foldl | apply kept_foldl1 | apply kept_ite | apply kept_ite1 | refine kept_ofP ?_ (by assumption))
    | refine kept_ofP ?_ (by assumption)
    | split

theorem keptR_execDbPatienceExpire {fz o} {a0 a1 s} (h : Kept fz o s) :
    KeptR fz o (execDbPatienceExpire a0 a1 s) := by
  unfold execDbPatienceExpire
  try dsimp only
  repeat' first
    | with_reducible assumption
    | intro _
    | dsimp only
    | with_reducible first | apply kept_parkQueue | apply kept_reach | apply kept_each | apply kept_foldl | apply kept_foldl1 | apply keptR_next | apply keptR_fault | apply keptR_ite

theorem kept_portEvent {fz o} {s a1 a2 a3} (h : Kept fz o s) :
    Kept fz o (portEvent s a1 a2 a3) := by
  unfold portEvent
  try dsimp only
  repeat' first
    | with_reducible assumption
    | intro _
    | dsimp only
    | with_reducible first | apply kept_emit | apply kept_note | apply kept_each | apply kept_foldl | apply kept_foldl1 | apply kept_ite | apply kept_ite1
    | with_reducible (refine Kept.upd rfl ?_; first | assumption | apply kept_emit | apply kept_note | apply kept_each | apply kept_foldl | apply kept_foldl1 | apply kept_ite | apply kept_ite1)
    | split

theorem kept_readLater {fz o} {s a1 a2} (h : Kept fz o s) :
    Kept fz o (readLater s a1 a2) := by
  unfold readLater
  try dsimp only
  repeat' first
    | with_reducible assumption
    | intro _
    | dsimp only
    | with_reducible first | apply kept_updQueue | apply kept_each | apply kept_foldl | apply kept_foldl1 | apply kept_ite | apply kept_ite1
    | with_reducible (refine Kept.upd rfl ?_; first | assumption | apply kept_updQueue | apply kept_each | apply kept_foldl | apply kept_foldl1 | apply kept_ite | apply kept_ite1)
    | split

theorem keptR_execDoorbellCqHead {fz o} {a0 a1 a2 a3 s} (h : Kept fz o s) :
    KeptR fz o (execDoorbellCqHead a0 a1 a2 a3 s) := by
  unfold execDoorbellCqHead
  try dsimp only
  repeat' first
    | with_reducible assumption
    | intro _
    | dsimp only
    | with_reducible first | apply kept_hostDoorbell | apply kept_each | apply kept_foldl | apply kept_foldl1 | apply keptR_next

theorem keptR_execDbBackoffReread {fz o} {a0 a1 s} (h : Kept fz o s) :
    KeptR fz o (execDbBackoffReread a0 a1 s) := by
  unfold execDbBackoffReread
  try dsimp only
  repeat' first
    | with_reducible assumption
    | intro _
    | dsimp only
    | with_reducible first | apply kept_updQueue | apply kept_reach | apply kept_each | apply kept_foldl | apply kept_foldl1 | apply keptR_next | apply keptR_fault | apply keptR_ite | apply kept_ite | apply kept_ite1
    | with_reducible (refine Kept.upd rfl ?_; first | assumption | apply kept_updQueue | apply kept_reach | apply kept_each | apply kept_foldl | apply kept_foldl1 | apply kept_ite | apply kept_ite1)
    | split

theorem keptR_execRingReadResponse {fz o} {a0 a1 a2 s} (h : Kept fz o s) :
    KeptR fz o (execRingReadResponse a0 a1 a2 s) := by
  unfold execRingReadResponse
  try dsimp only
  repeat' first
    | with_reducible assumption
    | intro _
    | dsimp only
    | with_reducible first | apply kept_readLater | apply kept_consumeLoop | apply kept_each | apply kept_foldl | apply kept_foldl1 | apply keptR_next | apply keptR_fault | apply keptR_ite | apply kept_ite | apply kept_ite1
    | with_reducible (refine Kept.upd rfl ?_; first | assumption | apply kept_readLater | apply kept_consumeLoop | apply kept_each | apply kept_foldl | apply kept_foldl1 | apply kept_ite | apply kept_ite1)
    | split

theorem kept_readAgain {fz o} {s a1 a2} (h : Kept fz o s) :
    Kept fz o (readAgain s a1 a2) := by
  unfold readAgain
  try dsimp only
  repeat' first
    | with_reducible assumption
    | intro _
    | dsimp only
    | with_reducible first | apply kept_readLater | apply kept_startLoad | apply kept_updQueue | apply kept_each | apply kept_foldl | apply kept_foldl1 | apply kept_ite | apply kept_ite1
    | with_reducible (refine Kept.upd rfl ?_; first | assumption | apply kept_readLater | apply kept_startLoad | apply kept_updQueue | apply kept_each | apply kept_foldl | apply kept_foldl1 | apply kept_ite | apply kept_ite1)
    | split

theorem keptR_execDoorbellTail {fz o} {a0 a1 a2 a3 s} (h : Kept fz o s) :
    KeptR fz o (execDoorbellTail a0 a1 a2 a3 s) := by
  unfold execDoorbellTail
  try dsimp only
  repeat' first
    | with_reducible assumption
    | intro _
    | dsimp only
    | with_reducible first | apply kept_hostDoorbell | apply kept_each | apply kept_foldl | apply kept_foldl1 | apply keptR_next

end Sys2Proof.Machine
end

