-- ==== Sys2Proof/Laws/KeptMapping.lean ====
section
/-! SUPPORT. What the definitions of Machine/Mapping.lean keep (`Kept`). -/

namespace Sys2Proof.Machine

theorem kept_poolNote {fz o} {s a1 a2 a3} (h : Kept fz o s) :
    Kept fz o (poolNote s a1 a2 a3) := by
  unfold poolNote
  try dsimp only
  repeat' first
    | with_reducible assumption
    | intro _
    | dsimp only
    | with_reducible first | apply kept_note

theorem kept_updPool {fz o} {s a1 a2 a3} (h : Kept fz o s) :
    Kept fz o (updPool s a1 a2 a3) := by
  unfold updPool
  try dsimp only
  repeat' first
    | with_reducible assumption
    | intro _
    | dsimp only
    | with_reducible first | apply kept_each | apply kept_foldl | apply kept_foldl1 | apply kept_ite | apply kept_ite1
    | with_reducible (refine Kept.upd rfl ?_; first | assumption)

theorem kept_putFrame {fz o} {s a1 a2 a3 a4 a5} (h : Kept fz o s) :
    Kept fz o (putFrame s a1 a2 a3 a4 a5) := by
  unfold putFrame
  try dsimp only
  repeat' first
    | with_reducible assumption
    | intro _
    | dsimp only
    | with_reducible first | apply kept_homeWrite | apply kept_updPool | apply kept_each | apply kept_foldl | apply kept_foldl1 | apply kept_ite

theorem kept_pushFrame {fz o} {s a1 a2 a3 a4 a5} (h : Kept fz o s) :
    Kept fz o (pushFrame s a1 a2 a3 a4 a5) := by
  unfold pushFrame
  try dsimp only
  repeat' first
    | with_reducible assumption
    | intro _
    | dsimp only
    | with_reducible first | apply kept_poolNote | apply kept_updPool | apply kept_putFrame | apply kept_each | apply kept_foldl | apply kept_foldl1 | apply kept_ite

theorem kept_pushAll {fz o} {s a1 a2 a3} (h : Kept fz o s) :
    Kept fz o (pushAll s a1 a2 a3) := by
  unfold pushAll
  try dsimp only
  repeat' first
    | with_reducible assumption
    | intro _
    | dsimp only
    | with_reducible first | apply kept_pushFrame | apply kept_each

theorem keptA_rootOf {fz o} {a0 a1}  :
    KeptA fz o (rootOf a0 a1) := by
  unfold rootOf
  try dsimp only
  repeat' first
    | with_reducible assumption
    | intro _
    | dsimp only
    | with_reducible first | apply keptA_homeGet | apply kept_each | apply kept_foldl | apply kept_foldl1 | apply keptA_pure | apply keptA_bind_get | apply keptA_bind | apply keptA_modify | apply keptA_throw | apply keptA_get | apply keptA_set | apply keptA_ite | apply keptA_act | apply kept_endOk | apply kept_endError | apply kept_endIte | apply kept_ite | apply kept_ite1
    | with_reducible (refine Kept.upd rfl ?_; first | assumption | apply keptA_homeGet | apply kept_each | apply kept_foldl | apply kept_foldl1 | apply kept_ite | apply kept_ite1 | refine keptA_ok ?_ ?_ (by assumption) | refine keptA_error ?_ ?_ (by assumption))
    | refine keptA_ok ?_ ?_ (by assumption)
    | refine keptA_error ?_ ?_ (by assumption)
    | split
    | refine keptA_fun ?_
    | with_reducible apply KeptA.ends

theorem keptA_scanTable {fz o} {a0 a1 a2 a3 a4 a5 a6 a7}  :
    KeptA fz o (scanTable a0 a1 a2 a3 a4 a5 a6 a7) := by
  induction a5 generalizing a6 a7 with
  | zero =>
    unfold scanTable
    try dsimp only
    repeat' first
      | with_reducible assumption
      | intro _
      | dsimp only
      | with_reducible first | apply keptA_mapAll | apply keptA_homeGet | apply keptA_attempt | apply kept_each | apply kept_foldl | apply kept_foldl1 | apply keptA_pure
  | succ n ih =>
    unfold scanTable
    try dsimp only
    repeat' first
      | with_reducible assumption
      | intro _
      | dsimp only
      | with_reducible first | apply keptA_mapAll | apply keptA_homeGet | apply keptA_attempt | apply ih | apply kept_each | apply kept_foldl | apply kept_foldl1 | apply keptA_pure | apply keptA_bind_get | apply keptA_bind | apply keptA_modify | apply keptA_throw | apply keptA_get | apply keptA_set | apply keptA_ite | apply keptA_act | apply kept_endOk | apply kept_endError | apply kept_endIte | apply kept_ite | apply kept_ite1
      | with_reducible (refine Kept.upd rfl ?_; first | assumption | apply keptA_mapAll | apply keptA_homeGet | apply keptA_attempt | apply ih | apply kept_each | apply kept_foldl | apply kept_foldl1 | apply kept_ite | apply kept_ite1 | refine keptA_ok ?_ ?_ (by assumption) | refine keptA_error ?_ ?_ (by assumption))
      | refine keptA_ok ?_ ?_ (by assumption)
      | refine keptA_error ?_ ?_ (by assumption)
      | split

theorem keptA_leavesOf {fz o} {a0 a1 a2 a3 a4}  :
    KeptA fz o (leavesOf a0 a1 a2 a3 a4) := by
  unfold leavesOf
  try dsimp only
  repeat' first
    | with_reducible assumption
    | intro _
    | dsimp only
    | with_reducible first | apply keptA_scanTable | apply keptA_attempt | apply keptA_rootOf | apply kept_each | apply kept_foldl | apply kept_foldl1 | apply keptA_pure | apply keptA_bind_get | apply keptA_bind | apply keptA_modify | apply keptA_throw | apply keptA_get | apply keptA_set | apply keptA_ite | apply keptA_act | apply kept_endOk | apply kept_endError | apply kept_endIte | apply kept_ite | apply kept_ite1
    | with_reducible (refine Kept.upd rfl ?_; first | assumption | apply keptA_scanTable | apply keptA_attempt | apply keptA_rootOf | apply kept_each | apply kept_foldl | apply kept_foldl1 | apply kept_ite | apply kept_ite1 | refine keptA_ok ?_ ?_ (by assumption) | refine keptA_error ?_ ?_ (by assumption))
    | refine keptA_ok ?_ ?_ (by assumption)
    | refine keptA_error ?_ ?_ (by assumption)
    | split
    | refine keptA_fun ?_
    | with_reducible apply KeptA.ends

theorem keptA_putPte {fz o} {a0 a1 a2 a3 a4}  :
    KeptA fz o (putPte a0 a1 a2 a3 a4) := by
  unfold putPte
  try dsimp only
  repeat' first
    | with_reducible assumption
    | intro _
    | dsimp only
    | with_reducible first | apply keptA_homePut | apply kept_each | apply kept_foldl | apply kept_foldl1 | apply keptA_pure | apply keptA_bind_get

theorem kept_invBegin {fz o} {s a1 a2} (h : Kept fz o s) :
    Kept fz o (invBegin s a1 a2).1 := by
  unfold invBegin
  try dsimp only
  repeat' first
    | with_reducible assumption
    | intro _
    | dsimp only
    | with_reducible first | apply kept_invDrop

theorem keptA_unmapAct {fz o} {a0 a1 a2}  :
    KeptA fz o (unmapAct a0 a1 a2) := by
  unfold unmapAct
  try dsimp only
  repeat' first
    | with_reducible assumption
    | intro _
    | dsimp only
    | with_reducible first | apply keptA_okCmd | apply keptA_need | apply keptA_leavesOf | apply keptA_forAll | apply keptA_putPte | apply kept_invBegin | apply kept_updCmd | apply kept_each | apply kept_foldl | apply kept_foldl1 | apply keptA_pure | apply keptA_bind_get | apply keptA_bind | apply keptA_modify | apply keptA_throw | apply keptA_get | apply keptA_set | apply keptA_ite | apply keptA_act | apply kept_endOk | apply kept_endError | apply kept_endIte | apply kept_ite | apply kept_ite1
    | with_reducible (refine Kept.upd rfl ?_; first | assumption | apply keptA_okCmd | apply keptA_need | apply keptA_leavesOf | apply keptA_forAll | apply keptA_putPte | apply kept_invBegin | apply kept_updCmd | apply kept_each | apply kept_foldl | apply kept_foldl1 | apply kept_ite | apply kept_ite1 | refine keptA_ok ?_ ?_ (by assumption) | refine keptA_error ?_ ?_ (by assumption) | refine kept_ofP ?_ (by assumption))
    | refine keptA_ok ?_ ?_ (by assumption)
    | refine keptA_error ?_ ?_ (by assumption)
    | refine kept_ofP ?_ (by assumption)
    | split

theorem keptA_clearLeaf {fz o} {a0 a1 a2 a3}  :
    KeptA fz o (clearLeaf a0 a1 a2 a3) := by
  unfold clearLeaf
  try dsimp only
  repeat' first
    | with_reducible assumption
    | intro _
    | dsimp only
    | with_reducible first | apply keptA_attempt | apply keptA_putPte | apply kept_each | apply kept_foldl | apply kept_foldl1 | apply keptA_pure | apply keptA_bind_get | apply keptA_bind | apply keptA_modify | apply keptA_throw | apply keptA_get | apply keptA_set | apply keptA_ite | apply keptA_act | apply kept_endOk | apply kept_endError | apply kept_endIte | apply kept_ite | apply kept_ite1
    | with_reducible (refine Kept.upd rfl ?_; first | assumption | apply keptA_attempt | apply keptA_putPte | apply kept_each | apply kept_foldl | apply kept_foldl1 | apply kept_ite | apply kept_ite1 | refine keptA_ok ?_ ?_ (by assumption) | refine keptA_error ?_ ?_ (by assumption))
    | refine keptA_ok ?_ ?_ (by assumption)
    | refine keptA_error ?_ ?_ (by assumption)
    | split

theorem keptA_beginPass {fz o} {a0 a1 a2 a3 a4}  :
    KeptA fz o (beginPass a0 a1 a2 a3 a4) := by
  unfold beginPass
  try dsimp only
  repeat' first
    | with_reducible assumption
    | intro _
    | dsimp only
    | with_reducible first | apply keptA_mapAll | apply kept_invBegin | apply kept_each | apply kept_foldl | apply kept_foldl1 | apply keptA_pure | apply keptA_bind_get | apply keptA_bind | apply keptA_modify | apply keptA_throw | apply keptA_get | apply keptA_set | apply keptA_ite | apply keptA_act | apply kept_endOk | apply kept_endError | apply kept_endIte | apply kept_ite | apply kept_ite1
    | with_reducible (refine Kept.upd rfl ?_; first | assumption | refine keptA_ok ?_ ?_ (by assumption) | refine keptA_error ?_ ?_ (by assumption) | refine kept_ofP ?_ (by assumption))

theorem keptA_takeFrame {fz o} {a0 a1 a2 a3 a4}  :
    KeptA fz o (takeFrame a0 a1 a2 a3 a4) := by
  induction a4 with
  | zero =>
    unfold takeFrame
    try dsimp only
    repeat' first
      | with_reducible assumption
      | intro _
      | dsimp only
      | with_reducible first | apply keptA_homeGet | apply kept_updPool | apply kept_poolNote | apply kept_each | apply kept_foldl | apply kept_foldl1 | apply keptA_pure
  | succ n ih =>
    unfold takeFrame
    try dsimp only
    repeat' first
      | with_reducible assumption
      | intro _
      | dsimp only
      | with_reducible first | apply keptA_homeGet | apply kept_updPool | apply kept_poolNote | apply ih | apply kept_each | apply kept_foldl | apply kept_foldl1 | apply keptA_pure | apply keptA_bind_get | apply keptA_bind | apply keptA_modify | apply keptA_throw | apply keptA_get | apply keptA_set | apply keptA_ite

theorem keptA_zeroTable {fz o} {a0 a1 a2 a3}  :
    KeptA fz o (zeroTable a0 a1 a2 a3) := by
  unfold zeroTable
  try dsimp only
  repeat' first
    | with_reducible assumption
    | intro _
    | dsimp only
    | with_reducible first | apply keptA_homePut | apply kept_each | apply kept_foldl | apply kept_foldl1 | apply keptA_pure | apply keptA_bind_get

theorem keptA_placeLeaf {fz o} {a0 a1 a2 a3 a4 a5}  :
    KeptA fz o (placeLeaf a0 a1 a2 a3 a4 a5) := by
  induction a4 generalizing a5 with
  | zero =>
    unfold placeLeaf
    try dsimp only
    repeat' first
      | with_reducible assumption
      | intro _
      | dsimp only
      | with_reducible first | apply keptA_putPte | apply keptA_homeGet | apply keptA_takeFrame | apply kept_holdFault | apply keptA_zeroTable | apply kept_each | apply kept_foldl | apply kept_foldl1 | apply keptA_pure
  | succ n ih =>
    unfold placeLeaf
    try dsimp only
    repeat' first
      | with_reducible assumption
      | intro _
      | dsimp only
      | with_reducible first | apply keptA_putPte | apply keptA_homeGet | apply keptA_takeFrame | apply kept_holdFault | apply keptA_zeroTable | apply ih | apply kept_each | apply kept_foldl | apply kept_foldl1 | apply keptA_pure | apply keptA_bind_get | apply keptA_bind | apply keptA_modify | apply keptA_throw | apply keptA_get | apply keptA_set | apply keptA_ite | apply keptA_act | apply kept_endOk | apply kept_endError | apply kept_endIte | apply kept_ite | apply kept_ite1
      | with_reducible (refine Kept.upd rfl ?_; first | assumption | apply keptA_putPte | apply keptA_homeGet | apply keptA_takeFrame | apply kept_holdFault | apply keptA_zeroTable | apply ih | apply kept_each | apply kept_foldl | apply kept_foldl1 | apply kept_ite | apply kept_ite1 | refine keptA_ok ?_ ?_ (by assumption) | refine keptA_error ?_ ?_ (by assumption) | refine kept_ofP ?_ (by assumption))
      | refine keptA_ok ?_ ?_ (by assumption)
      | refine keptA_error ?_ ?_ (by assumption)
      | refine kept_ofP ?_ (by assumption)
      | split

theorem keptA_placeAll {fz o} {a0 a1 a2 a3 a4}  :
    KeptA fz o (placeAll a0 a1 a2 a3 a4) := by
  induction a4 with
  | nil =>
    unfold placeAll
    try dsimp only
    repeat' first
      | with_reducible assumption
      | intro _
      | dsimp only
      | with_reducible first | apply keptA_placeLeaf | apply kept_updCmd | apply kept_each | apply kept_foldl | apply kept_foldl1 | apply keptA_pure
  | cons x l ih =>
    unfold placeAll
    try dsimp only
    repeat' first
      | with_reducible assumption
      | intro _
      | dsimp only
      | with_reducible first | apply keptA_placeLeaf | apply kept_updCmd | apply ih | apply kept_each | apply kept_foldl | apply kept_foldl1 | apply keptA_pure | apply keptA_bind_get | apply keptA_bind | apply keptA_modify

theorem keptA_spotAt {fz o} {a0 a1 a2 a3 a4 a5}  :
    KeptA fz o (spotAt a0 a1 a2 a3 a4 a5) := by
  induction a4 generalizing a5 with
  | zero =>
    unfold spotAt
    try dsimp only
    repeat' first
      | with_reducible assumption
      | intro _
      | dsimp only
      | with_reducible first | apply keptA_homeGet | apply kept_each | apply kept_foldl | apply kept_foldl1 | apply keptA_pure
  | succ n ih =>
    unfold spotAt
    try dsimp only
    repeat' first
      | with_reducible assumption
      | intro _
      | dsimp only
      | with_reducible first | apply keptA_homeGet | apply ih | apply kept_each | apply kept_foldl | apply kept_foldl1 | apply keptA_pure | apply keptA_bind_get | apply keptA_bind | apply keptA_modify | apply keptA_throw | apply keptA_get | apply keptA_set | apply keptA_ite

theorem keptA_fitPiece {fz o} {a0 a1 a2 a3}  :
    KeptA fz o (fitPiece a0 a1 a2 a3) := by
  induction a2 generalizing a3 with
  | zero =>
    unfold fitPiece
    try dsimp only
    repeat' first
      | with_reducible assumption
      | intro _
      | dsimp only
      | with_reducible first | apply keptA_spotAt | apply keptA_failWith | apply keptA_mapAll | apply kept_each | apply kept_foldl | apply kept_foldl1 | apply keptA_pure
  | succ n ih =>
    unfold fitPiece
    try dsimp only
    repeat' first
      | with_reducible assumption
      | intro _
      | dsimp only
      | with_reducible first | apply keptA_spotAt | apply keptA_failWith | apply keptA_mapAll | apply ih | apply kept_each | apply kept_foldl | apply kept_foldl1 | apply keptA_pure | apply keptA_bind_get | apply keptA_bind | apply keptA_modify | apply keptA_throw | apply keptA_get | apply keptA_set | apply keptA_ite | apply keptA_act | apply kept_endOk | apply kept_endError | apply kept_endIte | apply kept_ite | apply kept_ite1
      | with_reducible (refine Kept.upd rfl ?_; first | assumption | apply keptA_spotAt | apply keptA_failWith | apply keptA_mapAll | apply ih | apply kept_each | apply kept_foldl | apply kept_foldl1 | apply kept_ite | apply kept_ite1 | refine keptA_ok ?_ ?_ (by assumption) | refine keptA_error ?_ ?_ (by assumption))
      | refine keptA_ok ?_ ?_ (by assumption)
      | refine keptA_error ?_ ?_ (by assumption)
      | split

theorem keptA_mapAct {fz o} {a0 a1 a2}  :
    KeptA fz o (mapAct a0 a1 a2) := by
  unfold mapAct
  try dsimp only
  repeat' first
    | with_reducible assumption
    | intro _
    | dsimp only
    | with_reducible first | apply keptA_okCmd | apply keptA_placeAll | apply keptA_objGet | apply keptA_need | apply keptA_leavesOf | apply keptA_mapAll | apply keptA_fitPiece | apply kept_each | apply kept_foldl | apply kept_foldl1 | apply keptA_pure | apply keptA_bind_get | apply keptA_bind | apply keptA_modify | apply keptA_throw | apply keptA_get | apply keptA_set | apply keptA_ite | apply keptA_act | apply kept_endOk | apply kept_endError | apply kept_endIte | apply kept_ite | apply kept_ite1
    | with_reducible (refine Kept.upd rfl ?_; first | assumption | apply keptA_okCmd | apply keptA_placeAll | apply keptA_objGet | apply keptA_need | apply keptA_leavesOf | apply keptA_mapAll | apply keptA_fitPiece | apply kept_each | apply kept_foldl | apply kept_foldl1 | apply kept_ite | apply kept_ite1 | refine keptA_ok ?_ ?_ (by assumption) | refine keptA_error ?_ ?_ (by assumption))
    | refine keptA_ok ?_ ?_ (by assumption)
    | refine keptA_error ?_ ?_ (by assumption)
    | split

theorem keptR_execMap {fz o} {a0 a1 s} (h : Kept fz o s) :
    KeptR fz o (execMap a0 a1 s) := by
  unfold execMap
  try dsimp only
  repeat' first
    | with_reducible assumption
    | intro _
    | dsimp only
    | with_reducible first | apply kept_runCmd | apply keptA_mapAct | apply kept_each | apply kept_foldl | apply kept_foldl1 | apply keptA_pure | apply keptA_bind_get | apply keptA_bind | apply keptA_modify | apply keptA_throw | apply keptA_get | apply keptA_set | apply keptA_ite | apply keptA_act | apply kept_endOk | apply kept_endError | apply kept_endIte | apply keptR_next | apply keptR_fault | apply keptR_ite | apply kept_ite | apply kept_ite1
    | with_reducible (refine Kept.upd rfl ?_; first | assumption | apply kept_runCmd | apply keptA_mapAct | apply kept_each | apply kept_foldl | apply kept_foldl1 | apply kept_ite | apply kept_ite1 | refine keptA_ok ?_ ?_ (by assumption) | refine keptA_error ?_ ?_ (by assumption))
    | refine keptA_ok ?_ ?_ (by assumption)
    | refine keptA_error ?_ ?_ (by assumption)
    | split

theorem kept_drainPool {fz o} {a0 a1 a2 a3 s} (h : Kept fz o s) :
    Kept fz o (drainPool a0 a1 a2 a3 s) := by
  induction a3 generalizing s with
  | zero =>
    unfold drainPool
    try dsimp only
    repeat' first
      | with_reducible assumption
  | succ n ih =>
    unfold drainPool
    try dsimp only
    repeat' first
      | with_reducible assumption
      | intro _
      | dsimp only
      | with_reducible first | apply kept_putFrame | apply kept_updPool | apply ih | apply kept_each | apply kept_foldl | apply kept_foldl1 | apply kept_ite | apply kept_ite1
      | with_reducible (refine Kept.upd rfl ?_; first | assumption | apply kept_putFrame | apply kept_updPool | apply ih | apply kept_each | apply kept_foldl | apply kept_foldl1 | apply kept_ite | apply kept_ite1)
      | split

theorem kept_pumpPasses {fz o} {s a1} (h : Kept fz o s) :
    Kept fz o (pumpPasses s a1) := by
  unfold pumpPasses
  try dsimp only
  repeat' first
    | with_reducible assumption
    | intro _
    | dsimp only
    | with_reducible first | apply kept_pushAll | apply kept_each | apply kept_foldl | apply kept_foldl1 | apply kept_ite | apply kept_ite1
    | with_reducible (refine Kept.upd rfl ?_; first | assumption)

theorem keptA_clearObject {fz o} {a0 a1}  :
    KeptA fz o (clearObject a0 a1) := by
  unfold clearObject
  try dsimp only
  repeat' first
    | with_reducible assumption
    | intro _
    | dsimp only
    | with_reducible first | apply keptA_leavesOf | apply keptA_mapAll | apply keptA_clearLeaf | apply kept_poolNote | apply kept_each | apply kept_foldl | apply kept_foldl1 | apply keptA_pure | apply keptA_bind_get | apply keptA_bind | apply keptA_modify | apply keptA_throw | apply keptA_get | apply keptA_set | apply keptA_ite

theorem keptR_execUnmap {fz o} {a0 a1 s} (h : Kept fz o s) :
    KeptR fz o (execUnmap a0 a1 s) := by
  unfold execUnmap
  try dsimp only
  repeat' first
    | with_reducible assumption
    | intro _
    | dsimp only
    | with_reducible first | apply kept_runCmd | apply keptA_unmapAct | apply kept_each | apply kept_foldl | apply kept_foldl1 | apply keptA_pure | apply keptA_bind_get | apply keptA_bind | apply keptA_modify | apply keptA_throw | apply keptA_get | apply keptA_set | apply keptA_ite | apply keptA_act | apply kept_endOk | apply kept_endError | apply kept_endIte | apply keptR_next | apply keptR_fault | apply keptR_ite | apply kept_ite | apply kept_ite1
    | with_reducible (refine Kept.upd rfl ?_; first | assumption | apply kept_runCmd | apply keptA_unmapAct | apply kept_each | apply kept_foldl | apply kept_foldl1 | apply kept_ite | apply kept_ite1 | refine keptA_ok ?_ ?_ (by assumption) | refine keptA_error ?_ ?_ (by assumption))
    | refine keptA_ok ?_ ?_ (by assumption)
    | refine keptA_error ?_ ?_ (by assumption)
    | split

theorem kept_setBag {fz o} {s a1 a2} (h : Kept fz o s) :
    Kept fz o (setBag s a1 a2) := by
  unfold setBag
  try dsimp only
  repeat' first
    | with_reducible assumption
    | intro _
    | dsimp only
    | with_reducible first | apply kept_updCmd | apply kept_each | apply kept_foldl | apply kept_foldl1 | apply kept_ite | apply kept_ite1
    | with_reducible (refine Kept.upd rfl ?_; first | assumption | apply kept_updCmd | apply kept_each | apply kept_foldl | apply kept_foldl1 | apply kept_ite | apply kept_ite1)
    | split

end Sys2Proof.Machine
end

