-- ==== Sys2Proof/Laws/KeptIngest.lean ====
section
/-! SUPPORT. What the definitions of Machine/Ingest.lean keep (`Kept`). -/

namespace Sys2Proof.Machine

theorem Memory.wf_setCell {m : Memory} {a : Nat} {b : Byte} (h : m.wf = true) :
    ({ m with cells := Tab.set 0 m.cells a b } : Memory).wf = true := by
  rw [Memory.wf_iff] at h ⊢
  exact ⟨Tab.wf_set h.1, h.2⟩

theorem Memory.wf_copyPage {m : Memory} {f a b n : Nat} (h : m.wf = true) : (m.copyPage f a b n).wf = true := by
  unfold Memory.copyPage
  refine Memory.wf_foldl (fun _ _ k => Memory.wf_poison k) ?_
  refine Memory.wf_foldl (fun _ _ k => Memory.wf_put k) ?_
  exact Memory.wf_foldl (fun _ _ k => Memory.wf_setCell k) (Memory.wf_zero h)

theorem kept_coreSync {fz o} {s a1 a2 a3 a4 a5} (h : Kept fz o s) :
    Kept fz o (coreSync s a1 a2 a3 a4 a5) := by
  unfold coreSync
  try dsimp only
  repeat' first
    | with_reducible assumption
    | intro _
    | dsimp only
    | with_reducible first | apply kept_updHost | apply kept_each | apply kept_foldl | apply kept_foldl1 | apply kept_ite | apply kept_ite1 | apply Memory.wf_put | apply Memory.wf_putByte | apply Memory.wf_fail | apply Memory.wf_zero | apply Memory.wf_poison | apply Memory.wf_unpoison | apply Memory.wf_mark | apply Memory.wf_writeLine | apply Memory.wf_foldl | apply Memory.wf_settle | apply Memory.wf_copyPage
    | with_reducible (refine Kept.upd rfl ?_; first | assumption | apply kept_updHost | apply kept_each | apply kept_foldl | apply kept_foldl1 | apply kept_ite | apply kept_ite1)
    | with_reducible (refine Kept.updMem rfl ?_ ?_; rotate_left; first | assumption | apply kept_updHost | apply kept_each | apply kept_foldl | apply kept_foldl1 | apply kept_ite | apply kept_ite1)
    | split

theorem kept_ctxmapWrite {fz o} {s a1 a2 a3 a4} (h : Kept fz o s) :
    Kept fz o (ctxmapWrite s a1 a2 a3 a4) := by
  unfold ctxmapWrite
  try dsimp only
  repeat' first
    | with_reducible assumption
    | intro _
    | dsimp only
    | with_reducible first | apply kept_updHost | apply kept_each | apply kept_foldl | apply kept_foldl1 | apply kept_ite

theorem keptR_execVfCtxmapWrite {fz o} {a0 a1 a2 a3 s} (h : Kept fz o s) :
    KeptR fz o (execVfCtxmapWrite a0 a1 a2 a3 s) := by
  unfold execVfCtxmapWrite
  try dsimp only
  repeat' first
    | with_reducible assumption
    | intro _
    | dsimp only
    | with_reducible first | apply kept_ctxmapWrite | apply kept_each | apply kept_foldl | apply kept_foldl1 | apply keptR_next | apply keptR_fault | apply keptR_ite | apply kept_ite

theorem kept_cowNote {fz o} {s a1 a2 a3} (h : Kept fz o s) :
    Kept fz o (cowNote s a1 a2 a3) := by
  unfold cowNote
  try dsimp only
  repeat' first
    | with_reducible assumption
    | intro _
    | dsimp only
    | with_reducible first | apply kept_note | apply kept_each | apply kept_foldl | apply kept_foldl1 | apply kept_ite | apply kept_ite1 | apply Memory.wf_put | apply Memory.wf_putByte | apply Memory.wf_fail | apply Memory.wf_zero | apply Memory.wf_poison | apply Memory.wf_unpoison | apply Memory.wf_mark | apply Memory.wf_writeLine | apply Memory.wf_foldl | apply Memory.wf_settle | apply Memory.wf_copyPage
    | with_reducible (refine Kept.upd rfl ?_; first | assumption | apply kept_note | apply kept_each | apply kept_foldl | apply kept_foldl1 | apply kept_ite | apply kept_ite1)
    | with_reducible (refine Kept.updMem rfl ?_ ?_; rotate_left; first | assumption | apply kept_note | apply kept_each | apply kept_foldl | apply kept_foldl1 | apply kept_ite | apply kept_ite1)
    | split

theorem keptA_apSize {fz o} {a0 a1}  :
    KeptA fz o (apSize a0 a1) := by
  unfold apSize
  try dsimp only
  repeat' first
    | with_reducible assumption
    | intro _
    | dsimp only
    | with_reducible first | apply keptA_objGet | apply kept_each | apply kept_foldl | apply kept_foldl1 | apply keptA_pure | apply keptA_bind_get | apply keptA_bind

theorem kept_sealedPiece {fz o} {s a1 a2 a3 a4} (h : Kept fz o s) :
    Kept fz o (sealedPiece s a1 a2 a3 a4) := by
  unfold sealedPiece
  try dsimp only
  repeat' first
    | with_reducible assumption
    | intro _
    | dsimp only
    | with_reducible first | apply kept_updAp | apply kept_fresh | apply kept_each | apply kept_foldl | apply kept_foldl1 | apply kept_ite | apply kept_ite1 | apply Memory.wf_put | apply Memory.wf_putByte | apply Memory.wf_fail | apply Memory.wf_zero | apply Memory.wf_poison | apply Memory.wf_unpoison | apply Memory.wf_mark | apply Memory.wf_writeLine | apply Memory.wf_foldl | apply Memory.wf_settle | apply Memory.wf_copyPage
    | with_reducible (refine Kept.upd rfl ?_; first | assumption | apply kept_updAp | apply kept_fresh | refine kept_ofP ?_ (by assumption))

theorem kept_drawSession {fz o} {s a1} (h : Kept fz o s) :
    Kept fz o (drawSession s a1).1 := by
  unfold drawSession
  try dsimp only
  repeat' first
    | with_reducible assumption
    | intro _
    | dsimp only
    | with_reducible first | apply kept_each | apply kept_foldl | apply kept_foldl1 | apply kept_ite | apply kept_ite1 | apply Memory.wf_put | apply Memory.wf_putByte | apply Memory.wf_fail | apply Memory.wf_zero | apply Memory.wf_poison | apply Memory.wf_unpoison | apply Memory.wf_mark | apply Memory.wf_writeLine | apply Memory.wf_foldl | apply Memory.wf_settle | apply Memory.wf_copyPage
    | with_reducible (refine Kept.upd rfl ?_; first | assumption | apply kept_each | apply kept_foldl | apply kept_foldl1 | apply kept_ite | apply kept_ite1)
    | with_reducible (refine Kept.updMem rfl ?_ ?_; rotate_left; first | assumption | apply kept_each | apply kept_foldl | apply kept_foldl1 | apply kept_ite | apply kept_ite1)
    | split

theorem kept_dropMany {fz o} {s a1 a2} (h : Kept fz o s) :
    Kept fz o (dropMany s a1 a2) := by
  unfold dropMany
  try dsimp only
  repeat' first
    | with_reducible assumption
    | intro _
    | dsimp only
    | with_reducible first | apply kept_updHost | apply kept_each | apply kept_foldl | apply kept_foldl1 | apply kept_ite | apply kept_ite1 | apply Memory.wf_put | apply Memory.wf_putByte | apply Memory.wf_fail | apply Memory.wf_zero | apply Memory.wf_poison | apply Memory.wf_unpoison | apply Memory.wf_mark | apply Memory.wf_writeLine | apply Memory.wf_foldl | apply Memory.wf_settle | apply Memory.wf_copyPage
    | with_reducible (refine Kept.upd rfl ?_; first | assumption | apply kept_updHost | apply kept_each | apply kept_foldl | apply kept_foldl1 | apply kept_ite | apply kept_ite1)
    | with_reducible (refine Kept.updMem rfl ?_ ?_; rotate_left; first | assumption | apply kept_updHost | apply kept_each | apply kept_foldl | apply kept_foldl1 | apply kept_ite | apply kept_ite1)
    | split

theorem kept_dropTail {fz o} {s a1 a2} (h : Kept fz o s) :
    Kept fz o (dropTail s a1 a2) := by
  unfold dropTail
  try dsimp only
  repeat' first
    | with_reducible assumption
    | intro _
    | dsimp only
    | with_reducible first | apply kept_dropMany | apply kept_updAp | apply kept_each | apply kept_foldl | apply kept_foldl1 | apply kept_ite | apply kept_ite1 | apply Memory.wf_put | apply Memory.wf_putByte | apply Memory.wf_fail | apply Memory.wf_zero | apply Memory.wf_poison | apply Memory.wf_unpoison | apply Memory.wf_mark | apply Memory.wf_writeLine | apply Memory.wf_foldl | apply Memory.wf_settle | apply Memory.wf_copyPage
    | with_reducible (refine Kept.upd rfl ?_; first | assumption | apply kept_dropMany | apply kept_updAp | apply kept_each | apply kept_foldl | apply kept_foldl1 | apply kept_ite | apply kept_ite1)
    | with_reducible (refine Kept.updMem rfl ?_ ?_; rotate_left; first | assumption | apply kept_dropMany | apply kept_updAp | apply kept_each | apply kept_foldl | apply kept_foldl1 | apply kept_ite | apply kept_ite1)
    | split

theorem kept_failAp {fz o} {s a1 a2 a3} (h : Kept fz o s) :
    Kept fz o (failAp s a1 a2 a3) := by
  unfold failAp
  try dsimp only
  repeat' first
    | with_reducible assumption
    | intro _
    | dsimp only
    | with_reducible first | apply kept_updAp | apply kept_each | apply kept_foldl | apply kept_foldl1 | apply kept_ite | apply kept_ite1 | apply Memory.wf_put | apply Memory.wf_putByte | apply Memory.wf_fail | apply Memory.wf_zero | apply Memory.wf_poison | apply Memory.wf_unpoison | apply Memory.wf_mark | apply Memory.wf_writeLine | apply Memory.wf_foldl | apply Memory.wf_settle | apply Memory.wf_copyPage
    | with_reducible (refine Kept.upd rfl ?_; first | assumption | apply kept_updAp)

theorem kept_clearEn {fz o} {s a1 a2} (h : Kept fz o s) :
    Kept fz o (clearEn s a1 a2) := by
  unfold clearEn
  try dsimp only
  repeat' first
    | with_reducible assumption
    | intro _
    | dsimp only
    | with_reducible first | apply kept_failAp | apply kept_updAp | apply kept_each | apply kept_foldl | apply kept_foldl1 | apply kept_ite

theorem kept_apCfgOpen {fz o} {s a1 a2 a3} (h : Kept fz o s) :
    Kept fz o (apCfgOpen s a1 a2 a3) := by
  unfold apCfgOpen
  try dsimp only
  repeat' first
    | with_reducible assumption
    | intro _
    | dsimp only
    | with_reducible first | apply kept_updAp | apply kept_failAp | apply kept_clearEn | apply kept_each | apply kept_foldl | apply kept_foldl1 | apply kept_ite

theorem keptA_enableAct {fz o} {a0 a1 a2 a3}  :
    KeptA fz o (enableAct a0 a1 a2 a3) := by
  unfold enableAct
  try dsimp only
  repeat' first
    | with_reducible assumption
    | intro _
    | dsimp only
    | with_reducible first | apply keptA_need | apply keptA_objGet | apply kept_each | apply kept_foldl | apply kept_foldl1 | apply keptA_pure | apply keptA_bind_get | apply keptA_bind

theorem kept_acceptEnable {fz o} {s a1 a2} (h : Kept fz o s) :
    Kept fz o (acceptEnable s a1 a2) := by
  unfold acceptEnable
  try dsimp only
  repeat' first
    | with_reducible assumption
    | intro _
    | dsimp only
    | with_reducible first | apply kept_drawSession | apply kept_updAp | apply kept_each | apply kept_foldl | apply kept_foldl1 | apply kept_ite | apply kept_ite1

theorem kept_refuseEnable {fz o} {s a1 a2 a3} (h : Kept fz o s) :
    Kept fz o (refuseEnable s a1 a2 a3) := by
  unfold refuseEnable
  try dsimp only
  repeat' first
    | with_reducible assumption
    | intro _
    | dsimp only
    | with_reducible first | apply kept_updAp

theorem kept_apCfgClosed {fz o} {s a1 a2 a3 a4} (h : Kept fz o s) :
    Kept fz o (apCfgClosed s a1 a2 a3 a4) := by
  unfold apCfgClosed
  try dsimp only
  repeat' first
    | with_reducible assumption
    | intro _
    | dsimp only
    | with_reducible first | apply kept_updAp | apply keptA_enableAct | apply kept_acceptEnable | apply kept_waitBack | apply kept_refuseEnable | apply kept_each | apply kept_foldl | apply kept_foldl1 | apply keptA_pure | apply keptA_bind_get | apply keptA_bind | apply keptA_modify | apply keptA_throw | apply keptA_get | apply keptA_set | apply keptA_ite | apply keptA_act | apply kept_endOk | apply kept_endError | apply kept_endIte | apply kept_ite | apply kept_ite1 | apply Memory.wf_put | apply Memory.wf_putByte | apply Memory.wf_fail | apply Memory.wf_zero | apply Memory.wf_poison | apply Memory.wf_unpoison | apply Memory.wf_mark | apply Memory.wf_writeLine | apply Memory.wf_foldl | apply Memory.wf_settle | apply Memory.wf_copyPage
    | with_reducible (refine Kept.upd rfl ?_; first | assumption | apply kept_updAp | apply keptA_enableAct | apply kept_acceptEnable | apply kept_waitBack | apply kept_refuseEnable | apply kept_each | apply kept_foldl | apply kept_foldl1 | apply kept_ite | apply kept_ite1 | refine keptA_ok ?_ ?_ (by assumption) | refine keptA_error ?_ ?_ (by assumption))
    | with_reducible (refine Kept.updMem rfl ?_ ?_; rotate_left; first | assumption | apply kept_updAp | apply keptA_enableAct | apply kept_acceptEnable | apply kept_waitBack | apply kept_refuseEnable | apply kept_each | apply kept_foldl | apply kept_foldl1 | apply kept_ite | apply kept_ite1 | refine keptA_ok ?_ ?_ (by assumption) | refine keptA_error ?_ ?_ (by assumption))
    | refine keptA_ok ?_ ?_ (by assumption)
    | refine keptA_error ?_ ?_ (by assumption)
    | split

theorem kept_apCfgWrite {fz o} {s a1 a2 a3 a4} (h : Kept fz o s) :
    Kept fz o (apCfgWrite s a1 a2 a3 a4) := by
  unfold apCfgWrite
  try dsimp only
  repeat' first
    | with_reducible assumption
    | intro _
    | dsimp only
    | with_reducible first | apply kept_apCfgOpen | apply kept_apCfgClosed | apply kept_each | apply kept_foldl | apply kept_foldl1 | apply kept_ite

theorem keptR_execApertureEnable {fz o} {a0 a1 a2 a3 s} (h : Kept fz o s) :
    KeptR fz o (execApertureEnable a0 a1 a2 a3 s) := by
  unfold execApertureEnable
  try dsimp only
  repeat' first
    | with_reducible assumption
    | intro _
    | dsimp only
    | with_reducible first | apply kept_apCfgWrite | apply kept_each | apply kept_foldl | apply kept_foldl1 | apply keptR_next | apply keptR_fault | apply keptR_ite | apply kept_ite

theorem kept_setApErr {fz o} {s a1 a2 a3} (h : Kept fz o s) :
    Kept fz o (setApErr s a1 a2 a3) := by
  unfold setApErr
  try dsimp only
  repeat' first
    | with_reducible assumption
    | intro _
    | dsimp only
    | with_reducible first | apply kept_updAp

theorem kept_issueReq {fz o} {s a1 a2} (h : Kept fz o s) :
    Kept fz o (issueReq s a1 a2) := by
  unfold issueReq
  try dsimp only
  repeat' first
    | with_reducible assumption
    | intro _
    | dsimp only
    | with_reducible first | apply kept_updGw | apply kept_each | apply kept_foldl | apply kept_foldl1 | apply kept_ite | apply kept_ite1 | apply Memory.wf_put | apply Memory.wf_putByte | apply Memory.wf_fail | apply Memory.wf_zero | apply Memory.wf_poison | apply Memory.wf_unpoison | apply Memory.wf_mark | apply Memory.wf_writeLine | apply Memory.wf_foldl | apply Memory.wf_settle | apply Memory.wf_copyPage
    | with_reducible (refine Kept.upd rfl ?_; first | assumption | apply kept_updGw | apply kept_each | apply kept_foldl | apply kept_foldl1 | apply kept_ite | apply kept_ite1)
    | with_reducible (refine Kept.updMem rfl ?_ ?_; rotate_left; first | assumption | apply kept_updGw | apply kept_each | apply kept_foldl | apply kept_foldl1 | apply kept_ite | apply kept_ite1)
    | split

theorem kept_answerWrite {fz o} {s a1 a2 a3 a4 a5} (h : Kept fz o s) :
    Kept fz o (answerWrite s a1 a2 a3 a4 a5) := by
  unfold answerWrite
  try dsimp only
  repeat' first
    | with_reducible assumption
    | intro _
    | dsimp only
    | with_reducible first | apply kept_updGw | apply kept_report | apply kept_each | apply kept_foldl | apply kept_foldl1 | apply kept_ite | apply kept_ite1 | apply Memory.wf_put | apply Memory.wf_putByte | apply Memory.wf_fail | apply Memory.wf_zero | apply Memory.wf_poison | apply Memory.wf_unpoison | apply Memory.wf_mark | apply Memory.wf_writeLine | apply Memory.wf_foldl | apply Memory.wf_settle | apply Memory.wf_copyPage
    | with_reducible (refine Kept.upd rfl ?_; first | assumption | apply kept_updGw | apply kept_report | apply kept_each | apply kept_foldl | apply kept_foldl1 | apply kept_ite | apply kept_ite1)
    | with_reducible (refine Kept.updMem rfl ?_ ?_; rotate_left; first | assumption | apply kept_updGw)

theorem kept_dropWw {fz o} {s a1} (h : Kept fz o s) :
    Kept fz o (dropWw s a1) := by
  unfold dropWw
  try dsimp only
  repeat' first
    | with_reducible assumption
    | intro _
    | dsimp only
    | with_reducible first | apply kept_each | apply kept_foldl | apply kept_foldl1 | apply kept_ite | apply kept_ite1 | apply Memory.wf_put | apply Memory.wf_putByte | apply Memory.wf_fail | apply Memory.wf_zero | apply Memory.wf_poison | apply Memory.wf_unpoison | apply Memory.wf_mark | apply Memory.wf_writeLine | apply Memory.wf_foldl | apply Memory.wf_settle | apply Memory.wf_copyPage
    | with_reducible (refine Kept.upd rfl ?_; first | assumption)

theorem kept_commitWw {fz o} {s a1} (h : Kept fz o s) :
    Kept fz o (commitWw s a1) := by
  unfold commitWw
  try dsimp only
  repeat' first
    | with_reducible assumption
    | intro _
    | dsimp only
    | with_reducible first | apply kept_dropWw | apply kept_updHost | apply kept_each | apply kept_foldl | apply kept_foldl1 | apply kept_ite | apply kept_ite1 | apply Memory.wf_put | apply Memory.wf_putByte | apply Memory.wf_fail | apply Memory.wf_zero | apply Memory.wf_poison | apply Memory.wf_unpoison | apply Memory.wf_mark | apply Memory.wf_writeLine | apply Memory.wf_foldl | apply Memory.wf_settle | apply Memory.wf_copyPage
    | with_reducible (refine Kept.upd rfl ?_; first | assumption | apply kept_dropWw | apply kept_updHost | apply kept_each | apply kept_foldl | apply kept_foldl1 | apply kept_ite | apply kept_ite1)
    | with_reducible (refine Kept.updMem rfl ?_ ?_; rotate_left; first | assumption | apply kept_dropWw | apply kept_updHost | apply kept_each | apply kept_foldl | apply kept_foldl1 | apply kept_ite | apply kept_ite1)
    | split

theorem keptR_execBar2Read {fz o} {a0 s} (h : Kept fz o s) :
    KeptR fz o (execBar2Read a0 s) := by
  unfold execBar2Read
  try dsimp only
  repeat' first
    | with_reducible assumption
    | intro _
    | dsimp only
    | with_reducible first | apply kept_emit | apply kept_noteDropped | apply kept_each | apply kept_foldl | apply kept_foldl1 | apply keptR_next | apply keptR_fault | apply keptR_ite | apply kept_ite

theorem keptA_wwBase {fz o} {a0 a1}  :
    KeptA fz o (wwBase a0 a1) := by
  unfold wwBase
  try dsimp only
  repeat' first
    | with_reducible assumption
    | intro _
    | dsimp only
    | with_reducible first | apply keptA_lineRead | apply keptA_lineWrite | apply keptA_objGet | apply keptA_engRead | apply keptA_failWith | apply kept_each | apply kept_foldl | apply kept_foldl1 | apply keptA_pure | apply keptA_bind_get | apply keptA_bind | apply keptA_modify | apply keptA_throw | apply keptA_get | apply keptA_set | apply keptA_ite

theorem keptA_cowCount {fz o} {a0 a1}  :
    KeptA fz o (cowCount a0 a1) := by
  unfold cowCount
  try dsimp only
  repeat' first
    | with_reducible assumption
    | intro _
    | dsimp only
    | with_reducible first | apply keptA_objGet | apply keptA_attempt | apply keptA_vlineGet | apply keptA_vlinePut | apply kept_each | apply kept_foldl | apply kept_foldl1 | apply keptA_pure | apply keptA_bind_get | apply keptA_bind | apply keptA_modify | apply keptA_throw | apply keptA_get | apply keptA_set | apply keptA_ite | apply keptA_act | apply kept_endOk | apply kept_endError | apply kept_endIte | apply kept_ite | apply kept_ite1 | apply Memory.wf_put | apply Memory.wf_putByte | apply Memory.wf_fail | apply Memory.wf_zero | apply Memory.wf_poison | apply Memory.wf_unpoison | apply Memory.wf_mark | apply Memory.wf_writeLine | apply Memory.wf_foldl | apply Memory.wf_settle | apply Memory.wf_copyPage
    | with_reducible (refine Kept.upd rfl ?_; first | assumption | apply keptA_objGet | apply keptA_attempt | apply keptA_vlineGet | apply keptA_vlinePut | apply kept_each | apply kept_foldl | apply kept_foldl1 | apply kept_ite | apply kept_ite1 | refine keptA_ok ?_ ?_ (by assumption) | refine keptA_error ?_ ?_ (by assumption))
    | with_reducible (refine Kept.updMem rfl ?_ ?_; rotate_left; first | assumption | apply keptA_objGet | apply keptA_attempt | apply keptA_vlineGet | apply keptA_vlinePut | apply kept_each | apply kept_foldl | apply kept_foldl1 | apply kept_ite | apply kept_ite1 | refine keptA_ok ?_ ?_ (by assumption) | refine keptA_error ?_ ?_ (by assumption))
    | refine keptA_ok ?_ ?_ (by assumption)
    | refine keptA_error ?_ ?_ (by assumption)
    | split
    | refine keptA_fun ?_
    | with_reducible apply KeptA.ends

theorem kept_ingestNote {fz o} {s a1 a2 a3} (h : Kept fz o s) :
    Kept fz o (ingestNote s a1 a2 a3) := by
  unfold ingestNote
  try dsimp only
  repeat' first
    | with_reducible assumption
    | intro _
    | dsimp only
    | with_reducible first | apply kept_note

theorem kept_failWw {fz o} {s a1 a2 a3} (h : Kept fz o s) :
    Kept fz o (failWw s a1 a2 a3) := by
  unfold failWw
  try dsimp only
  repeat' first
    | with_reducible assumption
    | intro _
    | dsimp only
    | with_reducible first | apply kept_dropWw | apply kept_failAp | apply kept_setApErr | apply kept_dropMany | apply kept_ingestNote | apply kept_each | apply kept_foldl | apply kept_foldl1 | apply kept_ite | apply kept_ite1 | apply Memory.wf_put | apply Memory.wf_putByte | apply Memory.wf_fail | apply Memory.wf_zero | apply Memory.wf_poison | apply Memory.wf_unpoison | apply Memory.wf_mark | apply Memory.wf_writeLine | apply Memory.wf_foldl | apply Memory.wf_settle | apply Memory.wf_copyPage
    | with_reducible (refine Kept.upd rfl ?_; first | assumption | apply kept_dropWw | apply kept_failAp | apply kept_setApErr | apply kept_dropMany | apply kept_ingestNote | apply kept_each | apply kept_foldl | apply kept_foldl1 | apply kept_ite | apply kept_ite1)
    | with_reducible (refine Kept.updMem rfl ?_ ?_; rotate_left; first | assumption | apply kept_dropWw | apply kept_failAp | apply kept_setApErr | apply kept_dropMany | apply kept_ingestNote | apply kept_each | apply kept_foldl | apply kept_foldl1 | apply kept_ite | apply kept_ite1)
    | split

theorem kept_updWw {fz o} {s a1 a2} (h : Kept fz o s) :
    Kept fz o (updWw s a1 a2) := by
  unfold updWw
  try dsimp only
  repeat' first
    | with_reducible assumption
    | intro _
    | dsimp only
    | with_reducible first | apply kept_each | apply kept_foldl | apply kept_foldl1 | apply kept_ite | apply kept_ite1 | apply Memory.wf_put | apply Memory.wf_putByte | apply Memory.wf_fail | apply Memory.wf_zero | apply Memory.wf_poison | apply Memory.wf_unpoison | apply Memory.wf_mark | apply Memory.wf_writeLine | apply Memory.wf_foldl | apply Memory.wf_settle | apply Memory.wf_copyPage
    | with_reducible (refine Kept.upd rfl ?_; first | assumption)

theorem kept_wwSend {fz o} {a0 a1 a2 a3 a4 s} (h : Kept fz o s) :
    Kept fz o (wwSend a0 a1 a2 a3 a4 s) := by
  induction a4 generalizing a3 s with
  | nil =>
    unfold wwSend
    try dsimp only
    repeat' first
      | with_reducible assumption
      | intro _
      | dsimp only
      | with_reducible first | apply kept_updWw | apply kept_issueReq | apply kept_each | apply kept_foldl | apply kept_foldl1 | apply kept_ite | apply kept_ite1 | apply Memory.wf_put | apply Memory.wf_putByte | apply Memory.wf_fail | apply Memory.wf_zero | apply Memory.wf_poison | apply Memory.wf_unpoison | apply Memory.wf_mark | apply Memory.wf_writeLine | apply Memory.wf_foldl | apply Memory.wf_settle | apply Memory.wf_copyPage
      | with_reducible (refine Kept.upd rfl ?_; first | assumption | apply kept_updWw | apply kept_issueReq | apply kept_each | apply kept_foldl | apply kept_foldl1 | apply kept_ite | apply kept_ite1)
      | with_reducible (refine Kept.updMem rfl ?_ ?_; rotate_left; first | assumption | apply kept_updWw | apply kept_issueReq | apply kept_each | apply kept_foldl | apply kept_foldl1 | apply kept_ite | apply kept_ite1)
      | split
  | cons b t ih =>
    unfold wwSend
    try dsimp only
    repeat' first
      | with_reducible assumption
      | intro _
      | dsimp only
      | with_reducible first | apply kept_updWw | apply kept_issueReq | apply ih | apply kept_each | apply kept_foldl | apply kept_foldl1 | apply kept_ite | apply kept_ite1 | apply Memory.wf_put | apply Memory.wf_putByte | apply Memory.wf_fail | apply Memory.wf_zero | apply Memory.wf_poison | apply Memory.wf_unpoison | apply Memory.wf_mark | apply Memory.wf_writeLine | apply Memory.wf_foldl | apply Memory.wf_settle | apply Memory.wf_copyPage
      | with_reducible (refine Kept.upd rfl ?_; first | assumption | apply kept_updWw | apply kept_issueReq | apply ih | apply kept_each | apply kept_foldl | apply kept_foldl1 | apply kept_ite | apply kept_ite1)
      | with_reducible (refine Kept.updMem rfl ?_ ?_; rotate_left; first | assumption | apply kept_updWw | apply kept_issueReq | apply ih | apply kept_each | apply kept_foldl | apply kept_foldl1 | apply kept_ite | apply kept_ite1)
      | split

theorem kept_wwIssue {fz o} {s a1 a2 a3} (h : Kept fz o s) :
    Kept fz o (wwIssue s a1 a2 a3) := by
  unfold wwIssue
  try dsimp only
  repeat' first
    | with_reducible assumption
    | intro _
    | dsimp only
    | with_reducible first | apply kept_failWw | apply kept_report | apply kept_wwSend | apply kept_each | apply kept_foldl | apply kept_foldl1 | apply kept_ite | apply kept_ite1 | apply Memory.wf_put | apply Memory.wf_putByte | apply Memory.wf_fail | apply Memory.wf_zero | apply Memory.wf_poison | apply Memory.wf_unpoison | apply Memory.wf_mark | apply Memory.wf_writeLine | apply Memory.wf_foldl | apply Memory.wf_settle | apply Memory.wf_copyPage
    | with_reducible (refine Kept.upd rfl ?_; first | assumption | apply kept_failWw | apply kept_report | apply kept_wwSend | apply kept_each | apply kept_foldl | apply kept_foldl1 | apply kept_ite | apply kept_ite1)
    | with_reducible (refine Kept.updMem rfl ?_ ?_; rotate_left; first | assumption | apply kept_failWw | apply kept_report | apply kept_wwSend | apply kept_each | apply kept_foldl | apply kept_foldl1 | apply kept_ite | apply kept_ite1)
    | split

theorem kept_poisonTlp {fz o} {s a1 a2} (h : Kept fz o s) :
    Kept fz o (poisonTlp s a1 a2) := by
  unfold poisonTlp
  try dsimp only
  repeat' first
    | with_reducible assumption
    | intro _
    | dsimp only
    | with_reducible first | apply kept_note | apply kept_emit

theorem kept_wwTarget {fz o} {s a1 a2 a3 a4} (h : Kept fz o s) :
    Kept fz o (wwTarget s a1 a2 a3 a4).1 := by
  unfold wwTarget
  try dsimp only
  repeat' first
    | with_reducible assumption
    | intro _
    | dsimp only
    | with_reducible first | apply kept_translate | apply kept_waitBack | apply kept_each | apply kept_foldl | apply kept_foldl1 | apply kept_ite | apply kept_ite1 | apply Memory.wf_put | apply Memory.wf_putByte | apply Memory.wf_fail | apply Memory.wf_zero | apply Memory.wf_poison | apply Memory.wf_unpoison | apply Memory.wf_mark | apply Memory.wf_writeLine | apply Memory.wf_foldl | apply Memory.wf_settle | apply Memory.wf_copyPage
    | with_reducible (refine Kept.upd rfl ?_; first | assumption | apply kept_translate | apply kept_waitBack | apply kept_each | apply kept_foldl | apply kept_foldl1 | apply kept_ite | apply kept_ite1 | refine kept_ofP ?_ (by assumption))
    | with_reducible (refine Kept.updMem rfl ?_ ?_; rotate_left; first | assumption | apply kept_translate | apply kept_waitBack | apply kept_each | apply kept_foldl | apply kept_foldl1 | apply kept_ite | apply kept_ite1 | refine kept_ofP ?_ (by assumption))
    | refine kept_ofP ?_ (by assumption)
    | split

theorem keptA_startCow {fz o} {a0 a1 a2 a3 a4 a5}  :
    KeptA fz o (startCow a0 a1 a2 a3 a4 a5) := by
  unfold startCow
  try dsimp only
  repeat' first
    | with_reducible assumption
    | intro _
    | dsimp only
    | with_reducible first | apply keptA_objGet | apply keptA_need | apply keptA_leavesOf | apply keptA_onEnd | apply keptA_takeFrame | apply kept_cowNote | apply kept_holdFault | apply kept_each | apply kept_foldl | apply kept_foldl1 | apply keptA_pure | apply keptA_bind_get | apply keptA_bind | apply keptA_modify | apply keptA_throw | apply keptA_get | apply keptA_set | apply keptA_ite | apply keptA_act | apply kept_endOk | apply kept_endError | apply kept_endIte | apply kept_ite | apply kept_ite1 | apply Memory.wf_put | apply Memory.wf_putByte | apply Memory.wf_fail | apply Memory.wf_zero | apply Memory.wf_poison | apply Memory.wf_unpoison | apply Memory.wf_mark | apply Memory.wf_writeLine | apply Memory.wf_foldl | apply Memory.wf_settle | apply Memory.wf_copyPage
    | with_reducible (refine Kept.upd rfl ?_; first | assumption | apply keptA_objGet | apply keptA_need | apply keptA_leavesOf | apply keptA_onEnd | apply keptA_takeFrame | apply kept_cowNote | apply kept_holdFault | apply kept_each | apply kept_foldl | apply kept_foldl1 | apply kept_ite | apply kept_ite1 | refine keptA_ok ?_ ?_ (by assumption) | refine keptA_error ?_ ?_ (by assumption) | refine kept_ofP ?_ (by assumption))
    | with_reducible (refine Kept.updMem rfl ?_ ?_; rotate_left; first | assumption | apply keptA_objGet | apply keptA_need | apply keptA_leavesOf | apply keptA_onEnd | apply keptA_takeFrame | apply kept_cowNote | apply kept_holdFault | apply kept_each | apply kept_foldl | apply kept_foldl1 | apply kept_ite | apply kept_ite1 | refine keptA_ok ?_ ?_ (by assumption) | refine keptA_error ?_ ?_ (by assumption) | refine kept_ofP ?_ (by assumption))
    | refine keptA_ok ?_ ?_ (by assumption)
    | refine keptA_error ?_ ?_ (by assumption)
    | refine kept_ofP ?_ (by assumption)
    | split
    | refine keptA_fun ?_
    | with_reducible apply KeptA.ends

theorem kept_wwAdvance {fz o} {s a1 a2} (h : Kept fz o s) :
    Kept fz o (wwAdvance s a1 a2) := by
  unfold wwAdvance
  try dsimp only
  repeat' first
    | with_reducible assumption
    | intro _
    | dsimp only
    | with_reducible first | apply kept_updWw | apply keptA_wwBase | apply kept_waitBack | apply kept_dropOne | apply kept_dropWw | apply kept_failWw | apply kept_wwTarget | apply kept_wwIssue | apply keptA_leavesOf | apply keptA_startCow | apply kept_each | apply kept_foldl | apply kept_foldl1 | apply keptA_pure | apply keptA_bind_get | apply keptA_bind | apply keptA_modify | apply keptA_throw | apply keptA_get | apply keptA_set | apply keptA_ite | apply keptA_act | apply kept_endOk | apply kept_endError | apply kept_endIte | apply kept_ite | apply kept_ite1 | apply Memory.wf_put | apply Memory.wf_putByte | apply Memory.wf_fail | apply Memory.wf_zero | apply Memory.wf_poison | apply Memory.wf_unpoison | apply Memory.wf_mark | apply Memory.wf_writeLine | apply Memory.wf_foldl | apply Memory.wf_settle | apply Memory.wf_copyPage
    | with_reducible (refine Kept.upd rfl ?_; first | assumption | apply kept_updWw | apply keptA_wwBase | apply kept_waitBack | apply kept_dropOne | apply kept_dropWw | apply kept_failWw | apply kept_wwTarget | apply kept_wwIssue | apply keptA_leavesOf | apply keptA_startCow | apply kept_each | apply kept_foldl | apply kept_foldl1 | apply kept_ite | apply kept_ite1 | refine keptA_ok ?_ ?_ (by assumption) | refine keptA_error ?_ ?_ (by assumption) | refine kept_ofP ?_ (by assumption))
    | with_reducible (refine Kept.updMem rfl ?_ ?_; rotate_left; first | assumption | apply kept_updWw | apply keptA_wwBase | apply kept_waitBack | apply kept_dropOne | apply kept_dropWw | apply kept_failWw | apply kept_wwTarget | apply kept_wwIssue | apply keptA_leavesOf | apply keptA_startCow | apply kept_each | apply kept_foldl | apply kept_foldl1 | apply kept_ite | apply kept_ite1 | refine keptA_ok ?_ ?_ (by assumption) | refine keptA_error ?_ ?_ (by assumption) | refine kept_ofP ?_ (by assumption))
    | refine keptA_ok ?_ ?_ (by assumption)
    | refine keptA_error ?_ ?_ (by assumption)
    | refine kept_ofP ?_ (by assumption)
    | split

theorem kept_wwEnter {fz o} {s a1 a2} (h : Kept fz o s) :
    Kept fz o (wwEnter s a1 a2) := by
  unfold wwEnter
  try dsimp only
  repeat' first
    | with_reducible assumption
    | intro _
    | dsimp only
    | with_reducible first | apply kept_fresh | apply kept_wwAdvance | apply kept_each | apply kept_foldl | apply kept_foldl1 | apply kept_ite | apply kept_ite1 | apply Memory.wf_put | apply Memory.wf_putByte | apply Memory.wf_fail | apply Memory.wf_zero | apply Memory.wf_poison | apply Memory.wf_unpoison | apply Memory.wf_mark | apply Memory.wf_writeLine | apply Memory.wf_foldl | apply Memory.wf_settle | apply Memory.wf_copyPage
    | with_reducible (refine Kept.upd rfl ?_; first | assumption | apply kept_fresh | refine kept_ofP ?_ (by assumption))

theorem kept_apWrite {fz o} {s a1 a2 a3 a4 a5 a6 a7} (h : Kept fz o s) :
    Kept fz o (apWrite s a1 a2 a3 a4 a5 a6 a7) := by
  unfold apWrite
  try dsimp only
  repeat' first
    | with_reducible assumption
    | intro _
    | dsimp only
    | with_reducible first | apply kept_poisonTlp | apply keptA_apSize | apply kept_ingestNote | apply kept_setApErr | apply kept_dropOne | apply kept_wwEnter | apply kept_failAp | apply kept_updAp | apply kept_sealedPiece | apply kept_each | apply kept_foldl | apply kept_foldl1 | apply keptA_pure | apply keptA_bind_get | apply keptA_bind | apply keptA_modify | apply keptA_throw | apply keptA_get | apply keptA_set | apply keptA_ite | apply keptA_act | apply kept_endOk | apply kept_endError | apply kept_endIte | apply kept_ite | apply kept_ite1 | apply Memory.wf_put | apply Memory.wf_putByte | apply Memory.wf_fail | apply Memory.wf_zero | apply Memory.wf_poison | apply Memory.wf_unpoison | apply Memory.wf_mark | apply Memory.wf_writeLine | apply Memory.wf_foldl | apply Memory.wf_settle | apply Memory.wf_copyPage
    | with_reducible (refine Kept.upd rfl ?_; first | assumption | apply kept_poisonTlp | apply keptA_apSize | apply kept_ingestNote | apply kept_setApErr | apply kept_dropOne | apply kept_wwEnter | apply kept_failAp | apply kept_updAp | apply kept_sealedPiece | apply kept_each | apply kept_foldl | apply kept_foldl1 | apply kept_ite | apply kept_ite1 | refine keptA_ok ?_ ?_ (by assumption) | refine keptA_error ?_ ?_ (by assumption))
    | with_reducible (refine Kept.updMem rfl ?_ ?_; rotate_left; first | assumption | apply kept_poisonTlp | apply keptA_apSize | apply kept_ingestNote | apply kept_setApErr | apply kept_dropOne | apply kept_wwEnter | apply kept_failAp | apply kept_updAp | apply kept_sealedPiece | apply kept_each | apply kept_foldl | apply kept_foldl1 | apply kept_ite | apply kept_ite1 | refine keptA_ok ?_ ?_ (by assumption) | refine keptA_error ?_ ?_ (by assumption))
    | refine keptA_ok ?_ ?_ (by assumption)
    | refine keptA_error ?_ ?_ (by assumption)
    | split
    | refine keptA_fun ?_
    | with_reducible apply KeptA.ends

theorem kept_windowWrite {fz o} {s a1 a2 a3 a4 a5 a6} (h : Kept fz o s) :
    Kept fz o (windowWrite s a1 a2 a3 a4 a5 a6) := by
  unfold windowWrite
  try dsimp only
  repeat' first
    | with_reducible assumption
    | intro _
    | dsimp only
    | with_reducible first | apply kept_dropOne | apply kept_portEvent | apply kept_noteDropped | apply kept_emit | apply kept_apWrite | apply kept_each | apply kept_foldl | apply kept_foldl1 | apply kept_ite | apply kept_ite1 | apply Memory.wf_put | apply Memory.wf_putByte | apply Memory.wf_fail | apply Memory.wf_zero | apply Memory.wf_poison | apply Memory.wf_unpoison | apply Memory.wf_mark | apply Memory.wf_writeLine | apply Memory.wf_foldl | apply Memory.wf_settle | apply Memory.wf_copyPage
    | with_reducible (refine Kept.upd rfl ?_; first | assumption | apply kept_dropOne | apply kept_portEvent | apply kept_noteDropped | apply kept_emit | apply kept_apWrite | apply kept_each | apply kept_foldl | apply kept_foldl1 | apply kept_ite | apply kept_ite1)
    | with_reducible (refine Kept.updMem rfl ?_ ?_; rotate_left; first | assumption | apply kept_dropOne | apply kept_portEvent | apply kept_noteDropped | apply kept_emit | apply kept_apWrite | apply kept_each | apply kept_foldl | apply kept_foldl1 | apply kept_ite | apply kept_ite1)
    | split

theorem keptR_execWindowWrite {fz o} {a0 a1 a2 a3 a4 a5 s} (h : Kept fz o s) :
    KeptR fz o (execWindowWrite a0 a1 a2 a3 a4 a5 s) := by
  unfold execWindowWrite
  try dsimp only
  repeat' first
    | with_reducible assumption
    | intro _
    | dsimp only
    | with_reducible first | apply kept_windowWrite | apply kept_each | apply kept_foldl | apply kept_foldl1 | apply keptR_next

theorem kept_commitTlps {fz o} {s a1 a2} (h : Kept fz o s) :
    Kept fz o (commitTlps s a1 a2) := by
  unfold commitTlps
  try dsimp only
  repeat' first
    | with_reducible assumption
    | intro _
    | dsimp only
    | with_reducible first | apply kept_updHost | apply kept_each | apply kept_foldl | apply kept_foldl1 | apply kept_ite | apply kept_ite1 | apply Memory.wf_put | apply Memory.wf_putByte | apply Memory.wf_fail | apply Memory.wf_zero | apply Memory.wf_poison | apply Memory.wf_unpoison | apply Memory.wf_mark | apply Memory.wf_writeLine | apply Memory.wf_foldl | apply Memory.wf_settle | apply Memory.wf_copyPage
    | with_reducible (refine Kept.upd rfl ?_; first | assumption | apply kept_updHost | apply kept_each | apply kept_foldl | apply kept_foldl1 | apply kept_ite | apply kept_ite1)
    | with_reducible (refine Kept.updMem rfl ?_ ?_; rotate_left; first | assumption | apply kept_updHost | apply kept_each | apply kept_foldl | apply kept_foldl1 | apply kept_ite | apply kept_ite1)
    | split

theorem kept_sealedRecord {fz o} {s a1 a2 a3} (h : Kept fz o s) :
    Kept fz o (sealedRecord s a1 a2 a3) := by
  unfold sealedRecord
  try dsimp only
  repeat' first
    | with_reducible assumption
    | intro _
    | dsimp only
    | with_reducible first | apply keptA_apSize | apply kept_ingestNote | apply kept_failAp | apply kept_updAp | apply kept_dropTail | apply kept_commitTlps | apply kept_wwEnter | apply kept_each | apply kept_foldl | apply kept_foldl1 | apply keptA_pure | apply keptA_bind_get | apply keptA_bind | apply keptA_modify | apply keptA_throw | apply keptA_get | apply keptA_set | apply keptA_ite | apply keptA_act | apply kept_endOk | apply kept_endError | apply kept_endIte | apply kept_ite | apply kept_ite1 | apply Memory.wf_put | apply Memory.wf_putByte | apply Memory.wf_fail | apply Memory.wf_zero | apply Memory.wf_poison | apply Memory.wf_unpoison | apply Memory.wf_mark | apply Memory.wf_writeLine | apply Memory.wf_foldl | apply Memory.wf_settle | apply Memory.wf_copyPage
    | with_reducible (refine Kept.upd rfl ?_; first | assumption | apply keptA_apSize | apply kept_ingestNote | apply kept_failAp | apply kept_updAp | apply kept_dropTail | apply kept_commitTlps | apply kept_wwEnter | apply kept_each | apply kept_foldl | apply kept_foldl1 | apply kept_ite | apply kept_ite1 | refine keptA_ok ?_ ?_ (by assumption) | refine keptA_error ?_ ?_ (by assumption))
    | with_reducible (refine Kept.updMem rfl ?_ ?_; rotate_left; first | assumption | apply keptA_apSize | apply kept_ingestNote | apply kept_failAp | apply kept_updAp | apply kept_dropTail | apply kept_commitTlps | apply kept_wwEnter | apply kept_each | apply kept_foldl | apply kept_foldl1 | apply kept_ite | apply kept_ite1 | refine keptA_ok ?_ ?_ (by assumption) | refine keptA_error ?_ ?_ (by assumption))
    | refine keptA_ok ?_ ?_ (by assumption)
    | refine keptA_error ?_ ?_ (by assumption)
    | split
    | refine keptA_fun ?_
    | with_reducible apply KeptA.ends

theorem keptR_execSealedRecord {fz o} {a0 a1 a2 s} (h : Kept fz o s) :
    KeptR fz o (execSealedRecord a0 a1 a2 s) := by
  unfold execSealedRecord
  try dsimp only
  repeat' first
    | with_reducible assumption
    | intro _
    | dsimp only
    | with_reducible first | apply kept_sealedRecord | apply kept_each | apply kept_foldl | apply kept_foldl1 | apply keptR_next

theorem kept_wwMove {fz o} {s a1 a2} (h : Kept fz o s) :
    Kept fz o (wwMove s a1 a2) := by
  unfold wwMove
  try dsimp only
  repeat' first
    | with_reducible assumption
    | intro _
    | dsimp only
    | with_reducible first | apply kept_wwAdvance | apply kept_wwSend | apply kept_each | apply kept_foldl | apply kept_foldl1 | apply kept_ite | apply kept_ite1 | apply Memory.wf_put | apply Memory.wf_putByte | apply Memory.wf_fail | apply Memory.wf_zero | apply Memory.wf_poison | apply Memory.wf_unpoison | apply Memory.wf_mark | apply Memory.wf_writeLine | apply Memory.wf_foldl | apply Memory.wf_settle | apply Memory.wf_copyPage
    | with_reducible (refine Kept.upd rfl ?_; first | assumption | apply kept_wwAdvance | apply kept_wwSend | apply kept_each | apply kept_foldl | apply kept_foldl1 | apply kept_ite | apply kept_ite1)
    | with_reducible (refine Kept.updMem rfl ?_ ?_; rotate_left; first | assumption | apply kept_wwAdvance | apply kept_wwSend | apply kept_each | apply kept_foldl | apply kept_foldl1 | apply kept_ite | apply kept_ite1)
    | split

theorem kept_wwPump {fz o} {s a1} (h : Kept fz o s) :
    Kept fz o (wwPump s a1) := by
  unfold wwPump
  try dsimp only
  repeat' first
    | with_reducible assumption
    | intro _
    | dsimp only
    | with_reducible first | apply kept_wwMove | apply kept_each | apply kept_foldl | apply kept_foldl1 | apply kept_ite | apply kept_ite1 | apply Memory.wf_put | apply Memory.wf_putByte | apply Memory.wf_fail | apply Memory.wf_zero | apply Memory.wf_poison | apply Memory.wf_unpoison | apply Memory.wf_mark | apply Memory.wf_writeLine | apply Memory.wf_foldl | apply Memory.wf_settle | apply Memory.wf_copyPage
    | with_reducible (refine Kept.upd rfl ?_; first | assumption | apply kept_wwMove | apply kept_each | apply kept_foldl | apply kept_foldl1 | apply kept_ite | apply kept_ite1)
    | with_reducible (refine Kept.updMem rfl ?_ ?_; rotate_left; first | assumption | apply kept_wwMove | apply kept_each | apply kept_foldl | apply kept_foldl1 | apply kept_ite | apply kept_ite1)
    | split

theorem kept_wwAnswer {fz o} {s a1 a2 a3} (h : Kept fz o s) :
    Kept fz o (wwAnswer s a1 a2 a3) := by
  unfold wwAnswer
  try dsimp only
  repeat' first
    | with_reducible assumption
    | intro _
    | dsimp only
    | with_reducible first | apply kept_commitWw | apply kept_failWw | apply kept_flrSettle | apply kept_wwPump | apply kept_updWw | apply kept_each | apply kept_foldl | apply kept_foldl1 | apply kept_ite | apply kept_ite1 | apply Memory.wf_put | apply Memory.wf_putByte | apply Memory.wf_fail | apply Memory.wf_zero | apply Memory.wf_poison | apply Memory.wf_unpoison | apply Memory.wf_mark | apply Memory.wf_writeLine | apply Memory.wf_foldl | apply Memory.wf_settle | apply Memory.wf_copyPage
    | with_reducible (refine Kept.upd rfl ?_; first | assumption | apply kept_commitWw | apply kept_failWw | apply kept_flrSettle | apply kept_wwPump | apply kept_updWw | apply kept_each | apply kept_foldl | apply kept_foldl1 | apply kept_ite | apply kept_ite1)
    | with_reducible (refine Kept.updMem rfl ?_ ?_; rotate_left; first | assumption | apply kept_commitWw | apply kept_failWw | apply kept_flrSettle | apply kept_wwPump | apply kept_updWw | apply kept_each | apply kept_foldl | apply kept_foldl1 | apply kept_ite | apply kept_ite1)
    | split

theorem keptR_execWindowWriteCommit {fz o} {a0 a1 s} (h : Kept fz o s) :
    KeptR fz o (execWindowWriteCommit a0 a1 s) := by
  unfold execWindowWriteCommit
  try dsimp only
  repeat' first
    | with_reducible assumption
    | intro _
    | dsimp only
    | with_reducible first | apply kept_quarantineTag | apply kept_wwAnswer | apply kept_answerWrite | apply kept_each | apply kept_foldl | apply kept_foldl1 | apply keptR_next | apply keptR_fault | apply keptR_ite | apply kept_ite | apply kept_ite1 | apply Memory.wf_put | apply Memory.wf_putByte | apply Memory.wf_fail | apply Memory.wf_zero | apply Memory.wf_poison | apply Memory.wf_unpoison | apply Memory.wf_mark | apply Memory.wf_writeLine | apply Memory.wf_foldl | apply Memory.wf_settle | apply Memory.wf_copyPage
    | with_reducible (refine Kept.upd rfl ?_; first | assumption | apply kept_quarantineTag | apply kept_wwAnswer | apply kept_answerWrite | apply kept_each | apply kept_foldl | apply kept_foldl1 | apply kept_ite | apply kept_ite1)
    | with_reducible (refine Kept.updMem rfl ?_ ?_; rotate_left; first | assumption | apply kept_quarantineTag)
    | split

theorem kept_failCow {fz o} {s a1 a2 a3 a4} (h : Kept fz o s) :
    Kept fz o (failCow s a1 a2 a3 a4) := by
  unfold failCow
  try dsimp only
  repeat' first
    | with_reducible assumption
    | intro _
    | dsimp only
    | with_reducible first | apply kept_pushFrame | apply kept_cowNote | apply kept_failWw | apply kept_wwAdvance | apply kept_each | apply kept_foldl | apply kept_foldl1 | apply kept_ite | apply kept_ite1 | apply Memory.wf_put | apply Memory.wf_putByte | apply Memory.wf_fail | apply Memory.wf_zero | apply Memory.wf_poison | apply Memory.wf_unpoison | apply Memory.wf_mark | apply Memory.wf_writeLine | apply Memory.wf_foldl | apply Memory.wf_settle | apply Memory.wf_copyPage
    | with_reducible (refine Kept.upd rfl ?_; first | assumption | apply kept_pushFrame | apply kept_cowNote | apply kept_failWw | apply kept_wwAdvance | apply kept_each | apply kept_foldl | apply kept_foldl1 | apply kept_ite | apply kept_ite1)
    | with_reducible (refine Kept.updMem rfl ?_ ?_; rotate_left; first | assumption | apply kept_pushFrame | apply kept_cowNote | apply kept_failWw | apply kept_wwAdvance | apply kept_each | apply kept_foldl | apply kept_foldl1 | apply kept_ite | apply kept_ite1)
    | split

theorem kept_appendRec {fz o} {s a1} (h : Kept fz o s) :
    Kept fz o (appendRec s a1) := by
  unfold appendRec
  try dsimp only
  repeat' first
    | with_reducible assumption
    | intro _
    | dsimp only
    | with_reducible first | apply kept_updPart | apply kept_each | apply kept_foldl | apply kept_foldl1 | apply kept_ite | apply kept_ite1 | apply Memory.wf_put | apply Memory.wf_putByte | apply Memory.wf_fail | apply Memory.wf_zero | apply Memory.wf_poison | apply Memory.wf_unpoison | apply Memory.wf_mark | apply Memory.wf_writeLine | apply Memory.wf_foldl | apply Memory.wf_settle | apply Memory.wf_copyPage
    | with_reducible (refine Kept.upd rfl ?_; first | assumption | apply kept_updPart)

theorem keptR_execClose {fz o} {a0 a1 a2 s} (h : Kept fz o s) :
    KeptR fz o (execClose a0 a1 a2 s) := by
  unfold execClose
  try dsimp only
  repeat' first
    | with_reducible assumption
    | intro _
    | dsimp only
    | with_reducible first | apply kept_apCfgWrite | apply kept_each | apply kept_foldl | apply kept_foldl1 | apply keptR_next | apply keptR_fault | apply keptR_ite | apply kept_ite

theorem kept_cowEnd {fz o} {s a1 a2 a3} (h : Kept fz o s) :
    Kept fz o (cowEnd s a1 a2 a3) := by
  unfold cowEnd
  try dsimp only
  repeat' first
    | with_reducible assumption
    | intro _
    | dsimp only
    | with_reducible first | apply kept_runAct | apply keptA_cowCount | apply kept_wwAdvance | apply kept_each | apply kept_foldl | apply kept_foldl1 | apply keptA_pure | apply keptA_bind_get | apply keptA_bind | apply keptA_modify | apply keptA_throw | apply keptA_get | apply keptA_set | apply keptA_ite | apply keptA_act | apply kept_endOk | apply kept_endError | apply kept_endIte | apply kept_ite | apply kept_ite1 | apply Memory.wf_put | apply Memory.wf_putByte | apply Memory.wf_fail | apply Memory.wf_zero | apply Memory.wf_poison | apply Memory.wf_unpoison | apply Memory.wf_mark | apply Memory.wf_writeLine | apply Memory.wf_foldl | apply Memory.wf_settle | apply Memory.wf_copyPage
    | with_reducible (refine Kept.upd rfl ?_; first | assumption | apply kept_runAct | apply keptA_cowCount | apply kept_wwAdvance | apply kept_each | apply kept_foldl | apply kept_foldl1 | apply kept_ite | apply kept_ite1 | refine keptA_ok ?_ ?_ (by assumption) | refine keptA_error ?_ ?_ (by assumption))
    | with_reducible (refine Kept.updMem rfl ?_ ?_; rotate_left; first | assumption | apply kept_runAct | apply keptA_cowCount | apply kept_wwAdvance | apply kept_each | apply kept_foldl | apply kept_foldl1 | apply kept_ite | apply kept_ite1 | refine keptA_ok ?_ ?_ (by assumption) | refine keptA_error ?_ ?_ (by assumption))
    | refine keptA_ok ?_ ?_ (by assumption)
    | refine keptA_error ?_ ?_ (by assumption)
    | split
    | refine keptA_fun ?_
    | with_reducible apply KeptA.ends

theorem kept_cowFailed {fz o} {s a1 a2} (h : Kept fz o s) :
    Kept fz o (cowFailed s a1 a2) := by
  unfold cowFailed
  try dsimp only
  repeat' first
    | with_reducible assumption
    | intro _
    | dsimp only
    | with_reducible first | apply kept_each | apply kept_foldl | apply kept_foldl1 | apply kept_ite | apply kept_ite1 | apply Memory.wf_put | apply Memory.wf_putByte | apply Memory.wf_fail | apply Memory.wf_zero | apply Memory.wf_poison | apply Memory.wf_unpoison | apply Memory.wf_mark | apply Memory.wf_writeLine | apply Memory.wf_foldl | apply Memory.wf_settle | apply Memory.wf_copyPage
    | with_reducible (refine Kept.upd rfl ?_; first | assumption | apply kept_each | apply kept_foldl | apply kept_foldl1 | apply kept_ite | apply kept_ite1)
    | with_reducible (refine Kept.updMem rfl ?_ ?_; rotate_left; first | assumption | apply kept_each | apply kept_foldl | apply kept_foldl1 | apply kept_ite | apply kept_ite1)
    | split

theorem keptA_cowLeaves {fz o} {a0 a1}  :
    KeptA fz o (cowLeaves a0 a1) := by
  unfold cowLeaves
  try dsimp only
  repeat' first
    | with_reducible assumption
    | intro _
    | dsimp only
    | with_reducible first | apply keptA_objGet | apply keptA_homeGet | apply keptA_attempt | apply keptA_putPte | apply kept_invBegin | apply kept_each | apply kept_foldl | apply kept_foldl1 | apply keptA_pure | apply keptA_bind_get | apply keptA_bind | apply keptA_modify | apply keptA_throw | apply keptA_get | apply keptA_set | apply keptA_ite | apply keptA_act | apply kept_endOk | apply kept_endError | apply kept_endIte | apply kept_ite | apply kept_ite1 | apply Memory.wf_put | apply Memory.wf_putByte | apply Memory.wf_fail | apply Memory.wf_zero | apply Memory.wf_poison | apply Memory.wf_unpoison | apply Memory.wf_mark | apply Memory.wf_writeLine | apply Memory.wf_foldl | apply Memory.wf_settle | apply Memory.wf_copyPage
    | with_reducible (refine Kept.upd rfl ?_; first | assumption | apply keptA_objGet | apply keptA_homeGet | apply keptA_attempt | apply keptA_putPte | apply kept_invBegin | apply kept_each | apply kept_foldl | apply kept_foldl1 | apply kept_ite | apply kept_ite1 | refine keptA_ok ?_ ?_ (by assumption) | refine keptA_error ?_ ?_ (by assumption) | refine kept_ofP ?_ (by assumption))
    | with_reducible (refine Kept.updMem rfl ?_ ?_; rotate_left; first | assumption | apply keptA_objGet | apply keptA_homeGet | apply keptA_attempt | apply keptA_putPte | apply kept_invBegin | apply kept_each | apply kept_foldl | apply kept_foldl1 | apply kept_ite | apply kept_ite1 | refine keptA_ok ?_ ?_ (by assumption) | refine keptA_error ?_ ?_ (by assumption) | refine kept_ofP ?_ (by assumption))
    | refine keptA_ok ?_ ?_ (by assumption)
    | refine keptA_error ?_ ?_ (by assumption)
    | refine kept_ofP ?_ (by assumption)
    | split
    | refine keptA_fun ?_
    | with_reducible apply KeptA.ends

theorem kept_cowCopy {fz o} {s a1 a2} (h : Kept fz o s) :
    Kept fz o (cowCopy s a1 a2) := by
  unfold cowCopy
  try dsimp only
  repeat' first
    | with_reducible assumption
    | intro _
    | dsimp only
    | with_reducible first | apply kept_reportBus | apply kept_each | apply kept_foldl | apply kept_foldl1 | apply kept_ite | apply kept_ite1 | apply Memory.wf_put | apply Memory.wf_putByte | apply Memory.wf_fail | apply Memory.wf_zero | apply Memory.wf_poison | apply Memory.wf_unpoison | apply Memory.wf_mark | apply Memory.wf_writeLine | apply Memory.wf_foldl | apply Memory.wf_settle | apply Memory.wf_copyPage
    | with_reducible (refine Kept.upd rfl ?_; first | assumption | apply kept_reportBus | apply kept_each | apply kept_foldl | apply kept_foldl1 | apply kept_ite | apply kept_ite1)
    | with_reducible (refine Kept.updMem rfl ?_ ?_; rotate_left; first | assumption | apply kept_reportBus | apply kept_each | apply kept_foldl | apply kept_foldl1 | apply kept_ite | apply kept_ite1)
    | split

theorem keptR_execCopyOnWriteDone {fz o} {a0 a1 s} (h : Kept fz o s) :
    KeptR fz o (execCopyOnWriteDone a0 a1 s) := by
  unfold execCopyOnWriteDone
  try dsimp only
  repeat' first
    | with_reducible assumption
    | intro _
    | dsimp only
    | with_reducible first | apply kept_cowEnd | apply kept_failCow | apply kept_report | apply kept_reportBus | apply kept_cowFailed | apply keptA_cowLeaves | apply kept_cowCopy | apply kept_waitBack | apply kept_each | apply kept_foldl | apply kept_foldl1 | apply keptA_pure | apply keptA_bind_get | apply keptA_bind | apply keptA_modify | apply keptA_throw | apply keptA_get | apply keptA_set | apply keptA_ite | apply keptA_act | apply kept_endOk | apply kept_endError | apply kept_endIte | apply keptR_next | apply keptR_fault | apply keptR_ite | apply kept_ite | apply kept_ite1 | apply Memory.wf_put | apply Memory.wf_putByte | apply Memory.wf_fail | apply Memory.wf_zero | apply Memory.wf_poison | apply Memory.wf_unpoison | apply Memory.wf_mark | apply Memory.wf_writeLine | apply Memory.wf_foldl | apply Memory.wf_settle | apply Memory.wf_copyPage
    | with_reducible (refine Kept.upd rfl ?_; first | assumption | apply kept_cowEnd | apply kept_failCow | apply kept_report | apply kept_reportBus | apply kept_cowFailed | apply keptA_cowLeaves | apply kept_cowCopy | apply kept_waitBack | apply kept_each | apply kept_foldl | apply kept_foldl1 | apply kept_ite | apply kept_ite1 | refine keptA_ok ?_ ?_ (by assumption) | refine keptA_error ?_ ?_ (by assumption))
    | with_reducible (refine Kept.updMem rfl ?_ ?_; rotate_left; first | assumption | apply kept_cowEnd | apply kept_failCow | apply kept_report | apply kept_reportBus | apply kept_cowFailed | apply keptA_cowLeaves | apply kept_cowCopy | apply kept_waitBack | apply kept_each | apply kept_foldl | apply kept_foldl1 | apply kept_ite | apply kept_ite1 | refine keptA_ok ?_ ?_ (by assumption) | refine keptA_error ?_ ?_ (by assumption))
    | refine keptA_ok ?_ ?_ (by assumption)
    | refine keptA_error ?_ ?_ (by assumption)
    | split
    | refine keptA_fun ?_
    | with_reducible apply KeptA.ends

theorem keptR_execApertureDisable {fz o} {a0 a1 a2 s} (h : Kept fz o s) :
    KeptR fz o (execApertureDisable a0 a1 a2 s) := by
  unfold execApertureDisable
  try dsimp only
  repeat' first
    | with_reducible assumption
    | intro _
    | dsimp only
    | with_reducible first | apply kept_apCfgWrite | apply kept_each | apply kept_foldl | apply kept_foldl1 | apply keptR_next | apply keptR_fault | apply keptR_ite | apply kept_ite

theorem keptR_execIngestSyncRead {fz o} {a0 a1 s} (h : Kept fz o s) :
    KeptR fz o (execIngestSyncRead a0 a1 s) := by
  unfold execIngestSyncRead
  try dsimp only
  repeat' first
    | with_reducible assumption
    | intro _
    | dsimp only
    | with_reducible first | apply kept_emit | apply kept_updHost | apply kept_each | apply kept_foldl | apply kept_foldl1 | apply keptR_next | apply keptR_fault | apply keptR_ite | apply kept_ite

theorem kept_syncAnswer {fz o} {s a1 a2} (h : Kept fz o s) :
    Kept fz o (syncAnswer s a1 a2) := by
  unfold syncAnswer
  try dsimp only
  repeat' first
    | with_reducible assumption
    | intro _
    | dsimp only
    | with_reducible first | apply kept_emit | apply kept_respondFree | apply kept_each | apply kept_foldl | apply kept_foldl1 | apply kept_ite | apply kept_ite1 | apply Memory.wf_put | apply Memory.wf_putByte | apply Memory.wf_fail | apply Memory.wf_zero | apply Memory.wf_poison | apply Memory.wf_unpoison | apply Memory.wf_mark | apply Memory.wf_writeLine | apply Memory.wf_foldl | apply Memory.wf_settle | apply Memory.wf_copyPage
    | with_reducible (refine Kept.upd rfl ?_; first | assumption | apply kept_emit | apply kept_respondFree | apply kept_each | apply kept_foldl | apply kept_foldl1 | apply kept_ite | apply kept_ite1)
    | with_reducible (refine Kept.updMem rfl ?_ ?_; rotate_left; first | assumption | apply kept_emit | apply kept_respondFree | apply kept_each | apply kept_foldl | apply kept_foldl1 | apply kept_ite | apply kept_ite1)
    | split

theorem keptR_execSealedFinalClose {fz o} {a0 a1 s} (h : Kept fz o s) :
    KeptR fz o (execSealedFinalClose a0 a1 s) := by
  unfold execSealedFinalClose
  try dsimp only
  repeat' first
    | with_reducible assumption
    | intro _
    | dsimp only
    | with_reducible first | apply kept_updAp | apply kept_appendRec | apply kept_each | apply kept_foldl | apply kept_foldl1 | apply keptR_next | apply keptR_fault | apply keptR_ite

theorem keptR_execMeasuredCloseDone {fz o} {a0 a1 s} (h : Kept fz o s) :
    KeptR fz o (execMeasuredCloseDone a0 a1 s) := by
  unfold execMeasuredCloseDone
  try dsimp only
  repeat' first
    | with_reducible assumption
    | intro _
    | dsimp only
    | with_reducible first | apply kept_updAp | apply kept_appendRec | apply kept_each | apply kept_foldl | apply kept_foldl1 | apply keptR_next | apply keptR_fault | apply keptR_ite

theorem keptR_execIngestSyncDone {fz o} {a0 a1 s} (h : Kept fz o s) :
    KeptR fz o (execIngestSyncDone a0 a1 s) := by
  unfold execIngestSyncDone
  try dsimp only
  repeat' first
    | with_reducible assumption
    | intro _
    | dsimp only
    | with_reducible first | apply kept_syncAnswer | apply kept_updHost | apply kept_each | apply kept_foldl | apply kept_foldl1 | apply keptR_next | apply keptR_fault | apply keptR_ite | apply kept_ite | apply kept_ite1 | apply Memory.wf_put | apply Memory.wf_putByte | apply Memory.wf_fail | apply Memory.wf_zero | apply Memory.wf_poison | apply Memory.wf_unpoison | apply Memory.wf_mark | apply Memory.wf_writeLine | apply Memory.wf_foldl | apply Memory.wf_settle | apply Memory.wf_copyPage
    | with_reducible (refine Kept.upd rfl ?_; first | assumption | apply kept_syncAnswer | apply kept_updHost | apply kept_each | apply kept_foldl | apply kept_foldl1 | apply kept_ite | apply kept_ite1)
    | with_reducible (refine Kept.updMem rfl ?_ ?_; rotate_left; first | assumption | apply kept_syncAnswer | apply kept_updHost | apply kept_each | apply kept_foldl | apply kept_foldl1 | apply kept_ite | apply kept_ite1)
    | split

end Sys2Proof.Machine
end

