-- ==== Sys2Proof/Laws/KeptCores.lean ====
section
/-! SUPPORT. What the definitions of Machine/Cores.lean keep (`Kept`). -/

namespace Sys2Proof.Machine

theorem kept_advertise {fz o} {s} (h : Kept fz o s) :
    Kept fz o (advertise s) := by
  unfold advertise
  try dsimp only
  repeat' first
    | with_reducible assumption
    | intro _
    | dsimp only
    | with_reducible first | apply kept_emit | apply kept_each

theorem kept_restoreDomain {fz o} {s} (h : Kept fz o s) :
    Kept fz o (restoreDomain s) := by
  unfold restoreDomain
  try dsimp only
  repeat' first
    | with_reducible assumption
    | intro _
    | dsimp only
    | with_reducible first | apply kept_advertise | apply kept_each | apply kept_foldl | apply kept_foldl1 | apply kept_ite | apply kept_ite1
    | with_reducible (refine Kept.upd rfl ?_; first | assumption)

theorem keptR_coreAnswer {fz o} {s a1 a2 a3 a4 a5} (h : Kept fz o s) :
    KeptR fz o (coreAnswer s a1 a2 a3 a4 a5) := by
  unfold coreAnswer
  try dsimp only
  repeat' first
    | with_reducible assumption
    | intro _
    | dsimp only
    | with_reducible first | apply kept_emit | apply kept_snoopAnswer | apply kept_each | apply kept_foldl | apply kept_foldl1 | apply keptR_next | apply keptR_fault | apply keptR_ite | apply kept_ite | apply kept_ite1
    | with_reducible (refine Kept.upd rfl ?_; first | assumption | apply kept_emit | apply kept_snoopAnswer | apply kept_each | apply kept_foldl | apply kept_foldl1 | apply kept_ite | apply kept_ite1)
    | split

theorem keptR_execAccept {fz o} {a0 a1 a2 s} (h : Kept fz o s) :
    KeptR fz o (execAccept a0 a1 a2 s) := by
  unfold execAccept
  try dsimp only
  repeat' first
    | with_reducible assumption
    | intro _
    | dsimp only
    | with_reducible first | apply keptR_coreAnswer

theorem kept_domainDone {fz o} {s a1} (h : Kept fz o s) :
    Kept fz o (domainDone s a1) := by
  unfold domainDone
  try dsimp only
  repeat' first
    | with_reducible assumption
    | intro _
    | dsimp only
    | with_reducible first | apply kept_each | apply kept_foldl | apply kept_foldl1 | apply kept_ite | apply kept_ite1
    | with_reducible (refine Kept.upd rfl ?_; first | assumption)

theorem kept_domainWrite {fz o} {s a1} (h : Kept fz o s) :
    Kept fz o (domainWrite s a1) := by
  unfold domainWrite
  try dsimp only
  repeat' first
    | with_reducible assumption
    | intro _
    | dsimp only
    | with_reducible first | apply kept_restoreDomain | apply kept_domainDone | apply kept_domainDown | apply kept_each | apply kept_foldl | apply kept_foldl1 | apply kept_ite | apply kept_ite1
    | with_reducible (refine Kept.upd rfl ?_; first | assumption | apply kept_restoreDomain | apply kept_domainDone | apply kept_domainDown | apply kept_each | apply kept_foldl | apply kept_foldl1 | apply kept_ite | apply kept_ite1)
    | split

theorem keptR_execRestore {fz o} {s} (h : Kept fz o s) :
    KeptR fz o (execRestore s) := by
  unfold execRestore
  try dsimp only
  repeat' first
    | with_reducible assumption
    | intro _
    | dsimp only
    | with_reducible first | apply kept_domainWrite | apply kept_each | apply kept_foldl | apply kept_foldl1 | apply keptR_next | apply keptR_fault | apply keptR_ite | apply kept_ite

theorem keptR_execSnoopData {fz o} {a0 a1 a2 a3 a4 s} (h : Kept fz o s) :
    KeptR fz o (execSnoopData a0 a1 a2 a3 a4 s) := by
  unfold execSnoopData
  try dsimp only
  repeat' first
    | with_reducible assumption
    | intro _
    | dsimp only
    | with_reducible first | apply keptR_coreAnswer

theorem keptR_execDown {fz o} {a0 s} (h : Kept fz o s) :
    KeptR fz o (execDown a0 s) := by
  unfold execDown
  try dsimp only
  repeat' first
    | with_reducible assumption
    | intro _
    | dsimp only
    | with_reducible first | apply kept_domainWrite | apply kept_each | apply kept_foldl | apply kept_foldl1 | apply keptR_next | apply keptR_fault | apply keptR_ite | apply kept_ite

theorem keptR_waitReady {fz o} {s a1} (h : Kept fz o s) : KeptR fz o (waitReady s a1) := by
  unfold waitReady
  refine keptR_ite (fun _ => keptR_fault) (fun _ => keptR_next ?_)
  exact Kept.upd rfl h

theorem kept_coreFail {fz o} {s a1 a2 a3} (h : Kept fz o s) :
    Kept fz o (coreFail s a1 a2 a3) := by
  unfold coreFail
  try dsimp only
  repeat' first
    | with_reducible assumption
    | intro _
    | dsimp only
    | with_reducible first | apply kept_respondFree

theorem kept_openReq {fz o} {s a1 a2 a3} (h : Kept fz o s) :
    Kept fz o (openReq s a1 a2 a3) := by
  unfold openReq
  try dsimp only
  repeat' first
    | with_reducible assumption
    | intro _
    | dsimp only
    | with_reducible first | apply kept_updCore

theorem keptR_coreReq {fz o} {s a1 a2 a3 a4 a5} (h : Kept fz o s) (h5 : ∀ x0, Kept fz o x0 → Kept fz o (a5 x0)) :
    KeptR fz o (coreReq s a1 a2 a3 a4 a5) := by
  unfold coreReq
  try dsimp only
  repeat' first
    | with_reducible assumption
    | intro _
    | dsimp only
    | with_reducible first | apply kept_emit | apply kept_coreFail | apply kept_openReq | apply h5 | apply keptR_waitReady | apply kept_each | apply kept_foldl | apply kept_foldl1 | apply keptR_next | apply keptR_fault | apply keptR_ite

theorem kept_coreDeny {fz o} {s a1 a2 a3} (h : Kept fz o s) :
    Kept fz o (coreDeny s a1 a2 a3) := by
  unfold coreDeny
  try dsimp only
  repeat' first
    | with_reducible assumption
    | intro _
    | dsimp only
    | with_reducible first | apply kept_coreFail | apply kept_note

theorem kept_corePhys {fz o} {s a1 a2 a3 a4 a5 a6 a7 a8} (h : Kept fz o s) :
    Kept fz o (corePhys s a1 a2 a3 a4 a5 a6 a7 a8) := by
  unfold corePhys
  try dsimp only
  repeat' first
    | with_reducible assumption
    | intro _
    | dsimp only
    | with_reducible first | apply kept_coreDeny | apply kept_coreFail | apply kept_homeRequest | apply kept_each | apply kept_foldl | apply kept_foldl1 | apply kept_ite | apply kept_ite1
    | with_reducible (refine Kept.upd rfl ?_; first | assumption | apply kept_coreDeny | apply kept_coreFail | apply kept_homeRequest | apply kept_each | apply kept_foldl | apply kept_foldl1 | apply kept_ite | apply kept_ite1)
    | split

theorem kept_coreTranslate {fz o} {s a1 a2 a3 a4 a5 a6} (h : Kept fz o s) :
    Kept fz o (coreTranslate s a1 a2 a3 a4 a5 a6) := by
  unfold coreTranslate
  try dsimp only
  repeat' first
    | with_reducible assumption
    | intro _
    | dsimp only
    | with_reducible first | apply kept_translate | apply kept_corePhys | apply kept_waitBack | apply kept_coreFail | apply kept_each | apply kept_foldl | apply kept_foldl1 | apply kept_ite | apply kept_ite1
    | with_reducible (refine Kept.upd rfl ?_; first | assumption | apply kept_translate | apply kept_corePhys | apply kept_waitBack | apply kept_coreFail | apply kept_each | apply kept_foldl | apply kept_foldl1 | apply kept_ite | apply kept_ite1 | refine kept_ofP ?_ (by assumption))
    | refine kept_ofP ?_ (by assumption)
    | split

theorem kept_coreServe {fz o} {s a1 a2 a3 a4} (h : Kept fz o s) :
    Kept fz o (coreServe s a1 a2 a3 a4) := by
  unfold coreServe
  try dsimp only
  repeat' first
    | with_reducible assumption
    | intro _
    | dsimp only
    | with_reducible first | apply kept_openReq | apply kept_coreFail | apply kept_coreDeny | apply kept_corePhys | apply kept_coreTranslate | apply kept_each | apply kept_foldl | apply kept_foldl1 | apply kept_ite | apply kept_ite1
    | with_reducible (refine Kept.upd rfl ?_; first | assumption | apply kept_openReq | apply kept_coreFail | apply kept_coreDeny | apply kept_corePhys | apply kept_coreTranslate | apply kept_each | apply kept_foldl | apply kept_foldl1 | apply kept_ite | apply kept_ite1)
    | split

theorem keptR_execRdUnique {fz o} {a0 a1 a2 s} (h : Kept fz o s) :
    KeptR fz o (execRdUnique a0 a1 a2 s) := by
  unfold execRdUnique
  try dsimp only
  repeat' first
    | with_reducible assumption
    | intro _
    | dsimp only
    | with_reducible first | apply keptR_coreReq | apply kept_coreServe

theorem keptR_execUpgrade {fz o} {a0 a1 a2 s} (h : Kept fz o s) :
    KeptR fz o (execUpgrade a0 a1 a2 s) := by
  unfold execUpgrade
  try dsimp only
  repeat' first
    | with_reducible assumption
    | intro _
    | dsimp only
    | with_reducible first | apply keptR_coreReq | apply kept_coreServe

theorem kept_takeBarrier {fz o} {s a1 a2 a3} (h : Kept fz o s) : Kept fz o (takeBarrier s a1 a2 a3) := by
  unfold takeBarrier
  try dsimp only
  repeat' first
    | with_reducible assumption
    | intro _
    | dsimp only
    | with_reducible first | apply kept_coreFail | apply kept_answerBarriers | apply kept_updCore | apply kept_ite

theorem keptR_execBarrier {fz o} {a0 a1 a2 s} (h : Kept fz o s) :
    KeptR fz o (execBarrier a0 a1 a2 s) := by
  unfold execBarrier
  try dsimp only
  repeat' first
    | with_reducible assumption
    | intro _
    | dsimp only
    | with_reducible first | apply kept_emit | apply kept_takeBarrier | apply keptR_waitReady | apply kept_each | apply kept_foldl | apply kept_foldl1 | apply keptR_next | apply keptR_fault | apply keptR_ite

theorem keptR_execDecline {fz o} {a0 a1 a2 s} (h : Kept fz o s) :
    KeptR fz o (execDecline a0 a1 a2 s) := by
  unfold execDecline
  try dsimp only
  repeat' first
    | with_reducible assumption
    | intro _
    | dsimp only
    | with_reducible first | apply keptR_coreAnswer

theorem kept_coreResume {fz o} {s a1 a2 a3} (h : Kept fz o s) :
    Kept fz o (coreResume s a1 a2 a3) := by
  unfold coreResume
  try dsimp only
  repeat' first
    | with_reducible assumption
    | intro _
    | dsimp only
    | with_reducible first | apply kept_coreTranslate | apply kept_each | apply kept_foldl | apply kept_foldl1 | apply kept_ite | apply kept_ite1
    | with_reducible (refine Kept.upd rfl ?_; first | assumption | apply kept_coreTranslate | apply kept_each | apply kept_foldl | apply kept_foldl1 | apply kept_ite | apply kept_ite1)
    | split

theorem keptR_execShared {fz o} {a0 a1 a2 s} (h : Kept fz o s) :
    KeptR fz o (execShared a0 a1 a2 s) := by
  unfold execShared
  try dsimp only
  repeat' first
    | with_reducible assumption
    | intro _
    | dsimp only
    | with_reducible first | apply keptR_coreAnswer

theorem keptR_execRdShared {fz o} {a0 a1 a2 s} (h : Kept fz o s) :
    KeptR fz o (execRdShared a0 a1 a2 s) := by
  unfold execRdShared
  try dsimp only
  repeat' first
    | with_reducible assumption
    | intro _
    | dsimp only
    | with_reducible first | apply keptR_coreReq | apply kept_coreServe

theorem kept_pumpSnoops {fz o} {a0 a1 s} (h : Kept fz o s) :
    Kept fz o (pumpSnoops a0 a1 s) := by
  induction a1 generalizing s with
  | zero =>
    unfold pumpSnoops
    try dsimp only
    repeat' first
      | with_reducible assumption
  | succ n ih =>
    unfold pumpSnoops
    try dsimp only
    repeat' first
      | with_reducible assumption
      | intro _
      | dsimp only
      | with_reducible first | apply kept_emit | apply kept_updCore | apply ih | apply kept_each | apply kept_foldl | apply kept_foldl1 | apply kept_ite | apply kept_ite1
      | with_reducible (refine Kept.upd rfl ?_; first | assumption | apply kept_emit | apply kept_updCore | apply ih | apply kept_each | apply kept_foldl | apply kept_foldl1 | apply kept_ite | apply kept_ite1)
      | split

theorem keptR_execWb {fz o} {a0 a1 a2 a3 a4 s} (h : Kept fz o s) :
    KeptR fz o (execWb a0 a1 a2 a3 a4 s) := by
  unfold execWb
  try dsimp only
  repeat' first
    | with_reducible assumption
    | intro _
    | dsimp only
    | with_reducible first | apply keptR_coreReq | apply kept_coreServe

theorem keptR_execMiss {fz o} {a0 a1 a2 s} (h : Kept fz o s) :
    KeptR fz o (execMiss a0 a1 a2 s) := by
  unfold execMiss
  try dsimp only
  repeat' first
    | with_reducible assumption
    | intro _
    | dsimp only
    | with_reducible first | apply keptR_coreAnswer

theorem keptR_execRestoreCreditTimeout {fz o} {s} (h : Kept fz o s) :
    KeptR fz o (execRestoreCreditTimeout s) := by
  unfold execRestoreCreditTimeout
  try dsimp only
  repeat' first
    | with_reducible assumption
    | intro _
    | dsimp only
    | with_reducible first | apply kept_domainDone | apply kept_each | apply kept_foldl | apply kept_foldl1 | apply keptR_next | apply keptR_fault | apply keptR_ite | apply kept_ite | apply kept_ite1
    | with_reducible (refine Kept.upd rfl ?_; first | assumption)

theorem keptR_execSnoopDeadline {fz o} {a0 a1 a2 s} (h : Kept fz o s) :
    KeptR fz o (execSnoopDeadline a0 a1 a2 s) := by
  unfold execSnoopDeadline
  try dsimp only
  repeat' first
    | with_reducible assumption
    | intro _
    | dsimp only
    | with_reducible first | apply kept_report | apply kept_domainDown | apply kept_each | apply kept_foldl | apply kept_foldl1 | apply keptR_next | apply keptR_fault | apply keptR_ite | apply kept_ite | apply kept_ite1
    | with_reducible (refine Kept.upd rfl ?_; first | assumption | apply kept_report | apply kept_domainDown | apply kept_each | apply kept_foldl | apply kept_foldl1 | apply kept_ite | apply kept_ite1)
    | split

theorem kept_pumpResponses {fz o} {a0 a1 s} (h : Kept fz o s) :
    Kept fz o (pumpResponses a0 a1 s) := by
  induction a1 generalizing s with
  | zero =>
    unfold pumpResponses
    try dsimp only
    repeat' first
      | with_reducible assumption
  | succ n ih =>
    unfold pumpResponses
    try dsimp only
    repeat' first
      | with_reducible assumption
      | intro _
      | dsimp only
      | with_reducible first | apply kept_emit | apply kept_updCore | apply kept_endTrans | apply ih | apply kept_each | apply kept_foldl | apply kept_foldl1 | apply kept_ite | apply kept_ite1
      | with_reducible (refine Kept.upd rfl ?_; first | assumption | apply kept_emit | apply kept_updCore | apply kept_endTrans | apply ih | apply kept_each | apply kept_foldl | apply kept_foldl1 | apply kept_ite | apply kept_ite1)
      | split

theorem keptR_execAtomic {fz o} {a0 a1 a2 a3 a4 a5 s} (h : Kept fz o s) :
    KeptR fz o (execAtomic a0 a1 a2 a3 a4 a5 s) := by
  unfold execAtomic
  try dsimp only
  repeat' first
    | with_reducible assumption
    | intro _
    | dsimp only
    | with_reducible first | apply keptR_coreReq | apply kept_coreServe

theorem kept_coreAbort {fz o} {s a1 a2} (h : Kept fz o s) :
    Kept fz o (coreAbort s a1 a2) := by
  unfold coreAbort
  try dsimp only
  repeat' first
    | with_reducible assumption
    | intro _
    | dsimp only
    | with_reducible first | apply kept_coreFail | apply kept_each | apply kept_foldl | apply kept_foldl1 | apply kept_ite | apply kept_ite1
    | with_reducible (refine Kept.upd rfl ?_; first | assumption | apply kept_coreFail | apply kept_each | apply kept_foldl | apply kept_foldl1 | apply kept_ite | apply kept_ite1)
    | split

theorem keptR_execCoreCreditReturn {fz o} {a0 a1 a2 s} (h : Kept fz o s) :
    KeptR fz o (execCoreCreditReturn a0 a1 a2 s) := by
  unfold execCoreCreditReturn
  try dsimp only
  repeat' first
    | with_reducible assumption
    | intro _
    | dsimp only
    | with_reducible first | apply kept_updCore | apply kept_pumpResponses | apply kept_pumpSnoops | apply kept_wakeHome | apply kept_each | apply kept_foldl | apply kept_foldl1 | apply keptR_next | apply keptR_fault | apply keptR_ite | apply kept_ite | apply kept_ite1
    | with_reducible (refine Kept.upd rfl ?_; first | assumption | apply kept_updCore)

end Sys2Proof.Machine
end

