-- ==== Sys2Proof/Laws/KeptKeys.lean ====
section
/-! SUPPORT. What the definitions of Machine/Keys.lean keep (`Kept`). -/

namespace Sys2Proof.Machine

theorem kept_ktDrop {fz o} {s a1} (h : Kept fz o s) :
    Kept fz o (ktDrop s a1) := by
  unfold ktDrop
  try dsimp only
  repeat' first
    | with_reducible assumption
    | intro _
    | dsimp only
    | with_reducible first | apply kept_each | apply kept_foldl | apply kept_foldl1 | apply kept_ite | apply kept_ite1
    | with_reducible (refine Kept.upd rfl ?_; first | assumption)

theorem kept_ktInvStart {fz o} {s a1} (h : Kept fz o s) :
    Kept fz o (ktInvStart s a1) := by
  unfold ktInvStart
  try dsimp only
  repeat' first
    | with_reducible assumption
    | intro _
    | dsimp only
    | with_reducible first | apply kept_ktDrop | apply kept_each | apply kept_foldl | apply kept_foldl1 | apply kept_ite | apply kept_ite1
    | with_reducible (refine Kept.upd rfl ?_; first | assumption | apply kept_ktDrop | apply kept_each | apply kept_foldl | apply kept_foldl1 | apply kept_ite | apply kept_ite1)
    | split

theorem kept_updTable {fz o} {s a1 a2} (h : Kept fz o s) :
    Kept fz o (updTable s a1 a2) := by
  unfold updTable
  try dsimp only
  repeat' first
    | with_reducible assumption
    | intro _
    | dsimp only
    | with_reducible first | apply kept_each | apply kept_foldl | apply kept_foldl1 | apply kept_ite | apply kept_ite1
    | with_reducible (refine Kept.upd rfl ?_; first | assumption)

theorem kept_admitSent {fz o} {s a1 a2} (h : Kept fz o s) :
    Kept fz o (admitSent s a1 a2) := by
  unfold admitSent
  try dsimp only
  repeat' first
    | with_reducible assumption
    | intro _
    | dsimp only
    | with_reducible first | apply kept_updTable | apply kept_each | apply kept_foldl | apply kept_foldl1 | apply kept_ite | apply kept_ite1
    | with_reducible (refine Kept.upd rfl ?_; first | assumption | apply kept_updTable | apply kept_each | apply kept_foldl | apply kept_foldl1 | apply kept_ite | apply kept_ite1)
    | split

theorem keptA_keyRead {fz o} {a0 a1 a2 a3 a4}  :
    KeptA fz o (keyRead a0 a1 a2 a3 a4) := by
  unfold keyRead
  try dsimp only
  repeat' first
    | with_reducible assumption
    | intro _
    | dsimp only
    | with_reducible first | apply kept_vaRead | apply kept_each | apply kept_foldl | apply kept_foldl1 | apply keptA_pure | apply keptA_bind_get | apply keptA_bind | apply keptA_modify | apply keptA_throw | apply keptA_get | apply keptA_set | apply keptA_ite | apply keptA_act

theorem keptA_keyUse {fz o} {a0 a1 a2}  :
    KeptA fz o (keyUse a0 a1 a2) := by
  unfold keyUse
  try dsimp only
  repeat' first
    | with_reducible assumption
    | intro _
    | dsimp only
    | with_reducible first | apply keptA_objGet | apply keptA_need | apply keptA_keyRead | apply kept_each | apply kept_foldl | apply kept_foldl1 | apply keptA_pure | apply keptA_bind_get | apply keptA_bind | apply keptA_modify | apply keptA_throw | apply keptA_get | apply keptA_set | apply keptA_ite | apply keptA_act | apply kept_endOk | apply kept_endError | apply kept_endIte | apply kept_ite | apply kept_ite1
    | with_reducible (refine Kept.upd rfl ?_; first | assumption | refine keptA_ok ?_ ?_ (by assumption) | refine keptA_error ?_ ?_ (by assumption))
    | refine keptA_ok ?_ ?_ (by assumption)
    | refine keptA_error ?_ ?_ (by assumption)
    | split

theorem keptA_ctrlGet {fz o} {a0 a1 a2 a3}  :
    KeptA fz o (ctrlGet a0 a1 a2 a3) := by
  unfold ctrlGet
  try dsimp only
  repeat' first
    | with_reducible assumption
    | intro _
    | dsimp only
    | with_reducible first | apply kept_vaRead | apply kept_each | apply kept_foldl | apply kept_foldl1 | apply keptA_pure | apply keptA_bind_get | apply keptA_bind | apply keptA_modify | apply keptA_throw | apply keptA_get | apply keptA_set | apply keptA_ite | apply keptA_act

theorem kept_admitNote {fz o} {s a1 a2 a3} (h : Kept fz o s) :
    Kept fz o (admitNote s a1 a2 a3) := by
  unfold admitNote
  try dsimp only
  repeat' first
    | with_reducible assumption
    | intro _
    | dsimp only
    | with_reducible first | apply kept_note

theorem keptA_ctrlPut {fz o} {a0 a1 a2 a3 a4}  :
    KeptA fz o (ctrlPut a0 a1 a2 a3 a4) := by
  unfold ctrlPut
  try dsimp only
  repeat' first
    | with_reducible assumption
    | intro _
    | dsimp only
    | with_reducible first | apply keptA_onEnd | apply keptA_vaPut | apply kept_updTable | apply kept_admitNote | apply kept_each | apply kept_foldl | apply kept_foldl1 | apply keptA_pure | apply keptA_bind_get | apply keptA_bind | apply keptA_modify | apply keptA_throw | apply keptA_get | apply keptA_set | apply keptA_ite

theorem keptA_advanceCons {fz o} {a0 a1 a2 a3}  :
    KeptA fz o (advanceCons a0 a1 a2 a3) := by
  unfold advanceCons
  try dsimp only
  repeat' first
    | with_reducible assumption
    | intro _
    | dsimp only
    | with_reducible first | apply keptA_ctrlGet | apply keptA_ctrlPut | apply kept_each | apply kept_foldl | apply kept_foldl1 | apply keptA_pure | apply keptA_bind_get | apply keptA_bind | apply keptA_modify | apply keptA_throw | apply keptA_get | apply keptA_set | apply keptA_ite

theorem kept_dropKeyLine {fz o} {s a1 a2} (h : Kept fz o s) :
    Kept fz o (dropKeyLine s a1 a2) := by
  unfold dropKeyLine
  try dsimp only
  repeat' first
    | with_reducible assumption
    | intro _
    | dsimp only
    | with_reducible first | apply kept_each | apply kept_foldl | apply kept_foldl1 | apply kept_ite | apply kept_ite1
    | with_reducible (refine Kept.upd rfl ?_; first | assumption)

theorem keptA_bucketGet {fz o} {a0 a1 a2 a3}  :
    KeptA fz o (bucketGet a0 a1 a2 a3) := by
  unfold bucketGet
  try dsimp only
  repeat' first
    | with_reducible assumption
    | intro _
    | dsimp only
    | with_reducible first | apply keptA_keyRead | apply kept_dropKeyLine | apply kept_each | apply kept_foldl | apply kept_foldl1 | apply keptA_pure | apply keptA_bind_get | apply keptA_bind | apply keptA_modify | apply keptA_throw | apply keptA_get | apply keptA_set | apply keptA_ite | apply keptA_act | apply kept_endOk | apply kept_endError | apply kept_endIte | apply kept_ite | apply kept_ite1
    | with_reducible (refine Kept.upd rfl ?_; first | assumption | apply keptA_keyRead | apply kept_dropKeyLine | refine keptA_ok ?_ ?_ (by assumption) | refine keptA_error ?_ ?_ (by assumption))
    | refine keptA_ok ?_ ?_ (by assumption)
    | refine keptA_error ?_ ?_ (by assumption)
    | split

theorem keptA_visibleAt {fz o} {a0 a1 a2 a3 a4}  :
    KeptA fz o (visibleAt a0 a1 a2 a3 a4) := by
  unfold visibleAt
  try dsimp only
  repeat' first
    | with_reducible assumption
    | intro _
    | dsimp only
    | with_reducible first | apply keptA_bucketGet | apply kept_each | apply kept_foldl | apply kept_foldl1 | apply keptA_pure | apply keptA_bind_get | apply keptA_bind | apply keptA_modify | apply keptA_throw | apply keptA_get | apply keptA_set | apply keptA_ite | apply keptA_act | apply kept_endOk | apply kept_endError | apply kept_endIte | apply kept_ite | apply kept_ite1
    | with_reducible (refine Kept.upd rfl ?_; first | assumption | apply keptA_bucketGet | apply kept_each | apply kept_foldl | apply kept_foldl1 | apply kept_ite | apply kept_ite1 | refine keptA_ok ?_ ?_ (by assumption) | refine keptA_error ?_ ?_ (by assumption))
    | refine keptA_ok ?_ ?_ (by assumption)
    | refine keptA_error ?_ ?_ (by assumption)
    | split

theorem keptA_scanSlots {fz o} {a0 a1 a2 a3 a4 a5 a6 a7 a8}  :
    KeptA fz o (scanSlots a0 a1 a2 a3 a4 a5 a6 a7 a8) := by
  induction a7 generalizing a8 with
  | nil =>
    unfold scanSlots
    try dsimp only
    repeat' first
      | with_reducible assumption
      | intro _
      | dsimp only
      | with_reducible first | apply keptA_bucketGet | apply kept_each | apply kept_foldl | apply kept_foldl1 | apply keptA_pure
  | cons x l ih =>
    unfold scanSlots
    try dsimp only
    repeat' first
      | with_reducible assumption
      | intro _
      | dsimp only
      | with_reducible first | apply keptA_bucketGet | apply ih | apply kept_each | apply kept_foldl | apply kept_foldl1 | apply keptA_pure | apply keptA_bind_get | apply keptA_bind | apply keptA_modify | apply keptA_throw | apply keptA_get | apply keptA_set | apply keptA_ite

theorem keptA_scanFront {fz o} {a0 a1 a2 a3 a4 a5}  :
    KeptA fz o (scanFront a0 a1 a2 a3 a4 a5) := by
  induction a4 generalizing a5 with
  | nil =>
    unfold scanFront
    try dsimp only
    repeat' first
      | with_reducible assumption
      | intro _
      | dsimp only
      | with_reducible first | apply keptA_bucketGet | apply keptA_scanSlots | apply kept_each | apply kept_foldl | apply kept_foldl1 | apply keptA_pure
  | cons x l ih =>
    unfold scanFront
    try dsimp only
    repeat' first
      | with_reducible assumption
      | intro _
      | dsimp only
      | with_reducible first | apply keptA_bucketGet | apply keptA_scanSlots | apply ih | apply kept_each | apply kept_foldl | apply kept_foldl1 | apply keptA_pure | apply keptA_bind_get | apply keptA_bind | apply keptA_modify | apply keptA_throw | apply keptA_get | apply keptA_set | apply keptA_ite | apply keptA_act | apply kept_endOk | apply kept_endError | apply kept_endIte | apply kept_ite | apply kept_ite1
      | with_reducible (refine Kept.upd rfl ?_; first | assumption | apply keptA_bucketGet | apply keptA_scanSlots | apply ih | apply kept_each | apply kept_foldl | apply kept_foldl1 | apply kept_ite | apply kept_ite1 | refine keptA_ok ?_ ?_ (by assumption) | refine keptA_error ?_ ?_ (by assumption))
      | refine keptA_ok ?_ ?_ (by assumption)
      | refine keptA_error ?_ ?_ (by assumption)
      | split

theorem keptA_searchPath {fz o} {a0 a1 a2 a3 a4 a5 a6}  :
    KeptA fz o (searchPath a0 a1 a2 a3 a4 a5 a6) := by
  induction a4 generalizing a5 a6 with
  | zero =>
    unfold searchPath
    try dsimp only
    repeat' first
      | with_reducible assumption
      | intro _
      | dsimp only
      | with_reducible first | apply keptA_scanFront | apply kept_each | apply kept_foldl | apply kept_foldl1 | apply keptA_pure
  | succ n ih =>
    unfold searchPath
    try dsimp only
    repeat' first
      | with_reducible assumption
      | intro _
      | dsimp only
      | with_reducible first | apply keptA_scanFront | apply ih | apply kept_each | apply kept_foldl | apply kept_foldl1 | apply keptA_pure | apply keptA_bind_get | apply keptA_bind | apply keptA_modify | apply keptA_throw | apply keptA_get | apply keptA_set | apply keptA_ite | apply keptA_act | apply kept_endOk | apply kept_endError | apply kept_endIte | apply kept_ite | apply kept_ite1
      | with_reducible (refine Kept.upd rfl ?_; first | assumption | apply keptA_scanFront | apply ih | apply kept_each | apply kept_foldl | apply kept_foldl1 | apply kept_ite | apply kept_ite1 | refine keptA_ok ?_ ?_ (by assumption) | refine keptA_error ?_ ?_ (by assumption))
      | refine keptA_ok ?_ ?_ (by assumption)
      | refine keptA_error ?_ ?_ (by assumption)
      | split

theorem keptA_pathFor {fz o} {a0 a1 a2 a3 a4}  :
    KeptA fz o (pathFor a0 a1 a2 a3 a4) := by
  unfold pathFor
  try dsimp only
  repeat' first
    | with_reducible assumption
    | intro _
    | dsimp only
    | with_reducible first | apply keptA_bucketGet | apply keptA_searchPath | apply kept_each | apply kept_foldl | apply kept_foldl1 | apply keptA_pure | apply keptA_bind_get | apply keptA_bind | apply keptA_modify | apply keptA_throw | apply keptA_get | apply keptA_set | apply keptA_ite

theorem keptA_probeBucket {fz o} {a0 a1 a2 a3}  :
    KeptA fz o (probeBucket a0 a1 a2 a3) := by
  unfold probeBucket
  try dsimp only
  repeat' first
    | with_reducible assumption
    | intro _
    | dsimp only
    | with_reducible first | apply keptA_trAct | apply kept_each | apply kept_foldl | apply kept_foldl1 | apply keptA_pure | apply keptA_bind_get | apply keptA_bind

theorem keptA_keyWrite {fz o} {a0 a1 a2 a3 a4}  :
    KeptA fz o (keyWrite a0 a1 a2 a3 a4) := by
  unfold keyWrite
  try dsimp only
  repeat' first
    | with_reducible assumption
    | intro _
    | dsimp only
    | with_reducible first | apply keptA_vaPut

theorem keptA_slotPut {fz o} {a0 a1 a2 a3 a4 a5}  :
    KeptA fz o (slotPut a0 a1 a2 a3 a4 a5) := by
  unfold slotPut
  try dsimp only
  repeat' first
    | with_reducible assumption
    | intro _
    | dsimp only
    | with_reducible first | apply keptA_onEnd | apply keptA_keyWrite | apply kept_dropKeyLine | apply kept_each | apply kept_foldl | apply kept_foldl1 | apply keptA_pure | apply keptA_bind_get | apply keptA_bind | apply keptA_modify | apply keptA_throw | apply keptA_get | apply keptA_set | apply keptA_ite | apply keptA_act | apply kept_endOk | apply kept_endError | apply kept_endIte | apply kept_ite | apply kept_ite1
    | with_reducible (refine Kept.upd rfl ?_; first | assumption | refine keptA_ok ?_ ?_ (by assumption) | refine keptA_error ?_ ?_ (by assumption))

theorem keptA_movePath {fz o} {a0 a1 a2 a3 a4 a5}  :
    KeptA fz o (movePath a0 a1 a2 a3 a4 a5) := by
  induction a4 generalizing a5 with
  | nil =>
    unfold movePath
    try dsimp only
    repeat' first
      | with_reducible assumption
      | intro _
      | dsimp only
      | with_reducible first | apply keptA_bucketGet | apply keptA_slotPut | apply kept_each | apply kept_foldl | apply kept_foldl1 | apply keptA_pure
  | cons x l ih =>
    unfold movePath
    try dsimp only
    repeat' first
      | with_reducible assumption
      | intro _
      | dsimp only
      | with_reducible first | apply keptA_bucketGet | apply keptA_slotPut | apply ih | apply kept_each | apply kept_foldl | apply kept_foldl1 | apply keptA_pure | apply keptA_bind_get | apply keptA_bind

theorem keptA_placeKey {fz o} {a0 a1 a2 a3 a4}  :
    KeptA fz o (placeKey a0 a1 a2 a3 a4) := by
  unfold placeKey
  try dsimp only
  repeat' first
    | with_reducible assumption
    | intro _
    | dsimp only
    | with_reducible first | apply keptA_pathFor | apply keptA_forAll | apply keptA_probeBucket | apply keptA_movePath | apply keptA_bucketGet | apply keptA_slotPut | apply kept_each | apply kept_foldl | apply kept_foldl1 | apply keptA_pure | apply keptA_bind_get | apply keptA_bind | apply keptA_modify | apply keptA_throw | apply keptA_get | apply keptA_set | apply keptA_ite | apply keptA_act | apply kept_endOk | apply kept_endError | apply kept_endIte | apply kept_ite | apply kept_ite1
    | with_reducible (refine Kept.upd rfl ?_; first | assumption | apply keptA_pathFor | apply keptA_forAll | apply keptA_probeBucket | apply keptA_movePath | apply keptA_bucketGet | apply keptA_slotPut | apply kept_each | apply kept_foldl | apply kept_foldl1 | apply kept_ite | apply kept_ite1 | refine keptA_ok ?_ ?_ (by assumption) | refine keptA_error ?_ ?_ (by assumption))
    | refine keptA_ok ?_ ?_ (by assumption)
    | refine keptA_error ?_ ?_ (by assumption)
    | split

theorem kept_markWrote {fz o} {s a1 a2 a3} (h : Kept fz o s) :
    Kept fz o (markWrote s a1 a2 a3) := by
  unfold markWrote
  try dsimp only
  repeat' first
    | with_reducible assumption
    | intro _
    | dsimp only
    | with_reducible first | apply kept_each | apply kept_foldl | apply kept_foldl1 | apply kept_ite | apply kept_ite1
    | with_reducible (refine Kept.upd rfl ?_; first | assumption)

theorem keptA_findOld {fz o} {a0 a1 a2 a3}  :
    KeptA fz o (findOld a0 a1 a2 a3) := by
  unfold findOld
  try dsimp only
  repeat' first
    | with_reducible assumption
    | intro _
    | dsimp only
    | with_reducible first | apply keptA_bucketGet | apply kept_each | apply kept_foldl | apply kept_foldl1 | apply keptA_pure | apply keptA_bind_get | apply keptA_bind | apply keptA_modify | apply keptA_throw | apply keptA_get | apply keptA_set | apply keptA_ite | apply keptA_act | apply kept_endOk | apply kept_endError | apply kept_endIte | apply kept_ite | apply kept_ite1
    | with_reducible (refine Kept.upd rfl ?_; first | assumption | apply keptA_bucketGet | apply kept_each | apply kept_foldl | apply kept_foldl1 | apply kept_ite | apply kept_ite1 | refine keptA_ok ?_ ?_ (by assumption) | refine keptA_error ?_ ?_ (by assumption))
    | refine keptA_ok ?_ ?_ (by assumption)
    | refine keptA_error ?_ ?_ (by assumption)
    | split

theorem keptA_applyKey {fz o} {a0 a1 a2 a3 a4 a5 a6 a7}  :
    KeptA fz o (applyKey a0 a1 a2 a3 a4 a5 a6 a7) := by
  unfold applyKey
  try dsimp only
  repeat' first
    | with_reducible assumption
    | intro _
    | dsimp only
    | with_reducible first | apply keptA_visibleAt | apply keptA_placeKey | apply kept_markWrote | apply keptA_probeBucket | apply keptA_slotPut | apply keptA_forAll | apply keptA_findOld | apply kept_each | apply kept_foldl | apply kept_foldl1 | apply keptA_pure | apply keptA_bind_get | apply keptA_bind | apply keptA_modify | apply keptA_throw | apply keptA_get | apply keptA_set | apply keptA_ite | apply keptA_act | apply kept_endOk | apply kept_endError | apply kept_endIte | apply kept_ite | apply kept_ite1
    | with_reducible (refine Kept.upd rfl ?_; first | assumption | apply keptA_visibleAt | apply keptA_placeKey | apply kept_markWrote | apply keptA_probeBucket | apply keptA_slotPut | apply keptA_forAll | apply keptA_findOld | apply kept_each | apply kept_foldl | apply kept_foldl1 | apply kept_ite | apply kept_ite1 | refine keptA_ok ?_ ?_ (by assumption) | refine keptA_error ?_ ?_ (by assumption))
    | refine keptA_ok ?_ ?_ (by assumption)
    | refine keptA_error ?_ ?_ (by assumption)
    | split

theorem keptA_evictLoop {fz o} {a0 a1 a2 a3 a4 a5 a6 a7 a8}  :
    KeptA fz o (evictLoop a0 a1 a2 a3 a4 a5 a6 a7 a8) := by
  induction a7 generalizing a8 with
  | zero =>
    unfold evictLoop
    try dsimp only
    repeat' first
      | with_reducible assumption
      | intro _
      | dsimp only
      | with_reducible first | apply kept_setProgress | apply keptA_applyKey | apply keptA_keyRead | apply kept_each | apply kept_foldl | apply kept_foldl1 | apply keptA_pure
  | succ n ih =>
    unfold evictLoop
    try dsimp only
    repeat' first
      | with_reducible assumption
      | intro _
      | dsimp only
      | with_reducible first | apply kept_setProgress | apply keptA_applyKey | apply keptA_keyRead | apply ih | apply kept_each | apply kept_foldl | apply kept_foldl1 | apply keptA_pure | apply keptA_bind_get | apply keptA_bind | apply keptA_modify | apply keptA_throw | apply keptA_get | apply keptA_set | apply keptA_ite | apply keptA_act | apply kept_endOk | apply kept_endError | apply kept_endIte | apply kept_ite | apply kept_ite1
      | with_reducible (refine Kept.upd rfl ?_; first | assumption | apply kept_setProgress | apply keptA_applyKey | apply keptA_keyRead | apply ih | apply kept_each | apply kept_foldl | apply kept_foldl1 | apply kept_ite | apply kept_ite1 | refine keptA_ok ?_ ?_ (by assumption) | refine keptA_error ?_ ?_ (by assumption))
      | refine keptA_ok ?_ ?_ (by assumption)
      | refine keptA_error ?_ ?_ (by assumption)
      | split

theorem keptA_admitLoop {fz o} {a0 a1 a2 a3 a4 a5 a6 a7 a8 a9}  :
    KeptA fz o (admitLoop a0 a1 a2 a3 a4 a5 a6 a7 a8 a9) := by
  induction a8 generalizing a9 with
  | zero =>
    unfold admitLoop
    try dsimp only
    repeat' first
      | with_reducible assumption
      | intro _
      | dsimp only
      | with_reducible first | apply keptA_keyRead | apply keptA_keyWrite | apply kept_setProgress | apply keptA_trAct | apply keptA_applyKey | apply kept_each | apply kept_foldl | apply kept_foldl1 | apply keptA_pure | apply keptA_bind_get | apply keptA_bind | apply keptA_modify | apply keptA_throw | apply keptA_get | apply keptA_set | apply keptA_ite | apply keptA_act | apply kept_endOk | apply kept_endError | apply kept_endIte | apply kept_ite | apply kept_ite1
      | with_reducible (refine Kept.upd rfl ?_; first | assumption | apply keptA_keyRead | apply keptA_keyWrite | apply kept_setProgress | apply keptA_trAct | apply keptA_applyKey | apply kept_each | apply kept_foldl | apply kept_foldl1 | apply kept_ite | apply kept_ite1 | refine keptA_ok ?_ ?_ (by assumption) | refine keptA_error ?_ ?_ (by assumption))
      | refine keptA_ok ?_ ?_ (by assumption)
      | refine keptA_error ?_ ?_ (by assumption)
      | split
      | refine keptA_fun ?_
      | with_reducible apply KeptA.ends
  | succ n ih =>
    unfold admitLoop
    try dsimp only
    repeat' first
      | with_reducible assumption
      | intro _
      | dsimp only
      | with_reducible first | apply keptA_keyRead | apply keptA_keyWrite | apply kept_setProgress | apply keptA_trAct | apply keptA_applyKey | apply ih | apply kept_each | apply kept_foldl | apply kept_foldl1 | apply keptA_pure | apply keptA_bind_get | apply keptA_bind | apply keptA_modify | apply keptA_throw | apply keptA_get | apply keptA_set | apply keptA_ite | apply keptA_act | apply kept_endOk | apply kept_endError | apply kept_endIte | apply kept_ite | apply kept_ite1
      | with_reducible (refine Kept.upd rfl ?_; first | assumption | apply keptA_keyRead | apply keptA_keyWrite | apply kept_setProgress | apply keptA_trAct | apply keptA_applyKey | apply ih | apply kept_each | apply kept_foldl | apply kept_foldl1 | apply kept_ite | apply kept_ite1 | refine keptA_ok ?_ ?_ (by assumption) | refine keptA_error ?_ ?_ (by assumption))
      | refine keptA_ok ?_ ?_ (by assumption)
      | refine keptA_error ?_ ?_ (by assumption)
      | split
      | refine keptA_fun ?_
      | with_reducible apply KeptA.ends

theorem keptA_keyAct {fz o} {a0 a1 a2 a3 a4 a5}  :
    KeptA fz o (keyAct a0 a1 a2 a3 a4 a5) := by
  unfold keyAct
  try dsimp only
  repeat' first
    | with_reducible assumption
    | intro _
    | dsimp only
    | with_reducible first | apply keptA_keyUse | apply keptA_okCmd | apply keptA_advanceCons | apply kept_updCmd | apply keptA_evictLoop | apply keptA_admitLoop | apply kept_each | apply kept_foldl | apply kept_foldl1 | apply keptA_pure | apply keptA_bind_get | apply keptA_bind | apply keptA_modify | apply keptA_throw | apply keptA_get | apply keptA_set | apply keptA_ite

theorem keptA_keyRun {fz o} {a0 a1 a2 a3}  :
    KeptA fz o (keyRun a0 a1 a2 a3) := by
  unfold keyRun
  try dsimp only
  repeat' first
    | with_reducible assumption
    | intro _
    | dsimp only
    | with_reducible first | apply keptA_objGet | apply keptA_vlineGet | apply keptA_keyAct | apply kept_updCmd | apply kept_each | apply kept_foldl | apply kept_foldl1 | apply keptA_pure | apply keptA_bind_get | apply keptA_bind | apply keptA_modify | apply keptA_throw | apply keptA_get | apply keptA_set | apply keptA_ite | apply keptA_act | apply kept_endOk | apply kept_endError | apply kept_endIte | apply kept_ite | apply kept_ite1
    | with_reducible (refine Kept.upd rfl ?_; first | assumption | apply keptA_objGet | apply keptA_vlineGet | apply keptA_keyAct | apply kept_updCmd | apply kept_each | apply kept_foldl | apply kept_foldl1 | apply kept_ite | apply kept_ite1 | refine keptA_ok ?_ ?_ (by assumption) | refine keptA_error ?_ ?_ (by assumption))
    | refine keptA_ok ?_ ?_ (by assumption)
    | refine keptA_error ?_ ?_ (by assumption)
    | split

theorem keptR_execKeyCommandResume {fz o} {a0 a1 s} (h : Kept fz o s) :
    KeptR fz o (execKeyCommandResume a0 a1 s) := by
  unfold execKeyCommandResume
  try dsimp only
  repeat' first
    | with_reducible assumption
    | intro _
    | dsimp only
    | with_reducible first | apply kept_updCmd | apply kept_runCmd | apply keptA_keyRun | apply kept_each | apply kept_foldl | apply kept_foldl1 | apply keptA_pure | apply keptA_bind_get | apply keptA_bind | apply keptA_modify | apply keptA_throw | apply keptA_get | apply keptA_set | apply keptA_ite | apply keptA_act | apply kept_endOk | apply kept_endError | apply kept_endIte | apply keptR_next | apply keptR_fault | apply keptR_ite | apply kept_ite | apply kept_ite1
    | with_reducible (refine Kept.upd rfl ?_; first | assumption | apply kept_updCmd | apply kept_runCmd | apply keptA_keyRun | apply kept_each | apply kept_foldl | apply kept_foldl1 | apply kept_ite | apply kept_ite1 | refine keptA_ok ?_ ?_ (by assumption) | refine keptA_error ?_ ?_ (by assumption))
    | refine keptA_ok ?_ ?_ (by assumption)
    | refine keptA_error ?_ ?_ (by assumption)
    | split

theorem kept_ktInvWrite {fz o} {s a1 a2} (h : Kept fz o s) :
    Kept fz o (ktInvWrite s a1 a2) := by
  unfold ktInvWrite
  try dsimp only
  repeat' first
    | with_reducible assumption
    | intro _
    | dsimp only
    | with_reducible first | apply kept_ktInvStart | apply kept_each | apply kept_foldl | apply kept_foldl1 | apply kept_ite | apply kept_ite1
    | with_reducible (refine Kept.upd rfl ?_; first | assumption | apply kept_ktInvStart | apply kept_each | apply kept_foldl | apply kept_foldl1 | apply kept_ite | apply kept_ite1)
    | split

theorem keptR_execKtInvTable {fz o} {a0 s} (h : Kept fz o s) :
    KeptR fz o (execKtInvTable a0 s) := by
  unfold execKtInvTable
  try dsimp only
  repeat' first
    | with_reducible assumption
    | intro _
    | dsimp only
    | with_reducible first | apply kept_ktInvWrite | apply kept_each | apply kept_foldl | apply kept_foldl1 | apply keptR_next | apply keptR_fault | apply keptR_ite | apply kept_ite

theorem keptA_admitPosted {fz o} {a0 a1}  :
    KeptA fz o (admitPosted a0 a1) := by
  unfold admitPosted
  try dsimp only
  repeat' first
    | with_reducible assumption
    | intro _
    | dsimp only
    | with_reducible first | apply keptA_keyUse | apply keptA_ctrlGet | apply kept_each | apply kept_foldl | apply kept_foldl1 | apply keptA_pure | apply keptA_bind_get | apply keptA_bind | apply keptA_modify | apply keptA_throw | apply keptA_get | apply keptA_set | apply keptA_ite | apply keptA_act | apply kept_endOk | apply kept_endError | apply kept_endIte | apply kept_ite | apply kept_ite1
    | with_reducible (refine Kept.upd rfl ?_; first | assumption | apply keptA_keyUse | apply keptA_ctrlGet | apply kept_each | apply kept_foldl | apply kept_foldl1 | apply kept_ite | apply kept_ite1 | refine keptA_ok ?_ ?_ (by assumption) | refine keptA_error ?_ ?_ (by assumption))
    | refine keptA_ok ?_ ?_ (by assumption)
    | refine keptA_error ?_ ?_ (by assumption)
    | split
    | refine keptA_fun ?_
    | with_reducible apply KeptA.ends

theorem keptA_putEntry {fz o} {a0 a1 a2 a3 a4 a5}  :
    KeptA fz o (putEntry a0 a1 a2 a3 a4 a5) := by
  unfold putEntry
  try dsimp only
  repeat' first
    | with_reducible assumption
    | intro _
    | dsimp only
    | with_reducible first | apply kept_hostWrite | apply keptA_trAct | apply keptA_homeFree | apply kept_homeRequest | apply keptA_homePut | apply keptA_vaPut | apply kept_each | apply kept_foldl | apply kept_foldl1 | apply keptA_pure | apply keptA_bind_get | apply keptA_bind | apply keptA_modify | apply keptA_throw | apply keptA_get | apply keptA_set | apply keptA_ite | apply keptA_act | apply kept_endOk | apply kept_endError | apply kept_endIte | apply kept_ite | apply kept_ite1
    | with_reducible (refine Kept.upd rfl ?_; first | assumption | apply kept_hostWrite | apply keptA_trAct | apply keptA_homeFree | apply kept_homeRequest | apply keptA_homePut | apply keptA_vaPut | apply kept_each | apply kept_foldl | apply kept_foldl1 | apply kept_ite | apply kept_ite1 | refine keptA_ok ?_ ?_ (by assumption) | refine keptA_error ?_ ?_ (by assumption))
    | refine keptA_ok ?_ ?_ (by assumption)
    | refine keptA_error ?_ ?_ (by assumption)
    | split
    | refine keptA_fun ?_
    | with_reducible apply KeptA.ends

theorem kept_admitStart {fz o} {a0 a1 s a3} (h : Kept fz o s) :
    Kept fz o (admitStart a0 a1 s a3) := by
  unfold admitStart
  try dsimp only
  repeat' first
    | with_reducible assumption
    | intro _
    | dsimp only
    | with_reducible first | apply kept_startFlush | apply kept_admitSent | apply kept_postSignal | apply kept_each | apply kept_foldl | apply kept_foldl1 | apply kept_ite | apply kept_ite1
    | with_reducible (refine Kept.upd rfl ?_; first | assumption | apply kept_startFlush | apply kept_admitSent | apply kept_postSignal | apply kept_each | apply kept_foldl | apply kept_foldl1 | apply kept_ite | apply kept_ite1 | refine kept_ofP ?_ (by assumption))
    | refine kept_ofP ?_ (by assumption)
    | split

theorem keptR_execAdmitEventSignal {fz o} {a0 a1 s} (h : Kept fz o s) :
    KeptR fz o (execAdmitEventSignal a0 a1 s) := by
  unfold execAdmitEventSignal
  try dsimp only
  repeat' first
    | with_reducible assumption
    | intro _
    | dsimp only
    | with_reducible first | apply kept_reach | apply kept_runAct | apply keptA_admitPosted | apply kept_admitStart | apply kept_each | apply kept_foldl | apply kept_foldl1 | apply keptA_pure | apply keptA_bind_get | apply keptA_bind | apply keptA_modify | apply keptA_throw | apply keptA_get | apply keptA_set | apply keptA_ite | apply keptA_act | apply kept_endOk | apply kept_endError | apply kept_endIte | apply keptR_next | apply keptR_fault | apply keptR_ite | apply kept_ite | apply kept_ite1
    | with_reducible (refine Kept.upd rfl ?_; first | assumption | apply kept_reach | apply kept_runAct | apply keptA_admitPosted | apply kept_admitStart | apply kept_each | apply kept_foldl | apply kept_foldl1 | apply kept_ite | apply kept_ite1 | refine keptA_ok ?_ ?_ (by assumption) | refine keptA_error ?_ ?_ (by assumption))
    | refine keptA_ok ?_ ?_ (by assumption)
    | refine keptA_error ?_ ?_ (by assumption)
    | split
    | refine keptA_fun ?_
    | with_reducible apply KeptA.ends

theorem kept_noteReserved {fz o} {s a1 a2 a3 a4} (h : Kept fz o s) :
    Kept fz o (noteReserved s a1 a2 a3 a4) := by
  unfold noteReserved
  try dsimp only
  repeat' first
    | with_reducible assumption
    | intro _
    | dsimp only
    | with_reducible first | apply kept_note | apply kept_each | apply kept_foldl | apply kept_foldl1 | apply kept_ite

theorem keptR_execKeyEvict {fz o} {a0 a1 s} (h : Kept fz o s) :
    KeptR fz o (execKeyEvict a0 a1 s) := by
  unfold execKeyEvict
  try dsimp only
  repeat' first
    | with_reducible assumption
    | intro _
    | dsimp only
    | with_reducible first | apply kept_runCmd | apply keptA_keyRun | apply kept_each | apply kept_foldl | apply kept_foldl1 | apply keptA_pure | apply keptA_bind_get | apply keptA_bind | apply keptA_modify | apply keptA_throw | apply keptA_get | apply keptA_set | apply keptA_ite | apply keptA_act | apply kept_endOk | apply kept_endError | apply kept_endIte | apply keptR_next

theorem kept_dropPost {fz o} {s a1 a2 a3} (h : Kept fz o s) :
    Kept fz o (dropPost s a1 a2 a3) := by
  unfold dropPost
  try dsimp only
  repeat' first
    | with_reducible assumption
    | intro _
    | dsimp only
    | with_reducible first | apply kept_admitNote | apply kept_updTable | apply kept_each | apply kept_foldl | apply kept_foldl1 | apply kept_ite | apply kept_ite1
    | with_reducible (refine Kept.upd rfl ?_; first | assumption)

theorem keptA_postMiss {fz o} {a0 a1 a2 a3 a4 a5}  :
    KeptA fz o (postMiss a0 a1 a2 a3 a4 a5) := by
  unfold postMiss
  try dsimp only
  repeat' first
    | with_reducible assumption
    | intro _
    | dsimp only
    | with_reducible first | apply keptA_tryPost | apply keptA_ctrlGet | apply kept_dropPost | apply keptA_ctrlPut | apply kept_updTable | apply keptA_putEntry | apply kept_each | apply kept_foldl | apply kept_foldl1 | apply keptA_pure | apply keptA_bind_get | apply keptA_bind | apply keptA_modify | apply keptA_throw | apply keptA_get | apply keptA_set | apply keptA_ite | apply keptA_act | apply kept_endOk | apply kept_endError | apply kept_endIte | apply kept_ite | apply kept_ite1
    | with_reducible (refine Kept.upd rfl ?_; first | assumption | refine keptA_ok ?_ ?_ (by assumption) | refine keptA_error ?_ ?_ (by assumption))
    | refine keptA_ok ?_ ?_ (by assumption)
    | refine keptA_error ?_ ?_ (by assumption)
    | split

theorem keptR_execKtInvDone {fz o} {s} (h : Kept fz o s) :
    KeptR fz o (execKtInvDone s) := by
  unfold execKtInvDone
  try dsimp only
  repeat' first
    | with_reducible assumption
    | intro _
    | dsimp only
    | with_reducible first | apply kept_each | apply kept_foldl | apply kept_foldl1 | apply keptR_next | apply keptR_fault | apply keptR_ite | apply kept_ite | apply kept_ite1
    | with_reducible (refine Kept.upd rfl ?_; first | assumption)

theorem kept_keyRetireWrite {fz o} {s a1} (h : Kept fz o s) :
    Kept fz o (keyRetireWrite s a1) := by
  unfold keyRetireWrite
  try dsimp only
  repeat' first
    | with_reducible assumption
    | intro _
    | dsimp only
    | with_reducible first | apply kept_each | apply kept_foldl | apply kept_foldl1 | apply kept_ite | apply kept_ite1
    | with_reducible (refine Kept.upd rfl ?_; first | assumption)

theorem keptA_keyFind {fz o} {a0 a1 a2 a3 a4}  :
    KeptA fz o (keyFind a0 a1 a2 a3 a4) := by
  unfold keyFind
  try dsimp only
  repeat' first
    | with_reducible assumption
    | intro _
    | dsimp only
    | with_reducible first | apply keptA_bucketGet | apply kept_noteReserved | apply kept_each | apply kept_foldl | apply kept_foldl1 | apply keptA_pure | apply keptA_bind_get | apply keptA_bind | apply keptA_modify | apply keptA_throw | apply keptA_get | apply keptA_set | apply keptA_ite | apply keptA_act | apply kept_endOk | apply kept_endError | apply kept_endIte | apply kept_ite | apply kept_ite1
    | with_reducible (refine Kept.upd rfl ?_; first | assumption | refine keptA_ok ?_ ?_ (by assumption) | refine keptA_error ?_ ?_ (by assumption))
    | refine keptA_ok ?_ ?_ (by assumption)
    | refine keptA_error ?_ ?_ (by assumption)
    | split

theorem keptR_execKeyAdmit {fz o} {a0 a1 s} (h : Kept fz o s) :
    KeptR fz o (execKeyAdmit a0 a1 s) := by
  unfold execKeyAdmit
  try dsimp only
  repeat' first
    | with_reducible assumption
    | intro _
    | dsimp only
    | with_reducible first | apply kept_runCmd | apply keptA_keyRun | apply kept_each | apply kept_foldl | apply kept_foldl1 | apply keptA_pure | apply keptA_bind_get | apply keptA_bind | apply keptA_modify | apply keptA_throw | apply keptA_get | apply keptA_set | apply keptA_ite | apply keptA_act | apply kept_endOk | apply kept_endError | apply kept_endIte | apply keptR_next

theorem keptA_sweepBucket {fz o} {a0 a1 a2 a3 a4}  :
    KeptA fz o (sweepBucket a0 a1 a2 a3 a4) := by
  unfold sweepBucket
  try dsimp only
  repeat' first
    | with_reducible assumption
    | intro _
    | dsimp only
    | with_reducible first | apply keptA_keyRead | apply keptA_forAll | apply keptA_slotPut | apply kept_each | apply kept_foldl | apply kept_foldl1 | apply keptA_pure | apply keptA_bind_get | apply keptA_bind | apply keptA_modify | apply keptA_throw | apply keptA_get | apply keptA_set | apply keptA_ite | apply keptA_act | apply kept_endOk | apply kept_endError | apply kept_endIte | apply kept_ite | apply kept_ite1
    | with_reducible (refine Kept.upd rfl ?_; first | assumption | refine keptA_ok ?_ ?_ (by assumption) | refine keptA_error ?_ ?_ (by assumption))

theorem keptA_sweepUse {fz o} {a0 a1 a2}  :
    KeptA fz o (sweepUse a0 a1 a2) := by
  unfold sweepUse
  try dsimp only
  repeat' first
    | with_reducible assumption
    | intro _
    | dsimp only
    | with_reducible first | apply keptA_noneOn | apply keptA_keyUse | apply keptA_objGet | apply kept_each | apply kept_foldl | apply kept_foldl1 | apply keptA_pure | apply keptA_bind_get | apply keptA_bind | apply keptA_modify | apply keptA_throw | apply keptA_get | apply keptA_set | apply keptA_ite

theorem keptA_sweepTable {fz o} {a0 a1 a2 a3}  :
    KeptA fz o (sweepTable a0 a1 a2 a3) := by
  unfold sweepTable
  try dsimp only
  repeat' first
    | with_reducible assumption
    | intro _
    | dsimp only
    | with_reducible first | apply keptA_sweepUse | apply keptA_forAll | apply keptA_sweepBucket | apply kept_updTable | apply kept_each | apply kept_foldl | apply kept_foldl1 | apply keptA_pure | apply keptA_bind_get | apply keptA_bind | apply keptA_modify | apply keptA_throw | apply keptA_get | apply keptA_set | apply keptA_ite
    | split

theorem keptR_execKeySliceRetire {fz o} {a0 s} (h : Kept fz o s) :
    KeptR fz o (execKeySliceRetire a0 s) := by
  unfold execKeySliceRetire
  try dsimp only
  repeat' first
    | with_reducible assumption
    | intro _
    | dsimp only
    | with_reducible first | apply kept_keyRetireWrite | apply kept_each | apply kept_foldl | apply kept_foldl1 | apply keptR_next | apply keptR_fault | apply keptR_ite | apply kept_ite

theorem keptR_execKeySliceRetireDone {fz o} {s} (h : Kept fz o s) :
    KeptR fz o (execKeySliceRetireDone s) := by
  unfold execKeySliceRetireDone
  try dsimp only
  repeat' first
    | with_reducible assumption
    | intro _
    | dsimp only
    | with_reducible first | apply kept_each | apply kept_foldl | apply kept_foldl1 | apply keptR_next | apply keptR_fault | apply keptR_ite | apply kept_ite | apply kept_ite1
    | with_reducible (refine Kept.upd rfl ?_; first | assumption)

theorem keptR_execKtInvAll {fz o} {s} (h : Kept fz o s) :
    KeptR fz o (execKtInvAll s) := by
  unfold execKtInvAll
  try dsimp only
  repeat' first
    | with_reducible assumption
    | intro _
    | dsimp only
    | with_reducible first | apply kept_ktInvWrite | apply kept_each | apply kept_foldl | apply kept_foldl1 | apply keptR_next | apply keptR_fault | apply keptR_ite | apply kept_ite

end Sys2Proof.Machine
end

