-- ==== Sys2Proof/Laws/KeptTables.lean ====
section
/-! SUPPORT. What the definitions of Machine/Tables.lean keep (`Kept`). -/

namespace Sys2Proof.Machine

theorem kept_objDone {fz o} {s a1 a2} (h : Kept fz o s) :
    Kept fz o (objDone s a1 a2) := by
  unfold objDone
  try dsimp only
  repeat' first
    | with_reducible assumption
    | intro _
    | dsimp only
    | with_reducible first | apply kept_each | apply kept_foldl | apply kept_foldl1 | apply kept_ite | apply kept_ite1
    | with_reducible (refine Kept.upd rfl ?_; first | assumption)

theorem keptA_regionLeaves {fz o} {a0 a1 a2 a3}  :
    KeptA fz o (regionLeaves a0 a1 a2 a3) := by
  unfold regionLeaves
  try dsimp only
  repeat' first
    | with_reducible assumption
    | intro _
    | dsimp only
    | with_reducible first | apply keptA_leavesOf

theorem keptA_entryAt {fz o} {a0 a1 a2 a3 a4 a5}  :
    KeptA fz o (entryAt a0 a1 a2 a3 a4 a5) := by
  induction a4 generalizing a5 with
  | zero =>
    unfold entryAt
    try dsimp only
    repeat' first
      | with_reducible assumption
      | intro _
      | dsimp only
      | with_reducible first | apply keptA_homeGet | apply kept_each | apply kept_foldl | apply kept_foldl1 | apply keptA_pure
  | succ n ih =>
    unfold entryAt
    try dsimp only
    repeat' first
      | with_reducible assumption
      | intro _
      | dsimp only
      | with_reducible first | apply keptA_homeGet | apply ih | apply kept_each | apply kept_foldl | apply kept_foldl1 | apply keptA_pure | apply keptA_bind_get | apply keptA_bind | apply keptA_modify | apply keptA_throw | apply keptA_get | apply keptA_set | apply keptA_ite

theorem keptA_matching {fz o} {a0 a1 a2 a3}  :
    KeptA fz o (matching a0 a1 a2 a3) := by
  unfold matching
  try dsimp only
  repeat' first
    | with_reducible assumption
    | intro _
    | dsimp only
    | with_reducible first | apply keptA_rootOf | apply keptA_entryAt | apply kept_each | apply kept_foldl | apply kept_foldl1 | apply keptA_pure | apply keptA_bind_get | apply keptA_bind | apply keptA_modify | apply keptA_throw | apply keptA_get | apply keptA_set | apply keptA_ite | apply keptA_act | apply kept_endOk | apply kept_endError | apply kept_endIte | apply kept_ite | apply kept_ite1
    | with_reducible (refine Kept.upd rfl ?_; first | assumption | apply keptA_rootOf | apply keptA_entryAt | apply kept_each | apply kept_foldl | apply kept_foldl1 | apply kept_ite | apply kept_ite1 | refine keptA_ok ?_ ?_ (by assumption) | refine keptA_error ?_ ?_ (by assumption))
    | refine keptA_ok ?_ ?_ (by assumption)
    | refine keptA_error ?_ ?_ (by assumption)
    | split
    | refine keptA_fun ?_
    | with_reducible apply KeptA.ends

theorem keptA_unshare {fz o} {a0 a1 a2 a3}  :
    KeptA fz o (unshare a0 a1 a2 a3) := by
  unfold unshare
  try dsimp only
  repeat' first
    | with_reducible assumption
    | intro _
    | dsimp only
    | with_reducible first | apply keptA_matching | apply keptA_putPte | apply kept_each | apply kept_foldl | apply kept_foldl1 | apply keptA_pure | apply keptA_bind_get | apply keptA_bind | apply keptA_modify | apply keptA_throw | apply keptA_get | apply keptA_set | apply keptA_ite | apply keptA_act | apply kept_endOk | apply kept_endError | apply kept_endIte | apply kept_ite | apply kept_ite1
    | with_reducible (refine Kept.upd rfl ?_; first | assumption | apply keptA_matching | apply keptA_putPte | apply kept_each | apply kept_foldl | apply kept_foldl1 | apply kept_ite | apply kept_ite1 | refine keptA_ok ?_ ?_ (by assumption) | refine keptA_error ?_ ?_ (by assumption))
    | refine keptA_ok ?_ ?_ (by assumption)
    | refine keptA_error ?_ ?_ (by assumption)
    | split

theorem keptA_clearRegion {fz o} {a0 a1 a2}  :
    KeptA fz o (clearRegion a0 a1 a2) := by
  unfold clearRegion
  try dsimp only
  repeat' first
    | with_reducible assumption
    | intro _
    | dsimp only
    | with_reducible first | apply keptA_regionLeaves | apply keptA_mapAll | apply keptA_attempt | apply keptA_putPte | apply keptA_unshare | apply keptA_clearLeaf | apply kept_each | apply kept_foldl | apply kept_foldl1 | apply keptA_pure | apply keptA_bind_get | apply keptA_bind | apply keptA_modify | apply keptA_throw | apply keptA_get | apply keptA_set | apply keptA_ite

theorem kept_failObjAps {fz o} {s a1 a2} (h : Kept fz o s) :
    Kept fz o (failObjAps s a1 a2) := by
  unfold failObjAps
  try dsimp only
  repeat' first
    | with_reducible assumption
    | intro _
    | dsimp only
    | with_reducible first | apply kept_failAp | apply kept_each | apply kept_foldl | apply kept_foldl1 | apply kept_ite | apply kept_ite1
    | with_reducible (refine Kept.upd rfl ?_; first | assumption | apply kept_failAp | apply kept_each | apply kept_foldl | apply kept_foldl1 | apply kept_ite | apply kept_ite1)
    | split

theorem keptA_vlineOk {fz o} {a0 a1}  :
    KeptA fz o (vlineOk a0 a1) := by
  unfold vlineOk
  try dsimp only
  repeat' first
    | with_reducible assumption
    | intro _
    | dsimp only
    | with_reducible first | apply kept_walk | apply kept_each | apply kept_foldl | apply kept_foldl1 | apply keptA_pure | apply keptA_bind_get | apply keptA_bind | apply keptA_modify | apply keptA_throw | apply keptA_get | apply keptA_set | apply keptA_ite | apply keptA_act | apply kept_endOk | apply kept_endError | apply kept_endIte | apply kept_ite | apply kept_ite1
    | with_reducible (refine Kept.upd rfl ?_; first | assumption | apply kept_walk | apply kept_each | apply kept_foldl | apply kept_foldl1 | apply kept_ite | apply kept_ite1 | refine keptA_ok ?_ ?_ (by assumption) | refine keptA_error ?_ ?_ (by assumption) | refine kept_ofP ?_ (by assumption))
    | refine keptA_ok ?_ ?_ (by assumption)
    | refine keptA_error ?_ ?_ (by assumption)
    | refine kept_ofP ?_ (by assumption)
    | split
    | refine keptA_fun ?_
    | with_reducible apply KeptA.ends

theorem keptA_createAct {fz o} {a0 a1}  :
    KeptA fz o (createAct a0 a1) := by
  unfold createAct
  try dsimp only
  repeat' first
    | with_reducible assumption
    | intro _
    | dsimp only
    | with_reducible first | apply keptA_need | apply keptA_homeGet | apply keptA_objPut | apply keptA_vlineOk | apply keptA_failWith | apply keptA_failAs | apply keptA_homePut | apply kept_each | apply kept_foldl | apply kept_foldl1 | apply keptA_pure | apply keptA_bind_get | apply keptA_bind | apply keptA_modify | apply keptA_throw | apply keptA_get | apply keptA_set | apply keptA_ite | apply keptA_act | apply kept_endOk | apply kept_endError | apply kept_endIte | apply kept_ite | apply kept_ite1
    | with_reducible (refine Kept.upd rfl ?_; first | assumption | apply keptA_need | apply keptA_homeGet | apply keptA_objPut | apply keptA_vlineOk | apply keptA_failWith | apply keptA_failAs | apply keptA_homePut | apply kept_each | apply kept_foldl | apply kept_foldl1 | apply kept_ite | apply kept_ite1 | refine keptA_ok ?_ ?_ (by assumption) | refine keptA_error ?_ ?_ (by assumption))
    | refine keptA_ok ?_ ?_ (by assumption)
    | refine keptA_error ?_ ?_ (by assumption)
    | split
    | refine keptA_fun ?_
    | with_reducible apply KeptA.ends

theorem kept_objCreate {fz o} {s a1 a2} (h : Kept fz o s) :
    Kept fz o (objCreate s a1 a2) := by
  unfold objCreate
  try dsimp only
  repeat' first
    | with_reducible assumption
    | intro _
    | dsimp only
    | with_reducible first | apply kept_runAct | apply keptA_createAct | apply kept_objDone

theorem kept_endWaits {fz o} {s a1} (h : Kept fz o s) :
    Kept fz o (endWaits s a1) := by
  unfold endWaits
  try dsimp only
  repeat' first
    | with_reducible assumption
    | intro _
    | dsimp only
    | with_reducible first | apply kept_endCmd | apply kept_each | apply kept_foldl | apply kept_foldl1 | apply kept_ite | apply kept_ite1
    | with_reducible (refine Kept.upd rfl ?_; first | assumption | apply kept_endCmd | apply kept_each | apply kept_foldl | apply kept_foldl1 | apply kept_ite | apply kept_ite1)
    | split

theorem keptA_takeEffect {fz o} {a0 a1 a2}  :
    KeptA fz o (takeEffect a0 a1 a2) := by
  unfold takeEffect
  try dsimp only
  repeat' first
    | with_reducible assumption
    | intro _
    | dsimp only
    | with_reducible first | apply keptA_objGet | apply keptA_vlineGet | apply keptA_need | apply keptA_vlinePut | apply keptA_okCmd | apply kept_wwPump | apply kept_each | apply kept_foldl | apply kept_foldl1 | apply keptA_pure | apply keptA_bind_get | apply keptA_bind | apply keptA_modify | apply keptA_throw | apply keptA_get | apply keptA_set | apply keptA_ite | apply keptA_act | apply kept_endOk | apply kept_endError | apply kept_endIte | apply kept_ite | apply kept_ite1
    | with_reducible (refine Kept.upd rfl ?_; first | assumption | apply keptA_objGet | apply keptA_vlineGet | apply keptA_need | apply keptA_vlinePut | apply keptA_okCmd | apply kept_wwPump | apply kept_each | apply kept_foldl | apply kept_foldl1 | apply kept_ite | apply kept_ite1 | refine keptA_ok ?_ ?_ (by assumption) | refine keptA_error ?_ ?_ (by assumption))
    | refine keptA_ok ?_ ?_ (by assumption)
    | refine keptA_error ?_ ?_ (by assumption)
    | split
    | refine keptA_fun ?_
    | with_reducible apply KeptA.ends

theorem keptR_execFlipTakeEffect {fz o} {a0 a1 s} (h : Kept fz o s) :
    KeptR fz o (execFlipTakeEffect a0 a1 s) := by
  unfold execFlipTakeEffect
  try dsimp only
  repeat' first
    | with_reducible assumption
    | intro _
    | dsimp only
    | with_reducible first | apply kept_runAct | apply keptA_takeEffect | apply kept_stopCmd | apply kept_each | apply kept_foldl | apply kept_foldl1 | apply keptA_pure | apply keptA_bind_get | apply keptA_bind | apply keptA_modify | apply keptA_throw | apply keptA_get | apply keptA_set | apply keptA_ite | apply keptA_act | apply kept_endOk | apply kept_endError | apply kept_endIte | apply keptR_next | apply keptR_fault | apply keptR_ite | apply kept_ite | apply kept_ite1
    | with_reducible (refine Kept.upd rfl ?_; first | assumption | apply kept_runAct | apply keptA_takeEffect | apply kept_stopCmd | apply kept_each | apply kept_foldl | apply kept_foldl1 | apply kept_ite | apply kept_ite1 | refine keptA_ok ?_ ?_ (by assumption) | refine keptA_error ?_ ?_ (by assumption))
    | refine keptA_ok ?_ ?_ (by assumption)
    | refine keptA_error ?_ ?_ (by assumption)
    | split

theorem kept_passToFree {fz o} {s a1} (h : Kept fz o s) :
    Kept fz o (passToFree s a1) := by
  unfold passToFree
  try dsimp only
  repeat' first
    | with_reducible assumption
    | intro _
    | dsimp only
    | with_reducible first | apply kept_each | apply kept_foldl | apply kept_foldl1 | apply kept_ite | apply kept_ite1
    | with_reducible (refine Kept.upd rfl ?_; first | assumption | apply kept_each | apply kept_foldl | apply kept_foldl1 | apply kept_ite | apply kept_ite1)
    | split

theorem keptA_clearTable {fz o} {a0 a1 a2}  :
    KeptA fz o (clearTable a0 a1 a2) := by
  unfold clearTable
  try dsimp only
  repeat' first
    | with_reducible assumption
    | intro _
    | dsimp only
    | with_reducible first | apply keptA_regionLeaves | apply keptA_mapAll | apply keptA_clearLeaf | apply kept_each | apply kept_foldl | apply kept_foldl1 | apply keptA_pure | apply keptA_bind_get | apply keptA_bind

theorem keptA_freePages {fz o} {a0 a1 a2}  :
    KeptA fz o (freePages a0 a1 a2) := by
  unfold freePages
  try dsimp only
  repeat' first
    | with_reducible assumption
    | intro _
    | dsimp only
    | with_reducible first | apply kept_pumpPasses | apply kept_passToFree | apply keptA_clearTable | apply keptA_beginPass | apply keptA_tryPost | apply keptA_vlineGet | apply keptA_clearObject | apply kept_each | apply kept_foldl | apply kept_foldl1 | apply keptA_pure | apply keptA_bind_get | apply keptA_bind | apply keptA_modify | apply keptA_throw | apply keptA_get | apply keptA_set | apply keptA_ite | apply keptA_act | apply kept_endOk | apply kept_endError | apply kept_endIte | apply kept_ite | apply kept_ite1
    | with_reducible (refine Kept.upd rfl ?_; first | assumption | apply kept_pumpPasses | apply kept_passToFree | apply keptA_clearTable | apply keptA_beginPass | apply keptA_tryPost | apply keptA_vlineGet | apply keptA_clearObject | apply kept_each | apply kept_foldl | apply kept_foldl1 | apply kept_ite | apply kept_ite1 | refine keptA_ok ?_ ?_ (by assumption) | refine keptA_error ?_ ?_ (by assumption))
    | refine keptA_ok ?_ ?_ (by assumption)
    | refine keptA_error ?_ ?_ (by assumption)
    | split
    | refine keptA_fun ?_
    | with_reducible apply KeptA.ends

theorem keptA_becomeFree {fz o} {a0 a1 a2 a3}  :
    KeptA fz o (becomeFree a0 a1 a2 a3) := by
  unfold becomeFree
  try dsimp only
  repeat' first
    | with_reducible assumption
    | intro _
    | dsimp only
    | with_reducible first | apply keptA_freePages | apply keptA_objPut | apply kept_ktDrop | apply kept_each | apply kept_foldl | apply kept_foldl1 | apply keptA_pure | apply keptA_bind_get | apply keptA_bind | apply keptA_modify | apply keptA_throw | apply keptA_get | apply keptA_set | apply keptA_ite | apply keptA_act | apply kept_endOk | apply kept_endError | apply kept_endIte | apply kept_ite | apply kept_ite1
    | with_reducible (refine Kept.upd rfl ?_; first | assumption | apply keptA_freePages | apply keptA_objPut | apply kept_ktDrop | apply kept_each | apply kept_foldl | apply kept_foldl1 | apply kept_ite | apply kept_ite1 | refine keptA_ok ?_ ?_ (by assumption) | refine keptA_error ?_ ?_ (by assumption))
    | refine keptA_ok ?_ ?_ (by assumption)
    | refine keptA_error ?_ ?_ (by assumption)
    | split
    | refine keptA_fun ?_
    | with_reducible apply KeptA.ends

theorem keptA_freeObj {fz o} {a0 a1 a2}  :
    KeptA fz o (freeObj a0 a1 a2) := by
  unfold freeObj
  try dsimp only
  repeat' first
    | with_reducible assumption
    | intro _
    | dsimp only
    | with_reducible first | apply kept_failObjAps | apply keptA_becomeFree | apply keptA_objPut | apply kept_tornLine | apply kept_endWaits | apply kept_each | apply kept_foldl | apply kept_foldl1 | apply keptA_pure | apply keptA_bind_get | apply keptA_bind | apply keptA_modify | apply keptA_throw | apply keptA_get | apply keptA_set | apply keptA_ite | apply keptA_act | apply kept_endOk | apply kept_endError | apply kept_endIte | apply kept_ite | apply kept_ite1
    | with_reducible (refine Kept.upd rfl ?_; first | assumption | apply kept_failObjAps | apply keptA_becomeFree | apply keptA_objPut | apply kept_tornLine | apply kept_endWaits | apply kept_each | apply kept_foldl | apply kept_foldl1 | apply kept_ite | apply kept_ite1 | refine keptA_ok ?_ ?_ (by assumption) | refine keptA_error ?_ ?_ (by assumption))
    | refine keptA_ok ?_ ?_ (by assumption)
    | refine keptA_error ?_ ?_ (by assumption)
    | split
    | refine keptA_fun ?_
    | with_reducible apply KeptA.ends

theorem kept_dropPass {fz o} {s a1} (h : Kept fz o s) :
    Kept fz o (dropPass s a1) := by
  unfold dropPass
  try dsimp only
  repeat' first
    | with_reducible assumption
    | intro _
    | dsimp only
    | with_reducible first | apply kept_each | apply kept_foldl | apply kept_foldl1 | apply kept_ite | apply kept_ite1
    | with_reducible (refine Kept.upd rfl ?_; first | assumption)

theorem keptA_retireDone {fz o} {a0 a1 a2 a3}  :
    KeptA fz o (retireDone a0 a1 a2 a3) := by
  unfold retireDone
  try dsimp only
  repeat' first
    | with_reducible assumption
    | intro _
    | dsimp only
    | with_reducible first | apply kept_dropPass | apply keptA_vlinePut | apply kept_postSignal | apply kept_wwPump | apply kept_each | apply kept_foldl | apply kept_foldl1 | apply keptA_pure | apply keptA_bind_get | apply keptA_bind | apply keptA_modify | apply keptA_throw | apply keptA_get | apply keptA_set | apply keptA_ite | apply keptA_act | apply kept_endOk | apply kept_endError | apply kept_endIte | apply kept_ite | apply kept_ite1
    | with_reducible (refine Kept.upd rfl ?_; first | assumption | apply kept_dropPass | apply keptA_vlinePut | apply kept_postSignal | apply kept_wwPump | apply kept_each | apply kept_foldl | apply kept_foldl1 | apply kept_ite | apply kept_ite1 | refine keptA_ok ?_ ?_ (by assumption) | refine keptA_error ?_ ?_ (by assumption))
    | refine keptA_ok ?_ ?_ (by assumption)
    | refine keptA_error ?_ ?_ (by assumption)
    | split
    | refine keptA_fun ?_
    | with_reducible apply KeptA.ends

theorem keptA_retireAct {fz o} {a0 a1}  :
    KeptA fz o (retireAct a0 a1) := by
  unfold retireAct
  try dsimp only
  repeat' first
    | with_reducible assumption
    | intro _
    | dsimp only
    | with_reducible first | apply keptA_objGet | apply keptA_vlineGet | apply kept_pumpPasses | apply keptA_retireDone | apply keptA_clearRegion | apply keptA_beginPass | apply kept_each | apply kept_foldl | apply kept_foldl1 | apply keptA_pure | apply keptA_bind_get | apply keptA_bind | apply keptA_modify | apply keptA_throw | apply keptA_get | apply keptA_set | apply keptA_ite | apply keptA_act | apply kept_endOk | apply kept_endError | apply kept_endIte | apply kept_ite | apply kept_ite1
    | with_reducible (refine Kept.upd rfl ?_; first | assumption | apply keptA_objGet | apply keptA_vlineGet | apply kept_pumpPasses | apply keptA_retireDone | apply keptA_clearRegion | apply keptA_beginPass | apply kept_each | apply kept_foldl | apply kept_foldl1 | apply kept_ite | apply kept_ite1 | refine keptA_ok ?_ ?_ (by assumption) | refine keptA_error ?_ ?_ (by assumption))
    | refine keptA_ok ?_ ?_ (by assumption)
    | refine keptA_error ?_ ?_ (by assumption)
    | split

theorem kept_releasePin {fz o} {s a1 a2} (h : Kept fz o s) :
    Kept fz o (releasePin s a1 a2) := by
  unfold releasePin
  try dsimp only
  repeat' first
    | with_reducible assumption
    | intro _
    | dsimp only
    | with_reducible first | apply keptA_objGet | apply keptA_vlineGet | apply keptA_vlinePut | apply kept_waitBack | apply kept_each | apply kept_foldl | apply kept_foldl1 | apply keptA_pure | apply keptA_bind_get | apply keptA_bind | apply keptA_modify | apply keptA_throw | apply keptA_get | apply keptA_set | apply keptA_ite | apply keptA_act | apply kept_endOk | apply kept_endError | apply kept_endIte | apply kept_ite | apply kept_ite1
    | with_reducible (refine Kept.upd rfl ?_; first | assumption | apply keptA_objGet | apply keptA_vlineGet | apply keptA_vlinePut | apply kept_waitBack | apply kept_each | apply kept_foldl | apply kept_foldl1 | apply kept_ite | apply kept_ite1 | refine keptA_ok ?_ ?_ (by assumption) | refine keptA_error ?_ ?_ (by assumption))
    | refine keptA_ok ?_ ?_ (by assumption)
    | refine keptA_error ?_ ?_ (by assumption)
    | split

theorem kept_releaseDue {fz o} {s a1 a2} (h : Kept fz o s) :
    Kept fz o (releaseDue s a1 a2) := by
  unfold releaseDue
  try dsimp only
  repeat' first
    | with_reducible assumption
    | intro _
    | dsimp only
    | with_reducible first | apply kept_releasePin | apply kept_each | apply kept_foldl | apply kept_foldl1 | apply kept_ite | apply kept_ite1
    | with_reducible (refine Kept.upd rfl ?_; first | assumption)

theorem keptR_execRetirement {fz o} {a0 a1 s} (h : Kept fz o s) :
    KeptR fz o (execRetirement a0 a1 s) := by
  unfold execRetirement
  try dsimp only
  repeat' first
    | with_reducible assumption
    | intro _
    | dsimp only
    | with_reducible first | apply kept_runAct | apply keptA_retireAct | apply kept_releaseDue | apply kept_each | apply kept_foldl | apply kept_foldl1 | apply keptA_pure | apply keptA_bind_get | apply keptA_bind | apply keptA_modify | apply keptA_throw | apply keptA_get | apply keptA_set | apply keptA_ite | apply keptA_act | apply kept_endOk | apply kept_endError | apply kept_endIte | apply keptR_next | apply keptR_fault | apply keptR_ite | apply kept_ite

theorem kept_objFreeOp {fz o} {s a1 a2} (h : Kept fz o s) :
    Kept fz o (objFreeOp s a1 a2) := by
  unfold objFreeOp
  try dsimp only
  repeat' first
    | with_reducible assumption
    | intro _
    | dsimp only
    | with_reducible first | apply keptA_need | apply keptA_objGet | apply keptA_freeObj | apply kept_runAct | apply kept_each | apply kept_foldl | apply kept_foldl1 | apply keptA_pure | apply keptA_bind_get | apply keptA_bind | apply keptA_modify | apply keptA_throw | apply keptA_get | apply keptA_set | apply keptA_ite | apply keptA_act | apply kept_endOk | apply kept_endError | apply kept_endIte | apply kept_ite | apply kept_ite1
    | with_reducible (refine Kept.upd rfl ?_; first | assumption | refine keptA_ok ?_ ?_ (by assumption) | refine keptA_error ?_ ?_ (by assumption))

theorem keptA_objectFreeAct {fz o} {a0 a1 a2}  :
    KeptA fz o (objectFreeAct a0 a1 a2) := by
  unfold objectFreeAct
  try dsimp only
  repeat' first
    | with_reducible assumption
    | intro _
    | dsimp only
    | with_reducible first | apply keptA_objGet | apply keptA_need | apply keptA_freeObj | apply keptA_okCmd | apply kept_each | apply kept_foldl | apply kept_foldl1 | apply keptA_pure | apply keptA_bind_get | apply keptA_bind

theorem keptR_execObjectFree {fz o} {a0 a1 s} (h : Kept fz o s) :
    KeptR fz o (execObjectFree a0 a1 s) := by
  unfold execObjectFree
  try dsimp only
  repeat' first
    | with_reducible assumption
    | intro _
    | dsimp only
    | with_reducible first | apply kept_runCmd | apply keptA_objectFreeAct | apply kept_each | apply kept_foldl | apply kept_foldl1 | apply keptA_pure | apply keptA_bind_get | apply keptA_bind | apply keptA_modify | apply keptA_throw | apply keptA_get | apply keptA_set | apply keptA_ite | apply keptA_act | apply kept_endOk | apply kept_endError | apply kept_endIte | apply keptR_next

theorem keptA_openDone {fz o} {a0 a1 a2 a3 a4}  :
    KeptA fz o (openDone a0 a1 a2 a3 a4) := by
  unfold openDone
  try dsimp only
  repeat' first
    | with_reducible assumption
    | intro _
    | dsimp only
    | with_reducible first | apply keptA_vlineGet | apply keptA_vlinePut | apply kept_updTable | apply keptA_okCmd | apply kept_wwPump | apply kept_each | apply kept_foldl | apply kept_foldl1 | apply keptA_pure | apply keptA_bind_get | apply keptA_bind | apply keptA_modify

theorem keptA_flipAct {fz o} {a0 a1 a2}  :
    KeptA fz o (flipAct a0 a1 a2) := by
  unfold flipAct
  try dsimp only
  repeat' first
    | with_reducible assumption
    | intro _
    | dsimp only
    | with_reducible first | apply keptA_objGet | apply keptA_vlineGet | apply keptA_need | apply kept_updCmd | apply kept_each | apply kept_foldl | apply kept_foldl1 | apply keptA_pure | apply keptA_bind_get | apply keptA_bind | apply keptA_modify

theorem keptR_execTableFlip {fz o} {a0 a1 s} (h : Kept fz o s) :
    KeptR fz o (execTableFlip a0 a1 s) := by
  unfold execTableFlip
  try dsimp only
  repeat' first
    | with_reducible assumption
    | intro _
    | dsimp only
    | with_reducible first | apply kept_runCmd | apply keptA_flipAct | apply kept_each | apply kept_foldl | apply kept_foldl1 | apply keptA_pure | apply keptA_bind_get | apply keptA_bind | apply keptA_modify | apply keptA_throw | apply keptA_get | apply keptA_set | apply keptA_ite | apply keptA_act | apply kept_endOk | apply kept_endError | apply kept_endIte | apply keptR_next

theorem keptA_shareLeaves {fz o} {a0 a1 a2}  :
    KeptA fz o (shareLeaves a0 a1 a2) := by
  unfold shareLeaves
  try dsimp only
  repeat' first
    | with_reducible assumption
    | intro _
    | dsimp only
    | with_reducible first | apply keptA_leavesOf | apply keptA_mapAll | apply keptA_need | apply keptA_matching | apply keptA_failWith | apply keptA_forAll | apply keptA_putPte | apply kept_each | apply kept_foldl | apply kept_foldl1 | apply keptA_pure | apply keptA_bind_get | apply keptA_bind | apply keptA_modify | apply keptA_throw | apply keptA_get | apply keptA_set | apply keptA_ite | apply keptA_act | apply kept_endOk | apply kept_endError | apply kept_endIte | apply kept_ite | apply kept_ite1
    | with_reducible (refine Kept.upd rfl ?_; first | assumption | apply keptA_leavesOf | apply keptA_mapAll | apply keptA_need | apply keptA_matching | apply keptA_failWith | apply keptA_forAll | apply keptA_putPte | apply kept_each | apply kept_foldl | apply kept_foldl1 | apply kept_ite | apply kept_ite1 | refine keptA_ok ?_ ?_ (by assumption) | refine keptA_error ?_ ?_ (by assumption))
    | refine keptA_ok ?_ ?_ (by assumption)
    | refine keptA_error ?_ ?_ (by assumption)
    | split

theorem keptA_openAct {fz o} {a0 a1 a2}  :
    KeptA fz o (openAct a0 a1 a2) := by
  unfold openAct
  try dsimp only
  repeat' first
    | with_reducible assumption
    | intro _
    | dsimp only
    | with_reducible first | apply keptA_objGet | apply keptA_openDone | apply keptA_vlineGet | apply keptA_need | apply keptA_vlinePut | apply keptA_onEnd | apply keptA_shareLeaves | apply kept_wwPump | apply kept_invBegin | apply kept_updCmd | apply kept_each | apply kept_foldl | apply kept_foldl1 | apply keptA_pure | apply keptA_bind_get | apply keptA_bind | apply keptA_modify | apply keptA_throw | apply keptA_get | apply keptA_set | apply keptA_ite | apply keptA_act | apply kept_endOk | apply kept_endError | apply kept_endIte | apply kept_ite | apply kept_ite1
    | with_reducible (refine Kept.upd rfl ?_; first | assumption | apply keptA_objGet | apply keptA_openDone | apply keptA_vlineGet | apply keptA_need | apply keptA_vlinePut | apply keptA_onEnd | apply keptA_shareLeaves | apply kept_wwPump | apply kept_invBegin | apply kept_updCmd | apply kept_each | apply kept_foldl | apply kept_foldl1 | apply kept_ite | apply kept_ite1 | refine keptA_ok ?_ ?_ (by assumption) | refine keptA_error ?_ ?_ (by assumption) | refine kept_ofP ?_ (by assumption))
    | refine keptA_ok ?_ ?_ (by assumption)
    | refine keptA_error ?_ ?_ (by assumption)
    | refine kept_ofP ?_ (by assumption)
    | split

theorem keptA_abortDone {fz o} {a0 a1 a2 a3 a4 a5}  :
    KeptA fz o (abortDone a0 a1 a2 a3 a4 a5) := by
  unfold abortDone
  try dsimp only
  repeat' first
    | with_reducible assumption
    | intro _
    | dsimp only
    | with_reducible first | apply kept_pushAll | apply kept_updCmd | apply keptA_vlineGet | apply keptA_sweepTable | apply keptA_vlinePut | apply keptA_okCmd | apply kept_wwPump | apply kept_each | apply kept_foldl | apply kept_foldl1 | apply keptA_pure | apply keptA_bind_get | apply keptA_bind | apply keptA_modify | apply keptA_throw | apply keptA_get | apply keptA_set | apply keptA_ite | apply keptA_act | apply kept_endOk | apply kept_endError | apply kept_endIte | apply kept_ite | apply kept_ite1
    | with_reducible (refine Kept.upd rfl ?_; first | assumption | apply kept_pushAll | apply kept_updCmd | apply keptA_vlineGet | apply keptA_sweepTable | apply keptA_vlinePut | apply keptA_okCmd | apply kept_wwPump | apply kept_each | apply kept_foldl | apply kept_foldl1 | apply kept_ite | apply kept_ite1 | refine keptA_ok ?_ ?_ (by assumption) | refine keptA_error ?_ ?_ (by assumption))
    | refine keptA_ok ?_ ?_ (by assumption)
    | refine keptA_error ?_ ?_ (by assumption)
    | split
    | refine keptA_fun ?_
    | with_reducible apply KeptA.ends

theorem keptA_abortGo {fz o} {a0 a1 a2 a3 a4 a5}  :
    KeptA fz o (abortGo a0 a1 a2 a3 a4 a5) := by
  unfold abortGo
  try dsimp only
  repeat' first
    | with_reducible assumption
    | intro _
    | dsimp only
    | with_reducible first | apply kept_updCmd | apply keptA_clearRegion | apply kept_invBegin | apply keptA_abortDone | apply kept_each | apply kept_foldl | apply kept_foldl1 | apply keptA_pure | apply keptA_bind_get | apply keptA_bind | apply keptA_modify | apply keptA_throw | apply keptA_get | apply keptA_set | apply keptA_ite | apply keptA_act | apply kept_endOk | apply kept_endError | apply kept_endIte | apply kept_ite | apply kept_ite1
    | with_reducible (refine Kept.upd rfl ?_; first | assumption | apply kept_updCmd | apply keptA_clearRegion | apply kept_invBegin | apply keptA_abortDone | apply kept_each | apply kept_foldl | apply kept_foldl1 | apply kept_ite | apply kept_ite1 | refine keptA_ok ?_ ?_ (by assumption) | refine keptA_error ?_ ?_ (by assumption) | refine kept_ofP ?_ (by assumption))
    | refine keptA_ok ?_ ?_ (by assumption)
    | refine keptA_error ?_ ?_ (by assumption)
    | refine kept_ofP ?_ (by assumption)
    | split
    | refine keptA_fun ?_
    | with_reducible apply KeptA.ends

theorem kept_objOpWrite {fz o} {s a1 a2 a3} (h : Kept fz o s) :
    Kept fz o (objOpWrite s a1 a2 a3) := by
  unfold objOpWrite
  try dsimp only
  repeat' first
    | with_reducible assumption
    | intro _
    | dsimp only
    | with_reducible first | apply kept_objCreate | apply kept_objFreeOp | apply kept_each | apply kept_foldl | apply kept_foldl1 | apply kept_ite | apply kept_ite1
    | with_reducible (refine Kept.upd rfl ?_; first | assumption)

theorem keptR_execObjCreate {fz o} {a0 a1 s} (h : Kept fz o s) :
    KeptR fz o (execObjCreate a0 a1 s) := by
  unfold execObjCreate
  try dsimp only
  repeat' first
    | with_reducible assumption
    | intro _
    | dsimp only
    | with_reducible first | apply kept_objOpWrite | apply kept_each | apply kept_foldl | apply kept_foldl1 | apply keptR_next | apply keptR_fault | apply keptR_ite | apply kept_ite

theorem keptR_execObjFree {fz o} {a0 a1 s} (h : Kept fz o s) :
    KeptR fz o (execObjFree a0 a1 s) := by
  unfold execObjFree
  try dsimp only
  repeat' first
    | with_reducible assumption
    | intro _
    | dsimp only
    | with_reducible first | apply kept_objOpWrite | apply kept_each | apply kept_foldl | apply kept_foldl1 | apply keptR_next | apply keptR_fault | apply keptR_ite | apply kept_ite

theorem keptR_execTableOpen {fz o} {a0 a1 s} (h : Kept fz o s) :
    KeptR fz o (execTableOpen a0 a1 s) := by
  unfold execTableOpen
  try dsimp only
  repeat' first
    | with_reducible assumption
    | intro _
    | dsimp only
    | with_reducible first | apply kept_runCmd | apply keptA_openAct | apply kept_each | apply kept_foldl | apply kept_foldl1 | apply keptA_pure | apply keptA_bind_get | apply keptA_bind | apply keptA_modify | apply keptA_throw | apply keptA_get | apply keptA_set | apply keptA_ite | apply keptA_act | apply kept_endOk | apply kept_endError | apply kept_endIte | apply keptR_next | apply keptR_fault | apply keptR_ite | apply kept_ite | apply kept_ite1
    | with_reducible (refine Kept.upd rfl ?_; first | assumption | apply kept_runCmd | apply keptA_openAct | apply kept_each | apply kept_foldl | apply kept_foldl1 | apply kept_ite | apply kept_ite1 | refine keptA_ok ?_ ?_ (by assumption) | refine keptA_error ?_ ?_ (by assumption))
    | refine keptA_ok ?_ ?_ (by assumption)
    | refine keptA_error ?_ ?_ (by assumption)
    | split

theorem keptA_abortAct {fz o} {a0 a1 a2}  :
    KeptA fz o (abortAct a0 a1 a2) := by
  unfold abortAct
  try dsimp only
  repeat' first
    | with_reducible assumption
    | intro _
    | dsimp only
    | with_reducible first | apply keptA_objGet | apply keptA_vlineGet | apply keptA_abortDone | apply keptA_abortGo | apply keptA_need | apply keptA_vlinePut | apply kept_failObjAps | apply kept_wwPump | apply kept_each | apply kept_foldl | apply kept_foldl1 | apply keptA_pure | apply keptA_bind_get | apply keptA_bind | apply keptA_modify | apply keptA_throw | apply keptA_get | apply keptA_set | apply keptA_ite | apply keptA_act | apply kept_endOk | apply kept_endError | apply kept_endIte | apply kept_ite | apply kept_ite1
    | with_reducible (refine Kept.upd rfl ?_; first | assumption | apply keptA_objGet | apply keptA_vlineGet | apply keptA_abortDone | apply keptA_abortGo | apply keptA_need | apply keptA_vlinePut | apply kept_failObjAps | apply kept_wwPump | apply kept_each | apply kept_foldl | apply kept_foldl1 | apply kept_ite | apply kept_ite1 | refine keptA_ok ?_ ?_ (by assumption) | refine keptA_error ?_ ?_ (by assumption))
    | refine keptA_ok ?_ ?_ (by assumption)
    | refine keptA_error ?_ ?_ (by assumption)
    | split
    | refine keptA_fun ?_
    | with_reducible apply KeptA.ends

theorem keptR_execObjectDrainEnd {fz o} {a0 a1 s} (h : Kept fz o s) :
    KeptR fz o (execObjectDrainEnd a0 a1 s) := by
  unfold execObjectDrainEnd
  try dsimp only
  repeat' first
    | with_reducible assumption
    | intro _
    | dsimp only
    | with_reducible first | apply kept_pumpPasses | apply keptA_objGet | apply keptA_becomeFree | apply kept_runAct | apply kept_each | apply kept_foldl | apply kept_foldl1 | apply keptA_pure | apply keptA_bind_get | apply keptA_bind | apply keptA_modify | apply keptA_throw | apply keptA_get | apply keptA_set | apply keptA_ite | apply keptA_act | apply kept_endOk | apply kept_endError | apply kept_endIte | apply keptR_next | apply keptR_fault | apply keptR_ite

theorem keptR_execTableAbort {fz o} {a0 a1 s} (h : Kept fz o s) :
    KeptR fz o (execTableAbort a0 a1 s) := by
  unfold execTableAbort
  try dsimp only
  repeat' first
    | with_reducible assumption
    | intro _
    | dsimp only
    | with_reducible first | apply kept_runCmd | apply keptA_abortAct | apply kept_each | apply kept_foldl | apply kept_foldl1 | apply keptA_pure | apply keptA_bind_get | apply keptA_bind | apply keptA_modify | apply keptA_throw | apply keptA_get | apply keptA_set | apply keptA_ite | apply keptA_act | apply kept_endOk | apply kept_endError | apply kept_endIte | apply keptR_next | apply keptR_fault | apply keptR_ite | apply kept_ite | apply kept_ite1
    | with_reducible (refine Kept.upd rfl ?_; first | assumption | apply kept_runCmd | apply keptA_abortAct | apply kept_each | apply kept_foldl | apply kept_foldl1 | apply kept_ite | apply kept_ite1 | refine keptA_ok ?_ ?_ (by assumption) | refine keptA_error ?_ ?_ (by assumption))
    | refine keptA_ok ?_ ?_ (by assumption)
    | refine keptA_error ?_ ?_ (by assumption)
    | split

end Sys2Proof.Machine
end

