-- ==== Sys2Proof/Laws/KeptFlits.lean ====
section
/-! SUPPORT. What the definitions of Machine/Flits.lean keep (`Kept`). -/

namespace Sys2Proof.Machine

/-- A request that was sent keeps what `o` says. -/
structure KeptS (fz : Bool) (o : State) (r : Sent) : Prop where
  ok : ∀ t i, r = .ok t i → Kept fz o t

theorem keptS_ok {fz : Bool} {o s : State} {i : Nat} (h : Kept fz o s) : KeptS fz o (.ok s i) :=
  ⟨fun _ _ e => by cases e; exact h⟩

theorem keptS_full {fz : Bool} {o : State} : KeptS fz o .full := ⟨fun _ _ e => by cases e⟩

theorem keptS_fail {fz : Bool} {o : State} : KeptS fz o .fail := ⟨fun _ _ e => by cases e⟩

theorem keptS_ite {fz : Bool} {o : State} {a b : Sent} {c : Prop} [Decidable c] (ha : c → KeptS fz o a)
    (hb : ¬c → KeptS fz o b) : KeptS fz o (if c then a else b) := by
  split
  · exact ha ‹_›
  · exact hb ‹_›

theorem kept_ofS {fz : Bool} {o t : State} {i : Nat} {r : Sent} (h : KeptS fz o r) (e : r = .ok t i) : Kept fz o t := h.ok t i e

theorem kept_stepNonce {fz o} {s a1 a2 a3} (h : Kept fz o s) :
    Kept fz o (stepNonce s a1 a2 a3) := by
  unfold stepNonce
  try dsimp only
  repeat' first
    | with_reducible assumption
    | intro _
    | dsimp only
    | with_reducible first | apply kept_note | apply kept_each | apply kept_foldl | apply kept_foldl1 | apply kept_ite | apply kept_ite1
    | with_reducible (refine Kept.upd rfl ?_; first | assumption)

theorem kept_bumpNackTx {fz o} {s} (h : Kept fz o s) :
    Kept fz o (bumpNackTx s) := by
  unfold bumpNackTx
  try dsimp only
  repeat' first
    | with_reducible assumption
    | intro _
    | dsimp only
    | with_reducible first | apply kept_each | apply kept_foldl | apply kept_foldl1 | apply kept_ite | apply kept_ite1
    | with_reducible (refine Kept.upd rfl ?_; first | assumption | apply kept_each | apply kept_foldl | apply kept_foldl1 | apply kept_ite | apply kept_ite1)
    | split

theorem kept_dropReq {fz o} {s a1} (h : Kept fz o s) :
    Kept fz o (dropReq s a1) := by
  unfold dropReq
  try dsimp only
  repeat' first
    | with_reducible assumption
    | intro _
    | dsimp only
    | with_reducible first | apply kept_each | apply kept_foldl | apply kept_foldl1 | apply kept_ite | apply kept_ite1
    | with_reducible (refine Kept.upd rfl ?_; first | assumption)

theorem kept_bumpCnt {fz o} {s a1 a2 a3} (h : Kept fz o s) :
    Kept fz o (bumpCnt s a1 a2 a3) := by
  unfold bumpCnt
  try dsimp only
  repeat' first
    | with_reducible assumption
    | intro _
    | dsimp only
    | with_reducible first | apply kept_updBl

theorem kept_sendCtrl {fz o} {s a1 a2 a3} (h : Kept fz o s) :
    Kept fz o (sendCtrl s a1 a2 a3) := by
  unfold sendCtrl
  try dsimp only
  repeat' first
    | with_reducible assumption
    | intro _
    | dsimp only
    | with_reducible first | apply kept_emit | apply kept_bumpCnt | apply kept_each | apply kept_foldl | apply kept_foldl1 | apply kept_ite

theorem kept_sendTs {fz o} {s a1} (h : Kept fz o s) :
    Kept fz o (sendTs s a1) := by
  unfold sendTs
  try dsimp only
  repeat' first
    | with_reducible assumption
    | intro _
    | dsimp only
    | with_reducible first | apply kept_sendCtrl | apply kept_each | apply kept_foldl | apply kept_foldl1 | apply kept_ite | apply kept_ite1
    | with_reducible (refine Kept.upd rfl ?_; first | assumption | apply kept_sendCtrl | apply kept_each | apply kept_foldl | apply kept_foldl1 | apply kept_ite | apply kept_ite1)
    | split

theorem kept_enterRecovery {fz o} {s a1} (h : Kept fz o s) :
    Kept fz o (enterRecovery s a1) := by
  unfold enterRecovery
  try dsimp only
  repeat' first
    | with_reducible assumption
    | intro _
    | dsimp only
    | with_reducible first | apply kept_emit | apply kept_sendTs | apply kept_bumpCnt | apply kept_updBl | apply kept_each | apply kept_foldl | apply kept_foldl1 | apply kept_ite | apply kept_ite1
    | with_reducible (refine Kept.upd rfl ?_; first | assumption | apply kept_emit | apply kept_sendTs | apply kept_bumpCnt | apply kept_updBl | apply kept_each | apply kept_foldl | apply kept_foldl1 | apply kept_ite | apply kept_ite1)
    | split

theorem kept_creditBack {fz o} {s a1 a2} (h : Kept fz o s) :
    Kept fz o (creditBack s a1 a2) := by
  unfold creditBack
  try dsimp only
  repeat' first
    | with_reducible assumption
    | intro _
    | dsimp only
    | with_reducible first | apply kept_sendCtrl | apply kept_enterRecovery | apply kept_each | apply kept_foldl | apply kept_foldl1 | apply kept_ite | apply kept_ite1
    | with_reducible (refine Kept.upd rfl ?_; first | assumption | apply kept_sendCtrl | apply kept_enterRecovery | apply kept_each | apply kept_foldl | apply kept_foldl1 | apply kept_ite | apply kept_ite1)
    | split

theorem kept_transmit {fz o} {s a1 a2} (h : Kept fz o s) :
    Kept fz o (transmit s a1 a2) := by
  unfold transmit
  try dsimp only
  repeat' first
    | with_reducible assumption
    | intro _
    | dsimp only
    | with_reducible first | apply kept_emit | apply kept_updBl | apply kept_bumpCnt | apply kept_creditBack | apply kept_each | apply kept_foldl | apply kept_foldl1 | apply kept_ite | apply kept_ite1
    | with_reducible (refine Kept.upd rfl ?_; first | assumption | apply kept_emit | apply kept_updBl | apply kept_bumpCnt | apply kept_creditBack | apply kept_each | apply kept_foldl | apply kept_foldl1 | apply kept_ite | apply kept_ite1)
    | split

theorem kept_pumpTx {fz o} {a0 a1 s} (h : Kept fz o s) :
    Kept fz o (pumpTx a0 a1 s) := by
  induction a1 generalizing s with
  | zero =>
    unfold pumpTx
    try dsimp only
    repeat' first
      | with_reducible assumption
      | intro _
      | dsimp only
      | with_reducible first | apply kept_enterRecovery | apply kept_transmit | apply kept_updBl | apply kept_each | apply kept_foldl | apply kept_foldl1 | apply kept_ite | apply kept_ite1
      | with_reducible (refine Kept.upd rfl ?_; first | assumption | apply kept_enterRecovery | apply kept_transmit | apply kept_updBl | apply kept_each | apply kept_foldl | apply kept_foldl1 | apply kept_ite | apply kept_ite1)
      | split
  | succ n ih =>
    unfold pumpTx
    try dsimp only
    repeat' first
      | with_reducible assumption
      | intro _
      | dsimp only
      | with_reducible first | apply kept_enterRecovery | apply kept_transmit | apply kept_updBl | apply ih | apply kept_each | apply kept_foldl | apply kept_foldl1 | apply kept_ite | apply kept_ite1
      | with_reducible (refine Kept.upd rfl ?_; first | assumption | apply kept_enterRecovery | apply kept_transmit | apply kept_updBl | apply ih | apply kept_each | apply kept_foldl | apply kept_foldl1 | apply kept_ite | apply kept_ite1)
      | split

theorem kept_queueFlit {fz o} {s a1 a2} (h : Kept fz o s) :
    Kept fz o (queueFlit s a1 a2) := by
  unfold queueFlit
  try dsimp only
  repeat' first
    | with_reducible assumption
    | intro _
    | dsimp only
    | with_reducible first | apply kept_pumpTx | apply kept_updBl

theorem kept_sendFlit {fz o} {s a1 a2 a3 a4 a5 a6 a7} (h : Kept fz o s) :
    Kept fz o (sendFlit s a1 a2 a3 a4 a5 a6 a7) := by
  unfold sendFlit
  try dsimp only
  repeat' first
    | with_reducible assumption
    | intro _
    | dsimp only
    | with_reducible first | apply kept_stepNonce | apply kept_queueFlit | apply kept_each | apply kept_foldl | apply kept_foldl1 | apply kept_ite | apply kept_ite1
    | with_reducible (refine Kept.upd rfl ?_; first | assumption | apply kept_stepNonce | apply kept_queueFlit | apply kept_each | apply kept_foldl | apply kept_foldl1 | apply kept_ite | apply kept_ite1)
    | split

theorem kept_sendMsg {fz o} {s a1 a2 a3 a4 a5 a6} (h : Kept fz o s) :
    Kept fz o (sendMsg s a1 a2 a3 a4 a5 a6) := by
  unfold sendMsg
  try dsimp only
  repeat' first
    | with_reducible assumption
    | intro _
    | dsimp only
    | with_reducible first | apply kept_sendFlit | apply kept_each | apply kept_foldl | apply kept_foldl1 | apply kept_ite | apply kept_ite1
    | with_reducible (refine Kept.upd rfl ?_; first | assumption | apply kept_sendFlit | apply kept_each | apply kept_foldl | apply kept_foldl1 | apply kept_ite | apply kept_ite1)
    | split

theorem kept_sendResponse {fz o} {s a1 a2 a3 a4 a5 a6 a7 a8 a9} (h : Kept fz o s) :
    Kept fz o (sendResponse s a1 a2 a3 a4 a5 a6 a7 a8 a9) := by
  unfold sendResponse
  try dsimp only
  repeat' first
    | with_reducible assumption
    | intro _
    | dsimp only
    | with_reducible first | apply kept_sendMsg | apply kept_each | apply kept_foldl | apply kept_foldl1 | apply kept_ite | apply kept_ite1
    | with_reducible (refine Kept.upd rfl ?_; first | assumption | apply kept_sendMsg | apply kept_each | apply kept_foldl | apply kept_foldl1 | apply kept_ite | apply kept_ite1)
    | split

theorem kept_sendNack {fz o} {s a1 a2 a3 a4 a5} (h : Kept fz o s) :
    Kept fz o (sendNack s a1 a2 a3 a4 a5) := by
  unfold sendNack
  try dsimp only
  repeat' first
    | with_reducible assumption
    | intro _
    | dsimp only
    | with_reducible first | apply kept_bumpNackTx | apply kept_sendResponse | apply kept_each | apply kept_foldl | apply kept_foldl1 | apply kept_ite | apply kept_ite1
    | with_reducible (refine Kept.upd rfl ?_; first | assumption | apply kept_bumpNackTx | apply kept_sendResponse | apply kept_each | apply kept_foldl | apply kept_foldl1 | apply kept_ite | apply kept_ite1)
    | split

theorem kept_dropMsg {fz o} {s a1} (h : Kept fz o s) :
    Kept fz o (dropMsg s a1) := by
  unfold dropMsg
  try dsimp only
  repeat' first
    | with_reducible assumption
    | intro _
    | dsimp only
    | with_reducible first | apply kept_each | apply kept_foldl | apply kept_foldl1 | apply kept_ite | apply kept_ite1
    | with_reducible (refine Kept.upd rfl ?_; first | assumption)

theorem keptS_sendRequest {fz o} {s a1 a2 a3 a4 a5 a6 a7 a8 a9} (h : Kept fz o s) :
    KeptS fz o (sendRequest s a1 a2 a3 a4 a5 a6 a7 a8 a9) := by
  unfold sendRequest
  try dsimp only
  repeat' first
    | with_reducible assumption
    | intro _
    | dsimp only
    | with_reducible first | apply kept_sendMsg | apply kept_each | apply kept_foldl | apply kept_foldl1 | apply keptS_ok | apply keptS_full | apply keptS_fail | apply keptS_ite | apply kept_ite | apply kept_ite1
    | with_reducible (refine Kept.upd rfl ?_; first | assumption | apply kept_sendMsg | apply kept_each | apply kept_foldl | apply kept_foldl1 | apply kept_ite | apply kept_ite1)
    | split

end Sys2Proof.Machine
end

