-- ==== Sys2Proof/Laws/KeptPooling.lean ====
section
/-! SUPPORT. What the definitions of Machine/Pooling.lean keep (`Kept`). -/

namespace Sys2Proof.Machine

theorem kept_setEnt {fz o} {s a1 a2 a3} (h : Kept fz o s) :
    Kept fz o (setEnt s a1 a2 a3) := by
  unfold setEnt
  try dsimp only
  repeat' first
    | with_reducible assumption
    | intro _
    | dsimp only
    | with_reducible first | apply kept_setBag | apply kept_each | apply kept_foldl | apply kept_foldl1 | apply kept_ite | apply kept_ite1
    | with_reducible (refine Kept.upd rfl ?_; first | assumption | apply kept_setBag | apply kept_each | apply kept_foldl | apply kept_foldl1 | apply kept_ite | apply kept_ite1)
    | split

theorem kept_dropPoolReqs {fz o} {s a1} (h : Kept fz o s) :
    Kept fz o (dropPoolReqs s a1) := by
  unfold dropPoolReqs
  try dsimp only
  repeat' first
    | with_reducible assumption
    | intro _
    | dsimp only
    | with_reducible first | apply kept_each | apply kept_foldl | apply kept_foldl1 | apply kept_ite | apply kept_ite1
    | with_reducible (refine Kept.upd rfl ?_; first | assumption)

theorem kept_nackServed {fz o} {s a1 a2 a3} (h : Kept fz o s) :
    Kept fz o (nackServed s a1 a2 a3) := by
  unfold nackServed
  try dsimp only
  repeat' first
    | with_reducible assumption
    | intro _
    | dsimp only
    | with_reducible first | apply kept_sendNack | apply kept_each | apply kept_foldl | apply kept_foldl1 | apply kept_ite | apply kept_ite1
    | with_reducible (refine Kept.upd rfl ?_; first | assumption | apply kept_sendNack | apply kept_each | apply kept_foldl | apply kept_foldl1 | apply kept_ite | apply kept_ite1)
    | split

theorem kept_bagFail {fz o} {s a1 a2 a3 a4 a5 a6} (h : Kept fz o s) :
    Kept fz o (bagFail s a1 a2 a3 a4 a5 a6) := by
  unfold bagFail
  try dsimp only
  repeat' first
    | with_reducible assumption
    | intro _
    | dsimp only
    | with_reducible first | apply kept_dropPoolReqs | apply kept_endCmd | apply kept_updCmd | apply kept_nackServed | apply kept_releasePin | apply kept_each | apply kept_foldl | apply kept_foldl1 | apply kept_ite | apply kept_ite1
    | with_reducible (refine Kept.upd rfl ?_; first | assumption | apply kept_dropPoolReqs | apply kept_endCmd | apply kept_updCmd | apply kept_nackServed | apply kept_releasePin | apply kept_each | apply kept_foldl | apply kept_foldl1 | apply kept_ite | apply kept_ite1)
    | split

theorem kept_stopEnt {fz o} {a0 a1 a2 a3 s a5} (h : Kept fz o s) :
    Kept fz o (stopEnt a0 a1 a2 a3 s a5) := by
  unfold stopEnt
  try dsimp only
  repeat' first
    | with_reducible assumption
    | intro _
    | dsimp only
    | with_reducible first | apply kept_setEnt | apply kept_bagFail | apply kept_each | apply kept_foldl | apply kept_foldl1 | apply kept_ite | apply kept_ite1
    | with_reducible (refine Kept.upd rfl ?_; first | assumption | apply kept_setEnt | apply kept_bagFail | apply kept_each | apply kept_foldl | apply kept_foldl1 | apply kept_ite | apply kept_ite1)
    | split

theorem kept_entAct {fz o} {α : Type} {a1 a2 a3 a4 a5 s a7} (h5 : KeptA fz o a5) (h : Kept fz o s) (h7 : ∀ x0 x1, Kept fz o x0 → Kept fz o (a7 x0 x1)) :
    Kept fz o (entAct (α := α) a1 a2 a3 a4 a5 s a7) := by
  unfold entAct
  try dsimp only
  repeat' first
    | with_reducible assumption
    | intro _
    | dsimp only
    | with_reducible first | apply kept_runAct | apply kept_stopEnt

theorem keptA_lookupEnt {fz o} {a0 a1 a2 a3 a4 a5}  :
    KeptA fz o (lookupEnt a0 a1 a2 a3 a4 a5) := by
  unfold lookupEnt
  try dsimp only
  repeat' first
    | with_reducible assumption
    | intro _
    | dsimp only
    | with_reducible first | apply keptA_keyUse | apply keptA_keyFind | apply keptA_postMiss | apply kept_each | apply kept_foldl | apply kept_foldl1 | apply keptA_pure | apply keptA_bind_get | apply keptA_bind | apply keptA_modify | apply keptA_throw | apply keptA_get | apply keptA_set | apply keptA_ite | apply keptA_act | apply kept_endOk | apply kept_endError | apply kept_endIte | apply kept_ite | apply kept_ite1
    | with_reducible (refine Kept.upd rfl ?_; first | assumption | apply keptA_keyUse | apply keptA_keyFind | apply keptA_postMiss | apply kept_each | apply kept_foldl | apply kept_foldl1 | apply kept_ite | apply kept_ite1 | refine keptA_ok ?_ ?_ (by assumption) | refine keptA_error ?_ ?_ (by assumption))
    | refine keptA_ok ?_ ?_ (by assumption)
    | refine keptA_error ?_ ?_ (by assumption)
    | split

theorem kept_servedAnswer {fz o} {s a1 a2 a3} (h : Kept fz o s) :
    Kept fz o (servedAnswer s a1 a2 a3) := by
  unfold servedAnswer
  try dsimp only
  repeat' first
    | with_reducible assumption
    | intro _
    | dsimp only
    | with_reducible first | apply kept_releasePin | apply kept_sendResponse | apply kept_each | apply kept_foldl | apply kept_foldl1 | apply kept_ite | apply kept_ite1
    | with_reducible (refine Kept.upd rfl ?_; first | assumption | apply kept_releasePin | apply kept_sendResponse | apply kept_each | apply kept_foldl | apply kept_foldl1 | apply kept_ite | apply kept_ite1)
    | split

theorem kept_startTile {fz o} {s a1} (h : Kept fz o s) :
    Kept fz o (startTile s a1) := by
  unfold startTile
  try dsimp only
  repeat' first
    | with_reducible assumption
    | intro _
    | dsimp only
    | with_reducible first | apply kept_setBag | apply kept_traceAdd | apply kept_each | apply kept_foldl | apply kept_foldl1 | apply kept_ite | apply kept_ite1
    | with_reducible (refine Kept.upd rfl ?_; first | assumption | apply kept_setBag | apply kept_traceAdd | apply kept_each | apply kept_foldl | apply kept_foldl1 | apply kept_ite | apply kept_ite1)
    | split

theorem kept_settleBag {fz o} {s a1 a2 a3} (h : Kept fz o s) :
    Kept fz o (settleBag s a1 a2 a3) := by
  unfold settleBag
  try dsimp only
  repeat' first
    | with_reducible assumption
    | intro _
    | dsimp only
    | with_reducible first | apply kept_setBag | apply kept_servedAnswer | apply kept_startTile | apply kept_each | apply kept_foldl | apply kept_foldl1 | apply kept_ite | apply kept_ite1
    | with_reducible (refine Kept.upd rfl ?_; first | assumption | apply kept_setBag | apply kept_servedAnswer | apply kept_startTile | apply kept_each | apply kept_foldl | apply kept_foldl1 | apply kept_ite | apply kept_ite1)
    | split

theorem kept_settleSeg {fz o} {s a1 a2 a3 a4} (h : Kept fz o s) :
    Kept fz o (settleSeg s a1 a2 a3 a4) := by
  unfold settleSeg
  try dsimp only
  repeat' first
    | with_reducible assumption
    | intro _
    | dsimp only
    | with_reducible first | apply kept_settleBag | apply kept_setBag | apply kept_each | apply kept_foldl | apply kept_foldl1 | apply kept_ite | apply kept_ite1
    | with_reducible (refine Kept.upd rfl ?_; first | assumption | apply kept_settleBag | apply kept_setBag | apply kept_each | apply kept_foldl | apply kept_foldl1 | apply kept_ite | apply kept_ite1)
    | split

theorem kept_contribute {fz o} {s a1 a2 a3 a4} (h : Kept fz o s) :
    Kept fz o (contribute s a1 a2 a3 a4) := by
  unfold contribute
  try dsimp only
  repeat' first
    | with_reducible assumption
    | intro _
    | dsimp only
    | with_reducible first | apply kept_settleSeg | apply kept_setBag | apply kept_each | apply kept_foldl | apply kept_foldl1 | apply kept_ite | apply kept_ite1
    | with_reducible (refine Kept.upd rfl ?_; first | assumption | apply kept_settleSeg | apply kept_setBag | apply kept_each | apply kept_foldl | apply kept_foldl1 | apply kept_ite | apply kept_ite1)
    | split

theorem kept_rowWhole {fz o} {s a1 a2 a3 a4 a5 a6} (h : Kept fz o s) :
    Kept fz o (rowWhole s a1 a2 a3 a4 a5 a6) := by
  unfold rowWhole
  try dsimp only
  repeat' first
    | with_reducible assumption
    | intro _
    | dsimp only
    | with_reducible first | apply kept_bagFail | apply kept_contribute | apply kept_each | apply kept_foldl | apply kept_foldl1 | apply kept_ite | apply kept_ite1
    | with_reducible (refine Kept.upd rfl ?_; first | assumption | apply kept_bagFail | apply kept_contribute | apply kept_each | apply kept_foldl | apply kept_foldl1 | apply kept_ite | apply kept_ite1)
    | split

theorem kept_rowDone {fz o} {s a1 a2 a3} (h : Kept fz o s) :
    Kept fz o (rowDone s a1 a2 a3) := by
  unfold rowDone
  try dsimp only
  repeat' first
    | with_reducible assumption
    | intro _
    | dsimp only
    | with_reducible first | apply kept_rowWhole | apply kept_each | apply kept_foldl | apply kept_foldl1 | apply kept_ite | apply kept_ite1
    | with_reducible (refine Kept.upd rfl ?_; first | assumption | apply kept_rowWhole | apply kept_each | apply kept_foldl | apply kept_foldl1 | apply kept_ite | apply kept_ite1)
    | split

theorem keptA_pinVersion {fz o} {a0 a1 a2}  :
    KeptA fz o (pinVersion a0 a1 a2) := by
  unfold pinVersion
  try dsimp only
  repeat' first
    | with_reducible assumption
    | intro _
    | dsimp only
    | with_reducible first | apply keptA_objGet | apply keptA_vlineGet | apply keptA_vlinePut | apply kept_updCmd | apply kept_each | apply kept_foldl | apply kept_foldl1 | apply keptA_pure | apply keptA_bind_get | apply keptA_bind | apply keptA_modify | apply keptA_throw | apply keptA_get | apply keptA_set | apply keptA_ite

theorem keptS_sendPool {fz o} {s a1 a2 a3} (h : Kept fz o s) :
    KeptS fz o (sendPool s a1 a2 a3) := by
  unfold sendPool
  try dsimp only
  repeat' first
    | with_reducible assumption
    | intro _
    | dsimp only
    | with_reducible first | apply keptS_sendRequest | apply kept_each | apply kept_foldl | apply kept_foldl1 | apply keptS_ok | apply keptS_full | apply keptS_fail | apply keptS_ite | apply kept_ite | apply kept_ite1
    | with_reducible (refine Kept.upd rfl ?_; first | assumption | apply keptS_sendRequest | apply kept_each | apply kept_foldl | apply kept_foldl1 | apply kept_ite | apply kept_ite1 | refine kept_ofS ?_ (by assumption))
    | refine kept_ofS ?_ (by assumption)
    | split

theorem kept_pumpMsgs {fz o} {a0 a1 a2 s} (h : Kept fz o s) :
    Kept fz o (pumpMsgs a0 a1 a2 s) := by
  induction a2 generalizing s with
  | zero =>
    unfold pumpMsgs
    try dsimp only
    repeat' first
      | with_reducible assumption
      | intro _
      | dsimp only
      | with_reducible first | apply keptS_sendPool | apply kept_bagFail | apply kept_setBag | apply kept_each | apply kept_foldl | apply kept_foldl1 | apply kept_ite | apply kept_ite1
      | with_reducible (refine Kept.upd rfl ?_; first | assumption | apply keptS_sendPool | apply kept_bagFail | apply kept_setBag | apply kept_each | apply kept_foldl | apply kept_foldl1 | apply kept_ite | apply kept_ite1 | refine kept_ofS ?_ (by assumption))
      | refine kept_ofS ?_ (by assumption)
      | split
  | succ n ih =>
    unfold pumpMsgs
    try dsimp only
    repeat' first
      | with_reducible assumption
      | intro _
      | dsimp only
      | with_reducible first | apply keptS_sendPool | apply kept_bagFail | apply kept_setBag | apply ih | apply kept_each | apply kept_foldl | apply kept_foldl1 | apply kept_ite | apply kept_ite1
      | with_reducible (refine Kept.upd rfl ?_; first | assumption | apply keptS_sendPool | apply kept_bagFail | apply kept_setBag | apply ih | apply kept_each | apply kept_foldl | apply kept_foldl1 | apply kept_ite | apply kept_ite1 | refine kept_ofS ?_ (by assumption))
      | refine kept_ofS ?_ (by assumption)
      | split

theorem kept_sendPools {fz o} {s a1 a2} (h : Kept fz o s) :
    Kept fz o (sendPools s a1 a2) := by
  unfold sendPools
  try dsimp only
  repeat' first
    | with_reducible assumption
    | intro _
    | dsimp only
    | with_reducible first | apply kept_pumpMsgs | apply kept_each | apply kept_foldl | apply kept_foldl1 | apply kept_ite | apply kept_ite1
    | with_reducible (refine Kept.upd rfl ?_; first | assumption | apply kept_pumpMsgs | apply kept_each | apply kept_foldl | apply kept_foldl1 | apply kept_ite | apply kept_ite1)
    | split

theorem kept_issueMore {fz o} {s a1 a2} (h : Kept fz o s) :
    Kept fz o (issueMore s a1 a2) := by
  unfold issueMore
  try dsimp only
  repeat' first
    | with_reducible assumption
    | intro _
    | dsimp only
    | with_reducible first | apply kept_issueReq | apply kept_setEnt | apply kept_each | apply kept_foldl | apply kept_foldl1 | apply kept_ite | apply kept_ite1
    | with_reducible (refine Kept.upd rfl ?_; first | assumption | apply kept_issueReq | apply kept_setEnt | apply kept_each | apply kept_foldl | apply kept_foldl1 | apply kept_ite | apply kept_ite1)
    | split

theorem kept_issueRow {fz o} {s a1 a2 a3 a4 a5 a6 a7} (h : Kept fz o s) :
    Kept fz o (issueRow s a1 a2 a3 a4 a5 a6 a7) := by
  unfold issueRow
  try dsimp only
  repeat' first
    | with_reducible assumption
    | intro _
    | dsimp only
    | with_reducible first | apply kept_report | apply kept_bagFail | apply kept_issueMore | apply kept_setEnt | apply kept_each | apply kept_foldl | apply kept_foldl1 | apply kept_ite | apply kept_ite1
    | with_reducible (refine Kept.upd rfl ?_; first | assumption | apply kept_report | apply kept_bagFail | apply kept_issueMore | apply kept_setEnt | apply kept_each | apply kept_foldl | apply kept_foldl1 | apply kept_ite | apply kept_ite1)
    | split

theorem keptA_rowPages {fz o} {a0 a1 a2 a3 a4 a5}  :
    KeptA fz o (rowPages a0 a1 a2 a3 a4 a5) := by
  unfold rowPages
  try dsimp only
  repeat' first
    | with_reducible assumption
    | intro _
    | dsimp only
    | with_reducible first | apply keptA_mapAll | apply keptA_trAct | apply kept_each | apply kept_foldl | apply kept_foldl1 | apply keptA_pure | apply keptA_bind_get | apply keptA_bind | apply keptA_modify | apply keptA_throw | apply keptA_get | apply keptA_set | apply keptA_ite

theorem kept_startRow {fz o} {s a1 a2 a3} (h : Kept fz o s) :
    Kept fz o (startRow s a1 a2 a3) := by
  unfold startRow
  try dsimp only
  repeat' first
    | with_reducible assumption
    | intro _
    | dsimp only
    | with_reducible first | apply kept_issueRow | apply kept_bagFail | apply kept_entAct | apply keptA_rowPages | apply kept_each | apply kept_foldl | apply kept_foldl1 | apply keptA_pure | apply keptA_bind_get | apply keptA_bind | apply keptA_modify | apply keptA_throw | apply keptA_get | apply keptA_set | apply keptA_ite | apply keptA_act | apply kept_endOk | apply kept_endError | apply kept_endIte | apply kept_ite | apply kept_ite1
    | with_reducible (refine Kept.upd rfl ?_; first | assumption | apply kept_issueRow | apply kept_bagFail | apply kept_entAct | apply keptA_rowPages | apply kept_each | apply kept_foldl | apply kept_foldl1 | apply kept_ite | apply kept_ite1 | refine keptA_ok ?_ ?_ (by assumption) | refine keptA_error ?_ ?_ (by assumption))
    | refine keptA_ok ?_ ?_ (by assumption)
    | refine keptA_error ?_ ?_ (by assumption)
    | split

theorem kept_missEnt {fz o} {s a1 a2 a3 a4 a5} (h : Kept fz o s) :
    Kept fz o (missEnt s a1 a2 a3 a4 a5) := by
  unfold missEnt
  try dsimp only
  repeat' first
    | with_reducible assumption
    | intro _
    | dsimp only
    | with_reducible first | apply kept_setEnt | apply kept_contribute | apply kept_each | apply kept_foldl | apply kept_foldl1 | apply kept_ite | apply kept_ite1
    | with_reducible (refine Kept.upd rfl ?_; first | assumption | apply kept_setEnt | apply kept_contribute | apply kept_each | apply kept_foldl | apply kept_foldl1 | apply kept_ite | apply kept_ite1)
    | split

theorem kept_keyLookup {fz o} {s a1 a2 a3} (h : Kept fz o s) :
    Kept fz o (keyLookup s a1 a2 a3) := by
  unfold keyLookup
  try dsimp only
  repeat' first
    | with_reducible assumption
    | intro _
    | dsimp only
    | with_reducible first | apply kept_entAct | apply keptA_lookupEnt | apply kept_startRow | apply kept_setEnt | apply kept_bagFail | apply kept_missEnt | apply kept_each | apply kept_foldl | apply kept_foldl1 | apply keptA_pure | apply keptA_bind_get | apply keptA_bind | apply keptA_modify | apply keptA_throw | apply keptA_get | apply keptA_set | apply keptA_ite | apply keptA_act | apply kept_endOk | apply kept_endError | apply kept_endIte | apply kept_ite | apply kept_ite1
    | with_reducible (refine Kept.upd rfl ?_; first | assumption | apply kept_entAct | apply keptA_lookupEnt | apply kept_startRow | apply kept_setEnt | apply kept_bagFail | apply kept_missEnt | apply kept_each | apply kept_foldl | apply kept_foldl1 | apply kept_ite | apply kept_ite1 | refine keptA_ok ?_ ?_ (by assumption) | refine keptA_error ?_ ?_ (by assumption))
    | refine keptA_ok ?_ ?_ (by assumption)
    | refine keptA_error ?_ ?_ (by assumption)
    | split

theorem keptR_execKeyLookup {fz o} {a0 a1 a2 s} (h : Kept fz o s) :
    KeptR fz o (execKeyLookup a0 a1 a2 s) := by
  unfold execKeyLookup
  try dsimp only
  repeat' first
    | with_reducible assumption
    | intro _
    | dsimp only
    | with_reducible first | apply kept_sendPools | apply kept_keyLookup | apply kept_each | apply kept_foldl | apply kept_foldl1 | apply keptR_next | apply keptR_fault | apply keptR_ite | apply kept_ite

theorem keptA_placeRow {fz o} {a0 a1 a2 a3 a4 a5}  :
    KeptA fz o (placeRow a0 a1 a2 a3 a4 a5) := by
  unfold placeRow
  try dsimp only
  repeat' first
    | with_reducible assumption
    | intro _
    | dsimp only
    | with_reducible first | apply keptA_trAct | apply kept_each | apply kept_foldl | apply kept_foldl1 | apply keptA_pure | apply keptA_bind_get | apply keptA_bind | apply keptA_modify | apply keptA_throw | apply keptA_get | apply keptA_set | apply keptA_ite | apply keptA_act | apply kept_endOk | apply kept_endError | apply kept_endIte | apply kept_ite | apply kept_ite1
    | with_reducible (refine Kept.upd rfl ?_; first | assumption | apply keptA_trAct | apply kept_each | apply kept_foldl | apply kept_foldl1 | apply kept_ite | apply kept_ite1 | refine keptA_ok ?_ ?_ (by assumption) | refine keptA_error ?_ ?_ (by assumption))
    | refine keptA_ok ?_ ?_ (by assumption)
    | refine keptA_error ?_ ?_ (by assumption)
    | split
    | refine keptA_fun ?_
    | with_reducible apply KeptA.ends

theorem keptA_placeEnt {fz o} {a0 a1 a2 a3 a4 a5}  :
    KeptA fz o (placeEnt a0 a1 a2 a3 a4 a5) := by
  unfold placeEnt
  try dsimp only
  repeat' first
    | with_reducible assumption
    | intro _
    | dsimp only
    | with_reducible first | apply keptA_placeRow | apply kept_each | apply kept_foldl | apply kept_foldl1 | apply keptA_pure | apply keptA_bind_get | apply keptA_bind | apply keptA_modify | apply keptA_throw | apply keptA_get | apply keptA_set | apply keptA_ite | apply keptA_act | apply kept_endOk | apply kept_endError | apply kept_endIte | apply kept_ite | apply kept_ite1
    | with_reducible (refine Kept.upd rfl ?_; first | assumption | apply keptA_placeRow | apply kept_each | apply kept_foldl | apply kept_foldl1 | apply kept_ite | apply kept_ite1 | refine keptA_ok ?_ ?_ (by assumption) | refine keptA_error ?_ ?_ (by assumption))
    | refine keptA_ok ?_ ?_ (by assumption)
    | refine keptA_error ?_ ?_ (by assumption)
    | split
    | refine keptA_fun ?_
    | with_reducible apply KeptA.ends

theorem kept_abortEnt {fz o} {s a1 a2 a3 a4 a5} (h : Kept fz o s) :
    Kept fz o (abortEnt s a1 a2 a3 a4 a5) := by
  unfold abortEnt
  try dsimp only
  repeat' first
    | with_reducible assumption
    | intro _
    | dsimp only
    | with_reducible first | apply kept_bagFail | apply kept_each | apply kept_foldl | apply kept_foldl1 | apply kept_ite | apply kept_ite1
    | with_reducible (refine Kept.upd rfl ?_; first | assumption | apply kept_bagFail | apply kept_each | apply kept_foldl | apply kept_foldl1 | apply kept_ite | apply kept_ite1)
    | split

theorem keptA_splitEnts {fz o} {a0 a1 a2 a3 a4 a5 a6}  :
    KeptA fz o (splitEnts a0 a1 a2 a3 a4 a5 a6) := by
  unfold splitEnts
  try dsimp only
  repeat' first
    | with_reducible assumption
    | intro _
    | dsimp only
    | with_reducible first | apply keptA_mapAll | apply kept_updCmd | apply keptA_failWith | apply keptA_placeEnt | apply kept_each | apply kept_foldl | apply kept_foldl1 | apply keptA_pure | apply keptA_bind_get | apply keptA_bind | apply keptA_modify | apply keptA_throw | apply keptA_get | apply keptA_set | apply keptA_ite | apply keptA_act | apply kept_endOk | apply kept_endError | apply kept_endIte | apply kept_ite | apply kept_ite1
    | with_reducible (refine Kept.upd rfl ?_; first | assumption | apply keptA_mapAll | apply kept_updCmd | apply keptA_failWith | apply keptA_placeEnt | apply kept_each | apply kept_foldl | apply kept_foldl1 | apply kept_ite | apply kept_ite1 | refine keptA_ok ?_ ?_ (by assumption) | refine keptA_error ?_ ?_ (by assumption))
    | refine keptA_ok ?_ ?_ (by assumption)
    | refine keptA_error ?_ ?_ (by assumption)
    | split
    | refine keptA_fun ?_
    | with_reducible apply KeptA.ends

theorem kept_quadRetireWrite {fz o} {s a1} (h : Kept fz o s) :
    Kept fz o (quadRetireWrite s a1) := by
  unfold quadRetireWrite
  try dsimp only
  repeat' first
    | with_reducible assumption
    | intro _
    | dsimp only
    | with_reducible first | apply kept_each | apply kept_foldl | apply kept_foldl1 | apply kept_ite | apply kept_ite1
    | with_reducible (refine Kept.upd rfl ?_; first | assumption)

theorem kept_startSeg {fz o} {s a1 a2 a3 a4} (h : Kept fz o s) :
    Kept fz o (startSeg s a1 a2 a3 a4) := by
  unfold startSeg
  try dsimp only
  repeat' first
    | with_reducible assumption
    | intro _
    | dsimp only
    | with_reducible first | apply kept_startRow | apply kept_issueMore | apply kept_contribute | apply kept_each | apply kept_foldl | apply kept_foldl1 | apply kept_ite | apply kept_ite1
    | with_reducible (refine Kept.upd rfl ?_; first | assumption | apply kept_startRow | apply kept_issueMore | apply kept_contribute | apply kept_each | apply kept_foldl | apply kept_foldl1 | apply kept_ite | apply kept_ite1)
    | split

theorem kept_segmentAccept {fz o} {s a1 a2 a3 a4} (h : Kept fz o s) :
    Kept fz o (segmentAccept s a1 a2 a3 a4) := by
  unfold segmentAccept
  try dsimp only
  repeat' first
    | with_reducible assumption
    | intro _
    | dsimp only
    | with_reducible first | apply kept_startSeg | apply kept_settleSeg | apply kept_setBag | apply kept_each | apply kept_foldl | apply kept_foldl1 | apply kept_ite | apply kept_ite1
    | with_reducible (refine Kept.upd rfl ?_; first | assumption | apply kept_startSeg | apply kept_settleSeg | apply kept_setBag | apply kept_each | apply kept_foldl | apply kept_foldl1 | apply kept_ite | apply kept_ite1)
    | split

theorem keptR_execSegmentAccept {fz o} {a0 a1 a2 a3 s} (h : Kept fz o s) :
    KeptR fz o (execSegmentAccept a0 a1 a2 a3 s) := by
  unfold execSegmentAccept
  try dsimp only
  repeat' first
    | with_reducible assumption
    | intro _
    | dsimp only
    | with_reducible first | apply kept_sendPools | apply kept_segmentAccept | apply kept_each | apply kept_foldl | apply kept_foldl1 | apply keptR_next | apply keptR_fault | apply keptR_ite | apply kept_ite

theorem kept_latePlace {fz o} {s a1 a2 a3 a4 a5 a6} (h : Kept fz o s) :
    Kept fz o (latePlace s a1 a2 a3 a4 a5 a6) := by
  unfold latePlace
  try dsimp only
  repeat' first
    | with_reducible assumption
    | intro _
    | dsimp only
    | with_reducible first | apply kept_entAct | apply keptA_placeRow | apply kept_startRow | apply kept_setBag | apply kept_settleSeg | apply kept_settleBag | apply kept_each | apply kept_foldl | apply kept_foldl1 | apply keptA_pure | apply keptA_bind_get | apply keptA_bind | apply keptA_modify | apply keptA_throw | apply keptA_get | apply keptA_set | apply keptA_ite | apply keptA_act | apply kept_endOk | apply kept_endError | apply kept_endIte | apply kept_ite | apply kept_ite1
    | with_reducible (refine Kept.upd rfl ?_; first | assumption | apply kept_entAct | apply keptA_placeRow | apply kept_startRow | apply kept_setBag | apply kept_settleSeg | apply kept_settleBag | apply kept_each | apply kept_foldl | apply kept_foldl1 | apply kept_ite | apply kept_ite1 | refine keptA_ok ?_ ?_ (by assumption) | refine keptA_error ?_ ?_ (by assumption))
    | refine keptA_ok ?_ ?_ (by assumption)
    | refine keptA_error ?_ ?_ (by assumption)
    | split
    | refine keptA_fun ?_
    | with_reducible apply KeptA.ends

theorem kept_resumeEnt {fz o} {s a1 a2 a3 a4} (h : Kept fz o s) :
    Kept fz o (resumeEnt s a1 a2 a3 a4) := by
  unfold resumeEnt
  try dsimp only
  repeat' first
    | with_reducible assumption
    | intro _
    | dsimp only
    | with_reducible first | apply kept_latePlace | apply kept_startRow | apply kept_setEnt | apply kept_keyLookup | apply kept_each | apply kept_foldl | apply kept_foldl1 | apply kept_ite | apply kept_ite1
    | with_reducible (refine Kept.upd rfl ?_; first | assumption | apply kept_latePlace | apply kept_startRow | apply kept_setEnt | apply kept_keyLookup | apply kept_each | apply kept_foldl | apply kept_foldl1 | apply kept_ite | apply kept_ite1)
    | split

theorem kept_pumpRows {fz o} {s} (h : Kept fz o s) :
    Kept fz o (pumpRows s) := by
  unfold pumpRows
  try dsimp only
  repeat' first
    | with_reducible assumption
    | intro _
    | dsimp only
    | with_reducible first | apply kept_issueMore | apply kept_each | apply kept_foldl | apply kept_foldl1 | apply kept_ite | apply kept_ite1
    | with_reducible (refine Kept.upd rfl ?_; first | assumption | apply kept_issueMore | apply kept_each | apply kept_foldl | apply kept_foldl1 | apply kept_ite | apply kept_ite1)
    | split

theorem kept_rowAnswer {fz o} {s a1 a2 a3 a4 a5 a6 a7} (h : Kept fz o s) :
    Kept fz o (rowAnswer s a1 a2 a3 a4 a5 a6 a7) := by
  unfold rowAnswer
  try dsimp only
  repeat' first
    | with_reducible assumption
    | intro _
    | dsimp only
    | with_reducible first | apply kept_quarantineTag | apply kept_updGw | apply kept_report | apply kept_setEnt | apply kept_pumpRows | apply kept_rowDone | apply kept_each | apply kept_foldl | apply kept_foldl1 | apply kept_ite | apply kept_ite1
    | with_reducible (refine Kept.upd rfl ?_; first | assumption | apply kept_quarantineTag | apply kept_updGw | apply kept_report | apply kept_setEnt | apply kept_pumpRows | apply kept_rowDone | apply kept_each | apply kept_foldl | apply kept_foldl1 | apply kept_ite | apply kept_ite1)
    | split

theorem keptA_bagSignal {fz o} {a0 a1 a2}  :
    KeptA fz o (bagSignal a0 a1 a2) := by
  unfold bagSignal
  try dsimp only
  repeat' first
    | with_reducible assumption
    | intro _
    | dsimp only
    | with_reducible first | apply keptA_okCmd | apply keptA_objGet | apply keptA_signalEvent | apply kept_each | apply kept_foldl | apply kept_foldl1 | apply keptA_pure | apply keptA_bind_get | apply keptA_bind | apply keptA_modify | apply keptA_throw | apply keptA_get | apply keptA_set | apply keptA_ite

theorem kept_tileAccept {fz o} {s a1 a2} (h : Kept fz o s) :
    Kept fz o (tileAccept s a1 a2) := by
  unfold tileAccept
  try dsimp only
  repeat' first
    | with_reducible assumption
    | intro _
    | dsimp only
    | with_reducible first | apply kept_emit | apply kept_setBag | apply kept_setProgress | apply kept_runAct | apply keptA_bagSignal | apply kept_updCmd | apply kept_stopCmd | apply kept_startTile | apply kept_each | apply kept_foldl | apply kept_foldl1 | apply keptA_pure | apply keptA_bind_get | apply keptA_bind | apply keptA_modify | apply keptA_throw | apply keptA_get | apply keptA_set | apply keptA_ite | apply keptA_act | apply kept_endOk | apply kept_endError | apply kept_endIte | apply kept_ite | apply kept_ite1
    | with_reducible (refine Kept.upd rfl ?_; first | assumption | apply kept_emit | apply kept_setBag | apply kept_setProgress | apply kept_runAct | apply keptA_bagSignal | apply kept_updCmd | apply kept_stopCmd | apply kept_startTile | apply kept_each | apply kept_foldl | apply kept_foldl1 | apply kept_ite | apply kept_ite1 | refine keptA_ok ?_ ?_ (by assumption) | refine keptA_error ?_ ?_ (by assumption))
    | refine keptA_ok ?_ ?_ (by assumption)
    | refine keptA_error ?_ ?_ (by assumption)
    | split

theorem kept_pieceArrive {fz o} {s a1 a2 a3 a4} (h : Kept fz o s) :
    Kept fz o (pieceArrive s a1 a2 a3 a4) := by
  unfold pieceArrive
  try dsimp only
  repeat' first
    | with_reducible assumption
    | intro _
    | dsimp only
    | with_reducible first | apply kept_settleBag | apply kept_setBag | apply kept_each | apply kept_foldl | apply kept_foldl1 | apply kept_ite | apply kept_ite1
    | with_reducible (refine Kept.upd rfl ?_; first | assumption | apply kept_settleBag | apply kept_setBag | apply kept_each | apply kept_foldl | apply kept_foldl1 | apply kept_ite | apply kept_ite1)
    | split

theorem keptA_readArrays {fz o} {a0 a1 a2 a3}  :
    KeptA fz o (readArrays a0 a1 a2 a3) := by
  unfold readArrays
  try dsimp only
  repeat' first
    | with_reducible assumption
    | intro _
    | dsimp only
    | with_reducible first | apply kept_vaRead | apply kept_each | apply kept_foldl | apply kept_foldl1 | apply keptA_pure | apply keptA_bind_get | apply keptA_bind | apply keptA_modify | apply keptA_throw | apply keptA_get | apply keptA_set | apply keptA_ite | apply keptA_act | apply kept_endOk | apply kept_endError | apply kept_endIte | apply kept_ite | apply kept_ite1
    | with_reducible (refine Kept.upd rfl ?_; first | assumption | refine keptA_ok ?_ ?_ (by assumption) | refine keptA_error ?_ ?_ (by assumption) | refine kept_ofP ?_ (by assumption))

theorem kept_launchBag {fz o} {s a1 a2 a3} (h : Kept fz o s) :
    Kept fz o (launchBag s a1 a2 a3) := by
  unfold launchBag
  try dsimp only
  repeat' first
    | with_reducible assumption
    | intro _
    | dsimp only
    | with_reducible first | apply kept_setBag | apply kept_settleBag | apply kept_sendPools | apply kept_each | apply kept_foldl | apply kept_foldl1 | apply kept_ite | apply kept_ite1
    | with_reducible (refine Kept.upd rfl ?_; first | assumption)

theorem keptA_bagPoolAct {fz o} {a0 a1 a2}  :
    KeptA fz o (bagPoolAct a0 a1 a2) := by
  unfold bagPoolAct
  try dsimp only
  repeat' first
    | with_reducible assumption
    | intro _
    | dsimp only
    | with_reducible first | apply keptA_bagSignal | apply kept_updCmd | apply keptA_pinVersion | apply keptA_objGet | apply keptA_vlineGet | apply keptA_splitEnts | apply kept_launchBag | apply keptA_failWith | apply keptA_readArrays | apply keptA_homeGet | apply kept_each | apply kept_foldl | apply kept_foldl1 | apply keptA_pure | apply keptA_bind_get | apply keptA_bind | apply keptA_modify | apply keptA_throw | apply keptA_get | apply keptA_set | apply keptA_ite | apply keptA_act | apply kept_endOk | apply kept_endError | apply kept_endIte | apply kept_ite | apply kept_ite1
    | with_reducible (refine Kept.upd rfl ?_; first | assumption | apply keptA_bagSignal | apply kept_updCmd | apply keptA_pinVersion | apply keptA_objGet | apply keptA_vlineGet | apply keptA_splitEnts | apply kept_launchBag | apply keptA_failWith | apply keptA_readArrays | apply keptA_homeGet | apply kept_each | apply kept_foldl | apply kept_foldl1 | apply kept_ite | apply kept_ite1 | refine keptA_ok ?_ ?_ (by assumption) | refine keptA_error ?_ ?_ (by assumption))
    | refine keptA_ok ?_ ?_ (by assumption)
    | refine keptA_error ?_ ?_ (by assumption)
    | split
    | refine keptA_fun ?_
    | with_reducible apply KeptA.ends

theorem keptR_execBagPool {fz o} {a0 a1 s} (h : Kept fz o s) :
    KeptR fz o (execBagPool a0 a1 s) := by
  unfold execBagPool
  try dsimp only
  repeat' first
    | with_reducible assumption
    | intro _
    | dsimp only
    | with_reducible first | apply kept_runCmd | apply keptA_bagPoolAct | apply kept_each | apply kept_foldl | apply kept_foldl1 | apply keptA_pure | apply keptA_bind_get | apply keptA_bind | apply keptA_modify | apply keptA_throw | apply keptA_get | apply keptA_set | apply keptA_ite | apply keptA_act | apply kept_endOk | apply kept_endError | apply kept_endIte | apply keptR_next

theorem keptR_execTileAccept {fz o} {a0 a1 s} (h : Kept fz o s) :
    KeptR fz o (execTileAccept a0 a1 s) := by
  unfold execTileAccept
  try dsimp only
  repeat' first
    | with_reducible assumption
    | intro _
    | dsimp only
    | with_reducible first | apply kept_tileAccept | apply kept_each | apply kept_foldl | apply kept_foldl1 | apply keptR_next | apply keptR_fault | apply keptR_ite | apply kept_ite

theorem keptR_execQuadRetire {fz o} {a0 s} (h : Kept fz o s) :
    KeptR fz o (execQuadRetire a0 s) := by
  unfold execQuadRetire
  try dsimp only
  repeat' first
    | with_reducible assumption
    | intro _
    | dsimp only
    | with_reducible first | apply kept_quadRetireWrite | apply kept_each | apply kept_foldl | apply kept_foldl1 | apply keptR_next | apply keptR_fault | apply keptR_ite | apply kept_ite

theorem keptR_execRowFetchResponse {fz o} {a0 a1 a2 s} (h : Kept fz o s) :
    KeptR fz o (execRowFetchResponse a0 a1 a2 s) := by
  unfold execRowFetchResponse
  try dsimp only
  repeat' first
    | with_reducible assumption
    | intro _
    | dsimp only
    | with_reducible first | apply kept_rowAnswer | apply kept_sendPools | apply kept_each | apply kept_foldl | apply kept_foldl1 | apply keptR_next

theorem keptR_execTileStallTimeout {fz o} {a0 s} (h : Kept fz o s) :
    KeptR fz o (execTileStallTimeout a0 s) := by
  unfold execTileStallTimeout
  try dsimp only
  repeat' first
    | with_reducible assumption
    | intro _
    | dsimp only
    | with_reducible first | apply kept_note | apply kept_each | apply kept_foldl | apply kept_foldl1 | apply keptR_next | apply keptR_fault | apply keptR_ite | apply kept_ite | apply kept_ite1
    | with_reducible (refine Kept.upd rfl ?_; first | assumption | apply kept_note | apply kept_each | apply kept_foldl | apply kept_foldl1 | apply kept_ite | apply kept_ite1)
    | split

theorem keptR_execQuadRetireDone {fz o} {s} (h : Kept fz o s) :
    KeptR fz o (execQuadRetireDone s) := by
  unfold execQuadRetireDone
  try dsimp only
  repeat' first
    | with_reducible assumption
    | intro _
    | dsimp only
    | with_reducible first | apply kept_each | apply kept_foldl | apply kept_foldl1 | apply keptR_next | apply keptR_fault | apply keptR_ite | apply kept_ite | apply kept_ite1
    | with_reducible (refine Kept.upd rfl ?_; first | assumption)

end Sys2Proof.Machine
end

