-- ==== Sys2Proof/Laws/KeptMover.lean ====
section
/-! SUPPORT. What the definitions of Machine/Mover.lean keep (`Kept`). -/

namespace Sys2Proof.Machine

theorem Memory.wf_failMany {m : Memory} {l : List (Nat × Byte)} (h : m.wf = true) : (m.failMany l).wf = true := by
  unfold Memory.failMany
  exact Memory.wf_foldl (fun _ _ k => Memory.wf_settle k) h

theorem kept_onInstr {fz o} {s a1 a2 a3} (h : Kept fz o s) (h3 : ∀ x0, Kept fz o (a3 x0)) :
    Kept fz o (onInstr s a1 a2 a3) := by
  unfold onInstr
  try dsimp only
  repeat' first
    | with_reducible assumption
    | intro _
    | dsimp only
    | with_reducible first | apply h3 | apply kept_each | apply kept_foldl | apply kept_foldl1 | apply kept_ite | apply kept_ite1 | apply Memory.wf_put | apply Memory.wf_putByte | apply Memory.wf_fail | apply Memory.wf_zero | apply Memory.wf_poison | apply Memory.wf_unpoison | apply Memory.wf_mark | apply Memory.wf_writeLine | apply Memory.wf_foldl | apply Memory.wf_settle | apply Memory.wf_failMany
    | with_reducible (refine Kept.upd rfl ?_; first | assumption | apply h3 | apply kept_each | apply kept_foldl | apply kept_foldl1 | apply kept_ite | apply kept_ite1)
    | with_reducible (refine Kept.updMem rfl ?_ ?_; rotate_left; first | assumption | apply h3 | apply kept_each | apply kept_foldl | apply kept_foldl1 | apply kept_ite | apply kept_ite1)
    | split

theorem kept_chanFlush {fz o} {s a1} (h : Kept fz o s) :
    Kept fz o (chanFlush s a1).1 := by
  unfold chanFlush
  try dsimp only
  repeat' first
    | with_reducible assumption
    | intro _
    | dsimp only
    | with_reducible first | apply kept_startFlush | apply kept_updRun | apply kept_each | apply kept_foldl | apply kept_foldl1 | apply kept_ite | apply kept_ite1 | apply Memory.wf_put | apply Memory.wf_putByte | apply Memory.wf_fail | apply Memory.wf_zero | apply Memory.wf_poison | apply Memory.wf_unpoison | apply Memory.wf_mark | apply Memory.wf_writeLine | apply Memory.wf_foldl | apply Memory.wf_settle | apply Memory.wf_failMany
    | with_reducible (refine Kept.upd rfl ?_; first | assumption | apply kept_startFlush | apply kept_updRun | apply kept_each | apply kept_foldl | apply kept_foldl1 | apply kept_ite | apply kept_ite1 | refine kept_ofP ?_ (by assumption))
    | with_reducible (refine Kept.updMem rfl ?_ ?_; rotate_left; first | assumption | apply kept_startFlush | apply kept_updRun | apply kept_each | apply kept_foldl | apply kept_foldl1 | apply kept_ite | apply kept_ite1 | refine kept_ofP ?_ (by assumption))
    | refine kept_ofP ?_ (by assumption)
    | split

theorem keptR_execChannelSignal {fz o} {a0 s} (h : Kept fz o s) :
    KeptR fz o (execChannelSignal a0 s) := by
  unfold execChannelSignal
  try dsimp only
  repeat' first
    | with_reducible assumption
    | intro _
    | dsimp only
    | with_reducible first | apply kept_onInstr | apply kept_chanFlush | apply kept_updRun | apply kept_each | apply kept_foldl | apply kept_foldl1 | apply keptR_next | apply keptR_fault | apply keptR_ite | apply kept_ite

theorem keptS_mvSend {fz o} {s a1 a2 a3 a4 a5 a6 a7} (h : Kept fz o s) :
    KeptS fz o (mvSend s a1 a2 a3 a4 a5 a6 a7) := by
  unfold mvSend
  try dsimp only
  repeat' first
    | with_reducible assumption
    | intro _
    | dsimp only
    | with_reducible first | apply keptS_sendRequest | apply kept_each | apply kept_foldl | apply kept_foldl1 | apply keptS_ok | apply keptS_full | apply keptS_fail | apply keptS_ite

theorem kept_homeRmw {fz o} {a0 a1 s a3 a4 a5 a6 a7} (h : Kept fz o s) :
    Kept fz o (homeRmw a0 a1 s a3 a4 a5 a6 a7).1 := by
  unfold homeRmw
  try dsimp only
  repeat' first
    | with_reducible assumption
    | intro _
    | dsimp only
    | with_reducible first | apply kept_homeRead | apply kept_homeWrite | apply kept_each | apply kept_foldl | apply kept_foldl1 | apply kept_ite | apply kept_ite1 | apply Memory.wf_put | apply Memory.wf_putByte | apply Memory.wf_fail | apply Memory.wf_zero | apply Memory.wf_poison | apply Memory.wf_unpoison | apply Memory.wf_mark | apply Memory.wf_writeLine | apply Memory.wf_foldl | apply Memory.wf_settle | apply Memory.wf_failMany
    | with_reducible (refine Kept.upd rfl ?_; first | assumption | apply kept_homeRead | apply kept_homeWrite | refine kept_ofP ?_ (by assumption))

theorem kept_atomicMid {fz o} {s a1 a2 a3} (h : Kept fz o s) :
    Kept fz o (atomicMid s a1 a2 a3).1 := by
  unfold atomicMid
  try dsimp only
  repeat' first
    | with_reducible assumption
    | intro _
    | dsimp only
    | with_reducible first | apply kept_translate | apply keptS_mvSend | apply kept_homeReady | apply kept_homeRmw | apply kept_each | apply kept_foldl | apply kept_foldl1 | apply kept_ite | apply kept_ite1 | apply Memory.wf_put | apply Memory.wf_putByte | apply Memory.wf_fail | apply Memory.wf_zero | apply Memory.wf_poison | apply Memory.wf_unpoison | apply Memory.wf_mark | apply Memory.wf_writeLine | apply Memory.wf_foldl | apply Memory.wf_settle | apply Memory.wf_failMany
    | with_reducible (refine Kept.upd rfl ?_; first | assumption | apply kept_translate | apply keptS_mvSend | apply kept_homeReady | apply kept_homeRmw | apply kept_each | apply kept_foldl | apply kept_foldl1 | apply kept_ite | apply kept_ite1 | refine kept_ofP ?_ (by assumption) | refine kept_ofS ?_ (by assumption))
    | with_reducible (refine Kept.updMem rfl ?_ ?_; rotate_left; first | assumption | apply kept_translate | apply keptS_mvSend | apply kept_homeReady | apply kept_homeRmw | apply kept_each | apply kept_foldl | apply kept_foldl1 | apply kept_ite | apply kept_ite1 | refine kept_ofP ?_ (by assumption) | refine kept_ofS ?_ (by assumption))
    | refine kept_ofP ?_ (by assumption)
    | refine kept_ofS ?_ (by assumption)
    | split

theorem keptA_queueRun {fz o} {a0 a1}  :
    KeptA fz o (queueRun a0 a1) := by
  unfold queueRun
  try dsimp only
  repeat' first
    | with_reducible assumption
    | intro _
    | dsimp only
    | with_reducible first | apply kept_updCmd | apply kept_updChan | apply kept_each | apply kept_foldl | apply kept_foldl1 | apply keptA_pure | apply keptA_bind_get | apply keptA_bind | apply keptA_modify

theorem keptA_allMeasured {fz o} {a0 a1}  :
    KeptA fz o (allMeasured a0 a1) := by
  unfold allMeasured
  try dsimp only
  repeat' first
    | with_reducible assumption
    | intro _
    | dsimp only
    | with_reducible first | apply keptA_leavesOf | apply kept_each | apply kept_foldl | apply kept_foldl1 | apply keptA_pure | apply keptA_bind_get | apply keptA_bind

theorem keptA_runChannelAct {fz o} {a0 a1 a2}  :
    KeptA fz o (runChannelAct a0 a1 a2) := by
  unfold runChannelAct
  try dsimp only
  repeat' first
    | with_reducible assumption
    | intro _
    | dsimp only
    | with_reducible first | apply keptA_need | apply keptA_queueRun | apply keptA_objGet | apply keptA_allMeasured | apply kept_each | apply kept_foldl | apply kept_foldl1 | apply keptA_pure | apply keptA_bind_get | apply keptA_bind | apply keptA_modify | apply keptA_throw | apply keptA_get | apply keptA_set | apply keptA_ite

theorem kept_finishRun {fz o} {s a1 a2 a3} (h : Kept fz o s) :
    Kept fz o (finishRun s a1 a2 a3) := by
  unfold finishRun
  try dsimp only
  repeat' first
    | with_reducible assumption
    | intro _
    | dsimp only
    | with_reducible first | apply kept_updCmd | apply kept_setProgress | apply kept_updChan | apply kept_endCmd | apply keptA_forAll | apply keptA_attempt | apply keptA_unpinObj | apply kept_waitBack | apply kept_each | apply kept_foldl | apply kept_foldl1 | apply keptA_pure | apply keptA_bind_get | apply keptA_bind | apply keptA_modify | apply keptA_throw | apply keptA_get | apply keptA_set | apply keptA_ite | apply keptA_act | apply kept_endOk | apply kept_endError | apply kept_endIte | apply kept_ite | apply kept_ite1 | apply Memory.wf_put | apply Memory.wf_putByte | apply Memory.wf_fail | apply Memory.wf_zero | apply Memory.wf_poison | apply Memory.wf_unpoison | apply Memory.wf_mark | apply Memory.wf_writeLine | apply Memory.wf_foldl | apply Memory.wf_settle | apply Memory.wf_failMany
    | with_reducible (refine Kept.upd rfl ?_; first | assumption | apply kept_updCmd | apply kept_setProgress | apply kept_updChan | apply kept_endCmd | apply keptA_forAll | apply keptA_attempt | apply keptA_unpinObj | apply kept_waitBack | apply kept_each | apply kept_foldl | apply kept_foldl1 | apply kept_ite | apply kept_ite1 | refine keptA_ok ?_ ?_ (by assumption) | refine keptA_error ?_ ?_ (by assumption))
    | with_reducible (refine Kept.updMem rfl ?_ ?_; rotate_left; first | assumption | apply kept_updCmd | apply kept_setProgress | apply kept_updChan | apply kept_endCmd | apply keptA_forAll | apply keptA_attempt | apply keptA_unpinObj | apply kept_waitBack | apply kept_each | apply kept_foldl | apply kept_foldl1 | apply kept_ite | apply kept_ite1 | refine keptA_ok ?_ ?_ (by assumption) | refine keptA_error ?_ ?_ (by assumption))
    | refine keptA_ok ?_ ?_ (by assumption)
    | refine keptA_error ?_ ?_ (by assumption)
    | split

theorem kept_addRd {fz o} {s a1} (h : Kept fz o s) :
    Kept fz o (addRd s a1) := by
  unfold addRd
  try dsimp only
  repeat' first
    | with_reducible assumption
    | intro _
    | dsimp only
    | with_reducible first | apply kept_each | apply kept_foldl | apply kept_foldl1 | apply kept_ite | apply kept_ite1 | apply Memory.wf_put | apply Memory.wf_putByte | apply Memory.wf_fail | apply Memory.wf_zero | apply Memory.wf_poison | apply Memory.wf_unpoison | apply Memory.wf_mark | apply Memory.wf_writeLine | apply Memory.wf_foldl | apply Memory.wf_settle | apply Memory.wf_failMany
    | with_reducible (refine Kept.upd rfl ?_; first | assumption)

theorem kept_readReq {fz o} {a0 a1 s a3 a4} (h : Kept fz o s) :
    Kept fz o (readReq a0 a1 s a3 a4).1 := by
  unfold readReq
  try dsimp only
  repeat' first
    | with_reducible assumption
    | intro _
    | dsimp only
    | with_reducible first | apply kept_reportBus

theorem kept_readPlan {fz o} {a0 a1 a2 s} (h : Kept fz o s) :
    Kept fz o (readPlan a0 a1 a2 s).1 := by
  induction a2 generalizing s with
  | nil =>
    unfold readPlan
    try dsimp only
    repeat' first
      | with_reducible assumption
  | cons x l ih =>
    unfold readPlan
    try dsimp only
    repeat' first
      | with_reducible assumption
      | intro _
      | dsimp only
      | with_reducible first | apply kept_readReq | apply kept_addRd | apply ih | apply kept_each | apply kept_foldl | apply kept_foldl1 | apply kept_ite | apply kept_ite1

theorem kept_pull {fz o} {s a1 a2 a3 a4 a5 a6 a7} (h : Kept fz o s) :
    Kept fz o (pull s a1 a2 a3 a4 a5 a6 a7).1 := by
  unfold pull
  try dsimp only
  repeat' first
    | with_reducible assumption
    | intro _
    | dsimp only
    | with_reducible first | apply kept_translate | apply keptS_mvSend | apply kept_addRd | apply kept_readPlan | apply kept_each | apply kept_foldl | apply kept_foldl1 | apply kept_ite | apply kept_ite1 | apply Memory.wf_put | apply Memory.wf_putByte | apply Memory.wf_fail | apply Memory.wf_zero | apply Memory.wf_poison | apply Memory.wf_unpoison | apply Memory.wf_mark | apply Memory.wf_writeLine | apply Memory.wf_foldl | apply Memory.wf_settle | apply Memory.wf_failMany
    | with_reducible (refine Kept.upd rfl ?_; first | assumption | apply kept_translate | apply keptS_mvSend | apply kept_addRd | apply kept_readPlan | apply kept_each | apply kept_foldl | apply kept_foldl1 | apply kept_ite | apply kept_ite1 | refine kept_ofP ?_ (by assumption) | refine kept_ofS ?_ (by assumption))
    | with_reducible (refine Kept.updMem rfl ?_ ?_; rotate_left; first | assumption | apply kept_translate | apply keptS_mvSend | apply kept_addRd | apply kept_readPlan | apply kept_each | apply kept_foldl | apply kept_foldl1 | apply kept_ite | apply kept_ite1 | refine kept_ofP ?_ (by assumption) | refine kept_ofS ?_ (by assumption))
    | refine kept_ofP ?_ (by assumption)
    | refine kept_ofS ?_ (by assumption)
    | split

theorem kept_dropHints {fz o} {s a1 a2} (h : Kept fz o s) :
    Kept fz o (dropHints s a1 a2) := by
  unfold dropHints
  try dsimp only
  repeat' first
    | with_reducible assumption
    | intro _
    | dsimp only
    | with_reducible first | apply kept_each | apply kept_foldl | apply kept_foldl1 | apply kept_ite | apply kept_ite1 | apply Memory.wf_put | apply Memory.wf_putByte | apply Memory.wf_fail | apply Memory.wf_zero | apply Memory.wf_poison | apply Memory.wf_unpoison | apply Memory.wf_mark | apply Memory.wf_writeLine | apply Memory.wf_foldl | apply Memory.wf_settle | apply Memory.wf_failMany
    | with_reducible (refine Kept.upd rfl ?_; first | assumption)

theorem kept_addWr {fz o} {s a1} (h : Kept fz o s) :
    Kept fz o (addWr s a1) := by
  unfold addWr
  try dsimp only
  repeat' first
    | with_reducible assumption
    | intro _
    | dsimp only
    | with_reducible first | apply kept_each | apply kept_foldl | apply kept_foldl1 | apply kept_ite | apply kept_ite1 | apply Memory.wf_put | apply Memory.wf_putByte | apply Memory.wf_fail | apply Memory.wf_zero | apply Memory.wf_poison | apply Memory.wf_unpoison | apply Memory.wf_mark | apply Memory.wf_writeLine | apply Memory.wf_foldl | apply Memory.wf_settle | apply Memory.wf_failMany
    | with_reducible (refine Kept.upd rfl ?_; first | assumption)

theorem kept_hintLines {fz o} {a0 a1 a2 a3 a4 s} (h : Kept fz o s) :
    Kept fz o (hintLines a0 a1 a2 a3 a4 s).1 := by
  induction a4 generalizing s with
  | nil =>
    unfold hintLines
    try dsimp only
    repeat' first
      | with_reducible assumption
  | cons x l ih =>
    unfold hintLines
    try dsimp only
    repeat' first
      | with_reducible assumption
      | intro _
      | dsimp only
      | with_reducible first | apply kept_homeRequest | apply kept_addWr | apply kept_updRun | apply kept_reportBus | apply ih | apply kept_each | apply kept_foldl | apply kept_foldl1 | apply kept_ite | apply kept_ite1 | apply Memory.wf_put | apply Memory.wf_putByte | apply Memory.wf_fail | apply Memory.wf_zero | apply Memory.wf_poison | apply Memory.wf_unpoison | apply Memory.wf_mark | apply Memory.wf_writeLine | apply Memory.wf_foldl | apply Memory.wf_settle | apply Memory.wf_failMany
      | with_reducible (refine Kept.upd rfl ?_; first | assumption | apply kept_homeRequest | apply kept_addWr | apply kept_updRun | apply kept_reportBus | apply ih | apply kept_each | apply kept_foldl | apply kept_foldl1 | apply kept_ite | apply kept_ite1)
      | with_reducible (refine Kept.updMem rfl ?_ ?_; rotate_left; first | assumption)
      | split

theorem kept_writeReq {fz o} {a0 a1 s a3 a4 a5} (h : Kept fz o s) :
    Kept fz o (writeReq a0 a1 s a3 a4 a5).1 := by
  unfold writeReq
  try dsimp only
  repeat' first
    | with_reducible assumption
    | intro _
    | dsimp only
    | with_reducible first | apply kept_reportBus | apply kept_each | apply kept_foldl | apply kept_foldl1 | apply kept_ite | apply kept_ite1 | apply Memory.wf_put | apply Memory.wf_putByte | apply Memory.wf_fail | apply Memory.wf_zero | apply Memory.wf_poison | apply Memory.wf_unpoison | apply Memory.wf_mark | apply Memory.wf_writeLine | apply Memory.wf_foldl | apply Memory.wf_settle | apply Memory.wf_failMany
    | with_reducible (refine Kept.upd rfl ?_; first | assumption | apply kept_reportBus | apply kept_each | apply kept_foldl | apply kept_foldl1 | apply kept_ite | apply kept_ite1)
    | with_reducible (refine Kept.updMem rfl ?_ ?_; rotate_left; first | assumption)
    | split

theorem kept_writePlan {fz o} {a0 a1 a2 a3 s} (h : Kept fz o s) :
    Kept fz o (writePlan a0 a1 a2 a3 s).1 := by
  induction a3 generalizing s with
  | nil =>
    unfold writePlan
    try dsimp only
    repeat' first
      | with_reducible assumption
  | cons x l ih =>
    unfold writePlan
    try dsimp only
    repeat' first
      | with_reducible assumption
      | intro _
      | dsimp only
      | with_reducible first | apply kept_writeReq | apply kept_addWr | apply ih | apply kept_each | apply kept_foldl | apply kept_foldl1 | apply kept_ite | apply kept_ite1

theorem kept_pushVa {fz o} {s a1 a2 a3 a4 a5 a6} (h : Kept fz o s) :
    Kept fz o (pushVa s a1 a2 a3 a4 a5 a6).1 := by
  unfold pushVa
  try dsimp only
  repeat' first
    | with_reducible assumption
    | intro _
    | dsimp only
    | with_reducible first | apply kept_translate | apply keptS_mvSend | apply kept_dropHints | apply kept_addWr | apply kept_homeReady | apply kept_hintLines | apply kept_writePlan | apply kept_each | apply kept_foldl | apply kept_foldl1 | apply kept_ite | apply kept_ite1 | apply Memory.wf_put | apply Memory.wf_putByte | apply Memory.wf_fail | apply Memory.wf_zero | apply Memory.wf_poison | apply Memory.wf_unpoison | apply Memory.wf_mark | apply Memory.wf_writeLine | apply Memory.wf_foldl | apply Memory.wf_settle | apply Memory.wf_failMany
    | with_reducible (refine Kept.upd rfl ?_; first | assumption | apply kept_translate | apply keptS_mvSend | apply kept_dropHints | apply kept_addWr | apply kept_homeReady | apply kept_hintLines | apply kept_writePlan | apply kept_each | apply kept_foldl | apply kept_foldl1 | apply kept_ite | apply kept_ite1 | refine kept_ofP ?_ (by assumption) | refine kept_ofS ?_ (by assumption))
    | with_reducible (refine Kept.updMem rfl ?_ ?_; rotate_left; first | assumption | apply kept_translate | apply keptS_mvSend | apply kept_dropHints | apply kept_addWr | apply kept_homeReady | apply kept_hintLines | apply kept_writePlan | apply kept_each | apply kept_foldl | apply kept_foldl1 | apply kept_ite | apply kept_ite1 | refine kept_ofP ?_ (by assumption) | refine kept_ofS ?_ (by assumption))
    | refine kept_ofP ?_ (by assumption)
    | refine kept_ofS ?_ (by assumption)
    | split

theorem kept_atomicLoop {fz o} {a0 a1 a2 a3 s a5} (h : Kept fz o s) :
    Kept fz o (atomicLoop a0 a1 a2 a3 s a5).1 := by
  induction a3 generalizing s a5 with
  | zero =>
    unfold atomicLoop
    try dsimp only
    repeat' first
      | with_reducible assumption
  | succ n ih =>
    unfold atomicLoop
    try dsimp only
    repeat' first
      | with_reducible assumption
      | intro _
      | dsimp only
      | with_reducible first | apply kept_pull | apply kept_atomicMid | apply kept_pushVa | apply ih | apply kept_each | apply kept_foldl | apply kept_foldl1 | apply kept_ite | apply kept_ite1 | apply Memory.wf_put | apply Memory.wf_putByte | apply Memory.wf_fail | apply Memory.wf_zero | apply Memory.wf_poison | apply Memory.wf_unpoison | apply Memory.wf_mark | apply Memory.wf_writeLine | apply Memory.wf_foldl | apply Memory.wf_settle | apply Memory.wf_failMany
      | with_reducible (refine Kept.upd rfl ?_; first | assumption | apply kept_pull | apply kept_atomicMid | apply kept_pushVa | apply ih | apply kept_each | apply kept_foldl | apply kept_foldl1 | apply kept_ite | apply kept_ite1 | refine kept_ofP ?_ (by assumption))
      | with_reducible (refine Kept.updMem rfl ?_ ?_; rotate_left; first | assumption | apply kept_pull | apply kept_atomicMid | apply kept_pushVa | apply ih | apply kept_each | apply kept_foldl | apply kept_foldl1 | apply kept_ite | apply kept_ite1 | refine kept_ofP ?_ (by assumption))
      | refine kept_ofP ?_ (by assumption)
      | split

theorem kept_pushHost {fz o} {s a1 a2 a3 a4 a5} (h : Kept fz o s) :
    Kept fz o (pushHost s a1 a2 a3 a4 a5).1 := by
  unfold pushHost
  try dsimp only
  repeat' first
    | with_reducible assumption
    | intro _
    | dsimp only
    | with_reducible first | apply keptO_sealedReturn | apply kept_addWr | apply kept_hostWrite | apply kept_updRun | apply keptS_mvSend | apply kept_each | apply kept_foldl | apply kept_foldl1 | apply kept_ite | apply kept_ite1 | apply Memory.wf_put | apply Memory.wf_putByte | apply Memory.wf_fail | apply Memory.wf_zero | apply Memory.wf_poison | apply Memory.wf_unpoison | apply Memory.wf_mark | apply Memory.wf_writeLine | apply Memory.wf_foldl | apply Memory.wf_settle | apply Memory.wf_failMany
    | with_reducible (refine Kept.upd rfl ?_; first | assumption | apply keptO_sealedReturn | apply kept_addWr | apply kept_hostWrite | apply kept_updRun | apply keptS_mvSend | apply kept_each | apply kept_foldl | apply kept_foldl1 | apply kept_ite | apply kept_ite1 | refine kept_ofS ?_ (by assumption) | refine kept_ofO ?_ (by assumption) | refine kept_ofQ ?_ (by assumption))
    | with_reducible (refine Kept.updMem rfl ?_ ?_; rotate_left; first | assumption | apply keptO_sealedReturn | apply kept_addWr | apply kept_hostWrite | apply kept_updRun | apply keptS_mvSend | apply kept_each | apply kept_foldl | apply kept_foldl1 | apply kept_ite | apply kept_ite1 | refine kept_ofS ?_ (by assumption) | refine kept_ofO ?_ (by assumption) | refine kept_ofQ ?_ (by assumption))
    | refine kept_ofO ?_ (by assumption)
    | refine kept_ofQ ?_ (by assumption)
    | refine kept_ofQ1 ?_ (by assumption)
    | refine kept_ofS ?_ (by assumption)
    | split

theorem kept_streamLoop {fz o} {a0 a1 a2 a3 s a5} (h : Kept fz o s) :
    Kept fz o (streamLoop a0 a1 a2 a3 s a5).1 := by
  induction a3 generalizing s a5 with
  | zero =>
    unfold streamLoop
    try dsimp only
    repeat' first
      | with_reducible assumption
  | succ n ih =>
    unfold streamLoop
    try dsimp only
    repeat' first
      | with_reducible assumption
      | intro _
      | dsimp only
      | with_reducible first | apply kept_pull | apply kept_pushVa | apply kept_pushHost | apply ih | apply kept_each | apply kept_foldl | apply kept_foldl1 | apply kept_ite | apply kept_ite1 | apply Memory.wf_put | apply Memory.wf_putByte | apply Memory.wf_fail | apply Memory.wf_zero | apply Memory.wf_poison | apply Memory.wf_unpoison | apply Memory.wf_mark | apply Memory.wf_writeLine | apply Memory.wf_foldl | apply Memory.wf_settle | apply Memory.wf_failMany
      | with_reducible (refine Kept.upd rfl ?_; first | assumption | apply kept_pull | apply kept_pushVa | apply kept_pushHost | apply ih | apply kept_each | apply kept_foldl | apply kept_foldl1 | apply kept_ite | apply kept_ite1 | refine kept_ofP ?_ (by assumption))
      | with_reducible (refine Kept.updMem rfl ?_ ?_; rotate_left; first | assumption | apply kept_pull | apply kept_pushVa | apply kept_pushHost | apply ih | apply kept_each | apply kept_foldl | apply kept_foldl1 | apply kept_ite | apply kept_ite1 | refine kept_ofP ?_ (by assumption))
      | refine kept_ofP ?_ (by assumption)
      | split

theorem kept_runExec {fz o} {a0 a1 a2 s a4} (h : Kept fz o s) :
    Kept fz o (runExec a0 a1 a2 s a4).1 := by
  unfold runExec
  try dsimp only
  repeat' first
    | with_reducible assumption
    | intro _
    | dsimp only
    | with_reducible first | apply kept_atomicLoop | apply kept_streamLoop | apply kept_each | apply kept_foldl | apply kept_foldl1 | apply kept_ite | apply kept_ite1

theorem kept_statStep {fz o} {s a1 a2} (h : Kept fz o s) :
    Kept fz o (statStep s a1 a2).1 := by
  unfold statStep
  try dsimp only
  repeat' first
    | with_reducible assumption
    | intro _
    | dsimp only
    | with_reducible first | apply kept_runExec | apply kept_updRun | apply kept_each | apply kept_foldl | apply kept_foldl1 | apply kept_ite | apply kept_ite1 | apply Memory.wf_put | apply Memory.wf_putByte | apply Memory.wf_fail | apply Memory.wf_zero | apply Memory.wf_poison | apply Memory.wf_unpoison | apply Memory.wf_mark | apply Memory.wf_writeLine | apply Memory.wf_foldl | apply Memory.wf_settle | apply Memory.wf_failMany
    | with_reducible (refine Kept.upd rfl ?_; first | assumption | apply kept_runExec | apply kept_updRun | apply kept_each | apply kept_foldl | apply kept_foldl1 | apply kept_ite | apply kept_ite1 | refine kept_ofP ?_ (by assumption))
    | with_reducible (refine Kept.updMem rfl ?_ ?_; rotate_left; first | assumption | apply kept_runExec | apply kept_updRun | apply kept_each | apply kept_foldl | apply kept_foldl1 | apply kept_ite | apply kept_ite1 | refine kept_ofP ?_ (by assumption))
    | refine kept_ofP ?_ (by assumption)
    | split

theorem kept_settleRun {fz o} {s a1 a2} (h : Kept fz o s) :
    Kept fz o (settleRun s a1 a2) := by
  unfold settleRun
  try dsimp only
  repeat' first
    | with_reducible assumption
    | intro _
    | dsimp only
    | with_reducible first | apply kept_finishRun | apply kept_statStep | apply kept_updRun | apply kept_each | apply kept_foldl | apply kept_foldl1 | apply kept_ite | apply kept_ite1 | apply Memory.wf_put | apply Memory.wf_putByte | apply Memory.wf_fail | apply Memory.wf_zero | apply Memory.wf_poison | apply Memory.wf_unpoison | apply Memory.wf_mark | apply Memory.wf_writeLine | apply Memory.wf_foldl | apply Memory.wf_settle | apply Memory.wf_failMany
    | with_reducible (refine Kept.upd rfl ?_; first | assumption | apply kept_finishRun | apply kept_statStep | apply kept_updRun | apply kept_each | apply kept_foldl | apply kept_foldl1 | apply kept_ite | apply kept_ite1 | refine kept_ofP ?_ (by assumption))
    | with_reducible (refine Kept.updMem rfl ?_ ?_; rotate_left; first | assumption | apply kept_finishRun | apply kept_statStep | apply kept_updRun | apply kept_each | apply kept_foldl | apply kept_foldl1 | apply kept_ite | apply kept_ite1 | refine kept_ofP ?_ (by assumption))
    | refine kept_ofP ?_ (by assumption)
    | split

theorem keptR_execStop {fz o} {a0 a1 s} (h : Kept fz o s) :
    KeptR fz o (execStop a0 a1 s) := by
  unfold execStop
  try dsimp only
  repeat' first
    | with_reducible assumption
    | intro _
    | dsimp only
    | with_reducible first | apply kept_onInstr | apply kept_chanFlush | apply kept_updChan | apply kept_settleRun | apply kept_each | apply kept_foldl | apply kept_foldl1 | apply keptR_next | apply keptR_fault | apply keptR_ite | apply kept_ite

theorem kept_updStat {fz o} {s a1 a2 a3} (h : Kept fz o s) :
    Kept fz o (updStat s a1 a2 a3) := by
  unfold updStat
  try dsimp only
  repeat' first
    | with_reducible assumption
    | intro _
    | dsimp only
    | with_reducible first | apply kept_updRun

theorem kept_failRun {fz o} {s a1 a2 a3} (h : Kept fz o s) :
    Kept fz o (failRun s a1 a2 a3) := by
  unfold failRun
  try dsimp only
  repeat' first
    | with_reducible assumption
    | intro _
    | dsimp only
    | with_reducible first | apply kept_updChan

theorem kept_loadLoop {fz o} {a0 a1 a2 s a4} (h : Kept fz o s) :
    Kept fz o (loadLoop a0 a1 a2 s a4).1 := by
  induction a2 generalizing s a4 with
  | zero =>
    unfold loadLoop
    try dsimp only
    repeat' first
      | with_reducible assumption
  | succ n ih =>
    unfold loadLoop
    try dsimp only
    repeat' first
      | with_reducible assumption
      | intro _
      | dsimp only
      | with_reducible first | apply kept_pull | apply ih | apply kept_each | apply kept_foldl | apply kept_foldl1 | apply kept_ite | apply kept_ite1 | apply Memory.wf_put | apply Memory.wf_putByte | apply Memory.wf_fail | apply Memory.wf_zero | apply Memory.wf_poison | apply Memory.wf_unpoison | apply Memory.wf_mark | apply Memory.wf_writeLine | apply Memory.wf_foldl | apply Memory.wf_settle | apply Memory.wf_failMany
      | with_reducible (refine Kept.upd rfl ?_; first | assumption | apply kept_pull | apply ih | apply kept_each | apply kept_foldl | apply kept_foldl1 | apply kept_ite | apply kept_ite1 | refine kept_ofP ?_ (by assumption))
      | with_reducible (refine Kept.updMem rfl ?_ ?_; rotate_left; first | assumption | apply kept_pull | apply ih | apply kept_each | apply kept_foldl | apply kept_foldl1 | apply kept_ite | apply kept_ite1 | refine kept_ofP ?_ (by assumption))
      | refine kept_ofP ?_ (by assumption)
      | split

theorem keptA_pinEvents {fz o} {a0 a1 a2 a3}  :
    KeptA fz o (pinEvents a0 a1 a2 a3) := by
  unfold pinEvents
  try dsimp only
  repeat' first
    | with_reducible assumption
    | intro _
    | dsimp only
    | with_reducible first | apply keptA_forAll | apply keptA_lookupHandle | apply keptA_pinObj | apply kept_updRun | apply kept_each | apply kept_foldl | apply kept_foldl1 | apply keptA_pure | apply keptA_bind_get | apply keptA_bind | apply keptA_modify

theorem kept_startProg {fz o} {s a1 a2 a3 a4 a5} (h : Kept fz o s) :
    Kept fz o (startProg s a1 a2 a3 a4 a5) := by
  unfold startProg
  try dsimp only
  repeat' first
    | with_reducible assumption
    | intro _
    | dsimp only
    | with_reducible first | apply kept_failRun | apply kept_updRun | apply kept_updChan | apply keptA_pinEvents | apply kept_waitBack | apply kept_each | apply kept_foldl | apply kept_foldl1 | apply keptA_pure | apply keptA_bind_get | apply keptA_bind | apply keptA_modify | apply keptA_throw | apply keptA_get | apply keptA_set | apply keptA_ite | apply keptA_act | apply kept_endOk | apply kept_endError | apply kept_endIte | apply kept_ite | apply kept_ite1 | apply Memory.wf_put | apply Memory.wf_putByte | apply Memory.wf_fail | apply Memory.wf_zero | apply Memory.wf_poison | apply Memory.wf_unpoison | apply Memory.wf_mark | apply Memory.wf_writeLine | apply Memory.wf_foldl | apply Memory.wf_settle | apply Memory.wf_failMany
    | with_reducible (refine Kept.upd rfl ?_; first | assumption | apply kept_failRun | apply kept_updRun | apply kept_updChan | apply keptA_pinEvents | apply kept_waitBack | apply kept_each | apply kept_foldl | apply kept_foldl1 | apply kept_ite | apply kept_ite1 | refine keptA_ok ?_ ?_ (by assumption) | refine keptA_error ?_ ?_ (by assumption))
    | with_reducible (refine Kept.updMem rfl ?_ ?_; rotate_left; first | assumption | apply kept_failRun | apply kept_updRun | apply kept_updChan | apply keptA_pinEvents | apply kept_waitBack | apply kept_each | apply kept_foldl | apply kept_foldl1 | apply kept_ite | apply kept_ite1 | refine keptA_ok ?_ ?_ (by assumption) | refine keptA_error ?_ ?_ (by assumption))
    | refine keptA_ok ?_ ?_ (by assumption)
    | refine keptA_error ?_ ?_ (by assumption)
    | split

theorem kept_loadRun {fz o} {s a1 a2} (h : Kept fz o s) :
    Kept fz o (loadRun s a1 a2) := by
  unfold loadRun
  try dsimp only
  repeat' first
    | with_reducible assumption
    | intro _
    | dsimp only
    | with_reducible first | apply kept_updChan | apply keptA_objGet | apply kept_waitBack | apply kept_failRun | apply kept_updRun | apply kept_loadLoop | apply kept_startProg | apply kept_each | apply kept_foldl | apply kept_foldl1 | apply keptA_pure | apply keptA_bind_get | apply keptA_bind | apply keptA_modify | apply keptA_throw | apply keptA_get | apply keptA_set | apply keptA_ite | apply keptA_act | apply kept_endOk | apply kept_endError | apply kept_endIte | apply kept_ite | apply kept_ite1 | apply Memory.wf_put | apply Memory.wf_putByte | apply Memory.wf_fail | apply Memory.wf_zero | apply Memory.wf_poison | apply Memory.wf_unpoison | apply Memory.wf_mark | apply Memory.wf_writeLine | apply Memory.wf_foldl | apply Memory.wf_settle | apply Memory.wf_failMany
    | with_reducible (refine Kept.upd rfl ?_; first | assumption | apply kept_updChan | apply keptA_objGet | apply kept_waitBack | apply kept_failRun | apply kept_updRun | apply kept_loadLoop | apply kept_startProg | apply kept_each | apply kept_foldl | apply kept_foldl1 | apply kept_ite | apply kept_ite1 | refine keptA_ok ?_ ?_ (by assumption) | refine keptA_error ?_ ?_ (by assumption) | refine kept_ofP ?_ (by assumption))
    | with_reducible (refine Kept.updMem rfl ?_ ?_; rotate_left; first | assumption | apply kept_updChan | apply keptA_objGet | apply kept_waitBack | apply kept_failRun | apply kept_updRun | apply kept_loadLoop | apply kept_startProg | apply kept_each | apply kept_foldl | apply kept_foldl1 | apply kept_ite | apply kept_ite1 | refine keptA_ok ?_ ?_ (by assumption) | refine keptA_error ?_ ?_ (by assumption) | refine kept_ofP ?_ (by assumption))
    | refine keptA_ok ?_ ?_ (by assumption)
    | refine keptA_error ?_ ?_ (by assumption)
    | refine kept_ofP ?_ (by assumption)
    | split

theorem keptR_execChannelRunStart {fz o} {a0 a1 s} (h : Kept fz o s) :
    KeptR fz o (execChannelRunStart a0 a1 s) := by
  unfold execChannelRunStart
  try dsimp only
  repeat' first
    | with_reducible assumption
    | intro _
    | dsimp only
    | with_reducible first | apply kept_settleRun | apply kept_loadRun | apply kept_updChan | apply kept_each | apply kept_foldl | apply kept_foldl1 | apply keptR_next | apply keptR_fault | apply keptR_ite | apply kept_ite | apply kept_ite1 | apply Memory.wf_put | apply Memory.wf_putByte | apply Memory.wf_fail | apply Memory.wf_zero | apply Memory.wf_poison | apply Memory.wf_unpoison | apply Memory.wf_mark | apply Memory.wf_writeLine | apply Memory.wf_foldl | apply Memory.wf_settle | apply Memory.wf_failMany
    | with_reducible (refine Kept.upd rfl ?_; first | assumption | apply kept_settleRun | apply kept_loadRun | apply kept_updChan | apply kept_each | apply kept_foldl | apply kept_foldl1 | apply kept_ite | apply kept_ite1)
    | with_reducible (refine Kept.updMem rfl ?_ ?_; rotate_left; first | assumption | apply kept_settleRun | apply kept_loadRun | apply kept_updChan | apply kept_each | apply kept_foldl | apply kept_foldl1 | apply kept_ite | apply kept_ite1)
    | split

theorem kept_markBad {fz o} {s a1 a2 a3} (h : Kept fz o s) :
    Kept fz o (markBad s a1 a2 a3) := by
  unfold markBad
  try dsimp only
  repeat' first
    | with_reducible assumption
    | intro _
    | dsimp only
    | with_reducible first | apply kept_updStat | apply kept_each | apply kept_foldl | apply kept_foldl1 | apply kept_ite | apply kept_ite1 | apply Memory.wf_put | apply Memory.wf_putByte | apply Memory.wf_fail | apply Memory.wf_zero | apply Memory.wf_poison | apply Memory.wf_unpoison | apply Memory.wf_mark | apply Memory.wf_writeLine | apply Memory.wf_foldl | apply Memory.wf_settle | apply Memory.wf_failMany
    | with_reducible (refine Kept.upd rfl ?_; first | assumption | apply kept_updStat)

theorem kept_badExec {fz o} {s a1 a2 a3 a4 a5} (h : Kept fz o s) :
    Kept fz o (badExec s a1 a2 a3 a4 a5) := by
  unfold badExec
  try dsimp only
  repeat' first
    | with_reducible assumption
    | intro _
    | dsimp only
    | with_reducible first | apply kept_markBad | apply kept_failRun | apply kept_updRun | apply kept_each | apply kept_foldl | apply kept_foldl1 | apply kept_ite | apply kept_ite1 | apply Memory.wf_put | apply Memory.wf_putByte | apply Memory.wf_fail | apply Memory.wf_zero | apply Memory.wf_poison | apply Memory.wf_unpoison | apply Memory.wf_mark | apply Memory.wf_writeLine | apply Memory.wf_foldl | apply Memory.wf_settle | apply Memory.wf_failMany
    | with_reducible (refine Kept.upd rfl ?_; first | assumption | apply kept_markBad | apply kept_failRun | apply kept_updRun | apply kept_each | apply kept_foldl | apply kept_foldl1 | apply kept_ite | apply kept_ite1)
    | with_reducible (refine Kept.updMem rfl ?_ ?_; rotate_left; first | assumption | apply kept_markBad | apply kept_failRun | apply kept_updRun | apply kept_each | apply kept_foldl | apply kept_foldl1 | apply kept_ite | apply kept_ite1)
    | split

theorem keptR_execLoop {fz o} {a0 s} (h : Kept fz o s) :
    KeptR fz o (execLoop a0 s) := by
  unfold execLoop
  try dsimp only
  repeat' first
    | with_reducible assumption
    | intro _
    | dsimp only
    | with_reducible first | apply kept_onInstr | apply kept_updRun | apply kept_each | apply kept_foldl | apply kept_foldl1 | apply keptR_next | apply keptR_fault | apply keptR_ite | apply kept_ite

theorem kept_dropWaitingRun {fz o} {s a1} (h : Kept fz o s) :
    Kept fz o (dropWaitingRun s a1) := by
  unfold dropWaitingRun
  try dsimp only
  repeat' first
    | with_reducible assumption
    | intro _
    | dsimp only
    | with_reducible first | apply kept_endCmd | apply kept_each | apply kept_foldl | apply kept_foldl1 | apply kept_ite | apply kept_ite1 | apply Memory.wf_put | apply Memory.wf_putByte | apply Memory.wf_fail | apply Memory.wf_zero | apply Memory.wf_poison | apply Memory.wf_unpoison | apply Memory.wf_mark | apply Memory.wf_writeLine | apply Memory.wf_foldl | apply Memory.wf_settle | apply Memory.wf_failMany
    | with_reducible (refine Kept.upd rfl ?_; first | assumption)

theorem kept_closeCur {fz o} {s a1 a2} (h : Kept fz o s) :
    Kept fz o (closeCur s a1 a2) := by
  unfold closeCur
  try dsimp only
  repeat' first
    | with_reducible assumption
    | intro _
    | dsimp only
    | with_reducible first | apply kept_updRun

theorem kept_doneExec {fz o} {s a1 a2} (h : Kept fz o s) :
    Kept fz o (doneExec s a1 a2) := by
  unfold doneExec
  try dsimp only
  repeat' first
    | with_reducible assumption
    | intro _
    | dsimp only
    | with_reducible first | apply kept_updStat

theorem kept_stepCur {fz o} {s a1 a2} (h : Kept fz o s) :
    Kept fz o (stepCur s a1 a2) := by
  unfold stepCur
  try dsimp only
  repeat' first
    | with_reducible assumption
    | intro _
    | dsimp only
    | with_reducible first | apply kept_runExec | apply kept_updRun | apply kept_badExec | apply kept_closeCur | apply kept_doneExec | apply kept_each | apply kept_foldl | apply kept_foldl1 | apply kept_ite | apply kept_ite1 | apply Memory.wf_put | apply Memory.wf_putByte | apply Memory.wf_fail | apply Memory.wf_zero | apply Memory.wf_poison | apply Memory.wf_unpoison | apply Memory.wf_mark | apply Memory.wf_writeLine | apply Memory.wf_foldl | apply Memory.wf_settle | apply Memory.wf_failMany
    | with_reducible (refine Kept.upd rfl ?_; first | assumption | apply kept_runExec | apply kept_updRun | apply kept_badExec | apply kept_closeCur | apply kept_doneExec | apply kept_each | apply kept_foldl | apply kept_foldl1 | apply kept_ite | apply kept_ite1 | refine kept_ofP ?_ (by assumption))
    | with_reducible (refine Kept.updMem rfl ?_ ?_; rotate_left; first | assumption | apply kept_runExec | apply kept_updRun | apply kept_badExec | apply kept_closeCur | apply kept_doneExec | apply kept_each | apply kept_foldl | apply kept_foldl1 | apply kept_ite | apply kept_ite1 | refine kept_ofP ?_ (by assumption))
    | refine kept_ofP ?_ (by assumption)
    | split

theorem keptR_execFence {fz o} {a0 s} (h : Kept fz o s) :
    KeptR fz o (execFence a0 s) := by
  unfold execFence
  try dsimp only
  repeat' first
    | with_reducible assumption
    | intro _
    | dsimp only
    | with_reducible first | apply kept_onInstr | apply kept_updRun | apply kept_chanFlush | apply kept_each | apply kept_foldl | apply kept_foldl1 | apply keptR_next | apply keptR_fault | apply keptR_ite | apply kept_ite | apply kept_ite1 | apply Memory.wf_put | apply Memory.wf_putByte | apply Memory.wf_fail | apply Memory.wf_zero | apply Memory.wf_poison | apply Memory.wf_unpoison | apply Memory.wf_mark | apply Memory.wf_writeLine | apply Memory.wf_foldl | apply Memory.wf_settle | apply Memory.wf_failMany
    | with_reducible (refine Kept.upd rfl ?_; first | assumption | apply kept_onInstr | apply kept_updRun | apply kept_chanFlush | apply kept_each | apply kept_foldl | apply kept_foldl1 | apply kept_ite | apply kept_ite1 | refine kept_ofP ?_ (by assumption))
    | with_reducible (refine Kept.updMem rfl ?_ ?_; rotate_left; first | assumption | apply kept_onInstr | apply kept_updRun | apply kept_chanFlush | apply kept_each | apply kept_foldl | apply kept_foldl1 | apply kept_ite | apply kept_ite1 | refine kept_ofP ?_ (by assumption))
    | refine kept_ofP ?_ (by assumption)
    | split

theorem keptR_execMove {fz o} {a0 a1 s} (h : Kept fz o s) :
    KeptR fz o (execMove a0 a1 s) := by
  unfold execMove
  try dsimp only
  repeat' first
    | with_reducible assumption
    | intro _
    | dsimp only
    | with_reducible first | apply kept_settleRun | apply kept_onInstr | apply kept_stepCur | apply kept_updStat | apply kept_badExec | apply kept_updRun | apply kept_each | apply kept_foldl | apply kept_foldl1 | apply keptR_next | apply keptR_fault | apply keptR_ite | apply kept_ite | apply kept_ite1 | apply Memory.wf_put | apply Memory.wf_putByte | apply Memory.wf_fail | apply Memory.wf_zero | apply Memory.wf_poison | apply Memory.wf_unpoison | apply Memory.wf_mark | apply Memory.wf_writeLine | apply Memory.wf_foldl | apply Memory.wf_settle | apply Memory.wf_failMany
    | with_reducible (refine Kept.upd rfl ?_; first | assumption | apply kept_settleRun | apply kept_onInstr | apply kept_stepCur | apply kept_updStat | apply kept_badExec | apply kept_updRun | apply kept_each | apply kept_foldl | apply kept_foldl1 | apply kept_ite | apply kept_ite1)
    | with_reducible (refine Kept.updMem rfl ?_ ?_; rotate_left; first | assumption | apply kept_settleRun | apply kept_onInstr | apply kept_stepCur | apply kept_updStat | apply kept_badExec | apply kept_updRun | apply kept_each | apply kept_foldl | apply kept_foldl1 | apply kept_ite | apply kept_ite1)
    | split

theorem kept_waitMet {fz o} {s a1} (h : Kept fz o s) :
    Kept fz o (waitMet s a1) := by
  unfold waitMet
  try dsimp only
  repeat' first
    | with_reducible assumption
    | intro _
    | dsimp only
    | with_reducible first | apply kept_updChan

theorem kept_stopRun {fz o} {a0 s a2} (h : Kept fz o s) :
    Kept fz o (stopRun a0 s a2) := by
  unfold stopRun
  try dsimp only
  repeat' first
    | with_reducible assumption
    | intro _
    | dsimp only
    | with_reducible first | apply kept_updRun | apply kept_failRun | apply kept_each | apply kept_foldl | apply kept_foldl1 | apply kept_ite | apply kept_ite1 | apply Memory.wf_put | apply Memory.wf_putByte | apply Memory.wf_fail | apply Memory.wf_zero | apply Memory.wf_poison | apply Memory.wf_unpoison | apply Memory.wf_mark | apply Memory.wf_writeLine | apply Memory.wf_foldl | apply Memory.wf_settle | apply Memory.wf_failMany
    | with_reducible (refine Kept.upd rfl ?_; first | assumption | apply kept_updRun | apply kept_failRun | apply kept_each | apply kept_foldl | apply kept_foldl1 | apply kept_ite | apply kept_ite1)
    | with_reducible (refine Kept.updMem rfl ?_ ?_; rotate_left; first | assumption | apply kept_updRun | apply kept_failRun | apply kept_each | apply kept_foldl | apply kept_foldl1 | apply kept_ite | apply kept_ite1)
    | split

theorem kept_setSignal {fz o} {s a1 a2 a3 a4} (h : Kept fz o s) :
    Kept fz o (setSignal s a1 a2 a3 a4) := by
  unfold setSignal
  try dsimp only
  repeat' first
    | with_reducible assumption
    | intro _
    | dsimp only
    | with_reducible first | apply keptS_mvSend | apply kept_updRun | apply kept_failRun | apply keptA_objGet | apply keptA_signalIn | apply kept_runAct | apply kept_stopRun | apply kept_each | apply kept_foldl | apply kept_foldl1 | apply keptA_pure | apply keptA_bind_get | apply keptA_bind | apply keptA_modify | apply keptA_throw | apply keptA_get | apply keptA_set | apply keptA_ite | apply keptA_act | apply kept_endOk | apply kept_endError | apply kept_endIte | apply kept_ite | apply kept_ite1 | apply Memory.wf_put | apply Memory.wf_putByte | apply Memory.wf_fail | apply Memory.wf_zero | apply Memory.wf_poison | apply Memory.wf_unpoison | apply Memory.wf_mark | apply Memory.wf_writeLine | apply Memory.wf_foldl | apply Memory.wf_settle | apply Memory.wf_failMany
    | with_reducible (refine Kept.upd rfl ?_; first | assumption | apply keptS_mvSend | apply kept_updRun | apply kept_failRun | apply keptA_objGet | apply keptA_signalIn | apply kept_runAct | apply kept_stopRun | apply kept_each | apply kept_foldl | apply kept_foldl1 | apply kept_ite | apply kept_ite1 | refine keptA_ok ?_ ?_ (by assumption) | refine keptA_error ?_ ?_ (by assumption) | refine kept_ofS ?_ (by assumption))
    | with_reducible (refine Kept.updMem rfl ?_ ?_; rotate_left; first | assumption | apply keptS_mvSend | apply kept_updRun | apply kept_failRun | apply keptA_objGet | apply keptA_signalIn | apply kept_runAct | apply kept_stopRun | apply kept_each | apply kept_foldl | apply kept_foldl1 | apply kept_ite | apply kept_ite1 | refine keptA_ok ?_ ?_ (by assumption) | refine keptA_error ?_ ?_ (by assumption) | refine kept_ofS ?_ (by assumption))
    | refine keptA_ok ?_ ?_ (by assumption)
    | refine keptA_error ?_ ?_ (by assumption)
    | refine kept_ofS ?_ (by assumption)
    | split

theorem keptA_eventValue {fz o} {a0 a1 a2 a3}  :
    KeptA fz o (eventValue a0 a1 a2 a3) := by
  unfold eventValue
  try dsimp only
  repeat' first
    | with_reducible assumption
    | intro _
    | dsimp only
    | with_reducible first | apply keptA_homeGet | apply kept_each | apply kept_foldl | apply kept_foldl1 | apply keptA_pure | apply keptA_bind_get | apply keptA_bind | apply keptA_modify | apply keptA_throw | apply keptA_get | apply keptA_set | apply keptA_ite | apply keptA_act | apply kept_endOk | apply kept_endError | apply kept_endIte | apply kept_ite | apply kept_ite1 | apply Memory.wf_put | apply Memory.wf_putByte | apply Memory.wf_fail | apply Memory.wf_zero | apply Memory.wf_poison | apply Memory.wf_unpoison | apply Memory.wf_mark | apply Memory.wf_writeLine | apply Memory.wf_foldl | apply Memory.wf_settle | apply Memory.wf_failMany
    | with_reducible (refine Kept.upd rfl ?_; first | assumption | apply keptA_homeGet | apply kept_each | apply kept_foldl | apply kept_foldl1 | apply kept_ite | apply kept_ite1 | refine keptA_ok ?_ ?_ (by assumption) | refine keptA_error ?_ ?_ (by assumption))
    | with_reducible (refine Kept.updMem rfl ?_ ?_; rotate_left; first | assumption | apply keptA_homeGet | apply kept_each | apply kept_foldl | apply kept_foldl1 | apply kept_ite | apply kept_ite1 | refine keptA_ok ?_ ?_ (by assumption) | refine keptA_error ?_ ?_ (by assumption))
    | refine keptA_ok ?_ ?_ (by assumption)
    | refine keptA_error ?_ ?_ (by assumption)
    | split
    | refine keptA_fun ?_
    | with_reducible apply KeptA.ends

theorem keptR_execChannelWaitTimeout {fz o} {a0 s} (h : Kept fz o s) :
    KeptR fz o (execChannelWaitTimeout a0 s) := by
  unfold execChannelWaitTimeout
  try dsimp only
  repeat' first
    | with_reducible assumption
    | intro _
    | dsimp only
    | with_reducible first | apply kept_runAct | apply keptA_eventValue | apply kept_reach | apply kept_settleRun | apply kept_waitMet | apply kept_failRun | apply kept_each | apply kept_foldl | apply kept_foldl1 | apply keptA_pure | apply keptA_bind_get | apply keptA_bind | apply keptA_modify | apply keptA_throw | apply keptA_get | apply keptA_set | apply keptA_ite | apply keptA_act | apply kept_endOk | apply kept_endError | apply kept_endIte | apply keptR_next | apply keptR_fault | apply keptR_ite | apply kept_ite | apply kept_ite1
    | with_reducible (refine Kept.upd rfl ?_; first | assumption | apply kept_runAct | apply keptA_eventValue | apply kept_reach | apply kept_settleRun | apply kept_waitMet | apply kept_failRun | apply kept_each | apply kept_foldl | apply kept_foldl1 | apply kept_ite | apply kept_ite1 | refine keptA_ok ?_ ?_ (by assumption) | refine keptA_error ?_ ?_ (by assumption))
    | refine keptA_ok ?_ ?_ (by assumption)
    | refine keptA_error ?_ ?_ (by assumption)
    | split
    | refine keptA_fun ?_
    | with_reducible apply KeptA.ends

theorem kept_chanEval {fz o} {s a1 a2} (h : Kept fz o s) :
    Kept fz o (chanEval s a1 a2) := by
  unfold chanEval
  try dsimp only
  repeat' first
    | with_reducible assumption
    | intro _
    | dsimp only
    | with_reducible first | apply kept_runAct | apply keptA_eventValue | apply kept_waitMet | apply kept_stopRun | apply kept_each | apply kept_foldl | apply kept_foldl1 | apply keptA_pure | apply keptA_bind_get | apply keptA_bind | apply keptA_modify | apply keptA_throw | apply keptA_get | apply keptA_set | apply keptA_ite | apply keptA_act | apply kept_endOk | apply kept_endError | apply kept_endIte | apply kept_ite | apply kept_ite1 | apply Memory.wf_put | apply Memory.wf_putByte | apply Memory.wf_fail | apply Memory.wf_zero | apply Memory.wf_poison | apply Memory.wf_unpoison | apply Memory.wf_mark | apply Memory.wf_writeLine | apply Memory.wf_foldl | apply Memory.wf_settle | apply Memory.wf_failMany
    | with_reducible (refine Kept.upd rfl ?_; first | assumption | apply kept_runAct | apply keptA_eventValue | apply kept_waitMet | apply kept_stopRun | apply kept_each | apply kept_foldl | apply kept_foldl1 | apply kept_ite | apply kept_ite1 | refine keptA_ok ?_ ?_ (by assumption) | refine keptA_error ?_ ?_ (by assumption))
    | with_reducible (refine Kept.updMem rfl ?_ ?_; rotate_left; first | assumption | apply kept_runAct | apply keptA_eventValue | apply kept_waitMet | apply kept_stopRun | apply kept_each | apply kept_foldl | apply kept_foldl1 | apply kept_ite | apply kept_ite1 | refine keptA_ok ?_ ?_ (by assumption) | refine keptA_error ?_ ?_ (by assumption))
    | refine keptA_ok ?_ ?_ (by assumption)
    | refine keptA_error ?_ ?_ (by assumption)
    | split
    | refine keptA_fun ?_
    | with_reducible apply KeptA.ends

theorem keptR_execChannelNop {fz o} {a0 s} (h : Kept fz o s) :
    KeptR fz o (execChannelNop a0 s) := by
  unfold execChannelNop
  try dsimp only
  repeat' first
    | with_reducible assumption
    | intro _
    | dsimp only
    | with_reducible first | apply kept_onInstr | apply kept_updRun | apply kept_each | apply kept_foldl | apply kept_foldl1 | apply keptR_next

theorem keptR_execEndloop {fz o} {a0 s} (h : Kept fz o s) :
    KeptR fz o (execEndloop a0 s) := by
  unfold execEndloop
  try dsimp only
  repeat' first
    | with_reducible assumption
    | intro _
    | dsimp only
    | with_reducible first | apply kept_onInstr | apply kept_updRun | apply kept_each | apply kept_foldl | apply kept_foldl1 | apply keptR_next | apply keptR_fault | apply keptR_ite | apply kept_ite | apply kept_ite1 | apply Memory.wf_put | apply Memory.wf_putByte | apply Memory.wf_fail | apply Memory.wf_zero | apply Memory.wf_poison | apply Memory.wf_unpoison | apply Memory.wf_mark | apply Memory.wf_writeLine | apply Memory.wf_foldl | apply Memory.wf_settle | apply Memory.wf_failMany
    | with_reducible (refine Kept.upd rfl ?_; first | assumption | apply kept_onInstr | apply kept_updRun | apply kept_each | apply kept_foldl | apply kept_foldl1 | apply kept_ite | apply kept_ite1)
    | with_reducible (refine Kept.updMem rfl ?_ ?_; rotate_left; first | assumption | apply kept_onInstr | apply kept_updRun | apply kept_each | apply kept_foldl | apply kept_foldl1 | apply kept_ite | apply kept_ite1)
    | split

theorem kept_chanAck {fz o} {s a1 a2 a3} (h : Kept fz o s) :
    Kept fz o (chanAck s a1 a2 a3) := by
  unfold chanAck
  try dsimp only
  repeat' first
    | with_reducible assumption
    | intro _
    | dsimp only
    | with_reducible first | apply kept_updRun | apply kept_settleRun | apply kept_doneExec | apply kept_each | apply kept_foldl | apply kept_foldl1 | apply kept_ite | apply kept_ite1 | apply Memory.wf_put | apply Memory.wf_putByte | apply Memory.wf_fail | apply Memory.wf_zero | apply Memory.wf_poison | apply Memory.wf_unpoison | apply Memory.wf_mark | apply Memory.wf_writeLine | apply Memory.wf_foldl | apply Memory.wf_settle | apply Memory.wf_failMany
    | with_reducible (refine Kept.upd rfl ?_; first | assumption | apply kept_updRun | apply kept_settleRun | apply kept_doneExec | apply kept_each | apply kept_foldl | apply kept_foldl1 | apply kept_ite | apply kept_ite1)
    | with_reducible (refine Kept.updMem rfl ?_ ?_; rotate_left; first | assumption | apply kept_updRun | apply kept_settleRun | apply kept_doneExec | apply kept_each | apply kept_foldl | apply kept_foldl1 | apply kept_ite | apply kept_ite1)
    | split

theorem kept_chanFlushed {fz o} {s a1 a2 a3 a4} (h : Kept fz o s) :
    Kept fz o (chanFlushed s a1 a2 a3 a4) := by
  unfold chanFlushed
  try dsimp only
  repeat' first
    | with_reducible assumption
    | intro _
    | dsimp only
    | with_reducible first | apply kept_updRun | apply kept_markBad | apply kept_failRun | apply kept_settleRun | apply kept_each | apply kept_foldl | apply kept_foldl1 | apply kept_ite | apply kept_ite1 | apply Memory.wf_put | apply Memory.wf_putByte | apply Memory.wf_fail | apply Memory.wf_zero | apply Memory.wf_poison | apply Memory.wf_unpoison | apply Memory.wf_mark | apply Memory.wf_writeLine | apply Memory.wf_foldl | apply Memory.wf_settle | apply Memory.wf_failMany
    | with_reducible (refine Kept.upd rfl ?_; first | assumption | apply kept_updRun | apply kept_markBad | apply kept_failRun | apply kept_settleRun | apply kept_each | apply kept_foldl | apply kept_foldl1 | apply kept_ite | apply kept_ite1)
    | with_reducible (refine Kept.updMem rfl ?_ ?_; rotate_left; first | assumption | apply kept_updRun | apply kept_markBad | apply kept_failRun | apply kept_settleRun | apply kept_each | apply kept_foldl | apply kept_foldl1 | apply kept_ite | apply kept_ite1)
    | split

theorem kept_chanLost {fz o} {s a1 a2 a3 a4} (h : Kept fz o s) :
    Kept fz o (chanLost s a1 a2 a3 a4) := by
  unfold chanLost
  try dsimp only
  repeat' first
    | with_reducible assumption
    | intro _
    | dsimp only
    | with_reducible first | apply kept_failRun | apply kept_badExec | apply kept_updRun | apply kept_stepCur | apply kept_settleRun | apply kept_each | apply kept_foldl | apply kept_foldl1 | apply kept_ite | apply kept_ite1 | apply Memory.wf_put | apply Memory.wf_putByte | apply Memory.wf_fail | apply Memory.wf_zero | apply Memory.wf_poison | apply Memory.wf_unpoison | apply Memory.wf_mark | apply Memory.wf_writeLine | apply Memory.wf_foldl | apply Memory.wf_settle | apply Memory.wf_failMany
    | with_reducible (refine Kept.upd rfl ?_; first | assumption | apply kept_failRun | apply kept_badExec | apply kept_updRun | apply kept_stepCur | apply kept_settleRun | apply kept_each | apply kept_foldl | apply kept_foldl1 | apply kept_ite | apply kept_ite1)
    | with_reducible (refine Kept.updMem rfl ?_ ?_; rotate_left; first | assumption | apply kept_failRun | apply kept_badExec | apply kept_updRun | apply kept_stepCur | apply kept_settleRun | apply kept_each | apply kept_foldl | apply kept_foldl1 | apply kept_ite | apply kept_ite1)
    | split

theorem keptA_copyAct {fz o} {a0 a1}  :
    KeptA fz o (copyAct a0 a1) := by
  unfold copyAct
  try dsimp only
  repeat' first
    | with_reducible assumption
    | intro _
    | dsimp only
    | with_reducible first | apply keptA_need | apply keptA_queueRun | apply keptA_failWith | apply kept_each | apply kept_foldl | apply kept_foldl1 | apply keptA_pure | apply keptA_bind_get | apply keptA_bind | apply keptA_modify | apply keptA_throw | apply keptA_get | apply keptA_set | apply keptA_ite | apply keptA_act | apply kept_endOk | apply kept_endError | apply kept_endIte | apply kept_ite | apply kept_ite1 | apply Memory.wf_put | apply Memory.wf_putByte | apply Memory.wf_fail | apply Memory.wf_zero | apply Memory.wf_poison | apply Memory.wf_unpoison | apply Memory.wf_mark | apply Memory.wf_writeLine | apply Memory.wf_foldl | apply Memory.wf_settle | apply Memory.wf_failMany
    | with_reducible (refine Kept.upd rfl ?_; first | assumption | apply keptA_need | apply keptA_queueRun | apply keptA_failWith | apply kept_each | apply kept_foldl | apply kept_foldl1 | apply kept_ite | apply kept_ite1 | refine keptA_ok ?_ ?_ (by assumption) | refine keptA_error ?_ ?_ (by assumption))
    | with_reducible (refine Kept.updMem rfl ?_ ?_; rotate_left; first | assumption | apply keptA_need | apply keptA_queueRun | apply keptA_failWith | apply kept_each | apply kept_foldl | apply kept_foldl1 | apply kept_ite | apply kept_ite1 | refine keptA_ok ?_ ?_ (by assumption) | refine keptA_error ?_ ?_ (by assumption))
    | refine keptA_ok ?_ ?_ (by assumption)
    | refine keptA_error ?_ ?_ (by assumption)
    | split

theorem keptR_execCopy {fz o} {a0 s} (h : Kept fz o s) :
    KeptR fz o (execCopy a0 s) := by
  unfold execCopy
  try dsimp only
  repeat' first
    | with_reducible assumption
    | intro _
    | dsimp only
    | with_reducible first | apply kept_runCmd | apply keptA_copyAct | apply kept_each | apply kept_foldl | apply kept_foldl1 | apply keptA_pure | apply keptA_bind_get | apply keptA_bind | apply keptA_modify | apply keptA_throw | apply keptA_get | apply keptA_set | apply keptA_ite | apply keptA_act | apply kept_endOk | apply kept_endError | apply kept_endIte | apply keptR_next

theorem kept_killRun {fz o} {s a1} (h : Kept fz o s) :
    Kept fz o (killRun s a1) := by
  unfold killRun
  try dsimp only
  repeat' first
    | with_reducible assumption
    | intro _
    | dsimp only
    | with_reducible first | apply kept_updCmd | apply kept_endCmd | apply kept_updChan | apply kept_each | apply kept_foldl | apply kept_foldl1 | apply kept_ite | apply kept_ite1 | apply Memory.wf_put | apply Memory.wf_putByte | apply Memory.wf_fail | apply Memory.wf_zero | apply Memory.wf_poison | apply Memory.wf_unpoison | apply Memory.wf_mark | apply Memory.wf_writeLine | apply Memory.wf_foldl | apply Memory.wf_settle | apply Memory.wf_failMany
    | with_reducible (refine Kept.upd rfl ?_; first | assumption | apply kept_updCmd | apply kept_endCmd | apply kept_updChan | apply kept_each | apply kept_foldl | apply kept_foldl1 | apply kept_ite | apply kept_ite1)
    | with_reducible (refine Kept.updMem rfl ?_ ?_; rotate_left; first | assumption | apply kept_updCmd | apply kept_endCmd | apply kept_updChan | apply kept_each | apply kept_foldl | apply kept_foldl1 | apply kept_ite | apply kept_ite1)
    | split

theorem kept_chanData {fz o} {s a1 a2 a3 a4} (h : Kept fz o s) :
    Kept fz o (chanData s a1 a2 a3 a4) := by
  unfold chanData
  try dsimp only
  repeat' first
    | with_reducible assumption
    | intro _
    | dsimp only
    | with_reducible first | apply kept_settleRun | apply kept_stepCur | apply kept_updRun

theorem kept_abortRun {fz o} {s a1 a2} (h : Kept fz o s) :
    Kept fz o (abortRun s a1 a2) := by
  unfold abortRun
  try dsimp only
  repeat' first
    | with_reducible assumption
    | intro _
    | dsimp only
    | with_reducible first | apply kept_updStat | apply kept_updChan | apply kept_settleRun | apply kept_each | apply kept_foldl | apply kept_foldl1 | apply kept_ite | apply kept_ite1 | apply Memory.wf_put | apply Memory.wf_putByte | apply Memory.wf_fail | apply Memory.wf_zero | apply Memory.wf_poison | apply Memory.wf_unpoison | apply Memory.wf_mark | apply Memory.wf_writeLine | apply Memory.wf_foldl | apply Memory.wf_settle | apply Memory.wf_failMany
    | with_reducible (refine Kept.upd rfl ?_; first | assumption | apply kept_updStat | apply kept_updChan | apply kept_settleRun | apply kept_each | apply kept_foldl | apply kept_foldl1 | apply kept_ite | apply kept_ite1)
    | with_reducible (refine Kept.updMem rfl ?_ ?_; rotate_left; first | assumption | apply kept_updStat | apply kept_updChan | apply kept_settleRun | apply kept_each | apply kept_foldl | apply kept_foldl1 | apply kept_ite | apply kept_ite1)
    | split

theorem keptR_execChannelSignalSet {fz o} {a0 a1 s} (h : Kept fz o s) :
    KeptR fz o (execChannelSignalSet a0 a1 s) := by
  unfold execChannelSignalSet
  try dsimp only
  repeat' first
    | with_reducible assumption
    | intro _
    | dsimp only
    | with_reducible first | apply kept_statStep | apply kept_settleRun | apply kept_failRun | apply kept_updRun | apply kept_setSignal | apply kept_each | apply kept_foldl | apply kept_foldl1 | apply keptR_next | apply keptR_fault | apply keptR_ite | apply kept_ite | apply kept_ite1 | apply Memory.wf_put | apply Memory.wf_putByte | apply Memory.wf_fail | apply Memory.wf_zero | apply Memory.wf_poison | apply Memory.wf_unpoison | apply Memory.wf_mark | apply Memory.wf_writeLine | apply Memory.wf_foldl | apply Memory.wf_settle | apply Memory.wf_failMany
    | with_reducible (refine Kept.upd rfl ?_; first | assumption | apply kept_statStep | apply kept_settleRun | apply kept_failRun | apply kept_updRun | apply kept_setSignal | apply kept_each | apply kept_foldl | apply kept_foldl1 | apply kept_ite | apply kept_ite1 | refine kept_ofP ?_ (by assumption))
    | with_reducible (refine Kept.updMem rfl ?_ ?_; rotate_left; first | assumption | apply kept_statStep | apply kept_settleRun | apply kept_failRun | apply kept_updRun | apply kept_setSignal | apply kept_each | apply kept_foldl | apply kept_foldl1 | apply kept_ite | apply kept_ite1 | refine kept_ofP ?_ (by assumption))
    | refine kept_ofP ?_ (by assumption)
    | split

theorem keptR_execChannelWait {fz o} {a0 a1 s} (h : Kept fz o s) :
    KeptR fz o (execChannelWait a0 a1 s) := by
  unfold execChannelWait
  try dsimp only
  repeat' first
    | with_reducible assumption
    | intro _
    | dsimp only
    | with_reducible first | apply kept_failRun | apply kept_settleRun | apply kept_onInstr | apply keptA_objGet | apply keptA_trAct | apply keptA_eventValue | apply kept_runAct | apply kept_waitMet | apply kept_updChan | apply kept_stopRun | apply kept_each | apply kept_foldl | apply kept_foldl1 | apply keptA_pure | apply keptA_bind_get | apply keptA_bind | apply keptA_modify | apply keptA_throw | apply keptA_get | apply keptA_set | apply keptA_ite | apply keptA_act | apply kept_endOk | apply kept_endError | apply kept_endIte | apply keptR_next | apply keptR_fault | apply keptR_ite | apply kept_ite | apply kept_ite1 | apply Memory.wf_put | apply Memory.wf_putByte | apply Memory.wf_fail | apply Memory.wf_zero | apply Memory.wf_poison | apply Memory.wf_unpoison | apply Memory.wf_mark | apply Memory.wf_writeLine | apply Memory.wf_foldl | apply Memory.wf_settle | apply Memory.wf_failMany
    | with_reducible (refine Kept.upd rfl ?_; first | assumption | apply kept_settleRun | apply kept_onInstr | apply keptA_objGet | apply keptA_trAct | apply keptA_eventValue | apply kept_runAct | apply kept_waitMet | apply kept_updChan | apply kept_stopRun | apply kept_each | apply kept_foldl | apply kept_foldl1 | apply kept_ite | apply kept_ite1 | refine keptA_ok ?_ ?_ (by assumption) | refine keptA_error ?_ ?_ (by assumption))
    | with_reducible (refine Kept.updMem rfl ?_ ?_; rotate_left; first | assumption | apply kept_settleRun | apply kept_onInstr | apply keptA_objGet | apply keptA_trAct | apply keptA_eventValue | apply kept_runAct | apply kept_waitMet | apply kept_updChan | apply kept_stopRun | apply kept_each | apply kept_foldl | apply kept_foldl1 | apply kept_ite | apply kept_ite1 | refine keptA_ok ?_ ?_ (by assumption) | refine keptA_error ?_ ?_ (by assumption))
    | refine keptA_ok ?_ ?_ (by assumption)
    | refine keptA_error ?_ ?_ (by assumption)
    | split
    | refine keptA_fun ?_
    | with_reducible apply KeptA.ends

theorem keptR_execRunChannel {fz o} {a0 a1 s} (h : Kept fz o s) :
    KeptR fz o (execRunChannel a0 a1 s) := by
  unfold execRunChannel
  try dsimp only
  repeat' first
    | with_reducible assumption
    | intro _
    | dsimp only
    | with_reducible first | apply kept_runCmd | apply keptA_runChannelAct | apply kept_each | apply kept_foldl | apply kept_foldl1 | apply keptA_pure | apply keptA_bind_get | apply keptA_bind | apply keptA_modify | apply keptA_throw | apply keptA_get | apply keptA_set | apply keptA_ite | apply keptA_act | apply kept_endOk | apply kept_endError | apply kept_endIte | apply keptR_next

theorem kept_chanSignalled {fz o} {s a1 a2 a3 a4} (h : Kept fz o s) :
    Kept fz o (chanSignalled s a1 a2 a3 a4) := by
  unfold chanSignalled
  try dsimp only
  repeat' first
    | with_reducible assumption
    | intro _
    | dsimp only
    | with_reducible first | apply kept_staleSignal | apply kept_settleRun | apply kept_updRun | apply kept_each | apply kept_foldl | apply kept_foldl1 | apply kept_ite | apply kept_ite1 | apply Memory.wf_put | apply Memory.wf_putByte | apply Memory.wf_fail | apply Memory.wf_zero | apply Memory.wf_poison | apply Memory.wf_unpoison | apply Memory.wf_mark | apply Memory.wf_writeLine | apply Memory.wf_foldl | apply Memory.wf_settle | apply Memory.wf_failMany
    | with_reducible (refine Kept.upd rfl ?_; first | assumption | apply kept_staleSignal | apply kept_settleRun | apply kept_updRun | apply kept_each | apply kept_foldl | apply kept_foldl1 | apply kept_ite | apply kept_ite1)
    | with_reducible (refine Kept.updMem rfl ?_ ?_; rotate_left; first | assumption | apply kept_staleSignal | apply kept_settleRun | apply kept_updRun | apply kept_each | apply kept_foldl | apply kept_foldl1 | apply kept_ite | apply kept_ite1)
    | split

end Sys2Proof.Machine
end

