-- ==== Sys2Proof/Laws/KeptRemote.lean ====
section
/-! SUPPORT. What the definitions of Machine/Remote.lean keep (`Kept`). -/

namespace Sys2Proof.Machine

theorem keptA_remoteSignalAct {fz o} {a0 a1}  :
    KeptA fz o (remoteSignalAct a0 a1) := by
  unfold remoteSignalAct
  try dsimp only
  repeat' first
    | with_reducible assumption
    | intro _
    | dsimp only
    | with_reducible first | apply keptA_need | apply keptS_sendRequest | apply kept_updCmd | apply keptA_failWith | apply kept_each | apply kept_foldl | apply kept_foldl1 | apply keptA_pure | apply keptA_bind_get | apply keptA_bind | apply keptA_modify | apply keptA_throw | apply keptA_get | apply keptA_set | apply keptA_ite | apply keptA_act | apply kept_endOk | apply kept_endError | apply kept_endIte | apply kept_ite | apply kept_ite1
    | with_reducible (refine Kept.upd rfl ?_; first | assumption | apply keptA_need | apply keptS_sendRequest | apply kept_updCmd | apply keptA_failWith | apply kept_each | apply kept_foldl | apply kept_foldl1 | apply kept_ite | apply kept_ite1 | refine keptA_ok ?_ ?_ (by assumption) | refine keptA_error ?_ ?_ (by assumption) | refine kept_ofS ?_ (by assumption))
    | refine keptA_ok ?_ ?_ (by assumption)
    | refine keptA_error ?_ ?_ (by assumption)
    | refine kept_ofS ?_ (by assumption)
    | split

theorem kept_late {fz o} {s} (h : Kept fz o s) :
    Kept fz o (late s) := by
  unfold late
  try dsimp only
  repeat' first
    | with_reducible assumption
    | intro _
    | dsimp only
    | with_reducible first | apply kept_each | apply kept_foldl | apply kept_foldl1 | apply kept_ite | apply kept_ite1
    | with_reducible (refine Kept.upd rfl ?_; first | assumption)

theorem keptR_onResponse {fz o} {s a1 a2 a3} (h : Kept fz o s) (h3 : ∀ x0 x1 x2 x3, Kept fz o x0 → KeptO fz o (a3 x0 x1 x2 x3)) :
    KeptR fz o (onResponse s a1 a2 a3) := by
  unfold onResponse
  try dsimp only
  repeat' first
    | with_reducible assumption
    | intro _
    | dsimp only
    | with_reducible first | apply kept_dropMsg | apply kept_late | apply kept_dropReq | apply h3 | apply keptO_none | apply keptO_some | apply keptO_ite | apply keptQ_none | apply keptQ_some | apply keptQ_ite | apply kept_each | apply kept_foldl | apply kept_foldl1 | apply keptR_next | apply keptR_fault | apply keptR_ite | apply kept_ite | apply kept_ite1
    | with_reducible (refine Kept.upd rfl ?_; first | assumption | apply kept_dropMsg | apply kept_late | apply kept_dropReq | apply h3 | apply kept_each | apply kept_foldl | apply kept_foldl1 | apply kept_ite | apply kept_ite1 | refine kept_ofO ?_ (by assumption) | refine kept_ofQ ?_ (by assumption))
    | refine kept_ofO ?_ (by assumption)
    | refine kept_ofQ ?_ (by assumption)
    | refine kept_ofQ1 ?_ (by assumption)
    | split

theorem kept_updRem {fz o} {s a1 a2} (h : Kept fz o s) :
    Kept fz o (updRem s a1 a2) := by
  unfold updRem
  try dsimp only
  repeat' first
    | with_reducible assumption
    | intro _
    | dsimp only
    | with_reducible first | apply kept_updCmd

theorem kept_cmdAck {fz o} {s a1 a2} (h : Kept fz o s) :
    Kept fz o (cmdAck s a1 a2) := by
  unfold cmdAck
  try dsimp only
  repeat' first
    | with_reducible assumption
    | intro _
    | dsimp only
    | with_reducible first | apply kept_updRem | apply kept_endCmd | apply kept_each | apply kept_foldl | apply kept_foldl1 | apply kept_ite | apply kept_ite1
    | with_reducible (refine Kept.upd rfl ?_; first | assumption | apply kept_updRem | apply kept_endCmd | apply kept_each | apply kept_foldl | apply kept_foldl1 | apply kept_ite | apply kept_ite1)
    | split

theorem keptR_execAck {fz o} {a0 a1 s} (h : Kept fz o s) :
    KeptR fz o (execAck a0 a1 s) := by
  unfold execAck
  try dsimp only
  repeat' first
    | with_reducible assumption
    | intro _
    | dsimp only
    | with_reducible first | apply keptR_onResponse | apply kept_cmdAck | apply kept_endCmd | apply kept_staleSignal | apply kept_chanAck | apply kept_chanSignalled | apply keptO_none | apply keptO_some | apply keptO_ite | apply keptQ_none | apply keptQ_some | apply keptQ_ite | apply kept_each | apply kept_foldl | apply kept_foldl1 | apply keptR_next | apply keptR_fault | apply keptR_ite | apply kept_ite | apply kept_ite1
    | with_reducible (refine Kept.upd rfl ?_; first | assumption | apply keptR_onResponse | apply kept_cmdAck | apply kept_endCmd | apply kept_staleSignal | apply kept_chanAck | apply kept_chanSignalled | apply kept_each | apply kept_foldl | apply kept_foldl1 | apply kept_ite | apply kept_ite1)
    | split

theorem kept_servedFlushed {fz o} {s a1 a2} (h : Kept fz o s) :
    Kept fz o (servedFlushed s a1 a2) := by
  unfold servedFlushed
  try dsimp only
  repeat' first
    | with_reducible assumption
    | intro _
    | dsimp only
    | with_reducible first | apply kept_sendResponse | apply kept_nackServed | apply kept_each | apply kept_foldl | apply kept_foldl1 | apply kept_ite | apply kept_ite1
    | with_reducible (refine Kept.upd rfl ?_; first | assumption | apply kept_sendResponse | apply kept_nackServed | apply kept_each | apply kept_foldl | apply kept_foldl1 | apply kept_ite | apply kept_ite1)
    | split

theorem keptA_remFill {fz o} {a0 a1 a2 a3 a4}  :
    KeptA fz o (remFill a0 a1 a2 a3 a4) := by
  induction a4 with
  | zero =>
    unfold remFill
    try dsimp only
    repeat' first
      | with_reducible assumption
      | intro _
      | dsimp only
      | with_reducible first | apply kept_updRem | apply keptA_trAct | apply keptS_sendRequest | apply keptA_failWith | apply kept_memRead | apply kept_each | apply kept_foldl | apply kept_foldl1 | apply keptA_pure
  | succ n ih =>
    unfold remFill
    try dsimp only
    repeat' first
      | with_reducible assumption
      | intro _
      | dsimp only
      | with_reducible first | apply kept_updRem | apply keptA_trAct | apply keptS_sendRequest | apply keptA_failWith | apply kept_memRead | apply ih | apply kept_each | apply kept_foldl | apply kept_foldl1 | apply keptA_pure | apply keptA_bind_get | apply keptA_bind | apply keptA_modify | apply keptA_throw | apply keptA_get | apply keptA_set | apply keptA_ite | apply keptA_act | apply kept_endOk | apply kept_endError | apply kept_endIte | apply kept_ite | apply kept_ite1
      | with_reducible (refine Kept.upd rfl ?_; first | assumption | apply kept_updRem | apply keptA_trAct | apply keptS_sendRequest | apply keptA_failWith | apply kept_memRead | apply ih | apply kept_each | apply kept_foldl | apply kept_foldl1 | apply kept_ite | apply kept_ite1 | refine keptA_ok ?_ ?_ (by assumption) | refine keptA_error ?_ ?_ (by assumption) | refine kept_ofP ?_ (by assumption) | refine kept_ofS ?_ (by assumption))
      | refine keptA_ok ?_ ?_ (by assumption)
      | refine keptA_error ?_ ?_ (by assumption)
      | refine kept_ofP ?_ (by assumption)
      | refine kept_ofS ?_ (by assumption)
      | split

theorem keptR_onRequest {fz o} {s a1 a2 a3} (h : Kept fz o s) (h3 : ∀ x0, Kept fz o (a3 x0)) :
    KeptR fz o (onRequest s a1 a2 a3) := by
  unfold onRequest
  try dsimp only
  repeat' first
    | with_reducible assumption
    | intro _
    | dsimp only
    | with_reducible first | apply h3 | apply kept_each | apply kept_foldl | apply kept_foldl1 | apply keptR_next | apply keptR_fault | apply keptR_ite | apply kept_ite | apply kept_ite1
    | with_reducible (refine Kept.upd rfl ?_; first | assumption | apply h3 | apply kept_each | apply kept_foldl | apply kept_foldl1 | apply kept_ite | apply kept_ite1)
    | split

theorem kept_nackMsg {fz o} {s a1 a2} (h : Kept fz o s) :
    Kept fz o (nackMsg s a1 a2) := by
  unfold nackMsg
  try dsimp only
  repeat' first
    | with_reducible assumption
    | intro _
    | dsimp only
    | with_reducible first | apply kept_sendNack | apply kept_each | apply kept_foldl | apply kept_foldl1 | apply kept_ite | apply kept_ite1
    | with_reducible (refine Kept.upd rfl ?_; first | assumption | apply kept_sendNack | apply kept_each | apply kept_foldl | apply kept_foldl1 | apply kept_ite | apply kept_ite1)
    | split

theorem kept_servePool {fz o} {s a1 a2 a3 a4 a5} (h : Kept fz o s) :
    Kept fz o (servePool s a1 a2 a3 a4 a5) := by
  unfold servePool
  try dsimp only
  repeat' first
    | with_reducible assumption
    | intro _
    | dsimp only
    | with_reducible first | apply kept_dropMsg | apply kept_launchBag | apply kept_each | apply kept_foldl | apply kept_foldl1 | apply kept_ite | apply kept_ite1
    | with_reducible (refine Kept.upd rfl ?_; first | assumption | apply kept_dropMsg)

theorem keptA_poolTable {fz o} {a0 a1 a2}  :
    KeptA fz o (poolTable a0 a1 a2) := by
  unfold poolTable
  try dsimp only
  repeat' first
    | with_reducible assumption
    | intro _
    | dsimp only
    | with_reducible first | apply keptA_lookupHandle | apply keptA_need | apply keptA_vlineGet | apply keptA_failWith | apply keptA_vlinePut | apply kept_each | apply kept_foldl | apply kept_foldl1 | apply keptA_pure | apply keptA_bind_get | apply keptA_bind | apply keptA_modify | apply keptA_throw | apply keptA_get | apply keptA_set | apply keptA_ite

theorem kept_stopServed {fz o} {a0 a1 s a3} (h : Kept fz o s) :
    Kept fz o (stopServed a0 a1 s a3) := by
  unfold stopServed
  try dsimp only
  repeat' first
    | with_reducible assumption
    | intro _
    | dsimp only
    | with_reducible first | apply kept_nackMsg | apply kept_dropMsg | apply kept_each | apply kept_foldl | apply kept_foldl1 | apply kept_ite | apply kept_ite1
    | with_reducible (refine Kept.upd rfl ?_; first | assumption | apply kept_nackMsg | apply kept_dropMsg | apply kept_each | apply kept_foldl | apply kept_foldl1 | apply kept_ite | apply kept_ite1)
    | split

theorem keptR_execRemotePoolRequest {fz o} {a0 a1 s} (h : Kept fz o s) :
    KeptR fz o (execRemotePoolRequest a0 a1 s) := by
  unfold execRemotePoolRequest
  try dsimp only
  repeat' first
    | with_reducible assumption
    | intro _
    | dsimp only
    | with_reducible first | apply keptR_onRequest | apply kept_nackMsg | apply kept_dropMsg | apply kept_servePool | apply kept_runAct | apply keptA_poolTable | apply kept_stopServed | apply kept_each | apply kept_foldl | apply kept_foldl1 | apply keptA_pure | apply keptA_bind_get | apply keptA_bind | apply keptA_modify | apply keptA_throw | apply keptA_get | apply keptA_set | apply keptA_ite | apply keptA_act | apply kept_endOk | apply kept_endError | apply kept_endIte | apply keptR_next | apply keptR_fault | apply keptR_ite | apply kept_ite | apply kept_ite1
    | with_reducible (refine Kept.upd rfl ?_; first | assumption | apply keptR_onRequest | apply kept_nackMsg | apply kept_dropMsg | apply kept_servePool | apply kept_runAct | apply keptA_poolTable | apply kept_stopServed | apply kept_each | apply kept_foldl | apply kept_foldl1 | apply kept_ite | apply kept_ite1 | refine keptA_ok ?_ ?_ (by assumption) | refine keptA_error ?_ ?_ (by assumption))
    | refine keptA_ok ?_ ?_ (by assumption)
    | refine keptA_error ?_ ?_ (by assumption)
    | split

theorem keptA_remSend {fz o} {a0 a1 a2 a3}  :
    KeptA fz o (remSend a0 a1 a2 a3) := by
  induction a3 with
  | zero =>
    unfold remSend
    try dsimp only
    repeat' first
      | with_reducible assumption
      | intro _
      | dsimp only
      | with_reducible first | apply kept_updCmd | apply keptA_okCmd | apply keptA_remFill | apply keptS_sendRequest | apply kept_updRem | apply keptA_failWith | apply kept_each | apply kept_foldl | apply kept_foldl1 | apply keptA_pure
  | succ n ih =>
    unfold remSend
    try dsimp only
    repeat' first
      | with_reducible assumption
      | intro _
      | dsimp only
      | with_reducible first | apply kept_updCmd | apply keptA_okCmd | apply keptA_remFill | apply keptS_sendRequest | apply kept_updRem | apply keptA_failWith | apply ih | apply kept_each | apply kept_foldl | apply kept_foldl1 | apply keptA_pure | apply keptA_bind_get | apply keptA_bind | apply keptA_modify | apply keptA_throw | apply keptA_get | apply keptA_set | apply keptA_ite | apply keptA_act | apply kept_endOk | apply kept_endError | apply kept_endIte | apply kept_ite | apply kept_ite1
      | with_reducible (refine Kept.upd rfl ?_; first | assumption | apply kept_updCmd | apply keptA_okCmd | apply keptA_remFill | apply keptS_sendRequest | apply kept_updRem | apply keptA_failWith | apply ih | apply kept_each | apply kept_foldl | apply kept_foldl1 | apply kept_ite | apply kept_ite1 | refine keptA_ok ?_ ?_ (by assumption) | refine keptA_error ?_ ?_ (by assumption) | refine kept_ofS ?_ (by assumption))
      | refine keptA_ok ?_ ?_ (by assumption)
      | refine keptA_error ?_ ?_ (by assumption)
      | refine kept_ofS ?_ (by assumption)
      | split

theorem keptA_remoteWriteAct {fz o} {a0 a1 a2}  :
    KeptA fz o (remoteWriteAct a0 a1 a2) := by
  unfold remoteWriteAct
  try dsimp only
  repeat' first
    | with_reducible assumption
    | intro _
    | dsimp only
    | with_reducible first | apply keptA_remSend | apply keptA_need | apply kept_updCmd | apply kept_each | apply kept_foldl | apply kept_foldl1 | apply keptA_pure | apply keptA_bind_get | apply keptA_bind | apply keptA_modify | apply keptA_throw | apply keptA_get | apply keptA_set | apply keptA_ite

theorem keptR_execRemoteWrite {fz o} {a0 a1 s} (h : Kept fz o s) :
    KeptR fz o (execRemoteWrite a0 a1 s) := by
  unfold execRemoteWrite
  try dsimp only
  repeat' first
    | with_reducible assumption
    | intro _
    | dsimp only
    | with_reducible first | apply kept_runCmd | apply keptA_remoteWriteAct | apply kept_each | apply kept_foldl | apply kept_foldl1 | apply keptA_pure | apply keptA_bind_get | apply keptA_bind | apply keptA_modify | apply keptA_throw | apply keptA_get | apply keptA_set | apply keptA_ite | apply keptA_act | apply kept_endOk | apply kept_endError | apply kept_endIte | apply keptR_next

theorem keptR_execRemoteSignal {fz o} {a0 s} (h : Kept fz o s) :
    KeptR fz o (execRemoteSignal a0 s) := by
  unfold execRemoteSignal
  try dsimp only
  repeat' first
    | with_reducible assumption
    | intro _
    | dsimp only
    | with_reducible first | apply kept_runCmd | apply keptA_remoteSignalAct | apply kept_each | apply kept_foldl | apply kept_foldl1 | apply keptA_pure | apply keptA_bind_get | apply keptA_bind | apply keptA_modify | apply keptA_throw | apply keptA_get | apply keptA_set | apply keptA_ite | apply keptA_act | apply kept_endOk | apply kept_endError | apply kept_endIte | apply keptR_next

theorem kept_reqLost {fz o} {s a1 a2 a3} (h : Kept fz o s) :
    Kept fz o (reqLost s a1 a2 a3) := by
  unfold reqLost
  try dsimp only
  repeat' first
    | with_reducible assumption
    | intro _
    | dsimp only
    | with_reducible first | apply kept_endCmd | apply kept_chanLost | apply kept_bagFail | apply kept_each | apply kept_foldl | apply kept_foldl1 | apply kept_ite | apply kept_ite1
    | with_reducible (refine Kept.upd rfl ?_; first | assumption | apply kept_endCmd | apply kept_chanLost | apply kept_bagFail | apply kept_each | apply kept_foldl | apply kept_foldl1 | apply kept_ite | apply kept_ite1)
    | split

theorem kept_failReqs {fz o} {s a1 a2} (h : Kept fz o s) :
    Kept fz o (failReqs s a1 a2) := by
  unfold failReqs
  try dsimp only
  repeat' first
    | with_reducible assumption
    | intro _
    | dsimp only
    | with_reducible first | apply kept_reqLost | apply kept_each | apply kept_foldl | apply kept_foldl1 | apply kept_ite | apply kept_ite1
    | with_reducible (refine Kept.upd rfl ?_; first | assumption)

theorem keptA_signalHere {fz o} {a0 a1 a2}  :
    KeptA fz o (signalHere a0 a1 a2) := by
  unfold signalHere
  try dsimp only
  repeat' first
    | with_reducible assumption
    | intro _
    | dsimp only
    | with_reducible first | apply keptA_lookupHandle | apply keptA_trAct | apply keptA_homeSwap | apply kept_note | apply kept_each | apply kept_foldl | apply kept_foldl1 | apply keptA_pure | apply keptA_bind_get | apply keptA_bind | apply keptA_modify | apply keptA_throw | apply keptA_get | apply keptA_set | apply keptA_ite

theorem keptR_execRemoteSignalRequest {fz o} {a0 a1 s} (h : Kept fz o s) :
    KeptR fz o (execRemoteSignalRequest a0 a1 s) := by
  unfold execRemoteSignalRequest
  try dsimp only
  repeat' first
    | with_reducible assumption
    | intro _
    | dsimp only
    | with_reducible first | apply keptR_onRequest | apply kept_nackMsg | apply kept_dropMsg | apply kept_runAct | apply keptA_signalHere | apply kept_sendResponse | apply kept_stopServed | apply kept_each | apply kept_foldl | apply kept_foldl1 | apply keptA_pure | apply keptA_bind_get | apply keptA_bind | apply keptA_modify | apply keptA_throw | apply keptA_get | apply keptA_set | apply keptA_ite | apply keptA_act | apply kept_endOk | apply kept_endError | apply kept_endIte | apply keptR_next | apply keptR_fault | apply keptR_ite | apply kept_ite

theorem kept_serveHost {fz o} {s a1 a2} (h : Kept fz o s) :
    Kept fz o (serveHost s a1 a2) := by
  unfold serveHost
  try dsimp only
  repeat' first
    | with_reducible assumption
    | intro _
    | dsimp only
    | with_reducible first | apply kept_nackMsg | apply kept_dropMsg | apply kept_hostWrite | apply kept_startFlush | apply kept_each | apply kept_foldl | apply kept_foldl1 | apply kept_ite | apply kept_ite1
    | with_reducible (refine Kept.upd rfl ?_; first | assumption | apply kept_nackMsg | apply kept_dropMsg | apply kept_hostWrite | refine kept_ofP ?_ (by assumption))

theorem keptR_execRemoteReadRequest {fz o} {a0 a1 s} (h : Kept fz o s) :
    KeptR fz o (execRemoteReadRequest a0 a1 s) := by
  unfold execRemoteReadRequest
  try dsimp only
  repeat' first
    | with_reducible assumption
    | intro _
    | dsimp only
    | with_reducible first | apply keptR_onRequest | apply kept_nackMsg | apply kept_dropMsg | apply kept_readPlan | apply kept_sendResponse | apply kept_each | apply kept_foldl | apply kept_foldl1 | apply keptR_next | apply keptR_fault | apply keptR_ite | apply kept_ite | apply kept_ite1
    | with_reducible (refine Kept.upd rfl ?_; first | assumption | apply keptR_onRequest | apply kept_nackMsg | apply kept_dropMsg | apply kept_readPlan | apply kept_sendResponse | apply kept_each | apply kept_foldl | apply kept_foldl1 | apply kept_ite | apply kept_ite1 | refine kept_ofP ?_ (by assumption))
    | refine kept_ofP ?_ (by assumption)
    | split

theorem keptR_execReadData {fz o} {a0 a1 s} (h : Kept fz o s) :
    KeptR fz o (execReadData a0 a1 s) := by
  unfold execReadData
  try dsimp only
  repeat' first
    | with_reducible assumption
    | intro _
    | dsimp only
    | with_reducible first | apply keptR_onResponse | apply kept_chanData | apply kept_updRem | apply keptO_none | apply keptO_some | apply keptO_ite | apply keptQ_none | apply keptQ_some | apply keptQ_ite | apply kept_each | apply kept_foldl | apply kept_foldl1 | apply keptR_next | apply keptR_fault | apply keptR_ite | apply kept_ite | apply kept_ite1
    | with_reducible (refine Kept.upd rfl ?_; first | assumption | apply keptR_onResponse | apply kept_chanData | apply kept_updRem | apply kept_each | apply kept_foldl | apply kept_foldl1 | apply kept_ite | apply kept_ite1)
    | split

theorem keptR_execRemotePatienceExpire {fz o} {a0 a1 a2 s} (h : Kept fz o s) :
    KeptR fz o (execRemotePatienceExpire a0 a1 a2 s) := by
  unfold execRemotePatienceExpire
  try dsimp only
  repeat' first
    | with_reducible assumption
    | intro _
    | dsimp only
    | with_reducible first | apply kept_reach | apply kept_reqLost | apply kept_dropReq | apply kept_each | apply kept_foldl | apply kept_foldl1 | apply keptR_next | apply keptR_fault | apply keptR_ite | apply kept_ite | apply kept_ite1
    | with_reducible (refine Kept.upd rfl ?_; first | assumption | apply kept_reach)
    | split

theorem keptR_execAtomicResult {fz o} {a0 a1 s} (h : Kept fz o s) :
    KeptR fz o (execAtomicResult a0 a1 s) := by
  unfold execAtomicResult
  try dsimp only
  repeat' first
    | with_reducible assumption
    | intro _
    | dsimp only
    | with_reducible first | apply keptR_onResponse | apply kept_chanData | apply keptO_none | apply keptO_some | apply keptO_ite | apply keptQ_none | apply keptQ_some | apply keptQ_ite | apply kept_each | apply kept_foldl | apply kept_foldl1 | apply keptR_next | apply keptR_fault | apply keptR_ite | apply kept_ite | apply kept_ite1
    | with_reducible (refine Kept.upd rfl ?_; first | assumption | apply keptR_onResponse | apply kept_chanData | apply kept_each | apply kept_foldl | apply kept_foldl1 | apply kept_ite | apply kept_ite1)
    | split

theorem keptR_execNack {fz o} {a0 a1 s} (h : Kept fz o s) :
    KeptR fz o (execNack a0 a1 s) := by
  unfold execNack
  try dsimp only
  repeat' first
    | with_reducible assumption
    | intro _
    | dsimp only
    | with_reducible first | apply keptR_onResponse | apply kept_reqLost | apply keptO_none | apply keptO_some | apply keptO_ite | apply keptQ_none | apply keptQ_some | apply keptQ_ite | apply kept_each | apply kept_foldl | apply kept_foldl1 | apply keptR_next | apply keptR_fault | apply keptR_ite | apply kept_ite | apply kept_ite1
    | with_reducible (refine Kept.upd rfl ?_; first | assumption)

theorem keptR_execRemoteAtomicRequest {fz o} {a0 a1 s} (h : Kept fz o s) :
    KeptR fz o (execRemoteAtomicRequest a0 a1 s) := by
  unfold execRemoteAtomicRequest
  try dsimp only
  repeat' first
    | with_reducible assumption
    | intro _
    | dsimp only
    | with_reducible first | apply keptR_onRequest | apply kept_nackMsg | apply kept_dropMsg | apply kept_homeReady | apply kept_homeRmw | apply kept_sendResponse | apply kept_each | apply kept_foldl | apply kept_foldl1 | apply keptR_next | apply keptR_fault | apply keptR_ite | apply kept_ite

theorem keptR_execRemoteWriteRequest {fz o} {a0 a1 s} (h : Kept fz o s) :
    KeptR fz o (execRemoteWriteRequest a0 a1 s) := by
  unfold execRemoteWriteRequest
  try dsimp only
  repeat' first
    | with_reducible assumption
    | intro _
    | dsimp only
    | with_reducible first | apply keptR_onRequest | apply kept_nackMsg | apply kept_dropMsg | apply kept_serveHost | apply kept_writePlan | apply kept_sendResponse | apply kept_each | apply kept_foldl | apply kept_foldl1 | apply keptR_next | apply keptR_fault | apply keptR_ite | apply kept_ite | apply kept_ite1
    | with_reducible (refine Kept.upd rfl ?_; first | assumption | apply keptR_onRequest | apply kept_nackMsg | apply kept_dropMsg | apply kept_serveHost | apply kept_writePlan | apply kept_sendResponse | apply kept_each | apply kept_foldl | apply kept_foldl1 | apply kept_ite | apply kept_ite1 | refine kept_ofP ?_ (by assumption))
    | refine kept_ofP ?_ (by assumption)
    | split

theorem keptR_execPoolPartial {fz o} {a0 s} (h : Kept fz o s) :
    KeptR fz o (execPoolPartial a0 s) := by
  unfold execPoolPartial
  try dsimp only
  repeat' first
    | with_reducible assumption
    | intro _
    | dsimp only
    | with_reducible first | apply keptR_onResponse | apply kept_pieceArrive | apply kept_sendPools | apply keptO_none | apply keptO_some | apply keptO_ite | apply keptQ_none | apply keptQ_some | apply keptQ_ite | apply kept_each | apply kept_foldl | apply kept_foldl1 | apply keptR_next | apply keptR_fault | apply keptR_ite | apply kept_ite | apply kept_ite1
    | with_reducible (refine Kept.upd rfl ?_; first | assumption | apply keptR_onResponse | apply kept_pieceArrive | apply kept_sendPools | apply kept_each | apply kept_foldl | apply kept_foldl1 | apply kept_ite | apply kept_ite1)
    | split

end Sys2Proof.Machine
end

