-- ==== Sys2Proof/Laws/KeptService.lean ====
section
/-! SUPPORT. What the definitions of Machine/Service.lean keep (`Kept`). -/

namespace Sys2Proof.Machine

theorem kept_dropTag {fz o} {s a1 a2} (h : Kept fz o s) :
    Kept fz o (dropTag s a1 a2) := by
  unfold dropTag
  try dsimp only
  repeat' first
    | with_reducible assumption
    | intro _
    | dsimp only
    | with_reducible first | apply kept_each | apply kept_foldl | apply kept_foldl1 | apply kept_ite | apply kept_ite1
    | with_reducible (refine Kept.upd rfl ?_; first | assumption)

theorem kept_tsRefuse {fz o} {s a1 a2 a3} (h : Kept fz o s) :
    Kept fz o (tsRefuse s a1 a2 a3) := by
  unfold tsRefuse
  try dsimp only
  repeat' first
    | with_reducible assumption
    | intro _
    | dsimp only
    | with_reducible first | apply kept_emit | apply kept_dropTag

theorem kept_putTag {fz o} {s a1 a2 a3} (h : Kept fz o s) :
    Kept fz o (putTag s a1 a2 a3) := by
  unfold putTag
  try dsimp only
  repeat' first
    | with_reducible assumption
    | intro _
    | dsimp only
    | with_reducible first | apply kept_each | apply kept_foldl | apply kept_foldl1 | apply kept_ite | apply kept_ite1
    | with_reducible (refine Kept.upd rfl ?_; first | assumption)

theorem kept_tsServe {fz o} {s a1 a2 a3 a4} (h : Kept fz o s) :
    Kept fz o (tsServe s a1 a2 a3 a4) := by
  unfold tsServe
  try dsimp only
  repeat' first
    | with_reducible assumption
    | intro _
    | dsimp only
    | with_reducible first | apply kept_translate | apply kept_emit | apply kept_putTag | apply kept_waitBack | apply kept_tsRefuse | apply kept_each | apply kept_foldl | apply kept_foldl1 | apply kept_ite | apply kept_ite1
    | with_reducible (refine Kept.upd rfl ?_; first | assumption | apply kept_translate | apply kept_emit | apply kept_putTag | apply kept_waitBack | apply kept_tsRefuse | apply kept_each | apply kept_foldl | apply kept_foldl1 | apply kept_ite | apply kept_ite1 | refine kept_ofP ?_ (by assumption))
    | refine kept_ofP ?_ (by assumption)
    | split

theorem keptR_execTsRequest {fz o} {a0 a1 a2 a3 a4 a5 s} (h : Kept fz o s) :
    KeptR fz o (execTsRequest a0 a1 a2 a3 a4 a5 s) := by
  unfold execTsRequest
  try dsimp only
  repeat' first
    | with_reducible assumption
    | intro _
    | dsimp only
    | with_reducible first | apply kept_tsRefuse | apply kept_note | apply kept_fresh | apply kept_tsServe | apply kept_each | apply kept_foldl | apply kept_foldl1 | apply keptR_next | apply keptR_fault | apply keptR_ite

theorem keptR_execTsHoldTimeout {fz o} {a0 a1 s} (h : Kept fz o s) :
    KeptR fz o (execTsHoldTimeout a0 a1 s) := by
  unfold execTsHoldTimeout
  try dsimp only
  repeat' first
    | with_reducible assumption
    | intro _
    | dsimp only
    | with_reducible first | apply kept_reach | apply kept_report | apply kept_putTag | apply kept_each | apply kept_foldl | apply kept_foldl1 | apply keptR_next | apply keptR_fault | apply keptR_ite | apply kept_ite | apply kept_ite1
    | with_reducible (refine Kept.upd rfl ?_; first | assumption | apply kept_reach | apply kept_report | apply kept_putTag | apply kept_each | apply kept_foldl | apply kept_foldl1 | apply kept_ite | apply kept_ite1)
    | split

theorem keptR_execTsDone {fz o} {a0 a1 s} (h : Kept fz o s) :
    KeptR fz o (execTsDone a0 a1 s) := by
  unfold execTsDone
  try dsimp only
  repeat' first
    | with_reducible assumption
    | intro _
    | dsimp only
    | with_reducible first | apply kept_dropTag | apply kept_each | apply kept_foldl | apply kept_foldl1 | apply keptR_next | apply keptR_fault | apply keptR_ite | apply kept_ite | apply kept_ite1
    | with_reducible (refine Kept.upd rfl ?_; first | assumption | apply kept_dropTag | apply kept_each | apply kept_foldl | apply kept_foldl1 | apply kept_ite | apply kept_ite1)
    | split

theorem kept_tsResume {fz o} {s a1 a2 a3} (h : Kept fz o s) :
    Kept fz o (tsResume s a1 a2 a3) := by
  unfold tsResume
  try dsimp only
  repeat' first
    | with_reducible assumption
    | intro _
    | dsimp only
    | with_reducible first | apply kept_tsServe | apply kept_each | apply kept_foldl | apply kept_foldl1 | apply kept_ite | apply kept_ite1
    | with_reducible (refine Kept.upd rfl ?_; first | assumption | apply kept_tsServe | apply kept_each | apply kept_foldl | apply kept_foldl1 | apply kept_ite | apply kept_ite1)
    | split

end Sys2Proof.Machine
end

