-- ==== Sys2Proof/Laws/KeptSlots.lean ====
section
/-! SUPPORT. What the definitions of Machine/Slots.lean keep (`Kept`). -/

namespace Sys2Proof.Machine

theorem kept_poolProduce {fz o} {s a1 a2 a3} (h : Kept fz o s) :
    Kept fz o (poolProduce s a1 a2 a3) := by
  unfold poolProduce
  try dsimp only
  repeat' first
    | with_reducible assumption
    | intro _
    | dsimp only
    | with_reducible first | apply kept_updPool

theorem kept_updSlot {fz o} {s a1 a2} (h : Kept fz o s) :
    Kept fz o (updSlot s a1 a2) := by
  unfold updSlot
  try dsimp only
  repeat' first
    | with_reducible assumption
    | intro _
    | dsimp only
    | with_reducible first | apply kept_each | apply kept_foldl | apply kept_foldl1 | apply kept_ite | apply kept_ite1
    | with_reducible (refine Kept.upd rfl ?_; first | assumption)

theorem kept_sloeSlice {fz o} {s a1 a2 a3} (h : Kept fz o s) :
    Kept fz o (sloeSlice s a1 a2 a3) := by
  unfold sloeSlice
  try dsimp only
  repeat' first
    | with_reducible assumption
    | intro _
    | dsimp only
    | with_reducible first | apply kept_note | apply kept_each | apply kept_foldl | apply kept_foldl1 | apply kept_ite | apply kept_ite1
    | with_reducible (refine Kept.upd rfl ?_; first | assumption)

theorem kept_chanAbortSlot {fz o} {s a1 a2 a3} (h : Kept fz o s) :
    Kept fz o (chanAbortSlot s a1 a2 a3) := by
  unfold chanAbortSlot
  try dsimp only
  repeat' first
    | with_reducible assumption
    | intro _
    | dsimp only
    | with_reducible first | apply kept_badExec | apply kept_closeCur | apply kept_failRun | apply kept_settleRun | apply kept_each | apply kept_foldl | apply kept_foldl1 | apply kept_ite | apply kept_ite1
    | with_reducible (refine Kept.upd rfl ?_; first | assumption | apply kept_badExec | apply kept_closeCur | apply kept_failRun | apply kept_settleRun | apply kept_each | apply kept_foldl | apply kept_foldl1 | apply kept_ite | apply kept_ite1)
    | split

theorem kept_servedAbort {fz o} {s a1 a2} (h : Kept fz o s) :
    Kept fz o (servedAbort s a1 a2) := by
  unfold servedAbort
  try dsimp only
  repeat' first
    | with_reducible assumption
    | intro _
    | dsimp only
    | with_reducible first | apply kept_nackMsg | apply kept_dropMsg | apply kept_each | apply kept_foldl | apply kept_foldl1 | apply kept_ite | apply kept_ite1
    | with_reducible (refine Kept.upd rfl ?_; first | assumption | apply kept_nackMsg | apply kept_dropMsg | apply kept_each | apply kept_foldl | apply kept_foldl1 | apply kept_ite | apply kept_ite1)
    | split

theorem kept_abortReq {fz o} {s a1 a2 a3} (h : Kept fz o s) :
    Kept fz o (abortReq s a1 a2 a3) := by
  unfold abortReq
  try dsimp only
  repeat' first
    | with_reducible assumption
    | intro _
    | dsimp only
    | with_reducible first | apply kept_endCmd | apply kept_chanAbortSlot | apply kept_wwPump | apply kept_failWw | apply kept_tsRefuse | apply kept_coreAbort | apply kept_updQueue | apply kept_compFlow | apply kept_compLost | apply kept_servedAbort | apply kept_abortEnt | apply kept_each | apply kept_foldl | apply kept_foldl1 | apply kept_ite | apply kept_ite1
    | with_reducible (refine Kept.upd rfl ?_; first | assumption | apply kept_endCmd | apply kept_chanAbortSlot | apply kept_wwPump | apply kept_failWw | apply kept_tsRefuse | apply kept_coreAbort | apply kept_updQueue | apply kept_compFlow | apply kept_compLost | apply kept_servedAbort | apply kept_abortEnt | apply kept_each | apply kept_foldl | apply kept_foldl1 | apply kept_ite | apply kept_ite1)
    | split

theorem kept_endSlot {fz o} {s a1 a2 a3} (h : Kept fz o s) :
    Kept fz o (endSlot s a1 a2 a3) := by
  unfold endSlot
  try dsimp only
  repeat' first
    | with_reducible assumption
    | intro _
    | dsimp only
    | with_reducible first | apply kept_abortReq | apply kept_updSlot | apply kept_each | apply kept_foldl | apply kept_foldl1 | apply kept_ite

theorem keptR_execFaultPatienceExpire {fz o} {a0 a1 s} (h : Kept fz o s) :
    KeptR fz o (execFaultPatienceExpire a0 a1 s) := by
  unfold execFaultPatienceExpire
  try dsimp only
  repeat' first
    | with_reducible assumption
    | intro _
    | dsimp only
    | with_reducible first | apply kept_endSlot | apply kept_reach | apply kept_each | apply kept_foldl | apply kept_foldl1 | apply keptR_next | apply keptR_fault | apply keptR_ite | apply kept_ite

theorem kept_poolConsume {fz o} {s a1 a2 a3 a4} (h : Kept fz o s) :
    Kept fz o (poolConsume s a1 a2 a3 a4) := by
  unfold poolConsume
  try dsimp only
  repeat' first
    | with_reducible assumption
    | intro _
    | dsimp only
    | with_reducible first | apply kept_updPool | apply kept_drainPool

theorem kept_invWrite {fz o} {s a1 a2 a3 a4} (h : Kept fz o s) :
    Kept fz o (invWrite s a1 a2 a3 a4) := by
  unfold invWrite
  try dsimp only
  repeat' first
    | with_reducible assumption
    | intro _
    | dsimp only
    | with_reducible first | apply kept_invBegin | apply kept_each | apply kept_foldl | apply kept_foldl1 | apply kept_ite | apply kept_ite1
    | with_reducible (refine Kept.upd rfl ?_; first | assumption | apply kept_invBegin | apply kept_each | apply kept_foldl | apply kept_foldl1 | apply kept_ite | apply kept_ite1 | refine kept_ofP ?_ (by assumption))
    | refine kept_ofP ?_ (by assumption)
    | split

theorem keptR_execInvContext {fz o} {a0 a1 s} (h : Kept fz o s) :
    KeptR fz o (execInvContext a0 a1 s) := by
  unfold execInvContext
  try dsimp only
  repeat' first
    | with_reducible assumption
    | intro _
    | dsimp only
    | with_reducible first | apply kept_invWrite | apply kept_each | apply kept_foldl | apply kept_foldl1 | apply keptR_next | apply keptR_fault | apply keptR_ite | apply kept_ite

theorem kept_pageRetireWrite {fz o} {s a1} (h : Kept fz o s) :
    Kept fz o (pageRetireWrite s a1) := by
  unfold pageRetireWrite
  try dsimp only
  repeat' first
    | with_reducible assumption
    | intro _
    | dsimp only
    | with_reducible first | apply kept_each | apply kept_foldl | apply kept_foldl1 | apply kept_ite | apply kept_ite1
    | with_reducible (refine Kept.upd rfl ?_; first | assumption)

theorem keptR_execPageSliceRetire {fz o} {a0 s} (h : Kept fz o s) :
    KeptR fz o (execPageSliceRetire a0 s) := by
  unfold execPageSliceRetire
  try dsimp only
  repeat' first
    | with_reducible assumption
    | intro _
    | dsimp only
    | with_reducible first | apply kept_pageRetireWrite | apply kept_each | apply kept_foldl | apply kept_foldl1 | apply keptR_next | apply keptR_fault | apply keptR_ite | apply kept_ite

theorem keptR_execPoolAllocProduce {fz o} {a0 a1 a2 s} (h : Kept fz o s) :
    KeptR fz o (execPoolAllocProduce a0 a1 a2 s) := by
  unfold execPoolAllocProduce
  try dsimp only
  repeat' first
    | with_reducible assumption
    | intro _
    | dsimp only
    | with_reducible first | apply kept_poolProduce | apply kept_each | apply kept_foldl | apply kept_foldl1 | apply keptR_next | apply keptR_fault | apply keptR_ite | apply kept_ite

theorem kept_chanRetry {fz o} {s a1 a2} (h : Kept fz o s) :
    Kept fz o (chanRetry s a1 a2) := by
  unfold chanRetry
  try dsimp only
  repeat' first
    | with_reducible assumption
    | intro _
    | dsimp only
    | with_reducible first | apply kept_updRun

theorem keptR_execPoolReturnConsume {fz o} {a0 a1 a2 a3 s} (h : Kept fz o s) :
    KeptR fz o (execPoolReturnConsume a0 a1 a2 a3 s) := by
  unfold execPoolReturnConsume
  try dsimp only
  repeat' first
    | with_reducible assumption
    | intro _
    | dsimp only
    | with_reducible first | apply kept_poolConsume | apply kept_each | apply kept_foldl | apply kept_foldl1 | apply keptR_next | apply keptR_fault | apply keptR_ite | apply kept_ite

theorem kept_servedRetry {fz o} {s a1 a2} (h : Kept fz o s) :
    Kept fz o (servedRetry s a1 a2) := by
  unfold servedRetry
  try dsimp only
  repeat' first
    | with_reducible assumption
    | intro _
    | dsimp only
    | with_reducible first | apply kept_each | apply kept_foldl | apply kept_foldl1 | apply kept_ite | apply kept_ite1
    | with_reducible (refine Kept.upd rfl ?_; first | assumption | apply kept_each | apply kept_foldl | apply kept_foldl1 | apply kept_ite | apply kept_ite1)
    | split

theorem kept_resumeReq {fz o} {s a1 a2 a3} (h : Kept fz o s) :
    Kept fz o (resumeReq s a1 a2 a3) := by
  unfold resumeReq
  try dsimp only
  repeat' first
    | with_reducible assumption
    | intro _
    | dsimp only
    | with_reducible first | apply kept_updCmd | apply kept_chanRetry | apply kept_wwPump | apply kept_wwAdvance | apply kept_tsServe | apply kept_coreResume | apply kept_readAgain | apply kept_updQueue | apply kept_compFlow | apply kept_servedRetry | apply kept_resumeEnt | apply kept_trySignal | apply kept_each | apply kept_foldl | apply kept_foldl1 | apply kept_ite | apply kept_ite1
    | with_reducible (refine Kept.upd rfl ?_; first | assumption | apply kept_updCmd | apply kept_chanRetry | apply kept_wwPump | apply kept_wwAdvance | apply kept_tsServe | apply kept_coreResume | apply kept_readAgain | apply kept_updQueue | apply kept_compFlow | apply kept_servedRetry | apply kept_resumeEnt | apply kept_trySignal | apply kept_each | apply kept_foldl | apply kept_foldl1 | apply kept_ite | apply kept_ite1)
    | split

theorem kept_retrySlot {fz o} {s a1 a2} (h : Kept fz o s) :
    Kept fz o (retrySlot s a1 a2) := by
  unfold retrySlot
  try dsimp only
  repeat' first
    | with_reducible assumption
    | intro _
    | dsimp only
    | with_reducible first | apply kept_resumeReq | apply kept_updSlot | apply kept_each | apply kept_foldl | apply kept_foldl1 | apply kept_ite

theorem kept_fltWrite {fz o} {s a1 a2 a3} (h : Kept fz o s) :
    Kept fz o (fltWrite s a1 a2 a3) := by
  unfold fltWrite
  try dsimp only
  repeat' first
    | with_reducible assumption
    | intro _
    | dsimp only
    | with_reducible first | apply kept_retrySlot | apply kept_endSlot | apply kept_each | apply kept_foldl | apply kept_foldl1 | apply kept_ite | apply kept_ite1
    | with_reducible (refine Kept.upd rfl ?_; first | assumption | apply kept_retrySlot | apply kept_endSlot)

theorem keptR_execFltRetry {fz o} {a0 a1 s} (h : Kept fz o s) :
    KeptR fz o (execFltRetry a0 a1 s) := by
  unfold execFltRetry
  try dsimp only
  repeat' first
    | with_reducible assumption
    | intro _
    | dsimp only
    | with_reducible first | apply kept_fltWrite | apply kept_each | apply kept_foldl | apply kept_foldl1 | apply keptR_next | apply keptR_fault | apply keptR_ite | apply kept_ite

theorem keptR_execInvAll {fz o} {a0 s} (h : Kept fz o s) :
    KeptR fz o (execInvAll a0 s) := by
  unfold execInvAll
  try dsimp only
  repeat' first
    | with_reducible assumption
    | intro _
    | dsimp only
    | with_reducible first | apply kept_invWrite | apply kept_each | apply kept_foldl | apply kept_foldl1 | apply keptR_next | apply keptR_fault | apply keptR_ite | apply kept_ite

theorem keptR_execPoolReturnWaitNote {fz o} {a0 a1 s} (h : Kept fz o s) :
    KeptR fz o (execPoolReturnWaitNote a0 a1 s) := by
  unfold execPoolReturnWaitNote
  try dsimp only
  repeat' first
    | with_reducible assumption
    | intro _
    | dsimp only
    | with_reducible first | apply kept_poolNote | apply kept_each | apply kept_foldl | apply kept_foldl1 | apply keptR_next | apply keptR_fault | apply keptR_ite | apply kept_ite | apply kept_ite1
    | with_reducible (refine Kept.upd rfl ?_; first | assumption | apply kept_poolNote | apply kept_each | apply kept_foldl | apply kept_foldl1 | apply kept_ite | apply kept_ite1)
    | split

theorem keptR_execInvPartition {fz o} {a0 a1 s} (h : Kept fz o s) :
    KeptR fz o (execInvPartition a0 a1 s) := by
  unfold execInvPartition
  try dsimp only
  repeat' first
    | with_reducible assumption
    | intro _
    | dsimp only
    | with_reducible first | apply kept_invWrite | apply kept_each | apply kept_foldl | apply kept_foldl1 | apply keptR_next | apply keptR_fault | apply keptR_ite | apply kept_ite

theorem keptR_execInvalidationDone {fz o} {s} (h : Kept fz o s) :
    KeptR fz o (execInvalidationDone s) := by
  unfold execInvalidationDone
  try dsimp only
  repeat' first
    | with_reducible assumption
    | intro _
    | dsimp only
    | with_reducible first | apply kept_pumpPasses | apply kept_each | apply kept_foldl | apply kept_foldl1 | apply keptR_next | apply keptR_fault | apply keptR_ite | apply kept_ite | apply kept_ite1
    | with_reducible (refine Kept.upd rfl ?_; first | assumption | apply kept_pumpPasses | apply kept_each | apply kept_foldl | apply kept_foldl1 | apply kept_ite | apply kept_ite1)
    | split

theorem kept_retryCtx {fz o} {s a1 a2} (h : Kept fz o s) :
    Kept fz o (retryCtx s a1 a2) := by
  unfold retryCtx
  try dsimp only
  repeat' first
    | with_reducible assumption
    | intro _
    | dsimp only
    | with_reducible first | apply kept_retrySlot | apply kept_each

theorem keptR_execPageWalk {fz o} {a0 a1 a2 a3 a4 s} (h : Kept fz o s) :
    KeptR fz o (execPageWalk a0 a1 a2 a3 a4 s) := by
  unfold execPageWalk
  try dsimp only
  repeat' first
    | with_reducible assumption
    | intro _
    | dsimp only
    | with_reducible first | apply kept_translate | apply kept_waitBack | apply kept_each | apply kept_foldl | apply kept_foldl1 | apply keptR_next | apply keptR_fault | apply keptR_ite | apply kept_ite

theorem keptR_execPageSliceRetireDone {fz o} {s} (h : Kept fz o s) :
    KeptR fz o (execPageSliceRetireDone s) := by
  unfold execPageSliceRetireDone
  try dsimp only
  repeat' first
    | with_reducible assumption
    | intro _
    | dsimp only
    | with_reducible first | apply kept_each | apply kept_foldl | apply kept_foldl1 | apply keptR_next | apply keptR_fault | apply keptR_ite | apply kept_ite | apply kept_ite1
    | with_reducible (refine Kept.upd rfl ?_; first | assumption)

theorem keptR_execSloeWindowEnd {fz o} {a0 a1 s} (h : Kept fz o s) :
    KeptR fz o (execSloeWindowEnd a0 a1 s) := by
  unfold execSloeWindowEnd
  try dsimp only
  repeat' first
    | with_reducible assumption
    | intro _
    | dsimp only
    | with_reducible first | apply kept_sloeSlice | apply kept_each | apply kept_foldl | apply kept_foldl1 | apply keptR_next | apply keptR_fault | apply keptR_ite | apply kept_ite

theorem keptR_execFltAbort {fz o} {a0 a1 s} (h : Kept fz o s) :
    KeptR fz o (execFltAbort a0 a1 s) := by
  unfold execFltAbort
  try dsimp only
  repeat' first
    | with_reducible assumption
    | intro _
    | dsimp only
    | with_reducible first | apply kept_fltWrite | apply kept_each | apply kept_foldl | apply kept_foldl1 | apply keptR_next | apply keptR_fault | apply keptR_ite | apply kept_ite

theorem kept_abortCtx {fz o} {s a1 a2} (h : Kept fz o s) :
    Kept fz o (abortCtx s a1 a2) := by
  unfold abortCtx
  try dsimp only
  repeat' first
    | with_reducible assumption
    | intro _
    | dsimp only
    | with_reducible first | apply kept_endSlot | apply kept_each

theorem keptR_execInvRange {fz o} {a0 a1 s} (h : Kept fz o s) :
    KeptR fz o (execInvRange a0 a1 s) := by
  unfold execInvRange
  try dsimp only
  repeat' first
    | with_reducible assumption
    | intro _
    | dsimp only
    | with_reducible first | apply kept_invWrite | apply kept_each | apply kept_foldl | apply kept_foldl1 | apply keptR_next | apply keptR_fault | apply keptR_ite | apply kept_ite

end Sys2Proof.Machine
end

