-- ==== Sys2Proof/Laws/KeptContexts.lean ====
section
/-! SUPPORT. What the definitions of Machine/Contexts.lean keep (`Kept`). -/

namespace Sys2Proof.Machine

theorem kept_ctxOpDone {fz o} {s a1} (h : Kept fz o s) :
    Kept fz o (ctxOpDone s a1) := by
  unfold ctxOpDone
  try dsimp only
  repeat' first
    | with_reducible assumption
    | intro _
    | dsimp only
    | with_reducible first | apply kept_each | apply kept_foldl | apply kept_foldl1 | apply kept_ite | apply kept_ite1
    | with_reducible (refine Kept.upd rfl ?_; first | assumption)

theorem kept_drawReturns {fz o} {s a1} (h : Kept fz o s) :
    Kept fz o (drawReturns s a1) := by
  unfold drawReturns
  try dsimp only
  repeat' first
    | with_reducible assumption
    | intro _
    | dsimp only
    | with_reducible first | apply kept_drawSession | apply kept_updQueue | apply kept_each | apply kept_foldl | apply kept_foldl1 | apply kept_ite

theorem kept_enableFrom {fz o} {s a1 a2} (h : Kept fz o s) :
    Kept fz o (enableFrom s a1 a2).1 := by
  unfold enableFrom
  try dsimp only
  repeat' first
    | with_reducible assumption
    | intro _
    | dsimp only
    | with_reducible first | apply kept_drawReturns | apply kept_updCtx | apply kept_each | apply kept_foldl | apply kept_foldl1 | apply kept_ite | apply kept_ite1

theorem kept_ctxEnable {fz o} {s a1 a2} (h : Kept fz o s) :
    Kept fz o (ctxEnable s a1 a2) := by
  unfold ctxEnable
  try dsimp only
  repeat' first
    | with_reducible assumption
    | intro _
    | dsimp only
    | with_reducible first | apply kept_ctxOpDone | apply kept_homeReady | apply kept_homeRead | apply kept_enableFrom | apply kept_each | apply kept_foldl | apply kept_foldl1 | apply kept_ite | apply kept_ite1
    | with_reducible (refine Kept.upd rfl ?_; first | assumption | apply kept_ctxOpDone | apply kept_homeReady | refine kept_ofP ?_ (by assumption))

theorem kept_endCtxWaits {fz o} {s a1} (h : Kept fz o s) :
    Kept fz o (endCtxWaits s a1) := by
  unfold endCtxWaits
  try dsimp only
  repeat' first
    | with_reducible assumption
    | intro _
    | dsimp only
    | with_reducible first | apply kept_endCmd | apply kept_failRun | apply kept_each | apply kept_foldl | apply kept_foldl1 | apply kept_ite | apply kept_ite1
    | with_reducible (refine Kept.upd rfl ?_; first | assumption | apply kept_endCmd | apply kept_failRun | apply kept_each | apply kept_foldl | apply kept_foldl1 | apply kept_ite | apply kept_ite1)
    | split

theorem kept_ctxDisable {fz o} {s a1} (h : Kept fz o s) :
    Kept fz o (ctxDisable s a1).1 := by
  unfold ctxDisable
  try dsimp only
  repeat' first
    | with_reducible assumption
    | intro _
    | dsimp only
    | with_reducible first | apply kept_endCtxWaits | apply kept_updCtx | apply kept_each | apply kept_foldl | apply kept_foldl1 | apply kept_ite | apply kept_ite1

theorem kept_ctxResume {fz o} {s a1} (h : Kept fz o s) :
    Kept fz o (ctxResume s a1).1 := by
  unfold ctxResume
  try dsimp only
  repeat' first
    | with_reducible assumption
    | intro _
    | dsimp only
    | with_reducible first | apply kept_kickAll | apply kept_updCtx | apply kept_each | apply kept_foldl | apply kept_foldl1 | apply kept_ite | apply kept_ite1

theorem kept_abortBag {fz o} {s a1} (h : Kept fz o s) :
    Kept fz o (abortBag s a1) := by
  unfold abortBag
  try dsimp only
  repeat' first
    | with_reducible assumption
    | intro _
    | dsimp only
    | with_reducible first | apply kept_endCmd | apply kept_dropPoolReqs | apply kept_each | apply kept_foldl | apply kept_foldl1 | apply kept_ite | apply kept_ite1
    | with_reducible (refine Kept.upd rfl ?_; first | assumption | apply kept_endCmd | apply kept_dropPoolReqs | apply kept_each | apply kept_foldl | apply kept_foldl1 | apply kept_ite | apply kept_ite1)
    | split

theorem kept_keepFrames {fz o} {s a1 a2 a3} (h : Kept fz o s) :
    Kept fz o (keepFrames s a1 a2 a3) := by
  unfold keepFrames
  try dsimp only
  repeat' first
    | with_reducible assumption
    | intro _
    | dsimp only
    | with_reducible first | apply kept_each | apply kept_foldl | apply kept_foldl1 | apply kept_ite | apply kept_ite1
    | with_reducible (refine Kept.upd rfl ?_; first | assumption)

theorem kept_abortCmd {fz o} {s a1 a2} (h : Kept fz o s) :
    Kept fz o (abortCmd s a1 a2) := by
  unfold abortCmd
  try dsimp only
  repeat' first
    | with_reducible assumption
    | intro _
    | dsimp only
    | with_reducible first | apply kept_updCmd | apply kept_abortRun | apply kept_dropWaitingRun | apply kept_abortBag | apply kept_endCmd | apply kept_keepFrames | apply kept_each | apply kept_foldl | apply kept_foldl1 | apply kept_ite | apply kept_ite1
    | with_reducible (refine Kept.upd rfl ?_; first | assumption | apply kept_updCmd | apply kept_abortRun | apply kept_dropWaitingRun | apply kept_abortBag | apply kept_endCmd | apply kept_keepFrames | apply kept_each | apply kept_foldl | apply kept_foldl1 | apply kept_ite | apply kept_ite1)
    | split

theorem kept_abortTilesOf {fz o} {s a1} (h : Kept fz o s) :
    Kept fz o (abortTilesOf s a1) := by
  unfold abortTilesOf
  try dsimp only
  repeat' first
    | with_reducible assumption
    | intro _
    | dsimp only
    | with_reducible first | apply kept_startTile | apply kept_emit | apply kept_each | apply kept_foldl | apply kept_foldl1 | apply kept_ite | apply kept_ite1
    | with_reducible (refine Kept.upd rfl ?_; first | assumption | apply kept_startTile | apply kept_emit | apply kept_each | apply kept_foldl | apply kept_foldl1 | apply kept_ite | apply kept_ite1)
    | split

theorem kept_abortContext {fz o} {s a1 a2} (h : Kept fz o s) :
    Kept fz o (abortContext s a1 a2) := by
  unfold abortContext
  try dsimp only
  repeat' first
    | with_reducible assumption
    | intro _
    | dsimp only
    | with_reducible first | apply kept_updCtx | apply kept_abortCmd | apply kept_abortCtx | apply kept_abortTilesOf | apply kept_each | apply kept_foldl | apply kept_foldl1 | apply kept_ite | apply kept_ite1
    | with_reducible (refine Kept.upd rfl ?_; first | assumption | apply kept_updCtx | apply kept_abortCmd | apply kept_abortCtx | apply kept_abortTilesOf | apply kept_each | apply kept_foldl | apply kept_foldl1 | apply kept_ite | apply kept_ite1)
    | split

theorem kept_ctxAbort {fz o} {s a1 a2} (h : Kept fz o s) :
    Kept fz o (ctxAbort s a1 a2).1 := by
  unfold ctxAbort
  try dsimp only
  repeat' first
    | with_reducible assumption
    | intro _
    | dsimp only
    | with_reducible first | apply kept_abortContext | apply kept_each | apply kept_foldl | apply kept_foldl1 | apply kept_ite | apply kept_ite1

theorem kept_ctxPin {fz o} {s a1} (h : Kept fz o s) :
    Kept fz o (ctxPin s a1).1 := by
  unfold ctxPin
  try dsimp only
  repeat' first
    | with_reducible assumption
    | intro _
    | dsimp only
    | with_reducible first | apply kept_startLoad | apply kept_updCtx | apply kept_each | apply kept_foldl | apply kept_foldl1 | apply kept_ite | apply kept_ite1

theorem kept_ctxUnpin {fz o} {s a1} (h : Kept fz o s) :
    Kept fz o (ctxUnpin s a1).1 := by
  unfold ctxUnpin
  try dsimp only
  repeat' first
    | with_reducible assumption
    | intro _
    | dsimp only
    | with_reducible first | apply kept_updCtx | apply kept_each | apply kept_foldl | apply kept_foldl1 | apply kept_ite | apply kept_ite1

theorem kept_ctxOpRun {fz o} {s a1 a2 a3} (h : Kept fz o s) :
    Kept fz o (ctxOpRun s a1 a2 a3) := by
  unfold ctxOpRun
  try dsimp only
  repeat' first
    | with_reducible assumption
    | intro _
    | dsimp only
    | with_reducible first | apply kept_ctxOpDone | apply kept_ctxEnable | apply kept_ctxDisable | apply kept_ctxResume | apply kept_ctxAbort | apply kept_ctxPin | apply kept_ctxUnpin | apply kept_each | apply kept_foldl | apply kept_foldl1 | apply kept_ite | apply kept_ite1
    | with_reducible (refine Kept.upd rfl ?_; first | assumption | apply kept_ctxOpDone | apply kept_ctxEnable | apply kept_ctxDisable | apply kept_ctxResume | apply kept_ctxAbort | apply kept_ctxPin | apply kept_ctxUnpin | apply kept_each | apply kept_foldl | apply kept_foldl1 | apply kept_ite | apply kept_ite1 | refine kept_ofP ?_ (by assumption))
    | refine kept_ofP ?_ (by assumption)
    | split

theorem kept_ctxOpWrite {fz o} {s a1 a2 a3} (h : Kept fz o s) :
    Kept fz o (ctxOpWrite s a1 a2 a3) := by
  unfold ctxOpWrite
  try dsimp only
  repeat' first
    | with_reducible assumption
    | intro _
    | dsimp only
    | with_reducible first | apply kept_ctxOpRun | apply kept_each | apply kept_foldl | apply kept_foldl1 | apply kept_ite | apply kept_ite1
    | with_reducible (refine Kept.upd rfl ?_; first | assumption)

theorem keptR_execCtxPin {fz o} {a0 a1 s} (h : Kept fz o s) :
    KeptR fz o (execCtxPin a0 a1 s) := by
  unfold execCtxPin
  try dsimp only
  repeat' first
    | with_reducible assumption
    | intro _
    | dsimp only
    | with_reducible first | apply kept_ctxOpWrite | apply kept_each | apply kept_foldl | apply kept_foldl1 | apply keptR_next | apply keptR_fault | apply keptR_ite | apply kept_ite

theorem kept_abortSignals {fz o} {s a1 a2} (h : Kept fz o s) :
    Kept fz o (abortSignals s a1 a2) := by
  unfold abortSignals
  try dsimp only
  repeat' first
    | with_reducible assumption
    | intro _
    | dsimp only
    | with_reducible first | apply kept_postSignal | apply kept_each | apply kept_foldl | apply kept_foldl1 | apply kept_ite | apply kept_ite1
    | with_reducible (refine Kept.upd rfl ?_; first | assumption | apply kept_postSignal | apply kept_each | apply kept_foldl | apply kept_foldl1 | apply kept_ite | apply kept_ite1)
    | split

theorem keptR_execCtxEnable {fz o} {a0 a1 s} (h : Kept fz o s) :
    KeptR fz o (execCtxEnable a0 a1 s) := by
  unfold execCtxEnable
  try dsimp only
  repeat' first
    | with_reducible assumption
    | intro _
    | dsimp only
    | with_reducible first | apply kept_ctxEnable | apply kept_ctxOpWrite | apply kept_each | apply kept_foldl | apply kept_foldl1 | apply keptR_next | apply keptR_fault | apply keptR_ite

theorem keptR_execCtxAbort {fz o} {a0 a1 s} (h : Kept fz o s) :
    KeptR fz o (execCtxAbort a0 a1 s) := by
  unfold execCtxAbort
  try dsimp only
  repeat' first
    | with_reducible assumption
    | intro _
    | dsimp only
    | with_reducible first | apply kept_ctxOpWrite | apply kept_each | apply kept_foldl | apply kept_foldl1 | apply keptR_next | apply keptR_fault | apply keptR_ite | apply kept_ite

theorem keptR_execCtxUnpin {fz o} {a0 s} (h : Kept fz o s) :
    KeptR fz o (execCtxUnpin a0 s) := by
  unfold execCtxUnpin
  try dsimp only
  repeat' first
    | with_reducible assumption
    | intro _
    | dsimp only
    | with_reducible first | apply kept_ctxOpWrite | apply kept_each | apply kept_foldl | apply kept_foldl1 | apply keptR_next | apply keptR_fault | apply keptR_ite | apply kept_ite

theorem keptR_execCtxDisable {fz o} {a0 s} (h : Kept fz o s) :
    KeptR fz o (execCtxDisable a0 s) := by
  unfold execCtxDisable
  try dsimp only
  repeat' first
    | with_reducible assumption
    | intro _
    | dsimp only
    | with_reducible first | apply kept_ctxOpWrite | apply kept_each | apply kept_foldl | apply kept_foldl1 | apply keptR_next | apply keptR_fault | apply keptR_ite | apply kept_ite

theorem kept_toDisabled {fz o} {s a1 a2} (h : Kept fz o s) :
    Kept fz o (toDisabled s a1 a2) := by
  unfold toDisabled
  try dsimp only
  repeat' first
    | with_reducible assumption
    | intro _
    | dsimp only
    | with_reducible first | apply kept_homeReady | apply kept_waitBack | apply kept_writeBack | apply kept_updCtx | apply kept_dropCtxEntries | apply kept_each | apply kept_foldl | apply kept_foldl1 | apply kept_ite

theorem keptR_execCtxDisableDone {fz o} {a0 a1 s} (h : Kept fz o s) :
    KeptR fz o (execCtxDisableDone a0 a1 s) := by
  unfold execCtxDisableDone
  try dsimp only
  repeat' first
    | with_reducible assumption
    | intro _
    | dsimp only
    | with_reducible first | apply kept_toDisabled | apply kept_each | apply kept_foldl | apply kept_foldl1 | apply keptR_next | apply keptR_fault | apply keptR_ite | apply kept_ite

theorem keptR_execCtxResume {fz o} {a0 s} (h : Kept fz o s) :
    KeptR fz o (execCtxResume a0 s) := by
  unfold execCtxResume
  try dsimp only
  repeat' first
    | with_reducible assumption
    | intro _
    | dsimp only
    | with_reducible first | apply kept_ctxOpWrite | apply kept_each | apply kept_foldl | apply kept_foldl1 | apply keptR_next | apply keptR_fault | apply keptR_ite | apply kept_ite

theorem keptR_execCtxAbortDone {fz o} {a0 a1 s} (h : Kept fz o s) :
    KeptR fz o (execCtxAbortDone a0 a1 s) := by
  unfold execCtxAbortDone
  try dsimp only
  repeat' first
    | with_reducible assumption
    | intro _
    | dsimp only
    | with_reducible first | apply kept_toDisabled | apply kept_abortSignals | apply kept_each | apply kept_foldl | apply kept_foldl1 | apply keptR_next | apply keptR_fault | apply keptR_ite | apply kept_ite

end Sys2Proof.Machine
end

