-- ==== Sys2Proof/Laws/KeptLinks.lean ====
section
/-! SUPPORT. What the definitions of Machine/Links.lean keep (`Kept`). -/

namespace Sys2Proof.Machine

theorem kept_startTraining {fz o} {s a1} (h : Kept fz o s) :
    Kept fz o (startTraining s a1) := by
  unfold startTraining
  try dsimp only
  repeat' first
    | with_reducible assumption
    | intro _
    | dsimp only
    | with_reducible first | apply kept_sendTs | apply kept_updBl | apply kept_each | apply kept_foldl | apply kept_foldl1 | apply kept_ite | apply kept_ite1
    | with_reducible (refine Kept.upd rfl ?_; first | assumption | apply kept_sendTs | apply kept_updBl | apply kept_each | apply kept_foldl | apply kept_foldl1 | apply kept_ite | apply kept_ite1)
    | split

theorem kept_portEnable {fz o} {s a1} (h : Kept fz o s) :
    Kept fz o (portEnable s a1) := by
  unfold portEnable
  try dsimp only
  repeat' first
    | with_reducible assumption
    | intro _
    | dsimp only
    | with_reducible first | apply kept_startTraining | apply kept_updBl | apply kept_each | apply kept_foldl | apply kept_foldl1 | apply kept_ite

theorem kept_pumpRetire {fz o} {s a1} (h : Kept fz o s) :
    Kept fz o (pumpRetire s a1) := by
  unfold pumpRetire
  try dsimp only
  repeat' first
    | with_reducible assumption
    | intro _
    | dsimp only
    | with_reducible first | apply kept_updBl | apply kept_tellRoot | apply kept_setRoutes | apply kept_each | apply kept_foldl | apply kept_foldl1 | apply kept_ite

theorem kept_reroute {fz o} {s} (h : Kept fz o s) :
    Kept fz o (reroute s) := by
  unfold reroute
  try dsimp only
  repeat' first
    | with_reducible assumption
    | intro _
    | dsimp only
    | with_reducible first | apply kept_updBl | apply kept_creditBack | apply kept_pumpTx | apply kept_each | apply kept_foldl | apply kept_foldl1 | apply kept_ite | apply kept_ite1
    | with_reducible (refine Kept.upd rfl ?_; first | assumption | apply kept_updBl | apply kept_creditBack | apply kept_pumpTx | apply kept_each | apply kept_foldl | apply kept_foldl1 | apply kept_ite | apply kept_ite1)
    | split

theorem kept_switchRoutes {fz o} {s a1 a2} (h : Kept fz o s) :
    Kept fz o (switchRoutes s a1 a2) := by
  unfold switchRoutes
  try dsimp only
  repeat' first
    | with_reducible assumption
    | intro _
    | dsimp only
    | with_reducible first | apply kept_failReqs | apply kept_pumpRetire | apply kept_reroute | apply kept_each | apply kept_foldl | apply kept_foldl1 | apply kept_ite | apply kept_ite1
    | with_reducible (refine Kept.upd rfl ?_; first | assumption | apply kept_failReqs | apply kept_pumpRetire | apply kept_reroute | apply kept_each | apply kept_foldl | apply kept_foldl1 | apply kept_ite | apply kept_ite1)
    | split

theorem kept_pumpRoutes {fz o} {s a1} (h : Kept fz o s) :
    Kept fz o (pumpRoutes s a1) := by
  unfold pumpRoutes
  try dsimp only
  repeat' first
    | with_reducible assumption
    | intro _
    | dsimp only
    | with_reducible first | apply kept_switchRoutes | apply kept_each | apply kept_foldl | apply kept_foldl1 | apply kept_ite | apply kept_ite1
    | with_reducible (refine Kept.upd rfl ?_; first | assumption | apply kept_switchRoutes | apply kept_each | apply kept_foldl | apply kept_foldl1 | apply kept_ite | apply kept_ite1)
    | split

theorem kept_sendMgmt {fz o} {s a1 a2 a3 a4} (h : Kept fz o s) :
    Kept fz o (sendMgmt s a1 a2 a3 a4) := by
  unfold sendMgmt
  try dsimp only
  repeat' first
    | with_reducible assumption
    | intro _
    | dsimp only
    | with_reducible first | apply kept_queueFlit | apply kept_each | apply kept_foldl | apply kept_foldl1 | apply kept_ite | apply kept_ite1
    | with_reducible (refine Kept.upd rfl ?_; first | assumption | apply kept_queueFlit | apply kept_each | apply kept_foldl | apply kept_foldl1 | apply kept_ite | apply kept_ite1)
    | split

theorem kept_mgmtTo {fz o} {s a1 a2 a3} (h : Kept fz o s) :
    Kept fz o (mgmtTo s a1 a2 a3) := by
  unfold mgmtTo
  try dsimp only
  repeat' first
    | with_reducible assumption
    | intro _
    | dsimp only
    | with_reducible first | apply kept_emit | apply kept_sendMgmt | apply kept_each | apply kept_foldl | apply kept_foldl1 | apply kept_ite | apply kept_ite1
    | with_reducible (refine Kept.upd rfl ?_; first | assumption | apply kept_emit | apply kept_sendMgmt | apply kept_each | apply kept_foldl | apply kept_foldl1 | apply kept_ite | apply kept_ite1)
    | split

theorem kept_tellRoot {fz o} {s} (h : Kept fz o s) :
    Kept fz o (tellRoot s) := by
  unfold tellRoot
  try dsimp only
  repeat' first
    | with_reducible assumption
    | intro _
    | dsimp only
    | with_reducible first | apply kept_mgmtTo | apply kept_each | apply kept_foldl | apply kept_foldl1 | apply kept_ite | apply kept_ite1
    | with_reducible (refine Kept.upd rfl ?_; first | assumption)

theorem kept_linkDown {fz o} {s a1 a2} (h : Kept fz o s) :
    Kept fz o (linkDown s a1 a2) := by
  unfold linkDown
  try dsimp only
  repeat' first
    | with_reducible assumption
    | intro _
    | dsimp only
    | with_reducible first | apply kept_note | apply kept_updBl | apply kept_mgmtTo | apply kept_tellRoot | apply kept_pumpRoutes | apply kept_each | apply kept_foldl | apply kept_foldl1 | apply kept_ite | apply kept_ite1
    | with_reducible (refine Kept.upd rfl ?_; first | assumption | apply kept_note | apply kept_updBl | apply kept_mgmtTo | apply kept_tellRoot | apply kept_pumpRoutes | apply kept_each | apply kept_foldl | apply kept_foldl1 | apply kept_ite | apply kept_ite1)
    | split

theorem kept_portDisable {fz o} {s a1} (h : Kept fz o s) :
    Kept fz o (portDisable s a1) := by
  unfold portDisable
  try dsimp only
  repeat' first
    | with_reducible assumption
    | intro _
    | dsimp only
    | with_reducible first | apply kept_updBl | apply kept_pumpRoutes | apply kept_linkDown | apply kept_each | apply kept_foldl | apply kept_foldl1 | apply kept_ite | apply kept_ite1
    | with_reducible (refine Kept.upd rfl ?_; first | assumption | apply kept_updBl | apply kept_pumpRoutes | apply kept_linkDown | apply kept_each | apply kept_foldl | apply kept_foldl1 | apply kept_ite | apply kept_ite1)
    | split

theorem kept_replayNote {fz o} {s a1 a2} (h : Kept fz o s) :
    Kept fz o (replayNote s a1 a2) := by
  unfold replayNote
  try dsimp only
  repeat' first
    | with_reducible assumption
    | intro _
    | dsimp only
    | with_reducible first | apply kept_note | apply kept_bumpCnt | apply kept_each | apply kept_foldl | apply kept_foldl1 | apply kept_ite | apply kept_ite1
    | with_reducible (refine Kept.upd rfl ?_; first | assumption | apply kept_note | apply kept_bumpCnt | apply kept_each | apply kept_foldl | apply kept_foldl1 | apply kept_ite | apply kept_ite1)
    | split

theorem kept_initLink {fz o} {s a1 a2 a3} (h : Kept fz o s) :
    Kept fz o (initLink s a1 a2 a3) := by
  unfold initLink
  try dsimp only
  repeat' first
    | with_reducible assumption
    | intro _
    | dsimp only
    | with_reducible first | apply kept_updBl | apply kept_replayNote | apply kept_emit | apply kept_each | apply kept_foldl | apply kept_foldl1 | apply kept_ite | apply kept_ite1
    | with_reducible (refine Kept.upd rfl ?_; first | assumption | apply kept_updBl | apply kept_replayNote | apply kept_emit | apply kept_each | apply kept_foldl | apply kept_foldl1 | apply kept_ite | apply kept_ite1)
    | split

theorem keptR_onPort {fz o} {s a1 a2} (h : Kept fz o s) (h2 : ∀ x0 x1, Kept fz o x0 → Kept fz o (a2 x0 x1)) :
    KeptR fz o (onPort s a1 a2) := by
  unfold onPort
  try dsimp only
  repeat' first
    | with_reducible assumption
    | intro _
    | dsimp only
    | with_reducible first | apply h2 | apply kept_each | apply kept_foldl | apply kept_foldl1 | apply keptR_next | apply keptR_fault | apply keptR_ite | apply kept_ite

theorem kept_setRoutes {fz o} {s a1 a2 a3} (h : Kept fz o s) :
    Kept fz o (setRoutes s a1 a2 a3) := by
  unfold setRoutes
  try dsimp only
  repeat' first
    | with_reducible assumption
    | intro _
    | dsimp only
    | with_reducible first | apply kept_pumpRoutes | apply kept_each | apply kept_foldl | apply kept_foldl1 | apply kept_ite | apply kept_ite1
    | with_reducible (refine Kept.upd rfl ?_; first | assumption | apply kept_pumpRoutes | apply kept_each | apply kept_foldl | apply kept_foldl1 | apply kept_ite | apply kept_ite1)
    | split

theorem kept_portRestore {fz o} {s a1} (h : Kept fz o s) :
    Kept fz o (portRestore s a1) := by
  unfold portRestore
  try dsimp only
  repeat' first
    | with_reducible assumption
    | intro _
    | dsimp only
    | with_reducible first | apply kept_updBl | apply kept_tellRoot | apply kept_setRoutes | apply kept_each | apply kept_foldl | apply kept_foldl1 | apply kept_ite | apply kept_ite1
    | with_reducible (refine Kept.upd rfl ?_; first | assumption | apply kept_updBl | apply kept_tellRoot | apply kept_setRoutes | apply kept_each | apply kept_foldl | apply kept_foldl1 | apply kept_ite | apply kept_ite1)
    | split

theorem keptR_execPortRestore {fz o} {a0 s} (h : Kept fz o s) :
    KeptR fz o (execPortRestore a0 s) := by
  unfold execPortRestore
  try dsimp only
  repeat' first
    | with_reducible assumption
    | intro _
    | dsimp only
    | with_reducible first | apply keptR_onPort | apply kept_portRestore

theorem kept_markStray {fz o} {s a1} (h : Kept fz o s) :
    Kept fz o (markStray s a1) := by
  unfold markStray
  try dsimp only
  repeat' first
    | with_reducible assumption
    | intro _
    | dsimp only
    | with_reducible first | apply kept_note | apply kept_updBl | apply kept_each | apply kept_foldl | apply kept_foldl1 | apply kept_ite | apply kept_ite1
    | with_reducible (refine Kept.upd rfl ?_; first | assumption | apply kept_note | apply kept_updBl | apply kept_each | apply kept_foldl | apply kept_foldl1 | apply kept_ite | apply kept_ite1)
    | split

theorem kept_strayLink {fz o} {s a1} (h : Kept fz o s) :
    Kept fz o (strayLink s a1) := by
  unfold strayLink
  try dsimp only
  repeat' first
    | with_reducible assumption
    | intro _
    | dsimp only
    | with_reducible first | apply kept_markStray | apply kept_each | apply kept_foldl | apply kept_foldl1 | apply kept_ite | apply kept_ite1
    | with_reducible (refine Kept.upd rfl ?_; first | assumption | apply kept_markStray | apply kept_each | apply kept_foldl | apply kept_foldl1 | apply kept_ite | apply kept_ite1)
    | split

theorem kept_sendAck {fz o} {s a1} (h : Kept fz o s) :
    Kept fz o (sendAck s a1) := by
  unfold sendAck
  try dsimp only
  repeat' first
    | with_reducible assumption
    | intro _
    | dsimp only
    | with_reducible first | apply kept_emit | apply kept_updBl | apply kept_each | apply kept_foldl | apply kept_foldl1 | apply kept_ite | apply kept_ite1
    | with_reducible (refine Kept.upd rfl ?_; first | assumption | apply kept_emit | apply kept_updBl | apply kept_each | apply kept_foldl | apply kept_foldl1 | apply kept_ite | apply kept_ite1)
    | split

theorem keptR_execAckTimer {fz o} {a0 s} (h : Kept fz o s) :
    KeptR fz o (execAckTimer a0 s) := by
  unfold execAckTimer
  try dsimp only
  repeat' first
    | with_reducible assumption
    | intro _
    | dsimp only
    | with_reducible first | apply kept_sendAck | apply kept_each | apply kept_foldl | apply kept_foldl1 | apply keptR_next | apply keptR_fault | apply keptR_ite | apply kept_ite

theorem kept_updDir {fz o} {s a1 a2} (h : Kept fz o s) :
    Kept fz o (updDir s a1 a2) := by
  unfold updDir
  try dsimp only
  repeat' first
    | with_reducible assumption
    | intro _
    | dsimp only
    | with_reducible first | apply kept_each | apply kept_foldl | apply kept_foldl1 | apply kept_ite | apply kept_ite1
    | with_reducible (refine Kept.upd rfl ?_; first | assumption)

theorem keptA_handleTaken {fz o} {a0 a1 a2 a3}  :
    KeptA fz o (handleTaken a0 a1 a2 a3) := by
  induction a3 with
  | nil =>
    unfold handleTaken
    try dsimp only
    repeat' first
      | with_reducible assumption
      | intro _
      | dsimp only
      | with_reducible first | apply keptA_homeGet | apply kept_each | apply kept_foldl | apply kept_foldl1 | apply keptA_pure
  | cons x l ih =>
    unfold handleTaken
    try dsimp only
    repeat' first
      | with_reducible assumption
      | intro _
      | dsimp only
      | with_reducible first | apply keptA_homeGet | apply ih | apply kept_each | apply kept_foldl | apply kept_foldl1 | apply keptA_pure | apply keptA_bind_get | apply keptA_bind | apply keptA_modify | apply keptA_throw | apply keptA_get | apply keptA_set | apply keptA_ite | apply keptA_act | apply kept_endOk | apply kept_endError | apply kept_endIte | apply kept_ite | apply kept_ite1
      | with_reducible (refine Kept.upd rfl ?_; first | assumption | apply keptA_homeGet | apply ih | apply kept_each | apply kept_foldl | apply kept_foldl1 | apply kept_ite | apply kept_ite1 | refine keptA_ok ?_ ?_ (by assumption) | refine keptA_error ?_ ?_ (by assumption))
      | refine keptA_ok ?_ ?_ (by assumption)
      | refine keptA_error ?_ ?_ (by assumption)
      | split

theorem keptA_installDir {fz o} {a0 a1 a2}  :
    KeptA fz o (installDir a0 a1 a2) := by
  unfold installDir
  try dsimp only
  repeat' first
    | with_reducible assumption
    | intro _
    | dsimp only
    | with_reducible first | apply keptA_homePut | apply kept_updDir | apply keptA_handleTaken | apply kept_each | apply kept_foldl | apply kept_foldl1 | apply keptA_pure | apply keptA_bind_get | apply keptA_bind | apply keptA_modify | apply keptA_throw | apply keptA_get | apply keptA_set | apply keptA_ite | apply keptA_act | apply kept_endOk | apply kept_endError | apply kept_endIte | apply kept_ite | apply kept_ite1
    | with_reducible (refine Kept.upd rfl ?_; first | assumption | apply keptA_homePut | apply kept_updDir | apply keptA_handleTaken | apply kept_each | apply kept_foldl | apply kept_foldl1 | apply kept_ite | apply kept_ite1 | refine keptA_ok ?_ ?_ (by assumption) | refine keptA_error ?_ ?_ (by assumption))
    | refine keptA_ok ?_ ?_ (by assumption)
    | refine keptA_error ?_ ?_ (by assumption)
    | split

theorem keptR_execPortDisable {fz o} {a0 a1 s} (h : Kept fz o s) :
    KeptR fz o (execPortDisable a0 a1 s) := by
  unfold execPortDisable
  try dsimp only
  repeat' first
    | with_reducible assumption
    | intro _
    | dsimp only
    | with_reducible first | apply keptR_onPort | apply kept_portDisable

theorem keptR_execShardDirAcknowledged {fz o} {a0 s} (h : Kept fz o s) :
    KeptR fz o (execShardDirAcknowledged a0 s) := by
  unfold execShardDirAcknowledged
  try dsimp only
  repeat' first
    | with_reducible assumption
    | intro _
    | dsimp only
    | with_reducible first | apply kept_each | apply kept_foldl | apply kept_foldl1 | apply keptR_next | apply keptR_fault | apply keptR_ite | apply kept_ite | apply kept_ite1
    | with_reducible (refine Kept.upd rfl ?_; first | assumption)

theorem keptR_execTrainingRetry {fz o} {a0 s} (h : Kept fz o s) :
    KeptR fz o (execTrainingRetry a0 s) := by
  unfold execTrainingRetry
  try dsimp only
  repeat' first
    | with_reducible assumption
    | intro _
    | dsimp only
    | with_reducible first | apply kept_reach | apply kept_sendTs | apply kept_updBl | apply kept_each | apply kept_foldl | apply kept_foldl1 | apply keptR_next | apply keptR_fault | apply keptR_ite | apply kept_ite | apply kept_ite1
    | with_reducible (refine Kept.upd rfl ?_; first | assumption | apply kept_reach | apply kept_sendTs | apply kept_updBl | apply kept_each | apply kept_foldl | apply kept_foldl1 | apply kept_ite | apply kept_ite1)
    | split

theorem kept_refuseAssign {fz o} {s} (h : Kept fz o s) :
    Kept fz o (refuseAssign s) := by
  unfold refuseAssign
  try dsimp only
  repeat' first
    | with_reducible assumption
    | intro _
    | dsimp only
    | with_reducible first | apply kept_note | apply kept_reroute | apply kept_failReqs | apply kept_each | apply kept_foldl | apply kept_foldl1 | apply kept_ite | apply kept_ite1
    | with_reducible (refine Kept.upd rfl ?_; first | assumption | apply kept_note | apply kept_reroute | apply kept_failReqs | apply kept_each | apply kept_foldl | apply kept_foldl1 | apply kept_ite | apply kept_ite1)
    | split

theorem kept_askL1 {fz o} {s a1} (h : Kept fz o s) :
    Kept fz o (askL1 s a1) := by
  unfold askL1
  try dsimp only
  repeat' first
    | with_reducible assumption
    | intro _
    | dsimp only
    | with_reducible first | apply kept_sendCtrl | apply kept_updBl | apply kept_each | apply kept_foldl | apply kept_foldl1 | apply kept_ite

theorem kept_toL1 {fz o} {s a1} (h : Kept fz o s) :
    Kept fz o (toL1 s a1) := by
  unfold toL1
  try dsimp only
  repeat' first
    | with_reducible assumption
    | intro _
    | dsimp only
    | with_reducible first | apply kept_emit | apply kept_updBl | apply kept_each | apply kept_foldl | apply kept_foldl1 | apply kept_ite | apply kept_ite1
    | with_reducible (refine Kept.upd rfl ?_; first | assumption | apply kept_emit | apply kept_updBl | apply kept_each | apply kept_foldl | apply kept_foldl1 | apply kept_ite | apply kept_ite1)
    | split

theorem kept_answerL1 {fz o} {s a1} (h : Kept fz o s) :
    Kept fz o (answerL1 s a1) := by
  unfold answerL1
  try dsimp only
  repeat' first
    | with_reducible assumption
    | intro _
    | dsimp only
    | with_reducible first | apply kept_toL1 | apply kept_sendCtrl | apply kept_each | apply kept_foldl | apply kept_foldl1 | apply kept_ite | apply kept_ite1
    | with_reducible (refine Kept.upd rfl ?_; first | assumption | apply kept_toL1 | apply kept_sendCtrl | apply kept_each | apply kept_foldl | apply kept_foldl1 | apply kept_ite | apply kept_ite1)
    | split

theorem kept_portMoves {fz o} {s a1} (h : Kept fz o s) :
    Kept fz o (portMoves s a1) := by
  unfold portMoves
  try dsimp only
  repeat' first
    | with_reducible assumption
    | intro _
    | dsimp only
    | with_reducible first | apply kept_pumpRoutes | apply kept_pumpTx | apply kept_askL1 | apply kept_answerL1 | apply kept_pumpRetire | apply kept_each | apply kept_foldl | apply kept_foldl1 | apply kept_ite | apply kept_ite1
    | with_reducible (refine Kept.upd rfl ?_; first | assumption | apply kept_pumpRoutes | apply kept_pumpTx | apply kept_askL1 | apply kept_answerL1 | apply kept_pumpRetire | apply kept_each | apply kept_foldl | apply kept_foldl1 | apply kept_ite | apply kept_ite1)
    | split

theorem keptR_execTs {fz o} {a0 a1 s} (h : Kept fz o s) :
    KeptR fz o (execTs a0 a1 s) := by
  unfold execTs
  try dsimp only
  repeat' first
    | with_reducible assumption
    | intro _
    | dsimp only
    | with_reducible first | apply kept_sendTs | apply kept_updBl | apply kept_each | apply kept_foldl | apply kept_foldl1 | apply keptR_next | apply keptR_fault | apply keptR_ite | apply kept_ite | apply kept_ite1
    | with_reducible (refine Kept.upd rfl ?_; first | assumption | apply kept_sendTs | apply kept_updBl | apply kept_each | apply kept_foldl | apply kept_foldl1 | apply kept_ite | apply kept_ite1)
    | split

theorem kept_jobDone {fz o} {s a1} (h : Kept fz o s) :
    Kept fz o (jobDone s a1) := by
  unfold jobDone
  try dsimp only
  repeat' first
    | with_reducible assumption
    | intro _
    | dsimp only
    | with_reducible first | apply kept_each | apply kept_foldl | apply kept_foldl1 | apply kept_ite | apply kept_ite1
    | with_reducible (refine Kept.upd rfl ?_; first | assumption)

theorem keptA_jobInstall {fz o} {a0 a1}  :
    KeptA fz o (jobInstall a0 a1) := by
  unfold jobInstall
  try dsimp only
  repeat' first
    | with_reducible assumption
    | intro _
    | dsimp only
    | with_reducible first | apply keptA_homeGet | apply kept_mgmtTo | apply kept_each | apply kept_foldl | apply kept_foldl1 | apply keptA_pure | apply keptA_bind_get | apply keptA_bind | apply keptA_modify | apply keptA_throw | apply keptA_get | apply keptA_set | apply keptA_ite | apply keptA_act | apply kept_endOk | apply kept_endError | apply kept_endIte | apply kept_ite | apply kept_ite1
    | with_reducible (refine Kept.upd rfl ?_; first | assumption | refine keptA_ok ?_ ?_ (by assumption) | refine keptA_error ?_ ?_ (by assumption))

theorem kept_jobWrite {fz o} {s a1 a2 a3} (h : Kept fz o s) :
    Kept fz o (jobWrite s a1 a2 a3) := by
  unfold jobWrite
  try dsimp only
  repeat' first
    | with_reducible assumption
    | intro _
    | dsimp only
    | with_reducible first | apply kept_jobDone | apply kept_runAct | apply keptA_jobInstall | apply kept_each | apply kept_foldl | apply kept_foldl1 | apply keptA_pure | apply keptA_bind_get | apply keptA_bind | apply keptA_modify | apply keptA_throw | apply keptA_get | apply keptA_set | apply keptA_ite | apply keptA_act | apply kept_endOk | apply kept_endError | apply kept_endIte | apply kept_ite | apply kept_ite1
    | with_reducible (refine Kept.upd rfl ?_; first | assumption | refine keptA_ok ?_ ?_ (by assumption) | refine keptA_error ?_ ?_ (by assumption))

theorem keptR_execJobkeyInstall {fz o} {a0 a1 s} (h : Kept fz o s) :
    KeptR fz o (execJobkeyInstall a0 a1 s) := by
  unfold execJobkeyInstall
  try dsimp only
  repeat' first
    | with_reducible assumption
    | intro _
    | dsimp only
    | with_reducible first | apply kept_jobWrite | apply kept_each | apply kept_foldl | apply kept_foldl1 | apply keptR_next | apply keptR_fault | apply keptR_ite | apply kept_ite

theorem keptR_execSafe {fz o} {a0 a1 s} (h : Kept fz o s) :
    KeptR fz o (execSafe a0 a1 s) := by
  unfold execSafe
  try dsimp only
  repeat' first
    | with_reducible assumption
    | intro _
    | dsimp only
    | with_reducible first | apply kept_pumpRoutes | apply kept_failReqs | apply kept_linkDown | apply kept_each | apply kept_foldl | apply kept_foldl1 | apply keptR_next | apply keptR_fault | apply keptR_ite | apply kept_ite | apply kept_ite1
    | with_reducible (refine Kept.upd rfl ?_; first | assumption | apply kept_pumpRoutes | apply kept_failReqs | apply kept_linkDown | apply kept_each | apply kept_foldl | apply kept_foldl1 | apply kept_ite | apply kept_ite1)
    | split

theorem kept_revokeKeys {fz o} {s a1 a2} (h : Kept fz o s) :
    Kept fz o (revokeKeys s a1 a2) := by
  unfold revokeKeys
  try dsimp only
  repeat' first
    | with_reducible assumption
    | intro _
    | dsimp only
    | with_reducible first | apply kept_updKey | apply kept_updBl | apply kept_failReqs | apply kept_mgmtTo | apply kept_each | apply kept_foldl | apply kept_foldl1 | apply kept_ite | apply kept_ite1
    | with_reducible (refine Kept.upd rfl ?_; first | assumption | apply kept_updKey | apply kept_updBl | apply kept_failReqs)

theorem kept_replayAll {fz o} {s a1} (h : Kept fz o s) :
    Kept fz o (replayAll s a1) := by
  unfold replayAll
  try dsimp only
  repeat' first
    | with_reducible assumption
    | intro _
    | dsimp only
    | with_reducible first | apply kept_emit | apply kept_replayNote | apply kept_updBl | apply kept_enterRecovery | apply kept_each | apply kept_foldl | apply kept_foldl1 | apply kept_ite | apply kept_ite1
    | with_reducible (refine Kept.upd rfl ?_; first | assumption | apply kept_emit | apply kept_replayNote | apply kept_updBl | apply kept_enterRecovery | apply kept_each | apply kept_foldl | apply kept_foldl1 | apply kept_ite | apply kept_ite1)
    | split

theorem keptR_execReplayTimer {fz o} {a0 s} (h : Kept fz o s) :
    KeptR fz o (execReplayTimer a0 s) := by
  unfold execReplayTimer
  try dsimp only
  repeat' first
    | with_reducible assumption
    | intro _
    | dsimp only
    | with_reducible first | apply kept_replayAll | apply kept_reach | apply kept_each | apply kept_foldl | apply kept_foldl1 | apply keptR_next | apply keptR_fault | apply keptR_ite | apply kept_ite

theorem keptR_execL1Ack {fz o} {a0 s} (h : Kept fz o s) :
    KeptR fz o (execL1Ack a0 s) := by
  unfold execL1Ack
  try dsimp only
  repeat' first
    | with_reducible assumption
    | intro _
    | dsimp only
    | with_reducible first | apply kept_toL1 | apply kept_updBl | apply kept_each | apply kept_foldl | apply kept_foldl1 | apply keptR_next | apply keptR_fault | apply keptR_ite | apply kept_ite | apply kept_ite1
    | with_reducible (refine Kept.upd rfl ?_; first | assumption | apply kept_toL1 | apply kept_updBl | apply kept_each | apply kept_foldl | apply kept_foldl1 | apply kept_ite | apply kept_ite1)
    | split

theorem kept_takeBoard {fz o} {s a1} (h : Kept fz o s) :
    Kept fz o (takeBoard s a1) := by
  unfold takeBoard
  try dsimp only
  repeat' first
    | with_reducible assumption
    | intro _
    | dsimp only
    | with_reducible first | apply kept_sendMgmt | apply kept_updBl | apply kept_each | apply kept_foldl | apply kept_foldl1 | apply kept_ite | apply kept_ite1
    | with_reducible (refine Kept.upd rfl ?_; first | assumption)

theorem kept_passRoutes {fz o} {s a1 a2 a3} (h : Kept fz o s) :
    Kept fz o (passRoutes s a1 a2 a3) := by
  unfold passRoutes
  try dsimp only
  repeat' first
    | with_reducible assumption
    | intro _
    | dsimp only
    | with_reducible first | apply kept_sendMgmt | apply kept_each | apply kept_foldl | apply kept_foldl1 | apply kept_ite | apply kept_ite1
    | with_reducible (refine Kept.upd rfl ?_; first | assumption | apply kept_sendMgmt | apply kept_each | apply kept_foldl | apply kept_foldl1 | apply kept_ite | apply kept_ite1)
    | split

theorem kept_buildTree {fz o} {s a1 a2 a3} (h : Kept fz o s) :
    Kept fz o (buildTree s a1 a2 a3) := by
  unfold buildTree
  try dsimp only
  repeat' first
    | with_reducible assumption
    | intro _
    | dsimp only
    | with_reducible first | apply kept_takeBoard | apply kept_sendMgmt | apply kept_setRoutes | apply kept_passRoutes | apply kept_each | apply kept_foldl | apply kept_foldl1 | apply kept_ite | apply kept_ite1
    | with_reducible (refine Kept.upd rfl ?_; first | assumption | apply kept_takeBoard | apply kept_sendMgmt | apply kept_setRoutes | apply kept_passRoutes | apply kept_each | apply kept_foldl | apply kept_foldl1 | apply kept_ite | apply kept_ite1)
    | split

theorem kept_announce {fz o} {s a1 a2} (h : Kept fz o s) :
    Kept fz o (announce s a1 a2) := by
  unfold announce
  try dsimp only
  repeat' first
    | with_reducible assumption
    | intro _
    | dsimp only
    | with_reducible first | apply kept_sendMgmt | apply kept_each | apply kept_foldl | apply kept_foldl1 | apply kept_ite

theorem keptR_execMgrAnnounce {fz o} {a0 a1 s} (h : Kept fz o s) :
    KeptR fz o (execMgrAnnounce a0 a1 s) := by
  unfold execMgrAnnounce
  try dsimp only
  repeat' first
    | with_reducible assumption
    | intro _
    | dsimp only
    | with_reducible first | apply kept_announce | apply kept_each | apply kept_foldl | apply kept_foldl1 | apply keptR_next | apply keptR_fault | apply keptR_ite | apply kept_ite | apply kept_ite1
    | with_reducible (refine Kept.upd rfl ?_; first | assumption)

theorem kept_takeAck {fz o} {s a1 a2} (h : Kept fz o s) :
    Kept fz o (takeAck s a1 a2) := by
  unfold takeAck
  try dsimp only
  repeat' first
    | with_reducible assumption
    | intro _
    | dsimp only
    | with_reducible first | apply kept_updBl | apply kept_each | apply kept_foldl | apply kept_foldl1 | apply kept_ite

theorem kept_takeCredits {fz o} {s a1 a2 a3} (h : Kept fz o s) :
    Kept fz o (takeCredits s a1 a2 a3) := by
  unfold takeCredits
  try dsimp only
  repeat' first
    | with_reducible assumption
    | intro _
    | dsimp only
    | with_reducible first | apply kept_updBl | apply kept_each | apply kept_foldl | apply kept_foldl1 | apply kept_ite

theorem kept_takeHop {fz o} {s a1 a2} (h : Kept fz o s) :
    Kept fz o (takeHop s a1 a2) := by
  unfold takeHop
  try dsimp only
  repeat' first
    | with_reducible assumption
    | intro _
    | dsimp only
    | with_reducible first | apply kept_takeAck | apply kept_portMoves | apply kept_takeCredits | apply kept_each | apply kept_foldl | apply kept_foldl1 | apply kept_ite | apply kept_ite1
    | with_reducible (refine Kept.upd rfl ?_; first | assumption | apply kept_takeAck | apply kept_portMoves | apply kept_takeCredits | apply kept_each | apply kept_foldl | apply kept_foldl1 | apply kept_ite | apply kept_ite1)
    | split

theorem kept_rxDrop {fz o} {s a1} (h : Kept fz o s) :
    Kept fz o (rxDrop s a1) := by
  unfold rxDrop
  try dsimp only
  repeat' first
    | with_reducible assumption
    | intro _
    | dsimp only
    | with_reducible first | apply kept_note

theorem kept_dropFlit {fz o} {s a1 a2 a3 a4} (h : Kept fz o s) :
    Kept fz o (dropFlit s a1 a2 a3 a4) := by
  unfold dropFlit
  try dsimp only
  repeat' first
    | with_reducible assumption
    | intro _
    | dsimp only
    | with_reducible first | apply kept_bumpCnt | apply kept_rxDrop | apply kept_creditBack | apply kept_each | apply kept_foldl | apply kept_foldl1 | apply kept_ite

theorem kept_deliverFlit {fz o} {s a1 a2 a3} (h : Kept fz o s) :
    Kept fz o (deliverFlit s a1 a2 a3) := by
  unfold deliverFlit
  try dsimp only
  repeat' first
    | with_reducible assumption
    | intro _
    | dsimp only
    | with_reducible first | apply kept_bumpCnt | apply kept_fresh | apply kept_each | apply kept_foldl | apply kept_foldl1 | apply kept_ite | apply kept_ite1
    | with_reducible (refine Kept.upd rfl ?_; first | assumption | apply kept_bumpCnt | apply kept_fresh | refine kept_ofP ?_ (by assumption))

theorem kept_localFlit {fz o} {s a1 a2} (h : Kept fz o s) :
    Kept fz o (localFlit s a1 a2) := by
  unfold localFlit
  try dsimp only
  repeat' first
    | with_reducible assumption
    | intro _
    | dsimp only
    | with_reducible first | apply kept_dropFlit | apply kept_creditBack | apply kept_deliverFlit | apply kept_each | apply kept_foldl | apply kept_foldl1 | apply kept_ite | apply kept_ite1
    | with_reducible (refine Kept.upd rfl ?_; first | assumption | apply kept_dropFlit | apply kept_creditBack | apply kept_deliverFlit | apply kept_each | apply kept_foldl | apply kept_foldl1 | apply kept_ite | apply kept_ite1)
    | split

theorem kept_forwardFlit {fz o} {s a1 a2} (h : Kept fz o s) :
    Kept fz o (forwardFlit s a1 a2) := by
  unfold forwardFlit
  try dsimp only
  repeat' first
    | with_reducible assumption
    | intro _
    | dsimp only
    | with_reducible first | apply kept_dropFlit | apply kept_creditBack | apply kept_queueFlit | apply kept_bumpCnt | apply kept_each | apply kept_foldl | apply kept_foldl1 | apply kept_ite | apply kept_ite1
    | with_reducible (refine Kept.upd rfl ?_; first | assumption | apply kept_dropFlit | apply kept_creditBack | apply kept_queueFlit | apply kept_bumpCnt | apply kept_each | apply kept_foldl | apply kept_foldl1 | apply kept_ite | apply kept_ite1)
    | split

theorem kept_acceptFlit {fz o} {s a1 a2} (h : Kept fz o s) :
    Kept fz o (acceptFlit s a1 a2) := by
  unfold acceptFlit
  try dsimp only
  repeat' first
    | with_reducible assumption
    | intro _
    | dsimp only
    | with_reducible first | apply kept_dropFlit | apply kept_localFlit | apply kept_forwardFlit | apply kept_creditBack | apply kept_each | apply kept_foldl | apply kept_foldl1 | apply kept_ite

theorem kept_floodDir {fz o} {s a1 a2} (h : Kept fz o s) :
    Kept fz o (floodDir s a1 a2) := by
  unfold floodDir
  try dsimp only
  repeat' first
    | with_reducible assumption
    | intro _
    | dsimp only
    | with_reducible first | apply kept_mgmtTo | apply kept_each | apply kept_foldl | apply kept_foldl1 | apply kept_ite | apply kept_ite1
    | with_reducible (refine Kept.upd rfl ?_; first | assumption | apply kept_mgmtTo | apply kept_each)

theorem kept_portRetrain {fz o} {s a1} (h : Kept fz o s) :
    Kept fz o (portRetrain s a1) := by
  unfold portRetrain
  try dsimp only
  repeat' first
    | with_reducible assumption
    | intro _
    | dsimp only
    | with_reducible first | apply kept_enterRecovery | apply kept_startTraining | apply kept_each | apply kept_foldl | apply kept_foldl1 | apply kept_ite

theorem keptR_execRetrain {fz o} {a0 s} (h : Kept fz o s) :
    KeptR fz o (execRetrain a0 s) := by
  unfold execRetrain
  try dsimp only
  repeat' first
    | with_reducible assumption
    | intro _
    | dsimp only
    | with_reducible first | apply keptR_onPort | apply kept_portRetrain

theorem kept_startDiscovery {fz o} {s} (h : Kept fz o s) :
    Kept fz o (startDiscovery s) := by
  unfold startDiscovery
  try dsimp only
  repeat' first
    | with_reducible assumption
    | intro _
    | dsimp only
    | with_reducible first | apply kept_announce | apply kept_each | apply kept_foldl | apply kept_foldl1 | apply kept_ite | apply kept_ite1
    | with_reducible (refine Kept.upd rfl ?_; first | assumption)

theorem kept_discWrite {fz o} {s a1} (h : Kept fz o s) :
    Kept fz o (discWrite s a1) := by
  unfold discWrite
  try dsimp only
  repeat' first
    | with_reducible assumption
    | intro _
    | dsimp only
    | with_reducible first | apply kept_startDiscovery | apply kept_each | apply kept_foldl | apply kept_foldl1 | apply kept_ite | apply kept_ite1
    | with_reducible (refine Kept.upd rfl ?_; first | assumption)

theorem keptR_execRediscover {fz o} {s} (h : Kept fz o s) :
    KeptR fz o (execRediscover s) := by
  unfold execRediscover
  try dsimp only
  repeat' first
    | with_reducible assumption
    | intro _
    | dsimp only
    | with_reducible first | apply kept_discWrite | apply kept_each | apply kept_foldl | apply kept_foldl1 | apply keptR_next | apply keptR_fault | apply keptR_ite | apply kept_ite

theorem kept_dirAck {fz o} {s a1} (h : Kept fz o s) :
    Kept fz o (dirAck s a1) := by
  unfold dirAck
  try dsimp only
  repeat' first
    | with_reducible assumption
    | intro _
    | dsimp only
    | with_reducible first | apply kept_mgmtTo

theorem kept_shardDone {fz o} {s a1} (h : Kept fz o s) :
    Kept fz o (shardDone s a1) := by
  unfold shardDone
  try dsimp only
  repeat' first
    | with_reducible assumption
    | intro _
    | dsimp only
    | with_reducible first | apply kept_each | apply kept_foldl | apply kept_foldl1 | apply kept_ite | apply kept_ite1
    | with_reducible (refine Kept.upd rfl ?_; first | assumption)

theorem kept_keyNote {fz o} {s a1} (h : Kept fz o s) :
    Kept fz o (keyNote s a1) := by
  unfold keyNote
  try dsimp only
  repeat' first
    | with_reducible assumption
    | intro _
    | dsimp only
    | with_reducible first | apply kept_note

theorem keptR_execKeyNotice {fz o} {a0 a1 a2 s} (h : Kept fz o s) :
    KeptR fz o (execKeyNotice a0 a1 a2 s) := by
  unfold execKeyNotice
  try dsimp only
  repeat' first
    | with_reducible assumption
    | intro _
    | dsimp only
    | with_reducible first | apply kept_each | apply kept_foldl | apply kept_foldl1 | apply keptR_next

theorem kept_portRetire {fz o} {s a1} (h : Kept fz o s) :
    Kept fz o (portRetire s a1) := by
  unfold portRetire
  try dsimp only
  repeat' first
    | with_reducible assumption
    | intro _
    | dsimp only
    | with_reducible first | apply kept_updBl | apply kept_pumpRetire | apply kept_tellRoot | apply kept_setRoutes | apply kept_each | apply kept_foldl | apply kept_foldl1 | apply kept_ite | apply kept_ite1
    | with_reducible (refine Kept.upd rfl ?_; first | assumption | apply kept_updBl | apply kept_pumpRetire | apply kept_tellRoot | apply kept_setRoutes | apply kept_each | apply kept_foldl | apply kept_foldl1 | apply kept_ite | apply kept_ite1)
    | split

theorem keptR_execIdleFlit {fz o} {a0 a1 s} (h : Kept fz o s) :
    KeptR fz o (execIdleFlit a0 a1 s) := by
  unfold execIdleFlit
  try dsimp only
  repeat' first
    | with_reducible assumption
    | intro _
    | dsimp only
    | with_reducible first | apply kept_takeHop | apply kept_each | apply kept_foldl | apply kept_foldl1 | apply keptR_next | apply keptR_fault | apply keptR_ite | apply kept_ite

theorem keptR_execPortRetire {fz o} {a0 s} (h : Kept fz o s) :
    KeptR fz o (execPortRetire a0 s) := by
  unfold execPortRetire
  try dsimp only
  repeat' first
    | with_reducible assumption
    | intro _
    | dsimp only
    | with_reducible first | apply keptR_onPort | apply kept_portRetire

theorem kept_clearNonces {fz o} {s a1} (h : Kept fz o s) :
    Kept fz o (clearNonces s a1) := by
  unfold clearNonces
  try dsimp only
  repeat' first
    | with_reducible assumption
    | intro _
    | dsimp only
    | with_reducible first | apply kept_each | apply kept_foldl | apply kept_foldl1 | apply kept_ite | apply kept_ite1
    | with_reducible (refine Kept.upd rfl ?_; first | assumption)

theorem keptR_execCredit {fz o} {a0 a1 a2 a3 a4 s} (h : Kept fz o s) :
    KeptR fz o (execCredit a0 a1 a2 a3 a4 s) := by
  unfold execCredit
  try dsimp only
  repeat' first
    | with_reducible assumption
    | intro _
    | dsimp only
    | with_reducible first | apply kept_portMoves | apply kept_takeCredits | apply kept_each | apply kept_foldl | apply kept_foldl1 | apply keptR_next | apply keptR_fault | apply keptR_ite | apply kept_ite

theorem keptA_publishAct {fz o} {a0 a1}  :
    KeptA fz o (publishAct a0 a1) := by
  unfold publishAct
  try dsimp only
  repeat' first
    | with_reducible assumption
    | intro _
    | dsimp only
    | with_reducible first | apply keptA_homeGet | apply kept_shardDone | apply kept_floodDir | apply kept_each | apply kept_foldl | apply kept_foldl1 | apply keptA_pure | apply keptA_bind_get | apply keptA_bind | apply keptA_modify | apply keptA_throw | apply keptA_get | apply keptA_set | apply keptA_ite

theorem kept_shardWrite {fz o} {s a1 a2 a3} (h : Kept fz o s) :
    Kept fz o (shardWrite s a1 a2 a3) := by
  unfold shardWrite
  try dsimp only
  repeat' first
    | with_reducible assumption
    | intro _
    | dsimp only
    | with_reducible first | apply kept_shardDone | apply kept_floodDir | apply kept_runAct | apply keptA_publishAct | apply kept_each | apply kept_foldl | apply kept_foldl1 | apply keptA_pure | apply keptA_bind_get | apply keptA_bind | apply keptA_modify | apply keptA_throw | apply keptA_get | apply keptA_set | apply keptA_ite | apply keptA_act | apply kept_endOk | apply kept_endError | apply kept_endIte | apply kept_ite | apply kept_ite1
    | with_reducible (refine Kept.upd rfl ?_; first | assumption | refine keptA_ok ?_ ?_ (by assumption) | refine keptA_error ?_ ?_ (by assumption))

theorem keptR_execPublish {fz o} {a0 a1 s} (h : Kept fz o s) :
    KeptR fz o (execPublish a0 a1 s) := by
  unfold execPublish
  try dsimp only
  repeat' first
    | with_reducible assumption
    | intro _
    | dsimp only
    | with_reducible first | apply kept_shardWrite | apply kept_each | apply kept_foldl | apply kept_foldl1 | apply keptR_next | apply keptR_fault | apply keptR_ite | apply kept_ite

theorem keptR_execDiscoveryStart {fz o} {s} (h : Kept fz o s) :
    KeptR fz o (execDiscoveryStart s) := by
  unfold execDiscoveryStart
  try dsimp only
  repeat' first
    | with_reducible assumption
    | intro _
    | dsimp only
    | with_reducible first | apply kept_startDiscovery | apply kept_each | apply kept_foldl | apply kept_foldl1 | apply keptR_next | apply keptR_fault | apply keptR_ite | apply kept_ite

theorem kept_takeMesh {fz o} {s a1} (h : Kept fz o s) :
    Kept fz o (takeMesh s a1) := by
  unfold takeMesh
  try dsimp only
  repeat' first
    | with_reducible assumption
    | intro _
    | dsimp only
    | with_reducible first | apply kept_updBl | apply kept_markStray | apply kept_each | apply kept_foldl | apply kept_foldl1 | apply kept_ite | apply kept_ite1
    | with_reducible (refine Kept.upd rfl ?_; first | assumption | apply kept_updBl | apply kept_markStray | apply kept_each | apply kept_foldl | apply kept_foldl1 | apply kept_ite | apply kept_ite1)
    | split

theorem keptR_execRoute {fz o} {a0 a1 a2 s} (h : Kept fz o s) :
    KeptR fz o (execRoute a0 a1 a2 s) := by
  unfold execRoute
  try dsimp only
  repeat' first
    | with_reducible assumption
    | intro _
    | dsimp only
    | with_reducible first | apply kept_takeBoard | apply kept_setRoutes | apply kept_passRoutes | apply kept_takeMesh | apply kept_each | apply kept_foldl | apply kept_foldl1 | apply keptR_next | apply keptR_fault | apply keptR_ite | apply kept_ite | apply kept_ite1
    | with_reducible (refine Kept.upd rfl ?_; first | assumption | apply kept_takeBoard | apply kept_setRoutes | apply kept_passRoutes | apply kept_takeMesh | apply kept_each | apply kept_foldl | apply kept_foldl1 | apply kept_ite | apply kept_ite1)
    | split

theorem keptR_execLaneLockLoss {fz o} {a0 s} (h : Kept fz o s) :
    KeptR fz o (execLaneLockLoss a0 s) := by
  unfold execLaneLockLoss
  try dsimp only
  repeat' first
    | with_reducible assumption
    | intro _
    | dsimp only
    | with_reducible first | apply kept_enterRecovery | apply kept_each | apply kept_foldl | apply kept_foldl1 | apply keptR_next | apply keptR_fault | apply keptR_ite | apply kept_ite

theorem kept_dataFlit {fz o} {s a1 a2} (h : Kept fz o s) :
    Kept fz o (dataFlit s a1 a2) := by
  unfold dataFlit
  try dsimp only
  repeat' first
    | with_reducible assumption
    | intro _
    | dsimp only
    | with_reducible first | apply kept_bumpCnt | apply kept_sendCtrl | apply kept_updBl | apply kept_takeHop | apply kept_acceptFlit | apply kept_sendAck | apply kept_each | apply kept_foldl | apply kept_foldl1 | apply kept_ite

theorem keptR_execDataFlit {fz o} {a0 a1 s} (h : Kept fz o s) :
    KeptR fz o (execDataFlit a0 a1 s) := by
  unfold execDataFlit
  try dsimp only
  repeat' first
    | with_reducible assumption
    | intro _
    | dsimp only
    | with_reducible first | apply kept_dataFlit | apply kept_each | apply kept_foldl | apply kept_foldl1 | apply keptR_next | apply keptR_fault | apply keptR_ite | apply kept_ite

theorem keptR_execL1Req {fz o} {a0 s} (h : Kept fz o s) :
    KeptR fz o (execL1Req a0 s) := by
  unfold execL1Req
  try dsimp only
  repeat' first
    | with_reducible assumption
    | intro _
    | dsimp only
    | with_reducible first | apply kept_answerL1 | apply kept_updBl | apply kept_each | apply kept_foldl | apply kept_foldl1 | apply keptR_next | apply keptR_fault | apply keptR_ite | apply kept_ite

theorem keptR_execLinkTrained {fz o} {a0 a1 a2 s} (h : Kept fz o s) :
    KeptR fz o (execLinkTrained a0 a1 a2 s) := by
  unfold execLinkTrained
  try dsimp only
  repeat' first
    | with_reducible assumption
    | intro _
    | dsimp only
    | with_reducible first | apply kept_portMoves | apply kept_strayLink | apply kept_initLink | apply kept_each | apply kept_foldl | apply kept_foldl1 | apply keptR_next | apply keptR_fault | apply keptR_ite | apply kept_ite | apply kept_ite1
    | with_reducible (refine Kept.upd rfl ?_; first | assumption | apply kept_portMoves | apply kept_strayLink | apply kept_initLink | apply kept_each | apply kept_foldl | apply kept_foldl1 | apply kept_ite | apply kept_ite1)
    | split

theorem kept_dirNote {fz o} {s} (h : Kept fz o s) :
    Kept fz o (dirNote s) := by
  unfold dirNote
  try dsimp only
  repeat' first
    | with_reducible assumption
    | intro _
    | dsimp only
    | with_reducible first | apply kept_note

theorem keptR_execPortEnable {fz o} {a0 s} (h : Kept fz o s) :
    KeptR fz o (execPortEnable a0 s) := by
  unfold execPortEnable
  try dsimp only
  repeat' first
    | with_reducible assumption
    | intro _
    | dsimp only
    | with_reducible first | apply keptR_onPort | apply kept_portEnable

theorem keptR_execRootElection {fz o} {a0 s} (h : Kept fz o s) :
    KeptR fz o (execRootElection a0 s) := by
  unfold execRootElection
  try dsimp only
  repeat' first
    | with_reducible assumption
    | intro _
    | dsimp only
    | with_reducible first | apply kept_buildTree | apply kept_each | apply kept_foldl | apply kept_foldl1 | apply keptR_next | apply keptR_fault | apply keptR_ite | apply kept_ite | apply kept_ite1
    | with_reducible (refine Kept.upd rfl ?_; first | assumption | apply kept_buildTree | apply kept_each | apply kept_foldl | apply kept_foldl1 | apply kept_ite | apply kept_ite1)
    | split

theorem keptR_execNak {fz o} {a0 a1 s} (h : Kept fz o s) :
    KeptR fz o (execNak a0 a1 s) := by
  unfold execNak
  try dsimp only
  repeat' first
    | with_reducible assumption
    | intro _
    | dsimp only
    | with_reducible first | apply kept_portMoves | apply kept_replayAll | apply kept_takeAck | apply kept_each | apply kept_foldl | apply kept_foldl1 | apply keptR_next | apply keptR_fault | apply keptR_ite | apply kept_ite

theorem keptR_execTopoChange {fz o} {a0 s} (h : Kept fz o s) :
    KeptR fz o (execTopoChange a0 s) := by
  unfold execTopoChange
  try dsimp only
  repeat' first
    | with_reducible assumption
    | intro _
    | dsimp only
    | with_reducible first | apply kept_buildTree | apply kept_mgmtTo | apply kept_each | apply kept_foldl | apply kept_foldl1 | apply keptR_next | apply keptR_fault | apply keptR_ite | apply kept_ite | apply kept_ite1
    | with_reducible (refine Kept.upd rfl ?_; first | assumption | apply kept_buildTree | apply kept_mgmtTo | apply kept_each | apply kept_foldl | apply kept_foldl1 | apply kept_ite | apply kept_ite1)
    | split

theorem keptR_execAssign {fz o} {a0 a1 s} (h : Kept fz o s) :
    KeptR fz o (execAssign a0 a1 s) := by
  unfold execAssign
  try dsimp only
  repeat' first
    | with_reducible assumption
    | intro _
    | dsimp only
    | with_reducible first | apply kept_refuseAssign | apply kept_each | apply kept_foldl | apply kept_foldl1 | apply keptR_next | apply keptR_fault | apply keptR_ite | apply kept_ite | apply kept_ite1
    | with_reducible (refine Kept.upd rfl ?_; first | assumption | apply kept_refuseAssign | apply kept_each | apply kept_foldl | apply kept_foldl1 | apply kept_ite | apply kept_ite1)
    | split

theorem kept_dropDirWait {fz o} {s a1} (h : Kept fz o s) :
    Kept fz o (dropDirWait s a1) := by
  unfold dropDirWait
  try dsimp only
  repeat' first
    | with_reducible assumption
    | intro _
    | dsimp only
    | with_reducible first | apply kept_each | apply kept_foldl | apply kept_foldl1 | apply kept_ite | apply kept_ite1
    | with_reducible (refine Kept.upd rfl ?_; first | assumption | apply kept_each | apply kept_foldl | apply kept_foldl1 | apply kept_ite | apply kept_ite1)
    | split

theorem kept_placeImage {fz o} {s a1 a2 a3 a4} (h : Kept fz o s) :
    Kept fz o (placeImage s a1 a2 a3 a4) := by
  unfold placeImage
  try dsimp only
  repeat' first
    | with_reducible assumption
    | intro _
    | dsimp only
    | with_reducible first | apply kept_runAct | apply keptA_installDir | apply kept_dropDirWait | apply kept_dirAck | apply kept_dirNote | apply kept_each | apply kept_foldl | apply kept_foldl1 | apply keptA_pure | apply keptA_bind_get | apply keptA_bind | apply keptA_modify | apply keptA_throw | apply keptA_get | apply keptA_set | apply keptA_ite | apply keptA_act | apply kept_endOk | apply kept_endError | apply kept_endIte | apply kept_ite | apply kept_ite1
    | with_reducible (refine Kept.upd rfl ?_; first | assumption | apply kept_runAct | apply keptA_installDir | apply kept_dropDirWait | apply kept_dirAck | apply kept_dirNote | apply kept_each | apply kept_foldl | apply kept_foldl1 | apply kept_ite | apply kept_ite1 | refine keptA_ok ?_ ?_ (by assumption) | refine keptA_error ?_ ?_ (by assumption))
    | refine keptA_ok ?_ ?_ (by assumption)
    | refine keptA_error ?_ ?_ (by assumption)
    | split
    | refine keptA_fun ?_
    | with_reducible apply KeptA.ends

theorem keptR_execKeyInstallAnswered {fz o} {a0 a1 s} (h : Kept fz o s) :
    KeptR fz o (execKeyInstallAnswered a0 a1 s) := by
  unfold execKeyInstallAnswered
  refine keptR_next (kept_ite (fun _ => Kept.upd rfl h) fun _ => ?_)
  split
  · exact kept_mgmtTo (Kept.upd rfl h)
  · exact h

theorem kept_takeKey {fz o} {s a1 a2 a3} (h : Kept fz o s) :
    Kept fz o (takeKey s a1 a2 a3) := by
  unfold takeKey
  dsimp only
  refine kept_ite (fun _ => ?_) fun _ => ?_
  · exact kept_mgmtTo (kept_keyNote h)
  · exact kept_mgmtTo (kept_clearNonces (Kept.upd rfl (kept_updKey h)))

theorem kept_relayKey {fz o} {s a1 a2 a3 a4} (h : Kept fz o s) :
    Kept fz o (relayKey s a1 a2 a3 a4) := by
  unfold relayKey
  dsimp only
  refine kept_ite (fun _ => ?_) fun _ => ?_
  · exact kept_mgmtTo (kept_keyNote h)
  · exact kept_mgmtTo (Kept.upd rfl h)

theorem keptR_execKeyInstall {fz o} {a0 a1 a2 s} (h : Kept fz o s) :
    KeptR fz o (execKeyInstall a0 a1 a2 s) := by
  unfold execKeyInstall
  exact keptR_next (kept_ite (fun _ => h) fun _ => kept_ite (fun _ => kept_takeKey h) fun _ => kept_ite (fun _ => kept_relayKey h) fun _ => h)

theorem kept_takeImage {fz o} {s a1 a2 a3 a4 a5} (h : Kept fz o s) :
    Kept fz o (takeImage s a1 a2 a3 a4 a5) := by
  unfold takeImage
  try dsimp only
  repeat' first
    | with_reducible assumption
    | intro _
    | dsimp only
    | with_reducible first | apply kept_dirAck | apply kept_dirNote | apply kept_placeImage | apply kept_each | apply kept_foldl | apply kept_foldl1 | apply kept_ite | apply kept_ite1
    | with_reducible (refine Kept.upd rfl ?_; first | assumption | apply kept_dirAck | apply kept_dirNote | apply kept_placeImage | apply kept_each | apply kept_foldl | apply kept_foldl1 | apply kept_ite | apply kept_ite1)
    | split

theorem keptR_execShardDir {fz o} {a0 a1 a2 a3 a4 a5 s} (h : Kept fz o s) :
    KeptR fz o (execShardDir a0 a1 a2 a3 a4 a5 s) := by
  unfold execShardDir
  try dsimp only
  repeat' first
    | with_reducible assumption
    | intro _
    | dsimp only
    | with_reducible first | apply kept_dirNote | apply kept_dirAck | apply kept_updDir | apply kept_dropDirWait | apply kept_takeImage | apply kept_each | apply kept_foldl | apply kept_foldl1 | apply keptR_next | apply keptR_fault | apply keptR_ite | apply kept_ite | apply kept_ite1
    | with_reducible (refine Kept.upd rfl ?_; first | assumption | apply kept_dirNote | apply kept_dirAck | apply kept_updDir | apply kept_dropDirWait | apply kept_takeImage | apply kept_each | apply kept_foldl | apply kept_foldl1 | apply kept_ite | apply kept_ite1)
    | split

theorem keptR_execWithdraw {fz o} {a0 s} (h : Kept fz o s) :
    KeptR fz o (execWithdraw a0 s) := by
  unfold execWithdraw
  try dsimp only
  repeat' first
    | with_reducible assumption
    | intro _
    | dsimp only
    | with_reducible first | apply kept_shardWrite | apply kept_each | apply kept_foldl | apply kept_foldl1 | apply keptR_next | apply keptR_fault | apply keptR_ite | apply kept_ite

theorem kept_trainFail {fz o} {s a1} (h : Kept fz o s) :
    Kept fz o (trainFail s a1) := by
  unfold trainFail
  try dsimp only
  repeat' first
    | with_reducible assumption
    | intro _
    | dsimp only
    | with_reducible first | apply kept_updBl | apply kept_note | apply kept_each | apply kept_foldl | apply kept_foldl1 | apply kept_ite

theorem keptR_execTrainingTimeout {fz o} {a0 a1 s} (h : Kept fz o s) :
    KeptR fz o (execTrainingTimeout a0 a1 s) := by
  unfold execTrainingTimeout
  try dsimp only
  repeat' first
    | with_reducible assumption
    | intro _
    | dsimp only
    | with_reducible first | apply kept_pumpRoutes | apply kept_trainFail | apply kept_linkDown | apply kept_reach | apply kept_each | apply kept_foldl | apply kept_foldl1 | apply keptR_next | apply keptR_fault | apply keptR_ite | apply kept_ite | apply kept_ite1
    | with_reducible (refine Kept.upd rfl ?_; first | assumption | apply kept_pumpRoutes | apply kept_trainFail | apply kept_linkDown | apply kept_reach | apply kept_each | apply kept_foldl | apply kept_foldl1 | apply kept_ite | apply kept_ite1)
    | split

theorem kept_pumpDirs {fz o} {s a1} (h : Kept fz o s) :
    Kept fz o (pumpDirs s a1) := by
  unfold pumpDirs
  try dsimp only
  repeat' first
    | with_reducible assumption
    | intro _
    | dsimp only
    | with_reducible first | apply kept_placeImage | apply kept_each | apply kept_foldl | apply kept_foldl1 | apply kept_ite | apply kept_ite1
    | with_reducible (refine Kept.upd rfl ?_; first | assumption | apply kept_placeImage | apply kept_each | apply kept_foldl | apply kept_foldl1 | apply kept_ite | apply kept_ite1)
    | split

end Sys2Proof.Machine
end

