-- ==== Sys2Proof/Laws/KeptCommands.lean ====
section
/-! SUPPORT. What the definitions of Machine/Commands.lean keep (`Kept`). -/

namespace Sys2Proof.Machine

theorem kept_waitEval {fz o} {s a1 a2} (h : Kept fz o s) :
    Kept fz o (waitEval s a1 a2) := by
  unfold waitEval
  try dsimp only
  repeat' first
    | with_reducible assumption
    | intro _
    | dsimp only
    | with_reducible first | apply kept_runAct | apply keptA_eventValue | apply kept_startLoad | apply kept_endCmd | apply kept_stopCmd | apply kept_each | apply kept_foldl | apply kept_foldl1 | apply keptA_pure | apply keptA_bind_get | apply keptA_bind | apply keptA_modify | apply keptA_throw | apply keptA_get | apply keptA_set | apply keptA_ite | apply keptA_act | apply kept_endOk | apply kept_endError | apply kept_endIte | apply kept_ite | apply kept_ite1
    | with_reducible (refine Kept.upd rfl ?_; first | assumption | apply kept_runAct | apply keptA_eventValue | apply kept_startLoad | apply kept_endCmd | apply kept_stopCmd | apply kept_each | apply kept_foldl | apply kept_foldl1 | apply kept_ite | apply kept_ite1 | refine keptA_ok ?_ ?_ (by assumption) | refine keptA_error ?_ ?_ (by assumption))
    | refine keptA_ok ?_ ?_ (by assumption)
    | refine keptA_error ?_ ?_ (by assumption)
    | split

theorem keptA_ctrlOk {fz o} {a0}  :
    KeptA fz o (ctrlOk a0) := by
  unfold ctrlOk
  try dsimp only
  repeat' first
    | with_reducible assumption
    | intro _
    | dsimp only
    | with_reducible first | apply keptA_need | apply kept_each | apply kept_foldl | apply kept_foldl1 | apply keptA_pure | apply keptA_bind_get

theorem keptA_contextAbortAct {fz o} {a0 a1 a2}  :
    KeptA fz o (contextAbortAct a0 a1 a2) := by
  unfold contextAbortAct
  try dsimp only
  repeat' first
    | with_reducible assumption
    | intro _
    | dsimp only
    | with_reducible first | apply keptA_ctrlOk | apply kept_ctxAbort | apply keptA_need | apply keptA_okCmd | apply kept_each | apply kept_foldl | apply kept_foldl1 | apply keptA_pure | apply keptA_bind_get | apply keptA_bind | apply keptA_modify | apply keptA_throw | apply keptA_get | apply keptA_set | apply keptA_ite | apply keptA_act | apply kept_endOk | apply kept_endError | apply kept_endIte | apply kept_ite | apply kept_ite1
    | with_reducible (refine Kept.upd rfl ?_; first | assumption | apply keptA_ctrlOk | apply kept_ctxAbort | refine keptA_ok ?_ ?_ (by assumption) | refine keptA_error ?_ ?_ (by assumption) | refine kept_ofP ?_ (by assumption))

theorem keptA_waitAct {fz o} {a0 a1 a2}  :
    KeptA fz o (waitAct a0 a1 a2) := by
  unfold waitAct
  try dsimp only
  repeat' first
    | with_reducible assumption
    | intro _
    | dsimp only
    | with_reducible first | apply keptA_objGet | apply keptA_trAct | apply keptA_eventValue | apply keptA_okCmd | apply kept_updCmd | apply kept_each | apply kept_foldl | apply kept_foldl1 | apply keptA_pure | apply keptA_bind_get | apply keptA_bind | apply keptA_modify | apply keptA_throw | apply keptA_get | apply keptA_set | apply keptA_ite

theorem keptR_execContextAbort {fz o} {a0 a1 s} (h : Kept fz o s) :
    KeptR fz o (execContextAbort a0 a1 s) := by
  unfold execContextAbort
  try dsimp only
  repeat' first
    | with_reducible assumption
    | intro _
    | dsimp only
    | with_reducible first | apply kept_runCmd | apply keptA_contextAbortAct | apply kept_each | apply kept_foldl | apply kept_foldl1 | apply keptA_pure | apply keptA_bind_get | apply keptA_bind | apply keptA_modify | apply keptA_throw | apply keptA_get | apply keptA_set | apply keptA_ite | apply keptA_act | apply kept_endOk | apply kept_endError | apply kept_endIte | apply keptR_next

theorem keptA_findDir {fz o} {a0 a1 a2}  :
    KeptA fz o (findDir a0 a1 a2) := by
  induction a2 with
  | nil =>
    unfold findDir
    try dsimp only
    repeat' first
      | with_reducible assumption
      | intro _
      | dsimp only
      | with_reducible first | apply keptA_homeGet | apply kept_each | apply kept_foldl | apply kept_foldl1 | apply keptA_pure
  | cons x l ih =>
    unfold findDir
    try dsimp only
    repeat' first
      | with_reducible assumption
      | intro _
      | dsimp only
      | with_reducible first | apply keptA_homeGet | apply ih | apply kept_each | apply kept_foldl | apply kept_foldl1 | apply keptA_pure | apply keptA_bind_get | apply keptA_bind | apply keptA_modify | apply keptA_throw | apply keptA_get | apply keptA_set | apply keptA_ite | apply keptA_act | apply kept_endOk | apply kept_endError | apply kept_endIte | apply kept_ite | apply kept_ite1
      | with_reducible (refine Kept.upd rfl ?_; first | assumption | apply keptA_homeGet | apply ih | apply kept_each | apply kept_foldl | apply kept_foldl1 | apply kept_ite | apply kept_ite1 | refine keptA_ok ?_ ?_ (by assumption) | refine keptA_error ?_ ?_ (by assumption))
      | refine keptA_ok ?_ ?_ (by assumption)
      | refine keptA_error ?_ ?_ (by assumption)
      | split

theorem keptA_signalAct {fz o} {a0 a1 a2}  :
    KeptA fz o (signalAct a0 a1 a2) := by
  unfold signalAct
  try dsimp only
  repeat' first
    | with_reducible assumption
    | intro _
    | dsimp only
    | with_reducible first | apply keptA_objGet | apply keptA_signalEvent | apply keptA_okCmd | apply kept_each | apply kept_foldl | apply kept_foldl1 | apply keptA_pure | apply keptA_bind_get | apply keptA_bind

theorem kept_ringWaitNote {fz o} {s a1 a2} (h : Kept fz o s) :
    Kept fz o (ringWaitNote s a1 a2) := by
  unfold ringWaitNote
  try dsimp only
  repeat' first
    | with_reducible assumption
    | intro _
    | dsimp only
    | with_reducible first | apply kept_note

theorem keptR_execBounceRingFullNote {fz o} {a0 s} (h : Kept fz o s) :
    KeptR fz o (execBounceRingFullNote a0 s) := by
  unfold execBounceRingFullNote
  try dsimp only
  repeat' first
    | with_reducible assumption
    | intro _
    | dsimp only
    | with_reducible first | apply kept_ringWaitNote | apply kept_each | apply kept_foldl | apply kept_foldl1 | apply keptR_next | apply keptR_fault | apply keptR_ite | apply kept_ite

theorem kept_cmdFlushed {fz o} {s a1 a2 a3 a4} (h : Kept fz o s) :
    Kept fz o (cmdFlushed s a1 a2 a3 a4) := by
  unfold cmdFlushed
  try dsimp only
  repeat' first
    | with_reducible assumption
    | intro _
    | dsimp only
    | with_reducible first | apply kept_updCmd | apply kept_complete | apply kept_each | apply kept_foldl | apply kept_foldl1 | apply kept_ite | apply kept_ite1
    | with_reducible (refine Kept.upd rfl ?_; first | assumption | apply kept_updCmd | apply kept_complete | apply kept_each | apply kept_foldl | apply kept_foldl1 | apply kept_ite | apply kept_ite1)
    | split

theorem kept_admitFlushed {fz o} {s a1 a2 a3} (h : Kept fz o s) :
    Kept fz o (admitFlushed s a1 a2 a3) := by
  unfold admitFlushed
  try dsimp only
  repeat' first
    | with_reducible assumption
    | intro _
    | dsimp only
    | with_reducible first | apply kept_updTable | apply keptA_keyUse | apply kept_postSignal | apply kept_waitBack | apply kept_each | apply kept_foldl | apply kept_foldl1 | apply keptA_pure | apply keptA_bind_get | apply keptA_bind | apply keptA_modify | apply keptA_throw | apply keptA_get | apply keptA_set | apply keptA_ite | apply keptA_act | apply kept_endOk | apply kept_endError | apply kept_endIte | apply kept_ite | apply kept_ite1
    | with_reducible (refine Kept.upd rfl ?_; first | assumption | apply kept_updTable | apply keptA_keyUse | apply kept_postSignal | apply kept_waitBack | apply kept_each | apply kept_foldl | apply kept_foldl1 | apply kept_ite | apply kept_ite1 | refine keptA_ok ?_ ?_ (by assumption) | refine keptA_error ?_ ?_ (by assumption))
    | refine keptA_ok ?_ ?_ (by assumption)
    | refine keptA_error ?_ ?_ (by assumption)
    | split
    | refine keptA_fun ?_
    | with_reducible apply KeptA.ends

theorem kept_coverOver {fz o} {s a1 a2 a3 a4} (h : Kept fz o s) :
    Kept fz o (coverOver s a1 a2 a3 a4) := by
  unfold coverOver
  try dsimp only
  repeat' first
    | with_reducible assumption
    | intro _
    | dsimp only
    | with_reducible first | apply kept_cmdFlushed | apply kept_chanFlushed | apply kept_servedFlushed | apply kept_admitFlushed | apply kept_each | apply kept_foldl | apply kept_foldl1 | apply kept_ite | apply kept_ite1
    | with_reducible (refine Kept.upd rfl ?_; first | assumption | apply kept_cmdFlushed | apply kept_chanFlushed | apply kept_servedFlushed | apply kept_admitFlushed | apply kept_each | apply kept_foldl | apply kept_foldl1 | apply kept_ite | apply kept_ite1)
    | split

theorem kept_flushOver {fz o} {s a1 a2 a3 a4} (h : Kept fz o s) :
    Kept fz o (flushOver s a1 a2 a3 a4) := by
  unfold flushOver
  try dsimp only
  repeat' first
    | with_reducible assumption
    | intro _
    | dsimp only
    | with_reducible first | apply kept_updHost | apply kept_coverOver | apply kept_each | apply kept_foldl | apply kept_foldl1 | apply kept_ite | apply kept_ite1
    | with_reducible (refine Kept.upd rfl ?_; first | assumption | apply kept_updHost | apply kept_coverOver | apply kept_each | apply kept_foldl | apply kept_foldl1 | apply kept_ite | apply kept_ite1)
    | split

theorem kept_resumeCmd {fz o} {s a1 a2 a3} (h : Kept fz o s) (h3 : ∀ x0, KeptA fz o (a3 x0)) :
    Kept fz o (resumeCmd s a1 a2 a3) := by
  unfold resumeCmd
  try dsimp only
  repeat' first
    | with_reducible assumption
    | intro _
    | dsimp only
    | with_reducible first | apply kept_runCmd | apply keptA_ctrlOk | apply keptA_okCmd | apply h3 | apply kept_each | apply kept_foldl | apply kept_foldl1 | apply keptA_pure | apply keptA_bind_get | apply keptA_bind | apply keptA_modify | apply keptA_throw | apply keptA_get | apply keptA_set | apply keptA_ite

theorem keptA_pinHandles {fz o} {a0 a1 a2 a3}  :
    KeptA fz o (pinHandles a0 a1 a2 a3) := by
  induction a3 with
  | nil =>
    unfold pinHandles
    try dsimp only
    repeat' first
      | with_reducible assumption
      | intro _
      | dsimp only
      | with_reducible first | apply keptA_lookupHandle | apply keptA_pinObj | apply kept_updCmd | apply kept_each | apply kept_foldl | apply kept_foldl1 | apply keptA_pure
  | cons x l ih =>
    unfold pinHandles
    try dsimp only
    repeat' first
      | with_reducible assumption
      | intro _
      | dsimp only
      | with_reducible first | apply keptA_lookupHandle | apply keptA_pinObj | apply kept_updCmd | apply ih | apply kept_each | apply kept_foldl | apply kept_foldl1 | apply keptA_pure | apply keptA_bind_get | apply keptA_bind | apply keptA_modify | apply keptA_throw | apply keptA_get | apply keptA_set | apply keptA_ite

theorem keptA_resumeTarget {fz o} {a0}  :
    KeptA fz o (resumeTarget a0) := by
  unfold resumeTarget
  try dsimp only
  repeat' first
    | with_reducible assumption
    | intro _
    | dsimp only
    | with_reducible first | apply kept_ctxResume | apply keptA_need | apply kept_each | apply kept_foldl | apply kept_foldl1 | apply keptA_pure | apply keptA_bind_get | apply keptA_bind | apply keptA_modify | apply keptA_throw | apply keptA_get | apply keptA_set

theorem kept_setTurn {fz o} {s a1 a2 a3} (h : Kept fz o s) :
    Kept fz o (setTurn s a1 a2 a3) := by
  unfold setTurn
  try dsimp only
  repeat' first
    | with_reducible assumption
    | intro _
    | dsimp only
    | with_reducible first | apply kept_each | apply kept_foldl | apply kept_foldl1 | apply kept_ite | apply kept_ite1
    | with_reducible (refine Kept.upd rfl ?_; first | assumption)

theorem kept_pickTurn {fz o} {a0 a1 a2 a3 s} (h : Kept fz o s) :
    Kept fz o (pickTurn a0 a1 a2 a3 s).1 := by
  induction a2 generalizing a3 s with
  | zero =>
    unfold pickTurn
    try dsimp only
    repeat' first
      | with_reducible assumption
  | succ n ih =>
    unfold pickTurn
    try dsimp only
    repeat' first
      | with_reducible assumption
      | intro _
      | dsimp only
      | with_reducible first | apply kept_updQueue | apply kept_setTurn | apply ih | apply kept_each | apply kept_foldl | apply kept_foldl1 | apply kept_ite | apply kept_ite1
      | with_reducible (refine Kept.upd rfl ?_; first | assumption | apply kept_updQueue | apply kept_setTurn | apply ih | apply kept_each | apply kept_foldl | apply kept_foldl1 | apply kept_ite | apply kept_ite1)
      | split

theorem keptA_writePipsAct {fz o} {a0 a1 a2}  :
    KeptA fz o (writePipsAct a0 a1 a2) := by
  unfold writePipsAct
  try dsimp only
  repeat' first
    | with_reducible assumption
    | intro _
    | dsimp only
    | with_reducible first | apply kept_vaWrite | apply kept_setProgress | apply keptA_okCmd | apply kept_each | apply kept_foldl | apply kept_foldl1 | apply keptA_pure | apply keptA_bind_get | apply keptA_bind | apply keptA_modify | apply keptA_throw | apply keptA_get | apply keptA_set | apply keptA_ite | apply keptA_act | apply kept_endOk | apply kept_endError | apply kept_endIte | apply kept_ite | apply kept_ite1
    | with_reducible (refine Kept.upd rfl ?_; first | assumption | apply kept_vaWrite | apply kept_setProgress | apply keptA_okCmd | apply kept_each | apply kept_foldl | apply kept_foldl1 | apply kept_ite | apply kept_ite1 | refine keptA_ok ?_ ?_ (by assumption) | refine keptA_error ?_ ?_ (by assumption) | refine kept_ofP ?_ (by assumption))
    | refine keptA_ok ?_ ?_ (by assumption)
    | refine keptA_error ?_ ?_ (by assumption)
    | refine kept_ofP ?_ (by assumption)
    | split
    | refine keptA_fun ?_
    | with_reducible apply KeptA.ends

theorem keptR_execWritePips {fz o} {a0 a1 s} (h : Kept fz o s) :
    KeptR fz o (execWritePips a0 a1 s) := by
  unfold execWritePips
  try dsimp only
  repeat' first
    | with_reducible assumption
    | intro _
    | dsimp only
    | with_reducible first | apply kept_runCmd | apply keptA_writePipsAct | apply kept_each | apply kept_foldl | apply kept_foldl1 | apply keptA_pure | apply keptA_bind_get | apply keptA_bind | apply keptA_modify | apply keptA_throw | apply keptA_get | apply keptA_set | apply keptA_ite | apply keptA_act | apply kept_endOk | apply kept_endError | apply kept_endIte | apply keptR_next

theorem keptR_execWait {fz o} {a0 a1 s} (h : Kept fz o s) :
    KeptR fz o (execWait a0 a1 s) := by
  unfold execWait
  try dsimp only
  repeat' first
    | with_reducible assumption
    | intro _
    | dsimp only
    | with_reducible first | apply kept_runCmd | apply keptA_waitAct | apply kept_each | apply kept_foldl | apply kept_foldl1 | apply keptA_pure | apply keptA_bind_get | apply keptA_bind | apply keptA_modify | apply keptA_throw | apply keptA_get | apply keptA_set | apply keptA_ite | apply keptA_act | apply kept_endOk | apply kept_endError | apply kept_endIte | apply keptR_next

theorem keptA_namedSlot {fz o} {a0}  :
    KeptA fz o (namedSlot a0) := by
  unfold namedSlot
  try dsimp only
  repeat' first
    | with_reducible assumption
    | intro _
    | dsimp only
    | with_reducible first | apply keptA_need | apply kept_each | apply kept_foldl | apply kept_foldl1 | apply keptA_pure | apply keptA_bind_get | apply keptA_bind

theorem keptR_execResumeRetrySlot {fz o} {a0 a1 s} (h : Kept fz o s) :
    KeptR fz o (execResumeRetrySlot a0 a1 s) := by
  unfold execResumeRetrySlot
  try dsimp only
  repeat' first
    | with_reducible assumption
    | intro _
    | dsimp only
    | with_reducible first | apply kept_resumeCmd | apply keptA_namedSlot | apply kept_retrySlot | apply kept_each | apply kept_foldl | apply kept_foldl1 | apply keptA_pure | apply keptA_bind_get | apply keptA_bind | apply keptA_modify | apply keptA_throw | apply keptA_get | apply keptA_set | apply keptA_ite | apply keptA_act | apply kept_endOk | apply kept_endError | apply kept_endIte | apply keptR_next

theorem kept_takeDirty {fz o} {s a1 a2 a3} (h : Kept fz o s) :
    Kept fz o (takeDirty s a1 a2 a3) := by
  unfold takeDirty
  try dsimp only
  repeat' first
    | with_reducible assumption
    | intro _
    | dsimp only
    | with_reducible first | apply kept_updCmd | apply kept_updQueue | apply kept_each

theorem keptA_flushAct {fz o} {a0 a1}  :
    KeptA fz o (flushAct a0 a1) := by
  unfold flushAct
  try dsimp only
  repeat' first
    | with_reducible assumption
    | intro _
    | dsimp only
    | with_reducible first | apply kept_takeDirty | apply keptA_okCmd | apply kept_each | apply kept_foldl | apply kept_foldl1 | apply keptA_pure | apply keptA_bind_get | apply keptA_bind | apply keptA_modify | apply keptA_throw | apply keptA_get | apply keptA_set | apply keptA_ite

theorem keptR_execFlush {fz o} {a0 s} (h : Kept fz o s) :
    KeptR fz o (execFlush a0 s) := by
  unfold execFlush
  try dsimp only
  repeat' first
    | with_reducible assumption
    | intro _
    | dsimp only
    | with_reducible first | apply kept_runCmd | apply keptA_flushAct | apply kept_each | apply kept_foldl | apply kept_foldl1 | apply keptA_pure | apply keptA_bind_get | apply keptA_bind | apply keptA_modify | apply keptA_throw | apply keptA_get | apply keptA_set | apply keptA_ite | apply keptA_act | apply kept_endOk | apply kept_endError | apply kept_endIte | apply keptR_next

theorem keptR_execWaitEvaluate {fz o} {a0 s} (h : Kept fz o s) :
    KeptR fz o (execWaitEvaluate a0 s) := by
  unfold execWaitEvaluate
  try dsimp only
  repeat' first
    | with_reducible assumption
    | intro _
    | dsimp only
    | with_reducible first | apply kept_trySignal | apply kept_waitEval | apply kept_settleRun | apply kept_chanEval | apply kept_each | apply kept_foldl | apply kept_foldl1 | apply keptR_next | apply keptR_fault | apply keptR_ite | apply kept_ite | apply kept_ite1
    | with_reducible (refine Kept.upd rfl ?_; first | assumption | apply kept_trySignal | apply kept_waitEval | apply kept_settleRun | apply kept_chanEval | apply kept_each | apply kept_foldl | apply kept_foldl1 | apply kept_ite | apply kept_ite1)
    | split

theorem kept_pickQueue {fz o} {s a1} (h : Kept fz o s) :
    Kept fz o (pickQueue s a1).1 := by
  unfold pickQueue
  try dsimp only
  repeat' first
    | with_reducible assumption
    | intro _
    | dsimp only
    | with_reducible first | apply kept_pickTurn | apply kept_each | apply kept_foldl | apply kept_foldl1 | apply kept_ite | apply kept_ite1
    | with_reducible (refine Kept.upd rfl ?_; first | assumption | apply kept_pickTurn | apply kept_each | apply kept_foldl | apply kept_foldl1 | apply kept_ite | apply kept_ite1 | refine kept_ofP ?_ (by assumption))
    | refine kept_ofP ?_ (by assumption)
    | split

theorem kept_flushNote {fz o} {s a1 a2 a3} (h : Kept fz o s) :
    Kept fz o (flushNote s a1 a2 a3) := by
  unfold flushNote
  try dsimp only
  repeat' first
    | with_reducible assumption
    | intro _
    | dsimp only
    | with_reducible first | apply kept_note | apply kept_each | apply kept_foldl | apply kept_foldl1 | apply kept_ite | apply kept_ite1
    | with_reducible (refine Kept.upd rfl ?_; first | assumption | apply kept_note | apply kept_each | apply kept_foldl | apply kept_foldl1 | apply kept_ite | apply kept_ite1)
    | split

theorem keptR_execFlushReadCompletion {fz o} {a0 a1 a2 a3 s} (h : Kept fz o s) :
    KeptR fz o (execFlushReadCompletion a0 a1 a2 a3 s) := by
  unfold execFlushReadCompletion
  try dsimp only
  repeat' first
    | with_reducible assumption
    | intro _
    | dsimp only
    | with_reducible first | apply kept_flushOver | apply kept_emit | apply kept_flushNote | apply kept_each | apply kept_foldl | apply kept_foldl1 | apply keptR_next | apply keptR_fault | apply keptR_ite | apply kept_ite | apply kept_ite1
    | with_reducible (refine Kept.upd rfl ?_; first | assumption | apply kept_flushOver | apply kept_emit | apply kept_flushNote | apply kept_each | apply kept_foldl | apply kept_foldl1 | apply kept_ite | apply kept_ite1)
    | split

theorem keptR_execSignal {fz o} {a0 a1 s} (h : Kept fz o s) :
    KeptR fz o (execSignal a0 a1 s) := by
  unfold execSignal
  try dsimp only
  repeat' first
    | with_reducible assumption
    | intro _
    | dsimp only
    | with_reducible first | apply kept_runCmd | apply keptA_signalAct | apply kept_each | apply kept_foldl | apply kept_foldl1 | apply keptA_pure | apply keptA_bind_get | apply keptA_bind | apply keptA_modify | apply keptA_throw | apply keptA_get | apply keptA_set | apply keptA_ite | apply keptA_act | apply kept_endOk | apply kept_endError | apply kept_endIte | apply keptR_next

theorem kept_msixSend {fz o} {s a1 a2} (h : Kept fz o s) :
    Kept fz o (msixSend s a1 a2) := by
  unfold msixSend
  try dsimp only
  repeat' first
    | with_reducible assumption
    | intro _
    | dsimp only
    | with_reducible first | apply kept_emit | apply kept_updFn | apply kept_each | apply kept_foldl | apply kept_foldl1 | apply kept_ite

theorem keptR_execMsiXUnmask {fz o} {a0 a1 s} (h : Kept fz o s) :
    KeptR fz o (execMsiXUnmask a0 a1 s) := by
  unfold execMsiXUnmask
  try dsimp only
  repeat' first
    | with_reducible assumption
    | intro _
    | dsimp only
    | with_reducible first | apply kept_msixSend | apply kept_updFn | apply kept_each | apply kept_foldl | apply kept_foldl1 | apply keptR_next | apply keptR_fault | apply keptR_ite

theorem keptR_execWaitTimeout {fz o} {a0 s} (h : Kept fz o s) :
    KeptR fz o (execWaitTimeout a0 s) := by
  unfold execWaitTimeout
  try dsimp only
  repeat' first
    | with_reducible assumption
    | intro _
    | dsimp only
    | with_reducible first | apply kept_runAct | apply keptA_eventValue | apply kept_reach | apply kept_startLoad | apply kept_endCmd | apply kept_each | apply kept_foldl | apply kept_foldl1 | apply keptA_pure | apply keptA_bind_get | apply keptA_bind | apply keptA_modify | apply keptA_throw | apply keptA_get | apply keptA_set | apply keptA_ite | apply keptA_act | apply kept_endOk | apply kept_endError | apply kept_endIte | apply keptR_next | apply keptR_fault | apply keptR_ite | apply kept_ite | apply kept_ite1
    | with_reducible (refine Kept.upd rfl ?_; first | assumption | apply kept_runAct | apply keptA_eventValue | apply kept_reach | apply kept_startLoad | apply kept_endCmd | apply kept_each | apply kept_foldl | apply kept_foldl1 | apply kept_ite | apply kept_ite1 | refine keptA_ok ?_ ?_ (by assumption) | refine keptA_error ?_ ?_ (by assumption))
    | refine keptA_ok ?_ ?_ (by assumption)
    | refine keptA_error ?_ ?_ (by assumption)
    | split
    | refine keptA_fun ?_
    | with_reducible apply KeptA.ends

theorem keptA_dispatchAct {fz o} {a0 a1 a2}  :
    KeptA fz o (dispatchAct a0 a1 a2) := by
  unfold dispatchAct
  try dsimp only
  repeat' first
    | with_reducible assumption
    | intro _
    | dsimp only
    | with_reducible first | apply keptA_failWith | apply keptA_objGet | apply keptA_need | apply keptA_pinVersion | apply keptA_findDir | apply kept_updCmd | apply keptA_lookupHandle | apply keptA_pinHandles | apply kept_each | apply kept_foldl | apply kept_foldl1 | apply keptA_pure | apply keptA_bind_get | apply keptA_bind | apply keptA_modify | apply keptA_throw | apply keptA_get | apply keptA_set | apply keptA_ite | apply keptA_act | apply kept_endOk | apply kept_endError | apply kept_endIte | apply kept_ite | apply kept_ite1
    | with_reducible (refine Kept.upd rfl ?_; first | assumption | apply keptA_failWith | apply keptA_objGet | apply keptA_need | apply keptA_pinVersion | apply keptA_findDir | apply kept_updCmd | apply keptA_lookupHandle | apply keptA_pinHandles | apply kept_each | apply kept_foldl | apply kept_foldl1 | apply kept_ite | apply kept_ite1 | refine keptA_ok ?_ ?_ (by assumption) | refine keptA_error ?_ ?_ (by assumption))
    | refine keptA_ok ?_ ?_ (by assumption)
    | refine keptA_error ?_ ?_ (by assumption)
    | split

theorem keptO_dispatchWaits {fz o} {s a1 a2 a3 a4} (h : Kept fz o s) :
    KeptO fz o (dispatchWaits s a1 a2 a3 a4) := by
  unfold dispatchWaits
  try dsimp only
  repeat' first
    | with_reducible assumption
    | intro _
    | dsimp only
    | with_reducible first | apply keptA_dispatchAct | apply kept_waitBack | apply keptO_none | apply keptO_some | apply keptO_ite | apply keptQ_none | apply keptQ_some | apply keptQ_ite | apply kept_each | apply kept_foldl | apply kept_foldl1 | apply keptA_pure | apply keptA_bind_get | apply keptA_bind | apply keptA_modify | apply keptA_throw | apply keptA_get | apply keptA_set | apply keptA_ite | apply keptA_act | apply kept_endOk | apply kept_endError | apply kept_endIte | apply kept_ite | apply kept_ite1
    | with_reducible (refine Kept.upd rfl ?_; first | assumption | apply keptA_dispatchAct | apply kept_waitBack | apply kept_each | apply kept_foldl | apply kept_foldl1 | apply kept_ite | apply kept_ite1 | refine keptA_ok ?_ ?_ (by assumption) | refine keptA_error ?_ ?_ (by assumption))
    | refine keptA_ok ?_ ?_ (by assumption)
    | refine keptA_error ?_ ?_ (by assumption)
    | split

theorem kept_dispatchFrom {fz o} {s a1 a2 a3 a4} (h : Kept fz o s) :
    Kept fz o (dispatchFrom s a1 a2 a3 a4) := by
  unfold dispatchFrom
  try dsimp only
  repeat' first
    | with_reducible assumption
    | intro _
    | dsimp only
    | with_reducible first | apply kept_fresh | apply kept_updQueue | apply kept_updCtx | apply kept_traceAdd | apply keptA_dispatchAct | apply kept_stopCmd | apply kept_each | apply kept_foldl | apply kept_foldl1 | apply keptA_pure | apply keptA_bind_get | apply keptA_bind | apply keptA_modify | apply keptA_throw | apply keptA_get | apply keptA_set | apply keptA_ite | apply keptA_act | apply kept_endOk | apply kept_endError | apply kept_endIte | apply kept_ite | apply kept_ite1
    | with_reducible (refine Kept.upd rfl ?_; first | assumption | apply kept_fresh | apply kept_updQueue | apply kept_updCtx | apply kept_traceAdd | apply keptA_dispatchAct | apply kept_stopCmd | apply kept_each | apply kept_foldl | apply kept_foldl1 | apply kept_ite | apply kept_ite1 | refine keptA_ok ?_ ?_ (by assumption) | refine keptA_error ?_ ?_ (by assumption) | refine kept_ofP ?_ (by assumption))
    | refine keptA_ok ?_ ?_ (by assumption)
    | refine keptA_error ?_ ?_ (by assumption)
    | refine kept_ofP ?_ (by assumption)
    | split

theorem kept_dispatchClass {fz o} {a0 a1 s} (h : Kept fz o s) :
    Kept fz o (dispatchClass a0 a1 s) := by
  induction a1 generalizing s with
  | nil =>
    unfold dispatchClass
    try dsimp only
    repeat' first
      | with_reducible assumption
  | cons x l ih =>
    unfold dispatchClass
    try dsimp only
    repeat' first
      | with_reducible assumption
      | intro _
      | dsimp only
      | with_reducible first | apply kept_pickQueue | apply keptO_dispatchWaits | apply kept_dispatchFrom | apply ih | apply kept_each | apply kept_foldl | apply kept_foldl1 | apply kept_ite | apply kept_ite1
      | with_reducible (refine Kept.upd rfl ?_; first | assumption | apply kept_pickQueue | apply keptO_dispatchWaits | apply kept_dispatchFrom | apply ih | apply kept_each | apply kept_foldl | apply kept_foldl1 | apply kept_ite | apply kept_ite1 | refine kept_ofP ?_ (by assumption) | refine kept_ofO ?_ (by assumption) | refine kept_ofQ ?_ (by assumption))
      | refine kept_ofO ?_ (by assumption)
      | refine kept_ofQ ?_ (by assumption)
      | refine kept_ofQ1 ?_ (by assumption)
      | refine kept_ofP ?_ (by assumption)
      | split

theorem keptR_execDispatch {fz o} {a0 s} (h : Kept fz o s) :
    KeptR fz o (execDispatch a0 s) := by
  unfold execDispatch
  try dsimp only
  repeat' first
    | with_reducible assumption
    | intro _
    | dsimp only
    | with_reducible first | apply kept_dispatchClass | apply kept_each | apply kept_foldl | apply kept_foldl1 | apply keptR_next | apply keptR_fault | apply keptR_ite | apply kept_ite

theorem kept_flushLate {fz o} {s a1 a2} (h : Kept fz o s) :
    Kept fz o (flushLate s a1 a2) := by
  unfold flushLate
  try dsimp only
  repeat' first
    | with_reducible assumption
    | intro _
    | dsimp only
    | with_reducible first | apply kept_reach | apply kept_each | apply kept_foldl | apply kept_foldl1 | apply kept_ite | apply kept_ite1
    | with_reducible (refine Kept.upd rfl ?_; first | assumption | apply kept_reach | apply kept_each | apply kept_foldl | apply kept_foldl1 | apply kept_ite | apply kept_ite1)
    | split

theorem keptR_execCompletionRingFullNote {fz o} {a0 a1 s} (h : Kept fz o s) :
    KeptR fz o (execCompletionRingFullNote a0 a1 s) := by
  unfold execCompletionRingFullNote
  try dsimp only
  repeat' first
    | with_reducible assumption
    | intro _
    | dsimp only
    | with_reducible first | apply kept_ringWaitNote | apply kept_each | apply kept_foldl | apply kept_foldl1 | apply keptR_next | apply keptR_fault | apply keptR_ite | apply kept_ite

theorem keptR_execContextResume {fz o} {a0 s} (h : Kept fz o s) :
    KeptR fz o (execContextResume a0 s) := by
  unfold execContextResume
  try dsimp only
  repeat' first
    | with_reducible assumption
    | intro _
    | dsimp only
    | with_reducible first | apply kept_resumeCmd | apply keptA_resumeTarget | apply kept_each | apply kept_foldl | apply kept_foldl1 | apply keptA_pure | apply keptA_bind_get | apply keptA_bind | apply keptA_modify | apply keptA_throw | apply keptA_get | apply keptA_set | apply keptA_ite | apply keptA_act | apply kept_endOk | apply kept_endError | apply kept_endIte | apply keptR_next

theorem keptR_execResumeAbortAll {fz o} {a0 a1 s} (h : Kept fz o s) :
    KeptR fz o (execResumeAbortAll a0 a1 s) := by
  unfold execResumeAbortAll
  try dsimp only
  repeat' first
    | with_reducible assumption
    | intro _
    | dsimp only
    | with_reducible first | apply kept_resumeCmd | apply kept_abortCtx | apply kept_each | apply kept_foldl | apply kept_foldl1 | apply keptA_pure | apply keptA_bind_get | apply keptA_bind | apply keptA_modify | apply keptA_throw | apply keptA_get | apply keptA_set | apply keptA_ite | apply keptA_act | apply kept_endOk | apply kept_endError | apply kept_endIte | apply keptR_next

theorem keptR_execNop {fz o} {a0 s} (h : Kept fz o s) :
    KeptR fz o (execNop a0 s) := by
  unfold execNop
  try dsimp only
  repeat' first
    | with_reducible assumption
    | intro _
    | dsimp only
    | with_reducible first | apply kept_runCmd | apply keptA_okCmd | apply kept_each | apply kept_foldl | apply kept_foldl1 | apply keptA_pure | apply keptA_bind_get | apply keptA_bind | apply keptA_modify | apply keptA_throw | apply keptA_get | apply keptA_set | apply keptA_ite | apply keptA_act | apply kept_endOk | apply kept_endError | apply kept_endIte | apply keptR_next

theorem keptR_execResumeRetryAll {fz o} {a0 a1 s} (h : Kept fz o s) :
    KeptR fz o (execResumeRetryAll a0 a1 s) := by
  unfold execResumeRetryAll
  try dsimp only
  repeat' first
    | with_reducible assumption
    | intro _
    | dsimp only
    | with_reducible first | apply kept_resumeCmd | apply kept_retryCtx | apply kept_each | apply kept_foldl | apply kept_foldl1 | apply keptA_pure | apply keptA_bind_get | apply keptA_bind | apply keptA_modify | apply keptA_throw | apply keptA_get | apply keptA_set | apply keptA_ite | apply keptA_act | apply kept_endOk | apply kept_endError | apply kept_endIte | apply keptR_next

theorem kept_afterPins {fz o} {s a1 a2} (h : Kept fz o s) :
    Kept fz o (afterPins s a1 a2) := by
  unfold afterPins
  try dsimp only
  repeat' first
    | with_reducible assumption
    | intro _
    | dsimp only
    | with_reducible first | apply kept_startFlush | apply kept_updCmd | apply kept_complete | apply kept_updQueue | apply kept_each | apply kept_foldl | apply kept_foldl1 | apply kept_ite | apply kept_ite1
    | with_reducible (refine Kept.upd rfl ?_; first | assumption | apply kept_startFlush | apply kept_updCmd | apply kept_complete | apply kept_updQueue | apply kept_each | apply kept_foldl | apply kept_foldl1 | apply kept_ite | apply kept_ite1 | refine kept_ofP ?_ (by assumption))
    | refine kept_ofP ?_ (by assumption)
    | split

theorem keptR_execResumeAbortSlot {fz o} {a0 a1 s} (h : Kept fz o s) :
    KeptR fz o (execResumeAbortSlot a0 a1 s) := by
  unfold execResumeAbortSlot
  try dsimp only
  repeat' first
    | with_reducible assumption
    | intro _
    | dsimp only
    | with_reducible first | apply kept_resumeCmd | apply keptA_namedSlot | apply kept_endSlot | apply kept_each | apply kept_foldl | apply kept_foldl1 | apply keptA_pure | apply keptA_bind_get | apply keptA_bind | apply keptA_modify | apply keptA_throw | apply keptA_get | apply keptA_set | apply keptA_ite | apply keptA_act | apply kept_endOk | apply kept_endError | apply kept_endIte | apply keptR_next

theorem keptR_execFlushReadTimeout {fz o} {a0 a1 a2 s} (h : Kept fz o s) :
    KeptR fz o (execFlushReadTimeout a0 a1 a2 s) := by
  unfold execFlushReadTimeout
  try dsimp only
  repeat' first
    | with_reducible assumption
    | intro _
    | dsimp only
    | with_reducible first | apply kept_flushOver | apply kept_emit | apply kept_flushNote | apply kept_flushLate | apply kept_each | apply kept_foldl | apply kept_foldl1 | apply keptR_next | apply keptR_fault | apply keptR_ite | apply kept_ite | apply kept_ite1
    | with_reducible (refine Kept.upd rfl ?_; first | assumption | apply kept_flushOver | apply kept_emit | apply kept_flushNote | apply kept_flushLate | apply kept_each | apply kept_foldl | apply kept_foldl1 | apply kept_ite | apply kept_ite1)
    | split

theorem keptA_releasePins {fz o} {a0 a1 a2}  :
    KeptA fz o (releasePins a0 a1 a2) := by
  unfold releasePins
  try dsimp only
  repeat' first
    | with_reducible assumption
    | intro _
    | dsimp only
    | with_reducible first | apply keptA_forAll | apply keptA_attempt | apply keptA_unpinObj | apply kept_releasePin | apply kept_updCmd | apply kept_each | apply kept_foldl | apply kept_foldl1 | apply keptA_pure | apply keptA_bind_get | apply keptA_bind | apply keptA_modify

theorem keptR_execCommandEnd {fz o} {a0 a1 s} (h : Kept fz o s) :
    KeptR fz o (execCommandEnd a0 a1 s) := by
  unfold execCommandEnd
  try dsimp only
  repeat' first
    | with_reducible assumption
    | intro _
    | dsimp only
    | with_reducible first | apply kept_compFlow | apply kept_runAct | apply keptA_releasePins | apply kept_pumpDirs | apply kept_afterPins | apply kept_each | apply kept_foldl | apply kept_foldl1 | apply keptA_pure | apply keptA_bind_get | apply keptA_bind | apply keptA_modify | apply keptA_throw | apply keptA_get | apply keptA_set | apply keptA_ite | apply keptA_act | apply kept_endOk | apply kept_endError | apply kept_endIte | apply keptR_next | apply keptR_fault | apply keptR_ite | apply kept_ite | apply kept_ite1
    | with_reducible (refine Kept.upd rfl ?_; first | assumption | apply kept_compFlow | apply kept_runAct | apply keptA_releasePins | apply kept_pumpDirs | apply kept_afterPins | apply kept_each | apply kept_foldl | apply kept_foldl1 | apply kept_ite | apply kept_ite1 | refine keptA_ok ?_ ?_ (by assumption) | refine keptA_error ?_ ?_ (by assumption))
    | refine keptA_ok ?_ ?_ (by assumption)
    | refine keptA_error ?_ ?_ (by assumption)
    | split
    | refine keptA_fun ?_
    | with_reducible apply KeptA.ends

end Sys2Proof.Machine
end

