-- ==== Sys2Proof/Laws/KeptHost.lean ====
section
/-! SUPPORT. What the definitions of Machine/Host.lean keep (`Kept`). -/

namespace Sys2Proof.Machine

theorem kept_settleL1 {fz o} {s a1} (h : Kept fz o s) :
    Kept fz o (settleL1 s a1) := by
  unfold settleL1
  try dsimp only
  repeat' first
    | with_reducible assumption
    | intro _
    | dsimp only
    | with_reducible first | apply kept_updHost

theorem kept_abortFnCtxs {fz o} {s a1 a2} (h : Kept fz o s) :
    Kept fz o (abortFnCtxs s a1 a2) := by
  unfold abortFnCtxs
  try dsimp only
  repeat' first
    | with_reducible assumption
    | intro _
    | dsimp only
    | with_reducible first | apply kept_ctxAbort | apply kept_each

theorem kept_abandonAps {fz o} {s a1} (h : Kept fz o s) :
    Kept fz o (abandonAps s a1) := by
  unfold abandonAps
  try dsimp only
  repeat' first
    | with_reducible assumption
    | intro _
    | dsimp only
    | with_reducible first | apply kept_failAp | apply kept_each | apply kept_foldl | apply kept_foldl1 | apply kept_ite

theorem keptR_execTdiStateChange {fz o} {a0 a1 a2 s} (h : Kept fz o s) :
    KeptR fz o (execTdiStateChange a0 a1 a2 s) := by
  unfold execTdiStateChange
  try dsimp only
  repeat' first
    | with_reducible assumption
    | intro _
    | dsimp only
    | with_reducible first | apply kept_updFn | apply kept_wwPump | apply kept_abortFnCtxs | apply kept_abandonAps | apply kept_each | apply kept_foldl | apply kept_foldl1 | apply keptR_next | apply keptR_fault | apply keptR_ite | apply kept_ite

theorem keptR_execLinkPartnerNoFlit {fz o} {a0 s} (h : Kept fz o s) :
    KeptR fz o (execLinkPartnerNoFlit a0 s) := by
  unfold execLinkPartnerNoFlit
  try dsimp only
  repeat' first
    | with_reducible assumption
    | intro _
    | dsimp only
    | with_reducible first | apply kept_note | apply kept_updHost | apply kept_each | apply kept_foldl | apply kept_foldl1 | apply keptR_next | apply keptR_fault | apply keptR_ite

theorem kept_resetFn {fz o} {s a1} (h : Kept fz o s) :
    Kept fz o (resetFn s a1) := by
  unfold resetFn
  try dsimp only
  repeat' first
    | with_reducible assumption
    | intro _
    | dsimp only
    | with_reducible first | apply kept_abandonAps | apply kept_abortFnCtxs | apply kept_settleL1 | apply kept_updFn | apply kept_each | apply kept_foldl | apply kept_foldl1 | apply kept_ite | apply kept_ite1
    | with_reducible (refine Kept.upd rfl ?_; first | assumption | apply kept_abandonAps | apply kept_abortFnCtxs | apply kept_settleL1 | apply kept_updFn | apply kept_each | apply kept_foldl | apply kept_foldl1 | apply kept_ite | apply kept_ite1)
    | split

theorem kept_flrOf {fz o} {s a1} (h : Kept fz o s) :
    Kept fz o (flrOf s a1) := by
  unfold flrOf
  try dsimp only
  repeat' first
    | with_reducible assumption
    | intro _
    | dsimp only
    | with_reducible first | apply kept_wwPump | apply kept_resetFn | apply kept_each

theorem kept_portReset {fz o} {s a1} (h : Kept fz o s) :
    Kept fz o (portReset s a1) := by
  unfold portReset
  try dsimp only
  repeat' first
    | with_reducible assumption
    | intro _
    | dsimp only
    | with_reducible first | apply kept_flrOf | apply kept_updHost | apply kept_each | apply kept_foldl | apply kept_foldl1 | apply kept_ite

theorem kept_hostReset {fz o} {s a1} (h : Kept fz o s) :
    Kept fz o (hostReset s a1) := by
  unfold hostReset
  try dsimp only
  repeat' first
    | with_reducible assumption
    | intro _
    | dsimp only
    | with_reducible first | apply kept_portReset | apply kept_each | apply kept_foldl | apply kept_foldl1 | apply kept_ite | apply kept_ite1
    | with_reducible (refine Kept.upd rfl ?_; first | assumption | apply kept_portReset)

theorem keptR_execHostPortReset {fz o} {a0 s} (h : Kept fz o s) :
    KeptR fz o (execHostPortReset a0 s) := by
  unfold execHostPortReset
  try dsimp only
  repeat' first
    | with_reducible assumption
    | intro _
    | dsimp only
    | with_reducible first | apply kept_hostReset | apply kept_each | apply kept_foldl | apply kept_foldl1 | apply keptR_next

theorem kept_fnResume {fz o} {s a1} (h : Kept fz o s) :
    Kept fz o (fnResume s a1) := by
  unfold fnResume
  try dsimp only
  repeat' first
    | with_reducible assumption
    | intro _
    | dsimp only
    | with_reducible first | apply kept_msixSend | apply kept_compFlow | apply kept_each | apply kept_foldl | apply kept_foldl1 | apply kept_ite

theorem keptR_execReceiverError {fz o} {a0 s} (h : Kept fz o s) :
    KeptR fz o (execReceiverError a0 s) := by
  unfold execReceiverError
  try dsimp only
  repeat' first
    | with_reducible assumption
    | intro _
    | dsimp only
    | with_reducible first | apply kept_portEvent | apply kept_each | apply kept_foldl | apply kept_foldl1 | apply keptR_next

theorem keptR_execMalformedTlp {fz o} {a0 s} (h : Kept fz o s) :
    KeptR fz o (execMalformedTlp a0 s) := by
  unfold execMalformedTlp
  try dsimp only
  repeat' first
    | with_reducible assumption
    | intro _
    | dsimp only
    | with_reducible first | apply kept_portEvent | apply kept_each | apply kept_foldl | apply kept_foldl1 | apply keptR_next

theorem keptR_execFlr {fz o} {a0 s} (h : Kept fz o s) :
    KeptR fz o (execFlr a0 s) := by
  unfold execFlr
  try dsimp only
  repeat' first
    | with_reducible assumption
    | intro _
    | dsimp only
    | with_reducible first | apply kept_flrSettle | apply kept_updFn | apply kept_flrOf | apply kept_each | apply kept_foldl | apply kept_foldl1 | apply keptR_next | apply keptR_fault | apply keptR_ite | apply kept_ite | apply kept_ite1
    | with_reducible (refine Kept.upd rfl ?_; first | assumption | apply kept_flrSettle | apply kept_updFn | apply kept_flrOf | apply kept_each | apply kept_foldl | apply kept_foldl1 | apply kept_ite | apply kept_ite1)
    | split

theorem keptR_execUnexpectedCompletion {fz o} {a0 s} (h : Kept fz o s) :
    KeptR fz o (execUnexpectedCompletion a0 s) := by
  unfold execUnexpectedCompletion
  try dsimp only
  repeat' first
    | with_reducible assumption
    | intro _
    | dsimp only
    | with_reducible first | apply kept_portEvent | apply kept_each | apply kept_foldl | apply kept_foldl1 | apply keptR_next

theorem keptR_execDStateChange {fz o} {a0 a1 s} (h : Kept fz o s) :
    KeptR fz o (execDStateChange a0 a1 s) := by
  unfold execDStateChange
  try dsimp only
  repeat' first
    | with_reducible assumption
    | intro _
    | dsimp only
    | with_reducible first | apply kept_updFn | apply kept_settleL1 | apply kept_fnResume | apply kept_each | apply kept_foldl | apply kept_foldl1 | apply keptR_next | apply keptR_fault | apply keptR_ite | apply kept_ite

theorem keptR_execHostLinkUp {fz o} {a0 a1 a2 s} (h : Kept fz o s) :
    KeptR fz o (execHostLinkUp a0 a1 a2 s) := by
  unfold execHostLinkUp
  try dsimp only
  repeat' first
    | with_reducible assumption
    | intro _
    | dsimp only
    | with_reducible first | apply kept_settleL1 | apply kept_updHost | apply kept_each | apply kept_foldl | apply kept_foldl1 | apply keptR_next | apply keptR_fault | apply keptR_ite | apply kept_ite | apply kept_ite1
    | with_reducible (refine Kept.upd rfl ?_; first | assumption | apply kept_settleL1 | apply kept_updHost | apply kept_each | apply kept_foldl | apply kept_foldl1 | apply kept_ite | apply kept_ite1)
    | split

end Sys2Proof.Machine
end

