-- ==== Sys2Proof/Laws/KeptPartitions.lean ====
section
/-! SUPPORT. What the definitions of Machine/Partitions.lean keep (`Kept`). -/

namespace Sys2Proof.Machine

theorem Tab.rises_foldl {α β : Type} {f : Tab α → β → Tab α} (hf : ∀ t x, Tab.rises t = true → Tab.rises (f t x) = true) :
    ∀ {l : List β} {t : Tab α}, Tab.rises t = true → Tab.rises (l.foldl f t) = true
  | [], _, h => h
  | x :: l, t, h => by
    rw [List.foldl_cons]
    exact Tab.rises_foldl hf (hf t x h)

theorem Memory.wf_repoison {m : Memory} {p : Tab Unit} (h : m.wf = true) (hp : Tab.rises m.poison = true → Tab.rises p = true) :
    ({ m with poison := p } : Memory).wf = true := by
  rw [Memory.wf_iff] at h ⊢
  exact ⟨h.1, hp h.2.1, h.2.2⟩

theorem Memory.wf_reopen {m : Memory} {l : List (Nat × List Word)} (h : m.wf = true) : (m.reopen l).wf = true := by
  rw [Memory.wf_iff] at h ⊢
  refine ⟨h.1, h.2.1, ?_⟩
  have : ∀ (l : List (Nat × List Word)) (t : Tab (List Word)), Tab.wf [] t = true → Tab.wf [] (l.foldl (fun t e => Tab.set [] t e.1 e.2) t) = true := by
    intro l
    induction l with
    | nil => intro t ht; exact ht
    | cons x l ih => intro t ht; exact ih _ (Tab.wf_set ht)
  exact this l _ h.2.2

theorem Memory.wf_marked {m old : Memory} {b : Nat} (h : m.wf = true) : (m.repoison old b).wf = true := by
  unfold Memory.repoison
  refine Memory.wf_repoison h fun hp => Tab.rises_foldl (fun t l ht => ?_) hp
  split
  · exact Tab.rises_insert ht
  · exact ht

theorem Memory.wf_scrubRange {m : Memory} {bad : List Nat} {a n : Nat} (h : m.wf = true) : (scrubRange m bad a n).wf = true := by
  unfold scrubRange
  refine Memory.wf_foldl (fun x b k => ?_) (Memory.wf_zero h)
  unfold scrubFailed
  exact Memory.wf_marked (Memory.wf_fail (Memory.wf_reopen (Memory.wf_put k)))

theorem kept_keyMoved {fz o} {s a1 a2 a3 a4} (h : Kept fz o s) :
    Kept fz o (keyMoved s a1 a2 a3 a4) := by
  unfold keyMoved
  try dsimp only
  repeat' first
    | with_reducible assumption
    | intro _
    | dsimp only
    | with_reducible first | apply kept_updKey | apply kept_each | apply kept_foldl | apply kept_foldl1 | apply kept_ite

theorem kept_ownWrite {fz o} {s a1 a2} (h : Kept fz o s) :
    Kept fz o (ownWrite s a1 a2) := by
  unfold ownWrite
  try dsimp only
  repeat' first
    | with_reducible assumption
    | intro _
    | dsimp only
    | with_reducible first | apply kept_keyMoved | apply kept_each | apply kept_foldl | apply kept_foldl1 | apply kept_ite | apply kept_ite1 | apply Memory.wf_put | apply Memory.wf_putByte | apply Memory.wf_fail | apply Memory.wf_zero | apply Memory.wf_poison | apply Memory.wf_unpoison | apply Memory.wf_mark | apply Memory.wf_writeLine | apply Memory.wf_foldl | apply Memory.wf_settle | apply Memory.wf_scrubRange
    | with_reducible (refine Kept.upd rfl ?_; first | assumption)

theorem kept_cfgWrite {fz o} {s a1 a2} (h : Kept fz o s) :
    Kept fz o (cfgWrite s a1 a2) := by
  unfold cfgWrite
  try dsimp only
  repeat' first
    | with_reducible assumption
    | intro _
    | dsimp only
    | with_reducible first | apply kept_updPart | apply kept_each | apply kept_foldl | apply kept_foldl1 | apply kept_ite

theorem kept_rangeWrite {fz o} {s a1 a2 a3} (h : Kept fz o s) :
    Kept fz o (rangeWrite s a1 a2 a3) := by
  unfold rangeWrite
  try dsimp only
  repeat' first
    | with_reducible assumption
    | intro _
    | dsimp only
    | with_reducible first | apply kept_updPart | apply kept_each | apply kept_foldl | apply kept_foldl1 | apply kept_ite

theorem kept_tableWrite {fz o} {s a1 a2} (h : Kept fz o s) :
    Kept fz o (tableWrite s a1 a2) := by
  unfold tableWrite
  try dsimp only
  repeat' first
    | with_reducible assumption
    | intro _
    | dsimp only
    | with_reducible first | apply kept_ownWrite | apply kept_cfgWrite | apply kept_rangeWrite | apply kept_each | apply kept_foldl | apply kept_foldl1 | apply kept_ite

theorem kept_addScrub {fz o} {s a1} (h : Kept fz o s) :
    Kept fz o (addScrub s a1) := by
  unfold addScrub
  try dsimp only
  repeat' first
    | with_reducible assumption
    | intro _
    | dsimp only
    | with_reducible first | apply kept_each | apply kept_foldl | apply kept_foldl1 | apply kept_ite | apply kept_ite1 | apply Memory.wf_put | apply Memory.wf_putByte | apply Memory.wf_fail | apply Memory.wf_zero | apply Memory.wf_poison | apply Memory.wf_unpoison | apply Memory.wf_mark | apply Memory.wf_writeLine | apply Memory.wf_foldl | apply Memory.wf_settle | apply Memory.wf_scrubRange
    | with_reducible (refine Kept.upd rfl ?_; first | assumption)

theorem kept_lockPart {fz o} {s a1} (h : Kept fz o s) :
    Kept fz o (lockPart s a1).1 := by
  unfold lockPart
  try dsimp only
  repeat' first
    | with_reducible assumption
    | intro _
    | dsimp only
    | with_reducible first | apply kept_updPart | apply kept_each | apply kept_foldl | apply kept_foldl1 | apply kept_ite | apply kept_ite1

theorem kept_unlockPart {fz o} {s a1} (h : Kept fz o s) :
    Kept fz o (unlockPart s a1).1 := by
  unfold unlockPart
  try dsimp only
  repeat' first
    | with_reducible assumption
    | intro _
    | dsimp only
    | with_reducible first | apply kept_updPart | apply kept_each | apply kept_foldl | apply kept_foldl1 | apply kept_ite | apply kept_ite1

theorem kept_errorTdis {fz o} {s a1} (h : Kept fz o s) :
    Kept fz o (errorTdis s a1) := by
  unfold errorTdis
  try dsimp only
  repeat' first
    | with_reducible assumption
    | intro _
    | dsimp only
    | with_reducible first | apply kept_updFn | apply kept_each | apply kept_foldl | apply kept_foldl1 | apply kept_ite

theorem kept_revokeHost {fz o} {s a1} (h : Kept fz o s) :
    Kept fz o (revokeHost s a1) := by
  unfold revokeHost
  try dsimp only
  repeat' first
    | with_reducible assumption
    | intro _
    | dsimp only
    | with_reducible first | apply kept_updHost | apply kept_each | apply kept_foldl | apply kept_foldl1 | apply kept_ite | apply kept_ite1 | apply Memory.wf_put | apply Memory.wf_putByte | apply Memory.wf_fail | apply Memory.wf_zero | apply Memory.wf_poison | apply Memory.wf_unpoison | apply Memory.wf_mark | apply Memory.wf_writeLine | apply Memory.wf_foldl | apply Memory.wf_settle | apply Memory.wf_scrubRange
    | with_reducible (refine Kept.upd rfl ?_; first | assumption | apply kept_updHost | apply kept_each | apply kept_foldl | apply kept_foldl1 | apply kept_ite | apply kept_ite1)
    | with_reducible (refine Kept.updMem rfl ?_ ?_; rotate_left; first | assumption | apply kept_updHost | apply kept_each | apply kept_foldl | apply kept_foldl1 | apply kept_ite | apply kept_ite1)
    | split

theorem kept_revokeAps {fz o} {s a1} (h : Kept fz o s) :
    Kept fz o (revokeAps s a1) := by
  unfold revokeAps
  try dsimp only
  repeat' first
    | with_reducible assumption
    | intro _
    | dsimp only
    | with_reducible first | apply kept_dropOne | apply kept_failAp | apply kept_each | apply kept_foldl | apply kept_foldl1 | apply kept_ite

theorem kept_killChannels {fz o} {s a1} (h : Kept fz o s) :
    Kept fz o (killChannels s a1) := by
  unfold killChannels
  try dsimp only
  repeat' first
    | with_reducible assumption
    | intro _
    | dsimp only
    | with_reducible first | apply kept_killRun | apply kept_dropWaitingRun | apply kept_each

theorem kept_dropRemote {fz o} {s a1 a2} (h : Kept fz o s) :
    Kept fz o (dropRemote s a1 a2) := by
  unfold dropRemote
  try dsimp only
  repeat' first
    | with_reducible assumption
    | intro _
    | dsimp only
    | with_reducible first | apply kept_failReqs | apply kept_each | apply kept_foldl | apply kept_foldl1 | apply kept_ite | apply kept_ite1 | apply Memory.wf_put | apply Memory.wf_putByte | apply Memory.wf_fail | apply Memory.wf_zero | apply Memory.wf_poison | apply Memory.wf_unpoison | apply Memory.wf_mark | apply Memory.wf_writeLine | apply Memory.wf_foldl | apply Memory.wf_settle | apply Memory.wf_scrubRange
    | with_reducible (refine Kept.upd rfl ?_; first | assumption | apply kept_failReqs)

theorem kept_teardown {fz o} {s a1 a2} (h : Kept fz o s) :
    Kept fz o (teardown s a1 a2).1 := by
  unfold teardown
  try dsimp only
  repeat' first
    | with_reducible assumption
    | intro _
    | dsimp only
    | with_reducible first | apply kept_updPart | apply kept_errorTdis | apply kept_revokeHost | apply kept_revokeAps | apply kept_killChannels | apply kept_ctxAbort | apply kept_abortCtx | apply kept_dropRemote | apply kept_revokeKeys | apply kept_each | apply kept_foldl | apply kept_foldl1 | apply kept_ite | apply kept_ite1 | apply Memory.wf_put | apply Memory.wf_putByte | apply Memory.wf_fail | apply Memory.wf_zero | apply Memory.wf_poison | apply Memory.wf_unpoison | apply Memory.wf_mark | apply Memory.wf_writeLine | apply Memory.wf_foldl | apply Memory.wf_settle | apply Memory.wf_scrubRange
    | with_reducible (refine Kept.upd rfl ?_; first | assumption | apply kept_updPart | apply kept_errorTdis | apply kept_revokeHost | apply kept_revokeAps | apply kept_killChannels | apply kept_ctxAbort | apply kept_abortCtx | apply kept_dropRemote | apply kept_revokeKeys | apply kept_each | apply kept_foldl | apply kept_foldl1 | apply kept_ite | apply kept_ite1 | refine kept_ofP ?_ (by assumption))
    | with_reducible (refine Kept.updMem rfl ?_ ?_; rotate_left; first | assumption | apply kept_updPart | apply kept_errorTdis | apply kept_revokeHost | apply kept_revokeAps | apply kept_killChannels | apply kept_ctxAbort | apply kept_abortCtx | apply kept_dropRemote | apply kept_revokeKeys | apply kept_each | apply kept_foldl | apply kept_foldl1 | apply kept_ite | apply kept_ite1 | refine kept_ofP ?_ (by assumption))
    | refine kept_ofP ?_ (by assumption)
    | split

theorem kept_partOpWrite {fz o} {s a1 a2 a3} (h : Kept fz o s) :
    Kept fz o (partOpWrite s a1 a2 a3) := by
  unfold partOpWrite
  try dsimp only
  repeat' first
    | with_reducible assumption
    | intro _
    | dsimp only
    | with_reducible first | apply kept_lockPart | apply kept_unlockPart | apply kept_teardown | apply kept_each | apply kept_foldl | apply kept_foldl1 | apply kept_ite | apply kept_ite1 | apply Memory.wf_put | apply Memory.wf_putByte | apply Memory.wf_fail | apply Memory.wf_zero | apply Memory.wf_poison | apply Memory.wf_unpoison | apply Memory.wf_mark | apply Memory.wf_writeLine | apply Memory.wf_foldl | apply Memory.wf_settle | apply Memory.wf_scrubRange
    | with_reducible (refine Kept.upd rfl ?_; first | assumption | apply kept_lockPart | apply kept_unlockPart | apply kept_teardown | apply kept_each | apply kept_foldl | apply kept_foldl1 | apply kept_ite | apply kept_ite1 | refine kept_ofP ?_ (by assumption))
    | with_reducible (refine Kept.updMem rfl ?_ ?_; rotate_left; first | assumption | apply kept_lockPart | apply kept_unlockPart | apply kept_teardown | apply kept_each | apply kept_foldl | apply kept_foldl1 | apply kept_ite | apply kept_ite1 | refine kept_ofP ?_ (by assumption))
    | refine kept_ofP ?_ (by assumption)
    | split

theorem keptR_execUnlock {fz o} {a0 s} (h : Kept fz o s) :
    KeptR fz o (execUnlock a0 s) := by
  unfold execUnlock
  try dsimp only
  repeat' first
    | with_reducible assumption
    | intro _
    | dsimp only
    | with_reducible first | apply kept_partOpWrite | apply kept_each | apply kept_foldl | apply kept_foldl1 | apply keptR_next | apply keptR_fault | apply keptR_ite | apply kept_ite

theorem keptR_execPartitionTableWrite {fz o} {a0 a1 s} (h : Kept fz o s) :
    KeptR fz o (execPartitionTableWrite a0 a1 s) := by
  unfold execPartitionTableWrite
  try dsimp only
  repeat' first
    | with_reducible assumption
    | intro _
    | dsimp only
    | with_reducible first | apply kept_tableWrite | apply kept_each | apply kept_foldl | apply kept_foldl1 | apply keptR_next | apply keptR_fault | apply keptR_ite | apply kept_ite

theorem kept_purgeDir {fz o} {s a1} (h : Kept fz o s) :
    Kept fz o (purgeDir s a1) := by
  unfold purgeDir
  try dsimp only
  repeat' first
    | with_reducible assumption
    | intro _
    | dsimp only
    | with_reducible first | apply kept_sendSnoop | apply kept_setDir | apply kept_dropWalkLine | apply kept_each

theorem keptR_execLock {fz o} {a0 s} (h : Kept fz o s) :
    KeptR fz o (execLock a0 s) := by
  unfold execLock
  try dsimp only
  repeat' first
    | with_reducible assumption
    | intro _
    | dsimp only
    | with_reducible first | apply kept_partOpWrite | apply kept_each | apply kept_foldl | apply kept_foldl1 | apply keptR_next | apply keptR_fault | apply keptR_ite | apply kept_ite

theorem kept_reportScrub {fz o} {s a1 a2 a3} (h : Kept fz o s) :
    Kept fz o (reportScrub s a1 a2 a3) := by
  unfold reportScrub
  try dsimp only
  repeat' first
    | with_reducible assumption
    | intro _
    | dsimp only
    | with_reducible first | apply kept_reportBus | apply kept_each

theorem kept_scrubDone {fz o} {s a1} (h : Kept fz o s) :
    Kept fz o (scrubDone s a1) := by
  unfold scrubDone
  try dsimp only
  repeat' first
    | with_reducible assumption
    | intro _
    | dsimp only
    | with_reducible first | apply kept_note | apply kept_emit | apply kept_updPart | apply kept_each | apply kept_foldl | apply kept_foldl1 | apply kept_ite | apply kept_ite1 | apply Memory.wf_put | apply Memory.wf_putByte | apply Memory.wf_fail | apply Memory.wf_zero | apply Memory.wf_poison | apply Memory.wf_unpoison | apply Memory.wf_mark | apply Memory.wf_writeLine | apply Memory.wf_foldl | apply Memory.wf_settle | apply Memory.wf_scrubRange
    | with_reducible (refine Kept.upd rfl ?_; first | assumption | apply kept_note | apply kept_emit)

theorem kept_scrubFirst {fz o} {s a1 a2} (h : Kept fz o s) :
    Kept fz o (scrubFirst s a1 a2) := by
  unfold scrubFirst
  try dsimp only
  repeat' first
    | with_reducible assumption
    | intro _
    | dsimp only
    | with_reducible first | apply kept_addScrub | apply kept_reportScrub | apply kept_scrubDone | apply kept_updPart | apply kept_each | apply kept_foldl | apply kept_foldl1 | apply kept_ite | apply kept_ite1 | apply Memory.wf_put | apply Memory.wf_putByte | apply Memory.wf_fail | apply Memory.wf_zero | apply Memory.wf_poison | apply Memory.wf_unpoison | apply Memory.wf_mark | apply Memory.wf_writeLine | apply Memory.wf_foldl | apply Memory.wf_settle | apply Memory.wf_scrubRange
    | with_reducible (refine Kept.upd rfl ?_; first | assumption | apply kept_addScrub | apply kept_reportScrub | apply kept_scrubDone | apply kept_updPart | apply kept_each | apply kept_foldl | apply kept_foldl1 | apply kept_ite | apply kept_ite1)
    | with_reducible (refine Kept.updMem rfl ?_ ?_; rotate_left; first | assumption)

theorem kept_haltPart {fz o} {s a1} (h : Kept fz o s) :
    Kept fz o (haltPart s a1) := by
  unfold haltPart
  try dsimp only
  repeat' first
    | with_reducible assumption
    | intro _
    | dsimp only
    | with_reducible first | apply kept_updPart | apply kept_emit | apply kept_note

theorem kept_scrubAgain {fz o} {s a1 a2 a3} (h : Kept fz o s) :
    Kept fz o (scrubAgain s a1 a2 a3) := by
  unfold scrubAgain
  try dsimp only
  repeat' first
    | with_reducible assumption
    | intro _
    | dsimp only
    | with_reducible first | apply kept_addScrub | apply kept_reportScrub | apply kept_scrubDone | apply kept_haltPart | apply kept_each | apply kept_foldl | apply kept_foldl1 | apply kept_ite | apply kept_ite1 | apply Memory.wf_put | apply Memory.wf_putByte | apply Memory.wf_fail | apply Memory.wf_zero | apply Memory.wf_poison | apply Memory.wf_unpoison | apply Memory.wf_mark | apply Memory.wf_writeLine | apply Memory.wf_foldl | apply Memory.wf_settle | apply Memory.wf_scrubRange
    | with_reducible (refine Kept.upd rfl ?_; first | assumption | apply kept_addScrub | apply kept_reportScrub | apply kept_scrubDone | apply kept_haltPart | apply kept_each | apply kept_foldl | apply kept_foldl1 | apply kept_ite | apply kept_ite1)
    | with_reducible (refine Kept.updMem rfl ?_ ?_; rotate_left; first | assumption)

theorem keptR_execScrubComplete {fz o} {a0 a1 s} (h : Kept fz o s) :
    KeptR fz o (execScrubComplete a0 a1 s) := by
  unfold execScrubComplete
  try dsimp only
  repeat' first
    | with_reducible assumption
    | intro _
    | dsimp only
    | with_reducible first | apply kept_scrubFirst | apply kept_scrubAgain | apply kept_each | apply kept_foldl | apply kept_foldl1 | apply keptR_next | apply keptR_fault | apply keptR_ite | apply kept_ite | apply kept_ite1 | apply Memory.wf_put | apply Memory.wf_putByte | apply Memory.wf_fail | apply Memory.wf_zero | apply Memory.wf_poison | apply Memory.wf_unpoison | apply Memory.wf_mark | apply Memory.wf_writeLine | apply Memory.wf_foldl | apply Memory.wf_settle | apply Memory.wf_scrubRange
    | with_reducible (refine Kept.upd rfl ?_; first | assumption | apply kept_scrubFirst | apply kept_scrubAgain | apply kept_each | apply kept_foldl | apply kept_foldl1 | apply kept_ite | apply kept_ite1)
    | with_reducible (refine Kept.updMem rfl ?_ ?_; rotate_left; first | assumption | apply kept_scrubFirst | apply kept_scrubAgain | apply kept_each | apply kept_foldl | apply kept_foldl1 | apply kept_ite | apply kept_ite1)
    | split

theorem keptR_execTeardownQuiescenceTimeout {fz o} {a0 s} (h : Kept fz o s) :
    KeptR fz o (execTeardownQuiescenceTimeout a0 s) := by
  unfold execTeardownQuiescenceTimeout
  try dsimp only
  repeat' first
    | with_reducible assumption
    | intro _
    | dsimp only
    | with_reducible first | apply kept_haltPart | apply kept_reach | apply kept_each | apply kept_foldl | apply kept_foldl1 | apply keptR_next | apply keptR_fault | apply keptR_ite

theorem keptR_execTeardownDrainDone {fz o} {a0 s} (h : Kept fz o s) :
    KeptR fz o (execTeardownDrainDone a0 s) := by
  unfold execTeardownDrainDone
  try dsimp only
  repeat' first
    | with_reducible assumption
    | intro _
    | dsimp only
    | with_reducible first | apply kept_purgeDir | apply kept_updPart | apply kept_each | apply kept_foldl | apply kept_foldl1 | apply keptR_next | apply keptR_fault | apply keptR_ite | apply kept_ite | apply kept_ite1 | apply Memory.wf_put | apply Memory.wf_putByte | apply Memory.wf_fail | apply Memory.wf_zero | apply Memory.wf_poison | apply Memory.wf_unpoison | apply Memory.wf_mark | apply Memory.wf_writeLine | apply Memory.wf_foldl | apply Memory.wf_settle | apply Memory.wf_scrubRange
    | with_reducible (refine Kept.upd rfl ?_; first | assumption | apply kept_purgeDir)

theorem keptR_execTeardown {fz o} {a0 a1 s} (h : Kept fz o s) :
    KeptR fz o (execTeardown a0 a1 s) := by
  unfold execTeardown
  try dsimp only
  repeat' first
    | with_reducible assumption
    | intro _
    | dsimp only
    | with_reducible first | apply kept_partOpWrite | apply kept_each | apply kept_foldl | apply kept_foldl1 | apply keptR_next | apply keptR_fault | apply keptR_ite | apply kept_ite

end Sys2Proof.Machine
end

