-- ==== Sys2Proof/Laws/KeptPower.lean ====
section
/-! SUPPORT. What the definitions of Machine/Power.lean keep (`Kept`). -/

namespace Sys2Proof.Machine

theorem Memory.wf_replace {m z : Memory} {a n : Nat} {f : Nat → Option (Nat × Byte)} (h : m.wf = true) (hz : z.wf = true)
    (hf : ∀ i e, f i = some e → e.1 = i ∧ e.2 ≠ 0) :
    ({ z with cells := m.cells.filter (fun e => decide (e.1 < a)) ++ (range a n).filterMap f ++
        m.cells.filter (fun e => decide (a + n ≤ e.1)) } : Memory).wf = true := by
  rw [Memory.wf_iff] at h hz ⊢
  refine ⟨Tab.wf_iff.2 ⟨Tab.rises_iff.2 ?_, ?_⟩, hz.2⟩
  · have hc := Tab.rises_iff.1 (Tab.wf_iff.1 h.1).1
    have hr : List.Pairwise (fun a b : Nat × Byte => a.1 < b.1) ((range a n).filterMap f) := by
      refine List.Pairwise.filterMap f (R := (· < ·)) ?_ ?_
      · intro x y hxy b hb c hc
        have h1 := (hf x b hb).1
        have h2 := (hf y c hc).1
        omega
      · unfold range
        exact List.Pairwise.map _ (fun x y hxy => by omega) List.pairwise_lt_range
    have hm : ∀ e ∈ (range a n).filterMap f, a ≤ e.1 ∧ e.1 < a + n := by
      intro e he
      obtain ⟨i, hi, hfi⟩ := List.mem_filterMap.1 he
      have h1 := (hf i e hfi).1
      unfold range at hi
      obtain ⟨j, hj, hji⟩ := List.mem_map.1 hi
      have := List.mem_range.1 hj
      omega
    rw [List.pairwise_append, List.pairwise_append]
    refine ⟨⟨hc.filter _, hr, ?_⟩, hc.filter _, ?_⟩
    · intro x hx y hy
      have h1 := (List.mem_filter.1 hx).2
      have h2 := hm y hy
      simp only [decide_eq_true_eq] at h1
      omega
    · intro x hx y hy
      have h2 := (List.mem_filter.1 hy).2
      simp only [decide_eq_true_eq] at h2
      rcases List.mem_append.1 hx with hx | hx
      · have h1 := (List.mem_filter.1 hx).2
        simp only [decide_eq_true_eq] at h1
        omega
      · have h1 := hm x hx
        omega
  · have hd := (Tab.wf_iff.1 h.1).2
    intro e he
    rcases List.mem_append.1 he with he | he
    · rcases List.mem_append.1 he with he | he
      · exact hd e (List.mem_filter.1 he).1
      · obtain ⟨i, _, hfi⟩ := List.mem_filterMap.1 he
        exact (hf i e hfi).2
    · exact hd e (List.mem_filter.1 he).1

theorem Memory.wf_cutWrites {s : State} (h : s.mem.wf = true) : (cutWrites s).wf = true := by
  unfold cutWrites
  refine Memory.wf_foldl (fun m g k => Memory.wf_foldl (fun m r k => ?_) k) h
  split
  · exact Memory.wf_fail k
  · split
    · exact Memory.wf_fail k
    · exact k

theorem keptR_execFuseReadTimeout {fz o} {s} (h : Kept fz o s) :
    KeptR fz o (execFuseReadTimeout s) := by
  unfold execFuseReadTimeout
  try dsimp only
  repeat' first
    | with_reducible assumption
    | intro _
    | dsimp only
    | with_reducible first | apply kept_each | apply kept_foldl | apply kept_foldl1 | apply keptR_next | apply keptR_fault | apply keptR_ite | apply kept_ite | apply kept_ite1 | apply Memory.wf_put | apply Memory.wf_putByte | apply Memory.wf_fail | apply Memory.wf_zero | apply Memory.wf_poison | apply Memory.wf_unpoison | apply Memory.wf_mark | apply Memory.wf_writeLine | apply Memory.wf_foldl | apply Memory.wf_settle | apply Memory.wf_scrubRange | apply Memory.wf_cutWrites
    | with_reducible (refine Kept.upd rfl ?_; first | assumption)

theorem kept_beginP3 {fz o} {s} (h : Kept fz o s) :
    Kept fz o (beginP3 s) := by
  unfold beginP3
  try dsimp only
  repeat' first
    | with_reducible assumption
    | intro _
    | dsimp only
    | with_reducible first | apply kept_each | apply kept_foldl | apply kept_foldl1 | apply kept_ite | apply kept_ite1 | apply Memory.wf_put | apply Memory.wf_putByte | apply Memory.wf_fail | apply Memory.wf_zero | apply Memory.wf_poison | apply Memory.wf_unpoison | apply Memory.wf_mark | apply Memory.wf_writeLine | apply Memory.wf_foldl | apply Memory.wf_settle | apply Memory.wf_scrubRange | apply Memory.wf_cutWrites
    | with_reducible (refine Kept.upd rfl ?_; first | assumption)

theorem kept_pwrDone {fz o} {s a1} (h : Kept fz o s) :
    Kept fz o (pwrDone s a1) := by
  unfold pwrDone
  try dsimp only
  repeat' first
    | with_reducible assumption
    | intro _
    | dsimp only
    | with_reducible first | apply kept_each | apply kept_foldl | apply kept_foldl1 | apply kept_ite | apply kept_ite1 | apply Memory.wf_put | apply Memory.wf_putByte | apply Memory.wf_fail | apply Memory.wf_zero | apply Memory.wf_poison | apply Memory.wf_unpoison | apply Memory.wf_mark | apply Memory.wf_writeLine | apply Memory.wf_foldl | apply Memory.wf_settle | apply Memory.wf_scrubRange | apply Memory.wf_cutWrites
    | with_reducible (refine Kept.upd rfl ?_; first | assumption)

theorem kept_powerOff {fz o} {s} (h : Kept fz o s) :
    Kept fz o (powerOff s) := by
  unfold powerOff
  try dsimp only
  repeat' first
    | with_reducible assumption
    | intro _
    | dsimp only
    | with_reducible first | apply kept_emit | apply kept_each | apply kept_foldl | apply kept_foldl1 | apply kept_ite | apply kept_ite1 | apply Memory.wf_put | apply Memory.wf_putByte | apply Memory.wf_fail | apply Memory.wf_zero | apply Memory.wf_poison | apply Memory.wf_unpoison | apply Memory.wf_mark | apply Memory.wf_writeLine | apply Memory.wf_foldl | apply Memory.wf_settle | apply Memory.wf_scrubRange | apply Memory.wf_cutWrites
    | with_reducible (refine Kept.upd rfl ?_; first | assumption | apply kept_emit | apply kept_each | apply kept_foldl | apply kept_foldl1 | apply kept_ite | apply kept_ite1)
    | with_reducible (refine Kept.updMem rfl ?_ ?_; rotate_left; first | assumption | apply kept_emit | apply kept_each | apply kept_foldl | apply kept_foldl1 | apply kept_ite | apply kept_ite1)
    | split

theorem kept_writeSave {fz : Bool} {o s : State} {bus : Bus} (h : Kept fz o s) : Kept fz o (writeSave s bus) := by
  unfold writeSave
  dsimp only
  refine kept_each (fun s x h => kept_reportBus h) ?_
  refine Kept.updMem rfl (fun hm => ?_) h
  refine Memory.wf_replace hm (Memory.wf_zero hm) fun i e he => ?_
  have key : ∀ b : Byte, (if b = 0 then none else some (i, b)) = some e → e.1 = i ∧ e.2 ≠ 0 := by
    intro b hb
    split at hb
    · cases hb
    · cases hb
      exact ⟨rfl, ‹_›⟩
  exact key _ he

theorem kept_loseKeys {fz o} {s} (h : Kept fz o s) :
    Kept fz o (loseKeys s) := by
  unfold loseKeys
  try dsimp only
  repeat' first
    | with_reducible assumption
    | intro _
    | dsimp only
    | with_reducible first | apply kept_mgmtTo | apply kept_each | apply kept_foldl | apply kept_foldl1 | apply kept_ite | apply kept_ite1 | apply Memory.wf_put | apply Memory.wf_putByte | apply Memory.wf_fail | apply Memory.wf_zero | apply Memory.wf_poison | apply Memory.wf_unpoison | apply Memory.wf_mark | apply Memory.wf_writeLine | apply Memory.wf_foldl | apply Memory.wf_settle | apply Memory.wf_scrubRange | apply Memory.wf_cutWrites
    | with_reducible (refine Kept.upd rfl ?_; first | assumption)

theorem kept_evictAll {fz o} {s a1} (h : Kept fz o s) :
    Kept fz o (evictAll s a1) := by
  unfold evictAll
  try dsimp only
  repeat' first
    | with_reducible assumption
    | intro _
    | dsimp only
    | with_reducible first | apply kept_updCtx | apply kept_evict | apply kept_each

theorem kept_abandonStreams {fz o} {s} (h : Kept fz o s) :
    Kept fz o (abandonStreams s) := by
  unfold abandonStreams
  try dsimp only
  repeat' first
    | with_reducible assumption
    | intro _
    | dsimp only
    | with_reducible first | apply kept_failAp | apply kept_each | apply kept_foldl | apply kept_foldl1 | apply kept_ite

theorem kept_enterP3 {fz o} {s a1} (h : Kept fz o s) :
    Kept fz o (enterP3 s a1) := by
  unfold enterP3
  try dsimp only
  repeat' first
    | with_reducible assumption
    | intro _
    | dsimp only
    | with_reducible first | apply kept_powerOff | apply kept_writeSave | apply kept_loseKeys | apply kept_evictAll | apply kept_abandonStreams

theorem kept_cutCmds {fz o} {s a1} (h : Kept fz o s) :
    Kept fz o (cutCmds s a1) := by
  unfold cutCmds
  try dsimp only
  repeat' first
    | with_reducible assumption
    | intro _
    | dsimp only
    | with_reducible first | apply kept_updCmd | apply kept_runAct | apply keptA_releasePins | apply kept_each | apply kept_foldl | apply kept_foldl1 | apply keptA_pure | apply keptA_bind_get | apply keptA_bind | apply keptA_modify | apply keptA_throw | apply keptA_get | apply keptA_set | apply keptA_ite | apply keptA_act | apply kept_endOk | apply kept_endError | apply kept_endIte | apply kept_ite | apply kept_ite1 | apply Memory.wf_put | apply Memory.wf_putByte | apply Memory.wf_fail | apply Memory.wf_zero | apply Memory.wf_poison | apply Memory.wf_unpoison | apply Memory.wf_mark | apply Memory.wf_writeLine | apply Memory.wf_foldl | apply Memory.wf_settle | apply Memory.wf_scrubRange | apply Memory.wf_cutWrites
    | with_reducible (refine Kept.upd rfl ?_; first | assumption | apply kept_updCmd | apply kept_runAct | apply keptA_releasePins | apply kept_each | apply kept_foldl | apply kept_foldl1 | apply kept_ite | apply kept_ite1 | refine keptA_ok ?_ ?_ (by assumption) | refine keptA_error ?_ ?_ (by assumption))
    | with_reducible (refine Kept.updMem rfl ?_ ?_; rotate_left; first | assumption | apply kept_updCmd | apply kept_runAct | apply keptA_releasePins | apply kept_each | apply kept_foldl | apply kept_foldl1 | apply kept_ite | apply kept_ite1 | refine keptA_ok ?_ ?_ (by assumption) | refine keptA_error ?_ ?_ (by assumption))
    | refine keptA_ok ?_ ?_ (by assumption)
    | refine keptA_error ?_ ?_ (by assumption)
    | split

theorem kept_tear {fz o} {s a1 a2} (h : Kept fz o s) :
    Kept fz o (tear s a1 a2) := by
  unfold tear
  try dsimp only
  repeat' first
    | with_reducible assumption
    | intro _
    | dsimp only
    | with_reducible first | apply kept_runAct | apply keptA_tearObj

theorem kept_cutCtx {fz o} {s a1} (h : Kept fz o s) :
    Kept fz o (cutCtx s a1) := by
  unfold cutCtx
  try dsimp only
  repeat' first
    | with_reducible assumption
    | intro _
    | dsimp only
    | with_reducible first | apply kept_faultCtx | apply kept_note

theorem kept_forceCut {fz o} {s a1} (h : Kept fz o s) :
    Kept fz o (forceCut s a1) := by
  unfold forceCut
  try dsimp only
  repeat' first
    | with_reducible assumption
    | intro _
    | dsimp only
    | with_reducible first | apply kept_cutCmds | apply kept_tear | apply kept_cutCtx | apply kept_each | apply kept_foldl | apply kept_foldl1 | apply kept_ite | apply kept_ite1 | apply Memory.wf_put | apply Memory.wf_putByte | apply Memory.wf_fail | apply Memory.wf_zero | apply Memory.wf_poison | apply Memory.wf_unpoison | apply Memory.wf_mark | apply Memory.wf_writeLine | apply Memory.wf_foldl | apply Memory.wf_settle | apply Memory.wf_scrubRange | apply Memory.wf_cutWrites
    | with_reducible (refine Kept.upd rfl ?_; first | assumption | apply kept_cutCmds | apply kept_tear | apply kept_cutCtx | apply kept_each | apply kept_foldl | apply kept_foldl1 | apply kept_ite | apply kept_ite1)
    | with_reducible (refine Kept.updMem rfl ?_ ?_; rotate_left; first | assumption | apply kept_cutCmds | apply kept_tear | apply kept_cutCtx | apply kept_each)

theorem kept_portPower {fz o} {s a1 a2 a3} (h : Kept fz o s) :
    Kept fz o (portPower s a1 a2 a3) := by
  unfold portPower
  try dsimp only
  repeat' first
    | with_reducible assumption
    | intro _
    | dsimp only
    | with_reducible first | apply kept_updBl | apply kept_enterRecovery | apply kept_askL1 | apply kept_each | apply kept_foldl | apply kept_foldl1 | apply kept_ite | apply kept_ite1 | apply Memory.wf_put | apply Memory.wf_putByte | apply Memory.wf_fail | apply Memory.wf_zero | apply Memory.wf_poison | apply Memory.wf_unpoison | apply Memory.wf_mark | apply Memory.wf_writeLine | apply Memory.wf_foldl | apply Memory.wf_settle | apply Memory.wf_scrubRange | apply Memory.wf_cutWrites
    | with_reducible (refine Kept.upd rfl ?_; first | assumption | apply kept_updBl | apply kept_enterRecovery | apply kept_askL1 | apply kept_each | apply kept_foldl | apply kept_foldl1 | apply kept_ite | apply kept_ite1)
    | with_reducible (refine Kept.updMem rfl ?_ ?_; rotate_left; first | assumption | apply kept_updBl | apply kept_enterRecovery | apply kept_askL1 | apply kept_each | apply kept_foldl | apply kept_foldl1 | apply kept_ite | apply kept_ite1)
    | split

theorem kept_setPwr {fz o} {s a1} (h : Kept fz o s) :
    Kept fz o (setPwr s a1) := by
  unfold setPwr
  try dsimp only
  repeat' first
    | with_reducible assumption
    | intro _
    | dsimp only
    | with_reducible first | apply kept_portPower | apply kept_settleL1 | apply kept_each | apply kept_foldl | apply kept_foldl1 | apply kept_ite | apply kept_ite1 | apply Memory.wf_put | apply Memory.wf_putByte | apply Memory.wf_fail | apply Memory.wf_zero | apply Memory.wf_poison | apply Memory.wf_unpoison | apply Memory.wf_mark | apply Memory.wf_writeLine | apply Memory.wf_foldl | apply Memory.wf_settle | apply Memory.wf_scrubRange | apply Memory.wf_cutWrites
    | with_reducible (refine Kept.upd rfl ?_; first | assumption)

theorem kept_changePwr {fz o} {s a1 a2 a3} (h : Kept fz o s) :
    Kept fz o (changePwr s a1 a2 a3) := by
  unfold changePwr
  try dsimp only
  repeat' first
    | with_reducible assumption
    | intro _
    | dsimp only
    | with_reducible first | apply kept_pwrDone | apply kept_enterP3 | apply kept_forceCut | apply kept_beginP3 | apply kept_setPwr | apply kept_each | apply kept_foldl | apply kept_foldl1 | apply kept_ite | apply kept_ite1 | apply Memory.wf_put | apply Memory.wf_putByte | apply Memory.wf_fail | apply Memory.wf_zero | apply Memory.wf_poison | apply Memory.wf_unpoison | apply Memory.wf_mark | apply Memory.wf_writeLine | apply Memory.wf_foldl | apply Memory.wf_settle | apply Memory.wf_scrubRange | apply Memory.wf_cutWrites
    | with_reducible (refine Kept.upd rfl ?_; first | assumption | apply kept_pwrDone | apply kept_enterP3 | apply kept_forceCut | apply kept_beginP3 | apply kept_setPwr | apply kept_each | apply kept_foldl | apply kept_foldl1 | apply kept_ite | apply kept_ite1)
    | with_reducible (refine Kept.updMem rfl ?_ ?_; rotate_left; first | assumption | apply kept_pwrDone | apply kept_enterP3 | apply kept_forceCut | apply kept_beginP3 | apply kept_setPwr | apply kept_each | apply kept_foldl | apply kept_foldl1 | apply kept_ite | apply kept_ite1)
    | split

theorem kept_pwrWrite {fz o} {s a1 a2 a3} (h : Kept fz o s) :
    Kept fz o (pwrWrite s a1 a2 a3) := by
  unfold pwrWrite
  try dsimp only
  repeat' first
    | with_reducible assumption
    | intro _
    | dsimp only
    | with_reducible first | apply kept_pwrDone | apply kept_changePwr | apply kept_each | apply kept_foldl | apply kept_foldl1 | apply kept_ite | apply kept_ite1 | apply Memory.wf_put | apply Memory.wf_putByte | apply Memory.wf_fail | apply Memory.wf_zero | apply Memory.wf_poison | apply Memory.wf_unpoison | apply Memory.wf_mark | apply Memory.wf_writeLine | apply Memory.wf_foldl | apply Memory.wf_settle | apply Memory.wf_scrubRange | apply Memory.wf_cutWrites
    | with_reducible (refine Kept.upd rfl ?_; first | assumption | apply kept_pwrDone | apply kept_changePwr | apply kept_each | apply kept_foldl | apply kept_foldl1 | apply kept_ite | apply kept_ite1)
    | with_reducible (refine Kept.updMem rfl ?_ ?_; rotate_left; first | assumption | apply kept_pwrDone | apply kept_changePwr | apply kept_each | apply kept_foldl | apply kept_foldl1 | apply kept_ite | apply kept_ite1)
    | split

theorem keptR_execPowerP0 {fz o} {s} (h : Kept fz o s) :
    KeptR fz o (execPowerP0 s) := by
  unfold execPowerP0
  try dsimp only
  repeat' first
    | with_reducible assumption
    | intro _
    | dsimp only
    | with_reducible first | apply kept_pwrWrite | apply kept_each | apply kept_foldl | apply kept_foldl1 | apply keptR_next | apply keptR_fault | apply keptR_ite | apply kept_ite

theorem keptR_execP3Entry {fz o} {a0 s} (h : Kept fz o s) :
    KeptR fz o (execP3Entry a0 s) := by
  unfold execP3Entry
  try dsimp only
  repeat' first
    | with_reducible assumption
    | intro _
    | dsimp only
    | with_reducible first | apply kept_enterP3 | apply kept_each | apply kept_foldl | apply kept_foldl1 | apply keptR_next | apply keptR_fault | apply keptR_ite | apply kept_ite

theorem keptR_execPowerP1 {fz o} {s} (h : Kept fz o s) :
    KeptR fz o (execPowerP1 s) := by
  unfold execPowerP1
  try dsimp only
  repeat' first
    | with_reducible assumption
    | intro _
    | dsimp only
    | with_reducible first | apply kept_pwrWrite | apply kept_each | apply kept_foldl | apply kept_foldl1 | apply keptR_next | apply keptR_fault | apply keptR_ite | apply kept_ite

theorem kept_scrubOverflow {fz o} {s a1} (h : Kept fz o s) :
    Kept fz o (scrubOverflow s a1) := by
  unfold scrubOverflow
  try dsimp only
  repeat' first
    | with_reducible assumption
    | intro _
    | dsimp only
    | with_reducible first | apply kept_reportScrub | apply kept_each | apply kept_foldl | apply kept_foldl1 | apply kept_ite | apply kept_ite1 | apply Memory.wf_put | apply Memory.wf_putByte | apply Memory.wf_fail | apply Memory.wf_zero | apply Memory.wf_poison | apply Memory.wf_unpoison | apply Memory.wf_mark | apply Memory.wf_writeLine | apply Memory.wf_foldl | apply Memory.wf_settle | apply Memory.wf_scrubRange | apply Memory.wf_cutWrites
    | with_reducible (refine Kept.upd rfl ?_; first | assumption | apply kept_reportScrub)
    | with_reducible (refine Kept.updMem rfl ?_ ?_; rotate_left; first | assumption)

theorem kept_wiped {fz o} {s a1 a2} (h : Kept fz o s) :
    Kept fz o (wiped s a1 a2) := by
  unfold wiped
  try dsimp only
  repeat' first
    | with_reducible assumption
    | intro _
    | dsimp only
    | with_reducible first | apply kept_each | apply kept_foldl | apply kept_foldl1 | apply kept_ite | apply kept_ite1 | apply Memory.wf_put | apply Memory.wf_putByte | apply Memory.wf_fail | apply Memory.wf_zero | apply Memory.wf_poison | apply Memory.wf_unpoison | apply Memory.wf_mark | apply Memory.wf_writeLine | apply Memory.wf_foldl | apply Memory.wf_settle | apply Memory.wf_scrubRange | apply Memory.wf_cutWrites
    | with_reducible (refine Kept.upd rfl ?_; first | assumption | apply kept_each | apply kept_foldl | apply kept_foldl1 | apply kept_ite | apply kept_ite1)
    | with_reducible (refine Kept.updMem rfl ?_ ?_; rotate_left; first | assumption)

theorem kept_resumeWork {fz o} {s} (h : Kept fz o s) :
    Kept fz o (resumeWork s) := by
  unfold resumeWork
  try dsimp only
  repeat' first
    | with_reducible assumption
    | intro _
    | dsimp only
    | with_reducible first | apply kept_startLoad | apply kept_kickAll | apply kept_each | apply kept_foldl | apply kept_foldl1 | apply kept_ite

theorem kept_restoreSaved {fz o} {s a1 a2} (h : Kept fz o s) :
    Kept fz o (restoreSaved s a1 a2) := by
  unfold restoreSaved
  try dsimp only
  repeat' first
    | with_reducible assumption
    | intro _
    | dsimp only
    | with_reducible first | apply kept_emit | apply kept_startTraining | apply kept_updBl | apply kept_resumeWork | apply kept_setPwr | apply kept_each | apply kept_foldl | apply kept_foldl1 | apply kept_ite | apply kept_ite1 | apply Memory.wf_put | apply Memory.wf_putByte | apply Memory.wf_fail | apply Memory.wf_zero | apply Memory.wf_poison | apply Memory.wf_unpoison | apply Memory.wf_mark | apply Memory.wf_writeLine | apply Memory.wf_foldl | apply Memory.wf_settle | apply Memory.wf_scrubRange | apply Memory.wf_cutWrites
    | with_reducible (refine Kept.upd rfl ?_; first | assumption | apply kept_emit | apply kept_startTraining | apply kept_updBl | apply kept_resumeWork | apply kept_setPwr | apply kept_each | apply kept_foldl | apply kept_foldl1 | apply kept_ite | apply kept_ite1)
    | with_reducible (refine Kept.updMem rfl ?_ ?_; rotate_left; first | assumption | apply kept_emit | apply kept_startTraining | apply kept_updBl | apply kept_resumeWork | apply kept_setPwr | apply kept_each | apply kept_foldl | apply kept_foldl1 | apply kept_ite | apply kept_ite1)
    | split

theorem keptR_execPowerP3Force {fz o} {a0 s} (h : Kept fz o s) :
    KeptR fz o (execPowerP3Force a0 s) := by
  unfold execPowerP3Force
  try dsimp only
  repeat' first
    | with_reducible assumption
    | intro _
    | dsimp only
    | with_reducible first | apply kept_pwrWrite | apply kept_each | apply kept_foldl | apply kept_foldl1 | apply keptR_next | apply keptR_fault | apply keptR_ite | apply kept_ite

theorem kept_comeUp {fz o} {s a1} (h : Kept fz o s) :
    Kept fz o (comeUp s a1) := by
  unfold comeUp
  try dsimp only
  repeat' first
    | with_reducible assumption
    | intro _
    | dsimp only
    | with_reducible first | apply kept_startTraining | apply kept_advertise | apply kept_each | apply kept_foldl | apply kept_foldl1 | apply kept_ite | apply kept_ite1 | apply Memory.wf_put | apply Memory.wf_putByte | apply Memory.wf_fail | apply Memory.wf_zero | apply Memory.wf_poison | apply Memory.wf_unpoison | apply Memory.wf_mark | apply Memory.wf_writeLine | apply Memory.wf_foldl | apply Memory.wf_settle | apply Memory.wf_scrubRange | apply Memory.wf_cutWrites
    | with_reducible (refine Kept.upd rfl ?_; first | assumption)

theorem keptR_execPowerP3 {fz o} {s} (h : Kept fz o s) :
    KeptR fz o (execPowerP3 s) := by
  unfold execPowerP3
  try dsimp only
  repeat' first
    | with_reducible assumption
    | intro _
    | dsimp only
    | with_reducible first | apply kept_pwrWrite | apply kept_each | apply kept_foldl | apply kept_foldl1 | apply keptR_next | apply keptR_fault | apply keptR_ite | apply kept_ite

theorem keptR_execP3EntryTimeout {fz o} {s} (h : Kept fz o s) :
    KeptR fz o (execP3EntryTimeout s) := by
  unfold execP3EntryTimeout
  try dsimp only
  repeat' first
    | with_reducible assumption
    | intro _
    | dsimp only
    | with_reducible first | apply kept_reach | apply kept_resumeWork | apply kept_pwrDone | apply kept_each | apply kept_foldl | apply kept_foldl1 | apply keptR_next | apply keptR_fault | apply keptR_ite | apply kept_ite | apply kept_ite1 | apply Memory.wf_put | apply Memory.wf_putByte | apply Memory.wf_fail | apply Memory.wf_zero | apply Memory.wf_poison | apply Memory.wf_unpoison | apply Memory.wf_mark | apply Memory.wf_writeLine | apply Memory.wf_foldl | apply Memory.wf_settle | apply Memory.wf_scrubRange | apply Memory.wf_cutWrites
    | with_reducible (refine Kept.upd rfl ?_; first | assumption | apply kept_reach)
    | with_reducible (refine Kept.updMem rfl ?_ ?_; rotate_left; first | assumption | apply kept_reach | apply kept_resumeWork | apply kept_pwrDone | apply kept_each | apply kept_foldl | apply kept_foldl1 | apply kept_ite | apply kept_ite1)
    | split

theorem kept_setFc {fz o} {s a1} (h : Kept fz o s) :
    Kept fz o (setFc s a1) := by
  unfold setFc
  try dsimp only
  repeat' first
    | with_reducible assumption
    | intro _
    | dsimp only
    | with_reducible first | apply kept_emit | apply kept_each | apply kept_foldl | apply kept_foldl1 | apply kept_ite | apply kept_ite1 | apply Memory.wf_put | apply Memory.wf_putByte | apply Memory.wf_fail | apply Memory.wf_zero | apply Memory.wf_poison | apply Memory.wf_unpoison | apply Memory.wf_mark | apply Memory.wf_writeLine | apply Memory.wf_foldl | apply Memory.wf_settle | apply Memory.wf_scrubRange | apply Memory.wf_cutWrites
    | with_reducible (refine Kept.upd rfl ?_; first | assumption | apply kept_emit | apply kept_each | apply kept_foldl | apply kept_foldl1 | apply kept_ite)

theorem keptR_execPowerP2 {fz o} {s} (h : Kept fz o s) :
    KeptR fz o (execPowerP2 s) := by
  unfold execPowerP2
  try dsimp only
  repeat' first
    | with_reducible assumption
    | intro _
    | dsimp only
    | with_reducible first | apply kept_pwrWrite | apply kept_each | apply kept_foldl | apply kept_foldl1 | apply keptR_next | apply keptR_fault | apply keptR_ite | apply kept_ite

theorem kept_complexResetOf {fz o} {s a1} (h : Kept fz o s) :
    Kept fz o (complexResetOf s a1) := by
  unfold complexResetOf
  try dsimp only
  repeat' first
    | with_reducible assumption
    | intro _
    | dsimp only
    | with_reducible first | apply kept_advertise | apply kept_wiped | apply kept_setFc | apply kept_each | apply kept_foldl | apply kept_foldl1 | apply kept_ite | apply kept_ite1 | apply Memory.wf_put | apply Memory.wf_putByte | apply Memory.wf_fail | apply Memory.wf_zero | apply Memory.wf_poison | apply Memory.wf_unpoison | apply Memory.wf_mark | apply Memory.wf_writeLine | apply Memory.wf_foldl | apply Memory.wf_settle | apply Memory.wf_scrubRange | apply Memory.wf_cutWrites
    | with_reducible (refine Kept.upd rfl ?_; first | assumption | apply kept_advertise | apply kept_wiped | apply kept_setFc | apply kept_each | apply kept_foldl | apply kept_foldl1 | apply kept_ite | apply kept_ite1)
    | with_reducible (refine Kept.updMem rfl ?_ ?_; rotate_left; first | assumption | apply kept_advertise | apply kept_wiped | apply kept_setFc | apply kept_each | apply kept_foldl | apply kept_foldl1 | apply kept_ite | apply kept_ite1)
    | split

theorem keptR_execQuinceHalt {fz o} {s} (h : Kept fz o s) :
    KeptR fz o (execQuinceHalt s) := by
  unfold execQuinceHalt
  try dsimp only
  repeat' first
    | with_reducible assumption
    | intro _
    | dsimp only
    | with_reducible first | apply kept_note | apply kept_each | apply kept_foldl | apply kept_foldl1 | apply keptR_next | apply keptR_fault | apply keptR_ite | apply kept_ite | apply kept_ite1 | apply Memory.wf_put | apply Memory.wf_putByte | apply Memory.wf_fail | apply Memory.wf_zero | apply Memory.wf_poison | apply Memory.wf_unpoison | apply Memory.wf_mark | apply Memory.wf_writeLine | apply Memory.wf_foldl | apply Memory.wf_settle | apply Memory.wf_scrubRange | apply Memory.wf_cutWrites
    | with_reducible (refine Kept.upd rfl ?_; first | assumption)

theorem keptR_execComplexReset {fz o} {s} (h : Kept fz o s) :
    KeptR fz o (execComplexReset s) := by
  unfold execComplexReset
  try dsimp only
  repeat' first
    | with_reducible assumption
    | intro _
    | dsimp only
    | with_reducible first | apply kept_complexResetOf | apply kept_each | apply kept_foldl | apply kept_foldl1 | apply keptR_next

theorem kept_leaveP3 {fz o} {s a1 a2} (h : Kept fz o s) :
    Kept fz o (leaveP3 s a1 a2) := by
  unfold leaveP3
  try dsimp only
  repeat' first
    | with_reducible assumption
    | intro _
    | dsimp only
    | with_reducible first | apply kept_restoreSaved | apply kept_complexResetOf | apply kept_each | apply kept_foldl | apply kept_foldl1 | apply kept_ite | apply kept_ite1 | apply Memory.wf_put | apply Memory.wf_putByte | apply Memory.wf_fail | apply Memory.wf_zero | apply Memory.wf_poison | apply Memory.wf_unpoison | apply Memory.wf_mark | apply Memory.wf_writeLine | apply Memory.wf_foldl | apply Memory.wf_settle | apply Memory.wf_scrubRange | apply Memory.wf_cutWrites
    | with_reducible (refine Kept.upd rfl ?_; first | assumption | apply kept_restoreSaved | apply kept_complexResetOf | apply kept_each | apply kept_foldl | apply kept_foldl1 | apply kept_ite | apply kept_ite1)
    | with_reducible (refine Kept.updMem rfl ?_ ?_; rotate_left; first | assumption | apply kept_restoreSaved | apply kept_complexResetOf | apply kept_each | apply kept_foldl | apply kept_foldl1 | apply kept_ite | apply kept_ite1)
    | split

/-- POWER_ON_RESET keeps the queue, the build, the fuses and memory's canonical form; the rest of `Kept` it changes. -/
theorem powerOnReset_keeps {a b c d s t} (h : execPowerOnReset a b c d s = .next t) :
    t.pending = s.pending ∧ t.build = s.build ∧ t.ps.fuses = s.ps.fuses ∧ (s.mem.wf = true → t.mem.wf = true) := by
  unfold execPowerOnReset at h
  split at h
  · cases h
    exact ⟨rfl, rfl, rfl, id⟩
  · have k : ∀ tp, Kept true s (wiped (setFc s { extLow := s.fc.extLow }) ResetKind.powerOn tp) :=
      fun tp => kept_wiped (kept_setFc (Kept.refl true s))
    have k1 := k (if a then {} else quarantineConf s)
    cases h
    have g := fun w : State => kept_advertise (Kept.refl true w)
    refine ⟨(g _).pending.trans k1.pending, (g _).build.trans k1.build, ((g _).fuses rfl).trans (k1.fuses rfl), fun hm => (g _).mem ?_⟩
    dsimp only
    split
    · rfl
    · exact k1.mem hm

end Sys2Proof.Machine
end

