-- ==== Sys2Proof/Laws/KeptCollector.lean ====
section
/-! SUPPORT. What the definitions of Machine/Collector.lean keep (`Kept`). -/

namespace Sys2Proof.Machine

theorem kept_freeRecs {fz o} {s a1} (h : Kept fz o s) :
    Kept fz o (freeRecs s a1) := by
  unfold freeRecs
  try dsimp only
  repeat' first
    | with_reducible assumption
    | intro _
    | dsimp only
    | with_reducible first | apply kept_each | apply kept_foldl | apply kept_foldl1 | apply kept_ite | apply kept_ite1
    | with_reducible (refine Kept.upd rfl ?_; first | assumption)

theorem keptR_execRecordFree {fz o} {a0 s} (h : Kept fz o s) :
    KeptR fz o (execRecordFree a0 s) := by
  unfold execRecordFree
  try dsimp only
  repeat' first
    | with_reducible assumption
    | intro _
    | dsimp only
    | with_reducible first | apply kept_freeRecs | apply kept_each | apply kept_foldl | apply kept_foldl1 | apply keptR_next | apply keptR_fault | apply keptR_ite | apply kept_ite

theorem kept_selfError {fz o} {s} (h : Kept fz o s) :
    Kept fz o (selfError s) := by
  unfold selfError
  try dsimp only
  repeat' first
    | with_reducible assumption
    | intro _
    | dsimp only
    | with_reducible first | apply kept_pulse | apply kept_reactClass | apply kept_each | apply kept_foldl | apply kept_foldl1 | apply kept_ite | apply kept_ite1
    | with_reducible (refine Kept.upd rfl ?_; first | assumption | apply kept_pulse | apply kept_reactClass)

theorem kept_errnWrite {fz o} {s a1} (h : Kept fz o s) :
    Kept fz o (errnWrite s a1) := by
  unfold errnWrite
  try dsimp only
  repeat' first
    | with_reducible assumption
    | intro _
    | dsimp only
    | with_reducible first | apply kept_setFc

theorem kept_srcCfgWrite {fz o} {s a1} (h : Kept fz o s) :
    Kept fz o (srcCfgWrite s a1) := by
  unfold srcCfgWrite
  try dsimp only
  repeat' first
    | with_reducible assumption
    | intro _
    | dsimp only
    | with_reducible first | apply kept_setSrc | apply kept_each | apply kept_foldl | apply kept_foldl1 | apply kept_ite | apply kept_ite1
    | with_reducible (refine Kept.upd rfl ?_; first | assumption | apply kept_setSrc | apply kept_each | apply kept_foldl | apply kept_foldl1 | apply kept_ite | apply kept_ite1)
    | split

theorem keptR_execFaultEvent {fz o} {a0 s} (h : Kept fz o s) :
    KeptR fz o (execFaultEvent a0 s) := by
  unfold execFaultEvent
  try dsimp only
  repeat' first
    | with_reducible assumption
    | intro _
    | dsimp only
    | with_reducible first | apply kept_selfError | apply kept_report | apply kept_each | apply kept_foldl | apply kept_foldl1 | apply keptR_next | apply keptR_fault | apply keptR_ite | apply kept_ite

theorem keptR_execSourceClr {fz o} {a0 s} (h : Kept fz o s) :
    KeptR fz o (execSourceClr a0 s) := by
  unfold execSourceClr
  try dsimp only
  repeat' first
    | with_reducible assumption
    | intro _
    | dsimp only
    | with_reducible first | apply kept_srcCfgWrite | apply kept_each | apply kept_foldl | apply kept_foldl1 | apply keptR_next | apply keptR_fault | apply keptR_ite | apply kept_ite

theorem kept_injectWrite {fz o} {s a1} (h : Kept fz o s) :
    Kept fz o (injectWrite s a1) := by
  unfold injectWrite
  try dsimp only
  repeat' first
    | with_reducible assumption
    | intro _
    | dsimp only
    | with_reducible first | apply kept_collect | apply kept_each | apply kept_foldl | apply kept_foldl1 | apply kept_ite | apply kept_ite1
    | with_reducible (refine Kept.upd rfl ?_; first | assumption)

theorem keptR_execFaultInject {fz o} {a0 s} (h : Kept fz o s) :
    KeptR fz o (execFaultInject a0 s) := by
  unfold execFaultInject
  try dsimp only
  repeat' first
    | with_reducible assumption
    | intro _
    | dsimp only
    | with_reducible first | apply kept_injectWrite | apply kept_each | apply kept_foldl | apply kept_foldl1 | apply keptR_next | apply keptR_fault | apply keptR_ite | apply kept_ite

theorem keptR_execCollectorSelfError {fz o} {s} (h : Kept fz o s) :
    KeptR fz o (execCollectorSelfError s) := by
  unfold execCollectorSelfError
  try dsimp only
  repeat' first
    | with_reducible assumption
    | intro _
    | dsimp only
    | with_reducible first | apply kept_selfError | apply kept_each | apply kept_foldl | apply kept_foldl1 | apply keptR_next

theorem kept_sloeWrite {fz o} {s a1} (h : Kept fz o s) :
    Kept fz o (sloeWrite s a1) := by
  unfold sloeWrite
  try dsimp only
  repeat' first
    | with_reducible assumption
    | intro _
    | dsimp only
    | with_reducible first | apply kept_each | apply kept_foldl | apply kept_foldl1 | apply kept_ite | apply kept_ite1
    | with_reducible (refine Kept.upd rfl ?_; first | assumption)

theorem keptR_execErrNPulseEnd {fz o} {s} (h : Kept fz o s) :
    KeptR fz o (execErrNPulseEnd s) := by
  unfold execErrNPulseEnd
  try dsimp only
  repeat' first
    | with_reducible assumption
    | intro _
    | dsimp only
    | with_reducible first | apply kept_reach | apply kept_setFc | apply kept_each | apply kept_foldl | apply kept_foldl1 | apply keptR_next | apply keptR_fault | apply keptR_ite | apply kept_ite | apply kept_ite1
    | with_reducible (refine Kept.upd rfl ?_; first | assumption | apply kept_reach | apply kept_setFc | apply kept_each | apply kept_foldl | apply kept_foldl1 | apply kept_ite | apply kept_ite1)
    | split

end Sys2Proof.Machine
end

