-- ==== Sys2Proof/Laws/KeptGweloty.lean ====
section
/-! SUPPORT. What the definitions of Machine/Gweloty.lean keep (`Kept`). -/

namespace Sys2Proof.Machine

theorem kept_answerOwner {fz o} {s a1 a2 a3 a4} (h : Kept fz o s) :
    Kept fz o (answerOwner s a1 a2 a3 a4) := by
  unfold answerOwner
  try dsimp only
  repeat' first
    | with_reducible assumption
    | intro _
    | dsimp only
    | with_reducible first | apply kept_quarantineTag | apply kept_wwAnswer | apply kept_answerWrite | apply kept_sendPools | apply kept_rowAnswer | apply kept_updGw | apply kept_each | apply kept_foldl | apply kept_foldl1 | apply kept_ite | apply kept_ite1 | apply Memory.wf_put | apply Memory.wf_putByte | apply Memory.wf_fail | apply Memory.wf_zero | apply Memory.wf_poison | apply Memory.wf_unpoison | apply Memory.wf_mark | apply Memory.wf_writeLine | apply Memory.wf_foldl | apply Memory.wf_settle
    | with_reducible (refine Kept.upd rfl ?_; first | assumption | apply kept_quarantineTag | apply kept_wwAnswer | apply kept_answerWrite | apply kept_sendPools | apply kept_rowAnswer | apply kept_updGw | apply kept_each | apply kept_foldl | apply kept_foldl1 | apply kept_ite | apply kept_ite1)
    | with_reducible (refine Kept.updMem rfl ?_ ?_; rotate_left; first | assumption | apply kept_quarantineTag | apply kept_wwAnswer | apply kept_answerWrite | apply kept_sendPools | apply kept_rowAnswer | apply kept_updGw | apply kept_each | apply kept_foldl | apply kept_foldl1 | apply kept_ite | apply kept_ite1)
    | split

theorem kept_answerReq {fz o} {s a1 a2 a3 a4} (h : Kept fz o s) : Kept fz o (answerReq s a1 a2 a3 a4) :=
  kept_wakeHome (kept_answerOwner h)

theorem keptR_execMemoryResponseDeadline {fz o} {a0 a1 s} (h : Kept fz o s) :
    KeptR fz o (execMemoryResponseDeadline a0 a1 s) := by
  unfold execMemoryResponseDeadline
  try dsimp only
  repeat' first
    | with_reducible assumption
    | intro _
    | dsimp only
    | with_reducible first | apply kept_answerReq | apply kept_reach | apply kept_each | apply kept_foldl | apply kept_foldl1 | apply keptR_next | apply keptR_fault | apply keptR_ite | apply kept_ite | apply kept_ite1 | apply Memory.wf_put | apply Memory.wf_putByte | apply Memory.wf_fail | apply Memory.wf_zero | apply Memory.wf_poison | apply Memory.wf_unpoison | apply Memory.wf_mark | apply Memory.wf_writeLine | apply Memory.wf_foldl | apply Memory.wf_settle
    | with_reducible (refine Kept.upd rfl ?_; first | assumption | apply kept_answerReq | apply kept_reach | apply kept_each | apply kept_foldl | apply kept_foldl1 | apply kept_ite | apply kept_ite1)
    | with_reducible (refine Kept.updMem rfl ?_ ?_; rotate_left; first | assumption | apply kept_answerReq | apply kept_reach | apply kept_each | apply kept_foldl | apply kept_foldl1 | apply kept_ite | apply kept_ite1)
    | split

theorem keptR_execGwelotyResponse {fz o} {a0 a1 a2 s} (h : Kept fz o s) :
    KeptR fz o (execGwelotyResponse a0 a1 a2 s) := by
  unfold execGwelotyResponse
  try dsimp only
  repeat' first
    | with_reducible assumption
    | intro _
    | dsimp only
    | with_reducible first | apply kept_answerReq | apply kept_updGw | apply kept_each | apply kept_foldl | apply kept_foldl1 | apply keptR_next | apply keptR_fault | apply keptR_ite | apply kept_ite | apply kept_ite1 | apply Memory.wf_put | apply Memory.wf_putByte | apply Memory.wf_fail | apply Memory.wf_zero | apply Memory.wf_poison | apply Memory.wf_unpoison | apply Memory.wf_mark | apply Memory.wf_writeLine | apply Memory.wf_foldl | apply Memory.wf_settle
    | with_reducible (refine Kept.upd rfl ?_; first | assumption | apply kept_answerReq | apply kept_updGw | apply kept_each | apply kept_foldl | apply kept_foldl1 | apply kept_ite | apply kept_ite1)
    | with_reducible (refine Kept.updMem rfl ?_ ?_; rotate_left; first | assumption | apply kept_answerReq | apply kept_updGw | apply kept_each | apply kept_foldl | apply kept_foldl1 | apply kept_ite | apply kept_ite1)
    | split

end Sys2Proof.Machine
end

