-- ==== Sys2Proof/Laws/KeptQuince.lean ====
section
/-! SUPPORT. What the definitions of Machine/Quince.lean keep (`Kept`). -/

namespace Sys2Proof.Machine

theorem kept_reply {fz o} {s a1 a2 a3} (h : Kept fz o s) :
    Kept fz o (reply s a1 a2 a3) := by
  unfold reply
  try dsimp only
  repeat' first
    | with_reducible assumption
    | intro _
    | dsimp only
    | with_reducible first | apply kept_emit

theorem kept_doeServe {fz o} {s a1 a2} (h : Kept fz o s) (h2 : ∀ x0, Kept fz o x0 → KeptQ fz o (a2 x0)) :
    Kept fz o (doeServe s a1 a2) := by
  unfold doeServe
  try dsimp only
  repeat' first
    | with_reducible assumption
    | intro _
    | dsimp only
    | with_reducible first | apply kept_emit | apply h2 | apply keptO_none | apply keptO_some | apply keptO_ite | apply keptQ_none | apply keptQ_some | apply keptQ_ite | apply kept_each | apply kept_foldl | apply kept_foldl1 | apply kept_ite | apply kept_ite1
    | with_reducible (refine Kept.upd rfl ?_; first | assumption | apply kept_emit | apply h2 | apply kept_each | apply kept_foldl | apply kept_foldl1 | apply kept_ite | apply kept_ite1 | refine kept_ofO ?_ (by assumption) | refine kept_ofQ ?_ (by assumption))
    | refine kept_ofO ?_ (by assumption)
    | refine kept_ofQ ?_ (by assumption)
    | refine kept_ofQ1 ?_ (by assumption)
    | split

theorem keptR_execSpdmRequest {fz o} {a0 a1 s} (h : Kept fz o s) :
    KeptR fz o (execSpdmRequest a0 a1 s) := by
  unfold execSpdmRequest
  try dsimp only
  repeat' first
    | with_reducible assumption
    | intro _
    | dsimp only
    | with_reducible first | apply kept_doeServe | apply keptO_none | apply keptO_some | apply keptO_ite | apply keptQ_none | apply keptQ_some | apply keptQ_ite | apply kept_each | apply kept_foldl | apply kept_foldl1 | apply keptR_next

theorem keptR_execGetMeasurements {fz o} {a0 s} (h : Kept fz o s) :
    KeptR fz o (execGetMeasurements a0 s) := by
  unfold execGetMeasurements
  try dsimp only
  repeat' first
    | with_reducible assumption
    | intro _
    | dsimp only
    | with_reducible first | apply kept_doeServe | apply keptO_none | apply keptO_some | apply keptO_ite | apply keptQ_none | apply keptQ_some | apply keptQ_ite | apply kept_each | apply kept_foldl | apply kept_foldl1 | apply keptR_next

theorem keptQ_wambeTake {fz o} {s a1 a2} (h : Kept fz o s) :
    KeptQ fz o (wambeTake s a1 a2) := by
  unfold wambeTake
  try dsimp only
  repeat' first
    | with_reducible assumption
    | intro _
    | dsimp only
    | with_reducible first | apply keptO_none | apply keptO_some | apply keptO_ite | apply keptQ_none | apply keptQ_some | apply keptQ_ite | apply kept_each | apply kept_foldl | apply kept_foldl1 | apply kept_ite | apply kept_ite1
    | with_reducible (refine Kept.upd rfl ?_; first | assumption)
    | split

theorem kept_withAuth {fz o} {s a1 a2 a3 a4} (h : Kept fz o s) (h4 : ∀ x0 x1, Kept fz o x0 → Kept fz o (a4 x0 x1)) :
    Kept fz o (withAuth s a1 a2 a3 a4) := by
  unfold withAuth
  try dsimp only
  repeat' first
    | with_reducible assumption
    | intro _
    | dsimp only
    | with_reducible first | apply keptQ_wambeTake | apply kept_reply | apply h4 | apply kept_each | apply kept_foldl | apply kept_foldl1 | apply kept_ite | apply kept_ite1
    | with_reducible (refine Kept.upd rfl ?_; first | assumption | apply keptQ_wambeTake | apply kept_reply | apply h4 | apply kept_each | apply kept_foldl | apply kept_foldl1 | apply kept_ite | apply kept_ite1 | refine kept_ofO ?_ (by assumption) | refine kept_ofQ ?_ (by assumption))
    | refine kept_ofO ?_ (by assumption)
    | refine kept_ofQ ?_ (by assumption)
    | refine kept_ofQ1 ?_ (by assumption)
    | split

theorem kept_blow {o : State} {s a1 a2} (h : Kept false o s) :
    Kept false o (blow s a1 a2) := by
  unfold blow
  try dsimp only
  repeat' first
    | with_reducible assumption
    | intro _
    | dsimp only
    | with_reducible first | apply kept_emit | apply kept_each | apply kept_foldl | apply kept_foldl1 | apply kept_ite | apply kept_ite1
    | with_reducible (refine Kept.upd0 ?_; first | assumption)

theorem keptR_execFuseProgram {o : State} {a0 a1 a2 s} (h : Kept false o s) :
    KeptR false o (execFuseProgram a0 a1 a2 s) := by
  unfold execFuseProgram
  try dsimp only
  repeat' first
    | with_reducible assumption
    | intro _
    | dsimp only
    | with_reducible first | apply kept_withAuth | apply kept_reply | apply kept_blow | apply kept_each | apply kept_foldl | apply kept_foldl1 | apply keptR_next | apply keptR_fault | apply keptR_ite | apply kept_ite

theorem keptR_execSessionClose {fz o} {a0 s} (h : Kept fz o s) :
    KeptR fz o (execSessionClose a0 s) := by
  unfold execSessionClose
  try dsimp only
  repeat' first
    | with_reducible assumption
    | intro _
    | dsimp only
    | with_reducible first | apply kept_withAuth | apply kept_reply | apply kept_each | apply kept_foldl | apply kept_foldl1 | apply keptR_next | apply keptR_fault | apply keptR_ite | apply kept_ite | apply kept_ite1
    | with_reducible (refine Kept.upd rfl ?_; first | assumption)

theorem keptR_execReset {fz o} {a0 a1 a2 s} (h : Kept fz o s) :
    KeptR fz o (execReset a0 a1 a2 s) := by
  unfold execReset
  try dsimp only
  repeat' first
    | with_reducible assumption
    | intro _
    | dsimp only
    | with_reducible first | apply kept_withAuth | apply kept_complexResetOf | apply kept_reply | apply kept_hostReset | apply kept_each | apply kept_foldl | apply kept_foldl1 | apply keptR_next | apply keptR_fault | apply keptR_ite | apply kept_ite

theorem keptR_execGetReport {fz o} {a0 a1 a2 a3 s} (h : Kept fz o s) :
    KeptR fz o (execGetReport a0 a1 a2 a3 s) := by
  unfold execGetReport
  try dsimp only
  repeat' first
    | with_reducible assumption
    | intro _
    | dsimp only
    | with_reducible first | apply kept_doeServe | apply keptO_none | apply keptO_some | apply keptO_ite | apply keptQ_none | apply keptQ_some | apply keptQ_ite | apply kept_each | apply kept_foldl | apply kept_foldl1 | apply keptR_next

theorem keptR_execDebugSet {fz o} {a0 a1 s} (h : Kept fz o s) :
    KeptR fz o (execDebugSet a0 a1 s) := by
  unfold execDebugSet
  try dsimp only
  repeat' first
    | with_reducible assumption
    | intro _
    | dsimp only
    | with_reducible first | apply kept_withAuth | apply kept_reply | apply kept_each | apply kept_foldl | apply kept_foldl1 | apply keptR_next | apply keptR_fault | apply keptR_ite | apply kept_ite | apply kept_ite1
    | with_reducible (refine Kept.upd rfl ?_; first | assumption)

theorem keptR_execLifecycle {o : State} {a0 a1 s} (h : Kept false o s) :
    KeptR false o (execLifecycle a0 a1 s) := by
  unfold execLifecycle
  try dsimp only
  repeat' first
    | with_reducible assumption
    | intro _
    | dsimp only
    | with_reducible first | apply kept_withAuth | apply kept_complexResetOf | apply kept_reply | apply kept_blow | apply kept_each | apply kept_foldl | apply kept_foldl1 | apply keptR_next | apply keptR_fault | apply keptR_ite | apply kept_ite

theorem keptR_execTraceSet {fz o} {a0 a1 a2 a3 s} (h : Kept fz o s) :
    KeptR fz o (execTraceSet a0 a1 a2 a3 s) := by
  unfold execTraceSet
  try dsimp only
  repeat' first
    | with_reducible assumption
    | intro _
    | dsimp only
    | with_reducible first | apply kept_withAuth | apply kept_reply | apply kept_each | apply kept_foldl | apply kept_foldl1 | apply keptR_next | apply keptR_fault | apply keptR_ite | apply kept_ite | apply kept_ite1
    | with_reducible (refine Kept.upd rfl ?_; first | assumption)

theorem keptR_execDebugWrite {fz o} {a0 a1 a2 a3 s} (h : Kept fz o s) :
    KeptR fz o (execDebugWrite a0 a1 a2 a3 s) := by
  unfold execDebugWrite
  try dsimp only
  repeat' first
    | with_reducible assumption
    | intro _
    | dsimp only
    | with_reducible first | apply kept_withAuth | apply kept_reply | apply kept_memWrite | apply kept_each | apply kept_foldl | apply kept_foldl1 | apply keptR_next | apply keptR_fault | apply keptR_ite | apply kept_ite | apply kept_ite1
    | with_reducible (refine Kept.upd rfl ?_; first | assumption | apply kept_withAuth | apply kept_reply | apply kept_memWrite | apply kept_each | apply kept_foldl | apply kept_foldl1 | apply kept_ite | apply kept_ite1 | refine kept_ofP ?_ (by assumption))
    | refine kept_ofP ?_ (by assumption)
    | split

theorem kept_installSecret {fz o} {s a1 a2 a3 a4} (h : Kept fz o s) :
    Kept fz o (installSecret s a1 a2 a3 a4) := by
  unfold installSecret
  try dsimp only
  repeat' first
    | with_reducible assumption
    | intro _
    | dsimp only
    | with_reducible first | apply kept_appendRec | apply kept_drawReturns | apply kept_each | apply kept_foldl | apply kept_foldl1 | apply kept_ite | apply kept_ite1
    | with_reducible (refine Kept.upd rfl ?_; first | assumption)

theorem keptR_execMgmtLock {fz o} {a0 a1 a2 s} (h : Kept fz o s) :
    KeptR fz o (execMgmtLock a0 a1 a2 s) := by
  unfold execMgmtLock
  try dsimp only
  repeat' first
    | with_reducible assumption
    | intro _
    | dsimp only
    | with_reducible first | apply kept_withAuth | apply kept_reply | apply kept_each | apply kept_foldl | apply kept_foldl1 | apply keptR_next | apply keptR_fault | apply keptR_ite | apply kept_ite | apply kept_ite1
    | with_reducible (refine Kept.upd rfl ?_; first | assumption)

theorem keptR_execGetStatus {fz o} {s} (h : Kept fz o s) :
    KeptR fz o (execGetStatus s) := by
  unfold execGetStatus
  try dsimp only
  repeat' first
    | with_reducible assumption
    | intro _
    | dsimp only
    | with_reducible first | apply kept_reply | apply kept_each | apply kept_foldl | apply kept_foldl1 | apply keptR_next

theorem keptR_execSetPower {fz o} {a0 a1 a2 a3 a4 s} (h : Kept fz o s) :
    KeptR fz o (execSetPower a0 a1 a2 a3 a4 s) := by
  unfold execSetPower
  try dsimp only
  repeat' first
    | with_reducible assumption
    | intro _
    | dsimp only
    | with_reducible first | apply kept_withAuth | apply kept_reply | apply kept_leaveP3 | apply kept_pwrDone | apply kept_changePwr | apply kept_each | apply kept_foldl | apply kept_foldl1 | apply keptR_next | apply keptR_fault | apply keptR_ite | apply kept_ite

theorem kept_debugGranule {fz o} {a0 a1 a2} (h1 : Kept fz o a1.1) :
    Kept fz o (debugGranule a0 a1 a2).1 := by
  unfold debugGranule
  try dsimp only
  repeat' first
    | with_reducible assumption
    | intro _
    | dsimp only
    | with_reducible first | apply kept_memRead | apply kept_each | apply kept_foldl | apply kept_foldl1 | apply kept_ite | apply kept_ite1

theorem keptR_execIdeKm {fz o} {a0 a1 a2 a3 a4 s} (h : Kept fz o s) :
    KeptR fz o (execIdeKm a0 a1 a2 a3 a4 s) := by
  unfold execIdeKm
  try dsimp only
  repeat' first
    | with_reducible assumption
    | intro _
    | dsimp only
    | with_reducible first | apply kept_doeServe | apply kept_updHost | apply keptO_none | apply keptO_some | apply keptO_ite | apply keptQ_none | apply keptQ_some | apply keptQ_ite | apply kept_each | apply kept_foldl | apply kept_foldl1 | apply keptR_next

theorem keptR_execDebugRead {fz o} {a0 a1 a2 a3 s} (h : Kept fz o s) :
    KeptR fz o (execDebugRead a0 a1 a2 a3 s) := by
  unfold execDebugRead
  try dsimp only
  repeat' first
    | with_reducible assumption
    | intro _
    | dsimp only
    | with_reducible first | apply kept_withAuth | apply kept_reply | apply kept_debugGranule | apply kept_each | apply kept_foldl | apply kept_foldl1 | apply keptR_next | apply keptR_fault | apply keptR_ite | apply kept_ite | apply kept_ite1
    | with_reducible (refine Kept.upd rfl ?_; first | assumption | apply kept_withAuth | apply kept_reply | apply kept_debugGranule | apply kept_each | apply kept_foldl | apply kept_foldl1 | apply kept_ite | apply kept_ite1 | refine kept_ofP ?_ (by assumption))
    | refine kept_ofP ?_ (by assumption)
    | split

theorem keptR_execCtxSecret {fz o} {a0 a1 a2 a3 a4 a5 s} (h : Kept fz o s) :
    KeptR fz o (execCtxSecret a0 a1 a2 a3 a4 a5 s) := by
  unfold execCtxSecret
  try dsimp only
  repeat' first
    | with_reducible assumption
    | intro _
    | dsimp only
    | with_reducible first | apply kept_doeServe | apply kept_installSecret | apply keptO_none | apply keptO_some | apply keptO_ite | apply keptQ_none | apply keptQ_some | apply keptQ_ite | apply kept_each | apply kept_foldl | apply kept_foldl1 | apply keptR_next

theorem keptR_execGetIdentity {fz o} {s} (h : Kept fz o s) :
    KeptR fz o (execGetIdentity s) := by
  unfold execGetIdentity
  try dsimp only
  repeat' first
    | with_reducible assumption
    | intro _
    | dsimp only
    | with_reducible first | apply kept_reply | apply kept_each | apply kept_foldl | apply kept_foldl1 | apply keptR_next | apply keptR_fault | apply keptR_ite | apply kept_ite

theorem keptR_execSessionOpen {fz o} {a0 a1 a2 s} (h : Kept fz o s) :
    KeptR fz o (execSessionOpen a0 a1 a2 s) := by
  unfold execSessionOpen
  try dsimp only
  repeat' first
    | with_reducible assumption
    | intro _
    | dsimp only
    | with_reducible first | apply kept_reply | apply kept_each | apply kept_foldl | apply kept_foldl1 | apply keptR_next | apply keptR_fault | apply keptR_ite | apply kept_ite | apply kept_ite1
    | with_reducible (refine Kept.upd rfl ?_; first | assumption)

end Sys2Proof.Machine
end

