-- ==== Sys2Proof/Laws/KeptRegisters.lean ====
section
/-! SUPPORT. What the definitions of Machine/Registers.lean keep (`Kept`). -/

namespace Sys2Proof.Machine

theorem kept_coreRead {fz o} {s a1 a2 a3 a4 a5} (h : Kept fz o s) :
    Kept fz o (coreRead s a1 a2 a3 a4 a5).1 := by
  unfold coreRead
  try dsimp only
  repeat' first
    | with_reducible assumption
    | intro _
    | dsimp only
    | with_reducible first | apply kept_each | apply kept_foldl | apply kept_foldl1 | apply kept_ite | apply kept_ite1
    | with_reducible (refine Kept.upd rfl ?_; first | assumption | apply kept_each | apply kept_foldl | apply kept_foldl1 | apply kept_ite | apply kept_ite1)
    | split

theorem kept_ktWrite {fz o} {s a1 a2} (h : Kept fz o s) :
    Kept fz o (ktWrite s a1 a2) := by
  unfold ktWrite
  try dsimp only
  repeat' first
    | with_reducible assumption
    | intro _
    | dsimp only
    | with_reducible first | apply kept_keyRetireWrite | apply kept_ktInvWrite | apply kept_each | apply kept_foldl | apply kept_foldl1 | apply kept_ite | apply kept_ite1
    | with_reducible (refine Kept.upd rfl ?_; first | assumption | apply kept_keyRetireWrite | apply kept_ktInvWrite | apply kept_each | apply kept_foldl | apply kept_foldl1 | apply kept_ite | apply kept_ite1)
    | split

theorem kept_coreData {fz o} {s a1 a2 a3} (h : Kept fz o s) :
    Kept fz o (coreData s a1 a2 a3) := by
  unfold coreData
  try dsimp only
  repeat' first
    | with_reducible assumption
    | intro _
    | dsimp only
    | with_reducible first | apply kept_respondFree

theorem keptA_tableView {fz o} {a0 a1}  :
    KeptA fz o (tableView a0 a1) := by
  unfold tableView
  try dsimp only
  repeat' first
    | with_reducible assumption
    | intro _
    | dsimp only
    | with_reducible first | apply keptA_objGet | apply keptA_engRead | apply kept_each | apply kept_foldl | apply kept_foldl1 | apply keptA_pure | apply keptA_bind_get | apply keptA_bind | apply keptA_modify | apply keptA_throw | apply keptA_get | apply keptA_set | apply keptA_ite

theorem keptA_regMem {fz o} {a0 a1 a2}  :
    KeptA fz o (regMem a0 a1 a2) := by
  unfold regMem
  try dsimp only
  repeat' first
    | with_reducible assumption
    | intro _
    | dsimp only
    | with_reducible first | apply keptA_tableView | apply keptA_homeGet | apply kept_each | apply kept_foldl | apply kept_foldl1 | apply keptA_pure | apply keptA_bind_get | apply keptA_bind | apply keptA_modify | apply keptA_throw | apply keptA_get | apply keptA_set | apply keptA_ite | apply keptA_act | apply kept_endOk | apply kept_endError | apply kept_endIte | apply kept_ite | apply kept_ite1
    | with_reducible (refine Kept.upd rfl ?_; first | assumption | apply keptA_tableView | apply keptA_homeGet | apply kept_each | apply kept_foldl | apply kept_foldl1 | apply kept_ite | apply kept_ite1 | refine keptA_ok ?_ ?_ (by assumption) | refine keptA_error ?_ ?_ (by assumption))
    | refine keptA_ok ?_ ?_ (by assumption)
    | refine keptA_error ?_ ?_ (by assumption)
    | split

theorem kept_regFetch {fz o} {s a1 a2 a3} (h : Kept fz o s) :
    Kept fz o (regFetch s a1 a2 a3).1 := by
  unfold regFetch
  try dsimp only
  repeat' first
    | with_reducible assumption
    | intro _
    | dsimp only
    | with_reducible first | apply keptA_regMem | apply kept_waitBack | apply kept_each | apply kept_foldl | apply kept_foldl1 | apply keptA_pure | apply keptA_bind_get | apply keptA_bind | apply keptA_modify | apply keptA_throw | apply keptA_get | apply keptA_set | apply keptA_ite | apply keptA_act | apply kept_endOk | apply kept_endError | apply kept_endIte | apply kept_ite | apply kept_ite1
    | with_reducible (refine Kept.upd rfl ?_; first | assumption | apply keptA_regMem | apply kept_waitBack | apply kept_each | apply kept_foldl | apply kept_foldl1 | apply kept_ite | apply kept_ite1 | refine keptA_ok ?_ ?_ (by assumption) | refine keptA_error ?_ ?_ (by assumption))
    | refine keptA_ok ?_ ?_ (by assumption)
    | refine keptA_error ?_ ?_ (by assumption)
    | split

theorem kept_windowRead {fz o} {s a1 a2 a3 a4} (h : Kept fz o s) :
    Kept fz o (windowRead s a1 a2 a3 a4) := by
  unfold windowRead
  try dsimp only
  repeat' first
    | with_reducible assumption
    | intro _
    | dsimp only
    | with_reducible first | apply kept_openReq | apply kept_coreDeny | apply kept_coreFail | apply kept_coreData | apply kept_coreSync | apply kept_regFetch | apply kept_waitBack | apply kept_coreRead | apply kept_each | apply kept_foldl | apply kept_foldl1 | apply kept_ite | apply kept_ite1
    | with_reducible (refine Kept.upd rfl ?_; first | assumption | apply kept_openReq | apply kept_coreDeny | apply kept_coreFail | apply kept_coreData | apply kept_coreSync | apply kept_regFetch | apply kept_waitBack | apply kept_coreRead | apply kept_each | apply kept_foldl | apply kept_foldl1 | apply kept_ite | apply kept_ite1 | refine kept_ofP ?_ (by assumption))
    | refine kept_ofP ?_ (by assumption)
    | split

theorem kept_coresBack {fz o} {s a1} (h : Kept fz o s) :
    Kept fz o (coresBack s a1) := by
  unfold coresBack
  try dsimp only
  repeat' first
    | with_reducible assumption
    | intro _
    | dsimp only
    | with_reducible first | apply kept_kickAll | apply kept_dbLate | apply kept_startLoad | apply kept_each | apply kept_foldl | apply kept_foldl1 | apply kept_ite | apply kept_ite1
    | with_reducible (refine Kept.upd rfl ?_; first | assumption | apply kept_kickAll | apply kept_dbLate | apply kept_startLoad | apply kept_each | apply kept_foldl | apply kept_foldl1 | apply kept_ite | apply kept_ite1)
    | split

theorem keptR_execRestoreCreditsReceived {fz o} {s} (h : Kept fz o s) :
    KeptR fz o (execRestoreCreditsReceived s) := by
  unfold execRestoreCreditsReceived
  try dsimp only
  repeat' first
    | with_reducible assumption
    | intro _
    | dsimp only
    | with_reducible first | apply kept_domainDone | apply kept_coresBack | apply kept_each | apply kept_foldl | apply kept_foldl1 | apply keptR_next | apply keptR_fault | apply keptR_ite | apply kept_ite | apply kept_ite1
    | with_reducible (refine Kept.upd rfl ?_; first | assumption | apply kept_domainDone | apply kept_coresBack | apply kept_each | apply kept_foldl | apply kept_foldl1 | apply kept_ite | apply kept_ite1)
    | split

theorem kept_ctxmapWords {fz o} {s a1 a2 a3 a4} (h : Kept fz o s) :
    Kept fz o (ctxmapWords s a1 a2 a3 a4) := by
  unfold ctxmapWords
  try dsimp only
  repeat' first
    | with_reducible assumption
    | intro _
    | dsimp only
    | with_reducible first | apply kept_ctxmapWrite | apply kept_each | apply kept_foldl | apply kept_foldl1 | apply kept_ite

theorem kept_coreDoorbell {fz o} {s a1 a2 a3 a4} (h : Kept fz o s) :
    Kept fz o (coreDoorbell s a1 a2 a3 a4) := by
  unfold coreDoorbell
  try dsimp only
  repeat' first
    | with_reducible assumption
    | intro _
    | dsimp only
    | with_reducible first | apply kept_dbDeliver | apply kept_each | apply kept_foldl | apply kept_foldl1 | apply kept_ite | apply kept_ite1
    | with_reducible (refine Kept.upd rfl ?_; first | assumption | apply kept_dbDeliver | apply kept_each | apply kept_foldl | apply kept_foldl1 | apply kept_ite | apply kept_ite1)
    | split

theorem kept_hpWrite {fz o} {s a1 a2 a3 a4} (h : Kept fz o s) :
    Kept fz o (hpWrite s a1 a2 a3 a4) := by
  unfold hpWrite
  try dsimp only
  repeat' first
    | with_reducible assumption
    | intro _
    | dsimp only
    | with_reducible first | apply kept_apCfgWrite | apply kept_updAp | apply kept_updHost | apply kept_each | apply kept_foldl | apply kept_foldl1 | apply kept_ite | apply kept_ite1
    | with_reducible (refine Kept.upd rfl ?_; first | assumption | apply kept_apCfgWrite | apply kept_updAp | apply kept_updHost | apply kept_each | apply kept_foldl | apply kept_foldl1 | apply kept_ite | apply kept_ite1)
    | split

theorem kept_objBaseWrite {fz o} {s a1} (h : Kept fz o s) :
    Kept fz o (objBaseWrite s a1) := by
  unfold objBaseWrite
  try dsimp only
  repeat' first
    | with_reducible assumption
    | intro _
    | dsimp only
    | with_reducible first | apply kept_each | apply kept_foldl | apply kept_foldl1 | apply kept_ite | apply kept_ite1
    | with_reducible (refine Kept.upd rfl ?_; first | assumption)

theorem kept_qeWrite {fz o} {s a1 a2 a3} (h : Kept fz o s) :
    Kept fz o (qeWrite s a1 a2 a3) := by
  unfold qeWrite
  try dsimp only
  repeat' first
    | with_reducible assumption
    | intro _
    | dsimp only
    | with_reducible first | apply kept_ctxOpWrite | apply kept_objBaseWrite | apply kept_objOpWrite | apply kept_each | apply kept_foldl | apply kept_foldl1 | apply kept_ite | apply kept_ite1
    | with_reducible (refine Kept.upd rfl ?_; first | assumption | apply kept_ctxOpWrite | apply kept_objBaseWrite | apply kept_objOpWrite | apply kept_each | apply kept_foldl | apply kept_foldl1 | apply kept_ite | apply kept_ite1)
    | split

theorem kept_poolBaseWrite {fz o} {s a1 a2 a3} (h : Kept fz o s) :
    Kept fz o (poolBaseWrite s a1 a2 a3) := by
  unfold poolBaseWrite
  try dsimp only
  repeat' first
    | with_reducible assumption
    | intro _
    | dsimp only
    | with_reducible first | apply kept_updPool | apply kept_each | apply kept_foldl | apply kept_foldl1 | apply kept_ite

theorem kept_tuWrite {fz o} {s a1 a2 a3} (h : Kept fz o s) :
    Kept fz o (tuWrite s a1 a2 a3) := by
  unfold tuWrite
  try dsimp only
  repeat' first
    | with_reducible assumption
    | intro _
    | dsimp only
    | with_reducible first | apply kept_poolBaseWrite | apply kept_poolProduce | apply kept_poolConsume | apply kept_pageRetireWrite | apply kept_invWrite | apply kept_fltWrite | apply kept_each | apply kept_foldl | apply kept_foldl1 | apply kept_ite | apply kept_ite1
    | with_reducible (refine Kept.upd rfl ?_; first | assumption | apply kept_poolBaseWrite | apply kept_poolProduce | apply kept_poolConsume | apply kept_pageRetireWrite | apply kept_invWrite | apply kept_fltWrite | apply kept_each | apply kept_foldl | apply kept_foldl1 | apply kept_ite | apply kept_ite1)
    | split

theorem kept_mvWrite {fz o} {s a1 a2} (h : Kept fz o s) :
    Kept fz o (mvWrite s a1 a2) := by
  unfold mvWrite
  try dsimp only
  repeat' first
    | with_reducible assumption
    | intro _
    | dsimp only
    | with_reducible first | apply kept_updChan | apply kept_each | apply kept_foldl | apply kept_foldl1 | apply kept_ite

theorem kept_portCtlWrite {fz o} {s a1 a2} (h : Kept fz o s) :
    Kept fz o (portCtlWrite s a1 a2) := by
  unfold portCtlWrite
  try dsimp only
  repeat' first
    | with_reducible assumption
    | intro _
    | dsimp only
    | with_reducible first | apply kept_portEnable | apply kept_portDisable | apply kept_portRetire | apply kept_portRestore | apply kept_portRetrain | apply kept_each | apply kept_foldl | apply kept_foldl1 | apply kept_ite

theorem kept_shardBaseWrite {fz o} {s a1} (h : Kept fz o s) :
    Kept fz o (shardBaseWrite s a1) := by
  unfold shardBaseWrite
  try dsimp only
  repeat' first
    | with_reducible assumption
    | intro _
    | dsimp only
    | with_reducible first | apply kept_each | apply kept_foldl | apply kept_foldl1 | apply kept_ite | apply kept_ite1
    | with_reducible (refine Kept.upd rfl ?_; first | assumption)

theorem kept_blWrite {fz o} {s a1 a2 a3} (h : Kept fz o s) :
    Kept fz o (blWrite s a1 a2 a3) := by
  unfold blWrite
  try dsimp only
  repeat' first
    | with_reducible assumption
    | intro _
    | dsimp only
    | with_reducible first | apply kept_portCtlWrite | apply kept_discWrite | apply kept_shardBaseWrite | apply kept_shardWrite | apply kept_each | apply kept_foldl | apply kept_foldl1 | apply kept_ite | apply kept_ite1
    | with_reducible (refine Kept.upd rfl ?_; first | assumption | apply kept_portCtlWrite | apply kept_discWrite | apply kept_shardBaseWrite | apply kept_shardWrite | apply kept_each | apply kept_foldl | apply kept_foldl1 | apply kept_ite | apply kept_ite1)
    | split

theorem kept_chWrite {fz o} {s a1 a2} (h : Kept fz o s) :
    Kept fz o (chWrite s a1 a2) := by
  unfold chWrite
  try dsimp only
  repeat' first
    | with_reducible assumption
    | intro _
    | dsimp only
    | with_reducible first | apply kept_domainWrite | apply kept_each | apply kept_foldl | apply kept_foldl1 | apply kept_ite | apply kept_ite1
    | with_reducible (refine Kept.upd rfl ?_; first | assumption)

theorem kept_psWrite {fz o} {s a1 a2 a3} (h : Kept fz o s) :
    Kept fz o (psWrite s a1 a2 a3) := by
  unfold psWrite
  try dsimp only
  repeat' first
    | with_reducible assumption
    | intro _
    | dsimp only
    | with_reducible first | apply kept_partOpWrite | apply kept_jobWrite | apply kept_tableWrite | apply kept_each | apply kept_foldl | apply kept_foldl1 | apply kept_ite | apply kept_ite1
    | with_reducible (refine Kept.upd rfl ?_; first | assumption | apply kept_partOpWrite | apply kept_jobWrite | apply kept_tableWrite | apply kept_each | apply kept_foldl | apply kept_foldl1 | apply kept_ite | apply kept_ite1)
    | split

theorem kept_fcWrite {fz o} {s a1 a2} (h : Kept fz o s) :
    Kept fz o (fcWrite s a1 a2) := by
  unfold fcWrite
  try dsimp only
  repeat' first
    | with_reducible assumption
    | intro _
    | dsimp only
    | with_reducible first | apply kept_freeRecs | apply kept_errnWrite | apply kept_srcCfgWrite | apply kept_injectWrite | apply kept_sloeWrite | apply kept_each | apply kept_foldl | apply kept_foldl1 | apply kept_ite | apply kept_ite1
    | with_reducible (refine Kept.upd rfl ?_; first | assumption | apply kept_freeRecs | apply kept_errnWrite | apply kept_srcCfgWrite | apply kept_injectWrite | apply kept_sloeWrite | apply kept_each | apply kept_foldl | apply kept_foldl1 | apply kept_ite | apply kept_ite1)
    | split

theorem kept_tpWrite {fz o} {s a1 a2 a3} (h : Kept fz o s) :
    Kept fz o (tpWrite s a1 a2 a3) := by
  unfold tpWrite
  try dsimp only
  repeat' first
    | with_reducible assumption
    | intro _
    | dsimp only
    | with_reducible first | apply kept_pwrWrite | apply kept_each | apply kept_foldl | apply kept_foldl1 | apply kept_ite | apply kept_ite1
    | with_reducible (refine Kept.upd rfl ?_; first | assumption | apply kept_pwrWrite | apply kept_each | apply kept_foldl | apply kept_foldl1 | apply kept_ite | apply kept_ite1)
    | split

theorem kept_regWriteAt {fz o} {s a1 a2 a3 a4} (h : Kept fz o s) :
    Kept fz o (regWriteAt s a1 a2 a3 a4) := by
  unfold regWriteAt
  try dsimp only
  repeat' first
    | with_reducible assumption
    | intro _
    | dsimp only
    | with_reducible first | apply kept_hpWrite | apply kept_qeWrite | apply kept_tuWrite | apply kept_ktWrite | apply kept_quadRetireWrite | apply kept_mvWrite | apply kept_blWrite | apply kept_chWrite | apply kept_psWrite | apply kept_fcWrite | apply kept_tpWrite | apply kept_each | apply kept_foldl | apply kept_foldl1 | apply kept_ite | apply kept_ite1
    | with_reducible (refine Kept.upd rfl ?_; first | assumption | apply kept_hpWrite | apply kept_qeWrite | apply kept_tuWrite | apply kept_ktWrite | apply kept_quadRetireWrite | apply kept_mvWrite | apply kept_blWrite | apply kept_chWrite | apply kept_psWrite | apply kept_fcWrite | apply kept_tpWrite | apply kept_each | apply kept_foldl | apply kept_foldl1 | apply kept_ite | apply kept_ite1)
    | split

theorem kept_regWrite {fz o} {s a1 a2 a3 a4 a5} (h : Kept fz o s) :
    Kept fz o (regWrite s a1 a2 a3 a4 a5) := by
  unfold regWrite
  try dsimp only
  repeat' first
    | with_reducible assumption
    | intro _
    | dsimp only
    | with_reducible first | apply kept_ctxmapWords | apply kept_regWriteAt | apply kept_each | apply kept_foldl | apply kept_foldl1 | apply kept_ite | apply kept_ite1
    | with_reducible (refine Kept.upd rfl ?_; first | assumption | apply kept_ctxmapWords | apply kept_regWriteAt | apply kept_each | apply kept_foldl | apply kept_foldl1 | apply kept_ite | apply kept_ite1)
    | split

theorem kept_windowWriteNc {fz o} {s a1 a2 a3 a4 a5} (h : Kept fz o s) :
    Kept fz o (windowWriteNc s a1 a2 a3 a4 a5) := by
  unfold windowWriteNc
  try dsimp only
  repeat' first
    | with_reducible assumption
    | intro _
    | dsimp only
    | with_reducible first | apply kept_openReq | apply kept_coreDeny | apply kept_coreFail | apply kept_respondFree | apply kept_coreDoorbell | apply kept_regWrite | apply kept_each | apply kept_foldl | apply kept_foldl1 | apply kept_ite

theorem kept_earlyReq {fz o} {s a1 a2} (h : Kept fz o s) :
    Kept fz o (earlyReq s a1 a2) := by
  unfold earlyReq
  try dsimp only
  repeat' first
    | with_reducible assumption
    | intro _
    | dsimp only
    | with_reducible first | apply kept_takeBarrier | apply kept_emit | apply kept_coreFail | apply kept_openReq | apply kept_windowRead | apply kept_windowWriteNc | apply kept_coreServe | apply kept_each | apply kept_foldl | apply kept_foldl1 | apply kept_ite | apply kept_ite1
    | with_reducible (refine Kept.upd rfl ?_; first | assumption | apply kept_takeBarrier | apply kept_emit | apply kept_coreFail | apply kept_openReq | apply kept_windowRead | apply kept_windowWriteNc | apply kept_coreServe | apply kept_each | apply kept_foldl | apply kept_foldl1 | apply kept_ite | apply kept_ite1)
    | split

theorem kept_serveEarly {fz o} {s a1} (h : Kept fz o s) : Kept fz o (serveEarly s a1) := by
  unfold serveEarly
  refine kept_each (fun _ _ hx => kept_earlyReq hx) ?_
  exact Kept.upd rfl h

theorem keptR_execRdNc {fz o} {a0 a1 a2 a3 s} (h : Kept fz o s) :
    KeptR fz o (execRdNc a0 a1 a2 a3 s) := by
  unfold execRdNc
  try dsimp only
  repeat' first
    | with_reducible assumption
    | intro _
    | dsimp only
    | with_reducible first | apply keptR_coreReq | apply kept_windowRead | apply kept_coreServe | apply kept_each | apply kept_foldl | apply kept_foldl1 | apply keptR_next | apply keptR_fault | apply keptR_ite | apply kept_ite

theorem kept_bar4Write {fz o} {s a1 a2 a3 a4} (h : Kept fz o s) :
    Kept fz o (bar4Write s a1 a2 a3 a4) := by
  unfold bar4Write
  try dsimp only
  repeat' first
    | with_reducible assumption
    | intro _
    | dsimp only
    | with_reducible first | apply kept_msixSend | apply kept_updFn | apply kept_each | apply kept_foldl | apply kept_foldl1 | apply kept_ite | apply kept_ite1
    | with_reducible (refine Kept.upd rfl ?_; first | assumption | apply kept_msixSend | apply kept_updFn | apply kept_each | apply kept_foldl | apply kept_foldl1 | apply kept_ite | apply kept_ite1)
    | split

theorem keptR_execRegisterWrite {fz o} {a0 a1 a2 a3 a4 s} (h : Kept fz o s) :
    KeptR fz o (execRegisterWrite a0 a1 a2 a3 a4 s) := by
  unfold execRegisterWrite
  try dsimp only
  repeat' first
    | with_reducible assumption
    | intro _
    | dsimp only
    | with_reducible first | apply kept_bar4Write | apply kept_dropOne | apply kept_regWrite | apply kept_each | apply kept_foldl | apply kept_foldl1 | apply keptR_next | apply keptR_fault | apply keptR_ite | apply kept_ite | apply kept_ite1
    | with_reducible (refine Kept.upd rfl ?_; first | assumption | apply kept_bar4Write | apply kept_dropOne | apply kept_regWrite | apply kept_each | apply kept_foldl | apply kept_foldl1 | apply kept_ite | apply kept_ite1)
    | split

theorem keptR_execResetSequenceEnd {fz o} {a0 a1 s} (h : Kept fz o s) :
    KeptR fz o (execResetSequenceEnd a0 a1 s) := by
  unfold execResetSequenceEnd
  try dsimp only
  repeat' first
    | with_reducible assumption
    | intro _
    | dsimp only
    | with_reducible first | apply kept_scrubOverflow | apply kept_serveEarly | apply kept_comeUp | apply kept_each | apply kept_foldl | apply kept_foldl1 | apply keptR_next | apply keptR_fault | apply keptR_ite | apply kept_ite | apply kept_ite1 | apply Memory.wf_put | apply Memory.wf_putByte | apply Memory.wf_fail | apply Memory.wf_zero | apply Memory.wf_poison | apply Memory.wf_unpoison | apply Memory.wf_mark | apply Memory.wf_writeLine | apply Memory.wf_foldl | apply Memory.wf_settle | apply Memory.wf_scrubRange | apply Memory.wf_cutWrites
    | with_reducible (refine Kept.upd rfl ?_; first | assumption)
    | with_reducible (refine Kept.updMem rfl ?_ ?_; rotate_left; first | assumption | apply kept_scrubOverflow | apply kept_serveEarly | apply kept_comeUp | apply kept_each | apply kept_foldl | apply kept_foldl1 | apply kept_ite | apply kept_ite1)
    | split

theorem keptR_execWrNc {fz o} {a0 a1 a2 a3 a4 s} (h : Kept fz o s) :
    KeptR fz o (execWrNc a0 a1 a2 a3 a4 s) := by
  unfold execWrNc
  try dsimp only
  repeat' first
    | with_reducible assumption
    | intro _
    | dsimp only
    | with_reducible first | apply keptR_coreReq | apply kept_windowWriteNc | apply kept_coreServe | apply kept_each | apply kept_foldl | apply kept_foldl1 | apply keptR_next | apply keptR_fault | apply keptR_ite | apply kept_ite

end Sys2Proof.Machine
end

