-- ==== Sys2Proof/Laws/KeptExec.lean ====
section
/-! SUPPORT. What every command keeps, in one lemma each with and without the fuses. -/

open Sys2Proof

namespace Sys2Proof.Machine

/-- Every command but POWER_ON_RESET keeps the queue, the build, the straps, the boot epoch and memory's canonical
form, and time does not go back. -/
theorem keptR_exec {c : Instr} {s : State} (hp : ∀ a b x d, c ≠ .powerOnReset a b x d) :
    KeptR false s (exec c s) := by
  cases c
  case powerOnReset a b x d => exact absurd rfl (hp a b x d)
  case complexReset => exact keptR_execComplexReset (Kept.refl false s)
  case resetSequenceEnd => exact keptR_execResetSequenceEnd (Kept.refl false s)
  case fuseReadTimeout => exact keptR_execFuseReadTimeout (Kept.refl false s)
  case quinceHalt => exact keptR_execQuinceHalt (Kept.refl false s)
  case hostPortReset => exact keptR_execHostPortReset (Kept.refl false s)
  case flr => exact keptR_execFlr (Kept.refl false s)
  case dStateChange => exact keptR_execDStateChange (Kept.refl false s)
  case linkPartnerNoFlit => exact keptR_execLinkPartnerNoFlit (Kept.refl false s)
  case malformedTlp => exact keptR_execMalformedTlp (Kept.refl false s)
  case unexpectedCompletion => exact keptR_execUnexpectedCompletion (Kept.refl false s)
  case receiverError => exact keptR_execReceiverError (Kept.refl false s)
  case windowWrite => exact keptR_execWindowWrite (Kept.refl false s)
  case copyOnWriteDone => exact keptR_execCopyOnWriteDone (Kept.refl false s)
  case windowWriteCommit => exact keptR_execWindowWriteCommit (Kept.refl false s)
  case sealedRecord => exact keptR_execSealedRecord (Kept.refl false s)
  case sealedFinalClose => exact keptR_execSealedFinalClose (Kept.refl false s)
  case bar2Read => exact keptR_execBar2Read (Kept.refl false s)
  case apertureEnable => exact keptR_execApertureEnable (Kept.refl false s)
  case apertureDisable => exact keptR_execApertureDisable (Kept.refl false s)
  case close => exact keptR_execClose (Kept.refl false s)
  case measuredCloseDone => exact keptR_execMeasuredCloseDone (Kept.refl false s)
  case vfCtxmapWrite => exact keptR_execVfCtxmapWrite (Kept.refl false s)
  case ingestSyncRead => exact keptR_execIngestSyncRead (Kept.refl false s)
  case ingestSyncDone => exact keptR_execIngestSyncDone (Kept.refl false s)
  case doorbellTail => exact keptR_execDoorbellTail (Kept.refl false s)
  case doorbellFenceClear => exact keptR_execDoorbellFenceClear (Kept.refl false s)
  case doorbellCqHead => exact keptR_execDoorbellCqHead (Kept.refl false s)
  case doorbellSretHead => exact keptR_execDoorbellSretHead (Kept.refl false s)
  case contextLoadDone => exact keptR_execContextLoadDone (Kept.refl false s)
  case ringReadResponse => exact keptR_execRingReadResponse (Kept.refl false s)
  case dbBackoffReread => exact keptR_execDbBackoffReread (Kept.refl false s)
  case dbPatienceExpire => exact keptR_execDbPatienceExpire (Kept.refl false s)
  case dispatch => exact keptR_execDispatch (Kept.refl false s)
  case nop => exact keptR_execNop (Kept.refl false s)
  case writePips => exact keptR_execWritePips (Kept.refl false s)
  case copy => exact keptR_execCopy (Kept.refl false s)
  case runChannel => exact keptR_execRunChannel (Kept.refl false s)
  case signal => exact keptR_execSignal (Kept.refl false s)
  case wait => exact keptR_execWait (Kept.refl false s)
  case flush => exact keptR_execFlush (Kept.refl false s)
  case map => exact keptR_execMap (Kept.refl false s)
  case unmap => exact keptR_execUnmap (Kept.refl false s)
  case objectFree => exact keptR_execObjectFree (Kept.refl false s)
  case bagPool => exact keptR_execBagPool (Kept.refl false s)
  case keyAdmit => exact keptR_execKeyAdmit (Kept.refl false s)
  case keyEvict => exact keptR_execKeyEvict (Kept.refl false s)
  case keyCommandResume => exact keptR_execKeyCommandResume (Kept.refl false s)
  case tableOpen => exact keptR_execTableOpen (Kept.refl false s)
  case tableAbort => exact keptR_execTableAbort (Kept.refl false s)
  case tableFlip => exact keptR_execTableFlip (Kept.refl false s)
  case flipTakeEffect => exact keptR_execFlipTakeEffect (Kept.refl false s)
  case retirement => exact keptR_execRetirement (Kept.refl false s)
  case remoteWrite => exact keptR_execRemoteWrite (Kept.refl false s)
  case remoteSignal => exact keptR_execRemoteSignal (Kept.refl false s)
  case contextResume => exact keptR_execContextResume (Kept.refl false s)
  case resumeRetryAll => exact keptR_execResumeRetryAll (Kept.refl false s)
  case resumeAbortAll => exact keptR_execResumeAbortAll (Kept.refl false s)
  case resumeRetrySlot => exact keptR_execResumeRetrySlot (Kept.refl false s)
  case resumeAbortSlot => exact keptR_execResumeAbortSlot (Kept.refl false s)
  case contextAbort => exact keptR_execContextAbort (Kept.refl false s)
  case commandEnd => exact keptR_execCommandEnd (Kept.refl false s)
  case flushReadCompletion => exact keptR_execFlushReadCompletion (Kept.refl false s)
  case flushReadTimeout => exact keptR_execFlushReadTimeout (Kept.refl false s)
  case msiXUnmask => exact keptR_execMsiXUnmask (Kept.refl false s)
  case completionRingFullNote => exact keptR_execCompletionRingFullNote (Kept.refl false s)
  case bounceRingFullNote => exact keptR_execBounceRingFullNote (Kept.refl false s)
  case waitEvaluate => exact keptR_execWaitEvaluate (Kept.refl false s)
  case waitTimeout => exact keptR_execWaitTimeout (Kept.refl false s)
  case ctxEnable => exact keptR_execCtxEnable (Kept.refl false s)
  case ctxDisable => exact keptR_execCtxDisable (Kept.refl false s)
  case ctxDisableDone => exact keptR_execCtxDisableDone (Kept.refl false s)
  case ctxResume => exact keptR_execCtxResume (Kept.refl false s)
  case ctxAbort => exact keptR_execCtxAbort (Kept.refl false s)
  case ctxAbortDone => exact keptR_execCtxAbortDone (Kept.refl false s)
  case ctxPin => exact keptR_execCtxPin (Kept.refl false s)
  case ctxUnpin => exact keptR_execCtxUnpin (Kept.refl false s)
  case objCreate => exact keptR_execObjCreate (Kept.refl false s)
  case objFree => exact keptR_execObjFree (Kept.refl false s)
  case objectDrainEnd => exact keptR_execObjectDrainEnd (Kept.refl false s)
  case pageWalk => exact keptR_execPageWalk (Kept.refl false s)
  case faultPatienceExpire => exact keptR_execFaultPatienceExpire (Kept.refl false s)
  case fltRetry => exact keptR_execFltRetry (Kept.refl false s)
  case fltAbort => exact keptR_execFltAbort (Kept.refl false s)
  case invAll => exact keptR_execInvAll (Kept.refl false s)
  case invPartition => exact keptR_execInvPartition (Kept.refl false s)
  case invContext => exact keptR_execInvContext (Kept.refl false s)
  case invRange => exact keptR_execInvRange (Kept.refl false s)
  case invalidationDone => exact keptR_execInvalidationDone (Kept.refl false s)
  case poolAllocProduce => exact keptR_execPoolAllocProduce (Kept.refl false s)
  case poolReturnConsume => exact keptR_execPoolReturnConsume (Kept.refl false s)
  case poolReturnWaitNote => exact keptR_execPoolReturnWaitNote (Kept.refl false s)
  case pageSliceRetire => exact keptR_execPageSliceRetire (Kept.refl false s)
  case pageSliceRetireDone => exact keptR_execPageSliceRetireDone (Kept.refl false s)
  case tsRequest => exact keptR_execTsRequest (Kept.refl false s)
  case tsDone => exact keptR_execTsDone (Kept.refl false s)
  case tsHoldTimeout => exact keptR_execTsHoldTimeout (Kept.refl false s)
  case sloeWindowEnd => exact keptR_execSloeWindowEnd (Kept.refl false s)
  case keyLookup => exact keptR_execKeyLookup (Kept.refl false s)
  case admitEventSignal => exact keptR_execAdmitEventSignal (Kept.refl false s)
  case keySliceRetire => exact keptR_execKeySliceRetire (Kept.refl false s)
  case keySliceRetireDone => exact keptR_execKeySliceRetireDone (Kept.refl false s)
  case ktInvAll => exact keptR_execKtInvAll (Kept.refl false s)
  case ktInvTable => exact keptR_execKtInvTable (Kept.refl false s)
  case ktInvDone => exact keptR_execKtInvDone (Kept.refl false s)
  case segmentAccept => exact keptR_execSegmentAccept (Kept.refl false s)
  case rowFetchResponse => exact keptR_execRowFetchResponse (Kept.refl false s)
  case tileAccept => exact keptR_execTileAccept (Kept.refl false s)
  case tileStallTimeout => exact keptR_execTileStallTimeout (Kept.refl false s)
  case quadRetire => exact keptR_execQuadRetire (Kept.refl false s)
  case quadRetireDone => exact keptR_execQuadRetireDone (Kept.refl false s)
  case gwelotyResponse => exact keptR_execGwelotyResponse (Kept.refl false s)
  case memoryResponseDeadline => exact keptR_execMemoryResponseDeadline (Kept.refl false s)
  case channelRunStart => exact keptR_execChannelRunStart (Kept.refl false s)
  case move => exact keptR_execMove (Kept.refl false s)
  case loop => exact keptR_execLoop (Kept.refl false s)
  case endloop => exact keptR_execEndloop (Kept.refl false s)
  case channelNop => exact keptR_execChannelNop (Kept.refl false s)
  case channelWait => exact keptR_execChannelWait (Kept.refl false s)
  case channelWaitTimeout => exact keptR_execChannelWaitTimeout (Kept.refl false s)
  case channelSignal => exact keptR_execChannelSignal (Kept.refl false s)
  case channelSignalSet => exact keptR_execChannelSignalSet (Kept.refl false s)
  case fence => exact keptR_execFence (Kept.refl false s)
  case stop => exact keptR_execStop (Kept.refl false s)
  case remoteWriteRequest => exact keptR_execRemoteWriteRequest (Kept.refl false s)
  case remoteReadRequest => exact keptR_execRemoteReadRequest (Kept.refl false s)
  case remoteAtomicRequest => exact keptR_execRemoteAtomicRequest (Kept.refl false s)
  case remoteSignalRequest => exact keptR_execRemoteSignalRequest (Kept.refl false s)
  case remotePoolRequest => exact keptR_execRemotePoolRequest (Kept.refl false s)
  case readData => exact keptR_execReadData (Kept.refl false s)
  case atomicResult => exact keptR_execAtomicResult (Kept.refl false s)
  case poolPartial => exact keptR_execPoolPartial (Kept.refl false s)
  case ack => exact keptR_execAck (Kept.refl false s)
  case nack => exact keptR_execNack (Kept.refl false s)
  case remotePatienceExpire => exact keptR_execRemotePatienceExpire (Kept.refl false s)
  case dataFlit => exact keptR_execDataFlit (Kept.refl false s)
  case ts => exact keptR_execTs (Kept.refl false s)
  case nak => exact keptR_execNak (Kept.refl false s)
  case credit => exact keptR_execCredit (Kept.refl false s)
  case l1Req => exact keptR_execL1Req (Kept.refl false s)
  case l1Ack => exact keptR_execL1Ack (Kept.refl false s)
  case safe => exact keptR_execSafe (Kept.refl false s)
  case ackTimer => exact keptR_execAckTimer (Kept.refl false s)
  case replayTimer => exact keptR_execReplayTimer (Kept.refl false s)
  case laneLockLoss => exact keptR_execLaneLockLoss (Kept.refl false s)
  case trainingTimeout y0 y1 => exact keptR_execTrainingTimeout (a1 := y1) (Kept.refl false s)
  case trainingRetry => exact keptR_execTrainingRetry (Kept.refl false s)
  case linkTrained => exact keptR_execLinkTrained (Kept.refl false s)
  case portEnable => exact keptR_execPortEnable (Kept.refl false s)
  case portDisable y0 y1 => exact keptR_execPortDisable (a1 := y1) (Kept.refl false s)
  case retrain => exact keptR_execRetrain (Kept.refl false s)
  case portRetire => exact keptR_execPortRetire (Kept.refl false s)
  case portRestore => exact keptR_execPortRestore (Kept.refl false s)
  case rediscover => exact keptR_execRediscover (Kept.refl false s)
  case discoveryStart => exact keptR_execDiscoveryStart (Kept.refl false s)
  case rootElection => exact keptR_execRootElection (Kept.refl false s)
  case mgrAnnounce => exact keptR_execMgrAnnounce (Kept.refl false s)
  case assign => exact keptR_execAssign (Kept.refl false s)
  case route => exact keptR_execRoute (Kept.refl false s)
  case topoChange => exact keptR_execTopoChange (Kept.refl false s)
  case keyInstall => exact keptR_execKeyInstall (Kept.refl false s)
  case keyNotice y0 y1 y2 => exact keptR_execKeyNotice (a0 := y0) (a1 := y1) (a2 := y2) (Kept.refl false s)
  case shardDir => exact keptR_execShardDir (Kept.refl false s)
  case publish => exact keptR_execPublish (Kept.refl false s)
  case withdraw => exact keptR_execWithdraw (Kept.refl false s)
  case jobkeyInstall => exact keptR_execJobkeyInstall (Kept.refl false s)
  case rdShared => exact keptR_execRdShared (Kept.refl false s)
  case rdUnique => exact keptR_execRdUnique (Kept.refl false s)
  case upgrade => exact keptR_execUpgrade (Kept.refl false s)
  case wb => exact keptR_execWb (Kept.refl false s)
  case rdNc => exact keptR_execRdNc (Kept.refl false s)
  case wrNc => exact keptR_execWrNc (Kept.refl false s)
  case atomic => exact keptR_execAtomic (Kept.refl false s)
  case barrier => exact keptR_execBarrier (Kept.refl false s)
  case miss => exact keptR_execMiss (Kept.refl false s)
  case shared => exact keptR_execShared (Kept.refl false s)
  case accept => exact keptR_execAccept (Kept.refl false s)
  case decline => exact keptR_execDecline (Kept.refl false s)
  case snoopData => exact keptR_execSnoopData (Kept.refl false s)
  case snoopDeadline y0 y1 y2 => exact keptR_execSnoopDeadline (a2 := y2) (Kept.refl false s)
  case down y0 => exact keptR_execDown (a0 := y0) (Kept.refl false s)
  case restore => exact keptR_execRestore (Kept.refl false s)
  case restoreCreditsReceived => exact keptR_execRestoreCreditsReceived (Kept.refl false s)
  case restoreCreditTimeout => exact keptR_execRestoreCreditTimeout (Kept.refl false s)
  case lock => exact keptR_execLock (Kept.refl false s)
  case unlock => exact keptR_execUnlock (Kept.refl false s)
  case teardown => exact keptR_execTeardown (Kept.refl false s)
  case teardownDrainDone => exact keptR_execTeardownDrainDone (Kept.refl false s)
  case teardownQuiescenceTimeout => exact keptR_execTeardownQuiescenceTimeout (Kept.refl false s)
  case scrubComplete => exact keptR_execScrubComplete (Kept.refl false s)
  case partitionTableWrite => exact keptR_execPartitionTableWrite (Kept.refl false s)
  case getStatus => exact keptR_execGetStatus (Kept.refl false s)
  case getIdentity => exact keptR_execGetIdentity (Kept.refl false s)
  case sessionOpen => exact keptR_execSessionOpen (Kept.refl false s)
  case sessionClose => exact keptR_execSessionClose (Kept.refl false s)
  case setPower => exact keptR_execSetPower (Kept.refl false s)
  case reset => exact keptR_execReset (Kept.refl false s)
  case lifecycle => exact keptR_execLifecycle (Kept.refl false s)
  case fuseProgram => exact keptR_execFuseProgram (Kept.refl false s)
  case debugSet => exact keptR_execDebugSet (Kept.refl false s)
  case mgmtLock => exact keptR_execMgmtLock (Kept.refl false s)
  case debugRead => exact keptR_execDebugRead (Kept.refl false s)
  case debugWrite => exact keptR_execDebugWrite (Kept.refl false s)
  case traceSet => exact keptR_execTraceSet (Kept.refl false s)
  case spdmRequest => exact keptR_execSpdmRequest (Kept.refl false s)
  case ctxSecret => exact keptR_execCtxSecret (Kept.refl false s)
  case getReport => exact keptR_execGetReport (Kept.refl false s)
  case getMeasurements => exact keptR_execGetMeasurements (Kept.refl false s)
  case ideKm => exact keptR_execIdeKm (Kept.refl false s)
  case tdiStateChange => exact keptR_execTdiStateChange (Kept.refl false s)
  case faultEvent => exact keptR_execFaultEvent (Kept.refl false s)
  case errNPulseEnd => exact keptR_execErrNPulseEnd (Kept.refl false s)
  case collectorSelfError => exact keptR_execCollectorSelfError (Kept.refl false s)
  case recordFree => exact keptR_execRecordFree (Kept.refl false s)
  case sourceClr => exact keptR_execSourceClr (Kept.refl false s)
  case faultInject => exact keptR_execFaultInject (Kept.refl false s)
  case powerP0 => exact keptR_execPowerP0 (Kept.refl false s)
  case powerP1 => exact keptR_execPowerP1 (Kept.refl false s)
  case powerP2 => exact keptR_execPowerP2 (Kept.refl false s)
  case powerP3 => exact keptR_execPowerP3 (Kept.refl false s)
  case powerP3Force => exact keptR_execPowerP3Force (Kept.refl false s)
  case p3Entry => exact keptR_execP3Entry (Kept.refl false s)
  case p3EntryTimeout => exact keptR_execP3EntryTimeout (Kept.refl false s)
  case registerWrite => exact keptR_execRegisterWrite (Kept.refl false s)
  case hostLinkUp => exact keptR_execHostLinkUp (Kept.refl false s)
  case idleFlit => exact keptR_execIdleFlit (Kept.refl false s)
  case coreCreditReturn => exact keptR_execCoreCreditReturn (Kept.refl false s)
  case shardDirAcknowledged => exact keptR_execShardDirAcknowledged (Kept.refl false s)
  case keyInstallAnswered => exact keptR_execKeyInstallAnswered (Kept.refl false s)

/-- Every command but those that program fuses keeps the fuses too (R59). -/
theorem keptT_exec {c : Instr} {s : State} (hp : ∀ a b x d, c ≠ .powerOnReset a b x d) (h1 : ∀ a b d, c ≠ .fuseProgram a b d)
   (h2 : ∀ a b, c ≠ .lifecycle a b) :
    KeptR true s (exec c s) := by
  cases c
  case powerOnReset a b x d => exact absurd rfl (hp a b x d)
  case fuseProgram a b x => exact absurd rfl (h1 a b x)
  case lifecycle a b => exact absurd rfl (h2 a b)
  case complexReset => exact keptR_execComplexReset (Kept.refl true s)
  case resetSequenceEnd => exact keptR_execResetSequenceEnd (Kept.refl true s)
  case fuseReadTimeout => exact keptR_execFuseReadTimeout (Kept.refl true s)
  case quinceHalt => exact keptR_execQuinceHalt (Kept.refl true s)
  case hostPortReset => exact keptR_execHostPortReset (Kept.refl true s)
  case flr => exact keptR_execFlr (Kept.refl true s)
  case dStateChange => exact keptR_execDStateChange (Kept.refl true s)
  case linkPartnerNoFlit => exact keptR_execLinkPartnerNoFlit (Kept.refl true s)
  case malformedTlp => exact keptR_execMalformedTlp (Kept.refl true s)
  case unexpectedCompletion => exact keptR_execUnexpectedCompletion (Kept.refl true s)
  case receiverError => exact keptR_execReceiverError (Kept.refl true s)
  case windowWrite => exact keptR_execWindowWrite (Kept.refl true s)
  case copyOnWriteDone => exact keptR_execCopyOnWriteDone (Kept.refl true s)
  case windowWriteCommit => exact keptR_execWindowWriteCommit (Kept.refl true s)
  case sealedRecord => exact keptR_execSealedRecord (Kept.refl true s)
  case sealedFinalClose => exact keptR_execSealedFinalClose (Kept.refl true s)
  case bar2Read => exact keptR_execBar2Read (Kept.refl true s)
  case apertureEnable => exact keptR_execApertureEnable (Kept.refl true s)
  case apertureDisable => exact keptR_execApertureDisable (Kept.refl true s)
  case close => exact keptR_execClose (Kept.refl true s)
  case measuredCloseDone => exact keptR_execMeasuredCloseDone (Kept.refl true s)
  case vfCtxmapWrite => exact keptR_execVfCtxmapWrite (Kept.refl true s)
  case ingestSyncRead => exact keptR_execIngestSyncRead (Kept.refl true s)
  case ingestSyncDone => exact keptR_execIngestSyncDone (Kept.refl true s)
  case doorbellTail => exact keptR_execDoorbellTail (Kept.refl true s)
  case doorbellFenceClear => exact keptR_execDoorbellFenceClear (Kept.refl true s)
  case doorbellCqHead => exact keptR_execDoorbellCqHead (Kept.refl true s)
  case doorbellSretHead => exact keptR_execDoorbellSretHead (Kept.refl true s)
  case contextLoadDone => exact keptR_execContextLoadDone (Kept.refl true s)
  case ringReadResponse => exact keptR_execRingReadResponse (Kept.refl true s)
  case dbBackoffReread => exact keptR_execDbBackoffReread (Kept.refl true s)
  case dbPatienceExpire => exact keptR_execDbPatienceExpire (Kept.refl true s)
  case dispatch => exact keptR_execDispatch (Kept.refl true s)
  case nop => exact keptR_execNop (Kept.refl true s)
  case writePips => exact keptR_execWritePips (Kept.refl true s)
  case copy => exact keptR_execCopy (Kept.refl true s)
  case runChannel => exact keptR_execRunChannel (Kept.refl true s)
  case signal => exact keptR_execSignal (Kept.refl true s)
  case wait => exact keptR_execWait (Kept.refl true s)
  case flush => exact keptR_execFlush (Kept.refl true s)
  case map => exact keptR_execMap (Kept.refl true s)
  case unmap => exact keptR_execUnmap (Kept.refl true s)
  case objectFree => exact keptR_execObjectFree (Kept.refl true s)
  case bagPool => exact keptR_execBagPool (Kept.refl true s)
  case keyAdmit => exact keptR_execKeyAdmit (Kept.refl true s)
  case keyEvict => exact keptR_execKeyEvict (Kept.refl true s)
  case keyCommandResume => exact keptR_execKeyCommandResume (Kept.refl true s)
  case tableOpen => exact keptR_execTableOpen (Kept.refl true s)
  case tableAbort => exact keptR_execTableAbort (Kept.refl true s)
  case tableFlip => exact keptR_execTableFlip (Kept.refl true s)
  case flipTakeEffect => exact keptR_execFlipTakeEffect (Kept.refl true s)
  case retirement => exact keptR_execRetirement (Kept.refl true s)
  case remoteWrite => exact keptR_execRemoteWrite (Kept.refl true s)
  case remoteSignal => exact keptR_execRemoteSignal (Kept.refl true s)
  case contextResume => exact keptR_execContextResume (Kept.refl true s)
  case resumeRetryAll => exact keptR_execResumeRetryAll (Kept.refl true s)
  case resumeAbortAll => exact keptR_execResumeAbortAll (Kept.refl true s)
  case resumeRetrySlot => exact keptR_execResumeRetrySlot (Kept.refl true s)
  case resumeAbortSlot => exact keptR_execResumeAbortSlot (Kept.refl true s)
  case contextAbort => exact keptR_execContextAbort (Kept.refl true s)
  case commandEnd => exact keptR_execCommandEnd (Kept.refl true s)
  case flushReadCompletion => exact keptR_execFlushReadCompletion (Kept.refl true s)
  case flushReadTimeout => exact keptR_execFlushReadTimeout (Kept.refl true s)
  case msiXUnmask => exact keptR_execMsiXUnmask (Kept.refl true s)
  case completionRingFullNote => exact keptR_execCompletionRingFullNote (Kept.refl true s)
  case bounceRingFullNote => exact keptR_execBounceRingFullNote (Kept.refl true s)
  case waitEvaluate => exact keptR_execWaitEvaluate (Kept.refl true s)
  case waitTimeout => exact keptR_execWaitTimeout (Kept.refl true s)
  case ctxEnable => exact keptR_execCtxEnable (Kept.refl true s)
  case ctxDisable => exact keptR_execCtxDisable (Kept.refl true s)
  case ctxDisableDone => exact keptR_execCtxDisableDone (Kept.refl true s)
  case ctxResume => exact keptR_execCtxResume (Kept.refl true s)
  case ctxAbort => exact keptR_execCtxAbort (Kept.refl true s)
  case ctxAbortDone => exact keptR_execCtxAbortDone (Kept.refl true s)
  case ctxPin => exact keptR_execCtxPin (Kept.refl true s)
  case ctxUnpin => exact keptR_execCtxUnpin (Kept.refl true s)
  case objCreate => exact keptR_execObjCreate (Kept.refl true s)
  case objFree => exact keptR_execObjFree (Kept.refl true s)
  case objectDrainEnd => exact keptR_execObjectDrainEnd (Kept.refl true s)
  case pageWalk => exact keptR_execPageWalk (Kept.refl true s)
  case faultPatienceExpire => exact keptR_execFaultPatienceExpire (Kept.refl true s)
  case fltRetry => exact keptR_execFltRetry (Kept.refl true s)
  case fltAbort => exact keptR_execFltAbort (Kept.refl true s)
  case invAll => exact keptR_execInvAll (Kept.refl true s)
  case invPartition => exact keptR_execInvPartition (Kept.refl true s)
  case invContext => exact keptR_execInvContext (Kept.refl true s)
  case invRange => exact keptR_execInvRange (Kept.refl true s)
  case invalidationDone => exact keptR_execInvalidationDone (Kept.refl true s)
  case poolAllocProduce => exact keptR_execPoolAllocProduce (Kept.refl true s)
  case poolReturnConsume => exact keptR_execPoolReturnConsume (Kept.refl true s)
  case poolReturnWaitNote => exact keptR_execPoolReturnWaitNote (Kept.refl true s)
  case pageSliceRetire => exact keptR_execPageSliceRetire (Kept.refl true s)
  case pageSliceRetireDone => exact keptR_execPageSliceRetireDone (Kept.refl true s)
  case tsRequest => exact keptR_execTsRequest (Kept.refl true s)
  case tsDone => exact keptR_execTsDone (Kept.refl true s)
  case tsHoldTimeout => exact keptR_execTsHoldTimeout (Kept.refl true s)
  case sloeWindowEnd => exact keptR_execSloeWindowEnd (Kept.refl true s)
  case keyLookup => exact keptR_execKeyLookup (Kept.refl true s)
  case admitEventSignal => exact keptR_execAdmitEventSignal (Kept.refl true s)
  case keySliceRetire => exact keptR_execKeySliceRetire (Kept.refl true s)
  case keySliceRetireDone => exact keptR_execKeySliceRetireDone (Kept.refl true s)
  case ktInvAll => exact keptR_execKtInvAll (Kept.refl true s)
  case ktInvTable => exact keptR_execKtInvTable (Kept.refl true s)
  case ktInvDone => exact keptR_execKtInvDone (Kept.refl true s)
  case segmentAccept => exact keptR_execSegmentAccept (Kept.refl true s)
  case rowFetchResponse => exact keptR_execRowFetchResponse (Kept.refl true s)
  case tileAccept => exact keptR_execTileAccept (Kept.refl true s)
  case tileStallTimeout => exact keptR_execTileStallTimeout (Kept.refl true s)
  case quadRetire => exact keptR_execQuadRetire (Kept.refl true s)
  case quadRetireDone => exact keptR_execQuadRetireDone (Kept.refl true s)
  case gwelotyResponse => exact keptR_execGwelotyResponse (Kept.refl true s)
  case memoryResponseDeadline => exact keptR_execMemoryResponseDeadline (Kept.refl true s)
  case channelRunStart => exact keptR_execChannelRunStart (Kept.refl true s)
  case move => exact keptR_execMove (Kept.refl true s)
  case loop => exact keptR_execLoop (Kept.refl true s)
  case endloop => exact keptR_execEndloop (Kept.refl true s)
  case channelNop => exact keptR_execChannelNop (Kept.refl true s)
  case channelWait => exact keptR_execChannelWait (Kept.refl true s)
  case channelWaitTimeout => exact keptR_execChannelWaitTimeout (Kept.refl true s)
  case channelSignal => exact keptR_execChannelSignal (Kept.refl true s)
  case channelSignalSet => exact keptR_execChannelSignalSet (Kept.refl true s)
  case fence => exact keptR_execFence (Kept.refl true s)
  case stop => exact keptR_execStop (Kept.refl true s)
  case remoteWriteRequest => exact keptR_execRemoteWriteRequest (Kept.refl true s)
  case remoteReadRequest => exact keptR_execRemoteReadRequest (Kept.refl true s)
  case remoteAtomicRequest => exact keptR_execRemoteAtomicRequest (Kept.refl true s)
  case remoteSignalRequest => exact keptR_execRemoteSignalRequest (Kept.refl true s)
  case remotePoolRequest => exact keptR_execRemotePoolRequest (Kept.refl true s)
  case readData => exact keptR_execReadData (Kept.refl true s)
  case atomicResult => exact keptR_execAtomicResult (Kept.refl true s)
  case poolPartial => exact keptR_execPoolPartial (Kept.refl true s)
  case ack => exact keptR_execAck (Kept.refl true s)
  case nack => exact keptR_execNack (Kept.refl true s)
  case remotePatienceExpire => exact keptR_execRemotePatienceExpire (Kept.refl true s)
  case dataFlit => exact keptR_execDataFlit (Kept.refl true s)
  case ts => exact keptR_execTs (Kept.refl true s)
  case nak => exact keptR_execNak (Kept.refl true s)
  case credit => exact keptR_execCredit (Kept.refl true s)
  case l1Req => exact keptR_execL1Req (Kept.refl true s)
  case l1Ack => exact keptR_execL1Ack (Kept.refl true s)
  case safe => exact keptR_execSafe (Kept.refl true s)
  case ackTimer => exact keptR_execAckTimer (Kept.refl true s)
  case replayTimer => exact keptR_execReplayTimer (Kept.refl true s)
  case laneLockLoss => exact keptR_execLaneLockLoss (Kept.refl true s)
  case trainingTimeout y0 y1 => exact keptR_execTrainingTimeout (a1 := y1) (Kept.refl true s)
  case trainingRetry => exact keptR_execTrainingRetry (Kept.refl true s)
  case linkTrained => exact keptR_execLinkTrained (Kept.refl true s)
  case portEnable => exact keptR_execPortEnable (Kept.refl true s)
  case portDisable y0 y1 => exact keptR_execPortDisable (a1 := y1) (Kept.refl true s)
  case retrain => exact keptR_execRetrain (Kept.refl true s)
  case portRetire => exact keptR_execPortRetire (Kept.refl true s)
  case portRestore => exact keptR_execPortRestore (Kept.refl true s)
  case rediscover => exact keptR_execRediscover (Kept.refl true s)
  case discoveryStart => exact keptR_execDiscoveryStart (Kept.refl true s)
  case rootElection => exact keptR_execRootElection (Kept.refl true s)
  case mgrAnnounce => exact keptR_execMgrAnnounce (Kept.refl true s)
  case assign => exact keptR_execAssign (Kept.refl true s)
  case route => exact keptR_execRoute (Kept.refl true s)
  case topoChange => exact keptR_execTopoChange (Kept.refl true s)
  case keyInstall => exact keptR_execKeyInstall (Kept.refl true s)
  case keyNotice y0 y1 y2 => exact keptR_execKeyNotice (a0 := y0) (a1 := y1) (a2 := y2) (Kept.refl true s)
  case shardDir => exact keptR_execShardDir (Kept.refl true s)
  case publish => exact keptR_execPublish (Kept.refl true s)
  case withdraw => exact keptR_execWithdraw (Kept.refl true s)
  case jobkeyInstall => exact keptR_execJobkeyInstall (Kept.refl true s)
  case rdShared => exact keptR_execRdShared (Kept.refl true s)
  case rdUnique => exact keptR_execRdUnique (Kept.refl true s)
  case upgrade => exact keptR_execUpgrade (Kept.refl true s)
  case wb => exact keptR_execWb (Kept.refl true s)
  case rdNc => exact keptR_execRdNc (Kept.refl true s)
  case wrNc => exact keptR_execWrNc (Kept.refl true s)
  case atomic => exact keptR_execAtomic (Kept.refl true s)
  case barrier => exact keptR_execBarrier (Kept.refl true s)
  case miss => exact keptR_execMiss (Kept.refl true s)
  case shared => exact keptR_execShared (Kept.refl true s)
  case accept => exact keptR_execAccept (Kept.refl true s)
  case decline => exact keptR_execDecline (Kept.refl true s)
  case snoopData => exact keptR_execSnoopData (Kept.refl true s)
  case snoopDeadline y0 y1 y2 => exact keptR_execSnoopDeadline (a2 := y2) (Kept.refl true s)
  case down y0 => exact keptR_execDown (a0 := y0) (Kept.refl true s)
  case restore => exact keptR_execRestore (Kept.refl true s)
  case restoreCreditsReceived => exact keptR_execRestoreCreditsReceived (Kept.refl true s)
  case restoreCreditTimeout => exact keptR_execRestoreCreditTimeout (Kept.refl true s)
  case lock => exact keptR_execLock (Kept.refl true s)
  case unlock => exact keptR_execUnlock (Kept.refl true s)
  case teardown => exact keptR_execTeardown (Kept.refl true s)
  case teardownDrainDone => exact keptR_execTeardownDrainDone (Kept.refl true s)
  case teardownQuiescenceTimeout => exact keptR_execTeardownQuiescenceTimeout (Kept.refl true s)
  case scrubComplete => exact keptR_execScrubComplete (Kept.refl true s)
  case partitionTableWrite => exact keptR_execPartitionTableWrite (Kept.refl true s)
  case getStatus => exact keptR_execGetStatus (Kept.refl true s)
  case getIdentity => exact keptR_execGetIdentity (Kept.refl true s)
  case sessionOpen => exact keptR_execSessionOpen (Kept.refl true s)
  case sessionClose => exact keptR_execSessionClose (Kept.refl true s)
  case setPower => exact keptR_execSetPower (Kept.refl true s)
  case reset => exact keptR_execReset (Kept.refl true s)
  case debugSet => exact keptR_execDebugSet (Kept.refl true s)
  case mgmtLock => exact keptR_execMgmtLock (Kept.refl true s)
  case debugRead => exact keptR_execDebugRead (Kept.refl true s)
  case debugWrite => exact keptR_execDebugWrite (Kept.refl true s)
  case traceSet => exact keptR_execTraceSet (Kept.refl true s)
  case spdmRequest => exact keptR_execSpdmRequest (Kept.refl true s)
  case ctxSecret => exact keptR_execCtxSecret (Kept.refl true s)
  case getReport => exact keptR_execGetReport (Kept.refl true s)
  case getMeasurements => exact keptR_execGetMeasurements (Kept.refl true s)
  case ideKm => exact keptR_execIdeKm (Kept.refl true s)
  case tdiStateChange => exact keptR_execTdiStateChange (Kept.refl true s)
  case faultEvent => exact keptR_execFaultEvent (Kept.refl true s)
  case errNPulseEnd => exact keptR_execErrNPulseEnd (Kept.refl true s)
  case collectorSelfError => exact keptR_execCollectorSelfError (Kept.refl true s)
  case recordFree => exact keptR_execRecordFree (Kept.refl true s)
  case sourceClr => exact keptR_execSourceClr (Kept.refl true s)
  case faultInject => exact keptR_execFaultInject (Kept.refl true s)
  case powerP0 => exact keptR_execPowerP0 (Kept.refl true s)
  case powerP1 => exact keptR_execPowerP1 (Kept.refl true s)
  case powerP2 => exact keptR_execPowerP2 (Kept.refl true s)
  case powerP3 => exact keptR_execPowerP3 (Kept.refl true s)
  case powerP3Force => exact keptR_execPowerP3Force (Kept.refl true s)
  case p3Entry => exact keptR_execP3Entry (Kept.refl true s)
  case p3EntryTimeout => exact keptR_execP3EntryTimeout (Kept.refl true s)
  case registerWrite => exact keptR_execRegisterWrite (Kept.refl true s)
  case hostLinkUp => exact keptR_execHostLinkUp (Kept.refl true s)
  case idleFlit => exact keptR_execIdleFlit (Kept.refl true s)
  case coreCreditReturn => exact keptR_execCoreCreditReturn (Kept.refl true s)
  case shardDirAcknowledged => exact keptR_execShardDirAcknowledged (Kept.refl true s)
  case keyInstallAnswered => exact keptR_execKeyInstallAnswered (Kept.refl true s)


end Sys2Proof.Machine
end

