-- ==== Sys2Proof/Laws/MemoryBytes.lean ====
section
/-! SUPPORT. Device memory by byte: what one write and a run of line writes leave. -/

open Sys2Proof

namespace Sys2Proof.Machine

theorem put_byte {c : Nat} : ∀ {bs : List Byte} {m : Memory} {a : Nat},
    (∀ i < bs.length, Tab.find? m.indet ((a + i) / 8) = none) →
    (m.put a bs).indet = m.indet ∧
    Tab.get 0 (m.put a bs).cells c = if a ≤ c ∧ c < a + bs.length then bs.getD (c - a) 0 else Tab.get 0 m.cells c
  | [], m, a, _ => by
    refine ⟨rfl, ?_⟩
    rw [if_neg (by simp only [List.length_nil]; omega)]; rfl
  | b :: bs, m, a, h => by
    have h0 : Tab.find? m.indet (a / 8) = none := h 0 (by simp)
    have e : m.putByte a b = { m with cells := Tab.set 0 m.cells a b } := by
      unfold Memory.putByte
      simp only [h0]
    have ih := put_byte (c := c) (bs := bs) (m := m.putByte a b) (a := a + 1) (by
      intro i hi
      rw [e]
      have := h (i + 1) (by simpa using hi)
      rwa [show a + (i + 1) = a + 1 + i by omega] at this)
    rw [Memory.put]
    refine ⟨by rw [ih.1, e], ?_⟩
    rw [ih.2, e]
    by_cases hc : c = a
    · subst hc
      rw [if_neg (by omega), if_pos (by simp)]
      simp
    · by_cases h1 : a + 1 ≤ c ∧ c < a + 1 + bs.length
      · rw [if_pos h1, if_pos (by simp; omega)]
        rw [show c - a = (c - (a+1)) + 1 by omega]
        simp
      · rw [if_neg h1, if_neg (by simp; omega)]
        exact Tab.get_set_other hc

theorem memWrite_fold_byte {c : Nat} {v : Via} {a : Nat} {bs : List Byte} {m0 : Memory}

    (hi : ∀ i < bs.length, Tab.find? m0.indet ((a + i) / 8) = none) :
    ∀ (ls : List Nat) (s : State), (∀ l ∈ ls, mayIssue s v l = true) → s.mem.indet = m0.indet → 
    ∃ t, ls.foldl (fun (x : State × BusStatus) l =>
    let s := x.1
    let sl := lineSlice a bs l
    let st := lineStatus s v [] l false
    let m := if st = .ok then s.mem.writeLine sl.1 sl.2 false
      else if mayIssue s v l then s.mem.fail sl.1 sl.2 else s.mem
    (reportBus { s with mem := m } v st (64 * l) 1, if x.2 = .ok then st else x.2)) (s, BusStatus.ok) = (t, .ok) ∧
      t.mem.indet = m0.indet ∧
      Tab.get 0 t.mem.cells c = if c / 64 ∈ ls ∧ a ≤ c ∧ c < a + bs.length then bs.getD (c - a) 0 else Tab.get 0 s.mem.cells c := by
  intro ls
  induction ls with
  | nil => intro s _ h; exact ⟨s, rfl, h, by simp⟩
  | cons l ls ih =>
    intro s hm hd
    rw [List.foldl_cons]
    have hl := hm l (by simp)
    have st : lineStatus s v [] l false = .ok := by simp [lineStatus, hl, busAt, busAtW]
    have hlen : (lineSlice a bs l).2.length ≤ bs.length - ((lineSlice a bs l).1 - a) := by simp [lineSlice] <;> omega
    have hin : ∀ i < (lineSlice a bs l).2.length, Tab.find? s.mem.indet (((lineSlice a bs l).1 + i) / 8) = none := by
      intro i hi'
      rw [hd]
      have h1 : a ≤ (lineSlice a bs l).1 := by simp [lineSlice] <;> omega
      have := hi ((lineSlice a bs l).1 - a + i) (by omega)
      rwa [show a + ((lineSlice a bs l).1 - a + i) = (lineSlice a bs l).1 + i by omega] at this
    have pg := put_byte (c := c) (m := s.mem) hin
    let s2 : State := { s with mem := s.mem.writeLine (lineSlice a bs l).1 (lineSlice a bs l).2 false }
    have hmk : ∀ (m : Memory) x n, (m.mark x n false).indet = m.indet ∧ (m.mark x n false).cells = m.cells := by
      intro m x n; unfold Memory.mark; simp; split <;> simp
    have s2i : s2.mem.indet = m0.indet := by
      show (Memory.writeLine _ _ _ _).indet = _
      unfold Memory.writeLine
      rw [(hmk _ _ _).1, pg.1, hd]
    obtain ⟨t, ht, hti, htc⟩ := ih s2 (fun l' h' => hm l' (by simp [h'])) s2i
    refine ⟨t, ?_, hti, ?_⟩
    · simp only [st, reportBus, if_true] at ht ⊢
      exact ht
    · rw [htc]
      have s2c : Tab.get 0 s2.mem.cells c = (if (lineSlice a bs l).1 ≤ c ∧ c < (lineSlice a bs l).1 + (lineSlice a bs l).2.length then (lineSlice a bs l).2.getD (c - (lineSlice a bs l).1) 0 else Tab.get 0 s.mem.cells c) := by
        show Tab.get 0 (Memory.writeLine _ _ _ _).cells c = _
        unfold Memory.writeLine
        rw [(hmk _ _ _).2]
        exact pg.2
      rw [s2c]
      have len : (lineSlice a bs l).2.length = min (64 * l + 64 - max a (64 * l)) (bs.length - (max a (64*l) - a)) := by
        simp [lineSlice]
      have l1 : (lineSlice a bs l).1 = max a (64 * l) := rfl
      by_cases h1 : c / 64 ∈ ls ∧ a ≤ c ∧ c < a + bs.length
      · rw [if_pos h1, if_pos ⟨by simp [h1.1], h1.2⟩]
      · rw [if_neg h1]
        by_cases h2 : c / 64 = l ∧ a ≤ c ∧ c < a + bs.length
        · rw [if_pos (by rw [len, l1]; omega), if_pos ⟨by simp [h2.1], h2.2⟩]
          simp only [lineSlice, List.getD_eq_getElem?_getD, List.getElem?_take, List.getElem?_drop]
          rw [if_pos (by omega)]
          congr 2
          omega
        · rw [if_neg (by rw [len, l1]; omega), if_neg]
          rintro ⟨h3, h4⟩
          rcases List.mem_cons.1 h3 with h3 | h3
          · exact h2 ⟨h3, h4⟩
          · exact h1 ⟨h3, h4⟩

theorem mem_linesOf {a n c : Nat} (h : a ≤ c ∧ c < a + n) : c / 64 ∈ linesOf a n := by
  unfold linesOf
  rw [if_neg (by omega)]
  simp only [range, List.mem_map, List.mem_range]
  refine ⟨c / 64 - a / 64, ?_, ?_⟩ <;> omega

theorem writeLine_fold_byte {c a : Nat} {bs : List Byte} {p : Bool} {m0 : Memory} (hi : ∀ i < bs.length, Tab.find? m0.indet ((a + i) / 8) = none) :
    ∀ (ls : List Nat) (m : Memory), m.indet = m0.indet →
    (ls.foldl (fun m l => m.writeLine (lineSlice a bs l).1 (lineSlice a bs l).2 p) m).indet = m0.indet ∧
    Tab.get 0 (ls.foldl (fun m l => m.writeLine (lineSlice a bs l).1 (lineSlice a bs l).2 p) m).cells c =
      if c / 64 ∈ ls ∧ a ≤ c ∧ c < a + bs.length then bs.getD (c - a) 0 else Tab.get 0 m.cells c := by
  intro ls
  induction ls with
  | nil => intro m h; exact ⟨h, by simp⟩
  | cons l ls ih =>
    intro m hd
    rw [List.foldl_cons]
    have hlen : (lineSlice a bs l).2.length ≤ bs.length - ((lineSlice a bs l).1 - a) := by simp [lineSlice] <;> omega
    have hin : ∀ i < (lineSlice a bs l).2.length, Tab.find? m.indet (((lineSlice a bs l).1 + i) / 8) = none := by
      intro i hi'
      rw [hd]
      have h1 : a ≤ (lineSlice a bs l).1 := by simp [lineSlice] <;> omega
      have := hi ((lineSlice a bs l).1 - a + i) (by omega)
      rwa [show a + ((lineSlice a bs l).1 - a + i) = (lineSlice a bs l).1 + i by omega] at this
    have pg := put_byte (c := c) (m := m) hin
    have hmk : ∀ (m : Memory) x n q, (m.mark x n q).indet = m.indet ∧ (m.mark x n q).cells = m.cells := by
      intro m x n q; unfold Memory.mark; repeat' split
      all_goals exact ⟨rfl, rfl⟩
    have wi : (m.writeLine (lineSlice a bs l).1 (lineSlice a bs l).2 p).indet = m0.indet := by
      unfold Memory.writeLine; rw [(hmk _ _ _ _).1, pg.1, hd]
    obtain ⟨q1, q2⟩ := ih _ wi
    refine ⟨q1, ?_⟩
    rw [q2]
    have s2c : Tab.get 0 (m.writeLine (lineSlice a bs l).1 (lineSlice a bs l).2 p).cells c = (if (lineSlice a bs l).1 ≤ c ∧ c < (lineSlice a bs l).1 + (lineSlice a bs l).2.length then (lineSlice a bs l).2.getD (c - (lineSlice a bs l).1) 0 else Tab.get 0 m.cells c) := by
      unfold Memory.writeLine; rw [(hmk _ _ _ _).2]; exact pg.2
    rw [s2c]
    have len : (lineSlice a bs l).2.length = min (64 * l + 64 - max a (64 * l)) (bs.length - (max a (64*l) - a)) := by simp [lineSlice]
    have l1 : (lineSlice a bs l).1 = max a (64 * l) := rfl
    by_cases h1 : c / 64 ∈ ls ∧ a ≤ c ∧ c < a + bs.length
    · rw [if_pos h1, if_pos ⟨by simp [h1.1], h1.2⟩]
    · rw [if_neg h1]
      by_cases h2 : c / 64 = l ∧ a ≤ c ∧ c < a + bs.length
      · rw [if_pos (by rw [len, l1]; omega), if_pos ⟨by simp [h2.1], h2.2⟩]
        simp only [lineSlice, List.getD_eq_getElem?_getD, List.getElem?_take, List.getElem?_drop]
        rw [if_pos (by omega)]
        congr 2
        omega
      · rw [if_neg (by rw [len, l1]; omega), if_neg]
        rintro ⟨h3, h4⟩
        rcases List.mem_cons.1 h3 with h3 | h3
        · exact h2 ⟨h3, h4⟩
        · exact h1 ⟨h3, h4⟩

theorem writeLines_bytes {m t : Memory} {a : Nat} {bs : List Byte} {f : Nat} {p} (ht : t = (linesOf a bs.length).foldl (fun m l => m.writeLine (lineSlice a bs l).1 (lineSlice a bs l).2 p) m)
    (hi : ∀ i < bs.length, Tab.find? m.indet ((a + i) / 8) = none) :
    (∀ i < bs.length, t.byte f (a + i) = bs.getD i 0) ∧ (∀ c, c < a ∨ a + bs.length ≤ c → t.byte f c = m.byte f c) := by
  have key : ∀ c, t.indet = m.indet ∧ Tab.get 0 t.cells c = if c / 64 ∈ linesOf a bs.length ∧ a ≤ c ∧ c < a + bs.length then bs.getD (c - a) 0 else Tab.get 0 m.cells c := by
    intro c; rw [ht]; exact writeLine_fold_byte hi _ _ rfl
  refine ⟨?_, ?_⟩
  · intro i hi'
    unfold Memory.byte
    rw [(key 0).1, hi i hi', (key _).2, if_pos ⟨mem_linesOf ⟨by omega, by omega⟩, by omega, by omega⟩]
    simp
  · intro c hc
    have kc : ∀ x, (x < a ∨ a + bs.length ≤ x) → Tab.get 0 t.cells x = Tab.get 0 m.cells x := by
      intro x hx
      rw [(key x).2, if_neg (by omega)]
    unfold Memory.byte
    rw [(key 0).1]
    cases hg : Tab.find? m.indet (c / 8) with
    | none => exact kc c hc
    | some alts =>
      have hgr : t.granule (c / 8) = m.granule (c / 8) := by
        unfold Memory.granule
        congr 2
        apply List.map_congr_left
        intro i h8
        apply kc
        apply Decidable.byContradiction
        intro hcon
        have := hi (8 * (c / 8) + i - a) (by omega)
        rw [show (a + (8 * (c / 8) + i - a)) / 8 = c / 8 by simp at h8; omega, hg] at this
        cases this
      simp only [Memory.seen, (key 0).1, hgr]

end Sys2Proof.Machine
end

