-- ==== Sys2Proof/WellFormed.lean ====
section
/-! DEFINITION. Which operands of a command can occur at all: port and unit numbers that some build has (R20, R34,
R71), lengths that a transfer of the port can have. The meanings are total: an operand outside these does nothing. -/

namespace Sys2Proof

/-- A function that a host port can have (R71). -/
def Fn.wf (f : Fn) : Bool := decide (f.port < 2 ∧ f.vf ≤ 63)

/-- A 64 B line of the bus operand lies in the 48-bit physical space (R9). -/
def busWf (b : Bus) : Bool := b.all fun e => decide (e.1 < 2 ^ 43)

/-- A Bramble port (R20). -/
def blWf (p : Nat) : Bool := decide (p < 8)

/-- A link within a board joins two of its nine positions. -/
def meshWf (l : MeshLink) : Bool := decide (l.a < 9 ∧ l.b < 9) && blWf l.port

/-- The ports and positions of a topology exist. -/
def topoWf (t : Topology) : Bool :=
  (t.links.all fun l => blWf l.port && blWf l.back) && t.boards.all fun b => (b.members.all fun m => decide (1 ≤ m ∧ m < 9)) && b.mesh.all meshWf

/-- A near-core port (R20). -/
def coreWf (c : Nat) : Bool := decide (c < 32)

/-- A request's 64 B or its size of 1 to 64 B, a power of two (R366, R372). -/
def ncWf (size : BitVec 3) (data : List Byte) : Bool := decide (size.toNat ≤ 6 ∧ data.length = 2 ^ size.toNat)

/-- The operands of a command can occur. -/
def Instr.wf : Instr → Bool
  | .powerOnReset _ _ _ _ => true
  | .complexReset => true
  | .resetSequenceEnd _ bus => busWf bus
  | .fuseReadTimeout => true
  | .quinceHalt => true
  | .hostPortReset port => decide (port < 2)
  | .flr fn => fn.wf
  | .dStateChange fn _ => fn.wf
  | .linkPartnerNoFlit port => decide (port < 2)
  | .malformedTlp port => decide (port < 2)
  | .unexpectedCompletion port => decide (port < 2)
  | .receiverError port => decide (port < 2)
  | .windowWrite fn _ off data _ bus => fn.wf && decide (0 < data.length ∧ off.toNat + data.length ≤ 2 ^ 36) && busWf bus
  | .copyOnWriteDone _ bus => busWf bus
  | .windowWriteCommit _ _ => true
  | .sealedRecord port ap bus => decide (port < 2 ∧ ap < 256) && busWf bus
  | .sealedFinalClose port ap => decide (port < 2 ∧ ap < 256)
  | .bar2Read fn => fn.wf
  | .apertureEnable port ap _ bus => decide (port < 2 ∧ ap < 256) && busWf bus
  | .apertureDisable port ap _ => decide (port < 2 ∧ ap < 256)
  | .close port ap _ => decide (port < 2 ∧ ap < 256)
  | .measuredCloseDone port ap => decide (port < 2 ∧ ap < 256)
  | .vfCtxmapWrite port vf entry _ => decide (port < 2 ∧ 1 ≤ vf ∧ vf ≤ 63 ∧ entry < 64)
  | .ingestSyncRead fn _ => fn.wf
  | .ingestSyncDone port _ => decide (port < 2)
  | .doorbellTail fn _ _ _ => fn.wf
  | .doorbellFenceClear port bus => decide (port < 2) && busWf bus
  | .doorbellCqHead fn _ _ _ => fn.wf
  | .doorbellSretHead fn _ _ _ => fn.wf
  | .contextLoadDone _ bus => busWf bus
  | .ringReadResponse _ q bus => decide (q < 8) && busWf bus
  | .dbBackoffReread _ q => decide (q < 8)
  | .dbPatienceExpire _ q => decide (q < 8)
  | .dispatch bus => busWf bus
  | .nop _ => true
  | .writePips _ bus => busWf bus
  | .copy _ => true
  | .runChannel _ bus => busWf bus
  | .signal _ bus => busWf bus
  | .wait _ bus => busWf bus
  | .flush _ => true
  | .map _ bus => busWf bus
  | .unmap _ bus => busWf bus
  | .objectFree _ bus => busWf bus
  | .bagPool _ bus => busWf bus
  | .keyAdmit _ bus => busWf bus
  | .keyEvict _ bus => busWf bus
  | .keyCommandResume _ bus => busWf bus
  | .tableOpen _ bus => busWf bus
  | .tableAbort _ bus => busWf bus
  | .tableFlip _ bus => busWf bus
  | .flipTakeEffect _ bus => busWf bus
  | .retirement _ bus => busWf bus
  | .remoteWrite _ bus => busWf bus
  | .remoteSignal _ => true
  | .contextResume _ => true
  | .resumeRetryAll _ bus => busWf bus
  | .resumeAbortAll _ bus => busWf bus
  | .resumeRetrySlot _ bus => busWf bus
  | .resumeAbortSlot _ bus => busWf bus
  | .contextAbort _ bus => busWf bus
  | .commandEnd _ bus => busWf bus
  | .flushReadCompletion port _ _ bus => decide (port < 2) && busWf bus
  | .flushReadTimeout port _ bus => decide (port < 2) && busWf bus
  | .msiXUnmask fn vector => fn.wf && decide (vector < 2048)
  | .completionRingFullNote _ q => decide (q < 8)
  | .bounceRingFullNote _ => true
  | .waitEvaluate bus => busWf bus
  | .waitTimeout _ => true
  | .ctxEnable _ bus => busWf bus
  | .ctxDisable _ => true
  | .ctxDisableDone _ bus => busWf bus
  | .ctxResume _ => true
  | .ctxAbort _ bus => busWf bus
  | .ctxAbortDone _ bus => busWf bus
  | .ctxPin _ bus => busWf bus
  | .ctxUnpin _ => true
  | .objCreate _ bus => busWf bus
  | .objFree _ bus => busWf bus
  | .objectDrainEnd _ bus => busWf bus
  | .pageWalk _ _ _ _ bus => busWf bus
  | .faultPatienceExpire slot bus => decide (slot < 256) && busWf bus
  | .fltRetry _ bus => busWf bus
  | .fltAbort _ bus => busWf bus
  | .invAll _ => true
  | .invPartition _ _ => true
  | .invContext _ _ => true
  | .invRange _ _ => true
  | .invalidationDone => true
  | .poolAllocProduce part cls _ => decide (part < 8 ∧ cls < 4)
  | .poolReturnConsume part cls _ bus => decide (part < 8 ∧ cls < 4) && busWf bus
  | .poolReturnWaitNote part cls => decide (part < 8 ∧ cls < 4)
  | .pageSliceRetire _ => true
  | .pageSliceRetireDone => true
  | .tsRequest port tag _ _ _ bus => decide (port < 16 ∧ tag < 64) && busWf bus
  | .tsDone port tag => decide (port < 16 ∧ tag < 64)
  | .tsHoldTimeout port tag => decide (port < 16 ∧ tag < 64)
  | .sloeWindowEnd _ ests => ests.all fun e => decide (e.slice < 128)
  | .keyLookup _ _ bus => busWf bus
  | .admitEventSignal _ bus => busWf bus
  | .keySliceRetire _ => true
  | .keySliceRetireDone => true
  | .ktInvAll => true
  | .ktInvTable _ => true
  | .ktInvDone => true
  | .segmentAccept _ _ _ bus => busWf bus
  | .rowFetchResponse _ _ _ => true
  | .tileAccept port bus => decide (port < 16) && busWf bus
  | .tileStallTimeout at_ => decide (at_.port < 16 ∧ at_.beat < 16385)
  | .quadRetire _ => true
  | .quadRetireDone => true
  | .gwelotyResponse port tag _ => decide (port < 128 ∧ tag < 1024)
  | .memoryResponseDeadline port tag => decide (port < 128 ∧ tag < 1024)
  | .channelRunStart ch bus => decide (ch < 64) && busWf bus
  | .move ch bus => decide (ch < 64) && busWf bus
  | .loop ch => decide (ch < 64)
  | .endloop ch => decide (ch < 64)
  | .channelNop ch => decide (ch < 64)
  | .channelWait ch bus => decide (ch < 64) && busWf bus
  | .channelWaitTimeout ch => decide (ch < 64)
  | .channelSignal ch => decide (ch < 64)
  | .channelSignalSet ch bus => decide (ch < 64) && busWf bus
  | .fence ch => decide (ch < 64)
  | .stop ch bus => decide (ch < 64) && busWf bus
  | .remoteWriteRequest _ bus => busWf bus
  | .remoteReadRequest _ bus => busWf bus
  | .remoteAtomicRequest _ bus => busWf bus
  | .remoteSignalRequest _ bus => busWf bus
  | .remotePoolRequest _ bus => busWf bus
  | .readData _ bus => busWf bus
  | .atomicResult _ bus => busWf bus
  | .poolPartial _ => true
  | .ack _ bus => busWf bus
  | .nack _ bus => busWf bus
  | .remotePatienceExpire _ _ bus => busWf bus
  | .dataFlit port _ => blWf port
  | .ts port content => blWf port && decide (content.port < 16 ∧ content.width ≤ 16)
  | .nak port _ => blWf port
  | .credit port _ _ _ _ => blWf port
  | .l1Req port => blWf port
  | .l1Ack port => blWf port
  | .safe port bus => blWf port && busWf bus
  | .ackTimer port => blWf port
  | .replayTimer port => blWf port
  | .laneLockLoss port => blWf port
  | .trainingTimeout port bus => blWf port && busWf bus
  | .trainingRetry port => blWf port
  | .linkTrained port _ _ => blWf port
  | .portEnable port => blWf port
  | .portDisable port bus => blWf port && busWf bus
  | .retrain port => blWf port
  | .portRetire port => blWf port
  | .portRestore port => blWf port
  | .rediscover => true
  | .discoveryStart => true
  | .rootElection topo => topoWf topo
  | .mgrAnnounce port _ => blWf port
  | .assign port _ => blWf port
  | .route _ body bus => (body.mesh.all meshWf) && (body.routes.all fun r => decide (r.node < 1024 ∧ r.dst < 1024) && blWf r.port) && busWf bus
  | .topoChange topo => topoWf topo
  | .keyInstall _ _ _ => true
  | .keyNotice _ _ _ => true
  | .shardDir _ slot _ entries shards bus => decide (slot < 64 ∧ entries.length ≤ 1024 ∧ shards.length ≤ 16384) && busWf bus
  | .publish _ bus => busWf bus
  | .withdraw _ => true
  | .jobkeyInstall _ bus => busWf bus
  | .rdShared core _ bus => coreWf core && busWf bus
  | .rdUnique core _ bus => coreWf core && busWf bus
  | .upgrade core _ bus => coreWf core && busWf bus
  | .wb core _ _ data bus => coreWf core && decide (data.length = 64) && busWf bus
  | .rdNc core _ _ bus => coreWf core && busWf bus
  | .wrNc core _ size data bus => coreWf core && ncWf size data && busWf bus
  | .atomic core _ _ _ data bus => coreWf core && decide (data.length ≤ 32) && busWf bus
  | .barrier core _ _ => coreWf core
  | .miss core _ bus => coreWf core && busWf bus
  | .shared core _ bus => coreWf core && busWf bus
  | .accept core _ bus => coreWf core && busWf bus
  | .decline core _ bus => coreWf core && busWf bus
  | .snoopData core _ _ data bus => coreWf core && decide (data.length = 64) && busWf bus
  | .snoopDeadline agent slice bus => decide (agent < 35 ∧ slice < 4) && busWf bus
  | .down bus => busWf bus
  | .restore => true
  | .restoreCreditsReceived => true
  | .restoreCreditTimeout => true
  | .lock _ => true
  | .unlock _ => true
  | .teardown _ bus => busWf bus
  | .teardownDrainDone _ => true
  | .teardownQuiescenceTimeout _ => true
  | .scrubComplete _ bus => busWf bus
  | .partitionTableWrite _ _ => true
  | .getStatus => true
  | .getIdentity => true
  | .sessionOpen key share _ => decide (key.length ≤ 256 ∧ share.length ≤ 256)
  | .sessionClose _ => true
  | .setPower _ _ _ _ bus => busWf bus
  | .reset _ _ _ => true
  | .lifecycle _ _ => true
  | .fuseProgram _ _ _ => true
  | .debugSet _ _ => true
  | .mgmtLock _ _ _ => true
  | .debugRead _ _ len bus => decide (len ≤ 65536) && busWf bus
  | .debugWrite _ _ data bus => decide (data.length ≤ 65536) && busWf bus
  | .traceSet _ _ log2 _ => decide (log2 < 64)
  | .spdmRequest fn _ => fn.wf
  | .ctxSecret fn _ _ _ _ _ => fn.wf
  | .getReport fn _ _ _ => fn.wf
  | .getMeasurements fn => fn.wf
  | .ideKm port stream _ _ _ => decide (port < 2 ∧ stream ≤ 8)
  | .tdiStateChange fn _ bus => fn.wf && busWf bus
  | .faultEvent _ => true
  | .errNPulseEnd => true
  | .collectorSelfError => true
  | .recordFree _ => true
  | .sourceClr _ => true
  | .faultInject _ => true
  | .powerP0 => true
  | .powerP1 => true
  | .powerP2 => true
  | .powerP3 => true
  | .powerP3Force bus => busWf bus
  | .p3Entry bus => busWf bus
  | .p3EntryTimeout => true
  | .registerWrite a off size _ bus =>
    a.fn.wf && decide ((size = 4 ∨ size = 8) ∧ (a.bar4 = false → off.toNat < 2 ^ 24)) && busWf bus
  | .hostLinkUp port width _ => decide (port < 2 ∧ width ≤ 16)
  | .idleFlit port _ => blWf port
  | .coreCreditReturn core _ n => coreWf core && decide (n ≤ 64)
  | .shardDirAcknowledged _ => true
  | .keyInstallAnswered _ _ => true

end Sys2Proof
end

