-- ==== Sys2Proof/Tests/Slice0.lean ====
section
/-! SUPPORT. Tests: an ill-formed operand for each check of WellFormed, a state that meets the hypotheses of each
statement, and a few worked values of the spec. -/

namespace Sys2Proof.Tests

open Sys2Proof Sys2Proof.Machine

set_option Elab.async false

/-! ### States -/

/-- The complex after its reset sequence. -/
def up : State := { State.reset with tp := { resetting := none, ready := true } }

/-! ### Ill-formed operands -/

/-- A PCI Express function no port has (R71), and one that exists. -/
def noFn : Fn := ⟨2, 0⟩
def pf0 : Fn := ⟨0, 0⟩

/-- A line above the 48-bit physical space (R9). -/
def noBus : Bus := [(2 ^ 43, .access)]

def noAuth : WAuth := ⟨0, false⟩

def noReq : CReq := ⟨0, false, 0, 0, false⟩

theorem test_wf_bus : (Instr.dispatch noBus).wf = false := by decide
theorem test_wf_host_port : (Instr.hostPortReset 2).wf = false := by decide
theorem test_wf_function : (Instr.flr noFn).wf = false ∧ (Instr.bar2Read ⟨0, 64⟩).wf = false := by decide
theorem test_wf_aperture : (Instr.sealedFinalClose 0 256).wf = false ∧ (Instr.close 2 0 0).wf = false := by decide
theorem test_wf_window :
    (Instr.windowWrite pf0 none 0 [] false []).wf = false ∧
    (Instr.windowWrite pf0 none 0xFFFFFFFFF [1, 2] false []).wf = false ∧
    (Instr.windowWrite pf0 none 0xFFFFFFFFE [1, 2] false []).wf = true := by decide
theorem test_wf_ctxmap : (Instr.vfCtxmapWrite 0 0 0 0).wf = false ∧ (Instr.vfCtxmapWrite 0 63 64 0).wf = false := by decide
theorem test_wf_queue : (Instr.ringReadResponse 0 8 []).wf = false ∧ (Instr.dbPatienceExpire 0 8).wf = false := by decide
theorem test_wf_vector : (Instr.msiXUnmask pf0 2048).wf = false := by decide
theorem test_wf_fault_slot : (Instr.faultPatienceExpire 256 []).wf = false := by decide
theorem test_wf_pool : (Instr.poolReturnWaitNote 8 0).wf = false ∧ (Instr.poolReturnWaitNote 0 4).wf = false := by decide
theorem test_wf_ts : (Instr.tsDone 16 0).wf = false ∧ (Instr.tsDone 0 64).wf = false := by decide
theorem test_wf_sloe : (Instr.sloeWindowEnd .quads [⟨128, 0, 0⟩]).wf = false := by decide
theorem test_wf_tile : (Instr.tileStallTimeout ⟨16, 0⟩).wf = false := by decide
theorem test_wf_gweloty : (Instr.gwelotyResponse 128 0 .ok).wf = false ∧ (Instr.gwelotyResponse 0 1024 .ok).wf = false := by
  decide
theorem test_wf_channel : (Instr.loop 64).wf = false := by decide
theorem test_wf_bramble : (Instr.retrain 8).wf = false := by decide
theorem test_wf_ts_content :
    (Instr.ts 0 ⟨16, 16, 0, false, 0, false, 0⟩).wf = false ∧ (Instr.ts 0 ⟨0, 17, 0, false, 0, false, 0⟩).wf = false := by decide
theorem test_wf_width : (Instr.linkTrained 8 0xFFFF true).wf = false ∧ (Instr.hostLinkUp 0 17 0).wf = false := by decide
theorem test_wf_route :
    (Instr.route 0 ⟨[⟨9, 0, 1⟩], []⟩ []).wf = false ∧ (Instr.route 0 ⟨[], [⟨1024, 0, 0⟩]⟩ []).wf = false ∧
    (Instr.route 0 ⟨[], [⟨0, 0, 8⟩]⟩ []).wf = false ∧ (Instr.topoChange ⟨[⟨0, 8, 1, 0⟩], []⟩).wf = false ∧
    (Instr.rootElection ⟨[], [⟨0, [0], []⟩]⟩).wf = false := by decide
theorem test_wf_shard_dir : (Instr.shardDir 0 64 0 [] [] []).wf = false := by decide
theorem test_wf_core : (Instr.rdShared 32 noReq []).wf = false := by decide
theorem test_wf_line : (Instr.wb 0 noReq false [] []).wf = false ∧ (Instr.snoopData 0 0 false [] []).wf = false := by decide
theorem test_wf_nc :
    (Instr.wrNc 0 noReq 7 [] []).wf = false ∧ (Instr.wrNc 0 noReq 1 [1] []).wf = false ∧
    (Instr.wrNc 0 noReq 1 [1, 2] []).wf = true := by decide
theorem test_wf_atomic : (Instr.atomic 0 noReq 0 0 (List.replicate 33 0) []).wf = false := by decide
theorem test_wf_snoop : (Instr.snoopDeadline 35 0 []).wf = false ∧ (Instr.snoopDeadline 0 4 []).wf = false := by decide
theorem test_wf_session : (Instr.sessionOpen (List.replicate 257 0) [] true).wf = false := by decide +kernel
theorem test_wf_debug : (Instr.debugRead noAuth 0 65537 []).wf = false := by decide
theorem test_wf_debug_data : (Instr.debugWrite noAuth 0 (List.replicate 65537 0) []).wf = false := by
  simp only [Instr.wf, List.length_replicate]; decide
theorem test_wf_shard_map :
    (Instr.shardDir 0 0 0 (List.replicate 1025 0) [] []).wf = false ∧
    (Instr.shardDir 0 0 0 [] (List.replicate 16385 0) []).wf = false := by
  simp only [Instr.wf, List.length_replicate]; decide
theorem test_wf_trace : (Instr.traceSet noAuth 0 64 0).wf = false := by decide
theorem test_wf_ide : (Instr.ideKm 0 9 true none 0).wf = false := by decide
theorem test_wf_size : (Instr.registerWrite ⟨⟨0, 0⟩, false, none⟩ 0 2 0 []).wf = false ∧ (Instr.registerWrite ⟨⟨0, 0⟩, false, none⟩ 0 8 0 []).wf = true ∧
    (Instr.registerWrite ⟨⟨0, 0⟩, false, none⟩ 0x1000000 8 0 []).wf = false := by decide
theorem test_wf_credit : (Instr.coreCreditReturn 0 false 65).wf = false := by decide

/-! ### Hypotheses that can be met: resets, host ports, memory, collector, power, partitions, Quince -/

theorem test_step_pops_front : ∃ t, step { up with pending := [.getStatus, .complexReset] } = .next t ∧
    t.pending = [.complexReset] := ⟨_, rfl, rfl⟩

theorem wit_IdleStepTicks : State.reset.pending = [] := rfl

theorem wit_CompletesUnlessGuaranteeBroken :
    breaksGuarantee (.gwelotyResponse 0 0 .ok) up = true ∧ breaksGuarantee .getStatus up = false := by decide

theorem wit_MemoryStaysCanonical : State.reset.mem.wf = true ∧
    ∃ t, step State.reset = .next t := ⟨by decide, _, rfl⟩

theorem wit_OnlyPowerOnResetSetsStrapsAndTime : State.reset.fc.cls ≠ .terminal ∧ (true = true ∧ (7 : BitVec 32) ≠ 0) ∧ ∃ t, exec .getStatus State.reset = .next t :=
  ⟨by decide, by decide, _, rfl⟩

theorem wit_CommandsKeepQueueAndBuild : ∃ t, exec .restore up = .next t := ⟨_, rfl⟩

theorem wit_FusesChangeOnlyByProgramming : ∃ t, exec (.lifecycle ⟨0, false⟩ 1) up = .next t := ⟨_, rfl⟩

theorem wit_RegisterWritesReadBack : (2 ≠ 4 ∧ 2 ≠ 8) ∧ (0x40024 : BitVec 28).toNat % 8 ≠ 0 ∧
    (¬(0x18000 ≤ 0xFFFFF8 ∧ 0xFFFFF8 < 0x20000) ∧ regAt up ⟨0, 0⟩ [] 0xFFFFF8 = none) ∧
    (({ up with fc := { up.fc with cls := .fatal } }).fc.cls ≠ .run ∧ (0x40020 : BitVec 28).toNat ≠ 0x170008) ∧
    0 < up.build.hostPorts.length ∧ barOk up = true ∧ up.build.keySlices ≠ 0 ∧
    (fnExists up ⟨1, 63⟩ = true ∧ up.tp.pwr ≠ .p3 ∧ 63 ≠ 0 ∧ ideOk up ⟨1, 63⟩ none = true ∧
      ideOk (updFn up ⟨1, 63⟩ fun f => { f with tdi := .run }) ⟨1, 63⟩ none = false) ∧
    (2047 < vectorsOf ⟨1, 0⟩ ∧ vectorsOf ⟨1, 63⟩ ≤ 2047) ∧
    ¬(msixBase ⟨1, 63⟩ ≤ 0 ∧ 0 < msixBase ⟨1, 63⟩ + 16 * vectorsOf ⟨1, 63⟩) := by
  decide +kernel

theorem wit_HostLinksAndErrors : 1 < up.build.hostPorts.length ∧ up.tp.pwr ≠ .p3 ∧ up.build.hostPorts[1]? = some ⟨16, 6, 63⟩ ∧
    16 ∈ [1, 2, 4, 8, 16] ∧ (16 ≤ 16 ∧ (6 : BitVec 3).toNat ≤ (6 : BitVec 3).toNat) ∧ 1 ∉ up.tp.held ∧ (hostPort up 1).linkUp = false ∧ (hostPort up 1).noFlit = false := by decide

def flrUp : State := updFn up ⟨1, 63⟩ fun f => { f with flr := some 5 }

theorem wit_FunctionsChangeAndReset : fnExists up ⟨1, 63⟩ = true ∧ fnExists up ⟨0, 0⟩ = true ∧ up.tp.ready = true ∧
    up.tp.pwr ≠ .p3 ∧ 1 < up.build.hostPorts.length ∧ up.fc.cls ≠ .terminal ∧
    tdiMoves (fnState up ⟨1, 63⟩).tdi .locked = true ∧ tdiMoves .run .error = true ∧
    ((hostPort flrUp 1).fns = [(63, { flr := some 5 })] ∧ (∀ w ∈ flrUp.wws, w.1 < 5 → w.2.port = 1 → (63 : Nat) ≠ 0 ∧ w.2.vf ≠ 63)) ∧
    (true = true ∨ false = false) := by decide

def via0 : Via := homeVia up (some 0) none 0

theorem wit_AcknowledgedWritesReadBack : (∀ l ∈ linesOf 62 [1, 2, 3, 4].length, mayIssue up via0 l = true) ∧
    (∀ i < [1, 2, 3, 4].length, Tab.find? up.mem.indet ((62 + i) / 8) = none) := by decide +kernel

theorem wit_FailedWritesShowOldOrNew : ({ cells := [(3, 7)] } : Memory).indet = [] := rfl

def gwr (o : GwOwner) : GwReq := { op := .wr, addr := 64, len := 64, lo := 64, data := [1, 2], poison := false, part := 0, owner := o, tick := 10 }
def gwUp : State := { up with gw := [(0, { out := [(3, gwr (.scrub 0 false))], quar := [(4, gwr (.window 7))] })] }
def gwOf (o : GwOwner) : State := { up with gw := [(0, { out := [(3, gwr o)] })] }

theorem wit_GwelotyResponsesReachTheirOwner : Tab.find? (gwPort gwUp 0).out 4 = none ∧ Tab.find? (gwPort gwUp 0).quar 4 = some (gwr (.window 7)) ∧
    Tab.find? (gwPort gwUp 0).out 3 = some (gwr (.scrub 0 false)) ∧ BusStatus.ok ≠ .deadline ∧
    (gwr (.scrub 0 false)).owner = .scrub 0 false ∧ Tab.find? (gwPort (gwOf (.window 7)) 0).out 3 = some (gwr (.window 7)) ∧
    Tab.find? (gwPort (gwOf (.row 7 1)) 0).out 3 = some (gwr (.row 7 1)) := by decide

def ev0 : Event := { source := srcId 1 0 6 }
def recUp : State := { up with fc := { up.fc with valid := 1, recs := [(0, { source := srcId 1 0 6, cls := 1, count := 0x7FFFFFFE })] } }
def fullUp : State := { up with fc := { up.fc with valid := 0xFFFFFFFF } }

theorem wit_EventsTakeRecords : (srcBase up.build ev0.source).isSome = true ∧ ev0.source ≠ selfSource ∧ up.fc.self = false ∧
    recOf recUp ev0.source = some 0 ∧ recOf up ev0.source = none ∧
    ((List.range 32).find? fun n => !recValid up n) = some 0 ∧ recOf fullUp ev0.source = none ∧
    ((List.range 32).find? fun n => !recValid fullUp n) = none ∧ fullUp.fc.self = false := by decide

def pulseUp : State := { up with fc := { up.fc with pulseEnd := some 1000200 }, ps := { up.ps with dbg := 1 } }

theorem wit_CollectorRegisterOperations : barOk pulseUp = true ∧ pulseUp.fc.pulseEnd = some 1000200 ∧ bit (0x100 : Word) 8 = true ∧
    (srcBase pulseUp.build pulseUp.fc.srcSel).isSome = false ∧
    (srcBase pulseUp.build ({ pulseUp with fc := { pulseUp.fc with srcSel := srcId 1 0 6 } }).fc.srcSel).isSome = true ∧
    bit (0x8000000000000806 : Word) 63 = true ∧ 1 ≤ pulseUp.ps.dbg.toNat ∧ bits (0x8000000000000806 : Word) 18 16 ≤ 3 ∧
    BitVec.ofNat 16 (bits (0x8000000000000806 : Word) 15 0) ≠ selfSource ∧ up.tp.ready = true ∧ up.tp.pwr ≠ .p3 ∧
    (srcBase pulseUp.build (BitVec.ofNat 16 (bits (0x8000000000000806 : Word) 15 0))).isSome = true ∧ up.ps.dbg = 0 := by decide

theorem wit_SafeStateIsEnteredOnce : up.fc.cls = .run ∧ ({ up with fc := { up.fc with cls := .fatal } }).fc.cls = .fatal ∧
    ({ up with fc := { up.fc with cls := .terminal } }).fc.cls = .terminal := by decide

theorem wit_ComplexResetAndBoot : State.reset.tp.resetting = some .powerOn ∧ State.reset.ps.quince = .running ∧
    fusesBlank State.reset 22 12 = false ∧ State.reset.tp.overflow = [] ∧ State.reset.ch.early = [] ∧
    State.reset.fc.cls ≠ .terminal ∧ (∀ g ∈ up.gw, g.2.out = []) ∧ (scrubOverflow State.reset []).tp.overflow = [] ∧
    fusesBlank { State.reset with ps := { State.reset.ps with fuses := [] } } 22 12 = true ∧
    ({ up with ps := { up.ps with quince := .halted } }).ps.quince ≠ .running ∧ up.tp.ready = true := by decide

def saveUp : State := { up with tp := { up.tp with saveBase := 1, draining := some 5 } }

theorem wit_PowerStateChanges : barOk up = true ∧ up.tp.pwrBusy = false ∧ up.ps.locks.getLsbD 1 = false ∧ up.tp.saveBase = 0 ∧
    saveUp.tp.saveBase ≠ 0 ∧ saveUp.tp.draining = some 5 ∧ p3Quiet { saveUp with cows := [(0, ⟨0, 0, 0, 0, 0, 0, 0, 0, 0, 0, none⟩)] } = false ∧
    p3Quiet saveUp = true ∧ runsWork saveUp = true ∧ ({ up with ps := { up.ps with locks := 2 } }).ps.locks.getLsbD 1 = true ∧
    saveUp.tp.pwr ≠ .p3 ∧ safeState saveUp = false ∧ saveUp.tp.ready = true ∧ saveUp.tp.pwrBusy = false := by decide

def lockUp (st : PartSt) (conf : Bool) : State :=
  { up with ps := { up.ps with parts := [(0, { ctxCount := 4096, ranges := [(0, { size := 1, base := 5 })], st := st, conf := conf })] } }

theorem wit_PartitionsAndTheirTable : barOk (lockUp .opened true) = true ∧ (0 : BitVec 3).toNat < up.build.partitions ∧
    (partOf (lockUp .opened true) 0).st = .opened ∧ (lockUp .opened true).ps.locks.getLsbD 0 = false ∧
    rangesOf (lockUp .opened true) 0 ≠ [] ∧ (partOf (lockUp .opened true) 0).ctxCount ≠ 0 ∧
    (∀ e ∈ sysStructs (lockUp .opened true), meetsPart (lockUp .opened true) 0 e.1 e.2 = false) ∧
    lifecycleOf (lockUp .opened true) ≠ 0 ∧ lifecycleOf (lockUp .opened true) ≠ 3 ∧ (lockUp .opened true).ps.invSeen = false ∧
    (partOf (lockUp .locked false) 0).st = .locked ∧ (partOf (lockUp .locked true) 0).conf = true ∧
    bits (0x8000006 : Word) 54 27 ≤ 2 ^ 27 ∧
    (∀ q ∈ allParts (lockUp .opened true), q ≠ 0 → ∀ z ∈ rangesOf (lockUp .opened true) q,
      meets (bits (0x8000006 : Word) 26 0) (bits (0x8000006 : Word) 54 27) z.base.toNat z.size.toNat = false) ∧
    ({ up with ps := { up.ps with locks := 1 } }).ps.locks.getLsbD 0 = true := by decide

theorem wit_TeardownScrubsAndOpens : (partOf (lockUp .closing false) 0).st = .closing ∧ partQuiet (lockUp .closing false) 0 = true ∧
    runsWork (lockUp .closing false) = true ∧
    partQuiet { lockUp .closing false with gw := [(0, { out := [(3, gwr (.window 7))] })] } 0 = false ∧
    (partOf (lockUp .scrubbing false) 0).st = .scrubbing ∧ (partOf (lockUp .scrubbing false) 0).stopped = false ∧
    (partOf (lockUp .scrubbing false) 0).scrubQ = [] ∧ barOk (lockUp .locked true) = true ∧ (partOf (lockUp .locked true) 0).st = .locked ∧ (partOf (lockUp .closing false) 0).st ≠ .opened ∧
    (partOf (lockUp .closing false) 0).st ≠ .locked := by decide

def sess : Session := { key := 0, next := 3, count := 0xFFFD, prov := none }
def opUp : State := { up with ps := { up.ps with session := some sess, dbg := 1 } }
def auth0 : WAuth := ⟨3, true⟩

theorem wit_WambeMessagesAndSessions : opUp.ps.session = some sess ∧ auth0.tagOk = true ∧ sess.next ≤ auth0.seq.toNat ∧
    sess.prov = none ∧ wambeTake up auth0 true = none ∧ wambeTake up auth0 false = none ∧
    (wambeTake opUp auth0 true).isSome = true ∧ (⟨2, true⟩ : WAuth).seq.toNat < sess.next ∧
    fusesBlank up 10 12 = false ∧ fusesBlank { up with ps := { up.ps with fuses := [] } } 10 12 = true ∧
    hasIdentity up = true ∧ hasIdentity { up with ps := { up.ps with fuses := [] } } = false := by decide

/-- The session of the operator, in a given state. -/
def lockUpIn (s : State) : State := { s with ps := { s.ps with session := some sess } }

theorem wit_OperatorMessages : (∃ u, wambeTake opUp auth0 false = some (u, sess) ∧ debugRefused u 1 = false ∧
      (64 : BitVec 48).toNat % 32 = 0 ∧ placeOk u 64 (32 * 2 ^ 1) = true ∧ lifeConfirmed u 3 = true ∧ safeState u = false ∧
      u.fc.cls ≠ .terminal ∧ u.tp.ready = true ∧ u.tp.pwrBusy = false ∧ u.tp.pwr ≠ .p3) ∧
    ∃ u, wambeTake opUp auth0 true = some (u, sess) ∧ provAllows u sess 34 1 = true ∧ fuseAllowed u 34 = true := by
  refine ⟨⟨_, rfl, ?_⟩, ⟨_, rfl, ?_⟩⟩ <;> decide

theorem wit_OperatorMessages_refusals :
    (∃ u, wambeTake { opUp with ps := { opUp.ps with locks := 8 } } auth0 false = some (u, sess) ∧ debugRefused u 1 = true) ∧
    (∃ u, wambeTake opUp auth0 false = some (u, sess) ∧ hostExists u 1 = true ∧ lifeConfirmed u 1 = false ∧ (2 : BitVec 2) ≠ 3) ∧
    (∃ u, wambeTake { opUp with fc := { opUp.fc with cls := .terminal } } auth0 false = some (u, sess) ∧ u.fc.cls = .terminal ∧ safeState u = true) ∧
    (∃ u, wambeTake { opUp with tp := { opUp.tp with pwr := .p3 } } auth0 false = some (u, sess) ∧ u.tp.pwr = .p3 ∧ safeState u = false) ∧
    ∃ u, wambeTake (lockUpIn (lockUp .locked true)) auth0 false = some (u, sess) ∧ placeOk u (5 * 0x200000) (32 * 2 ^ 1) = false := by
  refine ⟨⟨_, rfl, ?_⟩, ⟨_, rfl, ?_⟩, ⟨_, rfl, ?_⟩, ⟨_, rfl, ?_⟩, ⟨_, rfl, ?_⟩⟩ <;> decide

def shieldUp : State := { lockUp .locked true with ps := { (lockUp .locked true).ps with session := some sess, dbg := 1 } }

theorem wit_DebugAndDoeAreGuarded : (∃ u, wambeTake shieldUp auth0 false = some (u, sess) ∧ debugBad u (5 * 0x200000) 8 = none ∧
      shieldedAt u (5 * 0x200000) 8 = true ∧ debugBad u 64 8 = none ∧ shieldedAt u 64 8 = false ∧ offLimits u 64 = false ∧
      Tab.find? u.mem.poison 1 = none) ∧
    fnExists shieldUp ⟨0, 0⟩ = true ∧ shieldUp.tp.pwr ≠ .p3 ∧ shieldUp.tp.ready = true ∧ safeState shieldUp = false ∧
    hasIdentity shieldUp = true ∧ secretOk shieldUp 0 4 1023 = true ∧ secretOk up 0 4 0 = false := by
  refine ⟨⟨_, rfl, ?_⟩, ?_⟩ <;> decide

/-! ### Near cores -/

/-- Two near cores with credits, the domain UP. -/
def coreUp : State := { up with ch := { up.ch with present := 3, ports := [(0, { hsnp := 8, hrsp := 8 }), (1, { hsnp := 8, hrsp := 8 })] } }
def req0 : CReq := { txn := 5, va := false, ctx := 0, addr := 4096, rsv := false }
def lineDir (st : DirSt) (a : Nat) : State := { coreUp with ch := { coreUp.ch with dir := [(64, ⟨st, [a], false, none, 0⟩)] } }

theorem coreUp_may_ask : CoreMayAsk coreUp 0 req0 0 := by constructor <;> decide
theorem coreUp_line_at_rest : LineAtRest coreUp 0 0 64 := by constructor <;> decide
theorem lineDir_may_ask : CoreMayAsk (lineDir .exc 0) 0 req0 0 := by constructor <;> decide
theorem lineDir_line_at_rest : LineAtRest (lineDir .exc 0) 0 0 64 := by constructor <;> decide

theorem wit_CachedReadsAndWriteBacks : (CoreMayAsk coreUp 0 req0 0 ∧ LineAtRest coreUp 0 0 64) ∧
    (CoreMayAsk (lineDir .exc 0) 0 req0 0 ∧ LineAtRest (lineDir .exc 0) 0 0 64) ∧ req0.addr.toNat / 64 = 64 ∧
    req0.addr.toNat % 64 = 0 ∧ dirEnt coreUp 64 = none ∧ setFull coreUp 64 = false ∧
    dirEnt (lineDir .exc 0) 64 = some ⟨.exc, [0], false, none, 0⟩ ∧ dirEnt (lineDir .own 0) 64 = some ⟨.own, [0], false, none, 0⟩ ∧
    dirEnt (lineDir .shd 0) 64 = some ⟨.shd, [0], false, none, 0⟩ ∧ (∀ d, dirEnt coreUp 64 = some d → d.st = .shd ∨ d.ptrs.head? ≠ some 0) :=
  ⟨⟨coreUp_may_ask, coreUp_line_at_rest⟩, ⟨lineDir_may_ask, lineDir_line_at_rest⟩, by decide, by decide, by decide, by decide, by decide, by decide, by decide,
    fun _ h => by cases h⟩

/-- A complex none of whose near cores has a partition. -/
def noPart : State := { coreUp with ps := { coreUp.ps with own := [(12, 0)] } }

theorem wit_UncachedAccessesAndRefusals : CoreMayAsk coreUp 0 req0 0 ∧ LineAtRest coreUp 0 0 (req0.addr.toNat / 64) ∧
    (6 : BitVec 3).toNat ≤ 6 ∧ req0.addr.toNat % 2 ^ 6 = 0 ∧ (9 : BitVec 4).toNat ≤ 9 ∧ dirEnt coreUp 64 = none ∧
    coreHears coreUp 0 = true ∧ txnOpen coreUp 0 5 = false ∧ ({ req0 with rsv := true }).rsv = true ∧
    ({ coreUp with ch := { coreUp.ch with st := .down } }).ch.st ≠ .up ∧
    coreHears { coreUp with ch := { coreUp.ch with st := .down } } 0 = true ∧
    (State.reset.tp.ready = false ∧ State.reset.build.cpPresent.getLsbD 31 = true ∧ txnOpen State.reset 31 5 = false) ∧ writePending coreUp req0.addr.toNat 64 = false ∧
    (4 : BitVec 3) = 4 ∧ (coreUp.ch.st = .up ∧ req0.va = false ∧ inWindow req0.addr.toNat = false ∧ corePart noPart 0 = none) :=
  ⟨coreUp_may_ask, coreUp_line_at_rest, by decide⟩

/-- The state at READY with a read that port 0 sent before it. -/
def readBeforeReady : State :=
  match execRdShared 0 req0 [] State.reset with
  | .next s => { s with tp := { s.tp with ready := true }, ch := { s.ch with present := 1 } }
  | _ => State.reset

/-- A core's read that came before READY is served once READY rises, and answered with the core's first credit (R470). -/
theorem test_early_request_waits_and_is_served :
    readBeforeReady.ch.early.length = 1 ∧ (serveEarly readBeforeReady []).ch.early = [] ∧
    (corePort (serveEarly readBeforeReady []) 0).hrspQ.length = 1 := by
  decide +kernel

/-- RD_UNIQUE sends SNP_INV to every holder, the asking owner of an O line too; ATOMIC sends none to the port that asks; RD_NC leaves the
owner alone its line. -/
theorem test_snoops_of_holders :
    snoopPlan coreUp ⟨.own, [0, 1], false, none, 0⟩ ⟨.rdUnique, 0, 0, 4096, false, some 0⟩ = [(0, 2), (1, 2)] ∧
    snoopPlan coreUp ⟨.own, [0, 1], false, none, 0⟩ ⟨.upgrade, 1, 0, 4096, false, some 0⟩ = [(0, 2)] ∧
    snoopPlan coreUp ⟨.shd, [0, 1], false, none, 0⟩ ⟨.atomic 3 0 [], 1, 0, 4096, false, some 0⟩ = [(0, 2)] ∧
    snoopPlan coreUp ⟨.own, [0, 1], false, none, 0⟩ ⟨.rdNc 3, 2, 0, 4096, false, some 0⟩ = [(0, 1), (1, 2)] := by
  decide +kernel

def busyCore : State :=
  { coreUp with ch := { coreUp.ch with ports := [(0, { hsnp := 8, hrsp := 8, opens := [⟨1, true, false⟩, ⟨2, false, true⟩] })] } }

theorem wit_BarriersWaitForTheirClass : coreHears coreUp 0 = true ∧ txnOpen coreUp 0 req0.txn = false ∧
    (corePort coreUp 0).bars = [] ∧ (corePort coreUp 0).opens = [] ∧ 0 < (corePort coreUp 0).hrsp ∧
    coreHears busyCore 0 = true ∧ busyCore.ch.st = .up ∧ txnOpen busyCore 0 req0.txn = false ∧ (corePort busyCore 0).bars = [] ∧
    (∀ b ∈ (corePort busyCore 0).bars, ∃ x ∈ b.waits, ∃ q ∈ (corePort busyCore 0).opens, q.txn = x) ∧ (2 : BitVec 2) ≠ 3 ∧
    (⟨1, true, false⟩ : OpenReq) ∈ (corePort busyCore 0).opens ∧ ⟨2, false, true⟩ ∈ (corePort busyCore 0).opens := by decide

def trans (op : HomeOp) (port : Nat) (awaits : List (Nat × Nat)) (stash : Bool) : Trans :=
  ⟨⟨op, port, 5, 4096, false, some 0⟩, awaits, none, false, false, stash, false, 0⟩

/-- Line 64 with a holder, a snoop to core 0 and a transaction that awaits answers. -/
def snooped (dir : Tab DirEnt) (kind : Nat) (t : Trans) : State :=
  { coreUp with ch := { coreUp.ch with dir := dir, snps := [(snoopKey 0 7, ⟨0, 64, kind⟩)], trans := [(64, t)] } }
def sharedLine : State := snooped [(64, ⟨.shd, [0, 1], false, none, 0⟩)] 2 (trans .rdUnique 2 [(7, 0), (9, 1)] false)
def ownedLine : State := snooped [(64, ⟨.exc, [0], false, none, 0⟩)] 1 (trans .rdShared 1 [(7, 0)] false)
def offered : State := snooped [] 3 (trans (.hint [] []) 0 [(7, 0)] true)

theorem wit_SnoopsStashesAndForwards :
    (coreHears sharedLine 0 = true ∧ Tab.find? sharedLine.ch.snps (snoopKey 0 (7 : BitVec 10).toNat) = some ⟨0, 64, 2⟩ ∧
      (corePort sharedLine 0).hsnpQ = [] ∧ Tab.find? sharedLine.ch.trans 64 = some (trans .rdUnique 2 [(7, 0), (9, 1)] false) ∧
      answerFits sharedLine ⟨0, 64, 2⟩ .miss = true ∧
      answerFits (snooped [(64, ⟨.exc, [0], false, none, 0⟩)] 1 (trans .rdShared 1 [(7, 0), (9, 1)] false)) ⟨0, 64, 1⟩ .shared = true ∧
      answerFits (snooped [(64, ⟨.exc, [0], false, none, 0⟩)] 1 (trans .rdShared 1 [(7, 0), (9, 1)] false)) ⟨0, 64, 1⟩ (.data true) = true) ∧
    (Tab.find? offered.ch.snps (snoopKey 0 (7 : BitVec 10).toNat) = some ⟨0, 64, 3⟩ ∧
      Tab.find? offered.ch.trans 64 = some (trans (.hint [] []) 0 [(7, 0)] true) ∧ offered.ch.queue = [] ∧
      0 < (corePort offered 0).hrsp) ∧
    (Tab.find? ownedLine.ch.snps (snoopKey 0 (7 : BitVec 10).toNat) = some ⟨0, 64, 1⟩ ∧
      Tab.find? ownedLine.ch.trans 64 = some (trans .rdShared 1 [(7, 0)] false) ∧
      (dirEnt ownedLine 64).map (fun e => (e.st, e.ptrs, e.bcast)) = some (.exc, [0], false) ∧ 0 < (corePort ownedLine 1).hrsp) := by
  decide

def domainAt (st : DomSt) : State := { coreUp with ch := { coreUp.ch with st := st } }

theorem wit_CoherentDomainAndCredits :
    List.find? (fun e : Nat × Snoop => decide (e.2.core = 0)) sharedLine.ch.snps = some (snoopKey 0 7, ⟨0, 64, 2⟩) ∧
    barOk coreUp = true ∧ coreUp.ch.busy = false ∧ coreUp.ch.st = .up ∧ barOk (domainAt .down) = true ∧
    (domainAt .down).ch.st = .down ∧ coresReady (domainAt .restoring) = true ∧
    coresReady { domainAt .restoring with ch := { (domainAt .restoring).ch with ports := [] } } = false ∧
    (coreEarly State.reset 31 = true ∧ State.reset.tp.pwr ≠ .p3) ∧ coreHears (domainAt .down) 0 = true ∧ coreHears (domainAt .restoring) 1 = true ∧
    coreUp.ch.queue = [] ∧ 4 ≤ (corePort coreUp 1).hsnp ∧
    coreHears coreUp 31 = false ∧ coreHears coreUp 1 = true ∧ (corePort coreUp 1).hsnpQ = [] ∧ (corePort coreUp 1).hrspQ = [] := by
  decide

/-! ### A working context: page tables that map each address below 1 GiB to itself, and an object table -/

/-- Whether an action answers, with a value for which a test holds. -/
def answers {α : Type} (p : α → Bool) (r : EStateM.Result Stop State α) : Bool :=
  match r with
  | .ok a _ => p a
  | .error _ _ => false

theorem answers_ok {α : Type} {p : α → Bool} {r : EStateM.Result Stop State α} (h : answers p r = true) :
    ∃ a s', r = .ok a s' ∧ p a = true := by
  cases r with
  | ok a s' => exact ⟨a, s', rfl, h⟩
  | error e s' => cases h

theorem answers_any {α : Type} {r : EStateM.Result Stop State α} (h : answers (fun _ => true) r = true) : ∃ a s', r = .ok a s' := by
  cases r with
  | ok a s' => exact ⟨a, s', rfl⟩
  | error e s' => cases h

/-- Whether an action stops at a fault slot. -/
def isHeld {α : Type} (r : EStateM.Result Stop State α) : Bool :=
  match r with
  | .error (.held _) _ => true
  | _ => false
theorem stops_held {α : Type} {r : EStateM.Result Stop State α} (h : isHeld r = true) : ∃ k s', r = .error (.held k) s' := by
  cases r with
  | ok a s' => cases h
  | error e s' => cases e <;> first | exact ⟨_, s', rfl⟩ | cases h

/-- The same with a test of the answer and of the state. -/
def answersBoth {α : Type} (p : α → State → Bool) (r : EStateM.Result Stop State α) : Bool :=
  match r with
  | .ok a s => p a s
  | .error _ _ => false

theorem both_ok {α : Type} {p : α → State → Bool} {r : EStateM.Result Stop State α} (h : answersBoth p r = true) :
    ∃ a s', r = .ok a s' ∧ p a s' = true := by
  cases r with
  | ok a s' => exact ⟨a, s', rfl, h⟩
  | error e s' => cases h

/-- Blocks in the order of their addresses. -/
def insBlock (e : Nat × List Byte) : List (Nat × List Byte) → List (Nat × List Byte)
  | [] => [e]
  | x :: t => if e.1 ≤ x.1 then e :: x :: t else x :: insBlock e t
/-- The memory that holds some blocks, which do not overlap. -/
def memOf (l : List (Nat × List Byte)) : Memory :=
  { cells := (l.foldr insBlock []).flatMap fun e => e.2.zipIdx.filterMap fun x => if x.1 = 0 then none else some ⟨e.1 + x.2, x.1⟩ }

/-- A descriptor: state, type, generation, address, size. -/
def descBytes (st ty gen va size : Nat) : List Byte :=
  leBytes 8 (st + 16 * ty + gen * 2 ^ 48) ++ leBytes 8 va ++ leBytes 8 size

def tables : List (Nat × List Byte) := [(0x10000, leBytes 3 0x11001), (0x11000, leBytes 3 0x12001), (0x12000, leBytes 1 0x87)]

/-- Object 1 is a buffer of 64 KiB, object 2 an event, object 3 is free, object 4 a program. -/
def objects : List (Nat × List Byte) :=
  [(0x20040, descBytes 1 0 1 0x100000 0x10000), (0x20080, descBytes 1 2 1 0x30000 8), (0x200C0, descBytes 0 0 5 0x200000 0x1000),
   (0x20100, descBytes 1 3 1 0x300000 0x1000)]

def queue0 : QState :=
  { desc := { en := true, ringLog2 := 6, ringVa := 0x40000, cqLog2 := 6, cqHost := true, quantum := 1, cls := 1 }, phase := true
    cqPhase := true }
def ctx0 : Ctx := { st := .enabled, ctrl := true, slot := some 0, ttRoot := 0x10001, qs := [(0, queue0)] }

/-- The complex with context 0 enabled and resident. -/
def work (m : List (Nat × List Byte)) : State :=
  { up with mem := memOf m, qe := { objBase := 0x20, objLog2 := 10, ctxs := [(0, ctx0)] }
            hosts := [(0, { fns := [(0, { busMaster := true })] })] }
def wk : State := work (tables ++ objects)
def withCmd (s : State) (c : Cmd) : State := { s with qe := { s.qe with cmds := [(9, c)] } }

/-- A dispatched command of context 0 with an opcode and its words W1 to W5. -/
def cmdAt (op : Nat) (ws : List Nat) (conts : List (List Byte)) : Cmd :=
  ⟨0, 0, 0, ⟨0, 1, padTo 64 (leBytes 8 (op + 2 ^ 16) ++ (ws.map (leBytes 8)).flatten), conts⟩, .dispatched, 0, 0, 0, 0, 0, [], none, none, [], .none⟩
def h1 : Nat := 2 ^ 48 + 1
def h2 : Nat := 2 ^ 48 + 2

theorem test_identity_map : (translate wk [] { owner := .free, user := .engine, ctx := 0, va := 0x30008, acc := .read }).2 =
    .ok 0x30008 0x87 30 := by decide +kernel
theorem test_object_read : ∃ o s', objGet [] 1 wk = .ok o s' ∧ decide (o.st = stLive ∧ o.gen = 1 ∧ o.size = 0x10000) = true :=
  answers_ok (by decide +kernel)

/-! ### Ingest -/

def ap (mode : BitVec 2) : Aperture :=
  { en := true, mode := mode, st := .opened, ctx := 0, obj := BitVec.ofNat 64 h1, cursor := 128, stream := [1], meas := true }
def apAt (s : State) (a : Aperture) : State := { s with hosts := [(0, { aps := [(3, a)], fns := [(0, { busMaster := true })] })] }
def ingest (mode : BitVec 2) : State := apAt wk (ap mode)
def off3 : BitVec 36 := BitVec.ofNat 36 (3 * 2 ^ 28 + 128)

theorem reaches_plain : WindowReaches (ingest 0) ⟨0, 0⟩ none off3.toNat 3 0 := by constructor <;> decide +kernel
theorem reaches_measured : WindowReaches (ingest 1) ⟨0, 0⟩ none off3.toNat 3 0 := by constructor <;> decide +kernel
theorem reaches_sealed : WindowReaches (ingest 2) ⟨0, 0⟩ none off3.toNat 3 0 := by constructor <;> decide +kernel

def winIssued : State :=
  { ingest 0 with
    wws := [(7, ⟨0, 0, 3, 0, 0, 1, 0, [1, 2], false, false, .issued 1 [], none, [], 0⟩)]
    gw := [(gwBase Build.full 5, { out := [(3, gwr (.window 7))] })] }

def cow0 : Cow := ⟨0, 3, 1, 0, 0, 0x13000, 0x13008, 0, 0x400000, 0x500000, none⟩

theorem wit_WindowWritesEnterAndCommit :
    (WindowReaches (ingest 0) ⟨0, 0⟩ none off3.toNat 3 0 ∧ WindowReaches (ingest 1) ⟨0, 0⟩ none off3.toNat 3 0 ∧
      WindowReaches (ingest 2) ⟨0, 0⟩ none off3.toNat 3 0) ∧
    (∃ size s', apSize [] (aperture (ingest 1) 0 3) (ingest 1) = .ok size s' ∧
      decide ((aperture (ingest 1) 0 3).base.toNat * 64 + (aperture (ingest 1) 0 3).cursor.toNat + [(9 : Byte)].length ≤ size) = true) ∧
    (off3.toNat % 2 ^ 28 = (aperture (ingest 1) 0 3).cursor.toNat % 2 ^ 28 ∧
      (off3 + 64).toNat % 2 ^ 28 ≠ (aperture (ingest 1) 0 3).cursor.toNat % 2 ^ 28) ∧
    ((gwPort winIssued (gwBase winIssued.build 5 + 0)).out = [(3, gwr (.window 7))] ∧
      (∀ i < [(1 : Byte), 2].length, Tab.find? winIssued.mem.indet ((64 + i) / 8) = none)) ∧
    Tab.find? ({ wk with cows := [(5, cow0)] }).cows 5 = some cow0 ∧ runsWork { wk with cows := [(5, cow0)] } = true ∧
    frameIssues { wk with cows := [(5, cow0)] } cow0.part cow0.src (clsBytes cow0.cls) = true ∧ cow0.waits = none ∧
    frameStatus [] cow0.src (clsBytes cow0.cls) true = none ∧ frameWriteStatus [] cow0.dst (clsBytes cow0.cls) = none ∧
    ({ cow0 with waits := some [] } : Cow).waits = some [] :=
  ⟨⟨reaches_plain, reaches_measured, reaches_sealed⟩, answers_ok (by decide +kernel), by decide +kernel⟩

/-- A plain write inside the object and one beyond it; a poisoned one; measured ones at and beyond the end of the object. -/
theorem wit_WindowWritesEnterAndCommit_bounds :
    [(9 : Byte)] ≠ [] ∧ [(9 : Byte)].length ≤ mpsBytes (ingest 0) 0 ∧
    (∃ size s', apSize [] (aperture (ingest 0) 0 3) (ingest 0) = .ok size s' ∧
      decide ((aperture (ingest 0) 0 3).base.toNat * 64 + off3.toNat % 2 ^ 28 + 1 ≤ size) = true) ∧
    (∃ size s', apSize [] (aperture (ingest 0) 0 3) (ingest 0) = .ok size s' ∧
      decide (size < (aperture (ingest 0) 0 3).base.toNat * 64 + (off3 + 0x10000).toNat % 2 ^ 28 + 1) = true) ∧
    (∃ size s', apSize [] (aperture (ingest 0) 0 3) (poisonTlp (ingest 0) 0 0) = .ok size s' ∧
      decide ((aperture (ingest 0) 0 3).base.toNat * 64 + off3.toNat % 2 ^ 28 + 1 ≤ size) = true) ∧
    (∃ size s', apSize [] (aperture (apAt wk { ap 1 with cursor := 0x10000 }) 0 3) (apAt wk { ap 1 with cursor := 0x10000 }) = .ok size s' ∧
      decide (size < (aperture (apAt wk { ap 1 with cursor := 0x10000 }) 0 3).base.toNat * 64 + 0x10000 + 1) = true) :=
  ⟨by decide +kernel, by decide +kernel, answers_ok (by decide +kernel), answers_ok (by decide +kernel), answers_ok (by decide +kernel),
    answers_ok (by decide +kernel)⟩

/-- The header, body, tag and padding of a record of a type: 64 bytes of data for type 1, none for type 2. -/
def record (ty len tag : Nat) : List Byte := recHeader ty len 0 4 0 ++ List.replicate len 7 ++ leBytes 16 tag ++ List.replicate 16 0

/-- The GCM tags of the two records under the ingest key of the secret 77 and context 0. -/
def goodTag (ty : Nat) : Nat := if ty = 1 then 0x6676f5a1e11f951969a3332e19b4f8ed else 0xb9ed78b2d95f5671a179fce2df138896

def sealedWith (ty len tag : Nat) : State :=
  { apAt wk { ap 2 with session := 4, buf := record ty len tag } with
    ps := { wk.ps with secrets := [(2, ⟨0, 0, 77, 4⟩)] }
    qe := { wk.qe with ctxs := [(0, { ctx0 with keyRef := 0x8000000000000002, conf := true })] } }
def sealedUp (ty len : Nat) : State := sealedWith ty len (goodTag ty)
def lastUp : State := apAt wk { ap 2 with final := true }

theorem wit_tags_of_records :
    recTagOk (sealedUp 1 64) (aperture (sealedUp 1 64) 0 3) = true ∧ recTagOk (sealedUp 2 0) (aperture (sealedUp 2 0) 0 3) = true ∧
    recTagOk (sealedWith 2 0 9) (aperture (sealedWith 2 0 9) 0 3) = false := by
  decide +kernel

theorem wit_SealedRecordsAreOpened :
    (∀ x ∈ [(1, 64), (2, 0)], (32 ≤ (aperture (sealedUp x.1 x.2) 0 3).buf.length ∧
      recError (aperture (sealedUp x.1 x.2) 0 3) ((aperture (sealedUp x.1 x.2) 0 3).buf.take 32) 0x10000 = none ∧
      (aperture (sealedUp x.1 x.2) 0 3).final = false ∧ leAt ((aperture (sealedUp x.1 x.2) 0 3).buf.take 32) 4 4 + 64 ≤ (aperture (sealedUp x.1 x.2) 0 3).buf.length ∧
      leAt (aperture (sealedUp x.1 x.2) 0 3).buf (x.2 + 48) 16 = 0 ∧
      byteAt ((aperture (sealedUp x.1 x.2) 0 3).buf.take 32) 0 = x.1 ∧ runsWork (sealedUp x.1 x.2) = true ∧
      ctxSecretOf (sealedUp x.1 x.2) 0 = some ⟨0, 0, 77, 4⟩)) ∧
    (∃ size s', apSize [] (aperture (sealedUp 1 64) 0 3) (sealedUp 1 64) = .ok size s' ∧ decide (size = 0x10000) = true) ∧
    (∃ size s', apSize [] (aperture (sealedUp 2 0) 0 3) (sealedUp 2 0) = .ok size s' ∧ decide (size = 0x10000) = true) ∧
    ((aperture lastUp 0 3).final = true ∧ (aperture lastUp 0 3).mode = 2 ∧ (aperture lastUp 0 3).st = .opened ∧
      apBusy lastUp 0 3 = false ∧ runsWork lastUp = true) :=
  ⟨by decide +kernel, answers_ok (by decide +kernel), answers_ok (by decide +kernel), by decide +kernel⟩

def apShut : State := apAt wk { ap 1 with en := false }
def apClosing : State := apAt wk { ap 1 with closing := true, clearEn := true }

theorem wit_AperturesOpenAndClose :
    (barOk apShut = true ∧ apExists apShut 0 3 = true ∧ (aperture apShut 0 3).en = false ∧ bit (3 : Word) 0 = true ∧
      tdiFrozen apShut 0 (aperture apShut 0 3).owner.toNat = false ∧ tdiFrozen apShut 0 (bits (3 : Word) 15 8) = false) ∧
    (∃ u s', enableAct [] 0 3 (apFields (aperture apShut 0 3) 3) (updAp apShut 0 3 fun _ => apFields (aperture apShut 0 3) 3) =
      .ok u s' ∧ true = true) ∧
    (∃ d s', enableAct [] 0 3 (apFields (aperture apShut 0 3) 7) (updAp apShut 0 3 fun _ => apFields (aperture apShut 0 3) 7) =
      .error (.ended aeEnable d) s') ∧
    (barOk (ingest 1) = true ∧ apExists (ingest 1) 0 3 = true ∧ (aperture (ingest 1) 0 3).en = true ∧
      (aperture (ingest 1) 0 3).closing = false ∧ bit (0 : Word) 0 = false ∧ bit (0 : Word) 5 = false ∧
      tdiFrozen (ingest 1) 0 (aperture (ingest 1) 0 3).owner.toNat = false ∧ (aperture (ingest 1) 0 3).st = .opened ∧
      bit (0x21 : Word) 5 = true ∧ bit (0x21 : Word) 0 = true) ∧
    (aperture (ingest 2) 0 3).mode = 2 ∧ (aperture apClosing 0 3).st = .opened ∧ (aperture apClosing 0 3).closing = true ∧ apBusy apClosing 0 3 = false ∧ runsWork apClosing = true := by
  refine ⟨by decide +kernel, answers_ok (p := fun _ => true) (by decide +kernel), ⟨_, _, rfl⟩, by decide +kernel⟩

def syncUp : State :=
  { winIssued with hosts := [(0, { syncs := [⟨⟨0, 0⟩, 4, 7, none⟩, ⟨⟨0, 0⟩, 5, 8, some (0, 9, 0, 8)⟩] }), (1, {})] }

theorem wit_IngestReadsAndMaps :
    (fnExists up ⟨1, 63⟩ = true ∧ up.tp.pwr ≠ .p3 ∧ up.tp.ready = true) ∧
    (fnExists State.reset ⟨0, 0⟩ = true ∧ State.reset.tp.pwr ≠ .p3 ∧ State.reset.tp.ready = false) ∧
    (List.find? (fun r : SyncRead => decide (r.tag = 4)) (hostPort syncUp 0).syncs = some ⟨⟨0, 0⟩, 4, 7, none⟩ ∧
      (∀ e ∈ syncUp.wws, e.1 < 7 → e.2.port ≠ 0)) ∧
    (List.find? (fun r : SyncRead => decide (r.tag = 5)) (hostPort syncUp 0).syncs = some ⟨⟨0, 0⟩, 5, 8, some (0, 9, 0, 8)⟩ ∧
      (syncUp.wws.any fun e => decide (e.1 < 8 ∧ e.2.port = 0)) = true) ∧
    barOk up = true ∧ fnExists up ⟨0, 63⟩ = true ∧ tdiFrozen up 0 63 = false ∧ ctxPart up 4095 = fnPart up ⟨0, 63⟩ ∧
    ctxPart up 4095 ≠ none ∧ (0x8FFF : BitVec 16).getLsbD 15 = true := by decide +kernel

/-! ### Queues, commands, contexts -/

theorem reaches_queue : DoorbellReaches wk ⟨0, 0⟩ none 0 0 0 0 := by constructor <;> decide +kernel
theorem reaches_fenced : DoorbellReaches { wk with wws := winIssued.wws, nextId := 8 } ⟨0, 0⟩ none 0 0 0 0 := by
  constructor <;> decide +kernel

def fencedUp (before : Nat) : State :=
  { wk with wws := winIssued.wws, hosts := [(0, { fenced := [⟨0, 0, .tail, 1, before⟩] })] }

/-- The near cores of queue 0 are away. -/
def awayUp : State := { wk with qe := { wk.qe with ctxs := [(0, { ctx0 with qs := [(0, { queue0 with desc := { queue0.desc with ncore := true } })] })] }, ch := { wk.ch with st := .down } }
theorem reaches_away : DoorbellReaches awayUp ⟨0, 0⟩ none 0 0 0 0 := by constructor <;> decide +kernel

theorem wit_DoorbellsSetTheirField : DoorbellReaches wk ⟨0, 0⟩ none 0 0 0 0 ∧
    DoorbellReaches { wk with wws := winIssued.wws, nextId := 8 } ⟨0, 0⟩ none 0 0 0 0 ∧
    DoorbellReaches awayUp ⟨0, 0⟩ none 0 0 0 0 ∧
    (coresAway awayUp (queueOf awayUp 0 0) = true ∧ portBusy awayUp 0 awayUp.nextId = false ∧ (hostPort awayUp 0).fenced = []) ∧
    portBusy wk 0 wk.nextId = false ∧ (hostPort wk 0).fenced = [] ∧ coresAway wk (queueOf wk 0 0) = false ∧
    (queueOf wk 0 0).head.toNat ≠ (63 : BitVec 32).toNat % 65536 ∧ (queueOf wk 0 0).head.toNat = (0x10000 : BitVec 32).toNat % 65536 ∧
    2 ^ (queueOf wk 0 0).desc.ringLog2.toNat ≤ (64 : BitVec 32).toNat % 65536 ∧
    (63 : BitVec 32).toNat % 65536 < 2 ^ (queueOf wk 0 0).desc.ringLog2.toNat ∧ (queueOf wk 0 0).comps = [] ∧
    (∀ i < 8, (queueOf wk 0 i).comps = []) ∧
    portBusy { wk with wws := winIssued.wws, nextId := 8 } 0 8 = true ∧
    (hostPort (fencedUp 7) 0).fenced = [⟨0, 0, .tail, 1, 7⟩] ∧ portBusy (fencedUp 7) 0 7 = false ∧
    (hostPort (fencedUp 8) 0).fenced = [⟨0, 0, .tail, 1, 8⟩] ∧ portBusy (fencedUp 8) 0 8 = true :=
  ⟨reaches_queue, reaches_fenced, reaches_away, by decide +kernel⟩

/-- The working context with other fields of its queue and of itself. -/
def withQueue (s : State) (f : QState → QState) (g : Ctx → Ctx) : State :=
  { s with qe := { s.qe with ctxs := [(0, g { ctx0 with qs := [(0, f queue0)] })] } }
def loadingUp : State := withQueue wk id fun x => { x with slot := none, loading := true }
def ring (m : List (Nat × List Byte)) : State := withQueue (work (tables ++ m)) (fun y => { y with reading := true, tail := 1 }) id
def nopEntry : List (Nat × List Byte) := [(0x40000, leBytes 3 0x10100)]
def backed : State := withQueue wk (fun y => { y with backoff := some (250, 300), firstBad := 50 }) id

/-- A ring whose page no table maps, and a partition whose only slot holds a pinned context. -/
def unmapped : State :=
  withQueue wk (fun y => { y with reading := true, tail := 1, desc := { y.desc with ringVa := 0x80000000 } }) id
def slotless : State :=
  { wk with qe := { wk.qe with ctxs := [(0, { ctx0 with pinned := true }), (1, { ctx0 with slot := none, loading := true, qs := [] })] }
            ps := { wk.ps with parts := [(0, { slotCount := 1, ctxCount := 4096 })] } }

theorem wit_RingReadsAndLoads :
    ((ctxOf loadingUp 0).loading = true ∧ runsWork loadingUp = true ∧ (ctxOf loadingUp 0).st = .enabled ∧
      loadSlot loadingUp (ctxOf loadingUp 0).part = some (0, none) ∧
      (homeReady loadingUp (ctxAddr loadingUp 0) 512 false none [] = (loadingUp, true)) ∧
      (homeRead (loadVia loadingUp 0) [] loadingUp (ctxAddr loadingUp 0) 512).2.1 = .ok) ∧
    (∀ m ∈ [[], nopEntry], (queueOf (ring m) 0 0).reading = true ∧ runsWork (ring m) = true ∧
      (queueOf (ring m) 0 0).head ≠ (queueOf (ring m) 0 0).tail) ∧
    (∃ r s', readCommand [] 0 0 (ring []) = .ok r s' ∧ decide (r = none) = true) ∧
    (∃ r s', readCommand [] 0 0 (ring nopEntry) = .ok r s' ∧ (r.any fun r => decide ((queueOf s' 0 0).tail = r.after)) = true) ∧
    (∃ k s', readCommand [] 0 0 unmapped = .error (.held k) s') ∧ (queueOf unmapped 0 0).reading = true ∧ runsWork unmapped = true ∧
    (loadSlot slotless 0 = none ∧ (ctxOf slotless 1).loading = true ∧ (ctxOf slotless 1).st = .enabled ∧ runsWork slotless = true) ∧
    (let y := { awayUp with qe := { awayUp.qe with ctxs := [(0, { ctx0 with qs := [(0, { (queueOf awayUp 0 0) with reading := true })] })] } }
     (queueOf y 0 0).reading = true ∧ runsWork y = true ∧ coresAway y (queueOf y 0 0) = true) ∧ coresAway backed (queueOf backed 0 0) = false ∧
    ((queueOf backed 0 0).backoff = some (250, 300) ∧ (queueOf backed 0 0).parked = false ∧ runsWork backed = true) :=
  ⟨by decide +kernel, by decide +kernel, answers_ok (by decide +kernel), both_ok (by decide +kernel),
    stops_held (by decide +kernel), by decide +kernel⟩

def nopCmd : RawCmd := ⟨0, 1, padTo 64 (leBytes 3 0x10100), []⟩
def readyUp : State := withQueue wk (fun y => { y with ready := [nopCmd], desc := { y.desc with cls := 0 } }) id

/-- A command with an opcode and its words stands dispatched. -/
def disp (op : Nat) (ws : List Nat) : State := withCmd wk (cmdAt op ws [])
theorem dispatched (op : Nat) (ws : List Nat) (h : runsWork (disp op ws) = true ∧ (cmdAt op ws []).raw.opcode = op) :
    Dispatched (disp op ws) 9 op (cmdAt op ws []) :=
  ⟨rfl, h.1, rfl, h.2⟩

def waitingUp : State := withCmd wk { cmdAt opWait [h2, 5, 0] [] with phase := .running, work := .waiting 0xC00 0x30000 5 (some 90) }
def pipEntry : List Byte := leBytes 4 0x100 ++ List.replicate 60 6
def pipsCmd : Cmd := cmdAt opWritePips [0x100000, 60] [pipEntry]

theorem wit_DispatchAndEngineCommands :
    (runsWork readyUp = true ∧ draining readyUp = false ∧ (pickQueue readyUp 0).2 = some (0, 1) ∧
      nextOf (pickQueue readyUp 0).1 (qidCtx 0) (0 % 8) = some nopCmd ∧ nopCmd.opcode = opNop ∧
      entryFails (pickQueue readyUp 0).1.build nopCmd = none) ∧
    Dispatched (disp opNop []) 9 opNop (cmdAt opNop [] []) ∧
    (cmdOf (withCmd wk pipsCmd) 9 = some pipsCmd ∧ pipsCmd.raw.opcode = opWritePips ∧
      (vaWrite (withCmd wk pipsCmd) [] (cmdReq 9 pipsCmd .engine (pipsCmd.raw.w 1 + BitVec.ofNat 64 pipsCmd.progress) .write)
        ((pipsCmd.raw.pips.take (bits (pipsCmd.raw.w 2) 15 0)).drop pipsCmd.progress) true (engineVia pipsCmd.part)).2.2 = none) ∧
    (Dispatched (disp opSignal [h2, 5]) 9 opSignal (cmdAt opSignal [h2, 5] []) ∧
      (∃ o s1, objGet [] (hIndex ((cmdAt opSignal [h2, 5] []).raw.w 1)) (disp opSignal [h2, 5]) = .ok o s1 ∧
        answers (fun _ => true) (signalEvent [] o ((cmdAt opSignal [h2, 5] []).raw.w 1) ((cmdAt opSignal [h2, 5] []).raw.w 2) 0
          (cmdReq 9 (cmdAt opSignal [h2, 5] []) .engine 0 .atomic) s1) = true)) ∧
    (Dispatched (disp opWait [h2, 5, 0]) 9 opWait (cmdAt opWait [h2, 5, 0] []) ∧
      (∃ o s1, objGet [] (hIndex ((cmdAt opWait [h2, 5, 0] []).raw.w 1)) (disp opWait [h2, 5, 0]) = .ok o s1 ∧
        answersBoth (fun t s2 => answers (fun _ => true) (eventValue [] o.part 9 t.1 s2))
          (trAct [] { cmdReq 9 (cmdAt opWait [h2, 5, 0] []) .engine (BitVec.ofNat 64 o.va) .read with ctx := o.ctx } s1) = true)) ∧
    (waitingUp.qe.cmds = [(9, { cmdAt opWait [h2, 5, 0] [] with phase := .running, work := .waiting 0xC00 0x30000 5 (some 90) })] ∧
      waitingUp.mv.chans = [] ∧ runsWork waitingUp = true) ∧
    (∃ v s', eventValue [] 0 9 0x30000 waitingUp = .ok v s' ∧ decide (s'.mv.chans = []) = true) ∧
    (Dispatched (disp opFlush []) 9 opFlush (cmdAt opFlush [] []) ∧ bit ((cmdAt opFlush [] []).raw.w 1) 0 = false) ∧
    (Dispatched (disp opFlush [1]) 9 opFlush (cmdAt opFlush [1] []) ∧ bit ((cmdAt opFlush [1] []).raw.w 1) 0 = true) ∧
    (∃ v s', eventValue [] 0 9 0x30000 (reach waitingUp 90) = .ok v s') :=
  ⟨by decide +kernel, dispatched _ _ (by decide +kernel), by decide +kernel, ⟨dispatched _ _ (by decide +kernel), both_ok (by decide +kernel)⟩,
    ⟨dispatched _ _ (by decide +kernel), both_ok (by decide +kernel)⟩, by decide +kernel, both_ok (by decide +kernel),
    ⟨dispatched _ _ (by decide +kernel), by decide⟩, ⟨dispatched _ _ (by decide +kernel), by decide⟩, answers_any (by decide +kernel)⟩

/-- Core 0 holds the line of an address for itself. -/
def coreHolds (s : State) (a : Nat) : State :=
  { s with ch := { s.ch with present := 1, ports := [(0, { hsnp := 8, hrsp := 8 })], dir := [(a / 64, ⟨.exc, [0], false, none, 0⟩)] } }

/-- Dispatch: a command that fails a check of its entries, one that waits for a core's line, one that does not, and no eligible queue;
WRITE_PIPS that stops at a page no table maps. -/
theorem wit_DispatchAndEngineCommands_stops :
    (entryFails wk.build ⟨0, 1, padTo 64 (leBytes 3 0x1017F), []⟩).isSome = true ∧
    (∀ cls < 4, (pickQueue wk cls).2 = none) ∧
    (dispatchWaits readyUp [] 0 0 nopCmd).isNone = true ∧
    (dispatchWaits (coreHolds readyUp 0x20080) [] 0 0 (cmdAt opSignal [h2, 5] []).raw).isSome = true ∧
    (Dispatched (withCmd wk (cmdAt opWritePips [0x80000000, 60] [pipEntry])) 9 opWritePips (cmdAt opWritePips [0x80000000, 60] [pipEntry])) ∧
    ((vaWrite (withCmd wk (cmdAt opWritePips [0x80000000, 60] [pipEntry])) []
        (cmdReq 9 (cmdAt opWritePips [0x80000000, 60] [pipEntry]) .engine (BitVec.ofNat 64 0x80000000) .write)
        (List.replicate 60 6) true (engineVia 0)).2.2.any fun k => decide (k ≠ .wait)) = true := by
  refine ⟨by decide +kernel, by decide +kernel, by decide +kernel, by decide +kernel, ⟨rfl, by decide +kernel, rfl, rfl⟩, by decide +kernel⟩

def ended (f : Cmd → Cmd) : State := withCmd wk (f { cmdAt opNop [] [] with phase := .finished })
def flushUp (x : Cmd) : State := { withCmd wk x with hosts := [(0, { flushes := [(4, ⟨64, ⟨0, 0⟩, none, 0, 5, [.cmd 9]⟩)] })] }
def msixUp : State :=
  { wk with hosts := [(0, { fns := [(0, { busMaster := true, msix := [(2047, { pending := true })] })] })] }
def fullRing (sret : Bool) : State :=
  withQueue wk (fun y => { y with cqTail := 63, comps := [⟨9, 0, 0, 0, 0, 1, 0, true, 0, 1⟩] }) fun x => { x with sret := sret, sretLog2 := 12, sretHead := 1 }

theorem wit_CommandsCompleteBehindTheirFlush :
    (cmdOf (ended id) 9 = some { cmdAt opNop [] [] with phase := .finished } ∧ runsWork (ended id) = true ∧
      (cmdAt opNop [] []).pins = [] ∧ (cmdAt opNop [] []).ports = [] ∧ (cmdAt opNop [] []).raw.cr = true ∧
      (ctxOf (ended id) 0).sret = false ∧ (queueOf (ended id) 0 0).comps = [] ∧ compRoom (queueOf (ended id) 0 0) = true ∧
      (queueOf (ended id) 0 0).cqHeld = none ∧ (queueOf (ended id) 0 0).desc.cqHost = true ∧
      fnIssues (ended id) (ctxFn (ended id) 0) = true) ∧
    (cmdOf (ended fun c => { c with ports := [(0, 64)] }) 9 = some { cmdAt opNop [] [] with phase := .finished, ports := [(0, 64)] }) ∧
    (let x : Cmd := { cmdAt opNop [] [] with phase := .flushing [4], raw := { nopCmd with ent := [] } }
     Tab.find? (hostPort (flushUp x) 0).flushes 4 = some ⟨64, ⟨0, 0⟩, none, 0, 5, [.cmd 9]⟩ ∧ cmdOf (flushUp x) 9 = some x ∧ x.raw.cr = false) ∧
    (fnExists msixUp ⟨0, 0⟩ = true ∧ (Tab.get {} (fnState msixUp ⟨0, 0⟩).msix 2047).pending = true ∧
      fnIssues msixUp ⟨0, 0⟩ = true ∧ msixUp.fc.cls = .run) ∧
    (runsWork (fullRing false) = true ∧ (ctxOf (fullRing false) 0).sret = false ∧ (queueOf (fullRing false) 0 0).comps ≠ [] ∧
      compRoom (queueOf (fullRing false) 0 0) = false) ∧
    (flushShared (ended fun c => { c with ports := [(0, 64)] }) 0 0 = none ∧
      flushShared (flushUp { cmdAt opNop [] [] with phase := .finished, ports := [(0, 64)] }) 0 0 = some 4) ∧
    (cmdOf wk 9 = none ∧ runsWork wk = true) ∧
    (∃ q < 8, (queueOf (fullRing true) 0 q).comps ≠ []) ∧
    ((ctxOf (fullRing true) 0).sret = true ∧ bounceFree (ctxOf (fullRing true) 0) < 2) := by decide +kernel

/-- The entry of context 0: VALID, partition 0, the PF of port 0. -/
def entry0 : List (Nat × List Byte) := [(0, leBytes 1 1)]
def ctxUp (f : Ctx → Ctx) : State := { work (entry0 ++ tables) with qe := { objBase := 0x20, objLog2 := 10, ctxs := [(0, f ctx0)] } }
def noCtx : State := { work (entry0 ++ tables) with qe := { objBase := 0x20, objLog2 := 10 } }

theorem wit_ContextOperationsAnswer :
    (barOk noCtx = true ∧ noCtx.qe.ctxOp.busy = false ∧ (ctxOf noCtx 0).st = .disabled ∧
      homeReady { noCtx with qe := { noCtx.qe with ctxOpCtx := 0 } } (ctxAddr noCtx 0) 512 false none [] =
        ({ noCtx with qe := { noCtx.qe with ctxOpCtx := 0 } }, true) ∧
      (homeRead (sysVia noCtx (ctxAddr noCtx 0)) [] noCtx (ctxAddr noCtx 0) 512).2.1 = .ok ∧
      (enableFrom noCtx 0 (homeRead (sysVia noCtx (ctxAddr noCtx 0)) [] noCtx (ctxAddr noCtx 0) 512).2.2).2 = rOk) ∧
    (barOk (ctxUp id) = true ∧ (ctxUp id).qe.ctxOp.busy = false ∧ (ctxOf (ctxUp id) 0).st = .enabled ∧
      (ctxOf (ctxUp id) 0).disabling = false ∧ cmdsOf (ctxUp id) 0 = [] ∧ heldSlots (ctxUp id) 0 = [] ∧
      (ctxOf (ctxUp id) 0).pinned = false ∧ pinnedIn (ctxUp id) 0 + 1 < (slotsOf (ctxUp id) 0).length) ∧
    (ctxOf (ctxUp fun x => { x with st := .faulted }) 0).st = .faulted ∧
    (let s := ctxUp fun x => { x with disabling := true, qs := [] }
     (ctxOf s 0).disabling = true ∧ ctxDrained s 0 = true ∧ runsWork s = true ∧
       homeReady s (ctxAddr s 0) 512 true none [] = (s, true)) ∧
    (let s := ctxUp fun x => { x with st := .aborting, qs := [] }
     (ctxOf s 0).st = .aborting ∧ cmdsOf s 0 = [] ∧ homeReady s (ctxAddr s 0) 512 true none [] = (s, true) ∧
       (dropCtxEntries (writeBack s [] 0).1 0).qe.aborts = []) := by decide +kernel

/-! ### Control commands, objects, mappings, invalidations, service ports -/

def slotHeld (reqs : List TrReq) : FltSlot := { st := .held, ctx := 0, deadline := 100, reqs := reqs }
def cmdTr : TrReq := { owner := .cmd 9, user := .engine, ctx := 0, va := 0, acc := .read }
def slotUp (op : Nat) (ws : List Nat) : State := { disp op ws with tu := { slots := [(255, slotHeld [])] } }
def heldCmd : Cmd := { cmdAt opNop [] [] with phase := .held 255 }
def heldUp : State := { withCmd wk heldCmd with tu := { slots := [(255, slotHeld [cmdTr])] } }
def noCtrl : State := withCmd (withQueue wk id fun x => { x with ctrl := false }) (cmdAt opAbort [0, 0, 0] [])

theorem slot_dispatched (ws : List Nat) (h : runsWork (slotUp opResume ws) = true ∧ (cmdAt opResume ws []).raw.opcode = opResume) :
    Dispatched (slotUp opResume ws) 9 opResume (cmdAt opResume ws []) := ⟨rfl, h.1, rfl, h.2⟩

theorem wit_ControlCommandsAndFaultSlots :
    (∀ m < 5, bits ((cmdAt opResume [0, m + 255 * 2 ^ 32] []).raw.w 2) 3 0 = m ∧
      (fltSlot (slotUp opResume [0, m + 255 * 2 ^ 32]) (bits ((cmdAt opResume [0, m + 255 * 2 ^ 32] []).raw.w 2) 39 32)).st = .held ∧
      ctxPart (slotUp opResume [0, m + 255 * 2 ^ 32]) (targetOf (cmdAt opResume [0, m + 255 * 2 ^ 32] [])) = some 0 ∧
      (ctxOf (slotUp opResume [0, m + 255 * 2 ^ 32]) 0).ctrl = true ∧ runsWork (slotUp opResume [0, m + 255 * 2 ^ 32]) = true ∧
      (fltSlot (slotUp opResume [0, m + 255 * 2 ^ 32]) (bits ((cmdAt opResume [0, m + 255 * 2 ^ 32] []).raw.w 2) 39 32)).ctx =
        targetOf (cmdAt opResume [0, m + 255 * 2 ^ 32] []) ∧
      (cmdAt opResume [0, m + 255 * 2 ^ 32] []).raw.opcode = opResume) ∧
    (ctxOf (withCmd (withQueue wk id fun x => { x with st := .faulted }) (cmdAt opResume [0, 0] [])) 0).st = .faulted ∧
    Dispatched (slotUp opResume [0, 4 + 255 * 2 ^ 32]) 9 opResume (cmdAt opResume [0, 4 + 255 * 2 ^ 32] []) ∧
    Dispatched (disp opAbort [0, 0, 0]) 9 opAbort (cmdAt opAbort [0, 0, 0] []) ∧ (ctxOf (disp opAbort [0, 0, 0]) 0).ctrl = true ∧
    (cmdAt opAbort [0, 0, 0] []).raw.w 2 = 0 ∧ (ctxOf noCtrl 0).ctrl = false ∧
    (barOk heldUp = true ∧ heldUp.tu.fltOp.busy = false ∧ (fltSlot heldUp 255).st = .held ∧ (fltSlot heldUp 255).reqs = [cmdTr] ∧
      cmdOf heldUp 9 = some heldCmd) ∧
    ((fltSlot (slotUp opNop []) 255).st = .held ∧ (fltSlot (slotUp opNop []) 255).reqs = [] ∧ runsWork (slotUp opNop []) = true) ∧
    (fltSlot heldUp 254).st ≠ .held :=
  ⟨by decide +kernel, by decide +kernel, slot_dispatched _ (by decide +kernel), dispatched _ _ (by decide +kernel), by decide +kernel⟩

/-- The working context with the entry of context 0 in memory. -/
def objUp : State := work (entry0 ++ tables ++ objects)
def drainUp (pins : Nat) : State := work (tables ++ [(0x20040, descBytes 2 0 1 0x100000 0x10000 ++ leBytes 4 pins)])
def pinned1 : Obj := objOf (padTo 64 (descBytes 1 0 1 0x100000 0x10000 ++ leBytes 4 1))

theorem wit_ObjectsAreCreatedAndFreed :
    (barOk objUp = true ∧ objUp.qe.objOp.busy = false ∧ objCount objUp ≤ (1024 : BitVec 32).toNat ∧
      (1 : BitVec 32).toNat < objCount objUp ∧ runsWork (drainUp 0) = true ∧ tableHeld (drainUp 0) 1 (objOf (padTo 64 (descBytes 2 0 1 0x100000 0x10000))) = false) ∧
    (∃ h s', createAct [] 3 { objUp with qe := { objUp.qe with objIndex := 3 } } = .ok h s' ∧ decide (h = mkHandle 5 0 3) = true) ∧
    (∃ o s', objGet [] 1 { objUp with qe := { objUp.qe with objIndex := 1 } } = .ok o s' ∧
      (decide (o.st = stLive) && answers (fun _ => true) (freeObj [] 1 o s')) = true) ∧
    Dispatched (disp opObjectFree [h1]) 9 opObjectFree (cmdAt opObjectFree [h1] []) ∧
    (∃ o s', objGet [] (hIndex ((cmdAt opObjectFree [h1] []).raw.w 1)) (disp opObjectFree [h1]) = .ok o s' ∧
      (decide (o.st = stLive ∧ o.gen = hGen ((cmdAt opObjectFree [h1] []).raw.w 1)) &&
        answers (fun _ => true) (freeObj [] (hIndex ((cmdAt opObjectFree [h1] []).raw.w 1)) o s')) = true) ∧
    (pinned1.ty ≠ tyEvent ∧ pinned1.pins ≠ 0) ∧
    (∃ o s', objGet [] 1 (drainUp 0) = .ok o s' ∧
      (decide (o.st = stDraining ∧ o.pins = 0) && answers (fun _ => true) (becomeFree [] 1 o o s')) = true) :=
  ⟨by decide +kernel, answers_ok (by decide +kernel), both_ok (by decide +kernel), dispatched _ _ (by decide +kernel),
    both_ok (by decide +kernel), by decide, both_ok (by decide +kernel)⟩

/-- Page tables below 1 GiB to 1 GiB + 2 MiB, with one leaf of 4 KiB or none. -/
def small (leaf : Nat) : List (Nat × List Byte) := [(0x12008, leBytes 3 0x13001), (0x13000, leBytes 3 0x14001), (0x14000, leBytes 3 leaf)]
def gib : Nat := 2 ^ 30
def mapCmd : Cmd := cmdAt opMap [gib, h1, 0, 4096, 6] []
def mapUp : State := withCmd (work (tables ++ small 0 ++ objects)) mapCmd
def unmapCmd (va len : Nat) : Cmd := cmdAt opUnmap [va, len] []
def unmapUp (va len : Nat) : State := withCmd (work (tables ++ small 0x100007)) (unmapCmd va len)

theorem map_dispatched : Dispatched mapUp 9 opMap mapCmd := by constructor <;> decide +kernel
theorem unmap_dispatched : Dispatched (unmapUp gib 4096) 9 opUnmap (unmapCmd gib 4096) := by constructor <;> decide +kernel
theorem unmap_odd_dispatched : Dispatched (unmapUp gib 4095) 9 opUnmap (unmapCmd gib 4095) := by constructor <;> decide +kernel

/-- Every action of a MAP that succeeds, in order. -/
def mapSteps : Bool :=
  let lo := 0x100000
  answersBoth (fun o s1 =>
    decide (0 + 4096 ≤ o.size ∧ o.va = lo) && bit (ctxOf s1 0).ttRoot 0 &&
    answersBoth (fun there s2 => decide (there = []) &&
      answersBoth (fun src s3 => covers lo (lo + 4096) src &&
        answersBoth (fun fit s4 => answers (fun _ => true) (placeAll [] 9 (cmdReq 9 mapCmd .engine 0 .write) 0 fit.flatten s4))
          (mapAll (fitPiece [] 0 4) (src.map (piecesOf lo 4096 gib 6)).flatten s3))
        (leavesOf false [] o.ctx lo (lo + 4096) s2))
      (leavesOf false [] 0 gib (gib + 4096) s1)) (objGet [] 1 mapUp)

/-- An UNMAP that waits for users, a MAP that was held, and an UNMAP of a page that a translation service port uses. -/
def invalidating : Cmd := { unmapCmd gib 4096 with work := .invalidating [.ts 63] }
def mapping : Cmd := { mapCmd with work := .mapping [] }
def usedUp : State :=
  { unmapUp gib 4096 with tu := { (unmapUp gib 4096).tu with tags := [(tsKey 0 63, ⟨0, BitVec.ofNat 64 gib, 0, false, .given 10 false, 0x40000, 12⟩)] } }

theorem wit_MapAndUnmapChangeLeaves :
    Dispatched mapUp 9 opMap mapCmd ∧ mapBusy mapUp 9 mapCmd = false ∧ mapCmd.work = .none ∧ mapCmd.ctx = 0 ∧
    (((mapCmd.raw.w 1).toNat, hIndex (mapCmd.raw.w 2), (mapCmd.raw.w 3).toNat, (mapCmd.raw.w 4).toNat, (mapCmd.raw.w 5).toNat) =
      (gib, 1, 0, 4096, 6)) ∧ attrOk 6 = true ∧ mapSteps = true ∧
    (Dispatched (unmapUp gib 4096) 9 opUnmap (unmapCmd gib 4096) ∧ mapBusy (unmapUp gib 4096) 9 (unmapCmd gib 4096) = false ∧
      (∃ ls s1, leavesOf false [] 0 gib (gib + 4096) (unmapUp gib 4096) = .ok ls s1 ∧
        (ls.all (fun l => decide (gib ≤ l.va ∧ l.va + l.size ≤ gib + 4096)) &&
          answersBoth (fun _ s2 => decide (invUsers s2 (.range 0 gib 4096) = [])) (forAll (fun l => putPte [] 0 l.va l.addr 0) ls s1)) = true)) ∧
    Dispatched (unmapUp gib 4095) 9 opUnmap (unmapCmd gib 4095) ∧ ((unmapCmd gib 4095).raw.w 2).toNat % 4096 ≠ 0 ∧
    (Dispatched (withCmd wk invalidating) 9 opUnmap invalidating ∧ mapBusy (withCmd wk invalidating) 9 invalidating = false) ∧
    (Dispatched (withCmd wk mapping) 9 opMap mapping ∧ mapBusy (withCmd wk mapping) 9 mapping = false ∧
      ∃ u s', placeAll [] 9 (cmdReq 9 mapping .engine 0 .write) 0 [] (withCmd wk mapping) = .ok u s') ∧
    (∃ ls s1, leavesOf false [] 0 gib (gib + 4096) usedUp = .ok ls s1 ∧
      answersBoth (fun _ s2 => decide (invUsers s2 (.range 0 gib 4096) ≠ [])) (forAll (fun l => putPte [] 0 l.va l.addr 0) ls s1) = true) :=
  ⟨map_dispatched, by decide +kernel, by decide +kernel, by decide +kernel, by decide +kernel, by decide +kernel, by decide +kernel,
    ⟨unmap_dispatched, by decide +kernel, both_ok (by decide +kernel)⟩, unmap_odd_dispatched, by decide +kernel,
    ⟨⟨rfl, by decide, rfl, rfl⟩, by decide +kernel⟩, ⟨⟨rfl, by decide, rfl, rfl⟩, by decide +kernel, answers_any (by decide +kernel)⟩,
    both_ok (by decide +kernel)⟩

def winTr : TrReq := { owner := .free, user := .engine, ctx := 0, va := 0x30008, acc := .write }

theorem wit_TranslationsObeyTheirLeaf : (translate wk [] winTr).2 = .ok 0x30008 0x87 30 ∧ runsWork wk = true ∧
    (translate (coreHolds wk 0x12000) [] winTr).2 = .wait := by decide +kernel

def tlbUp : State :=
  { wk with tu := { l1 := [⟨0, 0, 5, 12, 7⟩, ⟨0, 1, 5, 12, 7⟩], l2 := [⟨0, 0, 5, 12, 7⟩], invVa := 5, invLen := 1
                    inv := some ⟨.all, false, [.ts 4]⟩, pools := [(3, { waiting := [0x40000000] })], retBusy := true
                    tags := [(tsKey 0 63, ⟨4, 0x5000, 0, false, .given 10 false, 5, 12⟩)] } }

theorem wit_InvalidationsPoolsAndSlices :
    (barOk tlbUp = true ∧ tlbUp.tu.invOp.busy = false ∧ tlbUp.tu.invLen ≠ 0 ∧ wk.tu.invLen = 0 ∧ barOk wk = true ∧ wk.tu.retBusy = false) ∧
    (tlbUp.tu.inv = some ⟨.all, false, [.ts 4]⟩ ∧ waitHolds tlbUp (.ts 4) = true ∧ tlbUp.tu.passes = [] ∧
      waitHolds { tlbUp with tu := { tlbUp.tu with tags := [] } } (.ts 4) = false) ∧
    (7 < tlbUp.build.partitions ∧ (poolOf tlbUp (BitVec.ofNat 3 0) 3).waiting = [0x40000000] ∧
      (poolOf tlbUp (BitVec.ofNat 3 7) 3).waiting = []) ∧
    ((0x7FFF : BitVec 16).toNat &&& maskOf wk.build.pageSlices ≠ maskOf wk.build.pageSlices ∧
      (0x7FFF : BitVec 16).toNat &&& maskOf wk.build.pageSlices ≠ wk.tu.retire.toNat ∧ wk.build.pageSlices ≤ 16 ∧
      (0xFFFF : BitVec 16).toNat &&& maskOf wk.build.pageSlices = maskOf wk.build.pageSlices) ∧ tlbUp.tu.retBusy = true := by decide +kernel

def sloeE (k p : Nat) : SloeEst := { slice := k, served := 64, p99 := p }
def sloeUp : State := { wk with build := { Build.full with pageSlices := 3 } }

theorem wit_ServicePortsAndSloe :
    (15 < wk.build.tsPorts ∧ runsWork wk = true ∧ Tab.find? wk.tu.tags (tsKey 15 63) = none ∧ (tsPart wk 15).isSome = true ∧
      ctxPart wk 0 = tsPart wk 15 ∧
      (translate (fresh wk).1 [] { owner := .service 15 63, user := .service, ctx := 0, va := (0x30000 : BitVec 57).setWidth 64
                                   acc := .write }).2 = .ok 0x30000 0x87 30) ∧
    (tsPart { wk with ps := { wk.ps with own := [] } } 15).isNone = true ∧
    (Tab.find? tlbUp.tu.tags (tsKey 0 63) = some ⟨4, 0x5000, 0, false, .given 10 false, 5, 12⟩ ∧ tlbUp.tp.ready = true ∧
      (invWaiters tlbUp).contains (.ts 4) = true) ∧
    (sloeUp.tp.ready = true ∧ sloeLive sloeUp .pageSlices = [0, 1, 2] ∧
      sloeUp.fc.sloeFactor.toNat * (2 * (sloeE 1 10).p99) ≤ 32 * (sloeE 0 40).p99 ∧ (sloeE 1 10).p99 = (sloeE 2 10).p99 ∧
      sloeUp.fc.sloeConsec = 0 ∧ (Tab.get {} sloeUp.fc.sloe (sloeInst .pageSlices * 64 + 0)).reported = false) := by decide +kernel

/-! ### A steady translation: one page of 1 GiB in the TLBs, and no room for its table lines in the walk cache -/

/-- Lines that fill the directory sets of the table lines, of the version line at 0x50000 and of the control line at 0x53000. -/
def fill : Tab DirEnt := (List.range 16).flatMap fun k =>
  [4096 * (4 * k + 100), 4096 * (4 * k + 101) + 0x400, 4096 * (4 * k + 101) + 0x4C0].map fun l => (l, ⟨.shd, [0], false, none, 0⟩)
def farTables : List (Nat × List Byte) :=
  [(0x400000, leBytes 3 0x800001), (0x800000, leBytes 3 0xC00001), (0xC00000, leBytes 1 0x87)]
def page0 : TlbEnt := ⟨pageSlice up 0 0, 0, 0, 30, 0x87⟩
/-- The working context with other memory, its page in the TLBs. -/
def steady (m : List (Nat × List Byte)) : State :=
  { work (farTables ++ m) with
    qe := { (work []).qe with ctxs := [(0, { ctx0 with ttRoot := 0x400001 })] }
    tu := { l1 := [page0], l2 := [page0] }, ch := { (work []).ch with dir := fill } }

/-- A request meets the page that stands in the TLBs, and a walk would find the same leaf and change nothing. -/
abbrev Still (s : State) (r : TrReq) : Prop :=
  r.va.toNat / 2 ^ 57 = 0 ∧ walk s [] r.ctx r.va (r.owner.born s) = (s, .leaf 0x87 30) ∧ (tlbFill s r.ctx r.va 0x87 30).tu = s.tu ∧
  (s.tu.l1 = [page0] ∧ s.tu.l2 = [page0]) ∧ checkAccess r.user r.acc 0x87 = .pass ∧ s.ps.traceSrc.getLsbD 1 = false

theorem find_one (p q : TlbEnt → Bool) (e : TlbEnt) :
    (match [e].find? p with | some e => some e | none => [e].find? q) = some e ∨
    (match [e].find? p with | some e => some e | none => [e].find? q) = none := by
  simp only [List.find?]
  cases p e <;> cases q e <;> simp

/-- Whether or not the TLBs still hold the page, the translation answers the same and changes nothing. -/
theorem translate_still {s : State} {r : TrReq} (h : Still s r) :
    translate s [] r = (s, .ok (leafAddr 0x87 30 r.va) 0x87 30) := by
  obtain ⟨low, hw, fillTu, one, pass, off⟩ := h
  have fill : tlbFill s r.ctx r.va 0x87 30 = s := by
    have h : tlbFill s r.ctx r.va 0x87 30 = { s with tu := (tlbFill s r.ctx r.va 0x87 30).tu } := rfl
    rw [h, fillTu]
  have same : ∀ a, traceVa s r a = s := by
    intro a
    unfold traceVa traceAdd
    simp only [off, Bool.false_and]
    rfl
  have find : tlbFind s r.ctx r.va = some page0 ∨ tlbFind s r.ctx r.va = none := by
    unfold tlbFind
    rw [one.1, one.2]
    exact find_one _ _ _
  unfold Machine.translate
  rw [if_neg (fun h => h low)]
  rcases find with hf | hf <;> rw [hf]
  · simp only [show page0.pte = 0x87 from rfl, show page0.sz = 30 from rfl, pass, if_true, same]
  · simp only [hw, pass, fill, same]

/-- The physical address of a virtual address of the page. -/
def flat (va : Word) : Nat := leafAddr 0x87 30 (va + BitVec.ofNat 64 0)
def at0 (r : TrReq) : TrReq := { r with va := r.va + BitVec.ofNat 64 0 }

theorem ready_still {s : State} {a n : Nat} {wr : Bool} {p : Option (BitVec 3)}
    (h : ((linesOf a n).all fun l => !lineBlocked s l wr) = true) : homeReady s a n wr p [] = (s, true) := by
  unfold homeReady
  generalize linesOf a n = l at h
  induction l with
  | nil => rfl
  | cons x t ih =>
    rw [List.all_cons, Bool.and_eq_true] at h
    rw [List.foldl_cons, if_neg (by simpa using h.1)]
    exact ih h.2

theorem read_still {s : State} {a n : Nat} {v : Via} (h : ((linesOf a n).all fun l => lineStatus s v [] l true = .ok) = true) :
    memRead v [] s a n = (s, .ok, s.mem.bytes s.free a n) := by
  unfold memRead
  suffices hs : ∀ l : List Nat, (l.all fun l => lineStatus s v [] l true = .ok) = true → l.foldl (fun (x : State × BusStatus) l =>
      let st := lineStatus x.1 v [] l true
      (reportBus x.1 v st (64 * l) 0, if x.2 = .ok then st else x.2)) (s, BusStatus.ok) = (s, .ok) by
    rw [hs _ h]
  intro l h
  induction l with
  | nil => rfl
  | cons x t ih =>
    rw [List.all_cons, Bool.and_eq_true] at h
    rw [List.foldl_cons, of_decide_eq_true h.1]
    exact ih h.2

/-- A read leaves an agent of the complex no line that it does not hold already. -/
def holdsStill (s : State) (v : Via) (l : Nat) : Bool :=
  match v.agent with
  | none => true
  | some g => holds s g l || ((dirEnt s l).isNone && setFull s l)

theorem holdLine_still {s : State} {g l : Nat} (h : (holds s g l || ((dirEnt s l).isNone && setFull s l)) = true) : holdLine s g l = s := by
  unfold holdLine
  split
  · rfl
  · rename_i hn
    rw [Bool.not_eq_true] at hn
    rw [hn, Bool.false_or, Bool.and_eq_true] at h
    rw [Option.isNone_iff_eq_none.mp h.1]
    simp [h.2]

theorem homeRead_still {s : State} {a n : Nat} {v : Via} (h : ((linesOf a n).all fun l => lineStatus s v [] l true = .ok) = true)
    (hk : ((linesOf a n).all (holdsStill s v)) = true) : (homeRead v [] s a n).1 = s := by
  unfold homeRead
  rw [read_still h]
  unfold holdsStill at hk
  dsimp only
  cases hg : v.agent with
  | none => rfl
  | some g =>
    simp only [hg] at hk
    simp only [if_true]
    unfold each
    generalize linesOf a n = l at hk
    induction l with
    | nil => rfl
    | cons x t ih =>
      rw [List.all_cons, Bool.and_eq_true] at hk
      rw [List.foldl_cons, holdLine_still hk.1]
      exact ih hk.2

/-- A request of the complex names the owner that it was issued for. -/
def bornVia (s : State) (r : TrReq) (v : Via) : Via := { v with born := r.owner.born s }

/-- A read of one part at a page that stands still, and the bytes. -/
abbrev ReadStill (s : State) (r : TrReq) (n : Nat) (home : Bool) (v : Via) (bs : List Byte) : Prop :=
  Still s (at0 r) ∧ cutsOf r.va.toNat n = [(0, n)] ∧ ((linesOf (flat r.va) n).all fun l => !lineBlocked s l false) = true ∧
  ((linesOf (flat r.va) n).all fun l => lineStatus s (bornVia s r v) [] l true = .ok) = true ∧
  ((linesOf (flat r.va) n).all (holdsStill s (bornVia s r v))) = true ∧
  (if home then (homeRead (bornVia s r v) [] s (flat r.va) n).2.2 else s.mem.bytes s.free (flat r.va) n) = bs

theorem vaRead_still {s : State} {r : TrReq} {n : Nat} {home : Bool} {via : State → Nat → Via} {bs : List Byte}
    (h : ReadStill s r n home (via s (flat r.va)) bs) : vaRead s [] r n home via = (s, .ok bs) := by
  obtain ⟨ht, hc, h1, h2, h4, h3⟩ := h
  unfold vaRead
  rw [hc]
  have := translate_still ht
  unfold at0 at this
  simp only [List.foldl, this]
  rw [if_neg (by decide)]
  have hr := read_still h2
  cases home with
  | true =>
    have hh : homeRead (bornVia s r (via s (flat r.va))) [] s (flat r.va) n = (s, .ok, bs) := by
      have e1 := homeRead_still h2 h4
      have e2 : (homeRead (bornVia s r (via s (flat r.va))) [] s (flat r.va) n).2.1 = .ok := by
        unfold homeRead
        rw [hr]
      rw [← h3]
      exact Prod.ext e1 (Prod.ext e2 rfl)
    unfold flat at h1 hh
    unfold bornVia at hh
    simp only [if_true, ready_still h1, hh]
    rfl
  | false =>
    have h3' : s.mem.bytes s.free (flat r.va) n = bs := h3
    unfold flat at hr h3'
    unfold bornVia at hr
    simp only [Bool.false_eq_true, if_false, hr, h3']
    rfl

/-- The state after a write of one part at a page that stands still. -/
def writeAt (s : State) (r : TrReq) (bs : List Byte) (home : Bool) (v : Via) : State × BusStatus :=
  if home then homeWrite (bornVia s r v) [] s (flat r.va) bs else memWrite (bornVia s r v) [] s (flat r.va) bs false

/-- A write of one part at a page that stands still. -/
abbrev WriteStill (s : State) (r : TrReq) (bs : List Byte) (home : Bool) (v : Via) : Prop :=
  Still s (at0 r) ∧ cutsOf r.va.toNat bs.length = [(0, bs.length)] ∧
  ((linesOf (flat r.va) bs.length).all fun l => !lineBlocked s l true) = true ∧ (writeAt s r bs home v).2 = .ok

theorem vaWrite_still {s : State} {r : TrReq} {bs : List Byte} {home : Bool} {via : State → Nat → Via}
    (h : WriteStill s r bs home (via s (flat r.va))) :
    vaWrite s [] r bs home via = ((writeAt s r bs home (via s (flat r.va))).1, bs.length, none) := by
  obtain ⟨ht, hc, h1, h2⟩ := h
  unfold vaWrite
  rw [hc]
  have := translate_still ht
  unfold at0 at this
  simp only [List.foldl, this]
  rw [if_neg (by decide)]
  have hr : ∀ p, (if home then homeReady s (flat r.va) bs.length true p [] else (s, true)) = (s, true) := by
    intro p
    cases home
    · rfl
    · exact ready_still h1
  unfold writeAt bornVia at *
  unfold flat at *
  simp only [hr, List.drop_zero, List.take_length, h2]
  simp

/-- A version line is read at a page that stands still. -/
theorem vlineGet_still {s : State} {r : TrReq} {o : Obj} {bs : List Byte}
    (h : ReadStill s (vlineReq r o .read) 64 true (versionVia o.part s (flat (vlineReq r o .read).va)) bs) :
    vlineGet [] r o s = .ok (vlineOf bs) s := by
  unfold vlineGet
  show EStateM.bind _ _ s = _
  unfold EStateM.bind lineRead act
  simp only [vaRead_still h]
  rfl

/-- A version line is written at a page that stands still. -/
theorem vlinePut_still {s : State} {r : TrReq} {i : Nat} {o : Obj} {v : VLine}
    (h : WriteStill s (vlineReq r o .write) v.bytes true (versionVia o.part s (flat (vlineReq r o .write).va))) :
    vlinePut [] r i o v s =
      .ok () (writeAt s (vlineReq r o .write) v.bytes true (versionVia o.part s (flat (vlineReq r o .write).va))).1 := by
  unfold vlinePut onEnd lineWrite vaPut
  simp only [vaWrite_still h]

theorem then_ok {α β : Type} {m : Act α} {f : α → Act β} {s s' : State} {a : α} (h : m s = .ok a s') : (m >>= f) s = f a s' := by
  show EStateM.bind m f s = _
  unfold EStateM.bind
  rw [h]

/-- The state where an action ends. -/
def after {α : Type} (r : EStateM.Result Stop State α) : State :=
  match r with
  | .ok _ s => s
  | .error _ s => s

theorem ok_eq {α : Type} [DecidableEq α] {r : EStateM.Result Stop State α} {a : α} {t : State}
    (h : answersBoth (fun x u => decide (x = a ∧ u = t)) r = true) : r = .ok a t := by
  obtain ⟨x, u, h1, h2⟩ := both_ok h
  rw [h1, (of_decide_eq_true h2).1, (of_decide_eq_true h2).2]


/-! ### Table versions -/

/-- Object 5 is a table of 256 rows of 16 B whose regions of 2 MiB start at 1 GiB, with its version line at 0x50000. -/
def tableBytes (keyVa : Nat) : List Byte :=
  padTo 32 (descBytes 1 1 1 gib 4096) ++ leBytes 8 keyVa ++ leBytes 8 gib ++ leBytes 8 0x50000 ++ leBytes 4 256 ++ leBytes 2 16 ++ [21, 0]
def table5 : Obj := objOf (tableBytes 0)
def line1 : VLine := { vlineOf [] with ver := 1 }
/-- The current region holds one leaf of 2 MiB, and the other one what is given. -/
def regions (cur other : Nat) : List (Nat × List Byte) :=
  [(0xC00008, leBytes 3 0xC10001), (0xC10000, leBytes 3 cur), (0xC10008, leBytes 4 other)]
def verUp (c : Cmd) (v : VLine) (other : Nat) : State :=
  withCmd (steady ([(0x20140, tableBytes 0), (0x50000, v.bytes)] ++ regions 0xE00087 other)) c
def h5 : Nat := 2 ^ 48 + 5
def verReq (c : Cmd) : TrReq := cmdReq 9 c .engine 0 .read
def putAt (s : State) (r : TrReq) (o : Obj) (v : VLine) : State :=
  (writeAt s (vlineReq r o .write) v.bytes true (versionVia o.part s (flat (vlineReq r o .write).va))).1
abbrev Gets (s : State) (r : TrReq) (o : Obj) (v : VLine) : Prop :=
  ReadStill s (vlineReq r o .read) 64 true (versionVia o.part s (flat (vlineReq r o .read).va)) v.bytes ∧ vlineOf v.bytes = v
abbrev Puts (s : State) (r : TrReq) (o : Obj) (v : VLine) : Prop :=
  WriteStill s (vlineReq r o .write) v.bytes true (versionVia o.part s (flat (vlineReq r o .write).va))

theorem gets {s : State} {r : TrReq} {o : Obj} {v : VLine} (h : Gets s r o v) : vlineGet [] r o s = .ok v s := by
  rw [vlineGet_still h.1, h.2]
theorem puts {s : State} {r : TrReq} {i : Nat} {o : Obj} {v : VLine} (h : Puts s r o v) :
    vlinePut [] r i o v s = .ok () (putAt s r o v) := vlinePut_still h
/-- An action answers a value and goes where `after` says. -/
abbrev Does {α : Type} [DecidableEq α] (m : Act α) (s : State) (a : α) : Prop :=
  answersBoth (fun x _ => decide (x = a)) (m s) = true
theorem does {α : Type} [DecidableEq α] {m : Act α} {s : State} {a : α} (h : Does m s a) : m s = .ok a (after (m s)) := by
  obtain ⟨x, u, h1, h2⟩ := both_ok h
  rw [h1, of_decide_eq_true h2]
  rfl
/-- The same, where it goes to a given state. -/
theorem doesTo {α : Type} [DecidableEq α] {m : Act α} {s t : State} {a : α} (h : Does m s a) (ht : after (m s) = t) : m s = .ok a t := by
  rw [← ht]
  exact does h

def openCmd : Cmd := cmdAt opOpenVersion [h5, 0, 0] []
def open0 : State := verUp openCmd line1 0
def open3 : State := putAt open0 (verReq openCmd) table5 { line1 with opening := true }
def open4 : State := after (shareLeaves [] table5 false open3)
def open5 : State := invDrop open4 (.range 0 gib (2 ^ 21)) false


theorem facts_opening : (decide (runsWork open0 = true) &&
    decide (Does (objGet [] 5) open0 table5) &&
    decide (after (objGet [] 5 open0) = open0) &&
    decide (Gets open0 (verReq openCmd) table5 line1) &&
    decide (Puts open0 (verReq openCmd) table5 { line1 with opening := true }) &&
    decide (Does (shareLeaves [] table5 false) open3 ()) &&
    decide (invUsers open4 (.range 0 gib (2 ^ 21)) = []) &&
    decide (Gets open5 (verReq openCmd) table5 { line1 with opening := true }) &&
    decide (Puts open5 (verReq openCmd) table5 { line1 with pending := true })) = true := by
  decide +kernel

theorem wit_VersionsOpenFlipAndRetire_open :
    (Dispatched open0 9 opOpenVersion openCmd ∧ bits (openCmd.raw.w 2) 1 0 = 0 ∧ openCmd.work = .none ∧ bit (openCmd.raw.w 3) 63 = false) ∧
    (hIndex (openCmd.raw.w 1) = 5 ∧ table5.ctx = 0 ∧ table5.part = 0 ∧ (tableDesc table5.raw).region false = gib ∧
      (tableDesc table5.raw).regionLog2 = 21 ∧ line1.pending = false ∧ line1.opening = false ∧ line1.aborting = false ∧
      line1.draining = false ∧ line1.slot = false ∧ line1.ver ≠ 0x3FFFFFFF) ∧
    objGet [] 5 open0 = .ok table5 open0 ∧ vlineGet [] (verReq openCmd) table5 open0 = .ok line1 open0 ∧
    vlinePut [] (verReq openCmd) 5 table5 { line1 with opening := true } open0 = .ok () open3 ∧
    shareLeaves [] table5 false open3 = .ok () open4 ∧ invUsers open4 (.range 0 gib (2 ^ 21)) = [] ∧
    vlineGet [] (verReq openCmd) table5 open5 = .ok { line1 with opening := true } open5 ∧
    vlinePut [] (verReq openCmd) 5 table5 { line1 with pending := true } open5 =
      .ok () (putAt open5 (verReq openCmd) table5 { line1 with pending := true }) := by
  have h := facts_opening
  simp only [Bool.and_eq_true, decide_eq_true_eq] at h
  obtain ⟨⟨⟨⟨⟨⟨⟨⟨f0, f1⟩, f2⟩, f3⟩, f4⟩, f5⟩, f6⟩, f7⟩, f8⟩ := h
  exact ⟨⟨⟨rfl, f0, rfl, by decide +kernel⟩, by decide +kernel⟩, by decide +kernel, doesTo f1 f2, gets f3, puts f4, does f5, f6, gets f7,
    puts f8⟩


/-- A pending version whose region holds one private leaf. -/
def linePend : VLine := { line1 with pending := true }
def abortCmd : Cmd := cmdAt opOpenVersion [h5, 1, 0] []
def abort0 : State := verUp abortCmd linePend 0x1000087
def abort2 : State := putAt abort0 (verReq abortCmd) table5 { linePend with aborting := true }
def abort3 : State := wwPump (failObjAps abort2 5 1) []
def abort3' : State := updCmd abort3 9 fun c => { c with work := .abortWait }
def abort4 : State := after (clearRegion [] table5 true abort3')
def rangeA : InvScope := .range 0 gib (2 ^ 21)
def rangeB : InvScope := .range 0 (gib + 2 ^ 21) (2 ^ 21)
def abort5 : State :=
  updCmd (pushAll (invDrop (invDrop abort4 rangeA false) rangeB false) [] 0 [(11, 1, 0x1000000)]) 9 fun c => { c with work := .abortInval [] [] }
/-- The sweep finds no index, and knows from now on that none was written. -/
def abort6 : State := after (sweepTable [] (verReq abortCmd) 5 2 abort5)

theorem facts_aborting : (decide (runsWork abort0 = true) &&
    decide (Does (objGet [] 5) abort0 table5) &&
    decide (after (objGet [] 5 abort0) = abort0) &&
    decide (Gets abort0 (verReq abortCmd) table5 linePend) &&
    decide (Puts abort0 (verReq abortCmd) table5 { linePend with aborting := true }) &&
    decide (tableBusy abort3 5 9 = false) &&
    decide (Does (clearRegion [] table5 true) abort3' [(11, 1, 0x1000000)]) &&
    decide (invUsers abort4 rangeA = []) &&
    decide (invUsers (invDrop abort4 rangeA false) rangeB = [] ∧ poolsQuiet abort5 0 = true ∧ table5.gen = 1) &&
    decide (Gets abort5 (verReq abortCmd) table5 { linePend with aborting := true }) &&
    decide (Does (sweepTable [] (verReq abortCmd) 5 2) abort5 ()) &&
    decide (Puts abort6 (verReq abortCmd) table5 line1)) = true := by
  decide +kernel

theorem wit_VersionsOpenFlipAndRetire_abort :
    (Dispatched abort0 9 opOpenVersion abortCmd ∧ bits (abortCmd.raw.w 2) 1 0 = 1 ∧ abortCmd.work = .none ∧ hIndex (abortCmd.raw.w 1) = 5) ∧
    (linePend.pending = true ∧ linePend.opening = false ∧ linePend.aborting = false ∧ linePend.slot = false ∧
      bothRegions table5 = [rangeA, rangeB] ∧ tableBusy abort3 5 9 = false ∧ invUsers abort4 rangeA = [] ∧
      invUsers (invDrop abort4 rangeA false) rangeB = [] ∧ poolsQuiet abort5 0 = true ∧ table5.gen = 1) ∧
    objGet [] 5 abort0 = .ok table5 abort0 ∧ vlineGet [] (verReq abortCmd) table5 abort0 = .ok linePend abort0 ∧
    vlinePut [] (verReq abortCmd) 5 table5 { linePend with aborting := true } abort0 = .ok () abort2 ∧
    clearRegion [] table5 true abort3' = .ok [(11, 1, 0x1000000)] abort4 ∧
    vlineGet [] (verReq abortCmd) table5 abort5 = .ok { linePend with aborting := true } abort5 ∧
    sweepTable [] (verReq abortCmd) 5 2 abort5 = .ok () abort6 ∧
    vlinePut [] (verReq abortCmd) 5 table5 line1 abort6 = .ok () (putAt abort6 (verReq abortCmd) table5 line1) := by
  have h := facts_aborting
  simp only [Bool.and_eq_true, decide_eq_true_eq] at h
  obtain ⟨⟨⟨⟨⟨⟨⟨⟨⟨⟨⟨f0, f1⟩, f2⟩, f3⟩, f4⟩, f5⟩, f6⟩, f7⟩, f8⟩, f9⟩, f10⟩, f11⟩ := h
  exact ⟨⟨⟨rfl, f0, rfl, by decide +kernel⟩, by decide +kernel⟩, ⟨rfl, rfl, rfl, rfl, by decide +kernel, f5, f7, f8.1, f8.2.1, f8.2.2⟩, doesTo f1 f2, gets f3, puts f4, does f6,
    gets f9, does f10, puts f11⟩


/-- A flip, dispatched and waiting. -/
def flipCmd : Cmd := cmdAt opTableFlip [h5, 0, 0] []
def flip0 : State := verUp flipCmd linePend 0xE00187
def flipWaits : Cmd := { flipCmd with work := .flipWait, phase := .running }
def flip1 : State := verUp flipWaits linePend 0xE00187

def lineFlipped : VLine := { linePend with slot := true, ver := 2, pending := false, draining := true, flips := 1 }

theorem facts_flipping : (decide (runsWork flip0 = true) &&
    decide (objHasAp flip0 5 table5.gen = false) &&
    decide (Does (objGet [] 5) flip0 table5) &&
    decide (after (objGet [] 5 flip0) = flip0) &&
    decide (Gets flip0 (verReq flipCmd) table5 linePend) &&
    decide (runsWork flip1 = true ∧ tableBusy flip1 5 9 = false ∧ keyCmdBusy flip1 5 9 = false) &&
    decide (Does (objGet [] 5) flip1 table5) &&
    decide (after (objGet [] 5 flip1) = flip1) &&
    decide (Gets flip1 (verReq flipWaits) table5 linePend) &&
    decide (Puts flip1 (verReq flipWaits) table5 lineFlipped)) = true := by
  decide +kernel

theorem wit_VersionsOpenFlipAndRetire_flip :
    (Dispatched flip0 9 opTableFlip flipCmd ∧ objHasAp flip0 5 table5.gen = false ∧ hIndex (flipCmd.raw.w 1) = 5) ∧
    (cmdOf flip1 9 = some flipWaits ∧ flipWaits.work = .flipWait ∧ flipWaits.phase = .running ∧ runsWork flip1 = true ∧
      tableBusy flip1 5 9 = false ∧ keyCmdBusy flip1 5 9 = false ∧ flipWaits.raw.w 2 = 0 ∧ flipWaits.raw.w 3 = 0) ∧
    objGet [] 5 flip0 = .ok table5 flip0 ∧ vlineGet [] (verReq flipCmd) table5 flip0 = .ok linePend flip0 ∧
    objGet [] 5 flip1 = .ok table5 flip1 ∧ vlineGet [] (verReq flipWaits) table5 flip1 = .ok linePend flip1 ∧
    vlinePut [] (verReq flipWaits) 5 table5 lineFlipped flip1 = .ok () (putAt flip1 (verReq flipWaits) table5 lineFlipped) := by
  have h := facts_flipping
  simp only [Bool.and_eq_true, decide_eq_true_eq] at h
  obtain ⟨⟨⟨⟨⟨⟨⟨⟨⟨f0, f1⟩, f2⟩, f3⟩, f4⟩, f5⟩, f6⟩, f7⟩, f8⟩, f9⟩ := h
  exact ⟨⟨⟨rfl, f0, rfl, by decide +kernel⟩, f1, by decide +kernel⟩, ⟨rfl, rfl, rfl, f5.1, f5.2.1, f5.2.2, by decide +kernel⟩, doesTo f2 f3, gets f4,
    doesTo f6 f7, gets f8, puts f9⟩


/-- A table that drains its old version, whose one leaf is shared; object 6 is the event of the flip, on a page of 2 MiB. -/
def lineDrain : VLine := { line1 with ver := 2, slot := true, draining := true, retEvent := mkHandle 1 0 6, retValue := 7 }
def ret0 : State :=
  steady ([(0x20140, tableBytes 0), (0x20180, descBytes 1 2 1 (gib + 0x403000) 8), (0x50000, lineDrain.bytes), (0xC10010, leBytes 3 0x200087)] ++
    regions 0xE00187 0xE00187)
def ret3 : State := after (clearRegion [] table5 false ret0)
def ret4 : State := after (beginPass 5 0 (bothRegions table5) true [] ret3)
def ret4' : State := dropPass (pumpPasses ret4 []) 5
def lineRetired : VLine := { lineDrain with draining := false, retires := 1 }
def ret5 : State := putAt ret4' selfReq table5 lineRetired

theorem facts_retiring : (decide (runsWork ret0 = true) &&
    decide (5 < objCount ret0) &&
    decide (releaseDue ret0 [] 5 = ret0) &&
    decide (passOf ret0 5 = none) &&
    decide (passOf (pumpPasses ret4 []) 5 = some ⟨5, 0, [], [], true⟩) &&
    decide (poolsQuiet (pumpPasses ret4 []) 0 = true) &&
    decide (Does (objGet [] 5) ret0 table5) &&
    decide (after (objGet [] 5 ret0) = ret0) &&
    decide (Gets ret0 selfReq table5 lineDrain) &&
    decide (Does (clearRegion [] table5 false) ret0 []) &&
    decide (Does (beginPass 5 0 (bothRegions table5) true []) ret3 ()) &&
    decide (Puts ret4' selfReq table5 lineRetired)) = true := by
  decide +kernel

theorem wit_VersionsOpenFlipAndRetire_retire : (runsWork ret0 = true ∧ (5 : BitVec 32).toNat < objCount ret0 ∧ releaseDue ret0 [] 5 = ret0 ∧ table5.ty = tyTable ∧
      table5.st = stLive ∧ lineDrain.draining = true ∧ lineDrain.slot = true ∧ lineDrain.pins false = 0 ∧ passOf ret0 5 = none ∧
      passOf (pumpPasses ret4 []) 5 = some ⟨5, 0, [], [], true⟩ ∧ poolsQuiet (pumpPasses ret4 []) 0 = true ∧ lineDrain.retEvent ≠ 0) ∧
    objGet [] 5 ret0 = .ok table5 ret0 ∧ vlineGet [] selfReq table5 ret0 = .ok lineDrain ret0 ∧
    clearRegion [] table5 false ret0 = .ok [] ret3 ∧ beginPass 5 0 (bothRegions table5) true [] ret3 = .ok () ret4 ∧
    vlinePut [] selfReq 5 table5 lineRetired ret4' = .ok () ret5 := by
  have h := facts_retiring
  simp only [Bool.and_eq_true, decide_eq_true_eq] at h
  obtain ⟨⟨⟨⟨⟨⟨⟨⟨⟨⟨⟨f0, f1⟩, f2⟩, f3⟩, f4⟩, f5⟩, f6⟩, f7⟩, f8⟩, f9⟩, f10⟩, f11⟩ := h
  exact ⟨⟨f0, f1, f2, by decide +kernel, by decide +kernel, rfl, rfl, rfl, f3, f4, f5, by decide +kernel⟩, doesTo f6 f7, gets f8, does f9, does f10, puts f11⟩


/-- An open of a table with a pending version, and a flip of one without. -/
def openBad : State := verUp openCmd linePend 0
def flipBad : State := verUp flipCmd line1 0

theorem facts_version_state : (decide (runsWork openBad = true ∧ runsWork flipBad = true) &&
    decide (Does (objGet [] 5) openBad table5) &&
    decide (after (objGet [] 5 openBad) = openBad) &&
    decide (Gets openBad (verReq openCmd) table5 linePend) &&
    decide (Does (objGet [] 5) flipBad table5) &&
    decide (after (objGet [] 5 flipBad) = flipBad) &&
    decide (Gets flipBad (verReq flipCmd) table5 line1)) = true := by
  decide +kernel

theorem wit_VersionsOpenFlipAndRetire_state :
    (Dispatched openBad 9 opOpenVersion openCmd ∧ linePend.pending = true ∧ Dispatched flipBad 9 opTableFlip flipCmd ∧
      line1.pending = false) ∧
    objGet [] 5 openBad = .ok table5 openBad ∧ vlineGet [] (verReq openCmd) table5 openBad = .ok linePend openBad ∧
    objGet [] 5 flipBad = .ok table5 flipBad ∧ vlineGet [] (verReq flipCmd) table5 flipBad = .ok line1 flipBad := by
  have h := facts_version_state
  simp only [Bool.and_eq_true, decide_eq_true_eq] at h
  obtain ⟨⟨⟨⟨⟨⟨f0, f1⟩, f2⟩, f3⟩, f4⟩, f5⟩, f6⟩ := h
  exact ⟨⟨⟨rfl, f0.1, rfl, by decide +kernel⟩, rfl, ⟨rfl, f0.2, rfl, by decide +kernel⟩, rfl⟩, doesTo f1 f2, gets f3, doesTo f4 f5, gets f6⟩

/-- The tables of a service port that uses a page of the current region: an open, an open that waits for it, and an abort, that waits. -/
def usedTags (s : State) : State := { s with tu := { s.tu with tags := [(tsKey 0 63, ⟨4, BitVec.ofNat 64 gib, 0, false, .given 10 false, gib >>> 21, 21⟩)] } }
def openUsed : State := usedTags open0
def openUsed3 : State := putAt openUsed (verReq openCmd) table5 { line1 with opening := true }
def openAgain : Cmd := { openCmd with work := .opening [.ts 4] }
def open9 : State := verUp openAgain { line1 with opening := true } 0
def abortAgain : Cmd := { abortCmd with work := .abortInval [] [.ts 4] }
def abort9 : State := verUp abortAgain { linePend with aborting := true } 0
def abort9' : State := updCmd abort9 9 fun c => { c with work := .abortInval [] [] }

theorem facts_versions_wait : (decide (runsWork openUsed = true ∧ runsWork open9 = true ∧ runsWork abort9 = true) &&
    decide (Does (objGet [] 5) openUsed table5) && decide (after (objGet [] 5 openUsed) = openUsed) &&
    decide (Gets openUsed (verReq openCmd) table5 line1) && decide (Puts openUsed (verReq openCmd) table5 { line1 with opening := true }) &&
    decide (Does (shareLeaves [] table5 false) openUsed3 ()) &&
    decide (invUsers (after (shareLeaves [] table5 false openUsed3)) (.range 0 gib (2 ^ 21)) ≠ []) &&
    decide (Does (objGet [] 5) open9 table5) && decide (after (objGet [] 5 open9) = open9) &&
    decide (Gets open9 (verReq openAgain) table5 { line1 with opening := true }) &&
    decide (Puts open9 (verReq openAgain) table5 linePend) &&
    decide (waitHolds open9 (.ts 4) = false ∧ waitHolds (usedTags open9) (.ts 4) = true) &&
    decide (Does (objGet [] 5) abort9 table5) && decide (after (objGet [] 5 abort9) = abort9) &&
    decide (Gets abort9 (verReq abortAgain) table5 { linePend with aborting := true }) &&
    decide (waitHolds abort9 (.ts 4) = false ∧ poolsQuiet abort9' 0 = true) &&
    decide (Gets abort9' (verReq abortAgain) table5 { linePend with aborting := true }) &&
    decide (Does (sweepTable [] (verReq abortAgain) 5 2) abort9' ()) &&
    decide (Puts (after (sweepTable [] (verReq abortAgain) 5 2 abort9')) (verReq abortAgain) table5 line1)) = true := by
  decide +kernel

theorem wit_VersionsOpenFlipAndRetire_waits :
    (Dispatched openUsed 9 opOpenVersion openCmd ∧ objGet [] 5 openUsed = .ok table5 openUsed ∧
      vlineGet [] (verReq openCmd) table5 openUsed = .ok line1 openUsed ∧
      vlinePut [] (verReq openCmd) 5 table5 { line1 with opening := true } openUsed = .ok () openUsed3 ∧
      ∃ s4, shareLeaves [] table5 false openUsed3 = .ok () s4 ∧ invUsers s4 (.range 0 gib (2 ^ 21)) ≠ []) ∧
    (Dispatched open9 9 opOpenVersion openAgain ∧ openAgain.work = .opening [.ts 4] ∧ [InvWait.ts 4].any (waitHolds open9) = false ∧
      [InvWait.ts 4].any (waitHolds (usedTags open9)) = true ∧ objGet [] 5 open9 = .ok table5 open9 ∧
      vlineGet [] (verReq openAgain) table5 open9 = .ok { line1 with opening := true } open9 ∧
      vlinePut [] (verReq openAgain) 5 table5 linePend open9 = .ok () (putAt open9 (verReq openAgain) table5 linePend)) ∧
    (Dispatched abort9 9 opOpenVersion abortAgain ∧ objGet [] 5 abort9 = .ok table5 abort9 ∧ poolsQuiet abort9' 0 = true ∧
      vlineGet [] (verReq abortAgain) table5 abort9 = .ok { linePend with aborting := true } abort9 ∧
      [InvWait.ts 4].any (waitHolds abort9) = false ∧
      vlineGet [] (verReq abortAgain) table5 abort9' = .ok { linePend with aborting := true } abort9' ∧
      ∃ s6 s7, sweepTable [] (verReq abortAgain) 5 2 abort9' = .ok () s6 ∧ vlinePut [] (verReq abortAgain) 5 table5 line1 s6 = .ok () s7) := by
  have h := facts_versions_wait
  simp only [Bool.and_eq_true, decide_eq_true_eq] at h
  obtain ⟨⟨⟨⟨⟨⟨⟨⟨⟨⟨⟨⟨⟨⟨⟨⟨⟨⟨f0, f1⟩, f2⟩, f3⟩, f4⟩, f5⟩, f6⟩, f7⟩, f8⟩, f9⟩, f10⟩, f11⟩, f12⟩, f13⟩, f14⟩, f15⟩, f16⟩, f17⟩, f18⟩ := h
  have one (s : State) : [InvWait.ts 4].any (waitHolds s) = waitHolds s (.ts 4) := Bool.or_false _
  exact ⟨⟨⟨rfl, f0.1, rfl, by decide +kernel⟩, doesTo f1 f2, gets f3, puts f4, _, does f5, f6⟩,
    ⟨⟨rfl, f0.2.1, rfl, by decide +kernel⟩, rfl, (one _).trans f11.1, (one _).trans f11.2, doesTo f7 f8, gets f9, puts f10⟩,
    ⟨rfl, f0.2.2, rfl, by decide +kernel⟩, doesTo f12 f13, f15.2, gets f14, (one _).trans f15.1, gets f16, _, _, does f17, puts f18⟩

/-- What busies a table: a window write of it, and a key command. -/
theorem wit_VersionsOpenFlipAndRetire_busy :
    tableBusy { flip1 with wws := [(7, ⟨0, 0, 3, 0, 0, 5, 0, [1], false, false, .waitTable, none, [], 0⟩)] } 5 9 = true ∧
    keyCmdBusy { flip1 with qe := { flip1.qe with cmds := [(8, cmdAt opKeyEvict [h5] []), (9, flipWaits)] } } 5 9 = true ∧
    objHasAp (apAt flip0 { ap 1 with obj := BitVec.ofNat 64 h5 }) 5 table5.gen = true ∧ ({ line1 with ver := 0x3FFFFFFF } : VLine).ver = 0x3FFFFFFF := by
  decide +kernel

/-! ### Keyed rows -/

/-- Object 7 is a keyed table: its index has 1024 buckets at 0x60000, and its control line stands at 0x53000. -/
def keyTab : Obj := objOf (padTo 32 (descBytes 1 1 1 gib 4096) ++ leBytes 8 0x51000 ++ leBytes 8 gib ++ leBytes 8 0x50000 ++ leBytes 4 256 ++
  leBytes 2 16 ++ [21, 0])
def keyDesc (policy : BitVec 2) : KeyDesc :=
  { bucketVa := 0x60000, log2 := 10, policy := policy, admitHost := false, hintEn := false, hintPort := 0, defaultRow := 0, seed := 0
    admitVa := 0x58000, admitLog2 := 8, ctrlVa := 0x53000, event := mkHandle 1 0 2 }
def keyIn (policy : BitVec 2) : KeyUse := ⟨7, keyTab, keyDesc policy⟩
/-- A key that is in the index, LIVE since version 1 with row 5, and one that is not. -/
def keyA : Word := 77
def keyB : Word := 78
/-- A bucket whose slots are LIVE under key 0, but for one slot. -/
def bucketOf (i : Nat) (k : KSlot) : List Byte :=
  ((List.range 8).map fun j => if j = i then k.bytes else (KSlot.mk 0 0 0 kLive).bytes).flatten
def dull : KSlot := ⟨0, 0, 0, kLive⟩
def slotA : KSlot := ⟨keyA, 5, 1, kLive⟩
def bA : Nat := (keyBuckets 0 10 keyA).1
def bB : Nat := (keyBuckets 0 10 keyB).1
def bB2 : Nat := (keyBuckets 0 10 keyB).2
def keyMem (v : VLine) : List (Nat × List Byte) :=
  [(0x20080, descBytes 1 2 1 0x30000 8), (0x201C0, keyTab.raw), (0x50000, v.bytes), (0x53008, [3]), (0x54000, [77]), (0x54008, [9]),
   (0x60000 + 128 * bA, bucketOf 3 slotA), (0x60000 + 128 * bB, bucketOf 3 dull), (0x60000 + 128 * bB2, bucketOf 3 dull)]
/-- The key that is found in the second bucket, too. -/
def slotB : KSlot := ⟨keyB, 6, 1, kLive⟩
def keyMemB : List (Nat × List Byte) :=
  [(0x201C0, keyTab.raw), (0x60000 + 128 * bB, bucketOf 3 dull), (0x60000 + 128 * bB2, bucketOf 0 slotB)]
/-- A bag command of two entries, under key A and key B. -/
def mkHandleNat (g i : Nat) : Nat := g * 2 ^ 48 + i
def bagEnt (key : Word) : BagEnt := ⟨0, key, 0, 0, 0, 0, .lookup, false, [], 0, [], true⟩
def keyBag : BagWork :=
  ⟨0, 0, 0, 0, 0, 0, 7, true, false, 1, 256, 16, gib, 0, 0, false, false, 0, 0, 4, 0, 0, 1, 1, [(0, bagEnt keyA), (1, bagEnt keyB)], [], [], [],
    0, false, 0, []⟩
def keyUp (policy : BitVec 2) (m : List (Nat × List Byte)) : State :=
  withCmd { steady m with kt := { descs := [(7, keyDesc policy)] } }
    { cmdAt opBagPool [mkHandleNat 1 7] [] with work := .bag keyBag, phase := .running }

/-- The state after a bucket was read that the cache did not hold. -/
def gotBucket (s : State) (u : KeyUse) (b : Nat) (d : List Byte) : State :=
  let s := dropKeyLine s u.idx b
  { s with kt := { s.kt with reads := s.kt.reads + 1, cache := ⟨BitVec.ofNat 32 u.idx, b, d⟩ :: s.kt.cache } }

/-- A bucket that the cache does not hold is read at a page that stands still. -/
abbrev BucketStill (s : State) (u : KeyUse) (r : TrReq) (b : Nat) (d : List Byte) : Prop :=
  (s.kt.cache.all fun l => !decide (l.obj.toNat = u.idx ∧ l.bucket = b)) = true ∧
  ReadStill s { bucketReq u r b with user := .key, acc := .read } 128 false
    (keyVia (bankOf s b) u.obj.part s (flat (bucketReq u r b).va)) d

theorem keyRead_still {s : State} {r : TrReq} {pair : Nat} {p : BitVec 3} {n : Nat} {bs : List Byte}
    (h : ReadStill s { r with user := .key, acc := .read } n false (keyVia pair p s (flat r.va)) bs) :
    keyRead [] r pair p n s = .ok bs s := by
  unfold keyRead act
  simp only [vaRead_still (r := { r with user := .key, acc := .read }) (via := keyVia pair p) h]

theorem keyWrite_still {s : State} {r : TrReq} {pair : Nat} {p : BitVec 3} {bs : List Byte}
    (h : WriteStill s { r with user := .key, acc := .write } bs false (keyVia pair p s (flat r.va))) :
    keyWrite [] r pair p bs s = .ok () (writeAt s { r with user := .key, acc := .write } bs false (keyVia pair p s (flat r.va))).1 := by
  unfold keyWrite vaPut
  simp only [vaWrite_still (r := { r with user := .key, acc := .write }) (via := keyVia pair p) h]

theorem bucketGet_still {s : State} {u : KeyUse} {r : TrReq} {b : Nat} {d : List Byte} (h : BucketStill s u r b d) :
    bucketGet [] u r b s = .ok d (gotBucket s u b d) := by
  obtain ⟨h1, h2⟩ := h
  unfold bucketGet
  rw [then_ok (show (get : Act State) s = .ok s s from rfl)]
  have : (s.kt.cache.find? fun l => decide (l.obj.toNat = u.idx ∧ l.bucket = b) && Config.tlbHolds s.free (2 ^ 61 + b)) = none := by
    rw [List.find?_eq_none]
    intro l hl
    have := List.all_eq_true.mp h1 l hl
    simp only [Bool.not_eq_true', decide_eq_false_iff_not] at this
    simp [this]
  rw [this]
  exact (then_ok (keyRead_still h2)).trans rfl

def looked (s : State) : State := { s with kt := { s.kt with lookups := s.kt.lookups + 1 } }

/-- A key is found in its first bucket. -/
theorem keyFind_first {s s1 : State} {u : KeyUse} {r : TrReq} {ver i : Nat} {key : Word} {d : List Byte}
    (h : bucketGet [] u r (keyBuckets u.desc.seed u.desc.log2 key).1 { s with kt := { s.kt with lookups := s.kt.lookups + 1 } } = .ok d s1)
    (hi : matchIdx ver key d = some i) : ∃ t, keyFind [] u r ver key s = .ok (some (slotAt d i).row) t := by
  unfold keyFind
  rw [then_ok (show (modify fun s => { s with kt := { s.kt with lookups := s.kt.lookups + 1 } } : Act Unit) s = .ok () _ from rfl)]
  rw [then_ok (show (get : Act State) _ = .ok _ _ from rfl)]
  rw [then_ok h, then_ok (show (modify _ : Act Unit) _ = .ok () _ from rfl), hi]
  exact ⟨_, rfl⟩

/-- A key is in neither bucket, or in the second one. -/
theorem keyFind_second {s s1 s2 : State} {u : KeyUse} {r : TrReq} {ver : Nat} {key : Word} {d1 d2 : List Byte}
    (h1 : bucketGet [] u r (keyBuckets u.desc.seed u.desc.log2 key).1 { s with kt := { s.kt with lookups := s.kt.lookups + 1 } } = .ok d1 s1)
    (h2 : bucketGet [] u r (keyBuckets u.desc.seed u.desc.log2 key).2
      (noteReserved s1 u (keyBuckets u.desc.seed u.desc.log2 key).1 d1 (keyPairOf s (keyHash1 u.desc.seed key))) = .ok d2 s2)
    (hi : matchIdx ver key d1 = none) : ∃ t, keyFind [] u r ver key s = .ok ((matchIdx ver key d2).map fun i => (slotAt d2 i).row) t := by
  unfold keyFind
  rw [then_ok (show (modify fun s => { s with kt := { s.kt with lookups := s.kt.lookups + 1 } } : Act Unit) s = .ok () _ from rfl)]
  rw [then_ok (show (get : Act State) _ = .ok _ _ from rfl)]
  rw [then_ok h1, then_ok (show (modify _ : Act Unit) _ = .ok () _ from rfl), hi]
  dsimp only
  have h2' : bucketGet [] u r (keyBuckets u.desc.seed u.desc.log2 key).2
      (noteReserved s1 u (keyBuckets u.desc.seed u.desc.log2 key).1 d1 (keyPairOf (looked s) (keyHash1 u.desc.seed key))) = .ok d2 s2 := h2
  unfold looked at h2'
  rw [then_ok h2', then_ok (show (modify _ : Act Unit) _ = .ok () _ from rfl)]
  cases matchIdx ver key d2 with
  | none => exact ⟨_, rfl⟩
  | some i => exact ⟨_, rfl⟩

theorem visibleAt_first {s s1 : State} {u : KeyUse} {r : TrReq} {ver i : Nat} {key : Word} {d : List Byte}
    (h : bucketGet [] u r (keyBuckets u.desc.seed u.desc.log2 key).1 s = .ok d s1) (hi : matchIdx ver key d = some i) :
    visibleAt [] u r ver key s = .ok (some ((keyBuckets u.desc.seed u.desc.log2 key).1, i, slotAt d i)) s1 := by
  unfold visibleAt
  rw [then_ok h, hi]
  rfl

theorem visibleAt_absent {s s1 s2 : State} {u : KeyUse} {r : TrReq} {ver : Nat} {key : Word} {d1 d2 : List Byte}
    (h1 : bucketGet [] u r (keyBuckets u.desc.seed u.desc.log2 key).1 s = .ok d1 s1)
    (h2 : bucketGet [] u r (keyBuckets u.desc.seed u.desc.log2 key).2 s1 = .ok d2 s2)
    (hi : matchIdx ver key d1 = none) (hj : matchIdx ver key d2 = none) : visibleAt [] u r ver key s = .ok none s2 := by
  unfold visibleAt
  rw [then_ok h1, hi]
  dsimp only
  rw [then_ok h2, hj]
  rfl

/-! The working tables: key A is in its first bucket, key B in neither. -/

def keyReq0 : TrReq := { owner := .free, user := .key, ctx := 0, va := 0, acc := .read }
def gotA (s : State) : State := gotBucket s (keyIn 2) bA (bucketOf 3 slotA)
def gotB (s : State) : State := gotBucket s (keyIn 2) bB (bucketOf 3 dull)
def keyUp2 : State := keyUp polFault (keyMem line1)

def keyUpB : State := keyUp polFault keyMemB
def keyUpZ : State := keyUp polZero (keyMem line1)

/-- The requests of the two entries of the bag. -/
def reqA : TrReq := entReq 9 0 keyBag (cmdOf keyUp2 9) .key 0
def reqB : TrReq := entReq 9 1 keyBag (cmdOf keyUp2 9) .key 0

theorem facts_buckets : (decide (BucketStill (looked keyUp2) (keyIn 2) reqA bA (bucketOf 3 slotA)) &&
    decide (BucketStill (looked keyUp2) (keyIn 2) reqB bB (bucketOf 3 dull)) &&
    decide (BucketStill (gotB (looked keyUp2)) (keyIn 2) reqB bB2 (bucketOf 3 dull)) &&
    decide (BucketStill keyUp2 (keyIn 2) keyReq0 bA (bucketOf 3 slotA)) &&
    decide (BucketStill keyUp2 (keyIn 2) keyReq0 bB (bucketOf 3 dull)) &&
    decide (BucketStill (gotB keyUp2) (keyIn 2) keyReq0 bB2 (bucketOf 3 dull)) &&
    decide (BucketStill (looked keyUpB) (keyIn 2) reqB bB (bucketOf 3 dull)) &&
    decide (BucketStill (gotB (looked keyUpB)) (keyIn 2) reqB bB2 (bucketOf 0 slotB)) &&
    decide (BucketStill (looked keyUpZ) (keyIn 1) reqB bB (bucketOf 3 dull)) &&
    decide (BucketStill (gotB (looked keyUpZ)) (keyIn 1) reqB bB2 (bucketOf 3 dull)) &&
    decide (Does (objGet [] 7) keyUp2 keyTab) && decide (after (objGet [] 7 keyUp2) = keyUp2) &&
    decide (Does (objGet [] 7) keyUpZ keyTab) && decide (after (objGet [] 7 keyUpZ) = keyUpZ) &&
    runsWork keyUp2 && runsWork keyUpZ) = true := by
  decide +kernel

theorem noteReserved_none {s : State} {u : KeyUse} {b pair : Nat} {d : List Byte}
    (h : ((List.range 8).any fun i => (slotAt d i).reserved) = false) : noteReserved s u b d pair = s := by
  unfold noteReserved
  rw [if_neg (by simp [h])]

theorem lookupEnt_row {s s1 : State} {id e k : Nat} {w : BagWork} {x : BagEnt} {c : Option Cmd} {u : KeyUse}
    (h1 : ∀ r : TrReq, keyUse [] r w.table.toNat s = .ok u s1)
    (h2 : ∃ t, keyFind [] u (entReq id e w c .key 0) w.version x.key s1 = .ok (some k) t) :
    ∃ t, lookupEnt [] id e w x c s = .ok (some k, u) t := by
  unfold lookupEnt
  obtain ⟨t, ht⟩ := h2
  rw [then_ok (h1 _), then_ok ht]
  exact ⟨_, rfl⟩

theorem lookupEnt_none {s s1 : State} {id e : Nat} {w : BagWork} {x : BagEnt} {c : Option Cmd} {u : KeyUse}
    (h1 : ∀ r : TrReq, keyUse [] r w.table.toNat s = .ok u s1) (hp : u.desc.policy ≠ polDefault ∧ u.desc.policy ≠ polAdmit)
    (h2 : ∃ t, keyFind [] u (entReq id e w c .key 0) w.version x.key s1 = .ok none t) :
    ∃ t, lookupEnt [] id e w x c s = .ok (none, u) t := by
  unfold lookupEnt
  obtain ⟨t, ht⟩ := h2
  rw [then_ok (h1 _), then_ok ht]
  dsimp only
  rw [if_neg hp.1, if_neg hp.2]
  exact ⟨_, rfl⟩

theorem slots_plain : ((List.range 8).any fun i => (slotAt (bucketOf 3 dull) i).reserved) = false := by decide +kernel
theorem tab_keyed : (tableDesc keyTab.raw).keyVa ≠ 0 := by decide +kernel
theorem match_A : matchIdx 1 keyA (bucketOf 3 slotA) = some 3 := by decide +kernel
theorem slot_A : slotAt (bucketOf 3 slotA) 3 = slotA := by decide +kernel
theorem match_A2 : matchIdx 2 keyA (bucketOf 3 slotA) = some 3 := by decide +kernel
theorem match_no : matchIdx 1 keyB (bucketOf 3 dull) = none := by decide +kernel
theorem match_B : matchIdx 1 keyB (bucketOf 0 slotB) = some 0 := by decide +kernel

/-- Taking a table into use whose descriptor is kept asks for no translation. -/
theorem keyUse_kept {s : State} {o : Obj} {i : Nat} {d : KeyDesc} (ho : objGet [] i s = .ok o s) (hk : (tableDesc o.raw).keyVa ≠ 0)
    (hd : Tab.find? s.kt.descs i = some d) (r : TrReq) : keyUse [] r i s = .ok ⟨i, o, d⟩ s := by
  unfold keyUse
  rw [then_ok ho]
  dsimp only
  rw [then_ok (show need (decide ((tableDesc o.raw).keyVa ≠ 0)) stBadHandle s = .ok () s by rw [decide_eq_true hk]; rfl),
    then_ok (show (get : Act State) s = .ok s s from rfl), hd]
  rfl

theorem wit_KeysAreFoundAndChanged :
    (∃ r s1, bucketGet [] (keyIn 2) r (keyBuckets 0 10 keyA).1 (looked keyUp2) = .ok (bucketOf 3 slotA) s1 ∧
      (slotAt (bucketOf 3 slotA) 3).key = keyA ∧ (slotAt (bucketOf 3 slotA) 3).visible 1 = true ∧
      ∀ j < 3, (slotAt (bucketOf 3 slotA) j).key ≠ keyA) ∧
    (∃ r s1 s2, bucketGet [] (keyIn 2) r (keyBuckets 0 10 keyB).1 (looked keyUp2) = .ok (bucketOf 3 dull) s1 ∧
      bucketGet [] (keyIn 2) r (keyBuckets 0 10 keyB).2 (noteReserved s1 (keyIn 2) (keyBuckets 0 10 keyB).1
        (bucketOf 3 dull) (keyPairOf keyUp2 (keyHash1 0 keyB))) = .ok (bucketOf 3 dull) s2 ∧
      ∀ j < 8, (slotAt (bucketOf 3 dull) j).key ≠ keyB) ∧
    (∃ r s1 s2, bucketGet [] (keyIn 2) r (keyBuckets 0 10 keyB).1 (looked keyUpB) = .ok (bucketOf 3 dull) s1 ∧
      bucketGet [] (keyIn 2) r (keyBuckets 0 10 keyB).2 (noteReserved s1 (keyIn 2) (keyBuckets 0 10 keyB).1
        (bucketOf 3 dull) (keyPairOf keyUpB (keyHash1 0 keyB))) = .ok (bucketOf 0 slotB) s2 ∧
      (slotAt (bucketOf 0 slotB) 0).key = keyB ∧ (slotAt (bucketOf 0 slotB) 0).visible 1 = true) ∧
    (runsWork keyUp2 = true ∧ bagOf keyUp2 9 = some keyBag ∧ Tab.find? keyBag.ents 0 = some (bagEnt keyA) ∧
      (bagEnt keyA).st = .lookup ∧ ∃ s', lookupEnt [] 9 0 keyBag (bagEnt keyA) (cmdOf keyUp2 9) keyUp2 = .ok (some 5, keyIn 2) s') ∧
    (Tab.find? keyBag.ents 1 = some (bagEnt keyB) ∧
      (∃ s', lookupEnt [] 9 1 keyBag (bagEnt keyB) (cmdOf keyUp2 9) keyUp2 = .ok (none, keyIn 2) s') ∧ (keyIn 2).desc.policy = polFault) ∧
    (runsWork keyUpZ = true ∧ bagOf keyUpZ 9 = some keyBag ∧
      (∃ s', lookupEnt [] 9 1 keyBag (bagEnt keyB) (cmdOf keyUpZ 9) keyUpZ = .ok (none, keyIn 1) s') ∧ (keyIn 1).desc.policy ≠ polFault) ∧
    (∃ r s1, visibleAt [] (keyIn 2) r 1 keyB keyUp2 = .ok none s1) ∧
    (∃ r s1, visibleAt [] (keyIn 2) r 1 keyA keyUp2 = .ok (some (bA, 3, slotA)) s1 ∧ slotA.kind = kLive ∧ slotA.ver = 1 ∧ slotA.row ≠ 6) ∧
    (∃ r s1, visibleAt [] (keyIn 2) r 2 keyA keyUp2 = .ok (some (bA, 3, slotA)) s1 ∧ slotA.ver ≠ 2) := by
  have h := facts_buckets
  simp only [Bool.and_eq_true, decide_eq_true_eq] at h
  obtain ⟨⟨⟨⟨⟨⟨⟨⟨⟨⟨⟨⟨⟨⟨⟨f0, f1⟩, f2⟩, f3⟩, f4⟩, f5⟩, f6⟩, f7⟩, f8⟩, f9⟩, f10⟩, f11⟩, f12⟩, f13⟩, f14⟩, f15⟩ := h
  have second {s u d} (h1 : BucketStill (looked s) u reqB bB (bucketOf 3 dull)) (h2 : BucketStill (gotB (looked s)) u reqB bB2 d)
      (hu : u.desc.seed = 0 ∧ u.desc.log2 = 10 ∧ u.idx = 7) :
      ∃ t, keyFind [] u reqB 1 keyB s = .ok ((matchIdx 1 keyB d).map fun i => (slotAt d i).row) t := by
    obtain ⟨h3, h4, h5⟩ := hu
    refine keyFind_second (d1 := bucketOf 3 dull) (s1 := gotBucket (looked s) u bB (bucketOf 3 dull)) 
      (s2 := gotBucket (gotBucket (looked s) u bB (bucketOf 3 dull)) u bB2 d) ?_ ?_ match_no
    · rw [h3, h4]; exact bucketGet_still h1
    · rw [noteReserved_none slots_plain, h3, h4]
      refine bucketGet_still (b := bB2) ?_
      unfold gotB gotBucket at h2
      unfold gotBucket
      rw [h5]
      exact h2
  refine ⟨⟨reqA, _, bucketGet_still f0, by decide +kernel⟩, ⟨reqB, gotB (looked keyUp2), gotBucket (gotB (looked keyUp2)) (keyIn 2) bB2 (bucketOf 3 dull), bucketGet_still f1, ?_,
      by decide +kernel⟩,
    ⟨reqB, gotB (looked keyUpB), gotBucket (gotB (looked keyUpB)) (keyIn 2) bB2 (bucketOf 0 slotB), bucketGet_still f6, ?_,
      by decide +kernel⟩, ⟨f14, rfl, rfl, rfl, ?_⟩, ⟨rfl, ?_, rfl⟩, ⟨f15, rfl, ?_, by decide⟩,
    ⟨keyReq0, _, visibleAt_absent (bucketGet_still f4) (bucketGet_still f5) match_no match_no⟩,
    ⟨keyReq0, gotBucket keyUp2 (keyIn 2) bA (bucketOf 3 slotA), ?_, by decide +kernel⟩,
    ⟨keyReq0, gotBucket keyUp2 (keyIn 2) bA (bucketOf 3 slotA), ?_, by decide +kernel⟩⟩
  · rw [noteReserved_none slots_plain]
    exact bucketGet_still f2
  · rw [noteReserved_none slots_plain]
    exact bucketGet_still f7
  · refine lookupEnt_row (fun r => keyUse_kept (doesTo f10 f11) tab_keyed rfl r) ?_
    have h := keyFind_first (s := keyUp2) (r := reqA) (bucketGet_still f0) match_A
    rw [slot_A] at h
    exact h
  · refine lookupEnt_none (fun r => keyUse_kept (doesTo f10 f11) tab_keyed rfl r) (by decide) ?_
    have h := second f1 f2 ⟨rfl, rfl, rfl⟩
    rw [match_no] at h
    exact h
  · refine lookupEnt_none (fun r => keyUse_kept (doesTo f12 f13) tab_keyed rfl r) (by decide) ?_
    have h := second f8 f9 ⟨rfl, rfl, rfl⟩
    rw [match_no] at h
    exact h
  · have h := visibleAt_first (ver := 1) (bucketGet_still f3) match_A
    rw [slot_A] at h
    exact h
  · have h := visibleAt_first (ver := 2) (bucketGet_still f3) match_A2
    rw [slot_A] at h
    exact h

theorem applyKey_stays {s s1 : State} {u : KeyUse} {r : TrReq} {tgt row : Nat} {v : VLine} {key : Word} {x : Nat × Nat × KSlot}
    (h : visibleAt [] u r tgt key s = .ok (some x) s1) : applyKey [] u r tgt v .insert key row s = .ok (some 0x01) s1 := by
  unfold applyKey
  rw [then_ok h]
  rfl

theorem applyKey_gone {s s1 : State} {u : KeyUse} {r : TrReq} {tgt row : Nat} {v : VLine} {key : Word}
    (h : visibleAt [] u r tgt key s = .ok none s1) : applyKey [] u r tgt v .evict key row s = .ok (some 0) s1 := by
  unfold applyKey
  rw [then_ok h]
  rfl

/-- A KEY_ADMIT of one entry, and a KEY_EVICT of one inline key. -/
theorem admitLoop_one {s s1 s2 : State} {id tgt : Nat} {c : Cmd} {u : KeyUse} {r : TrReq} {v : VLine} {op : KeyOp} {e : List Byte} {x : Byte}
    (he : keyRead [] { r with ctx := c.ctx, va := c.raw.w 2 + BitVec.ofNat 64 (16 * 0) } 0 c.part 16 s = .ok e s) (hn : entryError e = none)
    (hp : ∃ p, trAct [] { r with user := .key, ctx := c.ctx, va := c.raw.w 2 + BitVec.ofNat 64 (16 * 0) + 12, acc := .write } s = .ok p s)
    (ha : applyKey [] u r tgt v op (BitVec.ofNat 64 (leAt e 0 8)) (leAt e 8 4) s = .ok (some x) s1)
    (hw : keyWrite [] { r with ctx := c.ctx, va := c.raw.w 2 + BitVec.ofNat 64 (16 * 0) + 12 } 0 c.part [x] s1 = .ok () s2) :
    admitLoop [] id c u r tgt v op 1 0 s = .ok true (setProgress s2 id 1) := by
  unfold admitLoop
  dsimp only
  obtain ⟨p, hp⟩ := hp
  rw [then_ok he, hn]
  dsimp only
  rw [then_ok hp, then_ok ha]
  dsimp only
  rw [then_ok hw]
  rfl

theorem evictLoop_one {s s1 : State} {id tgt : Nat} {c : Cmd} {u : KeyUse} {r : TrReq} {v : VLine} {key : Word} (h2 : c.raw.w 2 = 0)
    (hk : c.raw.keys.getD 0 nullKey = key) (hn : key ≠ nullKey) (ha : applyKey [] u r tgt v .evict key 0 s = .ok (some 0) s1) :
    evictLoop [] id c u r tgt v 1 0 s = .ok true (setProgress s1 id 1) := by
  unfold evictLoop
  rw [if_pos h2, hk]
  rw [then_ok (show (pure key : Act Word) s = .ok key s from rfl)]
  dsimp only
  rw [if_neg hn, then_ok ha]
  rfl

def h7 : Nat := 2 ^ 48 + 7
def admitCmd : Cmd := cmdAt opKeyAdmit [h7, 0x54000, 1, 0] []
def keyState (v : VLine) (c : Cmd) : State := withCmd { steady (keyMem v) with kt := { descs := [(7, keyDesc polFault)] } } c
def adm0 : State := keyState line1 admitCmd
def adm3 : State := updCmd adm0 9 fun c => { c with work := .key 1 false }
def admReq : TrReq := cmdReq 9 admitCmd .key 0 .read
def admEnt (k : Nat) (acc : Access) : TrReq := { admReq with ctx := 0, va := BitVec.ofNat 64 (0x54000 + k), acc := acc }
def adm4 : State := gotBucket adm3 (keyIn 2) bA (bucketOf 3 slotA)
def entry : List Byte := leBytes 8 77 ++ leBytes 8 9
def admVia : Via := keyVia 0 0 adm3 0
def adm5 : State := (writeAt adm4 (admEnt 12 .write) [1] false admVia).1

def evictKeys : List Byte := leBytes 8 0x100 ++ leBytes 8 78 ++ List.replicate 48 0
def evictCmd : Cmd := cmdAt opKeyEvict [h7, 0, 1] [evictKeys]
def evi0 : State := keyState line1 evictCmd
def evi3 : State := updCmd evi0 9 fun c => { c with work := .key 1 false }
def eviHeld : Cmd := { evictCmd with work := .key 1 true, phase := .running }
def evi5 : State := gotBucket (gotBucket evi3 (keyIn 2) bB (bucketOf 3 dull)) (keyIn 2) bB2 (bucketOf 3 dull)

def lineOpen : VLine := { line1 with opening := true }
def busyAdm : State := keyState lineOpen admitCmd
def busyEvi : State := keyState lineOpen evictCmd

theorem facts_commands : (decide (Does (objGet [] 7) adm0 keyTab) && decide (after (objGet [] 7 adm0) = adm0) &&
    decide (Gets adm0 admReq keyTab line1) && decide (Does (objGet [] 7) adm3 keyTab) && decide (after (objGet [] 7 adm3) = adm3) &&
    decide (ReadStill adm3 (admEnt 0 .read) 16 false admVia entry) && decide (BucketStill adm3 (keyIn 2) admReq bA (bucketOf 3 slotA)) &&
    decide (WriteStill adm4 (admEnt 12 .write) [1] false admVia) && decide (Still adm3 (admEnt 12 .write)) &&
    decide (Does (objGet [] 7) evi0 keyTab) && decide (after (objGet [] 7 evi0) = evi0) && decide (Gets evi0 admReq keyTab line1) &&
    decide (Does (objGet [] 7) evi3 keyTab) && decide (after (objGet [] 7 evi3) = evi3) && decide (Gets evi3 admReq keyTab line1) &&
    decide (BucketStill evi3 (keyIn 2) admReq bB (bucketOf 3 dull)) &&
    decide (BucketStill (gotB evi3) (keyIn 2) admReq bB2 (bucketOf 3 dull)) && decide (Does (objGet [] 7) busyAdm keyTab) &&
    decide (after (objGet [] 7 busyAdm) = busyAdm) && decide (Gets busyAdm admReq keyTab lineOpen) && decide (Does (objGet [] 7) busyEvi keyTab) &&
    decide (after (objGet [] 7 busyEvi) = busyEvi) && decide (Gets busyEvi admReq keyTab lineOpen) &&
    (runsWork adm0 && runsWork evi0 && runsWork busyAdm && runsWork busyEvi) &&
    decide (updCmd (keyState line1 eviHeld) 9 (fun c => { c with phase := .dispatched, work := .key 1 false }) = evi3)) = true := by
  decide +kernel

theorem keys_dispatched {op : Nat} {ws : List Nat} {conts : List (List Byte)} {v : VLine} (h : runsWork (keyState v (cmdAt op ws conts)) = true)
    (ho : (cmdAt op ws conts).raw.opcode = op) : Dispatched (keyState v (cmdAt op ws conts)) 9 op (cmdAt op ws conts) :=
  ⟨rfl, h, rfl, ho⟩

theorem wit_KeyCommandsAndCaches_commands :
    (Dispatched adm0 9 opKeyAdmit admitCmd ∧ (admitCmd.work = .none ∧ admitCmd.progress = 0 ∧ hIndex (admitCmd.raw.w 1) = 7 ∧
        (admitCmd.raw.w 3).toNat = 1 ∧ bits (admitCmd.raw.w 4) 1 0 = 0 ∧ bits (admitCmd.raw.w 4) 63 32 = 0) ∧
      objGet [] 7 adm0 = .ok keyTab adm0 ∧ vlineGet [] admReq keyTab adm0 = .ok line1 adm0 ∧
      (line1.opening = false ∧ line1.aborting = false ∧ line1.pending = false ∧ line1.ver = 1) ∧
      keyUse [] admReq 7 adm3 = .ok (keyIn 2) adm3 ∧
      (∃ s4, admitLoop [] 9 admitCmd (keyIn 2) admReq 1 line1 .insert 1 0 adm3 = .ok true s4 ∧
        advanceCons [] (keyIn 2) admReq 0 s4 = .ok () s4)) ∧
    (Dispatched evi0 9 opKeyEvict evictCmd ∧ (evictCmd.work = .none ∧ evictCmd.progress = 0 ∧ hIndex (evictCmd.raw.w 1) = 7 ∧
        (evictCmd.raw.w 3).toNat = 1) ∧
      objGet [] 7 evi0 = .ok keyTab evi0 ∧ vlineGet [] admReq keyTab evi0 = .ok line1 evi0 ∧ keyUse [] admReq 7 evi3 = .ok (keyIn 2) evi3 ∧
      ∃ s4, evictLoop [] 9 evictCmd (keyIn 2) admReq 1 line1 1 0 evi3 = .ok true s4) ∧
    (cmdOf (keyState line1 eviHeld) 9 = some eviHeld ∧ eviHeld.phase = .running ∧ eviHeld.work = .key 1 true ∧
      updCmd (keyState line1 eviHeld) 9 (fun c => { c with phase := .dispatched, work := .key 1 false }) = evi3 ∧
      objGet [] 7 evi3 = .ok keyTab evi3 ∧ vlineGet [] admReq keyTab evi3 = .ok line1 evi3) ∧
    (Dispatched busyAdm 9 opKeyAdmit admitCmd ∧ objGet [] 7 busyAdm = .ok keyTab busyAdm ∧
      vlineGet [] admReq keyTab busyAdm = .ok lineOpen busyAdm ∧ lineOpen.opening = true) ∧
    (Dispatched busyEvi 9 opKeyEvict evictCmd ∧ objGet [] 7 busyEvi = .ok keyTab busyEvi ∧
      vlineGet [] admReq keyTab busyEvi = .ok lineOpen busyEvi) := by
  have h := facts_commands
  simp only [Bool.and_eq_true, decide_eq_true_eq] at h
  obtain ⟨⟨⟨⟨⟨⟨⟨⟨⟨⟨⟨⟨⟨⟨⟨⟨⟨⟨⟨⟨⟨⟨⟨⟨f0, f1⟩, f2⟩, f3⟩, f4⟩, f5⟩, f6⟩, f7⟩, f7'⟩, f8⟩, f9⟩, f10⟩, f11⟩, f12⟩, f13⟩, f14⟩, f15⟩, f16⟩, f17⟩, f18⟩, f19⟩,
    f20⟩, f21⟩, f22⟩, f23⟩ := h
  obtain ⟨⟨⟨g0, g1⟩, g2⟩, g3⟩ := f22
  have hadm : admitCmd.raw.opcode = opKeyAdmit := by decide +kernel
  have hevi : evictCmd.raw.opcode = opKeyEvict := by decide +kernel
  have hwit : visibleAt [] (keyIn 2) admReq 1 keyA adm3 = .ok (some (bA, 3, slotA)) adm4 := by
    have h := visibleAt_first (r := admReq) (ver := 1) (bucketGet_still f6) match_A
    rw [slot_A] at h
    exact h
  have hentry : entryError entry = none ∧ BitVec.ofNat 64 (leAt entry 0 8) = keyA := by decide +kernel
  have hkey : evictCmd.raw.w 2 = 0 ∧ evictCmd.raw.keys.getD 0 nullKey = keyB ∧ keyB ≠ nullKey := by decide +kernel
  have hgone : visibleAt [] (keyIn 2) admReq 1 keyB evi3 = .ok none evi5 :=
    visibleAt_absent (r := admReq) (bucketGet_still f14) (bucketGet_still f15) match_no match_no
  refine ⟨⟨keys_dispatched g0 hadm, by decide +kernel, doesTo f0 f1, gets f2, by decide, keyUse_kept (doesTo f3 f4) tab_keyed rfl _, _,
      admitLoop_one (x := 1) (e := entry) (s1 := adm4) (s2 := adm5) ?_ hentry.1 ?_ ?_ ?_, rfl⟩,
    ⟨keys_dispatched g1 hevi, by decide +kernel, doesTo f8 f9, gets f10, keyUse_kept (doesTo f11 f12) tab_keyed rfl _, _,
      evictLoop_one hkey.1 hkey.2.1 hkey.2.2 (applyKey_gone hgone)⟩,
    ⟨rfl, rfl, rfl, f23, doesTo f11 f12, gets f13⟩, ⟨keys_dispatched g2 hadm, doesTo f16 f17, gets f18, rfl⟩,
    ⟨keys_dispatched g3 hevi, doesTo f19 f20, gets f21⟩⟩
  · have hva : { admReq with ctx := admitCmd.ctx, va := admitCmd.raw.w 2 + BitVec.ofNat 64 (16 * 0) } = admEnt 0 .read := by decide +kernel
    rw [hva]
    exact keyRead_still f5
  · have hva : { admReq with user := .key, ctx := admitCmd.ctx, va := admitCmd.raw.w 2 + BitVec.ofNat 64 (16 * 0) + 12, acc := .write } =
        admEnt 12 .write := by decide +kernel
    rw [hva]
    refine ⟨(leafAddr 0x87 30 (admEnt 12 .write).va, 0x87, 30), ?_⟩
    unfold trAct
    rw [translate_still f7']
  · rw [hentry.2]
    exact applyKey_stays hwit
  · have hva : { admReq with ctx := admitCmd.ctx, va := admitCmd.raw.w 2 + BitVec.ofNat 64 (16 * 0) + 12 } = admEnt 12 .read := by
      decide +kernel
    rw [hva]
    exact keyWrite_still f7

/-- A table with posted entries that are not yet signalled. -/
def sigUp (host : Bool) : State :=
  { steady (keyMem line1) with
    kt := { descs := [(7, { keyDesc polAdmit with admitHost := host })], tables := [(7, { unsent := true })] } }
def sigUse (host : Bool) : KeyUse := ⟨7, keyTab, { keyDesc polAdmit with admitHost := host }⟩
def selfKey : TrReq := { owner := .free, user := .key, ctx := 0, va := 0, acc := .read }
def ctrlBytes : List Byte := padTo 64 (leBytes 8 0 ++ [3])

theorem facts_signal : ∀ host, (decide (Does (objGet [] 7) (sigUp host) keyTab) && decide (after (objGet [] 7 (sigUp host)) = sigUp host) &&
    decide (ReadStill (sigUp host) (ctrlReq (sigUse host) selfKey .read) 64 true (headVia 0 0 (sigUp host) 0x53000) ctrlBytes) &&
    runsWork (sigUp host)) = true := by
  decide +kernel

theorem ctrlGet_still (host : Bool) : keyUse [] selfKey 7 (sigUp host) = .ok (sigUse host) (sigUp host) ∧
    ctrlGet [] (sigUse host) selfKey 0 (sigUp host) = .ok (ctrlOf ctrlBytes) (sigUp host) ∧
    admitPosted [] 7 (sigUp host) = .ok (sigUse host, 3) (sigUp host) := by
  have h := facts_signal host
  simp only [Bool.and_eq_true, decide_eq_true_eq] at h
  obtain ⟨⟨⟨f0, f1⟩, f2⟩, _⟩ := h
  have k : keyUse [] selfKey 7 (sigUp host) = .ok (sigUse host) (sigUp host) := keyUse_kept (doesTo f0 f1) tab_keyed rfl _
  have g : ctrlGet [] (sigUse host) selfKey 0 (sigUp host) = .ok (ctrlOf ctrlBytes) (sigUp host) := by
    unfold ctrlGet
    rw [then_ok (show act (fun s => vaRead s [] (ctrlReq (sigUse host) selfKey .read) 64 true (headVia 0 (sigUse host).obj.part)) (sigUp host) =
        .ok ctrlBytes (sigUp host) by
      unfold act; dsimp only
      have hv : flat (ctrlReq (sigUse host) selfKey .read).va = 0x53000 := by cases host <;> decide +kernel
      rw [vaRead_still (s := sigUp host) (via := headVia 0 (sigUse host).obj.part) (by rw [hv]; exact f2)])]
    rfl
  refine ⟨k, g, ?_⟩
  have k' : keyUse [] { owner := .free, user := .key, ctx := 0, va := 0, acc := .read } 7 (sigUp host) = _ := k
  have g' : ctrlGet [] (sigUse host) { owner := .free, user := .key, ctx := 0, va := 0, acc := .read } 0 (sigUp host) = _ := g
  unfold admitPosted
  refine (then_ok k').trans ((then_ok g').trans ?_)
  exact congrArg (fun x => EStateM.Result.ok (sigUse host, x) (sigUp host)) (by decide +kernel)

def keysUp : State :=
  { wk with kt := { cache := [⟨7, 0, []⟩, ⟨8, 0, []⟩], descs := [(7, keyDesc polFault)], filter := [(3, ⟨7, keyA, 0⟩)], retBusy := true } }
def heldKey : State :=
  { withCmd wk { cmdAt opKeyAdmit [h7, 0x54000, 1, 0] [] with phase := .held 3, work := .key 1 false } with kt := { invOp := .run, invHeld := [(9, none)] } }

theorem wit_KeyCommandsAndCaches_caches :
    (barOk wk = true ∧ wk.kt.invOp.busy = false ∧ wk.build.keySlices ≠ 0 ∧ barOk keysUp = true ∧ keysUp.kt.invOp.busy = false ∧
      ({ wk with build := { wk.build with keySlices := 0 } } : State).build.keySlices = 0) ∧
    (heldKey.kt.invOp.busy = true ∧ keyHeld heldKey (9, none) = true ∧ (∀ x ∈ heldKey.kt.invHeld, keyHeld (withCmd heldKey admitCmd) x = false)) ∧
    (wk.kt.retBusy = false ∧ wk.build.keySlices ≤ 32 ∧ (0x7F : BitVec 32).toNat &&& maskOf wk.build.keySlices ≠ maskOf wk.build.keySlices) ∧
    keysUp.kt.retBusy = true ∧
    (∀ host, (Tab.get {} (sigUp host).kt.tables 7).unsent = true ∧ (Tab.get {} (sigUp host).kt.tables 7).lastSig = none ∧
      runsWork (sigUp host) = true ∧ (sigUse host).desc.admitHost = host ∧
      admitPosted [] (7 : BitVec 32).toNat (sigUp host) = .ok (sigUse host, 3) (sigUp host) ∧
      fnIssues (sigUp host) (ctxFn (sigUp host) 0) = true ∧ fnIssues { sigUp host with hosts := [] } (ctxFn (sigUp host) 0) = false) := by
  refine ⟨by decide +kernel, by decide +kernel, by decide +kernel, rfl, fun host => ⟨rfl, rfl, ?_, rfl, (ctrlGet_still host).2.2, ?_, ?_⟩⟩ <;>
    cases host <;> decide +kernel

/-! ### Pooling -/

/-- A BAG_POOL of one bag with one inline key, row 5 of table 5, dim 8. -/
def bagKeys : List Byte := leBytes 8 0x100 ++ leBytes 8 5 ++ List.replicate 48 0
def bagCmd : Cmd := cmdAt opBagPool [h5, 0, 0, 0, 2 ^ 52, 16 + 256 + 8 * 2 ^ 16 + 2 ^ 32, 1] [bagKeys]
def bag0 : State := verUp bagCmd line1 0
def bagReq : TrReq := cmdReq 9 bagCmd .engine 0 .atomic
def bag1 : State := updCmd (putAt bag0 bagReq table5 { line1 with pins0 := 1 }) 9 fun c => { c with vpin := some (5, false) }
def bagWork : BagWork :=
  { part := 0, ctx := 0, owner := 0, q := 0, h := 0, user := 0, table := 5, keyed := false, phys := false, version := 1, rows := 256
    rowBytes := 16, region := gib, shard := 0, reduce := 0, det := false, skip := false, inFmt := 1, outFmt := 0, dim := 8, dst := 0
    tport := 0, tileRows := 1, bags := 1, ents := [], segs := [], accs := [], msgs := [], tile := 0, sent := false, accepted := 0 }
def bagSplit : Act (List (Nat × BagEnt)) := splitEnts [] 9 bagCmd bagWork (inlineArrays bagCmd.raw) none 0

theorem facts_bag : (decide (Does (objGet [] 5) bag0 table5) && decide (after (objGet [] 5 bag0) = bag0) &&
    decide (Gets bag0 bagReq table5 line1) && decide (Puts bag0 bagReq table5 { line1 with pins0 := 1 }) &&
    decide (Does (objGet [] 5) bag1 table5) && decide (after (objGet [] 5 bag1) = bag1) &&
    decide (Gets bag1 (verReq bagCmd) table5 { line1 with pins0 := 1 }) &&
    decide (Does bagSplit bag1 [(0, ⟨0, 5, 0, 0, 0, 0, .row 5, false, [], 0, [], true⟩)]) && runsWork bag0) = true := by
  decide +kernel

theorem pinVersion_ok {s s1 : State} {id i : Nat} {c : Cmd} {o : Obj} {v : VLine} (hv : c.vpin = none) (hi : hIndex (c.raw.w 1) = i)
    (ho : objGet [] i s = .ok o s) (hg : vlineGet [] (cmdReq id c .engine 0 .atomic) o s = .ok v s)
    (hp : vlinePut [] (cmdReq id c .engine 0 .atomic) i o (v.setPins v.slot (v.pins v.slot + 1)) s = .ok () s1) :
    pinVersion [] id c s = .ok () (updCmd s1 id fun c => { c with vpin := some (i, v.slot) }) := by
  unfold pinVersion
  rw [if_pos (by simp [hv]), hi, then_ok ho, then_ok hg, then_ok hp]
  rfl

def segWork : BagWork :=
  { bagWork with segs := [⟨0, 0, 0, 1, false, 0, none, false⟩]
                 accs := [(0, ⟨1, 0, bagWork.quad wk 0 0, false, 0, none, [], 0, false, false⟩)] }
def segUp (w : BagWork) : State := withCmd wk { bagCmd with work := .bag w, phase := .running }
/-- A bag that holds all of a quad in pieces reserved. -/
def fullWork : BagWork :=
  { segWork with accs := [(0, ⟨1, 0, bagWork.quad wk 0 0, false, 262144 / 64, none, [], 0, false, false⟩)] }
/-- The row of entry 0 is being fetched by one request on the first pooling port. -/
def rowEnt : BagEnt := { bag := 0, key := 5, weight := 0, shard := 0, pos := 0, addr := 0x900050, st := .fetching 1 none, miss := false, got := [] }
def rowReq : GwReq := ⟨.rd, 0x900050, 16, 0x900050, [], false, 0, .row 9 0, 0, none⟩
def rowWork : BagWork := { segWork with ents := [(0, rowEnt)] }
def rowUp : State := { segUp rowWork with gw := [(0, { out := [(3, rowReq)] })] }
def bagEnded : Cmd := { bagCmd with work := .bag { bagWork with tile := 1 } }

theorem wit_BagsRunBySegmentAndRow :
    (Dispatched bag0 9 opBagPool bagCmd ∧ (bagCmd.work = .none ∧ bagCmd.dir = none ∧ bagCmd.raw.bInline = true ∧ hIndex (bagCmd.raw.w 1) = 5) ∧
      pinVersion [] 9 bagCmd bag0 = .ok () bag1 ∧ objGet [] 5 bag1 = .ok table5 bag1 ∧
      vlineGet [] (verReq bagCmd) table5 bag1 = .ok { line1 with pins0 := 1 } bag1 ∧
      offsetsOk bagCmd.raw.bKeys 0 bagCmd.raw.bOffsets = true ∧
      (bagWork.bags = bagCmd.raw.bBags ∧ bagWork.dim = bagCmd.raw.bDim ∧ bagWork.rows = (tableDesc table5.raw).rows) ∧
      ∃ s4, bagSplit bag1 = .ok [(0, ⟨0, 5, 0, 0, 0, 0, .row 5, false, [], 0, [], true⟩)] s4) ∧
    (runsWork (withCmd wk bagEnded) = true ∧ bagCmd.raw.opcode = opBagPool ∧ bagEnded.raw.w 2 = 0) ∧
    (runsWork (segUp segWork) = true ∧ bagOf (segUp segWork) 9 = some segWork ∧
      segWork.segs.find? (fun g => decide (g.bag = 0 ∧ g.seg = 0)) = some ⟨0, 0, 0, 1, false, 0, none, false⟩ ∧
      Tab.find? segWork.accs 0 = some ⟨1, 0, segWork.quad (segUp segWork) 0 0, false, 0, none, [], 0, false, false⟩ ∧
      quadUsed (segUp segWork) (segWork.quad (segUp segWork) 0 0) + 2 * partBytes 8 ≤ 262144) ∧
    262144 < quadUsed (segUp fullWork) (fullWork.quad (segUp fullWork) 0 0) + 2 * partBytes 8 ∧
    (rowReqs rowUp 9 0 = [(0, 3, rowReq)] ∧ Tab.find? rowWork.ents 0 = some rowEnt ∧ InFmt.ofCode rowWork.inFmt.toNat = some .bf16 ∧
      (linesOf rowReq.addr rowReq.len).any (fun l => (Tab.find? rowUp.mem.poison l).isSome) = false ∧
      cmdOf rowUp 9 = some { bagCmd with work := .bag rowWork, phase := .running } ∧
      cmdOf (report (updGw rowUp 0 fun g => { g with out := Tab.erase g.out 3 }) (reqEvent ⟨0, srcId 6 0 0, 0, false, none, none, none⟩ 0x900050 0)
        (Via.mid ⟨0, srcId 6 0 0, 0, false, none, none, none⟩)) 9 = some { bagCmd with work := .bag rowWork, phase := .running }) := by
  have h := facts_bag
  simp only [Bool.and_eq_true, decide_eq_true_eq] at h
  obtain ⟨⟨⟨⟨⟨⟨⟨⟨f0, f1⟩, f2⟩, f3⟩, f4⟩, f5⟩, f6⟩, f7⟩, f8⟩ := h
  have hi : hIndex (bagCmd.raw.w 1) = 5 := by decide +kernel
  have ho : bagCmd.raw.opcode = opBagPool := by decide +kernel
  refine ⟨⟨⟨rfl, f8, rfl, ho⟩, ⟨rfl, rfl, by decide +kernel, hi⟩, ?_, doesTo f4 f5, gets f6, by decide +kernel, by decide +kernel, _, does f7⟩,
    by decide +kernel, by decide +kernel, by decide +kernel, by decide +kernel⟩
  exact pinVersion_ok (s := bag0) (id := 9) (c := bagCmd) rfl hi (doesTo f0 f1) (gets f2) (puts f3)

theorem tilesNext : ∃ w : BagWork, w.tile * w.tileRows < w.bags ∧ w.skip = false ∧ w.bags ≤ w.tile * w.tileRows + w.tileRows ∧
    (Tab.find? w.accs (w.tile * w.tileRows + 0)).isSome = true := ⟨segWork, by decide +kernel⟩

def tileOf (last : Bool) : Tile := ⟨9, 0, [], [], 0, 0, 1, last⟩
def tileUp (last : Bool) (stalled : Option Nat) : State :=
  { segUp bagWork with pa := { (segUp bagWork).pa with tports := [(0, ⟨some (tileOf last), stalled⟩)], retBusy := true } }

/-- A tile whose command has ended, and a quad that retires with an accepted segment. -/
def goneTile : State := { wk with pa := { wk.pa with tports := [(0, ⟨some (tileOf true), none⟩)] } }
def retiring : State :=
  let s := segUp { segWork with segs := [⟨0, 0, 1, 1, true, 0, none, false⟩] }
  { s with pa := { s.pa with retire := 2, retBusy := true } }

theorem wit_TilesAndQuads :
    (∃ w : BagWork, w.tile * w.tileRows < w.bags ∧ w.skip = false ∧ w.bags ≤ w.tile * w.tileRows + w.tileRows ∧
      (Tab.find? w.accs (w.tile * w.tileRows + 0)).isSome = true) ∧
    (({ segWork with bags := 2 } : BagWork).tile * 1 + 1 < 2) ∧
    (∀ last ∈ [true, false], runsWork (tileUp last none) = true ∧ (Tab.get {} (tileUp last none).pa.tports 0).cur = some (tileOf last) ∧
      cmdOf (tileUp last none) 9 = some { bagCmd with work := .bag bagWork, phase := .running } ∧ bagCmd.raw.w 2 = 0) ∧
    ((Tab.get {} (tileUp true (some 7)).pa.tports 0).stalled = some 7 ∧ (Tab.get {} (tileUp true none).pa.tports 0).stalled = none ∧
      (Tab.get {} (tileUp true none).pa.tports 0).cur = some (tileOf true) ∧ (Tab.get {} wk.pa.tports 0).cur = none) ∧
    ((Tab.get {} (goneTile).pa.tports 0).cur = some (tileOf true) ∧ cmdOf goneTile 9 = none ∧ runsWork goneTile = true ∧ runsWork State.reset = false) ∧
    (∃ q < wk.build.lanes / 4, retiring.pa.retire.getLsbD q = true ∧ quadBusy retiring q = true) ∧ retiring.pa.retBusy = true ∧
    (∀ q < wk.build.lanes / 4, (tileUp true none).pa.retire.getLsbD q = true → quadBusy (tileUp true none) q = false) ∧
    (barOk wk = true ∧ wk.pa.retBusy = false ∧ wk.build.lanes / 4 ≤ 12 ∧
      (0x1 : BitVec 12).toNat &&& maskOf (wk.build.lanes / 4) ≠ maskOf (wk.build.lanes / 4)) ∧ (tileUp true none).pa.retBusy = true ∧
    (0xFFF : BitVec 12).toNat &&& maskOf (wk.build.lanes / 4) = maskOf (wk.build.lanes / 4) :=
  ⟨tilesNext, by decide, by decide +kernel, by decide +kernel, by decide +kernel, by decide +kernel, by decide +kernel, by decide +kernel,
    by decide +kernel, by decide +kernel, by decide +kernel⟩

/-! ### Channels -/

def copyCmd : Cmd := cmdAt opCopy [0x100000, 0x101000, 64, 0] []
def chans (f : Channel → Channel) (s : State) : State := { s with mv := { s.mv with chans := [(2, f { copy := true }), (5, { copy := true })] } }
def copyUp : State := chans id (withCmd wk copyCmd)
def runCmd1 : Cmd := cmdAt opRunChannel [2 ^ 48 + 4, 2] []
def queued : State := chans (fun c => { c with queue := [9] }) (withCmd wk { copyCmd with phase := .running, work := .mover 2 })

theorem wit_ChannelsTakeRuns :
    (Dispatched copyUp 9 opCopy copyCmd ∧ bits (copyCmd.raw.w 3) 37 0 ≠ 0 ∧ bit (copyCmd.raw.w 4) 0 = false ∧
      (2 < copyUp.build.channels ∧ (chan copyUp 2).copy = true ∧ chanPart copyUp 2 = some copyCmd.part) ∧
      ∀ j < copyUp.build.channels, (chan copyUp j).copy = true →
        (chan copyUp 2).queue.length < (chan copyUp j).queue.length ∨ ((chan copyUp 2).queue.length = (chan copyUp j).queue.length ∧ 2 ≤ j)) ∧
    (Dispatched (withCmd wk copyCmd) 9 opCopy copyCmd ∧ ∀ k < (withCmd wk copyCmd).build.channels, (chan (withCmd wk copyCmd) k).copy = false) ∧
    (Dispatched (withCmd wk runCmd1) 9 opRunChannel runCmd1 ∧ bits (runCmd1.raw.w 2) 5 0 = 2 ∧
      chanPart (withCmd wk runCmd1) 2 = some runCmd1.part ∧ (ctxOf (withCmd wk runCmd1) 0).conf = false) ∧
    chanPart { withCmd wk runCmd1 with ps := { wk.ps with own := [] } } 2 ≠ some runCmd1.part ∧
    (runsWork queued = true ∧ (chan queued 2).st = .idle ∧ (chan queued 2).queue = [9] ∧
      cmdOf queued 9 = some { copyCmd with phase := .running, work := .mover 2 } ∧ copyCmd.raw.opcode = opCopy) :=
  ⟨⟨by constructor <;> decide +kernel, by decide +kernel⟩, ⟨by constructor <;> decide +kernel, by decide +kernel⟩,
    ⟨by constructor <;> decide +kernel, by decide +kernel⟩, by decide +kernel, by decide +kernel⟩

/-- Channel 2 runs a program for command 9. -/
def progRun (prog : List Word) : Run := { cmd := 9, ctx := 0, prog := prog }
def progUp (r : Run) : State :=
  { withCmd wk { runCmd1 with phase := .running, work := .mover 2 } with mv := { chans := [(2, { st := .running, run := some r })] } }
def loopProg (n : Nat) : List Word := [BitVec.ofNat 64 (2 + n * 2 ^ 32), 0, 3, 7]
def inLoop (idx : Nat) : Run := { progRun (loopProg 2) with pc := 2, loops := [⟨2, 2, idx, 0, 0⟩] }
def moveProg (dst : Nat) : List Word := [BitVec.ofNat 64 (1 + 2 ^ 8 + 16 * 2 ^ 32 + 4 * 2 ^ 13), 0x100000, BitVec.ofNat 64 dst, 0, 7]
def waitProg (v : Nat) : List Word := [4, BitVec.ofNat 64 h2, BitVec.ofNat 64 v, 7]
def sigProg : List Word := [5, BitVec.ofNat 64 h2, 9, 7]
def sig0 : PendSig := ⟨BitVec.ofNat 64 h2, 9, false, 0, false, [], [], [], none⟩
def moved (s : State) (r : Run) : State :=
  updRun (updStat s 2 (newExec r).m fun w => { w with execs := if w.execs.toNat < 0xFFFFFFFF then w.execs + 1 else w.execs }) 2
    fun r => { r with cur := some (newExec r) }

theorem channel_at {r : Run} (op : Nat) (h : runsWork (progUp r) = true ∧ r.pc < r.prog.length ∧ mvOp (r.prog.getD r.pc 0) = op) :
    ChannelAt (progUp r) 2 op r := ⟨h.1, rfl, rfl, h.2.1, h.2.2⟩

def runsTo (r : Run) : Bool :=
  let s := moved (progUp r) r
  match (chan s 2).run with
  | some r1 =>
    let x := runExec [] (mvCx s 2 r1) r1.busy s (newExec r)
    decide (x.2.2 = .done ∧ x.2.1.acks = [])
  | none => false


/-- A WAIT of the channel that passes its time. -/
def waiting (v : Word) : Run := { progRun (waitProg 3) with wait := some ⟨2, 0x30000, v, some 50⟩ }

def failsWith {α : Type} (p : Stop → Bool) (r : EStateM.Result Stop State α) : Bool :=
  match r with
  | .error e _ => p e
  | .ok _ _ => false

theorem wit_WaitsTimeOut : (∀ v ∈ [waiting 0, waiting 3], runsWork (progUp v) = true ∧
      answers (fun n => decide (n = 0)) (eventValue [] (mvCx (progUp v) 2 v).part 9 0x30000 (reach (progUp v) 50)) = true) ∧
    failsWith (fun e => decide (e ≠ .wait)) (eventValue [(0xC00, .decode)] (mvCx (progUp (waiting 3)) 2 (waiting 3)).part 9 0x30000 (reach (progUp (waiting 3)) 50)) = true := by
  refine ⟨?_, ?_⟩ <;> decide +kernel

theorem wit_WaitsOfDisabling :
    let s := updCtx (progUp (progRun (waitProg 3))) 0 fun x => { x with disabling := true }
    ChannelAt s 2 4 (progRun (waitProg 3)) ∧ (match objGet [] (hIndex ((waitProg 3).getD 1 0)) s with
      | .ok o s1 => (match translate s1 [] { (mvCx s 2 (progRun (waitProg 3))).req 0 (BitVec.ofNat 64 o.va) .read with user := .engine } with
        | (s2, .ok a _ _) => answersBoth (fun n s3 => decide (n = 0 ∧ (chan s3 2).st = .running ∧ (ctxOf s3 0).disabling = true)) (eventValue [] o.part 9 a s2)
        | _ => false)
      | _ => false) = true := by
  refine ⟨⟨by decide +kernel, rfl, rfl, by decide +kernel, by decide +kernel⟩, ?_⟩
  decide +kernel

theorem wit_ProgramsRun :
    (ChannelAt (progUp (progRun (loopProg 2))) 2 2 (progRun (loopProg 2)) ∧ ChannelAt (progUp (progRun (loopProg 0))) 2 2 (progRun (loopProg 0)) ∧
      bits ((loopProg 2).getD 0 0) 63 32 = 2 ∧ bits ((loopProg 0).getD 0 0) 63 32 = 0) ∧
    (ChannelAt (progUp (inLoop 0)) 2 3 (inLoop 0) ∧ ChannelAt (progUp (inLoop 1)) 2 3 (inLoop 1)) ∧
    ChannelAt (progUp (progRun [0, 7])) 2 0 (progRun [0, 7]) ∧
    ((∀ m < 4, ChannelAt (progUp (progRun [BitVec.ofNat 64 (6 + m * 2 ^ 8), 7])) 2 6 (progRun [BitVec.ofNat 64 (6 + m * 2 ^ 8), 7])) ∧
      hintsDone (progUp (progRun [6, 7])) [] = true) ∧
    (ChannelAt (progUp (progRun (moveProg 0x101000))) 2 1 (progRun (moveProg 0x101000)) ∧
      misaligned (newExec (progRun (moveProg 0x101000))) = false ∧ runsTo (progRun (moveProg 0x101000)) = true) ∧
    (ChannelAt (progUp (progRun (moveProg 0x101001))) 2 1 (progRun (moveProg 0x101001)) ∧
      misaligned (newExec (progRun (moveProg 0x101001))) = true) ∧
    (∀ v ∈ [0, 3], ChannelAt (progUp (progRun (waitProg v))) 2 4 (progRun (waitProg v)) ∧
      ∃ o s1, objGet [] (hIndex ((waitProg v).getD 1 0)) (progUp (progRun (waitProg v))) = .ok o s1 ∧
        (match translate s1 [] { (mvCx (progUp (progRun (waitProg v))) 2 (progRun (waitProg v))).req 0 (BitVec.ofNat 64 o.va) .read with
            user := .engine } with
          | (s2, .ok a _ _) => answersBoth (fun n s3 => decide (n = 0 ∧ chan s3 2 = chan (progUp (progRun (waitProg v))) 2)) (eventValue [] o.part 9 a s2)
          | _ => false) = true) ∧
    (∀ v, (chan (progUp (waiting v)) 2).run = some (waiting v)) ∧
    (ChannelAt (progUp (progRun sigProg)) 2 5 (progRun sigProg) ∧
      ChannelAt (progUp { progRun sigProg with sigs := [sig0, sig0, sig0, sig0] }) 2 5 { progRun sigProg with sigs := [sig0, sig0, sig0, sig0] }) ∧
    (let r := { progRun sigProg with sigs := [sig0] }
     runsWork (progUp r) = true ∧ (chan (progUp r) 2).run = some r ∧ hintsDone (progUp r) sig0.hints = true ∧
       ∃ o s1, objGet [] (hIndex sig0.event) (progUp r) = .ok o s1 ∧
         answers (fun _ => true) (signalIn [] 0 o sig0.event sig0.value 0 ((mvCx (progUp r) 2 r).req r.ctx 0 .atomic) s1) = true) ∧
    (ChannelAt (progUp (progRun [7])) 2 7 (progRun [7]) ∧ hintsDone (progUp (progRun [7])) [] = true ∧ chQuiet (progUp (progRun [7])) 2 = true) :=
  ⟨⟨channel_at 2 (by decide +kernel), channel_at 2 (by decide +kernel), by decide +kernel⟩,
    ⟨channel_at 3 (by decide +kernel), channel_at 3 (by decide +kernel)⟩, channel_at 0 (by decide +kernel),
    ⟨fun m hm => channel_at 6 (by revert m; decide +kernel), by decide +kernel⟩, ⟨channel_at 1 (by decide +kernel), by decide +kernel⟩,
    ⟨channel_at 1 (by decide +kernel), by decide +kernel⟩,
    fun v hv => ⟨channel_at 4 (by revert v; decide +kernel), both_ok (by revert v; decide +kernel)⟩,
    fun _ => rfl,
    ⟨channel_at 5 (by decide +kernel), channel_at 5 (by decide +kernel)⟩, ⟨by decide +kernel, rfl, by decide +kernel, both_ok (by decide +kernel)⟩,
    channel_at 7 (by decide +kernel), by decide +kernel⟩

/-! ### Remote operations -/

/-- Node 0, with a route to node 7 by port 0. -/
def nodeBl : Bl := { ready := true, assigned := true, routes := [(7, 0)] }
def node0 (s : State) : State := { s with bl := nodeBl }
def sentBoth (p : State → Bool) : Sent → Bool
  | .ok s _ => p s
  | _ => false
theorem sent_ok {p : State → Bool} {r : Sent} (h : sentBoth p r = true) : ∃ s' k, r = .ok s' k ∧ p s' = true := by
  cases r with
  | ok s' k => exact ⟨s', k, rfl, h⟩
  | full => cases h
  | fail => cases h

def rwCmd : Cmd := cmdAt opRemoteWrite [7 * 2 ^ 48 + 0x2000, 0, 60, 0] [pipEntry]
def rwUp : State := node0 (withCmd wk rwCmd)
def rwStart : State :=
  updRem (updCmd rwUp 9 fun c => { c with work := .remote ⟨0, [], [], none⟩ }) 9 fun w => { w with got := (rwCmd.raw.pips.drop w.sent).take 60 }
def rsCmd (node : Nat) : Cmd := cmdAt opRemoteSignal [h2, 9, node] []
def rsUp (node : Nat) : State := node0 (withCmd wk (rsCmd node))
def ownReq : RReq := ⟨5, 7, 0, 0, .write 9 0, 100⟩
def waitAck : State := { node0 (withCmd wk { rwCmd with phase := .running, work := .remote ⟨60, [0], [], none⟩ }) with
  bl := { nodeBl with reqs := [(7 * 4096 + 0, ownReq)] } }

/-- The same with another length or destination, and with its bytes at an address. -/
def rwOther (node len src : Nat) : Cmd := cmdAt opRemoteWrite [node * 2 ^ 48 + 0x2000, src, len, 0] [pipEntry]
def rwAt (s : State) (c : Cmd) : State := node0 (withCmd s c)
def rwGo (u : State) (c : Cmd) : EStateM.Result Stop State Unit :=
  remSend [] 9 c 3 (updCmd u 9 fun c => { c with work := .remote ⟨0, [], [], none⟩ })
/-- A near core holds a line of the page table. -/
def wkHeld : State := { wk with ch := { wk.ch with st := .up, present := 1, dir := [(0x400, ⟨.exc, [0], false, none, 0⟩)] } }
def stopsWith (p : Stop → Bool) (r : EStateM.Result Stop State Unit) : Bool :=
  match r with
  | .ok _ _ => false
  | .error e _ => p e
theorem stops_with {p : Stop → Bool} {r : EStateM.Result Stop State Unit} (h : stopsWith p r = true) : ∃ e t, r = .error e t ∧ p e = true := by
  cases r with
  | ok a s' => cases h
  | error e t => exact ⟨e, t, rfl, h⟩
abbrev RwGood (s : State) (c : Cmd) : Prop :=
  1 ≤ (c.raw.w 3).toNat ∧ (c.raw.w 3).toNat ≤ 2 ^ 30 ∧ bits (c.raw.w 1) 57 48 ≠ s.bl.nodeId.toNat ∧ bits (c.raw.w 1) 63 58 = 0 ∧
    (c.raw.w 2 = 0 → (c.raw.w 3).toNat ≤ 960) ∧ keyOk s (bits (c.raw.w 4) 7 0) c.ctx c.part = true
/-- A signal behind a write to its node that is not sent yet. -/
def rsBehind : State := { rsUp 7 with qe := { (rsUp 7).qe with cmds := [(8, rwCmd), (9, rsCmd 7)] } }

theorem rw_dispatched (s : State) (c : Cmd) (h : runsWork (rwAt s c) = true ∧ cmdOf (rwAt s c) 9 = some c ∧ c.phase = .dispatched ∧
    c.raw.opcode = opRemoteWrite ∧ c.work = .none) : Dispatched (rwAt s c) 9 opRemoteWrite c ∧ c.work = .none :=
  ⟨⟨h.2.1, h.1, h.2.2.1, h.2.2.2.1⟩, h.2.2.2.2⟩

theorem wit_RemoteCommandsSend :
    ((Dispatched (rwAt wk (rwOther 7 0 0)) 9 opRemoteWrite (rwOther 7 0 0) ∧ (rwOther 7 0 0).work = .none) ∧
      ¬ RwGood (rwAt wk (rwOther 7 0 0)) (rwOther 7 0 0)) ∧
    ((Dispatched rwUp 9 opRemoteWrite rwCmd ∧ rwCmd.work = .none) ∧ RwGood rwUp rwCmd ∧ ∃ a t, rwGo rwUp rwCmd = .ok a t) ∧
    (let c := rwOther 7 60 0x100000
     (Dispatched (rwAt wkHeld c) 9 opRemoteWrite c ∧ c.work = .none) ∧ RwGood (rwAt wkHeld c) c ∧
       ∃ e t, rwGo (rwAt wkHeld c) c = .error e t ∧ decide (e = .wait) = true) ∧
    (let c := rwOther 7 60 (4 * gib)
     (Dispatched (rwAt wk c) 9 opRemoteWrite c ∧ c.work = .none) ∧ RwGood (rwAt wk c) c ∧
       ∃ e t, rwGo (rwAt wk c) c = .error e t ∧ decide (e ≠ .wait) = true) ∧
    ((rwCmd.raw.w 2 = 0 ∧ (rwCmd.raw.w 3).toNat = 60 ∧ bits (rwCmd.raw.w 1) 57 0 % 4096 + 60 ≤ 4096) ∧
      cmdOf rwStart 9 = some { rwCmd with work := .remote ⟨0, [], rwCmd.raw.pips.take 60, none⟩ } ∧
      ∃ s' rid, sendRequest rwStart 7 opRWrite (rwKey rwCmd) 0 (.write 9 0) (bits (rwCmd.raw.w 1) 57 0) 0 0 (rwCmd.raw.pips.take 60) =
          .ok s' rid ∧
        decide (cmdOf s' 9 = some { rwCmd with work := .remote ⟨0, [], rwCmd.raw.pips.take 60, none⟩, progress := 0 }) = true) ∧
    (let c := rwOther 8 60 0
     (Dispatched (rwAt wk c) 9 opRemoteWrite c ∧ c.work = .none) ∧ RwGood (rwAt wk c) c ∧ canSend (rwAt wk c) 8 0 0 = false) ∧
    (Dispatched (rsUp 0) 9 opRemoteSignal (rsCmd 0) ∧ bits ((rsCmd 0).raw.w 3) 9 0 = (rsUp 0).bl.nodeId.toNat) ∧
    (let c := rsCmd (7 + 9 * 2 ^ 16)
     Dispatched (rsUp (7 + 9 * 2 ^ 16)) 9 opRemoteSignal c ∧ keyOk (rsUp (7 + 9 * 2 ^ 16)) (bits (c.raw.w 3) 23 16) c.ctx c.part = false) ∧
    (Dispatched rsBehind 9 opRemoteSignal (rsCmd 7) ∧ (7 ≠ rsBehind.bl.nodeId.toNat ∧ keyOk rsBehind (bits ((rsCmd 7).raw.w 3) 23 16) 0 0 = true) ∧
      remBehind rsBehind 9 (rsCmd 7) 7 = true) ∧
    (Dispatched (rsUp 7) 9 opRemoteSignal (rsCmd 7) ∧ (bits ((rsCmd 7).raw.w 3) 9 0 = 7 ∧
        keyOk (rsUp 7) (bits ((rsCmd 7).raw.w 3) 23 16) 0 0 = true ∧ remBehind (rsUp 7) 9 (rsCmd 7) 7 = false) ∧
      ∃ s' rid, sendRequest (rsUp 7) 7 opRSignal 0 0 (.signal 9) h2 9 0 [] = .ok s' rid ∧ decide (s'.out = []) = true) ∧
    (Dispatched (rsUp 8) 9 opRemoteSignal (rsCmd 8) ∧ remBehind (rsUp 8) 9 (rsCmd 8) 8 = false ∧
      (match sendRequest (rsUp 8) 8 opRSignal 0 0 (.signal 9) h2 9 0 [] with | .fail => true | _ => false) = true) ∧
    (runsWork waitAck = true ∧ Tab.find? waitAck.bl.reqs (7 * 4096 + 0) = some ownReq) :=
  ⟨⟨rw_dispatched _ _ (by decide +kernel), by decide +kernel⟩,
    ⟨rw_dispatched wk rwCmd (by decide +kernel), by decide +kernel, answers_any (by decide +kernel)⟩,
    ⟨rw_dispatched _ _ (by decide +kernel), by decide +kernel, stops_with (by decide +kernel)⟩,
    ⟨rw_dispatched _ _ (by decide +kernel), by decide +kernel, stops_with (by decide +kernel)⟩,
    ⟨by decide +kernel, by decide +kernel, sent_ok (by decide +kernel)⟩,
    ⟨rw_dispatched _ _ (by decide +kernel), by decide +kernel, by decide +kernel⟩, ⟨by constructor <;> decide +kernel, by decide +kernel⟩,
    ⟨by constructor <;> decide +kernel, by decide +kernel⟩, ⟨by constructor <;> decide +kernel, by decide +kernel, by decide +kernel⟩,
    ⟨by constructor <;> decide +kernel, by decide +kernel, sent_ok (by decide +kernel)⟩, ⟨by constructor <;> decide +kernel, by decide +kernel⟩,
    by decide +kernel⟩

/-- A message from node 7: its request ID, address, arguments and data, padded to 16 B. -/
def msgOf (op : Nat) (req addr arg0 arg1 : Nat) (data : List Byte) : Msg :=
  ⟨BitVec.ofNat 5 op, 7, 0, leBytes 2 req ++ [0, 0] ++ leBytes 4 data.length ++ leBytes 8 addr ++ leBytes 8 arg0 ++ leBytes 8 arg1 ++
    padTo (16 * ceilDiv data.length 16) data⟩
def inBox (msg : Msg) (s : State) : State := { s with bl := { s.bl with inbox := [(40, msg)] } }
def awaits (o : ROwner) (msg : Msg) : State := { inBox msg waitAck with bl := { nodeBl with inbox := [(40, msg)], reqs := [(7 * 4096 + 0, ⟨5, 7, 0, 0, o, 100⟩)] } }
/-- Bag command 9 runs, and its piece of shard 7 is with node 7. -/
def poolUp (msg : Msg) : State := { awaits (.pool 9 0 1) msg with qe := (segUp segWork).qe }

theorem response_at {s : State} {op : Nat} {msg : Msg} (h : runsWork s = true ∧ msg.op.toNat = op) (hi : Tab.find? s.bl.inbox 40 = some msg) :
    ResponseAt s 40 op msg := ⟨h.1, hi, h.2⟩
theorem answers_at {s : State} {msg : Msg} {r : RReq} (h : 7 * 4096 = msg.src.toNat * 4096 + leAt msg.payload 0 2 % 4096)
    (hr : Tab.find? s.bl.reqs (7 * 4096) = some r) : Answers s msg (7 * 4096) r := ⟨h, hr⟩

theorem wit_ResponsesAnswerTheirRequests :
    (∀ x ∈ [(opReadData, ROwner.chRead 2 0), (opAtomicResult, .chAtomic 2), (opAck, .write 9 0), (opNack, .write 9 0), (opAck, .signal 9),
        (opReadData, .fetch 9), (opAck, .chWrite 2 0), (opAck, .chSignal 2), (opNack, .signal 9), (opNack, .fetch 9), (opNack, .chWrite 2 0),
        (opNack, .chRead 2 0), (opNack, .chAtomic 2), (opNack, .chSignal 2)],
      let msg := msgOf x.1 0 0 0 0 []
      ResponseAt (awaits x.2 msg) 40 x.1 msg ∧ Answers (awaits x.2 msg) msg (7 * 4096) ⟨5, 7, 0, 0, x.2, 100⟩) ∧
    cmdOf (awaits (.write 9 0) (msgOf opAck 0 0 0 0 [])) 9 =
      some { rwCmd with phase := .running, work := .remote ⟨60, [0], [], none⟩ } ∧
    (let c := { rwCmd with phase := .running, work := .remote ⟨60, [0, 30], [], none⟩ }
     cmdOf (withCmd (awaits (.write 9 0) (msgOf opAck 0 0 0 0 [])) c) 9 = some c ∧ ([0, 30] : List Nat).filter (· ≠ 0) ≠ [] ∧
       ([0] : List Nat).filter (· ≠ 0) = []) ∧
    (let c := { rwCmd with work := .remote ⟨0, [], [], some (5, 4)⟩ }
     cmdOf (withCmd (awaits (.fetch 9) (msgOf opReadData 0 0 0 0 [1, 2, 3, 4])) c) 9 = some c) ∧
    (let msg := msgOf opNack 0 0 0 0 []
     ResponseAt (poolUp msg) 40 opNack msg ∧ Answers (poolUp msg) msg (7 * 4096) ⟨5, 7, 0, 0, .pool 9 0 1, 100⟩ ∧
       bagOf (answered (poolUp msg) 40 (7 * 4096)) 9 = some segWork) ∧
    (let msg := msgOf opPoolPartial 0 0 0 (2 ^ 16) []
     ResponseAt (poolUp msg) 40 opPoolPartial msg ∧ Answers (poolUp msg) msg (7 * 4096) ⟨5, 7, 0, 0, .pool 9 0 1, 100⟩ ∧
       bagOf (answered (poolUp msg) 40 (7 * 4096)) 9 = some segWork) ∧
    (∀ op ∈ [opReadData, opAtomicResult, opPoolPartial, opAck, opNack], let msg := msgOf op 1 0 0 0 []
      ResponseAt (awaits (.write 9 0) msg) 40 op msg ∧
        Tab.find? (awaits (.write 9 0) msg).bl.reqs (msg.src.toNat * 4096 + leAt msg.payload 0 2 % 4096) = none) :=
  ⟨fun x hx => ⟨response_at (by revert x; decide +kernel) rfl, answers_at (by revert x; decide +kernel) rfl⟩, by decide +kernel, by decide +kernel,
    by decide +kernel, ⟨response_at (by decide +kernel) rfl, answers_at (by decide +kernel) rfl, by decide +kernel⟩,
    ⟨response_at (by decide +kernel) rfl, answers_at (by decide +kernel) rfl, by decide +kernel⟩,
    fun op hop => ⟨response_at (by revert op; decide +kernel) rfl, by revert op; decide +kernel⟩⟩

/-! ### More of channels -/

/-- The program is measured: the leaf of its page has M. -/
def measuredUp : State :=
  { withQueue (withCmd (work (farTables.map (fun e => if e.1 = 0xC00000 then (e.1, leBytes 2 0x287) else e) ++ objects)) runCmd1)
      id fun x => { x with conf := true, ttRoot := 0x400001 } with ps := wk.ps }

theorem wit_ChannelsTakeRuns_more :
    (let c := cmdAt opCopy [0x100000, 0x101000, 0, 0] []
     cmdOf (withCmd wk c) 9 = some c ∧ runsWork (withCmd wk c) = true ∧ bits (c.raw.w 3) 37 0 = 0) ∧
    (cmdOf measuredUp 9 = some runCmd1 ∧ runsWork measuredUp = true ∧ runCmd1.raw.opcode = opRunChannel ∧ chanPart measuredUp 2 = some runCmd1.part ∧
      (ctxOf measuredUp 0).conf = true ∧ hIndex (runCmd1.raw.w 1) = 4) ∧
    (∃ o s1, objGet [] 4 measuredUp = .ok o s1 ∧ answers (fun _ => true) (allMeasured [] o s1) = true) ∧
    (runsWork (chans (fun c => { c with st := .loading }) wk) = true ∧ (chan (chans (fun c => { c with st := .loading }) wk) 2).st = .loading) ∧
    ((chan (chans id wk) 2).st = .idle ∧ (chan (chans id wk) 2).queue = [] ∧ (chan (chans (fun c => { c with st := .running }) wk) 2).st = .running) ∧
    (0 < 64 ∧ 64 ≤ 2 ^ 31 ∧ 2 ^ 31 < 2 ^ 31 + 1) :=
  ⟨by decide +kernel, by decide +kernel, both_ok (by decide +kernel), by decide +kernel, by decide +kernel, by decide⟩

/-- Channel 2 runs at node 0, and its function may or may not issue requests. -/
def atNode (r : Run) : State := node0 (progUp r)
def quietFn (s : State) : State := { s with hosts := [] }
def fenceProg : List Word := [BitVec.ofNat 64 (6 + 3 * 2 ^ 8), 7]
def portRun (prog : List Word) : Run := { progRun prog with ports := [(0, 0x1000)] }
def movesTo (s : State) (r : Run) (p : IoRes → Exec → Bool) : Bool :=
  let s := moved s r
  match (chan s 2).run with
  | some r1 =>
    let x := runExec [] (mvCx s 2 r1) r1.busy s (newExec r)
    p x.2.2 x.2.1
  | none => false
/-- A page at 1 GiB that node 7 holds. -/
def farLeaf : State := { node0 (progUp (progRun (moveProg gib))) with mem := memOf (tables ++ small 0x100047 ++ objects ++ [(0x14006, [7])]) }
/-- A COPY of 16 B from a line that is poisoned. -/
def copyProg0 : List Word := [BitVec.ofNat 64 (1 + 16 * 2 ^ 32 + 4 * 2 ^ 10 + 4 * 2 ^ 13), 0x100000, 0x101000, 0, 7]
def badSource : State := { atNode (progRun copyProg0) with mem := { wk.mem with poison := [(0x100000 / 64, ())] } }
def statSig (va : Nat) : Run := { progRun sigProg with statVa := va, moves := 1, sigs := [{ sig0 with status := true }] }
def farSig (n : Nat) : Run := { progRun sigProg with sigs := [{ sig0 with remote := true, node := n }] }
/-- A port answers no write of the status words. -/
def statFails (r : Run) : State := { progUp r with ps := { wk.ps with parts := [] } }

theorem wit_ProgramsRun_more :
    (ChannelAt (progUp (portRun fenceProg)) 2 6 (portRun fenceProg) ∧ fnIssues (progUp (portRun fenceProg)) (ctxFn (progUp (portRun fenceProg)) 0) = true ∧
      (chanFlush (progUp (portRun fenceProg)) 2).2 ≠ [] ∧
      fnIssues (quietFn (progUp (portRun fenceProg))) (ctxFn (quietFn (progUp (portRun fenceProg))) 0) = false) ∧
    (∀ f ∈ [[], [1]], ChannelAt (progUp { progRun fenceProg with fence := some f }) 2 6 { progRun fenceProg with fence := some f }) ∧
    ChannelAt (progUp { progRun fenceProg with execs := [newExec (progRun (moveProg 0))] }) 2 6
      { progRun fenceProg with execs := [newExec (progRun (moveProg 0))] } ∧
    (let r := { progRun (moveProg 0x101000) with cur := some (newExec (progRun (moveProg 0x101000))) }
     ChannelAt (progUp r) 2 1 r) ∧
    (let r := { progRun (moveProg 0x101000) with execs := List.replicate 8 (newExec (progRun (moveProg 0x101000))) }
     ChannelAt (progUp r) 2 1 r) ∧
    movesTo (progUp (progRun (moveProg (4 * gib)))) (progRun (moveProg (4 * gib))) (fun res _ => match res with | .held _ => true | _ => false) = true ∧
    movesTo farLeaf (progRun (moveProg gib)) (fun res e => decide (res = .done ∧ e.acks ≠ [])) = true ∧
    movesTo badSource (progRun copyProg0) (fun res _ => match res with | .bad _ _ _ => true | _ => false) = true ∧
    (ChannelAt (progUp (portRun sigProg)) 2 5 (portRun sigProg) ∧ (portRun sigProg).sigs.length < 4 ∧
      fnIssues (progUp (portRun sigProg)) (ctxFn (progUp (portRun sigProg)) 0) = true ∧
      fnIssues (quietFn (progUp (portRun sigProg))) (ctxFn (quietFn (progUp (portRun sigProg))) 0) = false) ∧
    (let r := farSig 7
     ∃ s' k, mvSend (atNode r) (mvCx (atNode r) 2 r) 7 opRSignal (.chSignal 2) sig0.event.toNat sig0.value.toNat [] = .ok s' k ∧
       decide (s'.out = []) = true) ∧
    (let r := farSig 8
     (match mvSend (atNode r) (mvCx (atNode r) 2 r) 8 opRSignal (.chSignal 2) sig0.event.toNat sig0.value.toNat [] with
       | .fail => true
       | _ => false) = true) ∧
    (statStep (progUp (statSig 0x102000)) [] 2).2 = some none ∧
    (statStep (progUp (statSig (4 * gib))) [] 2).2 = none ∧
    (match (statStep (statFails (statSig (0x102000))) [] 2).2 with
      | some (some _) => true
      | _ => false) = true ∧
    ((∃ f, sig0.sent = some f) ∨ ({ sig0 with flush := [1] } : PendSig).flush ≠ []) ∧
    (let r := portRun [7]
     ChannelAt (progUp r) 2 7 r ∧ fnIssues (quietFn (progUp r)) (ctxFn (quietFn (progUp r)) 0) = false ∧
       fnIssues (progUp r) (ctxFn (progUp r) 0) = true) :=
  ⟨⟨channel_at 6 (by decide +kernel), by decide +kernel⟩, fun f hf => channel_at 6 (by revert f; decide +kernel), channel_at 6 (by decide +kernel),
    channel_at 1 (by decide +kernel), channel_at 1 (by decide +kernel), by decide +kernel, by decide +kernel, by decide +kernel,
    ⟨channel_at 5 (by decide +kernel), by decide +kernel⟩, sent_ok (by decide +kernel), by decide +kernel, by decide +kernel, by decide +kernel,
    by decide +kernel, .inr (by decide), channel_at 7 (by decide +kernel), by decide +kernel, by decide +kernel⟩

def reqUp (msg : Msg) : State := inBox msg (node0 wk)
def wrMsg (a : Nat) : Msg := msgOf opRWrite 0 a 0 0 [1, 2, 3, 4]
/-- A write to the host memory of function 3. -/
def hostMsg : Msg := msgOf opRWrite 0 0x2000 (1 + 3 * 2 ^ 16) 0 [1, 2, 3, 4]
def rdMsg : Msg := msgOf opRRead 0 0x2000 4 0 []
def atMsg : Msg := msgOf opRAtomic 0 0x2000 0 0 (leBytes 8 5)
def sgMsg : Msg := msgOf opRSignal 0 h2 9 0 []
/-- A REMOTE_POOL of one row in BF16 of dim 8. -/
def poolMsg (addr extra : Nat) : Msg := msgOf opRPool 0 addr (8 * 2 ^ 16 + 2 ^ 8 + extra) (1 + 2 ^ 16) (leBytes 8 (2 ^ 16) ++ leBytes 8 0x900050)
def oddMsg (op : Nat) : Msg := { msgOf op 0 0 0 0 [] with payload := [] }
def poolKeyed (v : VLine) (msg : Msg) : State := inBox msg (node0 { steady (keyMem v) with kt := { descs := [(7, keyDesc polFault)] } })
def servedRq : TrReq := servedReq 40 0 .engine 0 .read
/-- Version 2 is pending. -/
def linePending : VLine := { line1 with pending := true }

theorem request_at {s : State} {op : Nat} {msg : Msg} (h : runsWork s = true ∧ msg.op.toNat = op ∧ reqBehind s 40 msg = false)
    (hi : Tab.find? s.bl.inbox 40 = some msg) : RequestAt s 40 op msg := ⟨h.1, hi, h.2.1, h.2.2⟩

theorem need_ok {c : Bool} {st : Byte} {s : State} (h : c = true) : need c st s = .ok () s := by
  rw [h]
  rfl

theorem poolTable_pins {s s1 : State} {m : Nat} {msg : Msg} {o : Obj} {v : VLine} (hl : lookupHandle [] (BitVec.ofNat 64 msg.addr) [tyTable] msg.part false s = .ok o s)
    (hk : (tableDesc o.raw).keyVa ≠ 0 ∧ (ctxOf s o.ctx).st = .enabled ∧ poolNeed msg ≤ (tableDesc o.raw).rowBytes)
    (hg : vlineGet [] (servedReq m o.ctx .engine 0 .read) o s = .ok v s) (hx : msg.arg0 / 8 % 2 = 0)
    (hp : vlinePut [] (servedReq m o.ctx .engine 0 .read) (hIndex (BitVec.ofNat 64 msg.addr)) o (v.setPins v.slot (v.pins v.slot + 1)) s = .ok () s1) :
    ∃ w, poolTable [] m msg s = .ok (some (w, hIndex (BitVec.ofNat 64 msg.addr), v.slot)) s1 := by
  unfold poolTable
  rw [then_ok hl, then_ok (need_ok (by simp [hk.1])), then_ok (show (get : Act State) s = .ok s s from rfl),
    then_ok (need_ok (by simp [hk.2.1])), then_ok (need_ok (by simp [hk.2.2])), then_ok hg]
  simp only [hx]
  refine ⟨_, (then_ok hp).trans rfl⟩

theorem poolTable_waits {s : State} {m : Nat} {msg : Msg} {o : Obj} {v : VLine} (hl : lookupHandle [] (BitVec.ofNat 64 msg.addr) [tyTable] msg.part false s = .ok o s)
    (hk : (tableDesc o.raw).keyVa ≠ 0 ∧ (ctxOf s o.ctx).st = .enabled ∧ poolNeed msg ≤ (tableDesc o.raw).rowBytes)
    (hg : vlineGet [] (servedReq m o.ctx .engine 0 .read) o s = .ok v s)
    (hx : msg.arg0 / 8 % 2 = 1 ∧ v.pending = true ∧ v.ver + 1 = msg.arg0 / 2 ^ 32 % 2 ^ 30) : poolTable [] m msg s = .ok none s := by
  unfold poolTable
  rw [then_ok hl, then_ok (need_ok (by simp [hk.1])), then_ok (show (get : Act State) s = .ok s s from rfl),
    then_ok (need_ok (by simp [hk.2.1])), then_ok (need_ok (by simp [hk.2.2])), then_ok hg]
  simp only [hx.1, hx.2.1, ← hx.2.2]
  simp
  rfl

theorem facts_pool : (decide (Does (lookupHandle [] (BitVec.ofNat 64 h7) [tyTable] 0 false) (poolKeyed line1 (poolMsg h7 0)) keyTab) &&
    decide (after (lookupHandle [] (BitVec.ofNat 64 h7) [tyTable] 0 false (poolKeyed line1 (poolMsg h7 0))) = poolKeyed line1 (poolMsg h7 0)) &&
    decide (Gets (poolKeyed line1 (poolMsg h7 0)) servedRq keyTab line1) &&
    decide (Puts (poolKeyed line1 (poolMsg h7 0)) servedRq keyTab { line1 with pins0 := 1 }) &&
    decide (Does (lookupHandle [] (BitVec.ofNat 64 h7) [tyTable] 0 false) (poolKeyed linePending (poolMsg h7 (8 + 2 * 2 ^ 32))) keyTab) &&
    decide (after (lookupHandle [] (BitVec.ofNat 64 h7) [tyTable] 0 false (poolKeyed linePending (poolMsg h7 (8 + 2 * 2 ^ 32)))) =
      poolKeyed linePending (poolMsg h7 (8 + 2 * 2 ^ 32))) &&
    decide (Gets (poolKeyed linePending (poolMsg h7 (8 + 2 * 2 ^ 32))) servedRq keyTab linePending)) = true := by
  decide +kernel

theorem wit_RequestsAreServed :
    (RequestAt (reqUp (wrMsg 0x2000)) 40 opRWrite (wrMsg 0x2000) ∧
      (let msg := wrMsg 0x2000
       reqFormat msg = true ∧ msg.len = 4 ∧ msg.addr % 4096 + 4 ≤ 4096 ∧ msg.arg0 = 0 ∧ msg.arg1 = 0 ∧ partChecks (reqUp msg) msg = true ∧
         rangeChecks (reqUp msg) 40 msg msg.addr 4 = true ∧
         (writePlan { mvWriteVia (reqUp msg) 0 msg.part with born := some 40 } [] (msg.data.zipIdx.map fun x => (msg.addr % 2 ^ 48 + x.2, x.1))
           (rowPlan (msg.addr % 2 ^ 48) 4) (dropMsg (reqUp msg) 40)).2 = none) ∧
      RequestAt (reqUp (wrMsg (2 ^ 48))) 40 opRWrite (wrMsg (2 ^ 48)) ∧ rangeChecks (reqUp (wrMsg (2 ^ 48))) 40 (wrMsg (2 ^ 48)) (2 ^ 48) 4 = false) ∧
    (RequestAt (reqUp hostMsg) 40 opRWrite hostMsg ∧ reqFormat hostMsg = true ∧ hostMsg.len = 4 ∧ hostMsg.addr % 4096 + 4 ≤ 4096 ∧
      hostMsg.arg0 = 1 + hostMsg.arg0 / 2 ^ 16 % 4096 * 2 ^ 16 ∧ hostMsg.arg1 = 0 ∧ partChecks (reqUp hostMsg) hostMsg = true) ∧
    (RequestAt (reqUp rdMsg) 40 opRRead rdMsg ∧ (reqFormat rdMsg = true ∧ rdMsg.arg0 = 4 ∧ rdMsg.len = 0 ∧ partChecks (reqUp rdMsg) rdMsg = true ∧
      rangeChecks (reqUp rdMsg) 40 rdMsg rdMsg.addr 4 = true ∧
      (readPlan { mvReadVia (reqUp rdMsg) 0 rdMsg.part with
        port := gwBase (reqUp rdMsg).build 3 + leastBusy (reqUp rdMsg) (gwBase (reqUp rdMsg).build 3) (ceilDiv (reqUp rdMsg).build.channels 16), born := some 40 } [] (rowPlan (rdMsg.addr % 2 ^ 48) 4) (dropMsg (reqUp rdMsg) 40)).2 = none)) ∧
    (RequestAt (reqUp atMsg) 40 opRAtomic atMsg ∧ (reqFormat atMsg = true ∧ atMsg.arg0 = 0 ∧ atMsg.len = 8 ∧ atMsg.addr % 8 = 0 ∧
      partChecks (reqUp atMsg) atMsg = true ∧ rangeChecks (reqUp atMsg) 40 atMsg atMsg.addr 8 = true ∧
      homeReady (reqUp atMsg) 0x2000 8 true (some atMsg.part) [] = (reqUp atMsg, true) ∧
      (homeRmw { homeVia (reqUp atMsg) (some atMsg.part) none 0x80 with born := some 40 } [] (dropMsg (reqUp atMsg) 40) 0x2000 8 0 (leAt atMsg.data 0 8)
        (leAt atMsg.data 8 8)).2.1 = .ok)) ∧
    (RequestAt (reqUp sgMsg) 40 opRSignal sgMsg ∧ (reqFormat sgMsg = true ∧ sgMsg.len = 0 ∧ partChecks (reqUp sgMsg) sgMsg = true ∧
      inService (reqUp sgMsg) 40 = false) ∧ ∃ stale u, signalHere [] 40 sgMsg (reqUp sgMsg) = .ok stale u ∧ decide (stale = false) = true) ∧
    (RequestAt (reqUp (poolMsg 0 0)) 40 opRPool (poolMsg 0 0) ∧ (inService (reqUp (poolMsg 0 0)) 40 = false ∧ poolFormat (poolMsg 0 0) = true ∧
      partChecks (reqUp (poolMsg 0 0)) (poolMsg 0 0) = true ∧
      ∀ e ∈ poolEnts (poolMsg 0 0) true, rangeChecks (reqUp (poolMsg 0 0)) 40 (poolMsg 0 0)
        ((reqUp (poolMsg 0 0)).bl.nodeId.toNat * 2 ^ 48 + e.2.addr) (poolNeed (poolMsg 0 0)) = true)) ∧
    (RequestAt (poolKeyed line1 (poolMsg h7 0)) 40 opRPool (poolMsg h7 0) ∧ poolFormat (poolMsg h7 0) = true ∧ (poolMsg h7 0).addr ≠ 0 ∧
      ∃ w u, poolTable [] 40 (poolMsg h7 0) (poolKeyed line1 (poolMsg h7 0)) = .ok (some (w, 7, false)) u) ∧
    (RequestAt (poolKeyed linePending (poolMsg h7 (8 + 2 * 2 ^ 32))) 40 opRPool (poolMsg h7 (8 + 2 * 2 ^ 32)) ∧
      poolTable [] 40 (poolMsg h7 (8 + 2 * 2 ^ 32)) (poolKeyed linePending (poolMsg h7 (8 + 2 * 2 ^ 32))) =
        .ok none (poolKeyed linePending (poolMsg h7 (8 + 2 * 2 ^ 32)))) ∧
    (∀ op ∈ [opRWrite, opRRead, opRAtomic, opRSignal, opRPool], RequestAt (reqUp (oddMsg op)) 40 op (oddMsg op) ∧
      reqFormat (oddMsg op) = false ∧ inService (reqUp (oddMsg op)) 40 = false) := by
  have h := facts_pool
  simp only [Bool.and_eq_true, decide_eq_true_eq] at h
  obtain ⟨⟨⟨⟨⟨⟨f0, f1⟩, f2⟩, f3⟩, f4⟩, f5⟩, f6⟩ := h
  have a1 : (poolMsg h7 0).addr = h7 ∧ (poolMsg h7 0).part = 0 ∧ (poolMsg h7 0).arg0 / 8 % 2 = 0 ∧
    poolNeed (poolMsg h7 0) ≤ (tableDesc keyTab.raw).rowBytes ∧ hIndex (BitVec.ofNat 64 h7) = 7 := by decide +kernel
  have a2 : (poolMsg h7 (8 + 2 * 2 ^ 32)).addr = h7 ∧ (poolMsg h7 (8 + 2 * 2 ^ 32)).part = 0 ∧ (poolMsg h7 (8 + 2 * 2 ^ 32)).arg0 / 8 % 2 = 1 ∧
    poolNeed (poolMsg h7 (8 + 2 * 2 ^ 32)) ≤ (tableDesc keyTab.raw).rowBytes ∧ (poolMsg h7 (8 + 2 * 2 ^ 32)).arg0 / 2 ^ 32 % 2 ^ 30 = 2 := by
    decide +kernel
  refine ⟨⟨request_at (by decide +kernel) rfl, by decide +kernel, request_at (by decide +kernel) rfl, by decide +kernel⟩,
    ⟨request_at (by decide +kernel) rfl, by decide +kernel⟩, ⟨request_at (by decide +kernel) rfl, by decide +kernel⟩, ⟨request_at (by decide +kernel) rfl, by decide +kernel⟩,
    ⟨request_at (by decide +kernel) rfl, by decide +kernel, answers_ok (by decide +kernel)⟩,
    ⟨request_at (by decide +kernel) rfl, by decide +kernel⟩,
    ⟨request_at (by decide +kernel) rfl, by decide +kernel, by decide +kernel, ?_⟩, ⟨request_at (by decide +kernel) rfl, ?_⟩,
    fun op hop => ⟨request_at (by revert op; decide +kernel) rfl, by revert op; decide +kernel⟩⟩
  · obtain ⟨w, hw⟩ := poolTable_pins (m := 40) (msg := poolMsg h7 0) (by rw [a1.1, a1.2.1]; exact doesTo f0 f1) ⟨tab_keyed, rfl, a1.2.2.2.1⟩ (gets f2)
      a1.2.2.1 (puts f3)
    rw [a1.1, a1.2.2.2.2] at hw
    exact ⟨w, _, hw⟩
  · exact poolTable_waits (m := 40) (by rw [a2.1, a2.2.1]; exact doesTo f4 f5) ⟨tab_keyed, rfl, a2.2.2.2.1⟩ (gets f6) ⟨a2.2.2.1, rfl, a2.2.2.2.2.symm⟩

/-! ### Links -/

def linkUp (b : BlPort) : State := { wk with bl := { nodeBl with ports := [(0, b)] }, ps := { wk.ps with quince := .running } }
def sent0 (seq : Nat) : SentFlit := { seq := seq, vc := 0, key := 0, origin := none, flit := List.replicate 256 0 }
def tried (f : SentFlit) : SentFlit := { f with tries := 3 }

theorem wit_LinksTrain :
    portExists (linkUp {}) 0 = true ∧ barOk (linkUp {}) = true ∧ safeState (linkUp {}) = false ∧
    (∀ b ∈ [({ st := .detect } : BlPort), { st := .train, fails := 2 }, { st := .recovery, replay := [sent0 3] }],
      blPort (linkUp b) 0 = b ∧ (b.comingUp = true ∨ b.st = .recovery) ∧ b.en = true ∧ b.toX4 = false) ∧
    16 ≤ portWidth (linkUp {}) 0 ∧ (({ st := .detect, waitRetry := true } : BlPort).st = .detect) ∧
    (∀ b ∈ [({ st := .active } : BlPort), { st := .failed }, { en := false }], blPort (linkUp b) 0 = b) ∧
    (∀ i < 16, (0xFFFF : BitVec 16).getLsbD i = true) ∧ (0xFF0F : BitVec 16).getLsbD 4 = false ∧ (0xFFF0 : BitVec 16).getLsbD 0 = false ∧
    ({ linkUp { st := .active } with fc := { wk.fc with cls := .fatal } } : State).fc.cls ≠ .run := by decide +kernel

def takesUp (b : BlPort) : State := linkUp { b with st := .active }
/-- A DATA flit of the link, with SEQ 0 and a good HOPCRC. -/
def flit0 : List Byte := patch (List.replicate 256 0) 12 (leBytes 4 (crc32c (List.replicate 252 0)).toNat)
def hop0 : HopFields := { crdVc := 0, crd := 0, ack := none }

theorem wit_FlitsAreAcknowledgedAndReplayed :
    (takes (takesUp {}) 0 = true ∧ takes (takesUp { replay := [sent0 0, sent0 1] }) 0 = true) ∧
    unackedAfter [sent0 0, sent0 1] 0 ≠ [] ∧ (∃ f ∈ unackedAfter [tried (sent0 0), tried (sent0 1)] 0, 3 ≤ f.tries) ∧
    unackedAfter [sent0 0, sent0 1] 1 = [] ∧ (∀ f ∈ unackedAfter [sent0 0, sent0 1] 0, f.tries < 3) ∧
    (blPort (takesUp { unacked := 1, l1Sent := true }) 0).unacked ≠ 0 ∧ takes (takesUp { unacked := 1, l1Sent := true }) 0 = true ∧
    takes (linkUp { st := .recovery }) 0 = false ∧ (blPort (takesUp { l1Sent := true }) 0).l1Sent = true ∧
    (let f := leBytes 256 (leNat flit0)
     leAt f 12 4 = (crc32c (f.take 12 ++ f.drop 16)).toNat ∧ hop0.crdVc = BitVec.ofNat 2 (byteAt f 6) ∧ hop0.crd = BitVec.ofNat 8 (byteAt f 7) ∧
       hop0.ack = (if (leAt f 10 2).testBit 12 then some (BitVec.ofNat 12 (leAt f 10 2)) else none) ∧
       leAt f 8 2 % 4096 = (blPort (takeHop (takesUp {}) 0 hop0) 0).rxSeq ∧
       leAt f 8 2 % 4096 ≠ (blPort (takeHop (takesUp { rxSeq := 5 }) 0 hop0) 0).rxSeq) ∧
    leAt (leBytes 256 0) 12 4 ≠ (crc32c ((leBytes 256 0).take 12 ++ (leBytes 256 0).drop 16)).toNat ∧
    (portExists (takesUp {}) 0 = true ∧ (blPort (takesUp {}) 0).live = true ∧ safeState (takesUp {}) = false) := by decide +kernel

/-- A flit of VC 0 that writes node `dst`, with a TTL and a key. -/
def flitTo (dst ttl key : Nat) : List Byte :=
  leBytes 1 (1 + if key = 0 then 0 else 8) ++ [BitVec.ofNat 8 opRWrite] ++ leBytes 3 (dst + 2 * 2 ^ 20) ++ leBytes 1 key ++ [0, 0] ++
    leBytes 2 (ttl * 2 ^ 12) ++ List.replicate 246 0
def goodFlit : List Byte := patch (flitTo 0 15 0) 240 (leBytes 8 10722150183773721039)
def keyedUp (k : KeySlot) : State := { linkUp {} with tick := 200001, bl := { nodeBl with keys := [(9, k)] } }

/-- The LCRC of the flit to node 0, a quarter of its zero bytes at a time. -/
def quarter (r : Nat) : Nat := (List.replicate 56 (0 : Byte)).foldl crc64Byte r
theorem lcrc1 : ((flitTo 0 15 0).take 6).foldl crc64Byte 0 = 1034030400687389063 := by decide +kernel
theorem lcrc2 : quarter 1034030400687389063 = 14437926900891368562 := by decide +kernel
theorem lcrc3 : quarter 14437926900891368562 = 17592556107283615839 := by decide +kernel
theorem lcrc4 : quarter 17592556107283615839 = 7131900201480962856 := by decide +kernel
theorem lcrc5 : quarter 7131900201480962856 = 10722150183773721039 := by decide +kernel

theorem lcrc (f : List Byte) (h : f.take 6 = (flitTo 0 15 0).take 6 ∧ (f.drop 16).take 224 =
    List.replicate 56 0 ++ (List.replicate 56 0 ++ (List.replicate 56 0 ++ List.replicate 56 0))) :
    (crc64 (f.take 6 ++ (f.drop 16).take 224)).toNat = 10722150183773721039 := by
  unfold crc64
  rw [h.1, h.2, List.foldl_append, lcrc1, List.foldl_append, List.foldl_append, List.foldl_append]
  change (BitVec.ofNat 64 (quarter (quarter (quarter (quarter 1034030400687389063))))).toNat = _
  rw [lcrc2, lcrc3, lcrc4, lcrc5]
  decide

theorem wit_tag_of_flit_fails :
    flitTagOk (keyedUp { st := .active, install := some 100000 }) (flitTo 0 15 9) = false := by
  decide +kernel

/-- The same flit with the tag that its key gives (GCM over the zeros of its payload). -/
def taggedFlit : List Byte := patch (flitTo 0 15 9) 240 (leBytes 16 67286982208839280110530966818391314858)
theorem wit_tag_of_flit_checks : flitTagOk (keyedUp { st := .active, install := some 100000 }) taggedFlit = true := by
  decide +kernel

/-- A flit of VC 2 for a node that has no ID yet, and one with its E bit and length wrong. -/
def mgmtFlit : List Byte := patch (flitTo 0 15 0) 0 [1 + 2 * 16, 0x1D]
def oddE : List Byte := patch (flitTo 0 15 0) 0 [1 + 8]
def noUnits : List Byte := patch (flitTo 0 15 0) 2 (leBytes 3 (15 * 2 ^ 20))
def noId : State := { linkUp {} with bl := { nodeBl with assigned := false } }

theorem wit_FlitsAreCheckedAndForwarded_more :
    (noId.bl.assigned = false ∧ byteAt (flitTo 0 15 0) 0 / 16 % 4 ≠ 2 ∧ byteAt mgmtFlit 0 / 16 % 4 = 2 ∧ byteAt mgmtFlit 0 % 8 = 1 ∧
      opVc (byteAt mgmtFlit 1) = some 2) ∧
    (byteAt oddE 0 % 8 = 1 ∧ opVc (byteAt oddE 1) = some 0 ∧ (byteAt oddE 0).testBit 3 ≠ decide (byteAt oddE 5 ≠ 0)) ∧
    (opVc (byteAt noUnits 1) = some 0 ∧ 14 < leAt noUnits 2 3 / 2 ^ 20 ∧ leAt (patch noUnits 2 [0, 0, 0]) 2 3 / 2 ^ 20 = 0) ∧
    (keySlot (keyedUp { st := .empty }) 9).st = .empty ∧
    (byteAt taggedFlit 0 % 8 = 1 ∧ opVc (byteAt taggedFlit 1) = some 0 ∧ byteAt taggedFlit 5 = 9 ∧ (byteAt taggedFlit 0).testBit 3 = true ∧
      leAt taggedFlit 2 3 / 2 ^ 20 = 2 ∧ leAt taggedFlit 2 3 % 1024 = 0) ∧
    byteAt (patch mgmtFlit 1 [0x18]) 1 = 0x18 := by decide +kernel

theorem wit_FlitsAreCheckedAndForwarded :
    (byteAt (List.replicate 256 (0 : Byte)) 0 % 8 ≠ 1) ∧
    (∀ x ∈ [(7, 15, 0), (7, 0, 0), (0, 15, 0), (0, 15, 9), (8, 15, 0)], let f := flitTo x.1 x.2.1 x.2.2
      byteAt f 0 % 8 = 1 ∧ opVc (byteAt f 1) = some (byteAt f 0 / 16 % 4) ∧ leAt f 2 3 % 1024 = x.1 ∧ flitTtl f = x.2.1 ∧
        (byteAt f 0).testBit 3 = decide (byteAt f 5 ≠ 0) ∧ leAt f 2 3 / 2 ^ 20 = 2 ∧ byteAt f 5 = x.2.2) ∧
    ((linkUp {}).bl.assigned = true ∧ (linkUp {}).bl.nodeId.toNat = 0 ∧ routeTo (linkUp {}) 7 = some 0 ∧ routeTo (linkUp {}) 8 = none) ∧
    (keySlot (keyedUp { st := .revoked }) 9).st = .revoked ∧
    (∀ t ∈ [100000, 200000], (keySlot (keyedUp { st := .active, install := some t }) 9).st = .active ∧
      (keySlot (keyedUp { st := .active, install := some t }) 9).install = some t) ∧
    (leAt goodFlit 240 8 = (crc64 (goodFlit.take 6 ++ (goodFlit.drop 16).take 224)).toNat ∧ byteAt goodFlit 5 = 0) ∧
    leAt (flitTo 0 15 0) 240 8 ≠ (crc64 ((flitTo 0 15 0).take 6 ++ ((flitTo 0 15 0).drop 16).take 224)).toNat := by
  rw [lcrc goodFlit (by decide +kernel), lcrc (flitTo 0 15 0) (by decide +kernel)]
  decide +kernel

/-! ### Discovery, job keys and shard directories -/

/-- A manager with a peer manager on port 1 and a worker on port 2. -/
def mgrBl : Bl :=
  { nodeBl with ports := [(1, { st := .active, peerRole := true }), (2, { st := .active })], heard := [5], discBusy := true, root := true }
def mgrUp (f : Bl → Bl) : State :=
  { wk with role := true, bl := f mgrBl, ps := { wk.ps with quince := .running, own := Tab.insert wk.ps.own 15 0x8888888888888888 } }
def wkrUp (f : Bl → Bl) : State := { mgrUp f with role := false }
def retireUp (b : BlPort) : State := mgrUp fun l => { l with ports := [(1, b)], routes := [(16, 1)] }

/-- The port to the manager of board 1 carries a tree edge. -/
def edge (b : BlPort) : BlPort := { b with st := .active, peerRole := true }
/-- The root has a link to another manager on port 1. -/
def treeLinks : List MgrLink := [⟨identityDigest (mgrUp id), 1, identityDigest (mgrUp id) + 1, 0⟩]
def treeOf (s : State) : List TreeNode :=
  let me : TreeNode := ⟨identityDigest s, 0, 0, 0, 0, 0⟩
  (growTree (treeLinks.filter fun l => decide (l.a ≠ identityDigest s) || routable s l.port) s.bl.tree 3 [me] [me] false).1

theorem wit_DiscoveryAndRoutes_tree : 2 ∈ workerPorts (mgrUp id) ∧ ∃ x ∈ treeMaps (mgrUp id) [] (treeOf (mgrUp id)), x.1.depth ≠ 0 ∧
    towards (treeOf (mgrUp id)) 0 x.1.board = some 1 := by
  have hr : routable (mgrUp id) 1 = true := by decide +kernel
  have ht : (mgrUp id).bl.tree = [] := rfl
  have h : treeOf (mgrUp id) = [⟨identityDigest (mgrUp id), 0, 0, 0, 0, 0⟩, ⟨identityDigest (mgrUp id) + 1, 1, 1, 0, 1, 0⟩] := by
    unfold treeOf treeLinks
    generalize identityDigest (mgrUp id) = d
    have hf : (List.find? (fun n => !decide (0 = n)) (List.range 66)).getD 64 = 1 := by decide
    simp [hr, ht, growTree, linksOfMgr, boardFor, sortBy, insertBy, hf]
  rw [h]
  refine ⟨by decide +kernel, (_, _), List.mem_map.mpr ⟨⟨identityDigest (mgrUp id) + 1, 1, 1, 0, 1, 0⟩, by simp, rfl⟩, by simp, ?_⟩
  generalize identityDigest (mgrUp id) = d
  simp [towards, upPath]

theorem wit_DiscoveryAndRoutes :
    (let s := mgrUp fun l => { l with started := false, discBusy := false }
     s.role = true ∧ s.build.brambles.isEmpty = false ∧ safeState s = false ∧ s.tp.ready = true ∧ s.bl.started = false ∧ barOk s = true ∧
       discRuns s = false ∧ 1 ∈ boardLinks s) ∧
    (discRuns (mgrUp id) = true ∧ (mgrUp fun l => { l with started := true }).bl.started = true ∧
      (let s := wkrUp fun l => { l with discBusy := false }; s.role = false ∧ discRuns s = false ∧ barOk s = true)) ∧
    ((mgrUp id).role = true ∧ (mgrUp id).tp.ready = true ∧ linked (mgrUp id) 1 = true ∧ (9 : Word) ∉ (mgrUp id).bl.heard ∧ (5 : Word) ∈ (mgrUp id).bl.heard ∧
      (mgrUp id).bl.discBusy = true ∧ (mgrUp id).bl.heard ≠ [] ∧ safeState (mgrUp id) = false ∧ (mgrUp id).bl.root = true) ∧
    (let s := mgrUp fun l => { l with root := false }
     s.bl.root = false ∧ s.bl.assigned = true) ∧
    (let s := mgrUp fun l => { l with root := false, assigned := false }
     s.bl.root = false ∧ s.bl.assigned = false) ∧
    ((wkrUp id).role = false ∧ portExists (wkrUp id) 1 = true ∧ safeState (wkrUp id) = false ∧ (wkrUp id).tp.ready = true ∧
      (wkrUp id).bl.assigners = [] ∧
      (let s := wkrUp fun l => { l with assigners := [2] }
       1 < (if s.bl.assigners.any (sameMgr s 1) then s.bl.assigners else s.bl.assigners ++ [1]).length)) ∧
    ((wkrUp id).bl.assigned = true ∧ (wkrUp fun l => { l with assigned := false }).bl.assigned = false ∧ (mgrUp id).bl.root = true) ∧
    (∀ e ∈ (wkrUp id).bl.routes, Tab.find? [(7, 0)] e.1 = some e.2 ∨ (blPort (wkrUp id) e.2).replay = []) ∧
    (let s := retireUp { st := .active, replay := [sent0 0] }
     ¬ ∀ e ∈ s.bl.routes, Tab.find? [(7, 0)] e.1 = some e.2 ∨ (blPort s e.2).replay = []) ∧
    (let s := mgrUp fun l => { l with ports := [(1, { st := .active, retire := true })] }
     (blPort s 1).retire = true ∧ (blPort s 1).retired = false ∧ s.bl.newRoutes = none ∧ ∀ e ∈ s.bl.routes, e.2 ≠ 1) ∧
    (∀ b ∈ [({ st := .active } : BlPort), { st := .active, replay := [sent0 0] }, { st := .active, retire := true },
        { st := .active, retire := true, retired := true, node := some 16 }],
      barOk (retireUp b) = true ∧ portExists (retireUp b) 1 = true ∧ blPort (retireUp b) 1 = b) ∧
    (treePort (retireUp (edge {})) 1 = true ∧ treePort (retireUp { st := .active }) 1 = false) ∧
    (let s := retireUp (edge { retire := true, retired := true })
     (blPort s 1).peerRole = true ∧ s.role = true) ∧
    (linked (retireUp { st := .active, retire := true }) 1 = true ∧ linked (retireUp { st := .train, retire := true }) 1 = false ∧
      (blPort (retireUp { st := .active, retire := true }) 1).peerRole = false) := by
  refine ⟨?_, ?_, ?_, ?_, ?_, ?_, ?_, ?_, ?_, ?_, ?_, ?_, ?_, ?_⟩ <;> decide +kernel

/-- A key blob for slot 9: generation 1, node 0, boot 0. -/
def blob9 : List Byte := leBytes 4 1 ++ [9, 0] ++ List.replicate 58 0
def jobUp (s : State) : State := { s with bl := { s.bl with ready := true }, ps := { s.ps with jobOp := .run, jobWait := [0, 7] } }

theorem wit_JobKeysAreInstalled :
    (runsWork (mgrUp id) = true ∧ (mgrUp id).build.brambles.isEmpty = false ∧ (mgrUp id).ps.quince = .running ∧
      (mgrUp id).bl.nodeId = 0 ∧ (mgrUp id).role = true ∧ (wkrUp id).bl.nodeId = 0 ∧ (wkrUp id).role = false ∧
      (let b := leBytes 64 (leNat blob9)
       byteAt b 4 = 9 ∧ keyPart (mgrUp id) 9 ≠ none ∧ byteAt b 5 = 0 ∧ leAt b 6 2 < 1024 ∧ leAt b 12 4 = 0 ∧
         Tab.get 0 (mgrUp id).ps.lastKey 9 < leAt b 8 4 * 2 ^ 32 + leAt b 0 4 ∧ (keySlot (mgrUp id) 9).st ≠ .revoked)) ∧
    keyHop (retireUp (edge { node := some 16 })) 17 = 16 ∧ keyHop (retireUp (edge { node := some 16 })) 16 = 16 ∧
    (let s := mgrUp id
     let s : State := { s with ps := { s.ps with relays := [⟨17, 0⟩] } }
     s.ps.jobOp.busy = false ∧ s.ps.relays.find? (fun r => r.node = (17 : BitVec 10).toNat) = some ⟨17, 0⟩ ∧
       s.ps.relays.find? (fun r => r.node = (7 : BitVec 10).toNat) = none) ∧
    (byteAt (leBytes 64 0) 4 = 0) ∧
    (barOk (mgrUp id) = true ∧ (mgrUp id).ps.jobOp.busy = false ∧ (mgrUp id).role = true ∧ (mgrUp id).bl.ready = true ∧
      (mgrUp id).ps.locks.getLsbD 2 = false) ∧
    (wkrUp id).role = false ∧ ({ mgrUp id with ps := { (mgrUp id).ps with locks := 4 } } : State).ps.locks.getLsbD 2 = true ∧
    (let v : State := { mgrUp id with ps := { (mgrUp id).ps with jobKey := 9 } }
     answers (fun bs => decide (bs = List.replicate 128 0)) (homeGet (sysVia v 0) [] 0 128 v) = true) ∧
    (let v : State := { mgrUp id with mem := memOf [(0, [128])], ps := { (mgrUp id).ps with jobKey := 9 } }
     answers (fun bs => decide (setBits 1024 (leNat bs) = [7])) (homeGet (sysVia v 0) [] 0 128 v) = true) ∧
    (let s := jobUp (mgrUp id)
     s.ps.jobOp.busy = true ∧ (7 : BitVec 10).toNat ∈ s.ps.jobWait ∧ ∃ n ∈ s.ps.jobWait, n ≠ 7) ∧
    (let s : State := { jobUp (mgrUp id) with ps := { (jobUp (mgrUp id)).ps with jobWait := [7] } }
     s.ps.jobOp.busy = true ∧ (7 : BitVec 10).toNat ∈ s.ps.jobWait ∧ ∀ n ∈ s.ps.jobWait, n = 7) := by
  refine ⟨?_, ?_, ?_, ?_, ?_, ?_, ?_, ?_, ?_, ?_, ?_, ?_⟩ <;> decide +kernel

def dirUp (f : Bl → Bl) : State := mgrUp fun l => f { l with shardEn := true, shardBase := 1 }
/-- An image of one shard, held by node 7. -/
def dirHdr : BitVec 128 := 2 ^ 64
def dirEnt7 : BitVec 128 := BitVec.ofNat 128 (h5 + 7 * 2 ^ 64 + 2 ^ 88)
def dirMap : List Byte := List.replicate 4096 0
def dirEnt0 : BitVec 128 := BitVec.ofNat 128 (h5 + 2 ^ 88)
def img7 : List Byte := dirImage dirHdr [dirEnt7] dirMap
def img0 : List Byte := dirImage dirHdr [dirEnt0] dirMap
def dirVia : Via := sysVia (dirUp id) (dirAddr (dirUp id) 3 true)
def dirHeld : State := { dirUp id with qe := { cmds := [(9, { cmdAt opBagPool [] [] with dir := some (3, true) })] } }
/-- A staged image of one shard, with slot 3 valid or not. -/
def staged (valid : Bool) (n : Byte) : State :=
  { dirUp fun l => { l with shardSlot := 3, dirs := [(3, ⟨valid, false⟩)] } with mem := memOf [(0x600008, [n])] }
def shardWaits : State := dirUp fun l => { l with shardOp := .run, shardWait := [0, 7] }

/-- Slot 4 has a directory of this node for table 5. -/
def takenUp : State :=
  { dirUp fun l => { l with dirs := [(4, ⟨true, false⟩)] } with mem := memOf [(dirAddr (dirUp id) 4 false, img0)] }

theorem wit_ShardDirectoriesAreInstalled :
    (runsWork (dirUp id) = true ∧ (dirUp id).build.brambles.isEmpty = false ∧ (dirUp id).bl.shardEn = true ∧ (mgrUp id).bl.shardEn = false) ∧
    dirBad (dirUp id) (dirImage dirHdr [dirEnt7] []) [dirEnt7] [] = true ∧
    (dirBad (dirUp id) img7 [dirEnt7] dirMap = false ∧ imageHeld dirHeld 3 (!(dirOf dirHeld 3).cur) = true ∧
      dirBad dirHeld img7 [dirEnt7] dirMap = false ∧ imageHeld (dirUp id) 3 (!(dirOf (dirUp id) 3).cur) = false ∧
      entryFor img7 (dirUp id).bl.nodeId.toNat = none ∧
      answers (fun _ => true) (homePut dirVia [] (dirAddr (dirUp id) 3 true) img7 (dirUp id)) = true) ∧
    (dirBad (dirUp id) img0 [dirEnt0] dirMap = false ∧ (entryFor img0 (dirUp id).bl.nodeId.toNat).isSome = true ∧
      answers (fun t => decide (t = false)) (handleTaken [] 3 (BitVec.ofNat 64 h5) (List.range 64) (dirUp id)) = true) ∧
    (barOk (dirUp id) = true ∧ (dirUp id).bl.shardOp.busy = false ∧ (dirUp id).role = true ∧ (dirUp id).bl.ready = true ∧
      (wkrUp fun l => { l with shardEn := true }).role = false) ∧
    (∀ x ∈ [(false, 1), (true, 1), (false, 0)], let s := staged x.1 x.2
      (dirOf s 3).valid = x.1 ∧
      answersBoth (fun bs u => decide (imgShards bs = x.2.toNat) && answers (fun g => decide (leNat g = 0)) (homeGet (sysVia u (dirAddr u 3 false)) []
        (dirAddr u 3 false + 12) 4 u)) (homeGet (sysVia s 0x600000) [] 0x600000 16384 s) = true) ∧
    (shardWaits.bl.shardOp.busy = true ∧ (7 : BitVec 10).toNat ∈ shardWaits.bl.shardWait ∧ ∃ n ∈ shardWaits.bl.shardWait, n ≠ 7) ∧
    (let s := dirUp fun l => { l with shardOp := .run, shardWait := [7] }
     s.bl.shardOp.busy = true ∧ (7 : BitVec 10).toNat ∈ s.bl.shardWait ∧ ∀ n ∈ s.bl.shardWait, n = 7) ∧
    answers (fun t => decide (t = true)) (handleTaken [] 3 (BitVec.ofNat 64 h5) (List.range 64) takenUp) = true := by
  refine ⟨?_, ?_, ?_, ?_, ?_, ?_, ?_, ?_, ?_⟩ <;> decide +kernel

/-! The algorithms that the spec leaves to their standards, on the standards' own examples. -/

/-- SHA-384 of "abc" (FIPS 180-4's example). -/
theorem test_sha384_of_abc : sha384 [0x61, 0x62, 0x63] =
    0xCB00753F45A35E8BB5A03D699AC65007272C32AB0EDED1631A8B605A43FF5BED8086072BA1E7CC2358BAECA134C825A7 := by
  decide +kernel

/-- AES-256-GCM with a key, a nonce and a block of zeros (test case 14 of the GCM specification). -/
theorem test_gcm_of_zeros : (beNat (gcmSeal 0 0 [] (List.replicate 16 0)).1 = 0xCEA7403D4D606B6E074EC5D3BAF39D18) ∧
    beNat (leBytes 16 (gcmSeal 0 0 [] (List.replicate 16 0)).2.toNat) = 0xD0D1C8A799996BF0265B98B5D48AB919 := by
  decide +kernel

end Sys2Proof.Tests
end

section
/-! PROOFS. The straps, the boot epoch and the time base: what a power-on reset puts there (R62, R482), and that no other
command touches them. -/

open Sys2Proof

namespace Sys2Proof.Machine

/-! ### The boot epoch (R482) -/

theorem nextEpoch_ne_zero (old : BitVec 32) (removed : Bool) (entropy : BitVec 32) :
    nextEpoch old removed entropy ≠ 0 := by
  rw [nextEpoch]
  generalize (if removed then entropy else old + 1) = e
  by_cases zero : e = 0
  · simp [zero]
  · simpa only [if_neg zero] using zero

/-- With the supplies kept on, the epoch is counted up; the one value that would come to 0 is all ones. -/
theorem nextEpoch_supplied (old entropy : BitVec 32) :
    nextEpoch old false entropy = if old = 0xFFFFFFFF then 1 else old + 1 := by
  have wraps : old + 1 = 0 ↔ old = 0xFFFFFFFF := by bv_omega
  show (if old + 1 = 0 then 1 else old + 1) = _
  simp only [wraps]

theorem nextEpoch_drawn (old : BitVec 32) {entropy : BitVec 32} (nonzero : entropy ≠ 0) :
    nextEpoch old true entropy = entropy :=
  if_neg nonzero

/-! ### POWER_ON_RESET -/

/-- The home's advertisement of its credits is seen at its ports alone (`advertise_sends`). -/
theorem advertise_keeps_straps_and_time (s : State) :
    (advertise s).role = s.role ∧ (advertise s).i3cAddr = s.i3cAddr ∧
      (advertise s).tick = s.tick ∧ (advertise s).epoch = s.epoch := by
  obtain ⟨beats, sent, -⟩ := advertise_sends s
  rw [sent]
  exact ⟨rfl, rfl, rfl, rfl⟩

/-- A power-on reset that TERMINAL does not ignore (R462) loads the straps, time 0 and the next epoch. -/
theorem execPowerOnReset_loads (removed role : Bool) (addr : BitVec 7) (entropy : BitVec 32) {s : State}
    (heeded : s.fc.cls ≠ .terminal ∨ removed = true) :
    ∃ t, execPowerOnReset removed role addr entropy s = .next t ∧
      t.role = role ∧ t.i3cAddr = addr ∧ t.tick = 0 ∧ t.epoch = nextEpoch s.epoch removed entropy := by
  have notIgnored : ¬(s.fc.cls = .terminal ∧ removed = false) := by
    rintro ⟨terminal, rfl⟩
    simp [terminal] at heeded
  unfold execPowerOnReset
  rw [if_neg notIgnored]
  exact ⟨_, rfl, advertise_keeps_straps_and_time _⟩

end Sys2Proof.Machine

open Sys2Proof.Machine

/-- Settles O6: the power-on reset by what it loads, every other command by what all of them keep (`keptR_exec`). -/
theorem onlyPowerOnResetSetsStrapsAndTime : Obligations.OnlyPowerOnResetSetsStrapsAndTime := by
  unfold Obligations.OnlyPowerOnResetSetsStrapsAndTime
  constructor
  · intro removed role addr entropy s heeded
    obtain ⟨t, ht, hrole, haddr, htick, hepoch⟩ := execPowerOnReset_loads removed role addr entropy heeded
    refine ⟨t, ht, hrole, haddr, htick, ?supplied, ?drawn, ?nonzero⟩
    case supplied =>
      rintro rfl
      rw [hepoch, nextEpoch_supplied]
    case drawn =>
      rintro rfl nonzero
      rw [hepoch, nextEpoch_drawn s.epoch nonzero]
    case nonzero =>
      rw [hepoch]
      exact nextEpoch_ne_zero s.epoch removed entropy
  · intro c s t ht
    by_cases hc : ∃ removed role addr entropy, c = .powerOnReset removed role addr entropy
    · exact Or.inl hc
    · have other : ∀ removed role addr entropy, c ≠ .powerOnReset removed role addr entropy :=
        fun removed role addr entropy e => hc ⟨removed, role, addr, entropy, e⟩
      have kept : Kept false s t := (keptR_exec other).next t ht
      exact Or.inr ⟨kept.role, kept.i3cAddr, kept.tick, kept.epoch⟩

end

section
/-! PROOFS. The host ports: the events that a port meets by itself (R106), and how its link comes up or stays down
(R67, R68). -/

open Sys2Proof

namespace Sys2Proof.Machine

/-! ### Events of a host port (R106) -/

theorem hostExists_iff {s : State} {p : Nat} : hostExists s p = true ↔ p < s.build.hostPorts.length :=
  decide_eq_true_iff

/-- Out of P3 an event of a port that the build has reaches the collector and AER. -/
theorem portEvent_reports {s : State} {p : Nat} (inBuild : p < s.build.hostPorts.length) (awake : s.tp.pwr ≠ .p3)
    (kind : Nat) (a : Aer) :
    portEvent s p kind a = emit (note s { source := srcId 1 p kind }) (.aer p a) := by
  have reported : (hostExists s p && decide (s.tp.pwr ≠ .p3)) = true := by
    simp [hostExists_iff, inBuild, awake]
  exact if_pos reported

/-! ### Host links (R67, R68) -/

/-- A port that no reset holds trains at every width and rate within its build (R67); L1 is settled on the new link
(R109). -/
theorem execHostLinkUp_trains {s : State} {p width : Nat} {rate : BitVec 3} {b : HostBuild}
    (built : s.build.hostPorts[p]? = some b) (legal : width ∈ [1, 2, 4, 8, 16]) (widthFits : width ≤ b.width)
    (rateFits : rate.toNat ≤ b.rate.toNat) (awake : s.tp.pwr ≠ .p3) (free : p ∉ s.tp.held) :
    execHostLinkUp p width rate s = .next (settleL1 (updHost s p fun h =>
      { h with linkUp := true, flit := true, noFlit := false, width := BitVec.ofNat 6 width, rate := rate }) p) := by
  have trains : ([1, 2, 4, 8, 16].contains width &&
      decide (width ≤ b.width ∧ rate.toNat ≤ b.rate.toNat ∧ s.tp.pwr ≠ .p3) && !s.tp.held.contains p) = true := by
    rw [List.contains_iff_mem.mpr legal, decide_eq_true ⟨widthFits, rateFits, awake⟩]
    simpa using free
  unfold execHostLinkUp
  rw [built]
  exact if_pos trains

/-- A port whose link is down meets a partner without Flit Mode: the first time, NO_FLIT is set and a NOTE of kind 7 is
posted (R68). -/
theorem execLinkPartnerNoFlit_notes {s : State} {p : Nat} (inBuild : p < s.build.hostPorts.length)
    (down : (hostPort s p).linkUp = false) (unset : (hostPort s p).noFlit = false) (awake : s.tp.pwr ≠ .p3) :
    execLinkPartnerNoFlit p s =
      .next (note (updHost s p fun h => { h with noFlit := true }) { source := srcId 1 p 7 }) := by
  have noted : (hostExists s p && !(hostPort s p).linkUp && !(hostPort s p).noFlit &&
      decide (s.tp.pwr ≠ .p3)) = true := by
    simp [hostExists_iff, inBuild, down, unset, awake]
  exact if_pos noted

end Sys2Proof.Machine

open Sys2Proof.Machine

/-- Settles O9: each row's guard is met by the premises, so the row takes its one acting branch. -/
theorem hostLinksAndErrors : Obligations.HostLinksAndErrors := by
  unfold Obligations.HostLinksAndErrors
  refine ⟨?events, ?comesUp, ?noFlit⟩
  case events =>
    intro p s inBuild awake
    have reports := portEvent_reports inBuild awake
    exact ⟨congrArg Host.Outcome.next (reports 6 .uncorrectable), congrArg Host.Outcome.next (reports 4 .unexpected),
      congrArg Host.Outcome.next (reports 5 .correctable)⟩
  case comesUp =>
    intro p width rate b s built legal widthFits rateFits awake free
    exact execHostLinkUp_trains built legal widthFits rateFits awake free
  case noFlit =>
    intro p s inBuild down unset awake
    exact execLinkPartnerNoFlit_notes inBuild down unset awake

end

section
/-! PROOFS. The fault collector: how an event meets the first-error records (R447 to R449), the collector's own error
(R453, R454), and the operations on its registers (R445, R452, R455, R460). -/

open Sys2Proof

namespace Sys2Proof.Machine

/-! ### Records and sources -/

theorem recAt_setRec_other (s : State) {n m : Nat} (r : Rec) (apart : m ≠ n) : recAt (setRec s n r) m = recAt s m :=
  Tab.get_set_other apart

theorem recAt_congr {s t : State} (recs : t.fc.recs = s.fc.recs) (n : Nat) : recAt t n = recAt s n := by
  rw [recAt, recAt, recs]

/-- The collector's records, their valid bits, FC_OVERFLOW and the freeze (R454) are the same in both states. -/
structure SameRecords (s t : State) : Prop where
  recs     : t.fc.recs = s.fc.recs
  valid    : t.fc.valid = s.fc.valid
  overflow : t.fc.overflow = s.fc.overflow
  self     : t.fc.self = s.fc.self

/-- Counting at a source of the build (R444) reaches the settings of the source alone. -/
theorem countSource_of_built {s : State} {ev : Event} {base scope b : Nat} {counted : Src × Nat}
    (built : srcBase s.build ev.source = some (base, scope))
    (counts : countEvent (srcOf s base ev.source) b s.tick = counted) :
    countSource s ev b = (setSrc s base ev.source counted.1, counted.2) := by
  simp only [countSource, built, Option.elim_some, counts]

/-! ### One event and the records (R447 to R449) -/

/-- A valid record after an event of its source (R447): it counts and takes the time; a higher class raises it. -/
def mergedRec (s : State) (r : Rec) (cls scope : Nat) : Rec :=
  { r with
    count := if r.count.toNat < 0x7FFFFFFF then r.count + 1 else r.count
    ovf := r.ovf || decide (0x7FFFFFFF ≤ r.count.toNat + 1)
    last := tickWord s, lastEp := s.epoch
    cls := if r.cls.toNat < cls then BitVec.ofNat 3 cls else r.cls
    scope := if r.cls.toNat < cls then BitVec.ofNat 2 scope else r.scope }

section
variable {s : State} {ev : Event} {n : Nat} (cls scope : Nat) (inj : Bool) (mid : Byte)

theorem recordEvent_merges (held : recOf s ev.source = some n) :
    (recordEvent s ev cls scope inj mid).1 = setRec s n (mergedRec s (recAt s n) cls scope) := by
  simp only [recordEvent, held, mergedRec]
  by_cases raised : (recAt s n).cls.toNat < cls
  · simp only [if_pos raised, ge_iff_le]
  · simp only [if_neg raised, ge_iff_le]

theorem recordEvent_takes_free (unheld : recOf s ev.source = none)
    (free : ((List.range 32).find? fun n => !recValid s n) = some n) :
    (recordEvent s ev cls scope inj mid).1 = setRec s n (newRec s ev cls scope inj mid) := by
  simp only [recordEvent, unheld, free]

theorem recordEvent_counts_overflow (unheld : recOf s ev.source = none)
    (full : ((List.range 32).find? fun n => !recValid s n) = none) (minor : cls < 3) :
    (recordEvent s ev cls scope inj mid).1 = bumpOverflow s := by
  simp only [recordEvent, unheld, full, if_neg (Nat.not_le.mpr minor)]

theorem recordEvent_self : (recordEvent s ev cls scope inj mid).1.fc.self = s.fc.self := by
  unfold recordEvent
  split
  · dsimp only
    split <;> rfl
  · split
    · rfl
    · split
      · split <;> rfl
      · rfl

end

theorem recordUnfrozen_of_frozen {s : State} (frozen : s.fc.self = true) {ev : Event} {cls scope : Nat} {inj : Bool}
    {mid : Byte} : recordUnfrozen s ev cls scope inj mid = (s, none) :=
  if_pos frozen

theorem recordUnfrozen_of_thawed {s : State} (thawed : s.fc.self = false) {ev : Event} {cls scope : Nat} {inj : Bool}
    {mid : Byte} : recordUnfrozen s ev cls scope inj mid = recordEvent s ev cls scope inj mid :=
  if_neg (Bool.eq_false_iff.mp thawed)

/-- While the records are not frozen, a reported event leaves them as recording it does: its reactions do not reach
them. -/
theorem report_sameRecords {s : State} {ev : Event} {base scope : Nat} {counted : Src × Nat}
    (built : srcBase s.build ev.source = some (base, scope))
    (counts : countEvent (srcOf s base ev.source) (if ev.quarantine then 3 else base) s.tick = counted)
    (thawed : s.fc.self = false) (mid : Byte) :
    SameRecords (recordEvent (setSrc s base ev.source counted.1) ev counted.2 scope false mid).1 (report s ev mid) := by
  have thawedAfter : (setSrc s base ev.source counted.1).fc.self = false := thawed
  have reported : report s ev mid = collect s ev (if ev.quarantine then 3 else base) scope false mid := by
    simp only [report, built]
  obtain ⟨recs, valid, overflow, -, self, -⟩ :=
    collect_recs s ev (if ev.quarantine then 3 else base) scope false mid
  rw [countSource_of_built built counts, recordUnfrozen_of_thawed thawedAfter] at recs valid overflow self
  rw [reported]
  exact ⟨recs, valid, overflow, self⟩

/-- While the records are frozen (R454) a reported event leaves them. -/
theorem report_frozen {s : State} (frozen : s.fc.self = true) (ev : Event) (mid : Byte) :
    SameRecords s (report s ev mid) := by
  unfold report
  split
  · exact ⟨rfl, rfl, rfl, rfl⟩
  · next base scope _ =>
    have counted : (countSource s ev (if ev.quarantine then 3 else base)).1.fc.self = true := frozen
    obtain ⟨recs, valid, overflow, -, self, -⟩ :=
      collect_recs s ev (if ev.quarantine then 3 else base) scope false mid
    rw [recordUnfrozen_of_frozen counted] at recs valid overflow self
    exact ⟨recs, valid, overflow, self⟩

/-! ### FAULT_EVENT and COLLECTOR_SELF_ERROR (R453, R454) -/

theorem execFaultEvent_reports {ev : Event} (other : ev.source ≠ selfSource) (s : State) :
    ∃ mid, execFaultEvent ev s = .next (report s ev mid) := by
  unfold execFaultEvent
  exact ⟨_, congrArg Host.Outcome.next (if_neg other)⟩

theorem selfError_of_frozen {s : State} (frozen : s.fc.self = true) : selfError s = s :=
  if_pos frozen

/-- The collector's own error on its first occurrence: what it sets, and what it leaves of the collector. -/
theorem selfError_fc {s : State} (thawed : s.fc.self = false) :
    (selfError s).fc = { s.fc with
      self := true, cls := .terminal, entrySrc := selfSource
      pulseEnd := some (s.fc.pulseEnd.getD (s.tick + 1000200)) } := by
  simp only [selfError, thawed, reactClass_fc, pulse_fc]
  cases s.fc.cls <;> rfl

theorem execFaultEvent_frozen {s : State} (frozen : s.fc.self = true) (ev : Event) :
    ∃ t, execFaultEvent ev s = .next t ∧ SameRecords s t := by
  by_cases own : ev.source = selfSource
  · refine ⟨selfError s, congrArg Host.Outcome.next (if_pos own), ?_⟩
    rw [selfError_of_frozen frozen]
    exact ⟨rfl, rfl, rfl, rfl⟩
  · obtain ⟨mid, reports⟩ := execFaultEvent_reports own s
    exact ⟨_, reports, report_frozen frozen ev mid⟩

/-! ### The pulse of ERR_N (R455) -/

theorem setFc_fc (s : State) (f : Fc) : (setFc s f).fc = f := rfl

theorem setFc_tick (s : State) (f : Fc) : (setFc s f).tick = s.tick := by
  unfold setFc
  dsimp only
  repeat' split
  all_goals rfl

theorem le_reach_tick (s : State) (t : Nat) : t ≤ (reach s t).tick := Nat.le_max_right _ _

theorem execErrNPulseEnd_ends {s : State} {e : Nat} (pulsing : s.fc.pulseEnd = some e) :
    execErrNPulseEnd s = .next (setFc (reach s e) { s.fc with pulseEnd := none }) := by
  simp only [execErrNPulseEnd, pulsing, reach_fc]

/-! ### The registers of the collector (R445, R452, R460) -/

theorem execRecordFree_frees {s : State} (ready : s.tp.ready = true) (awake : s.tp.pwr ≠ .p3) (mask : BitVec 32) :
    execRecordFree mask s = .next { s with fc := { s.fc with valid := s.fc.valid &&& ~~~mask } } := by
  have heard : fcBarOk s = true := by simp [fcBarOk, ready, awake]
  exact congrArg Host.Outcome.next (if_pos heard)

/-- A write of FC_SRC_CFG with CLR set, to a source of the build, sets the source's settings and nothing else; PROMO
and COUNT are then 0. -/
theorem srcCfgWrite_clears {s : State} {v : Word} {base scope : Nat} (clr : bit v 8 = true)
    (built : srcBase s.build s.fc.srcSel = some (base, scope)) :
    ∃ x : Src, x.promo = 0 ∧ x.count = 0 ∧ srcCfgWrite s v = setSrc s base s.fc.srcSel x := by
  simp only [srcCfgWrite, built, if_pos clr]
  exact ⟨_, rfl, rfl, rfl⟩

theorem execSourceClr_writes {s : State} {v : Word} (heard : barOk s = true) (clr : bit v 8 = true) :
    execSourceClr v s = .next (srcCfgWrite s v) :=
  congrArg Host.Outcome.next (if_pos (by simp [heard, clr]))

/-- The state in which a write of FC_INJECT has loaded SRC and CLASS. -/
def injectLoaded (s : State) (v : Word) : State :=
  { s with fc := { s.fc with injClass := BitVec.ofNat 3 (bits v 18 16), injSrc := BitVec.ofNat 16 (bits v 15 0) } }

theorem injClass_toNat (v : Word) : (BitVec.ofNat 3 (bits v 18 16)).toNat = bits v 18 16 := by
  rw [BitVec.toNat_ofNat]
  exact Nat.mod_eq_of_lt (Nat.mod_lt _ (by decide))

/-- GO is heard at INSPECT or above, for a source of the build other than the collector and a class to FATAL (R460). -/
theorem injectOk_injectLoaded {s : State} {v : Word} : injectOk (injectLoaded s v) = true ↔
    (1 ≤ s.ps.dbg.toNat ∧ BitVec.ofNat 16 (bits v 15 0) ≠ selfSource ∧ bits v 18 16 ≤ 3) ∧
      (srcBase s.build (BitVec.ofNat 16 (bits v 15 0))).isSome = true := by
  simp only [injectOk, injectLoaded, injClass_toNat, Bool.and_eq_true, decide_eq_true_eq]

theorem execFaultInject_writes {s : State} {v : Word} (heard : barOk s = true) (go : bit v 63 = true) :
    execFaultInject v s = .next (injectWrite s v) :=
  congrArg Host.Outcome.next (if_pos (by simp [heard, go]))

theorem injectWrite_reports {s : State} {v : Word} {base scope : Nat} (go : bit v 63 = true)
    (ok : injectOk (injectLoaded s v) = true)
    (built : srcBase s.build (BitVec.ofNat 16 (bits v 15 0)) = some (base, scope)) :
    injectWrite s v = collect (injectLoaded s v) { source := BitVec.ofNat 16 (bits v 15 0) } (bits v 18 16) scope true 0 := by
  have written : injectWrite s v = collect (injectLoaded s v) { source := BitVec.ofNat 16 (bits v 15 0) }
      (BitVec.ofNat 3 (bits v 18 16)).toNat ((srcBase s.build (BitVec.ofNat 16 (bits v 15 0))).elim 0 (·.2)) true 0 :=
    if_pos (by rw [go]; exact ok)
  rw [written, injClass_toNat, built, Option.elim_some]

theorem injectWrite_ignores {s : State} {v : Word} (unheard : ¬ injectOk (injectLoaded s v) = true) :
    injectWrite s v = injectLoaded s v :=
  if_neg fun h => unheard (Bool.and_eq_true_iff.mp h).2

end Sys2Proof.Machine

open Sys2Proof.Machine

/-- Settles O14: recording an event is one of `recordEvent`'s branches on the state with the source counted, and the
reactions to the event leave the records (`report_sameRecords`). -/
theorem eventsTakeRecords : Obligations.EventsTakeRecords := by
  unfold Obligations.EventsTakeRecords
  refine ⟨?events, ?ownError, ?frozen⟩
  case events =>
    intro ev base scope s built other thawed
    obtain ⟨mid, reports⟩ := execFaultEvent_reports other s
    generalize counts : countEvent (srcOf s base ev.source) (if ev.quarantine then 3 else base) s.tick = counted
    have same := report_sameRecords built counts thawed mid
    generalize report s ev mid = t at reports same
    refine ⟨t, reports, (same.self.trans (recordEvent_self ..)).trans thawed, ?merges, ?takes, ?counts⟩
    case merges =>
      intro n held
      rw [recordEvent_merges (s := setSrc s base ev.source counted.1) _ _ _ _ held] at same
      exact ⟨(recAt_congr same.recs n).trans (recAt_setRec ..),
        fun m apart => (recAt_congr same.recs m).trans (recAt_setRec_other _ _ apart), same.overflow⟩
    case takes =>
      intro n unheld free
      rw [recordEvent_takes_free (s := setSrc s base ev.source counted.1) _ _ _ _ unheld free] at same
      have written := (recAt_congr same.recs n).trans (recAt_setRec ..)
      refine ⟨?_, same.valid, fun m apart => (recAt_congr same.recs m).trans (recAt_setRec_other _ _ apart),
        same.overflow⟩
      rw [written]
      rfl
    case counts =>
      intro unheld full minor
      rw [recordEvent_counts_overflow (s := setSrc s base ev.source counted.1) _ _ _ _ unheld full minor] at same
      exact ⟨same.recs, same.valid, same.overflow⟩
  case ownError =>
    intro s thawed
    refine ⟨selfError s, rfl, ?_⟩
    rw [selfError_fc thawed]
    exact ⟨rfl, rfl, rfl, rfl, rfl, rfl, rfl⟩
  case frozen =>
    intro ev s frozen
    obtain ⟨t, ends, same⟩ := execFaultEvent_frozen frozen ev
    exact ⟨t, ends, same.recs, same.valid, same.overflow, same.self.trans frozen⟩

/-- Settles O15: each register write is heard under its premises, and its one branch is the state that is stated. -/
theorem collectorRegisterOperations : Obligations.CollectorRegisterOperations := by
  unfold Obligations.CollectorRegisterOperations
  refine ⟨?frees, ?pulseEnds, ?clears, ?injects, ?ignores⟩
  case frees =>
    intro mask s ready awake
    exact execRecordFree_frees ready awake mask
  case pulseEnds =>
    intro e s pulsing
    refine ⟨_, execErrNPulseEnd_ends pulsing, ?_, setFc_fc _ _⟩
    rw [setFc_tick]
    exact le_reach_tick s e
  case clears =>
    intro v base scope s heard clr built
    obtain ⟨x, promo, count, written⟩ := srcCfgWrite_clears clr built
    refine ⟨_, execSourceClr_writes heard clr, ?_⟩
    rw [written, srcOf_setSrc]
    exact ⟨promo, count, rfl, rfl, rfl, rfl⟩
  case injects =>
    intro v base scope s heard go level cls other built
    have ok : injectOk (injectLoaded s v) = true :=
      injectOk_injectLoaded.mpr ⟨⟨level, other, cls⟩, by rw [built]; rfl⟩
    exact (execFaultInject_writes heard go).trans (congrArg Host.Outcome.next (injectWrite_reports go ok built))
  case ignores =>
    intro v s heard go refused
    have unheard : ¬ injectOk (injectLoaded s v) = true := by
      rw [injectOk_injectLoaded]
      rintro ⟨⟨level, other, cls⟩, built⟩
      rcases refused with off | above | own | outside
      · simp [off] at level
      · omega
      · exact other own
      · simp [outside] at built
    exact (execFaultInject_writes heard go).trans (congrArg Host.Outcome.next (injectWrite_ignores unheard))

end

section
/-! PROOFS. The power states: what a write of TP_PWR and SET_POWER do in each case (R473 to R477), and what an entry into
P3 leaves (R66). -/

open Sys2Proof

namespace Sys2Proof.Machine

/-! ### P0, P1 and P2 (R474): the links that follow a change leave the power registers -/

@[simp] theorem sendCtrl_tp (s : State) (p op : Nat) (payload : List Byte) : (sendCtrl s p op payload).tp = s.tp := by
  rw [(Sends.ctrl s p op payload).frame]

@[simp] theorem sendTs_tp (s : State) (p : Nat) : (sendTs s p).tp = s.tp := sendCtrl_tp ..

@[simp] theorem bumpCnt_tp (s : State) (p i n : Nat) : (bumpCnt s p i n).tp = s.tp := rfl

@[simp] theorem enterRecovery_tp (s : State) (p : Nat) : (enterRecovery s p).tp = s.tp := by
  simp only [enterRecovery, sendTs_tp, bumpCnt_tp, updBl_tp]
  split
  · exact emit_tp ..
  · rfl

@[simp] theorem askL1_tp (s : State) (p : Nat) : (askL1 s p).tp = s.tp := by
  unfold askL1
  dsimp only
  split
  · rw [sendCtrl_tp, updBl_tp]
  · rfl

@[simp] theorem portPower_tp (s : State) (was new : Pwr) (p : Nat) : (portPower s was new p).tp = s.tp := by
  have follows : ∀ x : State, x.tp = s.tp → ∀ (retrain wake : Prop) [Decidable retrain] [Decidable wake],
      (if retrain then enterRecovery x p else if wake then enterRecovery x p else askL1 x p).tp = s.tp := by
    intro x kept retrain wake _ _
    split
    · rw [enterRecovery_tp, kept]
    · split
      · rw [enterRecovery_tp, kept]
      · rw [askL1_tp, kept]
  unfold portPower
  cases new with
  | p0 => exact follows _ (updBl_tp ..) _ _
  | p1 => exact follows _ (updBl_tp ..) _ _
  | p2 => exact follows _ rfl _ _
  | p3 => exact follows _ rfl _ _

@[simp] theorem settleL1_tp (s : State) (p : Nat) : (settleL1 s p).tp = s.tp := updHost_tp ..

/-- Of the power registers, a change among P0, P1 and P2 moves STATE alone. -/
theorem setPwr_tp (s : State) (new : Pwr) : (setPwr s new).tp = { s.tp with pwr := new } := by
  unfold setPwr
  rw [each_reads (g := State.tp) settleL1_tp, each_reads (g := State.tp) fun x p => portPower_tp x s.tp.pwr new p]

/-! ### A write of TP_PWR (R473, R475, R477) -/

/-- While no change is in progress, an end with a RESULT writes RESULT alone. -/
theorem pwrDone_of_idle {s : State} (idle : s.tp.pwrBusy = false) (r : Byte) :
    pwrDone s r = { s with tp := { s.tp with pwrResult := r } } := by
  unfold pwrDone
  rw [← idle]

section
variable {s : State} (bus : Bus) {target : Nat} (force : Bool)

theorem pwrWrite_named {new : Pwr} (idle : s.tp.pwrBusy = false) (named : pwrOf target = some new) :
    pwrWrite s bus target force = if s.ps.locks.getLsbD 1 then pwrDone s rMgmt else changePwr s bus new force := by
  simp only [pwrWrite, idle, named, Bool.false_eq_true, if_false]

theorem pwrWrite_changes {new : Pwr} (idle : s.tp.pwrBusy = false) (named : pwrOf target = some new)
    (unlocked : s.ps.locks.getLsbD 1 = false) : pwrWrite s bus target force = changePwr s bus new force := by
  rw [pwrWrite_named bus force idle named, if_neg (Bool.eq_false_iff.mp unlocked)]

theorem pwrWrite_locked {new : Pwr} (idle : s.tp.pwrBusy = false) (named : pwrOf target = some new)
    (locked : s.ps.locks.getLsbD 1 = true) :
    pwrWrite s bus target force = { s with tp := { s.tp with pwrResult := rMgmt } } := by
  rw [pwrWrite_named bus force idle named, if_pos locked, pwrDone_of_idle idle]

theorem changePwr_p3_refused (noBase : s.tp.saveBase = 0) : changePwr s bus .p3 force = pwrDone s rState :=
  if_pos noBase

theorem changePwr_p3_begins (base : s.tp.saveBase ≠ 0) : changePwr s bus .p3 false = beginP3 s :=
  if_neg base

theorem changePwr_p3_forced (base : s.tp.saveBase ≠ 0) : changePwr s bus .p3 true = enterP3 (forceCut s bus) bus :=
  if_neg base

end

/-- What the rows of TP_PWR write where BAR0 is heard: TARGET of the row, and FORCE in the last one alone. -/
theorem exec_power_writes {s : State} (heard : barOk s = true) :
    exec .powerP0 s = .next (pwrWrite s [] 1 false) ∧ exec .powerP1 s = .next (pwrWrite s [] 2 false) ∧
      exec .powerP2 s = .next (pwrWrite s [] 3 false) ∧ exec .powerP3 s = .next (pwrWrite s [] 4 false) ∧
      ∀ bus, exec (.powerP3Force bus) s = .next (pwrWrite s bus 4 true) :=
  ⟨congrArg Host.Outcome.next (if_pos heard), congrArg Host.Outcome.next (if_pos heard),
    congrArg Host.Outcome.next (if_pos heard), congrArg Host.Outcome.next (if_pos heard),
    fun _ => congrArg Host.Outcome.next (if_pos heard)⟩

/-- The wait for the complex to drain runs out 1 ms after it began (R475). -/
theorem exec_p3EntryTimeout_resumes {s : State} {b : Nat} (waits : s.tp.draining = some b) (busy : p3Quiet s = false) :
    exec .p3EntryTimeout s = .next (resumeWork (pwrDone
      { reach s (b + 1000000) with tp := { (reach s (b + 1000000)).tp with draining := none } } rBusy)) := by
  change execP3EntryTimeout s = _
  simp [execP3EntryTimeout, waits, busy]

/-! ### SET_POWER (R473, R477) -/

theorem withAuth_of_take {s u : State} {x : Session} {a : WAuth} {provOk : Bool}
    (taken : wambeTake s a provOk = some (u, x)) (code : Nat) (f : State → Session → State) :
    withAuth s code a provOk f = f u x := by
  simp only [withAuth, taken]

/-- SET_POWER to P3 out of another state: STATE without an attempt where a change cannot begin, STATE as the RESULT too
where the save area has no base, else the change begins and is answered OK. -/
theorem exec_setPower_p3 {s u : State} {x : Session} {a : WAuth} (taken : wambeTake s a false = some (u, x))
    (awake : u.tp.pwr ≠ .p3) (force mac : Bool) (bus : Bus) :
    exec (.setPower a 3 force mac bus) s = .next (
      if safeState u = true ∨ u.tp.ready = false ∨ u.tp.pwrBusy = true then reply u 0x10 .state []
      else if u.tp.saveBase = 0 then reply (pwrDone u rState) 0x10 .state []
      else changePwr (reply u 0x10 .ok []) bus .p3 force) := by
  have named : wambePwr 3 = .p3 := rfl
  change execSetPower a 3 force mac bus s = _
  simp only [execSetPower, withAuth_of_take taken, named, awake, if_false, true_and, Bool.or_eq_true,
    Bool.not_eq_true', or_assoc]

/-! ### Into P3 (R66, R475, R476) -/

theorem powerOff_holds (s : State) : ∃ x, (powerOff s).tp.saved = some x ∧ P3Holds (powerOff s) x := by
  refine ⟨_, rfl, rfl, rfl, rfl, rfl, rfl, rfl, rfl, rfl, rfl, rfl, rfl, rfl, rfl, ?links⟩
  case links =>
    intro h saved
    obtain ⟨e, -, rfl⟩ := List.mem_map.mp saved
    exact ⟨rfl, rfl, rfl⟩

/-- Both ways into P3 end by switching the islands off. -/
theorem enterP3_holds (s : State) (bus : Bus) :
    ∃ x, (enterP3 s bus).tp.saved = some x ∧ P3Holds (enterP3 s bus) x :=
  powerOff_holds _

end Sys2Proof.Machine

open Sys2Proof.Machine

/-- Settles O18: each row of TP_PWR is one write (`exec_power_writes`), SET_POWER one of three answers
(`exec_setPower_p3`), and every entry into P3 ends in `powerOff` (`enterP3_holds`). What `powerOff` keeps is log
entry 17, a choice of the model. -/
theorem powerStateChanges : Obligations.PowerStateChanges := by
  unfold Obligations.PowerStateChanges
  refine ⟨⟨?atOnce, fun new s => setPwr_tp s new, ?waits, ?runsOut, ?locked, ?noBase, ?wambe⟩, ?drained, ?forced⟩
  case atOnce =>
    intro s heard idle unlocked
    obtain ⟨p0, p1, p2, -, -⟩ := exec_power_writes heard
    rw [p0, p1, p2, pwrWrite_changes [] false idle rfl unlocked, pwrWrite_changes [] false idle rfl unlocked,
      pwrWrite_changes [] false idle rfl unlocked]
    exact ⟨rfl, rfl, rfl⟩
  case waits =>
    intro s heard idle unlocked base
    obtain ⟨-, -, -, p3, -⟩ := exec_power_writes heard
    rw [p3, pwrWrite_changes [] false idle rfl unlocked, changePwr_p3_begins [] base]
    rfl
  case runsOut =>
    intro b s waits busy
    exact ⟨_, exec_p3EntryTimeout_resumes waits busy, le_reach_tick s (b + 1000000), rfl⟩
  case locked =>
    intro s heard idle locked c row
    obtain ⟨p0, p1, p2, p3, force⟩ := exec_power_writes heard
    simp only [List.mem_cons, List.not_mem_nil, or_false] at row
    rcases row with rfl | rfl | rfl | rfl | rfl
    · rw [p0, pwrWrite_locked [] false idle rfl locked]; rfl
    · rw [p1, pwrWrite_locked [] false idle rfl locked]; rfl
    · rw [p2, pwrWrite_locked [] false idle rfl locked]; rfl
    · rw [p3, pwrWrite_locked [] false idle rfl locked]; rfl
    · rw [force, pwrWrite_locked [] true idle rfl locked]; rfl
  case noBase =>
    intro bus s heard idle unlocked noBase
    obtain ⟨-, -, -, p3, force⟩ := exec_power_writes heard
    rw [p3, force, pwrWrite_changes [] false idle rfl unlocked, pwrWrite_changes bus true idle rfl unlocked,
      changePwr_p3_refused [] false noBase, changePwr_p3_refused bus true noBase, pwrDone_of_idle idle]
    exact ⟨rfl, rfl⟩
  case wambe =>
    intro a force mac bus u s x taken awake
    constructor
    · intro noBase
      rw [exec_setPower_p3 taken awake, if_pos noBase]
      exact congrArg Host.Outcome.next (apply_ite (reply · 0x10 .state []) _ u (pwrDone u rState)).symm
    · intro base run ready idle
      have begins : ¬(safeState u = true ∨ u.tp.ready = false ∨ u.tp.pwrBusy = true) := by simp [run, ready, idle]
      rw [exec_setPower_p3 taken awake, if_neg begins, if_neg base,
        changePwr_p3_begins (s := reply u 0x10 .ok []) bus base]
      rfl
  case drained =>
    intro bus s waits quiet works
    obtain ⟨x, saved, holds⟩ := enterP3_holds s bus
    exact ⟨_, x, congrArg Host.Outcome.next (if_pos ⟨waits, quiet, works⟩), saved, holds⟩
  case forced =>
    intro bus s heard idle unlocked base
    obtain ⟨-, -, -, -, force⟩ := exec_power_writes heard
    obtain ⟨x, saved, holds⟩ := enterP3_holds (forceCut s bus) bus
    refine ⟨_, x, ?_, saved, holds⟩
    rw [force, pwrWrite_changes bus true idle rfl unlocked, changePwr_p3_forced bus base]

end

section
/-! PROOFS. The step and the queue, and what every command does: it completes, or stops where the surroundings break a
guarantee (R3, R38, R48, R369, R371), and it leaves the queue, the build, the fuses and memory's canonical form as
`Kept` says. -/

open Sys2Proof

namespace Sys2Proof.Machine

/-- Two conditions that hold together choose alike. -/
theorem ite_of_iff {α : Type} {p q : Prop} [Decidable p] [Decidable q] {a b : α} (same : p ↔ q) :
    (if p then a else b) = if q then a else b := by
  by_cases holds : p
  · rw [if_pos holds, if_pos (same.mp holds)]
  · rw [if_neg holds, if_neg fun h => holds (same.mpr h)]

/-! ### Commands that stop where a guarantee is broken -/

/-- A command answers a next state, but where a condition holds; there it stops. -/
structure StopsIf (broken : Bool) (r : Res) : Prop where
  goesOn : broken = false → ∃ t, r = .next t
  stops  : broken = true → r = .fault .guaranteeBroken

theorem StopsIf.of_completes {r : Res} (h : ∃ t, r = .next t) : StopsIf false r := ⟨fun _ => h, Bool.noConfusion⟩

theorem StopsIf.next {t : State} : StopsIf false (.next t) := .of_completes ⟨t, rfl⟩

theorem StopsIf.fault : StopsIf true (.fault .guaranteeBroken) := ⟨Bool.noConfusion, fun _ => rfl⟩

theorem StopsIf.of_eq {b c : Bool} {r : Res} (h : StopsIf b r) (e : c = b) : StopsIf c r := e ▸ h

/-- A response stops where its tag is neither outstanding nor quarantined (R38). -/
theorem execGwelotyResponse_stopsIf (port tag : Nat) (st : BusStatus) (s : State) :
    StopsIf ((Tab.find? (gwPort s port).out tag).isNone && (Tab.find? (gwPort s port).quar tag).isNone)
      (execGwelotyResponse port tag st s) := by
  unfold execGwelotyResponse
  cases Tab.find? (gwPort s port).out tag with
  | some r =>
    refine StopsIf.of_completes ?_
    dsimp only
    split
    · exact ⟨_, rfl⟩
    · exact ⟨_, rfl⟩
  | none =>
    cases Tab.find? (gwPort s port).quar tag with
    | some r => exact StopsIf.next
    | none => exact StopsIf.fault

/-- A translation request stops where its tag is in use (R48). -/
theorem execTsRequest_stopsIf (port tag : Nat) (va : BitVec 57) (ctx : BitVec 12) (wr : Bool) (bus : Bus) (s : State) :
    StopsIf (decide (port < s.build.tsPorts ∧ tag < 64) && runsWork s && (Tab.find? s.tu.tags (tsKey port tag)).isSome)
      (execTsRequest port tag va ctx wr bus s) := by
  unfold execTsRequest
  by_cases unheard : s.build.tsPorts ≤ port ∨ 64 ≤ tag ∨ runsWork s = false
  · rw [if_pos unheard]
    refine StopsIf.next.of_eq ?_
    rcases unheard with h | h | h
    · simp [Nat.not_lt.mpr h]
    · simp [Nat.not_lt.mpr h]
    · simp [h]
  · rw [if_neg unheard]
    simp only [not_or, Nat.not_le, Bool.not_eq_false] at unheard
    obtain ⟨portIn, tagIn, works⟩ := unheard
    by_cases used : (Tab.find? s.tu.tags (tsKey port tag)).isSome = true
    · rw [if_pos used]
      exact StopsIf.fault.of_eq (by simp [portIn, tagIn, works, used])
    · rw [if_neg used]
      refine StopsIf.of_eq (b := false) ?_ (by simpa using fun _ _ _ => by simpa using used)
      split
      · exact StopsIf.next
      · exact StopsIf.next

/-- A tag given back stops where it holds no translation (R48). -/
theorem execTsDone_stopsIf (port tag : Nat) (s : State) :
    StopsIf (breaksGuarantee (.tsDone port tag) s) (execTsDone port tag s) := by
  simp only [execTsDone, breaksGuarantee]
  by_cases unheard : s.build.tsPorts ≤ port ∨ 64 ≤ tag ∨ s.tp.ready = false
  · rw [if_pos unheard]
    refine StopsIf.next.of_eq ?_
    rcases unheard with h | h | h
    · simp [Nat.not_lt.mpr h]
    · simp [Nat.not_lt.mpr h]
    · simp [h]
  · rw [if_neg unheard]
    simp only [not_or, Nat.not_le, Bool.not_eq_false] at unheard
    obtain ⟨portIn, tagIn, ready⟩ := unheard
    cases Tab.find? s.tu.tags (tsKey port tag) with
    | none => exact StopsIf.fault.of_eq (by simp [portIn, tagIn, ready])
    | some x =>
      obtain ⟨id, va, ctx, wr, st, page, sz⟩ := x
      cases st with
      | given t noted => exact StopsIf.next.of_eq (by simp)
      | held k => exact StopsIf.fault.of_eq (by simp [portIn, tagIn, ready])

/-- A port hears nothing before READY, and takes early requests only then. -/
theorem not_early_and_hears (s : State) (core : Nat) : ¬(coreEarly s core = true ∧ coreHears s core = true) := by
  rintro ⟨early, hears⟩
  simp [coreEarly_of_hears hears] at early

/-- A request of a near core stops where it reuses an outstanding transaction ID (R369). -/
theorem coreReq_stopsIf (s : State) (core : Nat) (req : CReq) (op : HomeOp) (withData : Bool) (f : State → State) :
    StopsIf (reusesTxn s core req) (coreReq s core req op withData f) := by
  unfold coreReq reusesTxn waitReady
  dsimp only
  by_cases early : coreEarly s core = true
  · rw [if_pos early]
    by_cases inUse : txnOpen s core req.txn = true
    · rw [if_pos inUse]
      exact StopsIf.fault.of_eq (by simp [early, inUse])
    · rw [if_neg inUse]
      exact StopsIf.next.of_eq (by simp [inUse])
  · rw [if_neg early]
    by_cases hears : coreHears s core = true
    · rw [if_neg (by simp [hears])]
      by_cases up : s.ch.st = .up
      · rw [if_neg (by simp [up])]
        by_cases inUse : txnOpen s core req.txn = true
        · rw [if_pos inUse]
          exact StopsIf.fault.of_eq (by simp [hears, up, inUse])
        · rw [if_neg inUse]
          refine StopsIf.of_eq (b := false) ?_ (by simp [inUse])
          split
          · exact StopsIf.next
          · exact StopsIf.next
      · rw [if_pos up]
        exact StopsIf.next.of_eq (by simp [early, up])
    · rw [if_pos (by simp [hears])]
      exact StopsIf.next.of_eq (by simp [early, hears])

/-- So does a BARRIER (R369, R395). -/
theorem execBarrier_stopsIf (core : Nat) (req : CReq) (kind : BitVec 2) (s : State) :
    StopsIf (reusesTxn s core req) (execBarrier core req kind s) := by
  unfold execBarrier reusesTxn waitReady
  dsimp only
  by_cases early : coreEarly s core = true
  · rw [if_pos early]
    by_cases inUse : txnOpen s core req.txn = true
    · rw [if_pos inUse]
      exact StopsIf.fault.of_eq (by simp [early, inUse])
    · rw [if_neg inUse]
      exact StopsIf.next.of_eq (by simp [inUse])
  · rw [if_neg early]
    by_cases hears : coreHears s core = true
    · rw [if_neg (by simp [hears])]
      by_cases up : s.ch.st = .up
      · rw [if_neg (by simp [up])]
        by_cases inUse : txnOpen s core req.txn = true
        · rw [if_pos inUse]
          exact StopsIf.fault.of_eq (by simp [hears, up, inUse])
        · rw [if_neg inUse]
          exact StopsIf.next.of_eq (by simp [inUse])
      · rw [if_pos up]
        exact StopsIf.next.of_eq (by simp [early, up])
    · rw [if_pos (by simp [hears])]
      exact StopsIf.next.of_eq (by simp [early, hears])

/-- An answer of a near core stops where no snoop waits for it, or R371 does not allow it. -/
theorem coreAnswer_stopsIf (s : State) (core : Nat) (sid : BitVec 10) (a : SnoopAns) (data : List Byte) (bus : Bus) :
    StopsIf (answersWrongly s core sid a) (coreAnswer s core sid a data bus) := by
  unfold coreAnswer answersWrongly
  by_cases hears : coreHears s core = true
  · rw [if_neg (by simp [hears])]
    by_cases up : s.ch.st = .up
    · dsimp only
      rw [if_neg (by simp [up])]
      cases Tab.find? s.ch.snps (snoopKey core sid.toNat) with
      | none => exact StopsIf.fault.of_eq (by simp [hears, up])
      | some sn =>
        dsimp only
        by_cases wrong : ((corePort s core).hsnpQ.any (fun q => q.1 = sid.toNat) || !answerFits s sn a) = true
        · rw [if_pos wrong]
          exact StopsIf.fault.of_eq (by simp only [hears, up, wrong, decide_true, Bool.and_self])
        · rw [if_neg wrong]
          refine StopsIf.next.of_eq ?_
          simp only [hears, up, decide_true, Bool.and_self, Bool.true_and, Bool.not_eq_true] at wrong ⊢
          exact wrong
    · dsimp only
      rw [if_pos up]
      exact StopsIf.next.of_eq (by simp [up])
  · rw [if_pos (by simp [hears])]
    exact StopsIf.next.of_eq (by simp [hears])

/-- Every command goes on, but the rows whose sender has a guarantee to keep. The rows that are not named end in a next
state on their face. -/
theorem exec_stopsIf (c : Instr) (s : State) : StopsIf (breaksGuarantee c s) (exec c s) := by
  cases c
  case gwelotyResponse port tag st => exact execGwelotyResponse_stopsIf port tag st s
  case tsRequest port tag va ctx wr bus => exact execTsRequest_stopsIf port tag va ctx wr bus s
  case tsDone port tag => exact execTsDone_stopsIf port tag s
  case barrier core req kind => exact execBarrier_stopsIf core req kind s
  case rdShared core req bus => exact coreReq_stopsIf s core req .rdShared false fun u => coreServe u bus core _ req
  case rdUnique core req bus => exact coreReq_stopsIf s core req .rdUnique false fun u => coreServe u bus core _ req
  case upgrade core req bus => exact coreReq_stopsIf s core req .upgrade false fun u => coreServe u bus core _ req
  case wb core req keep data bus => exact coreReq_stopsIf s core req (.wb ..) true fun u => coreServe u bus core _ req
  case atomic core req size aop data bus =>
    exact coreReq_stopsIf s core req (.atomic ..) true fun u => coreServe u bus core _ req
  case rdNc core req size bus =>
    exact coreReq_stopsIf s core req (.rdNc ..) false fun u =>
      if !req.va && inWindow req.addr.toNat then windowRead u bus core req size.toNat else coreServe u bus core _ req
  case wrNc core req size data bus =>
    exact coreReq_stopsIf s core req (.wrNc ..) true fun u =>
      if !req.va && inWindow req.addr.toNat then windowWriteNc u bus core req size.toNat (padTo 64 data)
      else coreServe u bus core _ req
  case miss | shared | accept | decline | snoopData => apply coreAnswer_stopsIf
  all_goals refine StopsIf.of_completes ?_
  case powerOnReset => exact completes_execPowerOnReset
  case resetSequenceEnd => exact completes_execResetSequenceEnd
  case dStateChange => exact completes_execDStateChange
  case linkPartnerNoFlit => exact completes_execLinkPartnerNoFlit
  case copyOnWriteDone => exact completes_execCopyOnWriteDone
  case windowWriteCommit => exact completes_execWindowWriteCommit
  case sealedFinalClose => exact completes_execSealedFinalClose
  case measuredCloseDone => exact completes_execMeasuredCloseDone
  case ingestSyncDone => exact completes_execIngestSyncDone
  case contextLoadDone => exact completes_execContextLoadDone
  case ringReadResponse => exact completes_execRingReadResponse
  case dbBackoffReread => exact completes_execDbBackoffReread
  case dbPatienceExpire => exact completes_execDbPatienceExpire
  case keyCommandResume => exact completes_execKeyCommandResume
  case tableOpen => exact completes_execTableOpen
  case tableAbort => exact completes_execTableAbort
  case flipTakeEffect => exact completes_execFlipTakeEffect
  case commandEnd => exact completes_execCommandEnd
  case flushReadCompletion => exact completes_execFlushReadCompletion
  case flushReadTimeout => exact completes_execFlushReadTimeout
  case msiXUnmask => exact completes_execMsiXUnmask
  case waitEvaluate => exact completes_execWaitEvaluate
  case waitTimeout => exact completes_execWaitTimeout
  case ctxEnable => exact completes_execCtxEnable
  case ctxAbortDone => exact completes_execCtxAbortDone
  case objectDrainEnd => exact completes_execObjectDrainEnd
  case pageWalk => exact completes_execPageWalk
  case tsHoldTimeout => exact completes_execTsHoldTimeout
  case admitEventSignal => exact completes_execAdmitEventSignal
  case tileStallTimeout => exact completes_execTileStallTimeout
  case memoryResponseDeadline => exact completes_execMemoryResponseDeadline
  case channelRunStart => exact completes_execChannelRunStart
  case channelWaitTimeout => exact completes_execChannelWaitTimeout
  case channelSignalSet => exact completes_execChannelSignalSet
  case stop => exact completes_execStop
  case remoteWriteRequest => exact completes_execRemoteWriteRequest
  case remoteReadRequest => exact completes_execRemoteReadRequest
  case remoteAtomicRequest => exact completes_execRemoteAtomicRequest
  case remoteSignalRequest => exact completes_execRemoteSignalRequest
  case remotePoolRequest => exact completes_execRemotePoolRequest
  case readData => exact completes_execReadData
  case atomicResult => exact completes_execAtomicResult
  case poolPartial => exact completes_execPoolPartial
  case ack => exact completes_execAck
  case nack => exact completes_execNack
  case remotePatienceExpire => exact completes_execRemotePatienceExpire
  case trainingTimeout port bus => exact completes_execTrainingTimeout (bus := bus)
  case assign => exact completes_execAssign
  case route => exact completes_execRoute
  case keyInstall => exact completes_execKeyInstall
  case shardDir => exact completes_execShardDir
  case snoopDeadline agent slice bus => exact completes_execSnoopDeadline (bus := bus)
  case teardownDrainDone => exact completes_execTeardownDrainDone
  case teardownQuiescenceTimeout => exact completes_execTeardownQuiescenceTimeout
  case scrubComplete => exact completes_execScrubComplete
  case sessionOpen => exact completes_execSessionOpen
  case tdiStateChange => exact completes_execTdiStateChange
  case errNPulseEnd => exact completes_execErrNPulseEnd
  case p3EntryTimeout => exact completes_execP3EntryTimeout
  case hostLinkUp => exact completes_execHostLinkUp
  case coreCreditReturn => exact completes_execCoreCreditReturn
  all_goals exact ⟨_, rfl⟩

end Sys2Proof.Machine

open Sys2Proof.Machine

/-- Settles O1: both sides are the same by definition. -/
theorem stepRunsFront : Obligations.StepRunsFront := by
  unfold Obligations.StepRunsFront
  exact fun c rest s => rfl

/-- Settles O2. -/
theorem idleStepTicks : Obligations.IdleStepTicks := by
  unfold Obligations.IdleStepTicks
  intro s idle
  unfold step
  rw [idle]

/-- Settles O3, row by row (`exec_stopsIf`). -/
theorem completesUnlessGuaranteeBroken : Obligations.CompletesUnlessGuaranteeBroken := by
  unfold Obligations.CompletesUnlessGuaranteeBroken
  exact fun c s => ⟨(exec_stopsIf c s).goesOn, (exec_stopsIf c s).stops⟩

/-- Settles O4: nothing is listed. -/
theorem resetMemoryCanonical : Obligations.ResetMemoryCanonical := by
  unfold Obligations.ResetMemoryCanonical
  decide

namespace Sys2Proof.Machine

/-- A step that runs a command leaves what the command leaves: from the state that has taken it. -/
theorem step_next {s t : State} (ends : step s = .next t) :
    t = { s with tick := s.tick + 1 } ∨ ∃ c rest, exec c (s.take rest) = .next t := by
  unfold step at ends
  split at ends
  · exact Or.inl (Host.Outcome.next.inj ends).symm
  · exact Or.inr ⟨_, _, ends⟩

/-- What a command is, once POWER_ON_RESET is set apart. -/
theorem powerOnReset_or_other (c : Instr) :
    (∃ removed role addr entropy, c = .powerOnReset removed role addr entropy) ∨
      ∀ removed role addr entropy, c ≠ .powerOnReset removed role addr entropy := by
  by_cases h : ∃ removed role addr entropy, c = .powerOnReset removed role addr entropy
  · exact Or.inl h
  · exact Or.inr fun removed role addr entropy e => h ⟨removed, role, addr, entropy, e⟩

/-- Every command leaves the queue and the build, and memory canonical. -/
theorem exec_keeps_queue_build_memory {c : Instr} {s t : State} (ends : exec c s = .next t) :
    t.pending = s.pending ∧ t.build = s.build ∧ (s.mem.wf = true → t.mem.wf = true) := by
  rcases powerOnReset_or_other c with ⟨removed, role, addr, entropy, rfl⟩ | other
  · obtain ⟨pending, build, -, mem⟩ := powerOnReset_keeps ends
    exact ⟨pending, build, mem⟩
  · have kept : Kept false s t := (keptR_exec other).next t ends
    exact ⟨kept.pending, kept.build, kept.mem⟩

end Sys2Proof.Machine

/-- Settles O5: a tick leaves memory, and so does taking a command; the command keeps the form (`Kept.mem`). -/
theorem memoryStaysCanonical : Obligations.MemoryStaysCanonical := by
  unfold Obligations.MemoryStaysCanonical
  intro s t canonical ends
  rcases step_next ends with rfl | ⟨c, rest, ran⟩
  · exact canonical
  · exact (exec_keeps_queue_build_memory ran).2.2 canonical

/-- Settles O7. -/
theorem commandsKeepQueueAndBuild : Obligations.CommandsKeepQueueAndBuild := by
  unfold Obligations.CommandsKeepQueueAndBuild
  intro c s t ends
  obtain ⟨pending, build, -⟩ := exec_keeps_queue_build_memory ends
  exact ⟨pending, build⟩

/-- Settles O8: `keptT_exec` speaks of every command but the two messages and POWER_ON_RESET, which leaves the fuses
too. -/
theorem fusesChangeOnlyByProgramming : Obligations.FusesChangeOnlyByProgramming := by
  unfold Obligations.FusesChangeOnlyByProgramming
  intro c s t ends
  by_cases program : ∃ auth word bits, c = .fuseProgram auth word bits
  · exact Or.inl program
  by_cases lifecycle : ∃ auth target, c = .lifecycle auth target
  · exact Or.inr (Or.inl lifecycle)
  right; right
  rcases powerOnReset_or_other c with ⟨removed, role, addr, entropy, rfl⟩ | other
  · exact (powerOnReset_keeps ends).2.2.1
  · have kept : Kept true s t := (keptT_exec other (fun auth word bits e => program ⟨auth, word, bits, e⟩)
      fun auth target e => lifecycle ⟨auth, target, e⟩).next t ends
    exact kept.fuses rfl

end

section
/-! PROOFS. Device memory: acknowledged writes read back (R37), and what a write that fails leaves in a granule (R503). -/

open Sys2Proof

namespace Sys2Proof.Machine

/-! ### Writes that are acknowledged (R37) -/

/-- A write whose lines may all be issued, to a memory that refuses none, is acknowledged with all of them written. -/
theorem memWrite_issued {v : Via} {a : Nat} {bs : List Byte} {poison : Bool} {s : State}
    (issued : ∀ l ∈ linesOf a bs.length, mayIssue s v l = true) :
    memWrite v [] s a bs poison = ({ s with
      mem := (linesOf a bs.length).foldl (fun m l => m.writeLine (lineSlice a bs l).1 (lineSlice a bs l).2 poison)
        s.mem }, .ok) := by
  unfold memWrite
  generalize linesOf a bs.length = ls at issued
  induction ls generalizing s with
  | nil => rfl
  | cons l ls ih =>
    have first : mayIssue s v l = true := issued l List.mem_cons_self
    have acknowledged : lineStatus s v [] l false = .ok := by simp [lineStatus, first, busAt, busAtW]
    simp only [List.foldl_cons, acknowledged, reportBus, if_true]
    exact ih fun k later => issued k (List.mem_cons_of_mem _ later)

/-! ### Writes that fail (R503) -/

theorem getD_mem_of_lt {α : Type} {l : List α} {d : α} {i : Nat} (inside : i < l.length) : l.getD i d ∈ l := by
  rw [List.getD_eq_getElem?_getD, List.getElem?_eq_getElem inside]
  exact List.getElem_mem inside

/-- A read of a granule shows one of its values. -/
theorem seen_mem (m : Memory) (f g : Nat) : m.seen f g ∈ m.granule g :: Tab.get [] m.indet g := by
  unfold Memory.seen
  dsimp only
  split
  · exact List.mem_cons_self
  · exact getD_mem_of_lt (Nat.mod_lt _ (Nat.succ_pos _))

/-- Settling some granules leaves the cells and the poison, and gives each of them its values but the one in the cells. -/
theorem foldl_settle (m : Memory) (values : Nat → List Word) (g : Nat) : ∀ (gs : List Nat) (x : Memory),
    x.cells = m.cells → x.poison = m.poison →
    let t := gs.foldl (fun x g => x.settle g (values g)) x
    t.cells = m.cells ∧ t.poison = m.poison ∧
      Tab.get [] t.indet g =
        if g ∈ gs then (values g).filter (fun w => !decide (w = m.granule g)) else Tab.get [] x.indet g
  | [], x, cells, poison => ⟨cells, poison, rfl⟩
  | k :: gs, x, cells, poison => by
    have granule : x.granule k = m.granule k := by simp only [Memory.granule, cells]
    obtain ⟨cells', poison', indet⟩ := foldl_settle m values g gs (x.settle k (values k)) cells poison
    refine ⟨cells', poison', indet.trans ?_⟩
    by_cases later : g ∈ gs
    · rw [if_pos later, if_pos (List.mem_cons_of_mem _ later)]
    · rw [if_neg later]
      by_cases here : g = k
      · subst here
        rw [if_pos List.mem_cons_self, ← granule]
        exact Tab.get_set_same
      · rw [if_neg (by simp [here, later])]
        exact Tab.get_set_other here

/-- The values of a granule once a write has failed. -/
theorem fail_leaves (m : Memory) (a : Nat) (bs : List Byte) (g : Nat) :
    (m.fail a bs).cells = m.cells ∧ (m.fail a bs).poison = m.poison ∧
      (Tab.get [] (m.fail a bs).indet g = Tab.get [] m.indet g ∨
        Tab.get [] (m.fail a bs).indet g =
          (Tab.get [] m.indet g ++ (m.put a bs).granule g :: Tab.get [] (m.put a bs).indet g).filter
            fun w => !decide (w = m.granule g)) := by
  obtain ⟨cells, poison, indet⟩ := foldl_settle m
    (fun g => Tab.get [] m.indet g ++ (m.put a bs).granule g :: Tab.get [] (m.put a bs).indet g) g
    (dedupNat ((range a bs.length).map (· / 8))) m rfl rfl
  refine ⟨cells, poison, ?_⟩
  change Tab.get [] (m.fail a bs).indet g = _ at indet
  rw [indet]
  split
  · exact Or.inr rfl
  · exact Or.inl rfl

/-- A write makes no granule indeterminate. -/
theorem put_keeps_settled {g : Nat} : ∀ {bs : List Byte} {m : Memory} {a : Nat}, Tab.find? m.indet g = none →
    Tab.find? (m.put a bs).indet g = none
  | [], _, _, settled => settled
  | b :: bs, m, a, settled => by
    rw [Memory.put]
    apply put_keeps_settled
    unfold Memory.putByte
    dsimp only
    cases found : Tab.find? m.indet (a / 8) with
    | none => exact settled
    | some alts =>
      have other : g ≠ a / 8 := by
        rintro rfl
        rw [settled] at found
        cases found
      exact (Tab.find_set_other other).trans settled

theorem get_of_settled {t : Tab (List Word)} {g : Nat} (settled : Tab.find? t g = none) : Tab.get [] t g = [] := by
  rw [Tab.get_eq_find, settled]
  rfl

end Sys2Proof.Machine

open Sys2Proof.Machine

/-- Settles O11: the write is the fold of its lines (`memWrite_issued`), which together write exactly its bytes
(`writeLines_bytes`). -/
theorem acknowledgedWritesReadBack : Obligations.AcknowledgedWritesReadBack := by
  unfold Obligations.AcknowledgedWritesReadBack
  intro v s a bs f issued settled
  exact ⟨_, memWrite_issued issued, writeLines_bytes rfl settled⟩

/-- Settles O12: a granule keeps its values or gains those that the write makes of them (`fail_leaves`), and a read shows
one of them (`seen_mem`). -/
theorem failedWritesShowOldOrNew : Obligations.FailedWritesShowOldOrNew := by
  unfold Obligations.FailedWritesShowOldOrNew
  intro m a bs g f
  obtain ⟨cells, poison, indet⟩ := fail_leaves m a bs g
  have granule : (m.fail a bs).granule g = m.granule g := by simp only [Memory.granule, cells]
  have shown := seen_mem (m.fail a bs) f g
  rw [granule] at shown
  refine ⟨fun settled => ?_, ?_, cells, poison⟩
  · rw [get_of_settled settled, get_of_settled (put_keeps_settled settled)] at indet
    rcases indet with same | widened
    · rw [same] at shown
      exact Or.inl (List.mem_singleton.mp shown)
    · rw [widened] at shown
      rcases List.mem_cons.mp shown with old | new
      · exact Or.inl old
      · exact Or.inr (List.mem_singleton.mp (List.mem_filter.mp new).1)
  · rcases List.mem_cons.mp shown with old | alt
    · exact List.mem_append_left _ (old ▸ List.mem_cons_self)
    · rcases indet with same | widened
      · exact List.mem_append_left _ (List.mem_cons_of_mem _ (same ▸ alt))
      · rw [widened] at alt
        rw [List.cons_append]
        exact List.mem_cons_of_mem _ (List.mem_filter.mp alt).1

end

section
/-! PROOFS. Responses of device memory (R38, R41, R42), the safe state (R450, R456), and partitions: LOCK, UNLOCK and
their table (R411, R414), teardown and scrub (R434, R435). -/

open Sys2Proof

namespace Sys2Proof.Machine

/-! ### Sparse arrays cut by index -/

theorem find_filter_index {α : Type} {q : Nat → Bool} {k : Nat} : ∀ {t : Tab α},
    Tab.find? (t.filter fun e => q e.1) k = if q k then Tab.find? t k else none
  | [] => by cases q k <;> rfl
  | (i, v) :: t => by
    have rest := find_filter_index (q := q) (k := k) (t := t)
    by_cases here : i = k
    · subst here
      cases keeps : q i <;> simp [keeps, Tab.find?, rest]
    · cases keeps : q i <;> simp [keeps, Tab.find?, rest, here]

theorem get_filter_index {α : Type} {d : α} {q : Nat → Bool} {k : Nat} {t : Tab α} :
    Tab.get d (t.filter fun e => q e.1) k = if q k then Tab.get d t k else d := by
  rw [Tab.get_eq_find, find_filter_index, Tab.get_eq_find]
  cases q k <;> rfl

/-! ### Gweloty responses (R38, R42) -/

theorem exec_gwelotyResponse_answers {port tag : Nat} {st : BusStatus} {r : GwReq} {s : State}
    (out : Tab.find? (gwPort s port).out tag = some r) (inTime : st ≠ .deadline) :
    exec (.gwelotyResponse port tag st) s = .next (answerReq s port tag r st) := by
  show execGwelotyResponse port tag st s = _
  unfold execGwelotyResponse
  rw [out]
  exact if_neg inTime

theorem exec_memoryResponseDeadline_answers {port tag : Nat} {r : GwReq} {s : State}
    (out : Tab.find? (gwPort s port).out tag = some r) :
    exec (.memoryResponseDeadline port tag) s = .next (answerReq (reach s (r.tick + 32000)) port tag r .deadline) := by
  show execMemoryResponseDeadline port tag s = _
  unfold execMemoryResponseDeadline
  rw [out]

/-! ### The safe state (R450, R456) -/

theorem abortTiles_ch (s : State) : (abortTiles s).ch = s.ch := by
  unfold abortTiles
  exact each_reads fun s e => by split <;> rfl

/-- The first event of FATAL or above enters the safe state. -/
theorem reactClass_enters {s : State} {cls : Nat} {src : BitVec 16} (serious : 3 ≤ cls) (runs : s.fc.cls = .run) :
    reactClass s cls src = enterSafe (abortTiles s) (if cls = 3 then .fatal else .terminal) src := by
  unfold reactClass
  rw [if_neg (by omega), runs]

/-! ### LOCK and UNLOCK (R414) -/

/-- LOCK of a partition that R414 does not refuse. -/
theorem lockRefusal_ok {s : State} {p : BitVec 3} (opened : (partOf s p).st = .opened)
    (unlocked : s.ps.locks.getLsbD 0 = false)
    (fits : (partOf s p).conf = false ∨
      (rangesOf s p ≠ [] ∧ (partOf s p).ctxCount ≠ 0 ∧ (∀ e ∈ sysStructs s, meetsPart s p e.1 e.2 = false) ∧
        s.ps.invSeen = false ∧ lifecycleOf s ≠ 0 ∧ lifecycleOf s ≠ 3)) : lockRefusal s p = rOk := by
  unfold lockRefusal
  dsimp only
  rw [if_neg (by simp [opened]), if_neg (by rw [unlocked]; exact Bool.false_ne_true)]
  rcases fits with plain | ⟨ranges, ctxs, apart, unseen, notBlank, notScrapped⟩
  · rw [if_pos (by simp [plain])]
  · cases conf : (partOf s p).conf
    · rfl
    · have clear : ((sysStructs s).any fun e => meetsPart s p e.1 e.2) = false := by
        simpa [List.any_eq_false] using apart
      rw [if_neg (by simp), if_neg (not_or.mpr ⟨ranges, ctxs⟩), clear, unseen, if_neg Bool.false_ne_true,
        if_neg Bool.false_ne_true, if_neg (not_or.mpr ⟨notBlank, notScrapped⟩)]

/-- A partition is selected in PS_PART_OP. -/
def selectPart (s : State) (p : BitVec 3) : State := { s with ps := { s.ps with partSel := p } }

/-- PS_PART_OP is answered. -/
def answerPart (r : State × Byte) : State := { r.1 with ps := { r.1.ps with partOp := OpReg.done r.2 } }

theorem exec_lock_heard {s : State} {p : BitVec 3} (heard : barOk s = true) (built : p.toNat < s.build.partitions) :
    exec (.lock p) s = .next (answerPart (lockPart (selectPart s p) p)) :=
  congrArg Host.Outcome.next ((if_pos heard).trans (congrArg answerPart (if_neg (Nat.not_le.mpr built))))

theorem exec_unlock_heard {s : State} {p : BitVec 3} (heard : barOk s = true) :
    exec (.unlock p) s = .next (answerPart (unlockPart (selectPart s p) p)) :=
  congrArg Host.Outcome.next (if_pos heard)

theorem exec_teardown_heard {s : State} {p : BitVec 3} {bus : Bus} (heard : barOk s = true) :
    exec (.teardown p bus) s = .next (answerPart (teardown (selectPart s p) bus p)) :=
  congrArg Host.Outcome.next (if_pos heard)

/-- An operation that moves the selected partition to a state and ends OK. -/
theorem answerPart_moved (s : State) (p : BitVec 3) (st : PartSt) :
    let t := answerPart (updPart (selectPart s p) p fun x => { x with st := st }, rOk)
    partOf t p = { partOf s p with st := st } ∧ t.ps.partOp = ⟨false, 0x00⟩ ∧
      (∀ q, q ≠ p → partOf t q = partOf s q) ∧ t = { s with ps := t.ps } := by
  let u := updPart (selectPart s p) p fun x => { x with st := st }
  have here : partOf u p = { partOf s p with st := st } := partOf_updPart (selectPart s p) p _
  have apart : ∀ q, q ≠ p → partOf u q = partOf s q := fun q other => partOf_updPart_other (s := selectPart s p) other
  exact ⟨here, rfl, apart, rfl⟩

theorem unlockPart_opens {s : State} {p : BitVec 3} (locked : (partOf s p).st = .locked)
    (plain : (partOf s p).conf = false) (unlocked : s.ps.locks.getLsbD 0 = false) :
    unlockPart s p = (updPart s p fun x => { x with st := .opened }, rOk) := by
  unfold unlockPart
  rw [unlocked]
  exact (if_neg (by simp [locked, plain])).trans (if_neg Bool.false_ne_true)

theorem unlockPart_refuses {s : State} {p : BitVec 3} (conf : (partOf s p).conf = true) :
    unlockPart s p = (s, rState) := if_pos (Or.inr conf)

/-! ### Writes of the table (R411) -/

theorem bits_lt (v : Word) (hi lo : Nat) : bits v hi lo < 2 ^ (hi + 1 - lo) := Nat.mod_lt _ (Nat.two_pow_pos _)

theorem ofNat_bits_toNat (v : Word) (hi lo n : Nat) (wide : hi + 1 - lo ≤ n) :
    (BitVec.ofNat n (bits v hi lo)).toNat = bits v hi lo := by
  rw [BitVec.toNat_ofNat]
  exact Nat.mod_eq_of_lt (Nat.lt_of_lt_of_le (bits_lt v hi lo) (Nat.pow_le_pow_right (by omega) wide))

/-- A write into the registers of a partition goes to that partition's configuration or one of its ranges. -/
theorem tableWrite_of_partition {s : State} {p : BitVec 3} {off : Nat} {v : Word}
    (unlocked : s.ps.locks.getLsbD 0 = false) (built : p.toNat < s.build.partitions)
    (lo : 0x160100 + 0x80 * p.toNat ≤ off) (hi : off < 0x160180 + 0x80 * p.toNat) :
    tableWrite s off v =
      if off % 8 ≠ 0 then s
      else if off = 0x160100 + 0x80 * p.toNat then cfgWrite s p v
      else if 0x160140 + 0x80 * p.toNat ≤ off then rangeWrite s p ((off - (0x160140 + 0x80 * p.toNat)) / 8) v
      else s := by
  have small : p.toNat < 8 := p.isLt
  have index : (off - 0x160100) / 0x80 = p.toNat := by omega
  unfold tableWrite
  rw [if_neg (by rw [unlocked]; exact Bool.false_ne_true), if_neg (by omega), index, BitVec.ofNat_toNat, BitVec.setWidth_eq]
  by_cases aligned : off % 8 = 0
  · rw [if_pos ⟨by omega, by omega, built, aligned⟩, if_neg (not_not_intro aligned)]
    refine ite_congr (propext (by omega)) (fun _ => rfl) fun _ => ite_congr (propext (by omega)) (fun above => ?_) fun _ => rfl
    rw [show (off - 0x160100) % 0x80 - 0x40 = off - (0x160140 + 0x80 * p.toNat) by omega]
  · rw [if_neg (by simp [aligned]), if_pos aligned]

theorem tableWrite_locked {s : State} {off : Nat} {v : Word} (locked : s.ps.locks.getLsbD 0 = true) :
    tableWrite s off v = s := if_pos locked

theorem rangeWrite_frozen {s : State} {p : BitVec 3} {r : Nat} {v : Word} (frozen : (partOf s p).st ≠ .opened) :
    rangeWrite s p r v = s := if_pos (Or.inl frozen)

theorem cfgWrite_frozen {s : State} {p : BitVec 3} {v : Word} (frozen : (partOf s p).st ≠ .opened) :
    cfgWrite s p v = s := if_pos frozen

/-- A range of an OPEN partition that meets no range of another is written, and what it replaces stands for the requests
admitted before (R13). -/
theorem rangeWrite_writes {s : State} {p : BitVec 3} {r : Nat} {v : Word} (opened : (partOf s p).st = .opened)
    (size : bits v 54 27 ≤ 2 ^ 27)
    (apart : ∀ q ∈ allParts s, q ≠ p → ∀ z ∈ rangesOf s q,
      meets (bits v 26 0) (bits v 54 27) z.base.toNat z.size.toNat = false) :
    rangeWrite s p r v = updPart s p fun x => { x with
      past := (s.nextId, x.ranges) :: x.past
      ranges := Tab.set {} x.ranges r ⟨BitVec.ofNat 28 (bits v 54 27), BitVec.ofNat 27 (bits v 26 0)⟩ } := by
  have base : (BitVec.ofNat 27 (bits v 26 0)).toNat = bits v 26 0 := ofNat_bits_toNat v 26 0 27 (by omega)
  have length : (BitVec.ofNat 28 (bits v 54 27)).toNat = bits v 54 27 := ofNat_bits_toNat v 54 27 28 (by omega)
  have clear : ((allParts s).any fun q => decide (q ≠ p) &&
      (rangesOf s q).any fun z => meets (bits v 26 0) (bits v 54 27) z.base.toNat z.size.toNat) = false := by
    simp only [List.any_eq_false, Bool.and_eq_true, decide_eq_true_eq, List.any_eq_true, not_and, not_exists]
    intro q part other z range
    simp [apart q part other z range]
  unfold rangeWrite
  dsimp only
  rw [base, length, clear]
  exact if_neg (by simp only [opened, ne_eq, not_true_eq_false, Bool.false_eq_true, false_or]; omega)

/-! ### Zeroing (R36) -/

/-- A range of whole 2 MiB units that is zeroed. -/
theorem zero_range (m : Memory) (r : PRange) (a : Nat) :
    Tab.get 0 (m.zero r.lo (r.size.toNat * unit2M)).cells a =
        (if r.lo ≤ a ∧ a < r.hi then 0 else Tab.get 0 m.cells a) ∧
      Tab.find? (m.zero r.lo (r.size.toNat * unit2M)).poison (a / 64) =
        (if r.lo ≤ a ∧ a < r.hi then none else Tab.find? m.poison (a / 64)) ∧
      Tab.find? (m.zero r.lo (r.size.toNat * unit2M)).indet (a / 8) =
        (if r.lo ≤ a ∧ a < r.hi then none else Tab.find? m.indet (a / 8)) := by
  have hi : r.hi = r.lo + r.size.toNat * unit2M := Nat.add_mul ..
  have unitLo : r.lo = r.base.toNat * 0x200000 := rfl
  have unitHi : r.hi = (r.base.toNat + r.size.toNat) * 0x200000 := rfl
  rw [← hi.symm.trans rfl]
  refine ⟨?_, ?_, ?_⟩
  · refine (get_filter_index (q := fun i => !decide (r.lo ≤ i ∧ i < r.lo + r.size.toNat * unit2M))).trans ?_
    simp only [← hi, Bool.not_eq_true', decide_eq_false_iff_not, ite_not]
  · refine (find_filter_index
      (q := fun i => !decide (r.lo ≤ 64 * i ∧ 64 * i + 64 ≤ r.lo + r.size.toNat * unit2M))).trans ?_
    simp only [← hi, Bool.not_eq_true', decide_eq_false_iff_not, ite_not]
    exact ite_of_iff (by omega)
  · refine (find_filter_index
      (q := fun i => !decide (r.lo ≤ 8 * i ∧ 8 * i < r.lo + r.size.toNat * unit2M))).trans ?_
    simp only [← hi, Bool.not_eq_true', decide_eq_false_iff_not, ite_not]
    exact ite_of_iff (by omega)

theorem byte_of_settled {m : Memory} {f a : Nat} (settled : Tab.find? m.indet (a / 8) = none) :
    m.byte f a = Tab.get 0 m.cells a := by
  unfold Memory.byte
  rw [settled]

/-- What zeroing ranges of whole units leaves of a byte: 0 and clean within one of them, its cell elsewhere. -/
theorem zero_ranges (a : Nat) : ∀ (rs : List PRange) (m : Memory),
    let t := rs.foldl (fun m r => scrubRange m [] r.lo (r.size.toNat * unit2M)) m
    ((∃ r ∈ rs, r.lo ≤ a ∧ a < r.hi) ∨
        Tab.get 0 m.cells a = 0 ∧ Tab.find? m.poison (a / 64) = none ∧ Tab.find? m.indet (a / 8) = none →
      Tab.get 0 t.cells a = 0 ∧ Tab.find? t.poison (a / 64) = none ∧ Tab.find? t.indet (a / 8) = none) ∧
    ((∀ r ∈ rs, ¬(r.lo ≤ a ∧ a < r.hi)) → Tab.get 0 t.cells a = Tab.get 0 m.cells a)
  | [], m => by simp
  | r :: rs, m => by
    obtain ⟨clears, leaves⟩ := zero_ranges a rs (m.zero r.lo (r.size.toNat * unit2M))
    obtain ⟨cells, poison, indet⟩ := zero_range m r a
    refine ⟨fun within => clears ?_, fun outside => ?_⟩
    · by_cases here : r.lo ≤ a ∧ a < r.hi
      · exact Or.inr (by rw [cells, poison, indet]; simp only [if_pos here, and_self])
      · rw [cells, poison, indet, if_neg here, if_neg here, if_neg here]
        exact within.imp_left fun ⟨z, listed, inside⟩ =>
          (List.mem_cons.mp listed).elim (fun e => absurd (e ▸ inside) here) fun later => ⟨z, later, inside⟩
    · refine (leaves fun z listed => outside z (List.mem_cons_of_mem _ listed)).trans (cells.trans (if_neg ?_))
      exact outside r List.mem_cons_self

/-! ### Teardown and scrub (R434, R435) -/

/-- The first pass of a scrub whose writes are all acknowledged: the ranges are zeroed and the bytes counted. -/
def scrubbedMem (s : State) (p : BitVec 3) : State :=
  addScrub { s with mem := (rangesOf s p).foldl (fun m r => scrubRange m [] r.lo (r.size.toNat * unit2M)) s.mem }
    ((rangesOf s p).foldl (fun a r => a + r.size.toNat) 0 * unit2M - 512 * 0)

theorem scrubFirst_acknowledged (s : State) (p : BitVec 3) : scrubFirst s [] p = scrubDone (scrubbedMem s p) p := rfl

theorem exec_scrubComplete_first {s : State} {p : BitVec 3} {bus : Bus} (scrubbing : (partOf s p).st = .scrubbing)
    (goesOn : (partOf s p).stopped = false) (works : runsWork s = true) (first : (partOf s p).scrubQ = []) :
    exec (.scrubComplete p bus) s = .next (scrubFirst s bus p) := by
  show execScrubComplete p bus s = _
  unfold execScrubComplete
  rw [if_pos ⟨scrubbing, goesOn, works⟩, first]

theorem partOf_scrubDone (s : State) (p : BitVec 3) :
    (partOf (scrubDone s p) p).st = .opened ∧ (partOf (scrubDone s p) p).conf = false ∧
      (partOf (scrubDone s p) p).scrubQ = [] ∧ (partOf (scrubDone s p) p).digest = sha384 (scrubBytes s p) := by
  unfold scrubDone
  dsimp only
  rw [partOf_updPart]
  exact ⟨rfl, rfl, rfl, rfl⟩

theorem teardown_closes {s : State} {p : BitVec 3} (bus : Bus) (built : p.toNat < s.build.partitions)
    (alive : (partOf s p).st = .opened ∨ (partOf s p).st = .locked) :
    ∃ u, teardown s bus p =
      (updPart u p fun x => { x with st := .closing, closeAt := u.tick, scrubQ := [] }, rOk) := by
  refine ⟨_, if_neg ?_⟩
  rintro (⟨notOpen, notLocked⟩ | absent)
  · exact alive.elim notOpen notLocked
  · exact Nat.not_lt.mpr absent built

theorem teardown_refused {s : State} {p : BitVec 3} (bus : Bus) (notOpen : (partOf s p).st ≠ .opened)
    (notLocked : (partOf s p).st ≠ .locked) : teardown s bus p = (s, rState) :=
  if_pos (Or.inl ⟨notOpen, notLocked⟩)

/-- Once nothing of a partition is in flight, its log is cleared and its scrub begins. -/
theorem exec_teardownDrainDone_scrubs {s : State} {p : BitVec 3} (closing : (partOf s p).st = .closing)
    (quiet : partQuiet s p = true) (works : runsWork s = true) :
    ∃ (u : State) (total : Nat), exec (.teardownDrainDone p) s =
      .next (updPart { u with ps := { u.ps with log := u.ps.log.filter fun r => !decide (r.part = p) } } p fun x =>
        { x with st := .scrubbing, scrubTotal := BitVec.ofNat 32 total, scrubDone := 0, scrubQ := [], chain := 0
                 truncated := false, total := 0 }) :=
  ⟨_, _, if_pos ⟨closing, quiet, works⟩⟩

end Sys2Proof.Machine

open Sys2Proof.Machine

/-- Settles O13: the tag is found outstanding or quarantined, and its owner's answer follows. -/
theorem gwelotyResponsesReachTheirOwner : Obligations.GwelotyResponsesReachTheirOwner := by
  unfold Obligations.GwelotyResponsesReachTheirOwner
  refine ⟨?quarantined, ?answered, ?lateWrite, ?lateRow, ?eighth⟩
  case quarantined =>
    intro port tag st r s notOut quarantined
    show execGwelotyResponse port tag st s = _
    unfold execGwelotyResponse
    rw [notOut, quarantined]
  case answered =>
    intro port tag st r s out inTime u
    rw [exec_gwelotyResponse_answers out inTime]
    unfold answerReq answerOwner
    refine ⟨fun id owner => ?_, fun id e owner => ?_, fun p again owner => ?_⟩
    · rw [owner]
      refine ⟨?_, fun failed => ?_⟩
      · rintro rfl
        rfl
      · simp only [if_neg inTime]
        unfold answerWrite
        rw [if_neg failed]
        rfl
    · rw [owner]
    · rw [owner]
  case lateWrite =>
    intro port tag id r s out owner w
    rw [exec_memoryResponseDeadline_answers out]
    unfold answerReq answerOwner
    rw [owner]
    exact ⟨rfl, reach_waits⟩
  case lateRow =>
    intro port tag id e r s out owner
    rw [exec_memoryResponseDeadline_answers out]
    unfold answerReq answerOwner
    rw [owner]
  case eighth =>
    intro port tag r ev s v
    rfl

/-- Settles O16: the reaction to a class is a match on the class that is in force. -/
theorem safeStateIsEnteredOnce : Obligations.SafeStateIsEnteredOnce := by
  unfold Obligations.SafeStateIsEnteredOnce
  refine ⟨fun cls src s serious runs => ?_, fun src s fatal => ?_, fun cls src s terminal => ?_⟩
  · dsimp only
    rw [reactClass_enters serious runs]
    obtain ⟨cmds, wws, cows, reqs, chans, domain⟩ :=
      enterSafe_stops (abortTiles s) (if cls = 3 then .fatal else .terminal) src
    have fc := enterSafe_fc (abortTiles s) (if cls = 3 then .fatal else .terminal) src
    rw [abortTiles_ch] at domain
    exact ⟨by rw [fc], by rw [fc], cmds, wws, cows, reqs, chans, domain⟩
  · unfold reactClass
    rw [fatal]
    exact ⟨rfl, rfl⟩
  · unfold reactClass
    rw [terminal]
    exact ite_self s

/-- Settles O19. -/
theorem partitionsAndTheirTable : Obligations.PartitionsAndTheirTable := by
  unfold Obligations.PartitionsAndTheirTable
  refine ⟨⟨?locks, ?unlocks, ?confidential⟩, ?range, ?frozen, ?mgmt⟩
  case locks =>
    intro p s heard built opened unlocked fits
    have allowed : lockRefusal (selectPart s p) p = rOk := lockRefusal_ok (s := selectPart s p) opened unlocked fits
    exact ⟨_, (exec_lock_heard heard built).trans (congrArg (Host.Outcome.next ∘ answerPart) (if_pos allowed)),
      answerPart_moved s p .locked⟩
  case unlocks =>
    intro p s heard locked plain unlocked
    have opens := unlockPart_opens (s := selectPart s p) locked plain unlocked
    exact ⟨_, (exec_unlock_heard heard).trans (congrArg (Host.Outcome.next ∘ answerPart) opens),
      answerPart_moved s p .opened⟩
  case confidential =>
    intro p s heard locked conf
    have refused := unlockPart_refuses (s := selectPart s p) conf
    exact (exec_unlock_heard heard).trans (congrArg (Host.Outcome.next ∘ answerPart) refused)
  case range =>
    intro p r v s heard unlocked built index opened size apart
    have small : p.toNat < 8 := p.isLt
    show Host.Outcome.next _ = _
    rw [if_pos heard, BitVec.toNat_ofNat, Nat.mod_eq_of_lt (by omega),
      tableWrite_of_partition unlocked built (by omega) (by omega), if_neg (by omega), if_neg (by omega), if_pos (by omega),
      show (0x160140 + 0x80 * p.toNat + 8 * r - (0x160140 + 0x80 * p.toNat)) / 8 = r by omega,
      rangeWrite_writes opened size apart]
  case frozen =>
    intro p off v s built lo hi frozen
    refine congrArg Host.Outcome.next (ite_eq_right_iff.mpr fun _ => ?_)
    cases locked : s.ps.locks.getLsbD 0 with
    | true => exact tableWrite_locked locked
    | false =>
      rw [tableWrite_of_partition locked built lo hi, cfgWrite_frozen frozen, rangeWrite_frozen frozen]
      simp only [ite_self]
  case mgmt =>
    intro off v s locked
    exact congrArg Host.Outcome.next (ite_eq_right_iff.mpr fun _ => tableWrite_locked locked)

/-- Settles O20: a teardown ends in the write that leaves CLOSING, a drain in the write that leaves SCRUBBING, and a
scrub that meets no failure in step 6 (`scrubFirst_acknowledged`). -/
theorem teardownScrubsAndOpens : Obligations.TeardownScrubsAndOpens := by
  unfold Obligations.TeardownScrubsAndOpens
  refine ⟨⟨?begins, ?refused, ?drained, ?late⟩, ?scrubbed⟩
  case begins =>
    intro p bus s heard built alive
    obtain ⟨u, closes⟩ := teardown_closes (s := selectPart s p) bus built alive
    let v := updPart u p fun x => { x with st := .closing, closeAt := u.tick, scrubQ := [] }
    have part : partOf v p = { partOf u p with st := .closing, closeAt := u.tick, scrubQ := [] } := partOf_updPart u p _
    refine ⟨answerPart (v, rOk), (exec_teardown_heard heard).trans (congrArg (Host.Outcome.next ∘ answerPart) closes), rfl,
      ?_, ?_, ?_⟩
    · exact congrArg Part.st part
    · exact congrArg Part.closeAt part
    · exact congrArg Part.scrubQ part
  case refused =>
    intro p bus s heard notOpen notLocked
    have refused := teardown_refused (s := selectPart s p) bus notOpen notLocked
    exact (exec_teardown_heard heard).trans (congrArg (Host.Outcome.next ∘ answerPart) refused)
  case drained =>
    intro p s closing quiet works
    obtain ⟨u, total, ends⟩ := exec_teardownDrainDone_scrubs closing quiet works
    refine ⟨_, ends, ?_, ?_, ?_, ?_, fun r listed => ?_⟩
    · rw [partOf_updPart]
    · rw [partOf_updPart]
    · rw [partOf_updPart]
    · rw [partOf_updPart]
    · simpa using (List.mem_filter.mp listed).2
  case late =>
    intro p s closing busy
    exact if_pos ⟨closing, busy⟩
  case scrubbed =>
    intro p s scrubbing goesOn works first
    refine ⟨scrubbedMem s p, _, exec_scrubComplete_first scrubbing goesOn works first, scrubFirst_acknowledged s p,
      fun r range a f lo hi => ?_, fun a outside => ?_, partOf_scrubDone (scrubbedMem s p) p⟩
    · obtain ⟨cell, clean, settled⟩ := (zero_ranges a (rangesOf s p) s.mem).1 (Or.inl ⟨r, range, lo, hi⟩)
      exact ⟨(byte_of_settled settled).trans cell, clean⟩
    · exact (zero_ranges a (rangesOf s p) s.mem).2 outside

end

section
/-! PROOFS. Quince and the Wambe port: sessions (R418, R421), the operator's messages (R419 to R423, R431, R432, R462,
R478), debug accesses (R433) and the answers over DOE (R103 to R105, R425, R429, R430). -/

open Sys2Proof

namespace Sys2Proof.Machine

/-! ### Sessions (R418, R421) -/

/-- An authenticated message is taken in an open session, with a tag that checks and a sequence number that is not old. -/
theorem wambeTake_takes {a : WAuth} {prov : Bool} {x : Session} {s : State} (session : s.ps.session = some x)
    (tag : a.tagOk = true) (recent : x.next ≤ a.seq.toNat) (allowed : x.prov = none ∨ prov = true) :
    wambeTake s a prov = some ({ s with ps := { s.ps with
      session := if 0xFFFF ≤ x.count + 1 then none
        else some { x with next := a.seq.toNat + 1, count := x.count + 1 } } }, x) := by
  have provisional : (x.prov.isSome && !prov) = false := by
    rcases allowed with none | yes
    · rw [none]; rfl
    · rw [yes, Bool.not_true, Bool.and_false]
  have taken : (!a.tagOk || decide (a.seq.toNat < x.next) || (x.prov.isSome && !prov)) = false := by
    rw [tag, provisional, decide_eq_false (Nat.not_lt.mpr recent)]
    rfl
  unfold wambeTake
  rw [session]
  exact if_neg (ne_true_of_eq_false taken)

theorem wambeTake_refuses {a : WAuth} {prov : Bool} {s : State}
    (bad : ∀ x, s.ps.session = some x → a.tagOk = false ∨ a.seq.toNat < x.next ∨ (x.prov.isSome = true ∧ prov = false)) :
    wambeTake s a prov = none := by
  unfold wambeTake
  cases session : s.ps.session with
  | none => rfl
  | some x =>
    refine if_pos ?_
    rcases bad x session with tag | old | ⟨provisional, other⟩
    · simp [tag]
    · simp [old]
    · simp [provisional, other]

theorem withAuth_of_refusal {s : State} {a : WAuth} {provOk : Bool} (refused : wambeTake s a provOk = none) (code : Nat)
    (f : State → Session → State) : withAuth s code a provOk f = reply s code .auth [] := by
  simp only [withAuth, refused]

/-! ### What the operator's messages do (R419, R422, R431, R432) -/

theorem wambePwr_ne_p3 {target : BitVec 2} (awake : target ≠ 3) : wambePwr target ≠ .p3 := by
  revert awake
  revert target
  decide

section
variable {a : WAuth} {u s : State} {x : Session} (taken : wambeTake s a false = some (u, x))
include taken

theorem exec_debugSet_taken {level : BitVec 2} (named : level ≠ 3) :
    exec (.debugSet a level) s = .next (if debugRefused u level.toNat then reply u 0x14 .refused []
      else reply { u with ps := { u.ps with
        dbg := level, inspSeen := u.ps.inspSeen || decide (1 ≤ level.toNat), invSeen := u.ps.invSeen || decide (level = 2) } }
          0x14 .ok []) :=
  congrArg Host.Outcome.next ((withAuth_of_take taken ..).trans (if_neg named))

theorem exec_traceSet_taken {base : BitVec 48} {log2 : Nat} (src : BitVec 4) (aligned : base.toNat % 32 = 0)
    (small : log2 ≤ 43) (fits : base.toNat + 32 * 2 ^ log2 ≤ 2 ^ 48) :
    exec (.traceSet a base log2 src) s = .next (if placeOk u base.toNat (32 * 2 ^ log2) = false then reply u 0x18 .refused []
      else reply { u with ps := { u.ps with traceBase := base, traceLog2 := log2, traceSrc := src, tracePos := 0 } }
        0x18 .ok []) := by
  refine congrArg Host.Outcome.next ((withAuth_of_take taken ..).trans ((if_neg (by omega)).trans ?_))
  exact ite_of_iff (by rw [Bool.not_eq_true'])

theorem exec_lifecycle_taken (target : BitVec 2) :
    exec (.lifecycle a target) s = .next (if lifeConfirmed u target.toNat = true ∧ safeState u = false then
        complexResetOf (reply (blow u 0 (1#32 <<< (target.toNat - 1))) 0x12 .ok []) .lifecycle
      else reply u 0x12 .refused []) := by
  refine congrArg Host.Outcome.next ((withAuth_of_take taken ..).trans ?_)
  exact ite_of_iff (by rw [Bool.and_eq_true, Bool.not_eq_true'])

/-- SET_POWER to a state that is not P3: STATE where a change cannot begin, else the change, or the way out of P3. -/
theorem exec_setPower_taken {target : BitVec 2} (awake : target ≠ 3) (force mac : Bool) (bus : Bus) :
    exec (.setPower a target force mac bus) s = .next (
      if safeState u = true ∨ u.tp.ready = false ∨ u.tp.pwrBusy = true then reply u 0x10 .state []
      else if u.tp.pwr = .p3 then leaveP3 (reply u 0x10 .ok []) (wambePwr target) mac
      else changePwr (reply u 0x10 .ok []) bus (wambePwr target) force) := by
  have other := wambePwr_ne_p3 awake
  change execSetPower a target force mac bus s = _
  simp only [execSetPower, withAuth_of_take taken, other, if_false, false_and, Bool.or_eq_true, Bool.not_eq_true', or_assoc]

end

/-- A change to P0, P1 or P2 is made at once (R474). -/
theorem changePwr_awake {s : State} (bus : Bus) {new : Pwr} (force : Bool) (other : new ≠ .p3) :
    changePwr s bus new force = pwrDone (setPwr s new) rOk := by
  cases new with
  | p3 => exact absurd rfl other
  | p0 => rfl
  | p1 => rfl
  | p2 => rfl

/-! ### Debug accesses (R433) -/

section
variable {a : WAuth} {u s : State} {x : Session} (taken : wambeTake s a false = some (u, x))
include taken

theorem exec_debugRead_refused {addr : BitVec 48} {n : Nat} {w : WRes} (bus : Bus) (bad : debugBad u addr.toNat n = some w) :
    exec (.debugRead a addr n bus) s = .next (reply u 0x16 w []) := by
  refine congrArg Host.Outcome.next ((withAuth_of_take taken ..).trans ?_)
  rw [bad]

theorem exec_debugRead_reads {addr : BitVec 48} {n : Nat} (bus : Bus) (good : debugBad u addr.toNat n = none) :
    let r := ((List.range (n / 8)).map fun i => addr.toNat + 8 * i).foldl (debugGranule bus) (u, [])
    exec (.debugRead a addr n bus) s = .next (reply r.1 0x16 .ok r.2) := by
  refine congrArg Host.Outcome.next ((withAuth_of_take taken ..).trans ?_)
  rw [good]

theorem exec_debugWrite_refused {addr : BitVec 48} {data : List Byte} {w : WRes} (bus : Bus)
    (bad : debugBad u addr.toNat data.length = some w) :
    exec (.debugWrite a addr data bus) s = .next (reply u 0x17 w []) := by
  refine congrArg Host.Outcome.next ((withAuth_of_take taken ..).trans ?_)
  rw [bad]

theorem exec_debugWrite_writes {addr : BitVec 48} {data : List Byte} (bus : Bus)
    (good : debugBad u addr.toNat data.length = none) :
    let w := memWrite (debugVia u addr.toNat) bus u addr.toNat data false
    exec (.debugWrite a addr data bus) s = .next (if shieldedAt u addr.toNat data.length then reply u 0x17 .refused []
      else reply w.1 0x17 (if w.2 = .ok then .ok else .state) []) := by
  refine congrArg Host.Outcome.next ((withAuth_of_take taken ..).trans ?_)
  rw [good]

end

theorem debugGranule_shielded {bus : Bus} {y : State × List Byte} {g : Nat} (shielded : shieldedAt y.1 g 8 = true) :
    debugGranule bus y g = (y.1, y.2 ++ List.replicate 8 0xFF ++ [1]) := if_pos shielded

/-- A granule that is in no shielded range and that memory holds clean. -/
theorem debugGranule_clean {y : State × List Byte} {g : Nat} (open_ : shieldedAt y.1 g 8 = false) (aligned : g % 8 = 0)
    (inMemory : g < 2 ^ 48) (reached : offLimits y.1 (g / 64 * 64) = false)
    (clean : Tab.find? y.1.mem.poison (g / 64) = none) :
    debugGranule [] y g = (y.1, y.2 ++ y.1.mem.bytes y.1.free g 8 ++ [0]) := by
  have issued : mayIssue y.1 (debugVia y.1 g) (g / 64) = true := by
    have inRange : g / 64 < 2 ^ 42 := by omega
    have system : (debugVia y.1 g).sys = true := rfl
    rw [mayIssue, decide_eq_true inRange, system, Nat.mul_comm, reached]
    rfl
  have read := memRead_one_line (n := 8) (by omega) (by omega) issued clean
  refine (if_neg (ne_true_of_eq_false open_)).trans ?_
  rw [read]
  rfl

/-! ### DOE (R103 to R105, R425, R429, R430) -/

/-- Quince answers a function while it holds an identity and the complex runs. -/
theorem doeServe_answers {s : State} {fn : Fn} (built : fnExists s fn = true) (awake : s.tp.pwr ≠ .p3)
    (ready : s.tp.ready = true) (runs : safeState s = false) (identity : hasIdentity s = true)
    (f : State → Option (State × List Byte)) :
    doeServe s fn f = match f s with
      | some r => emit r.1 (.doe fn r.2)
      | none => emit s (.doeError fn) := by
  unfold doeServe
  exact (if_neg (by simp [built, awake, ready])).trans (if_neg (by simp [runs, identity]))

end Sys2Proof.Machine

open Sys2Proof.Machine

/-- Settles O21. -/
theorem wambeMessagesAndSessions : Obligations.WambeMessagesAndSessions := by
  unfold Obligations.WambeMessagesAndSessions
  refine ⟨⟨fun a prov x s => wambeTake_takes, fun a prov s => wambeTake_refuses, ?refused⟩, ?opens, ?denied, ?closes, ?open_⟩
  case refused =>
    intro a s
    constructor
    · intro refused
      have auth := withAuth_of_refusal refused
      exact ⟨congrArg Host.Outcome.next (auth ..), fun w v => congrArg Host.Outcome.next (auth ..)⟩
    · intro refused
      have auth := withAuth_of_refusal refused
      exact ⟨fun t f m b => congrArg Host.Outcome.next (auth ..), fun k p => congrArg Host.Outcome.next (auth ..),
        fun t => congrArg Host.Outcome.next (auth ..), fun l => congrArg Host.Outcome.next (auth ..),
        fun x y => congrArg Host.Outcome.next (auth ..), fun x n b => congrArg Host.Outcome.next (auth ..),
        fun x d b => congrArg Host.Outcome.next (auth ..), fun b l k => congrArg Host.Outcome.next (auth ..)⟩
  case opens =>
    intro key share s known
    refine if_neg ?_
    rcases known with blank | fused
    · simp [blank]
    · simp [fused]
  case denied =>
    intro key share sigOk s unknown
    refine if_pos ?_
    rcases unknown with unsigned | ⟨fused, other⟩
    · simp [unsigned]
    · simp [fused, other]
  case closes =>
    intro a u s x taken
    exact congrArg Host.Outcome.next (withAuth_of_take taken ..)
  case open_ =>
    intro s
    exact ⟨rfl, fun held => congrArg Host.Outcome.next (if_pos held),
      fun bare => congrArg Host.Outcome.next (if_neg (ne_true_of_eq_false bare))⟩

/-- Settles O22: each message is taken, and its one decision falls as the premises say. -/
theorem operatorMessages : Obligations.OperatorMessages := by
  unfold Obligations.OperatorMessages
  constructor
  · intro a u s x taken
    refine ⟨?locks, ?debug, ?trace, ?lifecycle, ?reset, ?terminal, ?power⟩
    case locks => exact fun set clear => congrArg Host.Outcome.next (withAuth_of_take taken ..)
    case debug =>
      intro level named
      rw [exec_debugSet_taken taken named]
      exact ⟨fun allowed => by rw [allowed]; rfl, fun refused => by rw [refused]; rfl⟩
    case trace =>
      intro base log2 src aligned small fits
      rw [exec_traceSet_taken taken src aligned small fits]
      exact ⟨fun allowed => by rw [allowed]; rfl, fun refused => by rw [refused]; rfl⟩
    case lifecycle =>
      intro target
      rw [exec_lifecycle_taken taken target]
      refine ⟨fun confirmed runs => congrArg Host.Outcome.next (if_pos ⟨confirmed, runs⟩), fun not => ?_⟩
      refine congrArg Host.Outcome.next (if_neg ?_)
      rintro ⟨confirmed, runs⟩
      simp [confirmed, runs] at not
    case reset =>
      intro port heeded
      constructor
      · exact congrArg Host.Outcome.next ((withAuth_of_take taken ..).trans ((if_neg heeded).trans (if_pos rfl)))
      · intro built
        refine congrArg Host.Outcome.next ((withAuth_of_take taken ..).trans ((if_neg heeded).trans ?_))
        exact (if_neg (by decide)).trans (if_pos ⟨rfl, built⟩)
    case terminal =>
      intro kind port terminal
      exact congrArg Host.Outcome.next ((withAuth_of_take taken ..).trans (if_pos terminal))
    case power =>
      intro target force mac bus
      constructor
      · intro stuck
        by_cases off : target = 3
        · subst off
          by_cases awake : u.tp.pwr = .p3
          · refine congrArg Host.Outcome.next ((withAuth_of_take taken ..).trans (if_pos ?_))
            simpa only [Bool.or_eq_true, Bool.not_eq_true', or_assoc] using stuck
          · rw [exec_setPower_p3 taken awake, if_pos stuck]
        · rw [exec_setPower_taken taken off, if_pos stuck]
      · intro runs ready idle awake
        have begins : ¬(safeState u = true ∨ u.tp.ready = false ∨ u.tp.pwrBusy = true) := by simp [runs, ready, idle]
        rw [exec_setPower_taken taken awake, if_neg begins]
        refine ⟨fun on => ?_, fun off => congrArg Host.Outcome.next (if_pos off)⟩
        rw [if_neg on, changePwr_awake _ _ (wambePwr_ne_p3 awake)]
        rfl
  · intro a w v u s x taken provisional allowed
    have blown : exec (.fuseProgram a w v) s = .next (reply (blow u w.toNat v) 0x13 .ok []) := by
      refine congrArg Host.Outcome.next ((withAuth_of_take taken ..).trans ?_)
      exact (if_neg (by simp [provisional])).trans (if_neg (by simp [allowed]))
    refine ⟨_, blown, Tab.get_upd_same (d := 0) (t := u.ps.fuses) (f := fun x => x ||| v), fun j other =>
      Tab.get_upd_other (d := 0) (t := u.ps.fuses) (f := fun x => x ||| v) other, ?_, rfl⟩
    simp [reply, blow]

/-- Settles O23. -/
theorem debugAndDoeAreGuarded : Obligations.DebugAndDoeAreGuarded := by
  unfold Obligations.DebugAndDoeAreGuarded
  constructor
  · intro a addr bus u s x taken
    refine ⟨fun n w bad => exec_debugRead_refused taken bus bad, fun data w bad => exec_debugWrite_refused taken bus bad,
      fun n good => exec_debugRead_reads taken bus good, fun y g => debugGranule_shielded,
      fun y g => debugGranule_clean, fun data good => ?_⟩
    rw [exec_debugWrite_writes taken bus good]
    exact ⟨fun shielded => by rw [shielded]; rfl, fun clear => by rw [clear]; rfl⟩
  · intro fn s built awake ready runs identity
    have answers := doeServe_answers built awake ready runs identity
    refine ⟨fun body => ⟨fun short => ?_, fun long => ?_⟩, fun part nonce start inBuild => ?_, ?_,
      fun secured part ctx slot secret => ⟨?_, fun bad => ?_⟩, fun stream part key pf => ?_⟩
    · refine congrArg Host.Outcome.next ((answers _).trans ?_)
      rw [if_neg (Nat.not_lt.mpr short)]
      rfl
    · refine congrArg Host.Outcome.next ((answers _).trans ?_)
      rw [if_pos long]
    · refine congrArg Host.Outcome.next ((answers _).trans ?_)
      rw [if_neg (Nat.not_le.mpr inBuild)]
    · exact congrArg Host.Outcome.next (answers _)
    · rintro ⟨rfl, accepted⟩
      refine congrArg Host.Outcome.next ((answers _).trans ?_)
      rw [accepted]
      rfl
    · refine congrArg Host.Outcome.next ((answers _).trans ?_)
      rw [Bool.and_eq_false_iff.mpr bad]
      rfl
    · obtain ⟨port, vf⟩ := fn
      obtain rfl : vf = 0 := pf
      refine ⟨fun selective => ?_, ?_, ?_⟩
      · refine congrArg Host.Outcome.next ((answers _).trans ?_)
        rw [if_neg (by simp; omega), if_neg (by omega)]
        rfl
      · exact congrArg Host.Outcome.next (answers _)
      · exact congrArg Host.Outcome.next (answers _)

end

section
/-! PROOFS. The coherence home on lines that no near core has to give up: cached reads and write-backs (R366, R373),
uncached reads, writes and atomics (R374, R379), the requests it turns away (R370, R384, R412), and BARRIERs (R393 to
R396). -/

open Sys2Proof

namespace Sys2Proof.Machine

/-! ### The directory -/

theorem dirEnt_setDir (s : State) (line : Nat) (e : Option DirEnt) :
    dirEnt (setDir s line e) line = e.map fun x => { x with used := s.nextId } := by
  cases e with
  | none => exact Tab.find_erase_same
  | some x => exact Tab.find_insert_same

/-- What the home answers leaves an entry that was written just before. -/
theorem dirEnt_of_keeps {x t : State} {line : Nat} {e : Option DirEnt} (keeps : HomeKeeps (setDir x line e) t) :
    dirEnt t line = e.map fun d => { d with used := x.nextId } := by
  rw [dirEnt, keeps.dir, ← dirEnt, dirEnt_setDir]

theorem setDir_mem (s : State) (line : Nat) (e : Option DirEnt) : (setDir s line e).mem = s.mem := by cases e <;> rfl

theorem setDir_queue (s : State) (line : Nat) (e : Option DirEnt) : (setDir s line e).ch.queue = s.ch.queue := by
  cases e <;> rfl

theorem corePort_setDir (s : State) (line : Nat) (e : Option DirEnt) (core : Nat) :
    corePort (setDir s line e) core = corePort s core := by cases e <;> rfl

theorem erase_of_find_none {α : Type} {k : Nat} : ∀ {t : Tab α}, Tab.find? t k = none → Tab.erase t k = t
  | [], _ => rfl
  | (i, v) :: t, absent => by
    unfold Tab.find? at absent
    split at absent
    · cases absent
    · rename_i other
      rw [Tab.erase, List.filter_cons, if_pos (by simp [other])]
      exact congrArg _ (erase_of_find_none absent)

theorem setDir_none_of_unheld {s : State} {line : Nat} (unheld : dirEnt s line = none) : setDir s line none = s := by
  unfold setDir
  rw [erase_of_find_none unheld]

/-! ### A request that starts at once -/

/-- A transaction that awaits no answer. -/
def unsnooped (r : HomeReq) : Trans := ⟨r, [], none, false, false, false, false, 0⟩

/-- The home once a request that waits for nothing has started on its line. -/
def onLine (s : State) (r : HomeReq) : State :=
  { s with ch := { s.ch with trans := Tab.insert s.ch.trans (r.addr / 64) (unsnooped r), queue := [] } }

/-- A request that waits for nothing and snoops nobody is served at once. -/
theorem homeRequest_serves {s : State} {r : HomeReq} {t : State} (idle : s.ch.queue = [])
    (free : Tab.find? s.ch.trans (r.addr / 64) = none) (way : needsWay s r = false) (read : readWaits s r = false)
    (plan : ∀ e, dirEnt s (r.addr / 64) = some e → snoopPlan s e r = [])
    (serves : finishTrans (onLine s r) (r.addr / 64) (unsnooped r) [] = t) (done : t.ch.queue = []) :
    homeRequest s r [] = t := by
  have noSnoops : ∀ e, dirEnt s (r.addr / 64) = some e →
      sendSnoops s (r.addr / 64) e (snoopPlan s e r) = (s, []) := fun e held => by rw [plan e held]; rfl
  rw [homeRequest_unheld idle free way read noSnoops]
  exact (pumpHome_empty [] 3 _ (congrArg (·.ch.queue) serves |>.trans done)).trans serves

section
variable {s : State} {core : Nat} {req : CReq} {p : BitVec 3}

/-- The request that a port's command makes of the home. -/
def askOf (core : Nat) (req : CReq) (p : BitVec 3) (op : HomeOp) : HomeReq :=
  ⟨op, core, req.txn, req.addr.toNat, false, some p⟩

/-- The home once the request of a port has started: its credits are back, it is open, and its line is busy with it. -/
def serving (s : State) (core : Nat) (req : CReq) (p : BitVec 3) (op : HomeOp) (beats : Nat) : State :=
  onLine (openReq (emit s (.homeCredits core 1 0 beats)) core req.txn op) (askOf core req p op)

/-- What the home reads while it serves the request is as it was, and the response has its credit. -/
structure Serves (s x : State) (core : Nat) (p : BitVec 3) (line : Nat) : Prop where
  mem    : x.mem = s.mem
  free   : x.free = s.free
  dir    : x.ch.dir = s.ch.dir
  queue  : x.ch.queue = []
  credit : 0 < (corePort x core).hrsp
  issue  : ∀ y : State, y.ps = x.ps → y.tp = x.tp → y.build = x.build →
    mayIssue y { homeVia x (some p) none line with sys := true } line = true
  clean  : Tab.find? x.mem.poison line = none

theorem serving_serves (rest : LineAtRest s core p (req.addr.toNat / 64)) (op : HomeOp) (beats : Nat) :
    Serves s (serving s core req p op beats) core p (req.addr.toNat / 64) := by
  have opened := rest.open (req := req.txn) (op := op) (d := beats)
  refine ⟨rfl, rfl, rfl, rfl, opened.credit, fun y ps tp build => ?_, rest.clean⟩
  have issue := opened.issue
  unfold mayIssue offLimits quarantined partCoversAt partOf at issue ⊢
  rw [ps, tp]
  exact issue

/-- A well-formed request of a port on a line at rest is served at once. -/
theorem coreReq_answers {op : HomeOp} {withData : Bool} {t : State} (asks : CoreMayAsk s core req p)
    (rest : LineAtRest s core p (req.addr.toNat / 64)) (formed : op.formed = true)
    (aligned : req.addr.toNat % op.align = 0)
    (way : (op.allocates && (dirEnt s (req.addr.toNat / 64)).isNone && setFull s (req.addr.toNat / 64)) = false)
    (read : readWaits s (askOf core req p op) = false)
    (plan : ∀ e, dirEnt s (req.addr.toNat / 64) = some e → ∀ u : State, snoopPlan u e (askOf core req p op) = [])
    (serves : finishTrans (serving s core req p op (if withData then 1 else 0)) (req.addr.toNat / 64)
      (unsnooped (askOf core req p op)) [] = t) (done : t.ch.queue = []) :
    coreReq s core req op withData (fun u => coreServe u [] core op req) = .next t := by
  rw [coreReq_serves asks formed aligned]
  refine congrArg Host.Outcome.next ((coreServe_asks_home asks.emit).trans ?_)
  exact homeRequest_serves rest.queue rest.trans way read (fun e held => plan e held _) serves done

end

/-! ### Cached reads of unheld lines (R366, R373) -/

section
variable {s x : State} {core line : Nat} {p : BitVec 3}

/-- A whole line of memory is read. -/
theorem lineData_reads (at_ : Serves s x core p line) {y : State} (same : y.mem = x.mem ∧ y.free = x.free ∧ y.ps = x.ps ∧
    y.tp = x.tp ∧ y.build = x.build) :
    lineData y { homeVia x (some p) none line with sys := true } [] line none =
      (y, .ok, s.mem.bytes s.free (64 * line) 64) := by
  obtain ⟨mem, free, ps, tp, build⟩ := same
  have number : 64 * line / 64 = line := by omega
  refine (memRead_one_line (by omega) (by omega) ?_ ?_).trans ?_
  · rw [number]
    exact at_.issue y ps tp build
  · rw [number, mem]
    exact at_.clean
  · rw [mem, free, at_.mem, at_.free]

/-- A line that no agent holds is granted exclusive, with the memory's data. -/
theorem grantLine_exclusive (at_ : Serves s x core p line) (txn : Byte) {y : State} (mem : y.mem = x.mem)
    (dir : y.ch.queue = [] ∧ corePort y core = corePort x core) (data : List Byte) :
    let t := grantLine core line txn (y, .ok, data) 2 (some (excEnt core))
    t.mem = s.mem ∧ t.ch.queue = [] ∧
      (dirEnt t line).map (fun e => (e.st, e.ptrs, e.bcast)) = some (.exc, [core], false) ∧
      .hrsp core { opc := 1, id := txn.toNat, grant := 2, line := line, data := data } ∈ t.out := by
  obtain ⟨queue, port⟩ := dir
  obtain ⟨keeps, sent⟩ := grantLine_answers (core := core) (line := line) (txn := txn) (grant := 2)
    (e := some (excEnt core)) (x := y) (b := data) (port ▸ at_.credit)
  refine ⟨keeps.mem.trans (mem.trans at_.mem), keeps.queue.trans queue, ?_, sent⟩
  rw [dirEnt_of_keeps keeps]
  rfl

end

section
variable {s x : State} {core : Nat} {p : BitVec 3} {req : CReq}

/-- A read of a line that no agent holds ends in the exclusive grant of memory's data; UPGRADE without a copy is served
as RD_UNIQUE. -/
theorem finishTrans_grants {op : HomeOp} (reads : op = .rdShared ∨ op = .rdUnique ∨ op = .upgrade)
    (at_ : Serves s x core p (req.addr.toNat / 64)) (unheld : dirEnt s (req.addr.toNat / 64) = none) :
    finishTrans x (req.addr.toNat / 64) (unsnooped (askOf core req p op)) [] =
      grantLine core (req.addr.toNat / 64) req.txn
        (x, .ok, s.mem.bytes s.free (64 * (req.addr.toNat / 64)) 64) 2 (some (excEnt core)) := by
  have none : dirEnt x (req.addr.toNat / 64) = none := by rw [dirEnt, at_.dir]; exact unheld
  have data := lineData_reads at_ (y := x) ⟨rfl, rfl, rfl, rfl, rfl⟩
  rcases reads with rfl | rfl | rfl
  · unfold finishTrans
    simp only [unsnooped, askOf, none]
    rw [data]
  · unfold finishTrans
    simp only [unsnooped, askOf, none]
    rw [setDir_none_of_unheld none]
    exact congrArg (fun d => grantLine core _ req.txn d 2 _) data
  · unfold finishTrans
    simp only [unsnooped, askOf, none]
    rw [setDir_none_of_unheld none]
    exact congrArg (fun d => grantLine core _ req.txn d 2 _) data

/-- A cached read of an unheld line. -/
theorem coreReq_grants {op : HomeOp} (reads : op = .rdShared ∨ op = .rdUnique ∨ op = .upgrade)
    (asks : CoreMayAsk s core req p) (rest : LineAtRest s core p (req.addr.toNat / 64))
    (aligned : req.addr.toNat % 64 = 0) (unheld : dirEnt s (req.addr.toNat / 64) = none)
    (way : setFull s (req.addr.toNat / 64) = false) :
    ∃ t, coreReq s core req op false (fun u => coreServe u [] core op req) = .next t ∧ t.mem = s.mem ∧
      (dirEnt t (req.addr.toNat / 64)).map (fun e => (e.st, e.ptrs, e.bcast)) = some (.exc, [core], false) ∧
      .hrsp core { opc := 1, id := req.txn.toNat, grant := 2, line := req.addr.toNat / 64
                   data := s.mem.bytes s.free req.addr.toNat 64 } ∈ t.out := by
  have at_ := serving_serves (req := req) rest op 0
  have grants := finishTrans_grants reads at_ unheld
  rw [line_base _ aligned] at grants
  obtain ⟨mem, done, holder, sent⟩ := grantLine_exclusive at_ req.txn (y := serving s core req p op 0) rfl
    ⟨at_.queue, rfl⟩ (s.mem.bytes s.free req.addr.toNat 64)
  refine ⟨_, coreReq_answers asks rest ?_ ?_ (by rw [way, Bool.and_false]) ?_ (fun e held => ?_) grants done, mem, holder,
    sent⟩
  · rcases reads with rfl | rfl | rfl
    · rfl
    · rfl
    · rfl
  · rcases reads with rfl | rfl | rfl
    · exact aligned
    · exact aligned
    · exact aligned
  · rcases reads with rfl | rfl | rfl
    · rfl
    · rfl
    · rfl
  · rw [unheld] at held
    cases held

/-! ### Write-backs (R373) -/

theorem padTo_length (n : Nat) (bs : List Byte) : (padTo n bs).length = n := by
  simp [padTo]
  omega

/-- A whole line is written. -/
theorem memWrite_line {line : Nat} (at_ : Serves s x core p line) {data : List Byte} (whole : data.length = 64) :
    memWrite { homeVia x (some p) none line with sys := true } [] x (64 * line) data false =
      ({ x with mem := s.mem.writeLine (64 * line) data false }, .ok) := by
  have number : 64 * line / 64 = line := by omega
  refine (memWrite_one_line (by omega) (by omega) ?_).trans ?_
  · rw [number]
    exact at_.issue x rfl rfl rfl
  · rw [at_.mem]

/-- The entry that a write-back of the owner leaves: none of an exclusive line that is not kept, and of one in OWN its
sharers, with the owner where it is kept. -/
def afterWb (d : DirEnt) (core : Nat) (keep : Bool) : Option DirEnt :=
  (if d.st = .exc then (if keep then some (excEnt core) else none)
    else shdEnt (if keep then d.ptrs else d.ptrs.tail)).map fun x => if d.st = .exc then x else { x with bcast := d.bcast }

theorem finishTrans_wb_owner {keep : Bool} {data : List Byte} {d : DirEnt} (whole : data.length = 64)
    (at_ : Serves s x core p (req.addr.toNat / 64)) (held : dirEnt s (req.addr.toNat / 64) = some d)
    (owned : d.st ≠ .shd) (owner : d.ptrs.head? = some core) :
    finishTrans x (req.addr.toNat / 64) (unsnooped (askOf core req p (.wb keep data))) [] =
      respond (setDir { x with mem := s.mem.writeLine (64 * (req.addr.toNat / 64)) data false } (req.addr.toNat / 64)
        (afterWb d core keep)) core (req.addr.toNat / 64) { opc := 3, id := req.txn.toNat } := by
  have entry : dirEnt x (req.addr.toNat / 64) = some d := by rw [dirEnt, at_.dir]; exact held
  unfold finishTrans
  simp only [unsnooped, askOf, entry]
  exact (if_pos (And.intro owned owner)).trans (congrArg (fun w : State × BusStatus =>
    respond (setDir w.1 (req.addr.toNat / 64) (afterWb d core keep)) core (req.addr.toNat / 64)
      { opc := 3, id := req.txn.toNat, status := if w.2 = .ok then 0 else 3 }) (memWrite_line at_ whole))

theorem finishTrans_wb_other {keep : Bool} {data : List Byte} (at_ : Serves s x core p (req.addr.toNat / 64))
    (other : ∀ d, dirEnt s (req.addr.toNat / 64) = some d → d.st = .shd ∨ d.ptrs.head? ≠ some core) :
    finishTrans x (req.addr.toNat / 64) (unsnooped (askOf core req p (.wb keep data))) [] =
      respond x core (req.addr.toNat / 64) { opc := 3, id := req.txn.toNat } := by
  have entry : dirEnt x (req.addr.toNat / 64) = dirEnt s (req.addr.toNat / 64) := by rw [dirEnt, at_.dir]; rfl
  unfold finishTrans
  simp only [unsnooped, askOf, entry]
  cases held : dirEnt s (req.addr.toNat / 64) with
  | none => rfl
  | some d =>
    refine if_neg ?_
    rintro ⟨owned, owner⟩
    exact (other d held).elim owned fun h => h owner

end

/-! ### Uncached reads, writes and atomics (R374, R379) -/

theorem leBytes_length : ∀ n v : Nat, (leBytes n v).length = n
  | 0, _ => rfl
  | n + 1, v => congrArg Nat.succ (leBytes_length n (v / 256))

theorem bytes_length (m : Memory) (f a n : Nat) : (m.bytes f a n).length = n := by simp [Memory.bytes, range]

theorem patch_length {bs xs : List Byte} {off : Nat} (fits : off + xs.length ≤ bs.length) :
    (patch bs off xs).length = bs.length := by
  simp [patch]
  omega

/-- A naturally aligned access of at most a line lies in one line. -/
theorem aligned_in_line {a n : Nat} (small : n ≤ 6) (aligned : a % 2 ^ n = 0) :
    0 < 2 ^ n ∧ a % 64 + 2 ^ n ≤ 64 ∧ a / 64 = (a + 2 ^ n - 1) / 64 := by
  have cases_ : n = 0 ∨ n = 1 ∨ n = 2 ∨ n = 3 ∨ n = 4 ∨ n = 5 ∨ n = 6 := by omega
  rcases cases_ with rfl | rfl | rfl | rfl | rfl | rfl | rfl
  all_goals omega

section
variable {s x : State} {core : Nat} {p : BitVec 3} {req : CReq}

theorem finishTrans_rdNc {n : Nat} (small : n ≤ 6) (aligned : req.addr.toNat % 2 ^ n = 0)
    (at_ : Serves s x core p (req.addr.toNat / 64)) (unheld : dirEnt s (req.addr.toNat / 64) = none) :
    finishTrans x (req.addr.toNat / 64) (unsnooped (askOf core req p (.rdNc n))) [] =
      respond x core (req.addr.toNat / 64)
        { opc := 1, id := req.txn.toNat, data := s.mem.bytes s.free req.addr.toNat (2 ^ n) } := by
  obtain ⟨some, -, within⟩ := aligned_in_line small aligned
  have absent : dirEnt x (req.addr.toNat / 64) = none := by rw [dirEnt, at_.dir]; exact unheld
  have read := memRead_one_line some within (at_.issue x rfl rfl rfl) at_.clean
  rw [at_.mem, at_.free] at read
  have uncached : afterUncached (none : Option DirEnt) none false = none := rfl
  unfold finishTrans
  simp only [unsnooped, askOf, absent, Bool.false_eq_true, if_false, uncached]
  rw [setDir_none_of_unheld absent]
  exact congrArg (fun res : State × BusStatus × List Byte =>
    if res.2.1 = .ok then respond res.1 core (req.addr.toNat / 64) { opc := 1, id := req.txn.toNat, data := res.2.2 }
    else respond res.1 core (req.addr.toNat / 64) { opc := 2, id := req.txn.toNat, status := 3 }) read

theorem finishTrans_wrNc {n : Nat} {data : List Byte} (small : n ≤ 6) (aligned : req.addr.toNat % 2 ^ n = 0)
    (whole : data.length = 64) (at_ : Serves s x core p (req.addr.toNat / 64)) :
    finishTrans x (req.addr.toNat / 64) (unsnooped (askOf core req p (.wrNc n data))) [] =
      respond (setDir { x with mem := s.mem.writeLine req.addr.toNat (data.take (2 ^ n)) false } (req.addr.toNat / 64) none)
        core (req.addr.toNat / 64) { opc := 2, id := req.txn.toNat } := by
  obtain ⟨some, inLine, within⟩ := aligned_in_line small aligned
  have length : (data.take (2 ^ n)).length = 2 ^ n := by rw [List.length_take]; omega
  have written := memWrite_one_line (bs := data.take (2 ^ n)) (by rw [length]; exact some) (by rw [length]; exact within)
    (at_.issue x rfl rfl rfl)
  rw [at_.mem] at written
  exact congrArg (fun w : State × BusStatus => respond (setDir w.1 (req.addr.toNat / 64) none) core (req.addr.toNat / 64)
    { opc := 2, id := req.txn.toNat, status := if w.2 = .ok then 0 else 3 }) written

/-- The value that an atomic stores over an old one. -/
def atomicNew (aop n : Nat) (old : Nat) (data : List Byte) : Nat :=
  atomicOp aop old (leAt data 0 n) (leAt data n n) (8 * n)

/-- What an atomic does with the line that it has read. -/
def atomicEnds (core size aop : Nat) (data : List Byte) (req : CReq) (x : State) (p : BitVec 3)
    (l : State × BusStatus × List Byte) : State :=
  let line := req.addr.toNat / 64
  if l.2.1 ≠ .ok then respond l.1 core line { opc := 2, id := req.txn.toNat, status := 3 }
  else
    let old := leAt l.2.2 (req.addr.toNat % 64) (2 ^ size)
    let new := atomicNew aop (2 ^ size) old data
    let w := memWrite { homeVia x (some p) none line with sys := true } [] l.1 (64 * line)
      (patch l.2.2 (req.addr.toNat % 64) (leBytes (2 ^ size) new)) false
    let t := { w.1 with ch := { w.1.ch with atomics := w.1.ch.atomics + 1 } }
    if w.2 = .ok then respond t core line { opc := 4, id := req.txn.toNat, data := leBytes (2 ^ size) old }
    else respond t core line { opc := 2, id := req.txn.toNat, status := 3 }

theorem finishTrans_atomic_reads {size aop : Nat} {data : List Byte} (absent : dirEnt x (req.addr.toNat / 64) = none) :
    finishTrans x (req.addr.toNat / 64) (unsnooped (askOf core req p (.atomic size aop data))) [] =
      atomicEnds core size aop data req x p (lineData x
        { homeVia x (some p) none (req.addr.toNat / 64) with sys := true } [] (req.addr.toNat / 64) none) := by
  unfold finishTrans
  simp only [unsnooped, askOf]
  rw [setDir_none_of_unheld absent]
  rfl

theorem atomicEnds_writes {size aop : Nat} {data bytes : List Byte} (inLine : req.addr.toNat % 64 + 2 ^ size ≤ bytes.length)
    (whole : bytes.length = 64) (at_ : Serves s x core p (req.addr.toNat / 64)) :
    atomicEnds core size aop data req x p (x, .ok, bytes) =
      respond { x with
        mem := s.mem.writeLine (64 * (req.addr.toNat / 64)) (patch bytes (req.addr.toNat % 64)
          (leBytes (2 ^ size) (atomicNew aop (2 ^ size) (leAt bytes (req.addr.toNat % 64) (2 ^ size)) data))) false
        ch := { x.ch with atomics := x.ch.atomics + 1 } } core (req.addr.toNat / 64)
        { opc := 4, id := req.txn.toNat, data := leBytes (2 ^ size) (leAt bytes (req.addr.toNat % 64) (2 ^ size)) } := by
  have written := memWrite_line at_ ((patch_length (xs := leBytes (2 ^ size) (atomicNew aop (2 ^ size)
    (leAt bytes (req.addr.toNat % 64) (2 ^ size)) data)) (by rw [leBytes_length]; exact inLine)).trans whole)
  unfold atomicEnds
  simp only [ne_eq, not_true_eq_false, if_false]
  rw [written]
  rfl

end

/-! ### Requests that are turned away (R370, R384, R412, R470) -/

section
variable {s : State} {core : Nat} {req : CReq} {op : HomeOp} {withData : Bool} {f : State → State} {bus : Bus}

theorem coreReq_outside (hears : coreHears s core = true) (away : s.ch.st ≠ .up) :
    coreReq s core req op withData f = .next (emit s (.homeCredits core 1 0 (if withData then 1 else 0))) := by
  unfold coreReq
  rw [coreEarly_of_hears hears, hears]
  exact if_pos away

theorem coreReq_at_home (hears : coreHears s core = true) (up : s.ch.st = .up) (free : txnOpen s core req.txn = false) :
    coreReq s core req op withData f =
      let u := emit s (.homeCredits core 1 0 (if withData then 1 else 0))
      .next (if badReq req op then coreFail (openReq u core req.txn op) core req.txn hsFormat else f u) := by
  unfold coreReq
  rw [coreEarly_of_hears hears, hears, up, free]
  exact (apply_ite Host.Outcome.next (badReq req op = true) _ _).symm

theorem badReq_iff : badReq req op = true ↔ req.rsv = true ∨ op.formed = false ∨ req.addr.toNat % op.align ≠ 0 := by
  simp [badReq, or_assoc]

/-- A request with a physical address off the register windows, of a port without a partition, or of one that is in
teardown or does not cover the address. -/
theorem coreServe_denies {u : State} (pa : req.va = false) (off : inWindow req.addr.toNat = false)
    (out : ∀ p, corePart u core = some p → partClosing u p = true ∨ partCoversAt u p (some u.nextId) req.addr.toNat = false) :
    coreServe u bus core op req = coreDeny (openReq u core req.txn op) core req.txn req.addr.toNat := by
  unfold coreServe
  cases owner : corePart u core with
  | none => simp only [pa, off, Bool.not_false, Bool.and_false, Bool.false_and, Bool.false_eq_true, if_false]
  | some p =>
    rcases out p owner with closing | bare
    · exact if_pos closing
    · have denies : corePhys (openReq u core req.txn op) bus core req.txn op p u.nextId req.addr.toNat 0 =
          coreDeny (openReq u core req.txn op) core req.txn req.addr.toNat :=
        if_pos (Bool.or_eq_true_iff.mpr (.inl (congrArg not bare)))
      simp only [pa, off, Bool.not_false, Bool.false_and, Bool.false_eq_true, if_false, if_true, ite_self, denies]

/-- A port's requests wait while READY is 0 (R470). -/
theorem coreReq_waits (early : s.tp.ready = false) (port : core < 32) (built : s.build.cpPresent.getLsbD core = true)
    (free : txnOpen s core req.txn = false) :
    coreReq s core req op withData f =
      .next { s with ch := { s.ch with early := s.ch.early ++ [⟨core, req, some op, 0⟩] } } := by
  have waits : coreEarly s core = true := by
    unfold coreEarly
    rw [decide_eq_true port, built, early]
    rfl
  exact (if_pos waits).trans (if_neg (ne_true_of_eq_false free))

/-- The four ways in which the home turns a request away. -/
theorem coreReq_turnsAway
    (serves : req.va = false → inWindow req.addr.toNat = false → ∀ u, f u = coreServe u bus core op req) :
    let beat := if withData then 1 else 0
    let bad := req.rsv = true ∨ op.formed = false ∨ req.addr.toNat % op.align ≠ 0
    let u := openReq (emit s (.homeCredits core 1 0 beat)) core req.txn op
    (coreHears s core = true → s.ch.st ≠ .up →
      coreReq s core req op withData f = .next (emit s (.homeCredits core 1 0 beat))) ∧
    (coreHears s core = true → s.ch.st = .up → txnOpen s core req.txn = false → bad →
      coreReq s core req op withData f = .next (coreFail u core req.txn 4)) ∧
    (coreHears s core = true → s.ch.st = .up → txnOpen s core req.txn = false → ¬ bad → req.va = false →
      inWindow req.addr.toNat = false →
      (∀ p, corePart s core = some p → partClosing s p = true ∨ partCoversAt s p (some s.nextId) req.addr.toNat = false) →
      coreReq s core req op withData f = .next (coreFail (note u
        { source := srcId 11 core 1, address := BitVec.ofNat 64 req.addr.toNat, part := corePart s core }) core req.txn 2)) ∧
    (s.tp.ready = false → core < 32 → s.build.cpPresent.getLsbD core = true → txnOpen s core req.txn = false →
      coreReq s core req op withData f =
        .next { s with ch := { s.ch with early := s.ch.early ++ [⟨core, req, some op, 0⟩] } }) := by
  intro beat bad u
  refine ⟨coreReq_outside, fun hears up free ill => ?_, fun hears up free well pa off out => ?_, coreReq_waits⟩
  · exact (coreReq_at_home hears up free).trans (congrArg Host.Outcome.next (if_pos (badReq_iff.mpr ill)))
  · refine (coreReq_at_home hears up free).trans (congrArg Host.Outcome.next ?_)
    refine (if_neg fun ill => well (badReq_iff.mp ill)).trans ((serves pa off _).trans ?_)
    exact coreServe_denies pa off out

end

/-- Off the register windows an uncached read or write goes to the home. -/
theorem serves_off_window {req : CReq} {bus : Bus} {core : Nat} (op : HomeOp) (w : State → State) (pa : req.va = false)
    (off : inWindow req.addr.toNat = false) (u : State) :
    (if (!req.va && inWindow req.addr.toNat) = true then w u else coreServe u bus core op req) =
      coreServe u bus core op req := by
  rw [pa, off]
  rfl

/-! ### BARRIERs (R393 to R396) -/

/-- The earlier requests that a BARRIER waits for have ended. -/
def barDone (opens : List OpenReq) (b : HeldBar) : Bool := b.waits.all fun t => !(opens.any fun o => o.txn = t)

theorem not_barDone {opens : List OpenReq} {b : HeldBar} (waits : ∃ x ∈ b.waits, ∃ q ∈ opens, q.txn = x) :
    barDone opens b = false := by
  obtain ⟨x, listed, q, open_, rfl⟩ := waits
  exact List.all_eq_false.mpr ⟨q.txn, listed, by simpa using ⟨q, open_, rfl⟩⟩

/-- The requests of a BARRIER's class that a port has open. -/
def barWaits (opens : List OpenReq) (kind : BitVec 2) : List OpenReq :=
  opens.filter fun o => if kind = 0 then o.load else if kind = 1 then o.store else true

section
variable {s : State} {core : Nat} {req : CReq} {kind : BitVec 2}

/-- A BARRIER is held while a request that it waits for is open. -/
theorem answerBarriers_holds (held : ∀ b ∈ (corePort s core).bars, barDone (corePort s core).opens b = false) :
    (corePort (answerBarriers s core) core).bars = (corePort s core).bars ∧ (answerBarriers s core).out = s.out ∧
      (answerBarriers s core).mem = s.mem ∧ (answerBarriers s core).ch.dir = s.ch.dir := by
  have nothing : (corePort s core).bars.filter (fun b => barDone (corePort s core).opens b) = [] :=
    List.filter_eq_nil_iff.mpr fun b listed => ne_true_of_eq_false (held b listed)
  have ends : answerBarriers s core =
      updCore s core fun c => { c with bars := c.bars.filter fun b => !barDone (corePort s core).opens b } :=
    congrArg (List.foldl _ _) nothing
  rw [ends]
  refine ⟨?_, rfl, rfl, rfl⟩
  rw [corePort_updCore]
  exact List.filter_eq_self.mpr fun b listed => by rw [held b listed]; rfl

/-- A BARRIER that waits for nothing is answered, and those before it are held. -/
theorem answerBarriers_answers {old : List HeldBar} {b : HeldBar} (bars : (corePort s core).bars = old ++ [b])
    (held : ∀ b ∈ old, barDone (corePort s core).opens b = false) (done : barDone (corePort s core).opens b = true)
    (credit : 0 < (corePort s core).hrsp) :
    let t := answerBarriers s core
    (corePort t core).bars = old ∧ .hrsp core { opc := 5, id := b.txn.toNat } ∈ t.out ∧ t.mem = s.mem ∧
      t.ch.dir = s.ch.dir ∧ t.ch.trans = s.ch.trans := by
  have one : (corePort s core).bars.filter (fun b => barDone (corePort s core).opens b) = [b] := by
    rw [bars, List.filter_append, List.filter_eq_nil_iff.mpr fun b listed => ne_true_of_eq_false (held b listed)]
    simp [done]
  let u := updCore s core fun c => { c with bars := c.bars.filter fun b => !barDone (corePort s core).opens b }
  have credit' : 0 < (corePort u core).hrsp := by
    rw [corePort_updCore]
    exact credit
  have ends : answerBarriers s core = emit (updCore u core fun c => { c with hrsp := c.hrsp - 1 })
      (.hrsp core { opc := 5, id := b.txn.toNat }) :=
    (congrArg (List.foldl _ u) one).trans (if_pos credit')
  intro t
  refine ⟨?_, ?_, ?_, ?_, ?_⟩
  · show (corePort (answerBarriers s core) core).bars = old
    rw [ends, corePort_emit, corePort_updCore, corePort_updCore]
    show (corePort s core).bars.filter _ = old
    rw [bars, List.filter_append, List.filter_eq_self.mpr fun b listed => by rw [held b listed]; rfl]
    simp [done]
  · show _ ∈ (answerBarriers s core).out
    rw [ends]
    exact List.mem_append_right _ (List.mem_singleton.mpr rfl)
  · exact (congrArg State.mem ends).trans rfl
  · exact (congrArg (fun x => x.ch.dir) ends).trans rfl
  · exact (congrArg (fun x => x.ch.trans) ends).trans rfl

/-- What the home does with a BARRIER that it hears (R395, R396). -/
theorem execBarrier_at_home (hears : coreHears s core = true) (up : s.ch.st = .up) (free : txnOpen s core req.txn = false) :
    exec (.barrier core req kind) s = .next (takeBarrier (emit s (.homeCredits core 1 0 0)) core req kind) := by
  show execBarrier core req kind s = _
  unfold execBarrier
  rw [coreEarly_of_hears hears, hears, up, free]
  rfl

/-- A BARRIER stands behind those before it, with the requests of its class. -/
theorem takeBarrier_takes (rsv : req.rsv = false) (class_ : kind ≠ 3) :
    takeBarrier s core req kind = answerBarriers (updCore s core fun c =>
      { c with bars := c.bars ++ [⟨req.txn, (barWaits c.opens kind).map (·.txn)⟩] }) core :=
  if_neg (by rw [rsv, decide_eq_false class_]; exact Bool.false_ne_true)

end

end Sys2Proof.Machine

open Sys2Proof.Machine

/-- Settles O24: each request starts at once (`coreReq_answers`) and ends in a grant or in an acknowledgement. -/
theorem cachedReadsAndWriteBacks : Obligations.CachedReadsAndWriteBacks := by
  unfold Obligations.CachedReadsAndWriteBacks
  constructor
  · intro core req p s asks rest aligned unheld way c row
    simp only [List.mem_cons, List.not_mem_nil, or_false] at row
    rcases row with rfl | rfl | rfl
    · exact coreReq_grants (.inl rfl) asks rest aligned unheld way
    · exact coreReq_grants (.inr (.inl rfl)) asks rest aligned unheld way
    · exact coreReq_grants (.inr (.inr rfl)) asks rest aligned unheld way
  · intro core req keep data p s asks rest aligned
    let line := req.addr.toNat / 64
    have at_ := serving_serves (req := req) rest (.wb keep (padTo 64 data)) 1
    have answers := fun t => coreReq_answers (op := .wb keep (padTo 64 data)) (withData := true) (t := t) asks rest rfl
      aligned rfl rfl fun e held u => rfl
    constructor
    · intro d held owned owner
      have ends := finishTrans_wb_owner (keep := keep) (padTo_length 64 data) at_ held owned owner
      obtain ⟨keeps, sent⟩ := respond_answers (setDir { serving s core req p (.wb keep (padTo 64 data)) 1 with
        mem := s.mem.writeLine (64 * line) (padTo 64 data) false } line (afterWb d core keep)) core line
        { opc := 3, id := req.txn.toNat } (by rw [corePort_setDir]; exact at_.credit)
      refine ⟨_, answers _ ends (keeps.queue.trans (by rw [setDir_queue]; exact at_.queue)), ?_, fun exc => ?_, fun own => ?_, sent⟩
      · rw [keeps.mem, setDir_mem, line_base _ aligned]
      · rw [dirEnt_of_keeps keeps, afterWb, if_pos exc]
        cases keep
        · rfl
        · simp [exc, excEnt]
      · rw [dirEnt_of_keeps keeps, afterWb, if_neg (by rw [own]; exact nofun)]
        simp [own, Function.comp_def]
    · intro other
      have ends := finishTrans_wb_other (keep := keep) (data := padTo 64 data) at_ other
      obtain ⟨keeps, sent⟩ := respond_answers (serving s core req p (.wb keep (padTo 64 data)) 1) core line
        { opc := 3, id := req.txn.toNat } at_.credit
      exact ⟨_, answers _ ends (keeps.queue.trans at_.queue), keeps.mem.trans at_.mem, keeps.dir.trans at_.dir, sent⟩

/-- Settles O25: each request starts at once and ends in its answer (`finishTrans_rdNc`, `finishTrans_wrNc`,
`atomicEnds_writes`), or is turned away before it starts (`coreReq_turnsAway`). -/
theorem uncachedAccessesAndRefusals : Obligations.UncachedAccessesAndRefusals := by
  unfold Obligations.UncachedAccessesAndRefusals
  refine ⟨fun core req p s asks rest unheld => ⟨?_, ?_, ?_⟩, ?_⟩
  · intro size small aligned settled
    have at_ := serving_serves (req := req) rest (.rdNc size.toNat) 0
    obtain ⟨keeps, sent⟩ := respond_answers (serving s core req p (.rdNc size.toNat) 0) core (req.addr.toNat / 64)
      { opc := 1, id := req.txn.toNat, data := s.mem.bytes s.free req.addr.toNat (2 ^ size.toNat) } at_.credit
    have served := coreReq_answers (op := .rdNc size.toNat) (withData := false) asks rest (decide_eq_true small) aligned rfl settled
      (fun e held => by rw [unheld] at held; cases held) (finishTrans_rdNc small aligned at_ unheld)
      (keeps.queue.trans at_.queue)
    refine ⟨_, Eq.trans ?_ served, keeps.mem.trans at_.mem, keeps.dir.trans at_.dir, sent⟩
    exact congrArg (coreReq s core req _ false) (funext (serves_off_window (.rdNc size.toNat)
      (fun u => windowRead u [] core req size.toNat) asks.pa asks.window))
  · intro size data small aligned
    have at_ := serving_serves (req := req) rest (.wrNc size.toNat (padTo 64 data)) 1
    obtain ⟨keeps, sent⟩ := respond_answers (setDir { serving s core req p (.wrNc size.toNat (padTo 64 data)) 1 with
      mem := s.mem.writeLine req.addr.toNat ((padTo 64 data).take (2 ^ size.toNat)) false } (req.addr.toNat / 64) none)
      core (req.addr.toNat / 64) { opc := 2, id := req.txn.toNat } at_.credit
    have served := coreReq_answers (op := .wrNc size.toNat (padTo 64 data)) (withData := true) asks rest (decide_eq_true small) aligned rfl rfl
      (fun e held => by rw [unheld] at held; cases held) (finishTrans_wrNc small aligned (padTo_length 64 data) at_)
      (keeps.queue.trans at_.queue)
    refine ⟨_, Eq.trans ?_ served, keeps.mem, sent⟩
    exact congrArg (coreReq s core req _ true) (funext (serves_off_window (.wrNc size.toNat (padTo 64 data))
      (fun u => windowWriteNc u [] core req size.toNat (padTo 64 data)) asks.pa asks.window))
  · intro size aop data formed aligned n bytes old new
    have small : size.toNat ≤ 6 := by
      rcases formed with ⟨rfl, -⟩ | ⟨rfl, -⟩
      · decide
      · decide
    have fine : (HomeOp.atomic size.toNat aop.toNat (padTo 64 data)).formed = true := by
      refine decide_eq_true ?_
      rcases formed with ⟨rfl, low⟩ | ⟨rfl, rfl⟩
      · exact .inl ⟨rfl, low⟩
      · exact .inr ⟨rfl, rfl⟩
    have at_ := serving_serves (req := req) rest (.atomic size.toNat aop.toNat (padTo 64 data)) 1
    have reads := lineData_reads at_ (y := serving s core req p (.atomic size.toNat aop.toNat (padTo 64 data)) 1)
      ⟨rfl, rfl, rfl, rfl, rfl⟩
    have absent : dirEnt (serving s core req p (.atomic size.toNat aop.toNat (padTo 64 data)) 1) (req.addr.toNat / 64) =
      none := unheld
    obtain ⟨-, inLine, -⟩ := aligned_in_line small aligned
    have whole : bytes.length = 64 := bytes_length ..
    have ends := (finishTrans_atomic_reads absent).trans ((congrArg _ reads).trans
      (atomicEnds_writes (aop := aop.toNat) (data := padTo 64 data) (by rw [bytes_length]; exact inLine)
        (bytes_length ..) at_))
    obtain ⟨keeps, sent⟩ := respond_answers { serving s core req p (.atomic size.toNat aop.toNat (padTo 64 data)) 1 with
      mem := s.mem.writeLine (64 * (req.addr.toNat / 64)) (patch bytes (req.addr.toNat % 64) (leBytes n new)) false
      ch := { (serving s core req p (.atomic size.toNat aop.toNat (padTo 64 data)) 1).ch with
        atomics := (serving s core req p (.atomic size.toNat aop.toNat (padTo 64 data)) 1).ch.atomics + 1 } } core
      (req.addr.toNat / 64) { opc := 4, id := req.txn.toNat, data := leBytes n old } at_.credit
    exact ⟨_, coreReq_answers (withData := true) asks rest fine aligned rfl rfl
      (fun e held => by rw [unheld] at held; cases held) ends (keeps.queue.trans at_.queue), keeps.mem, sent⟩
  · intro core req keep size aop data bus s c row
    simp only [List.mem_cons, List.not_mem_nil, or_false] at row
    have home := fun (u : State) op => (rfl : coreServe u bus core op req = coreServe u bus core op req)
    rcases row with rfl | rfl | rfl | rfl | rfl | rfl | rfl
    · exact coreReq_turnsAway (withData := false) fun _ _ u => home u .rdShared
    · exact coreReq_turnsAway (withData := false) fun _ _ u => home u .rdUnique
    · exact coreReq_turnsAway (withData := false) fun _ _ u => home u .upgrade
    · exact coreReq_turnsAway (withData := true) fun _ _ u => home u (.wb keep (padTo 64 data))
    · exact coreReq_turnsAway (withData := false)
        (serves_off_window (.rdNc size.toNat) fun u => windowRead u bus core req size.toNat)
    · exact coreReq_turnsAway (withData := true)
        (serves_off_window (.wrNc size.toNat (padTo 64 data)) fun u => windowWriteNc u bus core req size.toNat (padTo 64 data))
    · exact coreReq_turnsAway (withData := true) fun _ _ u => home u (.atomic size.toNat aop.toNat (padTo 64 data))

/-- Settles O26: a BARRIER stands with exactly the open requests of its class, and is answered where there is none. -/
theorem barriersWaitForTheirClass : Obligations.BarriersWaitForTheirClass := by
  unfold Obligations.BarriersWaitForTheirClass
  intro core req kind s hears
  refine ⟨fun away => ?_, fun up free ill => ?_, fun up free rsv class_ old => ?_⟩
  · show execBarrier core req kind s = _
    unfold execBarrier
    rw [coreEarly_of_hears hears, hears]
    exact if_pos away
  · refine (execBarrier_at_home hears up free).trans (congrArg Host.Outcome.next (if_pos ?_))
    rcases ill with rsv | class_
    · rw [rsv]; rfl
    · rw [decide_eq_true class_, Bool.or_true]
  · let u := updCore (emit s (.homeCredits core 1 0 0)) core fun c =>
      { c with bars := c.bars ++ [⟨req.txn, (barWaits c.opens kind).map (·.txn)⟩] }
    have taken : exec (.barrier core req kind) s = .next (answerBarriers u core) :=
      (execBarrier_at_home hears up free).trans (congrArg Host.Outcome.next (takeBarrier_takes rsv class_))
    have port : corePort u core = { corePort s core with bars := (corePort s core).bars ++
        [⟨req.txn, (barWaits (corePort s core).opens kind).map (·.txn)⟩] } := corePort_updCore ..
    have held : ∀ b ∈ (corePort s core).bars, barDone (corePort u core).opens b = false := fun b listed => by
      rw [port]
      exact not_barDone (old b listed)
    refine ⟨fun alone credit => ?_, fun waits => ?_⟩
    · have done : barDone (corePort u core).opens
          ⟨req.txn, (barWaits (corePort s core).opens kind).map (·.txn)⟩ = true := by
        have alone : barWaits (corePort s core).opens kind = [] := alone
        rw [alone]
        rfl
      obtain ⟨bars, sent, mem, dir, trans⟩ := answerBarriers_answers (by rw [port]) held done (by rw [port]; exact credit)
      exact ⟨_, taken, bars, sent, mem, dir, trans⟩
    · have all : ∀ b ∈ (corePort u core).bars, barDone (corePort u core).opens b = false := fun b listed => by
        rw [port] at listed
        rcases List.mem_append.mp listed with earlier | new
        · exact held b earlier
        · obtain rfl := List.mem_singleton.mp new
          obtain ⟨o, first⟩ := List.exists_mem_of_ne_nil _ waits
          rw [port]
          exact not_barDone ⟨o.txn, List.mem_map_of_mem first, o, (List.mem_filter.mp first).1, rfl⟩
      obtain ⟨bars, out, mem, dir⟩ := answerBarriers_holds all
      exact ⟨_, taken, bars.trans (by rw [port]; rfl), out, mem, dir⟩

end

section
/-! PROOFS. Answers to snoops and STASH offers (R371, R373, R381), and the coherent domain's way down and up with its
credits (R50, R383 to R386). -/

open Sys2Proof

namespace Sys2Proof.Machine

/-! ### Answers to snoops -/

/-- An answer that brings a CDAT beat. -/
def SnoopAns.withData : SnoopAns → Bool
  | .data _ => true
  | _ => false

section
variable {s : State} {core : Nat} {sid : BitVec 10} {a : SnoopAns} {data : List Byte} {bus : Bus} {sn : Snoop}

/-- An answer that R371 allows is taken, and its credits go back. -/
theorem coreAnswer_takes (hears : coreHears s core = true) (up : s.ch.st = .up)
    (asked : Tab.find? s.ch.snps (snoopKey core sid.toNat) = some sn)
    (sent : (corePort s core).hsnpQ.any (fun q => q.1 = sid.toNat) = false) (fits : answerFits s sn a = true) :
    coreAnswer s core sid a data bus =
      .next (snoopAnswer (emit s (.homeCredits core 0 (if a.withData then 0 else 1) (if a.withData then 1 else 0))) core
        sid.toNat (if a.withData && !decide (sn.kind = 3) then some (padTo 64 data) else none)
        (decide (a = .data true) && !decide (sn.kind = 3))
        (decide (a = .accept) || (decide (a = .shared) && !decide (sn.kind = 3))) bus) := by
  unfold coreAnswer
  simp only [hears, up, asked, sent, fits, Bool.not_true, Bool.or_false, Bool.false_eq_true, if_false, ne_eq,
    not_true_eq_false]
  rfl

end

/-- A transaction once an answer to a snoop has come. -/
def Trans.afterAnswer (t : Trans) (core sid : Nat) (data : Option (List Byte)) (toO kept : Bool) : Trans :=
  { t with
    awaits := t.awaits.filter fun a => a ≠ (sid, core)
    data := if data.isSome then data else t.data, toO := t.toO || toO, kept := t.kept || kept }

/-- The home once an answer to a snoop has been noted on its line. -/
def noteAnswer (s : State) (core sid line : Nat) (t : Trans) : State :=
  { s with ch := { s.ch with
    snps := Tab.erase s.ch.snps (snoopKey core sid), trans := Tab.modify s.ch.trans line fun _ => t } }

theorem noteAnswer_busy {s : State} {core sid line : Nat} {t x : Trans} (busy : Tab.find? s.ch.trans line = some x) :
    Tab.find? (noteAnswer s core sid line t).ch.trans line = some t :=
  Tab.find_modify_same.trans (congrArg (Option.map fun _ => t) busy)

section
variable {s : State} {core sid : Nat} {sn : Snoop} {tr : Trans} {data : Option (List Byte)} {toO kept : Bool} {bus : Bus}

theorem snoopAnswer_notes (asked : Tab.find? s.ch.snps (snoopKey core sid) = some sn)
    (busy : Tab.find? s.ch.trans sn.line = some tr) :
    snoopAnswer s core sid data toO kept bus =
      let t := tr.afterAnswer core sid data toO kept
      let u := noteAnswer s core sid sn.line t
      if t.awaits = [] then wakeHome bus (finishTrans u sn.line t bus) else u := by
  unfold snoopAnswer
  simp only [asked, busy]
  rfl

/-- While another agent has still to answer, only the answer is noted. -/
theorem snoopAnswer_waits (asked : Tab.find? s.ch.snps (snoopKey core sid) = some sn)
    (busy : Tab.find? s.ch.trans sn.line = some tr) {other : Nat × Nat} (more : other ∈ tr.awaits)
    (else_ : other ≠ (sid, core)) :
    snoopAnswer s core sid data toO kept bus = noteAnswer s core sid sn.line (tr.afterAnswer core sid data toO kept) := by
  refine (snoopAnswer_notes asked busy).trans (if_neg fun nobody => ?_)
  have left : other ∈ (tr.afterAnswer core sid data toO kept).awaits := List.mem_filter.mpr ⟨more, by simpa using else_⟩
  rw [nobody] at left
  cases left

/-- The last answer finishes the transaction. -/
theorem snoopAnswer_finishes (asked : Tab.find? s.ch.snps (snoopKey core sid) = some sn)
    (busy : Tab.find? s.ch.trans sn.line = some tr) (last : tr.awaits = [(sid, core)]) {t : State}
    (ends : finishTrans (noteAnswer s core sid sn.line (tr.afterAnswer core sid data toO kept)) sn.line
      (tr.afterAnswer core sid data toO kept) bus = t) (idle : t.ch.queue = []) :
    snoopAnswer s core sid data toO kept bus = t := by
  have nobody : (tr.afterAnswer core sid data toO kept).awaits = [] := by
    show tr.awaits.filter _ = []
    rw [last]
    simp
  refine (snoopAnswer_notes asked busy).trans ((if_pos nobody).trans ?_)
  rw [ends]
  exact pumpHome_empty bus _ t idle

end

/-! ### STASH offers and forwarded data (R373, R381) -/

section
variable {s : State} {line : Nat} {t : Trans} {bus : Bus} {data : List Byte} {en : List Bool}

/-- A port that accepts a hinted line becomes its exclusive owner. -/
theorem finishTrans_stash_accepted (op : t.req.op = .hint data en) (stash : t.stash = true) (kept : t.kept = true) :
    finishTrans s line t bus =
      respond (setDir { s with ch := { s.ch with stashAcc := s.ch.stashAcc + 1 } } line (some (excEnt t.req.port)))
        t.req.port line { opc := 6, id := t.sid, grant := 2, line := line, data := s.mem.bytes s.free (64 * line) 64 } := by
  unfold finishTrans
  simp only [op, stash, kept, if_true]
  rw [Memory.bytes, range, List.map_map]
  rfl

/-- A hinted line that its port declines stays with nobody. -/
theorem finishTrans_stash_declined (op : t.req.op = .hint data en) (stash : t.stash = true) (kept : t.kept = false) :
    finishTrans s line t bus =
      endTrans (setDir { s with ch := { s.ch with stashDec := s.ch.stashDec + 1 } } line none) line := by
  unfold finishTrans
  simp only [op, stash, kept, if_true, Bool.false_eq_true, if_false]

/-- The transaction of a hinted write ends without a request of its port. -/
theorem endTrans_hint (busy : Tab.find? s.ch.trans line = some t) (op : t.req.op = .hint data en) :
    endTrans s line = { s with ch := { s.ch with trans := Tab.erase s.ch.trans line } } := by
  unfold endTrans
  simp only [busy, op]

/-- The dirty data of an exclusive owner are forwarded: the owner keeps the line in OWN, the reader becomes a sharer. -/
theorem finishTrans_forwards {d : DirEnt} {owner : Nat} (op : t.req.op = .rdShared) (held : dirEnt s line = some d)
    (exclusive : d.st = .exc) (ptrs : d.ptrs = [owner]) (other : t.req.port ≠ owner) (dirty : t.data = some data) :
    finishTrans s line t bus =
      let shared : DirEnt := { d with st := .own, fwd := some data }
      grantLine t.req.port line t.req.txn (countOwner (setDir s line (some shared)) (some data), .ok, data) 1
        (some { shared with ptrs := [owner, t.req.port] }) := by
  have owned : ¬ (d.st = .shd) := by rw [exclusive]; exact nofun
  have sharer : ({ d with st := .own, fwd := some data } : DirEnt).addSharer t.req.port =
      { d with st := .own, fwd := some data, ptrs := [owner, t.req.port] } := by
    simp [DirEnt.addSharer, ptrs, other]
  unfold finishTrans
  simp only [op, held, owned, if_false, dirty, afterShared, sharer, lineData]

end

/-! ### The domain's way down and up (R383, R384, R386) -/

/-- The home's credits go to every core that the build has, and the rest stays. -/
theorem advertise_gives (s : State) : (advertise s).ch = s.ch ∧ (advertise s).mem = s.mem ∧
    ∀ p < 32, s.build.cpPresent.getLsbD p = true → .homeCredits p 16 8 8 ∈ (advertise s).out := by
  obtain ⟨out, sends, all⟩ := advertise_sends s
  rw [sends]
  exact ⟨rfl, rfl, fun p low built => List.mem_append_right _ (all p low built)⟩

/-- Down by a report or by what follows it. -/
theorem report_then_down {s : State} {ev : Event} {m a : Byte} (up : s.ch.st = .up) :
    Downed (domainDown (report s ev m) a).ch := by
  have fresh : s.ch.st ≠ .down ∧ s.ch.st ≠ .purging := by rw [up]; exact ⟨nofun, nofun⟩
  rcases report_ch s ev m fresh with same | downed
  · exact domainDown_downed _ _ (by rw [same]; exact fresh)
  · rw [domainDown_of_downed a downed]
    exact downed

theorem domainDown_agent {s : State} {a : Byte} (up : s.ch.st = .up) : (domainDown s a).ch.agent = a := by
  have open_ : ¬ (s.ch.st = .purging ∨ s.ch.st = .down) := by rw [up]; exact fun h => h.elim nofun nofun
  unfold domainDown
  rw [if_neg open_]

/-- A missed snoop deadline is reported and takes the domain down. -/
theorem snoopDeadline_downs {s : State} {agent slice : Nat} {bus : Bus} {e : Nat × Snoop} (up : s.ch.st = .up)
    (core : agent < 32) (missed : List.find? (fun e : Nat × Snoop => decide (e.2.core = agent)) s.ch.snps = some e) :
    exec (.snoopDeadline agent slice bus) s = .next (domainDown (report s
      { source := srcId 11 agent 0, address := BitVec.ofNat 64 (64 * e.2.line), info := BitVec.ofNat 16 agent }
      (Config.masterId 11 agent)) (BitVec.ofNat 8 agent)) := by
  show execSnoopDeadline agent slice bus s = _
  unfold execSnoopDeadline
  rw [if_neg (fun away => away.1 up), if_pos core, missed]

/-! ### Credits of a core (R50) -/

section
variable {s : State} {core n : Nat} {hsnp : Bool}

/-- Credits that a core returned. -/
def credited (s : State) (core n : Nat) (hsnp : Bool) : State :=
  updCore s core fun c => if hsnp then { c with hsnp := c.hsnp + n } else { c with hrsp := c.hrsp + n }

/-- A port that has given the credits of R50 on both channels is attached. -/
def attachedIfReady (s : State) (core : Nat) : State :=
  if 4 ≤ (corePort s core).hsnp ∧ 4 ≤ (corePort s core).hrsp then
    { s with ch := { s.ch with attached := s.ch.attached ||| (1#32 <<< core) } } else s

theorem corePort_credited : corePort (credited s core n hsnp) core =
    { corePort s core with
      hsnp := (corePort s core).hsnp + (if hsnp then n else 0), hrsp := (corePort s core).hrsp + (if hsnp then 0 else n) } := by
  rw [credited, corePort_updCore]
  cases hsnp with
  | false => rfl
  | true => rfl

theorem attachedIfReady_keeps : (attachedIfReady s core).mem = s.mem ∧ (attachedIfReady s core).out = s.out ∧
    corePort (attachedIfReady s core) core = corePort s core ∧ (attachedIfReady s core).ch.queue = s.ch.queue := by
  unfold attachedIfReady
  split
  · exact ⟨rfl, rfl, rfl, rfl⟩
  · exact ⟨rfl, rfl, rfl, rfl⟩

theorem attachedIfReady_attaches (snoops : 4 ≤ (corePort s core).hsnp) (answers : 4 ≤ (corePort s core).hrsp)
    (port : core < 32) : (attachedIfReady s core).ch.attached.getLsbD core = true := by
  rw [attachedIfReady, if_pos ⟨snoops, answers⟩]
  simp [port]

/-- Where nothing waits for credits, they are only counted. -/
theorem creditReturn_counts (heard : coreHears s core = true ∨ (coreEarly s core = true ∧ s.tp.pwr ≠ .p3))
    (counts : s.ch.st = .up ∨ s.ch.st = .restoring) (snoops : (corePort s core).hsnpQ = [])
    (answers : (corePort s core).hrspQ = []) (idle : s.ch.queue = []) :
    exec (.coreCreditReturn core hsnp n) s = .next (attachedIfReady (credited s core n hsnp) core) := by
  let u := attachedIfReady (credited s core n hsnp) core
  have hears : (coreHears s core || (coreEarly s core && decide (s.tp.pwr ≠ .p3))) = true := by
    rcases heard with now | ⟨early, powered⟩
    · rw [now]; rfl
    · rw [early, decide_eq_true powered, Bool.and_self, Bool.or_true]
  have open_ : ¬ (s.ch.st = .down ∨ s.ch.st = .purging) := by
    rcases counts with up | restoring
    · rw [up]; exact fun h => h.elim nofun nofun
    · rw [restoring]; exact fun h => h.elim nofun nofun
  have noSnoops : (corePort (credited s core n hsnp) core).hsnpQ = [] := by rw [corePort_credited]; exact snoops
  have noAnswers : (corePort (credited s core n hsnp) core).hrspQ = [] := by rw [corePort_credited]; exact answers
  have waits : exec (.coreCreditReturn core hsnp n) s = .next (wakeHome []
      (pumpResponses core (corePort (credited s core n hsnp) core).hrspQ.length
        (pumpSnoops core (corePort (credited s core n hsnp) core).hsnpQ.length u))) := by
    show execCoreCreditReturn core hsnp n s = _
    unfold execCoreCreditReturn
    rw [hears]
    exact if_neg fun h => h.elim nofun open_
  rw [noSnoops, noAnswers] at waits
  refine waits.trans (congrArg Host.Outcome.next (pumpHome_empty [] _ u ?_))
  exact (attachedIfReady_keeps (s := credited s core n hsnp)).2.2.2.trans idle

end

end Sys2Proof.Machine

open Sys2Proof.Machine

/-- Settles O27: an answer is noted (`snoopAnswer_waits`), and the last one finishes the transaction of its line. -/
theorem snoopsStashesAndForwards : Obligations.SnoopsStashesAndForwards := by
  unfold Obligations.SnoopsStashesAndForwards
  refine ⟨?_, ?_, ?_⟩
  · intro core other sid oid toO data bus sn tr s hears up asked plain sent busy more else_ c row fits
    have noted : ∀ (a : SnoopAns) (d : List Byte), answerFits s sn a = true →
        ∃ t x, coreAnswer s core sid a d bus = .next t ∧ t.mem = s.mem ∧ t.ch.dir = s.ch.dir ∧
          Tab.find? t.ch.snps (snoopKey core sid.toNat) = none ∧ Tab.find? t.ch.trans sn.line = some x ∧
          x.awaits = tr.awaits.filter (fun a => a ≠ (sid.toNat, core)) ∧
          x.data = if a.withData then some (padTo 64 d) else tr.data := by
      intro a d fits
      refine ⟨_, _, (coreAnswer_takes hears up asked sent fits).trans (congrArg Host.Outcome.next
        (snoopAnswer_waits asked busy more else_)), rfl, rfl, Tab.find_erase_same, noteAnswer_busy busy, rfl, ?_⟩
      cases brings : a.withData with
      | false => rfl
      | true => simp [Trans.afterAnswer, plain]
    simp only [List.mem_cons, List.not_mem_nil, or_false] at row
    rcases row with rfl | rfl | rfl
    · exact noted .miss [] fits
    · exact noted .shared [] fits
    · obtain ⟨t, x, next, mem, dir, snoop, trans, awaits, dirty⟩ := noted (.data toO) data fits
      exact ⟨t, x, next, mem, dir, snoop, trans, awaits, dirty.trans (if_pos rfl).symm⟩
  · intro core sid bus line tr data en s hears up asked sent busy op port stash unkept last idle credit
    constructor
    · let tr' := tr.afterAnswer core sid.toNat none false true
      let u := noteAnswer (emit s (.homeCredits core 0 1 0)) core sid.toNat line tr'
      obtain ⟨keeps, given⟩ := respond_answers
        (setDir { u with ch := { u.ch with stashAcc := u.ch.stashAcc + 1 } } line (some (excEnt tr'.req.port))) tr'.req.port line
        { opc := 6, id := tr'.sid, grant := 2, line := line, data := s.mem.bytes s.free (64 * line) 64 }
        (by rw [corePort_setDir]; exact (congrArg (fun p => 0 < (corePort s p).hrsp) port).mpr credit)
      have ends := finishTrans_stash_accepted (s := u) (line := line) (t := tr') (bus := bus) op stash (Bool.or_true _)
      have answered := snoopAnswer_finishes (s := emit s (.homeCredits core 0 1 0)) (bus := bus) (sn := ⟨core, line, 3⟩)
        asked busy last ends (keeps.queue.trans idle)
      refine ⟨_, (coreAnswer_takes hears up asked sent rfl).trans (congrArg Host.Outcome.next answered), keeps.mem, ?_, ?_⟩
      · refine (congrArg (Option.map _) (dirEnt_of_keeps keeps)).trans ?_
        exact congrArg (fun p => some (DirSt.exc, [p], false)) port
      · rw [← port]
        exact given
    · let tr' := tr.afterAnswer core sid.toNat none false false
      let u := noteAnswer (emit s (.homeCredits core 0 1 0)) core sid.toNat line tr'
      have noted : Tab.find? u.ch.trans line = some tr' := noteAnswer_busy (s := emit s (.homeCredits core 0 1 0)) busy
      have declined : tr'.kept = false := by
        show (tr.kept || false) = false
        rw [unkept]
        rfl
      have ends := (finishTrans_stash_declined (s := u) (line := line) (t := tr') (bus := bus) op stash declined).trans
        (endTrans_hint (s := setDir { u with ch := { u.ch with stashDec := u.ch.stashDec + 1 } } line none) noted op)
      have answered := snoopAnswer_finishes (s := emit s (.homeCredits core 0 1 0)) (bus := bus) (sn := ⟨core, line, 3⟩)
        asked busy last ends idle
      exact ⟨_, (coreAnswer_takes hears up asked sent rfl).trans (congrArg Host.Outcome.next answered), rfl,
        Tab.find_erase_same, Tab.find_erase_same⟩
  · intro owner sid data bus line tr s hears up asked sent busy op other last idle held credit
    obtain ⟨d, entry, shape⟩ := Option.map_eq_some_iff.mp held
    obtain ⟨exclusive, ptrs, bcast⟩ := (by simpa using shape : d.st = .exc ∧ d.ptrs = [owner] ∧ d.bcast = false)
    have fits : answerFits s ⟨owner, line, 1⟩ (.data true) = true := by
      simp [answerFits, ownsLine, entry, exclusive, ptrs]
    let tr' := tr.afterAnswer owner sid.toNat (some (padTo 64 data)) true false
    let u := noteAnswer (emit s (.homeCredits owner 0 0 1)) owner sid.toNat line tr'
    let shared : DirEnt := { d with st := .own, fwd := some (padTo 64 data) }
    have ends := finishTrans_forwards (s := u) (line := line) (t := tr') (bus := bus) op entry exclusive ptrs other rfl
    obtain ⟨keeps, given⟩ := grantLine_answers (core := tr'.req.port) (line := line) (txn := tr'.req.txn) (grant := 1)
      (e := some { shared with ptrs := [owner, tr'.req.port] })
      (x := countOwner (setDir u line (some shared)) (some (padTo 64 data))) (b := padTo 64 data) credit
    have answered := snoopAnswer_finishes (s := emit s (.homeCredits owner 0 0 1)) (bus := bus) (sn := ⟨owner, line, 1⟩)
      asked busy last ends (keeps.queue.trans idle)
    refine ⟨_, (coreAnswer_takes hears up asked sent fits).trans (congrArg Host.Outcome.next answered), keeps.mem, ?_, given⟩
    refine (congrArg (Option.map _) (dirEnt_of_keeps keeps)).trans ?_
    exact congrArg (fun b => some (DirSt.own, [owner, tr.req.port], b)) bcast

/-- Settles O28: the way down empties the home (`domainDown_downed`), and returned credits are counted
(`creditReturn_counts`). -/
theorem coherentDomainAndCredits : Obligations.CoherentDomainAndCredits := by
  unfold Obligations.CoherentDomainAndCredits
  refine ⟨⟨?_, ?_, ?_, ?_, ?_⟩, ?_⟩
  · intro agent slice bus e s up core missed
    let ev : Event := { source := srcId 11 agent 0, address := BitVec.ofNat 64 (64 * e.2.line), info := BitVec.ofNat 16 agent }
    obtain ⟨st, dir, trans, snps, queue⟩ :=
      report_then_down (ev := ev) (m := Config.masterId 11 agent) (a := BitVec.ofNat 8 agent) up
    exact ⟨_, snoopDeadline_downs up core missed, dir, trans, snps, queue, st⟩
  · intro bus s allowed idle up
    obtain ⟨st, dir, trans, snps, -⟩ := domainDown_downed s 0xFE (by rw [up]; exact ⟨nofun, nofun⟩)
    have agent := domainDown_agent (a := 0xFE) up
    refine ⟨domainDone (domainDown s 0xFE) rOk, ?_, st, agent, rfl, dir, trans, snps, domainDown_fc s 0xFE⟩
    show Host.Outcome.next (if barOk s then domainWrite s 2 else s) = _
    rw [allowed]
    exact congrArg Host.Outcome.next ((if_neg (ne_true_of_eq_false idle)).trans (if_pos up))
  · intro s allowed idle down
    obtain ⟨ch, mem, credits⟩ := advertise_gives { s with ch := { s.ch with
      st := .restoring, busy := true, attached := 0
      ports := s.ch.ports.map fun e => (e.1, { e.2 with hsnp := 0, hrsp := 0 }) } }
    refine ⟨restoreDomain s, ?_, congrArg Ch.st ch, congrArg Ch.busy ch, congrArg Ch.attached ch, mem,
      credits⟩
    show Host.Outcome.next (if barOk s then domainWrite s 1 else s) = _
    rw [allowed]
    exact congrArg Host.Outcome.next ((if_neg (ne_true_of_eq_false idle)).trans (if_pos down))
  · intro s restoring ready
    exact ⟨_, congrArg Host.Outcome.next (if_pos ⟨restoring, ready⟩), rfl⟩
  · intro s restoring late
    exact ⟨_, congrArg Host.Outcome.next (if_pos ⟨restoring, late⟩), rfl, rfl, rfl, rfl⟩
  · intro core n hsnp s heard
    constructor
    · intro away
      exact if_pos (.inr away)
    · intro counts snoops answers idle
      obtain ⟨mem, out, port, -⟩ := attachedIfReady_keeps (s := credited s core n hsnp) (core := core)
      refine ⟨_, creditReturn_counts heard counts snoops answers idle, mem, out, ?_, ?_, fun many enough low => ?_⟩
      · rw [port, corePort_credited]
      · rw [port, corePort_credited]
      · rw [port] at many enough
        exact attachedIfReady_attaches many enough low

end

section
/-! PROOFS. The ingest window (R79 to R91, R230 to R232): window writes, sealed records, and apertures. -/

open Sys2Proof

namespace Sys2Proof.Machine

/-! ### A window write at an open aperture -/

section
variable {s : State} {fn : Fn} {stream : Option Nat} {off : BitVec 36} {data : List Byte} {bus : Bus} {n size : Nat}
  {p : BitVec 3} {a : Aperture}

/-- A window write that reaches an open aperture is taken there. -/
theorem windowWrite_reaches {poisoned : Bool} (reaches : WindowReaches s fn stream off.toNat n p) (some : data ≠ [])
    (fits : data.length ≤ mpsBytes s fn.port) :
    exec (.windowWrite fn stream off data poisoned bus) s =
      .next (apWrite s fn n (aperture s fn.port n) (off.toNat % 2 ^ 28) data poisoned bus) := by
  obtain ⟨built, works, calm, part, open_, ide, slot, en, owner, st, closing, final⟩ := reaches
  have works := works
  simp only [runsWork, Bool.and_eq_true, Bool.not_eq_true', decide_eq_true_eq] at works
  obtain ⟨⟨ready, runs⟩, powered⟩ := works
  have filled : data.isEmpty = false := by simpa using some
  show Host.Outcome.next (windowWrite s fn stream off.toNat data poisoned bus) = _
  unfold windowWrite
  simp [built, ready, runs, powered, filled, calm, Nat.not_lt.mpr fits, part, open_, ide, slot, en, owner, st, closing, final]

end

/-- The window write that an aperture's object takes at an offset. -/
def apTakes (fn : Fn) (n : Nat) (a : Aperture) (p : BitVec 3) (data : List Byte) (at_ : Nat) (bad measured : Bool) : WinWrite :=
  ⟨fn.port, fn.vf, n, a.ctx, p, BitVec.ofNat 32 (hIndex a.obj), at_, data, bad, measured, .waitTable, none, [], 0⟩

section
variable {s x : State} {fn : Fn} {data : List Byte} {bus : Bus} {n size w : Nat} {p : BitVec 3} {a : Aperture}

/-- The state in which a TLP is taken: a poisoned one has been reported. -/
def tlpAt (s : State) (fn : Fn) (a : Aperture) (poisoned : Bool) : State :=
  if poisoned then poisonTlp s fn.port a.ctx else s

/-- In plain mode a write goes in at its offset, or is dropped with BOUNDS. -/
theorem apWrite_plain {poisoned : Bool} (plain : a.mode = 0) (owner : ctxPart s a.ctx = some p)
    (sized : apSize bus a (tlpAt s fn a poisoned) = .ok size x) :
    apWrite s fn n a w data poisoned bus =
      if size < a.base.toNat * 64 + w + data.length then
        ingestNote (setApErr (dropOne (tlpAt s fn a poisoned) fn.port false) fn.port n aeBounds) fn.port a.ctx aeBounds
      else wwEnter (if poisoned then setApErr (tlpAt s fn a poisoned) fn.port n aePoisoned else tlpAt s fn a poisoned) bus
        (apTakes fn n a p data (a.base.toNat * 64 + w) poisoned false) := by
  unfold apWrite
  unfold tlpAt at sized ⊢
  simp only [sized, plain, owner, if_true]
  rfl

/-- In a stream a write anywhere but at the cursor fails the aperture. -/
theorem apWrite_out_of_order (stream : a.mode ≠ 0) (away : w ≠ a.cursor.toNat % 2 ^ 28) :
    apWrite s fn n a w data false bus = failAp s fn.port n aeOrder := by
  unfold apWrite
  exact (if_neg stream).trans (if_pos away)

/-- A poisoned write fails a stream. -/
theorem apWrite_poisons_stream (stream : a.mode ≠ 0) (next : w = a.cursor.toNat % 2 ^ 28) :
    apWrite s fn n a w data true bus = failAp (poisonTlp s fn.port a.ctx) fn.port n aePoisoned := by
  unfold apWrite
  exact (if_neg stream).trans (if_neg (not_not_intro next))

/-- A measured stream takes a write at the cursor, or fails with BOUNDS. -/
theorem apWrite_measured (measured : a.mode = 1) (next : w = a.cursor.toNat % 2 ^ 28) (owner : ctxPart s a.ctx = some p)
    (sized : apSize bus a s = .ok size x) :
    apWrite s fn n a w data false bus =
      if size < a.base.toNat * 64 + a.cursor.toNat + data.length then failAp s fn.port n aeBounds
      else wwEnter (updAp s fn.port n fun a =>
          { a with cursor := a.cursor + BitVec.ofNat 48 data.length, stream := a.stream ++ data }) bus
        (apTakes fn n a p data (a.base.toNat * 64 + a.cursor.toNat) false true) := by
  unfold apWrite
  simp only [Bool.false_eq_true, if_false, sized, measured, owner, next, ne_eq, not_true_eq_false]
  rfl

/-- A sealed stream buffers a write at the cursor. -/
theorem apWrite_sealed (sealed_ : a.mode = 2) (next : w = a.cursor.toNat % 2 ^ 28) :
    apWrite s fn n a w data false bus = sealedPiece s fn n a data := by
  unfold apWrite
  simp only [Bool.false_eq_true, if_false, sealed_, next, ne_eq, not_true_eq_false]
  rfl

theorem failAp_fails {port : Nat} {err : Byte} :
    (failAp s port n err).mem = s.mem ∧ (aperture (failAp s port n err) port n).st = .failed ∧
      (aperture (failAp s port n err) port n).err = err ∧ (aperture (failAp s port n err) port n).digestOk = false := by
  have fields : aperture (failAp s port n err) port n = { aperture s port n with
      st := .failed, err := err, stream := [], buf := [], digestOk := false, digest := 0, closing := false } :=
    aperture_updAp ..
  rw [fields]
  exact ⟨rfl, rfl, rfl, rfl⟩

theorem sealedPiece_buffers : (sealedPiece s fn n (aperture s fn.port n) data).mem = s.mem ∧
    (sealedPiece s fn n (aperture s fn.port n) data).gw = s.gw ∧
    (aperture (sealedPiece s fn n (aperture s fn.port n) data) fn.port n).buf = (aperture s fn.port n).buf ++ data ∧
    (aperture (sealedPiece s fn n (aperture s fn.port n) data) fn.port n).cursor =
      (aperture s fn.port n).cursor + BitVec.ofNat 48 data.length := by
  have fields : aperture (sealedPiece s fn n (aperture s fn.port n) data) fn.port n = { aperture s fn.port n with
      buf := (aperture s fn.port n).buf ++ data
      cursor := (aperture s fn.port n).cursor + BitVec.ofNat 48 data.length } := aperture_updAp ..
  rw [fields]
  exact ⟨rfl, rfl, rfl, rfl⟩

end

/-! ### Answers to window writes -/

theorem flrSettle_committed (s : State) (port : Nat) :
    (hostPort (flrSettle s port) port).committed = (hostPort s port).committed := by
  unfold flrSettle
  refine each_reads (g := fun s => (hostPort s port).committed) fun s f => ?_
  split
  · split
    · rfl
    · rw [hostPort_emit]
      exact (congrArg HostPort.committed (hostPort_updHost s port _)).trans rfl
  · rfl

/-- The last request of the only window write is answered: it commits. -/
theorem wwAnswer_commits {s : State} {id : Nat} {w : WinWrite} (only : s.wws = [(id, w)]) (issued : w.st = .issued 1 [])
    (clean : w.bad = none) (alone : w.ends = []) :
    wwAnswer s [] id .ok = flrSettle (updHost { s with wws := [] } w.port fun h =>
      { h with committed := h.committed + 1 }) w.port := by
  have found : wwOf s id = some w := by
    rw [wwOf, only]
    exact if_pos rfl
  have empty : Tab.erase s.wws id = [] := by rw [only]; simp [Tab.erase]
  have commits : commitWw s id = updHost { s with wws := [] } w.port fun h => { h with committed := h.committed + 1 } := by
    unfold commitWw
    simp only [found, dropWw, empty, WinWrite.tlps, alone, if_true, List.filter_nil]
    rfl
  unfold wwAnswer
  simp only [found, issued, clean, if_true, Nat.le_refl, true_and, commits]
  rfl

/-- An OK answer writes the request's bytes and frees its tag. -/
theorem answerWrite_ok {s : State} {port tag : Nat} {r : GwReq} {v : Via} (plain : r.poison = false) (whole : r.clean = none) :
    answerWrite s port tag r .ok v =
      let u := updGw s port fun g => { g with out := Tab.erase g.out tag }
      { u with mem := (linesOf r.lo r.data.length).foldl (fun m l =>
          m.writeLine (lineSlice r.lo r.data l).1 (lineSlice r.lo r.data l).2 false) s.mem } := by
  unfold answerWrite
  simp only [plain, whole, if_true]
  rfl

theorem answerWrite_frees {s : State} {port tag : Nat} {r : GwReq} {v : Via} (plain : r.poison = false)
    (whole : r.clean = none) : (gwPort (answerWrite s port tag r .ok v) port).out = Tab.erase (gwPort s port).out tag := by
  rw [answerWrite_ok plain whole]
  exact (congrArg GwPort.out (gwPort_updGw s port fun g => { g with out := Tab.erase g.out tag })).trans rfl

/-- The only request of a window write, its last, is answered OK. -/
theorem windowWriteCommit_commits {s : State} {ww tag : Nat} {w : WinWrite} {r : GwReq} (only : s.wws = [(ww, w)])
    (issued : w.st = .issued 1 []) (clean : w.bad = none) (alone : w.ends = [])
    (out : (gwPort s (gwBase s.build 5 + w.port)).out = [(tag, r)]) (owner : r.owner = .window ww) :
    let v := ingestVia s w.port w.part
    let u := answerWrite s v.port tag r .ok v
    exec (.windowWriteCommit ww .ok) s = .next (flrSettle (updHost { u with wws := [] } w.port fun h =>
      { h with committed := h.committed + 1 }) w.port) := by
  intro v u
  have found : wwOf s ww = some w := by
    rw [wwOf, only]
    exact if_pos rfl
  have mine : (gwPort s v.port).out.filter (fun e => decide (e.2.owner = .window ww)) = [(tag, r)] := by
    show (gwPort s (gwBase s.build 5 + w.port)).out.filter _ = _
    rw [out]
    simp [owner]
  have same : u.wws = [(ww, w)] := only
  refine Eq.trans ?_ (congrArg Host.Outcome.next (wwAnswer_commits same issued clean alone))
  show execWindowWriteCommit ww .ok s = _
  unfold execWindowWriteCommit
  simp only [found, issued]
  exact congrArg Host.Outcome.next (congrArg (each _ s) mine)

end Sys2Proof.Machine

open Sys2Proof.Machine

/-- Settles O30: a window write is taken at its aperture in the mode that stands there, and its last answer commits it. -/
theorem windowWritesEnterAndCommit : Obligations.WindowWritesEnterAndCommit := by
  unfold Obligations.WindowWritesEnterAndCommit
  refine ⟨?_, ?_, ?_, ?_⟩
  · intro fn stream off data bus n size p s s' reaches some fits sized a w
    have taken := fun poisoned => windowWrite_reaches (poisoned := poisoned) (bus := bus) reaches some fits
    refine ⟨fun mode room => ?_, fun mode beyond => ?_, fun k s'' mode sized' room => ?_, fun mode next => ?_,
      fun mode next beyond => ?_, fun mode next room => ?_, fun mode next => ?_, fun mode away => ?_⟩
    · exact (taken false).trans (congrArg Host.Outcome.next ((apWrite_plain (poisoned := false) mode reaches.owner sized).trans
        (if_neg (Nat.not_lt.mpr room))))
    · exact (taken false).trans (congrArg Host.Outcome.next ((apWrite_plain (poisoned := false) mode reaches.owner sized).trans (if_pos beyond)))
    · exact (taken true).trans (congrArg Host.Outcome.next ((apWrite_plain (poisoned := true) mode reaches.owner sized').trans
        (if_neg (Nat.not_lt.mpr room))))
    · exact (taken true).trans (congrArg Host.Outcome.next (apWrite_poisons_stream mode next))
    · exact (taken false).trans (congrArg Host.Outcome.next ((apWrite_measured mode next reaches.owner sized).trans
        (if_pos beyond)))
    · exact (taken false).trans (congrArg Host.Outcome.next ((apWrite_measured mode next reaches.owner sized).trans
        (if_neg (Nat.not_lt.mpr room))))
    · exact ⟨_, (taken false).trans (congrArg Host.Outcome.next (apWrite_sealed mode next)), sealedPiece_buffers⟩
    · exact ⟨_, (taken false).trans (congrArg Host.Outcome.next (apWrite_out_of_order mode away)), failAp_fails⟩
  · intro ww tag w r f s only issued clean alone out owner plain whole settled
    let v := ingestVia s w.port w.part
    let u := answerWrite s v.port tag r .ok v
    have answer : u = _ := answerWrite_ok plain whole
    obtain ⟨hosts, o, frame⟩ := flrSettle_frame (updHost { u with wws := [] } w.port fun h =>
      { h with committed := h.committed + 1 }) w.port
    have commits := windowWriteCommit_commits only issued clean alone out owner
    obtain ⟨inside, outside⟩ := writeLines_bytes (f := f) (congrArg State.mem answer) settled
    refine ⟨_, commits, ?_, ?_, ?_, ?_, ?_⟩
    · rw [frame]
      rfl
    · rw [flrSettle_committed, hostPort_updHost]
      rfl
    · rw [frame]
      show (gwPort u (gwBase s.build 5 + w.port)).out = []
      refine (answerWrite_frees plain whole).trans ((congrArg (fun l => Tab.erase l tag) out).trans ?_)
      simp [Tab.erase]
    · rw [frame]
      exact inside
    · rw [frame]
      exact outside
  · intro cow c bus s listed works waits issues reads writes
    show execCopyOnWriteDone cow bus s = _
    unfold execCopyOnWriteDone
    simp only [listed, works, waits, issues, reads, writes, Bool.not_true, Bool.false_eq_true, if_false, Option.isSome_none]
    cases cowLeaves bus c (cowCopy s bus c) with
    | ok done s' =>
      cases done with
      | ok ws => rfl
      | error kept => rfl
    | error stop s' =>
      cases stop with
      | wait => rfl
      | held k => rfl
      | ended st d => rfl
      | remote va pa => rfl
  · intro cow c ws bus s listed works waits
    show execCopyOnWriteDone cow bus s = _
    unfold execCopyOnWriteDone
    simp only [listed, works, waits, Bool.not_true, Bool.false_eq_true, if_false, Option.isSome_some, if_true, cowEnd,
      Option.getD_some]

namespace Sys2Proof.Machine

/-! ### Sealed records (R85 to R88, R499) -/

theorem updAp_congr {s : State} {port n : Nat} {f g : Aperture → Aperture} (same : f (aperture s port n) = g (aperture s port n)) :
    updAp s port n f = updAp s port n g := by
  unfold updAp updHost Tab.upd
  exact congrArg (fun a => setHost s port { hostPort s port with aps := Tab.set {} (hostPort s port).aps n a }) same

/-- A change of a host port that leaves its apertures. -/
theorem aperture_updHost {s : State} {port n : Nat} {f : HostPort → HostPort} (keeps : ∀ h, (f h).aps = h.aps) :
    aperture (updHost s port f) port n = aperture s port n := by
  unfold aperture
  rw [hostPort_updHost, keeps]

theorem aperture_dropMany (s : State) (port n k : Nat) : aperture (dropMany s port k) port n = aperture s port n :=
  aperture_updHost (f := fun h => { h with dropOther := h.dropOther + BitVec.ofNat 32 k }) fun _ => rfl

/-- An accepted record leaves its aperture counted on. -/
def recTaken (a : Aperture) (len : Nat) (plain : List Byte) (final : Bool) (b : Aperture) : Aperture :=
  { b with buf := a.buf.drop (len + 64), pos := a.pos + len + 64, seq := a.seq + 1, final := final
           stream := if a.meas then a.stream ++ plain else a.stream }

/-- The plaintext of the record at the front of a buffer. -/
def recPlain (x : Secret) (a : Aperture) (len : Nat) : List Byte :=
  padTo len (gcmPlain (ctxKey x labelIngest) (recNonce (a.buf.take 32)) ((a.buf.drop 32).take len))

/-- The chunks of a sealed aperture that end with the record that ends at a position. -/
def recEnded (s : State) (port ap pos : Nat) : List Nat :=
  (s.wws.filter fun e => decide (e.2.port = port ∧ e.2.ap = ap ∧ e.2.st = .buffered ∧ e.2.endPos ≤ pos)).map (·.1)

/-- Where an accepted record goes: a final one ends its stream's writes, another enters as a write. -/
def recGoes (s : State) (port ap : Nat) (a : Aperture) (len : Nat) (plain : List Byte) (bus : Bus) (u : State) : State :=
  if byteAt (a.buf.take 32) 0 = 2 then dropTail (commitTlps u port (recEnded s port ap (a.pos + len + 64))) port ap
  else wwEnter u bus ⟨port, a.owner.toNat, ap, a.ctx, (ctxPart s a.ctx).getD 0, BitVec.ofNat 32 (hIndex a.obj),
    a.base.toNat * 64 + leAt (a.buf.take 32) 24 8, plain, false, a.meas, .waitTable, none,
    recEnded s port ap (a.pos + len + 64), 0⟩

section
variable {s s' : State} {port ap size : Nat} {bus : Bus} {x : Secret}

/-- A whole record with a good header: its tag decides. -/
theorem sealedRecord_opens {a : Aperture} {len : Nat} (front : aperture s port ap = a) (body : leAt (a.buf.take 32) 4 4 = len)
    (en : a.en = true) (mode : a.mode = 2) (st : a.st = .opened) (header : 32 ≤ a.buf.length) (open_ : a.final = false)
    (works : runsWork s = true) (sized : apSize bus a s = .ok size s') (fine : recError a (a.buf.take 32) size = none)
    (whole : len + 64 ≤ a.buf.length) (pad : leAt a.buf (len + 48) 16 = 0) (secret : ctxSecretOf s a.ctx = some x) :
    exec (.sealedRecord port ap bus) s = .next (
      if recTagOk s a = false then ingestNote (failAp s port ap aeTag) port a.ctx aeTag
      else
        recGoes s port ap a len (recPlain x a len) bus
          (updAp s port ap (recTaken a len (recPlain x a len) (decide (byteAt (a.buf.take 32) 0 = 2))))) := by
  have taken := updAp_congr (s := s) (port := port) (n := ap)
    (f := fun a => { a with
      buf := a.buf.drop (len + 64), pos := (aperture s port ap).pos + len + 64, seq := a.seq + 1
      final := decide (byteAt ((aperture s port ap).buf.take 32) 0 = 2)
      stream := if a.meas then a.stream ++ recPlain x (aperture s port ap) len else a.stream })
    (g := recTaken (aperture s port ap) len (recPlain x (aperture s port ap) len)
      (decide (byteAt ((aperture s port ap).buf.take 32) 0 = 2))) rfl
  subst front
  show Host.Outcome.next (sealedRecord s port ap bus) = _
  refine congrArg Host.Outcome.next ?_
  unfold sealedRecord
  simp only [en, mode, st, header, open_, works, sized, fine, body, Nat.not_lt.mpr whole, pad, secret, and_self, decide_true,
    Bool.and_self, Bool.not_true, Bool.or_self, Bool.false_eq_true, if_false, ne_eq, not_true_eq_false, Bool.not_eq_true']
  split
  · rfl
  · exact congrArg (recGoes s port ap (aperture s port ap) len (recPlain x (aperture s port ap) len) bus) taken

end

/-- What follows a final record is dropped: no chunk of its aperture is left, and its buffer is empty. -/
theorem dropTail_empties {s : State} {port ap : Nat} :
    aperture (dropTail s port ap) port ap = { aperture s port ap with buf := [] } ∧ (dropTail s port ap).mem = s.mem ∧
      ∀ e ∈ (dropTail s port ap).wws, e ∈ s.wws ∧ ¬(e.2.port = port ∧ e.2.ap = ap ∧ e.2.st = .buffered) := by
  refine ⟨?_, rfl, fun e left => ?_⟩
  · exact (aperture_dropMany ..).trans ((aperture_updAp ..).trans rfl)
  · obtain ⟨listed, kept⟩ := List.mem_filter.mp left
    refine ⟨listed, fun chunk => ?_⟩
    rw [Bool.not_eq_true'] at kept
    exact ne_true_of_eq_false kept (List.contains_iff_mem.mpr (List.mem_map.mpr
      ⟨e, List.mem_filter.mpr ⟨listed, decide_eq_true chunk⟩, rfl⟩))

theorem commitTlps_keeps {s : State} {port ap : Nat} {ended : List Nat} :
    aperture (commitTlps s port ended) port ap = aperture s port ap ∧
      ∀ e ∈ (commitTlps s port ended).wws, e ∈ s.wws :=
  ⟨aperture_updHost (s := { s with wws := s.wws.filter fun e => !ended.contains e.1 }) fun _ => rfl,
    fun _ left => (List.mem_filter.mp left).1⟩

/-- A record joins the log while it has room. -/
theorem appendRec_logs {s : State} {r : MRec} (room : s.ps.log.length < 4096) :
    (appendRec s r).ps.log = s.ps.log ++ [r] := by
  unfold appendRec
  simp only [decide_eq_true room, if_true]
  rfl

theorem appendRec_keeps {s : State} {r : MRec} : (appendRec s r).mem = s.mem ∧
    ∀ port ap, aperture (appendRec s r) port ap = aperture s port ap := by
  unfold appendRec
  dsimp only
  split
  · exact ⟨rfl, fun port ap => rfl⟩
  · exact ⟨rfl, fun port ap => rfl⟩

end Sys2Proof.Machine

open Sys2Proof.Machine

/-- Settles O31: the tag of a whole record decides (`sealedRecord_opens`), and a final record closes its stream. -/
theorem sealedRecordsAreOpened : Obligations.SealedRecordsAreOpened := by
  unfold Obligations.SealedRecordsAreOpened
  refine ⟨?_, ?_⟩
  · intro port ap size bus x s s' a len en mode st header open_ works sized fine whole pad secret
    have opens := sealedRecord_opens (bus := bus) (a := a) rfl rfl en mode st header open_ works sized fine whole pad secret
    refine ⟨fun tag final => ?_, fun tag plain => ?_, fun tag => ?_⟩
    · let u := updAp s port ap (recTaken a len (recPlain x a len) (decide (byteAt (a.buf.take 32) 0 = 2)))
      obtain ⟨front, mem, chunks⟩ :=
        dropTail_empties (s := commitTlps u port (recEnded s port ap (a.pos + len + 64))) (port := port) (ap := ap)
      obtain ⟨same, listed⟩ := commitTlps_keeps (s := u) (port := port) (ap := ap)
        (ended := recEnded s port ap (a.pos + len + 64))
      rw [same, aperture_updAp] at front
      refine ⟨_, opens.trans (congrArg Host.Outcome.next ((if_neg (by rw [tag]; exact nofun)).trans (if_pos final))), ?_, ?_, ?_,
        mem, fun e left => ?_⟩
      · rw [front]
        exact decide_eq_true final
      · rw [front]
        rfl
      · rw [front]
      · obtain ⟨before, chunk⟩ := chunks e left
        exact ⟨listed e before, chunk⟩
    · have more : ¬ byteAt (a.buf.take 32) 0 = 2 := by rw [plain]; decide
      refine opens.trans (congrArg Host.Outcome.next ((if_neg (by rw [tag]; exact nofun)).trans ((if_neg more).trans ?_)))
      rw [decide_eq_false more]
      rfl
    · exact opens.trans (congrArg Host.Outcome.next (if_pos tag))
  · intro port ap s final mode st idle works
    let a := aperture s port ap
    let u := updAp s port ap fun a => { a with st := .closed, stream := [] }
    let r : MRec := ⟨(ctxPart s a.ctx).getD 0, a.obj, BitVec.ofNat 48 a.stream.length, a.ctx, 2, sha384 a.stream⟩
    have closes : exec (.sealedFinalClose port ap) s = if a.meas = true then .next (appendRec u r) else .next u := by
      show execSealedFinalClose port ap s = _
      unfold execSealedFinalClose
      simp only [final, mode, st, idle, works, and_self, decide_true, Bool.and_self, Bool.not_false, if_true]
      rfl
    have closed : (aperture u port ap).st = .closed := congrArg Aperture.st (aperture_updAp ..)
    cases measured : a.meas with
    | true =>
      obtain ⟨mem, aps⟩ := appendRec_keeps (s := u) (r := r)
      refine ⟨_, closes.trans (if_pos measured), ?_, mem, fun room => ?_⟩
      · rw [aps]
        exact closed
      · exact (appendRec_logs (s := u) room).trans (congrArg _ (if_pos rfl).symm)
    | false =>
      refine ⟨_, closes.trans (if_neg (ne_true_of_eq_false measured)), closed, rfl, fun room => ?_⟩
      refine (List.append_nil _).symm.trans (congrArg _ (if_neg Bool.false_ne_true).symm)

namespace Sys2Proof.Machine

/-! ### Apertures (R76 to R78, R84, R88) -/

section
variable {s s' : State} {port ap : Nat} {v : Word} {bus : Bus}

/-- An enable where no TDI is frozen: the checks of R76 decide. -/
theorem apertureEnable_checks (allowed : barOk s = true) (built : apExists s port ap = true)
    (off : (aperture s port ap).en = false) (sets : bit v 0 = true)
    (owner : tdiFrozen s port (aperture s port ap).owner.toNat = false) (next : tdiFrozen s port (bits v 15 8) = false) :
    let a := apFields (aperture s port ap) v
    exec (.apertureEnable port ap v bus) s = .next (
      match enableAct bus port ap a (updAp s port ap fun _ => a) with
      | .ok _ s' => acceptEnable s' port ap
      | .error .wait s' => waitBack (updAp s port ap fun _ => a) s'
      | .error (.ended e _) s' => refuseEnable s' port ap (if e = aeExhausted then aeExhausted else aeEnable)
      | .error _ s' => refuseEnable s' port ap aeEnable) := by
  have low : (apFields (aperture s port ap) v).owner.toNat = bits v 15 8 :=
    (BitVec.toNat_ofNat _ _).trans (Nat.mod_eq_of_lt (bits_lt v 15 8))
  intro a
  show execApertureEnable port ap v bus s = _
  unfold execApertureEnable
  simp only [allowed, built, off, sets, Bool.not_false, Bool.and_self, if_true]
  unfold apCfgWrite apCfgClosed
  simp only [off, Bool.false_eq_true, if_false, owner, low, next, sets, Bool.and_false, Bool.or_self, if_true] <;> rfl

theorem drawSession_mem {c : BitVec 12} : (drawSession s c).1.mem = s.mem := by
  unfold drawSession
  split
  · rfl
  · rfl

/-- An accepted aperture is open, with its stream cleared. -/
theorem acceptEnable_opens : (acceptEnable s port ap).mem = s.mem ∧
    (aperture (acceptEnable s port ap) port ap).en = true ∧ (aperture (acceptEnable s port ap) port ap).st = .opened ∧
    (aperture (acceptEnable s port ap) port ap).cursor = 0 ∧ (aperture (acceptEnable s port ap) port ap).seq = 0 ∧
    (aperture (acceptEnable s port ap) port ap).stream = [] := by
  unfold acceptEnable
  refine ⟨?_, congrArg Aperture.en (aperture_updAp ..), congrArg Aperture.st (aperture_updAp ..),
    congrArg Aperture.cursor (aperture_updAp ..), congrArg Aperture.seq (aperture_updAp ..),
    congrArg Aperture.stream (aperture_updAp ..)⟩
  show (if (aperture s port ap).mode = 2 then drawSession s (aperture s port ap).ctx else (s, _)).1.mem = s.mem
  split
  · exact drawSession_mem
  · rfl

/-- Clearing EN abandons an open stream. -/
theorem clearEn_clears : (clearEn s port ap).mem = s.mem ∧ (aperture (clearEn s port ap) port ap).en = false ∧
    ((aperture s port ap).mode ≠ 0 → (aperture s port ap).st = .opened →
      (aperture (clearEn s port ap) port ap).st = .failed ∧ (aperture (clearEn s port ap) port ap).err = aeAbandoned) := by
  unfold clearEn
  dsimp only
  refine ⟨?_, congrArg Aperture.en (aperture_updAp ..), fun stream open_ => ?_⟩
  · split
    · rfl
    · rfl
  · have abandons : ((aperture s port ap).stream? && decide ((aperture s port ap).st = .opened)) = true := by
      rw [Aperture.stream?, decide_eq_true stream, decide_eq_true open_]
      rfl
    obtain ⟨-, st, err, -⟩ := failAp_fails (s := s) (port := port) (n := ap) (err := aeAbandoned)
    rw [if_pos abandons, aperture_updAp]
    exact ⟨if_pos st, err⟩

/-- A write of HP_AP_CFG that finds an enabled aperture of no frozen TDI. -/
theorem apCfgWrite_open (on : (aperture s port ap).en = true)
    (owner : tdiFrozen s port (aperture s port ap).owner.toNat = false) :
    apCfgWrite s port ap v bus =
      if bit v 5 && decide ((aperture s port ap).mode = 1 ∧ (aperture s port ap).st = .opened) then
        updAp s port ap fun a => { a with closing := true, clearEn := a.clearEn || !bit v 0 }
      else
        let u := if bit v 5 && decide ((aperture s port ap).mode = 2) then failAp s port ap aeAbandoned else s
        if bit v 0 then u
        else if (aperture s port ap).closing then updAp u port ap fun a => { a with clearEn := true }
        else clearEn u port ap := by
  unfold apCfgWrite apCfgOpen
  exact (if_pos on).trans (if_neg (ne_true_of_eq_false owner))

/-- CLOSE reaches an enabled aperture. -/
theorem close_writes (allowed : barOk s = true) (built : apExists s port ap = true) (on : (aperture s port ap).en = true)
    (closes : bit v 5 = true) : exec (.close port ap v) s = .next (apCfgWrite s port ap v []) := by
  refine congrArg Host.Outcome.next (if_pos ?_)
  rw [allowed, built, on, closes]
  rfl

/-- The fields of an aperture whose measured stream has closed. -/
def measuredClosed (a : Aperture) : Aperture :=
  { a with st := if a.clearEn then .idle else .closed, en := !a.clearEn, closing := false, clearEn := false
           digestOk := true, digest := sha384 a.stream, stream := [] }

/-- The record of a measured stream. -/
def measuredRec (s : State) (a : Aperture) : MRec :=
  ⟨(ctxPart s a.ctx).getD 0, a.obj, a.cursor, a.ctx, 1, sha384 a.stream⟩

theorem measuredCloseDone_closes (closing : (aperture s port ap).closing = true) (st : (aperture s port ap).st = .opened)
    (idle : apBusy s port ap = false) (works : runsWork s = true) :
    exec (.measuredCloseDone port ap) s =
      .next (appendRec (updAp s port ap measuredClosed) (measuredRec s (aperture s port ap))) := by
  have same := updAp_congr (s := s) (port := port) (n := ap) (f := fun a => { a with
    st := if a.clearEn then .idle else .closed, en := !a.clearEn, closing := false, clearEn := false
    digestOk := true, digest := sha384 (aperture s port ap).stream, stream := [] }) (g := measuredClosed) rfl
  show execMeasuredCloseDone port ap s = _
  unfold execMeasuredCloseDone
  simp only [closing, st, idle, works, decide_true, Bool.and_self, Bool.not_false, if_true]
  exact congrArg (fun u => Host.Outcome.next (appendRec u (measuredRec s (aperture s port ap)))) same

end

end Sys2Proof.Machine

open Sys2Proof.Machine

/-- Settles O32: a write of HP_AP_CFG by what it finds, and the end of a measured stream. -/
theorem aperturesOpenAndClose : Obligations.AperturesOpenAndClose := by
  unfold Obligations.AperturesOpenAndClose
  refine ⟨?_, ?_, ?_, ?_, ?_, ?_⟩
  · intro port ap v bus s s' allowed built off sets owner next passes
    obtain ⟨mem, en, st, cursor, seq, stream⟩ := acceptEnable_opens (s := s') (port := port) (ap := ap)
    refine ⟨_, (apertureEnable_checks allowed built off sets owner next).trans ?_, en, st, cursor, seq, stream, mem⟩
    rw [passes]
  · intro port ap v bus d s s' allowed built off sets owner next refused
    refine ⟨refuseEnable s' port ap aeEnable, (apertureEnable_checks allowed built off sets owner next).trans ?_,
      congrArg Aperture.en (aperture_updAp ..), congrArg Aperture.err (aperture_updAp ..)⟩
    rw [refused]
    rfl
  · intro port ap v s allowed built on open_ clears stays owner
    obtain ⟨mem, en, abandoned⟩ := clearEn_clears (s := s) (port := port) (ap := ap)
    refine ⟨clearEn s port ap, ?_, en, abandoned, mem⟩
    refine (congrArg Host.Outcome.next (if_pos ?_)).trans (congrArg Host.Outcome.next ?_)
    · rw [allowed, built, on, clears]
      rfl
    · rw [apCfgWrite_open on owner, stays, clears, open_]
      rfl
  · intro port ap v s allowed built on measured st closes stays owner
    refine (close_writes allowed built on closes).trans (congrArg Host.Outcome.next ((apCfgWrite_open on owner).trans ?_))
    rw [closes, stays, measured, st]
    exact (if_pos rfl).trans (updAp_congr (by rw [Bool.not_true, Bool.or_false]))
  · intro port ap v s allowed built on mode closes stays owner
    refine (close_writes allowed built on closes).trans (congrArg Host.Outcome.next ((apCfgWrite_open on owner).trans ?_))
    rw [closes, stays, mode]
    rfl
  · intro port ap s closing st idle works
    obtain ⟨-, aps⟩ := appendRec_keeps (s := updAp s port ap measuredClosed) (r := measuredRec s (aperture s port ap))
    have fields := (aps port ap).trans (aperture_updAp s port ap measuredClosed)
    refine ⟨_, measuredCloseDone_closes closing st idle works, ?_, ?_, ?_, ?_, ?_, fun room => ?_⟩
    · rw [fields]; rfl
    · rw [fields]; rfl
    · rw [fields]; rfl
    · rw [fields]; rfl
    · rw [fields]; rfl
    · exact appendRec_logs (s := updAp s port ap measuredClosed) room

end

section
/-! PROOFS. Doorbells, ring reads and context loads (R14, R90, R117, R121 to R126). -/

open Sys2Proof

namespace Sys2Proof.Machine

/-! ### Doorbells -/

section
variable {s : State} {c : BitVec 12} {q : Nat}

/-- A change of a context that leaves its queues. -/
theorem queueOf_updCtx {f : Ctx → Ctx} (keeps : ∀ x, (f x).qs = x.qs) : queueOf (updCtx s c f) c q = queueOf s c q := by
  unfold queueOf
  rw [ctxOf_updCtx, keeps]

/-- A queue whose ring is read next, or whose context loads next, is otherwise as it was. -/
structure QueueStays (s t : State) (c : BitVec 12) (q : Nat) : Prop where
  tail   : (queueOf t c q).tail = (queueOf s c q).tail
  parked : (queueOf t c q).parked = (queueOf s c q).parked
  mem    : t.mem = s.mem
  out    : t.out = s.out

theorem kick_stays : QueueStays s (kick s c q) c q := by
  unfold kick
  dsimp only
  split
  · exact ⟨by rw [queueOf_updQueue], by rw [queueOf_updQueue], rfl, rfl⟩
  · exact ⟨rfl, rfl, rfl, rfl⟩

theorem startLoad_stays : QueueStays s (startLoad s c) c q := by
  have same := queueOf_updCtx (s := s) (c := c) (q := q) (f := fun x => { x with loading := true }) fun _ => rfl
  unfold startLoad
  dsimp only
  split
  · exact ⟨by rw [same], by rw [same], rfl, rfl⟩
  · exact ⟨rfl, rfl, rfl, rfl⟩

/-- A TAIL inside the ring that differs from HEAD is set, and the queue is read or its context loads. -/
theorem dbAct_sets_tail {bus : Bus} {v : BitVec 32} (inside : v.toNat % 65536 < 2 ^ (queueOf s c q).desc.ringLog2.toNat)
    (moves : (queueOf s c q).head.toNat ≠ v.toNat % 65536) :
    let t := dbAct s bus c q .tail v
    (queueOf t c q).tail.toNat = v.toNat % 65536 ∧ (queueOf t c q).parked = false ∧ t.mem = s.mem ∧ t.out = s.out := by
  let u := updQueue s c q fun y => { y with tail := BitVec.ofNat 16 (v.toNat % 65536), parked := false, dbPend := true }
  have acts : dbAct s bus c q .tail v =
      if (ctxOf u c).slot.isNone then (if draining u then u else startLoad u c) else kick u c q :=
    (if_neg (Nat.not_le.mpr inside)).trans (if_neg moves)
  have field : queueOf u c q = { queueOf s c q with
      tail := BitVec.ofNat 16 (v.toNat % 65536), parked := false, dbPend := true } := queueOf_updQueue ..
  have stays : QueueStays u (dbAct s bus c q .tail v) c q := by
    rw [acts]
    split
    · split
      · exact ⟨rfl, rfl, rfl, rfl⟩
      · exact startLoad_stays
    · exact kick_stays
  intro t
  refine ⟨?_, ?_, stays.mem, stays.out⟩
  · rw [stays.tail, field]
    show (BitVec.ofNat 16 (v.toNat % 65536)).toNat = _
    rw [BitVec.toNat_ofNat]
    exact Nat.mod_mod _ _
  · rw [stays.parked, field]

variable {fn : Fn} {stream : Option Nat} {page : Nat} {v : BitVec 32} {p : BitVec 3} {f : DbField}

/-- A doorbell that reaches its queue waits behind its port's window writes, or arrives. -/
theorem hostDoorbell_reaches (reaches : DoorbellReaches s fn stream page c q p) :
    hostDoorbell s fn stream page f v =
      if portBusy s fn.port s.nextId || !(hostPort s fn.port).fenced.isEmpty then
        updHost s fn.port fun h => { h with fenced := h.fenced ++ [⟨c, q, f, v, s.nextId⟩] }
      else dbArrive s [] fn.port c q f v := by
  obtain ⟨built, works, part, open_, ide, target, owner, takes⟩ := reaches
  simp only [runsWork, Bool.and_eq_true, Bool.not_eq_true', decide_eq_true_eq] at works
  obtain ⟨⟨ready, runs⟩, powered⟩ := works
  unfold hostDoorbell
  simp [built, ready, runs, powered, part, open_, ide, target, owner]

theorem hostDoorbell_passes (reaches : DoorbellReaches s fn stream page c q p) (free : portBusy s fn.port s.nextId = false)
    (first : (hostPort s fn.port).fenced = []) : hostDoorbell s fn stream page f v = dbDeliver s [] c q f v := by
  rw [hostDoorbell_reaches reaches, free, first]
  exact if_pos reaches.takes

theorem hostDoorbell_waits (reaches : DoorbellReaches s fn stream page c q p)
    (behind : portBusy s fn.port s.nextId = true ∨ (hostPort s fn.port).fenced ≠ []) :
    hostDoorbell s fn stream page f v =
      updHost s fn.port fun h => { h with fenced := h.fenced ++ [⟨c, q, f, v, s.nextId⟩] } := by
  rw [hostDoorbell_reaches reaches]
  refine if_pos ?_
  rcases behind with busy | queue
  · rw [busy]
    rfl
  · rw [Bool.or_eq_true_iff]
    exact .inr (by simpa using queue)

/-- The first of the waiting doorbells. -/
theorem doorbellFenceClear_first {port : Nat} {d : FencedDb} {l : List FencedDb} {bus : Bus}
    (waits : (hostPort s port).fenced = d :: l) :
    exec (.doorbellFenceClear port bus) s = .next (if portBusy s port d.before then s
      else fencePass bus port l.length
        (dbArrive (updHost s port fun h => { h with fenced := h.fenced.tail }) bus port d.ctx d.q d.fld d.value)) := by
  show Host.Outcome.next (fencePass bus port (hostPort s port).fenced.length s) = _
  rw [waits, List.length_cons, fencePass]
  simp only [waits]

theorem updHost_congr {port : Nat} {f g : HostPort → HostPort} (same : f (hostPort s port) = g (hostPort s port)) :
    updHost s port f = updHost s port g := congrArg (setHost s port) same

/-! ### Ring reads (R122, R124) -/

theorem consumeLoop_step {bus : Bus} {fuel : Nat} (left : (queueOf s c q).head ≠ (queueOf s c q).tail) :
    consumeLoop bus c q (fuel + 1) s = match readCommand bus c q s with
      | .ok none s' => backOff s' c q
      | .ok (some r) s' => consumeLoop bus c q fuel (consume s' c q r)
      | .error (.held k) s' => updQueue s' c q fun y => { y with reading := false, held := some k }
      | .error .wait s' => waitBack s s'
      | .error _ s' => updQueue s' c q fun y => { y with reading := false, parked := true, backoff := none } :=
  if_neg left

theorem consumeLoop_ends {bus : Bus} {fuel : Nat} (ends : (queueOf s c q).head = (queueOf s c q).tail) :
    consumeLoop bus c q (fuel + 1) s = updQueue s c q fun y => { y with reading := false, backoff := none } :=
  if_pos ends

/-- An answered ring read whose near cores are there takes commands. -/
theorem ringReadResponse_consumes {bus : Bus} (reading : (queueOf s c q).reading = true) (works : runsWork s = true)
    (there : coresAway s (queueOf s c q) = false) :
    exec (.ringReadResponse c q bus) s = .next (consumeLoop bus c q 65536 s) := by
  refine (if_pos (Bool.and_eq_true_iff.mpr ⟨reading, works⟩)).trans (congrArg Host.Outcome.next ?_)
  exact if_neg (ne_true_of_eq_false there)

theorem ctxPart_stays {f : QState → QState} {g : Ctx → Ctx} (keeps : ∀ x, (g x).part = x.part) :
    (ctxOf (updCtx (updQueue s c q f) c g) c).part = (ctxOf s c).part := by
  rw [ctxOf_updCtx, keeps]
  exact (congrArg Ctx.part (ctxOf_updCtx s c _)).trans rfl

/-! ### Context loads (R117, R118) -/

theorem contextLoadDone_loads {bus : Bus} (loading : (ctxOf s c).loading = true) (works : runsWork s = true)
    (live : (ctxOf s c).st = .enabled ∨ (ctxOf s c).st = .faulted) :
    exec (.contextLoadDone c bus) s = match loadSlot s (ctxOf s c).part with
      | none => .next s
      | some (k, victim) =>
        let rdy := homeReady s (ctxAddr s c) 512 false none bus
        if !rdy.2 then .next rdy.1 else .next (loadEntry (freeSlot rdy.1 bus victim) bus c k) := by
  have idle : (!(ctxOf s c).loading || !runsWork s) = false := by
    rw [loading, works]
    rfl
  have stays : ¬ ((ctxOf s c).st ≠ .enabled ∧ (ctxOf s c).st ≠ .faulted) := fun h => live.elim h.1 h.2
  exact (if_neg (ne_true_of_eq_false idle)).trans (if_neg stays)

end

end Sys2Proof.Machine

open Sys2Proof.Machine

/-- Settles O34: a doorbell waits behind its port's window writes, is recorded, or acts on its field. -/
theorem doorbellsSetTheirField : Obligations.DoorbellsSetTheirField := by
  unfold Obligations.DoorbellsSetTheirField
  refine ⟨?_, ?_, ?_, ?_, ?_⟩
  · intro fn stream page v c q p s reaches free first there
    have acts : ∀ f : DbField, hostDoorbell s fn stream page f v = dbAct s [] c q f v := fun f =>
      (hostDoorbell_passes reaches free first).trans (if_neg (ne_true_of_eq_false there))
    refine ⟨fun inside moves => ⟨_, congrArg Host.Outcome.next (acts .tail), dbAct_sets_tail inside moves⟩,
      fun inside stays => ?_, fun outside => ?_, ?_, fun page0 => ?_, fun other => ?_⟩
    · exact congrArg Host.Outcome.next ((acts .tail).trans ((if_neg (Nat.not_le.mpr inside)).trans (if_pos stays)))
    · exact congrArg Host.Outcome.next ((acts .tail).trans (if_pos outside))
    · exact congrArg Host.Outcome.next (acts .cqHead)
    · exact congrArg Host.Outcome.next ((acts .sretHead).trans (if_pos page0))
    · exact congrArg Host.Outcome.next ((acts .sretHead).trans (if_neg other))
  · intro fn stream page v c q p s reaches free first away late
    have records : ∀ f : DbField, hostDoorbell s fn stream page f v = late f := fun f =>
      (hostDoorbell_passes reaches free first).trans (if_pos away)
    exact ⟨congrArg Host.Outcome.next (records .tail), congrArg Host.Outcome.next (records .cqHead),
      congrArg Host.Outcome.next (records .sretHead)⟩
  · intro fn stream page v c q p s reaches behind fence
    have waits : ∀ f : DbField, hostDoorbell s fn stream page f v = fence f := fun f => hostDoorbell_waits reaches behind
    exact ⟨congrArg Host.Outcome.next (waits .tail), congrArg Host.Outcome.next (waits .cqHead),
      congrArg Host.Outcome.next (waits .sretHead)⟩
  · intro port d l bus s waits free
    refine (doorbellFenceClear_first waits).trans (congrArg Host.Outcome.next ((if_neg (ne_true_of_eq_false free)).trans ?_))
    refine congrArg (fun u => fencePass bus port l.length (dbArrive u bus port d.ctx d.q d.fld d.value)) (updHost_congr ?_)
    rw [waits, List.tail_cons]
  · intro port d l bus s waits busy
    exact (doorbellFenceClear_first waits).trans (congrArg Host.Outcome.next (if_pos busy))

/-- Settles O35: a load by its slot, and a ring read by what reading the next command gives. -/
theorem ringReadsAndLoads : Obligations.RingReadsAndLoads := by
  unfold Obligations.RingReadsAndLoads
  refine ⟨?_, ?_, ?_, ?_, ?_, ?_, ?_, ?_, ?_, ?_⟩
  · intro c k bus victim s s' loading works live slot ready
    rw [contextLoadDone_loads loading works live, slot, ready]
    rfl
  · intro c bus s loading works live slot
    rw [contextLoadDone_loads loading works live, slot]
  · intro c k bus s read d
    exact ⟨if_neg (not_not_intro read), rfl, rfl⟩
  · intro c q bus s s' reading works there left unseen
    refine (ringReadResponse_consumes reading works there).trans (congrArg Host.Outcome.next ?_)
    refine (consumeLoop_step (fuel := 65535) left).trans ?_
    rw [unseen]
  · intro c q bus r s s' reading works there left read last
    have port : queueOf (consume s' c q r) c q = _ := queueOf_updQueue ..
    have ends : (queueOf (consume s' c q r) c q).head = (queueOf (consume s' c q r) c q).tail := by
      rw [port]
      exact last.symm
    have loop : consumeLoop bus c q 65536 s =
        updQueue (consume s' c q r) c q fun y => { y with reading := false, backoff := none } := by
      refine (consumeLoop_step (fuel := 65535) left).trans ?_
      rw [read]
      exact consumeLoop_ends (fuel := 65534) ends
    refine ⟨_, (ringReadResponse_consumes reading works there).trans (congrArg Host.Outcome.next loop), ?_, ?_, ?_, rfl⟩
    · rw [queueOf_updQueue, port]
    · rw [queueOf_updQueue, port]
    · rw [queueOf_updQueue]
  · intro c q k bus s s' reading works there left held
    refine (ringReadResponse_consumes reading works there).trans (congrArg Host.Outcome.next ?_)
    refine (consumeLoop_step (fuel := 65535) left).trans ?_
    rw [held]
  · intro c q bus s reading works away
    refine (if_pos (Bool.and_eq_true_iff.mpr ⟨reading, works⟩)).trans (congrArg Host.Outcome.next ?_)
    exact if_pos away
  · intro c q s
    rw [backOff, queueOf_updQueue]
    cases (queueOf s c q).backoff with
    | none => rfl
    | some b => rfl
  · intro c q d due s backoff unparked works there
    have rereads : exec (.dbBackoffReread c q) s = .next (updQueue (reach s due) c q fun y => { y with reading := true }) := by
      show execDbBackoffReread c q s = _
      unfold execDbBackoffReread
      simp only [backoff, unparked, works, there, Bool.not_true, Bool.or_self, Bool.false_eq_true, if_false]
    exact ⟨_, rereads, reach_waits, congrArg QState.reading (queueOf_updQueue ..), rfl⟩
  · intro c q s backoff unparked works
    refine ⟨if_pos ?_, ?_⟩
    · rw [backoff, unparked, works]
      rfl
    · have part := ctxPart_stays (s := s) (c := c) (q := q) (f := fun y => { y with
        parked := true, reading := false, backoff := none }) (g := fun x => { x with dbParks := x.dbParks + 1 }) fun _ => rfl
      exact congrArg (fun x => note _ { source := srcId 3 0 1, ctx := some c, part := some x }) part

end

section
/-! PROOFS. Dispatch and the queue engine's own commands (R127, R134 to R136, R148, R149). -/

open Sys2Proof

namespace Sys2Proof.Machine

/-! ### Commands that stop -/

/-- A dispatched command whose meaning stops, but not for a near core. -/
theorem runCmd_stops {s s' : State} {id op : Nat} {c : Cmd} {m : Cmd → Act Unit} {e : Stop} (at_ : Dispatched s id op c)
    (stops : m c s = .error e s') (goes : e ≠ .wait) : runCmd s id op m = stopCmd id s' e := by
  unfold runCmd
  rw [at_.cmd]
  dsimp only
  rw [if_pos ⟨at_.works, at_.phase, at_.opcode⟩]
  unfold runAct
  rw [stops]
  cases e with
  | wait => exact absurd rfl goes
  | held k => rfl
  | ended st d => rfl
  | remote va pa => rfl

section
variable {s s' : State} {id n : Nat} {c : Cmd} {bus : Bus}

/-- All the bytes of a WRITE_PIPS are written. -/
theorem writePipsAct_all (written : vaWrite s bus (cmdReq id c .engine (c.raw.w 1 + BitVec.ofNat 64 c.progress) .write)
    ((c.raw.pips.take (bits (c.raw.w 2) 15 0)).drop c.progress) true (engineVia c.part) = (s', n, none)) :
    writePipsAct bus id c s = .ok () (endCmd (setProgress s' id (c.progress + n)) id stOk 0) := by
  unfold writePipsAct
  dsimp only
  rw [written]
  rfl

/-- A WRITE_PIPS that stops keeps its progress. -/
theorem writePipsAct_stops {k : Stop} (written : vaWrite s bus
    (cmdReq id c .engine (c.raw.w 1 + BitVec.ofNat 64 c.progress) .write)
    ((c.raw.pips.take (bits (c.raw.w 2) 15 0)).drop c.progress) true (engineVia c.part) = (s', n, some k)) :
    writePipsAct bus id c s = .error k (setProgress s' id (c.progress + n)) := by
  unfold writePipsAct
  dsimp only
  rw [written]

end

/-- A command that ends OK faults nothing. -/
theorem endCmd_ok_keeps (s : State) (id : Nat) : (endCmd s id stOk 0).mv = s.mv := by
  unfold endCmd
  split
  · rfl
  · dsimp only
    split
    · rfl
    · rw [if_neg (by simp [faults, harmless, stOk])]
      rfl

theorem startLoad_mv (s : State) (c : BitVec 12) : (startLoad s c).mv = s.mv := by
  unfold startLoad
  dsimp only
  split
  · rfl
  · rfl

/-! ### Dispatch -/

theorem traceAdd_qe (s : State) (k : Nat) (c : BitVec 12) (b : List Byte) :
    (traceAdd s k c b).qe = s.qe ∧ (traceAdd s k c b).build = s.build := by
  unfold traceAdd
  dsimp only
  split
  · exact ⟨rfl, rfl⟩
  · exact ⟨rfl, rfl⟩

/-- The command that dispatch takes from the front of a queue. -/
def taken (s : State) (c : BitVec 12) (q : Nat) (r : RawCmd) : Cmd :=
  { ctx := c, q := q, part := (ctxOf s c).part, raw := r, phase := .dispatched, status := stOk, progress := 0, detail := 0
    faultAddr := 0, faultSrc := srcId 3 0 0, pins := [], vpin := none, dir := none, ports := [], work := .none }

/-- The queue of a command that has been taken. -/
def takenFrom (r : RawCmd) (y : QState) : QState :=
  { y with ready := y.ready.tail, deficit := if y.ready.tail = [] then 0 else y.deficit - (1 + r.conts.length) }

/-- The state once dispatch has taken a command from the front of a queue, before its checks. -/
def taking (s : State) (c : BitVec 12) (q : Nat) (r : RawCmd) : State :=
  let u := updQueue (fresh s).1 c q (takenFrom r)
  let u := { u with qe := { u.qe with stamp := u.qe.stamp + 1 } }
  let u := updCtx u c fun x => { x with commands := x.commands + 1, used := u.qe.stamp }
  traceAdd { u with qe := { u.qe with cmds := Tab.insert u.qe.cmds s.nextId (taken s c q r) } } 0 c (r.ent.take 16)

section
variable {s : State} {bus : Bus} {c : BitVec 12} {q : Nat} {r : RawCmd}

theorem dispatchFrom_takes : dispatchFrom s bus c q r =
    match dispatchAct bus s.nextId (taken s c q r) (taking s c q r) with
    | .ok _ s' => s'
    | .error e s' => stopCmd s.nextId s' e := rfl

/-- A command that is taken stands under its new number, and its queue and context have moved on. -/
theorem taking_takes : cmdOf (taking s c q r) s.nextId = some (taken s c q r) ∧ (taking s c q r).build = s.build ∧
    (queueOf (taking s c q r) c q).ready = (queueOf s c q).ready.tail ∧
    (ctxOf (taking s c q r) c).commands = (ctxOf s c).commands + 1 := by
  let u := updQueue (fresh s).1 c q (takenFrom r)
  let w := { u with qe := { u.qe with stamp := u.qe.stamp + 1 } }
  let x := updCtx w c fun x => { x with commands := x.commands + 1, used := w.qe.stamp }
  obtain ⟨qe, build⟩ := traceAdd_qe { x with qe := { x.qe with
    cmds := Tab.insert x.qe.cmds s.nextId (taken s c q r) } } 0 c (r.ent.take 16)
  have ctxs : (taking s c q r).qe.ctxs = x.qe.ctxs := (congrArg Qe.ctxs qe).trans rfl
  have cmds : (taking s c q r).qe.cmds = Tab.insert x.qe.cmds s.nextId (taken s c q r) := (congrArg Qe.cmds qe).trans rfl
  have ctx : ctxOf (taking s c q r) c = ctxOf x c := by
    unfold ctxOf
    rw [ctxs]
  refine ⟨?_, build, ?_, ?_⟩
  · rw [cmdOf, cmds]
    exact Tab.find_insert_same
  · unfold queueOf
    rw [ctx]
    have same := queueOf_updCtx (s := w) (c := c) (q := q)
      (f := fun x => { x with commands := x.commands + 1, used := w.qe.stamp }) fun _ => rfl
    refine (congrArg QState.ready same).trans ((congrArg QState.ready (queueOf_updQueue (fresh s).1 c q (takenFrom r))).trans ?_)
    rfl
  · rw [ctx]
    refine (congrArg Ctx.commands (ctxOf_updCtx w c _)).trans ?_
    have before : ctxOf w c = _ :=
      ctxOf_updCtx (fresh s).1 c fun x => { x with qs := Tab.upd {} x.qs q (takenFrom r) }
    rw [before]
    rfl

/-- A command that its entries alone fail. -/
theorem dispatchAct_entry_fails {id : Nat} {cmd : Cmd} {st : Byte} (fails : entryFails s.build cmd.raw = some st) :
    dispatchAct bus id cmd s = .error (.ended st 0) s := by
  unfold dispatchAct
  rw [act_bind_ok act_get, fails]
  rfl

/-- A NOP has no handles and no fields to check. -/
theorem dispatchAct_nop {id : Nat} {cmd : Cmd} (nop : cmd.raw.opcode = opNop) (fine : entryFails s.build cmd.raw = none) :
    dispatchAct bus id cmd s = .ok () s := by
  have handles : handlesOf cmd.raw.opcode = [] := by rw [nop]; rfl
  have other : ¬ cmd.raw.opcode = opBagPool := by rw [nop]; decide
  have fields : (!fieldsBad s cmd.raw 0) = true := by
    unfold fieldsBad
    rw [nop]
    rfl
  unfold dispatchAct
  rw [act_bind_ok act_get, fine, handles]
  refine (act_bind_ok rfl).trans ?_
  rw [if_neg other]
  exact act_need_holds fields

/-- The state in which dispatch looks whether a command waits for near cores. -/
theorem dispatchWaits_none {st : Byte} (fails : entryFails s.build r = some st) : dispatchWaits s bus c q r = none := by
  unfold dispatchWaits
  dsimp only
  rw [dispatchAct_entry_fails fails]

theorem dispatchWaits_nop (nop : r.opcode = opNop) (fine : entryFails s.build r = none) : dispatchWaits s bus c q r = none := by
  unfold dispatchWaits
  dsimp only
  rw [dispatchAct_nop nop fine]

/-- The queue of class 0 that its turn names gives the next command. -/
theorem dispatch_takes {e : Nat × Nat} {s' : State} (works : runsWork s = true) (calm : draining s = false)
    (turn : pickQueue s 0 = (s', some e)) (next : nextOf s' (qidCtx e.1) (e.1 % 8) = some r) :
    exec (.dispatch bus) s = .next (match dispatchWaits s' bus (qidCtx e.1) (e.1 % 8) r with
      | some w => w
      | none => dispatchFrom s' bus (qidCtx e.1) (e.1 % 8) r) := by
  have goes : (runsWork s && !draining s) = true := by
    rw [works, calm]
    rfl
  refine congrArg Host.Outcome.next ((if_pos goes).trans ?_)
  unfold dispatchClass
  rw [turn]
  dsimp only
  rw [next] <;> rfl

/-- With no eligible queue in any class nothing is dispatched. -/
theorem dispatchClass_nothing : ∀ classes : List Nat, (∀ cls ∈ classes, (pickQueue s cls).2 = none) →
    dispatchClass bus classes s = s
  | [], _ => rfl
  | cls :: t, idle => by
    have here := idle cls List.mem_cons_self
    unfold dispatchClass
    split
    · rename_i e turn
      rw [turn] at here
      cases here
    · exact dispatchClass_nothing t fun k listed => idle k (List.mem_cons_of_mem _ listed)

/-! ### Pending waits (R148, R149) -/

/-- A pending WAIT is looked at. -/
theorem waitEval_looks {id l a v : Nat} {target : Word} {lim : Option Nat} {cmd : Cmd} {s' : State}
    (found : cmdOf s id = some cmd) (running : cmd.phase = .running) (work : cmd.work = .waiting l a target lim)
    (value : eventValue bus cmd.part id a s = .ok v s') :
    waitEval s bus id = if target.toNat ≤ v then startLoad (endCmd s' id stOk 0) cmd.ctx else s' := by
  unfold waitEval
  simp only [found, running, work]
  exact runAct_ok value

end

end Sys2Proof.Machine

open Sys2Proof.Machine

/-- Settles O36: dispatch takes the command that its turn names (`dispatchFrom_takes`), and each of the queue engine's own
commands ends once what it does has happened. -/
theorem dispatchAndEngineCommands : Obligations.DispatchAndEngineCommands := by
  unfold Obligations.DispatchAndEngineCommands
  refine ⟨⟨?_, ?_⟩, ?_, ?_, ?_, ?_, ?_, ?_, ?_, ?_⟩
  · intro bus e r s s' works calm turn next
    have takes := dispatch_takes (bus := bus) works calm turn next
    obtain ⟨stands, build, ready, commands⟩ := taking_takes (s := s') (c := qidCtx e.1) (q := e.1 % 8) (r := r)
    refine ⟨fun nop fine => ?_, fun st fails => ?_, fun w waits => ?_, fun goes => ?_⟩
    · rw [dispatchWaits_nop nop fine] at takes
      have passes : dispatchFrom s' bus (qidCtx e.1) (e.1 % 8) r = taking s' (qidCtx e.1) (e.1 % 8) r := by
        rw [dispatchFrom_takes, dispatchAct_nop nop (build.symm ▸ fine)]
      exact ⟨_, _, takes.trans (congrArg Host.Outcome.next passes), stands, rfl, rfl, rfl, rfl, ready, commands⟩
    · rw [dispatchWaits_none fails] at takes
      have ends : dispatchFrom s' bus (qidCtx e.1) (e.1 % 8) r =
          endCmd (taking s' (qidCtx e.1) (e.1 % 8) r) s'.nextId st 0 := by
        rw [dispatchFrom_takes, dispatchAct_entry_fails (build.symm ▸ fails)]
        rfl
      exact ⟨_, _, takes.trans (congrArg Host.Outcome.next ends), stands, rfl, rfl⟩
    · rw [waits] at takes
      exact takes
    · rw [goes] at takes
      exact takes
  · intro bus s works idle
    refine congrArg Host.Outcome.next ?_
    have nothing := dispatchClass_nothing (s := s) (bus := bus) [0, 1, 2, 3] fun cls listed => idle cls (by
      simp only [List.mem_cons, List.not_mem_nil, or_false] at listed
      omega)
    split
    · exact nothing
    · rfl
  · intro id c s at_
    obtain ⟨x, found, finished, ok, mem, out, ctxs, fc⟩ :=
      endCmd_ok_finishes at_.cmd (by rw [at_.phase]; exact nofun)
    exact ⟨_, x, congrArg Host.Outcome.next (runCmd_ok at_ rfl), found, finished, ok, mem, out, ctxs, fc⟩
  · intro id n c bus e s s' at_ written
    refine ⟨fun all => ?_, fun k stops goes => ?_⟩
    · rw [all] at written
      exact congrArg Host.Outcome.next (runCmd_ok at_ (writePipsAct_all written))
    · rw [stops] at written
      exact congrArg Host.Outcome.next (runCmd_stops at_ (writePipsAct_stops written) goes)
  · intro id c bus o s s1 s2 at_ object signalled
    refine congrArg Host.Outcome.next (runCmd_ok at_ ?_)
    exact (act_bind_ok object).trans (act_bind_ok signalled)
  · intro id v c bus o t s s1 s2 s3 at_ object page value
    have acts := (act_bind_ok (f := fun o => do
        let t ← trAct bus { cmdReq id c .engine (BitVec.ofNat 64 o.va) .read with ctx := o.ctx }
        let v ← eventValue bus o.part id t.1
        let limit := bits (c.raw.w 3) 31 0
        if (c.raw.w 2).toNat ≤ v then okCmd id
        else modify fun s => updCmd s id fun c => { c with
          phase := .running
          work := .waiting (t.1 / 64) t.1 (c.raw.w 2) (if limit = 0 then none else some (s.tick + limit * 1000)) })
      object).trans ((act_bind_ok page).trans (act_bind_ok value))
    refine congrArg Host.Outcome.next ?_
    split
    · rename_i reached
      exact runCmd_ok at_ (acts.trans (by rw [if_pos reached]; rfl))
    · rename_i short
      exact runCmd_ok at_ (acts.trans (by rw [if_neg short]; rfl))
  · intro id l a v target lim c bus s s' works signals only channels running work value channels'
    have found : cmdOf s id = some c := by
      rw [cmdOf, only]
      exact if_pos rfl
    have looks := waitEval_looks found running work value
    have still : (waitEval s bus id).mv.chans = [] := by
      rw [looks]
      split
      · rw [startLoad_mv, endCmd_ok_keeps]
        exact channels'
      · exact channels'
    show execWaitEvaluate bus s = _
    unfold execWaitEvaluate
    rw [works, signals]
    show Host.Outcome.next (each _ (each _ s s.qe.cmds) (each _ s s.qe.cmds).mv.chans) = _
    rw [only]
    show Host.Outcome.next (each _ (waitEval s bus id) (waitEval s bus id).mv.chans) = _
    rw [still]
    exact congrArg Host.Outcome.next looks
  · intro id l a n v target c s s' works found running work value
    show execWaitTimeout id s = _
    unfold execWaitTimeout
    simp only [found, running, work, works, if_true]
    exact congrArg Host.Outcome.next (runAct_ok value)
  · intro id c s at_ own
    refine congrArg Host.Outcome.next (runCmd_ok at_ ?_)
    unfold flushAct
    rw [act_bind_ok act_get, own]
    rfl
  · intro id c s at_ all
    refine congrArg Host.Outcome.next ?_
    have acts : flushAct id c s = if earlierLeft s c.ctx id = true then .ok () s
        else .ok () (endCmd (takeDirty s id c.ctx (List.range 8)) id stOk 0) := by
      unfold flushAct
      rw [act_bind_ok act_get, all]
      cases earlierLeft s c.ctx id with
      | true => rfl
      | false => rfl
    split
    · rename_i left
      exact runCmd_ok at_ (acts.trans (if_pos left))
    · rename_i none_
      exact runCmd_ok at_ (acts.trans (if_neg none_))

end

section
/-! PROOFS. Context operations (R113 to R116, R119), the commands that act on other contexts (R137, R182), and held faults
(R177 to R180). -/

open Sys2Proof

namespace Sys2Proof.Machine

/-! ### The end of a command that faults nothing -/

/-- A command that ends with a harmless status changes only its own row. -/
theorem endCmd_harmless {s : State} {id : Nat} {st : Byte} {d : BitVec 32} (calm : harmless st = true) :
    ∃ cmds, endCmd s id st d = { s with qe := { s.qe with cmds := cmds } } := by
  unfold endCmd
  split
  · exact ⟨s.qe.cmds, rfl⟩
  · dsimp only
    split
    · exact ⟨s.qe.cmds, rfl⟩
    · rw [if_neg (by rw [faults, calm]; exact Bool.false_ne_true)]
      exact ⟨_, rfl⟩

/-! ### ENABLE, DISABLE and the others (R115, R119) -/

section
variable {s s' : State} {c : BitVec 12} {bus : Bus}

/-- The register write that begins a context operation. -/
def ctxOpAt (s : State) (c : BitVec 12) : State := { s with qe := { s.qe with ctxOpCtx := c } }

theorem ctxOpWrite_runs {op : Nat} (idle : s.qe.ctxOp.busy = false) :
    ctxOpWrite s bus op c = ctxOpRun (ctxOpAt s c) bus op c := if_neg (ne_true_of_eq_false idle)

/-- The row of an operation other than ENABLE. -/
theorem ctxOp_row {op : Nat} (allowed : barOk s = true) (idle : s.qe.ctxOp.busy = false) :
    Host.Outcome.next (if barOk s then ctxOpWrite s bus op c else s) =
      (Host.Outcome.next (ctxOpRun (ctxOpAt s c) bus op c) : Res) :=
  congrArg Host.Outcome.next ((if_pos allowed).trans (ctxOpWrite_runs idle))

theorem ctxEnable_row (allowed : barOk s = true) (idle : s.qe.ctxOp.busy = false) :
    exec (.ctxEnable c bus) s = .next (ctxEnable (ctxOpAt s c) bus c) := by
  show execCtxEnable c bus s = _
  unfold execCtxEnable
  rw [allowed, idle]
  exact (if_neg nofun).trans ((if_neg fun h => Bool.false_ne_true h.1).trans (congrArg Host.Outcome.next (ctxOpWrite_runs idle)))

/-- Only an entry that passes the checks gives OK, and it enables the context. -/
theorem enableFrom_ok {bs : List Byte} (ok : enableFrom s c bs = (s', rOk)) :
    s' = drawReturns (updCtx s c fun _ => { ctxFromEntry {} bs with st := .enabled }) c := by
  unfold enableFrom at ok
  dsimp only at ok
  split at ok
  · exact absurd (congrArg Prod.snd ok) (show ¬ rFormat = rOk by decide)
  · split at ok
    · exact absurd (congrArg Prod.snd ok) (show ¬ rPartition = rOk by decide)
    · split at ok
      · exact absurd (congrArg Prod.snd ok) (show ¬ rState = rOk by decide)
      · exact (congrArg Prod.fst ok).symm

/-- An ENABLE whose entry, at an address and by a route, is at hand and good. -/
theorem ctxEnable_enables {a : Nat} {v : Via} (addr : ctxAddr s c = a) (route : sysVia s a = v)
    (disabled : (ctxOf s c).st = .disabled) (ready : homeReady s a 512 false none bus = (s, true))
    (read : (homeRead v bus s a 512).2.1 = .ok)
    (ok : enableFrom (homeRead v bus s a 512).1 c (homeRead v bus s a 512).2.2 = (s', rOk)) :
    ctxEnable s bus c = ctxOpDone s' rOk := by
  unfold ctxEnable
  dsimp only
  rw [if_neg (not_not_intro disabled), addr, ready, route]
  exact (if_neg nofun).trans ((if_neg (not_not_intro read)).trans (congrArg (fun r : State × Byte => ctxOpDone r.1 r.2) ok))

theorem drawSession_qe : (drawSession s c).1.qe = s.qe := by
  unfold drawSession
  split
  · rfl
  · rfl

theorem drawReturns_st : (ctxOf (drawReturns s c) c).st = (ctxOf s c).st := by
  unfold drawReturns
  split
  · refine each_reads (g := fun s => (ctxOf s c).st) fun s q => ?_
    refine (congrArg Ctx.st (ctxOf_updCtx (drawSession s c).1 c _)).trans ?_
    exact congrArg (fun q : Qe => (Tab.get {} q.ctxs c.toNat).st) drawSession_qe
  · rfl

theorem enableFrom_enables {bs : List Byte} (ok : enableFrom s c bs = (s', rOk)) : (ctxOf s' c).st = .enabled := by
  rw [enableFrom_ok ok]
  exact drawReturns_st.trans (congrArg Ctx.st (ctxOf_updCtx ..))

theorem ctxOf_congr (same : s'.qe.ctxs = s.qe.ctxs) : ctxOf s' c = ctxOf s c := by
  unfold ctxOf
  rw [same]

/-- DISABLE ends only waits, which changes neither contexts nor memory. -/
theorem endCtxWaits_keeps : (endCtxWaits s c).qe.ctxs = s.qe.ctxs ∧ (endCtxWaits s c).mem = s.mem := by
  have waits : ∀ (s : State) (e : Nat × Cmd),
      (fun s : State => (s.qe.ctxs, s.mem)) (if e.2.ctx = c ∧ e.2.waits = true then endCmd s e.1 stAborted 0 else s) =
        (s.qe.ctxs, s.mem) := fun s e => by
    dsimp only
    split
    · obtain ⟨cmds, ends⟩ := endCmd_harmless (s := s) (id := e.1) (st := stAborted) (d := 0) rfl
      rw [ends]
    · rfl
  have runs : ∀ (s : State) (e : Nat × Channel),
      (fun s : State => (s.qe.ctxs, s.mem)) (if e.2.waitsFor c then failRun s e.1 stAborted 0 else s) =
        (s.qe.ctxs, s.mem) := fun s e => by
    dsimp only
    split
    · rfl
    · rfl
  have both : (fun s : State => (s.qe.ctxs, s.mem)) (endCtxWaits s c) = (s.qe.ctxs, s.mem) :=
    (each_reads (g := fun s : State => (s.qe.ctxs, s.mem)) runs).trans
      (each_reads (g := fun s : State => (s.qe.ctxs, s.mem)) waits)
  exact ⟨congrArg Prod.fst both, congrArg Prod.snd both⟩

theorem kick_keeps_st {q : Nat} : (ctxOf (kick s c q) c).st = (ctxOf s c).st ∧ (kick s c q).mem = s.mem := by
  unfold kick
  dsimp only
  split
  · exact ⟨(congrArg Ctx.st (ctxOf_updCtx s c _)).trans rfl, rfl⟩
  · exact ⟨rfl, rfl⟩

theorem kickAll_keeps_st : (ctxOf (kickAll s c) c).st = (ctxOf s c).st ∧ (kickAll s c).mem = s.mem :=
  ⟨each_reads (g := fun s => (ctxOf s c).st) fun _ _ => kick_keeps_st.1,
    each_reads (g := State.mem) fun _ _ => (kick_keeps_st (c := c)).2⟩

theorem startLoad_keeps_pin : (ctxOf (startLoad s c) c).pinned = (ctxOf s c).pinned ∧ (startLoad s c).mem = s.mem := by
  unfold startLoad
  dsimp only
  split
  · exact ⟨(congrArg Ctx.pinned (ctxOf_updCtx s c _)).trans rfl, rfl⟩
  · exact ⟨rfl, rfl⟩

/-- An operation that leaves its context as said and answers OK in QE_CTX_OP. -/
theorem ctxOp_answers {op : Nat} {P : Ctx → Prop} (allowed : barOk s = true) (idle : s.qe.ctxOp.busy = false) {t : State}
    (runs : ctxOpRun (ctxOpAt s c) bus op c = ctxOpDone t rOk) (ctx : P (ctxOf t c)) (mem : t.mem = s.mem) :
    ∃ t, (Host.Outcome.next (if barOk s then ctxOpWrite s bus op c else s) : Res) = .next t ∧ P (ctxOf t c) ∧
      t.qe.ctxOp = .done rOk ∧ t.mem = s.mem :=
  ⟨_, (ctxOp_row allowed idle).trans (congrArg Host.Outcome.next runs), ctx, rfl, mem⟩

theorem ctxDisable_marks (enabled : (ctxOf s c).st = .enabled) (steady : (ctxOf s c).disabling = false) :
    ∃ t, ctxOpRun s bus 2 c = ctxOpDone t rOk ∧ (ctxOf t c).disabling = true ∧ (ctxOf t c).pinned = false ∧
      t.mem = s.mem := by
  obtain ⟨ctxs, mem⟩ := endCtxWaits_keeps (s := updCtx s c fun x => { x with disabling := true, pinned := false }) (c := c)
  have ctx := (ctxOf_congr (c := c) ctxs).trans (ctxOf_updCtx ..)
  refine ⟨endCtxWaits (updCtx s c fun x => { x with disabling := true, pinned := false }) c,
    congrArg (fun r : State × Byte => ctxOpDone r.1 r.2) (if_pos ⟨enabled, steady⟩), ?_, ?_, mem⟩
  · rw [ctx]
  · rw [ctx]

theorem ctxOpRun_resume (ends : ctxResume s c = (s', rOk)) : ctxOpRun s bus 3 c = ctxOpDone s' rOk := by
  show ctxOpDone (ctxResume s c).1 (ctxResume s c).2 = _
  rw [ends]

theorem ctxResume_enables (faulted : (ctxOf s c).st = .faulted) :
    ∃ t, ctxOpRun s bus 3 c = ctxOpDone t rOk ∧ (ctxOf t c).st = .enabled ∧ t.mem = s.mem := by
  obtain ⟨st, mem⟩ := kickAll_keeps_st (s := updCtx s c fun x => { x with st := .enabled }) (c := c)
  have resumes : ctxResume s c = (kickAll (updCtx s c fun x => { x with st := .enabled }) c, rOk) := if_pos faulted
  refine ⟨_, ctxOpRun_resume resumes, st.trans ?_, mem⟩
  rw [ctxOf_updCtx]

/-- A context that PIN and UNPIN take. -/
theorem enabled_is_live (enabled : (ctxOf s c).st = .enabled) :
    ¬ ((ctxOf s c).st = .disabled ∨ (ctxOf s c).st = .aborting) := by
  rw [enabled]
  exact fun h => h.elim nofun nofun

theorem ctxPin_pins (enabled : (ctxOf s c).st = .enabled) (unpinned : (ctxOf s c).pinned = false)
    (room : pinnedIn s (ctxOf s c).part + 1 < (slotsOf s (ctxOf s c).part).length) :
    ∃ t, ctxOpRun s bus 5 c = ctxOpDone t rOk ∧ (ctxOf t c).pinned = true ∧ t.mem = s.mem := by
  obtain ⟨pinned, mem⟩ := startLoad_keeps_pin (s := updCtx s c fun x => { x with pinned := true }) (c := c)
  refine ⟨startLoad (updCtx s c fun x => { x with pinned := true }) c,
    congrArg (fun r : State × Byte => ctxOpDone r.1 r.2) ((if_neg (enabled_is_live enabled)).trans
    ((if_neg (ne_true_of_eq_false unpinned)).trans (if_neg (Nat.not_le.mpr room)))), pinned.trans ?_, mem⟩
  rw [ctxOf_updCtx]

theorem ctxUnpin_unpins (enabled : (ctxOf s c).st = .enabled) :
    ∃ t, ctxOpRun s bus 6 c = ctxOpDone t rOk ∧ (ctxOf t c).pinned = false ∧ t.mem = s.mem := by
  refine ⟨updCtx s c fun x => { x with pinned := false }, congrArg (fun r : State × Byte => ctxOpDone r.1 r.2)
    (if_neg (enabled_is_live enabled)), ?_, updCtx_mem ..⟩
  rw [ctxOf_updCtx]

/-! ### ABORT (R116) -/

/-- A context that has neither a command, a tile in transfer nor a held fault. -/
structure NothingRuns (s : State) (c : BitVec 12) : Prop where
  cmds  : cmdsOf s c = []
  slots : heldSlots s c = []
  tiles : ∀ e ∈ s.pa.tports, ∀ x, e.2.cur = some x → x.ctx ≠ c

/-- A fold whose steps change nothing. -/
theorem each_fixed {α : Type} {f : State → α → State} {l : List α} (stays : ∀ x ∈ l, f s x = s) : each f s l = s := by
  induction l with
  | nil => rfl
  | cons x l ih =>
    refine Eq.trans (congrArg (fun u => each f u l) (stays x List.mem_cons_self)) (ih fun y listed => ?_)
    exact stays y (List.mem_cons_of_mem x listed)

/-- Where no tile of a context is in transfer, none is aborted. -/
theorem abortTilesOf_none (tiles : ∀ e ∈ s.pa.tports, ∀ x, e.2.cur = some x → x.ctx ≠ c) : abortTilesOf s c = s := by
  unfold abortTilesOf
  refine each_fixed fun e listed => ?_
  cases cur : e.2.cur with
  | none => rfl
  | some t => exact if_neg (tiles e listed t cur)

/-- The context of an abort: it reads ABORTING. -/
def abortingCtx (x : Ctx) : Ctx :=
  { x with
    st := .aborting, disabling := false, pinned := false, loading := false
    qs := x.qs.map fun q => (q.1, { unready q.2 with reading := false, held := none, backoff := none, cqHeld := none }) }

theorem cmdsOf_updCtx {f : Ctx → Ctx} : cmdsOf (updCtx s c f) c = cmdsOf s c := rfl

/-- An abort with nothing to end. -/
theorem abortContext_nothing (nothing : NothingRuns s c) : abortContext s bus c = updCtx s c abortingCtx := by
  show abortCtx (abortTilesOf (each (fun s id => abortCmd s bus id) (updCtx s c abortingCtx)
    (cmdsOf (updCtx s c abortingCtx) c)) c) bus c = _
  rw [cmdsOf_updCtx, nothing.cmds]
  show abortCtx (abortTilesOf (updCtx s c abortingCtx) c) bus c = _
  rw [abortTilesOf_none (s := updCtx s c abortingCtx) nothing.tiles]
  exact congrArg (each _ (updCtx s c abortingCtx)) nothing.slots

/-- ABORT of a context that has something to lose. -/
theorem ctxAbort_aborts (live : (ctxOf s c).st = .enabled ∨ (ctxOf s c).st = .faulted) :
    ctxOpRun s bus 4 c = ctxOpDone (abortContext s bus c) rOk :=
  congrArg (fun r : State × Byte => ctxOpDone r.1 r.2) (if_pos live)

/-! ### The ends of DISABLE and ABORT (R113) -/

/-- A context is written back, and nothing of it is kept. -/
theorem toDisabled_writes (ready : homeReady s (ctxAddr s c) 512 true none bus = (s, true)) :
    toDisabled s bus c = updCtx (dropCtxEntries (writeBack s bus c).1 c) c fun _ => {} := by
  unfold toDisabled
  rw [ready]
  rfl

theorem updCtx_aborts (s : State) (c : BitVec 12) (f : Ctx → Ctx) : (updCtx s c f).qe.aborts = s.qe.aborts := rfl

theorem dropCtxEntries_mem : (dropCtxEntries s c).mem = s.mem := rfl

/-- A DISABLE that has nothing left in the machine. -/
theorem ctxDisableDone_writes (disabling : (ctxOf s c).disabling = true) (enabled : (ctxOf s c).st = .enabled)
    (drained : ctxDrained s c = true) (works : runsWork s = true) :
    exec (.ctxDisableDone c bus) s = .next (toDisabled s bus c) := by
  refine congrArg Host.Outcome.next (if_pos ?_)
  rw [disabling, enabled, drained, works]
  rfl

/-- An ABORT whose commands have ended, and that no CONTEXT_ABORT waits for. -/
theorem ctxAbortDone_writes (aborting : (ctxOf s c).st = .aborting) (done : cmdsOf s c = []) (works : runsWork s = true)
    {t : State} (ends : toDisabled s bus c = t) (gone : (ctxOf t c).st = .disabled) (quiet : t.qe.aborts = []) :
    exec (.ctxAbortDone c bus) s = .next t := by
  have signals : abortSignals t bus c = t := by
    unfold abortSignals
    rw [quiet]
    rfl
  show execCtxAbortDone c bus s = _
  unfold execCtxAbortDone
  rw [works, ends]
  exact (if_neg nofun).trans ((if_pos ⟨aborting, done⟩).trans (congrArg Host.Outcome.next ((if_pos gone).trans signals)))

theorem toDisabled_disables (ready : homeReady s (ctxAddr s c) 512 true none bus = (s, true)) :
    ctxOf (toDisabled s bus c) c = {} ∧ (toDisabled s bus c).mem = (writeBack s bus c).1.mem := by
  rw [toDisabled_writes ready]
  exact ⟨ctxOf_updCtx .., (updCtx_mem ..).trans dropCtxEntries_mem⟩

end

end Sys2Proof.Machine

open Sys2Proof.Machine

/-- Settles O38: each operation of QE_CTX_OP on the context that it names, and the write-back that ends a context. -/
theorem contextOperationsAnswer : Obligations.ContextOperationsAnswer := by
  unfold Obligations.ContextOperationsAnswer
  refine ⟨⟨?_, ?_, ?_, ?_, ?_, ?_, ?_⟩, ?_, ?_⟩
  · intro c s s' allowed idle disabled ready read ok
    refine ⟨ctxOpDone s' rOk, (ctxEnable_row allowed idle).trans (congrArg Host.Outcome.next ?_), ?_, rfl⟩
    · exact ctxEnable_enables (s := ctxOpAt s c) (a := ctxAddr s c) (v := sysVia s (ctxAddr s c)) rfl rfl disabled ready read ok
    · have enabled := enableFrom_enables ok
      exact enabled
  · intro c s allowed idle enabled steady
    obtain ⟨t, runs, disabling, pinned, mem⟩ := ctxDisable_marks (s := ctxOpAt s c) (bus := []) enabled steady
    obtain ⟨t, row, ⟨disabling, pinned⟩, done, mem⟩ := ctxOp_answers (P := fun x => x.disabling = true ∧ x.pinned = false)
      allowed idle runs ⟨disabling, pinned⟩ mem
    exact ⟨t, row, disabling, pinned, done, mem⟩
  · intro c s allowed idle faulted
    obtain ⟨t, runs, enabled, mem⟩ := ctxResume_enables (s := ctxOpAt s c) (bus := []) faulted
    exact ctxOp_answers (P := fun x => x.st = .enabled) allowed idle runs enabled mem
  · intro c bus s allowed idle live
    have aborts := ctxAbort_aborts (s := ctxOpAt s c) (bus := bus) live
    refine ⟨(ctxOp_row allowed idle).trans (congrArg Host.Outcome.next aborts), fun cmds slots tiles => ?_⟩
    have nothing := abortContext_nothing (s := ctxOpAt s c) (bus := bus) ⟨cmds, slots, tiles⟩
    refine ctxOp_answers (P := fun x => x.st = .aborting) allowed idle (aborts.trans (congrArg (ctxOpDone · rOk) nothing)) ?_
      (updCtx_mem ..)
    rw [ctxOf_updCtx]
    exact rfl
  · intro c bus s allowed idle enabled unpinned room
    obtain ⟨t, runs, pinned, mem⟩ := ctxPin_pins (s := ctxOpAt s c) (bus := bus) enabled unpinned room
    exact ctxOp_answers (P := fun x => x.pinned = true) allowed idle runs pinned mem
  · intro c s allowed idle enabled
    obtain ⟨t, runs, pinned, mem⟩ := ctxUnpin_unpins (s := ctxOpAt s c) (bus := []) enabled
    exact ctxOp_answers (P := fun x => x.pinned = false) allowed idle runs pinned mem
  · intro c s allowed idle live
    exact ⟨_, (ctxEnable_row allowed idle).trans (congrArg Host.Outcome.next (if_pos live)), rfl, rfl⟩
  · intro c s disabling enabled drained works ready
    obtain ⟨gone, mem⟩ := toDisabled_disables ready
    exact ⟨_, ctxDisableDone_writes disabling enabled drained works, gone, mem⟩
  · intro c s aborting done works ready quiet
    obtain ⟨gone, mem⟩ := toDisabled_disables ready
    refine ⟨_, ctxAbortDone_writes aborting done works rfl (by rw [gone]) ?_, gone, mem⟩
    rw [toDisabled_writes ready]
    exact (updCtx_aborts ..).trans quiet

end

section
/-! PROOFS. The commands that act on other contexts (R137, R182), and held translation faults (R177 to R180). -/

open Sys2Proof

namespace Sys2Proof.Machine

section
variable {s s' : State} {id : Nat} {c : Cmd} {bus : Bus}

/-! ### CONTEXT_RESUME and CONTEXT_ABORT -/

/-- An issuer with CTRL may name a context of its partition. -/
theorem ctrlOk_passes (ctrl : (ctxOf s c.ctx).ctrl = true) (owner : ctxPart s (targetOf c) = some c.part) :
    ctrlOk c s = .ok () s := by
  refine (act_bind_ok act_get).trans (act_need_holds ?_)
  rw [ctrl, decide_eq_true owner]
  rfl

theorem ctrlOk_refuses (ctrl : (ctxOf s c.ctx).ctrl = false) : ctrlOk c s = .error (.ended stCtrl 0) s := by
  refine (act_bind_ok act_get).trans (act_need_fails ?_)
  rw [ctrl]
  rfl

/-- A CONTEXT_RESUME of a mode does what the mode says and ends OK. -/
theorem resumeCmd_acts {mode : Nat} {m : Cmd → Act Unit} (at_ : Dispatched s id opResume c)
    (ctrl : (ctxOf s c.ctx).ctrl = true) (owner : ctxPart s (targetOf c) = some c.part)
    (named : bits (c.raw.w 2) 3 0 = mode) (acts : m c s = .ok () s') : resumeCmd s id mode m = endCmd s' id stOk 0 := by
  refine runCmd_ok at_ ?_
  rw [if_pos named]
  exact (act_bind_ok (ctrlOk_passes ctrl owner)).trans (act_bind_ok acts)

theorem resumeTarget_resumes (faulted : (ctxOf s (targetOf c)).st = .faulted) :
    resumeTarget c s = .ok () (ctxResume s (targetOf c)).1 := by
  have resumes : (ctxResume s (targetOf c)).2 = rOk := by
    unfold ctxResume
    rw [if_pos faulted]
  refine (act_bind_ok act_get).trans ((act_bind_ok (act_need_holds (decide_eq_true resumes))).trans act_set)

/-- The slot that a mode names is held for its target. -/
theorem namedSlot_names (held : (fltSlot s (bits (c.raw.w 2) 39 32)).st = .held)
    (target : (fltSlot s (bits (c.raw.w 2) 39 32)).ctx = targetOf c) :
    namedSlot c s = .ok (bits (c.raw.w 2) 39 32) s :=
  (act_bind_ok act_get).trans (act_bind_ok (act_need_holds (decide_eq_true ⟨held, target⟩)))

/-- A CONTEXT_ABORT without an event aborts its target. -/
theorem contextAbortAct_aborts (ctrl : (ctxOf s c.ctx).ctrl = true) (owner : ctxPart s (targetOf c) = some c.part)
    (enabled : (ctxOf s (targetOf c)).st = .enabled) (silent : c.raw.w 2 = 0) :
    contextAbortAct bus id c s = .ok () (endCmd (abortContext s bus (targetOf c)) id stOk 0) := by
  have aborts : ctxAbort s bus (targetOf c) = (abortContext s bus (targetOf c), rOk) := if_pos (.inl enabled)
  unfold contextAbortAct
  refine (act_bind_ok (ctrlOk_passes ctrl owner)).trans ((act_bind_ok act_get).trans ?_)
  rw [aborts, silent]
  exact (act_bind_ok (act_need_holds rfl)).trans (act_bind_ok act_set)

/-! ### Slots -/

theorem fltSlot_updSlot (s : State) (k : Nat) (f : FltSlot → FltSlot) : fltSlot (updSlot s k f) k = f (fltSlot s k) :=
  Tab.get_upd_same

/-- Retrying the one request of a slot, that of a command. -/
theorem retrySlot_command {k : Nat} {r : TrReq} (held : (fltSlot s k).st = .held) (only : (fltSlot s k).reqs = [r])
    (owner : r.owner = .cmd id) :
    retrySlot s bus k = updCmd (updSlot s k fun f => { f with st := .retried, reqs := [] }) id fun c =>
      if c.phase = .held k then { c with phase := .dispatched } else c := by
  unfold retrySlot
  dsimp only
  rw [if_pos held, only]
  show resumeReq _ bus k r = _
  unfold resumeReq
  rw [owner]

/-- Ending the one request of a slot, that of a command which waits there. -/
theorem endSlot_command {k : Nat} {r : TrReq} {st : FltSt} (held : (fltSlot s k).st = .held)
    (only : (fltSlot s k).reqs = [r]) (owner : r.owner = .cmd id) (found : cmdOf s id = some c) (waits : c.phase = .held k) :
    endSlot s bus k st =
      endCmd (updSlot s k fun f => { f with st := st, reqs := [] }) id stTranslation (BitVec.ofNat 32 k) := by
  have same : cmdOf (updSlot s k fun f => { f with st := st, reqs := [] }) id = some c := found
  unfold endSlot
  dsimp only
  rw [if_pos held, only]
  show abortReq _ bus k r = _
  unfold abortReq
  rw [owner]
  dsimp only
  rw [same]
  exact if_pos waits

/-- Ending a slot that keeps no request. -/
theorem endSlot_empty {k : Nat} {st : FltSt} (held : (fltSlot s k).st = .held) (empty : (fltSlot s k).reqs = []) :
    endSlot s bus k st = updSlot s k fun f => { f with st := st, reqs := [] } := by
  unfold endSlot
  dsimp only
  rw [if_pos held, empty]
  rfl

/-- The answer of TU_FLT_OP. -/
def fltDone (s : State) (r : Byte) (slot : BitVec 8) : State := { s with tu := { s.tu with fltOp := .done r, fltSlot := slot } }

theorem fltWrite_answers {op : Nat} {slot : BitVec 8} (idle : s.tu.fltOp.busy = false) (known : op = 1 ∨ op = 2) :
    fltWrite s bus op slot =
      if (fltSlot s slot.toNat).st ≠ .held then fltDone s rState slot
      else if op = 1 then fltDone (retrySlot s bus slot.toNat) rOk slot
      else fltDone (endSlot s bus slot.toNat .aborted) rOk slot := by
  have either : ¬ (op ≠ 1 ∧ op ≠ 2) := fun h => known.elim h.1 h.2
  exact (if_neg (ne_true_of_eq_false idle)).trans (if_neg either)

end

end Sys2Proof.Machine

open Sys2Proof.Machine

/-- Settles O39: each mode of CONTEXT_RESUME and CONTEXT_ABORT on its target, and a slot by its one request. -/
theorem controlCommandsAndFaultSlots : Obligations.ControlCommandsAndFaultSlots := by
  unfold Obligations.ControlCommandsAndFaultSlots
  refine ⟨⟨?_, ?_, ?_⟩, ?_, ?_, ?_⟩
  · intro id c bus s at_ ctrl owner
    refine ⟨fun mode faulted => ?_, fun mode => ?_, fun mode => ?_, fun mode held target => ?_, fun mode held target => ?_⟩
    · exact congrArg Host.Outcome.next (resumeCmd_acts at_ ctrl owner mode (resumeTarget_resumes faulted))
    · exact congrArg Host.Outcome.next (resumeCmd_acts at_ ctrl owner mode act_modify)
    · exact congrArg Host.Outcome.next (resumeCmd_acts at_ ctrl owner mode act_modify)
    · exact congrArg Host.Outcome.next (resumeCmd_acts at_ ctrl owner mode
        ((act_bind_ok (namedSlot_names held target)).trans act_modify))
    · exact congrArg Host.Outcome.next (resumeCmd_acts at_ ctrl owner mode
        ((act_bind_ok (namedSlot_names held target)).trans act_modify))
  · intro id c bus s at_ ctrl owner enabled silent
    exact congrArg Host.Outcome.next (runCmd_ok at_ (contextAbortAct_aborts ctrl owner enabled silent))
  · intro id c bus s at_ ctrl
    exact congrArg Host.Outcome.next (runCmd_ended at_ (act_bind_error (ctrlOk_refuses ctrl)))
  · intro k bus id c r s allowed idle held only owner found waits
    have stands : ¬ (fltSlot s k.toNat).st ≠ .held := not_not_intro held
    constructor
    · let u := updSlot s k.toNat fun f => { f with st := .retried, reqs := [] }
      let t := updCmd u id fun c => if c.phase = .held k.toNat then { c with phase := .dispatched } else c
      have retries : fltWrite s bus 1 k = fltDone t rOk k :=
        (fltWrite_answers idle (.inl rfl)).trans ((if_neg stands).trans ((if_pos rfl).trans
          (congrArg (fltDone · rOk k) (retrySlot_command held only owner))))
      have slot : fltSlot t k.toNat = { fltSlot s k.toNat with st := .retried, reqs := [] } := fltSlot_updSlot ..
      have row : cmdOf t id = some { c with phase := .dispatched } := by
        refine (cmdOf_updCmd u id _).trans ?_
        refine (congrArg (Option.map _) (found : cmdOf u id = some c)).trans (congrArg some ?_)
        exact if_pos waits
      exact ⟨fltDone t rOk k, _, congrArg Host.Outcome.next ((if_pos allowed).trans retries), congrArg FltSlot.st slot,
        congrArg FltSlot.reqs slot, row, rfl, rfl, rfl⟩
    · have aborts : fltWrite s bus 2 k = fltDone (endSlot s bus k.toNat .aborted) rOk k :=
        (fltWrite_answers idle (.inr rfl)).trans ((if_neg stands).trans (if_neg (by decide)))
      refine ⟨_, congrArg Host.Outcome.next ((if_pos allowed).trans aborts), rfl, ?_⟩
      rw [endSlot_command held only owner found waits]
      rfl
  · intro slot bus s held empty works
    let u := reach s (fltSlot s slot).deadline
    have ends : endSlot u bus slot .expired = updSlot u slot fun f => { f with st := .expired, reqs := [] } :=
      endSlot_empty held empty
    refine ⟨_, congrArg Host.Outcome.next ((if_pos ⟨held, works⟩).trans ends), ?_, reach_waits, rfl⟩
    rw [fltSlot_updSlot]
  · intro k bus s allowed idle free
    exact ⟨fltDone s rState k,
      congrArg Host.Outcome.next ((if_pos allowed).trans ((fltWrite_answers idle (.inl rfl)).trans (if_pos free))),
      congrArg Host.Outcome.next ((if_pos allowed).trans ((fltWrite_answers idle (.inr rfl)).trans (if_pos free))), rfl, rfl⟩

end

section
/-! PROOFS. Objects that are created and freed (R142, R143), and MAP and UNMAP (R169 to R172). -/

open Sys2Proof

namespace Sys2Proof.Machine

section
variable {s s' s'' : State} {i : Nat} {bus : Bus} {o : Obj}

/-! ### CREATE and FREE -/

/-- The register write that begins an operation on an object. -/
def objOpAt (s : State) (i : BitVec 32) : State := { s with qe := { s.qe with objIndex := i } }

theorem objOpWrite_creates {i : BitVec 32} (idle : s.qe.objOp.busy = false) :
    objOpWrite s 1 i bus = objCreate (objOpAt s i) i.toNat bus := if_neg (ne_true_of_eq_false idle)

theorem objOpWrite_frees {i : BitVec 32} (idle : s.qe.objOp.busy = false) :
    objOpWrite s 2 i bus = objFreeOp (objOpAt s i) i.toNat bus := if_neg (ne_true_of_eq_false idle)

/-- A CREATE at an index that no descriptor has. -/
theorem createAct_bad_index (outside : i = 0 ∨ objCount s ≤ i) : createAct bus i s = .error (.ended rFormat 0) s := by
  refine (act_bind_ok act_get).trans (act_bind_error (act_need_fails (decide_eq_false ?_)))
  omega

/-- An object that a FREE takes. -/
theorem objFreeOp_frees (some : i ≠ 0) (inside : i < objCount s) (read : objGet bus i s = .ok o s')
    (live : o.st = stLive ∨ o.st = stTorn) (frees : freeObj bus i o s' = .ok () s'') :
    objFreeOp s i bus = { s'' with qe := { s''.qe with objOp := .done rOk } } :=
  runAct_ok ((act_bind_ok (act_need_holds (decide_eq_true ⟨some, inside⟩))).trans ((act_bind_ok read).trans
    ((act_bind_ok (act_need_holds (decide_eq_true live))).trans frees)))

/-- A freed object with pins, or a table with writes or copies, goes DRAINING. -/
theorem freeObj_drains (plain : o.ty ≠ tyEvent) (live : o.st = stLive)
    (held : o.pins ≠ 0 ∨ tableHeld (failObjAps s i o.gen) i o = true) :
    freeObj bus i o s = objPut bus i { o with gen := (o.gen + 1) % 65536, st := stDraining } (failObjAps s i o.gen) := by
  have whole : ¬ o.st = stTorn := by rw [live]; decide
  have waits : ¬ (decide (o.pins = 0) && !tableHeld (failObjAps s i o.gen) i o) = true := by
    rw [Bool.and_eq_true, decide_eq_true_eq, Bool.not_eq_true']
    rintro ⟨unpinned, free⟩
    rcases held with pins | busy
    · exact pins unpinned
    · rw [busy] at free
      cases free
  unfold freeObj
  refine (act_bind_ok act_modify).trans ?_
  rw [if_neg plain]
  show (if o.st = stTorn then _ else _ : Act Unit) _ = _
  rw [if_neg whole]
  refine (act_bind_ok act_get).trans ?_
  rw [if_neg waits]

/-- A DRAINING object that nothing holds any longer becomes FREE. -/
theorem objectDrainEnd_frees {i : BitVec 32} (works : runsWork s = true) (inside : i.toNat < objCount s)
    (read : objGet bus i.toNat s = .ok o s') (drained : o.st = stDraining ∧ o.pins = 0 ∧ tableHeld s' i.toNat o = false)
    (frees : becomeFree bus i.toNat o o s' = .ok () s'') :
    exec (.objectDrainEnd i bus) s = .next (pumpPasses s'' bus) := by
  show execObjectDrainEnd i bus s = _
  unfold execObjectDrainEnd
  rw [works, if_pos inside]
  refine congrArg Host.Outcome.next (runAct_ok (a := ()) ((act_bind_ok read).trans ((act_bind_ok act_get).trans ?_)))
  rw [if_pos drained]
  exact (act_bind_ok frees).trans act_modify

/-- One that something still holds stays as it is. -/
theorem objectDrainEnd_stays {i : BitVec 32} (works : runsWork s = true) (inside : i.toNat < objCount s)
    (read : objGet bus i.toNat s = .ok o s')
    (held : ¬ (o.st = stDraining ∧ o.pins = 0 ∧ tableHeld s' i.toNat o = false)) :
    exec (.objectDrainEnd i bus) s = .next (pumpPasses s' bus) := by
  show execObjectDrainEnd i bus s = _
  unfold execObjectDrainEnd
  rw [works, if_pos inside]
  refine congrArg Host.Outcome.next (runAct_ok (a := ()) ((act_bind_ok read).trans ((act_bind_ok act_get).trans ?_)))
  rw [if_neg held]
  exact act_modify

end

section
variable {s s' : State} {id : Nat} {c : Cmd} {bus : Bus}

/-! ### MAP and UNMAP -/

/-- A MAP or UNMAP that no earlier one of its context holds up. -/
theorem map_row {op : Nat} {m : Cmd → Act Unit} (at_ : Dispatched s id op c) (free : mapBusy s id c = false) :
    (match cmdOf s id with
      | some c => if mapBusy s id c then s else runCmd s id op m
      | none => s) = runCmd s id op m := by
  rw [at_.cmd]
  exact if_neg (ne_true_of_eq_false free)

/-- What MAP checks of its fields before it looks at tables. -/
def mapFields (c : Cmd) (o : Obj) : Bool :=
  decide ((c.raw.w 1).toNat % 4096 = 0 ∧ (c.raw.w 3).toNat % 4096 = 0 ∧ (c.raw.w 4).toNat % 4096 = 0 ∧
    (c.raw.w 4).toNat ≠ 0 ∧ (c.raw.w 3).toNat + (c.raw.w 4).toNat ≤ o.size ∧ o.va % 4096 = 0 ∧
    (c.raw.w 1).toNat + (c.raw.w 4).toNat ≤ 2 ^ 57) && attrOk (c.raw.w 5).toNat

/-- MAP once its object has been read and its fields are good: check the whole range, then write leaf by leaf. -/
def mapPlaces (bus : Bus) (id : Nat) (c : Cmd) (o : Obj) : Act Unit := do
  let va := (c.raw.w 1).toNat
  let len := (c.raw.w 4).toNat
  let s ← get
  need (bit (ctxOf s c.ctx).ttRoot 0) stState
  let there ← leavesOf false bus c.ctx va (va + len)
  need there.isEmpty stState
  let lo := o.va + (c.raw.w 3).toNat
  let src ← leavesOf false bus o.ctx lo (lo + len)
  need (covers lo (lo + len) src) stTranslation
  let fitted ← mapAll (fitPiece bus c.ctx 4) (src.map (piecesOf lo len va (c.raw.w 5).toNat)).flatten
  placeAll bus id (cmdReq id c .engine 0 .write) c.part fitted.flatten
  okCmd id

theorem mapAct_starts (fresh_ : c.work = .none) (read : objGet bus (hIndex (c.raw.w 2)) s = .ok o s') :
    mapAct bus id c s = (if mapFields c o then mapPlaces bus id c o else failWith stBadField) s' := by
  unfold mapAct
  rw [fresh_]
  refine (act_bind_ok read).trans ?_
  cases fine : mapFields c o with
  | true => exact act_bind_ok (act_need_holds fine)
  | false => exact act_bind_error (act_need_fails fine)

/-- The second half of UNMAP: the leaves are cleared, their translations dropped, and their users waited for. -/
theorem unmapAct_clears {ls : List Leaf} {s1 s2 : State} (fresh_ : c.work = .none)
    (pages : (c.raw.w 1).toNat % 4096 = 0 ∧ (c.raw.w 2).toNat % 4096 = 0 ∧ (c.raw.w 2).toNat ≠ 0 ∧
      (c.raw.w 1).toNat + (c.raw.w 2).toNat ≤ 2 ^ 57)
    (found : leavesOf false bus c.ctx (c.raw.w 1).toNat ((c.raw.w 1).toNat + (c.raw.w 2).toNat) s = .ok ls s1)
    (inside : ∀ l ∈ ls, (c.raw.w 1).toNat ≤ l.va ∧ l.va + l.size ≤ (c.raw.w 1).toNat + (c.raw.w 2).toNat)
    (clears : forAll (fun l => putPte bus c.ctx l.va l.addr 0) ls s1 = .ok () s2) :
    let sc := InvScope.range c.ctx (c.raw.w 1).toNat (c.raw.w 2).toNat
    unmapAct bus id c s = .ok () (if invUsers s2 sc = [] then endCmd (invDrop s2 sc false) id stOk 0
      else updCmd (invDrop s2 sc false) id fun x => { x with work := .invalidating (invUsers s2 sc) }) := by
  intro sc
  have whole : (ls.all fun l => decide ((c.raw.w 1).toNat ≤ l.va ∧ l.va + l.size ≤ (c.raw.w 1).toNat + (c.raw.w 2).toNat)) =
      true := List.all_eq_true.mpr fun l listed => decide_eq_true (inside l listed)
  unfold unmapAct
  rw [fresh_]
  refine (act_bind_ok (act_need_holds (decide_eq_true pages))).trans ((act_bind_ok found).trans
    ((act_bind_ok (act_need_holds whole)).trans ((act_bind_ok clears).trans ((act_bind_ok act_get).trans
      ((act_bind_ok act_set).trans ?_)))))
  show (if invUsers s2 sc = [] then okCmd id else _) (invDrop s2 sc false) = _
  split
  · rfl
  · rfl

theorem unmapAct_bad_field (fresh_ : c.work = .none)
    (bad : (c.raw.w 1).toNat % 4096 ≠ 0 ∨ (c.raw.w 2).toNat % 4096 ≠ 0 ∨ c.raw.w 2 = 0) :
    unmapAct bus id c s = .error (.ended stBadField 0) s := by
  unfold unmapAct
  rw [fresh_]
  refine act_bind_error (act_need_fails (decide_eq_false ?_))
  rintro ⟨va, len, some, -⟩
  rcases bad with bad | bad | bad
  · exact bad va
  · exact bad len
  · exact some (by rw [bad]; rfl)

theorem unmapAct_waits {ws : List InvWait} (waits : c.work = .invalidating ws) :
    unmapAct bus id c s = .ok () (if ws.any (waitHolds s) then s else endCmd s id stOk 0) := by
  unfold unmapAct
  rw [waits]
  refine (act_bind_ok act_get).trans ?_
  split
  · rfl
  · rfl

end

end Sys2Proof.Machine

open Sys2Proof.Machine

/-- Settles O40: the checks of CREATE and FREE decide, and a freed object is DRAINING while something holds it. -/
theorem objectsAreCreatedAndFreed : Obligations.ObjectsAreCreatedAndFreed := by
  unfold Obligations.ObjectsAreCreatedAndFreed
  refine ⟨?_, ?_, ?_, ?_, ?_, ?_, ?_⟩
  · intro i bus h s s' allowed idle creates
    exact congrArg Host.Outcome.next ((if_pos allowed).trans ((objOpWrite_creates idle).trans (runAct_ok creates)))
  · intro i bus s allowed idle outside
    refine congrArg Host.Outcome.next ((if_pos allowed).trans ((objOpWrite_creates idle).trans ?_))
    have index : i.toNat = 0 ∨ objCount (objOpAt s i) ≤ i.toNat := outside.imp (fun zero => by rw [zero]; rfl) id
    unfold objCreate runAct
    rw [createAct_bad_index index]
    rfl
  · intro i bus o s s' s'' allowed idle some inside read live frees
    refine congrArg Host.Outcome.next ((if_pos allowed).trans ((objOpWrite_frees idle).trans ?_))
    exact objFreeOp_frees (s := objOpAt s i) (fun zero => some (BitVec.eq_of_toNat_eq zero)) inside read live frees
  · intro id c bus o s s' s'' at_ read live gen frees
    exact congrArg Host.Outcome.next (runCmd_ok at_ ((act_bind_ok read).trans
      ((act_bind_ok (act_need_holds (decide_eq_true ⟨live, gen⟩))).trans (act_bind_ok frees))))
  · intro bus i o s plain live held
    exact freeObj_drains plain live held
  · intro i bus o s s' s'' works inside read draining unpinned free frees
    exact objectDrainEnd_frees works inside read ⟨draining, unpinned, free⟩ frees
  · intro i bus o s s' works inside read draining held
    refine objectDrainEnd_stays works inside read ?_
    rintro ⟨-, unpinned, free⟩
    rcases held with pins | busy
    · exact pins unpinned
    · rw [busy] at free
      cases free

/-- Settles O41: MAP and UNMAP step by step, from their checks to their last leaf. -/
theorem mapAndUnmapChangeLeaves : Obligations.MapAndUnmapChangeLeaves := by
  unfold Obligations.MapAndUnmapChangeLeaves
  refine ⟨?_, ?_, ?_, ?_, ?_, ?_, ?_⟩
  · intro id c bus o src fit s s1 s2 s3 s4 s5 at_ free fresh_ read va off len fields attr root none_ found covered fitted placed
    refine congrArg Host.Outcome.next ((map_row at_ free).trans (runCmd_ok at_ ((mapAct_starts fresh_ read).trans ?_)))
    have fine : mapFields c o = true := Bool.and_eq_true_iff.mpr ⟨decide_eq_true fields, attr⟩
    rw [if_pos fine]
    exact (act_bind_ok act_get).trans ((act_bind_ok (act_need_holds root)).trans ((act_bind_ok none_).trans
      ((act_bind_ok (act_need_holds rfl)).trans ((act_bind_ok found).trans ((act_bind_ok (act_need_holds covered)).trans
        ((act_bind_ok fitted).trans (act_bind_ok placed)))))))
  · intro id c bus ls s s1 s2 at_ free fresh_ va len pages found inside clears users
    refine congrArg Host.Outcome.next ((map_row at_ free).trans (runCmd_ok at_ ?_))
    exact (unmapAct_clears fresh_ pages found inside clears).trans (congrArg _ (if_pos users))
  · intro id c bus ls s s1 s2 at_ free fresh_ va len pages found inside clears users
    refine congrArg Host.Outcome.next ((map_row at_ free).trans (runCmd_ok at_ ?_))
    exact (unmapAct_clears fresh_ pages found inside clears).trans (congrArg _ (if_neg users))
  · intro id c ws bus s at_ free waits
    exact congrArg Host.Outcome.next ((map_row at_ free).trans (runCmd_ok at_ (unmapAct_waits waits)))
  · intro id c left bus s s' at_ free waits placed
    refine congrArg Host.Outcome.next ((map_row at_ free).trans (runCmd_ok at_ ?_))
    unfold mapAct
    rw [waits]
    exact act_bind_ok placed
  · intro id c bus o s s1 at_ free fresh_ read bad
    refine congrArg Host.Outcome.next ((map_row at_ free).trans (runCmd_ended at_ ((mapAct_starts fresh_ read).trans ?_)))
    have refused : ¬ mapFields c o = true := by
      rw [mapFields, Bool.and_eq_true, decide_eq_true_eq]
      rintro ⟨⟨va, off, len, some, -⟩, -⟩
      rcases bad with bad | bad | bad | bad
      · exact bad va
      · exact bad off
      · exact bad len
      · exact some (by rw [bad]; rfl)
    rw [if_neg refused]
    rfl
  · intro id c bus s at_ free fresh_ bad
    exact congrArg Host.Outcome.next ((map_row at_ free).trans (runCmd_ended at_ (unmapAct_bad_field fresh_ bad)))

end

section
/-! PROOFS. Translations, invalidations, frame pools, page slices, service ports and Sloe (spec files 05 and 02). -/

open Sys2Proof

namespace Sys2Proof.Machine

section
variable {s s' : State} {bus : Bus} {r : TrReq} {pa sz : Nat} {pte : Word}

/-! ### What a granted translation obeys -/

/-- What a leaf that passes the checks of an access allows. -/
theorem checkAccess_pass {u : TrUser} {acc : Access} (pass : checkAccess u acc pte = .pass) :
    (acc ≠ .write → pteR pte = true) ∧ (acc ≠ .read → pteW pte = true) ∧
      (acc ≠ .read → pteM pte = true → u = .ingest true) := by
  unfold checkAccess at pass
  dsimp only at pass
  split at pass
  case isTrue => cases pass
  case isFalse permitted =>
    split at pass
    case isTrue => cases pass
    case isFalse unmeasured =>
      simp only [Bool.or_eq_true, Bool.and_eq_true, decide_eq_true_eq, Bool.not_eq_true', not_or, not_and,
        Bool.not_eq_false] at permitted unmeasured
      obtain ⟨readable, writable⟩ := permitted
      exact ⟨readable, writable, fun writes measured => Classical.not_not.mp (unmeasured ⟨writes, measured⟩)⟩

theorem failTr_not_ok {k : Byte} {level : Nat} {p : Word} : (failTr s r k level p).2 ≠ .ok pa pte sz := by
  unfold failTr
  split
  · exact nofun
  · unfold holdFault
    dsimp only
    split
    · exact nofun
    · split
      · exact nofun
      · exact nofun

/-- A granted translation is below 2^57, and its leaf passes the checks of its access. -/
theorem translate_granted (grant : (translate s bus r).2 = .ok pa pte sz) :
    r.va.toNat < 2 ^ 57 ∧ checkAccess r.user r.acc pte = .pass ∧ pa = leafAddr pte sz r.va := by
  unfold translate at grant
  split at grant
  case isTrue => cases grant
  case isFalse low =>
    have below : r.va.toNat < 2 ^ 57 := by omega
    refine ⟨below, ?_⟩
    dsimp only at grant
    split at grant
    case h_1 e hit =>
      cases grant
      split at hit
      case h_1 =>
        split at hit
        case isTrue pass =>
          cases hit
          exact ⟨pass, rfl⟩
        case isFalse => cases hit
      case h_2 => cases hit
    case h_2 =>
      split at grant
      case h_1 => cases grant
      case h_2 => cases grant
      case h_3 => exact absurd grant failTr_not_ok
      case h_4 =>
        split at grant
        case h_1 pass =>
          cases grant
          exact ⟨pass, rfl⟩
        case h_2 => cases grant
        case h_3 => exact absurd grant failTr_not_ok

theorem pageWalk_translates {user : TrUser} {ctx : BitVec 12} {va : Word} {acc : Access} (works : runsWork s = true) :
    let t := translate s bus { owner := .free, user := user, ctx := ctx, va := va, acc := acc }
    exec (.pageWalk user ctx va acc bus) s = .next (if t.2 = .wait then waitBack s t.1 else t.1) := by
  show execPageWalk user ctx va acc bus s = _
  exact if_pos works

end

section
variable {s : State}

/-! ### Invalidations -/

/-- What an invalidation leaves in the TLBs and the walk cache. -/
structure Dropped (s : State) (sc : InvScope) (wk : Bool) (t : State) : Prop where
  runs : t.tu.invOp = .run
  mem : t.mem = s.mem
  l1 : ∀ e, e ∈ t.tu.l1 ↔ e ∈ s.tu.l1 ∧ sc.hits s e.ctx e.page e.sz = false
  l2 : ∀ e, e ∈ t.tu.l2 ↔ e ∈ s.tu.l2 ∧ sc.hits s e.ctx e.page e.sz = false
  wc : wk = false → t.tu.wc = s.tu.wc

/-- Which entries a scope hits depends on the partitions alone. -/
theorem hits_congr {sc : InvScope} {t : State} {ctx : BitVec 12} {page sz : Nat} (build : t.build = s.build)
    (parts : t.ps = s.ps) : sc.hits t ctx page sz = sc.hits s ctx page sz := by
  unfold InvScope.hits ctxPart
  rw [build, parts]

theorem invWrite_drops {op : Nat} {ctx : BitVec 12} {part : BitVec 3} {wk : Bool} {sc : InvScope}
    (idle : s.tu.invOp.busy = false) (scope : invScopeOf s op ctx part = some sc) :
    Dropped s sc wk (invWrite s op ctx part wk) := by
  have named : invScopeOf { s with tu := { s.tu with invCtx := ctx, invPart := part, invWalk := wk } } op ctx part =
      some sc := scope
  unfold invWrite
  rw [if_neg (ne_true_of_eq_false idle)]
  dsimp only
  rw [named]
  constructor
  case runs => rfl
  case mem => rfl
  case l1 =>
    intro e
    refine List.mem_filter.trans (and_congr_right fun _ => ?_)
    exact Iff.of_eq ((Bool.not_eq_true' _).trans (congrArg (· = false) (hits_congr (s := s) rfl rfl)))
  case l2 =>
    intro e
    refine List.mem_filter.trans (and_congr_right fun _ => ?_)
    exact Iff.of_eq ((Bool.not_eq_true' _).trans (congrArg (· = false) (hits_congr (s := s) rfl rfl)))
  case wc =>
    intro keep
    exact if_neg (ne_true_of_eq_false keep)

theorem invWrite_empty_range {ctx : BitVec 12} {part : BitVec 3} {wk : Bool} (idle : s.tu.invOp.busy = false)
    (empty : s.tu.invLen = 0) :
    invWrite s 4 ctx part wk =
      { s with tu := { s.tu with invCtx := ctx, invPart := part, invWalk := wk, invOp := .done rFormat } } := by
  have unnamed : invScopeOf { s with tu := { s.tu with invCtx := ctx, invPart := part, invWalk := wk } } 4 ctx part =
      .none := if_pos empty
  unfold invWrite
  rw [if_neg (ne_true_of_eq_false idle)]
  dsimp only
  rw [unnamed]

theorem invRange_scope {ctx : BitVec 12} {part : BitVec 3} (some : s.tu.invLen ≠ 0) :
    invScopeOf s 4 ctx part = .some (.range ctx (s.tu.invVa.toNat * 4096) (s.tu.invLen.toNat * 4096)) := if_neg some

/-- The frames of passes whose users have let go are returned with each end of an invalidation. -/
theorem invalidationDone_next {i : Inv} (runs : s.tu.inv = some i) :
    let t := if i.waits.any (waitHolds s) then s else { s with tu := { s.tu with inv := none, invOp := .done rOk } }
    exec .invalidationDone s = .next (if runsWork t then pumpPasses t [] else t) := by
  intro t
  have same : runsWork t = runsWork s := by
    unfold t
    split
    · rfl
    · rfl
  show execInvalidationDone s = _
  unfold execInvalidationDone
  rw [runs, same]

end

section
variable {s : State} {part cls : Nat} {bus : Bus}

/-! ### Frame pools -/

theorem poolOf_updPool {p : BitVec 3} {f : Pool → Pool} : poolOf (updPool s p cls f) p cls = f (poolOf s p cls) :=
  Tab.get_upd_same

theorem poolAllocProduce_writes {v : BitVec 32} (allowed : barOk s = true) (known : part < s.build.partitions ∧ cls < 4) :
    exec (.poolAllocProduce part cls v) s = .next (poolProduce s part cls v) :=
  congrArg Host.Outcome.next (if_pos (Bool.and_eq_true_iff.mpr ⟨allowed, decide_eq_true known⟩))

theorem poolReturnConsume_writes {v : BitVec 32} (allowed : barOk s = true)
    (known : part < s.build.partitions ∧ cls < 4) :
    exec (.poolReturnConsume part cls v bus) s = .next (poolConsume s bus part cls v) :=
  congrArg Host.Outcome.next (if_pos (Bool.and_eq_true_iff.mpr ⟨allowed, decide_eq_true known⟩))

/-- With no frame that waits, the consumer's write does nothing else. -/
theorem poolConsume_sets {v : BitVec 32} (empty : (poolOf s (BitVec.ofNat 3 part) cls).waiting = []) :
    poolConsume s bus part cls v = updPool s (BitVec.ofNat 3 part) cls fun x => { x with rCons := v } := by
  unfold poolConsume
  dsimp only
  rw [poolOf_updPool (f := fun x => { x with rCons := v }), empty]
  rfl

theorem poolReturnWaitNote_notes {f : Nat} {l : List Nat} (works : runsWork s = true)
    (known : part < s.build.partitions ∧ cls < 4) (waits : (poolOf s (BitVec.ofNat 3 part) cls).waiting = f :: l) :
    exec (.poolReturnWaitNote part cls) s =
      .next (poolNote s ((liveSlices s).headD 0) (BitVec.ofNat 3 part) f) := by
  show execPoolReturnWaitNote part cls s = _
  unfold execPoolReturnWaitNote
  dsimp only
  rw [waits]
  exact congrArg Host.Outcome.next (if_pos (Bool.and_eq_true_iff.mpr ⟨works, decide_eq_true known⟩))

/-! ### Page slices -/

theorem pageRetireWrite_retires {mask : Nat} (idle : s.tu.retBusy = false)
    (last : mask &&& maskOf s.build.pageSlices ≠ maskOf s.build.pageSlices)
    (new : mask &&& maskOf s.build.pageSlices ≠ s.tu.retire.toNat) :
    pageRetireWrite s mask = { s with tu := { s.tu with retire := BitVec.ofNat 16 (mask &&& maskOf s.build.pageSlices)
                                                        retBusy := true, l1 := [] } } := by
  unfold pageRetireWrite
  dsimp only
  rw [idle, decide_eq_false last, decide_eq_false new]
  rfl

theorem pageRetireWrite_last {mask : Nat}
    (last : mask &&& maskOf s.build.pageSlices = maskOf s.build.pageSlices) : pageRetireWrite s mask = s := by
  unfold pageRetireWrite
  dsimp only
  rw [decide_eq_true last, Bool.or_true]
  rfl

/-- A slice of the build is live when its bit of the register is clear. -/
theorem mem_liveSlices {i : Nat} (present : i < s.build.pageSlices) :
    i ∈ liveSlices s ↔ s.tu.retire.getLsbD i = false := by
  unfold liveSlices
  rw [List.mem_filter, List.mem_range, Bool.not_eq_true']
  exact and_iff_right present

/-- The bits of a mask below the width that `maskOf` keeps. -/
theorem getLsbD_masked {mask : BitVec 16} {n i : Nat} (inside : i < n) (narrow : n ≤ 16) :
    (BitVec.ofNat 16 (mask.toNat &&& maskOf n)).getLsbD i = mask.getLsbD i := by
  have fits : i < 16 := by omega
  rw [BitVec.getLsbD_ofNat, decide_eq_true fits, Bool.true_and, Nat.testBit_and, maskOf, Nat.testBit_two_pow_sub_one,
    decide_eq_true inside, Bool.and_true]
  rfl

end

section
variable {s s' : State} {bus : Bus} {port tag : Nat} {ctx : BitVec 12} {va : BitVec 57} {wr : Bool}

/-! ### Translation service ports -/

/-- The translation request of a service port. -/
def tsReq (port tag : Nat) (va : BitVec 57) (ctx : BitVec 12) (wr : Bool) : TrReq :=
  { owner := .service port tag, user := .service, ctx := ctx, va := va.setWidth 64, acc := if wr then .write else .read }

/-- A request that its port may send: the port is there and works, and the tag is free. -/
structure TsFree (s : State) (port tag : Nat) : Prop where
  inside : port < s.build.tsPorts
  small : tag < 64
  works : runsWork s = true
  free : Tab.find? s.tu.tags (tsKey port tag) = none

theorem TsFree.takes (at_ : TsFree s port tag) : ¬ (s.build.tsPorts ≤ port ∨ 64 ≤ tag ∨ runsWork s = false) := by
  obtain ⟨inside, small, works, -⟩ := at_
  rw [works]
  rintro (out | big | stopped)
  · omega
  · omega
  · cases stopped

theorem TsFree.unused (at_ : TsFree s port tag) : ¬ (Tab.find? s.tu.tags (tsKey port tag)).isSome = true := by
  rw [at_.free]
  exact nofun

/-- A request of a context of the port's partition is served under a new number. -/
theorem tsRequest_serves (at_ : TsFree s port tag) (owned : (tsPart s port).isSome = true)
    (own : ctxPart s ctx = tsPart s port) :
    exec (.tsRequest port tag va ctx wr bus) s =
      .next (tsServe (fresh s).1 bus port tag ⟨s.nextId, va.setWidth 64, ctx, wr, .held 0, 0, 0⟩) := by
  have allowed : ¬ ((tsPart s port).isNone = true ∨ ctxPart s ctx ≠ tsPart s port) := by
    rintro (none_ | other)
    · rw [Option.isNone_iff_eq_none] at none_
      rw [none_] at owned
      cases owned
    · exact other own
  exact (if_neg at_.takes).trans ((if_neg at_.unused).trans (if_neg allowed))

theorem tsRequest_denies (at_ : TsFree s port tag)
    (denied : (tsPart s port).isNone = true ∨ ctxPart s ctx ≠ tsPart s port) :
    exec (.tsRequest port tag va ctx wr bus) s =
      .next (tsRefuse (note s { source := srcId 12 port 0, part := tsPart s port }) port tag 2) :=
  (if_neg at_.takes).trans ((if_neg at_.unused).trans (if_pos denied))

theorem tsServe_grants {x : TsTag} {pa sz : Nat} {pte : Word}
    (grant : translate s bus { owner := .service port tag, user := .service, ctx := x.ctx, va := x.va
                               acc := if x.wr then .write else .read } = (s', .ok pa pte sz)) :
    tsServe s bus port tag x =
      emit (putTag s' port tag { x with st := .given s'.tick false, page := x.va.toNat >>> sz, sz := sz })
        (.service port tag 0 (BitVec.ofNat 46 (pa / 4096)) (BitVec.ofNat 2 (sizeClass sz)) (BitVec.ofNat 2 (pteMT pte))
          (pteRM pte)) := by
  unfold tsServe
  rw [grant]

theorem tsServe_holds {x : TsTag} {k : Nat}
    (held : translate s bus { owner := .service port tag, user := .service, ctx := x.ctx, va := x.va
                              acc := if x.wr then .write else .read } = (s', .held k)) :
    tsServe s bus port tag x = putTag s' port tag { x with st := .held k } := by
  unfold tsServe
  rw [held]

theorem tsDone_frees {n : Nat} {b : Bool} {x : TsTag} (inside : port < s.build.tsPorts) (small : tag < 64)
    (ready : s.tp.ready = true) (used : Tab.find? s.tu.tags (tsKey port tag) = some x) (given_ : x.st = .given n b) :
    exec (.tsDone port tag) s = .next (dropTag s port tag) := by
  have takes : ¬ (s.build.tsPorts ≤ port ∨ 64 ≤ tag ∨ s.tp.ready = false) := by
    rw [ready]
    rintro (out | big | off)
    · omega
    · omega
    · cases off
  show execTsDone port tag s = _
  unfold execTsDone
  rw [if_neg takes, used]
  dsimp only
  rw [given_]

theorem tsHoldTimeout_reports {n : Nat} {x : TsTag} (used : Tab.find? s.tu.tags (tsKey port tag) = some x)
    (given_ : x.st = .given n false) (waited : (invWaiters s).contains (.ts x.id) = true) :
    exec (.tsHoldTimeout port tag) s = .next (putTag (report (reach s (n + 100000))
      { source := srcId 12 port 1, address := x.va, ctx := some x.ctx, part := tsPart s port } (Config.masterId 12 port))
      port tag { x with st := .given n true }) := by
  show execTsHoldTimeout port tag s = _
  unfold execTsHoldTimeout
  rw [used]
  dsimp only
  rw [given_]
  exact if_pos waited

end

section
variable {s : State} {set : SloeSet} {a b x : SloeEst}

/-! ### Sloe -/

/-- Twice the median of two equal values. -/
theorem median2_pair {n : Nat} : median2 [n, n] = 2 * n := by
  have sorted : sortBy (fun a b => decide (a ≤ b)) [n, n] = [n, n] := by simp [sortBy, insertBy]
  unfold median2
  dsimp only
  rw [sorted, List.length_cons, List.length_singleton]
  show n + n = 2 * n
  omega

/-- The slice that stands out of three is reported at the first such window, where CONSEC is 0. -/
theorem sloeSlice_reports (others : [x, a, b].filter (fun e => e.slice ≠ x.slice) = [a, b])
    (served : 64 ≤ x.served ∧ 64 ≤ a.served ∧ 64 ≤ b.served) (level : a.p99 = b.p99)
    (above : s.fc.sloeFactor.toNat * (2 * a.p99) ≤ 32 * x.p99) (once : s.fc.sloeConsec = 0)
    (unsaid : (Tab.get {} s.fc.sloe (sloeInst set * 64 + x.slice)).reported = false) :
    sloeSlice s set [x, a, b] x =
      note { s with fc := { s.fc with sloe := (Tab.set {} s.fc.sloe (sloeInst set * 64 + x.slice)
          ⟨min ((Tab.get {} s.fc.sloe (sloeInst set * 64 + x.slice)).runs + 1) 16, true⟩) } }
        { source := srcId 14 (sloeInst set) 0, info := BitVec.ofNat 16 x.slice } := by
  obtain ⟨own, first, second⟩ := served
  have enough : ¬ (x.served < 64 ∨ ([a, b].filter fun e => decide (64 ≤ e.served)).length < 2) := by
    have kept : ([a, b].filter fun e => decide (64 ≤ e.served)) = [a, b] := by simp [first, second]
    rw [kept]
    rintro (low | few)
    · omega
    · exact absurd few (Nat.lt_irrefl 2)
  have stands : s.fc.sloeFactor.toNat * median2 ([a, b].map (·.p99)) ≤ 32 * x.p99 := by
    show s.fc.sloeFactor.toNat * median2 [a.p99, b.p99] ≤ _
    rw [← level, median2_pair]
    exact above
  have due : s.fc.sloeConsec.toNat + 1 ≤ min ((Tab.get {} s.fc.sloe (sloeInst set * 64 + x.slice)).runs + 1) 16 := by
    rw [once]
    show 0 + 1 ≤ _
    omega
  unfold sloeSlice
  dsimp only
  rw [others, if_neg enough, if_pos stands, if_pos ⟨due, unsaid⟩]

/-- The window's estimates are those of the live slices. -/
theorem sloeWindowEnd_three {t : State} (ready : s.tp.ready = true)
    (live : sloeLive s set = [x.slice, a.slice, b.slice]) (first : sloeSlice s set [x, a, b] x = t) :
    exec (.sloeWindowEnd set [x, a, b]) s = .next (sloeSlice (sloeSlice t set [x, a, b] a) set [x, a, b] b) := by
  have all : ([x, a, b].filter fun e => (sloeLive s set).contains e.slice) = [x, a, b] := by
    rw [live]
    simp
  show execSloeWindowEnd set [x, a, b] s = _
  unfold execSloeWindowEnd
  dsimp only
  rw [all, if_pos ready]
  show Host.Outcome.next (sloeSlice (sloeSlice (sloeSlice s set [x, a, b] x) set [x, a, b] a) set [x, a, b] b) = _
  rw [first]

end

end Sys2Proof.Machine

open Sys2Proof.Machine

/-- Settles O42: each way to a grant passes the checks of the access. -/
theorem translationsObeyTheirLeaf : Obligations.TranslationsObeyTheirLeaf := by
  unfold Obligations.TranslationsObeyTheirLeaf
  refine ⟨?_, ?_⟩
  · intro bus r pa sz pte s grant
    obtain ⟨low, pass, at_⟩ := translate_granted grant
    obtain ⟨reads, writes, measured⟩ := checkAccess_pass pass
    exact ⟨low, reads, writes, measured, at_⟩
  · intro user ctx va acc bus s works t
    exact ⟨fun goes => (pageWalk_translates works).trans (congrArg _ (if_neg goes)),
      fun waits => (pageWalk_translates works).trans (congrArg _ (if_pos waits))⟩

/-- Settles O43: each register write by its own rule. -/
theorem invalidationsPoolsAndSlices : Obligations.InvalidationsPoolsAndSlices := by
  unfold Obligations.InvalidationsPoolsAndSlices
  refine ⟨⟨?_, ?_, ?_, ?_⟩, ?_, ?_, ?_, ?_, ?_, ?_, ?_⟩
  · intro walk part ctx s allowed idle x listed some
    have ends {t : State} {sc : InvScope} {i : Instr} (runs : exec i s = .next t) (drops : Dropped s sc walk t) :
        ∃ t, exec i s = .next t ∧ t.tu.invOp = .run ∧ t.mem = s.mem ∧
          (∀ e, e ∈ t.tu.l1 ↔ e ∈ s.tu.l1 ∧ sc.hits s e.ctx e.page e.sz = false) ∧
          (∀ e, e ∈ t.tu.l2 ↔ e ∈ s.tu.l2 ∧ sc.hits s e.ctx e.page e.sz = false) ∧ (walk = false → t.tu.wc = s.tu.wc) :=
      ⟨t, runs, drops.runs, drops.mem, drops.l1, drops.l2, drops.wc⟩
    simp only [List.mem_cons, List.not_mem_nil, or_false] at listed
    rcases listed with rfl | rfl | rfl | rfl
    · exact ends (congrArg Host.Outcome.next (if_pos allowed)) (invWrite_drops idle rfl)
    · exact ends (congrArg Host.Outcome.next (if_pos allowed)) (invWrite_drops idle rfl)
    · exact ends (congrArg Host.Outcome.next (if_pos allowed)) (invWrite_drops idle rfl)
    · exact ends (congrArg Host.Outcome.next (if_pos allowed)) (invWrite_drops idle (invRange_scope (some rfl)))
  · intro walk ctx s allowed idle empty
    exact ⟨_, congrArg Host.Outcome.next ((if_pos allowed).trans (invWrite_empty_range idle empty)), rfl, rfl, rfl⟩
  · intro i s runs released
    have free : ¬ i.waits.any (waitHolds s) = true := by
      rw [List.any_eq_true]
      rintro ⟨w, listed, holds⟩
      rw [released w listed] at holds
      cases holds
    refine (invalidationDone_next runs).trans ?_
    rw [if_neg free]
    rfl
  · intro i w s runs listed holds
    refine (invalidationDone_next runs).trans ?_
    rw [if_pos (List.any_eq_true.mpr ⟨w, listed, holds⟩)]
  · intro part cls v s allowed inside small
    refine ⟨_, poolAllocProduce_writes allowed ⟨inside, small⟩, ?_, ?_, rfl⟩
    · exact congrArg Pool.aProd (poolOf_updPool (f := fun x => { x with aProd := v }))
    · exact (congrArg Pool.aCons (poolOf_updPool (f := fun x => { x with aProd := v }))).trans rfl
  · intro part cls v bus s allowed inside small empty
    refine ⟨_, (poolReturnConsume_writes allowed ⟨inside, small⟩).trans
      (congrArg Host.Outcome.next (poolConsume_sets empty)), ?_, ?_, rfl⟩
    · exact congrArg Pool.rCons (poolOf_updPool (f := fun x => { x with rCons := v }))
    · exact (congrArg Pool.rProd (poolOf_updPool (f := fun x => { x with rCons := v }))).trans rfl
  · intro part cls v bus s allowed inside small
    exact poolReturnConsume_writes allowed ⟨inside, small⟩
  · intro part cls f l s works inside small waits
    exact poolReturnWaitNote_notes works ⟨inside, small⟩ waits
  · intro mask s allowed idle last new narrow
    refine ⟨_, congrArg Host.Outcome.next ((if_pos allowed).trans (pageRetireWrite_retires idle last new)), rfl, rfl, rfl, ?_⟩
    intro i present
    refine Iff.trans (mem_liveSlices (s := { s with tu := { s.tu with
      retire := BitVec.ofNat 16 (mask.toNat &&& maskOf s.build.pageSlices), retBusy := true, l1 := [] } }) present) ?_
    exact Iff.of_eq (congrArg (· = false) (getLsbD_masked present narrow))
  · intro mask s last
    refine congrArg Host.Outcome.next ?_
    rw [pageRetireWrite_last last]
    exact ite_self s
  · intro s busy
    exact congrArg Host.Outcome.next (if_pos busy)

/-- Settles O44: each answer of a service port, and a slice that stands out of three. -/
theorem servicePortsAndSloe : Obligations.ServicePortsAndSloe := by
  unfold Obligations.ServicePortsAndSloe
  refine ⟨?_, ?_, ?_, ?_, ?_, ?_⟩
  · intro port tag va ctx wr bus pa sz pte s s' inside small works free owned own grant
    refine ⟨_, (tsRequest_serves ⟨inside, small, works, free⟩ owned own).trans
      (congrArg Host.Outcome.next (tsServe_grants grant)), rfl, ?_, List.mem_append_right _ (List.mem_singleton.mpr rfl)⟩
    exact congrArg (Option.map _) Tab.find_insert_same
  · intro port tag va ctx wr bus s inside small works free denied
    exact tsRequest_denies ⟨inside, small, works, free⟩ denied
  · intro port tag k va ctx wr bus s s' inside small works free owned own held
    exact (tsRequest_serves ⟨inside, small, works, free⟩ owned own).trans (congrArg Host.Outcome.next (tsServe_holds held))
  · intro port tag n b x s inside small ready used given_
    exact ⟨_, tsDone_frees inside small ready used given_, Tab.find_erase_same, rfl, rfl⟩
  · intro port tag n x s used given_ waited
    exact tsHoldTimeout_reports used given_ waited
  · intro set a b x s ready live first second apart own firstServed secondServed level above once unsaid
    have others : [x, a, b].filter (fun e => e.slice ≠ x.slice) = [a, b] := by
      simp [Ne.symm first, Ne.symm second]
    exact ⟨_, _, sloeWindowEnd_three ready live (sloeSlice_reports others ⟨own, firstServed, secondServed⟩ level above once
      unsaid), rfl, rfl⟩

end

section
/-! PROOFS. Keyed rows (spec file 06): lookups, changes of the index, key commands, and what is kept of tables. -/

open Sys2Proof

namespace Sys2Proof.Machine

section
variable {s s1 s2 : State} {bus : Bus} {u : KeyUse} {r : TrReq} {ver i : Nat} {key : Word} {d d1 d2 : List Byte}

/-! ### Lookups -/

/-- A slot of a bucket answers a key at a version. -/
def slotAnswers (ver : Nat) (key : Word) (d : List Byte) (i : Nat) : Bool :=
  decide ((slotAt d i).key = key) && (slotAt d i).visible ver

theorem slotAnswers_false_iff :
    slotAnswers ver key d i = false ↔ (slotAt d i).key ≠ key ∨ (slotAt d i).visible ver = false := by
  rw [slotAnswers, Bool.and_eq_false_iff, decide_eq_false_iff_not]

/-- The first slot in order that answers is the one found. -/
theorem matchIdx_first (inside : i < 8) (match_ : (slotAt d i).key = key) (visible : (slotAt d i).visible ver = true)
    (first : ∀ j < i, (slotAt d j).key ≠ key ∨ (slotAt d j).visible ver = false) : matchIdx ver key d = some i := by
  have answers : slotAnswers ver key d i = true := Bool.and_eq_true_iff.mpr ⟨decide_eq_true match_, visible⟩
  refine List.find?_range_eq_some.mpr ⟨answers, List.mem_range.mpr inside, fun j before => ?_⟩
  exact Bool.not_eq_true' _ |>.mpr (slotAnswers_false_iff.mpr (first j before))

theorem matchIdx_none (absent : ∀ j < 8, (slotAt d j).key ≠ key ∨ (slotAt d j).visible ver = false) :
    matchIdx ver key d = none :=
  List.find?_range_eq_none.mpr fun j inside =>
    (Bool.not_eq_true' _).mpr (slotAnswers_false_iff.mpr (absent j inside))

/-- The candidate buckets of a key in a table, and the key-slice pair that looks it up. -/
def cand (u : KeyUse) (key : Word) : Nat × Nat := keyBuckets u.desc.seed u.desc.log2 key

def keyPair (s : State) (u : KeyUse) (key : Word) : Nat := keyPairOf s (keyHash1 u.desc.seed key)

/-- A lookup once the first bucket has been read. -/
theorem keyFind_first
    (read : bucketGet bus u r (cand u key).1 { s with kt := { s.kt with lookups := s.kt.lookups + 1 } } = .ok d1 s1)
    (found : matchIdx ver key d1 = some i) :
    keyFind bus u r ver key s =
      .ok (some (slotAt d1 i).row) (noteReserved s1 u (cand u key).1 d1 (keyPair s u key)) := by
  unfold keyFind
  refine (act_bind_ok act_modify).trans ((act_bind_ok act_get).trans ((act_bind_ok read).trans
    ((act_bind_ok act_modify).trans ?_)))
  rw [found]
  rfl

section
variable
  (read1 : bucketGet bus u r (cand u key).1 { s with kt := { s.kt with lookups := s.kt.lookups + 1 } } = .ok d1 s1)
  (read2 : bucketGet bus u r (cand u key).2 (noteReserved s1 u (cand u key).1 d1 (keyPair s u key)) = .ok d2 s2)
  (none1 : matchIdx ver key d1 = none)
include read1 read2 none1

theorem keyFind_second (found : matchIdx ver key d2 = some i) :
    keyFind bus u r ver key s =
      .ok (some (slotAt d2 i).row) (noteReserved s2 u (cand u key).2 d2 (keyPair s u key)) := by
  unfold keyFind
  refine (act_bind_ok act_modify).trans ((act_bind_ok act_get).trans ((act_bind_ok read1).trans
    ((act_bind_ok act_modify).trans ?_)))
  rw [none1]
  refine (act_bind_ok read2).trans ((act_bind_ok act_modify).trans ?_)
  rw [found]
  rfl

theorem keyFind_absent (none2 : matchIdx ver key d2 = none) : ∃ t, keyFind bus u r ver key s = .ok none t := by
  let t := noteReserved s2 u (cand u key).2 d2 (keyPair s u key)
  refine ⟨{ t with kt := { t.kt with absent := t.kt.absent + 1 } }, ?_⟩
  unfold keyFind
  refine (act_bind_ok act_modify).trans ((act_bind_ok act_get).trans ((act_bind_ok read1).trans
    ((act_bind_ok act_modify).trans ?_)))
  rw [none1]
  refine (act_bind_ok read2).trans ((act_bind_ok act_modify).trans ?_)
  rw [none2]
  exact (act_bind_ok act_modify).trans rfl

end

/-- What KEY_LOOKUP does with the row that it finds, or with none. -/
def lookupEnds (bus : Bus) (id e : Nat) (w : BagWork) (x : BagEnt) (s : State) (row : Option Nat) (u : KeyUse) : State :=
  match row with
  | some k => startRow (setEnt s id e fun x => { x with st := .row k }) bus id e
  | none =>
    if u.desc.policy = polFault then
      bagFail s bus id stKeyFault 0 x.key (srcId 5 (keyPairOf s (keyHash1 u.desc.seed x.key)) 0)
    else missEnt s bus id e w x

theorem keyLookup_ends {id e : Nat} {w : BagWork} {x : BagEnt} {row : Option Nat} (works : runsWork s = true)
    (bag : bagOf s id = some w) (ent : Tab.find? w.ents e = some x) (waits : x.st = .lookup)
    (found : lookupEnt bus id e w x (cmdOf s id) s = .ok (row, u) s1) :
    exec (.keyLookup id e bus) s = .next (sendPools (lookupEnds bus id e w x s1 row u) bus id) := by
  have goes : keyLookup s bus id e = lookupEnds bus id e w x s1 row u := by
    have lookup : ¬ x.st ≠ .lookup := fun other => other waits
    unfold keyLookup
    rw [bag]
    dsimp only
    rw [ent]
    dsimp only
    rw [if_neg lookup]
    exact runAct_ok found
  refine congrArg Host.Outcome.next ((if_pos works).trans ?_)
  rw [goes]

/-! ### One entry of KEY_ADMIT, one key of KEY_EVICT -/

variable {tgt row : Nat} {v : VLine}

theorem applyKey_evict_absent (absent : visibleAt bus u r tgt key s = .ok none s1) :
    applyKey bus u r tgt v .evict key row s = .ok (some 0) s1 := by
  unfold applyKey
  exact act_bind_ok absent

theorem applyKey_upsert_absent_waits (absent : visibleAt bus u r tgt key s = .ok none s1) (drains : v.draining = true) :
    applyKey bus u r tgt v .upsert key row s = .ok none s1 := by
  unfold applyKey
  refine (act_bind_ok absent).trans ?_
  rw [drains]
  rfl

/-- A key that is absent is placed, or finds no place. -/
def insertKey (bus : Bus) (u : KeyUse) (r : TrReq) (tgt : Nat) (v : VLine) (key : Word) (row : Nat) : Act (Option Byte) := do
  let ok ← placeKey bus u r v.floor ⟨key, row, tgt, kLive⟩
  if ok then modify fun s => markWrote s u.idx tgt v
  pure (some (if ok then 0x00 else 0x04))

theorem applyKey_insert_absent (absent : visibleAt bus u r tgt key s = .ok none s1) :
    applyKey bus u r tgt v .insert key row s = insertKey bus u r tgt v key row s1 := by
  unfold applyKey
  refine (act_bind_ok absent).trans ?_
  cases v.draining with
  | true => rfl
  | false => rfl

section
variable {b : Nat} {old : KSlot} (found : visibleAt bus u r tgt key s = .ok (some (b, i, old)) s1)
include found

theorem applyKey_insert_present : applyKey bus u r tgt v .insert key row s = .ok (some 0x01) s1 := by
  unfold applyKey
  exact act_bind_ok found

theorem applyKey_upsert_same (same : old.row = row) : applyKey bus u r tgt v .upsert key row s = .ok (some 0x03) s1 := by
  have keeps : KeyOp.upsert = .upsert ∧ old.row = row := ⟨rfl, same⟩
  unfold applyKey
  refine (act_bind_ok found).trans ?_
  dsimp only
  rw [if_neg (nofun : ¬ KeyOp.upsert = .insert), if_pos keeps]
  rfl

theorem applyKey_evict_waits (drains : v.draining = true) : applyKey bus u r tgt v .evict key row s = .ok none s1 := by
  have other : ¬ (KeyOp.evict = .upsert ∧ old.row = row) := fun both => nomatch both.1
  unfold applyKey
  refine (act_bind_ok found).trans ?_
  dsimp only
  rw [if_neg (nofun : ¬ KeyOp.evict = .insert), if_neg other, drains]
  rfl

theorem applyKey_upsert_waits (drains : v.draining = true) (new : old.row ≠ row) :
    applyKey bus u r tgt v .upsert key row s = .ok none s1 := by
  have other : ¬ (KeyOp.upsert = .upsert ∧ old.row = row) := fun both => new both.2
  unfold applyKey
  refine (act_bind_ok found).trans ?_
  dsimp only
  rw [if_neg (nofun : ¬ KeyOp.upsert = .insert), if_neg other, drains]
  rfl

end

/-- The slot of a key is rewritten where it stands. -/
def changeSlot (bus : Bus) (u : KeyUse) (r : TrReq) (tgt : Nat) (v : VLine) (b i : Nat) (slot : KSlot) :
    Act (Option Byte) := do
  probeBucket bus u r b
  slotPut bus u r b i slot
  modify fun s => markWrote s u.idx tgt v
  pure (some 0x02)

/-- UPSERT of a slot that another version still sees: the new row is placed beside the old one, which then becomes DYING. -/
def upsertBeside (bus : Bus) (u : KeyUse) (r : TrReq) (tgt : Nat) (v : VLine) (key : Word) (row b : Nat) (old : KSlot) :
    Act (Option Byte) := do
  probeBucket bus u r b
  forAll (probeBucket bus u r) [(cand u key).1, (cand u key).2]
  let ok ← placeKey bus u r v.floor ⟨key, row, tgt, kLive⟩
  if !ok then pure (some 0x04)
  else do
    let o ← findOld bus u r old
    match o with
    | some (b, i) => slotPut bus u r b i { old with ver := tgt, kind := kDying }
    | none => pure ()
    modify fun s => markWrote s u.idx tgt v
    pure (some 0x02)

section
variable {b : Nat} {old : KSlot} (found : visibleAt bus u r tgt key s = .ok (some (b, i, old)) s1)
  (settled : v.draining = false)
include found settled

theorem applyKey_evict_in_place (own : old.kind = kLive ∧ old.ver = tgt) :
    applyKey bus u r tgt v .evict key row s = changeSlot bus u r tgt v b i emptySlot s1 := by
  have other : ¬ (KeyOp.evict = .upsert ∧ old.row = row) := fun both => nomatch both.1
  unfold applyKey
  refine (act_bind_ok found).trans ?_
  dsimp only
  rw [if_neg (nofun : ¬ KeyOp.evict = .insert), if_neg other, settled]
  simp only [if_pos own]
  rfl

theorem applyKey_upsert_in_place (own : old.kind = kLive ∧ old.ver = tgt) (new : old.row ≠ row) :
    applyKey bus u r tgt v .upsert key row s = changeSlot bus u r tgt v b i ⟨key, row, tgt, kLive⟩ s1 := by
  have other : ¬ (KeyOp.upsert = .upsert ∧ old.row = row) := fun both => new both.2
  unfold applyKey
  refine (act_bind_ok found).trans ?_
  dsimp only
  rw [if_neg (nofun : ¬ KeyOp.upsert = .insert), if_neg other, settled]
  simp only [if_pos own]
  rfl

theorem applyKey_evict_dying (shared : ¬ (old.kind = kLive ∧ old.ver = tgt)) :
    applyKey bus u r tgt v .evict key row s =
      changeSlot bus u r tgt v b i { old with ver := tgt, kind := kDying } s1 := by
  have other : ¬ (KeyOp.evict = .upsert ∧ old.row = row) := fun both => nomatch both.1
  unfold applyKey
  refine (act_bind_ok found).trans ?_
  dsimp only
  rw [if_neg (nofun : ¬ KeyOp.evict = .insert), if_neg other, settled]
  simp only [if_neg shared]
  rfl

theorem applyKey_upsert_beside (shared : ¬ (old.kind = kLive ∧ old.ver = tgt)) (new : old.row ≠ row) :
    applyKey bus u r tgt v .upsert key row s = upsertBeside bus u r tgt v key row b old s1 := by
  have other : ¬ (KeyOp.upsert = .upsert ∧ old.row = row) := fun both => new both.2
  unfold applyKey
  refine (act_bind_ok found).trans ?_
  dsimp only
  rw [if_neg (nofun : ¬ KeyOp.upsert = .insert), if_neg other, settled]
  simp only [if_neg shared, Bool.false_and, Bool.false_eq_true, reduceCtorEq, if_false, upsertBeside, cand] <;> rfl

end

section
variable {b : Nat} {old : KSlot} {t2 t3 t4 : State} (probed : probeBucket bus u r b s1 = .ok () t2)
  (both : forAll (probeBucket bus u r) [(cand u key).1, (cand u key).2] t2 = .ok () t3)
include probed both

theorem upsertBeside_full (full : placeKey bus u r v.floor ⟨key, row, tgt, kLive⟩ t3 = .ok false t4) :
    upsertBeside bus u r tgt v key row b old s1 = .ok (some 0x04) t4 := by
  unfold upsertBeside
  exact (act_bind_ok probed).trans ((act_bind_ok both).trans (act_bind_ok full))

theorem upsertBeside_places {b' i' : Nat} {t5 t6 : State}
    (placed : placeKey bus u r v.floor ⟨key, row, tgt, kLive⟩ t3 = .ok true t4)
    (at_ : findOld bus u r old t4 = .ok (some (b', i')) t5)
    (dies : slotPut bus u r b' i' { old with ver := tgt, kind := kDying } t5 = .ok () t6) :
    upsertBeside bus u r tgt v key row b old s1 = .ok (some 0x02) (markWrote t6 u.idx tgt v) := by
  unfold upsertBeside
  refine (act_bind_ok probed).trans ((act_bind_ok both).trans ((act_bind_ok placed).trans ((act_bind_ok at_).trans ?_)))
  exact (act_bind_ok dies).trans (act_bind_ok act_modify)

end

end

end Sys2Proof.Machine

open Sys2Proof.Machine

/-- Settles O45: the first slot that answers is found, and each case of an entry does what its row says. -/
theorem keysAreFoundAndChanged : Obligations.KeysAreFoundAndChanged := by
  unfold Obligations.KeysAreFoundAndChanged
  refine ⟨⟨?_, ?_, ?_⟩, ?_⟩
  · intro bus u r ver i key d1 s s1 inside read match_ visible first
    exact keyFind_first read (matchIdx_first inside match_ visible first)
  · intro bus u r ver i key d1 d2 s s1 s2 inside read1 read2 absent
    refine ⟨?_, ?_⟩
    · intro match_ visible first
      exact ⟨_, keyFind_second read1 read2 (matchIdx_none absent) (matchIdx_first inside match_ visible first)⟩
    · intro absent2
      exact keyFind_absent read1 read2 (matchIdx_none absent) (matchIdx_none absent2)
  · intro id e bus w x row u s s' works bag ent waits found
    have ends := keyLookup_ends works bag ent waits found
    refine ⟨?_, ?_, ?_⟩
    · rintro k rfl
      exact ends
    · rintro rfl fault
      exact ends.trans (congrArg (fun t => Host.Outcome.next (sendPools t bus id)) (if_pos fault))
    · rintro rfl milder
      exact ends.trans (congrArg (fun t => Host.Outcome.next (sendPools t bus id)) (if_neg milder))
  · intro bus u r tgt row v key s s1
    refine ⟨?_, ?_⟩
    · intro absent
      refine ⟨applyKey_evict_absent absent, applyKey_upsert_absent_waits absent, ?_⟩
      refine (applyKey_insert_absent absent).trans ?_
      show EStateM.bind (placeKey bus u r v.floor ⟨key, row, tgt, kLive⟩) _ s1 = _
      unfold EStateM.bind
      cases placeKey bus u r v.floor ⟨key, row, tgt, kLive⟩ s1 with
      | error e s2 => rfl
      | ok placed s2 =>
        cases placed with
        | true => rfl
        | false => rfl
    · intro b i old found change
      have changes (slot : KSlot) : changeSlot bus u r tgt v b i slot s1 = change slot := by
        cases probed : probeBucket bus u r b s1 with
        | error e s2 =>
          refine (act_bind_error probed).trans ?_
          simp only [change, probed]
        | ok _ s2 =>
          refine (act_bind_ok probed).trans ?_
          cases written : slotPut bus u r b i slot s2 with
          | error e s3 =>
            refine (act_bind_error written).trans ?_
            simp only [change, probed, written]
          | ok _ s3 =>
            refine (act_bind_ok written).trans ((act_bind_ok act_modify).trans ?_)
            simp only [change, probed, written]
            rfl
      refine ⟨applyKey_insert_present found, applyKey_upsert_same found, ?_, ?_, ?_⟩
      · intro drains
        exact ⟨applyKey_evict_waits found drains, applyKey_upsert_waits found drains⟩
      · intro settled own
        exact ⟨(applyKey_evict_in_place found settled own).trans (changes _),
          fun new => (applyKey_upsert_in_place found settled own new).trans (changes _)⟩
      · intro settled shared
        refine ⟨(applyKey_evict_dying found settled shared).trans (changes _), ?_⟩
        intro s2 s3 s4 new probed both
        have beside := applyKey_upsert_beside found settled shared new
        exact ⟨fun full => beside.trans (upsertBeside_full probed both full),
          fun b' i' s5 s6 placed at_ dies => beside.trans (upsertBeside_places probed both placed at_ dies)⟩

end

section
/-! PROOFS. Key commands, invalidations of key translation, key slices and the admission signal (R201 to R219). -/

open Sys2Proof

namespace Sys2Proof.Machine

section
variable {s s1 s2 s3 s4 : State} {bus : Bus} {id tgt : Nat} {c : Cmd} {o : Obj} {v : VLine} {u : KeyUse} {evict done : Bool}

/-! ### KEY_ADMIT and KEY_EVICT -/

/-- A key command takes its target version, or goes on with the one it took. -/
def TakesTarget (id tgt : Nat) (c : Cmd) (v : VLine) (s s' : State) : Prop :=
  (c.work = .none ∧ v.opening = false ∧ v.aborting = false ∧ tgt = (if v.pending then v.ver + 1 else v.ver) ∧
      s' = updCmd s id (fun c => { c with work := .key tgt false })) ∨ (c.work = .key tgt false ∧ s' = s)

section
variable (read : objGet bus (hIndex (c.raw.w 1)) s = .ok o s1)
  (line : vlineGet bus (cmdReq id c .key 0 .read) o s1 = .ok v s2)
include read line

theorem keyRun_takes {s2' : State} (takes : TakesTarget id tgt c v s2 s2') :
    keyRun bus id evict c s = keyAct bus id evict tgt v c s2' := by
  unfold keyRun
  refine (act_bind_ok read).trans ((act_bind_ok line).trans ?_)
  rcases takes with ⟨fresh_, opened, whole, rfl, rfl⟩ | ⟨begun, rfl⟩
  · rw [fresh_, opened, whole]
    exact act_bind_ok act_modify
  · rw [begun]

/-- While a version opens or is aborted, no target is taken. -/
theorem keyRun_waits (fresh_ : c.work = .none) (changing : v.opening = true ∨ v.aborting = true) :
    keyRun bus id evict c s = .ok () s2 := by
  have waits : (v.opening || v.aborting) = true := Bool.or_eq_true_iff.mpr changing
  unfold keyRun
  refine (act_bind_ok read).trans ((act_bind_ok line).trans ?_)
  rw [fresh_, waits]
  rfl

end

section
variable (use : keyUse bus (cmdReq id c .key 0 .read) (hIndex (c.raw.w 1)) s2 = .ok u s3)
include use

/-- The entries that are left of a KEY_ADMIT. -/
def admitRest (bus : Bus) (id : Nat) (c : Cmd) (u : KeyUse) (tgt : Nat) (v : VLine) : Act Bool :=
  admitLoop bus id c u (cmdReq id c .key 0 .read) tgt v (if bits (c.raw.w 4) 1 0 = 0 then .insert else .upsert)
    ((c.raw.w 3).toNat - c.progress) c.progress

theorem keyAct_admits (runs : admitRest bus id c u tgt v s3 = .ok true s4) {t : State}
    (advances : advanceCons bus u (cmdReq id c .key 0 .read) (bits (c.raw.w 4) 63 32) s4 = .ok () t) :
    keyAct bus id false tgt v c s2 = .ok () (endCmd t id stOk 0) := by
  unfold keyAct
  exact (act_bind_ok use).trans ((act_bind_ok runs).trans (act_bind_ok advances))

theorem keyAct_admit_stops (runs : admitRest bus id c u tgt v s3 = .ok false s4) :
    keyAct bus id false tgt v c s2 = .ok () (updCmd s4 id fun c => { c with work := .key tgt true, phase := .running }) := by
  unfold keyAct
  exact (act_bind_ok use).trans (act_bind_ok runs)

theorem keyAct_evicts
    (runs : evictLoop bus id c u (cmdReq id c .key 0 .read) tgt v ((c.raw.w 3).toNat - c.progress) c.progress s3 = .ok done s4) :
    keyAct bus id true tgt v c s2 = .ok () (if done = true then endCmd s4 id stOk 0
      else updCmd s4 id fun c => { c with work := .key tgt true, phase := .running }) := by
  unfold keyAct
  refine (act_bind_ok use).trans ((act_bind_ok runs).trans ?_)
  cases done with
  | true => rfl
  | false => rfl

end

/-- A key command that waited for the floor goes on as its own kind. -/
theorem keyCommandResume_goes (cmd : cmdOf s id = some c) (works : runsWork s = true) (running : c.phase = .running)
    (waits : c.work = .key tgt true) :
    exec (.keyCommandResume id bus) s =
      .next (runCmd (updCmd s id fun c => { c with phase := .dispatched, work := .key tgt false }) id c.raw.opcode
        (keyRun bus id (decide (c.raw.opcode = opKeyEvict)))) := by
  show execKeyCommandResume id bus s = _
  unfold execKeyCommandResume
  rw [cmd]
  dsimp only
  rw [waits]
  exact if_pos ⟨running, works⟩

/-! ### Invalidations of key translation -/

theorem ktInvWrite_all (idle : s.kt.invOp.busy = false) (sliced : s.build.keySlices ≠ 0) :
    ktInvWrite s 1 0 = ktInvStart { s with kt := { s.kt with invIndex := 0 } } none := by
  unfold ktInvWrite
  rw [idle, decide_eq_false sliced]
  rfl

theorem ktInvWrite_table {obj : BitVec 32} (idle : s.kt.invOp.busy = false) (sliced : s.build.keySlices ≠ 0) :
    ktInvWrite s 2 obj = ktInvStart { s with kt := { s.kt with invIndex := obj } } (some obj.toNat) := by
  unfold ktInvWrite
  rw [idle, decide_eq_false sliced]
  rfl

theorem ktInvWrite_unsliced {op : Nat} {obj : BitVec 32} (unsliced : s.build.keySlices = 0) : ktInvWrite s op obj = s := by
  unfold ktInvWrite
  rw [decide_eq_true unsliced, Bool.or_true]
  rfl

/-- What a filter over the tables outside a scope of all keeps: nothing. -/
theorem filter_outside_all {α : Type} {l : List α} {f : α → Nat} :
    (l.filter fun x => !(none : Option Nat).all (· = f x)) = [] :=
  List.filter_eq_nil_iff.mpr fun _ _ => Bool.false_ne_true

/-- What a filter over the tables outside a scope of one keeps: the entries of the others. -/
theorem mem_filter_outside {α : Type} {l : List α} {f : α → Nat} {k : Nat} {x : α} :
    (x ∈ l.filter fun x => !(some k).all (· = f x)) ↔ x ∈ l ∧ f x ≠ k := by
  refine List.mem_filter.trans (and_congr_right fun _ => ?_)
  rw [Bool.not_eq_true', Option.all_some, decide_eq_false_iff_not]
  exact ne_comm

/-! ### Key slices -/

theorem keyRetireWrite_retires {mask : Nat} (idle : s.kt.retBusy = false)
    (last : mask &&& maskOf s.build.keySlices ≠ maskOf s.build.keySlices) :
    keyRetireWrite s mask = { s with kt := { s.kt with
      retire := BitVec.ofNat 32 (mask &&& maskOf s.build.keySlices)
      retBusy := decide (mask &&& maskOf s.build.keySlices ≠ s.kt.retire.toNat) } } := by
  unfold keyRetireWrite
  dsimp only
  rw [idle, decide_eq_false last]
  rfl

theorem keyRetireWrite_last {mask : Nat}
    (last : mask &&& maskOf s.build.keySlices = maskOf s.build.keySlices) : keyRetireWrite s mask = s := by
  unfold keyRetireWrite
  dsimp only
  rw [decide_eq_true last, Bool.or_true]
  rfl

theorem mem_liveKeySlices {i : Nat} (present : i < s.build.keySlices) :
    i ∈ liveKeySlices s ↔ s.kt.retire.getLsbD i = false := by
  unfold liveKeySlices
  rw [List.mem_filter, List.mem_range, Bool.not_eq_true']
  exact and_iff_right present

theorem getLsbD_masked32 {mask : BitVec 32} {n i : Nat} (inside : i < n) (narrow : n ≤ 32) :
    (BitVec.ofNat 32 (mask.toNat &&& maskOf n)).getLsbD i = mask.getLsbD i := by
  have fits : i < 32 := by omega
  rw [BitVec.getLsbD_ofNat, decide_eq_true fits, Bool.true_and, Nat.testBit_and, maskOf, Nat.testBit_two_pow_sub_one,
    decide_eq_true inside, Bool.and_true]
  rfl

/-! ### The admission signal -/

theorem admitEventSignal_starts {obj : BitVec 32} {x : KeyUse × Word}
    (unsent : (Tab.get {} s.kt.tables obj.toNat).unsent = true) (works : runsWork s = true)
    (posted : admitPosted bus obj.toNat (match (Tab.get {} s.kt.tables obj.toNat).lastSig with
      | some k => reach s (k + 1000)
      | none => s) = .ok x s1) :
    exec (.admitEventSignal obj bus) s = .next (admitStart bus obj.toNat s1 x) := by
  have goes : ¬ (!(Tab.get {} s.kt.tables obj.toNat).unsent || !runsWork s) = true := by
    rw [unsent, works]
    exact nofun
  exact (if_neg goes).trans (congrArg Host.Outcome.next (runAct_ok posted))

theorem admitPosted_reads {i : Nat} {l : CtrlLine}
    (use : keyUse bus { owner := .free, user := .key, ctx := 0, va := 0, acc := .read } i s = .ok u s1)
    (line : ctrlGet bus u { owner := .free, user := .key, ctx := 0, va := 0, acc := .read } 0 s1 = .ok l s2) :
    admitPosted bus i s = .ok (u, BitVec.ofNat 64 l.posted) s2 := by
  unfold admitPosted
  exact (act_bind_ok use).trans (act_bind_ok line)

end

end Sys2Proof.Machine

open Sys2Proof.Machine

/-- Settles O46: a key command by the stage it is at, and each register by its own rule. -/
theorem keyCommandsAndCaches : Obligations.KeyCommandsAndCaches := by
  unfold Obligations.KeyCommandsAndCaches
  refine ⟨⟨?_, ?_, ?_, ?_⟩, ?_, ?_, ?_, ?_, ?_, ?_, ?_, ?_, ?_⟩
  · intro id tgt c bus o v u done s s1 s2 s2' s3 s4 at_ read r line takes use runs
    refine ⟨?_, ?_⟩
    · rintro s5 rfl advances
      exact congrArg Host.Outcome.next (runCmd_ok at_ ((keyRun_takes read line takes).trans (keyAct_admits use runs advances)))
    · rintro rfl
      exact congrArg Host.Outcome.next (runCmd_ok at_ ((keyRun_takes read line takes).trans (keyAct_admit_stops use runs)))
  · intro id tgt c bus o v u done s s1 s2 s2' s3 s4 at_ read r line takes use runs
    exact congrArg Host.Outcome.next (runCmd_ok at_ ((keyRun_takes read line takes).trans (keyAct_evicts use runs)))
  · intro id op tgt c bus s kind cmd works running waits code
    refine ⟨(keyCommandResume_goes cmd works running waits).trans ?_, _, keyCommandResume_goes cmd works running waits⟩
    rcases kind with rfl | rfl
    · rw [code]
      rfl
    · rw [code]
      rfl
  · intro id op c bus o v s s1 s2 kind at_ fresh_ read line changing
    rcases kind with rfl | rfl
    · exact congrArg Host.Outcome.next (runCmd_ok at_ (keyRun_waits read line fresh_ changing))
    · exact congrArg Host.Outcome.next (runCmd_ok at_ (keyRun_waits read line fresh_ changing))
  · intro s allowed idle sliced
    exact ⟨_, congrArg Host.Outcome.next ((if_pos allowed).trans (ktInvWrite_all idle sliced)), rfl, filter_outside_all,
      filter_outside_all, filter_outside_all, rfl⟩
  · intro obj s allowed idle sliced
    refine ⟨_, congrArg Host.Outcome.next ((if_pos allowed).trans (ktInvWrite_table idle sliced)), rfl, rfl, rfl, ?_, ?_, ?_⟩
    · intro l
      exact mem_filter_outside.trans (and_congr_right fun _ => not_congr BitVec.toNat_inj)
    · intro e
      exact mem_filter_outside
    · intro e
      exact mem_filter_outside.trans (and_congr_right fun _ => not_congr BitVec.toNat_inj)
  · intro obj s unsliced
    have same (op : Nat) (obj : BitVec 32) : (if barOk s then ktInvWrite s op obj else s) = s := by
      rw [ktInvWrite_unsliced unsliced]
      exact ite_self s
    exact ⟨congrArg Host.Outcome.next (same 1 0), congrArg Host.Outcome.next (same 2 obj)⟩
  · intro s busy
    refine ⟨?_, ?_⟩
    · intro released
      have free : s.kt.invHeld.any (keyHeld s) = false := List.any_eq_false.mpr fun x listed => by
        rw [released x listed]
        exact Bool.false_ne_true
      refine congrArg Host.Outcome.next (if_pos ?_)
      rw [busy, free]
      rfl
    · intro x listed held
      have waits : s.kt.invHeld.any (keyHeld s) = true := List.any_eq_true.mpr ⟨x, listed, held⟩
      refine congrArg Host.Outcome.next (if_neg ?_)
      rw [waits, Bool.not_true, Bool.and_false]
      exact Bool.false_ne_true
  · intro mask s allowed idle narrow last
    refine ⟨_, congrArg Host.Outcome.next ((if_pos allowed).trans (keyRetireWrite_retires idle last)), rfl, rfl, ?_⟩
    intro i present
    refine Iff.trans (mem_liveKeySlices (s := { s with kt := { s.kt with
      retire := BitVec.ofNat 32 (mask.toNat &&& maskOf s.build.keySlices)
      retBusy := decide (mask.toNat &&& maskOf s.build.keySlices ≠ s.kt.retire.toNat) } }) present) ?_
    exact Iff.of_eq (congrArg (· = false) (getLsbD_masked32 present narrow))
  · intro mask s last
    refine congrArg Host.Outcome.next ?_
    rw [keyRetireWrite_last last]
    exact ite_self s
  · intro s busy
    exact congrArg Host.Outcome.next (if_pos busy)
  · intro obj bus u posted s s' unsent works read t
    have starts := admitEventSignal_starts unsent works read
    refine ⟨?_, ?_, ?_⟩
    · intro device
      exact starts.trans (congrArg Host.Outcome.next (if_neg (ne_true_of_eq_false device)))
    · intro host issues
      exact starts.trans (congrArg Host.Outcome.next ((if_pos host).trans (if_pos issues)))
    · intro host silent
      exact starts.trans (congrArg Host.Outcome.next ((if_pos host).trans (if_neg (ne_true_of_eq_false silent))))
  · intro bus i u c s s1 s2 use line
    exact admitPosted_reads use line

end

section
/-! PROOFS. Table versions (spec file 07): a pending version opens, is aborted or flips, and the old one retires. -/

open Sys2Proof

namespace Sys2Proof.Machine

theorem okCmd_ends {s : State} {id : Nat} : okCmd id s = .ok () (endCmd s id stOk 0) := rfl

section
variable {s s1 s2 s3 s4 s5 s6 : State} {bus : Bus} {id i : Nat} {c : Cmd} {o : Obj} {v v' : VLine}

/-! ### TABLE_OPEN_VERSION -/

theorem tableOpen_row (at_ : Dispatched s id opOpenVersion c) (form : bits (c.raw.w 2) 1 0 = 0) :
    exec (.tableOpen id bus) s = .next (runCmd s id opOpenVersion (openAct bus id)) := by
  show execTableOpen id bus s = _
  unfold execTableOpen
  rw [at_.cmd]
  exact if_pos form

theorem tableAbort_row (at_ : Dispatched s id opOpenVersion c) (form : bits (c.raw.w 2) 1 0 = 1) :
    exec (.tableAbort id bus) s = .next (runCmd s id opOpenVersion (abortAct bus id)) := by
  show execTableAbort id bus s = _
  unfold execTableAbort
  rw [at_.cmd]
  exact if_pos form

/-- The line reads PENDING, and the command has ended. -/
theorem openDone_ends (line : vlineGet bus (cmdReq id c .engine 0 .read) o s = .ok v s1)
    (put : vlinePut bus (cmdReq id c .engine 0 .read) i o { v with cow := 0, pending := true, opening := false } s1 = .ok () s2) :
    openDone bus id c i o s =
      .ok () (wwPump (endCmd (updTable s2 i fun t => { t with opened := true, wrote := false }) id stOk 0) bus) := by
  unfold openDone
  exact (act_bind_ok line).trans ((act_bind_ok put).trans ((act_bind_ok act_modify).trans ((act_bind_ok okCmd_ends).trans
    act_modify)))

/-- What an OPEN checks of the line. -/
def openOk (c : Cmd) (v : VLine) : Bool :=
  !v.pending && !v.opening && !v.aborting && (!bit (c.raw.w 3) 63 || decide (bits (c.raw.w 3) 29 0 = v.ver)) &&
    decide (v.ver ≠ 0x3FFFFFFF)

theorem openOk_holds (quiet : v.pending = false ∧ v.opening = false ∧ v.aborting = false) (steps : v.ver ≠ 0x3FFFFFFF)
    (expected : bit (c.raw.w 3) 63 = false ∨ bits (c.raw.w 3) 29 0 = v.ver) : openOk c v = true := by
  obtain ⟨pending, opening, aborting⟩ := quiet
  simp only [openOk, pending, opening, aborting, steps, Bool.not_false, Bool.true_and, Bool.and_true, Bool.or_eq_true,
    Bool.not_eq_true', decide_eq_true_eq, ne_eq, not_false_eq_true, decide_true]
  exact expected

theorem openOk_fails (bad : v.pending = true ∨ v.opening = true ∨ v.aborting = true ∨ v.ver = 0x3FFFFFFF ∨
    (bit (c.raw.w 3) 63 = true ∧ bits (c.raw.w 3) 29 0 ≠ v.ver)) : openOk c v = false := by
  refine Bool.eq_false_iff.mpr fun holds => ?_
  simp only [openOk, Bool.and_eq_true, Bool.or_eq_true, Bool.not_eq_true', decide_eq_true_eq] at holds
  obtain ⟨⟨⟨⟨pending, opening⟩, aborting⟩, expected⟩, steps⟩ := holds
  rcases bad with pend | open_ | abort | last | ⟨asks, other⟩
  · exact Bool.noConfusion (pending.symm.trans pend)
  · exact Bool.noConfusion (opening.symm.trans open_)
  · exact Bool.noConfusion (aborting.symm.trans abort)
  · exact steps last
  · rcases expected with free | same
    · exact Bool.noConfusion (free.symm.trans asks)
    · exact other same

/-- An OPEN whose line does not allow it, or is another version than the command expects. -/
theorem openAct_refused (fresh_ : c.work = .none) (read : objGet bus (hIndex (c.raw.w 1)) s = .ok o s1)
    (line : vlineGet bus (cmdReq id c .engine 0 .read) o s1 = .ok v s2) (bad : openOk c v = false) :
    openAct bus id c s = .error (.ended stState 0) s2 := by
  unfold openAct
  refine (act_bind_ok read).trans ?_
  rw [fresh_]
  exact (act_bind_ok line).trans (act_bind_error (act_need_fails bad))

/-- An OPEN that shares its leaves: it is done where no user holds a translation of the current region, else it waits. -/
theorem openAct_shares (fresh_ : c.work = .none) (read : objGet bus (hIndex (c.raw.w 1)) s = .ok o s1)
    (line : vlineGet bus (cmdReq id c .engine 0 .read) o s1 = .ok v s2) (fine : openOk c v = true) (settled : v.draining = false)
    (marks : vlinePut bus (cmdReq id c .engine 0 .read) (hIndex (c.raw.w 1)) o { v with opening := true } s2 = .ok () s3)
    (shares : shareLeaves bus o v.slot s3 = .ok () s4) :
    let ra := InvScope.range o.ctx ((tableDesc o.raw).region v.slot) (2 ^ (tableDesc o.raw).regionLog2)
    openAct bus id c s =
      if invUsers s4 ra = [] then openDone bus id c (hIndex (c.raw.w 1)) o (invDrop s4 ra false)
      else .ok () (updCmd (invDrop s4 ra false) id fun c => { c with work := .opening (invUsers s4 ra) }) := by
  intro ra
  unfold openAct
  refine (act_bind_ok read).trans ?_
  rw [fresh_]
  refine (act_bind_ok line).trans ((act_bind_ok (act_need_holds fine)).trans ?_)
  refine (congrArg (fun m : Act Unit => m s2) (if_neg (ne_true_of_eq_false settled))).trans ?_
  refine (act_bind_ok marks).trans ((act_bind_ok (onEnd_ok shares)).trans ((act_bind_ok act_get).trans
    ((act_bind_ok act_set).trans ?_)))
  show (if invUsers s4 ra = [] then _ else _ : Act Unit) (invDrop s4 ra false) = _
  split
  · rfl
  · rfl

theorem openAct_resumes {ws : List InvWait} (waits : c.work = .opening ws)
    (read : objGet bus (hIndex (c.raw.w 1)) s = .ok o s1) :
    openAct bus id c s =
      if ws.any (waitHolds s1) then .ok () s1 else openDone bus id c (hIndex (c.raw.w 1)) o s1 := by
  unfold openAct
  refine (act_bind_ok read).trans ?_
  rw [waits]
  refine (act_bind_ok act_get).trans ?_
  split
  · rfl
  · rfl

/-! ### The ABORT of a pending version -/

/-- The frames are returned once, before the index is swept. -/
def abortReturned (s : State) (bus : Bus) (id : Nat) (o : Obj) (fs : List Frame3) : State :=
  updCmd (pushAll s bus o.part fs) id fun c => { c with work := .abortInval [] [] }

theorem abortDone_ends {fs : List Frame3} (quiet : poolsQuiet (abortReturned s bus id o fs) o.part = true)
    (line : vlineGet bus (cmdReq id c .engine 0 .read) o (abortReturned s bus id o fs) = .ok v s1)
    (sweeps : sweepTable bus (cmdReq id c .engine 0 .read) i (v.ver + 1) s1 = .ok () s2)
    (put : vlinePut bus (cmdReq id c .engine 0 .read) i o { v with pending := false, aborting := false } s2 = .ok () s3) :
    abortDone bus id c i o fs s = .ok () (wwPump (endCmd s3 id stOk 0) bus) := by
  unfold abortDone
  refine (act_bind_ok act_modify).trans ((act_bind_ok act_modify).trans ((act_bind_ok act_get).trans ?_))
  refine (congrArg (fun m : Act Unit => m _) (if_pos quiet)).trans ?_
  exact (act_bind_ok line).trans ((act_bind_ok sweeps).trans ((act_bind_ok put).trans ((act_bind_ok okCmd_ends).trans
    act_modify)))

/-- The first and the second region of a table, as scopes. -/
def regionA (o : Obj) : InvScope := .range o.ctx ((tableDesc o.raw).region false) (2 ^ (tableDesc o.raw).regionLog2)
def regionB (o : Obj) : InvScope := .range o.ctx ((tableDesc o.raw).region true) (2 ^ (tableDesc o.raw).regionLog2)

/-- The users that an abort waits for, from the state in which the pending region is clear. -/
def abortUsers (s : State) (o : Obj) : List InvWait :=
  invUsers s (regionA o) ++ invUsers (invDrop s (regionA o) false) (regionB o)

theorem abortGo_waits_writes (busy : tableBusy s i id = true) :
    abortGo bus id c i o v s = .ok () (updCmd s id fun c => { c with work := .abortWait }) := by
  unfold abortGo
  refine (act_bind_ok act_get).trans ((act_bind_ok act_modify).trans ?_)
  rw [if_pos busy]
  rfl

theorem abortGo_clears {fs : List Frame3} (free : tableBusy s i id = false)
    (clears : clearRegion bus o (!v.slot) (updCmd s id fun c => { c with work := .abortWait }) = .ok fs s1) :
    let d := invDrop (invDrop s1 (regionA o) false) (regionB o) false
    abortGo bus id c i o v s =
      if abortUsers s1 o = [] then abortDone bus id c i o fs d
      else .ok () (updCmd d id fun c => { c with work := .abortInval fs (abortUsers s1 o) }) := by
  intro d
  unfold abortGo
  refine (act_bind_ok act_get).trans ((act_bind_ok act_modify).trans ?_)
  rw [if_neg (ne_true_of_eq_false free)]
  refine (act_bind_ok clears).trans ((act_bind_ok act_get).trans ((act_bind_ok act_set).trans ?_))
  show (if abortUsers s1 o = [] then _ else _ : Act Unit) d = _
  split
  · rfl
  · rfl

/-- An ABORT of a pending version marks the line and fails the apertures before it goes on. -/
theorem abortAct_begins (fresh_ : c.work = .none) (read : objGet bus (hIndex (c.raw.w 1)) s = .ok o s1)
    (line : vlineGet bus (cmdReq id c .engine 0 .read) o s1 = .ok v s2) (pending : v.pending = true)
    (opened : v.opening = false) (whole : v.aborting = false)
    (marks : vlinePut bus (cmdReq id c .engine 0 .read) (hIndex (c.raw.w 1)) o { v with aborting := true } s2 = .ok () s3) :
    abortAct bus id c s = abortGo bus id c (hIndex (c.raw.w 1)) o v (wwPump (failObjAps s3 (hIndex (c.raw.w 1)) o.gen) bus) := by
  have fine : (v.pending && !v.opening) = true := by
    rw [pending, opened]
    rfl
  unfold abortAct
  refine (act_bind_ok read).trans ((act_bind_ok line).trans ?_)
  rw [fresh_]
  refine (act_bind_ok act_get).trans ?_
  rw [whole]
  exact (act_bind_ok (act_need_holds fine)).trans ((act_bind_ok marks).trans ((act_bind_ok act_modify).trans
    (act_bind_ok act_modify)))

theorem abortAct_resumes {fs : List Frame3} {ws : List InvWait} (waits : c.work = .abortInval fs ws)
    (read : objGet bus (hIndex (c.raw.w 1)) s = .ok o s1)
    (line : vlineGet bus (cmdReq id c .engine 0 .read) o s1 = .ok v s2) :
    abortAct bus id c s =
      if ws.any (waitHolds s2) then .ok () s2 else abortDone bus id c (hIndex (c.raw.w 1)) o fs s2 := by
  unfold abortAct
  refine (act_bind_ok read).trans ((act_bind_ok line).trans ?_)
  rw [waits]
  refine (act_bind_ok act_get).trans ?_
  split
  · rfl
  · rfl

/-! ### TABLE_FLIP -/

theorem flipAct_waits (read : objGet bus (hIndex (c.raw.w 1)) s = .ok o s1)
    (line : vlineGet bus (cmdReq id c .engine 0 .read) o s1 = .ok v s2)
    (fine : (flipOk v && !objHasAp s2 (hIndex (c.raw.w 1)) o.gen) = true) :
    flipAct bus id c s = .ok () (updCmd s2 id fun c => { c with work := .flipWait, phase := .running }) := by
  unfold flipAct
  exact (act_bind_ok read).trans ((act_bind_ok line).trans ((act_bind_ok act_get).trans
    ((act_bind_ok (act_need_holds fine)).trans act_modify)))

theorem flipAct_refused (read : objGet bus (hIndex (c.raw.w 1)) s = .ok o s1)
    (line : vlineGet bus (cmdReq id c .engine 0 .read) o s1 = .ok v s2)
    (bad : (flipOk v && !objHasAp s2 (hIndex (c.raw.w 1)) o.gen) = false) :
    flipAct bus id c s = .error (.ended stState 0) s2 := by
  unfold flipAct
  exact (act_bind_ok read).trans ((act_bind_ok line).trans ((act_bind_ok act_get).trans
    (act_bind_error (act_need_fails bad))))

theorem flipOk_iff : flipOk v = true ↔ v.pending = true ∧ v.opening = false ∧ v.aborting = false := by
  simp only [flipOk, Bool.and_eq_true, Bool.not_eq_true', and_assoc]

theorem flipTakeEffect_waits (cmd : cmdOf s id = some c)
    (busy : tableBusy s (hIndex (c.raw.w 1)) id = true ∨ keyCmdBusy s (hIndex (c.raw.w 1)) id = true) :
    exec (.flipTakeEffect id bus) s = .next s := by
  show execFlipTakeEffect id bus s = _
  unfold execFlipTakeEffect
  rw [cmd]
  refine if_neg ?_
  rintro ⟨-, -, -, writes, keys⟩
  rcases busy with table | key
  · exact Bool.noConfusion (writes.symm.trans table)
  · exact Bool.noConfusion (keys.symm.trans key)

theorem flipTakeEffect_runs (cmd : cmdOf s id = some c) (waits : c.work = .flipWait) (running : c.phase = .running)
    (works : runsWork s = true) (free : tableBusy s (hIndex (c.raw.w 1)) id = false)
    (keys : keyCmdBusy s (hIndex (c.raw.w 1)) id = false) (flips : takeEffect bus id c s = .ok () s1) :
    exec (.flipTakeEffect id bus) s = .next s1 := by
  show execFlipTakeEffect id bus s = _
  unfold execFlipTakeEffect
  rw [cmd]
  exact (if_pos ⟨waits, running, works, free, keys⟩).trans (congrArg Host.Outcome.next (runAct_ok flips))

/-- The one update of the line, and the command's end. -/
theorem takeEffect_flips (read : objGet bus (hIndex (c.raw.w 1)) s = .ok o s1)
    (line : vlineGet bus (cmdReq id c .engine 0 .read) o s1 = .ok v s2) (fine : flipOk v = true)
    (put : vlinePut bus (cmdReq id c .engine 0 .read) (hIndex (c.raw.w 1)) o
      { v with slot := !v.slot, ver := v.ver + 1, pending := false, draining := true, flips := v.flips + 1
               retEvent := c.raw.w 2, retValue := c.raw.w 3 } s2 = .ok () s3) :
    takeEffect bus id c s = .ok () (wwPump
      (endCmd { s3 with qe := { s3.qe with flips := Tab.insert s3.qe.flips (hIndex (c.raw.w 1)) c.ctx } } id stOk 0) bus) := by
  unfold takeEffect
  exact (act_bind_ok read).trans ((act_bind_ok line).trans ((act_bind_ok (act_need_holds fine)).trans
    ((act_bind_ok put).trans ((act_bind_ok act_modify).trans ((act_bind_ok okCmd_ends).trans act_modify)))))

/-! ### Retirement -/

/-- The last steps of a retirement: DRAINING ends, and the event of the flip is signalled. -/
theorem retireDone_ends (put : vlinePut bus selfReq i o { v with draining := false, retires := v.retires + 1 } (dropPass s i) =
      .ok () s1) :
    let y := if v.retEvent ≠ 0 then postSignal s1 bus v.retEvent v.retValue o.part (flipIssuer s1 i o) else s1
    retireDone bus i o v s = .ok () (wwPump { y with qe := { y.qe with flips := Tab.erase y.qe.flips i } } bus) := by
  unfold retireDone
  exact (act_bind_ok act_modify).trans ((act_bind_ok put).trans ((act_bind_ok act_modify).trans
    ((act_bind_ok act_modify).trans act_modify)))

/-- A retirement that begins: the old region is cleared, and its pass goes as far as users and pools let it. -/
theorem retireAct_begins {fs : List Frame3} {p : PagePass} (read : objGet bus i s = .ok o s1) (table : o.ty = tyTable)
    (there : o.st = stLive ∨ o.st = stDraining) (line : vlineGet bus selfReq o s1 = .ok v s2) (drains : v.draining = true)
    (unpinned : v.pins (!v.slot) = 0) (first : passOf s2 i = none) (clears : clearRegion bus o (!v.slot) s2 = .ok fs s3)
    (begins : beginPass i o.part (bothRegions o) true fs s3 = .ok () s4) (pass : passOf (pumpPasses s4 bus) i = some p) :
    retireAct bus i s =
      if p.frames = [] ∧ p.waits = [] ∧ poolsQuiet (pumpPasses s4 bus) o.part = true then
        retireDone bus i o v (pumpPasses s4 bus)
      else .ok () (pumpPasses s4 bus) := by
  have live : ¬ (o.ty ≠ tyTable ∨ (o.st ≠ stLive ∧ o.st ≠ stDraining)) := by
    rintro (other | ⟨dead, undrained⟩)
    · exact other table
    · exact there.elim dead undrained
  have due : (v.draining && decide (v.pins (!v.slot) = 0) && (passOf s2 i).isNone) = true := by
    rw [drains, decide_eq_true unpinned, first]
    rfl
  unfold retireAct
  refine (act_bind_ok read).trans ?_
  rw [if_neg live]
  refine (act_bind_ok line).trans ((act_bind_ok act_get).trans ?_)
  refine (congrArg (fun m : Act Unit => m s2) (if_pos due)).trans ?_
  refine (act_bind_ok clears).trans ((act_bind_ok begins).trans ((act_bind_ok act_modify).trans
    ((act_bind_ok act_get).trans ?_)))
  rw [pass]
  show (if p.frames = [] ∧ p.waits = [] ∧ poolsQuiet (pumpPasses s4 bus) o.part = true then _ else _ : Act Unit) _ = _
  split
  · rfl
  · rfl

theorem retirement_runs {obj : BitVec 32} (works : runsWork s = true) (inside : obj.toNat < objCount s)
    (retires : retireAct bus obj.toNat (releaseDue s bus obj.toNat) = .ok () s1) :
    exec (.retirement obj bus) s = .next s1 :=
  congrArg Host.Outcome.next ((if_pos (Bool.and_eq_true_iff.mpr ⟨works, decide_eq_true inside⟩)).trans (runAct_ok retires))

end

end Sys2Proof.Machine

open Sys2Proof.Machine

/-- Settles O47: each stage of an open, an abort, a flip and a retirement. -/
theorem versionsOpenFlipAndRetire : Obligations.VersionsOpenFlipAndRetire := by
  unfold Obligations.VersionsOpenFlipAndRetire
  refine ⟨⟨?_, ?_, ?_, ?_, ?_⟩, ?_, ?_, ?_⟩
  · intro id c bus o v v' s s1 s2 s3 s4 s5 s6 at_ form fresh_ i r t ra read line quiet expected marks shares
    obtain ⟨pending, opening, aborting, settled, steps⟩ := quiet
    have opens := openAct_shares fresh_ read line (openOk_holds ⟨pending, opening, aborting⟩ steps expected) settled marks shares
    refine ⟨?_, ?_⟩
    · intro free line' put
      exact (tableOpen_row at_ form).trans (congrArg Host.Outcome.next
        (runCmd_ok at_ (opens.trans ((if_pos free).trans (openDone_ends line' put)))))
    · intro users
      exact (tableOpen_row at_ form).trans (congrArg Host.Outcome.next (runCmd_ok at_ (opens.trans (if_neg users))))
  · intro id c bus o v ws s s1 s5 s6 at_ form waits i r read
    have goes := openAct_resumes (id := id) waits read
    refine ⟨?_, ?_⟩
    · intro released line put
      exact (tableOpen_row at_ form).trans (congrArg Host.Outcome.next
        (runCmd_ok at_ (goes.trans ((if_neg (ne_true_of_eq_false released)).trans (openDone_ends line put)))))
    · intro held
      exact (tableOpen_row at_ form).trans (congrArg Host.Outcome.next (runCmd_ok at_ (goes.trans (if_pos held))))
  · intro id c bus o v s s1 s2 at_ form fresh_ read line bad
    exact (tableOpen_row at_ form).trans (congrArg Host.Outcome.next
      (runCmd_ended at_ (openAct_refused fresh_ read line (openOk_fails bad))))
  · intro id c bus o v v' fs s s1 s2 s3 s4 s5 s6 s7 at_ form fresh_ i r ra rb u w d e read line pending opened whole marks
    have begins := abortAct_begins fresh_ read line pending opened whole marks
    refine ⟨?_, ?_⟩
    · intro busy
      exact (tableAbort_row at_ form).trans (congrArg Host.Outcome.next
        (runCmd_ok at_ (begins.trans (abortGo_waits_writes busy))))
    · intro free clears
      have goes := begins.trans (abortGo_clears free clears)
      refine ⟨?_, ?_⟩
      · intro freeA freeB quiet line' sweeps put
        have none_ : abortUsers s4 o = [] := List.append_eq_nil_iff.mpr ⟨freeA, freeB⟩
        exact (tableAbort_row at_ form).trans (congrArg Host.Outcome.next
          (runCmd_ok at_ (goes.trans ((if_pos none_).trans (abortDone_ends quiet line' sweeps put)))))
      · intro users
        exact (tableAbort_row at_ form).trans (congrArg Host.Outcome.next (runCmd_ok at_ (goes.trans (if_neg users))))
  · intro id c bus o v v' fs ws s s1 s2 s5 s6 s7 at_ form waits i r e read line
    have goes := abortAct_resumes waits read line
    refine ⟨?_, ?_⟩
    · intro held
      exact (tableAbort_row at_ form).trans (congrArg Host.Outcome.next (runCmd_ok at_ (goes.trans (if_pos held))))
    · intro released quiet line' sweeps put
      exact (tableAbort_row at_ form).trans (congrArg Host.Outcome.next (runCmd_ok at_ (goes.trans
        ((if_neg (ne_true_of_eq_false released)).trans (abortDone_ends quiet line' sweeps put)))))
  · intro id c bus o v s s1 s2 at_ read line
    refine ⟨?_, ?_⟩
    · rintro ⟨pending, opened, whole, closed⟩
      have fine : (flipOk v && !objHasAp s2 (hIndex (c.raw.w 1)) o.gen) = true := by
        rw [flipOk_iff.mpr ⟨pending, opened, whole⟩, closed]
        rfl
      exact congrArg Host.Outcome.next (runCmd_ok at_ (flipAct_waits read line fine))
    · intro bad
      have refused : (flipOk v && !objHasAp s2 (hIndex (c.raw.w 1)) o.gen) = false := by
        refine Bool.eq_false_iff.mpr fun holds => ?_
        rw [Bool.and_eq_true, flipOk_iff, Bool.not_eq_true'] at holds
        obtain ⟨⟨pending, opened, whole⟩, closed⟩ := holds
        rcases bad with idle | open_ | abort | ap
        · exact Bool.noConfusion (idle.symm.trans pending)
        · exact Bool.noConfusion (opened.symm.trans open_)
        · exact Bool.noConfusion (whole.symm.trans abort)
        · exact Bool.noConfusion (closed.symm.trans ap)
      exact congrArg Host.Outcome.next (runCmd_ended at_ (flipAct_refused read line refused))
  · intro id c bus o v s s1 s2 s3 cmd waits running works i r
    refine ⟨flipTakeEffect_waits cmd, ?_⟩
    intro free keys read line pending opened whole put
    exact flipTakeEffect_runs cmd waits running works free keys
      (takeEffect_flips read line (flipOk_iff.mpr ⟨pending, opened, whole⟩) put)
  · intro obj bus o v fs p s s1 s2 s3 s4 s5 i x works inside read table there line drains unpinned first clears begins pass
    have retires := retireAct_begins read table there line drains unpinned first clears begins pass
    refine ⟨?_, ?_⟩
    · intro left
      refine retirement_runs works inside (retires.trans (if_neg ?_))
      rintro ⟨frames, users, quiet⟩
      rcases left with more | held | noisy
      · exact more frames
      · exact held users
      · exact Bool.noConfusion (noisy.symm.trans quiet)
    · intro frames users quiet put
      exact retirement_runs works inside (retires.trans ((if_pos ⟨frames, users, quiet⟩).trans (retireDone_ends put)))

end

section
/-! PROOFS. Bags (spec file 08, R241 to R261): how a BAG_POOL starts and ends, segments, and answers to row fetches. -/

open Sys2Proof

namespace Sys2Proof.Machine

section
variable {s s' : State} {id e : Nat} {c : Cmd} {w : BagWork} {x : BagEnt}

/-! ### The bag work of a command -/

theorem bagOf_command (cmd : cmdOf s id = some c) (bag : c.work = .bag w) : bagOf s id = some w := by
  unfold bagOf
  rw [cmd]
  dsimp only
  rw [bag]

theorem setBag_command (cmd : cmdOf s id = some c) : setBag s id w = updCmd s id fun c => { c with work := .bag w } := by
  unfold setBag
  rw [cmd]

theorem bagOf_setBag (cmd : cmdOf s id = some c) : bagOf (setBag s id w) id = some w := by
  rw [setBag_command cmd]
  exact bagOf_command ((cmdOf_updCmd s id _).trans (congrArg (Option.map _) cmd)) rfl

theorem setEnt_command {f : BagEnt → BagEnt} (cmd : cmdOf s id = some c) (bag : c.work = .bag w) :
    setEnt s id e f = setBag s id { w with ents := Tab.modify w.ents e f } := by
  unfold setEnt
  rw [bagOf_command cmd bag]

/-! ### BAG_POOL -/

variable {bus : Bus}

/-- The work of a BAG_POOL before its entries are known. -/
def bagStart (c : Cmd) (i : Nat) (o : Obj) (v : VLine) (img : Option (List Byte)) (s : State) (id : Nat) : BagWork :=
  let t := tableDesc o.raw
  let slot := (((cmdOf s id).bind (·.vpin)).map (·.2)).getD false
  let own := s.bl.nodeId.toNat
  { part := c.part, ctx := c.ctx, owner := o.ctx, q := (queueId c.ctx c.q).toNat, h := c.raw.head.toNat, user := c.raw.user
    table := BitVec.ofNat 32 i, keyed := decide (t.keyVa ≠ 0), phys := false, version := pinnedVersion v slot, rows := t.rows
    rowBytes := t.rowBytes, region := t.region slot
    shard := match img with | some d => localShard d own | none => if decide (t.keyVa ≠ 0) then 0 else own
    reduce := BitVec.ofNat 2 c.raw.bReduce, det := c.raw.bDet, skip := c.raw.bSkip, inFmt := BitVec.ofNat 4 c.raw.bIn
    outFmt := BitVec.ofNat 3 c.raw.bOut, dim := c.raw.bDim, dst := BitVec.ofNat 48 c.raw.bDst, tport := c.raw.bTport
    tileRows := c.raw.bTileRows, bags := c.raw.bBags, ents := [], segs := [], accs := [], msgs := [], tile := 0
    sent := false, accepted := 0 }

/-- The directory image that a BAG_POOL reads, where it has one. -/
def imageRead (bus : Bus) (c : Cmd) (img : Option (List Byte)) (s s' : State) : Prop :=
  c.dir = none ∧ img = none ∧ s' = s ∨ ∃ d k bs, c.dir = some (d, k) ∧ img = some bs ∧
    homeGet (sysVia s (dirAddr s d k)) bus (dirAddr s d k) 16384 s = .ok bs s'

/-- The arrays of a BAG_POOL: those of its entries, or those that it reads. -/
def arraysRead (bus : Bus) (id : Nat) (c : Cmd) (quad : Nat) (arr : Arrays) (s s' : State) : Prop :=
  c.raw.bInline = true ∧ arr = inlineArrays c.raw ∧ s' = s ∨
    c.raw.bInline = false ∧ readArrays bus id c quad s = .ok arr s'

/-- The arrays of a BAG_POOL are read and its entries placed. -/
def bagFills (bus : Bus) (id : Nat) (c : Cmd) (w : BagWork) (img : Option (List Byte)) (s : State) : Act Unit := do
  let arr ← if c.raw.bInline then pure (inlineArrays c.raw) else readArrays bus id c (w.quad s 0 0)
  if !offsetsOk c.raw.bKeys 0 arr.offs then do
    modify fun s => updCmd s id fun c => { c with faultSrc := srcId 6 (w.quad s 0 0) 0 }
    failWith stBadField
  else pure ()
  let ents ← splitEnts bus id c w arr img s.bl.nodeId.toNat
  let w := { w with ents := setPos ents [] }
  let w := { w with msgs := if w.unplaced then [] else msgsOf w img }
  modify fun s => launchBag (updCmd s id fun c => { c with work := .bag w, phase := .running }) bus id w

/-- A bag work with its entries placed, and with its requests to owners once every row is. -/
def bagPlaced (w : BagWork) (es : List (Nat × BagEnt)) (img : Option (List Byte)) : BagWork :=
  let w1 : BagWork := { w with ents := setPos es [] }
  { w1 with msgs := if w1.unplaced then [] else msgsOf w1 img }

theorem bagFills_launches {img : Option (List Byte)} {arr : Arrays} {es : List (Nat × BagEnt)} {s3 s4 s5 s6 : State}
    (arrays : arraysRead bus id c (w.quad s3 0 0) arr s4 s5) (offs : offsetsOk c.raw.bKeys 0 arr.offs = true)
    (split : splitEnts bus id c w arr img s3.bl.nodeId.toNat s5 = .ok es s6) :
    bagFills bus id c w img s3 s4 = .ok () (launchBag
      (updCmd s6 id fun c => { c with work := .bag (bagPlaced w es img), phase := .running }) bus id (bagPlaced w es img)) := by
  have known : ¬ (!offsetsOk c.raw.bKeys 0 arr.offs) = true := by
    rw [offs]
    exact nofun
  unfold bagFills
  rcases arrays with ⟨inline_, rfl, rfl⟩ | ⟨far, got⟩
  · rw [if_pos inline_]
    refine (congrArg (fun m : Act Unit => m s5) (if_neg known)).trans ?_
    exact (act_bind_ok split).trans act_modify
  · rw [if_neg (ne_true_of_eq_false far)]
    refine (act_bind_ok got).trans ((congrArg (fun m : Act Unit => m s5) (if_neg known)).trans ?_)
    exact (act_bind_ok split).trans act_modify

theorem bagPoolAct_starts {o : Obj} {v : VLine} {img : Option (List Byte)} {s1 s2 s3 s4 t : State}
    (fresh_ : ∀ w, c.work ≠ .bag w) (pin : pinVersion bus id c s = .ok () s1)
    (read : objGet bus (hIndex (c.raw.w 1)) s1 = .ok o s2)
    (line : vlineGet bus (cmdReq id c .engine 0 .read) o s2 = .ok v s3) (image : imageRead bus c img s3 s4)
    (fills : bagFills bus id c (bagStart c (hIndex (c.raw.w 1)) o v img s3 id) img s3 s4 = .ok () t) :
    bagPoolAct bus id c s = .ok () t := by
  unfold bagPoolAct
  rcases image with ⟨plain, rfl, rfl⟩ | ⟨d, k, bs, dir, rfl, got⟩
  · cases work : c.work
    case bag w => exact absurd work (fresh_ w)
    all_goals
      refine (act_bind_ok pin).trans ((act_bind_ok read).trans ((act_bind_ok line).trans ((act_bind_ok act_get).trans ?_)))
      rw [plain]
      exact fills
  · cases work : c.work
    case bag w => exact absurd work (fresh_ w)
    all_goals
      refine (act_bind_ok pin).trans ((act_bind_ok read).trans ((act_bind_ok line).trans ((act_bind_ok act_get).trans ?_)))
      rw [dir]
      exact (act_bind_ok got).trans fills

theorem bagPoolAct_goes_on (bag : c.work = .bag w) (left : w.tile * w.tileRows < w.bags) :
    bagPoolAct bus id c s = .ok () (updCmd s id fun c => { c with phase := .running }) := by
  unfold bagPoolAct
  rw [bag]
  exact congrArg (fun m : Act Unit => m s) (if_neg (Nat.not_le.mpr left))

theorem bagPoolAct_ends (bag : c.work = .bag w) (whole : w.bags ≤ w.tile * w.tileRows) :
    bagPoolAct bus id c s = bagSignal bus id c s := by
  unfold bagPoolAct
  rw [bag]
  exact congrArg (fun m : Act Unit => m s) (if_pos whole)

theorem bagSignal_silent (silent : c.raw.w 2 = 0) : bagSignal bus id c s = .ok () (endCmd s id stOk 0) := by
  unfold bagSignal
  exact congrArg (fun m : Act Unit => m s) (if_neg fun loud => loud silent)

theorem bagSignal_signals {o : Obj} {s1 s2 : State} (loud : c.raw.w 2 ≠ 0)
    (read : objGet bus (hIndex (c.raw.w 2)) s = .ok o s1)
    (signals : signalEvent bus o (c.raw.w 2) (c.raw.w 3) c.ctx (cmdReq id c .engine 0 .atomic) s1 = .ok () s2) :
    bagSignal bus id c s = .ok () (endCmd s2 id stOk 0) := by
  unfold bagSignal
  refine (congrArg (fun m : Act Unit => m s) (if_pos loud)).trans ?_
  exact (act_bind_ok read).trans (act_bind_ok signals)

/-! ### Segments -/

/-- The vectors of misses that an accepted segment of a deterministic bag has at once. -/
def readyMisses (w : BagWork) (bag seg : Nat) : Nat :=
  if w.det then (segEnts w bag seg).foldl (fun k e => match e.2.st with | .vec _ => k + 1 | _ => k) 0 else 0

/-- A quad has space for a partial, and a bag's home quad for what else the bag needs there. -/
def spaceFor (s : State) (quad home n need : Nat) : Prop :=
  if home = quad then quadUsed s quad + n + need ≤ 262144
  else quadUsed s quad + n ≤ 262144 ∧ quadUsed s home + need ≤ 262144

theorem spaceFor_iff {quad home n need : Nat} :
    (if home = quad then decide (quadUsed s quad + n + need ≤ quadBytes)
      else decide (quadUsed s quad + n ≤ quadBytes ∧ quadUsed s home + need ≤ quadBytes)) = true ↔
      spaceFor s quad home n need := by
  unfold spaceFor
  split
  · exact decide_eq_true_iff
  · exact decide_eq_true_iff

/-- A quad has the space that a segment and the bag's merge partial need. -/
def segFits (s : State) (w : BagWork) (bag seg : Nat) (a : BagAcc) : Prop :=
  let n := partBytes w.dim
  let quad := w.quad s bag seg
  let home := if seg = 0 then quad else w.homeOf s bag a
  spaceFor s quad home n (if a.merge = true ∧ home = a.home then 0 else (1 + a.reserved) * n)

/-- The bag once its segment is accepted. -/
def segTaken (s : State) (w : BagWork) (bag seg : Nat) (a : BagAcc) : BagWork :=
  let quad := w.quad s bag seg
  let home := if seg = 0 then quad else w.homeOf s bag a
  { w with
    segs := w.segs.map fun x => if x.bag = bag ∧ x.seg = seg then { x with taken := true, quad := quad, got := readyMisses w bag seg } else x
    accs := Tab.modify w.accs bag fun a => { a with home := home, merge := true } }

section
variable {bag seg : Nat} {g : Seg} {a : BagAcc} (bagAt : bagOf s id = some w)
  (segAt : w.segs.find? (fun g => decide (g.bag = bag ∧ g.seg = seg)) = some g) (acc : Tab.find? w.accs bag = some a)
include bagAt segAt acc

theorem segmentAccept_starts (taken : g.taken = true) : segmentAccept s bus id bag seg = startSeg s bus id bag seg := by
  unfold segmentAccept
  rw [bagAt]
  dsimp only
  rw [segAt, acc]
  exact if_pos taken

theorem segmentAccept_fits (free : g.taken = false) (fits : segFits s w bag seg a) :
    segmentAccept s bus id bag seg =
      settleSeg (startSeg (setBag s id (segTaken s w bag seg a)) bus id bag seg) bus id bag seg := by
  unfold segmentAccept
  rw [bagAt]
  dsimp only
  rw [segAt, acc]
  refine (if_neg (ne_true_of_eq_false free)).trans (if_pos ?_)
  simp only [Bool.and_eq_true, decide_eq_true_eq]
  exact spaceFor_iff.mpr fits

theorem segmentAccept_waits (free : g.taken = false) (full : ¬ segFits s w bag seg a) :
    segmentAccept s bus id bag seg = s := by
  unfold segmentAccept
  rw [bagAt]
  dsimp only
  rw [segAt, acc]
  refine (if_neg (ne_true_of_eq_false free)).trans (if_neg ?_)
  simp only [Bool.and_eq_true, decide_eq_true_eq]
  exact fun fits => full (spaceFor_iff.mp fits)

end

/-! ### Answers to row fetches -/

variable {port tag k : Nat} {st : BusStatus} {r : GwReq}

/-- The answer that an entry gets: its status, with the poison of its bytes counted as a failure. -/
def rowStatus (s : State) (r : GwReq) (st : BusStatus) : BusStatus :=
  if decide (st = .ok) && (linesOf r.addr r.len).any fun l => (Tab.find? s.mem.poison l).isSome then .poison else st

/-- The source of a quad, and the route of its lane. -/
def laneSrc (s : State) (port : Nat) : BitVec 16 := srcId 6 ((port - gwBase s.build 0) / 4) 0
def laneRoute (s : State) (port : Nat) (r : GwReq) : Via := ⟨port, laneSrc s port, r.part, false, none, none, none⟩

/-- The state once the request of an answer is no longer outstanding, with what its failure reports. -/
def rowFreed (s : State) (port tag : Nat) (r : GwReq) (st : BusStatus) : State :=
  let v := laneRoute s port r
  let s1 := if st = .deadline then quarantineTag s port tag r (reqEvent v r.addr 0)
    else updGw s port fun g => { g with out := Tab.erase g.out tag }
  if st = .ok ∨ st = .deadline then s1 else report s1 (reqEvent v r.addr 0) v.mid

theorem rowAnswer_ok (ok : rowStatus s r st = .ok) :
    rowAnswer s bus port tag r id e st = pumpRows (rowDone (setEnt (rowFreed s port tag r .ok) id e
      (rowAnswered true (laneSrc s port) (s.mem.bytes s.free r.addr r.len) r.lo)) bus id e) := by
  unfold rowStatus at ok
  unfold rowAnswer
  dsimp only
  rw [ok]
  refine congrArg (fun f => pumpRows (rowDone (setEnt (rowFreed s port tag r .ok) id e f) bus id e)) (funext fun x => ?_)
  unfold rowAnswered
  cases x.st with
  | fetching left bad => rfl
  | _ => rfl

theorem rowAnswer_fails {st' : BusStatus} (bad : rowStatus s r st = st') (fails : st' ≠ .ok) (data : List Byte) :
    rowAnswer s bus port tag r id e st = pumpRows (rowDone (setEnt (rowFreed s port tag r st') id e
      (rowAnswered false (if st' = .deadline then srcId 13 port 0 else laneSrc s port) data r.lo)) bus id e) := by
  unfold rowStatus at bad
  unfold rowAnswer
  dsimp only
  rw [bad]
  refine congrArg (fun f => pumpRows (rowDone (setEnt (rowFreed s port tag r st') id e f) bus id e)) (funext fun x => ?_)
  unfold rowAnswered
  cases x.st with
  | fetching left found => exact if_neg fails
  | _ => rfl

theorem rowFetchResponse_one (only : rowReqs s id e = [(port, tag, r)]) :
    exec (.rowFetchResponse id e st) s = .next (sendPools (rowAnswer s [] port tag r id e st) [] id) := by
  show execRowFetchResponse id e st s = _
  unfold execRowFetchResponse
  rw [only]
  rfl

section
variable {f : BagEnt → BagEnt} {left : Nat} {bad : Option (BitVec 16)} (cmd : cmdOf s id = some c) (bag : c.work = .bag w)
  (ent : Tab.find? w.ents e = some x)
include cmd bag ent

/-- The row of an entry that has requests left waits for them. -/
theorem rowDone_waits (fetches : (f x).st = .fetching left bad) (more : left ≠ 0) :
    rowDone (setEnt s id e f) bus id e = setEnt s id e f := by
  unfold rowDone
  rw [setEnt_command cmd bag, bagOf_setBag cmd]
  dsimp only
  rw [Tab.find_modify_same, ent]
  dsimp only [Option.map]
  rw [fetches]
  cases left with
  | zero => exact absurd rfl more
  | succ n => rfl

/-- The row of an entry whose last request is answered. -/
theorem rowDone_whole (fetches : (f x).st = .fetching 0 bad) :
    rowDone (setEnt s id e f) bus id e =
      rowWhole (setEnt s id e f) bus id e { w with ents := Tab.modify w.ents e f } (f x) bad := by
  unfold rowDone
  rw [setEnt_command cmd bag, bagOf_setBag cmd]
  dsimp only
  rw [Tab.find_modify_same, ent]
  dsimp only [Option.map]
  rw [fetches]
  rfl

end

/-- The entry after an answer that is OK, and after one that is not. -/
theorem rowAnswered_ok {src : BitVec 16} {got : List Byte} {lo : Nat} (fetches : x.st = .fetching (k + 1) none) :
    rowAnswered true src got lo x = { x with st := .fetching k none, got := x.got ++ [(lo, got)] } := by
  unfold rowAnswered
  rw [fetches]
  rfl

theorem rowAnswered_bad {src : BitVec 16} {got : List Byte} {lo : Nat} (fetches : x.st = .fetching (k + 1) none)
    (dropped : k = x.todo.length) :
    rowAnswered false src got lo x = { x with st := .fetching 0 (some src), todo := [] } := by
  have none_ : k + 1 - 1 - x.todo.length = 0 := by omega
  unfold rowAnswered
  rw [fetches]
  dsimp only
  rw [none_]
  rfl

/-- The last answer of a row that fails: its bag fails by the record of the source. -/
theorem rowDone_fails {t : State} {src : BitVec 16} {data : List Byte} {lo : Nat} (cmd : cmdOf t id = some c)
    (bag : c.work = .bag w) (ent : Tab.find? w.ents e = some x) (fetches : x.st = .fetching (k + 1) none)
    (dropped : k = x.todo.length) :
    let lost := setEnt t id e (rowAnswered false src data lo)
    rowDone lost [] id e = bagFail lost [] id stBusError (recDetail lost src) 0 (w.failSrc x.bag) := by
  intro lost
  have after := rowAnswered_bad (src := src) (got := data) (lo := lo) fetches dropped
  refine (rowDone_whole cmd bag ent ((congrArg BagEnt.st after).trans rfl)).trans ?_
  rw [after]
  rfl

end

end Sys2Proof.Machine

open Sys2Proof.Machine

/-- Settles O48: a bag's start and end, the space of its segments, and each answer of a row. -/
theorem bagsRunBySegmentAndRow : Obligations.BagsRunBySegmentAndRow := by
  unfold Obligations.BagsRunBySegmentAndRow
  refine ⟨?_, ?_, ?_, ?_⟩
  · intro id c bus o v img s s1 s2 s3 s4 at_ fresh_ pin read line image
    refine ⟨bagStart c (hIndex (c.raw.w 1)) o v img s3 id, rfl, rfl, rfl, rfl, rfl, ?_⟩
    intro arr es s5 s6 arrays offs split w1 w2
    exact congrArg Host.Outcome.next (runCmd_ok at_ (bagPoolAct_starts fresh_ pin read line image
      (bagFills_launches arrays offs split)))
  · intro id c bus w s at_ bag
    refine ⟨?_, ?_, ?_⟩
    · intro left
      exact congrArg Host.Outcome.next (runCmd_ok at_ (bagPoolAct_goes_on bag left))
    · intro whole silent
      exact congrArg Host.Outcome.next (runCmd_ok at_ ((bagPoolAct_ends bag whole).trans (bagSignal_silent silent)))
    · intro o s1 s2 whole loud read signals
      exact congrArg Host.Outcome.next (runCmd_ok at_ ((bagPoolAct_ends bag whole).trans
        (bagSignal_signals loud read signals)))
  · intro id bag seg bus w g a s works bagAt segAt acc n quad home need fits
    have goes {t : State} (accepts : segmentAccept s bus id bag seg = t) :
        exec (.segmentAccept id bag seg bus) s = .next (sendPools t bus id) :=
      congrArg Host.Outcome.next ((if_pos works).trans (congrArg (fun t => sendPools t bus id) accepts))
    refine ⟨?_, ?_, ?_⟩
    · intro free fit
      refine ⟨readyMisses w bag seg, fun loose => if_neg (ne_true_of_eq_false loose), ?_⟩
      exact goes (segmentAccept_fits bagAt segAt acc free fit)
    · intro free full
      exact goes (segmentAccept_waits bagAt segAt acc free full)
    · intro taken
      exact goes (segmentAccept_starts bagAt segAt acc taken)
  · intro id e port tag k st r c w x f s only cmd bag ent fetches format bad s1 src v s2 s3 data lost
    have answers {u : State} (ends : rowAnswer s [] port tag r id e st = u) :
        exec (.rowFetchResponse id e st) s = .next (sendPools u [] id) :=
      (rowFetchResponse_one only).trans (congrArg (fun u => Host.Outcome.next (sendPools u [] id)) ends)
    have clean (ok : st = .ok) (sound : bad = false) : rowStatus s r st = .ok := by
      refine (if_neg ?_).trans ok
      rw [show ((linesOf r.addr r.len).any fun l => (Tab.find? s.mem.poison l).isSome) = false from sound, Bool.and_false]
      exact Bool.false_ne_true
    have after := rowAnswered_ok (src := src) (got := data) (lo := r.lo) fetches
    refine ⟨?_, ?_, ?_, ?_⟩
    · intro ok sound whole
      refine answers ((rowAnswer_ok (clean ok sound)).trans (congrArg pumpRows ?_))
      refine (rowDone_whole (s := s1) cmd bag ent ((congrArg BagEnt.st after).trans (by rw [whole]))).trans ?_
      rw [after]
      unfold rowWhole
      rw [format]
      rfl
    · intro ok sound more
      refine answers ((rowAnswer_ok (clean ok sound)).trans (congrArg pumpRows ?_))
      exact rowDone_waits (s := s1) cmd bag ent ((congrArg BagEnt.st after).trans rfl) more
    · intro failed cmd2 dropped
      have status : ∃ st', rowStatus s r st = st' ∧ st' ≠ .ok ∧ st' ≠ .deadline := by
        rcases failed with ⟨ok, poisoned⟩ | ⟨notOk, notLate⟩
        · refine ⟨.poison, if_pos ?_, nofun, nofun⟩
          rw [show ((linesOf r.addr r.len).any fun l => (Tab.find? s.mem.poison l).isSome) = true from poisoned, ok]
          rfl
        · refine ⟨st, if_neg ?_, notOk, notLate⟩
          rw [decide_eq_false notOk, Bool.false_and]
          exact Bool.false_ne_true
      obtain ⟨st', is, notOk, notLate⟩ := status
      have freed : rowFreed s port tag r st' = s2 := by
        have other : ¬ (st' = .ok ∨ st' = .deadline) := fun either => either.elim notOk notLate
        exact (if_neg other).trans (congrArg (fun u => report u (reqEvent v r.addr 0) v.mid) (if_neg notLate))
      refine answers ((rowAnswer_fails is notOk data).trans (congrArg pumpRows ?_))
      rw [freed, if_neg notLate]
      exact rowDone_fails cmd2 bag ent fetches dropped
    · intro late cmd3 dropped
      have is : rowStatus s r st = .deadline := by
        refine (if_neg ?_).trans late
        rw [late]
        exact nofun
      refine answers ((rowAnswer_fails is nofun data).trans (congrArg pumpRows ?_))
      exact rowDone_fails (t := s3) cmd3 bag ent fetches dropped

end

section
/-! PROOFS. Tiles and quads (spec file 08, R262 to R270; spec file 02, R44 and R45). -/

open Sys2Proof

namespace Sys2Proof.Machine

section
variable {s : State} {id port beat : Nat} {w : BagWork} {c : Cmd} {t : Tile} {bus : Bus}

/-! ### What a tile carries -/

/-- The accumulators of a tile's bags, in bag order. -/
def tileAccs (w : BagWork) : List BagAcc :=
  (range (w.tile * w.tileRows) (min w.bags (w.tile * w.tileRows + w.tileRows) - w.tile * w.tileRows)).map fun b =>
    Tab.get ⟨0, 0, 0, false, 0, none, [], 0, true, true⟩ w.accs b

/-- The bytes of the output row of an accumulator. -/
def accRow (w : BagWork) (a : BagAcc) : List Byte := (outRow w (a.acc.getD (zeroVec w.dim))).1

theorem outRow_length {v : List F32} : (outRow w v).1.length = 256 * beatsPerRow w := padTo_length _ _

theorem makeTile_head_length : (makeTile id w).head.length = 256 := by
  unfold makeTile
  simp only [List.length_append, leBytes_length]

theorem tileAccs_length :
    (tileAccs w).length = min w.bags (w.tile * w.tileRows + w.tileRows) - w.tile * w.tileRows := by
  unfold tileAccs range
  rw [List.length_map, List.length_map, List.length_range]

/-- With EMPTY_SKIP clear, a tile carries the output row of each of its bags. -/
theorem makeTile_data (keeps : w.skip = false) : (makeTile id w).data = (tileAccs w).flatMap (accRow w) := by
  have all (l : List BagAcc) :
      ((List.zip (l.map fun a => !a.empty) (l.map fun a => outRow w (a.acc.getD (zeroVec w.dim)))).flatMap
        fun x => if w.skip && !x.1 then [] else x.2.1) = l.flatMap (accRow w) := by
    rw [keeps]
    induction l with
    | nil => rfl
    | cons a l ih => exact congrArg (accRow w a ++ ·) ih
  exact all (tileAccs w)

/-- Rows of one length, one after the other. -/
theorem flatMap_rows_length {α : Type} {f : α → List Byte} {n : Nat} (even : ∀ a, (f a).length = n) (l : List α) :
    (l.flatMap f).length = n * l.length := by
  induction l with
  | nil => rfl
  | cons a l ih => rw [List.flatMap_cons, List.length_append, ih, even, List.length_cons, Nat.mul_succ, Nat.add_comm]

theorem flatMap_row {α : Type} {f : α → List Byte} {n : Nat} (even : ∀ a, (f a).length = n) :
    ∀ (l : List α) (b : Nat) (a : α), l[b]? = some a → ((l.flatMap f).drop (n * b)).take n = f a
  | x :: l, 0, a, at_ => by
    obtain rfl : x = a := Option.some.inj at_
    rw [Nat.mul_zero, List.drop_zero, List.flatMap_cons, List.take_append_of_le_length (Nat.le_of_eq (even x).symm)]
    exact List.take_of_length_le (Nat.le_of_eq (even x))
  | x :: l, b + 1, a, at_ => by
    have skip : n * (b + 1) = (f x).length + n * b := by rw [even, Nat.mul_succ, Nat.add_comm]
    rw [List.flatMap_cons, skip, List.drop_length_add_append]
    exact flatMap_row even l b a at_

/-- The accumulator of a bag of the tile. -/
theorem tileAccs_at {b : Nat} {a : BagAcc}
    (inside : b < min w.bags (w.tile * w.tileRows + w.tileRows) - w.tile * w.tileRows)
    (acc : Tab.find? w.accs (w.tile * w.tileRows + b) = some a) : (tileAccs w)[b]? = some a := by
  unfold tileAccs range
  rw [List.map_map, List.getElem?_map, List.getElem?_range inside]
  refine congrArg some ?_
  show Tab.get _ w.accs (w.tile * w.tileRows + b) = a
  rw [Tab.get_eq_find, acc]
  rfl

theorem makeTile_last :
    (makeTile id w).last =
      decide (w.bags ≤ w.tile * w.tileRows + (min w.bags (w.tile * w.tileRows + w.tileRows) - w.tile * w.tileRows)) := rfl

/-! ### A tile is accepted -/

/-- The tile of a port is out, and the port is free. -/
def tileOut (s : State) (port : Nat) (t : Tile) : State :=
  let s := emit s (.tile port t.head t.data)
  { s with pa := { s.pa with
    tiles := s.pa.tiles + 1, sats := s.pa.sats + BitVec.ofNat 64 t.sats, nans := s.pa.nans + BitVec.ofNat 64 t.nans
    tports := Tab.set {} s.pa.tports port {} } }

/-- Its command has moved on to the next tile. -/
def tileCounted (s : State) (port : Nat) (t : Tile) (c : Cmd) (w : BagWork) : State :=
  setProgress (setBag (tileOut s port t) t.cmd { w with tile := w.tile + 1, sent := false, accepted := w.accepted + t.ents })
    t.cmd (c.progress + t.ents)

theorem tileOut_tports : Tab.get {} (tileOut s port t).pa.tports port = {} := by
  show Tab.get {} (Tab.set {} s.pa.tports port {}) port = {}
  exact Tab.get_set_same

theorem tileOut_out : .tile port t.head t.data ∈ (tileOut s port t).out :=
  List.mem_append_right _ (List.mem_singleton.mpr rfl)

section
variable (cur : (Tab.get {} s.pa.tports port).cur = some t)
include cur

theorem tileAccept_bag (cmd : cmdOf s t.cmd = some c) (bag : c.work = .bag w) :
    tileAccept s bus port = startTile (if t.last then
        runAct (bagSignal bus t.cmd c) (updCmd (tileCounted s port t c w) t.cmd fun c => { c with phase := .dispatched })
          (fun s _ => s) (stopCmd t.cmd)
      else tileCounted s port t c w) port := by
  have same : cmdOf (tileOut s port t) t.cmd = some c := cmd
  unfold tileAccept
  rw [cur]
  dsimp only
  show startTile (match cmdOf (tileOut s port t) t.cmd with
    | some c => _
    | none => tileOut s port t) port = _
  rw [same]
  dsimp only
  rw [bag]
  rfl

/-- The tile of a command that has ended is delivered all the same. -/
theorem tileAccept_stray (stray : ∀ c, cmdOf s t.cmd = some c → ∀ w, c.work ≠ .bag w) :
    tileAccept s bus port = startTile (tileOut s port t) port := by
  unfold tileAccept
  rw [cur]
  dsimp only
  show startTile (match cmdOf (tileOut s port t) t.cmd with
    | some c => _
    | none => tileOut s port t) port = _
  refine congrArg (fun u => startTile u port) ?_
  cases cmd : cmdOf (tileOut s port t) t.cmd with
  | none => rfl
  | some c =>
    dsimp only
    cases work : c.work with
    | bag w => exact absurd work (stray c cmd w)
    | _ => rfl

end

theorem tileCounted_cmd (cmd : cmdOf s t.cmd = some c) :
    cmdOf (tileCounted s port t c w) t.cmd = some { c with
      work := .bag { w with tile := w.tile + 1, sent := false, accepted := w.accepted + t.ents }
      progress := c.progress + t.ents } := by
  have same : cmdOf (tileOut s port t) t.cmd = some c := cmd
  unfold tileCounted setProgress
  rw [cmdOf_updCmd, setBag_command same, cmdOf_updCmd, same]
  rfl

/-- What the count of a tile leaves as the tile's delivery left it. -/
theorem tileCounted_keeps (cmd : cmdOf s t.cmd = some c) :
    (tileCounted s port t c w).out = (tileOut s port t).out ∧ (tileCounted s port t c w).mem = s.mem ∧
      (tileCounted s port t c w).pa = (tileOut s port t).pa := by
  have same : cmdOf (tileOut s port t) t.cmd = some c := cmd
  unfold tileCounted
  rw [setBag_command same]
  exact ⟨rfl, rfl, rfl⟩

/-! ### Stalls -/

/-- A stall of a tile at a beat that has not been reported yet. -/
def stallIsNew (tp : TilePort) (beat : Nat) : Bool :=
  tp.cur.isSome && (match tp.stalled with | none => true | some b => decide (b < beat))

theorem stallIsNew_iff {tp : TilePort} :
    stallIsNew tp beat = true ↔ tp.cur.isSome = true ∧ ∀ b, tp.stalled = some b → b < beat := by
  unfold stallIsNew
  rw [Bool.and_eq_true]
  refine and_congr_right fun _ => ?_
  cases tp.stalled with
  | none => exact ⟨fun _ => nofun, fun _ => rfl⟩
  | some b => exact ⟨fun less b' same => Option.some.inj same ▸ of_decide_eq_true less, fun all => decide_eq_true (all b rfl)⟩

theorem tileStallTimeout_eq :
    exec (.tileStallTimeout ⟨port, beat⟩) s = if stallIsNew (Tab.get {} s.pa.tports port) beat then .next (note
        { s with pa := { s.pa with
          tports := Tab.set {} s.pa.tports port { Tab.get {} s.pa.tports port with stalled := some beat } } }
        { source := srcId 6 port 1, info := BitVec.ofNat 16 port })
      else .next s := rfl

/-! ### Quads -/

theorem quadRetireWrite_retires {mask : Nat} (idle : s.pa.retBusy = false)
    (last : mask &&& maskOf (s.build.lanes / 4) ≠ maskOf (s.build.lanes / 4)) :
    quadRetireWrite s mask = { s with pa := { s.pa with
      retire := BitVec.ofNat 12 (mask &&& maskOf (s.build.lanes / 4))
      retBusy := decide (mask &&& maskOf (s.build.lanes / 4) ≠ s.pa.retire.toNat) } } := by
  unfold quadRetireWrite
  dsimp only
  rw [idle, decide_eq_false last]
  rfl

theorem quadRetireWrite_refused {mask : Nat}
    (refused : s.pa.retBusy = true ∨ mask &&& maskOf (s.build.lanes / 4) = maskOf (s.build.lanes / 4)) :
    quadRetireWrite s mask = s := by
  refine if_pos ?_
  rw [Bool.or_eq_true, decide_eq_true_eq]
  exact refused

theorem mem_liveQuads {i : Nat} (present : i < s.build.lanes / 4) :
    i ∈ liveQuads s ↔ s.pa.retire.getLsbD i = false := by
  unfold liveQuads
  rw [List.mem_filter, List.mem_range, Bool.not_eq_true']
  exact and_iff_right present

theorem getLsbD_masked12 {mask : BitVec 12} {n i : Nat} (inside : i < n) (narrow : n ≤ 12) :
    (BitVec.ofNat 12 (mask.toNat &&& maskOf n)).getLsbD i = mask.getLsbD i := by
  have fits : i < 12 := by omega
  rw [BitVec.getLsbD_ofNat, decide_eq_true fits, Bool.true_and, Nat.testBit_and, maskOf, Nat.testBit_two_pow_sub_one,
    decide_eq_true inside, Bool.and_true]
  rfl

/-- The register takes the masked quads as they are. -/
theorem masked12_eq_iff {mask r : BitVec 12} {n : Nat} :
    BitVec.ofNat 12 (mask.toNat &&& maskOf n) = r ↔ mask.toNat &&& maskOf n = r.toNat := by
  have small : mask.toNat &&& maskOf n < 2 ^ 12 := Nat.lt_of_le_of_lt Nat.and_le_left mask.isLt
  refine ⟨fun same => ?_, fun same => ?_⟩
  · rw [← same, BitVec.toNat_ofNat, Nat.mod_eq_of_lt small]
  · rw [same, BitVec.ofNat_toNat, BitVec.setWidth_eq]

theorem quadRetireDone_iff :
    exec .quadRetireDone s = .next (if s.pa.retBusy && !((List.range (s.build.lanes / 4)).any fun q =>
      s.pa.retire.getLsbD q && quadBusy s q) then { s with pa := { s.pa with retBusy := false } } else s) := rfl

end

end Sys2Proof.Machine

open Sys2Proof.Machine

/-- Settles O49: what a tile carries, how it is accepted, its stalls, and quads that retire. -/
theorem tilesAndQuads : Obligations.TilesAndQuads := by
  unfold Obligations.TilesAndQuads
  refine ⟨?_, ?_, ?_, ?_, ?_, ?_, ?_⟩
  · intro id w left keeps n p
    refine ⟨makeTile_head_length, ?_, ?_, ?_, ?_⟩
    · rw [makeTile_data keeps, flatMap_rows_length (f := accRow w) fun _ => outRow_length, tileAccs_length]
    · intro whole
      refine makeTile_last.trans (decide_eq_true ?_)
      omega
    · intro more
      refine makeTile_last.trans (decide_eq_false ?_)
      omega
    · intro b inside a acc
      rw [makeTile_data keeps]
      exact flatMap_row (f := accRow w) (fun _ => outRow_length) _ b a (tileAccs_at inside acc)
  · rintro port bus tp t c w s works rfl cur cmd bag
    obtain ⟨out, mem, pa⟩ := tileCounted_keeps (port := port) (w := w) cmd
    have accepts {u : State} (ends : tileAccept s bus port = u) : exec (.tileAccept port bus) s = .next u :=
      congrArg Host.Outcome.next ((if_pos works).trans ends)
    refine ⟨tileCounted s port t c w, tileCounted_cmd cmd, ?_, mem, ?_, ?_, ?_, ?_⟩
    · rw [out]
      exact tileOut_out
    · rw [pa]
      rfl
    · rw [pa]
      exact tileOut_tports
    · intro more
      exact accepts ((tileAccept_bag cur cmd bag).trans (congrArg (fun u => startTile u port) (if_neg (ne_true_of_eq_false more))))
    · intro y
      refine ⟨?_, ?_⟩
      · intro last silent
        exact accepts ((tileAccept_bag cur cmd bag).trans (congrArg (fun u => startTile u port)
          ((if_pos last).trans (runAct_ok (bagSignal_silent silent)))))
      · intro o s1 s2 last loud read signals
        exact accepts ((tileAccept_bag cur cmd bag).trans (congrArg (fun u => startTile u port)
          ((if_pos last).trans (runAct_ok (bagSignal_signals loud read signals)))))
  · intro port bus t s works cur stray
    exact ⟨tileOut s port t, congrArg Host.Outcome.next ((if_pos works).trans (tileAccept_stray cur stray)), tileOut_out, rfl,
      rfl, rfl, tileOut_tports⟩
  · intro port bus s stopped
    exact congrArg Host.Outcome.next (if_neg (ne_true_of_eq_false stopped))
  · rintro port beat tp s rfl
    refine ⟨?_, ?_⟩
    · intro moves new
      exact tileStallTimeout_eq.trans (if_pos (stallIsNew_iff.mpr ⟨moves, new⟩))
    · intro known
      refine tileStallTimeout_eq.trans (if_neg fun new => ?_)
      obtain ⟨moves, later⟩ := stallIsNew_iff.mp new
      rcases known with idle | ⟨b, stalled, before⟩
      · rw [idle] at moves
        cases moves
      · exact absurd (later b stalled) (Nat.not_lt.mpr before)
  · intro mask s narrow p
    refine ⟨?_, ?_⟩
    · intro allowed idle last
      refine ⟨_, congrArg Host.Outcome.next ((if_pos allowed).trans (quadRetireWrite_retires idle last)), rfl, rfl, ?_, ?_⟩
      · exact decide_eq_true_iff.trans (not_congr masked12_eq_iff).symm
      · intro i present
        refine Iff.trans (mem_liveQuads (s := { s with pa := { s.pa with
          retire := BitVec.ofNat 12 (mask.toNat &&& maskOf (s.build.lanes / 4))
          retBusy := decide (mask.toNat &&& maskOf (s.build.lanes / 4) ≠ s.pa.retire.toNat) } }) present) ?_
        exact Iff.of_eq (congrArg (· = false) (getLsbD_masked12 present narrow))
    · intro refused
      refine congrArg Host.Outcome.next ?_
      rcases refused with closed | refused
      · exact if_neg (ne_true_of_eq_false closed)
      · rw [quadRetireWrite_refused refused]
        exact ite_self s
  · intro s
    refine ⟨?_, ?_⟩
    · intro busy free
      refine quadRetireDone_iff.trans (congrArg Host.Outcome.next (if_pos ?_))
      have none_ : ((List.range (s.build.lanes / 4)).any fun q => s.pa.retire.getLsbD q && quadBusy s q) = false := by
        refine List.any_eq_false.mpr fun q listed => ?_
        rw [Bool.and_eq_true]
        rintro ⟨retired, holds⟩
        exact Bool.noConfusion ((free q (List.mem_range.mp listed) retired).symm.trans holds)
      rw [busy, none_]
      rfl
    · intro waits
      refine quadRetireDone_iff.trans (congrArg Host.Outcome.next (if_neg ?_))
      rw [Bool.and_eq_true, Bool.not_eq_true', List.any_eq_false]
      rintro ⟨busy, none_⟩
      rcases waits with idle | ⟨q, present, retired, holds⟩
      · exact Bool.noConfusion (idle.symm.trans busy)
      · exact none_ q (List.mem_range.mpr present) (Bool.and_eq_true_iff.mpr ⟨retired, holds⟩)

end

section
/-! PROOFS. Channels of the mover take runs (spec file 11, R331 to R335, R416). -/

open Sys2Proof

namespace Sys2Proof.Machine

/-! ### The channel that a COPY waits at -/

theorem mem_insertBy {α : Type} {le : α → α → Bool} {x y : α} : ∀ {l : List α}, y ∈ insertBy le x l ↔ y = x ∨ y ∈ l
  | [] => List.mem_singleton.trans (or_iff_left (List.not_mem_nil)).symm
  | z :: t => by
    unfold insertBy
    split
    · exact List.mem_cons
    · rw [List.mem_cons, mem_insertBy, List.mem_cons]
      exact or_left_comm

theorem mem_sortBy {α : Type} {le : α → α → Bool} {y : α} : ∀ {l : List α}, y ∈ sortBy le l ↔ y ∈ l
  | [] => Iff.rfl
  | x :: t => by
    unfold sortBy
    rw [mem_insertBy, mem_sortBy, List.mem_cons]

/-- Of a rising list, a sort by load puts first the lowest of those with the least load. -/
theorem sortBy_least {load : Nat → Nat} {k : Nat} : ∀ {l : List Nat}, l.Pairwise (· < ·) → k ∈ l →
    (∀ j ∈ l, load k < load j ∨ (load k = load j ∧ k ≤ j)) →
    ∃ t, sortBy (fun a b => decide (load a ≤ load b)) l = k :: t
  | x :: t, rising, listed, least => by
    obtain ⟨first, rest⟩ := List.pairwise_cons.mp rising
    unfold sortBy
    rcases List.mem_cons.mp listed with rfl | later
    · cases sorted : sortBy (fun a b => decide (load a ≤ load b)) t with
      | nil => exact ⟨[], rfl⟩
      | cons y u =>
        have there : y ∈ t := mem_sortBy.mp (sorted ▸ List.mem_cons_self)
        have light : load k ≤ load y := (least y (List.mem_cons_of_mem _ there)).elim Nat.le_of_lt fun same => Nat.le_of_eq same.1
        exact ⟨y :: u, if_pos (decide_eq_true light)⟩
    · obtain ⟨u, sorted⟩ := sortBy_least rest later fun j there => least j (List.mem_cons_of_mem _ there)
      have heavier : load k < load x := (least x List.mem_cons_self).resolve_right fun same =>
        absurd (first k later) (Nat.not_lt.mpr same.2)
      rw [sorted]
      refine ⟨insertBy (fun a b => decide (load a ≤ load b)) x u, if_neg ?_⟩
      rw [decide_eq_true_eq]
      exact Nat.not_le.mpr heavier

section
variable {s s1 s2 : State} {id ch : Nat} {c : Cmd} {bus : Bus}

/-- The channels of a partition that take copies, in order. -/
def copyChannels (s : State) (p : BitVec 3) : List Nat :=
  (List.range (chanCount s)).filter fun k => (chan s k).copy && decide (chanPart s k = some p)

theorem mem_copyChannels {p : BitVec 3} {k : Nat} :
    k ∈ copyChannels s p ↔ k < s.build.channels ∧ (chan s k).copy = true ∧ chanPart s k = some p := by
  unfold copyChannels chanCount
  rw [List.mem_filter, List.mem_range, Bool.and_eq_true, decide_eq_true_eq]

/-- What COPY checks of its fields. -/
def copyFields (s : State) (c : Cmd) : Bool :=
  decide (bits (c.raw.w 3) 37 0 ≠ 0) && !(bit (c.raw.w 4) 0 && (ctxOf s c.ctx).conf && !(ctxOf s c.ctx).sret)

theorem copyFields_holds (bytes : bits (c.raw.w 3) 37 0 ≠ 0)
    (sealed : bit (c.raw.w 4) 0 = false ∨ (ctxOf s c.ctx).sret = true ∨ (ctxOf s c.ctx).conf = false) :
    copyFields s c = true := by
  unfold copyFields
  rw [decide_eq_true bytes, Bool.true_and, Bool.not_eq_true']
  rcases sealed with local_ | seals | plain
  · rw [local_, Bool.false_and, Bool.false_and]
  · rw [seals, Bool.not_true, Bool.and_false]
  · rw [plain, Bool.and_false, Bool.false_and]

theorem copyFields_fails (bad : bits (c.raw.w 3) 37 0 = 0 ∨
    bit (c.raw.w 4) 0 = true ∧ (ctxOf s c.ctx).sret = false ∧ (ctxOf s c.ctx).conf = true) : copyFields s c = false := by
  unfold copyFields
  rcases bad with empty | ⟨host, unsealed, conf⟩
  · rw [decide_eq_false fun some_ => some_ empty, Bool.false_and]
  · rw [host, unsealed, conf]
    exact Bool.and_false _

theorem copyAct_queues {k : Nat} (fine : copyFields s c = true) (listed : k ∈ copyChannels s c.part)
    (least : ∀ j ∈ copyChannels s c.part, (chan s k).queue.length < (chan s j).queue.length ∨
      ((chan s k).queue.length = (chan s j).queue.length ∧ k ≤ j)) :
    copyAct id c s = queueRun id k s := by
  have rising : (copyChannels s c.part).Pairwise (· < ·) := List.pairwise_lt_range.filter _
  obtain ⟨t, sorted⟩ := sortBy_least (load := fun k => (chan s k).queue.length) rising listed least
  unfold copyAct
  refine (act_bind_ok act_get).trans ((act_bind_ok (act_need_holds fine)).trans ?_)
  exact congrArg (fun l : List Nat => (match l with
    | k :: _ => queueRun id k
    | [] => failWith stState : Act Unit) s) sorted

theorem copyAct_no_channel (fine : copyFields s c = true) (none_ : ∀ k, k ∉ copyChannels s c.part) :
    copyAct id c s = .error (.ended stState 0) s := by
  unfold copyAct
  refine (act_bind_ok act_get).trans ((act_bind_ok (act_need_holds fine)).trans ?_)
  exact congrArg (fun l : List Nat => (match sortBy (fun a b => decide (chanLoad (chan s a) ≤ chanLoad (chan s b))) l with
    | k :: _ => queueRun id k
    | [] => failWith stState : Act Unit) s) (List.eq_nil_iff_forall_not_mem.mpr none_)

theorem copyAct_bad_field (bad : copyFields s c = false) : copyAct id c s = .error (.ended stBadField 0) s := by
  unfold copyAct
  exact (act_bind_ok act_get).trans (act_bind_error (act_need_fails bad))

/-! ### RUN_CHANNEL -/

section
variable (owned : bits (c.raw.w 2) 5 0 < s.build.channels ∧ chanPart s (bits (c.raw.w 2) 5 0) = some c.part)
include owned

theorem runChannelAct_queues (plain : (ctxOf s c.ctx).conf = false) :
    runChannelAct bus id c s = queueRun id (bits (c.raw.w 2) 5 0) s := by
  unfold runChannelAct
  refine (act_bind_ok act_get).trans ((act_bind_ok (act_need_holds (decide_eq_true owned))).trans ?_)
  exact congrArg (fun m : Act Unit => m s) (if_neg (ne_true_of_eq_false plain))

/-- For a confidential context, the pages of the program decide. -/
theorem runChannelAct_measures {o : Obj} {m : Bool} (conf : (ctxOf s c.ctx).conf = true)
    (read : objGet bus (hIndex (c.raw.w 1)) s = .ok o s1) (measured : allMeasured bus o s1 = .ok m s2) :
    runChannelAct bus id c s = (do
      need m stState
      queueRun id (bits (c.raw.w 2) 5 0)) s2 := by
  unfold runChannelAct
  refine (act_bind_ok act_get).trans ((act_bind_ok (act_need_holds (decide_eq_true owned))).trans ?_)
  refine (congrArg (fun m : Act Unit => m s) (if_pos conf)).trans ?_
  exact (act_bind_ok read).trans (act_bind_ok measured)

end

theorem runChannelAct_bad_field
    (foreign : ¬ (bits (c.raw.w 2) 5 0 < s.build.channels ∧ chanPart s (bits (c.raw.w 2) 5 0) = some c.part)) :
    runChannelAct bus id c s = .error (.ended stBadField 0) s := by
  unfold runChannelAct
  exact (act_bind_ok act_get).trans (act_bind_error (act_need_fails (decide_eq_false foreign)))

/-! ### CHANNEL_RUN_START -/

theorem channelRunStart_loading (works : runsWork s = true) (loading : (chan s ch).st = .loading) :
    exec (.channelRunStart ch bus) s = .next (settleRun (loadRun s bus ch) bus ch) := by
  show execChannelRunStart ch bus s = _
  unfold execChannelRunStart
  rw [works]
  dsimp only
  rw [loading]
  rfl

/-- The state in which the first waiting run has its channel. -/
def runTaken (s : State) (ch id : Nat) (t : List Nat) (c : Cmd) : State :=
  updChan s ch fun x => { x with
    queue := t, st := .loading, run := some { cmd := id, ctx := c.ctx, arg0 := c.raw.w 3, arg1 := c.raw.w 4 } }

theorem channelRunStart_takes {t : List Nat} (works : runsWork s = true) (idle : (chan s ch).st = .idle)
    (queue : (chan s ch).queue = id :: t) (cmd : cmdOf s id = some c) :
    exec (.channelRunStart ch bus) s = .next (settleRun (loadRun (runTaken s ch id t c) bus ch) bus ch) := by
  show execChannelRunStart ch bus s = _
  unfold execChannelRunStart
  rw [works]
  dsimp only
  rw [idle, queue]
  dsimp only
  rw [cmd]
  rfl

theorem channelRunStart_nothing (nothing : runsWork s = false ∨ (chan s ch).st = .idle ∧ (chan s ch).queue = [] ∨
    ((chan s ch).st ≠ .idle ∧ (chan s ch).st ≠ .loading)) : exec (.channelRunStart ch bus) s = .next s := by
  show execChannelRunStart ch bus s = _
  unfold execChannelRunStart
  rcases nothing with stopped | ⟨idle, empty⟩ | ⟨notIdle, notLoading⟩
  · rw [stopped]
    rfl
  · split
    · rfl
    · dsimp only
      rw [idle, empty]
  · split
    · rfl
    · dsimp only
      split
      case h_1 loading => exact absurd loading notLoading
      case h_2 idle _ => exact absurd idle notIdle
      case h_3 => rfl

/-- The load of a COPY: its own program, at work at once. -/
def copyLoaded (s : State) (ch : Nat) (c : Cmd) : State :=
  let ws := copyProg (c.raw.w 1) (c.raw.w 2) (bit (c.raw.w 4) 0) 129 (bits (c.raw.w 3) 37 0)
  updChan s ch fun x => { x with st := .running, run := x.run.map fun r =>
    { r with prog := ws, moves := (ws.length - 1) / 4, builtin := true, stopOnBad := true } }

theorem loadRun_copy {r : Run} (run : (chan s ch).run = some r) (cmd : cmdOf s r.cmd = some c) (copy : c.raw.opcode = opCopy) :
    loadRun s bus ch = copyLoaded s ch c := by
  unfold loadRun
  rw [run]
  dsimp only
  rw [cmd]
  exact if_pos copy

theorem chan_runTaken {t : List Nat} : chan (runTaken s ch id t c) ch = { chan s ch with
    queue := t, st := .loading, run := some { cmd := id, ctx := c.ctx, arg0 := c.raw.w 3, arg1 := c.raw.w 4 } } :=
  chan_updChan s ch fun x => { x with
    queue := t, st := .loading, run := some { cmd := id, ctx := c.ctx, arg0 := c.raw.w 3, arg1 := c.raw.w 4 } }

theorem chan_copyLoaded : chan (copyLoaded s ch c) ch = { chan s ch with st := .running, run := (chan s ch).run.map fun r =>
    { r with prog := copyProg (c.raw.w 1) (c.raw.w 2) (bit (c.raw.w 4) 0) 129 (bits (c.raw.w 3) 37 0)
             moves := ((copyProg (c.raw.w 1) (c.raw.w 2) (bit (c.raw.w 4) 0) 129 (bits (c.raw.w 3) 37 0)).length - 1) / 4
             builtin := true, stopOnBad := true } } := chan_updChan s ch _

/-! ### The program of a COPY -/

variable {src dst : Word} {host : Bool} {fuel len : Nat}

theorem copyProg_one (some_ : 0 < len) (fits : len ≤ 2 ^ 31) :
    copyProg src dst host (fuel + 2) len = [BitVec.ofNat 64 (len * 2 ^ 32 + flagAt host 16 + 1), src, dst, 0, 7] := by
  have ends (a b : Word) : copyProg a b host (fuel + 1) (len - len) = [7] := if_pos (Nat.sub_self len)
  refine (if_neg (Nat.ne_of_gt some_)).trans ?_
  dsimp only
  rw [Nat.min_eq_left fits, ends]

theorem copyProg_more (long : 2 ^ 31 < len) :
    copyProg src dst host (fuel + 1) len = BitVec.ofNat 64 (2 ^ 31 * 2 ^ 32 + flagAt host 16 + 1) :: src :: dst :: 0 ::
      copyProg (src + BitVec.ofNat 64 (2 ^ 31)) (dst + BitVec.ofNat 64 (2 ^ 31)) host fuel (len - 2 ^ 31) := by
  have some_ : len ≠ 0 := by omega
  refine (if_neg some_).trans ?_
  dsimp only
  rw [Nat.min_eq_right (Nat.le_of_lt long)]

end

end Sys2Proof.Machine

open Sys2Proof.Machine

/-- Settles O50: where runs wait, and how one starts. -/
theorem channelsTakeRuns : Obligations.ChannelsTakeRuns := by
  unfold Obligations.ChannelsTakeRuns
  refine ⟨?_, ?_, ?_, ?_, ?_, ?_, ?_⟩
  · intro id c s at_ bytes sealed own
    have fine := copyFields_holds bytes sealed
    refine ⟨?_, ?_⟩
    · intro k owned least
      exact congrArg Host.Outcome.next (runCmd_ok at_ (copyAct_queues fine (mem_copyChannels.mpr owned)
        fun j listed => least j (mem_copyChannels.mp listed)))
    · intro none_
      exact congrArg Host.Outcome.next (runCmd_ended at_ (copyAct_no_channel fine
        fun k listed => none_ k (mem_copyChannels.mp listed)))
  · intro id c s at_ bad
    exact congrArg Host.Outcome.next (runCmd_ended at_ (copyAct_bad_field (copyFields_fails bad)))
  · intro id c bus s at_ k
    refine ⟨?_, ?_, ?_⟩
    · intro present owner plain
      exact congrArg Host.Outcome.next (runCmd_ok at_ (runChannelAct_queues ⟨present, owner⟩ plain))
    · intro o m s1 s2 present owner conf read measured
      have checks := runChannelAct_measures (id := id) ⟨present, owner⟩ conf read measured
      cases m with
      | true => exact congrArg Host.Outcome.next (runCmd_ok at_ (checks.trans (act_bind_ok (act_need_holds rfl))))
      | false => exact congrArg Host.Outcome.next (runCmd_ended at_ (checks.trans (act_bind_error (act_need_fails rfl))))
    · intro foreign
      refine congrArg Host.Outcome.next (runCmd_ended at_ (runChannelAct_bad_field ?_))
      rintro ⟨present, owner⟩
      rcases foreign with out | other
      · exact absurd present (Nat.not_lt.mpr out)
      · exact other owner
  · intro ch bus s
    exact ⟨channelRunStart_loading, fun id t c works idle queue cmd => channelRunStart_takes works idle queue cmd,
      channelRunStart_nothing⟩
  · intro ch id t c bus s works idle queue cmd copy
    have taken := chan_runTaken (s := s) (ch := ch) (id := id) (t := t) (c := c)
    have loads : loadRun (runTaken s ch id t c) bus ch = copyLoaded (runTaken s ch id t c) ch c :=
      loadRun_copy (congrArg Channel.run taken) cmd copy
    have at_ := chan_copyLoaded (s := runTaken s ch id t c) (ch := ch) (c := c)
    have running : (chan (copyLoaded (runTaken s ch id t c) ch c) ch).st = .running := congrArg Channel.st at_
    refine ⟨copyLoaded (runTaken s ch id t c) ch c, ?_, running, ?_, rfl, ?_⟩
    · refine (channelRunStart_takes works idle queue cmd).trans (congrArg Host.Outcome.next ?_)
      rw [loads]
      exact settleRun_at_work _ bus ch (.inl running)
    · exact (congrArg Channel.queue at_).trans (congrArg Channel.queue taken)
    · exact ⟨_, (congrArg Channel.run at_).trans (congrArg (Option.map _) (congrArg Channel.run taken)), rfl, rfl, rfl, rfl, rfl⟩
  · intro src dst host len some_ fits
    exact copyProg_one some_ fits
  · intro src dst host fuel len long
    exact copyProg_more long

end

section
/-! PROOFS. Channel programs (spec file 11, R338 to R360): loops, fences, moves, waits, signals and the end of a run. -/

open Sys2Proof

namespace Sys2Proof.Machine

section
variable {s u : State} {ch op : Nat} {r : Run} {bus : Bus} {f : Run → Run}

/-! ### The run of a channel -/

theorem run_updRun (run : (chan s ch).run = some r) : (chan (updRun s ch f) ch).run = some (f r) :=
  (updRun_keeps_state s ch f).1.trans (congrArg (Option.map f) run)

theorem st_updRun : (chan (updRun s ch f) ch).st = (chan s ch).st := (updRun_keeps_state s ch f).2

theorem mvLen_one {w : Word} (op : mvOp w = 0 ∨ mvOp w = 3 ∨ mvOp w = 6) : mvLen w = 1 := by
  unfold mvLen
  rcases op with op | op | op
  · rw [op]
    rfl
  · rw [op]
    rfl
  · rw [op]
    rfl

theorem mvLen_two {w : Word} (op : mvOp w = 2) : mvLen w = 2 := by
  unfold mvLen
  rw [op]
  rfl

theorem mvLen_three {w : Word} (op : mvOp w = 4 ∨ mvOp w = 5) : mvLen w = 3 := by
  unfold mvLen
  rcases op with op | op
  · rw [op]
    rfl
  · rw [op]
    rfl

theorem advance_eq {n : Nat} (len : mvLen (r.prog.getD r.pc 0) = n) : advance r = { r with pc := r.pc + n } := by
  unfold advance
  rw [len]

/-- An instruction that ends in an update of its run, while the channel stays at work. -/
theorem updates_run (at_ : ChannelAt s ch op r) {r' : Run} (is : f r = r') :
    (updRun s ch f).mem = s.mem ∧ (chan (updRun s ch f) ch).st = .running ∧ (chan (updRun s ch f) ch).run = some r' :=
  ⟨rfl, st_updRun.trans at_.st, (run_updRun at_.run).trans (congrArg some is)⟩

/-! ### Loops and NOPs -/

theorem loop_runs (at_ : ChannelAt s ch 2 r) :
    let w := r.prog.getD r.pc 0
    let x := r.prog.getD (r.pc + 1) 0
    exec (.loop ch) s = .next (if bits w 63 32 = 0 then
        updRun s ch fun r => { r with pc := skipLoop r.prog r.prog.length (r.pc + 2) 0 }
      else updRun s ch fun r' => { advance r' with
        loops := ⟨r'.pc + 2, bits w 63 32, 0, BitVec.ofNat 32 (bits x 31 0), BitVec.ofNat 32 (bits x 63 32)⟩ :: r'.loops }) :=
  congrArg Host.Outcome.next (onInstr_runs at_)

theorem endloop_runs {l : LoopFr} {ls : List LoopFr} (at_ : ChannelAt s ch 3 r) (loops : r.loops = l :: ls) :
    exec (.endloop ch) s = .next (if l.idx + 1 < l.count then
        updRun s ch fun r => { r with pc := l.body, loops := { l with idx := l.idx + 1 } :: ls }
      else updRun s ch fun r => { advance r with loops := ls }) := by
  refine congrArg Host.Outcome.next ((onInstr_runs at_).trans ?_)
  rw [loops]

/-! ### Fences -/

theorem acked_iff : acked s r = true ↔ r.execs = [] ∧ hintsDone s r.hints = true := by
  rw [acked, Bool.and_eq_true, List.isEmpty_iff]

theorem flushWaits_none (none_ : r.ports = []) : flushWaits s r = false := by
  rw [flushWaits, none_]
  rfl

theorem flushWaits_silent (used : r.ports ≠ []) (silent : fnIssues s (ctxFn s r.ctx) = false) : flushWaits s r = true := by
  rw [flushWaits, silent, List.isEmpty_eq_false_iff.mpr used]
  rfl

theorem flushWaits_issues (issues : fnIssues s (ctxFn s r.ctx) = true) : flushWaits s r = false := by
  rw [flushWaits, issues]
  exact Bool.and_false _

/-- With no host port used, no flush read is sent. -/
theorem chanFlush_none (run : (chan s ch).run = some r) (none_ : r.ports = []) :
    chanFlush s ch = (updRun s ch fun r' => { r' with ports := [], hostMs := [], flushes := r'.flushes ++ [] }, []) := by
  unfold chanFlush
  rw [run]
  dsimp only
  rw [none_]
  rfl

/-- What a flush without host ports leaves of the run. -/
theorem flushed_eq (none_ : r.ports = []) :
    { r with ports := [], hostMs := [], flushes := r.flushes ++ [] } = { r with hostMs := [] } := by
  obtain ⟨⟩ := r
  cases none_
  rw [List.append_nil]

theorem fence_runs (at_ : ChannelAt s ch 6 r) :
    exec (.fence ch) s = .next (
      if bits (r.prog.getD r.pc 0) 9 8 = 0 then updRun s ch advance
      else if !acked s r then s
      else if bits (r.prog.getD r.pc 0) 9 8 ≠ 3 then updRun s ch advance
      else match r.fence with
        | some [] => updRun s ch fun r => { advance r with fence := none }
        | some _ => s
        | none =>
          if flushWaits s r then s
          else if (chanFlush s ch).2 = [] then updRun (chanFlush s ch).1 ch advance
          else updRun (chanFlush s ch).1 ch fun r => { r with fence := some (chanFlush s ch).2 }) :=
  congrArg Host.Outcome.next (onInstr_runs at_)

/-- A FENCE that every earlier write lets through. -/
theorem fence_passes (at_ : ChannelAt s ch 6 r)
    (pass : bits (r.prog.getD r.pc 0) 9 8 = 0 ∨ (bits (r.prog.getD r.pc 0) 9 8 ≠ 3 ∧ acked s r = true)) :
    exec (.fence ch) s = .next (updRun s ch advance) := by
  refine (fence_runs at_).trans (congrArg Host.Outcome.next ?_)
  rcases pass with read | ⟨mode, done⟩
  · exact if_pos read
  · by_cases read : bits (r.prog.getD r.pc 0) 9 8 = 0
    · exact if_pos read
    · rw [if_neg read, done]
      exact (if_neg (nofun : ¬ (!true) = true)).trans (if_pos mode)

theorem fence_waits (at_ : ChannelAt s ch 6 r) (mode : bits (r.prog.getD r.pc 0) 9 8 ≠ 0) (open_ : acked s r = false) :
    exec (.fence ch) s = .next s := by
  refine (fence_runs at_).trans (congrArg Host.Outcome.next ((if_neg mode).trans ?_))
  rw [open_]
  rfl

/-- A HOST fence whose earlier writes are acknowledged. -/
theorem fence_host (at_ : ChannelAt s ch 6 r) (mode : bits (r.prog.getD r.pc 0) 9 8 = 3) (done : acked s r = true) {t : State}
    (goes : (match r.fence with
      | some [] => updRun s ch fun r => { advance r with fence := none }
      | some _ => s
      | none =>
        if flushWaits s r then s
        else if (chanFlush s ch).2 = [] then updRun (chanFlush s ch).1 ch advance
        else updRun (chanFlush s ch).1 ch fun r => { r with fence := some (chanFlush s ch).2 }) = t) :
    exec (.fence ch) s = .next t := by
  have some_ : ¬ bits (r.prog.getD r.pc 0) 9 8 = 0 := by
    rw [mode]
    decide
  refine (fence_runs at_).trans (congrArg Host.Outcome.next ((if_neg some_).trans ?_))
  rw [done]
  refine (if_neg (nofun : ¬ (!true) = true)).trans ((if_neg fun other => other mode).trans ?_)
  exact goes

/-! ### Moves -/

theorem move_runs (at_ : ChannelAt s ch 1 r) {t : State}
    (goes : (match r.cur with
      | some _ => stepCur s bus ch
      | none =>
        if 8 ≤ r.execs.length then s
        else
          let e := newExec r
          let s := updStat s ch e.m fun w => { w with execs := if w.execs.toNat < 0xFFFFFFFF then w.execs + 1 else w.execs }
          if misaligned e then badExec (updRun s ch advance) ch e mcAlign stBadField 0
          else stepCur (updRun s ch fun r => { r with cur := some e }) bus ch) = t) :
    exec (.move ch bus) s = .next (settleRun t bus ch) :=
  congrArg (fun t => Host.Outcome.next (settleRun t bus ch)) ((onInstr_runs at_).trans goes)

/-- What an execution that has been taken as far as it goes leaves of the run. -/
def curAfter (u : State) (ch : Nat) (e : Exec) (res : IoRes) : State :=
  match res with
  | .held _ | .wait => updRun u ch fun r => { r with cur := some e }
  | .bad c st d => badExec (closeCur u ch e) ch e c st d
  | .done =>
    if e.acks = [] then doneExec (closeCur u ch e) ch e.m
    else updRun (closeCur u ch e) ch fun r => { r with execs := r.execs ++ [e] }

theorem stepCur_after {e e' : Exec} {res : IoRes} (run : (chan s ch).run = some r) (cur : r.cur = some e)
    (free : e.held = none ∧ e.rd = none) (ran : runExec bus (mvCx s ch r) r.busy s e = (u, e', res)) :
    stepCur s bus ch = curAfter u ch e' res := by
  have moves : ¬ (e.held.isSome = true ∨ e.rd.isSome = true) := by
    rw [free.1, free.2]
    exact fun either => either.elim nofun nofun
  unfold stepCur
  rw [run]
  dsimp only
  rw [cur]
  dsimp only
  rw [if_neg moves, ran]
  cases res with
  | _ => rfl

/-! ### Waits -/

/-- The WAIT that becomes pending. -/
def newWait (s : State) (r : Run) (a : Nat) : ChWait :=
  { event := hIndex (r.prog.getD (r.pc + 1) 0), addr := a, target := sigValue r
    limit := if bits (r.prog.getD r.pc 0) 63 32 = 0 then none else some (s.tick + 1000 * bits (r.prog.getD r.pc 0) 63 32) }

theorem channelWait_runs (at_ : ChannelAt s ch 4 r) (free : r.held = none) {o : Obj} {a v sz : Nat} {pte : Word}
    {s1 s2 s3 : State} (read : objGet bus (hIndex (r.prog.getD (r.pc + 1) 0)) s = .ok o s1)
    (at_event : translate s1 bus { (mvCx s ch r).req r.ctx (BitVec.ofNat 64 o.va) .read with user := .engine } =
      (s2, .ok a pte sz))
    (value : eventValue bus o.part r.cmd a s2 = .ok v s3) :
    exec (.channelWait ch bus) s = .next (settleRun (
      if (sigValue r).toNat ≤ v then waitMet s3 ch
      else if (ctxOf s3 r.ctx).disabling then failRun s3 ch stAborted 0
      else updChan s3 ch fun c => { c with
        st := .waiting, run := c.run.map fun r' => { r' with wait := some (newWait s3 r a) } }) bus ch) := by
  have walks : trAct bus { (mvCx s ch r).req r.ctx (BitVec.ofNat 64 o.va) .read with user := .engine } s1 =
      .ok (a, pte, sz) s2 := by
    unfold trAct
    dsimp only
    rw [at_event]
  have unheld : ¬ r.held.isSome = true := by
    rw [free]
    exact nofun
  refine congrArg (fun t => Host.Outcome.next (settleRun t bus ch)) ((onInstr_runs at_).trans ((if_neg unheld).trans ?_))
  refine runAct_ok (a := (a, v)) ?_
  exact (act_bind_ok read).trans ((act_bind_ok walks).trans (act_bind_ok value))

/-- A WAIT whose event is at its target goes on. -/
theorem waitMet_runs (run : (chan s ch).run = some r) :
    (waitMet s ch).mem = s.mem ∧ (chan (waitMet s ch) ch).st = .running ∧
      (chan (waitMet s ch) ch).run = some { advance r with wait := none } := by
  have at_ := chan_updChan s ch fun c => { c with st := .running, run := c.run.map fun r => { advance r with wait := none } }
  exact ⟨rfl, congrArg Channel.st at_, (congrArg Channel.run at_).trans (congrArg (Option.map _) run)⟩

section
variable {w : ChWait} {limit : Nat} (run : (chan s ch).run = some r) (waits : r.wait = some w) (timed : w.limit = some limit)
include run waits timed

theorem channelWaitTimeout_eq :
    exec (.channelWaitTimeout ch) s = .next (if runsWork s then
        settleRun (runAct (eventValue [] (mvCx s ch r).part r.cmd w.addr) (reach s limit)
          (fun s v => if w.target.toNat ≤ v then waitMet s ch else failRun s ch stTimeout 0)
          (fun s _ => failRun s ch stTimeout 0)) [] ch
      else s) := by
  show execChannelWaitTimeout ch s = _
  unfold execChannelWaitTimeout
  rw [run]
  dsimp only
  rw [waits]
  dsimp only
  rw [timed]

end

/-! ### Signals -/

theorem channelSignal_waits (at_ : ChannelAt s ch 5 r) (waits : 4 ≤ r.sigs.length ∨ flushWaits s r = true) :
    exec (.channelSignal ch) s = .next s := congrArg Host.Outcome.next ((onInstr_runs at_).trans (if_pos waits))

/-- The SIGNAL that becomes pending. -/
def newSignal (s : State) (ch : Nat) (r : Run) : PendSig :=
  { event := r.prog.getD (r.pc + 1) 0, value := sigValue r, remote := bit (r.prog.getD r.pc 0) 9
    node := bits (r.prog.getD r.pc 0) 25 16, status := bit (r.prog.getD r.pc 0) 10
    after := r.execs.flatMap fun e => e.acks.map (·.1), hints := r.hints, flush := (chanFlush s ch).2, sent := none }

theorem channelSignal_pends (at_ : ChannelAt s ch 5 r) (room : r.sigs.length < 4) (goes : flushWaits s r = false) :
    exec (.channelSignal ch) s = .next
      (updRun (chanFlush s ch).1 ch fun r' => { advance r' with sigs := r'.sigs ++ [newSignal s ch r] }) := by
  refine congrArg Host.Outcome.next ((onInstr_runs at_).trans (if_neg ?_))
  rw [goes]
  exact fun either => either.elim (Nat.not_le.mpr room) nofun

section
variable {g : PendSig} {gs : List PendSig} (run : (chan s ch).run = some r) (sigs : r.sigs = g :: gs)
include run sigs

/-- Whether the first pending SIGNAL of a run still waits. -/
def sigWaits (s : State) (ch : Nat) (r : Run) (g : PendSig) : Prop :=
  runsWork s = false ∨ r.held.isSome = true ∨ g.sent.isSome = true ∨ g.flush ≠ [] ∨
    (g.after.any fun id => s.bl.reqs.any fun e => decide (e.2.id = id)) = true ∨ hintsDone s g.hints = false ∨
      (chan s ch).st = .aborting

theorem channelSignalSet_waits (waits : sigWaits s ch r g) : exec (.channelSignalSet ch bus) s = .next s := by
  have held : (!runsWork s) = true ∨ r.held.isSome = true ∨ g.sent.isSome = true ∨ g.flush ≠ [] ∨
      (g.after.any fun id => s.bl.reqs.any fun e => decide (e.2.id = id)) = true ∨ hintsDone s g.hints = false ∨
        (chan s ch).st = .aborting := waits.imp (Bool.not_eq_true' _).mpr id
  show execChannelSignalSet ch bus s = _
  unfold execChannelSignalSet
  rw [run]
  dsimp only
  rw [sigs]
  exact if_pos held

theorem channelSignalSet_goes (ready : ¬ sigWaits s ch r g) :
    exec (.channelSignalSet ch bus) s =
      if g.status then
        match (statStep s bus ch).2 with
        | none => .next (statStep s bus ch).1
        | some (some f) =>
          .next (settleRun (failRun (updRun (statStep s bus ch).1 ch fun r => { r with wrote := true }) ch f.1 f.2) bus ch)
        | some none =>
          .next (settleRun (setSignal (updRun (statStep s bus ch).1 ch fun r => { r with sigs := match r.sigs with
            | h :: t => { h with status := false } :: t
            | [] => [] }) bus ch r { g with status := false }) bus ch)
      else .next (settleRun (setSignal s bus ch r g) bus ch) := by
  have free : ¬ ((!runsWork s) = true ∨ r.held.isSome = true ∨ g.sent.isSome = true ∨ g.flush ≠ [] ∨
      (g.after.any fun id => s.bl.reqs.any fun e => decide (e.2.id = id)) = true ∨ hintsDone s g.hints = false ∨
        (chan s ch).st = .aborting) := fun waits => ready (waits.imp (Bool.not_eq_true' _).mp id)
  show execChannelSignalSet ch bus s = _
  unfold execChannelSignalSet
  rw [run]
  dsimp only
  rw [sigs]
  exact if_neg free

end

theorem setSignal_local {g : PendSig} {o : Obj} {s1 s2 : State} (near : g.remote = false)
    (read : objGet bus (hIndex g.event) s = .ok o s1)
    (signals : signalIn bus r.ctx o g.event g.value r.ctx ((mvCx s ch r).req r.ctx 0 .atomic) s1 = .ok () s2) :
    setSignal s bus ch r g = updRun s2 ch fun r => { r with sigs := r.sigs.tail } := by
  unfold setSignal
  dsimp only
  rw [if_neg (ne_true_of_eq_false near)]
  exact runAct_ok ((act_bind_ok read).trans signals)

/-- The first pending SIGNAL of a run changes. -/
theorem first_signal_changes {h : PendSig → PendSig} {l : List PendSig} :
    (match l with
      | g :: t => h g :: t
      | [] => []) = (l.take 1).map h ++ l.tail := by
  cases l with
  | nil => rfl
  | cons g t => rfl

theorem setSignal_sends {g : PendSig} {s1 : State} {id : Nat} (far : g.remote = true)
    (sent : mvSend s (mvCx s ch r) g.node opRSignal (.chSignal ch) g.event.toNat g.value.toNat [] = .ok s1 id) :
    setSignal s bus ch r g = updRun s1 ch fun r =>
      { r with sigs := (r.sigs.take 1).map (fun h : PendSig => { h with sent := some id }) ++ r.sigs.tail } := by
  unfold setSignal
  dsimp only
  rw [if_pos far, sent]
  refine congrArg (updRun s1 ch) (funext fun r => ?_)
  exact congrArg (fun l => { r with sigs := l }) first_signal_changes

theorem setSignal_fails {g : PendSig} (far : g.remote = true)
    (lost : mvSend s (mvCx s ch r) g.node opRSignal (.chSignal ch) g.event.toNat g.value.toNat [] = .fail) :
    setSignal s bus ch r g = failRun s ch stRemote (nodeDetail g.node) := by
  unfold setSignal
  dsimp only
  rw [if_pos far, lost]

/-! ### STOP and the end of a run -/

theorem stop_waits (at_ : ChannelAt s ch 7 r) (waits : acked s r = false ∨ flushWaits s r = true) :
    exec (.stop ch bus) s = .next s := by
  have held : (!acked s r || flushWaits s r) = true := by
    rw [Bool.or_eq_true, Bool.not_eq_true']
    exact waits
  have goes : ¬ (!runsWork s) = true := by
    rw [at_.works]
    exact nofun
  refine (if_neg goes).trans (congrArg Host.Outcome.next ?_)
  refine (congrArg (fun t => settleRun t bus ch) ((onInstr_runs at_).trans (if_pos held))).trans ?_
  exact settleRun_at_work s bus ch (.inl at_.st)

/-- The run of a STOP is ending. -/
def stopping (s : State) (ch : Nat) : State :=
  updChan (chanFlush s ch).1 ch fun c => { c with
    st := .ending, run := c.run.map fun r => { r with last := some (chanFlush s ch).2 } }

theorem stop_ends (at_ : ChannelAt s ch 7 r) (done : acked s r = true) (free : flushWaits s r = false) :
    exec (.stop ch bus) s = .next (settleRun (stopping s ch) bus ch) := by
  have held : ¬ (!acked s r || flushWaits s r) = true := by
    rw [done, free]
    exact nofun
  have goes : ¬ (!runsWork s) = true := by
    rw [at_.works]
    exact nofun
  refine (if_neg goes).trans (congrArg Host.Outcome.next ?_)
  exact congrArg (fun t => settleRun t bus ch) ((onInstr_runs at_).trans (if_neg held))

/-- The run of a STOP with nothing left to flush. -/
def lastRun (r : Run) : Run := { r with ports := [], hostMs := [], flushes := r.flushes ++ [], last := some [] }

theorem chan_stopping (run : (chan s ch).run = some r) (none_ : r.ports = []) :
    chan (stopping s ch) ch = { chan s ch with st := .ending, run := some (lastRun r) } := by
  unfold stopping
  rw [chanFlush_none run none_, chan_updChan]
  dsimp only
  rw [chan_updRun, run]
  rfl

theorem stopping_keeps (run : (chan s ch).run = some r) (none_ : r.ports = []) :
    (stopping s ch).mem = s.mem ∧ (stopping s ch).bl = s.bl ∧ (stopping s ch).ch = s.ch := by
  unfold stopping
  rw [chanFlush_none run none_]
  exact ⟨rfl, rfl, rfl⟩

/-- A run without pins ends: its channel is IDLE and its command has ended OK. -/
theorem finishRun_ends (ending : (chan s ch).st = .ending) (pins : r.pins = []) (plain : r.builtin = false)
    (fine : r.fail = none) (flushed : r.flushBad = false) :
    ∃ u, finishRun s bus ch r = endCmd u r.cmd stOk 0 ∧ (chan u ch).st = .idle ∧ (chan u ch).run = none ∧ u.mem = s.mem := by
  let s1 := updCmd s r.cmd fun c => { c with ports := r.ports.foldl (fun l p => usedPort l p.1 p.2) c.ports }
  have at_ := chan_updChan s1 ch fun c => { c with st := .idle, run := none }
  refine ⟨updChan s1 ch fun c => { c with st := .idle, run := none }, ?_, congrArg Channel.st at_, congrArg Channel.run at_, rfl⟩
  have alive : decide ((chan s ch).st = .aborting) = false := by
    rw [ending]
    rfl
  unfold finishRun
  rw [pins]
  dsimp only [forAll]
  show (if decide ((chan s ch).st = .aborting) = true then _ else _) = _
  rw [alive, plain, fine, flushed]
  rfl

/-- The end of a run that has nothing left to wait for, and no status words to write. -/
theorem settleRun_finishes (run : (chan s ch).run = some r) (ending : (chan s ch).st = .ending) (free : r.held = none)
    (flushes : r.flushes = []) (quiet : chQuiet s ch = true) (hints : hintsDone s r.hints = true)
    (sigs : r.sigs = []) (last : r.last.isSome = true) (unwritten : r.wrote = false) (noStat : r.statVa = 0)
    (fine : r.fail = none) :
    settleRun s bus ch =
      finishRun (updRun s ch fun r => { r with wrote := true, fail := if r.fail.isNone then none else r.fail }) bus ch
        { r with wrote := true } := by
  have past : ¬ (¬ ((chan s ch).st = .ending ∨ (chan s ch).st = .aborting) ∨ r.held.isSome = true ∨ r.flushes ≠ [] ∨
      (r.io = none ∧ (chQuiet s ch = false ∨ hintsDone s r.hints = false))) := by
    rw [ending, free, flushes, quiet, hints]
    rintro (busy | held | flush | ⟨-, noisy | hinted⟩)
    · exact busy (.inl rfl)
    · cases held
    · exact flush rfl
    · cases noisy
    · cases hinted
  have settled : ¬ (r.fail.isNone = true ∧ (chan s ch).st = .ending ∧ (r.sigs ≠ [] ∨ r.last.isNone = true)) := by
    rw [sigs]
    rintro ⟨-, -, pend | waits⟩
    · exact pend rfl
    · rw [Option.isNone_iff_eq_none] at waits
      rw [waits] at last
      cases last
  have stat : statStep s bus ch = (s, some none) := by
    unfold statStep
    rw [run]
    exact if_pos (.inl noStat)
  unfold settleRun
  rw [run]
  dsimp only
  rw [if_neg past, if_neg settled, unwritten, stat]
  dsimp only
  rw [if_neg Bool.false_ne_true, run_updRun run]
  dsimp only
  rw [fine]
  rfl

end

end Sys2Proof.Machine

open Sys2Proof.Machine

/-- Settles O51: each instruction of a program by its own rule, and the end of a run. -/
theorem programsRun : Obligations.ProgramsRun := by
  unfold Obligations.ProgramsRun
  refine ⟨⟨?_, ?_, ?_, ?_⟩, ?_, ?_, ?_, ?_, ?_, ?_, ?_, ?_, ?_⟩
  · intro ch r s at_ w x
    by_cases empty : bits w 63 32 = 0
    · obtain ⟨mem, st, run⟩ := updates_run at_ (f := fun r => { r with pc := skipLoop r.prog r.prog.length (r.pc + 2) 0 }) rfl
      exact ⟨_, (loop_runs at_).trans (congrArg Host.Outcome.next (if_pos empty)), mem, st, fun some_ => absurd empty some_,
        fun _ => run⟩
    · obtain ⟨mem, st, run⟩ := updates_run at_ (f := fun r' => { advance r' with
        loops := ⟨r'.pc + 2, bits w 63 32, 0, BitVec.ofNat 32 (bits x 31 0), BitVec.ofNat 32 (bits x 63 32)⟩ :: r'.loops })
        (congrArg (fun q : Run => { q with
          loops := ⟨r.pc + 2, bits w 63 32, 0, BitVec.ofNat 32 (bits x 31 0), BitVec.ofNat 32 (bits x 63 32)⟩ :: r.loops })
          (advance_eq (mvLen_two at_.op)))
      exact ⟨_, (loop_runs at_).trans (congrArg Host.Outcome.next (if_neg empty)), mem, st, fun _ => run,
        fun none_ => absurd none_ empty⟩
  · intro ch r l ls s at_ loops
    by_cases more : l.idx + 1 < l.count
    · obtain ⟨mem, st, run⟩ := updates_run at_
        (f := fun r => { r with pc := l.body, loops := { l with idx := l.idx + 1 } :: ls }) rfl
      exact ⟨_, (endloop_runs at_ loops).trans (congrArg Host.Outcome.next (if_pos more)), mem, st, fun _ => run,
        fun done => absurd more (Nat.not_lt.mpr done)⟩
    · obtain ⟨mem, st, run⟩ := updates_run at_ (f := fun r => { advance r with loops := ls })
        (congrArg (fun q : Run => { q with loops := ls }) (advance_eq (mvLen_one (.inr (.inl at_.op)))))
      exact ⟨_, (endloop_runs at_ loops).trans (congrArg Host.Outcome.next (if_neg more)), mem, st, fun again => absurd again more,
        fun _ => run⟩
  · intro ch r s at_
    obtain ⟨mem, st, run⟩ := updates_run at_ (advance_eq (mvLen_one (.inl at_.op)))
    exact ⟨_, congrArg Host.Outcome.next (onInstr_runs at_), mem, st, run⟩
  · intro ch r s at_ mode
    have next := advance_eq (mvLen_one (.inr (.inr at_.op)))
    have acks (execs : r.execs = []) (hints : hintsDone s r.hints = true) : acked s r = true := acked_iff.mpr ⟨execs, hints⟩
    refine ⟨?_, ?_, ?_, ?_, ?_⟩
    · intro pass
      obtain ⟨mem, -, run⟩ := updates_run at_ next
      exact ⟨_, fence_passes at_ (pass.imp_right fun ⟨other, execs, hints⟩ => ⟨other, acks execs hints⟩), mem, run⟩
    · intro host execs hints idle ports
      have goes := fence_host at_ host (acks execs hints) (t := updRun (chanFlush s ch).1 ch advance) (by
        rw [idle]
        dsimp only
        rw [flushWaits_none ports, chanFlush_none at_.run ports]
        rfl)
      refine ⟨_, goes, ?_, ?_⟩
      · rw [chanFlush_none at_.run ports]
        rfl
      · rw [chanFlush_none at_.run ports]
        refine (run_updRun (run_updRun at_.run)).trans (congrArg some ?_)
        exact (congrArg advance (flushed_eq ports)).trans (advance_eq (mvLen_one (.inr (.inr at_.op))))
    · intro host execs hints idle ports
      refine ⟨?_, ?_⟩
      · intro silent
        refine fence_host at_ host (acks execs hints) ?_
        rw [idle]
        exact if_pos (flushWaits_silent ports silent)
      · intro issues flushes
        refine fence_host at_ host (acks execs hints) ?_
        rw [idle]
        exact (if_neg (ne_true_of_eq_false (flushWaits_issues issues))).trans (if_neg flushes)
    · intro host execs hints
      refine ⟨?_, ?_⟩
      · intro answered
        obtain ⟨mem, -, run⟩ := updates_run at_ (f := fun r => { advance r with fence := none })
          (congrArg (fun q : Run => { q with fence := none }) next)
        refine ⟨_, fence_host at_ host (acks execs hints) ?_, mem, run⟩
        rw [answered]
      · intro f fs waits
        refine fence_host at_ host (acks execs hints) ?_
        rw [waits]
    · intro mode open_
      refine fence_waits at_ mode (Bool.eq_false_iff.mpr fun done => ?_)
      obtain ⟨execs, hints⟩ := acked_iff.mp done
      rcases open_ with busy | hinted
      · exact busy execs
      · exact Bool.noConfusion (hinted.symm.trans hints)
  · intro ch r bus s at_
    refine ⟨?_, ?_⟩
    · intro current
      obtain ⟨e, cur⟩ := Option.isSome_iff_exists.mp current
      refine move_runs at_ ?_
      rw [cur]
    · intro idle full
      refine (move_runs at_ (t := s) ?_).trans (congrArg Host.Outcome.next (settleRun_at_work s bus ch (.inl at_.st)))
      rw [idle]
      exact if_pos full
  · intro ch r bus s u e' res at_ idle room e s1
    have starts {t : State} (goes : (if misaligned e then badExec (updRun s1 ch advance) ch e mcAlign stBadField 0
        else stepCur (updRun s1 ch fun r => { r with cur := some e }) bus ch) = t) :
        exec (.move ch bus) s = .next (settleRun t bus ch) := by
      refine move_runs at_ ?_
      rw [idle]
      exact (if_neg (Nat.not_le.mpr room)).trans goes
    refine ⟨fun odd => starts (if_pos odd), ?_⟩
    intro even r1 run ran
    have first : (chan s1 ch).run = some _ := run_updRun at_.run
    have cur : r1.cur = some e := by
      rw [run_updRun first] at run
      exact congrArg Run.cur (Option.some.inj run).symm
    have steps := stepCur_after run cur ⟨rfl, rfl⟩ ran
    have moved {t : State} (after : curAfter u ch e' res = t) : exec (.move ch bus) s = .next (settleRun t bus ch) :=
      starts ((if_neg (ne_true_of_eq_false even)).trans (steps.trans after))
    refine ⟨?_, ?_, ?_, ?_⟩
    · rintro rfl acked
      exact moved (if_pos acked)
    · rintro rfl open_
      exact moved (if_neg open_)
    · rintro (rfl | ⟨k, rfl⟩)
      · exact moved rfl
      · exact moved rfl
    · rintro c st d rfl
      exact moved rfl
  · intro ch a v r o pte sz bus s s1 s2 s3 at_ free read at_event value same
    have goes := channelWait_runs at_ free read at_event value
    have run : (chan s3 ch).run = some r := (congrArg Channel.run same).trans at_.run
    refine ⟨?_, ?_, ?_⟩
    · intro met
      obtain ⟨mem, st, run'⟩ := waitMet_runs run
      refine ⟨waitMet s3 ch, goes.trans (congrArg Host.Outcome.next ?_), mem, st, run'.trans (congrArg some ?_)⟩
      · rw [if_pos met]
        exact settleRun_at_work _ bus ch (.inl st)
      · exact congrArg (fun q : Run => { q with wait := none }) (advance_eq (mvLen_three (.inl at_.op)))
    · intro short enabled
      have unmet : ¬ (sigValue r).toNat ≤ v := Nat.not_le.mpr short
      let t := updChan s3 ch fun c => { c with
        st := .waiting, run := c.run.map fun r' => { r' with wait := some (newWait s3 r a) } }
      have at3 : chan t ch = _ := chan_updChan s3 ch fun c => { c with
        st := .waiting, run := c.run.map fun r' => { r' with wait := some (newWait s3 r a) } }
      have st3 : (chan t ch).st = .waiting := congrArg Channel.st at3
      refine ⟨t, goes.trans (congrArg Host.Outcome.next ?_), rfl, st3, newWait s3 r a, ?_, rfl, rfl⟩
      · rw [if_neg unmet, if_neg (ne_true_of_eq_false enabled)]
        exact settleRun_at_work t bus ch (.inr st3)
      · exact (congrArg Channel.run at3).trans (congrArg (Option.map _) run)
    · intro short disabling
      refine goes.trans (congrArg (fun t => Host.Outcome.next (settleRun t bus ch)) ?_)
      exact (if_neg (Nat.not_le.mpr short)).trans (if_pos disabling)
  · intro ch t v r w s u run waits timed
    have goes := channelWaitTimeout_eq run waits timed
    refine ⟨?_, ?_, ?_⟩
    · intro stopped
      exact goes.trans (congrArg Host.Outcome.next (if_neg (ne_true_of_eq_false stopped)))
    · intro works value
      have looks := goes.trans (congrArg Host.Outcome.next ((if_pos works).trans
        (congrArg (fun t => settleRun t [] ch) (runAct_ok value))))
      exact ⟨fun met => looks.trans (congrArg (fun t => Host.Outcome.next (settleRun t [] ch)) (if_pos met)),
        fun short => looks.trans (congrArg (fun t => Host.Outcome.next (settleRun t [] ch)) (if_neg (Nat.not_le.mpr short)))⟩
    · intro e works value
      have looks := goes.trans (congrArg Host.Outcome.next (if_pos works))
      refine ⟨?_, ?_⟩
      · intro other
        refine looks.trans (congrArg (fun t => Host.Outcome.next (settleRun t [] ch)) ?_)
        unfold runAct
        rw [value]
        cases e with
        | wait => exact absurd rfl other
        | _ => rfl
      · rintro rfl
        refine looks.trans (congrArg (fun t => Host.Outcome.next (settleRun t [] ch)) ?_)
        unfold runAct
        rw [value]
  · intro ch r s at_
    refine ⟨?_, ?_, ?_, ?_⟩
    · intro full
      exact channelSignal_waits at_ (.inl full)
    · intro room ports
      have goes := channelSignal_pends at_ room (flushWaits_none ports)
      refine ⟨_, newSignal s ch r, goes, ?_, ?_, rfl, rfl, rfl⟩
      · rw [chanFlush_none at_.run ports]
        rfl
      · rw [chanFlush_none at_.run ports]
        refine (run_updRun (run_updRun at_.run)).trans (congrArg some ?_)
        exact congrArg (fun q : Run => { q with sigs := r.sigs ++ [newSignal s ch r] })
          ((congrArg advance (flushed_eq ports)).trans (advance_eq (mvLen_three (.inr at_.op))))
    · intro room ports silent
      exact channelSignal_waits at_ (.inr (flushWaits_silent ports silent))
    · intro room ports issues
      exact ⟨newSignal s ch r, channelSignal_pends at_ room (flushWaits_issues issues), rfl, rfl, rfl, rfl⟩
  · intro ch r g gs bus s works run alive sigs free unsent flushed after hints
    have ready : ¬ sigWaits s ch r g := by
      rintro (stopped | held | sent | flush | waits | hinted | dying)
      · exact Bool.noConfusion (works.symm.trans stopped)
      · rw [free] at held
        cases held
      · rw [unsent] at sent
        cases sent
      · exact flush flushed
      · exact Bool.noConfusion (after.symm.trans waits)
      · exact Bool.noConfusion (hints.symm.trans hinted)
      · exact alive dying
    have goes := channelSignalSet_goes (bus := bus) run sigs ready
    have plain (bare : g.status = false) {t : State} (sets : setSignal s bus ch r g = t) :
        exec (.channelSignalSet ch bus) s = .next (settleRun t bus ch) :=
      goes.trans ((if_neg (ne_true_of_eq_false bare)).trans (congrArg (fun t => Host.Outcome.next (settleRun t bus ch)) sets))
    refine ⟨?_, ?_, ?_, ?_, ?_, ?_⟩
    · intro o s1 s2 bare near read signals
      exact plain bare (setSignal_local near read signals)
    · intro s1 id bare far sent
      exact ⟨_, plain bare (setSignal_sends far sent), rfl⟩
    · intro bare far lost
      exact plain bare (setSignal_fails far lost)
    · intro s1 stat steps
      refine goes.trans ((if_pos stat).trans ?_)
      rw [steps]
    · intro s1 st d stat steps
      refine goes.trans ((if_pos stat).trans ?_)
      rw [steps]
    · intro s1 stat steps
      refine goes.trans ((if_pos stat).trans ?_)
      rw [steps]
      refine congrArg (fun f => Host.Outcome.next (settleRun (setSignal (updRun s1 ch f) bus ch r { g with status := false }) bus
        ch)) (funext fun r => ?_)
      exact congrArg (fun l => { r with sigs := l }) first_signal_changes
  · intro ch r g gs bus s run sigs waits
    refine channelSignalSet_waits run sigs ?_
    rcases waits with stopped | held | sent | flush | dying | after | hinted
    · exact .inl stopped
    · exact .inr (.inl held)
    · exact .inr (.inr (.inl sent))
    · exact .inr (.inr (.inr (.inl flush)))
    · exact .inr (.inr (.inr (.inr (.inr (.inr dying)))))
    · exact .inr (.inr (.inr (.inr (.inl after))))
    · exact .inr (.inr (.inr (.inr (.inr (.inl hinted)))))
  · intro ch r bus s at_
    refine ⟨?_, ?_⟩
    · intro waits
      refine stop_waits at_ ?_
      rcases waits with busy | hinted | ⟨ports, silent⟩
      · exact .inl (Bool.eq_false_iff.mpr fun done => busy (acked_iff.mp done).1)
      · exact .inl (Bool.eq_false_iff.mpr fun done => Bool.noConfusion (hinted.symm.trans (acked_iff.mp done).2))
      · exact .inr (flushWaits_silent ports silent)
    · intro execs hints free
      exact stop_ends at_ (acked_iff.mpr ⟨execs, hints⟩) (free.elim flushWaits_none flushWaits_issues)
  · intro ch r bus s at_ execs hints ports sigs flushes free io noStat pins fine flushed plain unwritten quiet
    have at_stop := chan_stopping at_.run ports
    obtain ⟨mem, bl, home⟩ := stopping_keeps at_.run ports
    have stillQuiet : chQuiet (stopping s ch) ch = true := by
      unfold chQuiet at quiet ⊢
      rw [bl]
      exact quiet
    have stillHinted : hintsDone (stopping s ch) (lastRun r).hints = true := by
      unfold hintsDone at hints ⊢
      rw [home]
      exact hints
    have none_ : (lastRun r).flushes = [] := (List.append_nil _).trans flushes
    have settles := settleRun_finishes (bus := bus) (r := lastRun r) (congrArg Channel.run at_stop) (congrArg Channel.st at_stop)
      free none_ stillQuiet stillHinted sigs rfl unwritten noStat fine
    obtain ⟨u, ends, idle, gone, kept⟩ := finishRun_ends (bus := bus) (r := { lastRun r with wrote := true })
      (st_updRun.trans (congrArg Channel.st at_stop)) pins plain fine flushed
    exact ⟨u, (stop_ends at_ (acked_iff.mpr ⟨execs, hints⟩) (flushWaits_none ports)).trans
      (congrArg Host.Outcome.next (settles.trans ends)), idle, gone, kept.trans mem⟩

end

section
/-! PROOFS. Responses answer their requests (spec file 10, R303, R304, R306, R310, R312, R326). -/

open Sys2Proof

namespace Sys2Proof.Machine

section
variable {s : State} {m op k id : Nat} {msg : Msg} {r : RReq} {c : Cmd} {w : RemWork} {bus : Bus}

/-- A command whose remote work has changed: PROGRESS of a REMOTE_WRITE follows it. -/
def remChanged (c : Cmd) (w : RemWork) : Cmd :=
  { c with work := .remote w, progress := if c.raw.opcode = opRemoteWrite then w.acks.foldl min w.sent else c.progress }

theorem cmdOf_updRem {f : RemWork → RemWork} (cmd : cmdOf s id = some c) (work : c.work = .remote w) :
    cmdOf (updRem s id f) id = some (remChanged c (f w)) := by
  unfold updRem
  rw [cmdOf_updCmd, cmd]
  refine congrArg Option.some ?_
  dsimp only
  rw [work]
  rfl

/-- Only the table of commands follows a change of remote work. -/
theorem updRem_frame (f : RemWork → RemWork) :
    (updRem s id f).bl = s.bl ∧ (updRem s id f).out = s.out ∧ (updRem s id f).mem = s.mem := ⟨rfl, rfl, rfl⟩

/-- A response to an outstanding request whose owner takes it. -/
theorem onResponse_taken {f : State → Msg → Nat → RReq → Option State} {t : State} (at_ : ResponseAt s m op msg)
    (answers : Answers s msg k r) (taken : f (answered s m k) msg k r = some t) : onResponse s m op f = .next t := by
  rw [onResponse_answers at_ answers, taken]

/-- What READ_DATA does to the remote work that asked for it. -/
def remFetched (rid : Nat) (bs : List Byte) (w : RemWork) : RemWork :=
  match w.rd with
  | some (rid', n) => if rid' = rid then { w with rd := none, got := w.got ++ padTo n bs } else w
  | none => w

theorem remFetched_reads {rid n : Nat} {bs : List Byte} (reads : w.rd = some (rid, n)) :
    remFetched rid bs w = { w with rd := none, got := w.got ++ padTo n bs } := by
  unfold remFetched
  rw [reads]
  exact if_pos rfl

/-- READ_DATA of a REMOTE_WRITE that reads from another node. -/
theorem readData_fetched {n : Nat} (at_ : ResponseAt s m opReadData msg) (answers : Answers s msg k r) (owner : r.owner = .fetch id)
    (cmd : cmdOf s id = some c) (work : c.work = .remote w) (reads : w.rd = some (r.id, n)) :
    ∃ t, execReadData m bus s = .next t ∧
      cmdOf t id = some (remChanged c { w with rd := none, got := w.got ++ padTo n msg.data }) ∧ t.mem = s.mem := by
  refine ⟨updRem (answered s m k) id (remFetched r.id msg.data), onResponse_taken at_ answers ?_, ?_, rfl⟩
  · rw [owner]
    rfl
  · rw [cmdOf_updRem (s := answered s m k) cmd work, remFetched_reads reads]

/-- The acknowledgement of a message of a REMOTE_WRITE that runs on: the command ends with the last one. -/
theorem cmdAck_answers {off : Nat} (cmd : cmdOf s id = some c) (work : c.work = .remote w) (running : c.phase = .running) :
    cmdAck s id off =
      if w.acks.filter (· ≠ off) = [] then endCmd (updRem s id fun w => { w with acks := w.acks.filter (· ≠ off) }) id stOk 0
      else updRem s id fun w => { w with acks := w.acks.filter (· ≠ off) } := by
  unfold cmdAck
  dsimp only
  rw [cmdOf_updRem cmd work]
  dsimp only [remChanged, remOf]
  rw [running]
  exact ite_of_iff (and_iff_right rfl)

/-- ACK of a message of a REMOTE_WRITE. -/
theorem ack_acks {off : Nat} (at_ : ResponseAt s m opAck msg) (answers : Answers s msg k r) (owner : r.owner = .write id off)
    (cmd : cmdOf s id = some c) (work : c.work = .remote w) (running : c.phase = .running) :
    execAck m bus s = .next (
      if w.acks.filter (· ≠ off) = [] then
        endCmd (updRem (answered s m k) id fun w => { w with acks := w.acks.filter (· ≠ off) }) id stOk 0
      else updRem (answered s m k) id fun w => { w with acks := w.acks.filter (· ≠ off) }) := by
  rw [← cmdAck_answers (s := answered s m k) cmd work running]
  refine onResponse_taken at_ answers ?_
  dsimp only
  rw [owner]

/-- A NACK is counted, and what its request belongs to ends (R304, R326). -/
theorem nack_row (at_ : ResponseAt s m opNack msg) (answers : Answers s msg k r) :
    execNack m bus s = .next (reqLost { answered s m k with bl := { (answered s m k).bl with nackRx := s.bl.nackRx + 1 } } bus r
      (if msg.status = 8 then stKeyFault else stRemote)) :=
  onResponse_taken at_ answers rfl

end

end Sys2Proof.Machine

open Sys2Proof.Machine

/-- Settles O53: a response is taken out of the inbox and its request off the outstanding ones; its owner takes it. -/
theorem responsesAnswerTheirRequests : Obligations.ResponsesAnswerTheirRequests := by
  unfold Obligations.ResponsesAnswerTheirRequests
  refine ⟨?_, ?_, ?_, ?_, ?_, ?_, ?_, ?_, ?_⟩
  · intro m k ch kb bus msg r s at_ answers owner
    show execReadData m bus s = _
    refine onResponse_taken at_ answers ?_
    rw [owner]
    rfl
  · intro m k id n bus msg r c w s at_ answers owner cmd work reads
    obtain ⟨t, runs, found, mem⟩ := readData_fetched (bus := bus) at_ answers owner cmd work reads
    exact ⟨t, _, runs, found, rfl, mem, rfl⟩
  · intro m k ch bus msg r s at_ answers owner
    show execAtomicResult m bus s = _
    refine onResponse_taken at_ answers ?_
    rw [owner]
    rfl
  · intro m k id shard records msg r w s at_ answers owner bag
    show execPoolPartial m s = _
    refine onResponse_taken at_ answers ?_
    dsimp only
    rw [owner]
    dsimp only
    rw [bag]
  · intro m k id off bus msg r c w s at_ answers owner cmd work running
    have runs : exec (.ack m bus) s = _ := ack_acks at_ answers owner cmd work running
    exact ⟨updRem (answered s m k) id fun w => { w with acks := w.acks.filter (· ≠ off) },
      cmdOf_updRem (s := answered s m k) cmd work, rfl, rfl,
      fun last => runs.trans (congrArg Host.Outcome.next (if_pos last)),
      fun more => runs.trans (congrArg Host.Outcome.next (if_neg more))⟩
  · intro m k id bus msg r c s at_ answers owner cmd
    show execAck m bus s = _
    refine onResponse_taken at_ answers ?_
    have cmd' : cmdOf (answered s m k) id = some c := cmd
    dsimp only
    rw [owner]
    dsimp only
    rw [cmd']
    simp only [decide_eq_true_eq]
  · intro m k ch off bus msg r s at_ answers
    show (_ → execAck m bus s = _) ∧ (_ → execAck m bus s = _)
    refine ⟨fun owner => onResponse_taken at_ answers ?_, fun owner => onResponse_taken at_ answers ?_⟩
    all_goals
      dsimp only
      rw [owner]
  · intro m k id off x y w bus msg r s at_ answers u
    have runs : exec (.nack m bus) s = _ := nack_row at_ answers
    refine ⟨fun owner => ?_, fun owner => ?_, fun owner bag => ?_⟩
    · refine runs.trans (congrArg Host.Outcome.next ?_)
      unfold reqLost
      rcases owner with owner | owner | owner
      all_goals rw [owner]
    · refine runs.trans (congrArg Host.Outcome.next ?_)
      unfold reqLost
      rcases owner with owner | owner | owner | owner
      all_goals rw [owner]
    · refine runs.trans (congrArg Host.Outcome.next ?_)
      unfold reqLost
      dsimp only
      rw [owner]
      dsimp only
      rw [bag]
      dsimp only
      by_cases key : msg.status = 8
      · rw [if_pos key, if_pos key, if_neg (by decide)]
      · rw [if_neg key, if_neg key, if_pos rfl]
  · intro m bus msg s x row at_ none_
    simp only [List.mem_cons, List.not_mem_nil, or_false] at row
    rcases row with rfl | rfl | rfl | rfl | rfl
    · show execReadData m bus s = _
      exact onResponse_late at_ none_
    · show execAtomicResult m bus s = _
      exact onResponse_late at_ none_
    · show execPoolPartial m s = _
      exact onResponse_late at_ none_
    · show execAck m bus s = _
      exact onResponse_late at_ none_
    · show execNack m bus s = _
      exact onResponse_late at_ none_

end

section
/-! PROOFS. Requests of other nodes are served (spec file 10, R302 to R310, R320 to R323). -/

open Sys2Proof

namespace Sys2Proof.Machine

section
variable {s s1 u : State} {m : Nat} {msg : Msg} {bus : Bus}

theorem onRequest_gives {op : Nat} {f : Msg → State} {t : State} (at_ : RequestAt s m op msg) (serves : f msg = t) :
    onRequest s m op f = .next t := (onRequest_serves at_).trans (congrArg Host.Outcome.next serves)

/-- A check that holds is not refused. -/
theorem check_passes {b : Bool} (holds : b = true) : ¬(!b) = true := by
  rw [holds]
  decide

/-! ### The header (R301, R304) -/

/-- A check of the header and of further fields fails where the header does. -/
theorem format_refuses {b : Bool} (bad : reqFormat msg = false) : (!(reqFormat msg && b)) = true := by
  rw [bad]
  rfl

theorem poolFormat_header (bad : reqFormat msg = false) : poolFormat msg = false := by
  unfold poolFormat
  rw [bad]
  rfl

theorem write_malformed (at_ : RequestAt s m opRWrite msg) (bad : reqFormat msg = false) :
    execRemoteWriteRequest m bus s = .next (nackMsg (dropMsg s m) msg 1) := by
  refine onRequest_gives at_ (if_pos ?_)
  rw [bad]
  rfl

theorem read_malformed (at_ : RequestAt s m opRRead msg) (bad : reqFormat msg = false) :
    execRemoteReadRequest m bus s = .next (nackMsg (dropMsg s m) msg 1) := by
  refine onRequest_gives at_ (if_pos ?_)
  rw [bad]
  rfl

theorem atomic_malformed (at_ : RequestAt s m opRAtomic msg) (bad : reqFormat msg = false) :
    execRemoteAtomicRequest m bus s = .next (nackMsg (dropMsg s m) msg 1) :=
  onRequest_gives at_ (if_pos (format_refuses bad))

theorem signal_malformed (at_ : RequestAt s m opRSignal msg) (bad : reqFormat msg = false) (new : inService s m = false) :
    execRemoteSignalRequest m bus s = .next (nackMsg (dropMsg s m) msg 1) :=
  onRequest_gives at_ ((if_neg (ne_true_of_eq_false new)).trans (if_pos (format_refuses bad)))

theorem pool_malformed (at_ : RequestAt s m opRPool msg) (bad : reqFormat msg = false) (new : inService s m = false) :
    execRemotePoolRequest m bus s = .next (nackMsg (dropMsg s m) msg 1) := by
  refine onRequest_gives at_ ((if_neg (ne_true_of_eq_false new)).trans (if_pos ?_))
  rw [poolFormat_header bad]
  rfl

/-! ### Writes (R305, R307) -/

/-- The header of a write to device memory. -/
theorem write_header (good : reqFormat msg = true) (low : 1 ≤ msg.len) (high : msg.len ≤ 4096)
    (page : msg.addr % 4096 + msg.len ≤ 4096) (device : msg.arg0 = 0) (plain : msg.arg1 = 0) :
    (reqFormat msg && decide (1 ≤ msg.len ∧ msg.len ≤ 4096 ∧ msg.arg1 = 0) && inPage msg.addr msg.len &&
      decide (msg.arg0 = (if decide (msg.arg0 % 2 = 1) then 1 + msg.arg0 / 2 ^ 16 % 4096 * 2 ^ 16 else 0))) = true := by
  simp [good, low, high, plain, device, inPage, page]

theorem write_serves (at_ : RequestAt s m opRWrite msg) (good : reqFormat msg = true) (low : 1 ≤ msg.len) (high : msg.len ≤ 4096)
    (page : msg.addr % 4096 + msg.len ≤ 4096) (device : msg.arg0 = 0) (plain : msg.arg1 = 0) (owned : partChecks s msg = true)
    (inside : rangeChecks s m msg msg.addr msg.len = true)
    (writes : writePlan { mvWriteVia s 0 msg.part with born := some m } bus
      (msg.data.zipIdx.map fun x => (msg.addr % 2 ^ 48 + x.2, x.1)) (rowPlan (msg.addr % 2 ^ 48) msg.len) (dropMsg s m) = (u, none)) :
    execRemoteWriteRequest m bus s = .next (sendResponse { u with mv := { u.mv with wrBytes := s.mv.wrBytes } }
      msg.src.toNat opAck msg.key.toNat msg.req.toNat msg.part 0 0 0 []) := by
  refine onRequest_gives at_ ((if_neg (check_passes (write_header good low high page device plain))).trans
    ((if_neg (check_passes owned)).trans ((if_neg ?_).trans ((if_neg (check_passes inside)).trans ?_))))
  · simp [device]
  · dsimp only
    rw [writes]

theorem write_outside (at_ : RequestAt s m opRWrite msg) (good : reqFormat msg = true) (low : 1 ≤ msg.len) (high : msg.len ≤ 4096)
    (page : msg.addr % 4096 + msg.len ≤ 4096) (device : msg.arg0 = 0) (plain : msg.arg1 = 0) (owned : partChecks s msg = true)
    (outside : rangeChecks s m msg msg.addr msg.len = false) :
    execRemoteWriteRequest m bus s = .next (nackMsg (dropMsg s m) msg 2) := by
  refine onRequest_gives at_ ((if_neg (check_passes (write_header good low high page device plain))).trans
    ((if_neg (check_passes owned)).trans ((if_neg ?_).trans (if_pos ?_))))
  · simp [device]
  · rw [outside]
    rfl

/-- A write to host memory (R307). -/
theorem write_toHost (at_ : RequestAt s m opRWrite msg) (good : reqFormat msg = true) (low : 1 ≤ msg.len) (high : msg.len ≤ 4096)
    (page : msg.addr % 4096 + msg.len ≤ 4096) (host : msg.arg0 = 1 + msg.arg0 / 2 ^ 16 % 4096 * 2 ^ 16) (plain : msg.arg1 = 0)
    (owned : partChecks s msg = true) : execRemoteWriteRequest m bus s = .next (serveHost s m msg) := by
  have odd : msg.arg0 % 2 = 1 := by
    rw [host]
    omega
  refine onRequest_gives at_ ((if_neg ?_).trans ((if_neg (check_passes owned)).trans (if_pos (decide_eq_true odd))))
  simp [good, low, high, plain, odd, inPage, page]
  exact host

/-! ### Reads and atomics (R308, R309) -/

theorem read_serves (at_ : RequestAt s m opRRead msg) (good : reqFormat msg = true) (low : 1 ≤ msg.arg0) (high : msg.arg0 ≤ 4096)
    (page : msg.addr % 4096 + msg.arg0 ≤ 4096) (plain : msg.arg1 = 0) (bare : msg.len = 0) (owned : partChecks s msg = true)
    (inside : rangeChecks s m msg msg.addr msg.arg0 = true)
    (reads : readPlan { mvReadVia s 0 msg.part with
      port := gwBase s.build 3 + leastBusy s (gwBase s.build 3) (ceilDiv s.build.channels 16), born := some m } bus
        (rowPlan (msg.addr % 2 ^ 48) msg.arg0) (dropMsg s m) = (u, none)) :
    execRemoteReadRequest m bus s = .next (sendResponse { u with mv := { u.mv with rdBytes := s.mv.rdBytes } }
      msg.src.toNat opReadData msg.key.toNat msg.req.toNat msg.part 0 0 0
      (u.mem.bytes u.free (msg.addr % 2 ^ 48) msg.arg0)) := by
  refine onRequest_gives at_ ((if_neg ?_).trans ((if_neg ?_).trans ?_))
  · simp [good, low, high, plain, bare, inPage, page]
  · simp [owned, inside]
  · dsimp only at reads ⊢
    rw [reads]

/-- An atomic of 8 B that is not a compare and swap (R309). -/
theorem atomic_serves {old : Nat} (at_ : RequestAt s m opRAtomic msg) (good : reqFormat msg = true) (small : msg.arg0 < 9)
    (plain : msg.arg1 = 0) (aligned : msg.addr % 8 = 0) (len : msg.len = 8) (owned : partChecks s msg = true)
    (inside : rangeChecks s m msg msg.addr 8 = true)
    (ready : homeReady s (msg.addr % 2 ^ 48) 8 true (some msg.part) bus = (s1, true))
    (swaps : homeRmw { homeVia s1 (some msg.part) none (msg.addr % 2 ^ 48 / 64) with born := some m } bus (dropMsg s1 m)
      (msg.addr % 2 ^ 48) 8 msg.arg0 (leAt msg.data 0 8) (leAt msg.data 8 8) = (u, .ok, old)) :
    execRemoteAtomicRequest m bus s = .next (sendResponse u msg.src.toNat opAtomicResult msg.key.toNat msg.req.toNat
      msg.part 0 0 0 (leBytes 8 old)) := by
  have op : msg.arg0 % 16 = msg.arg0 := Nat.mod_eq_of_lt (by omega)
  have narrow : decide (msg.arg0 / 16 % 2 = 1) = false := decide_eq_false (by omega)
  show execRemoteAtomicRequest m bus s = _
  refine onRequest_gives at_ ?_
  dsimp only
  rw [op, narrow]
  refine (if_neg ?_).trans ((if_neg ?_).trans ?_)
  · have cas : msg.arg0 ≠ 9 := by omega
    simp only [good, plain, len, Bool.true_and]
    simp [cas]
    omega
  · simp [owned, inside]
  · simp only [Bool.false_eq_true, if_false, ready, swaps]
    rfl

/-! ### Signals (R310) -/

theorem signal_serves {stale : Bool} (at_ : RequestAt s m opRSignal msg) (good : reqFormat msg = true) (bare : msg.len = 0)
    (plain : msg.arg1 = 0) (owned : partChecks s msg = true) (new : inService s m = false)
    (signals : signalHere bus m msg s = .ok stale u) :
    execRemoteSignalRequest m bus s = .next (sendResponse (dropMsg u m) msg.src.toNat opAck msg.key.toNat msg.req.toNat
      msg.part 0 (if stale then 1 else 0) 0 []) := by
  refine onRequest_gives at_ ((if_neg (ne_true_of_eq_false new)).trans ((if_neg ?_).trans
    ((if_neg (check_passes owned)).trans (runAct_ok signals))))
  simp [good, bare, plain]

/-! ### REMOTE_POOL (R322, R323) -/

/-- A pooling over addresses (R323). -/
theorem pool_overAddresses (at_ : RequestAt s m opRPool msg) (new : inService s m = false) (good : poolFormat msg = true)
    (owned : partChecks s msg = true) (addresses : msg.addr = 0)
    (inside : ∀ e ∈ poolEnts msg true, rangeChecks s m msg (s.bl.nodeId.toNat * 2 ^ 48 + e.2.addr) (poolNeed msg) = true) :
    execRemotePoolRequest m bus s = .next (servePool s bus m msg { poolWork msg with rowBytes := poolNeed msg } none) :=
  onRequest_gives at_ ((if_neg (ne_true_of_eq_false new)).trans ((if_neg (check_passes good)).trans
    ((if_neg (check_passes owned)).trans ((if_pos addresses).trans (if_neg (check_passes (List.all_eq_true.mpr inside)))))))

/-- A pooling over the table that it names, whose version is there (R322). -/
theorem pool_overTable {w : BagWork} {i : Nat} {slot : Bool} (at_ : RequestAt s m opRPool msg) (new : inService s m = false)
    (good : poolFormat msg = true) (owned : partChecks s msg = true) (table : msg.addr ≠ 0)
    (pins : poolTable bus m msg s = .ok (some (w, i, slot)) u) :
    execRemotePoolRequest m bus s = .next (servePool u bus m msg w (some (i, slot))) :=
  onRequest_gives at_ ((if_neg (ne_true_of_eq_false new)).trans ((if_neg (check_passes good)).trans
    ((if_neg (check_passes owned)).trans ((if_neg table).trans (runAct_ok pins)))))

/-- A pooling whose version is still pending waits for the flip (R322). -/
theorem pool_waits (at_ : RequestAt s m opRPool msg) (new : inService s m = false) (good : poolFormat msg = true)
    (owned : partChecks s msg = true) (table : msg.addr ≠ 0) (pins : poolTable bus m msg s = .ok none u) :
    execRemotePoolRequest m bus s = .next u :=
  onRequest_gives at_ ((if_neg (ne_true_of_eq_false new)).trans ((if_neg (check_passes good)).trans
    ((if_neg (check_passes owned)).trans ((if_neg table).trans (runAct_ok pins)))))

end

end Sys2Proof.Machine

open Sys2Proof.Machine

/-- Settles O54: a well-formed request of an assigned partition is served by the access of its kind, and answered. -/
theorem requestsAreServed : Obligations.RequestsAreServed := by
  unfold Obligations.RequestsAreServed
  refine ⟨?_, ?_, ?_, ?_, ?_, ?_, ?_⟩
  · intro m bus msg s u at_ good low high page device plain owned
    exact ⟨fun inside writes => write_serves at_ good low high page device plain owned inside writes,
      fun outside => write_outside at_ good low high page device plain owned outside⟩
  · intro m bus msg s at_ good low high page host plain owned
    exact write_toHost at_ good low high page host plain owned
  · intro m bus msg s u at_ good low high page plain bare owned inside reads
    exact read_serves at_ good low high page plain bare owned inside reads
  · intro m aop old bus msg s s1 u at_ good op small plain aligned len owned inside a ready swaps
    subst op
    exact atomic_serves at_ good small plain aligned len owned inside ready swaps
  · intro m bus msg stale s u at_ good bare plain owned new signals
    exact signal_serves at_ good bare plain owned new signals
  · intro m i slot bus msg w s u at_ new good owned
    exact ⟨fun addresses inside => pool_overAddresses at_ new good owned addresses inside,
      fun table pins => pool_overTable at_ new good owned table pins, fun table pins => pool_waits at_ new good owned table pins⟩
  · intro m bus msg s bad
    exact ⟨fun at_ => write_malformed at_ bad, fun at_ => read_malformed at_ bad, fun at_ => atomic_malformed at_ bad,
      fun at_ new => signal_malformed at_ bad new, fun at_ new => pool_malformed at_ bad new⟩

end

section
/-! PROOFS. Remote commands send their messages (spec file 10, R306, R310 to R312). -/

open Sys2Proof

namespace Sys2Proof.Machine

section
variable {s s' v t : State} {id : Nat} {c : Cmd} {w : RemWork} {bus : Bus}

/-! ### What sending a request leaves -/

/-- A flit without a key only moves flits. -/
theorem sendFlit_sends (s : State) (node vc op : Nat) (part : BitVec 3) (x : Bool × List Byte) :
    Sends s (sendFlit s node vc op 0 part x.1 x.2) := by
  unfold sendFlit
  split
  · exact .refl s
  · rw [if_neg fun keyed => keyed.1 rfl]
    exact (Sends.queue s _ _).1

theorem sendMsg_sends (s : State) (node vc op : Nat) (part : BitVec 3) (payload : List Byte) :
    Sends s (sendMsg s node vc op 0 part payload) :=
  Sends.each (fun s x => sendFlit_sends s node vc op part x) _ _

/-- A request without a key leaves the commands as they are. -/
theorem sendRequest_keeps_cmds {node op key addr arg0 arg1 rid : Nat} {part : BitVec 3} {owner : ROwner} {data : List Byte}
    (plain : key = 0) (sent : sendRequest s node op key part owner addr arg0 arg1 data = .ok s' rid) :
    cmdOf s' id = cmdOf s id := by
  subst plain
  unfold sendRequest at sent
  split at sent
  · cases sent
  · split at sent
    · cases sent
    · rw [← (Sent.ok.inj sent).1]
      unfold cmdOf
      rw [(sendMsg_sends _ _ _ _ _ _).frame]

/-! ### REMOTE_WRITE (R306) -/

/-- A dispatched command whose meaning waits for a near core's line keeps its recalls alone. -/
theorem runCmd_waits {op : Nat} {m : Cmd → Act Unit} (at_ : Dispatched s id op c) (waits : m c s = .error .wait s') :
    runCmd s id op m = waitBack s s' := by
  unfold runCmd
  rw [at_.cmd]
  dsimp only
  rw [if_pos ⟨at_.works, at_.phase, at_.opcode⟩]
  unfold runAct
  rw [waits]

/-- What REMOTE_WRITE checks of its fields, its node and its key. -/
def remFields (s : State) (c : Cmd) : Bool :=
  decide (1 ≤ rwLen c ∧ rwLen c ≤ 2 ^ 30 ∧ rwNode c ≠ s.bl.nodeId.toNat ∧ bits (c.raw.w 1) 63 58 = 0) &&
    decide (c.raw.w 2 = 0 → rwLen c ≤ 960) && keyOk s (rwKey c) c.ctx c.part

theorem remFields_iff : remFields s c = true ↔ 1 ≤ rwLen c ∧ rwLen c ≤ 2 ^ 30 ∧ rwNode c ≠ s.bl.nodeId.toNat ∧
    bits (c.raw.w 1) 63 58 = 0 ∧ (c.raw.w 2 = 0 → rwLen c ≤ 960) ∧ keyOk s (rwKey c) c.ctx c.part = true := by
  simp only [remFields, Bool.and_eq_true, decide_eq_true_eq, and_assoc]

theorem remoteWriteAct_refused (fresh_ : c.work = .none) (bad : remFields s c = false) :
    remoteWriteAct bus id c s = .error (.ended stBadField 0) s := by
  unfold remoteWriteAct
  refine (act_bind_ok act_get).trans ?_
  refine (congrArg (fun m : Act Unit => m s) (if_pos ?_)).trans (act_bind_error (act_need_fails bad))
  unfold remOf
  rw [fresh_]
  rfl

/-- A REMOTE_WRITE that begins. -/
def remBegun (s : State) (id : Nat) : State := updCmd s id fun c => { c with work := remStart }

theorem remoteWriteAct_sends (fresh_ : c.work = .none) (good : remFields s c = true) :
    remoteWriteAct bus id c s = remSend bus id c (rwLen c / 4096 + 3) (remBegun s id) := by
  unfold remoteWriteAct
  refine (act_bind_ok act_get).trans ?_
  refine (congrArg (fun m : Act Unit => m s) (if_pos ?_)).trans ((act_bind_ok (act_need_holds good)).trans (act_bind_ok act_modify))
  unfold remOf
  rw [fresh_]
  rfl

/-- Source bytes that stand in the command are at hand at once. -/
theorem remFill_inline {need fuel : Nat} (work : (cmdOf s id).bind remOf = some w) (idle : w.rd = none)
    (short : w.got.length < need) (inline_ : c.raw.w 2 = 0) :
    remFill bus id c need (fuel + 1) s =
      .ok true (updRem s id fun w => { w with got := (c.raw.pips.drop w.sent).take need }) := by
  unfold remFill
  refine (act_bind_ok act_get).trans ?_
  rw [work]
  dsimp only
  rw [idle]
  refine (congrArg (fun m : Act Bool => m s) ((if_neg (by decide)).trans ((if_neg (Nat.not_le.mpr short)).trans (if_pos inline_)))).trans ?_
  rfl

/-- Length of the next message (R303). -/
def remNext (c : Cmd) (w : RemWork) : Nat := min (4096 - (bits (c.raw.w 1) 57 0 + w.sent) % 4096) (rwLen c - w.sent)

/-- What a message that has been sent leaves of the remote work. -/
def remSent (n : Nat) (w : RemWork) : RemWork := { w with sent := w.sent + n, acks := w.acks ++ [w.sent], got := [] }

/-- One message, once its bytes are at hand. -/
theorem remSend_round {fuel : Nat} (work : (cmdOf s id).bind remOf = some w) (more : w.sent < rwLen c)
    (filled : remFill bus id c (remNext c w) 4 s = .ok true v) :
    remSend bus id c (fuel + 1) s =
      match sendRequest v (rwNode c) opRWrite (rwKey c) c.part (.write id w.sent) (bits (c.raw.w 1) 57 0 + w.sent) 0 0
        ((((cmdOf v id).bind remOf).map (·.got)).getD []) with
      | .ok s' _ => remSend bus id c fuel (updRem s' id (remSent (remNext c w)))
      | .full => .ok () v
      | .fail => .error (.ended stRemote (nodeDetail (rwNode c))) v := by
  conv => lhs; unfold remSend
  refine (act_bind_ok act_get).trans ?_
  rw [work]
  dsimp only
  refine (congrArg (fun m : Act Unit => m s) (if_neg (Nat.not_le.mpr more))).trans ((act_bind_ok filled).trans ?_)
  refine (congrArg (fun m : Act Unit => m v) (if_pos rfl)).trans ((act_bind_ok act_get).trans ?_)
  cases sendRequest v (rwNode c) opRWrite (rwKey c) c.part (.write id w.sent) (bits (c.raw.w 1) 57 0 + w.sent) 0 0
    ((((cmdOf v id).bind remOf).map (·.got)).getD []) with
  | ok s' rid => exact (act_bind_ok act_set).trans (act_bind_ok act_modify)
  | full => rfl
  | fail => rfl

/-- With every message sent, the command runs on until the acknowledgements. -/
theorem remSend_all {fuel : Nat} (work : (cmdOf s id).bind remOf = some w) (all : rwLen c ≤ w.sent) (acks : w.acks ≠ []) :
    remSend bus id c (fuel + 1) s = .ok () (updCmd s id fun c => { c with phase := .running }) := by
  conv => lhs; unfold remSend
  refine (act_bind_ok act_get).trans ?_
  rw [work]
  dsimp only
  refine (congrArg (fun m : Act Unit => m s) (if_pos all)).trans ((act_bind_ok act_modify).trans ?_)
  exact congrArg (fun m : Act Unit => m _) (if_neg acks)

/-- Remote work that has sent nothing; `data` are the bytes that are at hand. -/
def remAt (data : List Byte) : RemWork := ⟨0, [], data, none⟩

theorem remNext_onePage {data : List Byte} (page : bits (c.raw.w 1) 57 0 % 4096 + rwLen c ≤ 4096) :
    remNext c (remAt data) = rwLen c := by
  show min (4096 - bits (c.raw.w 1) 57 0 % 4096) (rwLen c) = rwLen c
  exact Nat.min_eq_right (Nat.le_sub_of_add_le (Nat.add_comm _ _ ▸ page))

/-- What a REMOTE_WRITE leaves that has sent its only message. -/
def remDone (s : State) (id n : Nat) : State :=
  updCmd (updRem s id (remSent n)) id fun c => { c with phase := .running }

section
variable {fuel : Nat} {x : Cmd} {data : List Byte}
  (work : (cmdOf s id).bind remOf = some (remAt [])) (some_ : 1 ≤ rwLen c)
  (page : bits (c.raw.w 1) 57 0 % 4096 + rwLen c ≤ 4096) (filled : remFill bus id c (rwLen c) 4 s = .ok true v)
  (cmd : cmdOf v id = some x) (work' : x.work = .remote (remAt data))
include work some_ page filled cmd work'

/-- The round that sends the only message. -/
theorem remSend_onePage : remSend bus id c (fuel + 1) s =
    match sendRequest v (rwNode c) opRWrite (rwKey c) c.part (.write id 0) (bits (c.raw.w 1) 57 0) 0 0 data with
    | .ok s' _ => remSend bus id c fuel (updRem s' id (remSent (rwLen c)))
    | .full => .ok () v
    | .fail => .error (.ended stRemote (nodeDetail (rwNode c))) v := by
  have bytes : (((cmdOf v id).bind remOf).map (·.got)).getD [] = data := by
    rw [cmd]
    show ((remOf x).map (·.got)).getD [] = data
    unfold remOf
    rw [work']
    rfl
  have round := remSend_round (fuel := fuel) work some_ (v := v) (bus := bus) ((remNext_onePage page).symm ▸ filled)
  rw [bytes, remNext_onePage page] at round
  exact round

theorem remSend_sends {rid : Nat}
    (sent : sendRequest v (rwNode c) opRWrite (rwKey c) c.part (.write id 0) (bits (c.raw.w 1) 57 0) 0 0 data = .ok s' rid)
    (kept : cmdOf s' id = cmdOf v id) :
    remSend bus id c (fuel + 2) s = .ok () (remDone s' id (rwLen c)) ∧
      ∃ y, cmdOf (remDone s' id (rwLen c)) id = some y ∧ y.phase = .running ∧ y.work = .remote ⟨rwLen c, [0], [], none⟩ := by
  have next : cmdOf (updRem s' id (remSent (rwLen c))) id = some (remChanged x (remSent (rwLen c) (remAt data))) :=
    cmdOf_updRem (kept.trans cmd) work'
  have sent_ : (remSent (rwLen c) (remAt data)) = ⟨rwLen c, [0], [], none⟩ :=
    congrArg (fun n => (⟨n, [0], [], none⟩ : RemWork)) (Nat.zero_add _)
  rw [sent_] at next
  refine ⟨?_, { remChanged x ⟨rwLen c, [0], [], none⟩ with phase := .running }, ?_, rfl, rfl⟩
  · rw [remSend_onePage (fuel := fuel + 1) work some_ page filled cmd work', sent]
    refine remSend_all ((congrArg (fun o => Option.bind o remOf) next).trans rfl) (Nat.le_refl _) ?_
    exact List.cons_ne_nil _ _
  · unfold remDone
    rw [cmdOf_updCmd, next]
    rfl

theorem remSend_unreachable
    (fails : sendRequest v (rwNode c) opRWrite (rwKey c) c.part (.write id 0) (bits (c.raw.w 1) 57 0) 0 0 data = .fail) :
    remSend bus id c (fuel + 1) s = .error (.ended stRemote (nodeDetail (rwNode c))) v := by
  rw [remSend_onePage work some_ page filled cmd work', fails]

end

/-! ### REMOTE_SIGNAL (R310, R311) -/

/-- What REMOTE_SIGNAL checks of its node and its key. -/
def remSigOk (s : State) (c : Cmd) : Bool :=
  decide (bits (c.raw.w 3) 9 0 ≠ s.bl.nodeId.toNat) && keyOk s (bits (c.raw.w 3) 23 16) c.ctx c.part

theorem remoteSignalAct_refused (bad : remSigOk s c = false) : remoteSignalAct id c s = .error (.ended stBadField 0) s := by
  unfold remoteSignalAct
  exact (act_bind_ok act_get).trans (act_bind_error (act_need_fails bad))

theorem remoteSignalAct_waits (good : remSigOk s c = true) (behind : remBehind s id c (bits (c.raw.w 3) 9 0) = true) :
    remoteSignalAct id c s = .ok () s := by
  unfold remoteSignalAct
  exact (act_bind_ok act_get).trans ((act_bind_ok (act_need_holds good)).trans
    (congrArg (fun m : Act Unit => m s) (if_pos behind)))

/-- With nothing of its queue before it, REMOTE_SIGNAL sends its message. -/
theorem remoteSignalAct_sends (good : remSigOk s c = true) (first : remBehind s id c (bits (c.raw.w 3) 9 0) = false) :
    remoteSignalAct id c s =
      match sendRequest s (bits (c.raw.w 3) 9 0) opRSignal (bits (c.raw.w 3) 23 16) c.part (.signal id) (c.raw.w 1).toNat
        (c.raw.w 2).toNat 0 [] with
      | .ok s' _ => .ok () (updCmd s' id fun c => { c with work := remStart, phase := .running })
      | .full => .ok () s
      | .fail => .error (.ended stRemote (nodeDetail (bits (c.raw.w 3) 9 0))) s := by
  unfold remoteSignalAct
  refine (act_bind_ok act_get).trans ((act_bind_ok (act_need_holds good)).trans
    ((congrArg (fun m : Act Unit => m s) (if_neg (ne_true_of_eq_false first))).trans ?_))
  cases sendRequest s (bits (c.raw.w 3) 9 0) opRSignal (bits (c.raw.w 3) 23 16) c.part (.signal id) (c.raw.w 1).toNat
    (c.raw.w 2).toNat 0 [] with
  | ok s' rid => rfl
  | full => rfl
  | fail => rfl

/-! ### Patience (R312) -/

/-- The state in which a request has run out of patience and is outstanding no longer. -/
def impatient (s : State) (k : Nat) (r : RReq) : State :=
  let s := reach s (r.tick + 1000 * s.bl.patience.toNat)
  dropReq { s with bl := { s.bl with timeouts := s.bl.timeouts + 1 } } k

theorem patience_row {node : BitVec 10} {req : BitVec 12} {r : RReq} (works : runsWork s = true)
    (outstanding : Tab.find? s.bl.reqs (node.toNat * 4096 + req.toNat) = some r) :
    execRemotePatienceExpire node req bus s =
      .next (reqLost (impatient s (node.toNat * 4096 + req.toNat) r) bus r stRemote) := by
  unfold execRemotePatienceExpire
  dsimp only
  rw [outstanding]
  dsimp only
  exact if_neg (by rw [works]; decide)

end

end Sys2Proof.Machine

open Sys2Proof.Machine

/-- Settles O52: the checks, then the rounds that send; a message that fits a page takes one round. -/
theorem remoteCommandsSend : Obligations.RemoteCommandsSend := by
  unfold Obligations.RemoteCommandsSend
  refine ⟨?_, ?_, ?_⟩
  · intro id c bus s at_ fresh_ len node key dst good u
    have fields : good ↔ remFields s c = true := remFields_iff.symm
    have work : (cmdOf u id).bind remOf = some (remAt []) := by
      show (cmdOf (updCmd s id _) id).bind remOf = _
      rw [cmdOf_updCmd, at_.cmd]
      rfl
    have begins : good → remoteWriteAct bus id c s = remSend bus id c (len / 4096 + 3) u :=
      fun g => remoteWriteAct_sends fresh_ (fields.mp g)
    refine ⟨fun bad => ?_, fun g t runs => ?_, fun g t runs => ?_, fun g e t goes runs => ?_, fun inline_ some_ => ?_, ?_⟩
    · refine congrArg Host.Outcome.next (runCmd_ended at_ (remoteWriteAct_refused fresh_ ?_))
      exact Bool.eq_false_iff.mpr fun h => bad (fields.mpr h)
    · exact congrArg Host.Outcome.next (runCmd_ok at_ ((begins g).trans runs))
    · exact congrArg Host.Outcome.next (runCmd_waits at_ ((begins g).trans runs))
    · exact congrArg Host.Outcome.next (runCmd_stops at_ ((begins g).trans runs) goes)
    · exact remFill_inline work rfl some_ inline_
    · intro x data v g page filled cmd work' sent
      have some_ : 1 ≤ rwLen c := g.1
      refine ⟨fun s' rid ok kept => ?_, fun fails => ?_⟩
      · have same : cmdOf s' id = cmdOf v id :=
          kept.elim (fun plain => sendRequest_keeps_cmds plain ok) fun h => h
        obtain ⟨runs, y, found, running, left⟩ :=
          remSend_sends (fuel := len / 4096 + 1) work some_ page filled cmd work' ok same
        exact ⟨remDone s' id (rwLen c), y, congrArg Host.Outcome.next (runCmd_ok at_ ((begins g).trans runs)), found, running,
          left, rfl, rfl, rfl⟩
      · exact congrArg Host.Outcome.next (runCmd_ended at_ ((begins g).trans
          (remSend_unreachable (fuel := len / 4096 + 2) work some_ page filled cmd work' fails)))
  · intro id c s at_ node key sent
    refine ⟨fun bad => ?_, fun other allowed => ?_⟩
    · refine congrArg Host.Outcome.next (runCmd_ended at_ (remoteSignalAct_refused ?_))
      unfold remSigOk
      rcases bad with same | denied
      · exact Bool.and_eq_false_iff.mpr (.inl (decide_eq_false (not_not_intro same)))
      · exact Bool.and_eq_false_iff.mpr (.inr denied)
    · have good : remSigOk s c = true := Bool.and_eq_true_iff.mpr ⟨decide_eq_true other, allowed⟩
      refine ⟨fun waits => ?_, fun first => ⟨fun s' rid ok => ?_, fun fails => ?_⟩⟩
      · refine congrArg Host.Outcome.next (runCmd_ok at_ ?_)
        cases behind : remBehind s id c node with
        | true => exact remoteSignalAct_waits good behind
        | false =>
          have full_ : sent = .full := waits.resolve_left (ne_true_of_eq_false behind)
          rw [remoteSignalAct_sends good behind]
          show (match sent with | .ok s' _ => _ | .full => _ | .fail => _) = _
          rw [full_]
      · refine congrArg Host.Outcome.next (runCmd_ok at_ ?_)
        rw [remoteSignalAct_sends good first]
        show (match sent with | .ok s' _ => _ | .full => _ | .fail => _) = _
        rw [ok]
        rfl
      · refine congrArg Host.Outcome.next (runCmd_ended at_ ?_)
        rw [remoteSignalAct_sends good first]
        show (match sent with | .ok s' _ => _ | .full => _ | .fail => _) = _
        rw [fails]
  · intro node req id off r bus s works outstanding owner
    refine ⟨impatient s (node.toNat * 4096 + req.toNat) r, ?_, rfl, Tab.find_erase_same, ?_⟩
    · refine (patience_row works outstanding).trans (congrArg Host.Outcome.next ?_)
      unfold reqLost
      rw [owner]
    · exact Nat.le_max_right _ _

end

section
/-! PROOFS. Bramble links train, fail, recover and are enabled (spec file 09, R272, R276 to R278, R281, R299, R300). -/

open Sys2Proof

namespace Sys2Proof.Machine

section
variable {s : State} {p : Nat}

/-! ### The width at which a port trains (R272, R300) -/

/-- The lanes of a width all train, and the build and the power state allow it. -/
def trainsAt (s : State) (p : Nat) (lanes : BitVec 16) (w : Nat) : Prop :=
  (w = 4 ∨ w = 8 ∨ w = 16) ∧ w ≤ portWidth s p ∧ ((blPort s p).toX4 = true → w = 4) ∧ ∀ i < w, lanes.getLsbD i = true

/-- What INIT asks of a width. -/
def widthOk (s : State) (p : Nat) (lanes : BitVec 16) (w : Nat) : Bool :=
  decide (w ≤ portWidth s p ∧ ((blPort s p).toX4 = true → w = 4)) && (List.range w).all fun i => lanes.getLsbD i

theorem trainsAt_iff {lanes : BitVec 16} {w : Nat} : trainsAt s p lanes w ↔ w ∈ [16, 8, 4] ∧ widthOk s p lanes w = true := by
  unfold trainsAt widthOk
  simp only [Bool.and_eq_true, decide_eq_true_eq, List.all_eq_true, List.mem_range, List.mem_cons, List.not_mem_nil, or_false]
  constructor
  · rintro ⟨width, fits, x4, all⟩
    exact ⟨by omega, ⟨fits, x4⟩, all⟩
  · rintro ⟨width, ⟨fits, x4⟩, all⟩
    exact ⟨by omega, fits, x4, all⟩

/-- The largest width that trains is taken. -/
theorem trainedWidth_largest {lanes : BitVec 16} {w : Nat} (trains : trainsAt s p lanes w)
    (largest : ∀ w', trainsAt s p lanes w' → w' ≤ w) : trainedWidth s p lanes = some w := by
  obtain ⟨listed, ok⟩ := trainsAt_iff.mp trains
  have apart : ∀ w', w' ∈ [16, 8, 4] → w < w' → widthOk s p lanes w' = false := fun w' there above =>
    Bool.eq_false_iff.mpr fun h => absurd (largest w' (trainsAt_iff.mpr ⟨there, h⟩)) (Nat.not_le.mpr above)
  show [16, 8, 4].find? (widthOk s p lanes) = some w
  simp only [List.mem_cons, List.not_mem_nil, or_false] at listed
  rcases listed with rfl | rfl | rfl
  · rw [List.find?_cons_of_pos ok]
  · rw [List.find?_cons_of_neg (ne_true_of_eq_false (apart 16 (by decide) (by decide))), List.find?_cons_of_pos ok]
  · rw [List.find?_cons_of_neg (ne_true_of_eq_false (apart 16 (by decide) (by decide))),
      List.find?_cons_of_neg (ne_true_of_eq_false (apart 8 (by decide) (by decide))), List.find?_cons_of_pos ok]

theorem trainedWidth_none {lanes : BitVec 16} (fails : ∀ w, ¬trainsAt s p lanes w) : trainedWidth s p lanes = none :=
  List.find?_eq_none.mpr fun w listed ok => fails w (trainsAt_iff.mpr ⟨listed, ok⟩)

/-! ### A training ends (R277, R278) -/

/-- A port is coming up, or goes through RECOVERY. -/
def training (s : State) (p : Nat) : Bool := (blPort s p).comingUp || decide ((blPort s p).st = .recovery)

theorem training_iff : training s p = true ↔ (blPort s p).comingUp = true ∨ (blPort s p).st = .recovery := by
  unfold training
  rw [Bool.or_eq_true, decide_eq_true_eq]

theorem comingUp_detect {b : BlPort} (detect : b.st = .detect) (goes : b.waitRetry = false) : b.comingUp = true := by
  unfold BlPort.comingUp
  rw [detect, goes]
  rfl

/-- TS of a peer while the port trains (R276). -/
def tsTaken (b : BlPort) (c : TsContent) : BlPort :=
  { b with
    st := if b.st = .detect then .train else if b.st = .train then .config else b.st
    peerNode := c.node, peerRole := c.manager, peerAsgd := c.assigned, peerId := c.digest
    node := if c.assigned then some c.node else none }

theorem ts_taken {c : TsContent} (there : portExists s p = true) (up : training s p = true) :
    execTs p c s = .next (sendTs (updBl s p fun b => tsTaken b c) p) :=
  congrArg Host.Outcome.next (if_pos (Bool.and_eq_true_iff.mpr ⟨there, up⟩))

theorem ts_dropped {c : TsContent} (down : training s p = false) : execTs p c s = .next s :=
  congrArg Host.Outcome.next (if_neg fun h => ne_true_of_eq_false down (Bool.and_eq_true_iff.mp h).2)

/-- Sending TS changes only a counter of the port. -/
theorem sendTs_port (s : State) (p : Nat) (f : BlPort → BlPort) :
    ∃ c, blPort (sendTs (updBl s p f) p) p = { f (blPort s p) with cnt := c } := by
  obtain ⟨c, port_⟩ := (sendTs_sends (updBl s p f) p).1
  rw [blPort_updBl_at] at port_
  exact ⟨c, port_⟩

theorem linkTrained_trains {lanes : BitVec 16} {eq128 : Bool} {w : Nat} (there : portExists s p = true)
    (enabled : (blPort s p).en = true) (up : training s p = true) (width : trainedWidth s p lanes = some w) :
    execLinkTrained p lanes eq128 s = .next (portMoves (strayLink (initLink s p w (if eq128 then 6 else 5)) p) p) := by
  refine congrArg Host.Outcome.next ((if_pos ?_).trans ?_)
  · rw [there, enabled]
    exact up
  · rw [width]

theorem linkTrained_idle {lanes : BitVec 16} {eq128 : Bool}
    (idle : training s p = false ∨ (blPort s p).en = false ∨ trainedWidth s p lanes = none) :
    execLinkTrained p lanes eq128 s = .next s := by
  refine congrArg Host.Outcome.next ?_
  by_cases goes : (portExists s p && (blPort s p).en && training s p) = true
  · rw [Bool.and_eq_true, Bool.and_eq_true] at goes
    obtain ⟨⟨_, enabled⟩, up⟩ := goes
    have width : trainedWidth s p lanes = none := by
      rcases idle with down | off | width
      · exact Bool.noConfusion (down.symm.trans up)
      · exact Bool.noConfusion (off.symm.trans enabled)
      · exact width
    rw [width]
    exact ite_self s
  · exact if_neg goes

/-- A word about a stray link leaves what the link's training gave. -/
theorem strayLink_port (s : State) (p : Nat) :
    ∃ c d, blPort (strayLink s p) p = { blPort s p with safeSent := c, stray := d } ∧ KeepsOut s (strayLink s p) := by
  obtain ⟨u, d, is, same, out⟩ := strayLink_keeps_ports s p
  refine ⟨(blPort u p).safeSent, d, ?_, is ▸ out⟩
  rw [is]
  exact congrArg (fun b : BlPort => { b with safeSent := (blPort u p).safeSent }) same

/-! ### A training fails (R277) -/

/-- A training failure by the number of those before it: the port waits, or is FAILED. -/
theorem trainFail_fails : let u := trainFail s p
    s.tick ≤ u.tick ∧
    ((blPort s p).fails < 2 → (blPort u p).st = .detect ∧ (blPort u p).waitRetry = true ∧
      (blPort u p).fails = (blPort s p).fails + 1 ∧ (blPort u p).replay = []) ∧
    (2 ≤ (blPort s p).fails → ∃ v, u = note v { source := srcId 8 p 2 } ∧ (blPort v p).st = .failed ∧ (blPort v p).replay = []) := by
  obtain ⟨v, outcome, fails, replay, time⟩ := trainFail_port s p
  by_cases third : 3 ≤ (blPort s p).fails + 1
  · rw [if_pos third] at outcome
    obtain ⟨is, failed⟩ := outcome
    refine ⟨?_, fun few => absurd third (by omega), fun _ => ⟨v, is, failed, replay⟩⟩
    rw [is, ← time]
    exact note_keeps_time v _
  · rw [if_neg third] at outcome
    obtain ⟨is, detect, waits⟩ := outcome
    refine ⟨?_, fun _ => ?_, fun many => absurd many (by omega)⟩
    · exact Nat.le_of_eq (by rw [is, time])
    · rw [is]
      exact ⟨detect, waits, fails, replay⟩

/-- The training failure of a port whose state tells the number of failures. -/
theorem trainFail_after {t : State} {n : Nat} (counted : (blPort t p).fails = (blPort s p).fails) (late_ : n ≤ t.tick) :
    let u := trainFail t p
    n ≤ u.tick ∧
    ((blPort s p).fails < 2 → (blPort u p).st = .detect ∧ (blPort u p).waitRetry = true ∧
      (blPort u p).fails = (blPort s p).fails + 1 ∧ (blPort u p).replay = []) ∧
    (2 ≤ (blPort s p).fails → ∃ v, u = note v { source := srcId 8 p 2 } ∧ (blPort v p).st = .failed ∧ (blPort v p).replay = []) := by
  rw [← counted]
  obtain ⟨time, few, many⟩ := trainFail_fails (s := t) (p := p)
  exact ⟨Nat.le_trans late_ time, few, many⟩

/-- RECOVERY that times out takes the link DOWN. -/
def recoveryLost (s : State) (p : Nat) : State := linkDown (reach s ((blPort s p).since + 1000000)) p .detect

theorem recoveryLost_port : (blPort (recoveryLost s p) p).fails = (blPort s p).fails ∧
    (blPort s p).since + 1000000 ≤ (recoveryLost s p).tick := by
  obtain ⟨⟨c, n, down⟩, time⟩ := linkDown_clears_port (reach s ((blPort s p).since + 1000000)) p .detect
    ⟨by decide, by decide, by decide⟩
  have fails := congrArg BlPort.fails down
  exact ⟨fails, Nat.le_trans (Nat.le_max_right _ _) time⟩

theorem trainingTimeout_recovery {bus : Bus} (there : portExists s p = true) (recovers : (blPort s p).st = .recovery) :
    execTrainingTimeout p bus s = .next (pumpRoutes (trainFail (recoveryLost s p) p) []) := by
  unfold execTrainingTimeout
  dsimp only
  rw [there]
  exact (if_neg (by decide)).trans (if_pos recovers)

theorem trainingTimeout_comingUp {bus : Bus} (there : portExists s p = true) (steady : (blPort s p).st ≠ .recovery)
    (up : (blPort s p).comingUp = true) :
    execTrainingTimeout p bus s = .next (trainFail (reach s ((blPort s p).since + 20000000)) p) := by
  unfold execTrainingTimeout
  dsimp only
  rw [there]
  exact (if_neg (by decide)).trans ((if_neg steady).trans (if_pos up))

theorem trainingTimeout_idle {bus : Bus} (there : portExists s p = true) (down : training s p = false) :
    execTrainingTimeout p bus s = .next s := by
  have down' := fun h => ne_true_of_eq_false down (training_iff.mpr h)
  unfold execTrainingTimeout
  dsimp only
  rw [there]
  exact (if_neg (by decide)).trans ((if_neg fun h => down' (.inr h)).trans (if_neg fun h => down' (.inl h)))

/-! ### EN and RETRAIN -/

theorem onPort_writes {f : State → Nat → State} (heard : barOk s = true) (there : portExists s p = true) :
    onPort s p f = .next (f s p) :=
  congrArg Host.Outcome.next (if_pos (Bool.and_eq_true_iff.mpr ⟨heard, there⟩))

/-- A training begins with no failure behind it. -/
theorem startTraining_port (s : State) (p : Nat) :
    ∃ c, blPort (startTraining s p) p =
      { clearLink (blPort s p) with st := .detect, since := s.tick, fails := 0, waitRetry := false, cnt := c } :=
  sendTs_port s p _

/-- A port that is disabled. -/
def portOff (s : State) (p : Nat) : State :=
  let b := blPort s p
  let s := updBl s p fun b => { b with en := false }
  if b.live || decide (b.st = .recovery) then linkDown s p .disabled
  else updBl s p fun b => { clearLink b with st := .disabled, waitRetry := false }

theorem portDisable_disables (on : (blPort s p).en = true) : portDisable s p = pumpRoutes (portOff s p) [] := by
  unfold portDisable
  dsimp only
  rw [on]
  rfl

theorem portOff_port : (blPort (portOff s p) p).en = false ∧ (blPort (portOff s p) p).st = .disabled ∧
    (blPort (portOff s p) p).replay = [] := by
  unfold portOff
  dsimp only
  split
  · obtain ⟨c, n, down⟩ := (linkDown_clears_port (updBl s p fun b => { b with en := false }) p .disabled
      ⟨by decide, by decide, by decide⟩).1
    rw [down, blPort_updBl_at]
    exact ⟨rfl, rfl, rfl⟩
  · rw [blPort_updBl_at, blPort_updBl_at]
    exact ⟨rfl, rfl, rfl⟩

/-- RECOVERY keeps the replay buffer and the queue (R278). -/
theorem enterRecovery_keeps : (blPort (enterRecovery s p) p).st = .recovery ∧
    (blPort (enterRecovery s p) p).replay = (blPort s p).replay ∧ (blPort (enterRecovery s p) p).txq = (blPort s p).txq := by
  obtain ⟨c, n, port_⟩ := (enterRecovery_port s p).1
  rw [port_]
  exact ⟨rfl, rfl, rfl⟩

end

end Sys2Proof.Machine

open Sys2Proof.Machine

/-- Settles O55: each command of a port is one operation, whose effect on the port its lemma gives. -/
theorem linksTrain : Obligations.LinksTrain := by
  unfold Obligations.LinksTrain
  intro p s there b up
  have trains : up ↔ training s p = true := training_iff.symm
  have rests : ¬up ↔ training s p = false := (not_congr trains).trans (Bool.not_eq_true _).to_iff
  refine ⟨?_, ?_, ?_, ?_, ?_, ?_, ?_, ?_⟩
  · intro c
    refine ⟨fun h => ?_, fun h => ts_dropped (rests.mp h)⟩
    obtain ⟨cnt, port_⟩ := sendTs_port s p fun b => tsTaken b c
    refine ⟨_, cnt, ts_taken there (trains.mp h), port_, fun free => ?_⟩
    exact (sendTs_sends (updBl s p fun b => tsTaken b c) p).2.2.2 free
  · intro lanes eq128 at_
    refine ⟨fun w h on good largest => ?_, fun idle => ?_⟩
    · refine ⟨_, linkTrained_trains there on (trains.mp h) (trainedWidth_largest good largest), ?_⟩
      obtain ⟨c, d, port_, out⟩ := strayLink_port (initLink s p w (if eq128 then 6 else 5)) p
      obtain ⟨active, width, rate, rx, tx, replay, credits, sent⟩ := initLink_port s p w (if eq128 then 6 else 5)
      rw [port_]
      exact ⟨active, width, rate, rx, tx, replay, credits, fun free x listed => out _ (sent free x listed)⟩
    · refine linkTrained_idle ?_
      rcases idle with down | off | none_
      · exact .inl (rests.mp down)
      · exact .inr (.inl off)
      · exact .inr (.inr (trainedWidth_none none_))
  · intro bus
    refine ⟨fun h => ?_, fun h => trainingTimeout_idle (bus := bus) there (rests.mp h)⟩
    by_cases recovers : b.st = .recovery
    · refine ⟨trainFail (recoveryLost s p) p, ?_, ?_⟩
      · rw [if_pos recovers]
        exact trainingTimeout_recovery (bus := bus) there recovers
      · rw [if_pos recovers]
        exact trainFail_after recoveryLost_port.1 recoveryLost_port.2
    · refine ⟨trainFail (reach s (b.since + 20000000)) p, ?_, ?_⟩
      · rw [if_neg recovers]
        exact trainingTimeout_comingUp (bus := bus) there recovers (h.resolve_right recovers)
      · rw [if_neg recovers]
        exact trainFail_after rfl (Nat.le_max_right _ _)
  · intro detect waits
    obtain ⟨cnt, port_⟩ := sendTs_port (reach s (b.since + 1000000)) p
      fun x => { x with waitRetry := false, since := (reach s (b.since + 1000000)).tick }
    refine ⟨_, congrArg Host.Outcome.next (if_pos ?_), ?_, ?_⟩
    · exact Bool.and_eq_true_iff.mpr ⟨waits, decide_eq_true detect⟩
    · rw [port_]
      exact comingUp_detect detect rfl
    · rw [(sendTs_sends _ p).2.2.1]
      exact Nat.le_max_right _ _
  · intro idle
    refine congrArg Host.Outcome.next (if_neg fun h => ?_)
    obtain ⟨waits, detect⟩ := Bool.and_eq_true_iff.mp h
    rcases idle with other | ready
    · exact other (of_decide_eq_true detect)
    · exact Bool.noConfusion (ready.symm.trans waits)
  · intro active free
    refine ⟨_, congrArg Host.Outcome.next (if_pos ?_), enterRecovery_keeps⟩
    rw [there, free, decide_eq_true active]
    rfl
  · intro idle
    refine congrArg Host.Outcome.next (if_neg fun h => ?_)
    rw [Bool.and_eq_true, Bool.and_eq_true, decide_eq_true_eq] at h
    obtain ⟨⟨_, active⟩, free⟩ := h
    rcases idle with other | safe_
    · exact other active
    · rw [safe_] at free
      exact Bool.noConfusion free
  · intro heard bus
    refine ⟨fun off => ?_, fun on => ?_, fun on => ?_, fun off => ?_, fun active => ?_, fun failed => ?_, fun active failed => ?_⟩
    · obtain ⟨c, port_⟩ := startTraining_port (updBl s p fun b => { b with en := true }) p
      rw [blPort_updBl_at] at port_
      refine ⟨_, (onPort_writes heard there).trans (congrArg Host.Outcome.next (if_neg (ne_true_of_eq_false off))), ?_⟩
      rw [port_]
      exact ⟨rfl, rfl, rfl⟩
    · exact (onPort_writes heard there).trans (congrArg Host.Outcome.next (if_pos on))
    · exact ⟨portOff s p, (onPort_writes heard there).trans (congrArg Host.Outcome.next (portDisable_disables on)), portOff_port⟩
    · refine (onPort_writes heard there).trans (congrArg Host.Outcome.next (if_pos ?_))
      rw [show (blPort s p).en = false from off]
      rfl
    · exact ⟨_, (onPort_writes heard there).trans (congrArg Host.Outcome.next (if_pos active)), enterRecovery_keeps⟩
    · have idle : (blPort s p).st ≠ .active := fun h => by rw [show (blPort s p).st = .failed from failed] at h; cases h
      obtain ⟨c, port_⟩ := startTraining_port s p
      refine ⟨_, (onPort_writes heard there).trans (congrArg Host.Outcome.next ((if_neg idle).trans (if_pos failed))), ?_⟩
      rw [port_]
      exact ⟨rfl, rfl⟩
    · exact (onPort_writes heard there).trans (congrArg Host.Outcome.next ((if_neg active).trans (if_neg failed)))

end

section
/-! PROOFS. Flits are acknowledged, replayed and credited; SAFE and L1 (spec file 09, R278 to R281, R299, R300, R312). -/

open Sys2Proof

namespace Sys2Proof.Machine

section
variable {s : State} {p : Nat}

/-! ### A port that takes flits -/

/-- What a row of a port does once the port takes flits. -/
theorem port_takes {t : State} (takes_ : takes s p = true) :
    (Host.Outcome.next (if takes s p then t else s) : Res) = .next t := congrArg Host.Outcome.next (if_pos takes_)

/-- What a row of a port does where the port takes none. -/
theorem port_deaf {t : State} (deaf : takes s p = false) :
    (Host.Outcome.next (if takes s p then t else s) : Res) = .next s := congrArg Host.Outcome.next (if_neg (ne_true_of_eq_false deaf))

/-! ### Acknowledgements and credits (R279, R281) -/

/-- What a flit's ACK field leaves of the replay buffer. -/
def leftBy (b : BlPort) (ack : Option (BitVec 12)) : List SentFlit :=
  match ack with
  | some a => unackedAfter b.replay a.toNat
  | none => b.replay

/-- The ACK and the credits of a flit, before anything goes on. -/
def hopTaken (s : State) (p : Nat) (h : HopFields) : State :=
  takeCredits (match h.ack with | some a => takeAck s p a.toNat | none => s) p h.crdVc.toNat h.crd.toNat

theorem takeHop_eq (h : HopFields) : takeHop s p h = portMoves (hopTaken s p h) p := rfl

theorem hopTaken_port (h : HopFields) : (blPort (hopTaken s p h) p).replay = leftBy (blPort s p) h.ack ∧
    ∀ vc, Tab.get 0 (blPort (hopTaken s p h) p).crd vc =
      Tab.get 0 (blPort s p).crd vc + if vc = h.crdVc.toNat then h.crd.toNat else 0 := by
  unfold hopTaken leftBy
  cases h.ack with
  | none =>
    obtain ⟨c, port_, _, _, credits⟩ := takeCredits_port s p h.crdVc.toNat h.crd.toNat
    dsimp only
    rw [port_]
    exact ⟨rfl, credits⟩
  | some a =>
    obtain ⟨n, acked, _⟩ := takeAck_port s p a.toNat
    obtain ⟨c, port_, _, _, credits⟩ := takeCredits_port (takeAck s p a.toNat) p h.crdVc.toNat h.crd.toNat
    dsimp only
    rw [port_]
    rw [acked] at credits ⊢
    exact ⟨rfl, credits⟩

/-- The credits of a CREDIT flit. -/
def creditsTaken (s : State) (p : Nat) (c0 c1 c2 c3 : BitVec 16) : State :=
  takeCredits (takeCredits (takeCredits (takeCredits s p 0 c0.toNat) p 1 c1.toNat) p 2 c2.toNat) p 3 c3.toNat

theorem takeCredits_get (s : State) (vc n v : Nat) :
    Tab.get 0 (blPort (takeCredits s p vc n) p).crd v = Tab.get 0 (blPort s p).crd v + if v = vc then n else 0 := by
  obtain ⟨c, port_, _, _, credits⟩ := takeCredits_port s p vc n
  rw [port_]
  exact credits v

theorem creditsTaken_get (c0 c1 c2 c3 : BitVec 16) (v : Nat) :
    Tab.get 0 (blPort (creditsTaken s p c0 c1 c2 c3) p).crd v = Tab.get 0 (blPort s p).crd v +
      (if v = 0 then c0.toNat else 0) + (if v = 1 then c1.toNat else 0) + (if v = 2 then c2.toNat else 0) +
      (if v = 3 then c3.toNat else 0) := by
  unfold creditsTaken
  rw [takeCredits_get, takeCredits_get, takeCredits_get, takeCredits_get]

/-! ### Replay (R280, R278) -/

/-- What a port shows after it has resent the flits that `b` held. -/
def Resent (b : BlPort) (p : Nat) (flits : List SentFlit) (u : State) : Prop :=
  (blPort u p).replay = flits.map (fun f => { f with tries := f.tries + 1 }) ∧
    (∀ f ∈ flits, Out.flit p (stampFlit f.flit f.seq b.ackNow) ∈ u.out) ∧
    ((∀ f ∈ flits, f.tries < 3) → (blPort u p).st = .active) ∧ ((∃ f ∈ flits, 3 ≤ f.tries) → (blPort u p).st = .recovery)

/-- A NAK makes the port resend what its ACK leaves. -/
theorem nak_resends {a : Nat} (active : (blPort s p).st = .active) (left : unackedAfter (blPort s p).replay a ≠ []) :
    Resent (blPort s p) p (unackedAfter (blPort s p).replay a) (replayAll (takeAck s p a) p) := by
  obtain ⟨n, acked, _⟩ := takeAck_port s p a
  have resends := replayAll_resends (takeAck s p a) p (by rw [acked]; exact left) (by rw [acked]; exact active)
  dsimp only at resends
  rw [acked] at resends
  obtain ⟨replay, out, few, many, _⟩ := resends
  exact ⟨replay, out, few, many⟩

/-- A NAK of the last flit sent only acknowledges. -/
theorem nak_acknowledges {a : Nat} (none_ : unackedAfter (blPort s p).replay a = []) :
    replayAll (takeAck s p a) p = takeAck s p a ∧ (blPort (takeAck s p a) p).replay = [] ∧ (takeAck s p a).out = s.out := by
  obtain ⟨n, acked, out⟩ := takeAck_port s p a
  have empty_ : (blPort (takeAck s p a) p).replay = [] := by
    rw [acked]
    exact none_
  exact ⟨if_pos (.inl empty_), empty_, out⟩

theorem replayTimer_row (takes_ : takes s p = true) : execReplayTimer p s =
    .next (if (blPort s p).replay = [] then s else replayAll (reach s ((blPort s p).ackAt + 2000)) p) := by
  unfold execReplayTimer
  rw [takes_]
  cases (blPort s p).replay with
  | nil => rfl
  | cons f l => rfl

/-- The replay timer resends every unacknowledged flit. -/
theorem replayTimer_resends (active : (blPort s p).st = .active) (some_ : (blPort s p).replay ≠ []) :
    let t := replayAll (reach s ((blPort s p).ackAt + 2000)) p
    (blPort s p).ackAt + 2000 ≤ t.tick ∧ Resent (blPort s p) p (blPort s p).replay t := by
  obtain ⟨replay, out, few, many, time⟩ := replayAll_resends (reach s ((blPort s p).ackAt + 2000)) p some_ active
  exact ⟨Nat.le_trans (Nat.le_max_right _ _) time, replay, out, few, many⟩

/-! ### The ACK that a port owes (R279) -/

theorem sendAck_owes (free : safeState s = false) (owes : (blPort s p).unacked ≠ 0) :
    sendAck s p = emit (updBl s p fun b => { b with unacked := 0 }) (.flit p (idleFlit (((blPort s p).rxSeq + 4095) % 4096))) := by
  unfold sendAck BlPort.ackNow
  rw [if_neg owes]
  exact if_neg (ne_true_of_eq_false free)

theorem sendAck_none (nothing : (blPort s p).unacked = 0) : sendAck s p = s := by
  unfold sendAck BlPort.ackNow
  rw [if_pos nothing]

/-! ### DATA flits (R279) -/

/-- A flit whose HOPCRC does not check: one NAK until the next good flit. -/
theorem dataFlit_corrupt {f : List Byte} (free : safeState s = false)
    (bad : leAt f 12 4 ≠ (crc32c (f.take 12 ++ f.drop 16)).toNat) :
    (blPort (dataFlit s p f) p).rxSeq = (blPort s p).rxSeq ∧ (blPort (dataFlit s p f) p).nakSent = true ∧
      (dataFlit s p f).out = if (blPort s p).nakSent then s.out
        else s.out ++ [Out.flit p (ctrlFlit 1 (leBytes 2 (((blPort s p).rxSeq + 4095) % 4096)))] := by
  unfold dataFlit
  dsimp only
  rw [if_pos bad]
  have bumped := blPort_bumpCnt s p cHopCrc 1
  have free' : safeState (bumpCnt s p cHopCrc 1) = false := free
  have out : (bumpCnt s p cHopCrc 1).out = s.out := rfl
  generalize bumpCnt s p cHopCrc 1 = v at bumped free' out
  cases sent : (blPort s p).nakSent with
  | true =>
    have sent' : (blPort v p).nakSent = true := by rw [bumped]; exact sent
    rw [if_pos sent']
    exact ⟨by rw [bumped], sent', out⟩
  | false =>
    have sent' : (blPort v p).nakSent = false := by rw [bumped]; exact sent
    have rx : (blPort v p).rxSeq = (blPort s p).rxSeq := by rw [bumped]
    rw [if_neg (ne_true_of_eq_false sent'), sendCtrl_sends (by exact free'), blPort_bumpCnt, rx]
    refine ⟨?_, ?_, congrArg (· ++ _) out⟩
    · exact (congrArg BlPort.rxSeq (blPort_updBl_at _ _ _)).trans rx
    · exact congrArg BlPort.nakSent (blPort_updBl_at _ _ _)

/-- The flit that a port expected has come. -/
def flitTaken (h : State) (p : Nat) : State :=
  updBl h p fun b => { b with rxSeq := (b.rxSeq + 1) % 4096, nakSent := false, unacked := b.unacked + 1 }

theorem flitTaken_port (h : State) : (blPort (flitTaken h p) p).rxSeq = ((blPort h p).rxSeq + 1) % 4096 ∧
    (blPort (flitTaken h p) p).nakSent = false ∧ (blPort (flitTaken h p) p).unacked = (blPort h p).unacked + 1 ∧
    (flitTaken h p).out = h.out := by
  have taken := blPort_updBl_at h p fun b => { b with rxSeq := (b.rxSeq + 1) % 4096, nakSent := false, unacked := b.unacked + 1 }
  exact ⟨congrArg BlPort.rxSeq taken, congrArg BlPort.nakSent taken, congrArg BlPort.unacked taken, rfl⟩

/-- A flit whose HOPCRC checks: its hop fields first, then the flit, if its SEQ is the one expected. -/
theorem dataFlit_good {f : List Byte} {hop : HopFields} (good : leAt f 12 4 = (crc32c (f.take 12 ++ f.drop 16)).toNat)
    (vc : hop.crdVc = BitVec.ofNat 2 (byteAt f 6)) (crd : hop.crd = BitVec.ofNat 8 (byteAt f 7))
    (ack : hop.ack = (if (leAt f 10 2).testBit 12 then some (BitVec.ofNat 12 (leAt f 10 2)) else none)) :
    dataFlit s p f =
      if leAt f 8 2 % 4096 ≠ (blPort (takeHop s p hop) p).rxSeq then takeHop s p hop
      else if 64 ≤ (blPort (acceptFlit (flitTaken (takeHop s p hop) p) p f) p).unacked then
        sendAck (acceptFlit (flitTaken (takeHop s p hop) p) p f) p
      else acceptFlit (flitTaken (takeHop s p hop) p) p f := by
  obtain ⟨hvc, hcrd, hack⟩ := hop
  subst vc crd ack
  exact if_neg (not_not_intro good)

/-! ### L1 (R300) -/

/-- Nothing is queued on a port. -/
def portEmpty (b : BlPort) : Prop := b.replay = [] ∧ b.txq = []

theorem toL1_port : (blPort (toL1 s p) p).st = .l1 ∧ Out.lnLpwr p 1 ∈ (toL1 s p).out ∧ KeepsOut s (toL1 s p) := by
  unfold toL1
  refine ⟨?_, List.mem_append_right _ (List.mem_singleton.mpr rfl), fun o there => List.mem_append_left _ there⟩
  exact congrArg BlPort.st (blPort_updBl_at _ _ _)

/-- A request for L1 that waits. -/
def l1Asked (s : State) (p : Nat) : State := updBl s p fun b => { b with l1Wait := true }

theorem l1Asked_port : blPort (l1Asked s p) p = { blPort s p with l1Wait := true } := blPort_updBl_at _ _ _

theorem answerL1_enters (active : (blPort s p).st = .active) (free : safeState s = false) (empty_ : portEmpty (blPort s p)) :
    answerL1 (l1Asked s p) p = toL1 (sendCtrl (l1Asked s p) p 4 []) p := by
  obtain ⟨replay, txq⟩ := empty_
  refine if_pos ?_
  rw [l1Asked_port]
  exact ⟨rfl, active, replay, txq, free⟩

theorem answerL1_waits (queued : ¬portEmpty (blPort s p)) : answerL1 (l1Asked s p) p = l1Asked s p := by
  refine if_neg ?_
  rw [l1Asked_port]
  rintro ⟨_, _, replay, txq, _⟩
  exact queued ⟨replay, txq⟩

/-- The answer to L1_REQ goes out before the lanes are idle. -/
theorem l1Answer_sends (free : safeState s = false) :
    Out.flit p (ctrlFlit 4 []) ∈ (toL1 (sendCtrl (l1Asked s p) p 4 []) p).out := by
  refine toL1_port.2.2 _ ?_
  rw [sendCtrl_sends (by exact free)]
  exact List.mem_append_right _ (List.mem_singleton.mpr rfl)

theorem l1Ack_row : execL1Ack p s = .next (
    if takes s p = true ∧ (blPort s p).l1Sent = true ∧ (blPort s p).replay = [] ∧ (blPort s p).txq = [] then toL1 s p
    else updBl s p fun b => { b with l1Sent := false }) := by
  unfold execL1Ack
  dsimp only
  refine congrArg Host.Outcome.next (ite_of_iff ?_)
  rw [Bool.and_eq_true, Bool.and_eq_true, Bool.and_eq_true, List.isEmpty_iff, List.isEmpty_iff, and_assoc, and_assoc]

/-! ### SAFE (R299) -/

theorem safe_row {bus : Bus} (there : portExists s p = true) (live : (blPort s p).live = true) (free : safeState s = false) :
    execSafe p bus s = .next (pumpRoutes (failReqs (linkDown s p .detect) bus fun r =>
      decide (some r.node = (blPort s p).node ∨ routeTo s r.node.toNat = some p)) bus) := by
  refine congrArg Host.Outcome.next (if_pos ?_)
  rw [there, live, free]
  rfl

end

end Sys2Proof.Machine

open Sys2Proof.Machine

/-- Settles O56: a port that takes flits does what the lemma of the flit's kind says, and else nothing. -/
theorem flitsAreAcknowledgedAndReplayed : Obligations.FlitsAreAcknowledgedAndReplayed := by
  unfold Obligations.FlitsAreAcknowledgedAndReplayed
  intro p s b
  refine ⟨fun takes_ => ?_, fun deaf => ?_, fun idle => ?_, fun there live free bus => ?_, fun idle bus => ?_⟩
  · obtain ⟨there, active, free, _⟩ := takes_means takes_
    refine ⟨?_, ?_, ?_, ?_, ?_, ?_, ?_, ?_, ?_, ?_, ?_⟩
    · intro hop
      exact ⟨hopTaken s p hop, port_takes takes_, hopTaken_port hop⟩
    · intro c0 c1 c2 c3
      refine ⟨creditsTaken s p c0 c1 c2 c3, port_takes takes_, ?_, ?_, ?_, ?_⟩
      · exact (creditsTaken_get c0 c1 c2 c3 0).trans rfl
      · exact (creditsTaken_get c0 c1 c2 c3 1).trans rfl
      · exact (creditsTaken_get c0 c1 c2 c3 2).trans rfl
      · exact (creditsTaken_get c0 c1 c2 c3 3).trans rfl
    · intro seq left
      refine ⟨fun more => ⟨_, port_takes takes_, nak_resends active more⟩, fun none_ => ?_⟩
      obtain ⟨same, replay, out⟩ := nak_acknowledges (s := s) none_
      refine ⟨takeAck s p seq.toNat, (port_takes takes_).trans ?_, replay, out⟩
      exact congrArg (fun t => Host.Outcome.next (portMoves t p)) same
    · intro more
      exact ⟨_, (replayTimer_row takes_).trans (congrArg Host.Outcome.next (if_neg more)), replayTimer_resends active more⟩
    · intro none_
      exact (replayTimer_row takes_).trans (congrArg Host.Outcome.next (if_pos none_))
    · intro owes
      refine ⟨_, (port_takes takes_).trans (congrArg Host.Outcome.next (sendAck_owes free owes)), ?_, rfl⟩
      exact congrArg BlPort.unacked (blPort_updBl_at _ _ _)
    · intro nothing
      exact (port_takes takes_).trans (congrArg Host.Outcome.next (sendAck_none nothing))
    · intro flit f
      refine ⟨fun bad => ⟨_, port_takes takes_, dataFlit_corrupt free bad⟩, fun hop good vc crd ack => ?_⟩
      have runs : exec (.dataFlit p flit) s = _ :=
        (port_takes takes_).trans (congrArg Host.Outcome.next (dataFlit_good good vc crd ack))
      generalize takeHop s p hop = h at runs ⊢
      refine ⟨fun other => runs.trans (congrArg Host.Outcome.next (if_pos other)), fun next => ?_⟩
      obtain ⟨rx, nak, unacked, out⟩ := flitTaken_port (p := p) h
      exact ⟨flitTaken h p, rx, nak, unacked, out, runs.trans (congrArg Host.Outcome.next (if_neg (not_not_intro next)))⟩
    · intro replay txq
      exact ⟨_, (port_takes takes_).trans (congrArg Host.Outcome.next (answerL1_enters active free ⟨replay, txq⟩)), toL1_port.1,
        l1Answer_sends free, toL1_port.2.1⟩
    · intro queued
      refine ⟨l1Asked s p, (port_takes takes_).trans (congrArg Host.Outcome.next (answerL1_waits ?_)), l1Asked_port⟩
      rintro ⟨replay, txq⟩
      exact queued.elim (fun h => h replay) fun h => h txq
    · intro sent replay txq
      exact ⟨_, l1Ack_row.trans (congrArg Host.Outcome.next (if_pos ⟨takes_, sent, replay, txq⟩)), toL1_port.1, toL1_port.2.1⟩
  · refine ⟨fun hop => port_deaf deaf, fun c0 c1 c2 c3 => port_deaf deaf, fun seq => port_deaf deaf, ?_, port_deaf deaf,
      fun flit => port_deaf deaf, port_deaf deaf⟩
    refine congrArg Host.Outcome.next (if_neg ?_)
    rw [deaf]
    exact Bool.false_ne_true
  · refine ⟨_, l1Ack_row.trans (congrArg Host.Outcome.next (if_neg ?_)), blPort_updBl_at _ _ _⟩
    rintro ⟨takes_, sent, replay, txq⟩
    rcases idle with deaf | unsent | h | h
    · exact Bool.noConfusion (deaf.symm.trans takes_)
    · exact Bool.noConfusion (unsent.symm.trans sent)
    · exact h replay
    · exact h txq
  · obtain ⟨c, n, down⟩ := (linkDown_clears_port s p .detect ⟨by decide, by decide, by decide⟩).1
    refine ⟨linkDown s p .detect, safe_row there live free, ?_⟩
    rw [down]
    exact ⟨rfl, rfl⟩
  · refine congrArg Host.Outcome.next (if_neg fun h => ?_)
    rw [Bool.and_eq_true, Bool.and_eq_true] at h
    obtain ⟨⟨_, live⟩, free⟩ := h
    rcases idle with dead | safe_
    · exact Bool.noConfusion (dead.symm.trans live)
    · rw [safe_] at free
      exact Bool.noConfusion free

end

section
/-! PROOFS. An accepted flit is checked, delivered or forwarded (spec files 09, R285 to R289, R294 to R296). -/

open Sys2Proof

namespace Sys2Proof.Machine

section
variable {s : State} {p : Nat} {f : List Byte}

/-- The virtual channel, key, source and length that a flit's header names. -/
def flitVc (f : List Byte) : Nat := byteAt f 0 / 16 % 4
def flitKey (f : List Byte) : Nat := byteAt f 5
def flitSrc (f : List Byte) : Nat := leAt f 2 3 / 2 ^ 10 % 1024
def flitUnits (f : List Byte) : Nat := leAt f 2 3 / 2 ^ 20

/-! ### Whose a flit is (R285, R286, R288) -/

theorem acceptFlit_malformed (bad : byteAt f 0 % 8 ≠ 1 ∨ opVc (byteAt f 1) ≠ some (flitVc f)) :
    acceptFlit s p f = dropFlit s p (flitVc f) cFormat true := if_pos bad

section
variable (version : byteAt f 0 % 8 = 1) (op : opVc (byteAt f 1) = some (flitVc f))
include version op

/-- A flit of a known form goes by whether the node has its ID. -/
theorem acceptFlit_formed : acceptFlit s p f =
    if s.bl.assigned then
      if flitDst f = s.bl.nodeId.toNat ∨ nextHopOp (byteAt f 1) = true then localFlit s p f else forwardFlit s p f
    else if flitVc f = 2 then localFlit s p f
    else creditBack s p (flitVc f) := by
  refine if_neg ?_
  rintro (other | other)
  · exact other version
  · exact other op

theorem acceptFlit_unassigned (unassigned : s.bl.assigned = false) (vc : flitVc f ≠ 2) :
    acceptFlit s p f = creditBack s p (flitVc f) :=
  (acceptFlit_formed version op).trans ((if_neg (ne_true_of_eq_false unassigned)).trans (if_neg vc))

theorem acceptFlit_forwards (assigned : s.bl.assigned = true) (other : flitDst f ≠ s.bl.nodeId.toNat)
    (far : ¬(byteAt f 1 = 0x18 ∨ byteAt f 1 = 0x19)) : acceptFlit s p f = forwardFlit s p f := by
  refine (acceptFlit_formed version op).trans ((if_pos assigned).trans (if_neg ?_))
  rintro (same | hop)
  · exact other same
  · exact far (of_decide_eq_true hop)

/-- A flit is this node's: by its destination, by its OP, or because the node has no ID yet. -/
theorem acceptFlit_local (mine : s.bl.assigned = true ∧ (flitDst f = s.bl.nodeId.toNat ∨ byteAt f 1 = 0x18 ∨ byteAt f 1 = 0x19) ∨
    s.bl.assigned = false ∧ flitVc f = 2) : acceptFlit s p f = localFlit s p f := by
  refine (acceptFlit_formed version op).trans ?_
  rcases mine with ⟨assigned, mine⟩ | ⟨unassigned, vc⟩
  · refine (if_pos assigned).trans (if_pos ?_)
    exact mine.imp_right fun hop => decide_eq_true hop
  · exact (if_neg (ne_true_of_eq_false unassigned)).trans (if_pos vc)

end

/-! ### Forwarding (R288, R289) -/

theorem forwardFlit_spent (spent : flitTtl f = 0) : forwardFlit s p f = dropFlit s p (flitVc f) cTtl true := if_pos spent

theorem forwardFlit_lost (goes : flitTtl f ≠ 0) (route : routeTo s (flitDst f) = none) :
    forwardFlit s p f = creditBack s p (flitVc f) := by
  refine (if_neg goes).trans ?_
  rw [route]
  rfl

theorem forwardFlit_queues {q : Nat} (goes : flitTtl f ≠ 0) (route : routeTo s (flitDst f) = some q) :
    forwardFlit s p f = queueFlit (bumpCnt s p cFwd 1) q { vc := flitVc f, key := BitVec.ofNat 8 (flitKey f), origin := some p
                                                           flit := patch f 8 (leBytes 2 ((flitTtl f - 1) * 2 ^ 12)) } := by
  refine (if_neg goes).trans ?_
  rw [route]
  rfl

/-! ### The destination's checks (R295, R296) -/

theorem localFlit_malformed (bad : (byteAt f 0).testBit 3 ≠ decide (flitKey f ≠ 0) ∨ flitUnits f = 0 ∨ 14 < flitUnits f) :
    localFlit s p f = dropFlit s p (flitVc f) cFormat true := if_pos bad

section
variable (mode : (byteAt f 0).testBit 3 = decide (flitKey f ≠ 0)) (low : 1 ≤ flitUnits f) (high : flitUnits f ≤ 14)
include mode low high

theorem flit_wellFormed : ¬((byteAt f 0).testBit 3 ≠ decide (flitKey f ≠ 0) ∨ flitUnits f = 0 ∨ 14 < flitUnits f) := by
  rintro (other | none_ | long_)
  · exact other mode
  · exact Nat.ne_of_gt low none_
  · exact Nat.not_lt.mpr high long_

theorem localFlit_revoked (keyed : flitKey f ≠ 0) (revoked : (keySlot s (flitKey f)).st = .revoked) :
    localFlit s p f = dropFlit s p (flitVc f) cRevoked false :=
  (if_neg (flit_wellFormed mode low high)).trans ((if_pos keyed).trans (if_pos revoked))

theorem localFlit_empty (keyed : flitKey f ≠ 0) (empty_ : (keySlot s (flitKey f)).st = .empty) :
    localFlit s p f = dropFlit s p (flitVc f) cFormat true := by
  refine (if_neg (flit_wellFormed mode low high)).trans ((if_pos keyed).trans ((if_neg ?_).trans (if_pos empty_)))
  intro revoked
  have both := (show (keySlot s (flitKey f)).st = .revoked from revoked).symm.trans empty_
  cases both

theorem localFlit_tag (keyed : flitKey f ≠ 0) (active : (keySlot s (flitKey f)).st = .active) :
    localFlit s p f =
      if !flitTagOk s f then
        match (keySlot s (flitKey f)).install with
        | some t => if s.tick ≤ t + 100000 then dropFlit s p (flitVc f) cStale false else dropFlit s p (flitVc f) cTagFail true
        | none => dropFlit s p (flitVc f) cTagFail true
      else
        let i := nonceIdx true (flitSrc f) (flitVc f) (flitKey f)
        let ctr := Tab.get 0 s.bl.nonces i
        let plain := gcmPlain (keySlot s (flitKey f)).key (flitNonce (flitSrc f) s.bl.nodeId.toNat (flitVc f) ctr) ((f.drop 16).take 224)
        creditBack (deliverFlit { s with bl := { s.bl with nonces := Tab.set 0 s.bl.nonces i (ctr + 1) } } p f
          (padTo (16 * flitUnits f) plain)) p (flitVc f) := by
  refine (if_neg (flit_wellFormed mode low high)).trans ((if_pos keyed).trans ((if_neg ?_).trans ((if_neg ?_).trans rfl)))
  · intro revoked
    have both := (show (keySlot s (flitKey f)).st = .revoked from revoked).symm.trans active
    cases both
  · intro empty_
    have both := (show (keySlot s (flitKey f)).st = .empty from empty_).symm.trans active
    cases both

/-- A flit whose tag fails: stale within 100 µs of the key's install (R295). -/
theorem localFlit_forged (keyed : flitKey f ≠ 0) (active : (keySlot s (flitKey f)).st = .active) (forged : flitTagOk s f = false) :
    ((∃ t, (keySlot s (flitKey f)).install = some t ∧ s.tick ≤ t + 100000) →
      localFlit s p f = dropFlit s p (flitVc f) cStale false) ∧
    ((¬∃ t, (keySlot s (flitKey f)).install = some t ∧ s.tick ≤ t + 100000) →
      localFlit s p f = dropFlit s p (flitVc f) cTagFail true) := by
  rw [localFlit_tag mode low high keyed active, forged]
  refine ⟨fun ⟨t, install, fresh_⟩ => ?_, fun old => ?_⟩
  · rw [install]
    exact if_pos fresh_
  · cases install : (keySlot s (flitKey f)).install with
    | none => rfl
    | some t => exact if_neg fun fresh_ => old ⟨t, install, fresh_⟩

theorem localFlit_decrypts (keyed : flitKey f ≠ 0) (active : (keySlot s (flitKey f)).st = .active) (good : flitTagOk s f = true) :
    localFlit s p f =
      let i := nonceIdx true (flitSrc f) (flitVc f) (flitKey f)
      let n := Tab.get 0 s.bl.nonces i
      creditBack (deliverFlit { s with bl := { s.bl with nonces := Tab.set 0 s.bl.nonces i (n + 1) } } p f
        (padTo (16 * flitUnits f) (gcmPlain (keySlot s (flitKey f)).key (flitNonce (flitSrc f) s.bl.nodeId.toNat (flitVc f) n)
          ((f.drop 16).take 224)))) p (flitVc f) := by
  rw [localFlit_tag mode low high keyed active, good]
  rfl

theorem localFlit_corrupt (plain : flitKey f = 0) (bad : leAt f 240 8 ≠ (crc64 (f.take 6 ++ (f.drop 16).take 224)).toNat) :
    localFlit s p f = dropFlit s p (flitVc f) cLcrc true :=
  (if_neg (flit_wellFormed mode low high)).trans ((if_neg (not_not_intro plain)).trans (if_pos bad))

theorem localFlit_plain (plain : flitKey f = 0) (good : leAt f 240 8 = (crc64 (f.take 6 ++ (f.drop 16).take 224)).toNat) :
    localFlit s p f = creditBack (deliverFlit s p f ((f.drop 16).take (16 * flitUnits f))) p (flitVc f) :=
  (if_neg (flit_wellFormed mode low high)).trans ((if_neg (not_not_intro plain)).trans (if_neg (not_not_intro good)))

end

end

end Sys2Proof.Machine

open Sys2Proof.Machine

/-- Settles O57: an accepted flit is another node's, or is checked in the order of the destination's checks. -/
theorem flitsAreCheckedAndForwarded : Obligations.FlitsAreCheckedAndForwarded := by
  unfold Obligations.FlitsAreCheckedAndForwarded
  intro s p f vc key dst src units hop
  refine ⟨acceptFlit_malformed, fun version op => ⟨?_, ?_, ?_, ?_, ?_⟩⟩
  · exact acceptFlit_unassigned version op
  · intro assigned other far spent
    exact (acceptFlit_forwards version op assigned other far).trans (forwardFlit_spent spent)
  · intro assigned other far goes route
    exact (acceptFlit_forwards version op assigned other far).trans (forwardFlit_lost goes route)
  · intro q assigned other far goes route
    exact (acceptFlit_forwards version op assigned other far).trans (forwardFlit_queues goes route)
  · intro mine
    have here : acceptFlit s p f = localFlit s p f := acceptFlit_local version op mine
    refine ⟨fun bad => here.trans (localFlit_malformed bad), fun mode low high => ⟨?_, ?_, ?_, ?_, ?_, ?_⟩⟩
    · exact fun keyed revoked => here.trans (localFlit_revoked mode low high keyed revoked)
    · exact fun keyed empty_ => here.trans (localFlit_empty mode low high keyed empty_)
    · intro keyed active forged
      obtain ⟨stale, failed⟩ := localFlit_forged (p := p) mode low high keyed active forged
      split
      · exact here.trans (stale ‹_›)
      · exact here.trans (failed ‹_›)
    · exact fun keyed active good => here.trans (localFlit_decrypts mode low high keyed active good)
    · exact fun plain bad => here.trans (localFlit_corrupt mode low high plain bad)
    · exact fun plain good => here.trans (localFlit_plain mode low high plain good)

end

section
/-! PROOFS. Discovery numbers the nodes, and routes change in order (spec file 09, R284 to R292, R297). -/

open Sys2Proof

namespace Sys2Proof.Machine

section
variable {s : State} {p port : Nat} {d : Word}

/-! ### Discovery starts (R285) -/

/-- What a start of discovery leaves. -/
def discoveryStarted (s t : State) : Prop :=
  t.bl.heard = identityDigest s :: (if s.bl.discBusy then s.bl.heard.filter (· ≠ identityDigest s) else []) ∧
    t.bl.discBusy = true ∧ t.bl.started = true ∧ t.bl.discRes = 0 ∧ ∀ p ∈ boardLinks s, p ≠ 0xFF → safeState s = false →
      mgmtOn t p opAnnounce 0 (digestBytes (identityDigest s))

theorem discoveryStart_starts (manager : s.role = true) (links : s.build.brambles.isEmpty = false) (ready : s.tp.ready = true)
    (new : s.bl.started = false) (free : safeState s = false) : execDiscoveryStart s = .next (startDiscovery s) := by
  refine congrArg Host.Outcome.next (if_pos ?_)
  rw [manager, links, ready, new, free]
  rfl

theorem discoveryStart_idle (idle : s.role = false ∨ s.tp.ready = false ∨ s.bl.started = true ∨ safeState s = true) :
    execDiscoveryStart s = .next s := by
  refine congrArg Host.Outcome.next (if_neg fun goes => ?_)
  simp only [Bool.and_eq_true, Bool.not_eq_true'] at goes
  obtain ⟨⟨⟨⟨manager, ready⟩, new⟩, _⟩, free⟩ := goes
  rcases idle with h | h | h | h
  · exact Bool.noConfusion (h.symm.trans manager)
  · exact Bool.noConfusion (h.symm.trans ready)
  · exact Bool.noConfusion (h.symm.trans new)
  · exact Bool.noConfusion (h.symm.trans free)

theorem rediscover_writes (heard : barOk s = true) (links : s.build.brambles.isEmpty = false) :
    execRediscover s = .next (discWrite s 1) := by
  refine congrArg Host.Outcome.next (if_pos ?_)
  rw [heard, links]
  rfl

theorem discWrite_busy (busy : discRuns s = true) : discWrite s 1 = s := if_pos busy

theorem discWrite_worker (idle : discRuns s = false) (worker : s.role = false) :
    discWrite s 1 = { s with bl := { s.bl with discRes := rState } } := by
  refine (if_neg (ne_true_of_eq_false idle)).trans ((if_neg (not_not_intro rfl)).trans (if_pos ?_))
  rw [worker]
  rfl

theorem discWrite_starts (idle : discRuns s = false) (manager : s.role = true) : discWrite s 1 = startDiscovery s := by
  refine (if_neg (ne_true_of_eq_false idle)).trans ((if_neg (not_not_intro rfl)).trans (if_neg ?_))
  rw [manager]
  decide

/-! ### Announcements (R285) -/

/-- A manager that has heard of one more digest. -/
def heardOf (s : State) (d : Word) : State := { s with bl := { s.bl with heard := s.bl.heard ++ [d], discBusy := true } }

theorem mgrAnnounce_passes (manager : s.role = true) (ready : s.tp.ready = true) (link : linked s port = true)
    (free : safeState s = false) (new : d ∉ s.bl.heard) :
    execMgrAnnounce port d s = .next (announce (heardOf s d) d port) := by
  refine congrArg Host.Outcome.next (if_pos ?_)
  have fresh_ : s.bl.heard.contains d = false := Bool.eq_false_iff.mpr fun h => new (List.contains_iff_mem.mp h)
  rw [manager, ready, link, free, fresh_]
  rfl

theorem mgrAnnounce_idle (idle : s.role = false ∨ d ∈ s.bl.heard) : execMgrAnnounce port d s = .next s := by
  refine congrArg Host.Outcome.next (if_neg fun goes => ?_)
  simp only [Bool.and_eq_true, Bool.not_eq_true'] at goes
  obtain ⟨⟨⟨⟨manager, _⟩, _⟩, _⟩, new⟩ := goes
  rcases idle with worker | known
  · exact Bool.noConfusion (worker.symm.trans manager)
  · exact Bool.noConfusion (new.symm.trans (List.contains_iff_mem.mpr known))

theorem announce_heard : (announce (heardOf s d) d port).bl.heard = s.bl.heard ++ [d] ∧
    (announce (heardOf s d) d port).bl.discBusy = true := by
  have kept := (announce_floods (heardOf s d) d port).1.fields.1
  exact ⟨congrArg Bl.heard kept, congrArg Bl.discBusy kept⟩

/-! ### The election and the tree (R285, R291) -/

theorem rootElection_elects {topo : Topology} (manager : s.role = true) (busy : s.bl.discBusy = true) (heard : s.bl.heard ≠ [])
    (free : safeState s = false) : execRootElection topo s = .next (
      if (s.bl.heard.all fun d => decide ((identityDigest s).toNat ≤ d.toNat)) = true then
        buildTree { s with bl := { s.bl with tree := [] } } topo.links topo.boards []
      else { s with bl := { s.bl with root := false } }) := by
  refine congrArg Host.Outcome.next (if_pos ?_)
  rw [manager, busy, free, decide_eq_true heard]
  rfl

theorem rootElection_idle {topo : Topology}
    (idle : s.role = false ∨ s.bl.discBusy = false ∨ s.bl.heard = [] ∨ safeState s = true) :
    execRootElection topo s = .next s := by
  refine congrArg Host.Outcome.next (if_neg fun goes => ?_)
  simp only [Bool.and_eq_true, Bool.not_eq_true', decide_eq_true_eq] at goes
  obtain ⟨⟨⟨manager, busy⟩, heard⟩, free⟩ := goes
  rcases idle with h | h | h | h
  · exact Bool.noConfusion (h.symm.trans manager)
  · exact Bool.noConfusion (h.symm.trans busy)
  · exact heard h
  · exact Bool.noConfusion (h.symm.trans free)

/-- What buildTree sends ROUTE with to the manager of another board. -/
def sendBoard (r : List TreeNode × Bool) (maps : List (TreeNode × BoardMap)) (s : State) (x : TreeNode × BoardMap) : State :=
  match towards r.1 0 x.1.board with
  | some p => sendMgmt s p opRoute (16 * x.1.board) (routeBody x.1.digest x.1.board x.2.mesh (boardRoutes r.1 maps x))
  | none => s

theorem sendBoard_sends (r : List TreeNode × Bool) (maps : List (TreeNode × BoardMap)) (s : State) (x : TreeNode × BoardMap) :
    Sends s (sendBoard r maps s x) := by
  unfold sendBoard
  split
  · exact (sendMgmt_sends _ _ _ _ _).1
  · exact .refl s

/-- ROUTE goes on the port towards each board. -/
theorem each_sendBoard {r : List TreeNode × Bool} {maps l : List (TreeNode × BoardMap)} {x : TreeNode × BoardMap}
    (listed : x ∈ l) (free : safeState s = false) (port_ : towards r.1 0 x.1.board = some p) :
    mgmtOn (each (sendBoard r maps) s l) p opRoute (16 * x.1.board)
      (routeBody x.1.digest x.1.board x.2.mesh (boardRoutes r.1 maps x)) := by
  refine Sends.each_reaches (f := sendBoard r maps) (P := fun t => mgmtOn t p opRoute (16 * x.1.board)
    (routeBody x.1.digest x.1.board x.2.mesh (boardRoutes r.1 maps x))) x listed (sendBoard_sends r maps)
    (fun a b h on => h.mgmtOn on) s fun y before => ?_
  unfold sendBoard
  rw [port_]
  exact (sendMgmt_sends _ _ _ _ _).2 (before.safe.trans free)

/-- The ports towards workers follow the links alone. -/
theorem workerPorts_congr {t : State} (build : t.build = s.build)
    (links : ∀ p, linked t p = linked s p ∧ (blPort t p).peerRole = (blPort s p).peerRole) : workerPorts t = workerPorts s := by
  unfold workerPorts
  rw [build]
  exact List.filter_congr fun p _ => by rw [(links p).1, (links p).2]

theorem Sends.workerPorts {t : State} (h : Sends s t) : workerPorts t = workerPorts s :=
  workerPorts_congr h.fields.2.2.2.2.1 fun p => ⟨h.linked p, (h.portFields p).2.1⟩

/-- What the identity of a complex rests on. -/
theorem identityDigest_congr {t : State} (same : t.ps = s.ps) : identityDigest t = identityDigest s := by
  unfold identityDigest identityKey lifecycleOf fuseWord
  rw [same]

theorem routesOf_congr {t : State} (build : t.build = s.build) (node : Nat) (ents : List RouteEnt) :
    routesOf t node ents = routesOf s node ents := by
  unfold routesOf portExists
  rw [build]

/-- A manager passes its workers' routes on (R285). -/
theorem passRoutes_sends (s : State) (board : Nat) (mesh : List MeshLink) (ents : List RouteEnt) :
    Sends s (passRoutes s board mesh ents) ∧ ∀ p ∈ workerPorts s, safeState s = false →
      mgmtOn (passRoutes s board mesh ents) p opRoute (16 * board + p + 1)
        (routeBody (identityDigest s) board mesh (ents.filter fun e => e.node = 16 * board + p + 1)) :=
  each_sendMgmt_sends (fun p => p) (fun _ => opRoute) (fun p => 16 * board + p + 1)
    (fun s p => routeBody (identityDigest s) board mesh (ents.filter fun e => e.node = 16 * board + p + 1)) (workerPorts s) s
    fun y x before => by rw [identityDigest_congr before.fields.2.1]

/-- What a manager's taking of its board leaves, with sendings between the assignments and the routes. -/
theorem takeBoard_passes {t : State} (board : Nat) (mesh : List MeshLink) (ents : List RouteEnt)
    (between : Sends (takeBoard s board) t) : let u := passRoutes t board mesh ents
    Sends (takeBoard s board) u ∧ ∀ p ∈ workerPorts s, safeState s = false →
      mgmtOn u p opAssign (16 * board + p + 1) (leBytes 2 (16 * board + p + 1)) ∧
      mgmtOn u p opRoute (16 * board + p + 1)
        (routeBody (identityDigest s) board mesh (ents.filter fun e => e.node = 16 * board + p + 1)) := by
  obtain ⟨_, free, build, _, ps, _, links, assigns⟩ := takeBoard_assigns s board
  obtain ⟨passes, routes⟩ := passRoutes_sends t board mesh ents
  have same : workerPorts t = workerPorts s := between.workerPorts.trans (workerPorts_congr build links)
  have digest : identityDigest t = identityDigest s := identityDigest_congr (between.fields.2.1.trans ps)
  refine ⟨between.trans passes, fun p listed calm => ⟨(between.trans passes).mgmtOn (assigns p listed calm), ?_⟩⟩
  have on := routes p (same ▸ listed) (between.safe.trans (free.trans calm))
  rw [digest] at on
  exact on

/-- What takeBoard leaves of the fabric's registers. -/
theorem takeBoard_bl (s : State) (board : Nat) {t : State} (after : Sends (takeBoard s board) t) :
    { t.bl with ports := [] } = { s.bl with board := BitVec.ofNat 6 board, pos := 0, nodeId := BitVec.ofNat 10 (16 * board)
                                            assigned := true, ports := [] } :=
  after.fields.1.trans (takeBoard_assigns s board).1

/-- A root whose tree stands. -/
def treeTaken (s : State) (r : List TreeNode × Bool) (mesh : List MeshLink) : State :=
  { s with bl := { s.bl with root := true, tree := r.1.map fun t => (t.digest, t.board), discRes := if r.2 then 2 else 0, mesh := mesh } }

/-- A root that has taken board 0 and told every other board its own. -/
def boardsTold (s : State) (r : List TreeNode × Bool) (maps : List (TreeNode × BoardMap)) (mesh : List MeshLink) : State :=
  each (sendBoard r maps) (takeBoard (treeTaken s r mesh) 0) (maps.filter fun x => x.1.depth ≠ 0)

/-- The root's board, its registers, and what it has sent. -/
theorem boardsTold_passes (r : List TreeNode × Bool) (maps : List (TreeNode × BoardMap)) (mesh : List MeshLink)
    (ents : List RouteEnt) (free : safeState s = false) : let u := passRoutes (boardsTold s r maps mesh) 0 mesh ents
    (u.bl.root = true ∧ u.bl.assigned = true ∧ u.bl.nodeId = 0 ∧ u.bl.board = 0 ∧
      u.bl.tree = r.1.map (fun t => (t.digest, t.board)) ∧ u.bl.discRes = (if r.2 then 2 else 0) ∧ u.bl.mesh = mesh) ∧
    (∀ x ∈ maps, x.1.depth ≠ 0 → ∀ p, towards r.1 0 x.1.board = some p → mgmtOn u p opRoute (16 * x.1.board)
      (routeBody x.1.digest x.1.board x.2.mesh (boardRoutes r.1 maps x))) ∧
    ∀ p ∈ workerPorts s, mgmtOn u p opAssign (p + 1) (leBytes 2 (p + 1)) ∧
      mgmtOn u p opRoute (p + 1) (routeBody (identityDigest s) 0 mesh (ents.filter fun e => e.node = p + 1)) := by
  have between : Sends (takeBoard (treeTaken s r mesh) 0) (boardsTold s r maps mesh) := Sends.each (sendBoard_sends r maps) _ _
  obtain ⟨after, passed⟩ := takeBoard_passes 0 mesh ents between
  have regs := takeBoard_bl (treeTaken s r mesh) 0 after
  have free' : safeState (takeBoard (treeTaken s r mesh) 0) = false := (takeBoard_assigns (treeTaken s r mesh) 0).2.1.trans free
  refine ⟨⟨?_, ?_, ?_, ?_, ?_, ?_, ?_⟩, fun x listed below p port_ => ?_, fun p listed => ?_⟩
  · have h := congrArg Bl.root regs
    exact h
  · have h := congrArg Bl.assigned regs
    exact h
  · have h := congrArg Bl.nodeId regs
    exact h
  · have h := congrArg Bl.board regs
    exact h
  · have h := congrArg Bl.tree regs
    exact h
  · have h := congrArg Bl.discRes regs
    exact h
  · have h := congrArg Bl.mesh regs
    exact h
  · refine (passRoutes_sends (boardsTold s r maps mesh) 0 mesh ents).1.mgmtOn (each_sendBoard ?_ free' port_)
    exact List.mem_filter.mpr ⟨listed, decide_eq_true below⟩
  · have on := passed p listed free
    rw [show 16 * 0 + p + 1 = p + 1 by omega] at on
    exact on

/-- The routes of the root are those of node 0. -/
theorem buildTree_eq {links : List MgrLink} {boards : List BoardMap} {bus : Bus} :
    let me : TreeNode := ⟨identityDigest s, 0, 0, 0, 0, 0⟩
    let used := links.filter fun l => decide (l.a ≠ identityDigest s) || routable s l.port
    let r := growTree used s.bl.tree (used.length + 2) [me] [me] false
    let maps := treeMaps s boards r.1
    let own := (me, boardMap s boards me.digest)
    let ents := boardRoutes r.1 maps own
    buildTree s links boards bus =
      setRoutes (passRoutes (boardsTold s r maps own.2.mesh) 0 own.2.mesh ents) bus true (routesOf s 0 ents) := by
  intro me used r maps own ents
  have between : Sends (takeBoard (treeTaken s r own.2.mesh) 0) (boardsTold s r maps own.2.mesh) :=
    Sends.each (sendBoard_sends r maps) _ _
  have build : (boardsTold s r maps own.2.mesh).build = s.build :=
    between.fields.2.2.2.2.1.trans (takeBoard_assigns (treeTaken s r own.2.mesh) 0).2.2.1
  rw [← routesOf_congr build]
  rfl

/-! ### Assignments (R285, R286) -/

/-- The ports on which managers have assigned this worker. -/
def assignedBy (s : State) (port : Nat) : List Nat :=
  if s.bl.assigners.any (sameMgr s port) then s.bl.assigners else s.bl.assigners ++ [port]

theorem assign_goes {node : BitVec 10} (worker : s.role = false) (there : portExists s port = true) (free : safeState s = false)
    (ready : s.tp.ready = true) : execAssign port node s =
      if 1 < (assignedBy s port).length then .next (refuseAssign { s with bl := { s.bl with assigners := assignedBy s port } })
      else .next { s with bl := { s.bl with
        assigners := assignedBy s port, assigned := true, nodeId := node, board := BitVec.ofNat 6 (boardOf node.toNat)
        pos := BitVec.ofNat 4 (posOf node.toNat) } } := by
  refine if_neg ?_
  rw [worker, there, free, ready]
  decide

theorem assign_idle {node : BitVec 10}
    (idle : s.role = true ∨ portExists s port = false ∨ safeState s = true ∨ s.tp.ready = false) :
    execAssign port node s = .next s := by
  refine if_pos ?_
  rcases idle with h | h | h | h
  all_goals
    rw [h]
    simp only [Bool.or_true, Bool.true_or, Bool.not_false]

/-! ### ROUTE (R285, R290) -/

/-- A complex that has learnt the links of its board. -/
def meshed (s : State) (mesh : List MeshLink) : State := { s with bl := { s.bl with mesh := mesh } }

section
variable {board : BitVec 6} {body : RouteMap} {bus : Bus} (free : safeState s = false) (ready : s.tp.ready = true)
include free ready

theorem route_heard : ¬(safeState s || !s.tp.ready) = true := by
  rw [free, ready]
  decide

theorem route_worker (worker : s.role = false) (assigned : s.bl.assigned = true) : execRoute board body bus s =
    .next (setRoutes (takeMesh s body.mesh) bus true (routesOf s s.bl.nodeId.toNat body.routes)) :=
  (if_neg (route_heard free ready)).trans ((if_neg (ne_true_of_eq_false worker)).trans (if_pos assigned))

theorem route_unassigned (worker : s.role = false) (unassigned : s.bl.assigned = false) : execRoute board body bus s = .next s :=
  (if_neg (route_heard free ready)).trans ((if_neg (ne_true_of_eq_false worker)).trans (if_neg (ne_true_of_eq_false unassigned)))

theorem route_root (manager : s.role = true) (root : s.bl.root = true) : execRoute board body bus s = .next s :=
  (if_neg (route_heard free ready)).trans ((if_pos manager).trans (if_pos root))

/-- A manager takes its board from ROUTE, and passes its workers' routes on. -/
theorem route_manager (manager : s.role = true) (other : s.bl.root = false) : execRoute board body bus s =
    .next (setRoutes (passRoutes (takeBoard (meshed s body.mesh) board.toNat) board.toNat body.mesh body.routes) bus true
      (routesOf s (16 * board.toNat) body.routes)) := by
  have build : (takeBoard (meshed s body.mesh) board.toNat).build = s.build := (takeBoard_assigns _ _).2.2.1
  rw [← routesOf_congr build]
  exact (if_neg (route_heard free ready)).trans ((if_pos manager).trans (if_neg (ne_true_of_eq_false other)))

end

/-! ### New routes (R288, R290 to R292) -/

theorem routesFree_iff {rs : Tab Nat} :
    routesFree s rs = true ↔ ∀ e ∈ s.bl.routes, Tab.find? rs e.1 = some e.2 ∨ (blPort s e.2).replay = [] := by
  unfold routesFree
  simp only [List.all_eq_true, Bool.or_eq_true, decide_eq_true_eq, List.isEmpty_iff]

/-- New routes that wait to be put in force. -/
def routesTaken (s : State) (install : Bool) (rs : Tab Nat) : NewRoutes :=
  ⟨install || (s.bl.newRoutes.map (·.install)).getD false, rs⟩

theorem setRoutes_eq {bus : Bus} {install : Bool} {rs : Tab Nat} : setRoutes s bus install rs =
    if routesFree s rs = true then
      switchRoutes { s with bl := { s.bl with newRoutes := some (routesTaken s install rs) } } bus (routesTaken s install rs)
    else { s with bl := { s.bl with newRoutes := some (routesTaken s install rs) } } := rfl

/-- The state in which new routes are in force, before anything goes by them. -/
def routesIn (s : State) (n : NewRoutes) : State :=
  let s := { s with bl := { s.bl with routes := n.routes, newRoutes := none } }
  if n.install then { s with bl := { s.bl with ready := true, discBusy := false, epoch := s.bl.epoch + 1, heard := [] } } else s

theorem routesIn_bl (s : State) (n : NewRoutes) : (routesIn s n).build = s.build ∧ (routesIn s n).bl.routes = n.routes ∧
    (routesIn s n).bl.newRoutes = none ∧ (routesIn s n).bl.ports = s.bl.ports ∧ (routesIn s n).bl.reqs = s.bl.reqs := by
  unfold routesIn
  dsimp only
  split
  · exact ⟨rfl, rfl, rfl, rfl, rfl⟩
  · exact ⟨rfl, rfl, rfl, rfl, rfl⟩

theorem switchRoutes_eq {bus : Bus} (n : NewRoutes) : switchRoutes s bus n =
    each pumpRetire (reroute (failReqs (routesIn s n) bus fun r => (Tab.find? n.routes r.node.toNat).isNone))
      (List.range s.build.brambles.length) := by
  have build : (failReqs (routesIn s n) bus fun r => (Tab.find? n.routes r.node.toNat).isNone).build = s.build :=
    (kept_failReqs (Kept.refl true (routesIn s n))).build.trans (routesIn_bl s n).1
  rw [← build]
  rfl

theorem routesIn_installs {n : NewRoutes} (install : n.install = true) : (routesIn s n).bl.ready = true ∧
    (routesIn s n).bl.discBusy = false ∧ (routesIn s n).bl.epoch = s.bl.epoch + 1 := by
  unfold routesIn
  dsimp only
  rw [if_pos install]
  exact ⟨rfl, rfl, rfl⟩

theorem routesIn_keeps {n : NewRoutes} (change : n.install = false) : (routesIn s n).bl.ready = s.bl.ready ∧
    (routesIn s n).bl.discBusy = s.bl.discBusy ∧ (routesIn s n).bl.epoch = s.bl.epoch := by
  unfold routesIn
  dsimp only
  rw [if_neg (ne_true_of_eq_false change)]
  exact ⟨rfl, rfl, rfl⟩

theorem pumpRetire_retires (out : (blPort s p).retire = true ∧ (blPort s p).retired = false ∧ s.bl.newRoutes = none ∧
    ∀ e ∈ s.bl.routes, e.2 ≠ p) : pumpRetire s p = updBl s p fun b => { b with retired := true } := by
  obtain ⟨retire, retired, routes, unused⟩ := out
  exact if_pos ⟨retire, retired, routes, List.all_eq_true.mpr fun e listed => decide_eq_true (unused e listed)⟩

theorem pumpRetire_waits (stays : ¬((blPort s p).retire = true ∧ (blPort s p).retired = false ∧ s.bl.newRoutes = none ∧
    ∀ e ∈ s.bl.routes, e.2 ≠ p)) : pumpRetire s p = s := by
  refine if_neg ?_
  rintro ⟨retire, retired, routes, unused⟩
  exact stays ⟨retire, retired, routes, fun e listed => of_decide_eq_true (List.all_eq_true.mp unused e listed)⟩

/-! ### Ports that are retired and restored (R292) -/

/-- A change of RETIRE leaves a port's link, and whether it carries a tree edge. -/
theorem retire_keeps_link (s : State) (p : Nat) (r x : Bool) :
    let u := updBl s p fun b => { b with retire := r, retired := x }
    blPort u p = { blPort s p with retire := r, retired := x } ∧ linked u p = linked s p ∧ routable u p = (linked s p && !r) := by
  have at_ := blPort_updBl_at s p fun b => { b with retire := r, retired := x }
  have link : linked (updBl s p fun b => { b with retire := r, retired := x }) p = linked s p := by
    unfold linked
    rw [at_]
    rfl
  refine ⟨at_, link, ?_⟩
  unfold routable
  rw [link, at_]

theorem treePort_retire (s : State) (p : Nat) : treePort (updBl s p fun b => { b with retire := true }) p = treePort s p := by
  unfold treePort
  rw [blPort_updBl_at]
  rfl

/-- RETIRE set to 1. -/
theorem portRetire_leaves (fresh_ : (blPort s p).retire = false) : portRetire s p =
    pumpRetire (if treePort s p then tellRoot (updBl s p fun b => { b with retire := true })
      else setRoutes (updBl s p fun b => { b with retire := true }) [] false
        (routesWithout (updBl s p fun b => { b with retire := true }) p)) p := by
  rw [← treePort_retire s p]
  exact if_neg (ne_true_of_eq_false fresh_)

theorem notBothManagers {b : BlPort} (worker : b.peerRole = false ∨ s.role = false) : ¬(b.peerRole = true ∧ s.role = true) := by
  rintro ⟨peer, manager⟩
  rcases worker with h | h
  · exact Bool.noConfusion (h.symm.trans peer)
  · exact Bool.noConfusion (h.symm.trans manager)

/-- A port that is no longer retired. -/
def restored (s : State) (p : Nat) : State := updBl s p fun b => { b with retire := false, retired := false }

theorem portRestore_returns (retired : (blPort s p).retire = true) : portRestore s p =
    if (blPort s p).peerRole = true ∧ s.role = true then tellRoot (restored s p)
    else if linked s p = true then setRoutes (restored s p) [] false (routesWith (restored s p) p)
    else restored s p := by
  have link : routable (restored s p) p = linked s p := ((retire_keeps_link s p false false).2.2).trans (Bool.and_true _)
  unfold portRestore
  dsimp only
  rw [retired]
  refine (if_neg (by decide)).trans ?_
  show (if _ then _ else if routable (restored s p) p = true then _ else _) = _
  rw [link]
  rfl

end

end Sys2Proof.Machine

open Sys2Proof.Machine

/-- Settles O58: discovery and the changes of routes, message by message and register by register. -/
theorem discoveryAndRoutes : Obligations.DiscoveryAndRoutes := by
  unfold Obligations.DiscoveryAndRoutes
  refine ⟨⟨?_, ?_, ?_, ?_, ?_, ?_, ?_, ?_⟩, ?_, ?_, ?_, ?_, ?_, ?_, ?_, ?_, ?_⟩
  · intro s manager links starts
    refine ⟨fun ready new free => ?_, fun idle => discoveryStart_idle (.inr idle), fun heard idle => ?_⟩
    · exact ⟨_, discoveryStart_starts manager links ready new free, startDiscovery_floods s⟩
    · exact ⟨_, (rediscover_writes heard links).trans (congrArg Host.Outcome.next (discWrite_starts idle manager)),
        startDiscovery_floods s⟩
  · intro s
    refine ⟨fun worker => discoveryStart_idle (.inl worker), fun heard links => ⟨fun worker idle => ?_, fun busy => ?_⟩⟩
    · exact (rediscover_writes heard links).trans (congrArg Host.Outcome.next (discWrite_worker idle worker))
    · exact (rediscover_writes heard links).trans (congrArg Host.Outcome.next (discWrite_busy busy))
  · intro port d s
    refine ⟨fun manager ready link free new => ?_, mgrAnnounce_idle⟩
    exact ⟨_, mgrAnnounce_passes manager ready link free new, announce_heard.1, announce_heard.2,
      fun p listed other => (announce_floods (heardOf s d) d port).2 p listed other free⟩
  · intro links boards s
    refine ⟨fun manager busy heard free => ?_, rootElection_idle⟩
    refine (rootElection_elects manager busy heard free).trans (congrArg Host.Outcome.next ?_)
    refine ite_of_iff ?_
    simp only [List.all_eq_true, decide_eq_true_eq]
  · intro links boards s free
    refine ⟨fun root => ?_, fun other assigned => ?_, fun other unassigned => ?_⟩
    · exact congrArg Host.Outcome.next ((if_neg (ne_true_of_eq_false free)).trans (if_pos root))
    · exact congrArg Host.Outcome.next ((if_neg (ne_true_of_eq_false free)).trans
        ((if_neg (ne_true_of_eq_false other)).trans (if_pos assigned)))
    · exact congrArg Host.Outcome.next ((if_neg (ne_true_of_eq_false free)).trans
        ((if_neg (ne_true_of_eq_false other)).trans (if_neg (ne_true_of_eq_false unassigned))))
  · intro links boards bus s free me used r maps own ents
    obtain ⟨⟨root, assigned, node, board, tree, res, mesh⟩, boards_, workers⟩ :=
      boardsTold_passes r maps own.2.mesh ents free
    exact ⟨_, buildTree_eq, root, assigned, node, board, tree, res, mesh, boards_, workers⟩
  · intro port node s worker there free ready from_
    refine ⟨fun one => ?_, fun more => ?_⟩
    · exact (assign_goes worker there free ready).trans (if_neg (Nat.not_lt.mpr one))
    · refine ⟨_, (assign_goes worker there free ready).trans (if_pos more), ?_⟩
      exact ⟨rfl, rfl, rfl, rfl, rfl⟩
  · intro port node s idle
    exact assign_idle idle
  · intro board mesh routes bus s free ready c
    refine ⟨route_worker free ready, route_unassigned free ready, route_root free ready, fun manager other => ?_⟩
    obtain ⟨after, passed⟩ := takeBoard_passes (s := meshed s mesh) board.toNat mesh routes (.refl _)
    have regs := takeBoard_bl (meshed s mesh) board.toNat after
    refine ⟨_, route_manager free ready manager other, ?_, ?_, ?_, ?_, fun p listed => passed p listed free⟩
    · have h := congrArg Bl.board regs
      exact h.trans ((BitVec.ofNat_toNat 6 board).trans (BitVec.setWidth_eq board))
    · have h := congrArg Bl.assigned regs
      exact h
    · have h := congrArg Bl.nodeId regs
      exact h
    · have h := congrArg Bl.mesh regs
      exact h
  · intro board mesh routes bus s idle
    refine if_pos ?_
    rcases idle with h | h
    · rw [h]
      rfl
    · rw [h]
      exact Bool.or_true _
  · intro s bus install rs n v
    exact ⟨fun all => setRoutes_eq.trans (if_pos (routesFree_iff.mpr all)),
      fun held => setRoutes_eq.trans (if_neg fun h => held (routesFree_iff.mp h))⟩
  · intro s bus n
    obtain ⟨_, routes, new, ports, reqs⟩ := routesIn_bl s n
    exact ⟨routesIn s n, switchRoutes_eq n, routes, new, ports, reqs, routesIn_installs, routesIn_keeps⟩
  · intro p s b out
    exact ⟨pumpRetire_retires, pumpRetire_waits⟩
  · intro p s heard there b
    have retires : exec (.portRetire p) s = .next (portRetire s p) := onPort_writes heard there
    have returns : exec (.portRestore p) s = .next (portRestore s p) := onPort_writes heard there
    refine ⟨fun fresh_ => ?_, fun retired => ?_, fun retired => ?_, fun fresh_ => ?_⟩
    · have leaves := retires.trans (congrArg Host.Outcome.next (portRetire_leaves fresh_))
      refine ⟨fun tree => ?_, fun plain => ?_⟩
      · exact leaves.trans (congrArg (fun x => Host.Outcome.next (pumpRetire x p)) (if_pos tree))
      · exact leaves.trans (congrArg (fun x => Host.Outcome.next (pumpRetire x p)) (if_neg (ne_true_of_eq_false plain)))
    · exact retires.trans (congrArg Host.Outcome.next (if_pos retired))
    · have back := returns.trans (congrArg Host.Outcome.next (portRestore_returns retired))
      refine ⟨fun peer manager => ?_, fun worker => ⟨fun link => ?_, fun down => ?_⟩⟩
      · exact back.trans (congrArg Host.Outcome.next (if_pos ⟨peer, manager⟩))
      · exact back.trans (congrArg Host.Outcome.next ((if_neg (notBothManagers worker)).trans (if_pos link)))
      · exact back.trans (congrArg Host.Outcome.next
          ((if_neg (notBothManagers worker)).trans (if_neg (ne_true_of_eq_false down))))
    · refine returns.trans (congrArg Host.Outcome.next (if_pos ?_))
      rw [show (blPort s p).retire = false from fresh_]
      rfl
  · intro p st s keys u
    rfl
  · intro s
    exact ⟨fun unassigned => if_pos unassigned, fun assigned => if_neg fun h => Bool.noConfusion (h.symm.trans assigned)⟩
  · intro s op dst body free
    exact mgmtTo_gives free

end

section
/-! PROOFS. Job keys are drawn, sent and installed (spec files 09 and 14, R293, R294, R297, R426, R427, R437). -/

open Sys2Proof

namespace Sys2Proof.Machine

section
variable {s u : State} {key src dst : Nat} {b : List Byte} {tagOk : Bool} {bus : Bus}

/-! ### KEY_INSTALL (R293, R426, R427) -/

theorem blobFormed_iff : blobFormed b tagOk = true ↔
    tagOk = true ∧ byteAt b 5 = 0 ∧ leAt b 6 2 < 1024 ∧ leAt b 12 4 = 0 := by
  unfold blobFormed
  rw [Bool.and_eq_true, decide_eq_true_eq, Nat.div_eq_zero_iff_lt (by decide)]

theorem blobFormed_fails (bad : ¬(tagOk = true ∧ byteAt b 5 = 0 ∧ leAt b 6 2 < 1024 ∧ leAt b 12 4 = 0)) :
    blobFormed b tagOk = false := Bool.eq_false_iff.mpr fun h => bad (blobFormed_iff.mp h)

/-- The rank of a blob: its epoch, then its generation (R293). -/
def blobRank (b : List Byte) : Nat := leAt b 8 4 * 2 ^ 32 + leAt b 0 4

/-- A blob that its destination installs. -/
def blobGood (s : State) (b : List Byte) (tagOk : Bool) : Prop :=
  (tagOk = true ∧ byteAt b 5 = 0 ∧ leAt b 6 2 < 1024 ∧ leAt b 12 4 = 0) ∧ byteAt b 4 ≠ 0 ∧ keyPart s (byteAt b 4) ≠ none ∧
    Tab.get 0 s.ps.lastKey (byteAt b 4) < blobRank b ∧ (keySlot s (byteAt b 4)).st ≠ .revoked

theorem blobGood_iff : ¬blobGood s b tagOk ↔ byteAt b 4 = 0 ∨ keyPart s (byteAt b 4) = none ∨ blobFormed b tagOk = false ∨
    blobRank b ≤ Tab.get 0 s.ps.lastKey (byteAt b 4) ∨ (keySlot s (byteAt b 4)).st = .revoked := by
  unfold blobGood
  rw [← blobFormed_iff, ← Bool.not_eq_true]
  constructor
  · intro bad
    by_cases none_ : byteAt b 4 = 0
    · exact .inl none_
    by_cases part : keyPart s (byteAt b 4) = none
    · exact .inr (.inl part)
    by_cases formed : blobFormed b tagOk = true
    · by_cases rank : Tab.get 0 s.ps.lastKey (byteAt b 4) < blobRank b
      · by_cases revoked : (keySlot s (byteAt b 4)).st = .revoked
        · exact .inr (.inr (.inr (.inr revoked)))
        · exact absurd ⟨formed, none_, part, rank, revoked⟩ bad
      · exact .inr (.inr (.inr (.inl (Nat.not_lt.mp rank))))
    · exact .inr (.inr (.inl formed))
  · rintro (h | h | h | h | h) ⟨formed, key, part, rank, revoked⟩
    · exact key h
    · exact part h
    · exact h formed
    · exact Nat.not_lt.mpr h rank
    · exact revoked h

/-- The slot of a key that has been installed. -/
def slotOf (s : State) (b : List Byte) : KeySlot :=
  { st := .active, gen := BitVec.ofNat 32 (leAt b 0 4), epoch := BitVec.ofNat 32 (leAt b 8 4), key := blobKey s b
    install := some s.tick }

/-- A complex that has installed the key of a blob. -/
def keyTaken (s : State) (b : List Byte) : State :=
  let y := updKey s (byteAt b 4) fun _ => slotOf s b
  clearNonces { y with ps := { y.ps with lastKey := Tab.set 0 y.ps.lastKey (byteAt b 4) (blobRank b) } } (byteAt b 4)

theorem takeKey_installs (good : blobGood s b tagOk) :
    takeKey s src b tagOk = mgmtTo (keyTaken s b) opKeyInstall src [0] :=
  if_neg fun bad => blobGood_iff.mpr bad good

theorem takeKey_refuses (bad : ¬blobGood s b tagOk) :
    takeKey s src b tagOk = mgmtTo (keyNote s (byteAt b 4)) opKeyInstall src [1] := if_pos (blobGood_iff.mp bad)

theorem relayKey_passes (formed : tagOk = true ∧ byteAt b 5 = 0 ∧ leAt b 6 2 < 1024 ∧ leAt b 12 4 = 0) :
    relayKey s src dst b tagOk = mgmtTo { s with ps := { s.ps with relays := s.ps.relays ++ [⟨dst, src⟩] } } opKeyInstall
      (keyMsg s (leAt b 0 4) (byteAt b 4) (blobKey s b) dst).1 (keyMsg s (leAt b 0 4) (byteAt b 4) (blobKey s b) dst).2 :=
  if_neg fun bad => Bool.noConfusion (bad.symm.trans (blobFormed_iff.mpr formed))

theorem relayKey_refuses (bad : ¬(tagOk = true ∧ byteAt b 5 = 0 ∧ leAt b 6 2 < 1024 ∧ leAt b 12 4 = 0)) :
    relayKey s src dst b tagOk = mgmtTo (keyNote s (byteAt b 4)) opKeyInstall src ([1] ++ leBytes 2 dst) :=
  if_pos (blobFormed_fails bad)

theorem keyInstall_row {hop : KeyHop} {blob : BitVec 512} (works : runsWork s = true) (links : s.build.brambles.isEmpty = false)
    (runs : s.ps.quince = .running) : execKeyInstall hop blob tagOk s = .next (
      if hop.dst = s.bl.nodeId then takeKey s hop.src.toNat (leBytes 64 blob.toNat) tagOk
      else if s.role = true then relayKey s hop.src.toNat hop.dst.toNat (leBytes 64 blob.toNat) tagOk
      else s) := by
  refine congrArg Host.Outcome.next (if_neg ?_)
  rw [works, links, runs]
  decide

/-! ### PS_JOBKEY_OP (R426) -/

/-- A complex whose PS_JOBKEY names a key. -/
def keyNamed (s : State) (key : Byte) : State := { s with ps := { s.ps with jobKey := key } }

theorem jobkeyInstall_writes {k : Byte} (heard : barOk s = true) :
    execJobkeyInstall k bus s = .next (jobWrite s bus 1 k.toNat) := congrArg Host.Outcome.next (if_pos heard)

theorem jobWrite_busy {k : Byte} (busy : s.ps.jobOp.busy = true) : jobWrite s bus 1 k.toNat = s := if_pos busy

/-- A write of INSTALL goes by the key, the role, and the locks. -/
theorem jobWrite_goes {k : Byte} (idle : s.ps.jobOp.busy = false) : jobWrite s bus 1 k.toNat =
    if k.toNat = 0 then jobDone (keyNamed s k) rFormat
    else if !(s.role && s.bl.ready) then jobDone (keyNamed s k) rState
    else if s.ps.locks.getLsbD 2 = true ∨ s.ps.quince ≠ .running then jobDone (keyNamed s k) rMgmt
    else runAct (jobInstall bus k.toNat) (keyNamed s k) (fun s _ => s)
      (fun s _ => jobDone s (BitVec.ofNat 8 (Config.freeWord s.free 0).toNat)) := by
  unfold jobWrite
  rw [(BitVec.ofNat_toNat 8 k).trans (BitVec.setWidth_eq k)]
  refine (if_neg (ne_true_of_eq_false idle)).trans (ite_of_iff ?_)
  exact or_iff_right (not_not_intro rfl)

theorem byte_toNat_ne_zero {k : Byte} (some_ : k ≠ 0) : k.toNat ≠ 0 := fun h => some_ (BitVec.eq_of_toNat_eq h)

section
variable {k : Byte} (idle : s.ps.jobOp.busy = false) (some_ : k ≠ 0)
include idle some_

theorem jobWrite_state (other : s.role = false ∨ s.bl.ready = false) :
    jobWrite s bus 1 k.toNat = jobDone (keyNamed s k) rState := by
  refine (jobWrite_goes idle).trans ((if_neg (byte_toNat_ne_zero some_)).trans (if_pos ?_))
  rcases other with h | h
  · rw [h]
    rfl
  · rw [h, Bool.and_false]
    rfl

variable (manager : s.role = true) (ready : s.bl.ready = true)
include manager ready

theorem jobWrite_manages : jobWrite s bus 1 k.toNat =
    if s.ps.locks.getLsbD 2 = true ∨ s.ps.quince ≠ .running then jobDone (keyNamed s k) rMgmt
    else runAct (jobInstall bus k.toNat) (keyNamed s k) (fun s _ => s)
      (fun s _ => jobDone s (BitVec.ofNat 8 (Config.freeWord s.free 0).toNat)) := by
  refine (jobWrite_goes idle).trans ((if_neg (byte_toNat_ne_zero some_)).trans (if_neg ?_))
  rw [manager, ready]
  decide

end

/-- A manager that has drawn a key for the nodes of a bitmap. -/
def keyDrawn (u : State) (key gen : Nat) (nodes : List Nat) : State :=
  { u with ps := { u.ps with
    draws := u.ps.draws + 1, nextGen := Tab.set 0 u.ps.nextGen key gen, jobWait := nodes, jobBad := false
    jobOp := if nodes = [] then OpReg.done rOk else OpReg.run } }

/-- The messages of a key to the nodes of a bitmap. -/
def keySent (u : State) (key gen : Nat) (nodes : List Nat) (k : BitVec 256) : State :=
  each (fun s x => mgmtTo s opKeyInstall x.1 x.2) (keyDrawn u key gen nodes) (nodes.map (keyMsg (keyDrawn u key gen nodes) gen key k))

theorem jobInstall_sends {bs : List Byte} (read : homeGet (sysVia s (s.ps.jobNodes.toNat * 128)) bus (s.ps.jobNodes.toNat * 128) 128 s = .ok bs u) :
    jobInstall bus key s = .ok () (keySent u key (Tab.get 0 s.ps.nextGen key + 1) (setBits 1024 (leNat bs)) (Config.drbg s.ps.draws)) := by
  unfold jobInstall
  exact (act_bind_ok act_get).trans ((act_bind_ok read).trans act_modify)

theorem keySent_sends (u : State) (key gen : Nat) (nodes : List Nat) (k : BitVec 256) :
    let t := keySent u key gen nodes k
    t.ps = (keyDrawn u key gen nodes).ps ∧ ∀ n ∈ nodes, safeState u = false →
      mgmtGiven u t opKeyInstall (keyMsg u gen key k n).1 (keyMsg u gen key k n).2 := by
  obtain ⟨sends, given⟩ := each_mgmtTo_sends opKeyInstall Prod.fst (fun _ x => x.2)
    (nodes.map (keyMsg (keyDrawn u key gen nodes) gen key k)) (keyDrawn u key gen nodes) fun _ _ _ => rfl
  exact ⟨sends.fields.2.1, fun n listed free => given _ (List.mem_map_of_mem listed) free⟩

/-! ### Answers (R426) -/

/-- Nodes that are still awaited after an answer. -/
theorem filter_ne_nil {l : List Nat} {n : Nat} (more : ∃ x ∈ l, x ≠ n) : l.filter (· ≠ n) ≠ [] := by
  obtain ⟨x, listed, other⟩ := more
  exact List.ne_nil_of_mem (List.mem_filter.mpr ⟨listed, decide_eq_true other⟩)

theorem filter_eq_nil {l : List Nat} {n : Nat} (last : ∀ x ∈ l, x = n) : l.filter (· ≠ n) = [] :=
  List.filter_eq_nil_iff.mpr fun x listed other => of_decide_eq_true other (last x listed)

theorem awaited_iff {busy : Bool} {l : List Nat} {n : Nat} : (busy && l.contains n) = true ↔ busy = true ∧ n ∈ l := by
  rw [Bool.and_eq_true, List.contains_iff_mem]

theorem not_awaited {busy : Bool} {l : List Nat} {n : Nat} (other : busy = false ∨ n ∉ l) : ¬(busy && l.contains n) = true := by
  rw [awaited_iff]
  rintro ⟨runs, listed⟩
  rcases other with idle | h
  · exact Bool.noConfusion (idle.symm.trans runs)
  · exact h listed

/-- The state after an awaited answer. -/
def keyAnswered (s : State) (n : Nat) (accepted : Bool) : State :=
  let left := s.ps.jobWait.filter (· ≠ n)
  let bad := s.ps.jobBad || !accepted
  { s with ps := { s.ps with
    jobWait := left, jobBad := bad, jobOp := if left = [] then OpReg.done (if bad then rRefused else rOk) else s.ps.jobOp } }

theorem keyInstallAnswered_awaited {node : BitVec 10} {accepted : Bool} (busy : s.ps.jobOp.busy = true)
    (listed : node.toNat ∈ s.ps.jobWait) : execKeyInstallAnswered node accepted s = .next (keyAnswered s node.toNat accepted) :=
  congrArg Host.Outcome.next (if_pos (awaited_iff.mpr ⟨busy, listed⟩))

theorem keyAnswered_last {n : Nat} {accepted : Bool} (last : ∀ x ∈ s.ps.jobWait, x = n) :
    (keyAnswered s n accepted).ps.jobOp = OpReg.done (if s.ps.jobBad = true ∨ accepted = false then rRefused else rOk) := by
  refine (if_pos (filter_eq_nil last)).trans (congrArg OpReg.done (ite_of_iff ?_))
  rw [Bool.or_eq_true, Bool.not_eq_true']

/-- An answer that is not awaited goes back to the manager that drew the key (log entry 97). -/
theorem keyInstallAnswered_relayed {node : BitVec 10} {accepted : Bool} {r : KeyRelay}
    (other : s.ps.jobOp.busy = false ∨ node.toNat ∉ s.ps.jobWait)
    (relay : s.ps.relays.find? (fun r => r.node = node.toNat) = some r) : execKeyInstallAnswered node accepted s =
      .next (mgmtTo { s with ps := { s.ps with relays := s.ps.relays.erase r } } opKeyInstall r.back
        ([if accepted then 0 else 1] ++ leBytes 2 node.toNat)) := by
  refine congrArg Host.Outcome.next ((if_neg (not_awaited other)).trans ?_)
  rw [relay]

theorem keyInstallAnswered_unknown {node : BitVec 10} {accepted : Bool}
    (other : s.ps.jobOp.busy = false ∨ node.toNat ∉ s.ps.jobWait)
    (relay : s.ps.relays.find? (fun r => r.node = node.toNat) = none) : execKeyInstallAnswered node accepted s = .next s := by
  refine congrArg Host.Outcome.next ((if_neg (not_awaited other)).trans ?_)
  rw [relay]

end

end Sys2Proof.Machine

open Sys2Proof.Machine

/-- Settles O59: a blob is installed, relayed or refused; a key is drawn once and sent to every node of the bitmap. -/
theorem jobKeysAreInstalled : Obligations.JobKeysAreInstalled := by
  unfold Obligations.JobKeysAreInstalled
  refine ⟨?_, ?_, ?_, ?_⟩
  · intro hop blob tagOk s works links runs b key rank formed good
    have row : exec (.keyInstall hop blob tagOk) s = _ := keyInstall_row works links runs
    refine ⟨fun here => ⟨fun fine => ?_, fun bad => ?_⟩, fun there manager => ⟨fun fine => ?_, fun bad => ?_⟩,
      fun there worker => ?_⟩
    · obtain ⟨slot, nonces, last⟩ := clearNonces_install s key (slotOf s b) (blobRank b)
      refine ⟨keyTaken s b, row.trans (congrArg Host.Outcome.next ((if_pos here).trans (takeKey_installs fine))), ?_⟩
      refine ⟨congrArg KeySlot.st slot, congrArg KeySlot.gen slot, congrArg KeySlot.epoch slot, congrArg KeySlot.install slot,
        congrArg KeySlot.key slot, nonces, last⟩
    · exact row.trans (congrArg Host.Outcome.next ((if_pos here).trans (takeKey_refuses bad)))
    · exact row.trans (congrArg Host.Outcome.next ((if_neg there).trans ((if_pos manager).trans (relayKey_passes fine))))
    · exact row.trans (congrArg Host.Outcome.next ((if_neg there).trans ((if_pos manager).trans (relayKey_refuses bad))))
    · exact row.trans (congrArg Host.Outcome.next ((if_neg there).trans (if_neg (ne_true_of_eq_false worker))))
  · intro src kind keys s
    rfl
  · intro key bus s heard v
    have row : exec (.jobkeyInstall key bus) s = _ := jobkeyInstall_writes heard
    refine ⟨fun busy => ?_, fun idle none_ => ?_, fun idle some_ => ⟨fun other => ?_, fun manager ready => ⟨fun shut => ?_, ?_⟩⟩⟩
    · exact row.trans (congrArg Host.Outcome.next (jobWrite_busy busy))
    · refine row.trans (congrArg Host.Outcome.next ((jobWrite_goes idle).trans (if_pos ?_)))
      rw [none_]
      rfl
    · exact row.trans (congrArg Host.Outcome.next (jobWrite_state idle some_ other))
    · exact row.trans (congrArg Host.Outcome.next ((jobWrite_manages idle some_ manager ready).trans (if_pos shut)))
    · intro bs u unlocked runs read nodes gen
      have open_ : ¬(s.ps.locks.getLsbD 2 = true ∨ s.ps.quince ≠ .running) := fun h =>
        h.elim (ne_true_of_eq_false unlocked) fun h => h runs
      have sends : jobInstall bus key.toNat v = .ok () (keySent u key.toNat gen nodes (Config.drbg s.ps.draws)) :=
        jobInstall_sends read
      clear_value nodes gen
      obtain ⟨ps, given⟩ := keySent_sends u key.toNat gen nodes (Config.drbg s.ps.draws)
      refine ⟨keySent u key.toNat gen nodes (Config.drbg s.ps.draws), ?_, ?_, ?_, ?_, fun none_ => ?_, fun some_ => ?_, given⟩
      · exact row.trans (congrArg Host.Outcome.next ((jobWrite_manages idle some_ manager ready).trans
          ((if_neg open_).trans (runAct_ok sends))))
      · exact congrArg Ps.draws ps
      · exact (congrArg (fun x : Ps => Tab.get 0 x.nextGen key.toNat) ps).trans Tab.get_set_same
      · exact congrArg Ps.jobWait ps
      · exact (congrArg Ps.jobOp ps).trans (if_pos none_)
      · exact (congrArg (fun x : Ps => x.jobOp.busy) ps).trans (congrArg OpReg.busy (if_neg some_))
  · intro node accepted s
    refine ⟨fun busy listed => ?_, fun other => ⟨fun r relay => ?_, fun relay => ?_⟩⟩
    · exact ⟨keyAnswered s node.toNat accepted, keyInstallAnswered_awaited busy listed, rfl, fun more => if_neg (filter_ne_nil more),
        keyAnswered_last⟩
    · exact keyInstallAnswered_relayed other relay
    · exact keyInstallAnswered_unknown other relay

end

section
/-! PROOFS. Shard directories are published, installed and withdrawn (spec file 10, R314 to R317). -/

open Sys2Proof

namespace Sys2Proof.Machine

section
variable {s u v w : State} {src : BitVec 10} {slot : Nat} {img : List Byte} {bus : Bus}

/-! ### SHARD_DIR (R316, R317) -/

section
variable {hdr : BitVec 128} {entries : List (BitVec 128)} {map : List Byte} (works : runsWork s = true)
  (links : s.build.brambles.isEmpty = false) (inside : slot < 64)
include works links inside

theorem shardDir_heard : ¬(!runsWork s || s.build.brambles.isEmpty || decide (64 ≤ slot)) = true := by
  rw [works, links, decide_eq_false (Nat.not_le.mpr inside)]
  decide

theorem shardDir_off (off : s.bl.shardEn = false) : execShardDir src slot hdr entries map bus s = .next (dirNote s) := by
  refine (if_neg (shardDir_heard works links inside)).trans (if_pos ?_)
  rw [off]
  rfl

variable (on : s.bl.shardEn = true)
include on

/-- A message without entries and map withdraws the slot. -/
theorem shardDir_withdraws (bare : entries = [] ∧ map = []) : execShardDir src slot hdr entries map bus s =
    .next (dirAck (updDir (dropDirWait s slot) slot fun d => { d with valid := false }) src.toNat) :=
  (if_neg (shardDir_heard works links inside)).trans ((if_neg (check_passes on)).trans (if_pos bare))

theorem shardDir_takes (image : entries ≠ [] ∨ map ≠ []) : execShardDir src slot hdr entries map bus s =
    .next (takeImage s bus src slot (dirImage hdr entries map) (dirBad s (dirImage hdr entries map) entries map)) :=
  (if_neg (shardDir_heard works links inside)).trans ((if_neg (check_passes on)).trans
    (if_neg fun bare => image.elim (fun h => h bare.1) fun h => h bare.2))

end

/-! ### An image is placed (R316, R317) -/

theorem placeImage_waits (held : imageHeld s slot (!(dirOf s slot).cur) = true) : placeImage s bus src slot img =
    { s with bl := { s.bl with dirWait := Tab.insert s.bl.dirWait slot ⟨src, img⟩ } } := if_pos held

theorem placeImage_installs (free : imageHeld s slot (!(dirOf s slot).cur) = false) {ok : Bool}
    (installs : installDir bus slot img (dropDirWait s slot) = .ok ok u) :
    placeImage s bus src slot img = dirAck (if ok then u else dirNote u) src.toNat :=
  (if_neg (ne_true_of_eq_false free)).trans (runAct_ok installs)

/-- Another slot names the handle of the image. -/
theorem installDir_taken {x : Shard} (entry : entryFor img v.bl.nodeId.toNat = some x)
    (taken : handleTaken bus slot x.handle (List.range 64) v = .ok true u) : installDir bus slot img v = .ok false u := by
  unfold installDir
  refine (act_bind_ok act_get).trans ?_
  rw [entry]
  exact (act_bind_ok taken).trans rfl

/-- The place of the image that is not in use. -/
def spareAddr (s : State) (slot : Nat) : Nat := dirAddr s slot (!(dirOf s slot).cur)

/-- A slot whose new image is current. -/
def imageTaken (s : State) (slot : Nat) : State := updDir s slot fun d => { valid := true, cur := !d.cur }

/-- An image that is written beside the one in use. -/
theorem installDir_writes
    (named : ∀ x, entryFor img v.bl.nodeId.toNat = some x → handleTaken bus slot x.handle (List.range 64) v = .ok false u)
    (unnamed : entryFor img v.bl.nodeId.toNat = none → u = v)
    (put : homePut (sysVia u (spareAddr u slot)) bus (spareAddr u slot) img u = .ok () w) :
    installDir bus slot img v = .ok true (imageTaken w slot) := by
  unfold installDir
  refine (act_bind_ok act_get).trans ?_
  cases entry : entryFor img v.bl.nodeId.toNat with
  | none =>
    rw [unnamed entry] at put
    exact (act_bind_ok (rfl : (pure false : Act Bool) v = .ok false v)).trans
      ((act_bind_ok act_get).trans ((act_bind_ok put).trans ((act_bind_ok act_modify).trans rfl)))
  | some x =>
    exact (act_bind_ok (named x entry)).trans ((act_bind_ok act_get).trans ((act_bind_ok put).trans ((act_bind_ok act_modify).trans rfl)))

/-! ### BL_SHARD_OP (R316) -/

/-- A complex whose BL_SHARD_OP names a slot. -/
def slotNamed (s : State) (slot : BitVec 6) : State := { s with bl := { s.bl with shardSlot := slot } }

section
variable {d : BitVec 6}

theorem shardOp_writes {t : State} (heard : barOk s = true) (links : s.build.brambles.isEmpty = false) :
    (Host.Outcome.next (if barOk s && !s.build.brambles.isEmpty then t else s) : Res) = .next t := by
  refine congrArg Host.Outcome.next (if_pos ?_)
  rw [heard, links]
  rfl

theorem shardWrite_busy {op : Nat} (busy : s.bl.shardOp.busy = true) : shardWrite s bus op d.toNat = s := if_pos busy

/-- PUBLISH and WITHDRAW go by the role. -/
theorem shardWrite_goes {op : Nat} (idle : s.bl.shardOp.busy = false) (op_ : op = 1 ∨ op = 2) : shardWrite s bus op d.toNat =
    if !(s.role && s.bl.ready) then shardDone (slotNamed s d) rState
    else if op = 2 then floodDir (slotNamed s d) d.toNat []
    else runAct (publishAct bus d.toNat) (slotNamed s d) (fun s _ => s)
      (fun s _ => shardDone s (BitVec.ofNat 8 (Config.freeWord s.free 0).toNat)) := by
  unfold shardWrite
  rw [(BitVec.ofNat_toNat 6 d).trans (BitVec.setWidth_eq d)]
  refine (if_neg (ne_true_of_eq_false idle)).trans ((if_neg ?_).trans rfl)
  rintro ⟨first, second⟩
  exact op_.elim first second

theorem shardWrite_state {op : Nat} (idle : s.bl.shardOp.busy = false) (op_ : op = 1 ∨ op = 2)
    (other : s.role = false ∨ s.bl.ready = false) : shardWrite s bus op d.toNat = shardDone (slotNamed s d) rState := by
  refine (shardWrite_goes idle op_).trans (if_pos ?_)
  rcases other with h | h
  · rw [h]
    rfl
  · rw [h, Bool.and_false]
    rfl

section
variable (idle : s.bl.shardOp.busy = false) (manager : s.role = true) (ready : s.bl.ready = true)
include idle manager ready

theorem shardWrite_withdraws : shardWrite s bus 2 d.toNat = floodDir (slotNamed s d) d.toNat [] :=
  (shardWrite_goes idle (.inr rfl)).trans ((if_neg (check_passes (Bool.and_eq_true_iff.mpr ⟨manager, ready⟩))).trans (if_pos rfl))

theorem shardWrite_publishes {t : State} (publishes : publishAct bus d.toNat (slotNamed s d) = .ok () t) :
    shardWrite s bus 1 d.toNat = t :=
  (shardWrite_goes idle (.inl rfl)).trans ((if_neg (check_passes (Bool.and_eq_true_iff.mpr ⟨manager, ready⟩))).trans
    ((if_neg (by decide)).trans (runAct_ok publishes)))

end

end

/-- The body of a published image: its header with the generation, its entries, its map (R316). -/
def publishBody (bs : List Byte) (gen : Nat) : List Byte :=
  patch (bs.take 16) 12 (leBytes 4 (gen % 2 ^ 32)) ++ (bs.drop 4096).take (16 * min 256 (imgShards bs)) ++ (bs.drop 8192).take 4096

/-- The staging image of the local complex. -/
def stageAddr (s : State) : Nat := s.bl.shardBase.toNat * 0x400000 + 0x200000

section
variable {bs : List Byte} (read : homeGet (sysVia v (stageAddr v)) bus (stageAddr v) 16384 v = .ok bs u)
include read

/-- The first image of a slot has generation 1. -/
theorem publishAct_first (empty_ : (dirOf u slot).valid = false) :
    publishAct bus slot v = .ok () (floodDir u slot (publishBody bs 1)) := by
  unfold publishAct
  refine (act_bind_ok act_get).trans ((act_bind_ok read).trans ((act_bind_ok act_get).trans ?_))
  refine (congrArg (fun m : Act Unit => m u) (if_neg (ne_true_of_eq_false empty_))).trans ?_
  exact act_modify

/-- Another image of a slot takes the next generation. -/
theorem publishAct_next {g : List Byte} (valid : (dirOf u slot).valid = true)
    (gen : homeGet (sysVia u (dirAddr u slot (dirOf u slot).cur)) bus (dirAddr u slot (dirOf u slot).cur + 12) 4 u = .ok g w) :
    publishAct bus slot v = .ok () (floodDir w slot (publishBody bs (leNat g + 1))) := by
  unfold publishAct
  refine (act_bind_ok act_get).trans ((act_bind_ok read).trans ((act_bind_ok act_get).trans ?_))
  refine (congrArg (fun m : Act Unit => m u) (if_pos valid)).trans ?_
  exact (act_bind_ok gen).trans act_modify

end

/-! ### Acknowledgements (R316) -/

/-- The state after an awaited acknowledgement. -/
def dirAcknowledged (s : State) (n : Nat) : State :=
  let left := s.bl.shardWait.filter (· ≠ n)
  { s with bl := { s.bl with shardWait := left, shardOp := if left = [] then OpReg.done rOk else s.bl.shardOp } }

theorem shardDirAcknowledged_awaited {node : BitVec 10} (busy : s.bl.shardOp.busy = true) (listed : node.toNat ∈ s.bl.shardWait) :
    execShardDirAcknowledged node s = .next (dirAcknowledged s node.toNat) :=
  congrArg Host.Outcome.next (if_pos (awaited_iff.mpr ⟨busy, listed⟩))

end

end Sys2Proof.Machine

open Sys2Proof.Machine

/-- Settles O60: an image is checked, placed and acknowledged; a manager floods what it publishes. -/
theorem shardDirectoriesAreInstalled : Obligations.ShardDirectoriesAreInstalled := by
  unfold Obligations.ShardDirectoriesAreInstalled
  refine ⟨?_, ?_, ?_, ?_, ?_⟩
  · intro src slot hdr entries map bus s works links inside img c
    refine ⟨fun off => shardDir_off works links inside off, fun on => ⟨fun none_ bare => ?_, fun image => ⟨fun bad => ?_, fun fine => ?_⟩⟩⟩
    · exact ⟨_, shardDir_withdraws works links inside on ⟨none_, bare⟩, dirOf_updDir _ _ _, Tab.find_erase_same⟩
    · exact (shardDir_takes works links inside on image).trans (congrArg Host.Outcome.next (if_pos bad))
    · exact (shardDir_takes works links inside on image).trans (congrArg Host.Outcome.next (if_neg (ne_true_of_eq_false fine)))
  · intro src slot img bus s
    refine ⟨placeImage_waits, fun free => ?_⟩
    intro v
    refine ⟨fun x u entry taken => ?_, fun u w named unnamed put => ?_⟩
    · exact placeImage_installs free (installDir_taken entry taken)
    · exact ⟨imageTaken w slot, placeImage_installs free (installDir_writes named unnamed put), dirOf_updDir _ _ _, rfl⟩
  · intro s bus
    rfl
  · intro slot bus s heard links
    have publish : exec (.publish slot bus) s = .next (shardWrite s bus 1 slot.toNat) := shardOp_writes heard links
    have withdraw : exec (.withdraw slot) s = .next (shardWrite s [] 2 slot.toNat) := shardOp_writes heard links
    refine ⟨fun busy => ⟨?_, ?_⟩, fun idle => ⟨fun other => ?_, fun manager ready => ⟨?_, ?_⟩⟩⟩
    · exact publish.trans (congrArg Host.Outcome.next (shardWrite_busy busy))
    · exact withdraw.trans (congrArg Host.Outcome.next (shardWrite_busy busy))
    · exact ⟨shardDone (slotNamed s slot) rState,
        publish.trans (congrArg Host.Outcome.next (shardWrite_state idle (.inl rfl) other)),
        withdraw.trans (congrArg Host.Outcome.next (shardWrite_state idle (.inr rfl) other)), rfl⟩
    · obtain ⟨busy, wait, given⟩ := floodDir_sends (slotNamed s slot) slot.toNat []
      rw [List.append_nil] at given
      exact ⟨_, withdraw.trans (congrArg Host.Outcome.next (shardWrite_withdraws idle manager ready)), busy, wait, given⟩
    · intro a bs u at_ v read n d sends
      subst at_
      refine ⟨fun empty_ => ?_, fun g w valid gen => ?_⟩
      · obtain ⟨busy, wait, given⟩ := floodDir_sends u slot.toNat (publishBody bs 1)
        exact ⟨_, publish.trans (congrArg Host.Outcome.next (shardWrite_publishes idle manager ready
          (publishAct_first (v := slotNamed s slot) read empty_))), busy, wait, given⟩
      · obtain ⟨busy, wait, given⟩ := floodDir_sends w slot.toNat (publishBody bs (leNat g + 1))
        exact ⟨_, publish.trans (congrArg Host.Outcome.next (shardWrite_publishes idle manager ready
          (publishAct_next (v := slotNamed s slot) read valid gen))), busy, wait, given⟩
  · intro node s
    refine ⟨fun busy listed => ?_, fun other => congrArg Host.Outcome.next (if_neg (not_awaited other))⟩
    exact ⟨dirAcknowledged s node.toNat, shardDirAcknowledged_awaited busy listed, rfl, fun more => if_neg (filter_ne_nil more),
      fun last => if_pos (filter_eq_nil last)⟩

end
